-- ==== Sys2Proof/Word.lean ====
section
/-! DEFINITION. The word types of the Golanris G4 and their plainest arithmetic. -/

namespace Sys2Proof

/-- A byte of memory. -/
abbrev Byte := BitVec 8

/-- The contents of an x or k register (04_registers R74, R77). -/
abbrev W32 := BitVec 32

/-- A 64-bit value: an instruction word, a y register, an address (03_encoding R51). -/
abbrev W64 := BitVec 64

/-- A vector clock of the four dies of one package (12_ordering R212). -/
structure Vec where
  d0 : Nat
  d1 : Nat
  d2 : Nat
  d3 : Nat
  deriving DecidableEq, Repr, Inhabited

/-- The entry of die `i`. -/
def Vec.get (v : Vec) (i : Nat) : Nat :=
  match i with
  | 0 => v.d0
  | 1 => v.d1
  | 2 => v.d2
  | _ => v.d3

/-- `v` with the entry of die `i` set to `n`. -/
def Vec.set (v : Vec) (i n : Nat) : Vec :=
  match i with
  | 0 => { v with d0 := n }
  | 1 => { v with d1 := n }
  | 2 => { v with d2 := n }
  | _ => { v with d3 := n }

/-- The all-zero clock. -/
def Vec.zero : Vec := ⟨0, 0, 0, 0⟩

/-- The entrywise maximum. -/
def Vec.join (a b : Vec) : Vec :=
  ⟨max a.d0 b.d0, max a.d1 b.d1, max a.d2 b.d2, max a.d3 b.d3⟩

/-- `a` covers `b`: every entry of `a` is at least that of `b`. -/
def Vec.covers (a b : Vec) : Bool :=
  b.d0 ≤ a.d0 && b.d1 ≤ a.d1 && b.d2 ≤ a.d2 && b.d3 ≤ a.d3

end Sys2Proof
end

