-- ==== Sys2Proof/Config.lean ====
section
/-! DEFINITION. What one implementation fixes (the G4's figures) and the model's free values. -/

namespace Sys2Proof.Config

/-- GWIDTH of the G4 (00_scope R6). -/
def gwidth : Nat := 64

/-- log2 GWIDTH. -/
def lgwidth : Nat := 6

/-- Cores of a package (R8). -/
def coresPerPkg : Nat := 640

/-- Quads of a package (R8). -/
def quadsPerPkg : Nat := 160

/-- Functions of a package: the physical function and 256 virtual functions (18_queues R282). -/
def fnsPerPkg : Nat := 257

/-- Launch contexts of a package (01_machine R24). -/
def ctxsPerPkg : Nat := 256

/-- Headspace units of a package: 512 channel units and 4 port units (23_index R347). -/
def unitsPerPkg : Nat := 516

/-- A free choice among the events that the spec leaves unordered when no input names one (assumption 1):
the machine reads it at its turn counter; nothing in Lean can tell its value. -/
opaque freeChoice : Nat → Nat

/-- Which entry a full TLB gives up (11_memories R200 names replacement and no policy; assumption 2). -/
opaque freeVictim : Nat → Nat

/-- Which of the two allowed values a byte of a copy's source that the copy has overwritten, or a word that a store overwrites under
a plane operation, reads as (14_engines R242, 08_planes R149; assumption 2). -/
opaque freeRace : Nat → Bool

/-- A byte of a part of memory whose layout the spec leaves to the implementation: the unspecified bytes of a
telemetry record or of a save slot (assumption 2). -/
opaque freeByte : Nat → Byte

/-- How many A-cycles within its bound a plane-queue operation without an exact time takes (08_planes R148; assumption 2). -/
opaque freeTime : Nat → Nat

/-- In how many I-cycles, 0 to 2, a SWR of a debug register takes effect: R183 fixes words issued 2 I-cycles after it and leaves earlier
ones open (10_trap_state; assumption 2). -/
opaque freeDelay : Nat → Fin 3

/-- The norm of a codebook vector that HSPUB inserts: its record names no codebook table (23_index R359; assumption 2). -/
opaque freeNorm : Nat → BitVec 32

end Sys2Proof.Config
end

