-- ==== Sys2Proof/Syntax.lean ====
section
/-! DEFINITION. The instructions of the Golanris G4: one constructor of Instr for every row of the opcode table
(the 130 opcodes of 03_encoding R70 with their forms, the 42 pair halves of R63, and the part's own events). -/

namespace Sys2Proof

/-- An x register number (R56). -/
abbrev XReg := BitVec 7

/-- A k register number (R56). -/
abbrev KReg := BitVec 6

/-- A predicate number (R58). -/
abbrev QReg := BitVec 3

/-- An accumulator number (R56). -/
abbrev AReg := BitVec 3

/-- Operand widths of X[12:11] (R61). -/
inductive Width where
  | w32 | w64 | w16 | w8
  deriving DecidableEq, Repr, Inhabited

/-- The number of bits of a width. -/
def Width.bits : Width → Nat
  | .w32 => 32
  | .w64 => 64
  | .w16 => 16
  | .w8 => 8

/-- The number of bytes of a width. -/
def Width.bytes : Width → Nat
  | .w32 => 4
  | .w64 => 8
  | .w16 => 2
  | .w8 => 1

/-- An integer type: width and signedness (R61). -/
structure ITy where
  w : Width
  sg : Bool
  deriving DecidableEq, Repr, Inhabited

/-- Scalar float formats (02_numbers R33, R61). -/
inductive FFmt where
  | f32 | f16 | bf16
  deriving DecidableEq, Repr, Inhabited

/-- The formats of the format-code table (06_float R116). -/
inductive NFmt where
  | f32 | f16 | bf16 | e4m3 | e5m2 | e2m1 | e8m0
  deriving DecidableEq, Repr, Inhabited

/-- Rounding modes (02_numbers R34). -/
inductive RM where
  | rne | rtz | rup | rdn | rna
  deriving DecidableEq, Repr, Inhabited

/-- An operand that a thread reads (R56); accumulators have fields of their own where an entry allows them. -/
inductive Opnd where
  | x (n : XReg)
  | k (n : KReg)
  | zero
  | lane
  | gwidth
  | tid
  | imm (v : BitVec 5)
  deriving DecidableEq, Repr, Inhabited

/-- A 64-bit base or pair: an even x or k register (R54). -/
inductive Base where
  | x (n : XReg)
  | k (n : KReg)
  deriving DecidableEq, Repr, Inhabited

/-- A destination that may be a k register (R57, R77). -/
inductive Dst where
  | x (n : XReg)
  | k (n : KReg)
  deriving DecidableEq, Repr, Inhabited

/-- A guard (R58). -/
structure Guard where
  neg : Bool
  q : QReg
  deriving DecidableEq, Repr, Inhabited

/-- Classes of the source modifier (R59). -/
inductive SCls where
  | rot | bfly | bcast
  deriving DecidableEq, Repr, Inhabited

/-- A nonzero source modifier (R59). -/
structure SMod where
  cls : SCls
  rel : Bool
  s : BitVec 4
  d : BitVec 5
  deriving DecidableEq, Repr, Inhabited

/-- Destination, two sources, modifier and guard of an F-form (R53). -/
structure F3 where
  d : XReg
  a : Opnd
  b : Opnd
  sm : Option SMod
  g : Guard
  deriving DecidableEq, Repr, Inhabited

/-- Destination, one source, modifier and guard of a one-source F-form (R55). -/
structure F2 where
  d : XReg
  b : Opnd
  sm : Option SMod
  g : Guard
  deriving DecidableEq, Repr, Inhabited

/-- Two sources and a predicate destination (R57). -/
structure FP where
  q : QReg
  a : Opnd
  b : Opnd
  sm : Option SMod
  g : Guard
  deriving DecidableEq, Repr, Inhabited

/-- A selecting predicate of SEL and VOTE: number and negation (R100, R128). -/
structure PSrc where
  neg : Bool
  q : QReg
  deriving DecidableEq, Repr, Inhabited

/-- Conditions of CMP (R101). -/
inductive ICond where
  | eq | ne | lt | le | gt | ge
  deriving DecidableEq, Repr, Inhabited

/-- Conditions of FCMP (R112). -/
inductive FCond where
  | eq | ne | lt | le | gt | ge | un | or
  deriving DecidableEq, Repr, Inhabited

/-- Conditions of BRC (R163). -/
inductive BCond where
  | eqz | nez | ltz | gez | gtz | lez
  deriving DecidableEq, Repr, Inhabited

/-- A kinds of FSCALEACC (R121). -/
inductive AKind where
  | i48 | i64 | f32
  deriving DecidableEq, Repr, Inhabited

/-- The value type of ORDKEY (R122). -/
inductive KeyTy where
  | int (t : ITy)
  | flt (f : FFmt)
  deriving DecidableEq, Repr, Inhabited

/-- Widths of the lane moves, 32 or 64 (R125). -/
inductive W2 where
  | w32 | w64
  deriving DecidableEq, Repr, Inhabited

/-- Modes of SHUFX (R127). -/
inductive ShMode where
  | up | down | xor | idx
  deriving DecidableEq, Repr, Inhabited

/-- Segment code g of group 2: 0 the whole group, else 2^g lanes (R125). -/
abbrev Seg := BitVec 3

/-- Destination and mode of VOTE (R128). -/
inductive VoteDst where
  | all (q : QReg)
  | any (q : QReg)
  | ballot (d : XReg)
  | ballotHi (d : XReg)
  deriving DecidableEq, Repr, Inhabited

/-- Operators of REDUCE, SCAN and CAVITY (R131). -/
inductive LOp where
  | add | max | min | and | or | xor | mul
  deriving DecidableEq, Repr, Inhabited

/-- Type of a lane combination: integer, or float with a rounding mode (R131). -/
inductive LTy where
  | int (t : ITy)
  | flt (f : FFmt) (rm : RM)
  deriving DecidableEq, Repr, Inhabited

/-- Memory orders (13_memory_instr R227). -/
inductive MOrd where
  | rlx | acq | rel | ar | sc
  deriving DecidableEq, Repr, Inhabited

/-- Scopes (01_machine R12). -/
inductive Scope where
  | lane | core | quad | die | pkg | pod
  deriving DecidableEq, Repr, Inhabited

/-- Order and scope of an access (R227). -/
structure MO where
  o : MOrd
  sc : Scope
  deriving DecidableEq, Repr, Inhabited

/-- Address operand of an M-form: base, scaled offset and guard (R54). -/
structure MAddr where
  a : Base
  off : BitVec 12
  g : Guard
  deriving DecidableEq, Repr, Inhabited

/-- Element counts of LDV and STV (R230). -/
inductive VCnt where
  | x2 | x4 | x8
  deriving DecidableEq, Repr, Inhabited

/-- Operations of ATOM (R231). -/
inductive AOp where
  | add | sub | and | or | xor | min | max | xchg | fadd
  deriving DecidableEq, Repr, Inhabited

/-- Parts read by INCRD (R171). -/
inductive IncPart where
  | key | pay | both
  deriving DecidableEq, Repr, Inhabited

/-- Operands of an E-form: ticket register, even k base, offset, guard (R54, R240). -/
structure EArgs where
  d : XReg
  a : KReg
  off : BitVec 12
  g : Guard
  deriving DecidableEq, Repr, Inhabited

/-- Scopes of ICFLUSH (R192). -/
inductive IcScope where
  | core | die | pkg
  deriving DecidableEq, Repr, Inhabited

/-- Scopes of TLBINV (R323). -/
inductive TiScope where
  | die | pkg
  deriving DecidableEq, Repr, Inhabited

/-- Half opcodes (R63). -/
inductive HOp where
  | add | sub | mul | minI32 | minN32 | maxI32 | maxN32 | absI32 | and | or | xor | andn | shl | shr | sar | rol
  | popc | clz | ctz | brev | mov
  | fadd | fsub | fmul | fmin | fmax | frcp | fsqrt | frsq | fexp2 | flog2 | frnd
  | ldB32 | stB32 | ldB64 | stB64 | pref
  | perm | reduceAddI32 | reduceMaxI32 | reduceMinI32 | scanAddI32
  deriving DecidableEq, Repr, Inhabited

/-- Fields of a pair half beside its opcode (R62): D, S, guard and short source modifier
(`none`, or rotate by 2^n with segment GWIDTH). -/
structure HArgs where
  d : XReg
  s : Opnd
  g : Guard
  ss : Option (BitVec 3)
  deriving DecidableEq, Repr, Inhabited

/-- A pair half (R62). -/
structure Half where
  op : HOp
  args : HArgs
  deriving DecidableEq, Repr, Inhabited

/-- The instructions: one constructor per row of the opcode table, named after the row.
The first words are full forms (R53), the `Half` constructors pair words named by their first half (R62), the rest the
part's own events, which no word encodes. -/
inductive Instr where
  | add (o : F3) (t : ITy) (sat : Bool)   -- ADD, R92
  | sub (o : F3) (t : ITy) (sat : Bool)   -- SUB, R92
  | addc (o : F3) (w : W2) (borrow : Bool)   -- ADDC, R94
  | mul (o : F3) (t : ITy) (sat : Bool)   -- MUL, R92
  | mulh (o : F3) (w : W2) (sg : Bool)   -- MULH, R92
  | mad (o : F3) (c : Opnd) (t : ITy) (sat : Bool)   -- MAD, R95
  | div (o : F3) (t : ITy) (sat : Bool)   -- DIV, R93
  | rem (o : F3) (t : ITy)   -- REM, R93
  | min (o : F3) (t : ITy)   -- MIN, R92
  | max (o : F3) (t : ITy)   -- MAX, R92
  | abs (o : F2) (w : Width) (sat : Bool)   -- ABS, R92
  | and (o : F3) (t : ITy)   -- AND, R96
  | or (o : F3) (t : ITy)   -- OR, R96
  | xor (o : F3) (t : ITy)   -- XOR, R96
  | andn (o : F3) (t : ITy)   -- ANDN, R96
  | shl (o : F3) (t : ITy) (sat : Bool)   -- SHL, R97
  | shr (o : F3) (t : ITy)   -- SHR, R97
  | sar (o : F3) (t : ITy)   -- SAR, R97
  | rol (o : F3) (t : ITy)   -- ROL, R97
  | popc (o : F2) (w : Width)   -- POPC, R98
  | clz (o : F2) (w : Width)   -- CLZ, R98
  | ctz (o : F2) (w : Width)   -- CTZ, R98
  | brev (o : F2) (t : ITy)   -- BREV, R98
  | bfx (o : F3) (t : ITy)   -- BFX, R99
  | bfi (o : F3) (t : ITy)   -- BFI, R99
  | sel (o : F3) (t : ITy) (p : PSrc)   -- SEL, R100
  | cmp (o : FP) (t : ITy) (c : ICond)   -- CMP, R101
  | mov (d : Dst) (b : Opnd) (sm : Option SMod) (g : Guard) (t : ITy)   -- MOV, R102
  | movi (d : Dst) (g : Guard) (v : W32)   -- MOVI, R103
  | moviI64 (d : XReg) (g : Guard) (v : BitVec 33)   -- MOVI_I64, R103
  | lea (d : XReg) (m : MAddr) (b : Opnd) (t : ITy)   -- LEA, R104
  | addi (d : XReg) (a : Opnd) (g : Guard) (v : BitVec 33)   -- ADDI, R105
  | fadd (o : F3) (f : FFmt) (rm : RM)   -- FADD, R109
  | fsub (o : F3) (f : FFmt) (rm : RM)   -- FSUB, R109
  | fmul (o : F3) (f : FFmt) (rm : RM)   -- FMUL, R109
  | ffma (o : F3) (c : Opnd) (f : FFmt) (rm : RM)   -- FFMA, R109
  | fmin (o : F3) (f : FFmt)   -- FMIN, R111
  | fmax (o : F3) (f : FFmt)   -- FMAX, R111
  | fcmp (o : FP) (f : FFmt) (c : FCond)   -- FCMP, R112
  | fclass (o : F2) (f : FFmt)   -- FCLASS, R113
  | frcp (o : F2) (f : FFmt)   -- FRCP, R114
  | fsqrt (o : F2) (f : FFmt)   -- FSQRT, R114
  | frsq (o : F2) (f : FFmt)   -- FRSQ, R114
  | fexp2 (o : F2) (f : FFmt)   -- FEXP2, R114
  | flog2 (o : F2) (f : FFmt)   -- FLOG2, R114
  | fsint (o : F2) (f : FFmt)   -- FSINT, R114
  | fcost (o : F2) (f : FFmt)   -- FCOST, R114
  | fcvt (o : F2) (dst src : NFmt) (rm : RM) (sat : Bool)   -- FCVT, R117
  | fcvti (o : F2) (t : ITy) (src : FFmt) (rm : RM) (sat : Bool)   -- FCVTI, R118
  | icvtf (o : F2) (t : ITy) (dst : FFmt) (rm : RM)   -- ICVTF, R119
  | fpack (o : F3) (t : NFmt) (sat : Bool)   -- FPACK, R120
  | funpk (o : F3) (t : NFmt)   -- FUNPK, R120
  | fscaleacc (o : F3) (f : FFmt) (rm : RM) (sat : Bool) (ak : AKind) (e8m0 : Bool)   -- FSCALEACC, R121
  | ordkey (o : F2) (t : KeyTy)   -- ORDKEY, R122
  | fdot2 (o : F3) (bf : Bool) (rm : RM)   -- FDOT2, R110
  | frnd (o : F2) (f : FFmt) (rm : RM)   -- FRND, R115
  | perm (o : F3) (w : W2)   -- PERM, R126
  | shufx (o : F3) (w : W2) (seg : Seg) (m : ShMode)   -- SHUFX, R127
  | vote (d : VoteDst) (p : PSrc) (g : Guard)   -- VOTE, R128
  | matchL (o : F2) (w : W2) (hi : Bool)   -- MATCH, R129
  | reduce (o : F2) (t : LTy) (seg : Seg) (op : LOp)   -- REDUCE, R132
  | scan (o : F2) (t : LTy) (seg : Seg) (op : LOp)   -- SCAN, R132
  | lscan (o : F3) (f : FFmt) (seg : Seg)   -- LSCAN, R134
  | cavity (o : F2) (t : LTy) (seg : Seg) (op : LOp)   -- CAVITY, R133
  | fwds (b : Opnd) (sm : Option SMod) (g : Guard) (w : W2) (ch : BitVec 2) (blk : BitVec 2)   -- FWDS, R136
  | fwdr (d : XReg) (g : Guard) (w : W2) (ch : BitVec 2) (blk : BitVec 2)   -- FWDR, R137
  | elect (q : QReg) (g : Guard)   -- ELECT, R130
  | tdesc (slot : BitVec 4) (a : XReg) (g : Guard)   -- TDESC, R144
  | plane (dst src : BitVec 4) (i : BitVec 5) (g : Guard)   -- PLANE, R151
  | align (dst src : BitVec 4) (i : BitVec 5) (g : Guard)   -- ALIGN, R152
  | cbload (m : MAddr)   -- CBLOAD, R327
  | mma (acc : AReg) (ta tb : BitVec 4) (pair : Bool) (g : Guard)   -- MMA, R153
  | mmac (acc : AReg) (ta tb : BitVec 4) (pair : Bool) (g : Guard)   -- MMAC, R153
  | accz (mask : BitVec 8) (pair : Bool) (g : Guard)   -- ACCZ, R155
  | accrd (d : XReg) (acc : AReg) (b : Opnd) (sm : Option SMod) (g : Guard)   -- ACCRD, R156
  | accst (acc : AReg) (m : MAddr) (b : XReg)   -- ACCST, R157
  | mmawait (mask : BitVec 8) (g : Guard)   -- MMAWAIT, R158
  | bra (g : Guard) (v : BitVec 33)   -- BRA, R163
  | brc (c : BCond) (a : Opnd) (g : Guard) (v : BitVec 33)   -- BRC, R163
  | call (d : XReg) (g : Guard) (v : BitVec 33)   -- CALL, R163
  | ret (b : Base) (g : Guard)   -- RET, R163
  | jmpi (b : Base) (g : Guard)   -- JMPI, R163
  | jmpiLink (d : XReg) (b : Base) (g : Guard)   -- JMPI_LINK, R163
  | rjoin (n : BitVec 4) (g : Guard)   -- RJOIN, R164
  | rwait (n : BitVec 4) (g : Guard)   -- RWAIT, R165
  | exit (g : Guard)   -- EXIT, R167
  | nop (g : Guard)   -- NOP, R167
  | yield (g : Guard)   -- YIELD, R167
  | shield (n : BitVec 33) (g : Guard)   -- SHIELD, R178
  | bound (n : BitVec 4) (b : Base) (sm : Option SMod) (g : Guard)   -- BOUND, R174
  | boundNone (g : Guard)   -- BOUND_NONE, R174
  | incofr (n : BitVec 4) (a b : Base) (sm : Option SMod) (g : Guard)   -- INCOFR, R169
  | incrd (d : XReg) (p : IncPart) (n : BitVec 4) (g : Guard)   -- INCRD, R171
  | incwait (n : BitVec 4) (b : Base) (sm : Option SMod) (g : Guard)   -- INCWAIT, R172
  | cancel (g : Guard)   -- CANCEL, R176
  | ld (d : Dst) (m : MAddr) (t : ITy) (o : MO)   -- LD, R229
  | st (m : MAddr) (b : Opnd) (w : Width) (o : MO)   -- ST, R229
  | ldv (d : XReg) (m : MAddr) (t : ITy) (c : VCnt) (o : MO)   -- LDV, R230
  | stv (m : MAddr) (b : XReg) (w : Width) (c : VCnt) (o : MO)   -- STV, R230
  | atom (op : AOp) (d : XReg) (m : MAddr) (b : Opnd) (w : W2) (sg : Bool) (o : MO)   -- ATOM, R231
  | acas (d : XReg) (m : MAddr) (b : Opnd) (w : W2) (o : MO)   -- ACAS, R232
  | ldfe (d : XReg) (m : MAddr) (o : MO)   -- LDFE, R233
  | stfe (m : MAddr) (b : Base) (o : MO)   -- STFE, R233
  | fetagRead (d : XReg) (m : MAddr) (o : MO)   -- FETAG_READ, R234
  | fetagFill (m : MAddr) (o : MO)   -- FETAG_FILL, R234
  | fetagEmpty (m : MAddr) (o : MO)   -- FETAG_EMPTY, R234
  | fence (o : MO) (g : Guard)   -- FENCE, R235
  | pref (m : MAddr)   -- PREF, R236
  | tcopy (e : EArgs)   -- TCOPY, R247
  | tgather (e : EArgs)   -- TGATHER, R253
  | cavred (e : EArgs)   -- CAVRED, R250
  | loopnest (e : EArgs)   -- LOOPNEST, R256
  | search (e : EArgs)   -- SEARCH, R353
  | spawn (d : XReg) (m : MAddr) (o : MO)   -- SPAWN, R312
  | ringset (d : XReg) (m : MAddr) (b : XReg) (n : BitVec 2)   -- RINGSET, R307
  | send (e : EArgs)   -- SEND, R309
  | recvPoll (d : XReg) (n : BitVec 2) (g : Guard)   -- RECV_POLL, R311
  | recvWait (d : XReg) (n : BitVec 2) (g : Guard)   -- RECV_WAIT, R311
  | bar (d : XReg) (sc : Scope) (n : BitVec 4) (g : Guard)   -- BAR, R271
  | baro (d : XReg) (sc : Scope) (n : BitVec 4) (g : Guard)   -- BARO, R271
  | barw (b : Opnd) (sc : Scope) (n : BitVec 4) (g : Guard)   -- BARW, R272
  | waitptr (c : BitVec 3) (b : Base) (g : Guard)   -- WAITPTR, R273
  | waitptrTicket (b : Opnd) (g : Guard)   -- WAITPTR_TICKET, R273
  | cntrd (d : XReg) (sel : BitVec 8) (sc : Option Scope) (g : Guard)   -- CNTRD, R274
  | tlbinvPage (a : Base) (sc : TiScope) (g : Guard)   -- TLBINV_PAGE, R323
  | tlbinvVf (sc : TiScope) (g : Guard)   -- TLBINV_VF, R323
  | lpark (d b : XReg) (g : Guard)   -- LPARK, R344
  | lwake (d b : XReg) (g : Guard)   -- LWAKE, R344
  | slotset (d : XReg) (m : MAddr)   -- SLOTSET, R345
  | hspub (e : EArgs)   -- HSPUB, R359
  | srd (d : XReg) (w : W2) (sel : BitVec 8) (g : Guard)   -- SRD, R188
  | swr (b : Opnd) (w : W2) (sel : BitVec 8) (g : Guard)   -- SWR, R188
  | trap (c : BitVec 33) (g : Guard)   -- TRAP, R189
  | rte (skip : Bool) (g : Guard)   -- RTE, R190
  | brk (c : BitVec 33) (g : Guard)   -- BRK, R189
  | event (b : Opnd) (w : W2) (g : Guard)   -- EVENT, R191
  | eventMbx (b : Opnd) (w : W2) (g : Guard)   -- EVENT_MBX, R191
  | halt (g : Guard)   -- HALT, R192
  | icflush (sc : IcScope) (g : Guard)   -- ICFLUSH, R192
  | addHalf (h : HArgs) (snd : Half)   -- ADD_HALF, R63
  | subHalf (h : HArgs) (snd : Half)   -- SUB_HALF, R63
  | mulHalf (h : HArgs) (snd : Half)   -- MUL_HALF, R63
  | minI32Half (h : HArgs) (snd : Half)   -- MIN_I32_HALF, R63
  | minN32Half (h : HArgs) (snd : Half)   -- MIN_N32_HALF, R63
  | maxI32Half (h : HArgs) (snd : Half)   -- MAX_I32_HALF, R63
  | maxN32Half (h : HArgs) (snd : Half)   -- MAX_N32_HALF, R63
  | absI32Half (h : HArgs) (snd : Half)   -- ABS_I32_HALF, R63
  | andHalf (h : HArgs) (snd : Half)   -- AND_HALF, R63
  | orHalf (h : HArgs) (snd : Half)   -- OR_HALF, R63
  | xorHalf (h : HArgs) (snd : Half)   -- XOR_HALF, R63
  | andnHalf (h : HArgs) (snd : Half)   -- ANDN_HALF, R63
  | shlHalf (h : HArgs) (snd : Half)   -- SHL_HALF, R63
  | shrHalf (h : HArgs) (snd : Half)   -- SHR_HALF, R63
  | sarHalf (h : HArgs) (snd : Half)   -- SAR_HALF, R63
  | rolHalf (h : HArgs) (snd : Half)   -- ROL_HALF, R63
  | popcHalf (h : HArgs) (snd : Half)   -- POPC_HALF, R63
  | clzHalf (h : HArgs) (snd : Half)   -- CLZ_HALF, R63
  | ctzHalf (h : HArgs) (snd : Half)   -- CTZ_HALF, R63
  | brevHalf (h : HArgs) (snd : Half)   -- BREV_HALF, R63
  | movHalf (h : HArgs) (snd : Half)   -- MOV_HALF, R63
  | faddHalf (h : HArgs) (snd : Half)   -- FADD_HALF, R63
  | fsubHalf (h : HArgs) (snd : Half)   -- FSUB_HALF, R63
  | fmulHalf (h : HArgs) (snd : Half)   -- FMUL_HALF, R63
  | fminHalf (h : HArgs) (snd : Half)   -- FMIN_HALF, R63
  | fmaxHalf (h : HArgs) (snd : Half)   -- FMAX_HALF, R63
  | frcpHalf (h : HArgs) (snd : Half)   -- FRCP_HALF, R63
  | fsqrtHalf (h : HArgs) (snd : Half)   -- FSQRT_HALF, R63
  | frsqHalf (h : HArgs) (snd : Half)   -- FRSQ_HALF, R63
  | fexp2Half (h : HArgs) (snd : Half)   -- FEXP2_HALF, R63
  | flog2Half (h : HArgs) (snd : Half)   -- FLOG2_HALF, R63
  | frndHalf (h : HArgs) (snd : Half)   -- FRND_HALF, R63
  | ldB32Half (h : HArgs) (snd : Half)   -- LD_B32_HALF, R63
  | stB32Half (h : HArgs) (snd : Half)   -- ST_B32_HALF, R63
  | ldB64Half (h : HArgs) (snd : Half)   -- LD_B64_HALF, R63
  | stB64Half (h : HArgs) (snd : Half)   -- ST_B64_HALF, R63
  | prefHalf (h : HArgs) (snd : Half)   -- PREF_HALF, R63
  | permHalf (h : HArgs) (snd : Half)   -- PERM_HALF, R63
  | reduceAddI32Half (h : HArgs) (snd : Half)   -- REDUCE_ADD_I32_HALF, R63
  | reduceMaxI32Half (h : HArgs) (snd : Half)   -- REDUCE_MAX_I32_HALF, R63
  | reduceMinI32Half (h : HArgs) (snd : Half)   -- REDUCE_MIN_I32_HALF, R63
  | scanAddI32Half (h : HArgs) (snd : Half)   -- SCAN_ADD_I32_HALF, R63
  | faultRecordPost (pkg die : Nat)   -- FAULT_RECORD_POST, R207
  | fbflush (pkg : Nat)   -- FBFLUSH, R208
  | accessReplay (thr : Nat)   -- ACCESS_REPLAY, R209
  | tlbWalk (pkg core fn va : Nat)   -- TLB_WALK, R204
  | storeAtHome (id : Nat)   -- STORE_AT_HOME, R213
  | noticeInstall (id : Nat)   -- NOTICE_INSTALL, R212
  | loadReturn (id : Nat)   -- LOAD_RETURN, R229
  | atomReturn (id : Nat)   -- ATOM_RETURN, R231
  | tagWaitAbandon (pkg ctx : Nat)   -- TAG_WAIT_ABANDON, R238
  | peerAck (id : Nat)   -- PEER_ACK, R215
  | scFencePlace (thr : Nat)   -- SC_FENCE_PLACE, R215
  | peerErrorResponse (id : Nat)   -- PEER_ERROR_RESPONSE, R199
  | hostMemWrite (pkg pa : Nat) (bytes : List Byte)   -- HOST_MEM_WRITE, R213
  | offerArrival (id : Nat)   -- OFFER_ARRIVAL, R169
  | sillageDelivery (id : Nat)   -- SILLAGE_DELIVERY, R170
  | dominanceCancel (thr : Nat)   -- DOMINANCE_CANCEL, R175
  | rbRelease (wg n : Nat)   -- RB_RELEASE, R165
  | phaseComplete (sc : Scope) (owner n : Nat)   -- PHASE_COMPLETE, R262
  | barrierWake (thr : Nat)   -- BARRIER_WAKE, R264
  | incwaitWake (thr : Nat)   -- INCWAIT_WAKE, R172
  | waitptrWake (thr : Nat)   -- WAITPTR_WAKE, R273
  | recvTake (thr : Nat)   -- RECV_TAKE, R311
  | forwardArrival (id : Nat)   -- FORWARD_ARRIVAL, R135
  | threadAged (thr : Nat)   -- THREAD_AGED, R298
  | yieldExpiry (thr : Nat)   -- YIELD_EXPIRY, R167
  | planeOpRetire (pkg core : Nat)   -- PLANE_OP_RETIRE, R148
  | cbloadDataReturn (id : Nat)   -- CBLOAD_DATA_RETURN, R327
  | copyChunkDeliver (pkg core ch : Nat)   -- COPY_CHUNK_DELIVER, R243
  | commandComplete (id : Nat)   -- COMMAND_COMPLETE, R242
  | collectiveForm (collid : Nat)   -- COLLECTIVE_FORM, R246
  | stagingGrant (collid : Nat)   -- STAGING_GRANT, R252
  | chunkArrival (collid chunk rank : Nat)   -- CHUNK_ARRIVAL, R251
  | reduceBlockDispatch (pkg die : Nat)   -- REDUCE_BLOCK_DISPATCH, R299
  | reduceBlockEnd (pkg core : Nat)   -- REDUCE_BLOCK_END, R299
  | deliveryArrival (id : Nat)   -- DELIVERY_ARRIVAL, R325
  | loopIterationStart (pkg core : Nat)   -- LOOP_ITERATION_START, R256
  | loopPlaneStep (pkg core : Nat)   -- LOOP_PLANE_STEP, R256
  | loopWakeFill (pkg core : Nat)   -- LOOP_WAKE_FILL, R256
  | loopPermitReturn (pkg core : Nat)   -- LOOP_PERMIT_RETURN, R256
  | loopnestAbort (pkg core : Nat)   -- LOOPNEST_ABORT, R258
  | messageAppend (id : Nat)   -- MESSAGE_APPEND, R308
  | messageRetry (id : Nat)   -- MESSAGE_RETRY, R308
  | launchAccept (pkg : Nat)   -- LAUNCH_ACCEPT, R285
  | podRegisterAnswer (pkg fn : Nat)   -- POD_REGISTER_ANSWER, R285
  | launchComplete (pkg ctx : Nat)   -- LAUNCH_COMPLETE, R287
  | launchEventPost (pkg fn : Nat)   -- LAUNCH_EVENT_POST, R297
  | gangPlace (pkg : Nat)   -- GANG_PLACE, R288
  | placementWaitExpiry (pkg fn : Nat)   -- PLACEMENT_WAIT_EXPIRY, R290
  | gangRetire (gang : Nat)   -- GANG_RETIRE, R20
  | engineStopAck (gang cls : Nat)   -- ENGINE_STOP_ACK, R328
  | hardwareSave (gang : Nat)   -- HARDWARE_SAVE, R300
  | preemptFree (gang : Nat)   -- PREEMPT_FREE, R300
  | gangResume (pkg : Nat)   -- GANG_RESUME, R302
  | gather (pkg core : Nat)   -- GATHER, R294
  | workgroupDispatch (pkg core : Nat)   -- WORKGROUP_DISPATCH, R294
  | stealRequest (pkg core : Nat)   -- STEAL_REQUEST, R295
  | stealArrival (pkg core : Nat)   -- STEAL_ARRIVAL, R295
  | drydownCheckStart (pkg : Nat)   -- DRYDOWN_CHECK_START, R268
  | reexecutionEnd (id : Nat)   -- REEXECUTION_END, R268
  | arbitrationEnd (id : Nat)   -- ARBITRATION_END, R268
  | haltwg (pkg fn : Nat)   -- HALTWG, R186
  | release (pkg fn : Nat)   -- RELEASE, R186
  | step (pkg fn : Nat)   -- STEP, R184
  | stepComplete (pkg core : Nat)   -- STEP_COMPLETE, R184
  | rdreg (pkg fn : Nat)   -- RDREG, R186
  | wrreg (pkg fn : Nat)   -- WRREG, R85
  | wrregf (pkg fn : Nat)   -- WRREGF, R86
  | wrdbg (pkg fn : Nat)   -- WRDBG, R279
  | queryDistribute (id : Nat)   -- QUERY_DISTRIBUTE, R354
  | bucketWalk (pkg unit : Nat)   -- BUCKET_WALK, R356
  | resultAppend (pkg unit : Nat)   -- RESULT_APPEND, R357
  | hspubPerform (pkg unit : Nat)   -- HSPUB_PERFORM, R359
  | dataFlit (pkg fibre : Nat)   -- DATA_FLIT, R334
  | ackFlit (pkg fibre : Nat)   -- ACK_FLIT, R334
  | replayRequest (pkg fibre : Nat)   -- REPLAY_REQUEST, R334
  | ackTimeout (pkg fibre : Nat)   -- ACK_TIMEOUT, R334
  | lossDetect (pkg fibre : Nat)   -- LOSS_DETECT, R335
  | lossReport (pkg fibre : Nat)   -- LOSS_REPORT, R335
  | stripeFlit (pkg fibre : Nat)   -- STRIPE_FLIT, R335
  | slotStart (pkg : Nat)   -- SLOT_START, R369
  | guardStart (pkg : Nat)   -- GUARD_START, R340
  | slotEnd (pkg : Nat)   -- SLOT_END, R340
  | slotTableStart (pkg : Nat)   -- SLOT_TABLE_START, R345
  | routerGate (pkg die : Nat)   -- ROUTER_GATE, R331
  | routerWake (pkg die : Nat)   -- ROUTER_WAKE, R331
  | podtSync (pkg : Nat)   -- PODT_SYNC, R329
  | coldReset (pkg : Nat)   -- COLD_RESET, R366
  | reset (pkg value : Nat)   -- RESET, R366
  | flr (pkg fn : Nat)   -- FLR, R366
  | d3hotEntry (pkg fn : Nat)   -- D3HOT_ENTRY, R367
  | bootst (pkg value : Nat)   -- BOOTST, R365
  | bootStageDone (pkg : Nat) (ok : Bool)   -- BOOT_STAGE_DONE, R365
  | hostRegWrite (pkg fn off value : Nat)   -- HOST_REG_WRITE, R363
  | lqctl (pkg fn value : Nat)   -- LQCTL, R363
  | eqctl (pkg fn value : Nat)   -- EQCTL, R363
  | mbctl (pkg fn value : Nat)   -- MBCTL, R363
  | abort (pkg fn value : Nat)   -- ABORT, R287
  | tlbinvh (pkg fn : Nat)   -- TLBINVH, R363
  | dryfrach (pkg value : Nat)   -- DRYFRACH, R266
  | suspw (pkg value : Nat)   -- SUSPW, R269
  | cntclrDropped (pkg core : Nat)   -- CNTCLR_DROPPED, R260
  | cntclrPerf (pkg core : Nat)   -- CNTCLR_PERF, R261
  | cntclrTelemetry (pkg : Nat)   -- CNTCLR_TELEMETRY, R368
  | telemetryPost (pkg : Nat)   -- TELEMETRY_POST, R368
  | iCycle (pkg : Nat)   -- I_CYCLE, R80
  | podtNs (pkg : Nat)   -- PODT_NS, R329
  | flitSent (pkg fibre : Nat)   -- FLIT_SENT, R334
  | preemptionRequest (gang : Nat)   -- PREEMPTION_REQUEST, R290
  | planeArrayPause (pkg : Nat) (on : Bool)   -- PLANE_ARRAY_PAUSE, R367
  | icflushCompletion (thr : Nat)   -- ICFLUSH_COMPLETION, R192
  | lightConfirmation (pkg fibre mask : Nat)   -- LIGHT_CONFIRMATION, R344
  deriving DecidableEq, Repr

end Sys2Proof
end

