-- ==== Sys2Proof/Machine/State.lean ====
section
/-! DEFINITION. The state of a pod of Golanris G4 packages, as plain data, and the state after reset.
Finite tables are lists of (key, value) pairs in rising key order; an absent key reads as the reset value.
Keys: package p; die 4p+d; quad 160p+q; core 640p+c; unit 516p+u; function 257p+f; launch context 256p+c;
fibre 48p+f; gangs and workgroups by the model's own serial numbers; thread 2048*workgroup+TID. -/

namespace Sys2Proof.Machine

/-- A finite table in rising key order. -/
abbrev Tbl (α : Type) := List (Nat × α)

/-! ### Threads -/

/-- A thread lives, has exited or was cancelled (09_control R167, R177). -/
inductive Life where
  | live | exited | cancelled
  deriving DecidableEq, Repr, Inhabited

/-- The waits of 04_registers R87: the thread stands at the waiting word. A RECV waits on the TAIL at `off` in its workgroup's scratchpad,
since it last looked at the value `seen` of it (19_queue_instr R311). -/
inductive Wait where
  | none
  | rwait (n : Nat)
  | barw (sc : Scope) (n tok : Nat)
  | incwait (n : Nat) (key : W64)
  | ptr (c : Nat) (bound : W64)
  | ticket (t : W32)
  | recv (ring d : Nat) (since : Nat) (off : Nat) (seen : Option Nat)
  deriving DecidableEq, Repr, Inhabited

/-- A scoreboard wait of an issued word (01_machine R25): the thread stands behind the word and issues nothing.
`acq` waits for the thread's loads; `scPre` and `scPost` for a place in the sc order; `tlbinv` for the accesses
named; `icflush`, `link` for their completion; `plane` for the plane-queue entries named; `peer` for the error response
to an access that nothing backs; `cb` for the bytes of a CBLOAD. -/
inductive Hold where
  | none
  | acq (sc : Scope)
  | scPre (sc : Scope)
  | scPost (sc : Scope)
  | tlbinv (ids : List Nat)
  | icflush (sc : IcScope)
  | link (d : Nat)
  | plane (ids : List Nat)
  | peer (id : Nat)
  | cb (id : Nat)
  deriving DecidableEq, Repr, Inhabited

/-- What a fault record calls an access (11_memories R207). -/
inductive FKind where
  | read | write | atomic | fetch | engine | tag
  deriving DecidableEq, Repr, Inhabited

/-- What one guard-active thread sees of its own registers at issue. -/
structure Env where
  x : List W32 := []
  k : List W32 := []
  q : BitVec 8 := 1
  lane : Nat := 0
  tid : Nat := 0
  pc : W64 := 0
  deriving DecidableEq, Repr, Inhabited

/-- A word parked on an absent page, with the operands that its fragment held at the issue (R206, R209); `frag` is empty
for a parked fetch. `keep`: a cancellation leaves it to be performed (a store or an atomic); `drops`: a cancellation counts
it as a dropped load (09_control R177); `rewalk`: a flush or a resumption makes the walkers look again. -/
structure Park where
  va : Nat
  kind : FKind
  keep : Bool := false
  drops : Bool := false
  rewalk : Bool := false
  word : W64 := 0
  frag : List Env := []
  deriving DecidableEq, Repr, Inhabited

/-- The six trap registers (10_trap_state R180). -/
structure TrapRegs where
  pc : W64 := 0
  cause : W32 := 0
  addr : W64 := 0
  parent : W32 := 0
  sibLo : W64 := 0
  sibHi : W64 := 0
  deriving DecidableEq, Repr, Inhabited

/-- Progress of a thread through a pre-emption (18_queues R300, R302): `saving` runs the PREEMPT handler, `saved`
has issued its RTE, `restoring` runs the resume handler. -/
inductive PreT where
  | none | saving | saved | restoring
  deriving DecidableEq, Repr, Inhabited

/-- One thread (04_registers R74, 09_control R161, 10_trap_state R180). `badX` and `oneX` are its x registers with an uncorrectable
and with a single-bit error (R82, R83). `claimed` are x registers that a forced debugger write
has taken from a parked word or a waiting RECV (04_registers R86); `seq` counts the repackings without end, and PARENTID shows its low
16 bits; `yieldAt` is the I-cycle of its last YIELD, `stood` whether it was runnable at the last one, `incSeen` the keys that its INCRD
have returned (12_ordering R223), `fence` the PC of a FENCE that it has issued and at which it waits for the release step (13_memory_instr R235). -/
structure Thread where
  x : List W32 := []
  q : BitVec 8 := 1
  bnd : W64 := 0
  bsel : BitVec 5 := 0
  flags : W32 := 0
  pc : W64 := 0
  shc : Nat := 0
  join : BitVec 16 := 0
  arrive : BitVec 16 := 0
  poisonLo : W64 := 0
  poisonHi : W64 := 0
  badX : List Nat := []
  oneX : List Nat := []
  trap : TrapRegs := {}
  handler : Bool := false
  lane : Nat := 0
  seq : Nat := 0
  lead : Nat := 0
  life : Life := .live
  wait : Wait := .none
  hold : Hold := .none
  scPlaced : Bool := false
  park : Option Park := none
  halted : Bool := false
  relPc : Option W64 := none
  skipBp : Bool := false
  watch : Option W64 := none
  since : Nat := 0
  aged : Bool := false
  yielded : Bool := false
  yieldAt : Nat := 0
  stood : Bool := false
  incSeen : Tbl W64 := []
  fence : Option W64 := none
  pre : PreT := .none
  claimed : List Nat := []
  saved : TrapRegs := {}
  savedPc : W64 := 0
  savedWait : Wait := .none
  savedPark : Option Park := none
  savedHold : Hold := .none
  savedHalt : Bool := false
  savedHandler : Bool := false
  savedShc : Nat := 0
  savedJoin : BitVec 16 := 0
  savedArrive : BitVec 16 := 0
  deriving DecidableEq, Repr, Inhabited

/-! ### Barrier objects -/

/-- A barrier object (15_counters R259): the phase and who has arrived in it (TIDs, or workgroups). -/
structure Bar where
  phase : BitVec 16 := 0
  arr : List Nat := []
  deriving DecidableEq, Repr, Inhabited

/-! ### Workgroups and gangs -/

/-- The initial state of a thread made from a continuation record (04_registers R75, 15_counters R266). -/
structure Seed where
  entry : W64
  bound : W64
  bsel : BitVec 5
  args : List W64
  deriving DecidableEq, Repr, Inhabited

/-- One workgroup (01_machine R18); `badK` and `oneK` are its k registers with an uncorrectable and with a single-bit error. -/
structure Wg where
  pkg : Nat := 0
  core : Nat := 0
  ctx : Nat := 0
  gang : Nat := 0
  member : Nat := 0
  wgid : W32 := 0
  gangid : W32 := 0
  launchid : W32 := 0
  size : Nat := 0
  nregs : Nat := 16
  k : List W32 := []
  badK : List Nat := []
  oneK : List Nat := []
  scrBase : Nat := 0
  scrSize : Nat := 0
  seq : Nat := 0
  cxl : Bool := false
  bars : Tbl Bar := []
  wide : Tbl (List Nat) := []
  digest : W64 := 0
  inelig : Bool := false
  seeds : List Seed := []
  lastIssue : Nat := 0
  resident : Bool := true
  deriving DecidableEq, Repr, Inhabited

/-- The engine classes of the pre-emption granularity table (21_tables R328). -/
inductive EClass where
  | issue | plane | copy | atomiser | loop | accord | headspace
  deriving DecidableEq, Repr, Inhabited

/-- Progress of a gang through a pre-emption (18_queues R300). -/
structure PreG where
  acks : List EClass := []
  hwSaved : Bool := false
  discard : Bool := false
  deriving DecidableEq, Repr, Inhabited

/-- Kinds of plane-queue operation (08_planes R146). -/
inductive PKind where
  | plane | align | cbload | mma | mmac | accz | accst
  deriving DecidableEq, Repr, Inhabited

/-- An operation of the plane queue with its copied descriptors and its step (08_planes R146, R160). `thr` is the performing
thread, `wg` the workgroup on whose core it stands; `role` is 0 for a plain operation, 1 for a leader's half and 2 for the
follower's half of a paired one, which share their `id`; `cyc` is the I-cycle of its issue, `pc` its word; `locs` and `data`
are the source of a CBLOAD, with whether its page is uncached, and its returned bytes; `loop` the LOOPNEST that issued it;
`old` scratchpad words (by number) that a store has overwritten since, with what stood there (R149). -/
structure PlaneOp where
  id : Nat
  kind : PKind
  thr : Nat := 0
  wg : Nat := 0
  acc : Nat := 0
  mask : BitVec 8 := 0
  ta : W64 := 0
  tb : W64 := 0
  idx : Nat := 0
  step : Nat := 0
  role : Nat := 0
  cyc : Nat := 0
  pc : W64 := 0
  addr : W64 := 0
  row : Nat := 0
  cnt : Nat := 0
  locs : List (Nat × Bool) := []
  data : Option (List Byte) := none
  loop : Option Nat := none
  old : List (Nat × W64) := []
  deriving DecidableEq, Repr, Inhabited

/-- The part of a core that belongs to one member and is saved with the gang (18_queues R301). -/
structure SavedCore where
  wptr : List W64 := []
  dqbase : W32 := 0
  dqlimit : W32 := 0
  td : List W64 := []
  pq : List PlaneOp := []
  cb : Tbl (BitVec 16) := []
  aov : BitVec 8 := 0
  apoi : BitVec 8 := 0
  acc : Tbl Int := []
  deriving DecidableEq, Repr, Inhabited

/-- Where a gang is: standing on its cores, saved in its slot, or retired (its record stays until the launch completes). -/
inductive GState where
  | running | preempted | retired
  deriving DecidableEq, Repr, Inhabited

/-- One gang (01_machine R19, R20): `check` is the Drydown check that it re-executes; `vaultImage`, `vaultTags` and `vaultBad` are its
saved vault bytes, and which of their words are empty or poisoned. -/
structure Gang where
  pkg : Nat := 0
  ctx : Nat := 0
  gangid : W32 := 0
  quad : Nat := 0
  cidx : Nat := 0
  members : List Nat := []
  vaultBase : Nat := 0
  vaultSize : Nat := 0
  stkBase : Nat := 0
  stk : Nat := 0
  slot : Option Nat := none
  gathered : Bool := false
  check : Option Nat := none
  bars : Tbl Bar := []
  st : GState := .running
  pre : Option PreG := none
  saved : List SavedCore := []
  vaultImage : List Byte := []
  vaultTags : List Nat := []
  vaultBad : List Nat := []
  deriving DecidableEq, Repr, Inhabited

/-! ### Launches -/

/-- A word of a replicated page (12_ordering R218): its place in the copy of each die, the home die,
atomic-propagation, and the page. -/
structure Repl where
  words : List Nat
  home : Nat
  apr : Bool
  page : Nat
  deriving DecidableEq, Repr, Inhabited

/-- The launch record's fields (18_queues R284). -/
structure Launch where
  entry : W64 := 0
  param : W64 := 0
  vec : W64 := 0
  ngang : Nat := 1
  gang : Nat := 1
  prio : Nat := 0
  wgsize : Nat := 1
  regs : Nat := 16
  debug : Bool := false
  replayable : Bool := false
  plane : Bool := false
  stk : Nat := 0
  scratch : Nat := 0
  vault : Nat := 0
  csaCount : Nat := 1
  podn : Nat := 0
  incdecl : W64 := 0
  csa : W64 := 0
  csaSlot : Nat := 0
  csaHoff : Nat := 0
  cpl : W64 := 0
  podkey : W64 := 0
  deriving DecidableEq, Repr, Inhabited

/-- An incumbent value: key and payload (09_control R168). -/
structure Inc where
  key : W64
  pay : W64
  deriving DecidableEq, Repr, Inhabited

/-- One launch context (18_queues R282); `offerAt` is, for each incumbent homed here, the I-cycle of the last arrival of an offer and its
place among simultaneous ones (09_control R169); `cplAt` is the place of its completion word, as translated at acceptance. -/
structure Ctx where
  fn : Nat := 0
  launchid : W32 := 0
  launch : Launch := {}
  params : List W32 := []
  slots : List Nat := []
  gather : Nat := 0x80000000
  gatherFull : Bool := false
  incs : Tbl Inc := []
  offerAt : Tbl (Nat × Nat) := []
  dieBars : Tbl Bar := []
  pkgBars : Tbl Bar := []
  cplAt : Option Nat := none
  cplRepl : Option Repl := none
  aborting : Bool := false
  deriving DecidableEq, Repr, Inhabited

/-- An entry of a placement queue: fresh gangs of a context from one GANGID on, or a pre-empted gang (R282, R302). -/
inductive PlaceEnt where
  | fresh (ctx next : Nat)
  | back (gang : Nat)
  deriving DecidableEq, Repr, Inhabited

/-- The registration of a pod launch with the pod sequencer (R285); a granted one names its PODKEY. -/
inductive PodReg where
  | none
  | waiting
  | granted (key : W64)
  | denied
  deriving DecidableEq, Repr, Inhabited

/-- One function: its host registers and queues (24_host R363, 18_queues R282). `held` is the absent address that its launch
queue's head waits for; `since` when the placement queue's head began to wait, `emptied` the gangs pre-empted for it (R290). -/
structure Fn where
  lqbase : W64 := 0
  lqctl : W64 := 0
  eqbase : W64 := 0
  eqctl : W64 := 0
  mbqbase : W64 := 0
  mbrbase : W64 := 0
  mbctl : W64 := 0
  ptroot : W64 := 0
  priv : BitVec 2 := 0
  place : List PlaceEnt := []
  podReg : PodReg := .none
  held : Option Nat := none
  since : Option Nat := none
  emptied : List Nat := []
  mbOut : List (List Byte) := []
  d3 : Bool := false
  flr : Bool := false
  msix : Bool := false
  deriving DecidableEq, Repr, Inhabited

/-! ### Translation -/

/-- A cached translation: function, page base, page size (log2), and the leaf entry (11_memories R204, 21_tables R320). -/
structure TlbEnt where
  fn : Nat
  va : Nat
  lg : Nat
  leaf : W64
  deriving DecidableEq, Repr, Inhabited

/-- A fault record waiting in its die (R207). -/
structure FaultRec where
  gen : W32
  launchid : W32
  va : Nat
  core : Nat
  kind : FKind
  fn : Nat
  deriving DecidableEq, Repr, Inhabited

/-! ### Cores -/

/-- An entry of a spawn deque: the continuation record's fields and the side word (18_queues R291, R292). -/
structure DqEnt where
  entry : W64
  bound : W64
  wait0 : W64
  wait1 : W64
  args : List W64
  launchid : W32
  bsel : BitVec 5
  deriving DecidableEq, Repr, Inhabited

/-- What a copy of incumbent `n` held before an update that dominance does not yet heed, for `left` more I-cycles (09_control R175). -/
structure IncOld where
  n : Nat
  old : Option Inc
  left : Nat
  deriving DecidableEq, Repr, Inhabited

/-- The local incumbent copies of one bound context (04_registers R78, R79), with their latest updates, oldest first. -/
structure Bind where
  ctx : Nat
  incs : Tbl Inc := []
  young : List IncOld := []
  deriving DecidableEq, Repr, Inhabited

/-- A ring table entry (19_queue_instr R306). -/
structure Ring where
  launchid : W32
  wgid : W32
  n : Nat
  base : Nat
  slots : Nat
  deriving DecidableEq, Repr, Inhabited

/-- A landing entry (21_tables R324). -/
structure Land where
  launchid : W32
  wgid : W32
  lgen : BitVec 16
  base : Nat
  size : Nat
  vault : Bool
  deriving DecidableEq, Repr, Inhabited

/-- A forwarding message (07_lanes R136). -/
structure FMsg where
  launchid : W32
  wide : Bool
  elems : List W64
  deriving DecidableEq, Repr, Inhabited

/-- A single-step in progress (10_trap_state R184): the named thread, its fragment with its word and mode, and whether the
word has issued. -/
structure StepSt where
  wg : Nat
  tid : Nat
  tids : List Nat
  pc : W64
  handler : Bool
  issued : Bool
  deriving DecidableEq, Repr, Inhabited

/-- A gathered workgroup waiting for its dispatch (18_queues R294), with the room kept for it: its scratchpad and vault offsets. -/
structure Gathered where
  ctx : Nat
  wgid : W32
  recs : List DqEnt
  off : Nat
  voff : Nat
  deriving DecidableEq, Repr, Inhabited

/-- Records on their way to a thief (R295). -/
structure Transit where
  recs : List DqEnt
  deriving DecidableEq, Repr, Inhabited

/-- What a node of a collective's chunk works on (14_engines R248 to R251): the exponents of an exact sum, the tree of ranks, or one of the
two sweeps of a cavity reduction. -/
inductive RedPass where
  | exps | tree | pre | post
  deriving DecidableEq, Repr, Inhabited

/-- A node of a chunk: its pass, its level in the tree, and the rank whose die it stands on. -/
structure RedNode where
  pass : RedPass
  level : Nat
  rank : Nat
  deriving DecidableEq, Repr, Inhabited

/-- A launch counter: what the node of a chunk still awaits (14_engines R239, R251). -/
structure RedCount where
  coll : Nat
  chunk : Nat
  node : RedNode
  left : Nat
  deriving DecidableEq, Repr, Inhabited

/-- A reduce block to dispatch or running: collective, chunk and node (14_engines R251); while it runs, the I-cycle since which its
threads wait to issue, and whether they have issued in this one (18_queues R298). -/
structure RedJob where
  coll : Nat
  chunk : Nat
  node : RedNode
  since : Nat := 0
  went : Bool := false
  deriving DecidableEq, Repr, Inhabited

/-- A value of a debug register that still governs the core after a SWR, for `left` more I-cycles (10_trap_state R183). -/
structure DbgOld where
  sel : Nat
  old : W64
  left : Nat
  deriving DecidableEq, Repr, Inhabited

/-- What a deque's arbiter has served in this I-cycle (18_queues R296). -/
inductive DqUse where
  | none | gather | steal | spawn
  deriving DecidableEq, Repr, Inhabited

/-- One core (04_registers R78, 08_planes R141, 14_engines R239, 15_counters R259); `dropLog` are the addresses and COLLIDs of the deliveries
that it has refused (18_queues R304, 21_tables R325) and `msgLog` the messages that it has dropped, as their event records name them
(19_queue_instr R308); `oneAcc` marks the accumulators with a
single-bit error that no read has corrected (R82); `resvX` holds the 64 x registers of each of the 64 threads of the reserved context,
register n of thread t under 64 t + n (18_queues R299). -/
structure Core where
  acc : Tbl Int := []
  aov : BitVec 8 := 0
  apoi : BitVec 8 := 0
  oneAcc : BitVec 8 := 0
  td : List W64 := List.replicate 16 0
  pq : List PlaneOp := []
  cb : Tbl (BitVec 16) := []
  wptr : List W64 := List.replicate 8 0
  dqbase : W32 := 0
  dqlimit : W32 := 0
  deque : List DqEnt := []
  dqUse : DqUse := .none
  binds : List Bind := []
  dbgctl : W32 := 0
  brkpc : List W64 := List.replicate 4 0
  watchLo : W64 := 0
  watchHi : W64 := 0
  dbgOld : List DbgOld := []
  susp : BitVec 16 := 0
  dropped : W64 := 0
  perf : List W64 := List.replicate 13 0
  clean : BitVec 20 := 0
  quar : Bool := false
  tseq : W32 := 0
  chans : List (List Nat) := List.replicate 8 []
  loops : List Nat := []
  fwd : List (List FMsg) := List.replicate 4 []
  rings : List Ring := []
  land : List Land := []
  lgen : BitVec 16 := 0
  utlb : List TlbEnt := []
  resv : Option RedJob := none
  resvX : Tbl W32 := []
  lastVictim : Nat := 0
  busy : Nat := 0
  issued : List Nat := []
  slotUsed : Nat := 0
  gathered : Option Gathered := none
  transit : Option Transit := none
  stepping : Option StepSt := none
  dropLog : List (W64 × Nat) := []
  msgLog : List W64 := []
  corrX : W64 := 0
  deriving DecidableEq, Repr, Inhabited

/-- The vault landing table of a quad (21_tables R317). -/
structure Quad where
  land : List Land := []
  lgen : BitVec 16 := 0
  deriving DecidableEq, Repr, Inhabited

/-- One die (11_memories R200, 12_ordering R212, 14_engines R239). `past` are the stores without a clock that its view's causal past
contains and that some die has still to install, by their `Notice.grp`; `gated` are its routers that are gated, by number, and `carried` the
I-cycle in which it last carried a packet (22_links R331). -/
structure Die where
  vec : Vec := ⟨0, 0, 0, 0⟩
  inst : Nat := 0
  past : List Nat := []
  tlb : List TlbEnt := []
  filter : List (Nat × Nat) := []
  faults : List FaultRec := []
  staging : Tbl Nat := []
  counts : List RedCount := []
  redq : List RedJob := []
  gated : List Nat := []
  carried : Nat := 0
  placed : Bool := false
  corrM : W64 := 0
  deriving DecidableEq, Repr, Inhabited

/-! ### Memory traffic -/

/-- Kinds of access (12_ordering R210). -/
inductive AKindM where
  | load
  | store
  | atom (op : AOp) (w : W2) (sg : Bool)
  | acas (w : W2)
  | ldfe
  | stfe
  | tagRead
  | tagFill
  | tagEmpty
  deriving DecidableEq, Repr, Inhabited

/-- Where a return goes: x registers from `d` (64 bits wide or not), a k register, or nowhere. -/
inductive Ret where
  | none
  | x (d : Nat) (t : ITy)
  | k (d : Nat)
  deriving DecidableEq, Repr, Inhabited

/-- An access that has left its thread (R210 to R213): `instr` is shared by the elements of one word, `loc` the byte's place at
its home, `served` what the memory side has read or, for a store, that it has been performed, `done` that the thread has its
return, `arrived` the place in the home's arrival order of an LDFE or STFE that waits for its tag. `vec` is the clock that a store or an
atomic took at its issue and `deps` the stores without a clock in the causal past of that moment; `past` and `after` are the clocks and
the notices that a value read at its home needs in the die before it returns. -/
structure Access where
  id : Nat
  instr : Nat
  thr : Nat
  pkg : Nat
  core : Nat
  launchid : W32 := 0
  kind : AKindM
  addr : W64
  loc : Nat
  size : Nat
  data : W64 := 0
  cmp : W64 := 0
  ret : Ret := .none
  pc : W64 := 0
  lane : Nat := 0
  repl : Option Repl := none
  unc : Bool := false
  vec : Option Vec := none
  deps : List Nat := []
  past : Vec := ⟨0, 0, 0, 0⟩
  after : List Nat := []
  served : Option W64 := none
  flags : W32 := 0
  done : Bool := false
  arrived : Option Nat := none
  dropLo : Bool := false
  dropHi : Bool := false
  cancelled : Bool := false
  unbacked : Bool := false
  peer : Bool := false
  deriving DecidableEq, Repr, Inhabited

/-- Who makes a store without a clock whose order is kept (12_ordering R213, 17_prog_debug R278): nobody, the host, or an agent of the
package; `counter` is an agent's TAIL or HEAD, which is a release of its records. -/
inductive Posted where
  | no | host | agent | counter
  deriving DecidableEq, Repr, Inhabited

/-- A store notice on its way to a die (R212): the word's value and place in home order. `origin` none carries no clock. `grp` is one
number for the notices of one store, `whole` a store of the whole word, `deps` the stores without a clock in its causal past, `launch`
the LAUNCHID of the thread or command that made it, or 0. -/
structure Notice where
  id : Nat
  grp : Nat := 0
  acc : Nat
  launch : W32 := 0
  pkg : Nat
  die : Nat
  word : Nat
  value : W64
  ver : Nat
  origin : Option Nat
  vec : Vec
  free : Bool := false
  posted : Posted := .no
  deps : List Nat := []
  whole : Bool := false
  dupl : Option Nat := none
  page : Option Nat := none
  deriving DecidableEq, Repr, Inhabited

/-- An offer on its way to its home (09_control R169); `ord` is its place among simultaneous ones: PKGID, COREID, issue slot, LANE. -/
structure Offer where
  id : Nat
  pkg : Nat
  ctx : Nat
  n : Nat
  thr : Nat
  inc : Inc
  ord : Nat := 0
  deriving DecidableEq, Repr, Inhabited

/-- A Sillage update on its way to one copy: of a core, or of a Headspace unit (R170, 23_index R352). -/
structure Sillage where
  id : Nat
  unit : Bool
  key : Nat
  ctx : Nat
  n : Nat
  inc : Inc
  deriving DecidableEq, Repr, Inhabited

/-- A message of a SEND or a SEARCH on its way to a ring (19_queue_instr R308). One from another package names its launch by
PODKEY (22_links R342); `unit` and `first` are the Headspace unit of a SEARCH result and its first list position; `refused` is the I-cycle
of the sender at which its ring has refused it. -/
structure Msg where
  id : Nat
  cmd : Nat
  pkg : Nat
  core : Nat
  launchid : W32
  wgid : W32
  ring : Nat
  srcPkg : Nat
  srcCore : Nat
  seq : Nat
  kind : Nat
  payload : List Byte
  key : Option W64 := none
  unit : Nat := 0
  first : Nat := 0
  refused : Option Nat := none
  deriving DecidableEq, Repr, Inhabited

/-- A forwarding message on its way (07_lanes R135). -/
structure FwdMsg where
  id : Nat
  core : Nat
  ch : Nat
  msg : FMsg
  deriving DecidableEq, Repr, Inhabited

/-! ### Engine commands -/

/-- Kinds of engine command (14_engines R241, 19 R309, 23 R353, R359). -/
inductive CKind where
  | tcopy | tgather | cavred | loopnest | send | search | hspub
  deriving DecidableEq, Repr, Inhabited

/-- A started iteration of a LOOPNEST (R256): its number, its copy command and plane operation with whether those steps are
done, its wake word (by number of the word in memory) once filled, and whether that word has been emptied since. -/
structure LoopIt where
  j : Nat
  copy : Option Nat := none
  copyDone : Bool := true
  plane : Option Nat := none
  planeDone : Bool := true
  wake : Option Nat := none
  wakeDone : Bool := true
  emptied : Bool := false
  deriving DecidableEq, Repr, Inhabited

/-- The state of the loop sequencer for one LOOPNEST (R255, R256). -/
structure LoopSt where
  next : Nat := 0
  permits : Nat := 0
  its : List LoopIt := []
  template : List Byte := []
  stopped : Bool := false
  deriving DecidableEq, Repr, Inhabited

/-- An engine command (R241 to R244). `raw` is its 128-byte record, `acq` the snapshot of an acquire; `sent` the bytes
written so far and `pos` those counted in the pointer (for SEND the messages sent, for SEARCH the units reached, and `appended`
what has been appended); `parked` the absent address it waits for; `code` and `flags` its outcome so far, `errs` the errors of a
SEARCH by list position; `aborts` when its own access failed, so that the commands behind it end; `written` when its STATUS
stands in memory; `quiet` the LOOPNEST whose copy step it is, which writes no STATUS; `table` its rank table once read;
`old` bytes of an overlapping copy's source that it has overwritten, with what stood there (R242). -/
structure Cmd where
  id : Nat
  pkg : Nat
  core : Nat
  thr : Nat
  wg : Nat
  gang : Nat
  ctx : Nat
  fn : Nat
  launchid : W32
  ticket : W32
  kind : CKind
  recAddr : W64
  raw : List Byte
  acq : Option Vec := none
  pos : Nat := 0
  sent : Nat := 0
  appended : Nat := 0
  code : Nat := 0
  flags : W32 := 0
  errs : Tbl Nat := []
  finished : Bool := false
  aborts : Bool := false
  written : Bool := false
  started : Bool := false
  parked : Option Nat := none
  quiet : Option Nat := none
  table : Option (List W64) := none
  loop : Option LoopSt := none
  old : List (Nat × Byte) := []
  deriving DecidableEq, Repr, Inhabited

/-- One rank of a formed collective: its command; for a SCRATCH or VAULT destination the LGEN of its landing entry, or `lost`
when it has none; the staged bytes of its contribution, the phases of chunks that it has contributed to, the chunks delivered to it, and
flags of its own. -/
structure Rank where
  cmd : Nat
  land : Bool := false
  lgen : BitVec 16 := 0
  lost : Bool := false
  data : List Byte := []
  arrived : Nat := 0
  delivered : Nat := 0
  flags : W32 := 0
  deriving DecidableEq, Repr, Inhabited

/-- A collective (14_engines R246 to R252): `exps` are the chunks whose exponents are fixed, `swept` those with one sweep done, `reduced`
the chunks combined. -/
structure Coll where
  collid : Nat
  ranks : List Rank
  granted : Bool := false
  exps : List Nat := []
  swept : List Nat := []
  reduced : List Nat := []
  code : Nat := 0
  flags : W32 := 0
  deriving DecidableEq, Repr, Inhabited

/-- A chunk of a result on its way to a rank's destination (21_tables R325). -/
structure Delivery where
  id : Nat
  coll : Nat
  rank : Nat
  chunk : Nat
  data : List Byte
  deriving DecidableEq, Repr, Inhabited

/-! ### Drydown -/

/-- A pending check (15_counters R266, R268): the retired gang, its digests, and its executions so far. -/
structure Check where
  id : Nat
  pkg : Nat
  ctx : Nat
  gangid : W32
  wgids : List W32
  params : List W32
  sizes : List Nat
  seeds : List (List Seed)
  cores : List Nat
  digests : List W64
  cores2 : List Nat := []
  digests2 : List W64 := []
  gang : Option Nat := none
  phase : Nat := 0
  deriving DecidableEq, Repr, Inhabited

/-! ### Headspace -/

/-- A candidate of a query (23_index R357). -/
structure Cand where
  key : W64
  item : W64
  score : W64
  deriving DecidableEq, Repr, Inhabited

/-- A bucket walk in progress (R351): its snapshot, the page it walks or is to walk next, whether it has read that page's header, the next
slot there, the pages it has seen, and whether it met a poisoned entry. -/
structure BWalk where
  snap : Nat
  page : Nat
  inPage : Bool := false
  slot : Nat := 0
  seen : Nat := 0
  poison : Bool := false
  deriving DecidableEq, Repr, Inhabited

/-- A query in a unit (R354): buckets still to walk, as list position and place, the list so far, the units that
the query reached, its first list position here, and its walk of a bucket. -/
structure Query where
  cmd : Nat
  buckets : List (Nat × Nat)
  qvec : List Byte
  cbt : List Byte
  cands : List Cand := []
  walked : Nat := 0
  skipped : Nat := 0
  units : Nat := 0
  first : Nat := 0
  walking : Option BWalk := none
  deriving DecidableEq, Repr, Inhabited

/-- A publish command in a unit (R359): its bucket, operations and sources, the version that it found published once it has begun, and the
steps done. -/
structure Pub where
  cmd : Nat
  bucket : Nat
  ops : List Byte
  srcs : List (List Byte)
  base : Option Nat := none
  done : Nat := 0
  deriving DecidableEq, Repr, Inhabited

/-- One Headspace unit (R347). `prev` is, by bucket, the version before the last that an HSPUB published there, which a walk without acquire
may still see (R360). -/
structure HsUnit where
  queries : List Query := []
  pubs : List Pub := []
  snaps : List (Nat × Nat) := []
  binds : List Bind := []
  prev : Tbl Nat := []
  deriving DecidableEq, Repr, Inhabited

/-! ### Links -/

/-- Flit types (22_links R332). -/
inductive FlitTy where
  | data | ack | loss | stripe | replay
  deriving DecidableEq, Repr, Inhabited

/-- A flit (R332): `msg` is bits 63:32 of beat 15; `arg` the mask of a loss
report or stripe, or the SEQ a replay request names; `numbered` when it has its SEQ; `cmd` the SEND it carries, `last` whether it holds
the last message of it, and `arr` its arrival in a send queue. -/
structure Flit where
  ty : FlitTy
  seq : BitVec 16 := 0
  ack : BitVec 16 := 0
  epoch : BitVec 4 := 0
  dst : Nat := 0
  src : Nat := 0
  cls : Nat := 3
  msg : W32 := 0
  payload : List Byte := []
  arg : BitVec 16 := 0
  numbered : Bool := false
  cmd : Nat := 0
  last : Bool := false
  arr : Nat := 0
  deriving DecidableEq, Repr, Inhabited

/-- A flit on a fibre (R332, R333): its sixteen beats, those on a dark wavelength absent, and the wavelength of each; `cmd` and `last` name
for the model the SEND that it carries. -/
structure Beam where
  beats : List (Option W64)
  lanes : List Nat
  cmd : Nat := 0
  last : Bool := false
  deriving DecidableEq, Repr, Inhabited

/-- One fibre of a package (R329): the transmit side, the receive side, and what is on its way to the package. `dark` are the transmit
wavelengths whose light is lost, `stalls` the replays in a row without progress, and `progress` the pod time of the last progress or
replay (R334). -/
structure Fibre where
  active : BitVec 16 := 0xFFFF
  parked : BitVec 16 := 0
  failed : BitVec 16 := 0
  epoch : BitVec 4 := 0
  dc : Nat := 0
  rxMask : BitVec 16 := 0xFFFF
  rxEpoch : BitVec 4 := 0
  rxDc : Nat := 0
  buf : List Flit := []
  wire : List Beam := []
  toSend : List Flit := []
  stalls : Nat := 0
  progress : Nat := 0
  down : Bool := false
  dark : BitVec 16 := 0
  wake : Option (BitVec 16 × List Nat × Nat) := none
  deriving DecidableEq, Repr, Inhabited

/-- The context of a command that a receiver keeps for its tag (R342); `whole` when its last flit has been accepted. -/
structure RxCtx where
  tag : Nat
  cmd : Nat
  bytes : List Byte
  whole : Bool := false
  deriving DecidableEq, Repr, Inhabited

/-- A stream's sequences (R329): the next SEQ to send and the SEQ expected; a rotor stream is keyed by its peer. `tags` are those of the
sender with their commands, `lost` the wavelengths for which the receiver holds the stream in loss recovery (R337), and `report` those whose
loss report has not left. -/
structure Stream where
  send : BitVec 16 := 0
  expect : BitVec 16 := 0
  tags : List (Nat × Nat) := []
  rxCtx : List RxCtx := []
  lost : BitVec 16 := 0
  report : BitVec 16 := 0
  deriving DecidableEq, Repr, Inhabited

/-- A slot entry (R339): length, guard, and the peers of the 32 rotor fibres. -/
structure SlotEnt where
  len : Nat
  guard : Nat
  peers : List (Option Nat)
  deriving DecidableEq, Repr, Inhabited

/-- A staged slot table (R345). -/
structure Staged where
  start : Nat
  ents : List SlotEnt
  deriving DecidableEq, Repr, Inhabited

/-! ### Packages -/

/-- An event record (18_queues R297). -/
structure Event where
  fn : Nat
  ty : Nat
  launchid : W32 := 0
  wgid : W32 := 0
  core : Nat := 0xFFFF
  tid : Nat := 0
  pc : W64 := 0
  value : W64 := 0
  deriving DecidableEq, Repr, Inhabited

/-- What a signed configuration record names (24_host R362, R365, 22_links R338): the size of the pod, the peers of the package's
standing fibres, the route of each destination, the capacity behind each CXL port, the telemetry region, the PKGID, the link of each
function, 0 where it names none, and the standing maps of the pod's other packages, peers and routes. -/
structure BootCfg where
  podSize : Nat
  peers : Tbl Nat
  routes : Tbl Nat
  caps : List Nat
  telem : Nat
  pkgid : Nat := 0
  fnLinks : Tbl Nat := []
  maps : Tbl (Tbl Nat × Tbl Nat) := []
  deriving DecidableEq, Repr, Inhabited

/-- One package (24_host R363, 04_registers R80, 18 R289, 22 R329). `errResp` counts error responses by CXL port (0 to 3) and peer
package (4 + PKGID), `misdir` misdirected flits (R368). -/
structure Pkg where
  bootst : W64 := 0
  fbbase : W64 := 0
  fbsize : W64 := 0
  fbhead : W64 := 0
  fbtail : W64 := 0
  fbfull : Bool := false
  gen : W32 := 0
  dryfrac : W32 := 0
  pwrcap : W64 := 2800
  clock : W64 := 0
  lastwin : List Nat := List.replicate 8 256
  accCount : Nat := 0
  checks : List Check := []
  drySkip : W64 := 0
  events : List Event := []
  podt : W64 := 0
  slots : List SlotEnt := [⟨10000, 400, List.replicate 32 none⟩]
  staged : Option Staged := none
  slotIdx : Nat := 0
  slotStart : Nat := 0
  guard : Bool := false
  opened : Bool := true
  staging : Option BootCfg := none
  cfg : BootCfg := { podSize := 1, peers := [], routes := [], caps := [0, 0, 0, 0], telem := 0 }
  standq : Tbl (List Flit) := []
  rotq : Tbl (List Flit) := []
  standStreams : Tbl Stream := []
  rotStreams : Tbl Stream := []
  paused : Bool := false
  misdir : W64 := 0
  errResp : Tbl W64 := []
  deriving DecidableEq, Repr, Inhabited

/-- The pod sequencer's record of one pod launch (18_queues R285): its registrations by package. -/
structure PodLaunch where
  key : W64
  podn : Nat
  decl : W64
  pkgs : List Nat
  done : List Nat := []
  incs : Tbl Inc := []
  offerAt : Tbl (Nat × Nat) := []
  bars : Tbl Bar := []
  deriving DecidableEq, Repr, Inhabited

/-! ### Inputs and the machine -/

/-- The issuing fragment of the word being executed: package, core, workgroup, its threads in lane order, PC and word. -/
structure Site where
  pkg : Nat
  core : Nat
  wg : Nat
  tids : List Nat
  pc : W64
  word : W64
  slot : Nat := 0
  deriving DecidableEq, Repr, Inhabited

/-- What happens next (assumption 1): a slot of a core issues, an event of the opcode table happens, or the physical
world acts: an uncorrectable or single-bit error (04_registers R82, 11_memories R202, 08_planes R160), light lost or
back on a fibre's transmit wavelengths, a flit damaged on its way, the optical switch joining one rotor fibre's light to another or
to none (22_links R340), a configuration record supplied at boot. -/
inductive Turn where
  | issue (pkg core slot : Nat)
  | event (i : Instr)
  | upsetX (thr reg : Nat) (fatal : Bool)
  | upsetK (wg reg : Nat) (fatal : Bool)
  | upsetMem (loc : Nat) (fatal : Bool)
  | upsetAcc (pkg core acc : Nat) (fatal : Bool)
  | upsetSys (pkg core : Nat)
  | dark (pkg fibre : Nat) (mask : BitVec 16)
  | damage (pkg fibre : Nat)
  | circuit (pkg fibre : Nat) (far : Option (Nat × Nat))
  | config (pkg : Nat) (cfg : BootCfg)
  deriving DecidableEq, Repr, Inhabited

/-- The machine. `homes` are the home registers of a context number as its last launch has left them, until the next one there begins with
empty ones (04_registers R79, 20_prog_tour R316). `circuits` is where the optical switch leads the light of a rotor fibre, by package
and fibre, for the fibres that it has been told of (22_links R340). `severed` are the SENDs of which a message was dropped, so that none
of their later ones is delivered (19_queue_instr R309); `tick` counts the draws of free values (assumptions 1 and 2), and `nextId` is the next serial number: both are the model's. -/
structure State where
  mem : List Host.Cell
  empties : List Nat
  poison : List Nat
  views : Tbl W64
  homeVer : Tbl Nat
  viewVer : Tbl Nat
  wordVec : Tbl Vec
  pkgs : Tbl Pkg
  dies : Tbl Die
  quads : Tbl Quad
  cores : Tbl Core
  units : Tbl HsUnit
  fns : Tbl Fn
  ctxs : Tbl Ctx
  homes : Tbl (Tbl Inc)
  fibres : Tbl Fibre
  circuits : Tbl (Option (Nat × Nat))
  gangs : Tbl Gang
  wgs : Tbl Wg
  threads : Tbl Thread
  accs : List Access
  notices : List Notice
  offers : List Offer
  sillage : List Sillage
  msgs : List Msg
  severed : List Nat
  fwds : List FwdMsg
  cmds : List Cmd
  colls : List Coll
  deliveries : List Delivery
  pods : List PodLaunch
  cur : Option Site
  turns : List Turn
  tick : Nat
  nextId : Nat
  deriving DecidableEq, Repr

/-- What stops the machine. -/
inductive Fault where
  /-- Raised by a thread instruction executed with no issuing fragment; a step never does so (safe). -/
  | noIssuer
  deriving DecidableEq, Repr, Inhabited

/-- Why an instruction has no meaning. -/
inductive Refusal where
  /-- Raised by an arm of exec whose meaning is not written yet (safe). -/
  | notModelled (mnemonic : String)
  deriving DecidableEq, Repr, Inhabited

/-- The machine right after a package reset of every package (24_host R366): every table at its reset value. -/
def State.reset : State :=
  { mem := [], empties := [], poison := [], views := [], homeVer := [], viewVer := [], wordVec := [],
    pkgs := [], dies := [], quads := [], cores := [], units := [], fns := [], ctxs := [], homes := [], fibres := [],
    circuits := [],
    gangs := [], wgs := [], threads := [], accs := [], notices := [], offers := [], sillage := [], msgs := [],
    severed := [], fwds := [], cmds := [], colls := [], deliveries := [], pods := [], cur := none, turns := [], tick := 0,
    nextId := 1 }

end Sys2Proof.Machine
end

