-- ==== Sys2Proof/Machine/Store.lean ====
section
/-! DEFINITION. Finite tables, bytes of memory, the places of the pod's memories, and the field helpers of records. -/

namespace Sys2Proof.Machine

/-! ### Tables -/

/-- The value of a key, if listed. -/
def tfind {α : Type} : Tbl α → Nat → Option α
  | [], _ => none
  | (j, v) :: r, k => if j = k then some v else tfind r k

/-- The value of a key, or the default of an unlisted one. -/
def tget {α : Type} (d : α) (m : Tbl α) (k : Nat) : α := (tfind m k).getD d

/-- Set the value of a key, keeping rising key order. -/
def tset {α : Type} : Tbl α → Nat → α → Tbl α
  | [], k, v => [(k, v)]
  | (j, w) :: r, k, v =>
    if j = k then (k, v) :: r
    else if k < j then (k, v) :: (j, w) :: r
    else (j, w) :: tset r k v

/-- Remove a key. -/
def tdel {α : Type} : Tbl α → Nat → Tbl α
  | [], _ => []
  | (j, w) :: r, k => if j = k then r else (j, w) :: tdel r k

/-- Change the value of a key, starting from the default. -/
def tmod {α : Type} (d : α) (m : Tbl α) (k : Nat) (f : α → α) : Tbl α := tset m k (f (tget d m k))

/-- Keys strictly rise. -/
def tsorted {α : Type} : Tbl α → Bool
  | [] => true
  | (k, _) :: r => (match r with | [] => true | (j, _) :: _ => decide (k < j)) && tsorted r

/-- Sum of some numbers. -/
def total (l : List Nat) : Nat := l.foldl (· + ·) 0

/-- Insert into a rising list of numbers. -/
def ninsert : List Nat → Nat → List Nat
  | [], k => [k]
  | j :: r, k => if j = k then j :: r else if k < j then k :: j :: r else j :: ninsert r k

/-- Replace element `i` of a list. -/
def lset {α : Type} (l : List α) (i : Nat) (v : α) : List α := l.set i v

/-! ### Bytes of memory

An unlisted byte reads zero: HBM4E, vault and scratchpad after the boot scrub (11_memories R200, 24_host R365); the CXL
tier, whose power-on contents the spec does not give, by assumption 3. -/

/-- What an unlisted byte reads as. -/
def unlisted : Byte := 0

/-- One byte of memory. -/
def readByte (m : List Host.Cell) (a : Nat) : Byte := tget unlisted m a

/-- Write one byte, keeping the canonical form. -/
def writeByte (m : List Host.Cell) (a : Nat) (v : Byte) : List Host.Cell :=
  if v = unlisted then tdel m a else tset m a v

/-- Memory is canonical: addresses rise and no entry is what an unlisted byte reads as. -/
def Memory.wf (m : List Host.Cell) : Bool := tsorted m && m.all fun c => c.2 != unlisted

/-- `n` bytes from `a` up. -/
def readBytes (m : List Host.Cell) (a : Nat) : Nat → List Byte
  | 0 => []
  | n + 1 => readByte m a :: readBytes m (a + 1) n

/-- Write bytes from `a` up. -/
def writeBytes (m : List Host.Cell) (a : Nat) : List Byte → List Host.Cell
  | [] => m
  | b :: r => writeBytes (writeByte m a b) (a + 1) r

/-- The little-endian number of some bytes. -/
def leNat : List Byte → Nat
  | [] => 0
  | b :: r => b.toNat + 256 * leNat r

/-- The `n` little-endian bytes of a number. -/
def natLe : Nat → Nat → List Byte
  | 0, _ => []
  | n + 1, v => BitVec.ofNat 8 v :: natLe n (v / 256)

/-- The aligned 8-byte word `w` (bytes 8w to 8w+7). -/
def readWord (m : List Host.Cell) (w : Nat) : W64 := BitVec.ofNat 64 (leNat (readBytes m (8 * w) 8))

/-- Write an aligned word. -/
def writeWord (m : List Host.Cell) (w : Nat) (v : W64) : List Host.Cell := writeBytes m (8 * w) (natLe 8 v.toNat)

/-- Bytes `off` to `off + n - 1` of a word. -/
def wordPart (v : W64) (off n : Nat) : W64 := BitVec.ofNat 64 (v.toNat / 2 ^ (8 * off) % 2 ^ (8 * n))

/-- A word with bytes `off` to `off + n - 1` replaced. -/
def wordSet (v : W64) (off n : Nat) (d : W64) : W64 :=
  let lo := v.toNat % 2 ^ (8 * off)
  let hi := v.toNat / 2 ^ (8 * (off + n))
  BitVec.ofNat 64 (lo + d.toNat % 2 ^ (8 * n) * 2 ^ (8 * off) + hi * 2 ^ (8 * (off + n)))

/-- A field of a record: `n` bytes at offset `o`. -/
def fld (r : List Byte) (o n : Nat) : Nat := leNat ((r.drop o).take n)

/-- Some bytes of a record are all zero. -/
def zeros (r : List Byte) (o n : Nat) : Bool := ((r.drop o).take n).all (· == 0)

/-- Bits `hi` down to `lo` of a number. -/
def bits (v hi lo : Nat) : Nat := v / 2 ^ lo % 2 ^ (hi - lo + 1)

/-- Two's complement reading of the low `w` bits. -/
def sint (w v : Nat) : Int :=
  let u := v % 2 ^ w
  if u < 2 ^ (w - 1) then (u : Int) else (u : Int) - (2 ^ w : Nat)

/-- An integer modulo 2^w as a number. -/
def umod (w : Nat) (t : Int) : Nat := (t % (2 ^ w : Nat)).toNat

/-! ### Places

Every byte of every package has one number: package, then HBM4E (from 0), vaults, scratchpads, CXL tier. -/

def pkgSpan : Nat := 2 ^ 48
def locHbm (p pa : Nat) : Nat := p * pkgSpan + pa
def locVault (p q off : Nat) : Nat := p * pkgSpan + 2 ^ 41 + q * 2 ^ 22 + off
def locScratch (p c off : Nat) : Nat := p * pkgSpan + 2 ^ 42 + c * 2 ^ 18 + off
def locCxl (p a : Nat) : Nat := p * pkgSpan + 2 ^ 44 + a
def locPkg (l : Nat) : Nat := l / pkgSpan
def isScratch (l : Nat) : Bool := 2 ^ 42 ≤ l % pkgSpan && l % pkgSpan < 2 ^ 44
def isCxl (l : Nat) : Bool := 2 ^ 44 ≤ l % pkgSpan

/-- The die whose slice or vault is home to a place (12_ordering R211). -/
def homeDie (l : Nat) : Nat :=
  let o := l % pkgSpan
  if o < 2 ^ 40 then bits o 16 13 / 4
  else if o < 2 ^ 42 then (o - 2 ^ 41) / 2 ^ 22 / 40
  else if o < 2 ^ 44 then (o - 2 ^ 42) / 2 ^ 18 / 160
  else (o - 2 ^ 44) / 2 ^ 42

def quadKey (p q : Nat) : Nat := 160 * p + q
def coreKey (p c : Nat) : Nat := 640 * p + c
def dieKey (p d : Nat) : Nat := 4 * p + d
def unitKey (p u : Nat) : Nat := 516 * p + u
def fnKey (p f : Nat) : Nat := 257 * p + f
def ctxKey (p c : Nat) : Nat := 256 * p + c
def fibreKey (p f : Nat) : Nat := 48 * p + f
def thrKey (wg tid : Nat) : Nat := 2048 * wg + tid

/-- The linear HBM4E view's offset as the interleaved one (11_memories R198). -/
def hbmOfLinear (o : Nat) : Nat :=
  bits o 30 8 * 2 ^ 17 + bits o 39 36 * 2 ^ 13 + bits o 35 31 * 2 ^ 8 + o % 256

/-- A local physical address of package `p`, or none where R198 backs nothing; `caps` are the CXL capacities (R364). -/
def locLocal (p pa : Nat) (caps : List Nat) : Option Nat :=
  if pa < 2 ^ 40 then some (locHbm p pa)
  else if pa < 2 ^ 41 then some (locHbm p (hbmOfLinear (pa - 2 ^ 40)))
  else if 2 ^ 44 ≤ pa && pa < 2 ^ 45 then
    let a := pa - 2 ^ 44
    if a % 2 ^ 42 < caps.getD (a / 2 ^ 42) 0 then some (locCxl p a) else none
  else none

/-- What a physical address of package `p` names. -/
inductive Target where
  | here (loc : Nat)
  | peer (pkg loc : Nat)
  | peerNone (pkg : Nat)
  | portNone
  | unbacked
  deriving DecidableEq, Repr

/-- The physical address map (R198, R199). -/
def target (p pa podSize : Nat) (caps : Nat → List Nat) : Target :=
  let own (l : Nat) : Target :=
    match locLocal p l (caps p) with
    | some x => .here x
    | none => if 2 ^ 44 ≤ l && l < 2 ^ 45 then .portNone else .unbacked
  if pa < 2 ^ 45 then own pa
  else if 2 ^ 55 ≤ pa && pa < 2 ^ 55 + 64 * 2 ^ 49 then
    let q := (pa - 2 ^ 55) / 2 ^ 49
    let l := (pa - 2 ^ 55) % 2 ^ 49
    if 2 ^ 45 ≤ l then .unbacked
    else if q = p then own l
    else if q < podSize then
      (match locLocal q l (caps q) with
       | some x => .peer q x
       | none => .peerNone q)
    else .peerNone q
  else .unbacked

/-- Position of a core in its die's forwarding chain (07_lanes R135). -/
def chainPos (c : Nat) : Nat :=
  let q := c % 160 / 4
  let i := c % 4
  if q % 2 = 0 then 4 * q + i else 4 * q + 3 - i

/-- The core at a position of a die's chain. -/
def chainCore (die pos : Nat) : Nat :=
  let q := pos / 4
  let i := pos % 4
  160 * die + 4 * q + (if q % 2 = 0 then i else 3 - i)

end Sys2Proof.Machine
end

