-- ==== Sys2Proof/Machine/Flags.lean ====
section
/-! DEFINITION. FLAGS (02_numbers R40) and the integer helpers that set it (R30, R48). -/

namespace Sys2Proof.Machine

def fIV : W32 := 0x01
def fDZ : W32 := 0x02
def fOF : W32 := 0x04
def fUF : W32 := 0x08
def fIX : W32 := 0x10
def fSAT : W32 := 0x20
def fALOSS : W32 := 0x40

/-- The bits of FLAGS that exist (R40); the rest read zero. -/
def flagMask : W32 := 0x7F

/-- The flag `f` when `b`. -/
def fwhen (b : Bool) (f : W32) : W32 := if b then f else 0

/-- Least value of an integer type (R29). -/
def intMin (w : Nat) (sg : Bool) : Int := if sg then -(2 ^ (w - 1) : Nat) else 0

/-- Greatest value of an integer type (R29). -/
def intMax (w : Nat) (sg : Bool) : Int := if sg then (2 ^ (w - 1) : Nat) - 1 else (2 ^ w : Nat) - 1

/-- `wrap_int`: the bits of an exact integer modulo 2^w (R48). -/
def wrapInt (t : Int) (w : Nat) : Nat := umod w t

/-- `sat_int`: the bits of an exact integer clamped to its type, and SAT when the clamp changes it (R30, R48). -/
def satInt (t : Int) (w : Nat) (sg : Bool) : Nat × W32 :=
  if t < intMin w sg then (umod w (intMin w sg), fSAT)
  else if intMax w sg < t then (umod w (intMax w sg), fSAT)
  else (umod w t, 0)

/-- Deliver an exact integer with or without saturation (R92). -/
def deliver (t : Int) (w : Nat) (sg sat : Bool) : Nat × W32 :=
  if sat then satInt t w sg else (wrapInt t w, 0)

end Sys2Proof.Machine
end

