-- ==== Sys2Proof/Machine/Legal.lean ====
section
/-! DEFINITION. The static conditions of 03_encoding R68 that the shape of Instr does not rule out already, and the
registers each instruction reads and writes (R52, R57, R64, R83). -/

namespace Sys2Proof.Machine

/-! ### Small checks -/

/-- A guard other than the negated q0 (R58). -/
def guardOk (g : Guard) : Bool := !(g.neg && g.q == 0)

/-- An x or k number that may name a 64-bit pair (R56, R57). -/
def evenX (n : XReg) : Bool := n.toNat % 2 == 0

/-- An even k number. -/
def evenK (n : KReg) : Bool := n.toNat % 2 == 0

/-- An operand that may be read at 64 bits (R56, R89). -/
def opnd64 : Opnd → Bool
  | .x n => evenX n
  | .k n => evenK n
  | .zero => true
  | .lane => true
  | .gwidth => true
  | .tid => true
  | .imm _ => true

/-- An operand that may be read at width `w`. -/
def opndAt (w : Width) (o : Opnd) : Bool := w != .w64 || opnd64 o

/-- A destination that may be written at width `w` (R90). -/
def destAt (w : Width) (d : XReg) : Bool := w != .w64 || evenX d

/-- A base names an even register (R54). -/
def baseOk : Base → Bool
  | .x n => evenX n
  | .k n => evenK n

/-- Segment size of a source modifier (R124). -/
def smodSize (m : SMod) : Nat := if m.rel then Config.gwidth / 2 ^ m.s.toNat else 2 ^ m.s.toNat

/-- The limits of R60 on a source modifier of operand `b`. -/
def smodOk (sm : Option SMod) (b : Opnd) : Bool :=
  match sm with
  | none => true
  | some m =>
    (match b with | .x _ => true | _ => false) &&
    (if m.rel then decide (m.s.toNat ≤ Config.lgwidth - 1)
     else decide (1 ≤ m.s.toNat) && decide (m.s.toNat ≤ Config.lgwidth)) &&
    decide (m.d.toNat < smodSize m)

/-- A modifier of a 64-bit pair operand (R162). -/
def smodBase (sm : Option SMod) : Base → Bool
  | .x n => smodOk sm (.x n)
  | .k n => smodOk sm (.k n)

def w2 : W2 → Width
  | .w32 => .w32
  | .w64 => .w64

/-- The segment code of group 2 (R125). -/
def segOk (g : Seg) : Bool := decide (g.toNat ≤ Config.lgwidth)

def f3Ok (o : F3) : Bool := guardOk o.g && smodOk o.sm o.b
def f2Ok (o : F2) : Bool := guardOk o.g && smodOk o.sm o.b
def fpOk (o : FP) : Bool := guardOk o.g && smodOk o.sm o.b && o.q != 0

/-- An F-form whose destination and both sources are read at width `w`. -/
def f3At (w : Width) (o : F3) : Bool := f3Ok o && destAt w o.d && opndAt w o.a && opndAt w o.b

/-- An F-form whose B is always read at 32 bits (R97, R99, R126). -/
def f3A (w : Width) (o : F3) : Bool := f3Ok o && destAt w o.d && opndAt w o.a

def f2At (w : Width) (o : F2) : Bool := f2Ok o && destAt w o.d && opndAt w o.b

/-- An M-form address (R54). -/
def maddrOk (m : MAddr) : Bool := guardOk m.g && baseOk m.a

/-- The scope field is zero with `.rlx` (13_memory_instr R227). -/
def moOk (o : MO) : Bool := o.o != .rlx || o.sc == .lane

def loadOrd (o : MO) : Bool := moOk o && (o.o == .rlx || o.o == .acq || o.o == .sc)
def storeOrd (o : MO) : Bool := moOk o && (o.o == .rlx || o.o == .rel || o.o == .sc)

/-- Element count of LDV and STV (R230). -/
def vcount : VCnt → Nat
  | .x2 => 2
  | .x4 => 4
  | .x8 => 8

/-- E-form operands (14_engines R240). -/
def eOk (e : EArgs) : Bool := guardOk e.g && evenK e.a

/-! ### System registers (04_registers R80) -/

/-- Who may write a system register. -/
inductive Acc where
  | r | u | t | d
  deriving DecidableEq, Repr

/-- Width and access of a selector, or none where R80 lists none. -/
def sysReg (sel : Nat) : Option (W2 × Acc) :=
  match sel with
  | 0x00 => some (.w32, .r) | 0x01 => some (.w32, .r) | 0x02 => some (.w32, .r) | 0x03 => some (.w32, .r)
  | 0x04 => some (.w32, .r) | 0x05 => some (.w32, .r) | 0x06 => some (.w32, .r) | 0x07 => some (.w32, .r)
  | 0x08 => some (.w32, .r) | 0x09 => some (.w32, .r) | 0x0A => some (.w32, .u) | 0x0B => some (.w32, .t)
  | 0x0C => some (.w64, .t) | 0x0D => some (.w32, .t) | 0x0E => some (.w64, .t) | 0x0F => some (.w64, .t)
  | 0x10 => some (.w64, .t) | 0x11 => some (.w32, .t) | 0x12 => some (.w64, .t) | 0x13 => some (.w32, .r)
  | 0x14 => some (.w64, .r) | 0x15 => some (.w64, .r) | 0x18 => some (.w32, .d) | 0x19 => some (.w64, .d)
  | 0x1A => some (.w64, .d) | 0x1B => some (.w64, .d) | 0x1C => some (.w64, .d) | 0x1D => some (.w64, .d)
  | 0x1E => some (.w64, .d) | 0x20 => some (.w32, .r) | 0x21 => some (.w32, .r) | 0x22 => some (.w32, .r)
  | 0x23 => some (.w64, .r) | 0x24 => some (.w64, .r) | 0x28 => some (.w32, .u) | 0x29 => some (.w32, .u)
  | _ => none

/-- Counter selectors of CNTRD (15_counters R274). -/
def cntSelOk (sel : Nat) : Bool := sel ≤ 0x09 || (0x10 ≤ sel && sel ≤ 0x1F) || (0x40 ≤ sel && sel ≤ 0x4C)

/-- Barrier selectors of CNTRD. -/
def cntSelBar (sel : Nat) : Bool := 0x10 ≤ sel && sel ≤ 0x1F

/-! ### Registers named -/

/-- The x registers of an operand read at width `w`. -/
def opndX (w : Width) : Opnd → List Nat
  | .x n => if w == .w64 then [n.toNat, n.toNat + 1] else [n.toNat]
  | .k _ => []
  | .zero => []
  | .lane => []
  | .gwidth => []
  | .tid => []
  | .imm _ => []

/-- The k registers of an operand read at width `w`. -/
def opndK (w : Width) : Opnd → List Nat
  | .k n => if w == .w64 then [n.toNat, n.toNat + 1] else [n.toNat]
  | .x _ => []
  | .zero => []
  | .lane => []
  | .gwidth => []
  | .tid => []
  | .imm _ => []

def baseX : Base → List Nat
  | .x n => [n.toNat, n.toNat + 1]
  | .k _ => []

def baseK : Base → List Nat
  | .k n => [n.toNat, n.toNat + 1]
  | .x _ => []

/-- The x registers of a destination written at width `w`. -/
def destX (w : Width) (d : XReg) : List Nat :=
  if w == .w64 then [d.toNat, d.toNat + 1] else [d.toNat]

def dstX (w : Width) : Dst → List Nat
  | .x n => destX w n
  | .k _ => []

def dstK : Dst → List Nat
  | .k n => [n.toNat]
  | .x _ => []

/-- What a word names: x registers read and written, k registers read and written, and whether it reads or
writes FLAGS as a register. -/
structure Names where
  xr : List Nat := []
  xw : List Nat := []
  kr : List Nat := []
  kw : List Nat := []
  fl : Bool := false
  deriving DecidableEq, Repr

/-- Names of an operand read at `w`. -/
def nOp (w : Width) (o : Opnd) : Names := { xr := opndX w o, kr := opndK w o }
def nBase (b : Base) : Names := { xr := baseX b, kr := baseK b }
def nDest (w : Width) (d : XReg) : Names := { xw := destX w d }
/-- A destination that is also a source. -/
def nDestSrc (w : Width) (d : XReg) : Names := { xr := destX w d, xw := destX w d }

def Names.app (a b : Names) : Names :=
  { xr := a.xr ++ b.xr, xw := a.xw ++ b.xw, kr := a.kr ++ b.kr, kw := a.kw ++ b.kw, fl := a.fl || b.fl }

def nAll : List Names → Names
  | [] => {}
  | n :: r => n.app (nAll r)

def nF3 (w : Width) (o : F3) : Names := nAll [nDest w o.d, nOp w o.a, nOp w o.b]
/-- As `nF3`, with B read at 32 bits. -/
def nF3b (w : Width) (o : F3) : Names := nAll [nDest w o.d, nOp w o.a, nOp .w32 o.b]
def nF2 (w : Width) (o : F2) : Names := (nDest w o.d).app (nOp w o.b)
/-- A 32-bit destination from a source at width `w`. -/
def nF2c (w : Width) (o : F2) : Names := (nDest .w32 o.d).app (nOp w o.b)
def nFP (w : Width) (o : FP) : Names := (nOp w o.a).app (nOp w o.b)
/-- k consecutive elements of width `w` from register `d` (R230). -/
def vecX (w : Width) (c : VCnt) (d : XReg) : List Nat :=
  (List.range (vcount c * (if w == .w64 then 2 else 1))).map (d.toNat + ·)

/-! ### Pair halves (R62 to R65) -/

/-- A memory half (HOP class 0b10). -/
def hopMem : HOp → Bool
  | .ldB32 => true | .stB32 => true | .ldB64 => true | .stB64 => true | .pref => true
  | _ => false

/-- A lanes half (HOP class 0b11). -/
def hopLane : HOp → Bool
  | .perm => true | .reduceAddI32 => true | .reduceMaxI32 => true | .reduceMinI32 => true | .scanAddI32 => true
  | _ => false

/-- A binary half reads D as its first source (R63). -/
def hopBinary : HOp → Bool
  | .add => true | .sub => true | .mul => true | .minI32 => true | .minN32 => true | .maxI32 => true
  | .maxN32 => true | .and => true | .or => true | .xor => true | .andn => true | .shl => true | .shr => true
  | .sar => true | .rol => true | .fadd => true | .fsub => true | .fmul => true | .fmin => true | .fmax => true
  | .perm => true
  | _ => false

/-- Names of a half. -/
def halfNames (h : Half) : Names :=
  match h.op with
  | .ldB32 => (nDest .w32 h.args.d).app (nOp .w64 h.args.s)
  | .ldB64 => (nDest .w64 h.args.d).app (nOp .w64 h.args.s)
  | .stB32 => { xr := destX .w32 h.args.d ++ opndX .w64 h.args.s }
  | .stB64 => { xr := destX .w64 h.args.d ++ opndX .w64 h.args.s }
  | .pref => nOp .w64 h.args.s
  | op => if hopBinary op then (nDestSrc .w32 h.args.d).app (nOp .w32 h.args.s)
          else (nDest .w32 h.args.d).app (nOp .w32 h.args.s)

/-- The short modifier's limits (R62): it needs an x register, a memory half takes none, and 2^n is below GWIDTH. -/
def ssOk (h : Half) : Bool :=
  match h.args.ss with
  | none => true
  | some n => (match h.args.s with | .x _ => true | _ => false) && !hopMem h.op &&
      decide (2 ^ n.toNat < Config.gwidth)

/-- One half on its own. -/
def halfOk (h : Half) : Bool :=
  guardOk h.args.g && ssOk h &&
  (if hopMem h.op then
    (match h.args.s with | .x n => evenX n | _ => false) &&
    (match h.op with
     | .ldB64 => evenX h.args.d
     | .stB64 => evenX h.args.d
     | .pref => h.args.d == 0
     | _ => true)
   else true)

/-- The pairing rules of R64. -/
def pairRules (a b : Half) : Bool :=
  let na := halfNames a
  let nb := halfNames b
  !(hopMem a.op && hopMem b.op) && !(hopLane a.op && hopLane b.op) &&
  na.xw.all (fun p => nb.xw.all fun q => p % 4 != q % 4) &&
  na.xr.all (fun p => nb.xr.all fun q => p == q || p % 4 != q % 4) &&
  nb.xr.all (fun q => na.xw.all fun p => p != q)

/-- A pair word is legal. -/
def pairOk (a b : Half) : Bool := halfOk a && halfOk b && pairRules a b

/-- Names of a pair word. -/
def pairNames (a b : Half) : Names := (halfNames a).app (halfNames b)

/-- The two halves of a pair word, the first named by its constructor; none for every other instruction. -/
def pairOf : Instr → Option (Half × Half)
  | .addHalf h s => some (⟨.add, h⟩, s)
  | .subHalf h s => some (⟨.sub, h⟩, s)
  | .mulHalf h s => some (⟨.mul, h⟩, s)
  | .minI32Half h s => some (⟨.minI32, h⟩, s)
  | .minN32Half h s => some (⟨.minN32, h⟩, s)
  | .maxI32Half h s => some (⟨.maxI32, h⟩, s)
  | .maxN32Half h s => some (⟨.maxN32, h⟩, s)
  | .absI32Half h s => some (⟨.absI32, h⟩, s)
  | .andHalf h s => some (⟨.and, h⟩, s)
  | .orHalf h s => some (⟨.or, h⟩, s)
  | .xorHalf h s => some (⟨.xor, h⟩, s)
  | .andnHalf h s => some (⟨.andn, h⟩, s)
  | .shlHalf h s => some (⟨.shl, h⟩, s)
  | .shrHalf h s => some (⟨.shr, h⟩, s)
  | .sarHalf h s => some (⟨.sar, h⟩, s)
  | .rolHalf h s => some (⟨.rol, h⟩, s)
  | .popcHalf h s => some (⟨.popc, h⟩, s)
  | .clzHalf h s => some (⟨.clz, h⟩, s)
  | .ctzHalf h s => some (⟨.ctz, h⟩, s)
  | .brevHalf h s => some (⟨.brev, h⟩, s)
  | .movHalf h s => some (⟨.mov, h⟩, s)
  | .faddHalf h s => some (⟨.fadd, h⟩, s)
  | .fsubHalf h s => some (⟨.fsub, h⟩, s)
  | .fmulHalf h s => some (⟨.fmul, h⟩, s)
  | .fminHalf h s => some (⟨.fmin, h⟩, s)
  | .fmaxHalf h s => some (⟨.fmax, h⟩, s)
  | .frcpHalf h s => some (⟨.frcp, h⟩, s)
  | .fsqrtHalf h s => some (⟨.fsqrt, h⟩, s)
  | .frsqHalf h s => some (⟨.frsq, h⟩, s)
  | .fexp2Half h s => some (⟨.fexp2, h⟩, s)
  | .flog2Half h s => some (⟨.flog2, h⟩, s)
  | .frndHalf h s => some (⟨.frnd, h⟩, s)
  | .ldB32Half h s => some (⟨.ldB32, h⟩, s)
  | .stB32Half h s => some (⟨.stB32, h⟩, s)
  | .ldB64Half h s => some (⟨.ldB64, h⟩, s)
  | .stB64Half h s => some (⟨.stB64, h⟩, s)
  | .prefHalf h s => some (⟨.pref, h⟩, s)
  | .permHalf h s => some (⟨.perm, h⟩, s)
  | .reduceAddI32Half h s => some (⟨.reduceAddI32, h⟩, s)
  | .reduceMaxI32Half h s => some (⟨.reduceMaxI32, h⟩, s)
  | .reduceMinI32Half h s => some (⟨.reduceMinI32, h⟩, s)
  | .scanAddI32Half h s => some (⟨.scanAddI32, h⟩, s)
  | _ => none

/-! ### Names of every word -/

/-- The registers a word names; an event names none. -/
def names : Instr → Names
  | .add o t _ => nF3 t.w o
  | .sub o t _ => nF3 t.w o
  | .addc o w _ => nAll [nDest .w32 o.d, nOp (w2 w) o.a, nOp (w2 w) o.b]
  | .mul o t _ => nF3 t.w o
  | .mulh o w _ => nF3 (w2 w) o
  | .mad o c t _ => (nF3 t.w o).app (nOp t.w c)
  | .div o t _ => nF3 t.w o
  | .rem o t => nF3 t.w o
  | .min o t => nF3 t.w o
  | .max o t => nF3 t.w o
  | .abs o w _ => nF2 w o
  | .and o t => nF3 t.w o
  | .or o t => nF3 t.w o
  | .xor o t => nF3 t.w o
  | .andn o t => nF3 t.w o
  | .shl o t _ => nF3b t.w o
  | .shr o t => nF3b t.w o
  | .sar o t => nF3b t.w o
  | .rol o t => nF3b t.w o
  | .popc o w => nF2c w o
  | .clz o w => nF2c w o
  | .ctz o w => nF2c w o
  | .brev o t => nF2 t.w o
  | .bfx o t => nF3b t.w o
  | .bfi o t => nAll [nDestSrc t.w o.d, nOp t.w o.a, nOp .w32 o.b]
  | .sel o t _ => nF3 t.w o
  | .cmp o t _ => nFP t.w o
  | .mov d b _ _ t => nAll [{ xw := dstX t.w d, kw := dstK d }, nOp t.w b]
  | .movi d _ _ => { xw := dstX .w32 d, kw := dstK d }
  | .moviI64 d _ _ => nDest .w64 d
  | .lea d m b _ => nAll [nDest .w64 d, nBase m.a, nOp .w32 b]
  | .addi d a _ _ => (nDest .w32 d).app (nOp .w32 a)
  | .fadd o _ _ => nF3 .w32 o
  | .fsub o _ _ => nF3 .w32 o
  | .fmul o _ _ => nF3 .w32 o
  | .ffma o c _ _ => (nF3 .w32 o).app (nOp .w32 c)
  | .fmin o _ => nF3 .w32 o
  | .fmax o _ => nF3 .w32 o
  | .fcmp o _ _ => nFP .w32 o
  | .fclass o _ => nF2 .w32 o
  | .frcp o _ => nF2 .w32 o
  | .fsqrt o _ => nF2 .w32 o
  | .frsq o _ => nF2 .w32 o
  | .fexp2 o _ => nF2 .w32 o
  | .flog2 o _ => nF2 .w32 o
  | .fsint o _ => nF2 .w32 o
  | .fcost o _ => nF2 .w32 o
  | .fcvt o _ _ _ _ => nF2 .w32 o
  | .fcvti o t _ _ _ => (nDest t.w o.d).app (nOp .w32 o.b)
  | .icvtf o t _ _ => nF2c t.w o
  | .fpack o _ _ => nAll [nDestSrc .w32 o.d, nOp .w32 o.a, nOp .w32 o.b]
  | .funpk o _ => nF3 .w32 o
  | .fscaleacc o _ _ _ ak _ =>
    nAll [nDestSrc .w32 o.d, nOp (if ak == .f32 then .w32 else .w64) o.a, nOp .w32 o.b]
  | .ordkey o t => (nDest .w64 o.d).app (nOp (match t with | .int i => i.w | .flt _ => .w32) o.b)
  | .fdot2 o _ _ => nAll [nDestSrc .w32 o.d, nOp .w32 o.a, nOp .w32 o.b]
  | .frnd o _ _ => nF2 .w32 o
  | .perm o w => nF3b (w2 w) o
  | .shufx o w _ _ => nF3b (w2 w) o
  | .vote d _ _ => (match d with | .all _ => {} | .any _ => {} | .ballot d => nDest .w64 d | .ballotHi d => nDest .w64 d)
  | .matchL o w _ => (nDest .w64 o.d).app (nOp (w2 w) o.b)
  | .reduce o t _ _ => nF2 (match t with | .int i => i.w | .flt _ _ => .w32) o
  | .scan o t _ _ => nF2 (match t with | .int i => i.w | .flt _ _ => .w32) o
  | .lscan o _ _ => nAll [nDestSrc .w32 o.d, nOp .w32 o.a, nOp .w32 o.b]
  | .cavity o t _ _ => nF2 (match t with | .int i => i.w | .flt _ _ => .w32) o
  | .fwds b _ _ w _ _ => nOp (w2 w) b
  | .fwdr d _ w _ _ => nDest (w2 w) d
  | .elect _ _ => {}
  | .tdesc _ a _ => { xr := [a.toNat, a.toNat + 1] }
  | .plane _ _ _ _ => { fl := true }
  | .align _ _ _ _ => { fl := true }
  | .cbload m => nBase m.a
  | .mma _ _ _ _ _ => {}
  | .mmac _ _ _ _ _ => {}
  | .accz _ _ _ => {}
  | .accrd d _ b _ _ => (nDest .w64 d).app (nOp .w32 b)
  | .accst _ m b => (nBase m.a).app { xr := [b.toNat] }
  | .mmawait _ _ => {}
  | .bra _ _ => {}
  | .brc _ a _ _ => nOp .w32 a
  | .call d _ _ => nDest .w64 d
  | .ret b _ => nBase b
  | .jmpi b _ => nBase b
  | .jmpiLink d b _ => (nDest .w64 d).app (nBase b)
  | .rjoin _ _ => {}
  | .rwait _ _ => {}
  | .exit _ => {}
  | .nop _ => {}
  | .yield _ => {}
  | .shield _ _ => {}
  | .bound _ b _ _ => nBase b
  | .boundNone _ => {}
  | .incofr _ a b _ _ => (nBase a).app (nBase b)
  | .incrd d p _ _ => { xw := destX .w64 d ++ (if p == .both then [d.toNat + 2, d.toNat + 3] else []) }
  | .incwait _ b _ _ => nBase b
  | .cancel _ => {}
  | .ld d m t _ => nAll [{ xw := dstX t.w d, kw := dstK d }, nBase m.a]
  | .st m b w _ => (nBase m.a).app (nOp w b)
  | .ldv d m t c _ => (nBase m.a).app { xw := vecX t.w c d }
  | .stv m b w c _ => (nBase m.a).app { xr := vecX w c b }
  | .atom op d m b w _ _ => nAll [nDest (w2 w) d, nBase m.a, nOp (w2 w) b, { fl := op == .fadd }]
  | .acas d m b w _ => nAll [nDestSrc (w2 w) d, nBase m.a, nOp (w2 w) b]
  | .ldfe d m _ => (nDest .w64 d).app (nBase m.a)
  | .stfe m b _ => (nBase m.a).app (nBase b)
  | .fetagRead d m _ => (nDest .w32 d).app (nBase m.a)
  | .fetagFill m _ => nBase m.a
  | .fetagEmpty m _ => nBase m.a
  | .fence _ _ => {}
  | .pref m => nBase m.a
  | .tcopy e => nAll [nDest .w32 e.d, nBase (.k e.a)]
  | .tgather e => nAll [nDest .w32 e.d, nBase (.k e.a)]
  | .cavred e => nAll [nDest .w32 e.d, nBase (.k e.a)]
  | .loopnest e => nAll [nDest .w32 e.d, nBase (.k e.a)]
  | .search e => nAll [nDest .w32 e.d, nBase (.k e.a)]
  | .spawn d m _ => (nDest .w32 d).app (nBase m.a)
  | .ringset d m b _ => nAll [nDest .w32 d, nBase m.a, { xr := [b.toNat] }]
  | .send e => nAll [nDest .w32 e.d, nBase (.k e.a)]
  | .recvPoll d _ _ => { xw := (List.range 16).map (d.toNat + ·) }
  | .recvWait d _ _ => { xw := (List.range 16).map (d.toNat + ·) }
  | .bar d _ _ _ => nDest .w32 d
  | .baro d _ _ _ => nDest .w32 d
  | .barw b _ _ _ => nOp .w32 b
  | .waitptr _ b _ => nBase b
  | .waitptrTicket b _ => nOp .w32 b
  | .cntrd d _ _ _ => nDest .w64 d
  | .tlbinvPage a _ _ => nBase a
  | .tlbinvVf _ _ => {}
  | .lpark d b _ => (nDest .w32 d).app { xr := [b.toNat] }
  | .lwake d b _ => (nDest .w32 d).app { xr := [b.toNat] }
  | .slotset d m => (nDest .w32 d).app (nBase m.a)
  | .hspub e => nAll [nDest .w32 e.d, nBase (.k e.a)]
  | .srd d w sel _ => (nDest (w2 w) d).app { fl := sel == 0x0A }
  | .swr b w sel _ => (nOp (w2 w) b).app { fl := sel == 0x0A }
  | .trap _ _ => {}
  | .rte _ _ => {}
  | .brk _ _ => {}
  | .event b w _ => nOp (w2 w) b
  | .eventMbx b w _ => nOp (w2 w) b
  | .halt _ => {}
  | .icflush _ _ => {}
  | i => (match pairOf i with | some (a, b) => pairNames a b | none => {})

/-- Every x register a word names is below the kernel's declared count (R57, R13). -/
def regsBelow (n : Nat) (i : Instr) : Bool := ((names i).xr ++ (names i).xw).all (· < n)

/-! ### Legality -/

/-- Type and operator of REDUCE, SCAN and CAVITY (R131). -/
def lopOk (t : LTy) (op : LOp) : Bool :=
  match t with
  | .int _ => true
  | .flt _ rm =>
    (match op with
     | .add => true
     | .mul => true
     | .max => rm == .rne
     | .min => rm == .rne
     | .and => false
     | .or => false
     | .xor => false)

def ltyW : LTy → Width
  | .int i => i.w
  | .flt _ _ => .w32

/-- The barrier scopes of R270. -/
def barScope (sc : Scope) : Bool := sc != .lane

/-- The static conditions of R68 on a word (register numbers against the declared count are `regsBelow`; conditions
on the machine's state are the meanings'). An event is never a word and is legal. -/
def legal (i : Instr) : Bool :=
  match i with
  | .add o t _ => f3At t.w o
  | .sub o t _ => f3At t.w o
  | .addc o w _ => f3Ok o && opndAt (w2 w) o.a && opndAt (w2 w) o.b
  | .mul o t _ => f3At t.w o
  | .mulh o w _ => f3At (w2 w) o
  | .mad o c t _ => f3At t.w o && opndAt t.w c
  | .div o t _ => f3At t.w o
  | .rem o t => f3At t.w o
  | .min o t => f3At t.w o
  | .max o t => f3At t.w o
  | .abs o w _ => f2At w o
  | .and o t => f3At t.w o
  | .or o t => f3At t.w o
  | .xor o t => f3At t.w o
  | .andn o t => f3At t.w o
  | .shl o t _ => f3A t.w o
  | .shr o t => f3A t.w o
  | .sar o t => f3A t.w o
  | .rol o t => f3A t.w o
  | .popc o w => f2Ok o && opndAt w o.b
  | .clz o w => f2Ok o && opndAt w o.b
  | .ctz o w => f2Ok o && opndAt w o.b
  | .brev o t => f2At t.w o
  | .bfx o t => f3A t.w o
  | .bfi o t => f3A t.w o
  | .sel o t _ => f3At t.w o
  | .cmp o t _ => fpOk o && opndAt t.w o.a && opndAt t.w o.b
  | .mov d b sm g t => guardOk g && smodOk sm b && opndAt t.w b &&
      (match d with | .x n => destAt t.w n | .k _ => t.w == .w32)
  | .movi _ g _ => guardOk g
  | .moviI64 d g _ => guardOk g && evenX d
  | .lea d m _ _ => maddrOk m && evenX d
  | .addi _ _ g _ => guardOk g
  | .fadd o _ _ => f3Ok o
  | .fsub o _ _ => f3Ok o
  | .fmul o _ _ => f3Ok o
  | .ffma o _ _ _ => f3Ok o
  | .fmin o _ => f3Ok o
  | .fmax o _ => f3Ok o
  | .fcmp o _ _ => fpOk o
  | .fclass o _ => f2Ok o
  | .frcp o _ => f2Ok o
  | .fsqrt o _ => f2Ok o
  | .frsq o _ => f2Ok o
  | .fexp2 o _ => f2Ok o
  | .flog2 o _ => f2Ok o
  | .fsint o _ => f2Ok o
  | .fcost o _ => f2Ok o
  | .fcvt o _ _ _ _ => f2Ok o
  | .fcvti o t _ _ _ => f2Ok o && destAt t.w o.d
  | .icvtf o t _ _ => f2Ok o && opndAt t.w o.b
  | .fpack o t _ => f3Ok o && t != .f32
  | .funpk o t => f3Ok o && t != .f32
  | .fscaleacc o _ _ _ ak _ => f3Ok o && (ak == .f32 || opnd64 o.a)
  | .ordkey o t => f2Ok o && evenX o.d && (match t with | .int i => opndAt i.w o.b | .flt _ => true)
  | .fdot2 o _ _ => f3Ok o
  | .frnd o _ _ => f2Ok o
  | .perm o w => f3A (w2 w) o
  | .shufx o w g _ => f3A (w2 w) o && segOk g
  | .vote d _ g => guardOk g &&
      (match d with | .all q => q != 0 | .any q => q != 0 | .ballot d => evenX d | .ballotHi d => evenX d)
  | .matchL o w _ => f2Ok o && evenX o.d && opndAt (w2 w) o.b
  | .reduce o t g op => f2At (ltyW t) o && segOk g && lopOk t op
  | .scan o t g op => f2At (ltyW t) o && segOk g && lopOk t op
  | .lscan o _ g => f3Ok o && segOk g
  | .cavity o t g op => f2At (ltyW t) o && segOk g && lopOk t op
  | .fwds b sm g w _ blk => guardOk g && smodOk sm b && opndAt (w2 w) b && decide (32 * blk.toNat < Config.gwidth)
  | .fwdr d g w _ _ => guardOk g && destAt (w2 w) d
  | .elect q g => guardOk g && q != 0
  | .tdesc _ a g => guardOk g && evenX a
  | .plane _ _ _ g => guardOk g
  | .align _ _ _ g => guardOk g
  | .cbload m => maddrOk m
  | .mma _ _ _ _ g => guardOk g
  | .mmac _ _ _ _ g => guardOk g
  | .accz mask _ g => guardOk g && mask != 0
  | .accrd d _ b sm g => guardOk g && smodOk sm b && evenX d
  | .accst _ m _ => maddrOk m
  | .mmawait _ g => guardOk g
  | .bra g _ => guardOk g
  | .brc _ _ g _ => guardOk g
  | .call d g _ => guardOk g && evenX d
  | .ret b g => guardOk g && baseOk b
  | .jmpi b g => guardOk g && baseOk b
  | .jmpiLink d b g => guardOk g && evenX d && baseOk b
  | .rjoin _ g => guardOk g
  | .rwait _ g => guardOk g
  | .exit g => guardOk g
  | .nop g => guardOk g
  | .yield g => guardOk g
  | .shield n g => guardOk g && decide (1 ≤ n.toNat) && decide (n.toNat ≤ 16)
  | .bound _ b sm g => guardOk g && baseOk b && smodBase sm b
  | .boundNone g => guardOk g
  | .incofr _ a b sm g => guardOk g && baseOk a && baseOk b && smodBase sm b
  | .incrd d p _ g => guardOk g && evenX d && (p != .both || d.toNat % 4 == 0)
  | .incwait _ b sm g => guardOk g && baseOk b && smodBase sm b
  | .cancel g => guardOk g
  | .ld d m t o => maddrOk m && loadOrd o && (match d with | .x n => destAt t.w n | .k _ => t.w == .w32)
  | .st m b w o => maddrOk m && storeOrd o && opndAt w b
  | .ldv d m t _ o => maddrOk m && loadOrd o && destAt t.w d
  | .stv m b w _ o => maddrOk m && storeOrd o && destAt w b
  | .atom op d m b w sg o => maddrOk m && moOk o && destAt (w2 w) d && opndAt (w2 w) b &&
      (op != .fadd || w == .w32) && (!sg || op == .min || op == .max)
  | .acas d m b w o => maddrOk m && moOk o && destAt (w2 w) d && opndAt (w2 w) b
  | .ldfe d m o => maddrOk m && moOk o && evenX d
  | .stfe m b o => maddrOk m && moOk o && baseOk b
  | .fetagRead _ m o => maddrOk m && moOk o
  | .fetagFill m o => maddrOk m && moOk o
  | .fetagEmpty m o => maddrOk m && moOk o
  | .fence o g => guardOk g && o.o != .rlx
  | .pref m => maddrOk m
  | .tcopy e => eOk e
  | .tgather e => eOk e
  | .cavred e => eOk e
  | .loopnest e => eOk e
  | .search e => eOk e
  | .spawn _ m o => maddrOk m && moOk o && (o.o == .rlx || o.o == .rel)
  | .ringset _ m _ _ => maddrOk m
  | .send e => eOk e
  | .recvPoll d _ g => guardOk g && d.toNat % 16 == 0
  | .recvWait d _ g => guardOk g && d.toNat % 16 == 0
  | .bar _ sc _ g => guardOk g && barScope sc
  | .baro _ sc _ g => guardOk g && barScope sc && sc != .core
  | .barw _ sc _ g => guardOk g && barScope sc
  | .waitptr _ b g => guardOk g && baseOk b
  | .waitptrTicket _ g => guardOk g
  | .cntrd d sel sc g => guardOk g && evenX d && cntSelOk sel.toNat &&
      (match sc with | none => !cntSelBar sel.toNat | some s => cntSelBar sel.toNat && barScope s)
  | .tlbinvPage a _ g => guardOk g && baseOk a
  | .tlbinvVf _ g => guardOk g
  | .lpark _ _ g => guardOk g
  | .lwake _ _ g => guardOk g
  | .slotset _ m => maddrOk m
  | .hspub e => eOk e
  | .srd d w sel g => guardOk g && destAt (w2 w) d &&
      (match sysReg sel.toNat with | none => false | some (v, _) => v == w)
  | .swr b w sel g => guardOk g && opndAt (w2 w) b &&
      (match sysReg sel.toNat with | none => false | some (v, a) => v == w && a != .r)
  | .trap c g => guardOk g && decide (c.toNat ≤ 0xFFFF)
  | .rte _ g => guardOk g
  | .brk c g => guardOk g && decide (c.toNat ≤ 0xFFFF)
  | .event b w g => guardOk g && opndAt (w2 w) b
  | .eventMbx b w g => guardOk g && opndAt (w2 w) b
  | .halt g => guardOk g
  | .icflush _ g => guardOk g
  | i => (match pairOf i with | some (a, b) => pairOk a b | none => true)

end Sys2Proof.Machine
end

