-- ==== Sys2Proof/Machine/Operands.lean ====
section
/-! DEFINITION. Every operand form: what a thread sees at issue, how an operand code is read (03_encoding R56,
05_integer R89, 06_float R106), source lanes (07_lanes R123, R124), and how results are written (R90). -/

namespace Sys2Proof.Machine

/-- The guard-active threads of the issuing fragment, in lane order. -/
abbrev Frag := List Env

/-- The thread in lane `j`, when it is guard-active in the fragment (R123). -/
def laneEnv (fr : Frag) (j : Nat) : Option Env := fr.find? fun e => e.lane == j

/-- An x register. -/
def Env.xr (e : Env) (n : Nat) : W32 := e.x.getD n 0

/-- A k register. -/
def Env.kr (e : Env) (n : Nat) : W32 := e.k.getD n 0

/-- The pair x(n):x(n+1), low word first (04_registers R74). -/
def Env.xy (e : Env) (n : Nat) : W64 := e.xr (n + 1) ++ e.xr n

/-- The pair k(n):k(n+1). -/
def Env.ky (e : Env) (n : Nat) : W64 := e.kr (n + 1) ++ e.kr n

/-- A predicate; q0 always reads 1 (R58). -/
def Env.qr (e : Env) (n : QReg) : Bool := n == 0 || e.q.getLsbD n.toNat

/-- A guard holds (R58). -/
def Env.guarded (e : Env) (g : Guard) : Bool := e.qr g.q != g.neg

/-- The `w` bits of an operand as a number (R89). -/
def readOp (w : Width) (e : Env) (o : Opnd) : Nat :=
  match o with
  | .x n => if w == .w64 then (e.xy n.toNat).toNat else (e.xr n.toNat).toNat % 2 ^ w.bits
  | .k n => if w == .w64 then (e.ky n.toNat).toNat else (e.kr n.toNat).toNat % 2 ^ w.bits
  | .zero => 0
  | .lane => e.lane % 2 ^ w.bits
  | .gwidth => Config.gwidth % 2 ^ w.bits
  | .tid => e.tid % 2 ^ w.bits
  | .imm v => umod w.bits v.toInt

/-- A number of `w` bits read by signedness: `val` of R89. -/
def val (t : ITy) (n : Nat) : Int := if t.sg then sint t.w.bits n else (n : Int)

/-- A 64-bit base (R54). -/
def readBase (e : Env) (b : Base) : W64 :=
  match b with
  | .x n => e.xy n.toNat
  | .k n => e.ky n.toNat

/-- The source lane of a modifier for lane `i` (R124). -/
def smodLane (m : SMod) (i : Nat) : Nat :=
  let sz := smodSize m
  let b := i - i % sz
  match m.cls with
  | .rot => b + (i - b + m.d.toNat) % sz
  | .bfly => i ^^^ m.d.toNat
  | .bcast => b + m.d.toNat

/-- Operand B under a source modifier: the source lane's value, or zero (R123, R124). -/
def readB (w : Width) (fr : Frag) (e : Env) (sm : Option SMod) (o : Opnd) : Nat :=
  match sm with
  | none => readOp w e o
  | some m =>
    match laneEnv fr (smodLane m e.lane) with
    | some f => readOp w f o
    | none => 0

/-- A 64-bit pair B under a source modifier (R162). -/
def readBaseMod (fr : Frag) (e : Env) (sm : Option SMod) (b : Base) : W64 :=
  match sm with
  | none => readBase e b
  | some m =>
    match laneEnv fr (smodLane m e.lane) with
    | some f => readBase f b
    | none => 0

/-- What one thread's lane computation writes: x registers, predicates and flags raised. -/
structure Out where
  xs : List (Nat × W32) := []
  qs : List (QReg × Bool) := []
  fl : W32 := 0
  deriving DecidableEq, Repr, Inhabited

/-- Operand B is a zero that its source lane supplies under a modifier, no guard-active thread being there (R123). -/
def zeroB (fr : Frag) (e : Env) (sm : Option SMod) : Bool :=
  match sm with
  | none => false
  | some m => (laneEnv fr (smodLane m e.lane)).isNone

/-- The results without the flags, when these come through a supplied zero alone (02_numbers R41). -/
def Out.unless (o : Out) (b : Bool) : Out := if b then { o with fl := 0 } else o

/-- Write a `w`-bit result by R90: 8- and 16-bit results are extended to 32 bits by signedness. -/
def put (d : XReg) (t : ITy) (r : Nat) : List (Nat × W32) :=
  match t.w with
  | .w64 => [(d.toNat, BitVec.ofNat 32 r), (d.toNat + 1, BitVec.ofNat 32 (r / 2 ^ 32))]
  | .w32 => [(d.toNat, BitVec.ofNat 32 r)]
  | .w16 => [(d.toNat, BitVec.ofInt 32 (val t (r % 2 ^ 16)))]
  | .w8 => [(d.toNat, BitVec.ofInt 32 (val t (r % 2 ^ 8)))]

/-- Write a 32-bit value. -/
def put32 (d : XReg) (r : Nat) : List (Nat × W32) := [(d.toNat, BitVec.ofNat 32 r)]

/-- Write a 64-bit value to a pair. -/
def put64 (d : XReg) (r : Nat) : List (Nat × W32) :=
  [(d.toNat, BitVec.ofNat 32 r), (d.toNat + 1, BitVec.ofNat 32 (r / 2 ^ 32))]

def w2ty (w : W2) : ITy := ⟨w2 w, false⟩

end Sys2Proof.Machine
end

