-- ==== Sys2Proof/Machine/Num.lean ====
section
/-! DEFINITION. Floating-point numbers as exact values, and the helpers of 02_numbers: formats (R31), rounding (R34, R35), NaN
origins and propagation (R36 to R38), conversion fates (R39), block alignment (R43), keys (R46) and the helper table (R48, R49). -/

namespace Sys2Proof

/-! ### Formats (R31) -/

/-- Mantissa width. -/
def NFmt.p : NFmt → Nat
  | .f32 => 23
  | .f16 => 10
  | .bf16 => 7
  | .e4m3 => 3
  | .e5m2 => 2
  | .e2m1 => 1
  | .e8m0 => 0

/-- Bits of an encoding. -/
def NFmt.bits : NFmt → Nat
  | .f32 => 32
  | .f16 => 16
  | .bf16 => 16
  | .e4m3 => 8
  | .e5m2 => 8
  | .e2m1 => 4
  | .e8m0 => 8

def NFmt.bias : NFmt → Int
  | .f32 => 127
  | .f16 => 15
  | .bf16 => 127
  | .e4m3 => 7
  | .e5m2 => 15
  | .e2m1 => 1
  | .e8m0 => 127

/-- The encoding of the largest finite magnitude. -/
def NFmt.maxMag : NFmt → Nat
  | .f32 => 0x7F7FFFFF
  | .f16 => 0x7BFF
  | .bf16 => 0x7F7F
  | .e4m3 => 0x7E
  | .e5m2 => 0x7B
  | .e2m1 => 0x7
  | .e8m0 => 0xFE

/-- The encoding of infinity, where the format has one; where R35 would give infinity, E4M3 has its NaN (R39). -/
def NFmt.infMag : NFmt → Nat
  | .f32 => 0x7F800000
  | .f16 => 0x7C00
  | .bf16 => 0x7F80
  | .e4m3 => 0x7F
  | .e5m2 => 0x7C
  | .e2m1 => 0x7
  | .e8m0 => 0xFF

/-- Least exponent of a normal value. -/
def NFmt.emin (f : NFmt) : Int := 1 - f.bias

def FFmt.n : FFmt → NFmt
  | .f32 => .f32
  | .f16 => .f16
  | .bf16 => .bf16

/-- A magnitude with a sign bit. -/
def NFmt.signed (f : NFmt) (s : Bool) (mag : Nat) : Nat := if s then mag + 2 ^ (f.bits - 1) else mag

end Sys2Proof

namespace Sys2Proof.Machine

/-- What an encoding stands for: a NaN with its sign, payload below the quiet bit, and whether it signals; an infinity;
or the finite value ±m × 2^e. -/
inductive FV where
  | nan (s : Bool) (pay : Nat) (sig : Bool)
  | inf (s : Bool)
  | fin (s : Bool) (m : Nat) (e : Int)
  deriving DecidableEq, Repr, Inhabited

/-- Read an encoding (R31, R32). -/
def unpack (f : NFmt) (c : Nat) : FV :=
  match f with
  | .e8m0 => if c % 256 = 0xFF then .nan false 0 false else .fin false 1 ((c % 256 : Nat) - 127)
  | f =>
    let w := f.bits
    let s := c / 2 ^ (w - 1) % 2 == 1
    let mag := c % 2 ^ (w - 1)
    let x := mag / 2 ^ f.p
    let m := mag % 2 ^ f.p
    if f == .e4m3 && mag == 0x7F then .nan s 0 false
    else if f != .e4m3 && f != .e2m1 && x == 2 ^ (w - 1 - f.p) - 1 then
      (if m = 0 then .inf s else .nan s (m % 2 ^ (f.p - 1)) (m / 2 ^ (f.p - 1) == 0))
    else if x = 0 then .fin s m (f.emin - f.p)
    else .fin s (2 ^ f.p + m) ((x : Int) - f.bias - f.p)

def FV.isNan : FV → Bool
  | .nan _ _ _ => true
  | .inf _ => false
  | .fin _ _ _ => false

def FV.isSnan : FV → Bool
  | .nan _ _ g => g
  | .inf _ => false
  | .fin _ _ _ => false

def FV.isInf : FV → Bool
  | .nan _ _ _ => false
  | .inf _ => true
  | .fin _ _ _ => false

def FV.isZero : FV → Bool
  | .nan _ _ _ => false
  | .inf _ => false
  | .fin _ m _ => m == 0

def FV.sign : FV → Bool
  | .nan s _ _ => s
  | .inf s => s
  | .fin s _ _ => s

/-! ### NaNs (R36 to R38) -/

/-- The binary32 payload of the origin NaN of an instruction word and lane (R36). -/
def originPay (pc : W64) (lane : Nat) : Nat := (bits pc.toNat 23 2 ^^^ (lane * 0x9E37)) % 2 ^ 22

/-- The quiet NaN of a format with a payload; E2M1 has none and gives zero (R37). -/
def quietNan (f : NFmt) (s : Bool) (pay : Nat) : Nat :=
  match f with
  | .e8m0 => 0xFF
  | .e2m1 => 0
  | .e4m3 => f.signed s 0x7F
  | f => f.signed s (f.infMag + 2 ^ (f.p - 1) + pay % 2 ^ (f.p - 1))

/-- The origin NaN of a format (R36); the caller sets IV. -/
def nanOrigin (f : NFmt) (org : Nat) : Nat := quietNan f false org

/-- The NaN result of R37 among sources in order, in the result format, with IV if any signals; none without a NaN. -/
def propagate (f : NFmt) (l : List FV) : Option (Nat × W32) :=
  match l.find? FV.isNan with
  | some (.nan s pay _) => some (quietNan f s pay, fwhen (l.any FV.isSnan) fIV)
  | _ => none

/-! ### Rounding (R34, R35) -/

/-- Round m × 2^-k (plus something below one unit of m when `sticky`) to an integer: the result, and whether it is inexact.
`s` is the sign of the value. -/
def roundShift (rm : RM) (s : Bool) (m k : Nat) (sticky : Bool) : Nat × Bool :=
  let r := m / 2 ^ k
  let rem := m % 2 ^ k
  let ix := rem != 0 || sticky
  let half := 2 ^ k / 2
  let up : Bool :=
    match rm with
    | .rne => k != 0 && (decide (half < rem) || (rem == half && (sticky || r % 2 == 1)))
    | .rna => k != 0 && decide (half ≤ rem)
    | .rtz => false
    | .rup => !s && ix
    | .rdn => s && ix
  (if up then r + 1 else r, ix)

/-- Round m × 2^e to a multiple of 2^q. -/
def roundTo (rm : RM) (s : Bool) (m : Nat) (e q : Int) (sticky : Bool) : Nat × Bool :=
  if q ≤ e then (m * 2 ^ (e - q).toNat, sticky) else roundShift rm s m (q - e).toNat sticky

/-- A value rounded to a format with its exponent unbounded above: the magnitude's encoding (which may pass `maxMag`),
inexact, and tiny after rounding. -/
def roundMag (f : NFmt) (rm : RM) (s : Bool) (m : Nat) (e : Int) (sticky : Bool) : Nat × Bool × Bool :=
  if m = 0 then (0, sticky, sticky)
  else
    let ex : Int := (Nat.log2 m : Int) + e
    let q : Int := max ex f.emin - f.p
    let (r, ix) := roundTo rm s m e q sticky
    let mag := ((q + f.p + f.bias) * (2 ^ f.p : Nat) + r - (2 ^ f.p : Nat)).toNat
    let tiny := decide (ex < f.emin) &&
      !(ex + 1 == f.emin && (roundTo rm s m e (ex - f.p) sticky).1 == 2 ^ (f.p + 1))
    (mag, ix, tiny)

/-- The overflow result of R35 in a mode. -/
def overMag (f : NFmt) (rm : RM) (s : Bool) : Nat :=
  match rm with
  | .rne => f.infMag
  | .rna => f.infMag
  | .rtz => f.maxMag
  | .rup => if s then f.maxMag else f.infMag
  | .rdn => if s then f.infMag else f.maxMag

/-- `round`: an exact value rounded once by R34 and R35, with OF, UF and IX. -/
def roundV (f : NFmt) (rm : RM) (s : Bool) (m : Nat) (e : Int) (sticky : Bool) : Nat × W32 :=
  let (mag, ix, tiny) := roundMag f rm s m e sticky
  if f.maxMag < mag then (f.signed s (overMag f rm s), fOF ||| fIX)
  else (f.signed s mag, fwhen ix fIX ||| fwhen (ix && tiny) fUF)

/-- `round` with saturation: a value beyond the largest finite one is replaced by it, with SAT alone (R39). -/
def roundSat (f : NFmt) (rm : RM) (s : Bool) (m : Nat) (e : Int) (sat : Bool) : Nat × W32 :=
  if sat && decide (f.maxMag < (roundMag f rm s m e false).1) then (f.signed s f.maxMag, fSAT)
  else roundV f rm s m e false

/-- `round_int`: an exact value rounded to an integer, and whether it is inexact. -/
def roundInt (rm : RM) (s : Bool) (m : Nat) (e : Int) : Int × Bool :=
  let (r, ix) := roundTo rm s m e 0 false
  (if s then -(r : Int) else r, ix)

/-! ### Exact sums and products -/

/-- A finite term: sign, magnitude, exponent. -/
structure Term where
  s : Bool
  m : Nat
  e : Int
  deriving DecidableEq, Repr, Inhabited

/-- The term's value as an integer multiple of 2^e. -/
def Term.at (t : Term) (e : Int) : Int :=
  let v : Int := t.m * (2 ^ (t.e - e).toNat : Nat)
  if t.s then -v else v

def Term.mul (a b : Term) : Term := ⟨a.s != b.s, a.m * b.m, a.e + b.e⟩

/-- The exact sum of terms; the sign of a zero sum is that of the terms when all are zeros of one sign, else minus only in
RDN (R35, R49). -/
def sumTerms (rm : RM) (l : List Term) : Term :=
  let e := l.foldl (fun e t => min e t.e) 0
  let v : Int := l.foldl (fun v t => v + t.at e) 0
  let zs := l.all (fun t => t.m == 0)
  let s := if v = 0 then (if zs && l.all (·.s) then true else if zs && l.all (fun t => !t.s) then false else rm == .rdn)
    else decide (v < 0)
  ⟨s, v.natAbs, e⟩

/-- The finite terms of a list of values; infinities contribute nothing. -/
def termsOf : List FV → List Term
  | [] => []
  | .fin s m e :: r => ⟨s, m, e⟩ :: termsOf r
  | .nan _ _ _ :: r => termsOf r
  | .inf _ :: r => termsOf r

/-- The sign of the infinite terms of a sum: none without one, or `some none` when they disagree. -/
def infSign (l : List FV) : Option (Option Bool) :=
  match l.filter FV.isInf with
  | [] => none
  | x :: r => if r.all (fun y => y.sign == x.sign) then some (some x.sign) else some none

/-- The product of two values that are not NaNs; none for infinity times zero. -/
def mulV (a b : FV) : Option FV :=
  match a, b with
  | .fin s m e, .fin t n d => some (.fin (s != t) (m * n) (e + d))
  | a, b => if a.isZero || b.isZero then none else some (.inf (a.sign != b.sign))

/-- Round the sum of values that are not NaNs (R35, R109): an origin NaN when infinities disagree. -/
def sumV (f : NFmt) (rm : RM) (org : Nat) (l : List FV) : Nat × W32 :=
  match infSign l with
  | some none => (nanOrigin f org, fIV)
  | some (some s) => (f.signed s f.infMag, 0)
  | none =>
    let t := sumTerms rm (termsOf l)
    roundV f rm t.s t.m t.e false

/-- A value with its sign turned. -/
def FV.neg : FV → FV
  | .nan s p g => .nan s p g
  | .inf s => .inf (!s)
  | .fin s m e => .fin (!s) m e

/-! ### Arithmetic on encodings (R109, R111, R112) -/

def faddV (f : NFmt) (rm : RM) (org a b : Nat) : Nat × W32 :=
  let x := unpack f a
  let y := unpack f b
  (propagate f [x, y]).getD (sumV f rm org [x, y])

def fsubV (f : NFmt) (rm : RM) (org a b : Nat) : Nat × W32 :=
  let x := unpack f a
  let y := unpack f b
  (propagate f [x, y]).getD (sumV f rm org [x, y.neg])

/-- Round a product. -/
def prodV (f : NFmt) (rm : RM) (org : Nat) (x y : FV) : Nat × W32 :=
  match mulV x y with
  | none => (nanOrigin f org, fIV)
  | some (.fin s m e) => roundV f rm s m e false
  | some v => (f.signed v.sign f.infMag, 0)

def fmulV (f : NFmt) (rm : RM) (org a b : Nat) : Nat × W32 :=
  let x := unpack f a
  let y := unpack f b
  (propagate f [x, y]).getD (prodV f rm org x y)

def ffmaV (f : NFmt) (rm : RM) (org a b c : Nat) : Nat × W32 :=
  let x := unpack f a
  let y := unpack f b
  let z := unpack f c
  (propagate f [x, y, z]).getD
    (match mulV x y with
     | none => (nanOrigin f org, fIV)
     | some p => sumV f rm org [p, z])

/-- The order of a format's encodings with −0 below +0 (R46). -/
def ordBits (w v : Nat) : Nat := if v / 2 ^ (w - 1) % 2 = 0 then v + 2 ^ (w - 1) else 2 ^ w - 1 - v

/-- FMIN and FMAX (R111): one NaN gives the other operand. -/
def fminmaxV (isMax : Bool) (f : NFmt) (a b : Nat) : Nat × W32 :=
  let x := unpack f a
  let y := unpack f b
  if x.isNan && y.isNan then (propagate f [x, y]).getD (0, 0)
  else if x.isNan then (b, fwhen x.isSnan fIV)
  else if y.isNan then (a, fwhen y.isSnan fIV)
  else if (ordBits f.bits a < ordBits f.bits b) != isMax then (a, 0) else (b, 0)

/-- Comparison of two values that are not NaNs, −0 equal to +0: less, equal or greater. -/
def cmpV (x y : FV) : Ordering :=
  match x, y with
  | .inf s, .inf t => if s == t then .eq else if s then .lt else .gt
  | .inf s, _ => if s then .lt else .gt
  | _, .inf t => if t then .gt else .lt
  | .fin s m e, .fin t n d =>
    let k := min e d
    compare ((Term.mk s m e).at k) ((Term.mk t n d).at k)
  | _, _ => .eq

/-- FCMP (R112): the condition and IV. -/
def fcmpV (c : FCond) (f : NFmt) (a b : Nat) : Bool × W32 :=
  let x := unpack f a
  let y := unpack f b
  let un := x.isNan || y.isNan
  let sig := fwhen (x.isSnan || y.isSnan) fIV
  let any := fwhen un fIV
  let o := cmpV x y
  match c with
  | .eq => (!un && o == .eq, sig)
  | .ne => (un || o != .eq, sig)
  | .lt => (!un && o == .lt, any)
  | .le => (!un && o != .gt, any)
  | .gt => (!un && o == .gt, any)
  | .ge => (!un && o != .lt, any)
  | .un => (un, sig)
  | .or => (!un, sig)

/-- FCLASS (R113). -/
def fclassV (f : NFmt) (a : Nat) : Nat :=
  match unpack f a with
  | .nan _ _ g => if g then 2 ^ 8 else 2 ^ 9
  | .inf s => if s then 2 ^ 0 else 2 ^ 7
  | .fin s m _ =>
    if m = 0 then (if s then 2 ^ 3 else 2 ^ 4)
    else if m < 2 ^ f.p then (if s then 2 ^ 2 else 2 ^ 5)
    else (if s then 2 ^ 1 else 2 ^ 6)

/-- FDOT2 (R110): two products and a binary32 term, rounded once. -/
def fdot2V (h : NFmt) (rm : RM) (org d a b : Nat) : Nat × W32 :=
  let a0 := unpack h (a % 2 ^ 16)
  let a1 := unpack h (a / 2 ^ 16 % 2 ^ 16)
  let b0 := unpack h (b % 2 ^ 16)
  let b1 := unpack h (b / 2 ^ 16 % 2 ^ 16)
  let z := unpack .f32 d
  (propagate .f32 [a0, a1, b0, b1, z]).getD
    (match mulV a0 b0, mulV a1 b1 with
     | some p, some q => sumV .f32 rm org [z, p, q]
     | _, _ => (nanOrigin .f32 org, fIV))

/-- FRND (R115): an integral value in the same format. -/
def frndV (f : NFmt) (rm : RM) (a : Nat) : Nat × W32 :=
  let x := unpack f a
  (propagate f [x]).getD
    (match x with
     | .fin s m e =>
       if m = 0 || 0 ≤ e then (a, 0)
       else
         let (r, ix) := roundInt rm s m e
         (f.signed s (roundMag f .rtz s r.natAbs 0 false).1, fwhen ix fIX)
     | _ => (a, 0))

/-! ### Conversions (R39, R117 to R119) -/

/-- A positive finite value to E8M0: a power of two, ties to the even code under RNE (R39, R117). -/
def toE8m0 (rm : RM) (m : Nat) (e : Int) (sat : Bool) : Nat × W32 :=
  let ex : Int := (Nat.log2 m : Int) + e
  let past := if Nat.log2 m = 0 then (0 : Nat) else m - 2 ^ Nat.log2 m
  let half := 2 ^ Nat.log2 m / 2
  let ix := past != 0
  let up : Bool :=
    match rm with
    | .rne => decide (half < past) || (ix && past == half && (ex + 127) % 2 != 0)
    | .rna => ix && decide (half ≤ past)
    | .rtz => false
    | .rup => ix
    | .rdn => false
  let k := if up then ex + 1 else ex
  if k < -127 then (0, fUF ||| fIX)
  else if 127 < k then (0xFE, if sat then fSAT else fOF ||| fIX)
  else ((k + 127).toNat, fwhen ix fIX)

/-- `convert`: NaN propagation, rounding, and the fates of R39. -/
def convertV (dst : NFmt) (rm : RM) (sat : Bool) (v : FV) : Nat × W32 :=
  match v with
  | .nan s pay g => (quietNan dst s pay, fwhen (g || dst == .e2m1) fIV)
  | .inf s =>
    (match dst with
     | .e8m0 => if s then (0xFF, fIV) else (0xFE, if sat then fSAT else fOF)
     | .e2m1 => (dst.signed s dst.maxMag, fSAT)
     | .e4m3 => if sat then (dst.signed s dst.maxMag, fSAT) else (dst.signed s 0x7F, fIV)
     | dst => if sat then (dst.signed s dst.maxMag, fSAT) else (dst.signed s dst.infMag, 0))
  | .fin s m e =>
    (match dst with
     | .e8m0 => if m = 0 || s then (0xFF, fIV) else toE8m0 rm m e sat
     | .e2m1 => roundSat dst rm s m e true
     | dst => roundSat dst rm s m e sat)

/-- FCVT. -/
def fcvtV (dst src : NFmt) (rm : RM) (sat : Bool) (c : Nat) : Nat × W32 := convertV dst rm sat (unpack src (c % 2 ^ src.bits))

/-- FCVTI (R118): to an integer of width w. -/
def fcvtiV (t : ITy) (src : NFmt) (rm : RM) (sat : Bool) (c : Nat) : Nat × W32 :=
  let w := t.w.bits
  let lost := if sat then fSAT else fIV
  match unpack src (c % 2 ^ src.bits) with
  | .nan _ _ _ => (0, fIV)
  | .inf s => (umod w (if s then intMin w t.sg else intMax w t.sg), lost)
  | .fin s m e =>
    let (r, ix) := roundInt rm s m e
    if r < intMin w t.sg then (umod w (intMin w t.sg), lost)
    else if intMax w t.sg < r then (umod w (intMax w t.sg), lost)
    else (umod w r, fwhen ix fIX)

/-- ICVTF (R119): from an exact integer. -/
def icvtfV (dst : NFmt) (rm : RM) (v : Int) : Nat × W32 := roundV dst rm (decide (v < 0)) v.natAbs 0 false

/-! ### Scaling (R121, R49) -/

/-- An exponent so far out that every value of it gives the same result: a 64-bit integer or binary32 value, scaled by it,
lies beyond every format's range on the same side. -/
def clampExp (e : Int) : Int := max (-2000) (min 2000 e)

/-- FSCALEACC on the values of D and a, with a scaled by 2^e; `bad` when B is the invalid E8M0 code. -/
def fscaleV (f : NFmt) (rm : RM) (sat : Bool) (org : Nat) (d a : FV) (e : Int) (bad : Bool) : Nat × W32 :=
  let top (s : Bool) : Nat × W32 := if sat then (f.signed s f.maxMag, fSAT) else (f.signed s f.infMag, 0)
  match a with
  | .nan s pay g => (quietNan f s pay, fwhen g fIV)
  | a =>
    if bad then (nanOrigin f org, fIV)
    else
      match d with
      | .nan s pay g => (quietNan f s pay, fwhen g fIV)
      | d =>
        match infSign [d, a] with
        | some none => (nanOrigin f org, fIV)
        | some (some s) => top s
        | none =>
          let scaled : FV := match a with | .fin s m k => .fin s m (k + clampExp e) | v => v
          let t := sumTerms rm (termsOf [d, scaled])
          roundSat f rm t.s t.m t.e sat

/-! ### Keys (R46) -/

/-- `ordkey` of a `w`-bit value. -/
def ordKey (w v : Nat) (flt sg : Bool) : Nat :=
  let k := if flt then ordBits w v else if sg then v ^^^ 2 ^ (w - 1) else v
  k * 2 ^ (64 - w)

/-! ### Special functions (R114)

Each is computed to far more bits than any correctly rounded result needs (assumption 8), then rounded once. -/

/-- Largest r with r² ≤ n, bit by bit from bit k down. -/
def isqrtFrom (n : Nat) : Nat → Nat → Nat
  | 0, r => if (r + 1) * (r + 1) ≤ n then r + 1 else r
  | k + 1, r => isqrtFrom n k (if (r + 2 ^ (k + 1)) * (r + 2 ^ (k + 1)) ≤ n then r + 2 ^ (k + 1) else r)

/-- The integer square root. -/
def isqrt (n : Nat) : Nat := if n = 0 then 0 else isqrtFrom n (Nat.log2 n / 2) 0

/-- Fraction bits of the fixed-point series. -/
def fxP : Nat := 420

/-- ln 2 and π in fixed point. -/
def fxLn2 : Nat := 1876824395609227333012827928779323266191743313097702438946411434594075065122341625559620327432671006135712522364620446458635100
def fxPi : Nat := 8506444083868174897761245044461686771323923700309573190120836733458428361833437461212585903707197869053776263619362240579410812

/-- Σ z^k / k! from term `t` = z^k / k! on, in fixed point. -/
def expSeries (z : Nat) : Nat → Nat → Nat → Nat
  | 0, _, _ => 0
  | n + 1, k, t => t + expSeries z n (k + 1) (t * z / 2 ^ fxP / (k + 1))

/-- 2^f for 0 ≤ f < 1 given in fixed point. -/
def fxExp2 (f : Nat) : Nat := expSeries (f * fxLn2 / 2 ^ fxP) 110 0 (2 ^ fxP)

/-- Σ u^(2j+1) / (2j+1) from term `t` = u^k on, where `u2` = u². -/
def atanhSeries (u2 : Nat) : Nat → Nat → Nat → Nat
  | 0, _, _ => 0
  | n + 1, k, t => t / k + atanhSeries u2 n (k + 2) (t * u2 / 2 ^ fxP)

/-- log2 z for 1 ≤ z < 2 given in fixed point. -/
def fxLog2 (z : Nat) : Nat :=
  let u := (z - 2 ^ fxP) * 2 ^ fxP / (z + 2 ^ fxP)
  2 * atanhSeries (u * u / 2 ^ fxP) 140 1 u * 2 ^ fxP / fxLn2

/-- Alternating series of sine (k = 1, t = θ) or cosine (k = 0, t = 1). -/
def trigSeries (th2 : Nat) : Nat → Nat → Int → Int
  | 0, _, _ => 0
  | n + 1, k, t => t + trigSeries th2 n (k + 2) (-(t * th2 / (2 ^ fxP : Nat) / ((k + 1) * (k + 2) : Nat)))

/-- sin 2πs and cos 2πs for 0 ≤ s ≤ 1/8 given in fixed point. -/
def fxSin (s : Nat) : Int :=
  let th := 2 * fxPi * s / 2 ^ fxP
  trigSeries (th * th / 2 ^ fxP) 45 1 th
def fxCos (s : Nat) : Int :=
  let th := 2 * fxPi * s / 2 ^ fxP
  trigSeries (th * th / 2 ^ fxP) 45 0 (2 ^ fxP : Nat)

/-- A finite value as a fixed-point number modulo one turn, for |x| below one turn per unit; exact, since every format's
least value is above 2^-fxP. -/
def fxTurn (s : Bool) (m : Nat) (e : Int) : Nat :=
  let v := if 0 ≤ e then 0 else m * 2 ^ fxP / 2 ^ e.natAbs % 2 ^ fxP
  if s && v != 0 then 2 ^ fxP - v else v

/-- Sine of a turn in fixed point: `none` where it is exactly 0, 1 or −1 (given as an integer), else its value. -/
def sinTurn (r : Nat) : Int ⊕ Int :=
  let q := 2 ^ fxP / 4
  let k := r / q
  let s := r % q
  if s = 0 then .inl (match k with | 0 => 0 | 1 => 1 | 2 => 0 | _ => -1)
  else
    let v := if s ≤ q / 2 then (if k % 2 = 0 then fxSin s else fxCos s)
      else (if k % 2 = 0 then fxCos (q - s) else fxSin (q - s))
    .inr (if k < 2 then v else -v)

/-- Round a fixed-point result that is never exact. -/
def roundFx (f : NFmt) (v : Int) : Nat × W32 := roundV f .rne (decide (v < 0)) v.natAbs (-(fxP : Int)) true

/-- The special functions. -/
inductive Spec where
  | rcp | sqrt | rsq | exp2 | log2 | sint | cost
  deriving DecidableEq, Repr

/-- A special function of an encoding, rounded once in RNE (R114). -/
def specV (k : Spec) (f : NFmt) (org a : Nat) : Nat × W32 :=
  let x := unpack f a
  let inf (s : Bool) : Nat := f.signed s f.infMag
  let bad : Nat × W32 := (nanOrigin f org, fIV)
  let one : Nat := (roundV f .rne false 1 0 false).1
  (propagate f [x]).getD
    (match k, x with
     | .rcp, .inf s => (f.signed s 0, 0)
     | .rcp, .fin s m e =>
       if m = 0 then (inf s, fDZ)
       else
         let n := Nat.log2 m + 64
         roundV f .rne s (2 ^ n / m) (-e - n) (2 ^ n % m != 0)
     | .sqrt, .inf s => if s then bad else (inf false, 0)
     | .sqrt, .fin s m e =>
       if m = 0 then (a, 0)
       else if s then bad
       else
         let odd : Nat := (e % 2).toNat
         let v := m * 2 ^ odd * 2 ^ 64
         let r := isqrt v
         roundV f .rne false r ((e - odd) / 2 - 32) (r * r != v)
     | .rsq, .inf s => if s then bad else (f.signed false 0, 0)
     | .rsq, .fin s m e =>
       if m = 0 then (inf s, fDZ)
       else if s then bad
       else
         let odd : Nat := (e % 2).toNat
         let n := m * 2 ^ odd
         let r := isqrt (2 ^ 128 / n)
         roundV f .rne false r (-((e - odd) / 2) - 64) (r * r * n != 2 ^ 128)
     | .exp2, .inf s => (if s then f.signed false 0 else inf false, 0)
     | .exp2, .fin s m e =>
       if m = 0 then (one, 0)
       else
         let t : Term := ⟨s, m, e⟩
         let lim : Term := ⟨false, 4096, 0⟩
         let k := min e 0
         if lim.at k ≤ t.at k then roundV f .rne false 1 4096 false
         else if t.at k ≤ -(lim.at k) then roundV f .rne false 1 (-4096) false
         else
           let fr : Nat := (t.at k % (2 ^ k.natAbs : Nat)).toNat
           let n : Int := t.at k / (2 ^ k.natAbs : Nat)
           if fr = 0 then roundV f .rne false 1 n false
           else roundV f .rne false (fxExp2 (fr * 2 ^ fxP / 2 ^ k.natAbs)) (n - fxP) true
     | .log2, .inf s => if s then bad else (inf false, 0)
     | .log2, .fin s m e =>
       if m = 0 then (inf true, fDZ)
       else if s then bad
       else
         let n : Int := (Nat.log2 m : Int) + e
         let z := m * 2 ^ fxP / 2 ^ Nat.log2 m
         if z = 2 ^ fxP then roundV f .rne (decide (n < 0)) n.natAbs 0 false
         else roundFx f (n * (2 ^ fxP : Nat) + fxLog2 z)
     | .sint, .inf _ => bad
     | .sint, .fin s m e =>
       (match sinTurn (fxTurn s m e) with
        | .inl v => (if v = 0 then f.signed s 0 else f.signed (decide (v < 0)) one, 0)
        | .inr v => roundFx f v)
     | .cost, .inf _ => bad
     | .cost, .fin s m e =>
       (match sinTurn ((fxTurn s m e + 2 ^ fxP / 4) % 2 ^ fxP) with
        | .inl v => (if v = 0 then f.signed false 0 else f.signed (decide (v < 0)) one, 0)
        | .inr v => roundFx f v)
     | _, .nan _ _ _ => bad)

/-! ### Block alignment (R43) -/

/-- ⌊log2 |x|⌋ of a finite nonzero value. -/
def exOf (m : Nat) (e : Int) : Int := (Nat.log2 m : Int) + e

/-- The block exponent: the greatest exponent of a finite nonzero element, or 0. -/
def blockExp (l : List FV) : Int :=
  let es := l.filterMap fun v => match v with | .fin _ m e => if m = 0 then none else some (exOf m e) | _ => none
  match es with
  | [] => 0
  | a :: r => r.foldl max a

/-- One aligned mantissa and the flags of its alignment. -/
def alignElem (wm : Nat) (u : Int) (v : FV) : Int × W32 :=
  match v with
  | .nan _ _ _ => (0, fIV)
  | .inf _ => (0, fIV)
  | .fin s m e =>
    if m = 0 then (0, 0)
    else if exOf m e < u then (0, fALOSS)
    else
      let (t, ix) := roundInt .rne s m (e - u)
      if (2 ^ (wm - 1) : Nat) - 1 < t then ((2 ^ (wm - 1) : Nat) - 1, fwhen ix fIX ||| fALOSS)
      else (t, fwhen ix fIX)

/-- `align_block`: the block exponent, the mantissas, and the flags raised. -/
def alignBlock (wm : Nat) (l : List FV) : Int × List Int × W32 :=
  let e := blockExp l
  let ms := l.map (alignElem wm (e - ((wm : Int) - 2)))
  (e, ms.map (·.1), ms.foldl (fun f p => f ||| p.2) 0)

end Sys2Proof.Machine
end

