-- ==== Sys2Proof/Machine/Ops.lean ====
section
/-! DEFINITION. The named operations over the state: access to each table, the home order and views of package memory
(12_ordering R211 to R213), event records (18_queues R297), mailbox records (10_trap_state R186), and taking an
exception and returning from one (10_trap_state R179 to R182, R190). -/

namespace Sys2Proof.Machine

/-! ### Tables of the state -/

def State.pkg (s : State) (p : Nat) : Pkg := tget {} s.pkgs p
def State.die (s : State) (k : Nat) : Die := tget {} s.dies k
def State.quad (s : State) (k : Nat) : Quad := tget {} s.quads k
def State.core (s : State) (k : Nat) : Core := tget {} s.cores k
def State.unit (s : State) (k : Nat) : HsUnit := tget {} s.units k
def State.fn (s : State) (k : Nat) : Fn := tget {} s.fns k
def State.fibre (s : State) (k : Nat) : Fibre := tget {} s.fibres k
def State.ctx (s : State) (k : Nat) : Ctx := tget {} s.ctxs k
def State.gang (s : State) (k : Nat) : Gang := tget {} s.gangs k
def State.wg (s : State) (k : Nat) : Wg := tget {} s.wgs k
def State.thr (s : State) (k : Nat) : Thread := tget {} s.threads k

def State.modPkg (s : State) (p : Nat) (f : Pkg → Pkg) : State := { s with pkgs := tmod {} s.pkgs p f }
def State.modDie (s : State) (k : Nat) (f : Die → Die) : State := { s with dies := tmod {} s.dies k f }
def State.modQuad (s : State) (k : Nat) (f : Quad → Quad) : State := { s with quads := tmod {} s.quads k f }
def State.modCore (s : State) (k : Nat) (f : Core → Core) : State := { s with cores := tmod {} s.cores k f }
def State.modUnit (s : State) (k : Nat) (f : HsUnit → HsUnit) : State := { s with units := tmod {} s.units k f }
def State.modFn (s : State) (k : Nat) (f : Fn → Fn) : State := { s with fns := tmod {} s.fns k f }
def State.modFibre (s : State) (k : Nat) (f : Fibre → Fibre) : State := { s with fibres := tmod {} s.fibres k f }
def State.modCtx (s : State) (k : Nat) (f : Ctx → Ctx) : State := { s with ctxs := tmod {} s.ctxs k f }
def State.modGang (s : State) (k : Nat) (f : Gang → Gang) : State := { s with gangs := tmod {} s.gangs k f }
def State.modWg (s : State) (k : Nat) (f : Wg → Wg) : State := { s with wgs := tmod {} s.wgs k f }
def State.modThr (s : State) (k : Nat) (f : Thread → Thread) : State := { s with threads := tmod {} s.threads k f }

/-- A fresh serial number. -/
def State.fresh (s : State) : Nat × State := (s.nextId, { s with nextId := s.nextId + 1 })

/-- The free-value counter, advanced. -/
def State.draw (s : State) : Nat × State := (s.tick, { s with tick := s.tick + 1 })

/-! ### Host writes (24_host R363, R365, R366) -/

/-- A function's registers answer a write: the physical function's from boot stage 1 on, a virtual function's once SR-IOV is enabled,
and neither during the function's reset (R365, R366, assumption 30). -/
def State.hostOpen (s : State) (p fn : Nat) : Bool :=
  decide (fn < Config.fnsPerPkg) && !(s.fn (fnKey p fn)).flr &&
    decide ((if fn = 0 then 1 else 6) ≤ bits (s.pkg p).bootst.toNat 7 0)

/-- A host write: ignored while the block does not answer; a function in D3hot is back in D0 (R367, assumption 30). -/
def State.hostDo (s : State) (p fn : Nat) (f : State → State) : State :=
  if s.hostOpen p fn then
    f (if (s.fn (fnKey p fn)).d3 then s.modFn (fnKey p fn) fun x => { x with d3 := false } else s)
  else s

/-! ### Where things stand -/

def Wg.ckey (w : Wg) : Nat := coreKey w.pkg w.core
def Wg.dkey (w : Wg) : Nat := dieKey w.pkg (w.core / 160)
def Wg.qkey (w : Wg) : Nat := quadKey w.pkg (w.core / 4)

/-- The launch record of a workgroup's context. -/
def State.launchOf (s : State) (w : Wg) : Launch := (s.ctx w.ctx).launch

/-- The function of a workgroup's launch, as a key. -/
def State.fnOf (s : State) (w : Wg) : Nat := fnKey w.pkg (s.ctx w.ctx).fn

/-- Threads of a workgroup, by TID. -/
def State.tidsOf (s : State) (wk : Nat) : List Nat := List.range (s.wg wk).size

def Thread.live (t : Thread) : Bool := t.life == .live

/-- Live TIDs of a workgroup. -/
def State.liveTids (s : State) (wk : Nat) : List Nat :=
  (s.tidsOf wk).filter fun i => (s.thr (thrKey wk i)).live

/-- Change every thread in a list of TIDs. -/
def State.modTids (s : State) (wk : Nat) (tids : List Nat) (f : Thread → Thread) : State :=
  tids.foldl (fun s i => s.modThr (thrKey wk i) f) s

/-- The threads of the parent group of a thread (01_machine R17). -/
def State.siblings (s : State) (wk : Nat) (t : Thread) : List Nat :=
  (s.liveTids wk).filter fun i =>
    let u := s.thr (thrKey wk i)
    u.seq == t.seq && u.lead == t.lead

/-- A bit mask of lanes. -/
def laneMask (ls : List Nat) : W64 := ls.foldl (fun m l => m ||| (1#64 <<< l)) 0

/-- The resident workgroups of a core. -/
def State.wgsOn (s : State) (ck : Nat) : List Nat :=
  (s.wgs.filter fun (_, w) => w.ckey == ck && w.resident).map (·.1)

/-- A launch context by LAUNCHID in a package. -/
def State.ctxOf (s : State) (p : Nat) (lid : W32) : Option Nat :=
  (s.ctxs.find? fun (k, c) => k / 256 == p && c.launchid == lid).map (·.1)

/-- A resident workgroup by LAUNCHID and WGID in a package, re-executions apart. -/
def State.findWg (s : State) (p : Nat) (lid wgid : W32) : Option Nat :=
  (s.wgs.find? fun (_, w) => w.pkg == p && w.launchid == lid && w.wgid == wgid &&
    (s.gang w.gang).check == none).map (·.1)

/-- Some thread of a gang has still to leave its resume handler, which restores its workgroup's scratchpad (18_queues R302). -/
def State.restoring (s : State) (gk : Nat) : Bool :=
  (s.gang gk).members.any fun k => (s.liveTids k).any fun i => (s.thr (thrKey k i)).pre == .restoring

/-! ### Performance counters (15_counters R261) -/

/-- Add to the performance counter of selector 0x40 + `i`. -/
def State.count (s : State) (ck i n : Nat) : State :=
  s.modCore ck fun c => { c with perf := lset c.perf i (c.perf.getD i 0 + BitVec.ofNat 64 n) }

/-! ### Home order and views (12_ordering R211 to R213, R218) -/

/-- Key of die `d`'s view of a word. -/
def viewKey (dk w : Nat) : Nat := dk * 2 ^ 60 + w

/-- A die's view of a word of its own package, or its cached copy of a peer's. -/
def State.viewWord (s : State) (dk w : Nat) : W64 := (tfind s.views (viewKey dk w)).getD (readWord s.mem w)

/-- Bytes of a die's view, within one word. -/
def State.viewPart (s : State) (dk loc n : Nat) : W64 := wordPart (s.viewWord dk (loc / 8)) (loc % 8) n

/-- The version of a word that a die's view holds. -/
def State.heldVer (s : State) (dk w : Nat) : Nat :=
  match tfind s.views (viewKey dk w) with
  | some _ => tget 0 s.viewVer (viewKey dk w)
  | none => tget 0 s.homeVer w

/-- How a store reaches the other dies. -/
structure StoreMode where
  acc : Nat := 0
  launch : W32 := 0
  origin : Option Nat := none
  vec : Vec := ⟨0, 0, 0, 0⟩
  posted : Posted := .no
  deps : List Nat := []
  whole : Bool := false
  repl : Option Repl := none
  deriving DecidableEq, Repr, Inhabited

/-- An error response of a CXL port (0 to 3) or a peer package (4 + PKGID) is counted at its requester (11_memories R205). -/
def State.errResponse (s : State) (p k : Nat) : State :=
  s.modPkg p fun g => { g with errResp := tmod 0 g.errResp k (· + 1) }

/-- What an operation in a plane queue may still read of a word that is overwritten while it stands there (08_planes R149). -/
def PlaneOp.keep (o : PlaneOp) (w : Nat) (v : W64) : PlaneOp := { o with old := (w, v) :: o.old }

/-- A scratchpad word is overwritten under the operations of its core and, for paired ones, of the next; not under those of a gang whose
resume handler puts back what stood there (R160). -/
def State.keepOld (s : State) (w : Nat) : State :=
  let l := 8 * w
  let ck := coreKey (locPkg l) ((l % pkgSpan - 2 ^ 42) / 2 ^ 18)
  let note (s : State) (ck : Nat) : State :=
    if (s.core ck).pq.isEmpty then s
    else
      let mark (o : PlaneOp) : PlaneOp := if s.restoring (s.wg o.wg).gang then o else o.keep w (readWord s.mem w)
      s.modCore ck fun c => { c with pq := c.pq.map mark }
  note (note s ck) (ck + 1)

/-- Install a new value of a word at its home: the next place of its home order, with a notice to each die (R212).
The scratchpad has no view. A copy of a replicated page is written when its die installs the notice (R218). -/
def State.homeWord (s : State) (w : Nat) (v : W64) (m : StoreMode) : State :=
  if isScratch (8 * w) then
    let s := s.keepOld w
    { s with mem := writeWord s.mem w v }
  else
    let p := locPkg (8 * w)
    let old := readWord s.mem w
    let held := tget 0 s.homeVer w
    let ver := held + 1
    let keep (s : State) (d : Nat) : State :=
      let k := viewKey (dieKey p d) w
      match tfind s.views k with
      | some _ => s
      | none => { s with views := tset s.views k old, viewVer := tset s.viewVer k held }
    let homeD := match m.repl with | some r => r.home | none => 0
    let s := match m.repl with
      | none => [0, 1, 2, 3].foldl keep s
      | some _ => keep s homeD
    let s := { s with mem := writeWord s.mem w v, homeVer := tset s.homeVer w ver }
    let grp := s.nextId
    let note (s : State) (d : Nat) : State :=
      let (id, s) := s.fresh
      let n : Notice :=
        { id := id, grp := grp, acc := m.acc, launch := m.launch, pkg := p, die := d, word := w, value := v, ver := ver,
          origin := m.origin, vec := m.vec, posted := m.posted, deps := m.deps, whole := m.whole,
          free := m.origin == none || (match m.repl with | some r => !r.apr | none => false),
          dupl := (match m.repl with
            | none => none
            | some r => if d = r.home then none
                else some (r.words.getD d 0)),
          page := (match m.repl with
            | none => none
            | some r => if r.apr then some r.page else none) }
      { s with notices := s.notices ++ [n] }
    [0, 1, 2, 3].foldl note s

/-- A store of `n` bytes within one word at its home. A whole-word store clears the word's poison (R202). -/
def State.homeStore (s : State) (loc n : Nat) (d : W64) (m : StoreMode) : State :=
  let w := loc / 8
  let s := s.homeWord w (wordSet (readWord s.mem w) (loc % 8) n d) { m with whole := n = 8 }
  if n = 8 then { s with poison := s.poison.filter (· != w) } else s

/-- An aligned 8-byte write by an agent of the package, without a clock. -/
def State.bulkWord (s : State) (loc : Nat) (v : W64) : State := s.homeStore loc 8 v { posted := .agent }

/-- Aligned 8-byte writes of an agent's record. -/
def State.bulkRec (s : State) (loc : Nat) (r : List Byte) : State :=
  (List.range (r.length / 8)).foldl (fun s i => s.bulkWord (loc + 8 * i) (BitVec.ofNat 64 (fld r (8 * i) 8))) s

/-- An agent's count of its records, TAIL or HEAD: a release store (17_prog_debug R278). -/
def State.bulkCount (s : State) (loc : Nat) (v : W64) : State := s.homeStore loc 8 v { posted := .counter }

/-- A die's applied vector for coverage: its own entry counts what its own view has installed. -/
def Die.covered (d : Die) (i : Nat) : Vec := d.vec.set i d.inst

/-- Two notices are of one stream of posted writes: the host's, or an agent's with its counts. -/
def Notice.sameStream (n m : Notice) : Bool :=
  match n.posted with
  | .no => false
  | .host => m.posted == .host
  | .agent => m.posted == .agent || m.posted == .counter
  | .counter => m.posted == .agent || m.posted == .counter

/-- Posted writes reach each die in their order (R213), and an agent's count none before its records have reached all (R278). A store
with a posted one in its causal past is installed after it (R212). -/
def State.postedFirst (s : State) (n : Notice) : Bool :=
  s.notices.all fun m =>
    !(m.pkg == n.pkg && ((n.sameStream m && decide (m.grp < n.grp) && (m.die == n.die || n.posted == .counter)) ||
      (m.die == n.die && m.posted != .no && n.deps.contains m.grp)))

/-- A die may install a notice: it comes next from its origin and its other entries are covered (R212); a copy of an
atomic-propagation page takes the page's stores in home order (R218). -/
def State.canInstall (s : State) (n : Notice) : Bool :=
  let dk := dieKey n.pkg n.die
  let v := (s.die dk).covered n.die
  s.postedFirst n &&
  (match n.page with
   | none => true
   | some p => s.notices.all fun m => !(m.page == some p && m.die == n.die && m.pkg == n.pkg && decide (m.id < n.id))) &&
  (n.free ||
   (match n.origin with
    | none => true
    | some o => v.get o + 1 == n.vec.get o && v.covers (n.vec.set o 0)))

/-- Count a notice as installed in its origin's entry; the causal past of the die's view grows by what has no entry. -/
def Die.takeIn (d : Die) (n : Notice) : Die :=
  match n.origin with
  | none => { d with past := n.grp :: d.past }
  | some o =>
    let d := { d with past := n.deps ++ d.past }
    if o = n.die then { d with inst := max d.inst (n.vec.get o) }
    else { d with vec := d.vec.set o (max (d.vec.get o) (n.vec.get o)) }

/-- The stores without a clock that some die has still to install. -/
def State.stillOut (s : State) (l : List Nat) : List Nat := l.filter fun g => s.notices.any fun n => n.grp == g

/-- Install a notice in its die (R212, R213): the word moves only forward in home order. -/
def State.install (s : State) (n : Notice) : State :=
  let dk := dieKey n.pkg n.die
  let s := { s with notices := s.notices.filter (·.id != n.id) }
  let s := s.modDie dk fun d => let d := d.takeIn n; { d with past := s.stillOut d.past }
  let s := match n.dupl with
    | some w =>
      let k := viewKey dk n.word
      if tget 0 s.viewVer k < n.ver then
        { s with mem := writeWord s.mem w n.value, viewVer := tset s.viewVer k n.ver,
                 poison := if n.whole then s.poison.filter (· != w) else s.poison }
      else s
    | none =>
      let k := viewKey dk n.word
      if s.heldVer dk n.word < n.ver then
        if n.ver = tget 0 s.homeVer n.word then
          { s with views := tdel s.views k, viewVer := tdel s.viewVer k }
        else { s with views := tset s.views k n.value, viewVer := tset s.viewVer k n.ver }
      else s
  if s.notices.any (fun m => m.word == n.word) then s
  else
    { s with homeVer := tdel s.homeVer n.word,
             viewVer := [0, 1, 2, 3].foldl (fun t d => tdel t (viewKey (dieKey n.pkg d) n.word)) s.viewVer }

/-! ### Full/empty tags and poison -/

def State.isFull (s : State) (w : Nat) : Bool := !s.empties.contains w
/-- A wake word of a LOOPNEST has been emptied (14_engines R256). -/
def Cmd.emptied (c : Cmd) (w : Nat) : Cmd :=
  { c with loop := c.loop.map fun l =>
      { l with its := l.its.map fun i => if i.wake == some w then { i with emptied := true } else i } }

def State.setTag (s : State) (w : Nat) (full : Bool) : State :=
  if full then { s with empties := s.empties.filter (· != w) }
  else { s with empties := ninsert s.empties w, cmds := s.cmds.map fun c => c.emptied w }
def State.isPoisoned (s : State) (loc n : Nat) : Bool :=
  s.poison.any fun w => decide (loc / 8 ≤ w) && decide (w ≤ (loc + n - 1) / 8)

/-! ### Rings in device memory (18_queues R283, 17_prog_debug R278)

A ring's base is a physical address of the package (assumption 5). -/

/-- The place of a physical address in the package itself. -/
def State.devLoc (s : State) (p pa : Nat) : Option Nat := locLocal p pa (s.pkg p).cfg.caps

def State.devRead (s : State) (p pa n : Nat) : Nat :=
  match s.devLoc p pa with
  | some l => leNat (readBytes s.mem l n)
  | none => 0

def State.devBytes (s : State) (p pa n : Nat) : List Byte :=
  match s.devLoc p pa with
  | some l => readBytes s.mem l n
  | none => List.replicate n 0

def State.devRec (s : State) (p pa : Nat) (r : List Byte) : State :=
  match s.devLoc p pa with
  | some l => s.bulkRec l r
  | none => s

/-- An agent's count in a ring's control block. -/
def State.devWord (s : State) (p pa : Nat) (v : W64) : State :=
  match s.devLoc p pa with
  | some l => s.bulkCount l v
  | none => s

/-- A placed ring: base and number of slots, or none. -/
def ringOf (base ctl : W64) (lo hi : Nat) : Option (Nat × Nat) :=
  if ctl.getLsbD 63 then some (base.toNat, 2 ^ (bits ctl.toNat hi 0 + lo)) else none

/-! ### Event records (R297) -/

/-- The 32 bytes of an event record. -/
def eventBytes (e : Event) : List Byte :=
  natLe 2 e.ty ++ natLe 2 0 ++ natLe 4 e.launchid.toNat ++ natLe 4 e.wgid.toNat ++ natLe 2 e.core ++
    natLe 2 e.tid ++ natLe 8 e.pc.toNat ++ natLe 8 e.value.toNat

/-- Write an event record to its function's queue, with TAIL advanced, when the ring is placed and has room. -/
def State.putEvent (s : State) (p : Nat) (e : Event) : Option State :=
  let fk := fnKey p e.fn
  let f := s.fn fk
  match ringOf f.eqbase f.eqctl 6 4 with
  | none => none
  | some (base, n) =>
    let ctl := base + 32 * n
    let tail := s.devRead p ctl 8
    let head := s.devRead p (ctl + 8) 8
    if (tail + 2 ^ 64 - head) % 2 ^ 64 < n then
      let s := s.devRec p (base + 32 * (tail % n)) (eventBytes e)
      let s := s.devWord p ctl (BitVec.ofNat 64 (tail + 1))
      some (s.modFn fk fun f => { f with msix := true })
    else none

/-- Count an event that found its queue full; a ring that is not placed counts nothing (R283). -/
def State.overflow (s : State) (p fn : Nat) : State :=
  let f := s.fn (fnKey p fn)
  match ringOf f.eqbase f.eqctl 6 4 with
  | none => s
  | some (base, n) =>
    let ovf := base + 32 * n + 16
    s.devWord p ovf (BitVec.ofNat 64 (s.devRead p ovf 8 + 1))

/-- Post an event record to its function's queue, or drop it with OVF raised when the queue is full. A launch event waits
instead, behind those that wait already. -/
def State.post (s : State) (p : Nat) (e : Event) : State :=
  let waits := e.ty = 2 && (s.pkg p).events.any fun x => x.fn == e.fn
  match if waits then none else s.putEvent p e with
  | some s => s
  | none => if e.ty = 2 then s.modPkg p fun g => { g with events := g.events ++ [e] } else s.overflow p e.fn

/-- An event of a thread's launch. -/
def State.wgEvent (s : State) (wk ty : Nat) (tid : Nat) (pc v : W64) : State :=
  let w := s.wg wk
  s.post w.pkg { fn := (s.ctx w.ctx).fn, ty := ty, launchid := w.launchid, wgid := w.wgid, core := w.core, tid := tid,
                 pc := pc, value := v }

/-- An event with no launch goes to the physical function. -/
def State.pfEvent (s : State) (p ty core : Nat) (v : W64) : State :=
  s.post p { fn := 0, ty := ty, core := core, value := v }

/-! ### Mailbox records (10_trap_state R186, 17_prog_debug R278, R279) -/

/-- Write the waiting records of a function while its response ring has room. -/
def State.mbFlushN (s : State) (p fn : Nat) : Nat → State
  | 0 => s
  | k + 1 =>
    let f := s.fn (fnKey p fn)
    match f.mbOut, ringOf f.mbrbase f.mbctl 4 3 with
    | r :: rest, some (base, n) =>
      let ctl := base + 64 * n
      let tail := s.devRead p ctl 8
      let head := s.devRead p (ctl + 8) 8
      if (tail + 2 ^ 64 - head) % 2 ^ 64 < n then
        let s := s.devRec p (base + 64 * (tail % n)) r
        let s := s.devWord p ctl (BitVec.ofNat 64 (tail + 1))
        (s.modFn (fnKey p fn) fun f => { f with mbOut := rest }).mbFlushN p fn k
      else s
    | _, _ => s

def State.mbFlush (s : State) (p fn : Nat) : State := s.mbFlushN p fn ((s.fn (fnKey p fn)).mbOut.length)

/-- Send a record to a function's response ring; a ring that is not placed posts nothing. -/
def State.mbPost (s : State) (p fn : Nat) (r : List Byte) : State :=
  if (s.fn (fnKey p fn)).mbctl.getLsbD 63 then
    (s.modFn (fnKey p fn) fun f => { f with mbOut := f.mbOut ++ [r] }).mbFlush p fn
  else s

/-- The 64 bytes of a response or report record. -/
def mbRecord (kind tag status cause tid lid wgid core parent : Nat) (pc lanes sib : W64) : List Byte :=
  natLe 2 kind ++ natLe 2 tag ++ natLe 1 status ++ natLe 1 cause ++ natLe 2 tid ++ natLe 4 lid ++ natLe 4 wgid ++
    natLe 2 core ++ natLe 2 0 ++ natLe 4 parent ++ natLe 8 pc.toNat ++ natLe 8 lanes.toNat ++ natLe 8 0 ++
    natLe 8 sib.toNat ++ natLe 8 0

/-- PARENTID of a thread (R180). -/
def Thread.parentId (t : Thread) : W32 := BitVec.ofNat 32 (t.seq % 2 ^ 16 * 2 ^ 11 + t.lead)

/-- SIBMASK for a set of threads of one parent: the lanes of live threads of the parent outside the set (R180). -/
def State.sibMask (s : State) (wk : Nat) (tids : List Nat) : W64 :=
  match tids with
  | [] => 0
  | t :: _ =>
    laneMask (((s.siblings wk (s.thr (thrKey wk t))).filter fun i => !tids.contains i).map
      fun i => (s.thr (thrKey wk i)).lane)

/-- Post a halt report for one fragment. -/
def State.report (s : State) (wk : Nat) (cause : Nat) (tids : List Nat) : State :=
  match tids with
  | [] => s
  | t :: _ =>
    let w := s.wg wk
    let u := s.thr (thrKey wk t)
    s.mbPost w.pkg (s.ctx w.ctx).fn (mbRecord 2 0 0 cause (tids.foldl min t) w.launchid.toNat w.wgid.toNat w.core
      u.parentId.toNat u.pc (laneMask (tids.map fun i => (s.thr (thrKey wk i)).lane)) (s.sibMask wk tids))

/-! ### Debug registers (R183) -/

/-- A debug register of a core, as SRD reads it. -/
def Core.dbgReg (c : Core) (sel : Nat) : W64 :=
  match sel with
  | 0x18 => c.dbgctl.setWidth 64
  | 0x1D => c.watchLo
  | 0x1E => c.watchHi
  | _ => c.brkpc.getD (sel - 0x19) 0

/-- The value of a debug register that governs the word now issued: the oldest one still owed, else the register's own. -/
def Core.inForce (c : Core) (sel : Nat) : W64 :=
  match c.dbgOld.find? fun x => x.sel == sel with
  | some x => x.old
  | none => c.dbgReg sel

/-- Debug traps of a workgroup halt: HALTD is in force on its core, for a launch with debug rights. -/
def State.haltd (s : State) (wk : Nat) : Bool :=
  let w := s.wg wk
  ((s.core w.ckey).inForce 0x18).getLsbD 1 && (s.launchOf w).debug

/-! ### Incumbents of a launch and dominance (09_control R168 to R175) -/

/-- Incumbent `n` is declared (18_queues R284). -/
def Launch.incDecl (l : Launch) (n : Nat) : Bool := l.incdecl.getLsbD (3 * n)

/-- Its direction is max. -/
def Launch.incMax (l : Launch) (n : Nat) : Bool := l.incdecl.getLsbD (3 * n + 1)

/-- Its home is the pod's. -/
def Launch.incPod (l : Launch) (n : Nat) : Bool := l.incdecl.getLsbD (3 * n + 2)

/-- A key is better than another (R168). -/
def better (isMax : Bool) (a b : W64) : Bool := if isMax then decide (b < a) else decide (a < b)

/-- A copy or home takes an arriving value only when empty or strictly worse (R169, R170). -/
def takeInc (isMax : Bool) (m : Tbl Inc) (n : Nat) (v : Inc) : Tbl Inc :=
  match tfind m n with
  | none => tset m n v
  | some h => if better isMax v.key h.key then tset m n v else m

/-- The copies of a context among the bindings of a core or unit; without a binding all are empty (R79, R293). -/
def bindIncs (b : List Bind) (ctx : Nat) : Tbl Inc :=
  match b.find? (·.ctx == ctx) with
  | some x => x.incs
  | none => []

/-- `dominated` of R173 for a bound and a binding against a set of copies. -/
def dominatedBy (l : Launch) (incs : Tbl Inc) (bnd : W64) (bsel : BitVec 5) : Bool :=
  bsel.getLsbD 4 &&
  (match tfind incs (bsel.toNat % 16) with
   | none => false
   | some c => if l.incMax (bsel.toNat % 16) then decide (bnd ≤ c.key) else decide (c.key ≤ bnd))

/-- The copies as dominance heeds them: an update counts from the second I-cycle after it (R175). -/
def Bind.ripe (b : Bind) : Tbl Inc :=
  b.young.foldr (fun y t => match y.old with | none => tdel t y.n | some v => tset t y.n v) b.incs

/-- The copies of a context that dominance heeds, among the bindings of a core. -/
def bindRipe (b : List Bind) (ctx : Nat) : Tbl Inc :=
  match b.find? (·.ctx == ctx) with
  | some x => x.ripe
  | none => []

/-- A thread is dominated; a thread of a Drydown re-execution never is (15_counters R268). -/
def State.dominated (s : State) (wk : Nat) (t : Thread) : Bool :=
  let w := s.wg wk
  (s.gang w.gang).check == none && dominatedBy (s.launchOf w) (bindRipe (s.core w.ckey).binds w.ctx) t.bnd t.bsel

/-! ### Cancellation and its residue (09_control R177) -/

/-- The returns of a thread's outstanding accesses are discarded on arrival. -/
def State.discardReturns (s : State) (k : Nat) : State :=
  { s with accs := s.accs.map fun a => if a.thr == k then { a with cancelled := true } else a }

/-- The rings of a workgroup become absent when its last thread ends (19_queue_instr R306). -/
def State.dropRings (s : State) (wk : Nat) : State :=
  let w := s.wg wk
  if (s.liveTids wk).isEmpty then
    s.modCore w.ckey fun c => { c with rings := c.rings.filter fun r => !(r.launchid == w.launchid && r.wgid == w.wgid) }
  else s

/-- A load that has not been served at its home. -/
def Access.unserved (a : Access) : Bool :=
  a.served == none && (match a.kind with | .load => true | .ldfe => true | _ => false)

/-- Distinct numbers of a list. -/
def distinct : List Nat → List Nat
  | [] => []
  | a :: r => if r.contains a then distinct r else a :: distinct r

/-- A counter that stops at 2^64 − 1 (15_counters R260). -/
def satAdd (v : W64) (n : Nat) : W64 :=
  if v.toNat + n < 2 ^ 64 then v + BitVec.ofNat 64 n else BitVec.allOnes 64

/-- The memory side drops a cancelled thread's unserved loads, one count per instruction (R177). -/
def State.dropLoads (s : State) (k ck : Nat) : State :=
  let gone := s.accs.filter fun a => a.thr == k && a.unserved
  let n := (distinct (gone.map (·.instr))).length
  let s := { s with accs := s.accs.filter fun a => !(a.thr == k && a.unserved) }
  s.modCore ck fun c => { c with dropped := satAdd c.dropped n }

/-- Cancel one thread (R177): its registers are discarded, its unserved and parked loads dropped and counted, its parked
stores and atomics kept. -/
def State.cancelThread (s : State) (wk tid : Nat) : State :=
  let k := thrKey wk tid
  let w := s.wg wk
  let t := s.thr k
  let parkedLoad : Bool := match t.park with | some p => p.drops | none => false
  let s := s.dropLoads k w.ckey
  let s := if parkedLoad then s.modCore w.ckey fun c => { c with dropped := satAdd c.dropped 1 } else s
  let s := s.discardReturns k
  let s := s.modThr k fun t =>
    { life := .cancelled, pc := t.pc, lane := t.lane, seq := t.seq, lead := t.lead, trap := t.trap,
      park := (match t.park with | some p => if p.keep then some p else none | none => none) }
  let s := s.modWg wk fun w => { w with cxl := true, inelig := true }
  (s.count w.ckey 6 1).dropRings wk

/-- Cancel several threads. -/
def State.cancelAll (s : State) (wk : Nat) (tids : List Nat) : State := tids.foldl (fun s i => s.cancelThread wk i) s

/-- A dominated thread that nothing protects: it owes no trap of the word just completed, is not shielded, halted, in handler mode or
being pre-empted (R175, 10_trap_state R182). -/
def State.mayCancel (s : State) (wk tid : Nat) : Bool :=
  let w := s.wg wk
  let g := s.gang w.gang
  let t := s.thr (thrKey wk tid)
  t.live && !t.halted && !t.handler && t.watch == none && t.shc == 0 && g.st == .running && g.pre == none && t.pre == .none && w.resident &&
    s.dominated wk t

/-! ### Taking an exception (R179 to R182) -/

/-- Trap causes of R179. -/
inductive Cause where
  | illegal | regecc | tile | fwdedge | badpc | noinc | fetch | access | trap | bkpt | bkptpc | step | watch | preempt
  deriving DecidableEq, Repr, Inhabited

def Cause.code : Cause → Nat
  | .illegal => 0x01
  | .regecc => 0x02
  | .tile => 0x03
  | .fwdedge => 0x04
  | .badpc => 0x05
  | .noinc => 0x06
  | .fetch => 0x07
  | .access => 0x08
  | .trap => 0x10
  | .bkpt => 0x11
  | .bkptpc => 0x12
  | .step => 0x13
  | .watch => 0x14
  | .preempt => 0x18

/-- A trap halts instead of entering its handler (R182): BKPT, BKPTPC and WATCH while HALTD is 1, and STEP. -/
def Cause.halts (c : Cause) (haltd : Bool) : Bool :=
  match c with
  | .bkpt => haltd
  | .bkptpc => haltd
  | .watch => haltd
  | .step => true
  | _ => false

/-- TRAPCAUSE (R180). -/
def trapCause (c : Cause) (detail : Nat) (half : Bool) : W32 :=
  BitVec.ofNat 32 ((if half then 2 ^ 16 else 0) + 2 ^ 8 * (detail % 256) + c.code)

/-- What a trap tells one thread. -/
structure TrapInfo where
  cause : Cause
  detail : Nat := 0
  half : Bool := false
  pc : W64
  addr : W64 := 0
  deriving DecidableEq, Repr, Inhabited

/-- Trap entry of one thread outside handler mode (R181): the trap registers are written, then it enters the handler
at VEC + 64 × CAUSE, or halts at TRAPPC. SHC is kept. -/
def Thread.enter (t : Thread) (i : TrapInfo) (vec : W64) (sib : W64) (halt : Bool) : Thread :=
  let t := { t with
    trap := { pc := i.pc, cause := trapCause i.cause i.detail i.half, addr := i.addr, parent := t.parentId,
              sibLo := sib, sibHi := 0 } }
  if halt then { t with pc := i.pc, halted := true, relPc := none }
  else { t with handler := true, pc := vec + BitVec.ofNat 64 (64 * i.cause.code) }

/-- Threads in fragments: one parent, one PC, one mode; in order of their lowest TIDs. -/
def State.fragments (s : State) (wk : Nat) : List Nat → List (List Nat) → List (List Nat)
  | [], l => l
  | i :: r, l =>
    let key (j : Nat) : Nat × Nat × W64 × Bool :=
      let t := s.thr (thrKey wk j)
      (t.seq, t.lead, t.pc, t.handler)
    let same (f : List Nat) : Bool := f.any fun j => key j == key i
    if l.any same then s.fragments wk r (l.map fun f => if same f then f ++ [i] else f)
    else s.fragments wk r (l ++ [[i]])

/-- Trap entry of several threads of one fragment, each with its own information (R179 to R182): the state, and the reports of those that
halt. A thread already in handler mode takes a double trap: it halts with its trap registers unchanged, and DOUBLE is reported with an
event record of TYPE 0x0B. -/
def State.takeTraps (s : State) (wk : Nat) (who : List (Nat × TrapInfo)) : State × List (Nat × List Nat) :=
  let w := s.wg wk
  let haltd := s.haltd wk
  let vec := (s.launchOf w).vec
  let dbl : List (Nat × TrapInfo) := who.filter fun (i, _) => (s.thr (thrKey wk i)).handler
  let one : List (Nat × TrapInfo) := who.filter fun (i, _) => !(s.thr (thrKey wk i)).handler
  let sib := s.sibMask wk (one.map (·.1))
  let s := one.foldl (fun s (i, info) =>
    s.modThr (thrKey wk i) fun t => t.enter info vec sib (info.cause.halts haltd)) s
  let stops := one.filter fun (_, info) => info.cause.halts haltd
  let reps : List (Nat × List Nat) := match stops with
    | [] => []
    | (_, info) :: _ => [(info.cause.code, stops.map Prod.fst)]
  match dbl with
  | [] => (s, reps)
  | (i, _) :: _ =>
    let cause := (s.thr (thrKey wk i)).trap.cause
    let pc := (s.thr (thrKey wk i)).pc
    let s := s.modTids wk (dbl.map Prod.fst) fun t => { t with halted := true, relPc := none }
    (s.wgEvent wk 0x0B i pc (cause.setWidth 64), reps ++ [(0x1F, dbl.map Prod.fst)])

/-- Post halt reports in order. -/
def State.reports (s : State) (wk : Nat) (l : List (Nat × List Nat)) : State := l.foldl (fun s (c, ts) => s.report wk c ts) s

/-- Threads of a list that owe WATCH at their boundary (R185). -/
def State.watchers (s : State) (wk : Nat) (tids : List Nat) : List (Nat × TrapInfo) :=
  tids.filterMap fun i =>
    let t := s.thr (thrKey wk i)
    t.watch.map fun a => (i, { cause := .watch, pc := t.pc, addr := a })

/-- What live, unhalted threads of a workgroup owe at their boundary before a halt (R182): WATCH, then cancellation. -/
def State.settleOwed (s : State) (wk : Nat) : State × List (Nat × List Nat) :=
  let w := s.watchers wk ((s.liveTids wk).filter fun i => !(s.thr (thrKey wk i)).halted)
  let r := (s.fragments wk (w.map Prod.fst) []).foldl (fun (a : State × List (Nat × List Nat)) f =>
    let t := (a.1.modTids wk f fun t => { t with watch := none }).takeTraps wk (w.filter fun x => f.contains x.1)
    (t.1, a.2 ++ t.2)) (s, [])
  (r.1.cancelAll wk ((r.1.liveTids wk).filter (r.1.mayCancel wk)), r.2)

/-- Halt a workgroup all-stop (R182): every live thread stands at a boundary between turns, and halts there once it has taken what it
owes. Drydown counts a debugger halt as interference (15_counters R267). -/
def State.allStop (s : State) (wk : Nat) : State :=
  let r := s.settleOwed wk
  let s := r.1.modTids wk (r.1.liveTids wk) fun t => if t.halted then t else { t with halted := true, relPc := none }
  (s.modWg wk fun w => { w with inelig := true }).reports wk r.2

/-- A trap taken by several threads of one fragment, each with its own information (R179 to R182). Where one halts, its workgroup halts
all-stop, and the halt is reported. -/
def State.trap (s : State) (wk : Nat) (who : List (Nat × TrapInfo)) : State :=
  match s.takeTraps wk who with
  | (s, []) => s
  | (s, r :: l) => (s.allStop wk).reports wk (r :: l)

/-- The same trap in every thread of a list. -/
def State.trapAll (s : State) (wk : Nat) (tids : List Nat) (i : TrapInfo) : State :=
  s.trap wk (tids.map fun t => (t, i))

/-- A wait withdrawn by a change of PC (R87): an RWAIT arrival is taken back, everything else leaves nothing behind. -/
def Thread.withdraw (t : Thread) (w : Wait) : Thread :=
  match w with
  | .rwait n => { t with arrive := t.arrive &&& ~~~(1#16 <<< n) }
  | _ => t

/-- What a pre-empted thread takes back at the RTE of its resume handler (R302): its trap registers, mode and halt, SHC, JOIN and
ARRIVE (09_control R161), and the wait, scoreboard wait or parked word it stood at, unless its PC has changed since (R87). -/
def Thread.takeBack (t : Thread) : Thread :=
  let t := { t with pre := .none, trap := t.saved, halted := t.savedHalt, savedHalt := false, handler := t.savedHandler,
                    savedHandler := false, hold := t.savedHold, savedHold := .none, shc := t.savedShc, join := t.savedJoin,
                    arrive := t.savedArrive }
  let t := if t.pc == t.savedPc then
      { t with wait := t.savedWait, park := t.savedPark.map fun p => { p with rewalk := true } }
    else { t.withdraw t.savedWait with claimed := [] }
  { t with savedWait := .none, savedPark := none }

/-- Return from an exception in one thread (R190): the mode cleared and PC from TRAPPC. The RTE of a save handler leaves the
thread there, not runnable; that of a resume handler restores the trap registers saved before the PREEMPT entry
(04_registers R88, 18_queues R300, R302). -/
def Thread.ret (t : Thread) (skip : Bool) : Thread :=
  let t := { t with handler := false, pc := t.trap.pc, skipBp := t.skipBp || skip }
  match t.pre with
  | .saving => { t with pre := .saved }
  | .restoring => t.takeBack
  | .none => t
  | .saved => t

end Sys2Proof.Machine
end

