-- ==== Sys2Proof/Machine/Run.lean ====
section
/-! DEFINITION. How a word runs in its fragment: legality first (03_encoding R68), register errors next (04_registers R83,
R84), then the word's own effect in each guard-active thread, and what issuing leaves in a thread (09_control R161, R178). -/

namespace Sys2Proof.Machine

/-! ### Register words -/

/-- Replace element `n` of a list, padded with zeros up to it. -/
def padSet : List W32 → Nat → W32 → List W32
  | [], 0, v => [v]
  | [], n + 1, v => 0 :: padSet [] n v
  | _ :: r, 0, v => v :: r
  | a :: r, n + 1, v => a :: padSet r n v

/-- The poison bit of x register `n` (R83). -/
def Thread.poisonBit (t : Thread) (n : Nat) : Bool :=
  if n < 64 then t.poisonLo.getLsbD n else t.poisonHi.getLsbD (n - 64)

/-- Set or clear the poison bit of x register `n`. -/
def Thread.setPoison (t : Thread) (n : Nat) (b : Bool) : Thread :=
  let upd (v : W64) (m : Nat) : W64 := if b then v ||| (1#64 <<< m) else v &&& ~~~(1#64 <<< m)
  if n < 64 then { t with poisonLo := upd t.poisonLo n } else { t with poisonHi := upd t.poisonHi (n - 64) }

/-- Reading x register `n` meets an uncorrectable error. -/
def Thread.bad (t : Thread) (n : Nat) : Bool := t.badX.contains n || t.poisonBit n

/-- Write an x register: a full write clears the word's error and its poison bit (R83). -/
def Thread.wx (t : Thread) (n : Nat) (v : W32) : Thread :=
  { t with x := padSet t.x n v, badX := t.badX.filter (· != n), oneX := t.oneX.filter (· != n) }.setPoison n false

/-- Write x registers in order. -/
def Thread.wxs (t : Thread) (l : List (Nat × W32)) : Thread := l.foldl (fun t p => t.wx p.1 p.2) t

/-- Write a predicate; q0 is never written (R57). -/
def Thread.wq (t : Thread) (n : QReg) (b : Bool) : Thread :=
  if n == 0 then t
  else { t with q := if b then t.q ||| (1#8 <<< n.toNat) else t.q &&& ~~~(1#8 <<< n.toNat) }

/-- Raise flags; they are sticky (R40). -/
def Thread.raise (t : Thread) (f : W32) : Thread := { t with flags := t.flags ||| (f &&& flagMask) }

/-- Take the results of one thread's lane computation. -/
def Thread.out (t : Thread) (o : Out) : Thread :=
  (o.qs.foldl (fun t p => t.wq p.1 p.2) (t.wxs o.xs)).raise o.fl

/-- Write a k register; a full write clears the word's error (R82, R83). -/
def Wg.wk (w : Wg) (n : Nat) (v : W32) : Wg := { w with k := padSet w.k n v, badK := w.badK.filter (· != n), oneK := w.oneK.filter (· != n) }

/-! ### What a thread sees -/

/-- Words of a register list, those in error read as zero (R84). -/
def zeroBad (bad : Nat → Bool) : List W32 → Nat → List W32
  | [], _ => []
  | v :: r, n => (if bad n then 0 else v) :: zeroBad bad r (n + 1)

/-- A thread's view of its registers at issue; in handler mode a word in error reads zero (R84). -/
def State.env (s : State) (wk tid : Nat) : Env :=
  let w := s.wg wk
  let t := s.thr (thrKey wk tid)
  { x := if t.handler then zeroBad t.bad t.x 0 else t.x,
    k := if t.handler then zeroBad w.badK.contains w.k 0 else w.k,
    q := t.q, lane := t.lane, tid := tid, pc := t.pc }

/-! ### Which words a thread reads -/

/-- What a thread reads: (lane, register, by the second half of a pair word). -/
abbrev Reads := List (Nat × Nat × Bool)

/-- The thread's own registers. -/
def rdOwn (rs : List Nat) (e : Env) : Reads := rs.map fun r => (e.lane, r, false)

/-- Registers of another lane, when that lane supplies a value (R123). -/
def rdLane (fr : Frag) (j : Nat) (rs : List Nat) : Reads :=
  if (laneEnv fr j).isSome then rs.map fun r => (j, r, false) else []

/-- Operand B's registers under its modifier, as lane `i` reads it. -/
def rdB (fr : Frag) (sm : Option SMod) (bx : List Nat) (i : Nat) : Reads :=
  match sm with
  | none => rdLane fr i bx
  | some m => rdLane fr (smodLane m i) bx

/-- The reads of a word whose operand B, with x registers `bx`, has modifier `sm`. -/
def rdWord (i : Instr) (sm : Option SMod) (bx : List Nat) (fr : Frag) (e : Env) : Reads :=
  rdOwn ((names i).xr.diff bx) e ++ rdB fr sm bx e.lane

/-- The reads of a word without a modifier. -/
def rdPlain (i : Instr) (_ : Frag) (e : Env) : Reads := rdOwn (names i).xr e

/-! ### Outcomes of a word -/

/-- How a guard-active thread fares: it goes on at the next word, or at `pc`; it stands at the issued word and waits; it has
ended; it is held without having issued; or it traps. -/
inductive Fin where
  | next
  | goto (pc : W64)
  | stay
  | ended
  | held
  | trap (i : TrapInfo)
  deriving DecidableEq, Repr, Inhabited

/-- What a word's body answers: it is illegal in this state; the whole word is held; or a state with each thread's fate. -/
inductive Ran where
  | illegal
  | held
  | done (s : State) (fin : List (Nat × Fin))

/-- A word's body: the state, the site, all guard-active threads, and those that execute. -/
abbrev Body := State → Site → Frag → Frag → Ran

/-- The thread has issued a word: SHC falls by one outside handler mode (R178), and what was owed to its selection ends. -/
def Thread.issue (t : Thread) : Thread :=
  { t with shc := if t.handler then t.shc else t.shc - 1, aged := false, scPlaced := false, skipBp := false }

/-- The thread issues the word and stands at `pc`. -/
def Thread.goto (t : Thread) (pc : W64) : Thread := { t.issue with pc := pc }

/-- The next word. -/
def Site.nextPc (c : Site) : W64 := c.pc + 8

/-- The trap is the effect of a word that has issued: of TRAP, which the PC has left, or of BRK (10_trap_state R189). -/
def TrapInfo.ofIssued (i : TrapInfo) (c : Site) : Bool := i.pc != c.pc || i.cause == .bkpt

/-- Put one thread's fate into its state; traps come after. -/
def Fin.apply (f : Fin) (c : Site) (t : Thread) : Thread :=
  match f with
  | .next => t.goto c.nextPc
  | .goto pc => t.goto pc
  | .stay => t.issue
  | .ended => t
  | .held => t
  | .trap i => if i.ofIssued c then t.issue else t

/-- The thread issued the word. -/
def Fin.issued (f : Fin) (c : Site) : Bool :=
  match f with
  | .next => true
  | .goto _ => true
  | .stay => true
  | .ended => true
  | .held => false
  | .trap i => i.ofIssued c

/-- The traps among the fates. -/
def trapsOf : List (Nat × Fin) → List (Nat × TrapInfo)
  | [] => []
  | (i, .trap t) :: r => (i, t) :: trapsOf r
  | _ :: r => trapsOf r

/-- Guard-inactive threads go on with a word, unless it holds every active one: then it has not issued. -/
def goers (idle : List Nat) (fin : List (Nat × Fin)) : List Nat :=
  if !fin.isEmpty && fin.all fun f => f.2 == .held then [] else idle

/-- Finish a word: guard-inactive threads go on, each active thread takes its fate, the counters of 15_counters R261 count
the issue, and the traps are taken. -/
def State.finish (s : State) (c : Site) (idle : List Nat) (fin : List (Nat × Fin)) (ecc : List (Nat × TrapInfo)) : State :=
  let idle := goers idle fin
  let s := s.modTids c.wg idle fun t => t.goto c.nextPc
  let s := fin.foldl (fun s (i, f) => s.modThr (thrKey c.wg i) (f.apply c)) s
  let n := (fin.filter fun (_, f) => f.issued c).length
  let s := if idle.isEmpty && n == 0 then s else (s.count (coreKey c.pkg c.core) 0 1).count (coreKey c.pkg c.core) 1 n
  match ecc ++ trapsOf fin with
  | [] => s
  | ts => s.trap c.wg ts

/-! ### Register errors -/

/-- The thread of a lane in the fragment. -/
def State.laneTid (s : State) (c : Site) (j : Nat) : Option Nat :=
  c.tids.find? fun i => (s.thr (thrKey c.wg i)).lane == j

/-- Reading a lane's register meets an error. -/
def State.badAt (s : State) (c : Site) (j n : Nat) : Bool :=
  match s.laneTid c j with
  | some i => (s.thr (thrKey c.wg i)).bad n
  | none => false

/-- The REGECC trap of a thread with these reads of x and k registers, if any word of them is in error (R83). TRAPADDR names the first
in the order of the reads, x before k, and a k register as 0x80 + n in the reader's own lane (assumption 73). -/
def State.eccTrap (s : State) (c : Site) (rd : Reads) (kr : List (Nat × Bool)) (e : Env) : Option TrapInfo :=
  match rd.find? fun (j, n, _) => s.badAt c j n with
  | some (j, n, h) => some { cause := .regecc, half := h, pc := c.pc, addr := BitVec.ofNat 64 (n + 256 * j) }
  | none =>
    (match kr.find? fun (n, _) => (s.wg c.wg).badK.contains n with
     | some (n, h) => some { cause := .regecc, half := h, pc := c.pc, addr := BitVec.ofNat 64 (0x80 + n + 256 * e.lane) }
     | none => none)

/-- Words in error read only by inactive threads, by (TID, register): the poison bit is set and an event record posted (R83). A k
register has no poison bit, and a k word in error that only inactive threads read leaves nothing (assumption 73). -/
def State.quietErrors (s : State) (c : Site) (quiet : List (Nat × Nat)) : State :=
  quiet.foldl (fun s (i, n) =>
    let t := s.thr (thrKey c.wg i)
    if t.badX.contains n && !t.poisonBit n then
      (s.modThr (thrKey c.wg i) fun t => t.setPoison n true).wgEvent c.wg 0x03 i c.pc (BitVec.ofNat 64 n)
    else s) s

/-- Words in error read in handler mode: the poison bit is set, without a trap (R84). -/
def State.handlerErrors (s : State) (c : Site) (rds : List Reads) : State :=
  rds.foldl (fun s rd => rd.foldl (fun s (j, n, _) =>
    match s.laneTid c j with
    | some i => if (s.thr (thrKey c.wg i)).badX.contains n then s.modThr (thrKey c.wg i) fun t => t.setPoison n true else s
    | none => s) s) s

/-- The fragment is in trap-handler mode (R17: all of it or none of it). -/
def State.inHandler (s : State) (c : Site) : Bool :=
  match c.tids with
  | [] => false
  | i :: _ => (s.thr (thrKey c.wg i)).handler

/-- Threads whose registers the issue reads although they take no part: the guard-inactive ones, and the lanes of the
parent's other fragments. -/
def State.idleReaders (s : State) (c : Site) (idle : List Nat) : List Nat :=
  match c.tids with
  | [] => []
  | i :: _ => idle ++ (s.siblings c.wg (s.thr (thrKey c.wg i))).filter fun j => !c.tids.contains j

/-- The telemetry count of corrected errors of a core (R82). -/
def Core.correct (c : Core) : Core := { c with corrX := c.corrX + 1 }

/-- Single-bit errors of the words read, x registers by (TID, register): each is corrected and counted (R82). -/
def State.corrected (s : State) (c : Site) (xs : List (Nat × Nat)) (ks : List Nat) : State :=
  let ck := coreKey c.pkg c.core
  let s := xs.foldl (fun s (i, n) =>
    if (s.thr (thrKey c.wg i)).oneX.contains n then
      (s.modThr (thrKey c.wg i) fun t => { t with oneX := t.oneX.filter (· != n) }).modCore ck Core.correct
    else s) s
  ks.foldl (fun s n =>
    if (s.wg c.wg).oneK.contains n then
      (s.modWg c.wg fun w => { w with oneK := w.oneK.filter (· != n) }).modCore ck Core.correct
    else s) s

/-- The words a list of reads reads, by (TID, register). -/
def State.readWords (s : State) (c : Site) (rd : Reads) : List (Nat × Nat) :=
  rd.filterMap fun (j, n, _) => (s.laneTid c j).map fun i => (i, n)

/-- Register errors of a word: the state with single-bit errors corrected and poison bits set, and the REGECC traps by TID. `quiet` are
the words that inactive threads read, and those of them that an active one reads too are not theirs alone. -/
def State.regErrors (s : State) (c : Site) (quiet : List (Nat × Nat)) (rds : List (Env × Reads × List (Nat × Bool))) :
    State × List (Nat × TrapInfo) :=
  let act := s.readWords c (rds.flatMap fun r => r.2.1)
  let s := s.corrected c (quiet ++ act) (rds.flatMap fun r => r.2.2.map Prod.fst)
  if s.inHandler c then (s.handlerErrors c (rds.map (·.2.1)), [])
  else
    (s.quietErrors c (quiet.filter fun p => !act.contains p),
     rds.filterMap fun (e, rd, kr) => (s.eccTrap c rd kr e).map fun i => (e.tid, i))

/-! ### Running a word -/

/-- The conditions of R68 that depend on the kernel and on the state. -/
def State.wordOk (s : State) (c : Site) (i : Instr) : Bool := legal i && regsBelow (s.wg c.wg).nregs i

/-- Every thread of the fragment takes ILLEGAL (R68). -/
def State.illegal (s : State) (c : Site) : State := s.trapAll c.wg c.tids { cause := .illegal, pc := c.pc }

/-- Words performed once per issue for the lowest guard-active thread alone, whose registers alone they read: TDESC and the plane queue's
(08_planes R147), engine commands (14_engines R240), BARO, RINGSET, TLBINV and those of the links (15 R262, 19 R307, 21 R322, 22 R343). -/
def performs (i : Instr) : Bool :=
  match i with
  | .tdesc _ _ _ => true
  | .plane _ _ _ _ => true
  | .align _ _ _ _ => true
  | .mma _ _ _ _ _ => true
  | .mmac _ _ _ _ _ => true
  | .accz _ _ _ => true
  | .accst _ _ _ => true
  | .cbload _ => true
  | .tcopy _ => true
  | .tgather _ => true
  | .cavred _ => true
  | .loopnest _ => true
  | .send _ => true
  | .search _ => true
  | .hspub _ => true
  | .baro _ _ _ _ => true
  | .ringset _ _ _ _ => true
  | .tlbinvPage _ _ _ => true
  | .tlbinvVf _ _ => true
  | .lpark _ _ _ => true
  | .lwake _ _ _ => true
  | .slotset _ _ => true
  | _ => false

/-- A word's body, unless its performing thread takes REGECC: then it is not performed. -/
def bodyUnless (stop : Bool) (body : Body) : Body := fun s c fr who =>
  if stop then .done s (who.map fun e => (e.tid, .next)) else body s c fr who

/-- Run a full-form word with guard `g`, reads `rd`, its own condition of legality `ok`, and its body. -/
def runWord (i : Instr) (g : Guard) (rd : Frag → Env → Reads) (ok : State → Site → Bool) (body : Body) (s : State) :
    Host.Outcome State Fault Refusal :=
  match s.cur with
  | none => .fault .noIssuer
  | some c =>
    if !(s.wordOk c i && ok s c) then .next (s.illegal c)
    else
      let act := c.tids.filter fun t => (s.env c.wg t).guarded g
      let idle := c.tids.filter fun t => !(s.env c.wg t).guarded g
      let fr := act.map (s.env c.wg)
      let n := names i
      let quiet := (s.idleReaders c idle).flatMap fun t => n.xr.map fun r => (t, r)
      let readers := if performs i then fr.take 1 else fr
      let (s1, ecc) := s.regErrors c quiet (readers.map fun e => (e, rd fr e, n.kr.map fun r => (r, false)))
      let who := fr.filter fun e => !(ecc.any fun p => p.1 == e.tid)
      match bodyUnless (performs i && !ecc.isEmpty) body s1 c fr who with
      | .illegal => .next (s.illegal c)
      | .held => .next s
      | .done s2 fin => .next (s2.finish c idle fin ecc)

/-- A word whose legality is on its bits and the register count alone. -/
def always (_ : State) (_ : Site) : Bool := true

/-- Give each executing thread the results of its own computation. -/
def laneBody (f : Frag → Env → Out) : Body := fun s c fr who =>
  .done (who.foldl (fun s e => s.modThr (thrKey c.wg e.tid) fun t => t.out (f fr e)) s) (who.map fun e => (e.tid, .next))

/-- Run a word that only computes in each thread's own registers from those of its fragment. -/
def runLane (i : Instr) (g : Guard) (sm : Option SMod) (bx : List Nat) (f : Frag → Env → Out) (s : State) :
    Host.Outcome State Fault Refusal :=
  runWord i g (rdWord i sm bx) always (laneBody f) s

/-- An F-form word with sources A and B at width `w` (R53, R89). -/
def runF3 (i : Instr) (o : F3) (w : Width) (f : Nat → Nat → Out) (s : State) : Host.Outcome State Fault Refusal :=
  runLane i o.g o.sm (opndX w o.b) (fun fr e => f (readOp w e o.a) (readB w fr e o.sm o.b)) s

/-- As `runF3`, with B read at 32 bits (R97, R99). -/
def runF3b (i : Instr) (o : F3) (w : Width) (f : Env → Nat → Nat → Out) (s : State) : Host.Outcome State Fault Refusal :=
  runLane i o.g o.sm (opndX .w32 o.b) (fun fr e => f e (readOp w e o.a) (readB .w32 fr e o.sm o.b)) s

/-- A one-source F-form word (R55). -/
def runF2 (i : Instr) (o : F2) (w : Width) (f : Nat → Out) (s : State) : Host.Outcome State Fault Refusal :=
  runLane i o.g o.sm (opndX w o.b) (fun fr e => f (readB w fr e o.sm o.b)) s

/-- A comparison into a predicate (R57). -/
def runFP (i : Instr) (o : FP) (w : Width) (f : Nat → Nat → Bool × W32) (s : State) : Host.Outcome State Fault Refusal :=
  runLane i o.g o.sm (opndX w o.b) (fun fr e =>
    let r := f (readOp w e o.a) (readB w fr e o.sm o.b)
    { qs := [(o.q, r.1)], fl := r.2 }) s

end Sys2Proof.Machine
end

