-- ==== Sys2Proof/Machine/Translate.lean ====
section
/-! DEFINITION. Addresses: the page walk (21_tables R318 to R322), the TLBs (11_memories R204), the four apertures and
their checks (R193 to R199, R203, R205). -/

namespace Sys2Proof.Machine

/-! ### The page walk -/

/-- What a walk finds (R318): no present entry, a bad entry (R203, R321), or a leaf with the log2 of its page size. -/
inductive Walk where
  | absent
  | bad
  | leaf (e : W64) (lg : Nat)
  deriving DecidableEq, Repr, Inhabited

/-- A physical address lies in HBM4E, in either view (R198). -/
def inHbm (pa : Nat) : Bool := pa < 2 ^ 41

/-- A pointer entry breaks no rule of R319 and R321; `upper` when the next table is at level 1 or 2. -/
def ptrOk (e : W64) (upper : Bool) : Bool :=
  let n := e.toNat
  bits n 63 56 == 0 && bits n 7 2 == 0 && inHbm (bits n 55 8 * 256) && !(upper && bits n 11 8 != 0)

def leafCxl (e : W64) : Bool := e.getLsbD 61
def leafUnc (e : W64) : Bool := e.getLsbD 60
def leafChl (e : W64) : Bool := e.getLsbD 59
def leafApr (e : W64) : Bool := e.getLsbD 58
def leafRepl (e : W64) : Bool := e.getLsbD 57
def leafSeal (e : W64) : Bool := e.getLsbD 56
def leafX (e : W64) : Bool := e.getLsbD 4
def leafW (e : W64) : Bool := e.getLsbD 3
def leafR (e : W64) : Bool := e.getLsbD 2
def leafFrame (e : W64) : Nat := bits e.toNat 55 16 * 65536
def leafHome (e : W64) : Nat := bits e.toNat 15 14

/-- A leaf entry for a page of 2^lg bytes breaks no rule of R203, R320 and R321. -/
def leafOk (e : W64) (lg : Nat) : Bool :=
  let n := e.toNat
  let f := leafFrame e
  let sz := 2 ^ lg
  bits n 63 62 == 0 && bits n 13 5 == 0 && (leafRepl e || leafHome e == 0) && f % sz == 0 &&
  !(leafRepl e && (leafChl e || leafCxl e)) && !(leafApr e && !leafRepl e) && !(leafSeal e && leafApr e) &&
  (if leafCxl e then decide (2 ^ 44 ≤ f) && decide (f + sz ≤ 2 ^ 45) && !leafChl e
   else if leafChl e then decide (2 ^ 40 ≤ f) && decide (f + sz ≤ 2 ^ 41)
   else if leafRepl e then decide (f + 4 * sz ≤ 2 ^ 41)
   else decide (f + sz ≤ 2 ^ 41) ||
     (decide (2 ^ 55 ≤ f) && decide (f < 2 ^ 55 + 64 * 2 ^ 49) && decide ((f - 2 ^ 55) % 2 ^ 49 + sz ≤ 2 ^ 45)))

/-- An entry of a table as it stands at its home (R322). -/
def State.entryAt (s : State) (p pa : Nat) : Option W64 :=
  if inHbm pa then (s.devLoc p pa).map fun l => readWord s.mem (l / 8) else none

/-- The walk from a table: `ls` gives, per remaining level, the lowest index bit and the number of index bits. -/
def State.walkFrom (s : State) (p va : Nat) : List (Nat × Nat) → Nat → Walk
  | [], _ => .bad
  | (sh, n) :: rest, base =>
    match s.entryAt p (base + 8 * (va / 2 ^ sh % 2 ^ n)) with
    | none => .bad
    | some e =>
      if !e.getLsbD 0 then .absent
      else if e.getLsbD 1 then (if sh < 39 && leafOk e sh then .leaf e sh else .bad)
      else if !rest.isEmpty && ptrOk e (rest.length ≥ 2) then s.walkFrom p va rest (bits e.toNat 55 8 * 256)
      else .bad

/-- The walk of R318 for a function's virtual address. -/
def State.walk (s : State) (p fn va : Nat) : Walk :=
  s.walkFrom p va [(39, 9), (30, 9), (21, 9), (16, 5)] (s.fn (fnKey p fn)).ptroot.toNat

/-! ### TLBs (R204) -/

def TlbEnt.hits (e : TlbEnt) (fk va : Nat) : Bool := e.fn == fk && va / 2 ^ e.lg == e.va / 2 ^ e.lg

/-- Add an entry; a full TLB gives up one of its entries, which one is a free value (assumption 2). -/
def tlbFill (l : List TlbEnt) (cap : Nat) (e : TlbEnt) (n : Nat) : List TlbEnt :=
  if l.length < cap then l ++ [e] else l.eraseIdx (Config.freeVictim n % l.length) ++ [e]

def State.fillMicro (s : State) (ck : Nat) (e : TlbEnt) : State :=
  let (n, s) := s.draw
  s.modCore ck fun c => { c with utlb := tlbFill c.utlb 64 e n }

def State.fillDie (s : State) (dk : Nat) (e : TlbEnt) : State :=
  let (n, s) := s.draw
  s.modDie dk fun d => { d with tlb := tlbFill d.tlb 8192 e n }

/-- Translate a GLOBAL address through a die TLB alone. -/
def State.translateDie (s : State) (p die fn va : Nat) : Walk × State :=
  let dk := dieKey p die
  let fk := fnKey p fn
  match (s.die dk).tlb.find? (·.hits fk va) with
  | some e => (.leaf e.leaf e.lg, s)
  | none =>
    match s.walk p fn va with
    | .leaf e lg => (.leaf e lg, s.fillDie dk { fn := fk, va := va / 2 ^ lg * 2 ^ lg, lg := lg, leaf := e })
    | w => (w, s)

/-- Translate a GLOBAL address for a core: micro-TLB, die TLB, walk; only leaves are cached. -/
def State.translate (s : State) (p core fn va : Nat) : Walk × State :=
  let ck := coreKey p core
  let dk := dieKey p (core / 160)
  let fk := fnKey p fn
  match (s.core ck).utlb.find? (·.hits fk va) with
  | some e => (.leaf e.leaf e.lg, s)
  | none =>
    match (s.die dk).tlb.find? (·.hits fk va) with
    | some e => (.leaf e.leaf e.lg, s.fillMicro ck e)
    | none =>
      match s.walk p fn va with
      | .leaf e lg =>
        let t : TlbEnt := { fn := fk, va := va / 2 ^ lg * 2 ^ lg, lg := lg, leaf := e }
        (.leaf e lg, (s.fillDie dk t).fillMicro ck t)
      | w => (w, s)

/-! ### Places of accesses -/

/-- What an access wants of its page. -/
structure Want where
  r : Bool := false
  w : Bool := false
  x : Bool := false
  tag : Bool := false
  deriving DecidableEq, Repr, Inhabited

/-- Where an access goes. `loc` is the byte's place at its home; `peer` when another package is its home; `void` when a
peer or a port backs nothing there (R199), with `loc` then the number of the port (0 to 3) or of the peer (4 + PKGID);
`own` for the workgroup's own SCRATCH, STACK and `.vault` (R267). -/
structure Place where
  loc : Nat
  peer : Bool := false
  void : Bool := false
  repl : Option Repl := none
  unc : Bool := false
  sealed : Bool := false
  own : Bool := false
  glob : Bool := false
  deriving DecidableEq, Repr, Inhabited

/-- The answer to an access: a place, a refusal with its DETAIL code (R205), or an absent page (R206). -/
inductive Res where
  | ok (p : Place)
  | refuse (detail : Nat) (addr : W64)
  | absent (va : Nat)
  deriving DecidableEq, Repr, Inhabited

def vaultAp : Nat := 0xFFFD000000000000
def stackAp : Nat := 0xFFFE000000000000
def scratchAp : Nat := 0xFFFF000000000000

/-- Bytes `o` to `o + n - 1` of an allocation of `size` bytes, or the lowest refused byte (R194). -/
def inAlloc (a : W64) (o n size : Nat) (p : Place) : Res :=
  if o + n ≤ size then .ok p
  else .refuse 0x01 (if o < size then a + BitVec.ofNat 64 (size - o) else a)

/-- The gang of a launch context that a VAULT address names (R197). -/
def State.vaultGang (s : State) (own : Nat) (q m : Nat) : Option Nat :=
  let g := s.gang own
  if q = 0xFF then (if m = 0 then some own else none)
  else if q < 160 then
    if g.quad = q && g.cidx = m then some own
    else (s.gangs.find? fun (_, h) => h.pkg == g.pkg && h.ctx == g.ctx && h.quad == q && h.cidx == m &&
      h.st == .running && h.check == none).map (·.1)
  else none

/-- The word of a replicated page in each die's copy. -/
def State.replOf (s : State) (p : Nat) (e : W64) (lg off : Nat) : Repl :=
  { words := (List.range 4).map fun d => ((s.devLoc p (leafFrame e + d * 2 ^ lg + off)).getD 0) / 8,
    home := leafHome e, apr := leafApr e, page := leafFrame e / 65536 }

/-- Check a translated access of `n` bytes against its leaf (R203) and find its place (R198, R199, R201). -/
def State.placeOf (s : State) (p : Nat) (a : W64) (want : Want) (e : W64) (lg : Nat) : Res :=
  let off := a.toNat % 2 ^ lg
  let d := s.pkg p
  if (want.r && !leafR e) || (want.w && !leafW e) || (want.x && !leafX e) || (want.w && leafSeal e) then .refuse 0x02 a
  else if leafRepl e then
    let r := s.replOf p e lg off
    .ok { loc := 8 * r.words.getD r.home 0 + off % 8, repl := some r, unc := leafUnc e, sealed := leafSeal e, glob := true }
  else
    match target p (leafFrame e + off) d.cfg.podSize fun q => (s.pkg q).cfg.caps with
    | .here l =>
      if want.tag && isCxl l then .refuse 0x04 a
      else .ok { loc := l, unc := leafUnc e, sealed := leafSeal e, glob := true }
    | .peer _ l =>
      if want.tag then .refuse 0x04 a
      else .ok { loc := l, peer := true, unc := leafUnc e, sealed := leafSeal e, glob := true }
    | .peerNone q => if want.tag then .refuse 0x04 a else .ok { loc := 4 + q, peer := true, void := true, glob := true }
    | .portNone =>
      if want.tag then .refuse 0x04 a
      else .ok { loc := bits (leafFrame e + off) 43 42, void := true, glob := true }
    | .unbacked => .refuse 0x03 a

/-- Resolve `n` bytes at `a` for a thread (R193 to R205); misalignment is the caller's check. -/
def State.resolve (s : State) (wk tid : Nat) (a : W64) (n : Nat) (want : Want) : Res × State :=
  let w := s.wg wk
  let g := s.gang w.gang
  let v := a.toNat
  if v < 2 ^ 48 then
    match s.translate w.pkg w.core (s.ctx w.ctx).fn v with
    | (.absent, s) => (.absent v, s)
    | (.bad, s) => (.refuse 0x06 a, s)
    | (.leaf e lg, s) => (s.placeOf w.pkg a want e lg, s)
  else if want.x then (.refuse 0x01 a, s)
  else if vaultAp ≤ v && v < vaultAp + 2 ^ 32 then
    match s.vaultGang w.gang (bits v 31 24) (bits v 23 22) with
    | none => (.refuse 0x01 a, s)
    | some k =>
      let h := s.gang k
      let o := v % 2 ^ 22
      (inAlloc a o n h.vaultSize { loc := locVault h.pkg h.quad (h.vaultBase + o), own := k == w.gang }, s)
  else if stackAp ≤ v && v < stackAp + 2 ^ 16 then
    let o := v - stackAp
    (inAlloc a o n g.stk
      { loc := locVault w.pkg g.quad (g.stkBase + (w.member * w.size + tid) * g.stk + o), own := true }, s)
  else if scratchAp ≤ v && v < scratchAp + 2 ^ 18 then
    let o := v - scratchAp
    (inAlloc a o n w.scrSize { loc := locScratch w.pkg w.core (w.scrBase + o), own := true }, s)
  else (.refuse 0x01 a, s)

/-- The place a die's loads read (R218: its own copy of a replicated page). -/
def Place.seen (p : Place) (d : Nat) : Nat :=
  match p.repl with
  | none => p.loc
  | some r => 8 * r.words.getD d 0 + p.loc % 8

/-- A value as a die reads it now: scratchpad directly, package memory through its view (R211), a peer's and an uncached page's at
their home (R203). -/
def State.readSeen (s : State) (p core : Nat) (pl : Place) (n : Nat) : W64 :=
  let l := pl.seen (core / 160)
  if isScratch l || pl.unc || locPkg l ≠ p then wordPart (readWord s.mem (l / 8)) (l % 8) n
  else s.viewPart (dieKey p (core / 160)) l n

end Sys2Proof.Machine
end

