-- ==== Sys2Proof/Machine/Threads.lean ====
section
/-! DEFINITION. What becomes of a thread: exit (09_control R167), waits and their ends, and what makes a thread runnable
(01_machine R25). -/

namespace Sys2Proof.Machine

/-! ### Runnable threads (R25) -/

/-- A thread of a gang that is being pre-empted issues only in a handler: its own until the RTE, then the PREEMPT one
(10_trap_state R181, 18_queues R300, R302). -/
def Thread.preRuns (t : Thread) (marked : Bool) : Bool :=
  match t.pre with
  | .none => !marked || t.handler
  | .saving => true
  | .saved => false
  | .restoring => true

/-- A single-step on the core lets only the stepped fragment of the stepped workgroup issue, one word (R184). -/
def stepAllows (st : Option StepSt) (wk tid : Nat) : Bool :=
  match st with
  | none => true
  | some x => x.wg != wk || (!x.issued && x.tids.contains tid)

/-- The thread stands at a FENCE that it has issued, whose wait a mark for pre-emption does not break off (13_memory_instr R235). -/
def Thread.fences (t : Thread) : Bool := t.fence == some t.pc

/-- The thread is about to issue the word of a single-step, which a mark for pre-emption does not hold back. -/
def stepsNow (st : Option StepSt) (wk tid : Nat) : Bool :=
  match st with
  | none => false
  | some x => x.wg == wk && !x.issued && x.tids.contains tid

/-- Everything of R25 but the scoreboard. -/
def State.ready (s : State) (wk tid : Nat) : Bool :=
  let w := s.wg wk
  let g := s.gang w.gang
  let t := s.thr (thrKey wk tid)
  t.live && !t.halted && t.wait == .none && t.hold == .none && t.park == none && w.resident && g.st == .running &&
    (t.preRuns g.pre.isSome || t.fences || stepsNow (s.core w.ckey).stepping wk tid) && stepAllows (s.core w.ckey).stepping wk tid

/-! ### Scoreboard (03_encoding R52) -/

/-- The x registers an access will still write. -/
def Access.destX (a : Access) : List Nat :=
  if a.done || a.cancelled then []
  else match a.ret with
    | .none => []
    | .x d t => Machine.destX t.w (BitVec.ofNat 7 d)
    | .k _ => []

/-- The k registers an access will still write. -/
def Access.destK (a : Access) : List Nat :=
  if a.done || a.cancelled then []
  else match a.ret with
    | .none => []
    | .x _ _ => []
    | .k d => [d]

/-- An access that will still raise flags in its thread (02_numbers R42). -/
def Access.holdsFlags (a : Access) : Bool :=
  !a.done && !a.cancelled && (match a.kind with | .atom .fadd _ _ => true | _ => false)

/-- The thread's FLAGS are held busy by an ATOM.FADD or a conversion. -/
def State.flagsBusy (s : State) (wk tid : Nat) : Bool :=
  (s.accs.any fun a => a.thr == thrKey wk tid && a.holdsFlags) ||
  ((s.core (s.wg wk).ckey).pq.any fun o => o.thr == thrKey wk tid && (o.kind == .plane || o.kind == .align) && o.loop == none)

/-- Every register the word names is free of outstanding returns. -/
def State.sources (s : State) (wk tid : Nat) (i : Instr) : Bool :=
  let n := names i
  let px := s.accs.flatMap fun a => if a.thr == thrKey wk tid then a.destX else []
  let pk := s.accs.flatMap fun a => if a.thr / 2048 == wk then a.destK else []
  (n.xr ++ n.xw).all (fun r => !px.contains r) && (n.kr ++ n.kw).all (fun r => !pk.contains r) &&
    !(n.fl && s.flagsBusy wk tid)

/-! ### Ends of waits -/

/-- The I-cycle of a package. -/
def State.clockOf (s : State) (p : Nat) : Nat := (s.pkg p).clock.toNat

/-- A waiting or held thread becomes runnable again. -/
def State.wake (s : State) (wk tid : Nat) (f : Thread → Thread) : State :=
  let c := s.clockOf (s.wg wk).pkg
  s.modThr (thrKey wk tid) fun t => { f t with since := c }

/-- Stand a thread at its word in a wait; its SHC is cleared (R161). -/
def Thread.await (t : Thread) (w : Wait) : Thread := { t with wait := w, shc := 0 }

/-- The thread stands on its core and may run there (18_queues R300), so that a wait of it can end and its parked word look again. -/
def State.wakes (s : State) (k : Nat) : Bool :=
  let g := s.gang (s.wg (k / 2048)).gang
  g.st == .running && (s.thr k).preRuns g.pre.isSome

/-- The threads of a parent group that stand at one word in one mode: one thing wakes together those of them that it wakes (assumption 69). -/
def State.mates (s : State) (wk tid : Nat) : List Nat :=
  let t := s.thr (thrKey wk tid)
  (s.siblings wk t).filter fun i => (s.thr (thrKey wk i)).pc == t.pc && (s.thr (thrKey wk i)).handler == t.handler

/-- The mates of a thread whose condition is met, if its own is. -/
def State.metMates (s : State) (k : Nat) (met : Nat → Bool) : List Nat :=
  if met k then (s.mates (k / 2048) (k % 2048)).filter fun i => met (thrKey (k / 2048) i) else []

/-- A wait ends: the thread stands at the word after the waiting one. -/
def State.endWait (s : State) (wk tid : Nat) : State :=
  s.wake wk tid fun t => { t with wait := .none, pc := t.pc + 8 }

/-- A scoreboard wait ends; the thread stands behind its word already. -/
def State.endHold (s : State) (wk tid : Nat) : State := s.wake wk tid fun t => { t with hold := .none }

/-! ### Exit (R167) -/

/-- EXIT of one thread: its participations end and its outstanding returns are discarded; everything it issued proceeds. -/
def State.exitThread (s : State) (wk tid : Nat) : State :=
  let s := s.discardReturns (thrKey wk tid)
  (s.modThr (thrKey wk tid) fun t =>
    { t with life := .exited, join := 0, arrive := 0, wait := .none, hold := .none, watch := none }).dropRings wk

/-- Report an absent page to a die's fault unit: a record is made for a 64 KiB range not in its filter (11_memories R206, R207). -/
def State.faultOn (s : State) (p die core fn : Nat) (lid : W32) (va : Nat) (kind : FKind) : State :=
  let dk := dieKey p die
  let range := va / 65536 * 65536
  let key := (fnKey p fn, range)
  if (s.die dk).filter.contains key then s
  else
    let r : FaultRec := { gen := (s.pkg p).gen, launchid := lid, va := range, core := core, kind := kind, fn := fn }
    s.modDie dk fun d => { d with filter := d.filter ++ [key], faults := d.faults ++ [r] }

/-- An absent page met on a core. -/
def State.faultAt (s : State) (p core fn : Nat) (lid : W32) (va : Nat) (kind : FKind) : State :=
  s.faultOn p (core / 160) core fn lid va kind

end Sys2Proof.Machine
end

