-- ==== Sys2Proof/Machine/Access.lean ====
section
/-! DEFINITION. What becomes of an access after its thread has issued it: the order in which it may be performed, its step at
its home, its return (12_ordering R210 to R219, 13_memory_instr R228 to R237), and what a release or an acquire waits for. -/

namespace Sys2Proof.Machine

/-! ### Kinds -/

/-- The kind returns something to its thread. -/
def AKindM.returns : AKindM → Bool
  | .load => true
  | .store => false
  | .atom _ _ _ => true
  | .acas _ => true
  | .ldfe => true
  | .stfe => false
  | .tagRead => true
  | .tagFill => false
  | .tagEmpty => false

/-- The kind waits at its home for the tag (R233). -/
def AKindM.waitsTag : AKindM → Bool
  | .ldfe => true
  | .stfe => true
  | .load => false
  | .store => false
  | .atom _ _ _ => false
  | .acas _ => false
  | .tagRead => false
  | .tagFill => false
  | .tagEmpty => false

/-- Permissions (13_memory_instr R228). -/
def AKindM.want : AKindM → Want
  | .load => { r := true }
  | .store => { w := true }
  | .atom _ _ _ => { r := true, w := true }
  | .acas _ => { r := true, w := true }
  | .ldfe => { r := true, w := true, tag := true }
  | .stfe => { w := true, tag := true }
  | .tagRead => { r := true, tag := true }
  | .tagFill => { w := true, tag := true }
  | .tagEmpty => { w := true, tag := true }

/-- The KIND of a fault record (11_memories R207). -/
def AKindM.fault : AKindM → FKind
  | .load => .read
  | .store => .write
  | .atom _ _ _ => .atomic
  | .acas _ => .atomic
  | .ldfe => .tag
  | .stfe => .tag
  | .tagRead => .tag
  | .tagFill => .tag
  | .tagEmpty => .tag

/-- The kind reads the word's data, so that a poisoned word refuses it (11_memories R202). -/
def AKindM.reads : AKindM → Bool
  | .load => true
  | .atom _ _ _ => true
  | .acas _ => true
  | .ldfe => true
  | .store => false
  | .stfe => false
  | .tagRead => false
  | .tagFill => false
  | .tagEmpty => false

/-- A cancellation drops the access while it is unserved (09_control R177). -/
def AKindM.dropped : AKindM → Bool
  | .load => true
  | .ldfe => true
  | .store => false
  | .atom _ _ _ => false
  | .acas _ => false
  | .stfe => false
  | .tagRead => false
  | .tagFill => false
  | .tagEmpty => false

/-! ### Program order (03_encoding R52, 12_ordering R210, R212) -/

def Access.die (a : Access) : Nat := a.core / 160
def Access.dkey (a : Access) : Nat := dieKey a.pkg a.die
def Access.performed (a : Access) : Bool := a.served.isSome

/-- Bytes of two accesses fall into one 8-byte word. -/
def Access.meets (a b : Access) : Bool := a.loc / 8 == b.loc / 8

/-- A store of the access has not reached its own die's view. -/
def State.pendingIn (s : State) (id pkg die : Nat) : Bool :=
  s.notices.any fun n => n.acc == id && n.pkg == pkg && n.die == die

/-- An earlier access of the thread stands in the way of a later load: an earlier read not yet served, or a value not yet
returned that carries a causal past; an earlier store to the same word that the die does not yet see. -/
def State.blocksLoad (s : State) (a b : Access) : Bool :=
  b.thr == a.thr && decide (b.id < a.id) && !b.unbacked &&
  (if b.kind.returns then (if b.kind == .load && !b.unc then !b.performed else !b.done)
   else b.meets a && (!b.performed || s.pendingIn b.id b.pkg b.die))

/-- Two accesses go to one channel or CXL port of the same package, and so over the crossbar to one slice (12_ordering R211). -/
def Access.sameSlice (a b : Access) : Bool :=
  let ch (l : Nat) : Option Nat :=
    let o := l % pkgSpan
    if o < 2 ^ 40 then some (bits o 16 8) else if isCxl l then some (512 + bits o 43 42) else none
  a.pkg == b.pkg && locPkg a.loc == locPkg b.loc && (ch a.loc).isSome && ch a.loc == ch b.loc

/-- An earlier access stands in the way of a later store, atomic or tag operation. A plain store to a word of another slice does not;
those to one slice arrive there in the order in which the thread sent them (22_links R330, assumption 81). -/
def State.blocksStore (s : State) (a b : Access) : Bool :=
  s.blocksLoad a b ||
  (b.thr == a.thr && decide (b.id < a.id) && !b.unbacked && !b.kind.returns && !b.performed &&
    (b.kind != .store || b.meets a || a.sameSlice b))

/-- An unperformed store whose clock comes before, to the same page with atomic-propagation: the home takes the stores of one die to the
page in the order of their clocks (12_ordering R212, R218). -/
def Access.blocksPage (a b : Access) : Bool :=
  match a.repl, b.repl with
  | some x, some y =>
    x.apr && y.apr && x.page == y.page && a.dkey == b.dkey && !b.performed &&
      (match b.vec with
       | none => false
       | some v => (match a.vec with | none => true | some u => decide (v.get b.die < u.get a.die)))
  | _, _ => false

def State.mayLoad (s : State) (a : Access) : Bool := !(s.accs.any (s.blocksLoad a))
def State.mayStore (s : State) (a : Access) : Bool := !(s.accs.any fun b => s.blocksStore a b || Access.blocksPage a b)

/-- Change one access. -/
def State.modAcc (s : State) (id : Nat) (f : Access → Access) : State :=
  { s with accs := s.accs.map fun a => if a.id == id then f a else a }

/-! ### Clocks (R212) -/

/-- The access carries a clock: not at a peer, nor where nothing backs it, nor to a replicated page without atomic-propagation. -/
def Access.clocked (a : Access) : Bool :=
  !a.peer && !a.unbacked && !isScratch a.loc && (match a.repl with | none => true | some r => r.apr)

/-- Give one access the issuing die's applied vector with its own entry advanced. -/
def State.stamp (s : State) (a : Access) : State :=
  if a.vec.isSome || !a.clocked then s
  else
    let d := s.die a.dkey
    let v' := d.vec.set a.die (d.vec.get a.die + 1)
    (s.modDie a.dkey fun d => { d with vec := v' }).modAcc a.id fun b => { b with vec := some v', deps := s.stillOut d.past }

/-- The kind takes its clock at its issue: a store or an atomic. An STFE, which may wait for its tag without end, takes it when it is
performed, and so does what its thread issues behind it (assumption 82). -/
def AKindM.clockedAtIssue : AKindM → Bool
  | .load => false
  | .store => true
  | .atom _ _ _ => true
  | .acas _ => true
  | .ldfe => false
  | .stfe => false
  | .tagRead => false
  | .tagFill => false
  | .tagEmpty => false

/-- A new access leaves its thread, with its clock (R212). -/
def State.addAcc (s : State) (a : Access) : State :=
  let s' : State := { s with accs := s.accs ++ [a] }
  if a.kind.clockedAtIssue && !(s.accs.any fun b => b.thr == a.thr && b.kind.waitsTag && !b.performed) then s'.stamp a else s'

/-- Clocks for an access and for every earlier plain store of its thread, in program order. -/
def State.stampUpTo (s : State) (a : Access) : State :=
  s.accs.foldl (fun s b =>
    if b.thr == a.thr && (b.id == a.id || (decide (b.id < a.id) && b.kind == .store)) then s.stamp b else s) s

/-- The clock of an access after stamping. -/
def State.vecOf (s : State) (id : Nat) : Option Vec := (s.accs.find? (·.id == id)).bind (·.vec)

/-- How the access's store reaches the dies. -/
def Access.mode (a : Access) (v : Option Vec) : StoreMode :=
  match v with
  | some v => { acc := a.id, launch := a.launchid, origin := some a.die, vec := v, deps := a.deps, repl := a.repl }
  | none => { acc := a.id, launch := a.launchid, repl := a.repl }

/-- What the last store to a word, and the fill that made it full, carry: entries 2w and 2w+1 of the table. -/
def State.pastOf (s : State) (w : Nat) : Vec := tget Vec.zero s.wordVec (2 * w)
def State.fillPast (s : State) (w : Nat) : Vec := tget Vec.zero s.wordVec (2 * w + 1)

def State.setPast (s : State) (w : Nat) (v : Option Vec) : State :=
  { s with wordVec := match v with | some v => tset s.wordVec (2 * w) v | none => tdel s.wordVec (2 * w) }

def State.setFillPast (s : State) (w : Nat) (v : Vec) : State := { s with wordVec := tset s.wordVec (2 * w + 1) v }

/-- The die's cached copy of a peer's word is given up. -/
def State.uncache (s : State) (dk loc : Nat) : State := { s with views := tdel s.views (viewKey dk (loc / 8)) }

/-- The die gives up its cached copies of all peer lines (R215). -/
def State.dropPeers (s : State) (dk p : Nat) : State :=
  { s with views := s.views.filter fun (k, _) => k / 2 ^ 60 != dk || locPkg (8 * (k % 2 ^ 60)) == p }

/-- The clock of an access whose value depends on `past` too: its own entry stays its number among the stores of its die. -/
def Access.joined (a : Access) (past v : Vec) : Vec := (past.join v).set a.die (v.get a.die)

/-- The data step of a store, atomic or STFE at its home: its clock if it has none yet, its place in home order, and it leaves. -/
def State.performData (s : State) (a : Access) (n : Nat) (d : W64) (past : Vec) : State :=
  let s := s.stampUpTo a
  let a := (s.accs.find? (·.id == a.id)).getD a
  let v := a.vec.map (a.joined past)
  let s := s.modAcc a.id fun b => { b with vec := v }
  let s := s.homeStore a.loc n d (a.mode v)
  let s := s.setPast (a.loc / 8) v
  if a.peer then s.uncache a.dkey a.loc else s

/-- Notices of a word that a die has still to install: what a value read at the home needs there before it returns (R212, R213). -/
def State.dueAt (s : State) (a : Access) : List Nat :=
  (s.notices.filter fun n => n.pkg == a.pkg && n.die == a.die && n.word == a.loc / 8).map (·.id)

/-! ### Tags (R233, R234) -/

/-- The oldest waiter of a kind at a word. -/
def State.waiter (s : State) (w : Nat) (k : AKindM) : Option Access :=
  (s.accs.filter fun a => a.kind == k && a.loc / 8 == w && a.arrived.isSome && !a.performed).foldl
    (fun m a => match m with
      | none => some a
      | some b => if a.arrived.getD 0 < b.arrived.getD 0 then some a else some b) none

/-- An LDFE takes the word: its data, the causal pasts of the value and of the fill, and the tag. -/
def State.take (s : State) (a : Access) : State :=
  let w := a.loc / 8
  let v := if isScratch a.loc then Vec.zero else (s.pastOf w).join (s.fillPast w)
  (s.modAcc a.id fun b => { b with served := some (readWord s.mem w), past := v, after := s.dueAt a, arrived := none }).setTag w false

/-- An STFE writes the word and fills it. -/
def State.put (s : State) (a : Access) : State :=
  let w := a.loc / 8
  let s := s.performData a 8 a.data Vec.zero
  let s := s.setFillPast w ((s.vecOf a.id).getD Vec.zero)
  (s.modAcc a.id fun b => { b with served := some 0, arrived := none }).setTag w true

/-- A word has become full: the oldest waiting LDFE is served in the same step. -/
def State.serveLdfe (s : State) (w : Nat) : State :=
  match s.waiter w .ldfe with
  | some a => s.take a
  | none => s

/-- A word has become empty: the oldest waiting STFE is admitted in the same step. -/
def State.admitStfe (s : State) (w : Nat) : State :=
  match s.waiter w .stfe with
  | some a => s.put a
  | none => s

/-- An LDFE or STFE reaches its home: performed at once when the tag allows it, else it waits in arrival order. -/
def State.arrive (s : State) (a : Access) : State :=
  let w := a.loc / 8
  if a.kind == .ldfe then
    if s.isFull w then (s.take a).admitStfe w
    else
      let (n, s) := s.fresh
      s.modAcc a.id fun b => { b with arrived := some n }
  else if s.isFull w then
    let (n, s) := s.fresh
    s.modAcc a.id fun b => { b with arrived := some n }
  else (s.put a).serveLdfe w

/-- FETAG.FILL and FETAG.EMPTY at the home. -/
def State.tagStep (s : State) (a : Access) : State :=
  let w := a.loc / 8
  if a.kind == .tagFill then
    if s.isFull w then s
    else ((s.setTag w true).setFillPast w (if isScratch a.loc then Vec.zero else (s.die a.dkey).vec)).serveLdfe w
  else if s.isFull w then (s.setTag w false).admitStfe w
  else s

/-! ### Atomics (R231, R232) -/

/-- The new value of an atomic, and the flags of FADD. -/
def atomNew (op : AOp) (w : W2) (sg : Bool) (org old b : Nat) : Nat × W32 :=
  let t : ITy := ⟨w2 w, sg⟩
  let n := t.w.bits
  match op with
  | .add => ((old + b) % 2 ^ n, 0)
  | .sub => ((old + 2 ^ n - b) % 2 ^ n, 0)
  | .and => (old &&& b, 0)
  | .or => (old ||| b, 0)
  | .xor => (old ^^^ b, 0)
  | .min => (if val t old ≤ val t b then old else b, 0)
  | .max => (if val t old ≤ val t b then b else old, 0)
  | .xchg => (b, 0)
  | .fadd => faddV .f32 .rne org old b

/-- An atomic on an old value: whether it stores, the new value, the flags. -/
def Access.update (a : Access) (old : Nat) : Bool × Nat × W32 :=
  match a.kind with
  | .atom op w sg =>
    let r := atomNew op w sg (originPay a.pc a.lane) old a.data.toNat
    (true, r.1, r.2)
  | .acas _ => (old == a.cmp.toNat, a.data.toNat, 0)
  | .load => (false, 0, 0)
  | .store => (false, 0, 0)
  | .ldfe => (false, 0, 0)
  | .stfe => (false, 0, 0)
  | .tagRead => (false, 0, 0)
  | .tagFill => (false, 0, 0)
  | .tagEmpty => (false, 0, 0)

/-- An atomic that stores nothing: the clock that it took at its issue goes to the dies with the word as it stands, and the die's cached
copy of a peer's word, older than what the atomic has read, is given up (R213). -/
def State.performNone (s : State) (a : Access) : State :=
  let s := match a.vec with
    | some v => s.homeWord (a.loc / 8) (readWord s.mem (a.loc / 8)) (a.mode (some v))
    | none => s
  if a.peer then s.uncache a.dkey a.loc else s

/-- The atomic's indivisible step at its home. -/
def State.performAtom (s : State) (a : Access) : State :=
  let w := a.loc / 8
  let old := wordPart (readWord s.mem w) (a.loc % 8) a.size
  let past := if a.clocked then s.pastOf w else Vec.zero
  let (st, new, fl) := a.update old.toNat
  let s := if st then s.performData a a.size (BitVec.ofNat 64 new) past else s.performNone a
  s.modAcc a.id fun b => { b with served := some old, flags := fl, past := past, after := s.dueAt a }

/-! ### Returns -/

/-- The x register words that a return writes, without those a forced debugger write has claimed (04_registers R86). -/
def Access.words (a : Access) (v : W64) : List (Nat × W32) :=
  match a.ret with
  | .x d t => (put (BitVec.ofNat 7 d) t v.toNat).filter fun p => !(a.dropLo && p.1 == d) && !(a.dropHi && p.1 == d + 1)
  | .k _ => []
  | .none => []

/-- A return reaches its thread. -/
def State.deliver (s : State) (a : Access) (v : W64) : State :=
  if a.cancelled then s
  else
    match a.ret with
    | .k d => if a.dropLo then s else s.modWg (a.thr / 2048) fun w => w.wk d (v.setWidth 32)
    | .x _ _ => s.modThr a.thr fun t => (t.wxs (a.words v)).raise a.flags
    | .none => s

/-- Accesses of a thread that it still waits for. -/
def State.loadsBack (s : State) (k : Nat) : Bool :=
  !(s.accs.any fun a => a.thr == k && a.kind.returns && !a.done && !a.cancelled)

/-- The acquire step of a thread's held fence, when its loads have returned. -/
def State.settleAcq (s : State) (k : Nat) : State :=
  let t := s.thr k
  match t.hold with
  | .acq sc =>
    if s.loadsBack k then
      let w := s.wg (k / 2048)
      let s := if sc == .pod then s.dropPeers w.dkey w.pkg else s
      s.endHold (k / 2048) (k % 2048)
    else s
  | _ => s

/-- An access is over: its return delivered or its store performed, and its notices installed in every die. -/
def State.retireAcc (s : State) (id : Nat) : State :=
  match s.accs.find? (·.id == id) with
  | none => s
  | some a =>
    if a.performed && (a.done || !a.kind.returns) && !(a.peer && !a.kind.returns) &&
        !(s.notices.any fun n => n.acc == id && n.pkg == a.pkg) then
      { s with accs := s.accs.filter (·.id != id) }
    else s

/-- Hand a served access's value to its thread; the word's acquire may end. -/
def State.finishReturn (s : State) (a : Access) (v : W64) : State :=
  let s := s.deliver a v
  let s := s.modAcc a.id fun b => { b with done := true }
  (s.retireAcc a.id).settleAcq a.thr

/-- The die sees everything that the value returned depends on (R212). -/
def State.covered (s : State) (a : Access) : Bool :=
  let d := (s.die a.dkey).covered a.die
  (match a.vec with
   | none => true
   | some v => d.covers v) && d.covers a.past && s.notices.all fun n => !a.after.contains n.id

/-! ### Releases (R214, R215) -/

/-- The dies within a scope: below `.pkg` a fence acts within the thread's own die only. -/
def diesIn (sc : Scope) (d : Nat) : List Nat :=
  match sc with
  | .pkg => [0, 1, 2, 3]
  | .pod => [0, 1, 2, 3]
  | .lane => [d]
  | .core => [d]
  | .quad => [d]
  | .die => [d]

/-- An access of the thread that a release still waits for. -/
def Access.owes (a : Access) (sc : Scope) : Bool :=
  if a.peer && !a.kind.returns then sc == .pod
  else if a.kind.returns then (if a.kind == .load && !a.unc then !a.performed else !a.done)
  else !a.performed

/-- A notice of the thread's causal past that a die within the scope has still to install: its own store, or a store that the die's view
holds already, by its clock or, without one, among those that the view's causal past names. -/
def State.owedNotice (s : State) (k dk d : Nat) (n : Notice) : Bool :=
  let v := (s.die dk).covered d
  (s.accs.any fun a => a.id == n.acc && a.thr == k) ||
  (match n.origin with
   | some o => decide (n.vec.get o ≤ v.get o)
   | none => (s.die dk).past.contains n.grp)

/-- The release step of a fence of thread `k` at a scope is complete (R215). -/
def State.relDone (s : State) (k : Nat) (sc : Scope) : Bool :=
  let w := s.wg (k / 2048)
  let d := w.core / 160
  s.accs.all (fun a => !(a.thr == k && a.owes sc)) &&
  s.notices.all (fun n => !(n.pkg == w.pkg && (diesIn sc d).contains n.die && s.owedNotice k w.dkey d n)) &&
  (sc != .pod || s.accs.all fun a => !(a.pkg == w.pkg && a.peer && a.performed && !a.kind.returns))

/-- The order's release step and place are behind the thread, so that its word may issue (R214). -/
def State.orderOk (s : State) (k : Nat) (o : MO) : Bool :=
  match o.o with
  | .rlx => true
  | .acq => true
  | .rel => s.relDone k o.sc
  | .ar => s.relDone k o.sc
  | .sc => (s.thr k).scPlaced

/-- After the word: the acquire step, or the second fence of `.sc`. -/
def State.afterOrder (s : State) (k : Nat) (o : MO) : State :=
  match o.o with
  | .rlx => s
  | .rel => s
  | .acq => (s.modThr k fun t => { t with hold := .acq o.sc }).settleAcq k
  | .ar => (s.modThr k fun t => { t with hold := .acq o.sc }).settleAcq k
  | .sc => s.modThr k fun t => { t with hold := .scPost o.sc }

/-- Threads that still need their place in the order of sc fences take a hold for it; the word waits. -/
def State.awaitPlace (s : State) (wk : Nat) (tids : List Nat) (o : MO) : State :=
  s.modTids wk tids fun t => if t.scPlaced then t else { t with hold := .scPre o.sc }

end Sys2Proof.Machine
end

