-- ==== Sys2Proof/Machine/Issuing.lean ====
section
/-! DEFINITION. How a thread's word accesses memory: its elements, the checks of 13_memory_instr R228, parking (11_memories R206),
the Drydown rules (15_counters R265, R267, R268), and the issue of each element. -/

namespace Sys2Proof.Machine

/-- One element that a word accesses for one thread. -/
structure Elem where
  kind : AKindM
  addr : W64
  size : Nat
  data : W64 := 0
  cmp : W64 := 0
  ret : Ret := .none
  deriving DecidableEq, Repr, Inhabited

/-! ### Checks -/

/-- What the checks of a thread's elements find. -/
inductive Chk where
  | ok (l : List (Elem × Place))
  | refuse (detail : Nat) (addr : W64)
  | park (va : Nat) (kind : FKind)
  deriving DecidableEq, Repr, Inhabited

/-- Two addresses lie in one aperture and, for VAULT, in one allocation. -/
def sameAlloc (a b : W64) : Bool :=
  a.toNat / 2 ^ 48 == b.toNat / 2 ^ 48 && (a.toNat / 2 ^ 48 != 0xFFFD || a.toNat / 2 ^ 22 == b.toNat / 2 ^ 22)

/-- The lower of two refusals by address. -/
def lowerRef (a b : Option (Nat × W64)) : Option (Nat × W64) :=
  match a, b with
  | some x, some y => if y.2 < x.2 then some y else some x
  | some x, none => some x
  | none, y => y

/-- Results of the checks so far: a refusal, an absent page, and the places found. -/
structure Found where
  ref : Option (Nat × W64) := none
  park : Option (Nat × FKind) := none
  ok : List (Elem × Place) := []
  deriving DecidableEq, Repr, Inhabited

/-- Resolve the elements of a thread in order. -/
def State.findAll (s : State) (wk tid : Nat) (first : W64) : List Elem → Found → Found × State
  | [], f => (f, s)
  | e :: r, f =>
    if e.addr.toNat % e.size ≠ 0 then s.findAll wk tid first r { f with ref := lowerRef f.ref (some (0x07, e.addr)) }
    else if !sameAlloc first e.addr then s.findAll wk tid first r { f with ref := lowerRef f.ref (some (0x01, e.addr)) }
    else
      match s.resolve wk tid e.addr e.size e.kind.want with
      | (.refuse d a, s) => s.findAll wk tid first r { f with ref := lowerRef f.ref (some (d, a)) }
      | (.absent va, s) =>
        s.findAll wk tid first r { f with park := match f.park with | some p => some p | none => some (va, e.kind.fault) }
      | (.ok p, s) => s.findAll wk tid first r { f with ok := f.ok ++ [(e, p)] }

/-- Where the element's bytes are read: the die's own copy for a load, the home for an atomic. -/
def Elem.readAt (e : Elem) (p : Place) (die : Nat) : Nat := if e.kind == .load then p.seen die else p.loc

/-- The thread's own earlier store of the whole word is on its way and rewrites it before a later read (03_encoding R52). -/
def State.heals (s : State) (k loc : Nat) : Bool :=
  s.accs.any fun a => a.thr == k && a.size == 8 && a.loc / 8 == loc / 8 &&
    ((a.kind == .store && (!a.performed || s.pendingIn a.id a.pkg a.die)) || (a.kind == .stfe && !a.performed))

/-- The lowest poisoned byte that an element of thread `k` would read (11_memories R202). -/
def State.poisonOf (s : State) (k die : Nat) (e : Elem) (p : Place) : Option (Nat × W64) :=
  let l := e.readAt p die
  if e.kind.reads && !p.void && s.isPoisoned l e.size && !s.heals k p.loc then some (0x05, e.addr) else none

/-- All checks of one thread's elements. -/
def State.check (s : State) (wk tid : Nat) (l : List Elem) : Chk × State :=
  match s.findAll wk tid (l.headD default).addr l {} with
  | (f, s) =>
    let die := (s.wg wk).core / 160
    match f.ref, f.park with
    | some (d, a), _ => (.refuse d a, s)
    | none, some (va, k) => (.park va k, s)
    | none, none =>
      (match f.ok.foldl (fun r (e, p) => lowerRef r (s.poisonOf (thrKey wk tid) die e p)) none with
       | some (d, a) => (.refuse d a, s)
       | none => (.ok f.ok, s))

/-! ### Drydown (R265 to R268) -/

/-- The mixing function of R265. -/
def mix64 (z : W64) : W64 :=
  let z := (z ^^^ (z >>> 30)) * 0xBF58476D1CE4E5B9#64
  let z := (z ^^^ (z >>> 27)) * 0x94D049BB133111EB#64
  z ^^^ (z >>> 31)

/-- The contribution of a store to a digest (R265). -/
def digestOf (a : W64) (data : List Byte) : W64 :=
  (data.foldl (fun (acc : W64 × W64) b => (acc.1 + mix64 (mix64 acc.2 ^^^ b.setWidth 64), acc.2 + 1)) (0, a)).1

/-- A VAULT address of the issuing gang in its Q = 0xFF form (R265). -/
def ownForm (a : W64) (p : Place) : W64 :=
  if p.own && a.toNat / 2 ^ 48 = 0xFFFD then BitVec.ofNat 64 (vaultAp + 0xFF000000 + a.toNat % 2 ^ 22) else a

/-- A store of a workgroup of a `.replayable` kernel enters its digest. -/
def State.digest (s : State) (wk : Nat) (a : W64) (data : List Byte) : State :=
  if (s.launchOf (s.wg wk)).replayable then s.modWg wk fun w => { w with digest := w.digest + digestOf a data } else s

/-- The workgroup belongs to a Drydown re-execution. -/
def State.redoing (s : State) (wk : Nat) : Bool := (s.gang (s.wg wk).gang).check.isSome

/-- An address in SCRATCH or STACK. -/
def inScratchStack (a : W64) : Bool := a.toNat / 2 ^ 48 == 0xFFFF || a.toNat / 2 ^ 48 == 0xFFFE

/-- The element makes its workgroup ineligible (R267). -/
def State.spoils (s : State) (wk : Nat) (e : Elem) (p : Place) : Bool :=
  let par := (s.launchOf (s.wg wk)).param.toNat
  match e.kind with
  | .load =>
    !(p.own || (p.glob && p.sealed) ||
      (p.glob && decide (par ≤ e.addr.toNat) && decide (e.addr.toNat + e.size ≤ par + 256)))
  | .store => false
  | .atom _ _ _ => true
  | .acas _ => true
  | .ldfe => true
  | .stfe => true
  | .tagRead => true
  | .tagFill => true
  | .tagEmpty => true

def State.spoil (s : State) (wk : Nat) : State := s.modWg wk fun w => { w with inelig := true }

/-! ### Watches (10_trap_state R185) -/

/-- DBGCTL bits that watch the kind: loads, stores. -/
def AKindM.watchBits : AKindM → Bool × Bool
  | .load => (true, false)
  | .store => (false, true)
  | .atom _ _ _ => (true, true)
  | .acas _ => (true, true)
  | .ldfe => (true, false)
  | .stfe => (false, true)
  | .tagRead => (false, false)
  | .tagFill => (false, false)
  | .tagEmpty => (false, false)

/-- The lowest byte of an element that a watch hits. -/
def State.watchHit (s : State) (wk : Nat) (e : Elem) : Option W64 :=
  let w := s.wg wk
  let c := s.core w.ckey
  let (ld, st) := e.kind.watchBits
  let a := e.addr.toNat
  let ctl := c.inForce 0x18
  let lo := max a (c.inForce 0x1D).toNat
  if (s.launchOf w).debug && ((ld && ctl.getLsbD 2) || (st && ctl.getLsbD 3)) &&
      (a / 2 ^ 48 == 0 || a / 2 ^ 48 == 0xFFFF) && decide (lo ≤ (c.inForce 0x1E).toNat) && decide (lo < a + e.size) then
    some (BitVec.ofNat 64 lo)
  else none

/-! ### Issue of elements -/

/-- The access record of an element. -/
def State.newAccess (s : State) (c : Site) (tid instr : Nat) (e : Elem) (p : Place) : Access × State :=
  let (id, s) := s.fresh
  let t := s.thr (thrKey c.wg tid)
  ({ id := id, instr := instr, thr := thrKey c.wg tid, pkg := c.pkg, core := c.core, launchid := (s.wg c.wg).launchid,
     kind := e.kind, addr := e.addr, loc := p.loc, size := e.size, data := e.data, cmp := e.cmp, ret := e.ret, pc := c.pc,
     lane := t.lane, repl := p.repl, unc := p.unc, cancelled := !t.live, unbacked := p.void, peer := p.peer }, s)

/-- A scratchpad access is performed in the core as it issues (R211); one that its tag keeps waiting stays behind. -/
def State.inScratch (s : State) (a : Access) : State :=
  match a.kind with
  | .load => s.deliver a (wordPart (readWord s.mem (a.loc / 8)) (a.loc % 8) a.size)
  | .store => s.homeStore a.loc a.size a.data {}
  | .atom _ _ _ =>
    let s := (s.addAcc a).performAtom a
    let b := (s.accs.find? (·.id == a.id)).getD a
    ({ s with accs := s.accs.filter (·.id != a.id) }).deliver b (b.served.getD 0)
  | .acas _ =>
    let s := (s.addAcc a).performAtom a
    let b := (s.accs.find? (·.id == a.id)).getD a
    ({ s with accs := s.accs.filter (·.id != a.id) }).deliver b (b.served.getD 0)
  | .ldfe =>
    let s := (s.addAcc a).arrive a
    match s.accs.find? (·.id == a.id) with
    | some b => (match b.served with | some v => s.finishReturn b v | none => s)
    | none => s
  | .stfe => ((s.addAcc a).arrive a).retireAcc a.id
  | .tagRead => s.deliver a (if s.isFull (a.loc / 8) then 1 else 0)
  | .tagFill => s.tagStep a
  | .tagEmpty => s.tagStep a

/-- A store that a re-execution only digests (R268). -/
def State.onlyDigest (s : State) (wk : Nat) (e : Elem) : Bool :=
  s.redoing wk && e.kind == .store && !inScratchStack e.addr

/-- Issue one element of a thread. -/
def State.issueElem (s : State) (c : Site) (tid instr : Nat) (e : Elem) (p : Place) : State :=
  let s := if e.kind == .store then s.digest c.wg (ownForm e.addr p) (natLe e.size e.data.toNat) else s
  let s := if s.spoils c.wg e p then s.spoil c.wg else s
  let s := match s.watchHit c.wg e with
    | some a => s.modThr (thrKey c.wg tid) fun t => { t with watch := match t.watch with | some b => some (if a < b then a else b) | none => some a }
    | none => s
  if s.onlyDigest c.wg e then s
  else
    let (a, s) := s.newAccess c tid instr e p
    if isScratch p.loc then s.inScratch a else s.addAcc a

/-- Accesses of the thread to package memory that a scratchpad write may not overtake: the causal past of the write must
stand in the die's view, which the core's threads share (R212). An LDFE or STFE that waits for its tag is not among them. -/
def State.unsettled (s : State) (k : Nat) : Bool :=
  s.accs.any fun a => a.thr == k && !a.kind.waitsTag && !a.unbacked &&
    (if a.kind == .load && !a.unc then !a.performed
     else if a.kind.returns then !a.done
     else !a.performed || s.pendingIn a.id a.pkg a.die)

/-- The thread has an access waiting for the tag of the word. -/
def State.ownWaiter (s : State) (k loc : Nat) : Bool :=
  s.accs.any fun a => a.thr == k && a.kind.waitsTag && !a.performed && a.loc / 8 == loc / 8

/-- An element may not issue yet: it is a scratchpad access that the thread's own earlier accesses keep back. -/
def State.keptBack (s : State) (k : Nat) (e : Elem) (p : Place) : Bool :=
  isScratch p.loc && (s.ownWaiter k p.loc || (e.kind != .load && e.kind != .tagRead && s.unsettled k))

/-- A word that nothing backs: the thread stands at it until the error response (R199, R205). -/
def State.unbackedElem (s : State) (c : Site) (tid : Nat) (e : Elem) (p : Place) : State :=
  let (a, s) := s.newAccess c tid 0 e p
  (s.addAcc { a with ret := .none, cancelled := false }).modThr (thrKey c.wg tid) fun t => { t with hold := .peer a.id }

/-- A thread parks at a word (R206); the range is reported (R207). -/
def State.parkAt (s : State) (c : Site) (tid va : Nat) (kind : FKind) (keep drops : Bool) (fr : Frag) : State :=
  let w := s.wg c.wg
  let s := s.modThr (thrKey c.wg tid) fun t =>
    { t with park := some { va := va, kind := kind, keep := keep, drops := drops, word := c.word, frag := fr } }
  (s.count w.ckey 8 1).faultAt w.pkg w.core (s.ctx w.ctx).fn w.launchid va kind

/-- Issue a thread's checked elements. -/
def State.issueAll (s : State) (c : Site) (tid : Nat) (l : List (Elem × Place)) : State :=
  let (instr, s) := s.fresh
  l.foldl (fun s (e, p) => s.issueElem c tid instr e p) s

/-- One thread of a memory word: what its checks found becomes its fate. -/
def State.memThread (s : State) (c : Site) (fr : Frag) (tid : Nat) (els : List Elem) (o : MO) (ck : Chk) (half : Bool) :
    State × Fin :=
  match ck with
  | .refuse d a => (s, .trap { cause := .access, detail := d, half := half, pc := c.pc, addr := a })
  | .park va k =>
    let keep := els.any fun e => !e.kind.dropped && e.kind != .tagRead
    (s.parkAt c tid va k keep (els.any fun e => e.kind.dropped) fr, .stay)
  | .ok l =>
    match l.find? fun (_, p) => p.void with
    | some (e, p) => (s.unbackedElem c tid e p, .held)
    | none => ((s.issueAll c tid l).afterOrder (thrKey c.wg tid) o, .next)

/-- The checks of every executing thread, in lane order. -/
def State.checkAll (s : State) (c : Site) : List (Env × List Elem) → List (Env × List Elem × Chk) × State
  | [] => ([], s)
  | (e, l) :: r =>
    match s.check c.wg e.tid l with
    | (k, s) =>
      match s.checkAll c r with
      | (ks, s) => ((e, l, k) :: ks, s)

/-- Some thread's access must wait before it issues. -/
def State.heldElems (s : State) (c : Site) (ks : List (Env × List Elem × Chk)) : Bool :=
  ks.any fun (e, _, k) =>
    match k with
    | .ok l => l.any fun (x, p) => !p.void && s.keptBack (thrKey c.wg e.tid) x p
    | .refuse _ _ => false
    | .park _ _ => false

/-- The order's first fence holds the word: either it waits, or threads wait for their place. -/
def State.fenceFirst (s : State) (c : Site) (tids : List Nat) (o : MO) : Option Ran :=
  if o.o == .sc && tids.any fun t => !(s.thr (thrKey c.wg t)).scPlaced then
    some (.done (s.awaitPlace c.wg tids o) (tids.map fun t => (t, .held)))
  else if tids.all fun t => s.orderOk (thrKey c.wg t) o then none
  else some .held

/-- The body of a memory word whose elements, for the lowest guard-active thread or another, are `plan`. -/
def memBody (plan : Bool → Env → List Elem) (o : MO) : Body := fun s c fr who =>
  match s.fenceFirst c (who.map fun e => e.tid) o with
  | some r => r
  | none =>
    let lead := (fr.headD default).tid
    match s.checkAll c (who.map fun e => (e, plan (e.tid == lead) e)) with
    | (ks, s1) =>
      if s1.heldElems c ks then .held
      else
        let r := ks.foldl (fun (acc : State × List (Nat × Fin)) (e, l, k) =>
          match acc.1.memThread c fr e.tid l o k false with
          | (s, f) => (s, acc.2 ++ [(e.tid, f)])) (s1, [])
        .done r.1 r.2

end Sys2Proof.Machine
end

