-- ==== Sys2Proof/Machine/Planes.lean ====
section
/-! DEFINITION. Group 3: tile descriptors, the plane queue, products and accumulators (08_planes R140 to R160), and CBLOAD
(21_tables R326, R327). -/

namespace Sys2Proof.Machine

/-! ### Tile descriptors (R142, R143) -/

def tdKind (d : W64) : Nat := bits d.toNat 2 0
def tdBase (d : W64) : Nat := 256 * bits d.toNat 12 3
def tdW (d : W64) : Nat := bits d.toNat 17 13
def tdFmt (d : W64) : Nat := bits d.toNat 21 18
def tdRows (d : W64) : Nat := bits d.toNat 28 22 + 1
def tdCols (d : W64) : Nat := bits d.toNat 35 29 + 1
def tdSteps (d : W64) : Nat := bits d.toNat 40 36 + 1
def tdRole (d : W64) : Nat := bits d.toNat 41 41

/-- Bits of an element of a row-major format. -/
def fmtBits (f : Nat) : Nat :=
  match f with
  | 0 => 8
  | 1 => 16
  | 2 => 32
  | 3 => 32
  | 4 => 16
  | 5 => 16
  | 6 => 8
  | 7 => 8
  | _ => 4

/-- Bytes of one step of a tile. -/
def tdStepSize (d : W64) : Nat :=
  match tdKind d with
  | 1 => tdW d * 2048
  | 2 => (tdW d + 1) * 2048
  | 3 => 4096
  | _ => 128 * 128 * fmtBits (tdFmt d) / 8

/-- A descriptor value is valid in an allocation of `size` bytes. -/
def tdOk (d : W64) (size : Nat) : Bool :=
  bits d.toNat 63 42 == 0 && decide (tdBase d + tdSteps d * tdStepSize d ≤ size) &&
  (match tdKind d with
   | 1 => tdBase d % 2048 == 0 && decide (2 ≤ tdW d) && decide (tdW d ≤ 16) && tdFmt d == 0
   | 2 => tdBase d % 2048 == 0 && decide (4 ≤ tdW d) && decide (tdW d ≤ 16) && tdFmt d == 0
   | 3 => tdBase d % 4096 == 0 && tdW d == 0 && tdFmt d == 0 && tdRole d == 1
   | 4 => tdW d == 0 && decide (tdFmt d ≤ 8) && tdRole d == 0 && tdSteps d == 1
   | _ => false)

/-! ### Tiles in scratchpad (R145) -/

/-- The place of a tile's step in the scratchpad of its workgroup's core. -/
def State.tileAt (s : State) (wk : Nat) (d : W64) (i : Nat) : Nat :=
  let w := s.wg wk
  locScratch w.pkg w.core (w.scrBase + tdBase d + i * tdStepSize d)

/-- Bit `k` of tile row `t` in plane `j` of the step at `l`. -/
def planeBit (m : List Host.Cell) (l j t k : Nat) : Bool := (readByte m (l + 2048 * j + 16 * t + k / 8)).getLsbD (k % 8)

/-- Element (t, k) of a plane tile or of the mantissas of an aligned tile. -/
def planeElem (m : List Host.Cell) (l w t k : Nat) : Int :=
  sint w ((List.range w).foldl (fun v j => v + (if planeBit m l j t k then 2 ^ j else 0)) 0)

/-- Row `t` of the step at `l`. -/
def planeRow (m : List Host.Cell) (l w t : Nat) : List Int := (List.range 128).map (planeElem m l w t)

/-- The weights of a codebook index (02_numbers R45). -/
def decodeCb (cb : Tbl (BitVec 16)) (idx : Nat) : List Int :=
  let row := (tget 0 cb (bits idx 15 8)).toNat
  (List.range 8).map fun j =>
    let mag : Int := 2 * (bits row (2 * j + 1) (2 * j) : Int) + 1
    let neg := if j < 7 then bits idx (j + 1) (j + 1) == 1
      else ((List.range 7).map fun b => bits idx (b + 1) (b + 1)).foldl (· + ·) 0 % 2 == 1
    if neg then -mag else mag

/-- Output column `n` of a codebook index tile. -/
def cbRow (m : List Host.Cell) (cb : Tbl (BitVec 16)) (l n : Nat) : List Int :=
  (List.range 16).flatMap fun g => decodeCb cb (leNat (readBytes m (l + 32 * n + 2 * g) 2))

/-- The code of element (row, col) of a row-major tile. -/
def rowMajor (m : List Host.Cell) (l fmt row col : Nat) : Nat :=
  let e := 128 * row + col
  match fmtBits fmt with
  | 4 => (readByte m (l + e / 2)).toNat / 2 ^ (4 * (e % 2)) % 16
  | b => leNat (readBytes m (l + e * (b / 8)) (b / 8))

/-- The float format of a row-major tile. -/
def tileFmt (f : Nat) : NFmt :=
  match f with
  | 3 => .f32
  | 4 => .f16
  | 5 => .bf16
  | 6 => .e4m3
  | 7 => .e5m2
  | _ => .e2m1

/-- Position (t, k) of a tile in its row-major source, when the source declares it (R151, R152). -/
def srcPos (role rows cols t k : Nat) : Option (Nat × Nat) :=
  let r := if role = 0 then t else k
  let c := if role = 0 then k else t
  if r < rows && c < cols then some (r, c) else none

/-- Sixteen bytes of a plane's row: bit `j` of every element. -/
def planeBytes (row : List Int) (j : Nat) : List Byte :=
  (List.range 16).map fun b => BitVec.ofNat 8 ((List.range 8).foldl (fun v i =>
    v + (if (row.getD (8 * b + i) 0) / (2 ^ j : Nat) % 2 = 0 then 0 else 2 ^ i)) 0)

/-- The planes of 128 rows. -/
def planesOf (w : Nat) (rows : List (List Int)) : List Byte :=
  (List.range w).flatMap fun j => rows.flatMap fun r => planeBytes r j

/-- Words that a write of `n` bytes from `l` rewrites whole lose their poison (11_memories R202). -/
def State.heal (s : State) (l n : Nat) : State :=
  { s with poison := s.poison.filter fun w => !(decide (l ≤ 8 * w) && decide (8 * w + 8 ≤ l + n)) }

/-- Later operations of the queue read what an earlier one writes: no older value of those words is left to them. -/
def State.forget (s : State) (l n : Nat) : State :=
  let ck := coreKey (locPkg l) ((l % pkgSpan - 2 ^ 42) / 2 ^ 18)
  let out (o : PlaneOp) : PlaneOp :=
    { o with old := o.old.filter fun p => !(decide (l ≤ 8 * p.1) && decide (8 * p.1 < l + n)) }
  [ck, ck + 1].foldl (fun s k =>
    if (s.core k).pq.isEmpty then s else s.modCore k fun c => { c with pq := c.pq.map out }) s

/-- Write bytes of scratchpad for a plane-queue operation. -/
def State.scratchWrite (s : State) (l : Nat) (b : List Byte) : State :=
  let s := s.forget l b.length
  { s with mem := writeBytes s.mem l b }.heal l b.length

/-- Memory as an operation reads it: each word that a store overwrote since its issue is whole before or whole after (R149); which,
nothing decides (assumption 2). `t` is the first draw. -/
def readsAs (m : List Host.Cell) (t : Nat) : List (Nat × W64) → List Host.Cell
  | [] => m
  | (w, v) :: r =>
    let m := if Config.freeRace t then writeWord m w v else m
    readsAs m (t + 1) r

/-- The memory that an operation reads, with its draws taken. -/
def State.opMem (s : State) (o : PlaneOp) : List Host.Cell × State :=
  (readsAs s.mem s.tick o.old, { s with tick := s.tick + o.old.length })

/-! ### Conversions (R151, R152) -/

/-- PLANE: the values of a step and the flags raised. -/
def planeVals (m : List Host.Cell) (l : Nat) (dst src : W64) : List (List Int) × W32 :=
  let w := tdW dst
  let el (t k : Nat) : Int × W32 :=
    match srcPos (tdRole dst) (tdRows src) (tdCols src) t k with
    | none => (0, 0)
    | some (r, c) =>
      let v := sint (fmtBits (tdFmt src)) (rowMajor m l (tdFmt src) r c)
      let q := satInt v w true
      (sint w q.1, q.2)
  let rows := (List.range 128).map fun t => (List.range 128).map (el t)
  (rows.map fun r => r.map (·.1), rows.foldl (fun f r => r.foldl (fun f p => f ||| p.2) f) 0)

/-- ALIGN: mantissas, exponents and flags. -/
def alignVals (m : List Host.Cell) (l : Nat) (dst src : W64) : List (List Int) × List Int × W32 :=
  let el (t k : Nat) : FV :=
    match srcPos (tdRole dst) (tdRows src) (tdCols src) t k with
    | none => .fin false 0 0
    | some (r, c) => unpack (tileFmt (tdFmt src)) (rowMajor m l (tdFmt src) r c)
  let blocks := (List.range 128).map fun t => alignBlock (tdW dst) ((List.range 128).map (el t))
  (blocks.map fun b => b.2.1, blocks.map fun b => b.1, blocks.foldl (fun f b => f ||| b.2.2) 0)

/-- Raise flags in the performing thread, when it still lives. -/
def State.raiseIn (s : State) (k : Nat) (f : W32) : State :=
  s.modThr k fun t => if t.live then t.raise f else t

/-- Flags of a conversion: in the performing thread, or in the STATUS of the LOOPNEST that issued it (14_engines R256). -/
def State.raiseFor (s : State) (o : PlaneOp) (f : W32) : State :=
  match o.loop with
  | none => s.raiseIn o.thr f
  | some id => { s with cmds := s.cmds.map fun c => if c.id == id then { c with flags := c.flags ||| f } else c }

/-- PLANE at its execution. -/
def State.runPlane (s : State) (o : PlaneOp) : State :=
  let (m, s) := s.opMem o
  let (rows, f) := planeVals m (s.tileAt o.wg o.tb 0) o.ta o.tb
  (s.scratchWrite (s.tileAt o.wg o.ta o.idx) (planesOf (tdW o.ta) rows)).raiseFor o f

/-- ALIGN at its execution: mantissas, then the exponents, then zeros. -/
def State.runAlign (s : State) (o : PlaneOp) : State :=
  let (m, s) := s.opMem o
  let (rows, es, f) := alignVals m (s.tileAt o.wg o.tb 0) o.ta o.tb
  (s.scratchWrite (s.tileAt o.wg o.ta o.idx)
    (planesOf (tdW o.ta) rows ++ es.flatMap (fun e => natLe 2 (umod 16 e)) ++ List.replicate 1792 0)).raiseFor o f

/-! ### Products (02_numbers R44, R153, R154) -/

/-- Saturation at 48 bits. -/
def sat48 (v : Int) : Int × Bool :=
  if (2 ^ 47 : Nat) - 1 < v then ((2 ^ 47 : Nat) - 1, true)
  else if v < -((2 ^ 47 : Nat) : Int) then (-((2 ^ 47 : Nat) : Int), true)
  else (v, false)

/-- The exact sum of products of two rows. -/
def dot (a b : List Int) : Int := (a.zip b).foldl (fun s p => s + p.1 * p.2) 0

def accKey (n r c : Nat) : Nat := 16384 * n + 128 * r + c

/-- Element of an accumulator. -/
def Core.accAt (k : Core) (n r c : Nat) : Int := tget 0 k.acc (accKey n r c)

/-- Replace accumulator `n`, listing its nonzero elements. -/
def accSet (m : Tbl Int) (n : Nat) (f : Nat → Nat → Int) : Tbl Int :=
  let el := (List.range 128).flatMap fun r => (List.range 128).filterMap fun c =>
    let v := f r c
    if v = 0 then none else some (accKey n r c, v)
  m.filter (fun p => p.1 / 16384 < n) ++ el ++ m.filter (fun p => n < p.1 / 16384)

/-- One K-step into accumulator `n`: rows of A and of B. -/
def Core.mmaStep (k : Core) (n : Nat) (as bs : List (List Int)) : Core :=
  let sums := as.zipIdx.map fun (a, r) => bs.zipIdx.map fun (b, c) => sat48 (k.accAt n r c + dot a b)
  let at' (r c : Nat) : Int × Bool := (sums.getD r []).getD c (0, false)
  { k with acc := accSet k.acc n fun r c => (at' r c).1,
           aov := if sums.any fun l => l.any (·.2) then k.aov ||| (1#8 <<< n) else k.aov }

/-- A read of accumulator `n` corrects a single-bit error in it (04_registers R82). -/
def Core.readAcc (k : Core) (n : Nat) : Core :=
  if k.oneAcc.getLsbD n then { k.correct with oneAcc := k.oneAcc &&& ~~~(1#8 <<< n) } else k

/-- Steps `i` to `i + n - 1` of a product half: A is read from memory `m`, B from `mb`. B and the codebook come from the leader, the
performing thread's workgroup, and B is read once for both halves (R154). -/
def State.mmaSteps (s : State) (m mb : List Host.Cell) (o : PlaneOp) (i : Nat) : Nat → State
  | 0 => s
  | n + 1 =>
    let lead := o.thr / 2048
    let la := s.tileAt o.wg o.ta i
    let lb := s.tileAt lead o.tb i
    let as := (List.range 128).map (planeRow m la (tdW o.ta))
    let bs := (List.range 128).map fun c =>
      if o.kind == .mmac then cbRow mb (s.core (s.wg lead).ckey).cb lb c else planeRow mb lb (tdW o.tb) c
    (s.modCore (s.wg o.wg).ckey fun k => (k.readAcc o.acc).mmaStep o.acc as bs).mmaSteps m mb o (i + 1) n

/-- A-cycles of a product (R148). -/
def mmaCycles (o : PlaneOp) (n : Nat) : Nat := n * tdW o.ta * (if o.kind == .mmac then 4 else tdW o.tb)

/-- The next `n` steps of a product half. -/
def State.runSteps (s : State) (m mb : List Host.Cell) (o : PlaneOp) (n : Nat) : State :=
  (s.mmaSteps m mb o o.step n).count (s.wg o.wg).ckey 4 (mmaCycles o n)

/-- The next `n` steps of a product: of a plain one, or of a leader's half and then its follower's. -/
def State.runProduct (s : State) (o : PlaneOp) (follower : Option PlaneOp) (n : Nat) : State :=
  let (m, s) := s.opMem o
  let s := s.runSteps m m o n
  match follower with
  | none => s
  | some f =>
    let (mf, s) := s.opMem f
    s.runSteps mf m f n

/-! ### Clearing and storing (R155, R157) -/

/-- Accumulators of a mask zeroed, with their AOV and poison bits. -/
def Core.accz (k : Core) (mask : BitVec 8) : Core :=
  { k with acc := k.acc.filter (fun p => !mask.getLsbD (p.1 / 16384)), aov := k.aov &&& ~~~mask, apoi := k.apoi &&& ~~~mask,
           oneAcc := k.oneAcc &&& ~~~mask }

/-- The words that ACCST stores. -/
def accWords (k : Core) (n f c : Nat) : List W64 :=
  (List.range (128 * c)).map fun i => BitVec.ofInt 64 (k.accAt n (f + i / 128) (i % 128))

/-- Store words from a place up, for an access of the thread; the issuing die sees them at once (R149, R158). -/
def State.storeWords (s : State) (acc : Nat) (launch : W32) (dk loc : Nat) : List W64 → State
  | [] => s
  | v :: r =>
    let s := s.homeStore loc 8 v { acc := acc, launch := launch }
    let s := s.notices.foldl (fun s n => if n.acc == acc && dieKey n.pkg n.die == dk && n.word == loc / 8 then s.install n else s) s
    s.storeWords acc launch dk (loc + 8) r

/-- ACCST at its execution. The stores are the performing thread's: they enter its digest, and its releases wait for them. Later operations
of the queue read what it stores. -/
def State.runAccst (s : State) (o : PlaneOp) : State :=
  let w := s.wg o.wg
  let k := s.core w.ckey
  let ws := accWords k o.acc o.row o.cnt
  let s := s.modCore w.ckey fun k => k.readAcc o.acc
  let s := if k.apoi.getLsbD o.acc then s.wgEvent o.wg 0x05 (o.thr % 2048) o.pc (BitVec.ofNat 64 o.acc) else s
  match s.resolve o.wg (o.thr % 2048) o.addr (8 * ws.length) { w := true } with
  | (.ok p, s) =>
    let s := s.digest o.wg (ownForm o.addr p) (ws.flatMap fun v => natLe 8 v.toNat)
    if s.redoing o.wg && !inScratchStack o.addr then s
    else
      let (id, s) := s.fresh
      let a : Access := { id := id, instr := id, thr := o.thr, pkg := w.pkg, core := w.core, launchid := w.launchid,
                          kind := .store, addr := o.addr, loc := p.loc, size := 8, served := some 0 }
      let s := (({ s with accs := s.accs ++ [a] } : State).storeWords id w.launchid w.dkey p.loc ws).retireAcc id
      if isScratch p.loc then s.forget p.loc (8 * ws.length) else s
  | (_, s) => s

/-- CBLOAD at its execution (R327): 256 rows. -/
def State.runCbload (s : State) (o : PlaneOp) : State :=
  let b := o.data.getD []
  s.modCore (s.wg o.wg).ckey fun k => { k with cb := (List.range 256).map fun r => (r, BitVec.ofNat 16 (fld b (2 * r) 2)) }

/-- The most A-cycles that an operation without an exact time takes (R148, R327). -/
def PlaneOp.most (o : PlaneOp) : Nat :=
  match o.kind with
  | .plane => 128
  | .align => 256
  | .cbload => 16
  | .accz => 16
  | .accst => 8 * o.cnt
  | .mma => 1
  | .mmac => 1

/-- PLANEBUSY of an operation without an exact time: at least one A-cycle, within its bound (15_counters R261). -/
def State.busyFor (s : State) (o : PlaneOp) : State :=
  { s with tick := s.tick + 1 }.count (s.wg o.wg).ckey 4 (1 + Config.freeTime s.tick % o.most)

/-- Execute one operation, with its follower's half when it is paired. -/
def State.runOp (s : State) (o : PlaneOp) (follower : Option PlaneOp) : State :=
  match o.kind with
  | .plane => (s.runPlane o).busyFor o
  | .align => (s.runAlign o).busyFor o
  | .cbload => (s.runCbload o).busyFor o
  | .mma => s.runProduct o follower (tdSteps o.ta - o.step)
  | .mmac => s.runProduct o follower (tdSteps o.ta - o.step)
  | .accz =>
    let one (s : State) (o : PlaneOp) : State := (s.modCore (s.wg o.wg).ckey fun k => k.accz o.mask).busyFor o
    (match follower with
     | none => one s o
     | some f => one (one s o) f)
  | .accst => (s.runAccst o).busyFor o

/-! ### The plane queue (R146, R150) -/

/-- Put an operation in its place: behind everything, but ahead of follower halves of the same I-cycle. -/
def enqueue (q : List PlaneOp) (o : PlaneOp) : List PlaneOp :=
  if o.role = 2 then q ++ [o]
  else
    let tail := (q.reverse.takeWhile fun x => x.role == 2 && x.cyc == o.cyc).length
    q.take (q.length - tail) ++ [o] ++ q.drop (q.length - tail)

def State.push (s : State) (ck : Nat) (o : PlaneOp) : State := s.modCore ck fun k => { k with pq := enqueue k.pq o }

/-- The queue of a core has a free entry. -/
def State.pqFree (s : State) (ck : Nat) : Bool := decide ((s.core ck).pq.length < 16)

/-- The plane kernel's word may run (R140). -/
def planeOk (s : State) (c : Site) : Bool := (s.launchOf (s.wg c.wg)).plane

/-- TILE in every executing thread (R150). -/
def tileTrap (c : Site) (who : Frag) (reason slot : Nat) : List (Nat × Fin) :=
  who.map fun e => (e.tid, .trap { cause := .tile, pc := c.pc, addr := BitVec.ofNat 64 (256 * reason + slot) })

/-- The follower of a leader core: a resident member of the same gang on the next core of the quad (R154). -/
def State.follower (s : State) (c : Site) : Option Nat :=
  if c.core % 2 = 1 then none
  else
    let g := (s.wg c.wg).gang
    (s.gang g).members.find? fun v => (s.wg v).core == c.core + 1 && (s.wg v).pkg == c.pkg

/-- The operation a word would queue, or the TILE reason and slot of R150. -/
inductive Tile where
  | op (o : PlaneOp)
  | bad (reason slot : Nat)

/-- A word of the plane queue: checked at issue, then one entry, and one on the follower when paired. -/
def queueBody (pair : Bool) (check : State → Site → Env → Tile) : Body := fun s c _ who =>
  match who with
  | [] => .done s []
  | e :: _ =>
    match check s c e with
    | .bad r sl => .done s (tileTrap c who r sl)
    | .op o =>
      let fl := s.follower c
      let ck := coreKey c.pkg c.core
      if pair && fl.isNone then .done s (tileTrap c who 5 o.idx)
      else if !s.pqFree ck || (pair && !s.pqFree (ck + 1)) then .held
      else
        let (id, s) := s.fresh
        let o := { o with id := id, thr := thrKey c.wg e.tid, wg := c.wg, cyc := s.clockOf c.pkg, pc := c.pc,
                          role := if pair then 1 else 0 }
        let s := s.push ck o
        let s := match pair, fl with
          | true, some v => s.push (ck + 1) { o with wg := v, role := 2 }
          | _, _ => s
        .done s (who.map fun e => (e.tid, .next))

/-- Slot `n` of the issuing core. -/
def State.slot (s : State) (c : Site) (n : BitVec 4) : W64 := (s.core (coreKey c.pkg c.core)).td.getD n.toNat 0

/-- TDESC (R144). -/
def tdescBody (slot : BitVec 4) (a : XReg) : Body := fun s c _ who =>
  match who with
  | [] => .done s []
  | e :: _ =>
    let v := e.xy a.toNat
    let put (v : W64) : Ran :=
      .done (s.modCore (coreKey c.pkg c.core) fun k => { k with td := lset k.td slot.toNat v })
        (who.map fun e => (e.tid, .next))
    if tdKind v = 0 then put 0
    else if tdOk v (s.wg c.wg).scrSize then put v
    else .done s (tileTrap c who 4 slot.toNat)

def execTdesc (slot : BitVec 4) (a : XReg) (g : Guard) : State → Host.Outcome State Fault Refusal :=
  runWord (.tdesc slot a g) g (rdPlain (.tdesc slot a g)) planeOk (tdescBody slot a)

/-- The checks of PLANE and ALIGN on their descriptors. -/
def convTile (k : PKind) (dst src : BitVec 4) (i : Nat) (dk lo hi : Nat) (d r : W64) : Tile :=
  if tdKind d ≠ dk then .bad 1 dst.toNat
  else if !(tdKind r == 4 && decide (lo ≤ tdFmt r) && decide (tdFmt r ≤ hi)) then .bad 1 src.toNat
  else if tdSteps d ≤ i then .bad 3 dst.toNat
  else .op { id := 0, kind := k, ta := d, tb := r, idx := i }

def convCheck (k : PKind) (dst src : BitVec 4) (i : Nat) (dk lo hi : Nat) (s : State) (c : Site) (_ : Env) : Tile :=
  convTile k dst src i dk lo hi (s.slot c dst) (s.slot c src)

def execPlane (dst src : BitVec 4) (i : BitVec 5) (g : Guard) : State → Host.Outcome State Fault Refusal :=
  runWord (.plane dst src i g) g (rdPlain (.plane dst src i g)) planeOk
    (queueBody false (convCheck .plane dst src i.toNat 1 0 2))

def execAlign (dst src : BitVec 4) (i : BitVec 5) (g : Guard) : State → Host.Outcome State Fault Refusal :=
  runWord (.align dst src i g) g (rdPlain (.align dst src i g)) planeOk
    (queueBody false (convCheck .align dst src i.toNat 2 3 8))

/-- The checks of MMA and MMAC on their descriptors; the operation's index names the A slot for reason 5. -/
def mmaTile (k : PKind) (acc : AReg) (ta tb : BitVec 4) (a b : W64) : Tile :=
  let tile (d : W64) : Bool := tdKind d == 1 || tdKind d == 2
  if !tile a then .bad 1 ta.toNat
  else if !(if k == .mmac then tdKind b == 3 else tile b) then .bad 1 tb.toNat
  else if tdRole a ≠ 0 then .bad 2 ta.toNat
  else if tdRole b ≠ 1 then .bad 2 tb.toNat
  else if tdSteps a ≠ tdSteps b then .bad 3 ta.toNat
  else .op { id := 0, kind := k, acc := acc.toNat, ta := a, tb := b, idx := ta.toNat }

def mmaCheck (k : PKind) (acc : AReg) (ta tb : BitVec 4) (s : State) (c : Site) (_ : Env) : Tile :=
  mmaTile k acc ta tb (s.slot c ta) (s.slot c tb)

def execMma (acc : AReg) (ta tb : BitVec 4) (pair : Bool) (g : Guard) : State → Host.Outcome State Fault Refusal :=
  runWord (.mma acc ta tb pair g) g (rdPlain (.mma acc ta tb pair g)) planeOk (queueBody pair (mmaCheck .mma acc ta tb))

def execMmac (acc : AReg) (ta tb : BitVec 4) (pair : Bool) (g : Guard) : State → Host.Outcome State Fault Refusal :=
  runWord (.mmac acc ta tb pair g) g (rdPlain (.mmac acc ta tb pair g)) planeOk (queueBody pair (mmaCheck .mmac acc ta tb))

def execAccz (mask : BitVec 8) (pair : Bool) (g : Guard) : State → Host.Outcome State Fault Refusal :=
  runWord (.accz mask pair g) g (rdPlain (.accz mask pair g)) planeOk
    (queueBody pair fun _ _ _ => .op { id := 0, kind := .accz, mask := mask })

/-- The base of an M-form with offset scale `n`. -/
def baseOff (e : Env) (m : MAddr) (n : Nat) : W64 := BitVec.ofInt 64 ((readBase e m.a).toNat + (n : Int) * m.off.toInt)

/-- The checks of ACCST (R150 reason 6, R157). -/
def accstCheck (acc : AReg) (m : MAddr) (b : XReg) (s : State) (c : Site) (e : Env) : Tile :=
  let a := baseOff e m 8
  let v := (e.xr b.toNat).toNat
  let f := bits v 6 0
  let n := bits v 14 8 + 1
  let ap := a.toNat / 2 ^ 48
  let writable : Bool := match (s.resolve c.wg e.tid a (1024 * n) { w := true }).1 with
    | .ok p => p.own
    | .refuse _ _ => false
    | .absent _ => false
  if a.toNat % 8 ≠ 0 || !(ap == 0xFFFF || ap == 0xFFFD) || 128 < f + n || !writable then .bad 6 0
  else .op { id := 0, kind := .accst, acc := acc.toNat, addr := a, row := f, cnt := n }

def execAccst (acc : AReg) (m : MAddr) (b : XReg) : State → Host.Outcome State Fault Refusal :=
  runWord (.accst acc m b) m.g (rdPlain (.accst acc m b)) planeOk (queueBody false (accstCheck acc m b))

/-! ### CBLOAD (21_tables R327) -/

/-- The source of a CBLOAD, in two granules. -/
def cbElems (m : MAddr) (e : Env) : List Elem :=
  let a := baseOff e m 512
  [{ kind := .load, addr := a, size := 256 }, { kind := .load, addr := a + 256, size := 256 }]

/-- CBLOAD: checked and translated at issue; the performing thread issues nothing more until the bytes have returned. -/
def cbloadBody (m : MAddr) : Body := fun s c fr who =>
  match who with
  | [] => .done s []
  | e :: rest =>
    let els := cbElems m e
    let a := baseOff e m 512
    let others := rest.map fun x => (x.tid, Fin.next)
    let k := thrKey c.wg e.tid
    if a.toNat % 512 ≠ 0 then
      .done s ((e.tid, .trap { cause := .access, detail := 0x07, pc := c.pc, addr := a }) :: others)
    else
      match s.findAll c.wg e.tid a els {} with
      | (f, s) =>
        match f.ref, f.park with
        | some (d, x), _ => .done s ((e.tid, .trap { cause := .access, detail := d, pc := c.pc, addr := x }) :: others)
        | none, some (va, kd) => .done (s.parkAt c e.tid va kd false false fr) ((e.tid, .stay) :: others)
        | none, none =>
          (match f.ok.find? fun (_, p) => p.void with
           | some (x, p) => .done (s.unbackedElem c e.tid x p) ((e.tid, .held) :: others)
           | none =>
             let ck := coreKey c.pkg c.core
             if !s.pqFree ck then .held
             else
               let (id, s) := s.fresh
               let s := if f.ok.any fun (x, p) => s.spoils c.wg x p then s.spoil c.wg else s
               let o : PlaneOp := { id := id, kind := .cbload, thr := k, wg := c.wg, cyc := s.clockOf c.pkg, pc := c.pc, addr := a,
                                    locs := f.ok.map fun (_, p) => (p.seen (c.core / 160), p.unc) }
               .done ((s.push ck o).modThr k fun t => { t with hold := .cb id })
                 ((e.tid, .next) :: others))

def execCbload (m : MAddr) : State → Host.Outcome State Fault Refusal :=
  runWord (.cbload m) m.g (rdPlain (.cbload m)) planeOk (cbloadBody m)

/-- Bytes as a die reads them: scratchpad directly, package memory through its view, a peer's or an uncached page's at their home. -/
def State.seenBytes (s : State) (p core loc : Nat) (unc : Bool) (n : Nat) : List Byte :=
  (List.range n).map fun i => (s.readSeen p core { loc := loc + i, unc := unc } 1).setWidth 8

/-- Everything of the thread's own that a load must wait for (03_encoding R52). -/
def State.quiet (s : State) (k : Nat) : Bool :=
  s.accs.all fun a => a.thr != k || a.unbacked ||
    (if a.kind == .load && !a.unc then a.performed
     else if a.kind.returns then a.done
     else a.performed && !s.pendingIn a.id a.pkg a.die)

/-- Find a queued operation by its number. -/
def State.planeOp (s : State) (id : Nat) : Option (Nat × PlaneOp) :=
  s.cores.findSome? fun (k, c) => (c.pq.find? fun o => o.id == id && o.role != 2).map fun o => (k, o)

/-- Threads of a core that waited for an operation stop waiting for it. -/
def State.wakePlane (s : State) (ck id : Nat) : State :=
  (s.wgsOn ck).foldl (fun s wk => (s.tidsOf wk).foldl (fun s i =>
    match (s.thr (thrKey wk i)).hold with
    | .plane ids =>
      let l := ids.filter (· != id)
      if l.isEmpty then s.endHold wk i else s.modThr (thrKey wk i) fun t => { t with hold := .plane l }
    | _ => s) s) s

/-- CBLOAD_DATA_RETURN (R327): the bytes return; a poisoned one makes the thread trap, and the entry goes. -/
def execCbloadDataReturn (id : Nat) (s : State) : Host.Outcome State Fault Refusal :=
  match s.planeOp id with
  | none => .next s
  | some (ck, o) =>
    if o.kind != .cbload || o.data.isSome || !s.quiet o.thr then .next s
    else
      let w := s.wg o.wg
      let free (s : State) : State := if (s.thr o.thr).hold == .cb id then s.endHold (o.thr / 2048) (o.thr % 2048) else s
      if o.locs.any fun l => s.isPoisoned l.1 256 then
        let s := (s.modCore ck fun c => { c with pq := c.pq.filter (·.id != id) }).wakePlane ck id
        let addr := (o.locs.zipIdx).findSome? fun ((l, _), i) =>
          (List.range 256).findSome? fun b =>
            if s.isPoisoned (l + b) 1 then some (o.addr + BitVec.ofNat 64 (256 * i + b)) else none
        let was := (s.thr o.thr).hold == .cb id
        let s := free s
        .next (if was && (s.thr o.thr).live then
            s.trap o.wg [(o.thr % 2048, { cause := .access, detail := 0x05, pc := o.pc, addr := addr.getD o.addr })]
          else s)
      else
        let b := o.locs.flatMap fun l => s.seenBytes w.pkg w.core l.1 l.2 256
        .next (free (s.modCore ck fun c => { c with pq := c.pq.map fun x => if x.id == id then { x with data := some b } else x }))

/-! ### Reading accumulators, waiting (R156, R158) -/

/-- An operation writes a given accumulator. -/
def PlaneOp.writesAcc (o : PlaneOp) (n : Nat) : Bool :=
  match o.kind with
  | .mma => o.acc == n
  | .mmac => o.acc == n
  | .accz => o.mask.getLsbD n
  | .plane => false
  | .align => false
  | .cbload => false
  | .accst => false

/-- One thread's ACCRD: the status word, an element, or REGECC for an element of a poisoned accumulator. -/
def accrdOne (k : Core) (d : XReg) (n : Nat) (c : Site) (b lane : Nat) : Thread → Thread × Fin := fun t =>
  if bits b 15 15 = 1 then (t.wxs (put64 d (256 * k.apoi.toNat + k.aov.toNat)), .next)
  else if k.apoi.getLsbD n then
    (t, .trap { cause := .regecc, pc := c.pc, addr := BitVec.ofNat 64 (0xC0 + n + 256 * lane) })
  else (t.wxs (put64 d (umod 64 (k.accAt n (bits b 6 0) (bits b 14 8)))), .next)

def accrdBody (d : XReg) (n : Nat) (b : Opnd) (sm : Option SMod) : Body := fun s c fr who =>
  let ck := coreKey c.pkg c.core
  let k := s.core ck
  let rd (e : Env) : Nat := readB .w32 fr e sm b
  let busy (e : Env) : Bool := if bits (rd e) 15 15 = 1 then !k.pq.isEmpty else k.pq.any fun o => o.writesAcc n
  if who.any busy then .held
  else
    let one (e : Env) (t : Thread) : Thread × Fin := accrdOne k d n c (rd e) e.lane t
    let s1 := if who.any fun e => bits (rd e) 15 15 = 0 then s.modCore ck fun k => k.readAcc n else s
    .done (who.foldl (fun s e => s.modThr (thrKey c.wg e.tid) fun t => (one e t).1) s1)
      (who.map fun e => (e.tid, (one e (s.thr (thrKey c.wg e.tid))).2))

def execAccrd (d : XReg) (acc : AReg) (b : Opnd) (sm : Option SMod) (g : Guard) : State → Host.Outcome State Fault Refusal :=
  runWord (.accrd d acc b sm g) g (rdWord (.accrd d acc b sm g) sm (opndX .w32 b)) planeOk (accrdBody d acc.toNat b sm)

/-- MMAWAIT: the thread issues nothing until the operations named have retired. -/
def mmawaitBody (mask : BitVec 8) : Body := fun s c _ who =>
  let q := (s.core (coreKey c.pkg c.core)).pq.filter fun o =>
    mask == 0 || (List.range 8).any fun n => mask.getLsbD n && o.writesAcc n
  let ids := q.map fun o => o.id
  .done (who.foldl (fun s e => s.modThr (thrKey c.wg e.tid) fun t =>
      if ids.isEmpty then t else { t with hold := .plane ids }) s)
    (who.map fun e => (e.tid, .next))

def execMmawait (mask : BitVec 8) (g : Guard) : State → Host.Outcome State Fault Refusal :=
  runWord (.mmawait mask g) g (rdPlain (.mmawait mask g)) planeOk (mmawaitBody mask)

/-! ### Retirement (R148, R154, R160) -/

/-- The gang's plane class has not stopped for a pre-emption (21_tables R328). -/
def State.planeGoes (s : State) (o : PlaneOp) : Bool :=
  let g := s.gang (s.wg o.wg).gang
  g.st == .running && (match g.pre with | some p => !p.acks.contains .plane | none => true) && !s.restoring (s.wg o.wg).gang

/-- An operation of a LOOPNEST retires: its iteration's plane step is done (14_engines R256). -/
def State.loopPlaneDone (s : State) (o : PlaneOp) : State :=
  match o.loop with
  | none => s
  | some id =>
    { s with cmds := s.cmds.map fun c =>
        if c.id != id then c
        else { c with loop := c.loop.map fun l =>
          { l with its := l.its.map fun i => if i.plane == some o.id then { i with planeDone := true } else i } } }

/-- PLANE_OP_RETIRE: the head of a core's plane queue executes and retires, with both halves when it is paired. -/
def execPlaneOpRetire (pkg core : Nat) (s : State) : Host.Outcome State Fault Refusal :=
  let ck := coreKey pkg core
  let k := s.core ck
  match k.pq with
  | [] => .next s
  | o :: _ =>
    let done (s : State) : State :=
      ((s.modCore ck fun k => { k with pq := k.pq.drop 1 }).wakePlane ck o.id).loopPlaneDone o
    if (s.pkg pkg).paused || !s.planeGoes o || o.role = 2 || (o.kind == .cbload && o.data.isNone) then .next s
    else if o.role = 0 then .next (done (s.runOp o none))
    else
      match (s.core (ck + 1)).pq with
      | [] => .next s
      | f :: _ =>
        if f.id = o.id then
          let s := done (s.runOp o (some f))
          .next ((s.modCore (ck + 1) fun k => { k with pq := k.pq.drop 1 }).wakePlane (ck + 1) f.id)
        else .next s

end Sys2Proof.Machine
end

