-- ==== Sys2Proof/Machine/Float.lean ====
section
/-! DEFINITION. Group 1, the floating-point, conversion and scaling instructions (06_float R106 to R122). -/

namespace Sys2Proof.Machine

/-! ### Operands (R106) -/

/-- A float operand's encoding: a small immediate stands for its integer value, everything else is the low bits. -/
def readFl (f : NFmt) (e : Env) (o : Opnd) : Nat :=
  match o with
  | .imm v => (roundV f .rne (decide (v.toInt < 0)) v.toInt.natAbs 0 false).1
  | .x n => readOp .w32 e (.x n) % 2 ^ f.bits
  | .k n => readOp .w32 e (.k n) % 2 ^ f.bits
  | .zero => 0
  | .lane => readOp .w32 e .lane % 2 ^ f.bits
  | .gwidth => readOp .w32 e .gwidth % 2 ^ f.bits
  | .tid => readOp .w32 e .tid % 2 ^ f.bits

/-- Float operand B under a source modifier (07_lanes R123). -/
def readFlB (f : NFmt) (fr : Frag) (e : Env) (sm : Option SMod) (o : Opnd) : Nat :=
  match sm with
  | none => readFl f e o
  | some m =>
    match laneEnv fr (smodLane m e.lane) with
    | some x => readFl f x o
    | none => 0

/-- Flags come through a zero supplied for B alone: no other operand, with its format, is a signalling NaN (02_numbers R41). -/
def onlyZero (fr : Frag) (e : Env) (sm : Option SMod) (own : List (NFmt × Nat)) : Bool :=
  zeroB fr e sm && own.all fun (f, c) => !(unpack f c).isSnan

/-- The origin payload of the issuing thread (02_numbers R36). -/
def Env.org (e : Env) : Nat := originPay e.pc e.lane

/-- A float result: the encoding fills the low bits of D, zeros above. -/
def fltOut (d : XReg) (r : Nat × W32) : Out := { xs := put32 d r.1, fl := r.2 }

/-- A full word with float sources A and B. -/
def runFl3 (i : Instr) (o : F3) (f : NFmt) (k : Env → Nat → Nat → Out) (s : State) : Host.Outcome State Fault Refusal :=
  runLane i o.g o.sm (opndX .w32 o.b) (fun fr e => k e (readFl f e o.a) (readFlB f fr e o.sm o.b)) s

/-- A full word with one float source, whose flags all come through it. -/
def runFl2 (i : Instr) (o : F2) (f : NFmt) (k : Env → Nat → Out) (s : State) : Host.Outcome State Fault Refusal :=
  runLane i o.g o.sm (opndX .w32 o.b) (fun fr e => (k e (readFlB f fr e o.sm o.b)).unless (zeroB fr e o.sm)) s

/-! ### Arithmetic (R109 to R113) -/

def faddOut (d : XReg) (f : NFmt) (rm : RM) (e : Env) (a b : Nat) : Out := fltOut d (faddV f rm e.org a b)
def fsubOut (d : XReg) (f : NFmt) (rm : RM) (e : Env) (a b : Nat) : Out := fltOut d (fsubV f rm e.org a b)
def fmulOut (d : XReg) (f : NFmt) (rm : RM) (e : Env) (a b : Nat) : Out := fltOut d (fmulV f rm e.org a b)
def fminOut (d : XReg) (f : NFmt) (_ : Env) (a b : Nat) : Out := fltOut d (fminmaxV false f a b)
def fmaxOut (d : XReg) (f : NFmt) (_ : Env) (a b : Nat) : Out := fltOut d (fminmaxV true f a b)
def specOut (k : Spec) (d : XReg) (f : NFmt) (e : Env) (b : Nat) : Out := fltOut d (specV k f e.org b)
def frndOut (d : XReg) (f : NFmt) (rm : RM) (_ : Env) (b : Nat) : Out := fltOut d (frndV f rm b)

def execFadd (o : F3) (f : FFmt) (rm : RM) : State → Host.Outcome State Fault Refusal :=
  runFl3 (.fadd o f rm) o f.n (faddOut o.d f.n rm)

def execFsub (o : F3) (f : FFmt) (rm : RM) : State → Host.Outcome State Fault Refusal :=
  runFl3 (.fsub o f rm) o f.n (fsubOut o.d f.n rm)

def execFmul (o : F3) (f : FFmt) (rm : RM) : State → Host.Outcome State Fault Refusal :=
  runLane (.fmul o f rm) o.g o.sm (opndX .w32 o.b) fun fr e =>
    let a := readFl f.n e o.a
    (fmulOut o.d f.n rm e a (readFlB f.n fr e o.sm o.b)).unless (onlyZero fr e o.sm [(f.n, a)])

def execFfma (o : F3) (c : Opnd) (f : FFmt) (rm : RM) : State → Host.Outcome State Fault Refusal :=
  runLane (.ffma o c f rm) o.g o.sm (opndX .w32 o.b) fun fr e =>
    let a := readFl f.n e o.a
    let z := readFl f.n e c
    (fltOut o.d (ffmaV f.n rm e.org a (readFlB f.n fr e o.sm o.b) z)).unless (onlyZero fr e o.sm [(f.n, a), (f.n, z)])

def execFmin (o : F3) (f : FFmt) : State → Host.Outcome State Fault Refusal :=
  runFl3 (.fmin o f) o f.n (fminOut o.d f.n)

def execFmax (o : F3) (f : FFmt) : State → Host.Outcome State Fault Refusal :=
  runFl3 (.fmax o f) o f.n (fmaxOut o.d f.n)

def execFcmp (o : FP) (f : FFmt) (c : FCond) : State → Host.Outcome State Fault Refusal :=
  runLane (.fcmp o f c) o.g o.sm (opndX .w32 o.b) fun fr e =>
    let r := fcmpV c f.n (readFl f.n e o.a) (readFlB f.n fr e o.sm o.b)
    { qs := [(o.q, r.1)], fl := r.2 }

def execFclass (o : F2) (f : FFmt) : State → Host.Outcome State Fault Refusal :=
  runFl2 (.fclass o f) o f.n fun _ b => fltOut o.d (fclassV f.n b, 0)

/-- A source of FDOT2 (R110): two 16-bit values. A small immediate stands for its integer value in element 0, with +0 in element 1
(assumption 74). -/
def readPair (h : NFmt) (e : Env) (x : Opnd) : Nat :=
  match x with
  | .imm v => readFl h e (.imm v)
  | x => readOp .w32 e x

def execFdot2 (o : F3) (bf : Bool) (rm : RM) : State → Host.Outcome State Fault Refusal :=
  let h : NFmt := if bf then .bf16 else .f16
  runLane (.fdot2 o bf rm) o.g o.sm (opndX .w32 o.b) fun fr e =>
    let b := match o.sm with
      | none => readPair h e o.b
      | some m => (match laneEnv fr (smodLane m e.lane) with | some x => readPair h x o.b | none => 0)
    let a := readPair h e o.a
    let d := readOp .w32 e (.x o.d)
    (fltOut o.d (fdot2V h rm e.org d a b)).unless
      (onlyZero fr e o.sm [(.f32, d), (h, a % 2 ^ 16), (h, a / 2 ^ 16 % 2 ^ 16)])

/-! ### Special functions and rounding (R114, R115) -/

def execFrcp (o : F2) (f : FFmt) : State → Host.Outcome State Fault Refusal :=
  runFl2 (.frcp o f) o f.n (specOut .rcp o.d f.n)

def execFsqrt (o : F2) (f : FFmt) : State → Host.Outcome State Fault Refusal :=
  runFl2 (.fsqrt o f) o f.n (specOut .sqrt o.d f.n)

def execFrsq (o : F2) (f : FFmt) : State → Host.Outcome State Fault Refusal :=
  runFl2 (.frsq o f) o f.n (specOut .rsq o.d f.n)

def execFexp2 (o : F2) (f : FFmt) : State → Host.Outcome State Fault Refusal :=
  runFl2 (.fexp2 o f) o f.n (specOut .exp2 o.d f.n)

def execFlog2 (o : F2) (f : FFmt) : State → Host.Outcome State Fault Refusal :=
  runFl2 (.flog2 o f) o f.n (specOut .log2 o.d f.n)

def execFsint (o : F2) (f : FFmt) : State → Host.Outcome State Fault Refusal :=
  runFl2 (.fsint o f) o f.n (specOut .sint o.d f.n)

def execFcost (o : F2) (f : FFmt) : State → Host.Outcome State Fault Refusal :=
  runFl2 (.fcost o f) o f.n (specOut .cost o.d f.n)

def execFrnd (o : F2) (f : FFmt) (rm : RM) : State → Host.Outcome State Fault Refusal :=
  runFl2 (.frnd o f rm) o f.n (frndOut o.d f.n rm)

/-! ### Conversions (R116 to R120) -/

/-- A format is read as a raw code rather than as a number (R106). -/
def NFmtRaw (f : NFmt) : Bool :=
  match f with
  | .f32 => false
  | .f16 => false
  | .bf16 => false
  | .e4m3 => true
  | .e5m2 => true
  | .e2m1 => true
  | .e8m0 => true

def execFcvt (o : F2) (dst src : NFmt) (rm : RM) (sat : Bool) : State → Host.Outcome State Fault Refusal :=
  runLane (.fcvt o dst src rm sat) o.g o.sm (opndX .w32 o.b) fun fr e =>
    (fltOut o.d (fcvtV dst src rm sat
      (if NFmtRaw src then readB .w32 fr e o.sm o.b else readFlB src fr e o.sm o.b))).unless (zeroB fr e o.sm)

def execFcvti (o : F2) (t : ITy) (src : FFmt) (rm : RM) (sat : Bool) : State → Host.Outcome State Fault Refusal :=
  runFl2 (.fcvti o t src rm sat) o src.n fun _ b =>
    let r := fcvtiV t src.n rm sat b
    { xs := put o.d t r.1, fl := r.2 }

def execIcvtf (o : F2) (t : ITy) (dst : FFmt) (rm : RM) : State → Host.Outcome State Fault Refusal :=
  runF2 (.icvtf o t dst rm) o t.w fun b => fltOut o.d (icvtfV dst.n rm (val t b))

/-- FPACK (R120): insert a code into slot A of D; a saturated infinity becomes the largest finite code of its sign. -/
def fpackOut (d : XReg) (f : NFmt) (sat : Bool) (old a b : Nat) : Out :=
  let k := f.bits
  let s := a % (32 / k)
  let c := b % 2 ^ k
  let inf := sat && (unpack f c).isInf
  let c := if inf then f.signed (unpack f c).sign f.maxMag else c
  let keep := old % 2 ^ (s * k) + old / 2 ^ (s * k + k) * 2 ^ (s * k + k)
  { xs := put32 d (keep + c * 2 ^ (s * k)), fl := fwhen inf fSAT }

/-- FUNPK (R120): the code of slot A of B. -/
def funpkOut (d : XReg) (f : NFmt) (a b : Nat) : Out :=
  let k := f.bits
  let s := a % (32 / k)
  { xs := put32 d (b / 2 ^ (s * k) % 2 ^ k) }

def execFpack (o : F3) (t : NFmt) (sat : Bool) : State → Host.Outcome State Fault Refusal :=
  runF3b (.fpack o t sat) o .w32 fun e a b => fpackOut o.d t sat (readOp .w32 e (.x o.d)) a b

def execFunpk (o : F3) (t : NFmt) : State → Host.Outcome State Fault Refusal :=
  runF3 (.funpk o t) o .w32 (funpkOut o.d t)

/-! ### Scaling and keys (R121, R122) -/

/-- Operand A of FSCALEACC as a value. -/
def scaleA (e : Env) (ak : AKind) (a : Opnd) : FV :=
  match ak with
  | .i48 => let v := sint 48 (readOp .w64 e a); .fin (decide (v < 0)) v.natAbs 0
  | .i64 => let v := sint 64 (readOp .w64 e a); .fin (decide (v < 0)) v.natAbs 0
  | .f32 => unpack .f32 (readFl .f32 e a)

def execFscaleacc (o : F3) (f : FFmt) (rm : RM) (sat : Bool) (ak : AKind) (e8m0 : Bool) :
    State → Host.Outcome State Fault Refusal :=
  runLane (.fscaleacc o f rm sat ak e8m0) o.g o.sm (opndX .w32 o.b) fun fr e =>
    let b := readB .w32 fr e o.sm o.b
    let x : Int := if e8m0 then ((b % 256 : Nat) : Int) - 127 else sint 32 b
    fltOut o.d (fscaleV f.n rm sat e.org (unpack f.n (readFl f.n e (.x o.d))) (scaleA e ak o.a) x
      (e8m0 && b % 256 == 0xFF))

def execOrdkey (o : F2) (t : KeyTy) : State → Host.Outcome State Fault Refusal :=
  match t with
  | .int i => runF2 (.ordkey o (.int i)) o i.w fun b => { xs := put64 o.d (ordKey i.w.bits b false i.sg) }
  | .flt f => runFl2 (.ordkey o (.flt f)) o f.n fun _ b => { xs := put64 o.d (ordKey f.n.bits b true false) }

end Sys2Proof.Machine
end

