-- ==== Sys2Proof/Machine/Integer.lean ====
section
/-! DEFINITION. Group 0, the integer and address instructions (05_integer R89 to R105). For each, the result as a function of
its operands' bits, which its pair half shares, and the meaning of the full word. -/

namespace Sys2Proof.Machine

/-- An exact integer delivered into D with or without saturation (R92). -/
def intOut (d : XReg) (t : ITy) (sat : Bool) (v : Int) : Out :=
  let r := deliver v t.w.bits t.sg sat
  { xs := put d t r.1, fl := r.2 }

/-- Bits written into D by R90, with no flag. -/
def bitsOut (d : XReg) (t : ITy) (r : Nat) : Out := { xs := put d t r }

/-! ### Arithmetic (R92 to R95) -/

def addOut (d : XReg) (t : ITy) (sat : Bool) (a b : Nat) : Out := intOut d t sat (val t a + val t b)
def subOut (d : XReg) (t : ITy) (sat : Bool) (a b : Nat) : Out := intOut d t sat (val t a - val t b)
def mulOut (d : XReg) (t : ITy) (sat : Bool) (a b : Nat) : Out := intOut d t sat (val t a * val t b)
def minOut (d : XReg) (t : ITy) (a b : Nat) : Out := intOut d t false (if val t a ≤ val t b then val t a else val t b)
def maxOut (d : XReg) (t : ITy) (a b : Nat) : Out := intOut d t false (if val t a ≤ val t b then val t b else val t a)
def absOut (d : XReg) (w : Width) (sat : Bool) (b : Nat) : Out :=
  intOut d ⟨w, true⟩ sat ((val ⟨w, true⟩ b).natAbs : Int)

/-- The high w bits of the exact product (R92). -/
def mulhOut (d : XReg) (t : ITy) (a b : Nat) : Out :=
  bitsOut d t (wrapInt (val t a * val t b / (2 ^ t.w.bits : Nat)) t.w.bits)

/-- Quotient truncated toward zero; all ones and DZ for a zero divisor (R93). -/
def divOut (d : XReg) (t : ITy) (sat : Bool) (a b : Nat) : Out :=
  if val t b = 0 then { xs := put d t (2 ^ t.w.bits - 1), fl := fDZ }
  else intOut d t sat (Int.tdiv (val t a) (val t b))

/-- Remainder with the sign of the dividend; the dividend and DZ for a zero divisor (R93). -/
def remOut (d : XReg) (t : ITy) (a b : Nat) : Out :=
  if val t b = 0 then { xs := put d t a, fl := fDZ }
  else intOut d t false (val t a - val t b * Int.tdiv (val t a) (val t b))

/-- Carry of an unsigned sum, or borrow of an unsigned difference (R94). -/
def addcOut (d : XReg) (w : Width) (borrow : Bool) (a b : Nat) : Out :=
  { xs := put32 d (if borrow then (if a < b then 1 else 0) else (if 2 ^ w.bits ≤ a + b then 1 else 0)) }

def madOut (d : XReg) (t : ITy) (sat : Bool) (a b c : Nat) : Out := intOut d t sat (val t a * val t b + val t c)

def execAdd (o : F3) (t : ITy) (sat : Bool) : State → Host.Outcome State Fault Refusal :=
  runF3 (.add o t sat) o t.w (addOut o.d t sat)

def execSub (o : F3) (t : ITy) (sat : Bool) : State → Host.Outcome State Fault Refusal :=
  runF3 (.sub o t sat) o t.w (subOut o.d t sat)

def execAddc (o : F3) (w : W2) (borrow : Bool) : State → Host.Outcome State Fault Refusal :=
  runF3 (.addc o w borrow) o (w2 w) (addcOut o.d (w2 w) borrow)

def execMul (o : F3) (t : ITy) (sat : Bool) : State → Host.Outcome State Fault Refusal :=
  runF3 (.mul o t sat) o t.w (mulOut o.d t sat)

def execMulh (o : F3) (w : W2) (sg : Bool) : State → Host.Outcome State Fault Refusal :=
  runF3 (.mulh o w sg) o (w2 w) (mulhOut o.d ⟨w2 w, sg⟩)

def execMad (o : F3) (c : Opnd) (t : ITy) (sat : Bool) : State → Host.Outcome State Fault Refusal :=
  runLane (.mad o c t sat) o.g o.sm (opndX t.w o.b) fun fr e =>
    madOut o.d t sat (readOp t.w e o.a) (readB t.w fr e o.sm o.b) (readOp t.w e c)

/-- A division: DZ does not rise through a zero that a source lane supplies (02_numbers R41). -/
def runDiv (i : Instr) (o : F3) (w : Width) (f : Nat → Nat → Out) : State → Host.Outcome State Fault Refusal :=
  runLane i o.g o.sm (opndX w o.b) fun fr e => (f (readOp w e o.a) (readB w fr e o.sm o.b)).unless (zeroB fr e o.sm)

def execDiv (o : F3) (t : ITy) (sat : Bool) : State → Host.Outcome State Fault Refusal :=
  runDiv (.div o t sat) o t.w (divOut o.d t sat)

def execRem (o : F3) (t : ITy) : State → Host.Outcome State Fault Refusal :=
  runDiv (.rem o t) o t.w (remOut o.d t)

def execMin (o : F3) (t : ITy) : State → Host.Outcome State Fault Refusal :=
  runF3 (.min o t) o t.w (minOut o.d t)

def execMax (o : F3) (t : ITy) : State → Host.Outcome State Fault Refusal :=
  runF3 (.max o t) o t.w (maxOut o.d t)

def execAbs (o : F2) (w : Width) (sat : Bool) : State → Host.Outcome State Fault Refusal :=
  runF2 (.abs o w sat) o w (absOut o.d w sat)

/-! ### Logic and shifts (R96, R97) -/

def andOut (d : XReg) (t : ITy) (a b : Nat) : Out := bitsOut d t (a &&& b)
def orOut (d : XReg) (t : ITy) (a b : Nat) : Out := bitsOut d t (a ||| b)
def xorOut (d : XReg) (t : ITy) (a b : Nat) : Out := bitsOut d t (a ^^^ b)
def andnOut (d : XReg) (t : ITy) (a b : Nat) : Out := bitsOut d t (a &&& (2 ^ t.w.bits - 1 - b))

/-- SHL: an amount above 64 shifts every value of at most 64 bits out exactly as 64 does (R97). -/
def shlOut (d : XReg) (t : ITy) (sat : Bool) (a n : Nat) : Out := intOut d t sat (val t a * (2 ^ min n 64 : Nat))

def shrOut (d : XReg) (t : ITy) (a n : Nat) : Out := bitsOut d t (if t.w.bits ≤ n then 0 else a / 2 ^ n)

def sarOut (d : XReg) (t : ITy) (a n : Nat) : Out :=
  bitsOut d t (if t.w.bits ≤ n then (if sint t.w.bits a < 0 then 2 ^ t.w.bits - 1 else 0)
    else umod t.w.bits (sint t.w.bits a / (2 ^ n : Nat)))

def rolOut (d : XReg) (t : ITy) (a n : Nat) : Out :=
  let k := n % t.w.bits
  bitsOut d t ((a * 2 ^ k + a / 2 ^ (t.w.bits - k)) % 2 ^ t.w.bits)

def execAnd (o : F3) (t : ITy) : State → Host.Outcome State Fault Refusal :=
  runF3 (.and o t) o t.w (andOut o.d t)

def execOr (o : F3) (t : ITy) : State → Host.Outcome State Fault Refusal :=
  runF3 (.or o t) o t.w (orOut o.d t)

def execXor (o : F3) (t : ITy) : State → Host.Outcome State Fault Refusal :=
  runF3 (.xor o t) o t.w (xorOut o.d t)

def execAndn (o : F3) (t : ITy) : State → Host.Outcome State Fault Refusal :=
  runF3 (.andn o t) o t.w (andnOut o.d t)

def execShl (o : F3) (t : ITy) (sat : Bool) : State → Host.Outcome State Fault Refusal :=
  runF3b (.shl o t sat) o t.w fun _ => shlOut o.d t sat

def execShr (o : F3) (t : ITy) : State → Host.Outcome State Fault Refusal :=
  runF3b (.shr o t) o t.w fun _ => shrOut o.d t

def execSar (o : F3) (t : ITy) : State → Host.Outcome State Fault Refusal :=
  runF3b (.sar o t) o t.w fun _ => sarOut o.d t

def execRol (o : F3) (t : ITy) : State → Host.Outcome State Fault Refusal :=
  runF3b (.rol o t) o t.w fun _ => rolOut o.d t

/-! ### Bit counts (R98) -/

/-- The number of one bits among the low `w`. -/
def popcount (w n : Nat) : Nat := ((List.range w).filter fun i => n.testBit i).length

/-- Zero bits above the highest one bit. -/
def leadZeros (w n : Nat) : Nat := if n = 0 then w else w - 1 - Nat.log2 n

/-- Zero bits below the lowest one bit. -/
def trailZeros (w n : Nat) : Nat := ((List.range w).find? fun i => n.testBit i).getD w

/-- The `w` bits in reverse order. -/
def bitReverse (w n : Nat) : Nat :=
  (List.range w).foldl (fun r i => r + if n.testBit i then 2 ^ (w - 1 - i) else 0) 0

def popcOut (d : XReg) (w : Width) (b : Nat) : Out := { xs := put32 d (popcount w.bits b) }
def clzOut (d : XReg) (w : Width) (b : Nat) : Out := { xs := put32 d (leadZeros w.bits b) }
def ctzOut (d : XReg) (w : Width) (b : Nat) : Out := { xs := put32 d (trailZeros w.bits b) }
def brevOut (d : XReg) (t : ITy) (b : Nat) : Out := bitsOut d t (bitReverse t.w.bits b)

def execPopc (o : F2) (w : Width) : State → Host.Outcome State Fault Refusal :=
  runF2 (.popc o w) o w (popcOut o.d w)

def execClz (o : F2) (w : Width) : State → Host.Outcome State Fault Refusal :=
  runF2 (.clz o w) o w (clzOut o.d w)

def execCtz (o : F2) (w : Width) : State → Host.Outcome State Fault Refusal :=
  runF2 (.ctz o w) o w (ctzOut o.d w)

def execBrev (o : F2) (t : ITy) : State → Host.Outcome State Fault Refusal :=
  runF2 (.brev o t) o t.w (brevOut o.d t)

/-! ### Bit fields, selection, comparison (R99 to R101) -/

/-- BFX: position and length in B[6:0] and B[14:8]. -/
def bfxOut (d : XReg) (t : ITy) (a b : Nat) : Out :=
  let pos := bits b 6 0
  let m := min (bits b 14 8) t.w.bits
  let f := umod m (val t a / (2 ^ pos : Nat))
  bitsOut d t (umod t.w.bits (if t.sg && 1 ≤ m then sint m f else (f : Int)))

/-- BFI: the field goes into the old D. -/
def bfiOut (d : XReg) (t : ITy) (old a b : Nat) : Out :=
  let w := t.w.bits
  let pos := bits b 6 0
  let m := min (bits b 14 8) w
  let mask := (2 ^ m - 1) * 2 ^ pos % 2 ^ w
  bitsOut d t ((old &&& (2 ^ w - 1 - mask)) ||| (a * 2 ^ pos % 2 ^ w &&& mask))

/-- The conditions of CMP on values. -/
def icond (c : ICond) (a b : Int) : Bool :=
  match c with
  | .eq => decide (a = b)
  | .ne => decide (a ≠ b)
  | .lt => decide (a < b)
  | .le => decide (a ≤ b)
  | .gt => decide (b < a)
  | .ge => decide (b ≤ a)

/-- A selecting predicate holds (R100, R128). -/
def Env.sel (e : Env) (p : PSrc) : Bool := e.qr p.q != p.neg

def execBfx (o : F3) (t : ITy) : State → Host.Outcome State Fault Refusal :=
  runF3b (.bfx o t) o t.w fun _ => bfxOut o.d t

def execBfi (o : F3) (t : ITy) : State → Host.Outcome State Fault Refusal :=
  runF3b (.bfi o t) o t.w fun e => bfiOut o.d t (readOp t.w e (.x o.d))

def execSel (o : F3) (t : ITy) (p : PSrc) : State → Host.Outcome State Fault Refusal :=
  runLane (.sel o t p) o.g o.sm (opndX t.w o.b) fun fr e =>
    bitsOut o.d t (if e.sel p then readOp t.w e o.a else readB t.w fr e o.sm o.b)

def execCmp (o : FP) (t : ITy) (c : ICond) : State → Host.Outcome State Fault Refusal :=
  runFP (.cmp o t c) o t.w fun a b => (icond c (val t a) (val t b), 0)

/-! ### Moves, constants and addresses (R102 to R105) -/

/-- Write a k register with the value of the lowest guard-active lane (04_registers R77), when the word is performed in it. Every later
reader, of another issue group too, reads the new value at once (assumption 76). -/
def uniformBody (n : KReg) (f : Frag → Env → Nat) : Body := fun s c fr who =>
  let s := match who.find? fun e => e.lane == (fr.headD default).lane with
    | none => s
    | some e => s.modWg c.wg fun w => w.wk n.toNat (BitVec.ofNat 32 (f fr e))
  .done s (who.map fun e => (e.tid, .next))

def execMov (d : Dst) (b : Opnd) (sm : Option SMod) (g : Guard) (t : ITy) : State → Host.Outcome State Fault Refusal :=
  let i : Instr := .mov d b sm g t
  let v : Frag → Env → Nat := fun fr e => readB t.w fr e sm b
  match d with
  | .x n => runLane i g sm (opndX t.w b) fun fr e => bitsOut n t (v fr e)
  | .k n => runWord i g (rdWord i sm (opndX t.w b)) always (uniformBody n v)

def execMovi (d : Dst) (g : Guard) (v : W32) : State → Host.Outcome State Fault Refusal :=
  let i : Instr := .movi d g v
  match d with
  | .x n => runLane i g none [] fun _ _ => { xs := put32 n v.toNat }
  | .k n => runWord i g (rdPlain i) always (uniformBody n fun _ _ => v.toNat)

def execMoviI64 (d : XReg) (g : Guard) (v : BitVec 33) : State → Host.Outcome State Fault Refusal :=
  runLane (.moviI64 d g v) g none [] fun _ _ => { xs := put64 d (umod 64 v.toInt) }

/-- The address of LEA: base, scaled offset, scaled extended index, modulo 2^64 (R104). -/
def leaAddr (e : Env) (m : MAddr) (b : Opnd) (t : ITy) : Nat :=
  umod 64 (((readBase e m.a).toNat : Int) + (t.w.bytes : Int) * m.off.toInt +
    (t.w.bytes : Int) * val ⟨.w32, t.sg⟩ (readOp .w32 e b))

def execLea (d : XReg) (m : MAddr) (b : Opnd) (t : ITy) : State → Host.Outcome State Fault Refusal :=
  runLane (.lea d m b t) m.g none [] fun _ e => { xs := put64 d (leaAddr e m b t) }

def execAddi (d : XReg) (a : Opnd) (g : Guard) (v : BitVec 33) : State → Host.Outcome State Fault Refusal :=
  runLane (.addi d a g v) g none [] fun _ e => { xs := put32 d (umod 32 ((readOp .w32 e a : Int) + v.toInt)) }

end Sys2Proof.Machine
end

