-- ==== Sys2Proof/Machine/Lanes.lean ====
section
/-! DEFINITION. Group 2: permutation, votes, lane combinations, recurrence scan and the forwarding chain (07_lanes R123 to
R139). -/

namespace Sys2Proof.Machine

/-! ### Segments -/

/-- Segment size of a group-2 code (R125): 0 is the whole group. -/
def segSize (g : Seg) : Nat := if g.toNat = 0 then Config.gwidth else 2 ^ g.toNat

/-- First lane of a lane's segment. -/
def segBase (sz i : Nat) : Nat := i - i % sz

/-- A lane's value of operand A under R123: zero where no guard-active lane stands. -/
def readLane (w : Width) (fr : Frag) (j : Nat) (o : Opnd) : Nat :=
  match laneEnv fr j with
  | some f => readOp w f o
  | none => 0

/-! ### Permutation (R126, R127) -/

/-- The source lane of PERM, when there is one. -/
def permLane (n : Nat) : Option Nat := if n < Config.gwidth then some n else none

/-- The source lane of SHUFX. -/
def shufLane (m : ShMode) (sz i n : Nat) : Option Nat :=
  let b := segBase sz i
  match m with
  | .up => if n ≤ i - b then some (i - n) else none
  | .down => if i - b + n < sz then some (i + n) else none
  | .xor => if segBase sz (i ^^^ n) = b then some (i ^^^ n) else none
  | .idx => some (b + n % sz)

/-- Lane moves: A of the lane that B chooses. -/
def moveOut (w : Width) (d : XReg) (fr : Frag) (j : Option Nat) (a : Opnd) : Out :=
  { xs := put d ⟨w, false⟩ (match j with | some j => readLane w fr j a | none => 0) }

/-- The reads of a lane move: its own B, and A of the source lane. -/
def rdMove (w : Width) (fr : Frag) (e : Env) (sm : Option SMod) (b a : Opnd) (j : Option Nat) : Reads :=
  rdB fr sm (opndX .w32 b) e.lane ++ (match j with | some j => rdLane fr j (opndX w a) | none => [])

def execPerm (o : F3) (w : W2) : State → Host.Outcome State Fault Refusal :=
  let j (fr : Frag) (e : Env) := permLane (readB .w32 fr e o.sm o.b)
  runWord (.perm o w) o.g (fun fr e => rdMove (w2 w) fr e o.sm o.b o.a (j fr e)) always
    (laneBody fun fr e => moveOut (w2 w) o.d fr (j fr e) o.a)

def execShufx (o : F3) (w : W2) (seg : Seg) (m : ShMode) : State → Host.Outcome State Fault Refusal :=
  let j (fr : Frag) (e : Env) := shufLane m (segSize seg) e.lane (readB .w32 fr e o.sm o.b)
  runWord (.shufx o w seg m) o.g (fun fr e => rdMove (w2 w) fr e o.sm o.b o.a (j fr e)) always
    (laneBody fun fr e => moveOut (w2 w) o.d fr (j fr e) o.a)

/-! ### Votes, matches, election (R128 to R130) -/

/-- A thread's vote. -/
def Env.vote (e : Env) (p : PSrc) : Bool := e.qr p.q != p.neg

def voteOut (d : VoteDst) (p : PSrc) (fr : Frag) : Out :=
  match d with
  | .all q => { qs := [(q, fr.all fun e => e.vote p)] }
  | .any q => { qs := [(q, fr.any fun e => e.vote p)] }
  | .ballot d => { xs := put64 d (laneMask ((fr.filter fun e => e.vote p).map fun e => e.lane)).toNat }
  | .ballotHi d => { xs := put64 d 0 }

def execVote (d : VoteDst) (p : PSrc) (g : Guard) : State → Host.Outcome State Fault Refusal :=
  runLane (.vote d p g) g none [] fun fr _ => voteOut d p fr

/-- MATCH compares the B of every guard-active lane with the lane's own. -/
def matchOut (w : Width) (hi : Bool) (o : F2) (fr : Frag) (e : Env) : Out :=
  let v := readB w fr e o.sm o.b
  { xs := put64 o.d (if hi then 0
      else (laneMask ((fr.filter fun f => readB w fr f o.sm o.b == v).map fun f => f.lane)).toNat) }

/-- Reads of a word that reads B of every guard-active lane. -/
def rdAll (w : Width) (o : F2) (ok : Env → Env → Bool) (fr : Frag) (e : Env) : Reads :=
  (fr.filter (ok e)).flatMap fun f => rdB fr o.sm (opndX w o.b) f.lane

def execMatchL (o : F2) (w : W2) (hi : Bool) : State → Host.Outcome State Fault Refusal :=
  runWord (.matchL o w hi) o.g (rdAll (w2 w) o fun _ _ => true) always
    (laneBody fun fr e => matchOut (w2 w) hi o fr e)

def execElect (q : QReg) (g : Guard) : State → Host.Outcome State Fault Refusal :=
  runLane (.elect q g) g none [] fun fr e => { qs := [(q, fr.all fun f => decide (e.lane ≤ f.lane))] }

/-! ### Combinations (02_numbers R47; R131 to R133) -/

/-- A combination at a left lane: the result and the flags it sets. -/
abbrev Comb (α : Type) := Nat → α → α → α × W32

/-- One application, adding its flags to those of the lane it is computed for. -/
def apply2 {α : Type} (f : Comb α) (l : Nat) (a b : α) (fl : W32) : α × W32 :=
  let r := f l a b
  (r.1, fl ||| r.2)

/-- The value standing at a place of the schedule. -/
def valAt {α : Type} (d : α) (v : List (α × W32)) (i : Nat) : α := (v.getD i (d, 0)).1

/-- The flags gathered at a place. -/
def flagsAt {α : Type} (d : α) (v : List (α × W32)) (i : Nat) : W32 := (v.getD i (d, 0)).2

/-- One step of the reduce schedule at distance `n`, for lanes from `b` up. -/
def reduceStep {α : Type} (d : α) (f : Comb α) (b n : Nat) (v : List (α × W32)) : List (α × W32) :=
  (List.range v.length).map fun i =>
    let j := i ^^^ n
    apply2 f (b + min i j) (valAt d v (min i j)) (valAt d v (max i j)) (flagsAt d v i)

/-- One step of the scan schedule. -/
def scanStep {α : Type} (d : α) (f : Comb α) (b n : Nat) (v : List (α × W32)) : List (α × W32) :=
  (List.range v.length).map fun i =>
    if n ≤ i then apply2 f (b + (i - n)) (valAt d v (i - n)) (valAt d v i) (flagsAt d v i) else (valAt d v i, flagsAt d v i)

/-- One step of the mirrored schedule of R133. -/
def mirrorStep {α : Type} (d : α) (f : Comb α) (b n : Nat) (v : List (α × W32)) : List (α × W32) :=
  (List.range v.length).map fun i =>
    if i + n < v.length then apply2 f (b + i) (valAt d v i) (valAt d v (i + n)) (flagsAt d v i)
    else (valAt d v i, flagsAt d v i)

/-- A schedule over a segment of `v.length` lanes: distances 1, 2, 4 and so on. -/
def schedule {α : Type} (step : Nat → List (α × W32) → List (α × W32)) (v : List (α × W32)) : List (α × W32) :=
  (List.range (Nat.log2 v.length)).foldl (fun v s => step (2 ^ s) v) v

/-- The mirrored combination of all other lanes (R133). -/
def cavitySched {α : Type} (d : α) (f : Comb α) (b : Nat) (v : List (α × W32)) : List (α × W32) :=
  let q := schedule (scanStep d f b) v
  let t := schedule (mirrorStep d f b) v
  (List.range v.length).map fun k =>
    let p := if k = 0 then d else valAt d q (k - 1)
    let u := if k + 1 = v.length then d else valAt d t (k + 1)
    apply2 f (b + k) p u (flagsAt d q k ||| flagsAt d t k)

/-- The integer operators. -/
def intComb (t : ITy) (op : LOp) (a b : Nat) : Nat :=
  match op with
  | .add => (a + b) % 2 ^ t.w.bits
  | .max => if val t a ≤ val t b then b else a
  | .min => if val t a ≤ val t b then a else b
  | .and => a &&& b
  | .or => a ||| b
  | .xor => a ^^^ b
  | .mul => a * b % 2 ^ t.w.bits

/-- The integer identities. -/
def intIdent (t : ITy) (op : LOp) : Nat :=
  match op with
  | .add => 0
  | .max => umod t.w.bits (intMin t.w.bits t.sg)
  | .min => umod t.w.bits (intMax t.w.bits t.sg)
  | .and => 2 ^ t.w.bits - 1
  | .or => 0
  | .xor => 0
  | .mul => 1

/-- The float operators; AND, OR and XOR have none (`lopOk`). -/
def fltComb (f : NFmt) (rm : RM) (op : LOp) (org a b : Nat) : Nat × W32 :=
  match op with
  | .add => faddV f rm org a b
  | .mul => fmulV f rm org a b
  | .max => fminmaxV true f a b
  | .min => fminmaxV false f a b
  | .and => (0, 0)
  | .or => (0, 0)
  | .xor => (0, 0)

/-- The float identities: −0, or +0 in RDN, for ADD. -/
def fltIdent (f : NFmt) (rm : RM) (op : LOp) : Nat :=
  match op with
  | .add => f.signed (rm != .rdn) 0
  | .mul => (roundV f .rne false 1 0 false).1
  | .max => f.signed true f.infMag
  | .min => f.signed false f.infMag
  | .and => 0
  | .or => 0
  | .xor => 0

/-- The identity of a lane combination. -/
def lIdent (t : LTy) (op : LOp) : Nat :=
  match t with
  | .int i => intIdent i op
  | .flt f rm => fltIdent f.n rm op

/-- A lane combination of an instruction at `pc`. -/
def lComb (t : LTy) (op : LOp) (pc : W64) : Comb Nat :=
  match t with
  | .int i => fun _ a b => (intComb i op a b, 0)
  | .flt f rm => fun l a b => fltComb f.n rm op (originPay pc l) a b

/-- A lane's B in the combination's type. -/
def lRead (t : LTy) (fr : Frag) (e : Env) (o : F2) : Nat :=
  match t with
  | .int i => readB i.w fr e o.sm o.b
  | .flt f _ => readFlB f.n fr e o.sm o.b

/-- The values of a segment: B of guard-active lanes, the identity elsewhere (R131). -/
def segVals (d : Nat) (fr : Frag) (rd : Env → Nat) (b sz : Nat) : List (Nat × W32) :=
  (List.range sz).map fun k =>
    match laneEnv fr (b + k) with
    | some e => (rd e, 0)
    | none => (d, 0)

/-- The result of a combination in a lane. -/
def lPut (d : XReg) (t : LTy) (r : Nat × W32) : Out :=
  match t with
  | .int i => { xs := put d i r.1, fl := r.2 }
  | .flt _ _ => fltOut d r

/-- REDUCE, SCAN or CAVITY by its schedule, in one lane. -/
def combOut (d : XReg) (rd : Frag → Env → Nat) (t : LTy) (sz : Nat) (op : LOp)
    (sched : Nat → Comb Nat → Nat → List (Nat × W32) → List (Nat × W32)) (fr : Frag) (e : Env) : Out :=
  let b := segBase sz e.lane
  let z := lIdent t op
  lPut d t ((sched z (lComb t op e.pc) b (segVals z fr (rd fr) b sz)).getD (e.lane - b) (z, 0))

def reduceOut (d : XReg) (rd : Frag → Env → Nat) (t : LTy) (sz : Nat) (op : LOp) : Frag → Env → Out :=
  combOut d rd t sz op fun z f b => schedule (reduceStep z f b)

def scanOut (d : XReg) (rd : Frag → Env → Nat) (t : LTy) (sz : Nat) (op : LOp) : Frag → Env → Out :=
  combOut d rd t sz op fun z f b => schedule (scanStep z f b)

def cavityOut (d : XReg) (rd : Frag → Env → Nat) (t : LTy) (sz : Nat) (op : LOp) : Frag → Env → Out :=
  combOut d rd t sz op fun z f b => cavitySched z f b

/-- Two lanes share a segment. -/
def sameSeg (sz : Nat) (e f : Env) : Bool := segBase sz e.lane == segBase sz f.lane

def execReduce (o : F2) (t : LTy) (seg : Seg) (op : LOp) : State → Host.Outcome State Fault Refusal :=
  runWord (.reduce o t seg op) o.g (rdAll (ltyW t) o (sameSeg (segSize seg))) always
    (laneBody (reduceOut o.d (fun fr e => lRead t fr e o) t (segSize seg) op))

def execScan (o : F2) (t : LTy) (seg : Seg) (op : LOp) : State → Host.Outcome State Fault Refusal :=
  runWord (.scan o t seg op) o.g
    (rdAll (ltyW t) o fun e f => sameSeg (segSize seg) e f && decide (f.lane ≤ e.lane)) always
    (laneBody (scanOut o.d (fun fr e => lRead t fr e o) t (segSize seg) op))

def execCavity (o : F2) (t : LTy) (seg : Seg) (op : LOp) : State → Host.Outcome State Fault Refusal :=
  runWord (.cavity o t seg op) o.g
    (rdAll (ltyW t) o fun e f => sameSeg (segSize seg) e f && f.lane != e.lane) always
    (laneBody (cavityOut o.d (fun fr e => lRead t fr e o) t (segSize seg) op))

/-! ### Recurrence scan (R134) -/

/-- The pair composition of LSCAN. -/
def lscanComb (pc : W64) : Comb (Nat × Nat) := fun l p q =>
  let org := originPay pc l
  let a := fmulV .f32 .rne org q.1 p.1
  let b := ffmaV .f32 .rne org q.1 p.2 q.2
  ((a.1, b.1), a.2 ||| b.2)

/-- An operand brought to binary32. -/
def widen (f : NFmt) (c : Nat) : Nat × W32 :=
  match f with
  | .f32 => (c, 0)
  | .f16 => fcvtV .f32 .f16 .rne false c
  | .bf16 => fcvtV .f32 .bf16 .rne false c
  | .e4m3 => (c, 0)
  | .e5m2 => (c, 0)
  | .e2m1 => (c, 0)
  | .e8m0 => (c, 0)

/-- The pair a guard-active lane contributes; the first lane of a segment folds its carried-in state in. -/
def lscanElem (o : F3) (f : NFmt) (fr : Frag) (sz : Nat) (e : Env) : (Nat × Nat) × W32 :=
  let a := widen f (readFl f e o.a)
  let b := widen f (readFlB f fr e o.sm o.b)
  if e.lane % sz = 0 then
    let h := ffmaV .f32 .rne e.org a.1 (readOp .w32 e (.x o.d)) b.1
    ((a.1, h.1), a.2 ||| b.2 ||| h.2)
  else ((a.1, b.1), a.2 ||| b.2)

/-- The pair of a lane that is not guard-active: 1.0 and +0. -/
def lscanIdent : Nat × Nat := (0x3F800000, 0)

def lscanOut (o : F3) (f : NFmt) (sz : Nat) (fr : Frag) (e : Env) : Out :=
  let b := segBase sz e.lane
  let v := (List.range sz).map fun k =>
    match laneEnv fr (b + k) with
    | some x => lscanElem o f fr sz x
    | none => (lscanIdent, 0)
  let r := (schedule (scanStep lscanIdent (lscanComb e.pc) b) v).getD (e.lane - b) (lscanIdent, 0)
  fltOut o.d (r.1.2, r.2)

/-- The reads of LSCAN: A and B of the segment's lanes up to its own, and D of the first. -/
def rdLscan (o : F3) (sz : Nat) (fr : Frag) (e : Env) : Reads :=
  let fs := fr.filter fun f => sameSeg sz e f && decide (f.lane ≤ e.lane)
  fs.flatMap fun f =>
    rdLane fr f.lane (opndX .w32 o.a) ++ rdB fr o.sm (opndX .w32 o.b) f.lane ++
      (if f.lane % sz = 0 then rdLane fr f.lane [o.d.toNat] else [])

def execLscan (o : F3) (f : FFmt) (seg : Seg) : State → Host.Outcome State Fault Refusal :=
  runWord (.lscan o f seg) o.g (rdLscan o (segSize seg)) always (laneBody (lscanOut o f.n (segSize seg)))

/-! ### The forwarding chain (R135 to R138) -/

/-- The successor of a core in its die's chain, as a core number of the package. -/
def successor (c : Nat) : Option Nat := if chainPos c < 159 then some (chainCore (c / 160) (chainPos c + 1)) else none

/-- A channel of a core has a free entry; messages on their way count. -/
def State.chanFree (s : State) (ck ch : Nat) : Bool :=
  decide (((s.core ck).fwd.getD ch []).length + (s.fwds.filter fun m => m.core == ck && m.ch == ch).length < 4)

/-- FWDS: one message for the fragment. Where a lane of the block takes REGECC and others execute, the message goes with zero in its
element (assumption 75). -/
def fwdsBody (b : Opnd) (sm : Option SMod) (w : W2) (ch blk : Nat) : Body := fun s c fr who =>
  if who.isEmpty then .done s []
  else
    match successor c.core with
    | none => .done s (who.map fun e => (e.tid, .trap { cause := .fwdedge, pc := c.pc }))
    | some d =>
      let ck := coreKey c.pkg d
      if s.chanFree ck ch then
        let el := (List.range 32).map fun k =>
          match laneEnv who (32 * blk + k) with
          | some e => BitVec.ofNat 64 (readB (w2 w) fr e sm b)
          | none => 0
        let (id, s) := s.fresh
        let m : FMsg := { launchid := (s.wg c.wg).launchid, wide := w == .w64, elems := el }
        .done { s with fwds := s.fwds ++ [{ id := id, core := ck, ch := ch, msg := m }] } (who.map fun e => (e.tid, .next))
      else .held

def execFwds (b : Opnd) (sm : Option SMod) (g : Guard) (w : W2) (ch : BitVec 2) (blk : BitVec 2) :
    State → Host.Outcome State Fault Refusal :=
  runWord (.fwds b sm g w ch blk) g (rdWord (.fwds b sm g w ch blk) sm (opndX (w2 w) b)) always
    (fwdsBody b sm w ch.toNat blk.toNat)

/-- Take the first message of a launch out of a channel. -/
def takeMsg (lid : W32) : List FMsg → Option (FMsg × List FMsg)
  | [] => none
  | m :: r =>
    if m.launchid == lid then some (m, r)
    else match takeMsg lid r with
      | some (x, l) => some (x, m :: l)
      | none => none

/-- The results of a received element. -/
def fwdrOut (d : XReg) (w : W2) (blk : Nat) (m : FMsg) (e : Env) : Out :=
  if e.lane / 32 = blk then { xs := put d ⟨w2 w, false⟩ ((m.elems.getD (e.lane % 32) 0).toNat) } else {}

/-- FWDR: the oldest message of the launch; a message of another width makes the word illegal and stays queued. -/
def fwdrBody (d : XReg) (w : W2) (ch blk : Nat) : Body := fun s c _ who =>
  if who.isEmpty then .done s []
  else
    let ck := coreKey c.pkg c.core
    match takeMsg (s.wg c.wg).launchid ((s.core ck).fwd.getD ch []) with
    | none => .held
    | some (m, rest) =>
      if m.wide != (w == .w64) then .illegal
      else
        let s := s.modCore ck fun k => { k with fwd := lset k.fwd ch rest }
        let s := s.modWg c.wg fun v => { v with inelig := true }
        .done (who.foldl (fun s e => s.modThr (thrKey c.wg e.tid) fun t => t.out (fwdrOut d w blk m e)) s)
          (who.map fun e => (e.tid, .next))

def execFwdr (d : XReg) (g : Guard) (w : W2) (ch : BitVec 2) (blk : BitVec 2) :
    State → Host.Outcome State Fault Refusal :=
  runWord (.fwdr d g w ch blk) g (rdPlain (.fwdr d g w ch blk)) always (fwdrBody d w ch.toNat blk.toNat)

/-- FORWARD_ARRIVAL (R135): a message arrives; those of one channel arrive in issue order. One that reaches a quarantined core is dropped
(R138, assumption 75). -/
def execForwardArrival (id : Nat) (s : State) : Host.Outcome State Fault Refusal :=
  match s.fwds.find? (·.id == id) with
  | none => .next s
  | some m =>
    if s.fwds.any fun n => n.core == m.core && n.ch == m.ch && decide (n.id < m.id) then .next s
    else
      let s := { s with fwds := s.fwds.filter (·.id != id) }
      .next (if (s.core m.core).quar then s
        else s.modCore m.core fun k => { k with fwd := lset k.fwd m.ch (k.fwd.getD m.ch [] ++ [m.msg]) })

end Sys2Proof.Machine
end

