-- ==== Sys2Proof/Machine/Reduce.lean ====
section
/-! DEFINITION. The arithmetic of Accord: operators and identities, the fixed tree, exact float addition and the cavity
reduction across ranks (14_engines R245, R248 to R250). -/

namespace Sys2Proof.Machine

/-- Bytes of an element of EFMT (R245); AFFINE takes elements of 8 bytes. -/
def elemSize (efmt rop : Nat) : Nat :=
  if rop = 8 then 8
  else
    match efmt with
    | 0 => 1
    | 1 => 4
    | 2 => 4
    | 3 => 8
    | 4 => 8
    | 5 => 4
    | _ => 2

/-- The integer type of EFMT 1 to 4. -/
def accInt (efmt : Nat) : ITy := ⟨if efmt ≤ 2 then .w32 else .w64, efmt % 2 == 1⟩

/-- The float format of EFMT 5 to 7. -/
def accFlt (efmt : Nat) : NFmt :=
  match efmt with
  | 5 => .f32
  | 6 => .f16
  | _ => .bf16

/-- The operator of ROP 1 to 7. -/
def accOp (rop : Nat) : LOp :=
  match rop with
  | 1 => .add
  | 2 => .max
  | 3 => .min
  | 4 => .and
  | 5 => .or
  | 6 => .xor
  | _ => .mul

/-- AFFINE on pairs with `a` in the low half, the lower rank first (R248). -/
def accAffine (x y : Nat) : Nat × W32 :=
  let a := fmulV .f32 .rne 0 (y % 2 ^ 32) (x % 2 ^ 32)
  let b := ffmaV .f32 .rne 0 (y % 2 ^ 32) (x / 2 ^ 32) (y / 2 ^ 32)
  (a.1 + 2 ^ 32 * b.1, a.2 ||| b.2)

/-- One combination (R248). It has no PC and no lane: an origin NaN has payload zero. -/
def accComb (rop efmt : Nat) (x y : Nat) : Nat × W32 :=
  if rop = 8 then accAffine x y
  else if 5 ≤ efmt then fltComb (accFlt efmt) .rne (accOp rop) 0 x y
  else (intComb (accInt efmt) (accOp rop) x y, 0)

/-- The identities of R250; that of ADD is +0. -/
def accIdent (rop efmt : Nat) : Nat :=
  if rop = 8 then 0x3F800000
  else if rop = 1 then 0
  else if 5 ≤ efmt then fltIdent (accFlt efmt) .rne (accOp rop)
  else intIdent (accInt efmt) (accOp rop)

/-- One level of the tree: neighbours combine, the lower rank on the left. -/
def treeLevel (f : Nat → Nat → Nat × W32) : List (Nat × W32) → List (Nat × W32)
  | a :: b :: r =>
    let c := f a.1 b.1
    (c.1, a.2 ||| b.2 ||| c.2) :: treeLevel f r
  | [a] => [a]
  | [] => []

/-- The tree of R248, for at most 64 ranks. -/
def treeFold (f : Nat → Nat → Nat × W32) (l : List Nat) : Nat × W32 :=
  ((List.range 6).foldl (fun v _ => treeLevel f v) (l.map fun x => (x, 0))).headD (0, 0)

/-- The fold of R250 from the left; none of an empty list. -/
def leftFold (f : Nat → Nat → Nat × W32) : List Nat → Option (Nat × W32)
  | [] => none
  | x :: r => some (r.foldl (fun a y => let c := f a.1 y; (c.1, a.2 ||| c.2)) (x, 0))

/-- Rank `i`'s cavity of a column (R250). -/
def cavityFold (f : Nat → Nat → Nat × W32) (ident : Nat) (l : List Nat) (i : Nat) : Nat × W32 :=
  match leftFold f (l.take i), leftFold f (l.drop (i + 1)) with
  | some p, some q =>
    let c := f p.1 q.1
    (c.1, p.2 ||| q.2 ||| c.2)
  | some p, none => p
  | none, some q => q
  | none, none => (ident, 0)

/-! ### Exact float addition (R249) -/

/-- The wire integer of a value in a block of exponent `e`, and whether its alignment loses bits. -/
def wireInt (e : Int) (v : FV) : Int × Bool :=
  match v with
  | .fin s m x => if m = 0 then (0, false) else ((roundInt .rne s m (x - (e - 56))).1, decide (exOf m x < e - 33))
  | .nan _ _ _ => (0, false)
  | .inf _ => (0, false)

/-- A value is −0. -/
def FV.isNegZero : FV → Bool
  | .fin s m _ => s && m == 0
  | .nan _ _ _ => false
  | .inf _ => false

/-- What the root delivers for the contributions `vs` of one element. -/
def addRoot (f : NFmt) (e : Int) (vs : List FV) : Nat × W32 :=
  (propagate f vs).getD
    (match infSign vs with
     | some none => (quietNan f false 0, fIV)
     | some (some s) => (f.signed s f.infMag, 0)
     | none =>
       let t := vs.foldl (fun a v => a + (wireInt e v).1) 0
       if t = 0 then (f.signed (!vs.isEmpty && vs.all FV.isNegZero) 0, 0)
       else roundV f .rne (decide (t < 0)) t.natAbs (e - 56) false)

/-! ### A run of elements -/

/-- The elements of some bytes. -/
def elemsOf (es : Nat) (b : List Byte) : List Nat := (List.range (b.length / es)).map fun i => fld b (es * i) es

/-- The results of one column of exact addition: for every rank its own cavity, or one sum for all. -/
def addColumn (cav : Bool) (f : NFmt) (e : Int) (vs : List FV) : List (Nat × W32) :=
  if cav then (List.range vs.length).map fun i => addRoot f e (vs.take i ++ vs.drop (i + 1))
  else List.replicate vs.length (addRoot f e vs)

/-- The results of one column of any other operator. -/
def opColumn (cav : Bool) (rop efmt : Nat) (l : List Nat) : List (Nat × W32) :=
  if cav then (List.range l.length).map (cavityFold (accComb rop efmt) (accIdent rop efmt) l)
  else List.replicate l.length (treeFold (accComb rop efmt) l)

/-- The columns' results gathered for rank `i`: its bytes and flags. -/
def rankOut (es : Nat) (cols : List (List (Nat × W32))) (i : Nat) : List Byte × W32 :=
  (cols.flatMap fun c => natLe es (c.getD i (0, 0)).1, cols.foldl (fun f c => f ||| (c.getD i (0, 0)).2) 0)

/-- Combine the contributions of all ranks, bytes that begin at a block: each rank's result and flags. ALOSS of an exact
addition is shared by all (R250). -/
def combine (cav : Bool) (rop efmt : Nat) (data : List (List Byte)) : List (List Byte × W32) :=
  let es := elemSize efmt rop
  let xs := data.map (elemsOf es)
  let n := (xs.headD []).length
  if rop = 1 && 5 ≤ efmt then
    let f := accFlt efmt
    let vs := xs.map fun l => l.map (unpack f)
    let exps := (List.range ((n + 127) / 128)).map fun b => blockExp (vs.flatMap fun l => (l.drop (128 * b)).take 128)
    let col (i : Nat) : List FV := vs.map fun l => l.getD i (.inf false)
    let e (i : Nat) : Int := exps.getD (i / 128) 0
    let lost := (List.range n).any fun i => (col i).any fun v => (wireInt (e i) v).2
    let cols := (List.range n).map fun i => addColumn cav f (e i) (col i)
    (List.range data.length).map fun r =>
      let o := rankOut es cols r
      (o.1, o.2 ||| fwhen lost fALOSS)
  else
    let cols := (List.range n).map fun i => opColumn cav rop efmt (xs.map fun l => l.getD i 0)
    (List.range data.length).map (rankOut es cols)

end Sys2Proof.Machine
end

