-- ==== Sys2Proof/Machine/Engines.lean ====
section
/-! DEFINITION. Engine commands: their issue (14_engines R240), headers and records (R241, R245, R253), how an engine reads and
writes memory (12_ordering R220, R221), copy channels (R243, R244), local commands (R247, 26_prog_cavity R373) and completion
(R242). -/

namespace Sys2Proof.Machine

/-! ### Commands -/

/-- KIND of a record. -/
def CKind.code : CKind → Nat
  | .tcopy => 1
  | .tgather => 2
  | .cavred => 3
  | .loopnest => 4
  | .send => 5
  | .search => 6
  | .hspub => 7

/-- The kind performs on a copy channel. -/
def CKind.copies : CKind → Bool
  | .tcopy => true
  | .tgather => true
  | .cavred => true
  | .loopnest => false
  | .send => false
  | .search => false
  | .hspub => false

/-- The kind leaves the core, so that its workgroup is ineligible for Drydown (15_counters R267). -/
def CKind.remote : CKind → Bool
  | .tcopy => false
  | .tgather => false
  | .cavred => false
  | .loopnest => false
  | .send => true
  | .search => true
  | .hspub => true

/-- A field of the record. -/
def Cmd.at (c : Cmd) (o n : Nat) : Nat := fld c.raw o n

/-- An address field. -/
def Cmd.addrAt (c : Cmd) (o : Nat) : W64 := BitVec.ofNat 64 (c.at o 8)

def Cmd.acquires (c : Cmd) : Bool := bits (c.at 2 1) 0 0 == 1
def Cmd.releases (c : Cmd) : Bool := bits (c.at 2 1) 1 1 == 1
def Cmd.fills (c : Cmd) : Bool := bits (c.at 2 1) 2 2 == 1
def Cmd.scopeN (c : Cmd) : Nat := bits (c.at 3 1) 2 0
def Cmd.chan (c : Cmd) : Nat := bits (c.at 4 1) 2 0
def Cmd.ckey (c : Cmd) : Nat := coreKey c.pkg c.core
def Cmd.die (c : Cmd) : Nat := c.core / 160
def Cmd.dkey (c : Cmd) : Nat := dieKey c.pkg c.die

/-- The header breaks no rule (R241): KIND, no reserved bit, no scope of 6 or 7. -/
def Cmd.headerOk (c : Cmd) : Bool :=
  c.at 0 2 == c.kind.code && decide (c.at 2 1 < 8) && decide (c.at 3 1 < 6) && decide (c.at 4 1 < 8) && zeros c.raw 5 3 &&
    zeros c.raw 12 4

def State.cmd? (s : State) (id : Nat) : Option Cmd := s.cmds.find? (·.id == id)

def State.modCmd (s : State) (id : Nat) (f : Cmd → Cmd) : State :=
  { s with cmds := s.cmds.map fun c => if c.id == id then f c else c }

/-- A command's work ends with a code; the first code stands. `own` when its own access failed (R244). -/
def State.endCmd (s : State) (id code : Nat) (own : Bool) : State :=
  s.modCmd id fun c =>
    { c with finished := true, code := if c.code = 0 then code else c.code,
             aborts := c.aborts || (own && (code == 2 || code == 3)) }

/-- A command waits for an absent page (R244): a fault record of kind 4 is made. -/
def State.parkCmd (s : State) (c : Cmd) (va : Nat) : State :=
  (s.modCmd c.id fun x => { x with parked := some va }).faultAt c.pkg c.core c.fn c.launchid va .engine

/-- The queue of a kind has a free entry (R239). -/
def State.chanFreeFor (s : State) (ck : Nat) (k : CKind) (ch : Nat) : Bool :=
  let c := s.core ck
  match k with
  | .tcopy => decide ((c.chans.getD ch []).length < 16)
  | .tgather => decide ((c.chans.getD ch []).length < 16)
  | .cavred => decide ((c.chans.getD ch []).length < 16)
  | .loopnest => decide (c.loops.length < 4)
  | .send => true
  | .search => true
  | .hspub => true

/-- Put a command into the machine and its queue. -/
def State.addCmd (s : State) (c : Cmd) : State :=
  let s := { s with cmds := s.cmds ++ [c] }
  if c.kind.copies then s.modCore c.ckey fun k => { k with chans := lset k.chans c.chan (k.chans.getD c.chan [] ++ [c.id]) }
  else if c.kind == .loopnest then s.modCore c.ckey fun k => { k with loops := k.loops ++ [c.id] }
  else s

/-! ### Issue (R240) -/

/-- The same trap in every guard-active thread. -/
def allTrap (c : Site) (who : Frag) (d : Nat) (a : W64) : List (Nat × Fin) :=
  who.map fun e => (e.tid, .trap { cause := .access, detail := d, pc := c.pc, addr := a })

/-- A record that a word reads as a load of its performing thread, before anything else happens. -/
inductive Rec where
  | bytes (b : List Byte) (s : State)
  | refuse (d : Nat) (a : W64) (s : State)
  | absent (va : Nat) (s : State)
  | wait

/-- The lowest poisoned byte of a place read at an address. -/
def State.lowPoison (s : State) (l n : Nat) (a : W64) : Option W64 :=
  (List.range n).findSome? fun i => if s.isPoisoned (l + i) 1 then some (a + BitVec.ofNat 64 i) else none

/-- Read a record of `n` bytes at `a`, checked at its size, for thread `tid` (R228, R240). -/
def State.readRec (s : State) (c : Site) (tid : Nat) (a : W64) (n : Nat) : Rec :=
  if a.toNat % n ≠ 0 then .refuse 0x07 a s
  else if !s.quiet (thrKey c.wg tid) then .wait
  else
    match s.resolve c.wg tid a n { r := true } with
    | (.refuse d x, s) => .refuse d x s
    | (.absent va, s) => .absent va s
    | (.ok p, s) =>
      let die := c.core / 160
      if p.void then .refuse 0x03 a (s.errResponse c.pkg p.loc)
      else
        match s.lowPoison (p.seen die) n a with
        | some x => .refuse 0x05 x s
        | none =>
          let s := if s.spoils c.wg { kind := .load, addr := a, size := n } p then s.spoil c.wg else s
          .bytes (s.seenBytes c.pkg c.core (p.seen die) p.unc n) s

/-- All guard-active threads park at the word (R206); a cancellation drops the performing thread's read. -/
def State.parkWord (s : State) (c : Site) (who : Frag) (va : Nat) : Ran :=
  .done ((who.zipIdx).foldl (fun s (e, i) => s.parkAt c e.tid va .read false (i == 0) who) s) (who.map fun e => (e.tid, .stay))

/-- A collective of more than one rank. -/
def isGroup (k : CKind) (r : List Byte) : Bool := (k == .tcopy || k == .cavred) && decide (1 < fld r 56 1 * fld r 57 1 * fld r 58 1)

/-- The snapshot of an acquire at issue; `.pod` gives up cached peer lines (12_ordering R220). -/
def State.snapshot (s : State) (p core : Nat) (c : Cmd) : Option Vec × State :=
  let dk := dieKey p (core / 160)
  if c.acquires then (some (s.die dk).vec, if c.scopeN = 5 then s.dropPeers dk p else s) else (none, s)

/-- The last steps of issue: the ticket, and the command in its queue. -/
def State.issueCmd (s : State) (k : CKind) (c : Site) (d : XReg) (who : Frag) (tid : Nat) (a : W64) (raw : List Byte) : State :=
  let w := s.wg c.wg
  let ck := coreKey c.pkg c.core
  let t := (s.core ck).tseq + 1
  let (id, s) := s.fresh
  let s := s.modCore ck fun k => { k with tseq := t }
  let s := who.foldl (fun s e => s.modThr (thrKey c.wg e.tid) fun x => x.wxs (put32 d t.toNat)) s
  let s := if k.remote || isGroup k raw then s.spoil c.wg else s
  let cmd : Cmd := { id := id, pkg := c.pkg, core := c.core, thr := thrKey c.wg tid, wg := c.wg, gang := w.gang, ctx := w.ctx,
                     fn := (s.ctx w.ctx).fn, launchid := w.launchid, ticket := t, kind := k, recAddr := a, raw := raw }
  let (v, s) := s.snapshot c.pkg c.core cmd
  s.addCmd { cmd with acq := v }

/-- An E-form word (R240): once, for the lowest guard-active thread. -/
def eBody (k : CKind) (e : EArgs) : Body := fun s c _ who =>
  match who with
  | [] => .done s []
  | p :: _ =>
    let a := BitVec.ofInt 64 ((p.ky e.a.toNat).toNat + 8 * e.off.toInt)
    match s.readRec c p.tid a 128 with
    | .wait => .held
    | .refuse d x s => .done s (allTrap c who d x)
    | .absent va s => s.parkWord c who va
    | .bytes b s =>
      match s.resolve c.wg p.tid (a + 8) 8 { w := true } with
      | (.refuse d x, s) => .done s (allTrap c who d x)
      | (.absent va, s) => s.parkWord c who va
      | (.ok _, s) =>
        if !s.chanFreeFor (coreKey c.pkg c.core) k (bits (fld b 4 1) 2 0) then .held
        else .done (s.issueCmd k c e.d who p.tid a b) (who.map fun x => (x.tid, .next))

def execTcopy (e : EArgs) : State → Host.Outcome State Fault Refusal :=
  runWord (.tcopy e) e.g (rdPlain (.tcopy e)) always (eBody .tcopy e)

def execTgather (e : EArgs) : State → Host.Outcome State Fault Refusal :=
  runWord (.tgather e) e.g (rdPlain (.tgather e)) always (eBody .tgather e)

def execCavred (e : EArgs) : State → Host.Outcome State Fault Refusal :=
  runWord (.cavred e) e.g (rdPlain (.cavred e)) always (eBody .cavred e)

def execLoopnest (e : EArgs) : State → Host.Outcome State Fault Refusal :=
  runWord (.loopnest e) e.g (rdPlain (.loopnest e)) always (eBody .loopnest e)

/-! ### How an engine reaches memory (R193, R219, R220) -/

/-- Why an engine access does not go through: a status code, an absent page, or an order it must wait for. -/
inductive Stop where
  | fail (code : Nat)
  | park (va : Nat)
  | wait
  deriving DecidableEq, Repr, Inhabited

/-- Translate and check `n` bytes for a command, in the performing thread's context. -/
def State.engFind (s : State) (c : Cmd) (a : W64) (n : Nat) (want : Want) : Except Stop Place × State :=
  match s.resolve c.wg (c.thr % 2048) a n want with
  | (.refuse _ _, s) => (.error (.fail 2), s)
  | (.absent va, s) => (.error (.park va), s)
  | (.ok p, s) =>
    if p.void then (.error (.fail 2), s.errResponse c.pkg p.loc) else (.ok p, s)

/-- The word may be read now: the performing thread's own earlier stores to it stand at its home, and with an acquire the
home's die has applied the snapshot (R220). -/
def State.engReady (s : State) (c : Cmd) (p : Place) : Bool :=
  (s.accs.all fun a =>
    a.thr != c.thr || decide (c.id ≤ a.id) || a.performed || a.unbacked || a.kind.waitsTag || !a.kind.want.w ||
      a.loc / 8 != p.loc / 8) &&
  (match c.acq with
   | none => true
   | some v =>
     isScratch p.loc || p.peer ||
       (let d := match p.repl with | some r => r.home | none => homeDie p.loc
        ((s.die (dieKey c.pkg d)).covered d).covers v))

/-- Two spans of addresses meet. -/
def spansMeet (a n b m : Nat) : Bool := decide (a < b + m) && decide (b < a + n)

/-- The source and the destination of a copy may overlap (R242). -/
def Cmd.overlaps (c : Cmd) : Bool :=
  match c.kind with
  | .tcopy =>
    let span (st : Nat) : Nat := (c.at 32 4 - 1) * st + c.at 36 4
    spansMeet (c.at 16 8) (span (c.at 40 4)) (c.at 24 8) (span (c.at 44 4))
  | .tgather => decide (c.at 16 8 < c.at 24 8 + c.at 32 4 * c.at 36 4)
  | _ => false

/-- The bytes that a copy is about to overwrite are kept, the first time. -/
def State.keepBytes (s : State) (c : Cmd) (l n : Nat) : State :=
  if !c.overlaps then s
  else s.modCmd c.id fun x =>
    { x with old := ((List.range n).filterMap fun i =>
        if x.old.any fun p => p.1 == l + i then none else some (l + i, readByte s.mem (l + i))) ++ x.old }

/-- A source byte that its own copy has overwritten reads as what stood there before or what stands there now; which of the two
nothing decides (R242, assumption 2). -/
def State.sourceByte (s : State) (c : Cmd) (l : Nat) : Byte × State :=
  let old := if c.overlaps then ((s.cmd? c.id).map fun x => x.old).getD [] else []
  match old.find? fun p => p.1 == l with
  | none => (readByte s.mem l, s)
  | some (_, v) =>
    let (n, s) := s.draw
    (if Config.freeRace n then v else readByte s.mem l, s)

/-- One byte of an engine read, directly at its home. -/
def State.engByte (s : State) (c : Cmd) (a : W64) : Except Stop Byte × State :=
  match s.engFind c a 1 { r := true } with
  | (.error e, s) => (.error e, s)
  | (.ok p, s) =>
    if s.isPoisoned p.loc 1 then (.error (.fail 3), s)
    else if !s.engReady c p then (.error .wait, s)
    else
      match s.sourceByte c p.loc with
      | (v, s) => (.ok v, if s.spoils c.wg { kind := .load, addr := a, size := 1 } p then s.spoil c.wg else s)

/-- A run of bytes by their numbers, up to the first that does not come. -/
def engRun (src : State → Nat → Except Stop Byte × State) : Nat → Nat → State → (List Byte × Option Stop) × State
  | 0, _, s => (([], none), s)
  | n + 1, b, s =>
    match src s b with
    | (.error e, s) => (([], some e), s)
    | (.ok v, s) =>
      match engRun src n (b + 1) s with
      | ((l, e), s) => ((v :: l, e), s)

/-- `n` bytes from an address up. -/
def State.engBytes (s : State) (c : Cmd) (a : W64) (n : Nat) : (List Byte × Option Stop) × State :=
  engRun (fun s b => s.engByte c (a + BitVec.ofNat 64 b)) n 0 s

/-- What becomes of a command whose access stopped. -/
def State.stopCmd (s : State) (c : Cmd) (e : Stop) : State :=
  match e with
  | .fail code => s.endCmd c.id code true
  | .park va => s.parkCmd c va
  | .wait => s

/-- Fill a word's tag in the home step of its data; the fill serves a waiting LDFE (R243). -/
def State.engFill (s : State) (w : Nat) : State := ((s.setTag w true).setFillPast w Vec.zero).serveLdfe w

/-- An engine write within one word (R242): installed at its home, with notices that carry no clock. -/
def State.engStore (s : State) (c : Cmd) (p : Place) (b : List Byte) (fill : Bool) : State :=
  let s := s.homeStore p.loc b.length (BitVec.ofNat 64 (leNat b)) { acc := c.id, launch := c.launchid, repl := p.repl }
  let s := if p.peer then s.uncache c.dkey p.loc else s
  if fill then s.engFill (p.loc / 8) else s

/-- A write of a local command counts as a store of the performing thread for the digest; a re-execution performs it only
in SCRATCH and STACK (15_counters R265, R268, 26_prog_cavity R373). -/
def State.engPut (s : State) (c : Cmd) (a : W64) (p : Place) (b : List Byte) : State :=
  let s := s.digest c.wg (ownForm a p) b
  if s.redoing c.wg && !inScratchStack a then s else (s.keepBytes c p.loc b.length).engStore c p b c.fills

/-! ### Copying (R243, R244) -/

/-- How many of `n` bytes from number `b` on stand together at the destination. -/
def together (dst : Nat → W64) (b n : Nat) : Nat :=
  ((List.range n).takeWhile fun i => dst (b + i) == dst b + BitVec.ofNat 64 i).length

/-- Bytes from number `b` on, of `left`, that go to one destination word (R242). -/
def unitLen (dst : Nat → W64) (b left : Nat) : Nat := max 1 (together dst b (min (8 - (dst b).toNat % 8) left))

/-- Deliver `left` bytes from number `b` on, a destination word at a time: how many went, and why no more. -/
def copyUnits (c : Cmd) (src : State → Nat → Except Stop Byte × State) (dst : Nat → W64) :
    Nat → Nat → Nat → State → (Nat × Option Stop) × State
  | 0, _, _, s => ((0, none), s)
  | f + 1, b, left, s =>
    if left = 0 then ((0, none), s)
    else
      let a := dst b
      let n := unitLen dst b left
      match s.engFind c a n { w := true, tag := c.fills } with
      | (.error e, s) => ((0, some e), s)
      | (.ok p, s) =>
        match engRun src n b s with
        | ((l, stop), s) =>
          let m := if c.fills && decide (l.length < n) then 0 else l.length
          let s := if m = 0 then s else s.engPut c a p (l.take m)
          (match stop with
           | some e => ((m, some e), s)
           | none =>
             match copyUnits c src dst f (b + n) (left - n) s with
             | ((k, e), s) => ((n + k, e), s))

/-- Deliver a piece of at most `n` bytes. -/
def State.piece (s : State) (c : Cmd) (src : State → Nat → Except Stop Byte × State) (dst : Nat → W64) (b n : Nat) : State :=
  match copyUnits c src dst (n + 1) b n s with
  | ((m, stop), s) =>
    let s := s.modCmd c.id fun x => { x with sent := x.sent + m }
    match stop with
    | none => s
    | some e => s.stopCmd c e

/-- Byte `b` begins a unit of interruption of `u` bytes (R254), or the destination word before it holds that beginning. -/
def chunkEdge (dst : Nat → W64) (u b : Nat) : Bool :=
  let m := b / u * u
  m == b || (decide (0 < m) && (dst (m - 1)).toNat / 8 == (dst (b - 1)).toNat / 8 && dst (b - 1) == dst (m - 1) + BitVec.ofNat 64 (b - m))

/-- The next piece from byte `b`, of `left`: whole destination words up to the length of a pointer step, and none beyond a unit of `u`
bytes. -/
def pieceGo (dst : Nat → W64) (u : Nat) : Nat → Nat → Nat → Nat → Nat
  | 0, _, _, n => n
  | f + 1, b, left, n =>
    if left ≤ n || (decide (0 < n) && chunkEdge dst u (b + n)) then n
    else
      let k := unitLen dst (b + n) (left - n)
      if 256 < n + k then n else pieceGo dst u f b left (n + k)

def pieceLen (dst : Nat → W64) (u b left : Nat) : Nat := pieceGo dst u 256 b left 0

/-! ### Tile copies (R245) -/

/-- The shape record. -/
structure Shape where
  src : W64
  dst : W64
  rows : Nat
  rb : Nat
  ss : Nat
  ds : Nat
  efmt : Nat
  rop : Nat
  root : Nat
  collid : Nat
  g : List Nat
  n : Nat
  rank : Nat
  rtab : W64
  repl : Nat
  deriving DecidableEq, Repr, Inhabited

def Shape.total (h : Shape) : Nat := h.rows * h.rb
def Shape.srcAt (h : Shape) (b : Nat) : W64 := h.src + BitVec.ofNat 64 (b / h.rb * h.ss + b % h.rb)
def Shape.dstAt (h : Shape) (b : Nat) : W64 := h.dst + BitVec.ofNat 64 (b / h.rb * h.ds + b % h.rb)

/-- Bytes of a block of 128 elements. -/
def Shape.block (h : Shape) : Nat := 128 * elemSize h.efmt h.rop

/-- Read the shape record of a command. -/
def Cmd.shapeRaw (c : Cmd) : Shape :=
  let g := [c.at 56 1, c.at 57 1, c.at 58 1]
  { src := c.addrAt 16, dst := c.addrAt 24, rows := c.at 32 4, rb := c.at 36 4, ss := c.at 40 4, ds := c.at 44 4,
    efmt := c.at 48 1, rop := c.at 49 1, root := c.at 50 1, collid := c.at 52 4, g := g,
    n := c.at 56 1 * c.at 57 1 * c.at 58 1, rank := (c.at 59 1 * c.at 57 1 + c.at 60 1) * c.at 58 1 + c.at 61 1,
    rtab := c.addrAt 64, repl := c.at 72 8 }

/-- Multiples of 8 that TAGFILL asks for (R243). -/
def tagShape (dst rb ds : Nat) : Bool := dst % 8 == 0 && rb % 8 == 0 && ds % 8 == 0

/-- The shape record of TCOPY or CAVRED, when it breaks no rule of R241, R243 and R245. -/
def Cmd.shape (c : Cmd) : Option Shape :=
  let h := c.shapeRaw
  let es := elemSize h.efmt h.rop
  let ok : Bool :=
    c.headerOk && decide (1 ≤ h.rows) && decide (h.rows ≤ 65536) && decide (1 ≤ h.rb) && decide (h.rb ≤ 2 ^ 20) &&
    decide (h.efmt ≤ 7) && decide (h.rop ≤ 8) && zeros c.raw 51 1 && zeros c.raw 62 2 && zeros c.raw 80 48 &&
    h.g.all (fun x => x != 0) && decide (h.n ≤ 64) && decide (c.at 59 1 < c.at 56 1) && decide (c.at 60 1 < c.at 57 1) &&
    decide (c.at 61 1 < c.at 58 1) && decide (h.root < h.n) && decide (h.repl < 2 ^ h.n) &&
    ((h.rop == 0) == (h.efmt == 0)) && !(decide (4 ≤ h.rop) && decide (h.rop ≤ 6) && decide (5 ≤ h.efmt)) &&
    !(h.rop == 8 && (h.efmt != 5 || h.rb % 8 != 0)) && (h.rop == 0 || h.rb % es == 0) &&
    !(c.kind == .cavred && h.rop == 0) && !(h.n == 1 && h.repl != 1) && !(decide (1 < h.n) && c.kind == .tcopy && h.repl == 0) &&
    h.src.toNat % es == 0 && h.dst.toNat % es == 0 && (!c.fills || tagShape h.dst.toNat h.rb h.ds)
  if ok then some h else none

/-- The next piece of a one-rank command (R247, R250, R373): a plain copy, or the combination of one contribution. -/
def State.localPiece (s : State) (c : Cmd) (h : Shape) : State :=
  let b := c.sent
  let n := pieceLen h.dstAt 4096 b (h.total - b)
  let byte (s : State) (i : Nat) : Except Stop Byte × State := s.engByte c (h.srcAt i)
  if h.total ≤ b then s.endCmd c.id 0 false
  else if h.rop = 0 then s.piece c byte h.dstAt b n
  else
    let lo := b / h.block * h.block
    let hi := min h.total ((b + n + h.block - 1) / h.block * h.block)
    match engRun byte (hi - lo) lo s with
    | ((l, stop), s) =>
      let good := if stop.isNone then l else l.take (l.length / h.block * h.block)
      let r := (combine (c.kind == .cavred) h.rop h.efmt [good]).headD ([], 0)
      let s := s.modCmd c.id fun x => { x with flags := x.flags ||| r.2 }
      let src (s : State) (i : Nat) : Except Stop Byte × State :=
        if i - lo < r.1.length then (.ok (r.1.getD (i - lo) 0), s) else (.error (stop.getD .wait), s)
      s.piece c src h.dstAt b n

/-! ### Gathers (R253) -/

/-- The TGATHER record breaks no rule. -/
def Cmd.gatherOk (c : Cmd) : Bool :=
  c.headerOk && decide (1 ≤ c.at 32 4) && decide (c.at 32 4 ≤ 65536) && decide (1 ≤ c.at 36 4) && decide (c.at 36 4 ≤ 65536) &&
    zeros c.raw 44 4 && zeros c.raw 56 72 && c.at 48 8 % 4 == 0 && (!c.fills || tagShape (c.at 24 8) (c.at 36 4) 0)

/-- A byte of the gathered rows: the index is read with the source. -/
def State.gatherByte (c : Cmd) (s : State) (i : Nat) : Except Stop Byte × State :=
  let rb := c.at 36 4
  match s.engBytes c (c.addrAt 48 + BitVec.ofNat 64 (4 * (i / rb))) 4 with
  | ((_, some e), s) => (.error e, s)
  | ((x, none), s) => s.engByte c (c.addrAt 16 + BitVec.ofNat 64 (leNat x * c.at 40 4 + i % rb))

/-- Where byte `i` of a gather goes, and its unit of interruption: 4 KiB, or one row when rows are longer (R254). -/
def Cmd.gatherDst (c : Cmd) (i : Nat) : W64 := c.addrAt 24 + BitVec.ofNat 64 i
def Cmd.gatherUnit (c : Cmd) : Nat := max 4096 (c.at 36 4)

/-- The next piece of a gather. -/
def State.gatherPiece (s : State) (c : Cmd) : State :=
  let total := c.at 32 4 * c.at 36 4
  let b := c.sent
  if !c.gatherOk then s.endCmd c.id 1 false
  else if total ≤ b then s.endCmd c.id 0 false
  else s.piece c (State.gatherByte c) c.gatherDst b (pieceLen c.gatherDst c.gatherUnit b (total - b))

/-- A copy stands where it may be interrupted (R254, R257). -/
def Cmd.atEdge (c : Cmd) : Bool :=
  c.finished ||
    (if c.kind == .tgather then c.sent == 0 || chunkEdge c.gatherDst c.gatherUnit c.sent
     else c.sent == 0 || chunkEdge c.shapeRaw.dstAt 4096 c.sent)

/-! ### Pointers, stops and completion (R221, R242, R257) -/

/-- Advance the channel's pointer past bytes that the issuing die's view holds, by at most 256. -/
def State.countCopy (s : State) (c : Cmd) : State :=
  if s.pendingIn c.id c.pkg c.die then s
  else
    let k := min 256 (c.sent - c.pos)
    ((s.modCmd c.id fun x => { x with pos := x.pos + k }).modCore c.ckey fun m =>
      { m with wptr := lset m.wptr c.chan (m.wptr.getD c.chan 0 + BitVec.ofNat 64 k) }).count c.ckey 5 k

/-- An address in one of the allocations that are saved with the gang, and in SCRATCH. -/
def inSaved (a : W64) : Bool := decide (0xFFFD ≤ a.toNat / 2 ^ 48)
def inScratchpad (a : W64) : Bool := a.toNat / 2 ^ 48 == 0xFFFF

/-- The command names an address of a kind: of its record, or where its record says that it reads or writes (R257). -/
def Cmd.names (c : Cmd) (p : W64 → Bool) : Bool :=
  let at' (o : Nat) : Bool := p (c.addrAt o)
  p c.recAddr ||
    (match c.kind with
     | .tcopy => at' 16 || at' 24
     | .tgather => at' 16 || at' 24 || at' 48
     | .cavred => at' 16 || at' 24
     | .loopnest => at' 24 || at' 40
     | .send => at' 16
     | .search => at' 16 || at' 40 || at' 56
     | .hspub => at' 24)

/-- The command touches allocations of its gang. -/
def Cmd.touches (c : Cmd) : Bool := c.names inSaved

/-- A stop of the copy class holds the command queued until its gang resumes: it touches the gang's SCRATCH (R257). A SEND runs to
completion (19_queue_instr R313). -/
def Cmd.stops (c : Cmd) : Bool := c.kind != .send && c.names inScratchpad

/-- The command runs to completion before the gang's allocations, which it touches, are saved (R257, assumption 83). -/
def Cmd.runsOut (c : Cmd) : Bool := (c.kind.copies || c.kind == .send) && c.touches && !c.stops

/-- An engine class of the command's gang has stopped for a pre-emption (21_tables R328), up to the end of its resumption. -/
def State.classStopped (s : State) (gang : Nat) (k : EClass) : Bool :=
  let g := s.gang gang
  g.st == .preempted || (match g.pre with | some p => p.acks.contains k | none => false) || s.restoring gang

/-- The command stays queued until its gang resumes; of a SEND only the status word in a saved allocation waits so long. -/
def State.cmdStopped (s : State) (c : Cmd) : Bool :=
  s.classStopped c.gang .copy && (if c.kind == .send then inSaved c.recAddr else c.stops || c.runsOut)

/-- The command's writes are installed where its completion needs them: in the issuing die's view, and with a release in
every die's view within the scope (R220). -/
def State.engInstalled (s : State) (c : Cmd) : Bool :=
  let dies := if c.releases && decide (4 ≤ c.scopeN) then [0, 1, 2, 3] else [c.die]
  dies.all fun d => !s.pendingIn c.id c.pkg d

/-- The STATUS word (R241). -/
def statusWord (code : Nat) (f : W32) : W64 :=
  let bit (src : Nat) (dst : Nat) : Nat := if f.getLsbD src then 2 ^ dst else 0
  BitVec.ofNat 64 (code % 256 + bit 0 8 + bit 2 9 + bit 3 10 + bit 4 11 + bit 6 12 + bit 5 13)

/-- Write STATUS and the four bytes after it as one engine write. A record that has become unwritable gets none. -/
def State.writeStatus (s : State) (c : Cmd) (code : Nat) : State :=
  let a := c.recAddr + 8
  match s.engFind c a 8 { w := true } with
  | (.error (.park va), s) => s.parkCmd c va
  | (.error _, s) => s.modCmd c.id fun x => { x with written := true }
  | (.ok p, s) =>
    let s := if s.redoing c.wg && !inScratchStack a then s
      else s.engStore c p (natLe 8 (statusWord code c.flags).toNat) (c.fills && !isCxl p.loc && !p.peer)
    s.modCmd c.id fun x => { x with written := true }

/-- Take a command out of its queue; after a failed access of its own every command behind it is aborted (R244). -/
def State.dropCmd (s : State) (c : Cmd) : State :=
  let behind := ((s.core c.ckey).chans.getD c.chan []).dropWhile (· != c.id)
  let s := { s with cmds := s.cmds.filter (·.id != c.id) }
  let s := s.modCore c.ckey fun k =>
    { k with chans := k.chans.map (fun q => q.filter (· != c.id)), loops := k.loops.filter (· != c.id) }
  if c.aborts && c.kind.copies then (behind.drop 1).foldl (fun s i => s.endCmd i 6 false) s else s

/-- A LOOPNEST's iteration after its copy step: a failed step ends the iteration and the nest (R256). -/
def LoopSt.copied (l : LoopSt) (id code : Nat) : LoopSt :=
  { l with
    stopped := l.stopped || code != 0,
    its := l.its.map fun i =>
      if i.copy == some id then
        (if code = 0 then { i with copyDone := true }
         else { i with copyDone := true, planeDone := true, wakeDone := true, emptied := true })
      else i }

/-- The copy step of a LOOPNEST is over; its outcome goes to the nest. -/
def State.loopCopied (s : State) (loop : Nat) (c : Cmd) : State :=
  s.modCmd loop fun x =>
    { x with loop := x.loop.map fun l => l.copied c.id c.code, code := if x.code = 0 then c.code else x.code,
             flags := x.flags ||| c.flags }

/-- Iterations of a LOOPNEST in all (R255). -/
def Cmd.iterations (c : Cmd) : Nat := (List.range (c.at 17 1)).foldl (fun n l => n * c.at (64 + 16 * l) 4) 1

/-- Every step of every iteration has been performed, or the nest has stopped and its started steps are over. -/
def LoopSt.over (l : LoopSt) (total : Nat) : Bool :=
  (l.stopped || decide (total ≤ l.next)) && l.its.all fun i => i.copyDone && i.planeDone && i.wakeDone

/-- The command's work is done. -/
def Cmd.done (c : Cmd) : Bool :=
  c.finished || (match c.loop with | some l => l.over c.iterations | none => false)

/-- COMMAND_COMPLETE (R242): the status word is written; once it too is installed, the ticket is complete. -/
def execCommandComplete (id : Nat) (s : State) : Host.Outcome State Fault Refusal :=
  match s.cmd? id with
  | none => .next s
  | some c =>
    if !c.done || c.parked.isSome || s.cmdStopped c || (c.kind.copies && c.pos != c.sent) || !s.engInstalled c then .next s
    else
      match c.quiet with
      | some l => .next ((s.dropCmd c).loopCopied l c)
      | none =>
        if !c.written then .next (s.writeStatus c c.code)
        else .next (s.dropCmd c)

end Sys2Proof.Machine
end

