-- ==== Sys2Proof/Machine/Accord.lean ====
section
/-! DEFINITION. Accord: collective copies and cavity reductions across ranks (14_engines R246 to R252), reduce blocks
(18_queues R299), and deliveries through the landing tables (18_queues R304, 21_tables R324, R325). -/

namespace Sys2Proof.Machine

/-! ### Chunks of 4 KiB (R251) -/

def Shape.chunks (h : Shape) : Nat := (h.total + 4095) / 4096
def Shape.chunkEnd (h : Shape) (k : Nat) : Nat := min h.total (4096 * (k + 1))

/-- Rank `q` receives the result. -/
def Shape.receives (h : Shape) (q : Nat) : Bool := h.repl / 2 ^ q % 2 == 1

/-- Rank `q` contributes. -/
def Shape.gives (h : Shape) (q : Nat) : Bool := h.rop != 0 || q == h.root

/-- An exact sum, whose chunks take an exponent pass first (R249). -/
def Shape.exact (h : Shape) : Bool := h.rop == 1 && decide (5 ≤ h.efmt)

/-! ### The nodes of a chunk (R248, R250, R251) -/

/-- The node of the tree where the value that rank `q` holds above level `l` combines next: its level and its left rank. -/
def treeNext (n l q : Nat) : Option (Nat × Nat) :=
  (List.range 6).findSome? fun k =>
    if k < l then none
    else if q % 2 ^ (k + 1) = 2 ^ k then some (k, q - 2 ^ k)
    else if q % 2 ^ (k + 1) = 0 && q + 2 ^ k < n then some (k, q)
    else none

/-- Inputs that a node awaits: two values in the tree and along a sweep, but one at the start of a sweep and for a broadcast. -/
def Shape.inputs (h : Shape) (d : RedNode) : Nat :=
  match d.pass with
  | .exps => 2
  | .tree => if h.rop = 0 then 1 else 2
  | .pre => if d.rank = 0 then 1 else 2
  | .post => if d.rank + 1 = h.n then 1 else 2

/-- The first node of rank `q`'s contribution in a pass over the tree. -/
def Shape.leaf (h : Shape) (p : RedPass) (q : Nat) : List RedNode :=
  match treeNext h.n 0 q with
  | some (l, r) => [⟨p, l, r⟩]
  | none => []

/-- The nodes that a contribution of rank `q` reaches. -/
def Shape.nodesOf (h : Shape) (cav : Bool) (q : Nat) : List RedNode :=
  if h.rop = 0 then [⟨.tree, 0, h.root⟩]
  else if cav then [⟨.pre, 0, q⟩, ⟨.post, 0, q⟩]
  else h.leaf .tree q

/-- Phases of a chunk in which a rank contributes: for an exact sum its exponents first. -/
def Shape.phases (h : Shape) : Nat := if h.exact then 2 else 1

/-! ### The rank table (R246) -/

/-- Each rank's Accord reads its own rank table. -/
def State.readTable (s : State) (c : Cmd) (h : Shape) : State :=
  if h.rtab.toNat % 8 ≠ 0 then s.endCmd c.id 2 true
  else
    match s.engBytes c h.rtab (8 * h.n) with
    | ((_, some e), s) => s.stopCmd c e
    | ((b, none), s) =>
      let t := (List.range h.n).map fun i => BitVec.ofNat 64 (fld b (8 * i) 8)
      if t.any fun e => bits e.toNat 15 8 != 0 then s.endCmd c.id 1 false
      else s.modCmd c.id fun x => { x with table := some t }

/-- The COLLIDs that stand in the collective table of a die: those of the commands registered with it (R239). -/
def State.registered (s : State) (dk : Nat) : List Nat :=
  distinct ((s.cmds.filter fun c => c.dkey == dk && isGroup c.kind c.raw && c.table.isSome).map fun c => c.shapeRaw.collid)

/-- The table of the command's die has an entry for its collective, or a free one of its 256. -/
def State.tableRoom (s : State) (c : Cmd) (h : Shape) : Bool :=
  (s.registered c.dkey).contains h.collid || decide ((s.registered c.dkey).length < 256)

/-- What the head of a copy channel does next. -/
def State.copyWork (s : State) (c : Cmd) : State :=
  if c.kind == .tgather then s.gatherPiece c
  else
    match c.shape with
    | none => s.endCmd c.id 1 false
    | some h =>
      if h.n = 1 then s.localPiece c h
      else
        match c.table with
        | none => if s.tableRoom c h then s.readTable c h else s
        | some _ => s

/-- COPY_CHUNK_DELIVER (R243): the head of a copy channel counts delivered bytes, or goes on with its work. -/
def execCopyChunkDeliver (pkg core ch : Nat) (s : State) : Host.Outcome State Fault Refusal :=
  match (s.core (coreKey pkg core)).chans.getD ch [] with
  | [] => .next s
  | id :: _ =>
    match s.cmd? id with
    | none => .next s
    | some c =>
      if c.pos < c.sent then .next (s.countCopy c)
      else if c.finished || c.parked.isSome || s.cmdStopped c then .next s
      else .next (s.copyWork c)

/-! ### Forming a group (R246, R252) -/

/-- The command is a rank of a formed collective. -/
def State.inColl (s : State) (id : Nat) : Bool := s.colls.any fun g => g.ranks.any fun r => r.cmd == id

/-- The command waits for its group, at the head of its channel with its table read. -/
def State.waitsGroup (s : State) (collid : Nat) (c : Cmd) : Bool :=
  c.table.isSome && !c.finished && !s.inColl c.id && !s.cmdStopped c &&
    ((s.core c.ckey).chans.getD c.chan []).head? == some c.id &&
    (match c.shape with | some h => h.collid == collid | none => false)

/-- The command belongs to the workgroup that a table entry names. -/
def State.named (s : State) (e : W64) (c : Cmd) : Bool :=
  c.pkg == bits e.toNat 7 0 && c.core == bits e.toNat 31 16 && (s.wg c.wg).wgid.toNat == bits e.toNat 63 32

/-- One command for each entry of a table, if all have issued. -/
def State.gatherGroup (s : State) (cs : List Cmd) : List W64 → Option (List Cmd)
  | [] => some []
  | e :: r =>
    match cs.find? (s.named e) with
    | none => none
    | some c => (s.gatherGroup (cs.filter fun x => x.id != c.id) r).map fun l => c :: l

/-- Records of a group agree, and each rank's coordinates name its own entry. -/
def agree (cs : List Cmd) : Bool :=
  match cs with
  | [] => false
  | a :: _ =>
    let h := a.shapeRaw
    (cs.zipIdx).all fun (c, q) =>
      let k := c.shapeRaw
      c.kind == a.kind && k.efmt == h.efmt && k.rop == h.rop && k.root == h.root && k.rows == h.rows && k.rb == h.rb &&
        k.g == h.g && k.repl == h.repl && c.table == a.table && k.rank == q

/-- Staging that one rank needs (R252). -/
def stagingOf (k : CKind) (h : Shape) : Nat := h.total * (if k == .cavred then 4 else 2)

/-- Staging that a collective needs on a die. -/
def needOn (cs : List Cmd) (dk : Nat) : Nat :=
  (cs.map fun c => if c.dkey = dk then stagingOf c.kind c.shapeRaw else 0).foldl (· + ·) 0

/-- Dies on which a collective needs staging. -/
def diesOf (cs : List Cmd) : List Nat := distinct (cs.map fun c => c.dkey)

/-- The landing entry of a SCRATCH or VAULT address in a command's context: its table, none where no gang stands that the address names,
and what it must match. -/
structure LandAt where
  vault : Bool
  key : Option Nat
  launchid : W32
  wgid : W32
  deriving DecidableEq, Repr, Inhabited

def State.landAt (s : State) (c : Cmd) (a : W64) : Option LandAt :=
  let w := s.wg c.wg
  if a.toNat / 2 ^ 48 = 0xFFFF then some { vault := false, key := some c.ckey, launchid := c.launchid, wgid := w.wgid }
  else if a.toNat / 2 ^ 48 = 0xFFFD then
    match s.vaultGang c.gang (bits a.toNat 31 24) (bits a.toNat 23 22) with
    | none => some { vault := true, key := none, launchid := c.launchid, wgid := w.wgid }
    | some g =>
      let x := s.gang g
      some { vault := true, key := some (quadKey x.pkg x.quad), launchid := c.launchid, wgid := (s.wg (x.members.headD 0)).wgid }
  else none

/-- The valid entry that matches. -/
def State.landEntry (s : State) (l : LandAt) : Option Land :=
  let t := match l.key with
    | none => []
    | some k => if l.vault then (s.quad k).land else (s.core k).land
  t.find? fun e => e.launchid == l.launchid && e.wgid == l.wgid && e.vault == l.vault

/-- A rank as its group forms: the coordinator takes the generation of its landing entry (R325). -/
def State.newRank (s : State) (c : Cmd) : Rank :=
  match s.landAt c c.shapeRaw.dst with
  | none => { cmd := c.id }
  | some l =>
    match s.landEntry l with
    | none => { cmd := c.id, land := true, lost := true }
    | some e => { cmd := c.id, land := true, lgen := e.lgen }

/-- Every rank of a group ends with a code. -/
def State.endAll (s : State) (cs : List Nat) (code : Nat) : State := cs.foldl (fun s i => s.endCmd i code false) s

/-- Commands of a collective, by rank. -/
def State.collCmds (s : State) (g : Coll) : List Cmd := g.ranks.map fun r => (s.cmd? r.cmd).getD default

/-- COLLECTIVE_FORM (R246): every rank of a table has issued its command with this COLLID. -/
def execCollectiveForm (collid : Nat) (s : State) : Host.Outcome State Fault Refusal :=
  let cs := s.cmds.filter (s.waitsGroup collid)
  if s.colls.any fun g => g.collid == collid then .next s
  else
    match cs.findSome? fun c => s.gatherGroup cs (c.table.getD []) with
    | none => .next s
    | some [] => .next s
    | some g =>
      let ids := g.map fun c => c.id
      if !agree g then .next (s.endAll ids 1)
      else if (diesOf g).any fun d => decide (2 ^ 22 < needOn g d) then .next (s.endAll ids 5)
      else .next { s with colls := s.colls ++ [{ collid := collid, ranks := g.map s.newRank }] }

/-- The record of a collective, that of rank 0. -/
def State.collShape (s : State) (g : Coll) : Shape := ((s.collCmds g).headD default).shapeRaw

/-- Staging granted on a die. -/
def Die.used (d : Die) : Nat := (d.staging.map (·.2)).foldl (· + ·) 0

def State.modColl (s : State) (collid : Nat) (f : Coll → Coll) : State :=
  { s with colls := s.colls.map fun g => if g.collid == collid then f g else g }

/-- Change one rank. -/
def Coll.modRank (g : Coll) (q : Nat) (f : Rank → Rank) : Coll :=
  { g with ranks := g.ranks.modify q f }

/-- STAGING_GRANT (R252): every die has the space, and no waiting collective of lower COLLID needs that die. -/
def execStagingGrant (collid : Nat) (s : State) : Host.Outcome State Fault Refusal :=
  match s.colls.find? fun g => g.collid == collid && !g.granted with
  | none => .next s
  | some g =>
    let cs := s.collCmds g
    let ok (d : Nat) : Bool :=
      decide ((s.die d).used + needOn cs d ≤ 2 ^ 22) &&
      s.colls.all fun x => !(decide (x.collid < collid) && !x.granted && (diesOf (s.collCmds x)).contains d)
    if (diesOf cs).all ok then
      let s := (diesOf cs).foldl (fun s d => s.modDie d fun x => { x with staging := tset x.staging collid (needOn cs d) }) s
      .next (s.modColl collid fun x => { x with granted := true })
    else .next s

/-! ### Ending (R247, R252) -/

/-- A collective is over: its staging and launch counters are released, and every rank's command ends with the common code and its
flags. -/
def State.endColl (s : State) (g : Coll) : State :=
  let s := (diesOf (s.collCmds g)).foldl (fun s d => s.modDie d fun x =>
    { x with staging := tdel x.staging g.collid, counts := x.counts.filter (fun e => e.coll != g.collid),
             redq := x.redq.filter fun j => j.coll != g.collid }) s
  let s := g.ranks.foldl (fun s r =>
    (s.modCmd r.cmd fun c => { c with flags := c.flags ||| g.flags ||| r.flags }).endCmd r.cmd g.code false) s
  { s with colls := s.colls.filter (fun x => x.collid != g.collid),
           deliveries := s.deliveries.filter fun d => d.coll != g.collid }

/-- Every chunk is combined and delivered. -/
def Coll.over (g : Coll) (h : Shape) : Bool :=
  decide (h.chunks ≤ g.reduced.length) &&
    (g.ranks.zipIdx).all fun (r, q) => !h.receives q || decide (h.chunks ≤ r.delivered)

/-- End the collective when it is over, or has failed before its results were formed. -/
def State.settleColl (s : State) (collid : Nat) : State :=
  match s.colls.find? fun g => g.collid == collid with
  | none => s
  | some g => if g.over (s.collShape g) then s.endColl g else s

/-- A rank's own access failed: the collective ends with that code, and the rank's channel aborts what is behind (R244). -/
def State.failColl (s : State) (collid : Nat) (c : Cmd) (code : Nat) : State :=
  let s := s.modCmd c.id fun x => { x with aborts := x.aborts || code == 2 || code == 3 }
  let s := s.modColl collid fun g => { g with code := if g.code = 0 then code else g.code }
  match s.colls.find? fun g => g.collid == collid with
  | none => s
  | some g => s.endColl g

/-! ### Contributions (R251) -/

/-- Stage a rank's contribution up to byte `upto`. -/
def State.stage (s : State) (collid q : Nat) (c : Cmd) (h : Shape) (r : Rank) (upto : Nat) : State :=
  match engRun (fun s i => s.engByte c (h.srcAt i)) (upto - r.data.length) r.data.length s with
  | ((b, stop), s) =>
    let s := s.modColl collid fun g => g.modRank q fun r => { r with data := r.data ++ b }
    match stop with
    | none => s
    | some (.fail code) => s.failColl collid c code
    | some (.park va) => s.parkCmd c va
    | some .wait => s

/-- Results of a chunk leave for their ranks. -/
def State.sendChunk (s : State) (g : Coll) (h : Shape) (k : Nat) (out : Nat → List Byte) : State :=
  let s := (List.range h.n).foldl (fun s q =>
    if h.receives q then
      let (id, s) := s.fresh
      { s with deliveries := s.deliveries ++ [{ id := id, coll := g.collid, rank := q, chunk := k, data := out q }] }
    else s) s
  (s.modColl g.collid fun g => { g with reduced := g.reduced ++ [k] }).settleColl g.collid

/-- A rank's bytes of a chunk. -/
def Rank.chunkBytes (r : Rank) (h : Shape) (k : Nat) : List Byte := (r.data.drop (4096 * k)).take (h.chunkEnd k - 4096 * k)

/-- The die of a rank. -/
def State.rankDie (s : State) (g : Coll) (q : Nat) : Nat := ((s.collCmds g).getD q default).dkey

/-- An input reaches a node: its launch counter, set to the inputs that it awaits, falls by one; at zero a reduce block is queued on the
node's own die (R251). -/
def State.arriveNode (s : State) (g : Coll) (h : Shape) (k : Nat) (d : RedNode) : State :=
  let dk := s.rankDie g d.rank
  let mine (e : RedCount) : Bool := e.coll == g.collid && e.chunk == k && e.node == d
  let left := (match (s.die dk).counts.find? mine with | some e => e.left | none => h.inputs d) - 1
  s.modDie dk fun x =>
    let rest := x.counts.filter fun e => !mine e
    if left = 0 then { x with counts := rest, redq := x.redq ++ [{ coll := g.collid, chunk := k, node := d }] }
    else { x with counts := rest ++ [{ coll := g.collid, chunk := k, node := d, left := left }] }

/-- The record is a cavity reduction. -/
def State.isCav (s : State) (g : Coll) : Bool := ((s.collCmds g).headD default).kind == .cavred

/-- A rank's own bytes stand in an allocation that a stop has taken from it, unless Accord has staged them (R257). -/
def State.srcStopped (s : State) (c : Cmd) : Bool := inSaved c.shapeRaw.src && s.classStopped c.gang .accord

/-- CHUNK_ARRIVAL (R251): a rank's chunk is staged and arrives at its nodes, for an exact sum first with its exponents (R249). -/
def execChunkArrival (collid chunk rank : Nat) (s : State) : Host.Outcome State Fault Refusal :=
  match s.colls.find? fun g => g.collid == collid && g.granted with
  | none => .next s
  | some g =>
    let h := s.collShape g
    match g.ranks[rank]? with
    | none => .next s
    | some r =>
      match s.cmd? r.cmd with
      | none => .next s
      | some c =>
        let h' := c.shapeRaw
        let first : Bool := h.exact && r.arrived % 2 == 0
        if chunk ≠ r.arrived / h.phases || h.chunks ≤ chunk || !h.gives rank || c.parked.isSome then .next s
        else if r.data.length < h.chunkEnd chunk then
          .next (if s.srcStopped c then s else s.stage collid rank c h' r (h.chunkEnd chunk))
        else if h.exact && !first && !g.exps.contains chunk then .next s
        else
          let s := s.modColl collid fun g => g.modRank rank fun r => { r with arrived := r.arrived + 1 }
          .next ((if first then h.leaf .exps rank else h.nodesOf (s.isCav g) rank).foldl (fun s d => s.arriveNode g h chunk d) s)

/-! ### Reduce blocks (R251, R299) -/

/-- REDUCE_BLOCK_DISPATCH: the die's oldest reduce block goes to the lowest-numbered core whose reserved context is free and
which is not quarantined. -/
def execReduceBlockDispatch (pkg die : Nat) (s : State) : Host.Outcome State Fault Refusal :=
  let dk := dieKey pkg die
  match (s.die dk).redq with
  | [] => .next s
  | j :: rest =>
    match (List.range 160).find? fun i =>
        let k := s.core (coreKey pkg (160 * die + i))
        k.resv.isNone && !k.quar with
    | none => .next s
    | some i =>
      .next ((s.modDie dk fun d => { d with redq := rest }).modCore (coreKey pkg (160 * die + i)) fun k =>
        { k with resv := some { j with since := s.clockOf pkg, went := false } })

/-- Combine a chunk of a collective; its results leave. -/
def State.reduceChunk (s : State) (g : Coll) (k : Nat) : State :=
  let h := s.collShape g
  let cav := s.isCav g
  let outs := combine cav h.rop h.efmt (g.ranks.map fun r => r.chunkBytes h k)
  let fl (q : Nat) : W32 := (outs.getD q ([], 0)).2
  let s := s.modColl g.collid fun g =>
    if cav then { g with ranks := (g.ranks.zipIdx).map fun (r, q) => { r with flags := r.flags ||| fl q } }
    else { g with flags := g.flags ||| fl 0 }
  s.sendChunk g h k fun q => (outs.getD q ([], 0)).1

/-- The value of a node goes on to the next one of its pass, or leaves the last: a broadcast's bytes and a combination's results to
their ranks, the exponents to every contributor, a sweep to meet the other. -/
def State.nodeDone (s : State) (g : Coll) (k : Nat) (d : RedNode) : State :=
  let h := s.collShape g
  let swept (s : State) : State :=
    if g.swept.contains k then s.reduceChunk g k else s.modColl g.collid fun g => { g with swept := g.swept ++ [k] }
  match d.pass with
  | .exps =>
    (match treeNext h.n (d.level + 1) d.rank with
     | some (l, r) => s.arriveNode g h k ⟨.exps, l, r⟩
     | none => s.modColl g.collid fun g => { g with exps := g.exps ++ [k] })
  | .tree =>
    if h.rop = 0 then s.sendChunk g h k fun _ => (g.ranks.getD h.root default).chunkBytes h k
    else
      (match treeNext h.n (d.level + 1) d.rank with
       | some (l, r) => s.arriveNode g h k ⟨.tree, l, r⟩
       | none => s.reduceChunk g k)
  | .pre => if d.rank + 1 < h.n then s.arriveNode g h k ⟨.pre, 0, d.rank + 1⟩ else swept s
  | .post => if 0 < d.rank then s.arriveNode g h k ⟨.post, 0, d.rank - 1⟩ else swept s

/-- REDUCE_BLOCK_END: the block combines its node's inputs and leaves its context. -/
def execReduceBlockEnd (pkg core : Nat) (s : State) : Host.Outcome State Fault Refusal :=
  let ck := coreKey pkg core
  match (s.core ck).resv with
  | none => .next s
  | some j =>
    let s := s.modCore ck fun k => { k with resv := none }
    match s.colls.find? fun g => g.collid == j.coll with
    | none => .next s
    | some g => .next (if g.reduced.contains j.chunk then s else s.nodeDone g j.chunk j.node)

/-! ### Deliveries (R304, R325) -/

/-- The offset of an address in the allocation it names. -/
def allocOff (a : W64) : Nat := if a.toNat / 2 ^ 48 = 0xFFFD then a.toNat % 2 ^ 22 else a.toNat % 2 ^ 48

/-- What the receiving core finds of a delivery whose bytes run from `b` to `e`. -/
inductive Landed where
  | accept
  | drop
  | beyond
  deriving DecidableEq, Repr, Inhabited

def State.landing (s : State) (c : Cmd) (h : Shape) (r : Rank) (b e : Nat) : Landed :=
  if !r.land then .accept
  else if r.lost then .drop
  else
    match (s.landAt c h.dst).bind s.landEntry with
    | none => .drop
    | some l =>
      if l.lgen != r.lgen then .drop
      else if (List.range (e - b)).all fun i => decide (allocOff (h.dstAt (b + i)) < l.size) then .accept
      else .beyond

/-- The delivery is over, with an error or not. -/
def State.delivered (s : State) (d : Delivery) (code : Nat) : State :=
  let s := { s with deliveries := s.deliveries.filter fun x => x.id != d.id }
  (s.modColl d.coll fun g =>
    { (g.modRank d.rank fun r => { r with delivered := r.delivered + 1 }) with
      code := if g.code = 0 then code else g.code }).settleColl d.coll

/-- Write a delivery from the byte that its data begins at. -/
def State.deliverBytes (s : State) (d : Delivery) (c : Cmd) (h : Shape) : State :=
  let b := h.chunkEnd d.chunk - d.data.length
  let src (s : State) (i : Nat) : Except Stop Byte × State := (.ok (d.data.getD (i - b) 0), s)
  match copyUnits c src h.dstAt (d.data.length + 1) b d.data.length s with
  | ((m, stop), s) =>
    let s := s.modCmd c.id fun x => { x with sent := x.sent + m }
    match stop with
    | none => s.delivered d 0
    | some (.fail code) =>
      (s.modCmd c.id fun x => { x with aborts := x.aborts || code == 2 || code == 3 }).delivered d code
    | some (.park va) =>
      State.parkCmd { s with deliveries := s.deliveries.map fun (x : Delivery) =>
        if x.id == d.id then { x with data := x.data.drop m } else x } c va
    | some .wait => s

/-- The package of the Accord that sends a delivery: the source's of a broadcast, a cavity's own rank's, else rank 0's. -/
def State.senderOf (s : State) (g : Coll) (h : Shape) (q : Nat) : Nat :=
  ((s.collCmds g).getD (if h.rop = 0 then h.root else if s.isCav g then q else 0) default).pkg

/-- The receiving core turns a delivery away: an error response to the sending Accord, and the address and COLLID in its log (18_queues
R304, R325). -/
def State.turnAway (s : State) (d : Delivery) (c : Cmd) (h : Shape) (a : W64) : State :=
  let from' := match s.colls.find? fun g => g.collid == d.coll with
    | some g => s.senderOf g h d.rank
    | none => c.pkg
  (s.errResponse from' (4 + c.pkg)).modCore c.ckey fun k => { k with dropLog := k.dropLog ++ [(a, d.coll)] }

/-- DELIVERY_ARRIVAL (R325): checked once, on arrival; the chunks of one rank land in order. -/
def execDeliveryArrival (id : Nat) (s : State) : Host.Outcome State Fault Refusal :=
  match s.deliveries.find? fun d => d.id == id with
  | none => .next s
  | some d =>
    match (s.colls.find? fun g => g.collid == d.coll).bind fun g => g.ranks[d.rank]? with
    | none => .next s
    | some r =>
      match s.cmd? r.cmd with
      | none => .next s
      | some c =>
        let h := c.shapeRaw
        if d.chunk ≠ r.delivered || c.parked.isSome then .next s
        else
          let b := h.chunkEnd d.chunk - d.data.length
          match s.landing c h r b (h.chunkEnd d.chunk) with
          | .accept => .next (s.deliverBytes d c h)
          | .drop =>
            let s := s.post c.pkg { fn := c.fn, ty := 0x0D, launchid := c.launchid, wgid := (s.wg c.wg).wgid, core := c.core,
                                    value := h.dstAt b }
            .next ((s.turnAway d c h (h.dstAt b)).delivered d 4)
          | .beyond =>
            let s := s.turnAway d c h (h.dstAt b)
            let s := s.modCmd c.id fun x => { x with aborts := true }
            .next (s.delivered d 2)

end Sys2Proof.Machine
end

