-- ==== Sys2Proof/Machine/Control.lean ====
section
/-! DEFINITION. Group 4: branches, reconvergence barriers, ending and yielding, incumbents, bounds, cancellation and shields
(09_control R161 to R178), and their events. -/

namespace Sys2Proof.Machine

/-! ### Branches (R163) -/

/-- PC plus a signed word offset. -/
def branchTo (pc : W64) (v : BitVec 33) : W64 := pc + BitVec.ofInt 64 (8 * v.toInt)

/-- Where a thread goes: to its target, or BADPC for a misaligned one, with no other effect. -/
def toTarget (c : Site) (t : W64) : Fin :=
  if t.toNat % 8 = 0 then .goto t else .trap { cause := .badpc, pc := c.pc, addr := t }

/-- Per-thread jumps; `link` is the register pair that takes PC + 8 when the jump is made. -/
def jumpBody (target : Site → Frag → Env → W64) (link : Option XReg) : Body := fun s c fr who =>
  let l := who.map fun e => (e.tid, toTarget c (target c fr e))
  let s := match link with
    | none => s
    | some d => l.foldl (fun s (i, f) =>
        match f with
        | .goto _ => s.modThr (thrKey c.wg i) fun t => t.wxs (put64 d c.nextPc.toNat)
        | _ => s) s
  .done s l

/-- The conditions of BRC. -/
def bcond (b : BCond) (v : Int) : Bool :=
  match b with
  | .eqz => decide (v = 0)
  | .nez => decide (v ≠ 0)
  | .ltz => decide (v < 0)
  | .gez => decide (0 ≤ v)
  | .gtz => decide (0 < v)
  | .lez => decide (v ≤ 0)

def execBra (g : Guard) (v : BitVec 33) : State → Host.Outcome State Fault Refusal :=
  runWord (.bra g v) g (rdPlain (.bra g v)) always (jumpBody (fun c _ _ => branchTo c.pc v) none)

def execBrc (b : BCond) (a : Opnd) (g : Guard) (v : BitVec 33) : State → Host.Outcome State Fault Refusal :=
  runWord (.brc b a g v) g (rdPlain (.brc b a g v)) always
    (jumpBody (fun c _ e => if bcond b (sint 32 (readOp .w32 e a)) then branchTo c.pc v else c.nextPc) none)

def execCall (d : XReg) (g : Guard) (v : BitVec 33) : State → Host.Outcome State Fault Refusal :=
  runWord (.call d g v) g (rdPlain (.call d g v)) always (jumpBody (fun c _ _ => branchTo c.pc v) (some d))

def execRet (b : Base) (g : Guard) : State → Host.Outcome State Fault Refusal :=
  runWord (.ret b g) g (rdPlain (.ret b g)) always (jumpBody (fun _ _ e => readBase e b) none)

def execJmpi (b : Base) (g : Guard) : State → Host.Outcome State Fault Refusal :=
  runWord (.jmpi b g) g (rdPlain (.jmpi b g)) always (jumpBody (fun _ _ e => readBase e b) none)

def execJmpiLink (d : XReg) (b : Base) (g : Guard) : State → Host.Outcome State Fault Refusal :=
  runWord (.jmpiLink d b g) g (rdPlain (.jmpiLink d b g)) always (jumpBody (fun _ _ e => readBase e b) (some d))

/-! ### Words that change each executing thread alone -/

/-- Change each executing thread, which goes on at the next word. -/
def threadBody (f : Env → Thread → Thread) : Body := fun s c _ who =>
  .done (who.foldl (fun s e => s.modThr (thrKey c.wg e.tid) (f e)) s) (who.map fun e => (e.tid, .next))

/-! ### Reconvergence barriers (R164, R165) -/

def execRjoin (n : BitVec 4) (g : Guard) : State → Host.Outcome State Fault Refusal :=
  runWord (.rjoin n g) g (rdPlain (.rjoin n g)) always
    (threadBody fun _ t => { t with join := t.join ||| (1#16 <<< n.toNat) })

/-- RWAIT: a participant arrives and waits, its arrival a release at `.core` (12_ordering R217); any other thread goes on. -/
def rwaitBody (n : Nat) : Body := fun s c _ who =>
  let part (s : State) (e : Env) : Bool := (s.thr (thrKey c.wg e.tid)).join.getLsbD n
  if who.any fun e => part s e && !s.relDone (thrKey c.wg e.tid) .core then .held
  else
  .done (who.foldl (fun s e => s.modThr (thrKey c.wg e.tid) fun t =>
      if t.join.getLsbD n then { t.await (.rwait n) with arrive := t.arrive ||| (1#16 <<< n) } else t) s)
    (who.map fun e => (e.tid, if part s e then .stay else .next))

def execRwait (n : BitVec 4) (g : Guard) : State → Host.Outcome State Fault Refusal :=
  runWord (.rwait n g) g (rdPlain (.rwait n g)) always (rwaitBody n.toNat)

/-- Pack threads in TID order into groups of GWIDTH with repack sequence `seq` (01_machine R15). -/
def State.pack (s : State) (wk : Nat) (seq : Nat) (tids : List Nat) : State :=
  (tids.zipIdx).foldl (fun s (i, n) => s.modThr (thrKey wk i) fun t =>
    { t with lane := n % Config.gwidth, seq := seq, lead := tids.getD (n - n % Config.gwidth) 0 }) s

/-- RB_RELEASE (R165): every participant of barrier `n` has arrived; they are repacked together, each with an acquire at `.core`
(12_ordering R217). One that a pre-emption holds back releases nothing (R166). -/
def execRbRelease (wg n : Nat) (s : State) : Host.Outcome State Fault Refusal :=
  let w := s.wg wg
  let ps := (s.liveTids wg).filter fun i => (s.thr (thrKey wg i)).join.getLsbD n
  let here (i : Nat) : Bool :=
    let t := s.thr (thrKey wg i)
    t.arrive.getLsbD n && t.wait == .rwait n && s.wakes (thrKey wg i)
  if 16 ≤ n || ps.isEmpty || !(ps.all here) then .next s
  else
    let seq := w.seq + 1
    let s := s.modWg wg fun w => { w with seq := seq }
    let s := ps.foldl (fun s i => (s.endWait wg i).modThr (thrKey wg i) fun t =>
      { t with join := t.join &&& ~~~(1#16 <<< n), arrive := t.arrive &&& ~~~(1#16 <<< n), hold := .acq .core }) s
    .next (ps.foldl (fun s i => s.settleAcq (thrKey wg i)) (s.pack wg seq ps))

/-! ### Ending, idling and yielding (R167) -/

def execExit (g : Guard) : State → Host.Outcome State Fault Refusal :=
  runWord (.exit g) g (rdPlain (.exit g)) always fun s c _ who =>
    .done (who.foldl (fun s e => (s.modThr (thrKey c.wg e.tid) Thread.issue).exitThread c.wg e.tid) s)
      (who.map fun e => (e.tid, .ended))

def execNop (g : Guard) : State → Host.Outcome State Fault Refusal :=
  runWord (.nop g) g (rdPlain (.nop g)) always (threadBody fun _ t => t)

def execYield (g : Guard) : State → Host.Outcome State Fault Refusal :=
  runWord (.yield g) g (rdPlain (.yield g)) always fun s c fr who =>
    threadBody (fun _ t => { t with yielded := true, yieldAt := s.clockOf c.pkg }) s c fr who

/-- YIELD_EXPIRY: 64 I-cycles after its YIELD the thread takes its ordinary place again. -/
def execYieldExpiry (thr : Nat) (s : State) : Host.Outcome State Fault Refusal :=
  let t := s.thr thr
  if t.yielded && t.yieldAt + 64 ≤ s.clockOf (s.wg (thr / 2048)).pkg then
    .next (s.modThr thr fun t => { t with yielded := false })
  else .next s

/-- THREAD_AGED (18_queues R298): a thread runnable for 2,048 I-cycles goes ahead of all others. -/
def execThreadAged (thr : Nat) (s : State) : Host.Outcome State Fault Refusal :=
  let t := s.thr thr
  if s.ready (thr / 2048) (thr % 2048) && t.stood && t.since + 2048 ≤ s.clockOf (s.wg (thr / 2048)).pkg then
    .next (s.modThr thr fun t => { t with aged := true })
  else .next s

/-! ### Incumbents (R168 to R172) -/

/-- NOINC in every executing thread, when the incumbent is not declared. -/
def needInc (n : Nat) (b : Body) : Body := fun s c fr who =>
  if (s.launchOf (s.wg c.wg)).incDecl n then b s c fr who
  else .done s (who.map fun e => (e.tid, .trap { cause := .noinc, pc := c.pc, addr := BitVec.ofNat 64 n }))

/-- The address at which an offer enters a digest (15_counters R265). -/
def incAddr (n : Nat) : W64 := BitVec.ofNat 64 (0xFFFC000000000000 + 16 * n)

/-- One thread's offer: it leaves, or only enters the digest of a re-execution. -/
def State.offer (s : State) (c : Site) (n tid : Nat) (v : Inc) : State :=
  let s := s.digest c.wg (incAddr n) (natLe 8 v.key.toNat)
  let s := s.digest c.wg (incAddr n + 8) (natLe 8 v.pay.toNat)
  if s.redoing c.wg then s
  else
    let (id, s) := s.fresh
    let k := thrKey c.wg tid
    let ord := ((640 * c.pkg + c.core) * 2 + c.slot) * Config.gwidth + (s.thr k).lane
    { s with offers := s.offers ++ [{ id := id, pkg := c.pkg, ctx := (s.wg c.wg).ctx, n := n, thr := k, inc := v, ord := ord }] }

def execIncofr (n : BitVec 4) (a b : Base) (sm : Option SMod) (g : Guard) : State → Host.Outcome State Fault Refusal :=
  runWord (.incofr n a b sm g) g (fun fr e => rdOwn (baseX a) e ++ rdB fr sm (baseX b) e.lane) always
    (needInc n.toNat fun s c fr who =>
      .done (who.foldl (fun s e => s.offer c n.toNat e.tid ⟨readBase e a, readBaseMod fr e sm b⟩) s)
        (who.map fun e => (e.tid, .next)))

/-- Key and payload of a core's copy; an empty copy reads as the worst key with payload 0 (R171). -/
def State.incCopy (s : State) (wk n : Nat) : Inc :=
  let w := s.wg wk
  match tfind (bindIncs (s.core w.ckey).binds w.ctx) n with
  | some v => v
  | none => ⟨if (s.launchOf w).incMax n then 0 else BitVec.allOnes 64, 0⟩

def incOut (d : XReg) (p : IncPart) (v : Inc) : List (Nat × W32) :=
  match p with
  | .key => put64 d v.key.toNat
  | .pay => put64 d v.pay.toNat
  | .both => put64 d v.key.toNat ++ put64 (d + 2) v.pay.toNat

/-- An INCRD of the thread would return a worse key than an earlier one of its own: the copy of a core that it has been resumed on still
lags, and the value is on its way (R170, 12_ordering R223). -/
def State.incLags (s : State) (wk tid n : Nat) : Bool :=
  match tfind (s.thr (thrKey wk tid)).incSeen n with
  | none => false
  | some k => better ((s.launchOf (s.wg wk)).incMax n) k (s.incCopy wk n).key

def execIncrd (d : XReg) (p : IncPart) (n : BitVec 4) (g : Guard) : State → Host.Outcome State Fault Refusal :=
  runWord (.incrd d p n g) g (rdPlain (.incrd d p n g)) always
    (needInc n.toNat fun s c _ who =>
      let v := s.incCopy c.wg n.toNat
      if who.any fun e => s.incLags c.wg e.tid n.toNat then .held
      else
        let s := if who.isEmpty then s else s.spoil c.wg
        .done (who.foldl (fun s e => s.modThr (thrKey c.wg e.tid) fun t =>
            { t.wxs (incOut d p v) with incSeen := tset t.incSeen n.toNat v.key }) s)
          (who.map fun e => (e.tid, .next)))

def execIncwait (n : BitVec 4) (b : Base) (sm : Option SMod) (g : Guard) : State → Host.Outcome State Fault Refusal :=
  runWord (.incwait n b sm g) g (fun fr e => rdB fr sm (baseX b) e.lane) always
    (needInc n.toNat fun s c fr who =>
      let s := if who.isEmpty then s else s.spoil c.wg
      .done (who.foldl (fun s e => s.modThr (thrKey c.wg e.tid) fun t => t.await (.incwait n.toNat (readBaseMod fr e sm b))) s)
        (who.map fun e => (e.tid, .stay)))

/-- Whether the core's copy holds a strictly better key than an INCWAIT of the thread names. -/
def State.incMet (s : State) (k : Nat) : Bool :=
  let w := s.wg (k / 2048)
  s.wakes k &&
  (match (s.thr k).wait with
   | .incwait n key =>
     (match tfind (bindIncs (s.core w.ckey).binds w.ctx) n with
      | some v => better ((s.launchOf w).incMax n) v.key key
      | none => false)
   | _ => false)

/-- INCWAIT_WAKE (R172): the core's copy holds a strictly better key. -/
def execIncwaitWake (thr : Nat) (s : State) : Host.Outcome State Fault Refusal :=
  .next ((s.metMates thr s.incMet).foldl (fun x i => x.endWait (thr / 2048) i) s)

/-- The launch contexts that share an incumbent's home: the context alone, or all of its pod launch (R168). -/
def State.sharers (s : State) (ctx n : Nat) : List Nat :=
  let l := (s.ctx ctx).launch
  if l.incPod n && l.podn ≠ 0 then
    (s.ctxs.filter fun (_, c) => c.launch.podn ≠ 0 && c.launch.podkey == l.podkey).map (·.1)
  else [ctx]

/-- Updates to every copy of an incumbent: cores and Headspace units that hold a binding (R170, 23_index R352). -/
def State.spread (s : State) (ctxs : List Nat) (n : Nat) (v : Inc) : State :=
  let reach (unit : Bool) (s : State) (p : Nat × List Bind) : State :=
    p.2.foldl (fun s b =>
      if ctxs.contains b.ctx then
        let (id, s) := s.fresh
        { s with sillage := s.sillage ++ [{ id := id, unit := unit, key := p.1, ctx := b.ctx, n := n, inc := v }] }
      else s) s
  let s := (s.cores.map fun (k, c) => (k, c.binds)).foldl (reach false) s
  (s.units.map fun (k, u) => (k, u.binds)).foldl (reach true) s

/-- The home of an incumbent: its values. -/
def State.homeIncs (s : State) (ctx n : Nat) : Tbl Inc :=
  let c := s.ctx ctx
  if c.launch.incPod n && c.launch.podn ≠ 0 then
    (match s.pods.find? (·.key == c.launch.podkey) with
     | some p => p.incs
     | none => [])
  else c.incs

def State.setHome (s : State) (ctx n : Nat) (m : Tbl Inc) : State :=
  let c := s.ctx ctx
  if c.launch.incPod n && c.launch.podn ≠ 0 then
    { s with pods := s.pods.map fun p => if p.key == c.launch.podkey then { p with incs := m } else p }
  else s.modCtx ctx fun c => { c with incs := m }

/-- A launch context is bound to a core or a Headspace unit: its copies start empty, and each home's value is on its way
(04_registers R79, 23_index R352). -/
def State.bindCopies (s : State) (unit : Bool) (key ctx : Nat) : State :=
  let held := (if unit then (s.unit key).binds else (s.core key).binds).any fun b => b.ctx == ctx
  if held then s
  else
    let s := if unit then s.modUnit key fun u => { u with binds := u.binds ++ [{ ctx := ctx }] }
      else s.modCore key fun c => { c with binds := c.binds ++ [{ ctx := ctx }] }
    (List.range 16).foldl (fun s n =>
      match tfind (s.homeIncs ctx n) n with
      | none => s
      | some v =>
        let (id, s) := s.fresh
        { s with sillage := s.sillage ++ [{ id := id, unit := unit, key := key, ctx := ctx, n := n, inc := v }] }) s

/-- A core without a context's binding: its copies go, and with them the micro-TLB's translations of the context's function (11_memories
R200, assumption 85). -/
def Core.unbind (c : Core) (ctx fk : Nat) : Core :=
  { c with binds := c.binds.filter (fun b => b.ctx != ctx), utlb := c.utlb.filter fun e => e.fn != fk }

/-- The binding is released; updates on their way to it end there. -/
def State.unbindCopies (s : State) (unit : Bool) (key ctx : Nat) : State :=
  let fk := fnKey (ctx / 256) (s.ctx ctx).fn
  let s := if unit then s.modUnit key fun u => { u with binds := u.binds.filter fun b => b.ctx != ctx }
    else s.modCore key fun c => c.unbind ctx fk
  { s with sillage := s.sillage.filter fun m => !(m.unit == unit && m.key == key && m.ctx == ctx) }

/-- The last arrival of an offer at an incumbent's home: its I-cycle and its place among simultaneous ones. -/
def State.lastOffer (s : State) (ctx n : Nat) : Option (Nat × Nat) :=
  let c := s.ctx ctx
  if c.launch.incPod n && c.launch.podn ≠ 0 then
    (s.pods.find? (·.key == c.launch.podkey)).bind fun p => tfind p.offerAt n
  else tfind c.offerAt n

def State.setOffer (s : State) (ctx n : Nat) (v : Nat × Nat) : State :=
  let c := s.ctx ctx
  if c.launch.incPod n && c.launch.podn ≠ 0 then
    { s with pods := s.pods.map fun p => if p.key == c.launch.podkey then { p with offerAt := tset p.offerAt n v } else p }
  else if (tfind s.ctxs ctx).isSome then s.modCtx ctx fun c => { c with offerAt := tset c.offerAt n v }
  else s

/-- The package of an incumbent's home (R168): the launching one, or the lowest of the pod launch. -/
def State.homePkg (s : State) (ctx n : Nat) : Nat := ((s.sharers ctx n).map (· / 256)).foldl min (ctx / 256)

/-- Offers that arrive at a home in one I-cycle are taken in the order PKGID, COREID, issue slot, LANE (R169): one that would come before
an offer taken in this I-cycle arrives in a later one. -/
def State.offerLate (s : State) (o : Offer) : Bool :=
  match s.lastOffer o.ctx o.n with
  | none => false
  | some (at', ord) => at' == s.clockOf (s.homePkg o.ctx o.n) && decide (o.ord < ord)

/-- An offer is taken from its way: the home accepts it when it is empty or the key is strictly better, and an accepted value goes out to
every copy. -/
def State.takeOffer (s : State) (o : Offer) : State :=
  let s := { s with offers := s.offers.filter (·.id != o.id) }
  let h := s.homeIncs o.ctx o.n
  let isMax := (s.ctx o.ctx).launch.incMax o.n
  let accept : Bool := match tfind h o.n with
    | none => true
    | some x => better isMax o.inc.key x.key
  if (tfind s.ctxs o.ctx).isSome && accept then
    (s.setHome o.ctx o.n (tset h o.n o.inc)).spread (s.sharers o.ctx o.n) o.n o.inc
  else s

/-- OFFER_ARRIVAL (R169): an offer arrives at its home. The offers of one thread arrive in issue order. -/
def execOfferArrival (id : Nat) (s : State) : Host.Outcome State Fault Refusal :=
  match s.offers.find? (·.id == id) with
  | none => .next s
  | some o =>
    if (s.offers.any fun p => p.thr == o.thr && decide (p.id < o.id)) || s.offerLate o then .next s
    else .next ((s.setOffer o.ctx o.n (s.clockOf (s.homePkg o.ctx o.n), o.ord)).takeOffer o)

/-- Offers of a launch that completes are always delivered: those still on their way reach their homes first (R169, assumption 86). -/
def State.lastOffers (s : State) (ctx : Nat) : State := (s.offers.filter fun o => o.ctx == ctx).foldl State.takeOffer s

/-- A copy takes an arriving value; dominance heeds it two I-cycles later (R170, R175). -/
def Bind.take (b : Bind) (isMax : Bool) (n : Nat) (v : Inc) : Bind :=
  { b with incs := takeInc isMax b.incs n v, young := b.young ++ [{ n := n, old := tfind b.incs n, left := 2 }] }

/-- SILLAGE_DELIVERY (R170): an accepted value reaches one copy, which takes it when empty or strictly worse. -/
def execSillageDelivery (id : Nat) (s : State) : Host.Outcome State Fault Refusal :=
  match s.sillage.find? (·.id == id) with
  | none => .next s
  | some m =>
    let s := { s with sillage := s.sillage.filter (·.id != id) }
    let isMax := (s.ctx m.ctx).launch.incMax m.n
    let upd (l : List Bind) : List Bind := l.map fun b => if b.ctx == m.ctx then b.take isMax m.n m.inc else b
    .next (if m.unit then s.modUnit m.key fun u => { u with binds := upd u.binds }
      else s.modCore m.key fun c => { c with binds := upd c.binds })

/-! ### Bounds and cancellation (R174 to R178) -/

def execBound (n : BitVec 4) (b : Base) (sm : Option SMod) (g : Guard) : State → Host.Outcome State Fault Refusal :=
  runWord (.bound n b sm g) g (fun fr e => rdB fr sm (baseX b) e.lane) always
    (needInc n.toNat fun s c fr who =>
      .done (who.foldl (fun s e => s.modThr (thrKey c.wg e.tid) fun t =>
          { t with bnd := readBaseMod fr e sm b, bsel := BitVec.ofNat 5 (16 + n.toNat) }) s)
        (who.map fun e => (e.tid, .next)))

def execBoundNone (g : Guard) : State → Host.Outcome State Fault Refusal :=
  runWord (.boundNone g) g (rdPlain (.boundNone g)) always (threadBody fun _ t => { t with bnd := 0, bsel := 0 })

def execCancel (g : Guard) : State → Host.Outcome State Fault Refusal :=
  runWord (.cancel g) g (rdPlain (.cancel g)) always fun s c _ who =>
    .done (s.cancelAll c.wg (who.map fun e => e.tid)) (who.map fun e => (e.tid, .ended))

/-- SHIELD counts from the next instruction; its own issue is counted by the runner. -/
def execShield (n : BitVec 33) (g : Guard) : State → Host.Outcome State Fault Refusal :=
  runWord (.shield n g) g (rdPlain (.shield n g)) always
    (threadBody fun _ t =>
      if t.shc = 0 then { t with shc := if t.handler then n.toNat else n.toNat + 1 } else t)

end Sys2Proof.Machine
end

