-- ==== Sys2Proof/Machine/Counters.lean ====
section
/-! DEFINITION. Barrier objects and the instructions that arrive at them, wait on counters and read them (15_counters R259 to
R264, R270 to R275), with their events. -/

namespace Sys2Proof.Machine

/-! ### Barrier objects (R262)

The objects of a scope stand with their owner. A Drydown re-execution keeps objects of its own at every scope in its gang
(R268), under numbers from 16 up. -/

/-- Scopes as numbers: `.core` 0 to `.pod` 4. -/
def scIdx : Scope → Nat
  | .lane => 0
  | .core => 0
  | .quad => 1
  | .die => 2
  | .pkg => 3
  | .pod => 4

/-- A launch's `.pod` objects are shared by its pod launch. -/
def Launch.sharesPod (l : Launch) : Bool := l.podn != 0

/-- The pod launch of a key. -/
def State.podOf (s : State) (key : W64) : Option PodLaunch := s.pods.find? (·.key == key)

/-- A context's `.pkg` objects are numbered n; its own `.pod` objects, when it is no pod launch's, 16 + n. -/
def ctxPodKey (n : Nat) : Nat := 16 + n

/-- Object `n` of a scope as a workgroup sees it. -/
def State.bar (s : State) (wk : Nat) (sc : Scope) (n : Nat) : Bar :=
  let w := s.wg wk
  let g := s.gang w.gang
  let c := s.ctx w.ctx
  match sc with
  | .lane => tget {} w.bars n
  | .core => tget {} w.bars n
  | .quad => tget {} g.bars n
  | .die => if g.check.isSome then tget {} g.bars (16 + n) else tget {} c.dieBars (16 * (w.core / 160) + n)
  | .pkg => if g.check.isSome then tget {} g.bars (32 + n) else tget {} c.pkgBars n
  | .pod =>
    if g.check.isSome then tget {} g.bars (48 + n)
    else if c.launch.sharesPod then
      (match s.podOf c.launch.podkey with
       | some p => tget {} p.bars n
       | none => {})
    else tget {} c.pkgBars (ctxPodKey n)

/-- Change the object. -/
def State.modBar (s : State) (wk : Nat) (sc : Scope) (n : Nat) (f : Bar → Bar) : State :=
  let w := s.wg wk
  let g := s.gang w.gang
  let c := s.ctx w.ctx
  let inGang (k : Nat) : State := s.modGang w.gang fun g => { g with bars := tmod {} g.bars k f }
  match sc with
  | .lane => s.modWg wk fun w => { w with bars := tmod {} w.bars n f }
  | .core => s.modWg wk fun w => { w with bars := tmod {} w.bars n f }
  | .quad => inGang n
  | .die =>
    if g.check.isSome then inGang (16 + n)
    else s.modCtx w.ctx fun c => { c with dieBars := tmod {} c.dieBars (16 * (w.core / 160) + n) f }
  | .pkg =>
    if g.check.isSome then inGang (32 + n)
    else s.modCtx w.ctx fun c => { c with pkgBars := tmod {} c.pkgBars n f }
  | .pod =>
    if g.check.isSome then inGang (48 + n)
    else if c.launch.sharesPod then
      { s with pods := s.pods.map fun p => if p.key == c.launch.podkey then { p with bars := tmod {} p.bars n f } else p }
    else s.modCtx w.ctx fun c => { c with pkgBars := tmod {} c.pkgBars (ctxPodKey n) f }

/-- Threads of a workgroup counted in the current phase of a wider object, by scope and number. -/
def wideKey (sc : Scope) (n : Nat) : Nat := 16 * scIdx sc + n

def State.wideOf (s : State) (wk : Nat) (sc : Scope) (n : Nat) : List Nat := tget [] (s.wg wk).wide (wideKey sc n)

/-- A workgroup has not retired: a thread of it lives, or an engine command of one of its threads has not completed (R20, 21_tables R324). -/
def State.wgStands (s : State) (wk : Nat) : Bool := !(s.liveTids wk).isEmpty || s.cmds.any fun c => c.wg == wk

/-- A workgroup is expected at `.die` scope until its whole gang has retired (assumption 84). -/
def State.onDie (s : State) (d wk : Nat) : Bool :=
  (s.wg wk).core / 160 == d && (s.gang (s.wg wk).gang).st != .retired

/-- A workgroup has arrived at a wider object: whole by BARO, or with the last of its expected threads (R262). -/
def State.wgArrived (s : State) (wk : Nat) (sc : Scope) (n : Nat) : Bool :=
  (s.bar wk sc n).arr.contains wk ||
  (let l := s.wideOf wk sc n
   !l.isEmpty && (s.liveTids wk).all l.contains)

/-- Placed workgroups of a context, re-executions and gathered ones apart. -/
def State.placedWgs (s : State) (ctx : Nat) : List Nat :=
  (s.wgs.filter fun (_, w) => w.ctx == ctx && w.wgid.toNat < 2 ^ 31 && (s.gang w.gang).check == none).map (·.1)

/-- Workgroups of a context that still wait for placement. -/
def State.unplaced (s : State) (ctx : Nat) : Nat :=
  let c := s.ctx ctx
  ((s.fn (fnKey (ctx / 256) c.fn)).place.map fun e =>
    match e with
    | .fresh x next => if x = ctx then (c.launch.ngang - next) * c.launch.gang else 0
    | .back _ => 0).foldl (· + ·) 0

/-- The contexts of a workgroup's launch, or of its pod launch. -/
def State.podCtxs (s : State) (ctx : Nat) : List Nat :=
  let l := (s.ctx ctx).launch
  if l.sharesPod then
    (s.ctxs.filter fun (_, c) => c.launch.podn != 0 && c.launch.podkey == l.podkey).map (·.1)
  else [ctx]

/-- Launches of the pod launch that have completed. -/
def State.podDone (s : State) (ctx : Nat) : Nat :=
  match s.podOf (s.ctx ctx).launch.podkey with
  | some p => p.done.length
  | none => 0

/-- The workgroups expected at an object of a wider scope, and how many are expected that no workgroup stands for yet. -/
def State.expected (s : State) (wk : Nat) (sc : Scope) : List Nat × Nat :=
  let w := s.wg wk
  let g := s.gang w.gang
  if g.check.isSome then (g.members.filter s.wgStands, 0)
  else
    match sc with
    | .lane => (g.members.filter s.wgStands, 0)
    | .core => (g.members.filter s.wgStands, 0)
    | .quad => (g.members.filter s.wgStands, 0)
    | .die => ((s.placedWgs w.ctx).filter (s.onDie (w.core / 160)), 0)
    | .pkg => ((s.placedWgs w.ctx).filter s.wgStands, s.unplaced w.ctx)
    | .pod =>
      let cs := s.podCtxs w.ctx
      ((cs.flatMap s.placedWgs).filter s.wgStands,
       (cs.map s.unplaced).foldl (· + ·) 0 + ((s.ctx w.ctx).launch.podn - cs.length - s.podDone w.ctx))

/-- Arrivals still awaited in the current phase. -/
def State.awaited (s : State) (wk : Nat) (sc : Scope) (n : Nat) : Nat :=
  match sc with
  | .lane => ((s.liveTids wk).filter fun i => !(s.bar wk sc n).arr.contains i).length
  | .core => ((s.liveTids wk).filter fun i => !(s.bar wk sc n).arr.contains i).length
  | .quad => (let e := s.expected wk sc; (e.1.filter fun v => !s.wgArrived v sc n).length + e.2)
  | .die => (let e := s.expected wk sc; (e.1.filter fun v => !s.wgArrived v sc n).length + e.2)
  | .pkg => (let e := s.expected wk sc; (e.1.filter fun v => !s.wgArrived v sc n).length + e.2)
  | .pod => (let e := s.expected wk sc; (e.1.filter fun v => !s.wgArrived v sc n).length + e.2)

/-- `.core` scope. -/
def isCore (sc : Scope) : Bool := scIdx sc == 0

/-- Some arrival has been made in the current phase. -/
def State.someArrival (s : State) (wk : Nat) (sc : Scope) (n : Nat) : Bool :=
  !(s.bar wk sc n).arr.isEmpty || (!isCore sc && (s.expected wk sc).1.any fun v => s.wgArrived v sc n)

/-- The object's phase ends: PHASE advances and every flag clears. -/
def State.endPhase (s : State) (wk : Nat) (sc : Scope) (n : Nat) : State :=
  let ws := if isCore sc then [] else (s.expected wk sc).1
  let s := s.modBar wk sc n fun b => { phase := b.phase + 1, arr := [] }
  ws.foldl (fun s v => s.modWg v fun w => { w with wide := tdel w.wide (wideKey sc n) }) s

/-- A workgroup that sees the object of a scope, owner and number: the owner is a workgroup for `.core`, a gang for `.quad`,
4 × context + die for `.die`, a context for `.pkg` and `.pod`. -/
def State.viewer (s : State) (sc : Scope) (owner : Nat) : Option Nat :=
  match sc with
  | .lane => some owner
  | .core => some owner
  | .quad => (s.gang owner).members.find? s.wgStands
  | .die => (s.placedWgs (owner / 4)).find? (s.onDie (owner % 4))
  | .pkg => (s.placedWgs owner).find? s.wgStands
  | .pod => ((s.podCtxs owner).flatMap s.placedWgs).find? s.wgStands

/-- The scope that an object number of a re-executed gang stands for (R268). -/
def ownScope (sc : Scope) (n : Nat) : Scope :=
  if sc == .quad && 16 ≤ n then (if n < 32 then .die else if n < 48 then .pkg else .pod) else sc

/-- PHASE_COMPLETE (R262): every expected arriver has arrived. -/
def execPhaseComplete (sc : Scope) (owner n : Nat) (s : State) : Host.Outcome State Fault Refusal :=
  match s.viewer sc owner with
  | none => .next s
  | some v =>
    let sc := ownScope sc n
    let n := n % 16
    if s.awaited v sc n = 0 && s.someArrival v sc n then .next (s.endPhase v sc n) else .next s

/-! ### Instructions -/

/-- A workgroup gathered from continuation records names no object of `.die` scope or wider (R262). -/
def barOk (sc : Scope) (s : State) (c : Site) : Bool :=
  decide (scIdx sc < 2) || decide ((s.wg c.wg).wgid.toNat < 2 ^ 31)

/-- The thread's flag is set in the current phase (R263). -/
def State.hasFlag (s : State) (wk tid : Nat) (sc : Scope) (n : Nat) : Bool :=
  if isCore sc then (s.bar wk sc n).arr.contains tid else (s.wideOf wk sc n).contains tid

/-- One thread arrives. -/
def State.arriveAt (s : State) (wk tid : Nat) (sc : Scope) (n : Nat) : State :=
  if isCore sc then s.modBar wk sc n fun b => { b with arr := ninsert b.arr tid }
  else
    (s.modBar wk sc n fun b => b).modWg wk fun w =>
      { w with wide := tset w.wide (wideKey sc n) (ninsert (tget [] w.wide (wideKey sc n)) tid) }

/-- BAR (R271): arrival is a release at the scope; a thread whose flag is set holds the word (R263). -/
def barBody (d : XReg) (sc : Scope) (n : Nat) : Body := fun s c _ who =>
  if who.any fun e => s.hasFlag c.wg e.tid sc n || !s.relDone (thrKey c.wg e.tid) sc then .held
  else
    let ph := (s.bar c.wg sc n).phase.toNat
    .done (who.foldl (fun s e => (s.arriveAt c.wg e.tid sc n).modThr (thrKey c.wg e.tid) fun t => t.wxs (put32 d ph)) s)
      (who.map fun e => (e.tid, .next))

def execBar (d : XReg) (sc : Scope) (n : BitVec 4) (g : Guard) : State → Host.Outcome State Fault Refusal :=
  runWord (.bar d sc n g) g (rdPlain (.bar d sc n g)) (barOk sc) (barBody d sc n.toNat)

/-- BARO (R271): the workgroup arrives whole, once, on behalf of the lowest executing thread. -/
def baroBody (d : XReg) (sc : Scope) (n : Nat) : Body := fun s c _ who =>
  match who with
  | [] => .done s []
  | e :: _ =>
    if s.wgArrived c.wg sc n || !s.relDone (thrKey c.wg e.tid) sc then .held
    else
      let ph := (s.bar c.wg sc n).phase.toNat
      let s := s.modBar c.wg sc n fun b => { b with arr := ninsert b.arr c.wg }
      .done (who.foldl (fun s e => s.modThr (thrKey c.wg e.tid) fun t => t.wxs (put32 d ph)) s)
        (who.map fun e => (e.tid, .next))

def execBaro (d : XReg) (sc : Scope) (n : BitVec 4) (g : Guard) : State → Host.Outcome State Fault Refusal :=
  runWord (.baro d sc n g) g (rdPlain (.baro d sc n g)) (barOk sc) (baroBody d sc n.toNat)

/-- The phase named by a token has completed (R272). -/
def passed (phase : BitVec 16) (tok : Nat) : Bool :=
  let d := (phase.toNat + 2 ^ 16 - tok % 2 ^ 16) % 2 ^ 16
  decide (1 ≤ d) && decide (d ≤ 0x7FFF)

/-- BARW (R272). A wait on an object of `.die` scope is remembered with the launch (R262). -/
def barwBody (b : Opnd) (sc : Scope) (n : Nat) : Body := fun s c _ who =>
  let s := if who.isEmpty || sc != .die then s else s.modBar c.wg sc n fun b => b
  .done (who.foldl (fun s e => s.modThr (thrKey c.wg e.tid) fun t => t.await (.barw sc n (readOp .w32 e b % 2 ^ 16))) s)
    (who.map fun e => (e.tid, .stay))

def execBarw (b : Opnd) (sc : Scope) (n : BitVec 4) (g : Guard) : State → Host.Outcome State Fault Refusal :=
  runWord (.barw b sc n g) g (rdPlain (.barw b sc n g)) (barOk sc) (barwBody b sc n.toNat)

/-- Whether the token that a BARW of the thread names is passed. -/
def State.barMet (s : State) (k : Nat) : Bool :=
  s.wakes k &&
  (match (s.thr k).wait with
   | .barw sc n tok => passed (s.bar (k / 2048) sc n).phase tok
   | _ => false)

/-- The end of a BARW: the thread goes on, after the acquire of R217. -/
def State.endBarw (s : State) (k : Nat) : State :=
  match (s.thr k).wait with
  | .barw sc _ _ =>
    ((s.endWait (k / 2048) (k % 2048)).modThr k fun t => { t with hold := .acq sc }).settleAcq k
  | _ => s

/-- BARRIER_WAKE (R264): the token is passed. -/
def execBarrierWake (thr : Nat) (s : State) : Host.Outcome State Fault Refusal :=
  .next ((s.metMates thr s.barMet).foldl (fun x i => x.endBarw (thrKey (thr / 2048) i)) s)

/-- Outstanding commands of a core, oldest first; a copy step of a LOOPNEST is no command of its own (14_engines R256). -/
def State.cmdsOf (s : State) (p core : Nat) : List Cmd :=
  s.cmds.filter fun c => c.pkg == p && c.core == core && c.quiet == none

def execWaitptr (ch : BitVec 3) (b : Base) (g : Guard) : State → Host.Outcome State Fault Refusal :=
  runWord (.waitptr ch b g) g (rdPlain (.waitptr ch b g)) always fun s c _ who =>
    .done (who.foldl (fun s e => s.modThr (thrKey c.wg e.tid) fun t => t.await (.ptr ch.toNat (readBase e b))) s)
      (who.map fun e => (e.tid, .stay))

def execWaitptrTicket (b : Opnd) (g : Guard) : State → Host.Outcome State Fault Refusal :=
  runWord (.waitptrTicket b g) g (rdPlain (.waitptrTicket b g)) always fun s c _ who =>
    .done (who.foldl (fun s e => s.modThr (thrKey c.wg e.tid) fun t =>
        t.await (.ticket (BitVec.ofNat 32 (readOp .w32 e b)))) s)
      (who.map fun e => (e.tid, .stay))

/-- Whether the pointer that a WAITPTR of the thread names has passed the bound, or no command bears its ticket. -/
def State.ptrMet (s : State) (k : Nat) : Bool :=
  let w := s.wg (k / 2048)
  s.wakes k &&
  (match (s.thr k).wait with
   | .ptr c bound => decide (bound ≤ (s.core w.ckey).wptr.getD c 0)
   | .ticket t => !((s.cmdsOf w.pkg w.core).any fun c => c.ticket == t)
   | _ => false)

/-- WAITPTR_WAKE (R273). -/
def execWaitptrWake (thr : Nat) (s : State) : Host.Outcome State Fault Refusal :=
  .next ((s.metMates thr s.ptrMet).foldl (fun x i => x.endWait (thr / 2048) i) s)

/-- A counter that CNTRD reads (R274). -/
def State.counter (s : State) (wk : Nat) (sel : Nat) (sc : Option Scope) : Nat :=
  let w := s.wg wk
  let c := s.core w.ckey
  if sel < 8 then (c.wptr.getD sel 0).toNat
  else if sel = 8 then c.tseq.toNat
  else if sel = 9 then
    (match s.cmdsOf w.pkg w.core with
     | [] => (c.tseq + 1).toNat
     | x :: _ => x.ticket.toNat)
  else if 0x10 ≤ sel && sel < 0x20 then
    (match sc with
     | some sc => (s.bar wk sc (sel - 0x10)).phase.toNat + 2 ^ 16 * min (s.awaited wk sc (sel - 0x10)) 0xFFFF
     | none => 0)
  else if sel = 0x4C then (s.pkg w.pkg).drySkip.toNat
  else (c.perf.getD (sel - 0x40) 0).toNat

/-- CNTRD of a barrier object of `.die` scope or wider is illegal in a gathered workgroup (R262). -/
def cntOk (sc : Option Scope) (s : State) (c : Site) : Bool :=
  match sc with
  | some sc => barOk sc s c
  | none => true

def execCntrd (d : XReg) (sel : BitVec 8) (sc : Option Scope) (g : Guard) : State → Host.Outcome State Fault Refusal :=
  runWord (.cntrd d sel sc g) g (rdPlain (.cntrd d sel sc g)) (cntOk sc) fun s c _ who =>
    let v := s.counter c.wg sel.toNat sc
    let s := if who.isEmpty then s else s.spoil c.wg
    .done (who.foldl (fun s e => s.modThr (thrKey c.wg e.tid) fun t => t.wxs (put64 d v)) s) (who.map fun e => (e.tid, .next))

/-! ### Clearing counters (R260, R261) -/

/-- A host write of zero to DROPPED of a core. -/
def execCntclrDropped (pkg core : Nat) (s : State) : Host.Outcome State Fault Refusal :=
  .next (s.hostDo pkg 0 fun s => s.modCore (coreKey pkg core) fun c => { c with dropped := 0 })

/-- A host write of zero to a core's performance counters, all together; DRYSKIP is the package's. -/
def execCntclrPerf (pkg core : Nat) (s : State) : Host.Outcome State Fault Refusal :=
  .next (s.hostDo pkg 0 fun s =>
    (s.modCore (coreKey pkg core) fun c => { c with perf := List.replicate 13 0 }).modPkg pkg fun p => { p with drySkip := 0 })

end Sys2Proof.Machine
end

