-- ==== Sys2Proof/WellFormed.lean ====
section
/-! DEFINITION. Well-formed instructions: the words of 03_encoding R68 that raise no ILLEGAL on their own bits. -/

namespace Sys2Proof

/-- `i` breaks no static condition of R68 (Machine.legal writes them out). -/
def Instr.wf (i : Instr) : Bool := Machine.legal i

/-- `i` as a proposition. -/
abbrev Instr.WellFormed (i : Instr) : Prop := i.wf = true

end Sys2Proof
end

