-- ==== Sys2Proof/Decode.lean ====
section
/-! DEFINITION. The decoder, total on any 64-bit word and rejecting by the condition of 03_encoding R68 that the word
breaks, and after it the encoder, written from the same layouts (R53, R62). Register parity, limits of a modifier and
the pairing rules are `Instr.wf`. -/

namespace Sys2Proof

/-- Why a word is no instruction: the conditions of R68 that show in its bits alone. -/
inductive Reject where
  | undefinedOpcode
  | reservedField
  | reservedOperand
  | operandKind
  | fieldValue
  | sourceModifier
  deriving DecidableEq, Repr, Inhabited

/-- The result of decoding a part of a word. -/
abbrev Dec (α : Type) := Except Reject α

/-- Reject with `r` unless `b`. -/
def need (b : Bool) (r : Reject) : Dec Unit := if b then .ok () else .error r

/-! ### Field layouts -/

/-- The fields of an F-, M- or E-form word (R53); `sm` is SMOD or OFF. -/
structure FF where
  op : BitVec 10
  d : BitVec 8
  a : BitVec 8
  b : BitVec 8
  sm : BitVec 12
  g : BitVec 4
  x : BitVec 13
  deriving DecidableEq, Repr, Inhabited

/-- The fields of an I-form word (R53). -/
structure IF where
  op : BitVec 10
  d : BitVec 8
  a : BitVec 8
  g : BitVec 4
  imm : BitVec 33
  deriving DecidableEq, Repr, Inhabited

/-- The word of F-form fields. -/
def FF.word (f : FF) : W64 := 0#1 ++ f.op ++ f.d ++ f.a ++ f.b ++ f.sm ++ f.g ++ f.x

/-- The word of I-form fields. -/
def IF.word (f : IF) : W64 := 0#1 ++ f.op ++ f.d ++ f.a ++ f.g ++ f.imm

/-- Read a word as F-form fields. -/
def FF.of (w : W64) : FF :=
  { op := w.extractLsb' 53 10, d := w.extractLsb' 45 8, a := w.extractLsb' 37 8, b := w.extractLsb' 29 8,
    sm := w.extractLsb' 17 12, g := w.extractLsb' 13 4, x := w.extractLsb' 0 13 }

/-- Read a word as I-form fields. -/
def IF.of (w : W64) : IF :=
  { op := w.extractLsb' 53 10, d := w.extractLsb' 45 8, a := w.extractLsb' 37 8,
    g := w.extractLsb' 33 4, imm := w.extractLsb' 0 33 }

/-- A 12-bit SMOD or 13-bit X as its parts. -/
structure XF where
  w : BitVec 2
  s : Bool
  r : BitVec 3
  t : Bool
  l : BitVec 6
  deriving DecidableEq, Repr, Inhabited

/-- X from its common parts: width, signedness, rounding, saturate, low six bits (R61). -/
def XF.bits (x : XF) : BitVec 13 := x.w ++ BitVec.ofBool x.s ++ x.r ++ BitVec.ofBool x.t ++ x.l

/-- X read as its common parts. -/
def XF.of (x : BitVec 13) : XF :=
  { w := x.extractLsb' 11 2, s := x.getLsbD 10, r := x.extractLsb' 7 3, t := x.getLsbD 6, l := x.extractLsb' 0 6 }

/-! ### Small codes -/

def encW : Width → BitVec 2
  | .w32 => 0
  | .w64 => 1
  | .w16 => 2
  | .w8 => 3

def decW (c : BitVec 2) : Width :=
  match c.toNat with
  | 0 => .w32
  | 1 => .w64
  | 2 => .w16
  | _ => .w8

def encW2 : W2 → BitVec 2
  | .w32 => 0
  | .w64 => 1

def decW2 (c : BitVec 2) : Dec W2 :=
  match c.toNat with
  | 0 => .ok .w32
  | 1 => .ok .w64
  | _ => .error .fieldValue

/-- Float width of R61: X[12:11] and X[10]. -/
def encFF : FFmt → BitVec 2 × Bool
  | .f32 => (0, false)
  | .f16 => (2, false)
  | .bf16 => (2, true)

def decFF (c : BitVec 2) (s : Bool) : Dec FFmt :=
  match c.toNat, s with
  | 0, false => .ok .f32
  | 2, false => .ok .f16
  | 2, true => .ok .bf16
  | _, _ => .error .fieldValue

/-- The two-bit format code of FFMA, FCVTI and ICVTF (R61, R108). -/
def encF2c : FFmt → BitVec 2
  | .f32 => 0
  | .f16 => 1
  | .bf16 => 2

def decF2c (c : BitVec 2) : Dec FFmt :=
  match c.toNat with
  | 0 => .ok .f32
  | 1 => .ok .f16
  | 2 => .ok .bf16
  | _ => .error .fieldValue

/-- Format codes of R116. -/
def encNF : NFmt → BitVec 3
  | .f32 => 0
  | .f16 => 1
  | .bf16 => 2
  | .e4m3 => 3
  | .e5m2 => 4
  | .e2m1 => 5
  | .e8m0 => 6

def decNF (c : BitVec 3) : Dec NFmt :=
  match c.toNat with
  | 0 => .ok .f32
  | 1 => .ok .f16
  | 2 => .ok .bf16
  | 3 => .ok .e4m3
  | 4 => .ok .e5m2
  | 5 => .ok .e2m1
  | 6 => .ok .e8m0
  | _ => .error .fieldValue

/-- Rounding codes of R34. -/
def encRM : RM → BitVec 3
  | .rne => 0
  | .rtz => 1
  | .rup => 2
  | .rdn => 3
  | .rna => 4

def decRM (c : BitVec 3) : Dec RM :=
  match c.toNat with
  | 0 => .ok .rne
  | 1 => .ok .rtz
  | 2 => .ok .rup
  | 3 => .ok .rdn
  | 4 => .ok .rna
  | _ => .error .fieldValue

/-- Operand codes of R56. -/
def encOp : Opnd → BitVec 8
  | .x n => 0#1 ++ n
  | .k n => 2#2 ++ n
  | .zero => 0xC8
  | .lane => 0xC9
  | .gwidth => 0xCA
  | .tid => 0xCB
  | .imm v => 7#3 ++ v

def decOp (c : BitVec 8) : Dec Opnd :=
  if c.getLsbD 7 = false then .ok (.x (c.extractLsb' 0 7))
  else if c.getLsbD 6 = false then .ok (.k (c.extractLsb' 0 6))
  else if c.getLsbD 5 = true then .ok (.imm (c.extractLsb' 0 5))
  else if c = 0xC8 then .ok .zero
  else if c = 0xC9 then .ok .lane
  else if c = 0xCA then .ok .gwidth
  else if c = 0xCB then .ok .tid
  else if c.toNat < 0xC8 then .error .operandKind
  else .error .reservedOperand

/-- A field that must name an x register. -/
def encX (n : XReg) : BitVec 8 := 0#1 ++ n
def decX (c : BitVec 8) : Dec XReg :=
  if c.getLsbD 7 = false then .ok (c.extractLsb' 0 7) else .error .operandKind

/-- A field that must name a k register. -/
def encK (n : KReg) : BitVec 8 := 2#2 ++ n
def decK (c : BitVec 8) : Dec KReg :=
  if c.extractLsb' 6 2 = 2#2 then .ok (c.extractLsb' 0 6) else .error .operandKind

/-- A 64-bit base. -/
def encBase : Base → BitVec 8
  | .x n => encX n
  | .k n => encK n
def decBase (c : BitVec 8) : Dec Base :=
  if c.getLsbD 7 = false then .ok (.x (c.extractLsb' 0 7))
  else if c.extractLsb' 6 2 = 2#2 then .ok (.k (c.extractLsb' 0 6))
  else .error .operandKind

/-- A destination that may be a k register. -/
def encDst : Dst → BitVec 8
  | .x n => encX n
  | .k n => encK n
def decDst (c : BitVec 8) : Dec Dst :=
  if c.getLsbD 7 = false then .ok (.x (c.extractLsb' 0 7))
  else if c.extractLsb' 6 2 = 2#2 then .ok (.k (c.extractLsb' 0 6))
  else .error .operandKind

/-- An accumulator code, 0xC0 to 0xC7. -/
def encA (n : AReg) : BitVec 8 := 0x18#5 ++ n
def decA (c : BitVec 8) : Dec AReg :=
  if c.extractLsb' 3 5 = 0x18#5 then .ok (c.extractLsb' 0 3) else .error .operandKind

/-- A predicate destination: D[2:0], the rest zero (R57). -/
def encQ (q : QReg) : BitVec 8 := 0#5 ++ q
def decQ (c : BitVec 8) : Dec QReg :=
  if c.extractLsb' 3 5 = 0#5 then .ok (c.extractLsb' 0 3) else .error .operandKind

/-- Guards (R58). -/
def encG (g : Guard) : BitVec 4 := BitVec.ofBool g.neg ++ g.q
def decG (c : BitVec 4) : Guard := { neg := c.getLsbD 3, q := c.extractLsb' 0 3 }

/-- Source modifiers (R59): class none needs the other bits zero. -/
def encSM : Option SMod → BitVec 12
  | none => 0
  | some m =>
    (match m.cls with | .rot => 1#2 | .bfly => 2#2 | .bcast => 3#2) ++ BitVec.ofBool m.rel ++ m.s ++ m.d

def decSM (c : BitVec 12) : Dec (Option SMod) :=
  match (c.extractLsb' 10 2).toNat with
  | 0 => if c = 0 then .ok none else .error .sourceModifier
  | 1 => .ok (some ⟨.rot, c.getLsbD 9, c.extractLsb' 5 4, c.extractLsb' 0 5⟩)
  | 2 => .ok (some ⟨.bfly, c.getLsbD 9, c.extractLsb' 5 4, c.extractLsb' 0 5⟩)
  | _ => .ok (some ⟨.bcast, c.getLsbD 9, c.extractLsb' 5 4, c.extractLsb' 0 5⟩)

/-- Order and scope codes (R227, R12). -/
def encOrd : MOrd → BitVec 3
  | .rlx => 0
  | .acq => 1
  | .rel => 2
  | .ar => 3
  | .sc => 4
def decOrd (c : BitVec 3) : Dec MOrd :=
  match c.toNat with
  | 0 => .ok .rlx
  | 1 => .ok .acq
  | 2 => .ok .rel
  | 3 => .ok .ar
  | 4 => .ok .sc
  | _ => .error .fieldValue
def encSc : Scope → BitVec 3
  | .lane => 0
  | .core => 1
  | .quad => 2
  | .die => 3
  | .pkg => 4
  | .pod => 5
def decSc (c : BitVec 3) : Dec Scope :=
  match c.toNat with
  | 0 => .ok .lane
  | 1 => .ok .core
  | 2 => .ok .quad
  | 3 => .ok .die
  | 4 => .ok .pkg
  | 5 => .ok .pod
  | _ => .error .fieldValue

def encCond : ICond → BitVec 3
  | .eq => 0
  | .ne => 1
  | .lt => 2
  | .le => 3
  | .gt => 4
  | .ge => 5
def decCond (c : BitVec 3) : Dec ICond :=
  match c.toNat with
  | 0 => .ok .eq
  | 1 => .ok .ne
  | 2 => .ok .lt
  | 3 => .ok .le
  | 4 => .ok .gt
  | 5 => .ok .ge
  | _ => .error .fieldValue

def encFCond : FCond → BitVec 3
  | .eq => 0
  | .ne => 1
  | .lt => 2
  | .le => 3
  | .gt => 4
  | .ge => 5
  | .un => 6
  | .or => 7
def decFCond (c : BitVec 3) : FCond :=
  match c.toNat with
  | 0 => .eq
  | 1 => .ne
  | 2 => .lt
  | 3 => .le
  | 4 => .gt
  | 5 => .ge
  | 6 => .un
  | _ => .or

def encBCond : BCond → BitVec 8
  | .eqz => 0
  | .nez => 1
  | .ltz => 2
  | .gez => 3
  | .gtz => 4
  | .lez => 5
def decBCond (c : BitVec 8) : Dec BCond :=
  match c.toNat with
  | 0 => .ok .eqz
  | 1 => .ok .nez
  | 2 => .ok .ltz
  | 3 => .ok .gez
  | 4 => .ok .gtz
  | 5 => .ok .lez
  | _ => .error .fieldValue

def encLOp : LOp → BitVec 3
  | .add => 0
  | .max => 1
  | .min => 2
  | .and => 3
  | .or => 4
  | .xor => 5
  | .mul => 6
def decLOp (c : BitVec 3) : Dec LOp :=
  match c.toNat with
  | 0 => .ok .add
  | 1 => .ok .max
  | 2 => .ok .min
  | 3 => .ok .and
  | 4 => .ok .or
  | 5 => .ok .xor
  | 6 => .ok .mul
  | _ => .error .fieldValue

def encShM : ShMode → BitVec 2
  | .up => 0
  | .down => 1
  | .xor => 2
  | .idx => 3
def decShM (c : BitVec 2) : ShMode :=
  match c.toNat with
  | 0 => .up
  | 1 => .down
  | 2 => .xor
  | _ => .idx

def encVC : VCnt → BitVec 2
  | .x2 => 0
  | .x4 => 1
  | .x8 => 2
def decVC (c : BitVec 2) : Dec VCnt :=
  match c.toNat with
  | 0 => .ok .x2
  | 1 => .ok .x4
  | 2 => .ok .x8
  | _ => .error .fieldValue

def encAOp : AOp → BitVec 4
  | .add => 0
  | .sub => 1
  | .and => 2
  | .or => 3
  | .xor => 4
  | .min => 5
  | .max => 6
  | .xchg => 7
  | .fadd => 8
def decAOp (c : BitVec 4) : Dec AOp :=
  match c.toNat with
  | 0 => .ok .add
  | 1 => .ok .sub
  | 2 => .ok .and
  | 3 => .ok .or
  | 4 => .ok .xor
  | 5 => .ok .min
  | 6 => .ok .max
  | 7 => .ok .xchg
  | 8 => .ok .fadd
  | _ => .error .fieldValue

def encAK : AKind → BitVec 2
  | .i48 => 0
  | .i64 => 1
  | .f32 => 2
def decAK (c : BitVec 2) : Dec AKind :=
  match c.toNat with
  | 0 => .ok .i48
  | 1 => .ok .i64
  | 2 => .ok .f32
  | _ => .error .fieldValue

def encPart : IncPart → BitVec 2
  | .key => 0
  | .pay => 1
  | .both => 2
def decPart (c : BitVec 2) : Dec IncPart :=
  match c.toNat with
  | 0 => .ok .key
  | 1 => .ok .pay
  | 2 => .ok .both
  | _ => .error .fieldValue

/-! ### Halves (R62, R63) -/

def encHop : HOp → BitVec 7
  | .add => 0x00#7
  | .sub => 0x01#7
  | .mul => 0x02#7
  | .minI32 => 0x03#7
  | .minN32 => 0x04#7
  | .maxI32 => 0x05#7
  | .maxN32 => 0x06#7
  | .absI32 => 0x07#7
  | .and => 0x08#7
  | .or => 0x09#7
  | .xor => 0x0A#7
  | .andn => 0x0B#7
  | .shl => 0x0C#7
  | .shr => 0x0D#7
  | .sar => 0x0E#7
  | .rol => 0x0F#7
  | .popc => 0x10#7
  | .clz => 0x11#7
  | .ctz => 0x12#7
  | .brev => 0x13#7
  | .mov => 0x14#7
  | .fadd => 0x20#7
  | .fsub => 0x21#7
  | .fmul => 0x22#7
  | .fmin => 0x23#7
  | .fmax => 0x24#7
  | .frcp => 0x25#7
  | .fsqrt => 0x26#7
  | .frsq => 0x27#7
  | .fexp2 => 0x28#7
  | .flog2 => 0x29#7
  | .frnd => 0x2A#7
  | .ldB32 => 0x40#7
  | .stB32 => 0x41#7
  | .ldB64 => 0x42#7
  | .stB64 => 0x43#7
  | .pref => 0x44#7
  | .perm => 0x60#7
  | .reduceAddI32 => 0x61#7
  | .reduceMaxI32 => 0x62#7
  | .reduceMinI32 => 0x63#7
  | .scanAddI32 => 0x64#7

def decHop (c : BitVec 7) : Dec HOp :=
  match c.toNat with
  | 0x00 => .ok .add
  | 0x01 => .ok .sub
  | 0x02 => .ok .mul
  | 0x03 => .ok .minI32
  | 0x04 => .ok .minN32
  | 0x05 => .ok .maxI32
  | 0x06 => .ok .maxN32
  | 0x07 => .ok .absI32
  | 0x08 => .ok .and
  | 0x09 => .ok .or
  | 0x0A => .ok .xor
  | 0x0B => .ok .andn
  | 0x0C => .ok .shl
  | 0x0D => .ok .shr
  | 0x0E => .ok .sar
  | 0x0F => .ok .rol
  | 0x10 => .ok .popc
  | 0x11 => .ok .clz
  | 0x12 => .ok .ctz
  | 0x13 => .ok .brev
  | 0x14 => .ok .mov
  | 0x20 => .ok .fadd
  | 0x21 => .ok .fsub
  | 0x22 => .ok .fmul
  | 0x23 => .ok .fmin
  | 0x24 => .ok .fmax
  | 0x25 => .ok .frcp
  | 0x26 => .ok .fsqrt
  | 0x27 => .ok .frsq
  | 0x28 => .ok .fexp2
  | 0x29 => .ok .flog2
  | 0x2A => .ok .frnd
  | 0x40 => .ok .ldB32
  | 0x41 => .ok .stB32
  | 0x42 => .ok .ldB64
  | 0x43 => .ok .stB64
  | 0x44 => .ok .pref
  | 0x60 => .ok .perm
  | 0x61 => .ok .reduceAddI32
  | 0x62 => .ok .reduceMaxI32
  | 0x63 => .ok .reduceMinI32
  | 0x64 => .ok .scanAddI32
  | _ => .error .undefinedOpcode

def encSS : Option (BitVec 3) → BitVec 4
  | none => 0
  | some n => 1#1 ++ n
def decSS (c : BitVec 4) : Dec (Option (BitVec 3)) :=
  if c = 0 then .ok none
  else if c.getLsbD 3 = true ∧ c ≠ 0xF then .ok (some (c.extractLsb' 0 3))
  else .error .sourceModifier

/-- The 31 bits of a half. -/
def Half.bits (h : Half) : BitVec 31 :=
  encHop h.op ++ encX h.args.d ++ encOp h.args.s ++ encG h.args.g ++ encSS h.args.ss

/-- Read a half. -/
def Half.of (c : BitVec 31) : Dec Half := do
  let op ← decHop (c.extractLsb' 24 7)
  let d ← decX (c.extractLsb' 16 8)
  let s ← decOp (c.extractLsb' 8 8)
  let ss ← decSS (c.extractLsb' 0 4)
  .ok ⟨op, d, s, decG (c.extractLsb' 4 4), ss⟩

/-- A pair word is the constructor named by its first half. -/
def mkPair (a b : Half) : Instr :=
  match a.op with
  | .add => .addHalf a.args b
  | .sub => .subHalf a.args b
  | .mul => .mulHalf a.args b
  | .minI32 => .minI32Half a.args b
  | .minN32 => .minN32Half a.args b
  | .maxI32 => .maxI32Half a.args b
  | .maxN32 => .maxN32Half a.args b
  | .absI32 => .absI32Half a.args b
  | .and => .andHalf a.args b
  | .or => .orHalf a.args b
  | .xor => .xorHalf a.args b
  | .andn => .andnHalf a.args b
  | .shl => .shlHalf a.args b
  | .shr => .shrHalf a.args b
  | .sar => .sarHalf a.args b
  | .rol => .rolHalf a.args b
  | .popc => .popcHalf a.args b
  | .clz => .clzHalf a.args b
  | .ctz => .ctzHalf a.args b
  | .brev => .brevHalf a.args b
  | .mov => .movHalf a.args b
  | .fadd => .faddHalf a.args b
  | .fsub => .fsubHalf a.args b
  | .fmul => .fmulHalf a.args b
  | .fmin => .fminHalf a.args b
  | .fmax => .fmaxHalf a.args b
  | .frcp => .frcpHalf a.args b
  | .fsqrt => .fsqrtHalf a.args b
  | .frsq => .frsqHalf a.args b
  | .fexp2 => .fexp2Half a.args b
  | .flog2 => .flog2Half a.args b
  | .frnd => .frndHalf a.args b
  | .ldB32 => .ldB32Half a.args b
  | .stB32 => .stB32Half a.args b
  | .ldB64 => .ldB64Half a.args b
  | .stB64 => .stB64Half a.args b
  | .pref => .prefHalf a.args b
  | .perm => .permHalf a.args b
  | .reduceAddI32 => .reduceAddI32Half a.args b
  | .reduceMaxI32 => .reduceMaxI32Half a.args b
  | .reduceMinI32 => .reduceMinI32Half a.args b
  | .scanAddI32 => .scanAddI32Half a.args b

/-- The word of a pair (R62). -/
def pairWord (a b : Half) : W64 := 1#1 ++ a.bits ++ b.bits ++ 0#1

/-! ### Reading the operand groups -/

def FF.f3 (f : FF) : Dec F3 := do
  let d ← decX f.d
  let a ← decOp f.a
  let b ← decOp f.b
  let sm ← decSM f.sm
  .ok ⟨d, a, b, sm, decG f.g⟩

def FF.f2 (f : FF) : Dec F2 := do
  let d ← decX f.d
  need (f.a == 0) .reservedField
  let b ← decOp f.b
  let sm ← decSM f.sm
  .ok ⟨d, b, sm, decG f.g⟩

def FF.fp (f : FF) : Dec FP := do
  let q ← decQ f.d
  let a ← decOp f.a
  let b ← decOp f.b
  let sm ← decSM f.sm
  .ok ⟨q, a, b, sm, decG f.g⟩

def FF.maddr (f : FF) : Dec MAddr := do
  let a ← decBase f.a
  .ok ⟨a, f.sm, decG f.g⟩

/-- E-form operands: B and X are zero (R240). -/
def FF.eargs (f : FF) : Dec EArgs := do
  let d ← decX f.d
  let a ← decK f.a
  need (f.b == 0 && f.x == 0) .reservedField
  .ok ⟨d, a, f.sm, decG f.g⟩

/-- D, A, B and SMOD are zero. -/
def FF.bare (f : FF) : Dec Unit := need (f.d == 0 && f.a == 0 && f.b == 0 && f.sm == 0) .reservedField

/-- Order and scope of a group-5 word: X[9:7] and X[6:4]. -/
def FF.mo (f : FF) : Dec MO := do
  let o ← decOrd (f.x.extractLsb' 7 3)
  let s ← decSc (f.x.extractLsb' 4 3)
  .ok ⟨o, s⟩

/-- The integer type of X[12:10]. -/
def XF.ity (x : XF) : ITy := ⟨decW x.w, x.s⟩

/-- The type of a lane combination (R125, R131): `flt` is X[3]. -/
def XF.lty (x : XF) : Dec LTy :=
  if x.l.getLsbD 3 then do
    let f ← decFF x.w x.s
    let rm ← decRM x.r
    .ok (.flt f rm)
  else do
    need (x.r == 0) .fieldValue
    .ok (.int x.ity)

/-- g of a lane combination: X[6:4]. -/
def FF.seg (f : FF) : Seg := f.x.extractLsb' 4 3

/-- Rounding and saturate are zero and X[5:0] is zero. -/
def XF.plain (x : XF) : Dec Unit := need (x.r == 0 && x.t == false && x.l == 0) .reservedField

/-! ### Group 0 (R91) -/

def decG0 (i : Nat) (f : FF) (m : IF) : Dec Instr :=
  let x := XF.of f.x
  let sat3 (k : F3 → ITy → Bool → Instr) : Dec Instr := do
    let o ← f.f3
    need (x.r == 0 && x.l == 0) .reservedField
    .ok (k o x.ity x.t)
  let plain3 (k : F3 → ITy → Instr) : Dec Instr := do
    let o ← f.f3
    x.plain
    .ok (k o x.ity)
  let cnt (k : F2 → Width → Instr) : Dec Instr := do
    let o ← f.f2
    x.plain
    need (x.s == false) .reservedField
    .ok (k o (decW x.w))
  match i with
  | 0x00 => sat3 .add
  | 0x01 => sat3 .sub
  | 0x02 => do
    let o ← f.f3
    let w ← decW2 x.w
    need (x.s == false && x.r == 0 && x.t == false && x.l.extractLsb' 1 5 == 0) .reservedField
    .ok (.addc o w (x.l.getLsbD 0))
  | 0x03 => sat3 .mul
  | 0x04 => do
    let o ← f.f3
    let w ← decW2 x.w
    x.plain
    .ok (.mulh o w x.s)
  | 0x05 => do
    let o ← f.f3
    let c ← decOp (f.x.extractLsb' 5 8)
    need (f.x.getLsbD 0 == false) .reservedField
    .ok (.mad o c ⟨decW (f.x.extractLsb' 3 2), f.x.getLsbD 2⟩ (f.x.getLsbD 1))
  | 0x06 => sat3 .div
  | 0x07 => plain3 .rem
  | 0x08 => plain3 .min
  | 0x09 => plain3 .max
  | 0x0A => do
    let o ← f.f2
    need (x.s == true) .fieldValue
    need (x.r == 0 && x.l == 0) .reservedField
    .ok (.abs o (decW x.w) x.t)
  | 0x0B => plain3 .and
  | 0x0C => plain3 .or
  | 0x0D => plain3 .xor
  | 0x0E => plain3 .andn
  | 0x0F => sat3 .shl
  | 0x10 => plain3 .shr
  | 0x11 => plain3 .sar
  | 0x12 => plain3 .rol
  | 0x13 => cnt .popc
  | 0x14 => cnt .clz
  | 0x15 => cnt .ctz
  | 0x16 => do
    let o ← f.f2
    x.plain
    .ok (.brev o x.ity)
  | 0x17 => plain3 .bfx
  | 0x18 => plain3 .bfi
  | 0x19 => do
    let o ← f.f3
    need (x.r == 0 && x.t == false && x.l.extractLsb' 4 2 == 0) .reservedField
    .ok (.sel o x.ity ⟨x.l.getLsbD 3, x.l.extractLsb' 0 3⟩)
  | 0x1A => do
    let o ← f.fp
    need (x.r == 0 && x.t == false && x.l.extractLsb' 3 3 == 0) .reservedField
    let c ← decCond (x.l.extractLsb' 0 3)
    .ok (.cmp o x.ity c)
  | 0x1B => do
    let d ← decDst f.d
    need (f.a == 0) .reservedField
    let b ← decOp f.b
    let sm ← decSM f.sm
    x.plain
    .ok (.mov d b sm (decG f.g) x.ity)
  | 0x1C =>
    match m.a.toNat with
    | 0 => do
      let d ← decDst m.d
      need (m.imm.getLsbD 32 == false) .fieldValue
      .ok (.movi d (decG m.g) (m.imm.extractLsb' 0 32))
    | 1 => do
      let d ← decX m.d
      .ok (.moviI64 d (decG m.g) m.imm)
    | _ => .error .fieldValue
  | 0x1D => do
    let d ← decX f.d
    let a ← f.maddr
    let b ← decOp f.b
    x.plain
    .ok (.lea d a b x.ity)
  | 0x1E => do
    let d ← decX m.d
    let a ← decOp m.a
    .ok (.addi d a (decG m.g) m.imm)
  | _ => .error .undefinedOpcode

/-! ### Group 1 (R108) -/

def decG1 (i : Nat) (f : FF) : Dec Instr :=
  let x := XF.of f.x
  let rnd3 (k : F3 → FFmt → RM → Instr) : Dec Instr := do
    let o ← f.f3
    let t ← decFF x.w x.s
    let rm ← decRM x.r
    need (x.t == false && x.l == 0) .reservedField
    .ok (k o t rm)
  let flt3 (k : F3 → FFmt → Instr) : Dec Instr := do
    let o ← f.f3
    let t ← decFF x.w x.s
    x.plain
    .ok (k o t)
  let flt2 (k : F2 → FFmt → Instr) : Dec Instr := do
    let o ← f.f2
    let t ← decFF x.w x.s
    x.plain
    .ok (k o t)
  match i with
  | 0x00 => rnd3 .fadd
  | 0x01 => rnd3 .fsub
  | 0x02 => rnd3 .fmul
  | 0x03 => do
    let o ← f.f3
    let c ← decOp (f.x.extractLsb' 5 8)
    let rm ← decRM (f.x.extractLsb' 2 3)
    let t ← decF2c (f.x.extractLsb' 0 2)
    .ok (.ffma o c t rm)
  | 0x04 => flt3 .fmin
  | 0x05 => flt3 .fmax
  | 0x06 => do
    let o ← f.fp
    let t ← decFF x.w x.s
    need (x.r == 0 && x.t == false && x.l.extractLsb' 3 3 == 0) .reservedField
    .ok (.fcmp o t (decFCond (x.l.extractLsb' 0 3)))
  | 0x07 => flt2 .fclass
  | 0x08 => flt2 .frcp
  | 0x09 => flt2 .fsqrt
  | 0x0A => flt2 .frsq
  | 0x0B => flt2 .fexp2
  | 0x0C => flt2 .flog2
  | 0x0D => flt2 .fsint
  | 0x0E => flt2 .fcost
  | 0x0F => do
    let o ← f.f2
    let dst ← decNF (f.x.extractLsb' 10 3)
    let rm ← decRM x.r
    let src ← decNF (x.l.extractLsb' 3 3)
    need (x.l.extractLsb' 0 3 == 0) .reservedField
    .ok (.fcvt o dst src rm x.t)
  | 0x10 => do
    let o ← f.f2
    let rm ← decRM x.r
    let src ← decF2c (x.l.extractLsb' 4 2)
    need (x.l.extractLsb' 0 4 == 0) .reservedField
    .ok (.fcvti o x.ity src rm x.t)
  | 0x11 => do
    let o ← f.f2
    let rm ← decRM x.r
    let dst ← decF2c (x.l.extractLsb' 4 2)
    need (x.t == false && x.l.extractLsb' 0 4 == 0) .reservedField
    .ok (.icvtf o x.ity dst rm)
  | 0x12 => do
    let o ← f.f3
    let t ← decNF (f.x.extractLsb' 10 3)
    need (x.r == 0 && x.l == 0) .reservedField
    .ok (.fpack o t x.t)
  | 0x13 => do
    let o ← f.f3
    let t ← decNF (f.x.extractLsb' 10 3)
    x.plain
    .ok (.funpk o t)
  | 0x14 => do
    let o ← f.f3
    let t ← decFF x.w x.s
    let rm ← decRM x.r
    let ak ← decAK (x.l.extractLsb' 4 2)
    need (x.l.extractLsb' 0 3 == 0) .reservedField
    .ok (.fscaleacc o t rm x.t ak (x.l.getLsbD 3))
  | 0x15 => do
    let o ← f.f2
    need (x.r == 0 && x.t == false && x.l.extractLsb' 0 5 == 0) .reservedField
    if x.l.getLsbD 5 then do
      let t ← decFF x.w x.s
      .ok (.ordkey o (.flt t))
    else .ok (.ordkey o (.int x.ity))
  | 0x16 => do
    let o ← f.f3
    need (x.w == 2) .fieldValue
    let rm ← decRM x.r
    need (x.t == false && x.l == 0) .reservedField
    .ok (.fdot2 o x.s rm)
  | 0x17 => do
    let o ← f.f2
    let t ← decFF x.w x.s
    let rm ← decRM x.r
    need (x.t == false && x.l == 0) .reservedField
    .ok (.frnd o t rm)
  | _ => .error .undefinedOpcode

/-! ### Group 2 (R125) -/

def decG2 (i : Nat) (f : FF) : Dec Instr :=
  let x := XF.of f.x
  let comb (k : F2 → LTy → Seg → LOp → Instr) : Dec Instr := do
    let o ← f.f2
    let t ← x.lty
    let op ← decLOp (f.x.extractLsb' 0 3)
    .ok (k o t f.seg op)
  match i with
  | 0x00 => do
    let o ← f.f3
    let w ← decW2 x.w
    x.plain
    need (x.s == false) .reservedField
    .ok (.perm o w)
  | 0x01 => do
    let o ← f.f3
    let w ← decW2 x.w
    need (x.s == false && x.r == 0 && f.x.extractLsb' 2 2 == 0) .reservedField
    .ok (.shufx o w f.seg (decShM (f.x.extractLsb' 0 2)))
  | 0x02 => do
    need (f.a == 0 && f.b == 0 && f.sm == 0) .reservedField
    need (x.w == 0 && x.s == false && x.r == 0 && x.t == false) .reservedField
    let p : PSrc := ⟨x.l.getLsbD 3, x.l.extractLsb' 0 3⟩
    match (x.l.extractLsb' 4 2).toNat with
    | 0 => do
      let q ← decQ f.d
      .ok (.vote (.all q) p (decG f.g))
    | 1 => do
      let q ← decQ f.d
      .ok (.vote (.any q) p (decG f.g))
    | 2 => do
      let d ← decX f.d
      .ok (.vote (.ballot d) p (decG f.g))
    | _ => do
      let d ← decX f.d
      .ok (.vote (.ballotHi d) p (decG f.g))
  | 0x03 => do
    let o ← f.f2
    let w ← decW2 x.w
    need (x.s == false && x.r == 0 && x.t == false && x.l.extractLsb' 1 5 == 0) .reservedField
    .ok (.matchL o w (x.l.getLsbD 0))
  | 0x04 => comb .reduce
  | 0x05 => comb .scan
  | 0x06 => do
    let o ← f.f3
    let t ← decFF x.w x.s
    need (x.r == 0 && f.x.extractLsb' 0 4 == 0) .reservedField
    .ok (.lscan o t f.seg)
  | 0x07 => comb .cavity
  | 0x08 => do
    need (f.d == 0 && f.a == 0) .reservedField
    let b ← decOp f.b
    let sm ← decSM f.sm
    let w ← decW2 x.w
    need (x.s == false && x.r == 0 && x.t == false && x.l.extractLsb' 4 2 == 0) .reservedField
    .ok (.fwds b sm (decG f.g) w (x.l.extractLsb' 2 2) (x.l.extractLsb' 0 2))
  | 0x09 => do
    let d ← decX f.d
    need (f.a == 0 && f.b == 0 && f.sm == 0) .reservedField
    let w ← decW2 x.w
    need (x.s == false && x.r == 0 && x.t == false && x.l.extractLsb' 4 2 == 0) .reservedField
    .ok (.fwdr d (decG f.g) w (x.l.extractLsb' 2 2) (x.l.extractLsb' 0 2))
  | 0x0A => do
    let q ← decQ f.d
    need (f.a == 0 && f.b == 0 && f.sm == 0 && f.x == 0) .reservedField
    .ok (.elect q (decG f.g))
  | _ => .error .undefinedOpcode

/-! ### Group 3 (R144, R151 to R158, R327) -/

def decG3 (i : Nat) (f : FF) : Dec Instr :=
  let conv (k : BitVec 4 → BitVec 4 → BitVec 5 → Guard → Instr) : Dec Instr := do
    f.bare
    .ok (k (f.x.extractLsb' 4 4) (f.x.extractLsb' 0 4) (f.x.extractLsb' 8 5) (decG f.g))
  let prod (k : AReg → BitVec 4 → BitVec 4 → Bool → Guard → Instr) : Dec Instr := do
    let acc ← decA f.d
    need (f.a == 0 && f.b == 0 && f.sm == 0 && f.x.extractLsb' 0 4 == 0) .reservedField
    .ok (k acc (f.x.extractLsb' 9 4) (f.x.extractLsb' 5 4) (f.x.getLsbD 4) (decG f.g))
  match i with
  | 0x00 => do
    need (f.d == 0 && f.b == 0 && f.sm == 0 && f.x.extractLsb' 4 9 == 0) .reservedField
    let a ← decX f.a
    .ok (.tdesc (f.x.extractLsb' 0 4) a (decG f.g))
  | 0x01 => conv .plane
  | 0x02 => conv .align
  | 0x03 => do
    need (f.d == 0 && f.b == 0 && f.x == 0) .reservedField
    let m ← f.maddr
    .ok (.cbload m)
  | 0x04 => prod .mma
  | 0x05 => prod .mmac
  | 0x06 => do
    f.bare
    need (f.x.extractLsb' 9 4 == 0) .reservedField
    .ok (.accz (f.x.extractLsb' 0 8) (f.x.getLsbD 8) (decG f.g))
  | 0x07 => do
    let d ← decX f.d
    let a ← decA f.a
    let b ← decOp f.b
    let sm ← decSM f.sm
    need (f.x == 0x800) .fieldValue
    .ok (.accrd d a b sm (decG f.g))
  | 0x08 => do
    let a ← decA f.d
    let m ← f.maddr
    let b ← decX f.b
    need (f.x == 0x800) .fieldValue
    .ok (.accst a m b)
  | 0x09 => do
    f.bare
    need (f.x.extractLsb' 8 5 == 0) .reservedField
    .ok (.mmawait (f.x.extractLsb' 0 8) (decG f.g))
  | _ => .error .undefinedOpcode

/-! ### Group 4 (R162) -/

def decG4 (i : Nat) (f : FF) (m : IF) : Dec Instr :=
  let g := decG f.g
  let noArg (k : Guard → Instr) : Dec Instr := do
    f.bare
    need (f.x == 0) .reservedField
    .ok (k g)
  let rb (k : BitVec 4 → Guard → Instr) : Dec Instr := do
    f.bare
    need (f.x.extractLsb' 4 9 == 0) .reservedField
    .ok (k (f.x.extractLsb' 0 4) g)
  match i with
  | 0x00 => do
    need (m.d == 0 && m.a == 0) .reservedField
    .ok (.bra (decG m.g) m.imm)
  | 0x01 => do
    let c ← decBCond m.d
    let a ← decOp m.a
    .ok (.brc c a (decG m.g) m.imm)
  | 0x02 => do
    let d ← decX m.d
    need (m.a == 0) .reservedField
    .ok (.call d (decG m.g) m.imm)
  | 0x03 => do
    need (f.d == 0 && f.a == 0 && f.sm == 0 && f.x == 0) .reservedField
    let b ← decBase f.b
    .ok (.ret b g)
  | 0x04 => do
    need (f.a == 0 && f.sm == 0 && f.x.extractLsb' 1 12 == 0) .reservedField
    let b ← decBase f.b
    if f.x.getLsbD 0 then do
      let d ← decX f.d
      .ok (.jmpiLink d b g)
    else do
      need (f.d == 0) .reservedField
      .ok (.jmpi b g)
  | 0x05 => rb .rjoin
  | 0x06 => rb .rwait
  | 0x07 => noArg .exit
  | 0x08 => noArg .nop
  | 0x09 => noArg .yield
  | 0x0A => do
    need (m.d == 0 && m.a == 0) .reservedField
    .ok (.shield m.imm (decG m.g))
  | 0x0B => do
    need (f.d == 0 && f.a == 0 && f.x.extractLsb' 5 8 == 0) .reservedField
    if f.x.getLsbD 4 then do
      need (f.b == 0 && f.sm == 0 && f.x.extractLsb' 0 4 == 0) .reservedField
      .ok (.boundNone g)
    else do
      let b ← decBase f.b
      let sm ← decSM f.sm
      .ok (.bound (f.x.extractLsb' 0 4) b sm g)
  | 0x0C => do
    need (f.d == 0 && f.x.extractLsb' 4 9 == 0) .reservedField
    let a ← decBase f.a
    let b ← decBase f.b
    let sm ← decSM f.sm
    .ok (.incofr (f.x.extractLsb' 0 4) a b sm g)
  | 0x0D => do
    let d ← decX f.d
    need (f.a == 0 && f.b == 0 && f.sm == 0 && f.x.extractLsb' 6 7 == 0) .reservedField
    let p ← decPart (f.x.extractLsb' 4 2)
    .ok (.incrd d p (f.x.extractLsb' 0 4) g)
  | 0x0E => do
    need (f.d == 0 && f.a == 0 && f.x.extractLsb' 4 9 == 0) .reservedField
    let b ← decBase f.b
    let sm ← decSM f.sm
    .ok (.incwait (f.x.extractLsb' 0 4) b sm g)
  | 0x0F => noArg .cancel
  | _ => .error .undefinedOpcode

/-! ### Group 5 (R226) -/

def decG5 (i : Nat) (f : FF) : Dec Instr :=
  let x := XF.of f.x
  let op4 : BitVec 4 := f.x.extractLsb' 0 4
  match i with
  | 0x00 => do
    let d ← decDst f.d
    let m ← f.maddr
    let o ← f.mo
    need (f.b == 0 && op4 == 0) .reservedField
    .ok (.ld d m x.ity o)
  | 0x01 => do
    let m ← f.maddr
    let b ← decOp f.b
    let o ← f.mo
    need (f.d == 0 && op4 == 0 && x.s == false) .reservedField
    .ok (.st m b (decW x.w) o)
  | 0x02 => do
    let d ← decX f.d
    let m ← f.maddr
    let o ← f.mo
    need (f.b == 0 && f.x.extractLsb' 2 2 == 0) .reservedField
    let c ← decVC (f.x.extractLsb' 0 2)
    .ok (.ldv d m x.ity c o)
  | 0x03 => do
    let m ← f.maddr
    let b ← decX f.b
    let o ← f.mo
    need (f.d == 0 && f.x.extractLsb' 2 2 == 0 && x.s == false) .reservedField
    let c ← decVC (f.x.extractLsb' 0 2)
    .ok (.stv m b (decW x.w) c o)
  | 0x04 => do
    let d ← decX f.d
    let m ← f.maddr
    let b ← decOp f.b
    let w ← decW2 x.w
    let o ← f.mo
    let op ← decAOp op4
    need (x.s == false || op == .min || op == .max) .reservedField
    .ok (.atom op d m b w x.s o)
  | 0x05 => do
    let d ← decX f.d
    let m ← f.maddr
    let b ← decOp f.b
    let w ← decW2 x.w
    let o ← f.mo
    need (op4 == 0 && x.s == false) .reservedField
    .ok (.acas d m b w o)
  | 0x06 => do
    let d ← decX f.d
    let m ← f.maddr
    let o ← f.mo
    need (x.w == 1) .fieldValue
    need (f.b == 0 && op4 == 0 && x.s == false) .reservedField
    .ok (.ldfe d m o)
  | 0x07 => do
    let m ← f.maddr
    let b ← decBase f.b
    let o ← f.mo
    need (x.w == 1) .fieldValue
    need (f.d == 0 && op4 == 0 && x.s == false) .reservedField
    .ok (.stfe m b o)
  | 0x08 => do
    let m ← f.maddr
    let o ← f.mo
    need (x.w == 1) .fieldValue
    need (f.b == 0 && f.x.extractLsb' 2 2 == 0 && x.s == false) .reservedField
    match (f.x.extractLsb' 0 2).toNat with
    | 0 => do
      let d ← decX f.d
      .ok (.fetagRead d m o)
    | 1 => do
      need (f.d == 0) .reservedField
      .ok (.fetagFill m o)
    | 2 => do
      need (f.d == 0) .reservedField
      .ok (.fetagEmpty m o)
    | _ => .error .fieldValue
  | 0x09 => do
    f.bare
    let o ← f.mo
    need (f.x.extractLsb' 10 3 == 0 && op4 == 0) .reservedField
    .ok (.fence o (decG f.g))
  | 0x0A => do
    let m ← f.maddr
    need (f.d == 0 && f.b == 0 && f.x == 0) .reservedField
    .ok (.pref m)
  | _ => .error .undefinedOpcode

/-! ### Group 6 (R240, R270, R305, R323, R343) -/

def decG6 (i : Nat) (f : FF) : Dec Instr :=
  let g := decG f.g
  let cmd (k : EArgs → Instr) : Dec Instr := do
    let e ← f.eargs
    .ok (k e)
  let arrive (k : XReg → Scope → BitVec 4 → Guard → Instr) : Dec Instr := do
    let d ← decX f.d
    need (f.a == 0 && f.b == 0 && f.sm == 0 && f.x.extractLsb' 7 6 == 0) .reservedField
    let s ← decSc (f.x.extractLsb' 4 3)
    .ok (k d s (f.x.extractLsb' 0 4) g)
  let link (k : XReg → XReg → Guard → Instr) : Dec Instr := do
    let d ← decX f.d
    let b ← decX f.b
    need (f.a == 0 && f.sm == 0 && f.x == 0) .reservedField
    .ok (k d b g)
  match i with
  | 0x00 => cmd .tcopy
  | 0x01 => cmd .tgather
  | 0x02 => cmd .cavred
  | 0x03 => cmd .loopnest
  | 0x04 => cmd .search
  | 0x05 => do
    let d ← decX f.d
    let m ← f.maddr
    let o ← f.mo
    need (f.b == 0 && f.x.extractLsb' 10 3 == 0 && f.x.extractLsb' 0 4 == 0) .reservedField
    .ok (.spawn d m o)
  | 0x06 => do
    let d ← decX f.d
    let m ← f.maddr
    let b ← decX f.b
    need (f.x.extractLsb' 2 11 == 0) .reservedField
    .ok (.ringset d m b (f.x.extractLsb' 0 2))
  | 0x07 => cmd .send
  | 0x08 => do
    let d ← decX f.d
    need (f.a == 0 && f.b == 0 && f.sm == 0) .reservedField
    need (f.x.extractLsb' 5 8 == 0 && f.x.extractLsb' 2 2 == 0) .reservedField
    if f.x.getLsbD 4 then .ok (.recvWait d (f.x.extractLsb' 0 2) g)
    else .ok (.recvPoll d (f.x.extractLsb' 0 2) g)
  | 0x09 => arrive .bar
  | 0x0A => arrive .baro
  | 0x0B => do
    need (f.d == 0 && f.a == 0 && f.sm == 0 && f.x.extractLsb' 7 6 == 0) .reservedField
    let b ← decOp f.b
    let s ← decSc (f.x.extractLsb' 4 3)
    .ok (.barw b s (f.x.extractLsb' 0 4) g)
  | 0x0C => do
    need (f.d == 0 && f.a == 0 && f.sm == 0 && f.x.extractLsb' 4 9 == 0) .reservedField
    if f.x.getLsbD 3 then do
      need (f.x.extractLsb' 0 3 == 0) .reservedField
      let b ← decOp f.b
      .ok (.waitptrTicket b g)
    else do
      let b ← decBase f.b
      .ok (.waitptr (f.x.extractLsb' 0 3) b g)
  | 0x0D => do
    let d ← decX f.d
    need (f.a == 0 && f.b == 0 && f.sm == 0 && f.x.extractLsb' 11 2 == 0) .reservedField
    let sel := f.x.extractLsb' 0 8
    if Machine.cntSelBar sel.toNat then do
      let s ← decSc (f.x.extractLsb' 8 3)
      .ok (.cntrd d sel (some s) g)
    else do
      need (f.x.extractLsb' 8 3 == 0) .reservedField
      .ok (.cntrd d sel none g)
  | 0x0E => do
    need (f.d == 0 && f.b == 0 && f.sm == 0 && f.x.extractLsb' 7 6 == 0 && f.x.extractLsb' 2 2 == 0) .reservedField
    let s ← (match (f.x.extractLsb' 4 3).toNat with
      | 3 => .ok TiScope.die
      | 4 => .ok TiScope.pkg
      | _ => (.error .fieldValue : Dec TiScope))
    match (f.x.extractLsb' 0 2).toNat with
    | 0 => do
      let a ← decBase f.a
      .ok (.tlbinvPage a s g)
    | 1 => do
      need (f.a == 0) .reservedField
      .ok (.tlbinvVf s g)
    | _ => .error .fieldValue
  | 0x0F => link .lpark
  | 0x10 => link .lwake
  | 0x11 => do
    let d ← decX f.d
    let m ← f.maddr
    need (f.b == 0 && f.x == 0) .reservedField
    .ok (.slotset d m)
  | 0x12 => cmd .hspub
  | _ => .error .undefinedOpcode

/-! ### Group 7 (R187) -/

def decG7 (i : Nat) (f : FF) (m : IF) : Dec Instr :=
  let x := XF.of f.x
  let g := decG f.g
  match i with
  | 0x00 => do
    let d ← decX f.d
    need (f.a == 0 && f.b == 0 && f.sm == 0 && f.x.extractLsb' 8 3 == 0) .reservedField
    let w ← decW2 x.w
    .ok (.srd d w (f.x.extractLsb' 0 8) g)
  | 0x01 => do
    need (f.d == 0 && f.a == 0 && f.sm == 0 && f.x.extractLsb' 8 3 == 0) .reservedField
    let b ← decOp f.b
    let w ← decW2 x.w
    .ok (.swr b w (f.x.extractLsb' 0 8) g)
  | 0x02 => do
    need (m.d == 0 && m.a == 0) .reservedField
    .ok (.trap m.imm (decG m.g))
  | 0x03 => do
    f.bare
    need (f.x.extractLsb' 1 12 == 0) .reservedField
    .ok (.rte (f.x.getLsbD 0) g)
  | 0x04 => do
    need (m.d == 0 && m.a == 0) .reservedField
    .ok (.brk m.imm (decG m.g))
  | 0x05 => do
    need (f.d == 0 && f.a == 0 && f.sm == 0 && f.x.extractLsb' 1 10 == 0) .reservedField
    let b ← decOp f.b
    let w ← decW2 x.w
    if f.x.getLsbD 0 then .ok (.eventMbx b w g) else .ok (.event b w g)
  | 0x06 => do
    f.bare
    need (f.x == 0) .reservedField
    .ok (.halt g)
  | 0x07 => do
    f.bare
    need (f.x.extractLsb' 3 10 == 0) .reservedField
    match (f.x.extractLsb' 0 3).toNat with
    | 1 => .ok (.icflush .core g)
    | 3 => .ok (.icflush .die g)
    | 4 => .ok (.icflush .pkg g)
    | _ => .error .fieldValue
  | _ => .error .undefinedOpcode

/-- The decoder (R51, R53, R62, R70): total on any word, rejecting by name. -/
def decode (w : W64) : Dec Instr :=
  if w.getLsbD 63 then do
    let a ← Half.of (w.extractLsb' 32 31)
    let b ← Half.of (w.extractLsb' 1 31)
    need (w.getLsbD 0 == false) .reservedField
    .ok (mkPair a b)
  else
    let f := FF.of w
    let m := IF.of w
    let i := (f.op.extractLsb' 0 7).toNat
    match (f.op.extractLsb' 7 3).toNat with
    | 0 => decG0 i f m
    | 1 => decG1 i f
    | 2 => decG2 i f
    | 3 => decG3 i f
    | 4 => decG4 i f m
    | 5 => decG5 i f
    | 6 => decG6 i f
    | _ => decG7 i f m

/-- The instruction the decoder reads from a word whose bits are `w` (bits above `nbits` are zero). -/
def decodeTableWord (nbits w : Nat) : Option Instr :=
  match decode (BitVec.ofNat 64 (w % 2 ^ nbits)) with
  | .ok i => some i
  | .error _ => none

/-! ### The encoder -/

/-- X of an integer word: type, saturate, low bits. -/
def encXI (t : ITy) (sat : Bool) (l : BitVec 6) : BitVec 13 := (XF.mk (encW t.w) t.sg 0 sat l).bits

/-- X of a float word. -/
def encXFl (f : FFmt) (r : BitVec 3) (sat : Bool) (l : BitVec 6) : BitVec 13 :=
  (XF.mk (encFF f).1 (encFF f).2 r sat l).bits

def encF3 (op : BitVec 10) (o : F3) (x : BitVec 13) : W64 :=
  (FF.mk op (encX o.d) (encOp o.a) (encOp o.b) (encSM o.sm) (encG o.g) x).word

def encF2 (op : BitVec 10) (o : F2) (x : BitVec 13) : W64 :=
  (FF.mk op (encX o.d) 0 (encOp o.b) (encSM o.sm) (encG o.g) x).word

def encFP (op : BitVec 10) (o : FP) (x : BitVec 13) : W64 :=
  (FF.mk op (encQ o.q) (encOp o.a) (encOp o.b) (encSM o.sm) (encG o.g) x).word

/-- A word of one group with no operand beside a guard and X. -/
def encBare (op : BitVec 10) (g : Guard) (x : BitVec 13) : W64 := (FF.mk op 0 0 0 0 (encG g) x).word

/-- An M-form word. -/
def encM (op : BitVec 10) (d : BitVec 8) (m : MAddr) (b : BitVec 8) (x : BitVec 13) : W64 :=
  (FF.mk op d (encBase m.a) b m.off (encG m.g) x).word

def encE (op : BitVec 10) (e : EArgs) : W64 :=
  (FF.mk op (encX e.d) (encK e.a) 0 e.off (encG e.g) 0).word

/-- X of a group-5 word (R226). -/
def encXM (w : BitVec 2) (ext : Bool) (o : MO) (op : BitVec 4) : BitVec 13 :=
  w ++ BitVec.ofBool ext ++ encOrd o.o ++ encSc o.sc ++ op

/-- X of a lane combination (R125). -/
def encXL (t : LTy) (g : Seg) (op : LOp) : BitVec 13 :=
  match t with
  | .int i => encW i.w ++ BitVec.ofBool i.sg ++ 0#3 ++ g ++ 0#1 ++ encLOp op
  | .flt f rm => (encFF f).1 ++ BitVec.ofBool (encFF f).2 ++ encRM rm ++ g ++ 1#1 ++ encLOp op

def encP (p : PSrc) : BitVec 4 := BitVec.ofBool p.neg ++ p.q

/-- The word of an instruction; none for an event, which no word encodes. -/
def encode (i : Instr) : Option W64 :=
  match i with
  | .add o t s => some (encF3 0x000 o (encXI t s 0))
  | .sub o t s => some (encF3 0x001 o (encXI t s 0))
  | .addc o w b => some (encF3 0x002 o (encW2 w ++ 0#10 ++ BitVec.ofBool b))
  | .mul o t s => some (encF3 0x003 o (encXI t s 0))
  | .mulh o w sg => some (encF3 0x004 o (encW2 w ++ BitVec.ofBool sg ++ 0#10))
  | .mad o c t s => some (encF3 0x005 o (encOp c ++ encW t.w ++ BitVec.ofBool t.sg ++ BitVec.ofBool s ++ 0#1))
  | .div o t s => some (encF3 0x006 o (encXI t s 0))
  | .rem o t => some (encF3 0x007 o (encXI t false 0))
  | .min o t => some (encF3 0x008 o (encXI t false 0))
  | .max o t => some (encF3 0x009 o (encXI t false 0))
  | .abs o w s => some (encF2 0x00A o (encXI ⟨w, true⟩ s 0))
  | .and o t => some (encF3 0x00B o (encXI t false 0))
  | .or o t => some (encF3 0x00C o (encXI t false 0))
  | .xor o t => some (encF3 0x00D o (encXI t false 0))
  | .andn o t => some (encF3 0x00E o (encXI t false 0))
  | .shl o t s => some (encF3 0x00F o (encXI t s 0))
  | .shr o t => some (encF3 0x010 o (encXI t false 0))
  | .sar o t => some (encF3 0x011 o (encXI t false 0))
  | .rol o t => some (encF3 0x012 o (encXI t false 0))
  | .popc o w => some (encF2 0x013 o (encXI ⟨w, false⟩ false 0))
  | .clz o w => some (encF2 0x014 o (encXI ⟨w, false⟩ false 0))
  | .ctz o w => some (encF2 0x015 o (encXI ⟨w, false⟩ false 0))
  | .brev o t => some (encF2 0x016 o (encXI t false 0))
  | .bfx o t => some (encF3 0x017 o (encXI t false 0))
  | .bfi o t => some (encF3 0x018 o (encXI t false 0))
  | .sel o t p => some (encF3 0x019 o (encXI t false (0#2 ++ encP p)))
  | .cmp o t c => some (encFP 0x01A o (encXI t false (0#3 ++ encCond c)))
  | .mov d b sm g t => some ((FF.mk 0x01B (encDst d) 0 (encOp b) (encSM sm) (encG g) (encXI t false 0)).word)
  | .movi d g v => some ((IF.mk 0x01C (encDst d) 0 (encG g) (0#1 ++ v)).word)
  | .moviI64 d g v => some ((IF.mk 0x01C (encX d) 1 (encG g) v).word)
  | .lea d m b t => some (encM 0x01D (encX d) m (encOp b) (encXI t false 0))
  | .addi d a g v => some ((IF.mk 0x01E (encX d) (encOp a) (encG g) v).word)
  | .fadd o f rm => some (encF3 0x080 o (encXFl f (encRM rm) false 0))
  | .fsub o f rm => some (encF3 0x081 o (encXFl f (encRM rm) false 0))
  | .fmul o f rm => some (encF3 0x082 o (encXFl f (encRM rm) false 0))
  | .ffma o c f rm => some (encF3 0x083 o (encOp c ++ encRM rm ++ encF2c f))
  | .fmin o f => some (encF3 0x084 o (encXFl f 0 false 0))
  | .fmax o f => some (encF3 0x085 o (encXFl f 0 false 0))
  | .fcmp o f c => some (encFP 0x086 o (encXFl f 0 false (0#3 ++ encFCond c)))
  | .fclass o f => some (encF2 0x087 o (encXFl f 0 false 0))
  | .frcp o f => some (encF2 0x088 o (encXFl f 0 false 0))
  | .fsqrt o f => some (encF2 0x089 o (encXFl f 0 false 0))
  | .frsq o f => some (encF2 0x08A o (encXFl f 0 false 0))
  | .fexp2 o f => some (encF2 0x08B o (encXFl f 0 false 0))
  | .flog2 o f => some (encF2 0x08C o (encXFl f 0 false 0))
  | .fsint o f => some (encF2 0x08D o (encXFl f 0 false 0))
  | .fcost o f => some (encF2 0x08E o (encXFl f 0 false 0))
  | .fcvt o dst src rm s => some (encF2 0x08F o (encNF dst ++ encRM rm ++ BitVec.ofBool s ++ encNF src ++ 0#3))
  | .fcvti o t src rm s => some (encF2 0x090 o (XF.mk (encW t.w) t.sg (encRM rm) s (encF2c src ++ 0#4)).bits)
  | .icvtf o t dst rm => some (encF2 0x091 o (XF.mk (encW t.w) t.sg (encRM rm) false (encF2c dst ++ 0#4)).bits)
  | .fpack o t s => some (encF3 0x092 o (encNF t ++ 0#3 ++ BitVec.ofBool s ++ 0#6))
  | .funpk o t => some (encF3 0x093 o (encNF t ++ 0#10))
  | .fscaleacc o f rm s ak e => some (encF3 0x094 o (encXFl f (encRM rm) s (encAK ak ++ BitVec.ofBool e ++ 0#3)))
  | .ordkey o t => some (encF2 0x095 o (match t with
      | .int i => encXI i false 0
      | .flt f => encXFl f 0 false 0x20))
  | .fdot2 o bf rm => some (encF3 0x096 o (XF.mk 2 bf (encRM rm) false 0).bits)
  | .frnd o f rm => some (encF2 0x097 o (encXFl f (encRM rm) false 0))
  | .perm o w => some (encF3 0x100 o (encW2 w ++ 0#11))
  | .shufx o w g m => some (encF3 0x101 o (encW2 w ++ 0#4 ++ g ++ 0#2 ++ encShM m))
  | .vote d p g => some (match d with
      | .all q => (FF.mk 0x102 (encQ q) 0 0 0 (encG g) (0#9 ++ encP p)).word
      | .any q => (FF.mk 0x102 (encQ q) 0 0 0 (encG g) (0#7 ++ 1#2 ++ encP p)).word
      | .ballot x => (FF.mk 0x102 (encX x) 0 0 0 (encG g) (0#7 ++ 2#2 ++ encP p)).word
      | .ballotHi x => (FF.mk 0x102 (encX x) 0 0 0 (encG g) (0#7 ++ 3#2 ++ encP p)).word)
  | .matchL o w hi => some (encF2 0x103 o (encW2 w ++ 0#10 ++ BitVec.ofBool hi))
  | .reduce o t g op => some (encF2 0x104 o (encXL t g op))
  | .scan o t g op => some (encF2 0x105 o (encXL t g op))
  | .lscan o f g => some (encF3 0x106 o ((encFF f).1 ++ BitVec.ofBool (encFF f).2 ++ 0#3 ++ g ++ 0#4))
  | .cavity o t g op => some (encF2 0x107 o (encXL t g op))
  | .fwds b sm g w ch blk => some ((FF.mk 0x108 0 0 (encOp b) (encSM sm) (encG g) (encW2 w ++ 0#7 ++ ch ++ blk)).word)
  | .fwdr d g w ch blk => some ((FF.mk 0x109 (encX d) 0 0 0 (encG g) (encW2 w ++ 0#7 ++ ch ++ blk)).word)
  | .elect q g => some ((FF.mk 0x10A (encQ q) 0 0 0 (encG g) 0).word)
  | .tdesc n a g => some ((FF.mk 0x180 0 (encX a) 0 0 (encG g) (0#9 ++ n)).word)
  | .plane d s n g => some (encBare 0x181 g (n ++ d ++ s))
  | .align d s n g => some (encBare 0x182 g (n ++ d ++ s))
  | .cbload m => some (encM 0x183 0 m 0 0)
  | .mma acc ta tb p g => some ((FF.mk 0x184 (encA acc) 0 0 0 (encG g) (ta ++ tb ++ BitVec.ofBool p ++ 0#4)).word)
  | .mmac acc ta tb p g => some ((FF.mk 0x185 (encA acc) 0 0 0 (encG g) (ta ++ tb ++ BitVec.ofBool p ++ 0#4)).word)
  | .accz mask p g => some (encBare 0x186 g (0#4 ++ BitVec.ofBool p ++ mask))
  | .accrd d acc b sm g => some ((FF.mk 0x187 (encX d) (encA acc) (encOp b) (encSM sm) (encG g) 0x800).word)
  | .accst acc m b => some (encM 0x188 (encA acc) m (encX b) 0x800)
  | .mmawait mask g => some (encBare 0x189 g (0#5 ++ mask))
  | .bra g v => some ((IF.mk 0x200 0 0 (encG g) v).word)
  | .brc c a g v => some ((IF.mk 0x201 (encBCond c) (encOp a) (encG g) v).word)
  | .call d g v => some ((IF.mk 0x202 (encX d) 0 (encG g) v).word)
  | .ret b g => some ((FF.mk 0x203 0 0 (encBase b) 0 (encG g) 0).word)
  | .jmpi b g => some ((FF.mk 0x204 0 0 (encBase b) 0 (encG g) 0).word)
  | .jmpiLink d b g => some ((FF.mk 0x204 (encX d) 0 (encBase b) 0 (encG g) 1).word)
  | .rjoin n g => some (encBare 0x205 g (0#9 ++ n))
  | .rwait n g => some (encBare 0x206 g (0#9 ++ n))
  | .exit g => some (encBare 0x207 g 0)
  | .nop g => some (encBare 0x208 g 0)
  | .yield g => some (encBare 0x209 g 0)
  | .shield n g => some ((IF.mk 0x20A 0 0 (encG g) n).word)
  | .bound n b sm g => some ((FF.mk 0x20B 0 0 (encBase b) (encSM sm) (encG g) (0#9 ++ n)).word)
  | .boundNone g => some (encBare 0x20B g 0x10)
  | .incofr n a b sm g => some ((FF.mk 0x20C 0 (encBase a) (encBase b) (encSM sm) (encG g) (0#9 ++ n)).word)
  | .incrd d p n g => some ((FF.mk 0x20D (encX d) 0 0 0 (encG g) (0#7 ++ encPart p ++ n)).word)
  | .incwait n b sm g => some ((FF.mk 0x20E 0 0 (encBase b) (encSM sm) (encG g) (0#9 ++ n)).word)
  | .cancel g => some (encBare 0x20F g 0)
  | .ld d m t o => some (encM 0x280 (encDst d) m 0 (encXM (encW t.w) t.sg o 0))
  | .st m b w o => some (encM 0x281 0 m (encOp b) (encXM (encW w) false o 0))
  | .ldv d m t c o => some (encM 0x282 (encX d) m 0 (encXM (encW t.w) t.sg o (0#2 ++ encVC c)))
  | .stv m b w c o => some (encM 0x283 0 m (encX b) (encXM (encW w) false o (0#2 ++ encVC c)))
  | .atom op d m b w sg o => some (encM 0x284 (encX d) m (encOp b) (encXM (encW2 w) sg o (encAOp op)))
  | .acas d m b w o => some (encM 0x285 (encX d) m (encOp b) (encXM (encW2 w) false o 0))
  | .ldfe d m o => some (encM 0x286 (encX d) m 0 (encXM 1 false o 0))
  | .stfe m b o => some (encM 0x287 0 m (encBase b) (encXM 1 false o 0))
  | .fetagRead d m o => some (encM 0x288 (encX d) m 0 (encXM 1 false o 0))
  | .fetagFill m o => some (encM 0x288 0 m 0 (encXM 1 false o 1))
  | .fetagEmpty m o => some (encM 0x288 0 m 0 (encXM 1 false o 2))
  | .fence o g => some (encBare 0x289 g (encXM 0 false o 0))
  | .pref m => some (encM 0x28A 0 m 0 0)
  | .tcopy e => some (encE 0x300 e)
  | .tgather e => some (encE 0x301 e)
  | .cavred e => some (encE 0x302 e)
  | .loopnest e => some (encE 0x303 e)
  | .search e => some (encE 0x304 e)
  | .spawn d m o => some (encM 0x305 (encX d) m 0 (encXM 0 false o 0))
  | .ringset d m b n => some (encM 0x306 (encX d) m (encX b) (0#11 ++ n))
  | .send e => some (encE 0x307 e)
  | .recvPoll d n g => some ((FF.mk 0x308 (encX d) 0 0 0 (encG g) (0#11 ++ n)).word)
  | .recvWait d n g => some ((FF.mk 0x308 (encX d) 0 0 0 (encG g) (0#8 ++ 1#1 ++ 0#2 ++ n)).word)
  | .bar d s n g => some ((FF.mk 0x309 (encX d) 0 0 0 (encG g) (0#6 ++ encSc s ++ n)).word)
  | .baro d s n g => some ((FF.mk 0x30A (encX d) 0 0 0 (encG g) (0#6 ++ encSc s ++ n)).word)
  | .barw b s n g => some ((FF.mk 0x30B 0 0 (encOp b) 0 (encG g) (0#6 ++ encSc s ++ n)).word)
  | .waitptr c b g => some ((FF.mk 0x30C 0 0 (encBase b) 0 (encG g) (0#10 ++ c)).word)
  | .waitptrTicket b g => some ((FF.mk 0x30C 0 0 (encOp b) 0 (encG g) 8).word)
  | .cntrd d sel sc g => some ((FF.mk 0x30D (encX d) 0 0 0 (encG g)
      (0#2 ++ (match sc with | none => 0#3 | some s => encSc s) ++ sel)).word)
  | .tlbinvPage a s g => some ((FF.mk 0x30E 0 (encBase a) 0 0 (encG g) (match s with | .die => 0x30 | .pkg => 0x40)).word)
  | .tlbinvVf s g => some (encBare 0x30E g (match s with | .die => 0x31 | .pkg => 0x41))
  | .lpark d b g => some ((FF.mk 0x30F (encX d) 0 (encX b) 0 (encG g) 0).word)
  | .lwake d b g => some ((FF.mk 0x310 (encX d) 0 (encX b) 0 (encG g) 0).word)
  | .slotset d m => some (encM 0x311 (encX d) m 0 0)
  | .hspub e => some (encE 0x312 e)
  | .srd d w sel g => some ((FF.mk 0x380 (encX d) 0 0 0 (encG g) (encW2 w ++ 0#3 ++ sel)).word)
  | .swr b w sel g => some ((FF.mk 0x381 0 0 (encOp b) 0 (encG g) (encW2 w ++ 0#3 ++ sel)).word)
  | .trap c g => some ((IF.mk 0x382 0 0 (encG g) c).word)
  | .rte s g => some (encBare 0x383 g (0#12 ++ BitVec.ofBool s))
  | .brk c g => some ((IF.mk 0x384 0 0 (encG g) c).word)
  | .event b w g => some ((FF.mk 0x385 0 0 (encOp b) 0 (encG g) (encW2 w ++ 0#11)).word)
  | .eventMbx b w g => some ((FF.mk 0x385 0 0 (encOp b) 0 (encG g) (encW2 w ++ 0#10 ++ 1#1)).word)
  | .halt g => some (encBare 0x386 g 0)
  | .icflush s g => some (encBare 0x387 g (match s with | .core => 1 | .die => 3 | .pkg => 4))
  | i => (match Machine.pairOf i with
    | some (a, b) => some (pairWord a b)
    | none => none)

end Sys2Proof
end

