-- ==== Sys2Proof/Machine/Memory.lean ====
section
/-! DEFINITION. Group 5, the memory access instructions (13_memory_instr R226 to R237), and the events of memory traffic
(12_ordering R212 to R219, 11_memories R199, R204). -/

namespace Sys2Proof.Machine

/-! ### Operands -/

/-- The address of an M-form with offset scale `s` (R228). -/
def mAddr (e : Env) (m : MAddr) (s : Nat) : W64 := BitVec.ofInt 64 ((readBase e m.a).toNat + (s : Int) * m.off.toInt)

/-- A 64-bit value of a base operand. -/
def wOf (n : Nat) : W64 := BitVec.ofNat 64 n

/-- Elements of LD: a k destination takes the lowest executing lane's value (04_registers R77). -/
def ldElems (d : Dst) (m : MAddr) (t : ITy) (lead : Bool) (e : Env) : List Elem :=
  [{ kind := .load, addr := mAddr e m t.w.bytes, size := t.w.bytes,
     ret := match d with
       | .x n => .x n.toNat t
       | .k n => if lead then .k n.toNat else .none }]

def stElems (m : MAddr) (b : Opnd) (w : Width) (e : Env) : List Elem :=
  [{ kind := .store, addr := mAddr e m w.bytes, size := w.bytes, data := wOf (readOp w e b) }]

/-- Registers that element `i` of a vector takes. -/
def vecReg (d : XReg) (w : Width) (i : Nat) : Nat := d.toNat + (if w == .w64 then 2 * i else i)

def ldvElems (d : XReg) (m : MAddr) (t : ITy) (c : VCnt) (e : Env) : List Elem :=
  (List.range (vcount c)).map fun i =>
    { kind := .load, addr := mAddr e m t.w.bytes + wOf (i * t.w.bytes), size := t.w.bytes, ret := .x (vecReg d t.w i) t }

def stvElems (m : MAddr) (b : XReg) (w : Width) (c : VCnt) (e : Env) : List Elem :=
  (List.range (vcount c)).map fun i =>
    { kind := .store, addr := mAddr e m w.bytes + wOf (i * w.bytes), size := w.bytes,
      data := wOf (readOp w e (.x (BitVec.ofNat 7 (vecReg b w i)))) }

def atomElems (op : AOp) (d : XReg) (m : MAddr) (b : Opnd) (w : W2) (sg : Bool) (e : Env) : List Elem :=
  [{ kind := .atom op w sg, addr := mAddr e m (w2 w).bytes, size := (w2 w).bytes, data := wOf (readOp (w2 w) e b),
     ret := .x d.toNat ⟨w2 w, false⟩ }]

def acasElems (d : XReg) (m : MAddr) (b : Opnd) (w : W2) (e : Env) : List Elem :=
  [{ kind := .acas w, addr := mAddr e m (w2 w).bytes, size := (w2 w).bytes, data := wOf (readOp (w2 w) e b),
     cmp := wOf (readOp (w2 w) e (.x d)), ret := .x d.toNat ⟨w2 w, false⟩ }]

def ldfeElems (d : XReg) (m : MAddr) (e : Env) : List Elem :=
  [{ kind := .ldfe, addr := mAddr e m 8, size := 8, ret := .x d.toNat ⟨.w64, false⟩ }]

def stfeElems (m : MAddr) (b : Base) (e : Env) : List Elem :=
  [{ kind := .stfe, addr := mAddr e m 8, size := 8, data := readBase e b }]

def tagElems (k : AKindM) (m : MAddr) (r : Ret) (e : Env) : List Elem :=
  [{ kind := k, addr := mAddr e m 8, size := 8, ret := r }]

/-! ### Bodies, which a replay shares (11_memories R209) -/

def ldBody (d : Dst) (m : MAddr) (t : ITy) (o : MO) : Body := memBody (ldElems d m t) o
def stBody (m : MAddr) (b : Opnd) (w : Width) (o : MO) : Body := memBody (fun _ => stElems m b w) o
def ldvBody (d : XReg) (m : MAddr) (t : ITy) (c : VCnt) (o : MO) : Body := memBody (fun _ => ldvElems d m t c) o
def stvBody (m : MAddr) (b : XReg) (w : Width) (c : VCnt) (o : MO) : Body := memBody (fun _ => stvElems m b w c) o
def atomBody (op : AOp) (d : XReg) (m : MAddr) (b : Opnd) (w : W2) (sg : Bool) (o : MO) : Body :=
  memBody (fun _ => atomElems op d m b w sg) o
def acasBody (d : XReg) (m : MAddr) (b : Opnd) (w : W2) (o : MO) : Body := memBody (fun _ => acasElems d m b w) o
def ldfeBody (d : XReg) (m : MAddr) (o : MO) : Body := memBody (fun _ => ldfeElems d m) o
def stfeBody (m : MAddr) (b : Base) (o : MO) : Body := memBody (fun _ => stfeElems m b) o
def fetagReadBody (d : XReg) (m : MAddr) (o : MO) : Body :=
  memBody (fun _ => tagElems .tagRead m (.x d.toNat ⟨.w32, false⟩)) o
def fetagFillBody (m : MAddr) (o : MO) : Body := memBody (fun _ => tagElems .tagFill m .none) o
def fetagEmptyBody (m : MAddr) (o : MO) : Body := memBody (fun _ => tagElems .tagEmpty m .none) o

/-! ### Meanings -/

def execLd (d : Dst) (m : MAddr) (t : ITy) (o : MO) : State → Host.Outcome State Fault Refusal :=
  runWord (.ld d m t o) m.g (rdPlain (.ld d m t o)) always (ldBody d m t o)

def execSt (m : MAddr) (b : Opnd) (w : Width) (o : MO) : State → Host.Outcome State Fault Refusal :=
  runWord (.st m b w o) m.g (rdPlain (.st m b w o)) always (stBody m b w o)

def execLdv (d : XReg) (m : MAddr) (t : ITy) (c : VCnt) (o : MO) : State → Host.Outcome State Fault Refusal :=
  runWord (.ldv d m t c o) m.g (rdPlain (.ldv d m t c o)) always (ldvBody d m t c o)

def execStv (m : MAddr) (b : XReg) (w : Width) (c : VCnt) (o : MO) : State → Host.Outcome State Fault Refusal :=
  runWord (.stv m b w c o) m.g (rdPlain (.stv m b w c o)) always (stvBody m b w c o)

def execAtom (op : AOp) (d : XReg) (m : MAddr) (b : Opnd) (w : W2) (sg : Bool) (o : MO) :
    State → Host.Outcome State Fault Refusal :=
  runWord (.atom op d m b w sg o) m.g (rdPlain (.atom op d m b w sg o)) always (atomBody op d m b w sg o)

def execAcas (d : XReg) (m : MAddr) (b : Opnd) (w : W2) (o : MO) : State → Host.Outcome State Fault Refusal :=
  runWord (.acas d m b w o) m.g (rdPlain (.acas d m b w o)) always (acasBody d m b w o)

def execLdfe (d : XReg) (m : MAddr) (o : MO) : State → Host.Outcome State Fault Refusal :=
  runWord (.ldfe d m o) m.g (rdPlain (.ldfe d m o)) always (ldfeBody d m o)

def execStfe (m : MAddr) (b : Base) (o : MO) : State → Host.Outcome State Fault Refusal :=
  runWord (.stfe m b o) m.g (rdPlain (.stfe m b o)) always (stfeBody m b o)

def execFetagRead (d : XReg) (m : MAddr) (o : MO) : State → Host.Outcome State Fault Refusal :=
  runWord (.fetagRead d m o) m.g (rdPlain (.fetagRead d m o)) always (fetagReadBody d m o)

def execFetagFill (m : MAddr) (o : MO) : State → Host.Outcome State Fault Refusal :=
  runWord (.fetagFill m o) m.g (rdPlain (.fetagFill m o)) always (fetagFillBody m o)

def execFetagEmpty (m : MAddr) (o : MO) : State → Host.Outcome State Fault Refusal :=
  runWord (.fetagEmpty m o) m.g (rdPlain (.fetagEmpty m o)) always (fetagEmptyBody m o)

/-- Threads wait at a FENCE that they have issued, or wait no longer. -/
def State.fenceAt (s : State) (wk : Nat) (tids : List Nat) (pc : Option W64) : State := s.modTids wk tids fun t => { t with fence := pc }

/-- FENCE (R235): the release step or the place comes first, the acquire step holds the thread behind the word. -/
def fenceBody (o : MO) : Body := fun s c _ who =>
  let tids := who.map fun e => e.tid
  match s.fenceFirst c tids o with
  | some (.done s l) => .done (s.fenceAt c.wg tids (some c.pc)) l
  | some .held => .done (s.fenceAt c.wg tids (some c.pc)) (tids.map fun t => (t, .held))
  | some .illegal => .illegal
  | none =>
    let acq (s : State) (t : Nat) : State :=
      if o.o == .rel then s
      else (s.modThr (thrKey c.wg t) fun u => { u with hold := .acq o.sc }).settleAcq (thrKey c.wg t)
    .done (tids.foldl acq (s.fenceAt c.wg tids none)) (tids.map fun t => (t, .next))

def execFence (o : MO) (g : Guard) : State → Host.Outcome State Fault Refusal :=
  runWord (.fence o g) g (rdPlain (.fence o g)) always (fenceBody o)

/-- PREF (R236) changes no architectural state. -/
def prefBody : Body := fun s _ _ who => .done s (who.map fun e => (e.tid, .next))

def execPref (m : MAddr) : State → Host.Outcome State Fault Refusal :=
  runWord (.pref m) m.g (rdPlain (.pref m)) always prefBody

/-! ### Events of memory traffic -/

/-- The access of an identifier. -/
def State.acc? (s : State) (id : Nat) : Option Access := s.accs.find? (·.id == id)

/-- The thread's gang has given its tag waits back to be replayed (13_memory_instr R237). -/
def State.givenBack (s : State) (a : Access) : Bool :=
  let g := s.gang (s.wg (a.thr / 2048)).gang
  a.kind.waitsTag && !a.cancelled &&
    (g.st == .preempted || (match g.pre with | some p => p.acks.contains .issue | none => false) ||
      (s.thr a.thr).pre != .none)

/-- Whether a peer load is served from the die's cached copy, when there is one: nothing decides it (assumption 2). -/
def State.peerLoad (s : State) (a : Access) : W64 × State :=
  let w := a.loc / 8
  let k := viewKey a.dkey w
  let (n, s) := s.draw
  match tfind s.views k with
  | some v =>
    if Config.freeChoice n % 2 = 0 && !a.unc then (v, s)
    else
      let h := readWord s.mem w
      (h, { s with views := if a.unc then s.views else tset s.views k h })
  | none =>
    let h := readWord s.mem w
    (h, { s with views := if a.unc then s.views else tset s.views k h })

/-- A load reads its value at the level that answers it (R211, R218, R219; uncached: at its home). -/
def State.serveLoad (s : State) (a : Access) : State :=
  let part (v : W64) : W64 := wordPart v (a.loc % 8) a.size
  if a.peer then
    let (v, s) := s.peerLoad a
    s.modAcc a.id fun b => { b with served := some (part v) }
  else if a.unc && a.repl.isNone then
    s.modAcc a.id fun b => { b with served := some (part (readWord s.mem (a.loc / 8))), past := s.pastOf (a.loc / 8), after := s.dueAt a }
  else
    let pl : Place := { loc := a.loc, repl := a.repl, unc := a.unc }
    s.modAcc a.id fun b => { b with served := some (s.readSeen a.pkg a.core pl a.size) }

/-- LOAD_RETURN (R229, R233, R234): the access is served when its turn in program order has come; served, it returns. -/
def execLoadReturn (id : Nat) (s : State) : Host.Outcome State Fault Refusal :=
  match s.acc? id with
  | none => .next s
  | some a =>
    if a.unbacked || a.done then .next s
    else
      match a.served with
      | some v => .next (if s.covered a then s.finishReturn a v else s)
      | none =>
        .next (match a.kind with
          | .load => if s.mayLoad a then s.serveLoad a else s
          | .ldfe => if s.mayStore a && a.arrived.isNone && !s.givenBack a then s.arrive a else s
          | .tagRead =>
            if s.mayStore a then s.modAcc id fun b => { b with served := some (if s.isFull (a.loc / 8) then 1 else 0) } else s
          | .store => s
          | .atom _ _ _ => s
          | .acas _ => s
          | .stfe => s
          | .tagFill => s
          | .tagEmpty => s)

/-- STORE_AT_HOME (R212, R213): a store, STFE or tag operation is performed at its home. -/
def execStoreAtHome (id : Nat) (s : State) : Host.Outcome State Fault Refusal :=
  match s.acc? id with
  | none => .next s
  | some a =>
    if a.unbacked || a.performed || !s.mayStore a then .next s
    else
      .next (match a.kind with
        | .store =>
          let s := s.performData a a.size a.data Vec.zero
          (s.modAcc id fun b => { b with served := some 0 }).retireAcc id
        | .stfe => if a.arrived.isNone && !s.givenBack a then (s.arrive a).retireAcc id else s
        | .tagFill => ((s.tagStep a).modAcc id fun b => { b with served := some 0 }).retireAcc id
        | .tagEmpty => ((s.tagStep a).modAcc id fun b => { b with served := some 0 }).retireAcc id
        | .load => s
        | .ldfe => s
        | .tagRead => s
        | .atom _ _ _ => s
        | .acas _ => s)

/-- ATOM_RETURN (R231, R232): an atomic is performed at its home; performed, it returns. -/
def execAtomReturn (id : Nat) (s : State) : Host.Outcome State Fault Refusal :=
  match s.acc? id with
  | none => .next s
  | some a =>
    let go (s : State) : State :=
      if a.unbacked || a.done then s
      else
        match a.served with
        | some v => if s.covered a then s.finishReturn a v else s
        | none => if s.mayStore a then s.performAtom a else s
    .next (match a.kind with
      | .atom _ _ _ => go s
      | .acas _ => go s
      | .load => s
      | .store => s
      | .ldfe => s
      | .stfe => s
      | .tagRead => s
      | .tagFill => s
      | .tagEmpty => s)

/-- NOTICE_INSTALL (R212, R218): a die installs a notice whose turn it is. -/
def execNoticeInstall (id : Nat) (s : State) : Host.Outcome State Fault Refusal :=
  match s.notices.find? (·.id == id) with
  | none => .next s
  | some n => .next (if s.canInstall n then (s.install n).retireAcc n.acc else s)

/-- PEER_ACK (R215): the peer home acknowledges a performed store, once the dies of its package have installed it (R216, R219). -/
def execPeerAck (id : Nat) (s : State) : Host.Outcome State Fault Refusal :=
  match s.acc? id with
  | none => .next s
  | some a =>
    .next (if a.peer && a.performed && !a.kind.returns && !(s.notices.any fun n => n.acc == id) then
        { s with accs := s.accs.filter (·.id != id) }
      else s)

/-- SC_FENCE_PLACE (R215): a thread whose release step is complete takes its place in the order of sc fences. After an `.sc`
access the second fence ends with the acquire step. -/
def execScFencePlace (thr : Nat) (s : State) : Host.Outcome State Fault Refusal :=
  let t := s.thr thr
  match t.hold with
  | .scPre sc =>
    .next (if s.relDone thr sc then (s.modThr thr fun t => { t with scPlaced := true }).endHold (thr / 2048) (thr % 2048) else s)
  | .scPost sc =>
    .next (if s.relDone thr sc then (s.modThr thr fun t => { t with hold := .acq sc }).settleAcq thr else s)
  | _ => .next s

/-- PEER_ERROR_RESPONSE (11_memories R199, R205): the response to an access that nothing backs; the thread takes ACCESS at
its word, and the response is counted. -/
def execPeerErrorResponse (id : Nat) (s : State) : Host.Outcome State Fault Refusal :=
  match s.acc? id with
  | none => .next s
  | some a =>
    if !a.unbacked then .next s
    else
      let s := { s with accs := s.accs.filter (·.id != id) }
      let s := s.errResponse a.pkg a.loc
      let t := s.thr a.thr
      if t.live && t.hold == .peer id then
        let s := s.modThr a.thr fun t => { t with hold := .none }
        .next (s.trap (a.thr / 2048) [(a.thr % 2048, { cause := .access, detail := 0x03, pc := t.pc, addr := a.addr })])
      else .next s

/-- Bytes of a host write from a physical address up, word by word (R213): posted writes enter home order like stores without a clock, in
their order. -/
def State.hostWrite (s : State) (p pa : Nat) (bytes : List Byte) : State :=
  (List.range (bytes.length / 8 + 2)).foldl (fun s i =>
    let lo := max pa ((pa / 8 + i) * 8)
    let hi := min (pa + bytes.length) ((pa / 8 + i + 1) * 8)
    match s.devLoc p lo with
    | some l =>
      if lo < hi then s.homeStore l (hi - lo) (BitVec.ofNat 64 (fld bytes (lo - pa) (hi - lo))) { posted := .host } else s
    | none => s) s

/-- HOST_MEM_WRITE (R213): the host writes device memory at a physical address of the package. -/
def execHostMemWrite (pkg pa : Nat) (bytes : List Byte) (s : State) : Host.Outcome State Fault Refusal :=
  .next (s.hostWrite pkg pa bytes)

/-- TLB_WALK (11_memories R204): a walker fills the TLBs with a present, valid leaf, or finds none. -/
def execTlbWalk (pkg core fn va : Nat) (s : State) : Host.Outcome State Fault Refusal :=
  .next (s.translate pkg core fn va).2

end Sys2Proof.Machine
end

