-- ==== Sys2Proof/Machine/Trap.lean ====
section
/-! DEFINITION. Group 7 (10_trap_state R187 to R192): system registers, software traps, the return from a trap, event records,
HALT and ICFLUSH. -/

namespace Sys2Proof.Machine

/-! ### System registers (04_registers R80) -/

/-- What SRD reads for a thread (R188). -/
def State.sysRead (s : State) (wk tid sel : Nat) : W64 :=
  let w := s.wg wk
  let t := s.thr (thrKey wk tid)
  let c := s.core w.ckey
  let p := s.pkg w.pkg
  let n (v : Nat) : W64 := BitVec.ofNat 64 v
  match sel with
  | 0x00 => n tid
  | 0x01 => n t.lane
  | 0x02 => w.wgid.setWidth 64
  | 0x03 => w.gangid.setWidth 64
  | 0x04 => w.launchid.setWidth 64
  | 0x05 => n w.core
  | 0x06 => n (w.core / 4)
  | 0x07 => n (w.core / 160)
  | 0x08 => n w.pkg
  | 0x09 => n Config.gwidth
  | 0x0A => t.flags.setWidth 64
  | 0x0B => (t.q ||| 1).setWidth 64
  | 0x0C => t.bnd
  | 0x0D => t.bsel.setWidth 64
  | 0x0E => t.poisonLo
  | 0x0F => t.poisonHi
  | 0x10 => t.trap.pc
  | 0x11 => t.trap.cause.setWidth 64
  | 0x12 => t.trap.addr
  | 0x13 => t.trap.parent.setWidth 64
  | 0x14 => t.trap.sibLo
  | 0x15 => t.trap.sibHi
  | 0x18 | 0x19 | 0x1A | 0x1B | 0x1C | 0x1D | 0x1E => c.dbgReg sel
  | 0x20 => p.gen.setWidth 64
  | 0x21 => p.dryfrac.setWidth 64
  | 0x22 => c.susp.setWidth 64
  | 0x23 => c.dropped
  | 0x24 => p.clock
  | 0x28 => c.dqbase.setWidth 64
  | 0x29 => c.dqlimit.setWidth 64
  | _ => 0

/-- A write of a per-thread system register: reserved bits ignore it (00_scope R3), and so do QREG bit 0, TRAPCAUSE and
TRAPADDR (R188). -/
def Thread.sysWrite (t : Thread) (sel : Nat) (v : W64) : Thread :=
  match sel with
  | 0x0A => { t with flags := v.setWidth 32 &&& flagMask }
  | 0x0B => { t with q := v.setWidth 8 ||| 1 }
  | 0x0C => { t with bnd := v }
  | 0x0D => { t with bsel := v.setWidth 5 }
  | 0x0E => { t with poisonLo := v }
  | 0x0F => { t with poisonHi := v }
  | 0x10 => { t with trap := { t.trap with pc := v } }
  | _ => t

/-- A write of a debug register of a core (R183): the STEP bit and reserved bits ignore it. -/
def Core.dbgWrite (c : Core) (sel : Nat) (v : W64) : Core :=
  let brk (n : Nat) : Core := { c with brkpc := lset c.brkpc n (v &&& ~~~6#64) }
  match sel with
  | 0x18 => { c with dbgctl := (v.setWidth 32 &&& 0xE#32) ||| (c.dbgctl &&& 1#32) }
  | 0x19 => brk 0
  | 0x1A => brk 1
  | 0x1B => brk 2
  | 0x1C => brk 3
  | 0x1D => { c with watchLo := v }
  | 0x1E => { c with watchHi := v }
  | _ => c

/-- A debug register written through the mailbox governs every word that the core issues from then on (17_prog_debug R279). -/
def Core.dbgSet (c : Core) (sel : Nat) (v : W64) : Core :=
  { c.dbgWrite sel v with dbgOld := c.dbgOld.filter fun x => x.sel != sel }

/-- A debug register written by SWR: for 0, 1 or 2 I-cycles, a free value, words still issue under the value before (R183). -/
def State.dbgSwr (s : State) (ck sel : Nat) (v : W64) : State :=
  let (n, s) := s.draw
  let left := (Config.freeDelay n).val
  s.modCore ck fun c =>
    { c.dbgWrite sel v with
      dbgOld := if left = 0 then c.dbgOld else c.dbgOld ++ [{ sel := sel, old := c.dbgReg sel, left := left }] }

/-- Two byte ranges meet; an empty one meets nothing. -/
def meet (a b c d : Nat) : Bool := decide (a < b) && decide (c < d) && decide (a < d) && decide (c < b)

/-- The scratchpad kept on a core for the workgroup gathered there (11_memories R195, 18_queues R294). -/
def State.gatheredSpan (s : State) (ck : Nat) : Nat × Nat :=
  match (s.core ck).gathered with
  | some g => (g.off, g.off + (s.ctx g.ctx).launch.scratch)
  | none => (0, 0)

/-- A deque region may stand (R81): empty, or clear of the reduce region, of every resident allocation, and of the one kept for a gathered
workgroup (11_memories R195). -/
def State.dqRegion (s : State) (ck base limit : Nat) : Bool :=
  !meet base limit 0x3C000 0x40000 && !meet base limit (s.gatheredSpan ck).1 (s.gatheredSpan ck).2 &&
    (s.wgsOn ck).all fun k => !meet base limit (s.wg k).scrBase ((s.wg k).scrBase + (s.wg k).scrSize)

/-- DQBASE and DQLIMIT take new values under the two conditions of R81, or not at all. -/
def State.dqWrite (s : State) (ck : Nat) (base limit : W32) : Option State :=
  if (s.core ck).deque.isEmpty && s.dqRegion ck base.toNat limit.toNat then
    some (s.modCore ck fun c => { c with dqbase := base, dqlimit := limit })
  else none

/-- Selectors whose value differs by core or time (15_counters R267). -/
def sysSpoils (sel : Nat) : Bool := [0x05, 0x06, 0x07, 0x20, 0x22, 0x23, 0x24].contains sel

def execSrd (d : XReg) (w : W2) (sel : BitVec 8) (g : Guard) : State → Host.Outcome State Fault Refusal :=
  runWord (.srd d w sel g) g (rdPlain (.srd d w sel g)) always fun s c _ who =>
    let s := if !who.isEmpty && sysSpoils sel.toNat then s.spoil c.wg else s
    .done (who.foldl (fun s e => s.modThr (thrKey c.wg e.tid) fun t =>
        t.wxs (put d ⟨w2 w, false⟩ (s.sysRead c.wg e.tid sel.toNat).toNat)) s)
      (who.map fun e => (e.tid, .next))

/-- A thread may write the register (R80). -/
def State.mayWrite (sel : Nat) (s : State) (c : Site) : Bool :=
  match sysReg sel with
  | some (_, .u) => true
  | some (_, .t) => s.inHandler c
  | some (_, .d) => s.inHandler c || (s.launchOf (s.wg c.wg)).debug
  | some (_, .r) => false
  | none => false

/-- SWR: a per-thread register in each executing thread; a per-core one from the lowest. -/
def swrBody (b : Opnd) (w : W2) (sel : Nat) : Body := fun s c _ who =>
  let v (e : Env) : W64 := BitVec.ofNat 64 (readOp (w2 w) e b)
  let all := who.map fun e => (e.tid, Fin.next)
  let ck := coreKey c.pkg c.core
  match who with
  | [] => .done s []
  | e :: _ =>
    if sel = 0x28 || sel = 0x29 then
      let k := s.core ck
      let x := (v e).setWidth 32
      (match s.dqWrite ck (if sel = 0x28 then x else k.dqbase) (if sel = 0x29 then x else k.dqlimit) with
       | none => .illegal
       | some s => .done s all)
    else if 0x18 ≤ sel && sel ≤ 0x1E then .done (s.dbgSwr ck sel (v e)) all
    else .done (who.foldl (fun s e => s.modThr (thrKey c.wg e.tid) fun t => t.sysWrite sel (v e)) s) all

def execSwr (b : Opnd) (w : W2) (sel : BitVec 8) (g : Guard) : State → Host.Outcome State Fault Refusal :=
  runWord (.swr b w sel g) g (rdPlain (.swr b w sel g)) (State.mayWrite sel.toNat) (swrBody b w sel.toNat)

/-! ### Traps and the return from one (R189, R190) -/

/-- The same trap in every executing thread. -/
def trapBody (f : Site → TrapInfo) : Body := fun s c _ who => .done s (who.map fun e => (e.tid, .trap (f c)))

def execTrap (n : BitVec 33) (g : Guard) : State → Host.Outcome State Fault Refusal :=
  runWord (.trap n g) g (rdPlain (.trap n g)) always
    (trapBody fun c => { cause := .trap, pc := c.nextPc, addr := n.setWidth 64 })

def execBrk (n : BitVec 33) (g : Guard) : State → Host.Outcome State Fault Refusal :=
  runWord (.brk n g) g (rdPlain (.brk n g)) always
    (trapBody fun c => { cause := .bkpt, pc := c.pc, addr := n.setWidth 64 })

/-- A misaligned TRAPPC: the RTE does not return, which is a double trap at its word. -/
def Thread.badReturn (t : Thread) : Bool := t.trap.pc.toNat % 8 != 0

/-- RTE: the issue of a word in handler mode leaves SHC alone. -/
def rteBody (skip : Bool) : Body := fun s c _ who =>
  let bad (e : Env) : Bool := (s.thr (thrKey c.wg e.tid)).badReturn
  .done (who.foldl (fun s e => if bad e then s else s.modThr (thrKey c.wg e.tid) fun t =>
      { t with aged := false, scPlaced := false, skipBp := false }.ret skip) s)
    (who.map fun e => (e.tid, if bad e then .trap { cause := .badpc, pc := c.pc } else .ended))

def execRte (skip : Bool) (g : Guard) : State → Host.Outcome State Fault Refusal :=
  runWord (.rte skip g) g (rdPlain (.rte skip g)) State.inHandler (rteBody skip)

/-! ### Events and HALT (R191, R192) -/

/-- `n` bytes that the spec leaves open (assumption 2). -/
def State.freeBytes (s : State) (n : Nat) : List Byte × State :=
  ((List.range n).map fun i => Config.freeByte (s.tick + i), { s with tick := s.tick + n })

/-- EVENT of the lowest executing thread; a re-execution posts nothing (15_counters R268). -/
def eventBody (b : Opnd) (w : W2) (mbx : Bool) : Body := fun s c _ who =>
  let all := who.map fun e => (e.tid, Fin.next)
  match who with
  | [] => .done s []
  | e :: _ =>
    if s.redoing c.wg then .done s all
    else
      let v : W64 := BitVec.ofNat 64 (readOp (w2 w) e b)
      if mbx then
        let x := s.wg c.wg
        let (lanes, s) := s.freeBytes 16
        let (sib, s) := s.freeBytes 16
        .done (s.mbPost c.pkg (s.ctx x.ctx).fn
          (natLe 2 3 ++ natLe 4 0 ++ natLe 2 e.tid ++ natLe 4 x.launchid.toNat ++ natLe 4 x.wgid.toNat ++ natLe 2 c.core ++
            natLe 2 0 ++ natLe 4 (s.thr (thrKey c.wg e.tid)).parentId.toNat ++ natLe 8 v.toNat ++ lanes ++ sib)) all
      else .done (s.wgEvent c.wg 0x01 e.tid c.pc v) all

def execEvent (b : Opnd) (w : W2) (g : Guard) : State → Host.Outcome State Fault Refusal :=
  runWord (.event b w g) g (rdPlain (.event b w g)) always (eventBody b w false)

/-- The launch has debug rights. -/
def State.debugLaunch (s : State) (c : Site) : Bool := (s.launchOf (s.wg c.wg)).debug

def execEventMbx (b : Opnd) (w : W2) (g : Guard) : State → Host.Outcome State Fault Refusal :=
  runWord (.eventMbx b w g) g (rdPlain (.eventMbx b w g)) State.debugLaunch (eventBody b w true)

/-- HALT: the fragment stands at the next word, and the workgroup halts all-stop. Outside handler mode TRAPPC is that PC (R186). -/
def haltBody : Body := fun s c _ who =>
  if who.isEmpty then .done s []
  else
    let s := who.foldl (fun s e => s.modThr (thrKey c.wg e.tid) fun t => t.issue) s
    let s := s.modTids c.wg c.tids fun t =>
      { t with pc := c.nextPc, trap := if t.handler then t.trap else { t.trap with pc := c.nextPc } }
    .done ((s.allStop c.wg).report c.wg 0x15 c.tids) (who.map fun e => (e.tid, .ended))

def execHalt (g : Guard) : State → Host.Outcome State Fault Refusal :=
  runWord (.halt g) g (rdPlain (.halt g)) State.debugLaunch haltBody

/-! ### ICFLUSH (R192)

No instruction cache stands in the model: a fetch reads its die's view. So the flush is complete when every store that the
issuing thread sees stands in the view of each die within the scope (assumption 21). -/

/-- A store that the thread's die sees, or the thread's own, has still to reach a die within the scope. -/
def State.flushOwes (s : State) (k : Nat) (sc : IcScope) : Bool :=
  let w := s.wg (k / 2048)
  let d := w.core / 160
  let dies := match sc with | .core => [d] | .die => [d] | .pkg => [0, 1, 2, 3]
  let unseen (n : Notice) : Bool := s.notices.any fun m => m.pkg == w.pkg && m.die == d && m.word == n.word && m.ver == n.ver
  (s.accs.any fun a => a.thr == k && !a.kind.returns && !a.performed && !a.unbacked) ||
    s.notices.any fun n => n.pkg == w.pkg && dies.contains n.die &&
      (!unseen n || s.accs.any fun a => a.id == n.acc && a.thr == k)

def execIcflush (sc : IcScope) (g : Guard) : State → Host.Outcome State Fault Refusal :=
  runWord (.icflush sc g) g (rdPlain (.icflush sc g)) always
    fun s c _ who =>
      .done (s.modTids c.wg (who.map fun e => e.tid) fun t => { t with hold := .icflush sc })
        (who.map fun e => (e.tid, .next))

/-- ICFLUSH_COMPLETION. -/
def execIcflushCompletion (thr : Nat) (s : State) : Host.Outcome State Fault Refusal :=
  match (s.thr thr).hold with
  | .icflush sc => .next (if s.flushOwes thr sc then s else s.endHold (thr / 2048) (thr % 2048))
  | _ => .next s

end Sys2Proof.Machine
end

