-- ==== Sys2Proof/Machine/Debug.lean ====
section
/-! DEFINITION. The debug agent: the requests of the mailbox and the end of a single-step (10_trap_state R183 to R186,
17_prog_debug R278, R279, 04_registers R85 to R87). -/

namespace Sys2Proof.Machine

/-! ### Requests (R186) -/

/-- A request record. -/
structure Req where
  req : Nat
  tag : Nat
  launchid : W32
  wgid : W32
  tid : Nat
  kind : Nat
  num : Nat
  value : W64
  flg : Nat
  zero : Bool
  deriving DecidableEq, Repr, Inhabited

def reqOf (r : List Byte) : Req :=
  { req := fld r 0 2, tag := fld r 2 2, launchid := BitVec.ofNat 32 (fld r 4 4), wgid := BitVec.ofNat 32 (fld r 8 4),
    tid := fld r 12 2, kind := fld r 14 1, num := fld r 15 1, value := BitVec.ofNat 64 (fld r 16 8), flg := fld r 24 1,
    zero := zeros r 25 39 }

/-- REQ is one of the seven. -/
def Req.known (q : Req) : Bool := decide (1 ≤ q.req) && decide (q.req ≤ 7)

/-- The record breaks no rule that holds for every request. -/
def Req.ok (q : Req) : Bool := q.known && q.zero && decide (q.flg < 2) && decide (q.kind ≤ 4)

/-- The oldest request of a function that has not been served. -/
def State.mbHead (s : State) (p fn : Nat) : Option Req :=
  let f := s.fn (fnKey p fn)
  match ringOf f.mbqbase f.mbctl 4 3 with
  | none => none
  | some (base, n) =>
    let tail := s.devRead p (base + 64 * n) 8
    let head := s.devRead p (base + 64 * n + 8) 8
    if tail = head then none else some (reqOf (s.devBytes p (base + 64 * (head % n)) 64))

/-- HEAD advances past a served request. -/
def State.mbNext (s : State) (p fn : Nat) : State :=
  let f := s.fn (fnKey p fn)
  match ringOf f.mbqbase f.mbctl 4 3 with
  | none => s
  | some (base, n) =>
    let at' := base + 64 * n + 8
    s.devWord p at' (BitVec.ofNat 64 (s.devRead p at' 8 + 1))

def mbOk : Nat := 0
def mbBusy : Nat := 1
def mbInvalid : Nat := 2
def mbGone : Nat := 3

/-- The response to a request, and the request consumed (R279). -/
def State.respond (s : State) (p fn : Nat) (q : Req) (core status : Nat) (v : W64) : State :=
  (s.mbPost p fn (mbRecord 1 q.tag status 0 q.tid q.launchid.toNat q.wgid.toNat core 0 v 0 0)).mbNext p fn

/-- The target workgroup of a request: one of a launch of the function, and resident or pre-empted. -/
def State.reqWg (s : State) (p fn : Nat) (q : Req) : Option Nat :=
  match s.findWg p q.launchid q.wgid with
  | none => none
  | some k =>
    let w := s.wg k
    if (s.ctx w.ctx).fn = fn && (w.resident || (s.gang w.gang).st == .preempted) then some k else none

/-- The target's gang is being pre-empted or stands saved: the request waits for its resumption. -/
def State.awayWg (s : State) (k : Nat) : Bool :=
  let g := s.gang (s.wg k).gang
  g.st != .running || g.pre.isSome

/-- What serving a request answers: a status and a value, the state, and the reports that follow the response. -/
structure Ans where
  status : Nat
  value : W64 := 0
  s : State
  after : List (Nat × List Nat) := []

def Ans.of (s : State) (status : Nat) : Ans := { status := status, s := s }

/-- Serve the head request of a function when it is the given one; an unknown one is answered INVALID by whichever event comes.
`bad` is what makes this request INVALID, `f` its effect on the target workgroup. -/
def State.serve (s : State) (p fn req : Nat) (bad : Req → Bool) (f : State → Nat → Req → Ans) : State :=
  match s.mbHead p fn with
  | none => s
  | some q =>
    if q.known && q.req != req then s
    else
      let k := s.reqWg p fn q
      let core := match k with | some k => (s.wg k).core | none => 0
      if !q.ok || bad q then s.respond p fn q core mbInvalid 0
      else
        match k with
        | none => s.respond p fn q 0 mbGone 0
        | some k =>
          if s.awayWg k then s
          else
            let a := f s k q
            a.after.foldl (fun s (c, ts) => s.report k c ts) (a.s.respond p fn q core a.status a.value)

/-- No request is INVALID for its register. -/
def anyReq (_ : Req) : Bool := false

/-- A change of PC from outside the thread withdraws a wait (R87) and drops a parked word, which has taken no effect. -/
def Thread.moveTo (t : Thread) (v : W64) : Thread :=
  if v == t.pc then t else { t.withdraw t.wait with pc := v, wait := .none, park := none, claimed := [] }

/-- Where a released thread resumes: at a written TRAPPC, unless it is in handler mode. -/
def Thread.effPc (t : Thread) : W64 :=
  match t.relPc with
  | some v => if t.handler then t.pc else v
  | none => t.pc

/-- The release of a halted thread. -/
def Thread.release (t : Thread) (skip : Bool) (now : Nat) : Thread :=
  { t.moveTo t.effPc with halted := false, relPc := none, skipBp := t.skipBp || skip, since := now }

def releaseReq (s : State) (k : Nat) (q : Req) : Ans :=
  let hs := (s.liveTids k).filter fun i => (s.thr (thrKey k i)).halted
  .of (s.modTids k hs fun t => t.release (q.flg == 1) (s.clockOf (s.wg k).pkg)) mbOk

def execRelease (pkg fn : Nat) (s : State) : Host.Outcome State Fault Refusal :=
  .next (s.serve pkg fn 2 anyReq releaseReq)

/-! ### Single-step (R184) -/

/-- STEP: the halted threads of one parent that stand with the named thread go on for one word. -/
def stepReq (s : State) (k : Nat) (q : Req) : Ans :=
  let w := s.wg k
  let t := s.thr (thrKey k q.tid)
  if w.size ≤ q.tid then .of s mbInvalid
  else if !t.halted || (s.core w.ckey).dbgctl.getLsbD 0 then .of s mbBusy
  else
    let fr := (s.siblings k t).filter fun i =>
      let u := s.thr (thrKey k i)
      u.halted && u.handler == t.handler && u.effPc == t.effPc
    let s := s.modTids k fr fun u => u.release true (s.clockOf w.pkg)
    .of (s.modCore w.ckey fun c =>
      { c with dbgctl := c.dbgctl ||| 1,
               stepping := some { wg := k, tid := q.tid, tids := fr, pc := t.effPc, handler := t.handler, issued := false } }) mbOk

def execStep (pkg fn : Nat) (s : State) : Host.Outcome State Fault Refusal :=
  .next (s.serve pkg fn 3 anyReq stepReq)

/-- The STEP trap of a stepped thread that still runs: outside handler mode it writes the trap registers (R179). -/
def State.stepTrap (s : State) (k : Nat) (fr : List Nat) : State :=
  let sib := s.sibMask k fr
  fr.foldl (fun s i => s.modThr (thrKey k i) fun t =>
    if t.halted then t
    else if t.handler then { t with halted := true, relPc := none }
    else t.enter { cause := .step, pc := t.pc } 0 sib true) s

/-- Threads of a step that halt after it: those that took a trap of the word stand in the handler already. -/
def State.stepHalt (s : State) (k : Nat) (took : List Nat) (ts : List Nat) : State :=
  let s := s.modTids k took fun t => { t with halted := true, relPc := none }
  (s.fragments k (ts.filter fun i => !took.contains i) []).foldl (fun s f => s.stepTrap k f) s

/-- The record of a step after which its fragment, or the named thread, is gone. -/
def State.stepGone (s : State) (st : StepSt) : State :=
  let w := s.wg st.wg
  let t := s.thr (thrKey st.wg st.tid)
  s.mbPost w.pkg (s.ctx w.ctx).fn (mbRecord 2 0 0 0x13 st.tid w.launchid.toNat w.wgid.toNat w.core t.parentId.toNat st.pc 0
    (laneMask ((s.siblings st.wg t).map fun i => (s.thr (thrKey st.wg i)).lane)))

/-- STEP_COMPLETE: what the word owes is taken, the fragment halts again, and one report is posted. -/
def State.stepEnd (s : State) (ck : Nat) (st : StepSt) : State :=
  let k := st.wg
  let live := st.tids.filter fun i => (s.thr (thrKey k i)).live
  let hit := s.watchers k live
  let s := (s.modTids k (hit.map Prod.fst) fun t => { t with watch := none })
  let s := if hit.isEmpty then s else s.trap k hit
  let own := (s.thr (thrKey k st.tid)).halted
  let took := live.filter fun i => !st.handler && (s.thr (thrKey k i)).handler
  let s := s.stepHalt k took live
  let s := s.modCore ck fun c => { c with dbgctl := c.dbgctl &&& ~~~1#32, stepping := none }
  if own then s
  else if !live.contains st.tid then s.stepGone st
  else
    let t := s.thr (thrKey k st.tid)
    let fr := (s.siblings k t).filter fun i =>
      let u := s.thr (thrKey k i)
      live.contains i && u.pc == t.pc && u.handler == t.handler
    s.report k (if took.contains st.tid then t.trap.cause.toNat % 256 else 0x13) fr

/-- A step of the workgroup that HALTWG meets (R182, R184): after its word it ends first, with its STEP; before it the threads halt at
this boundary, and the step is over (assumption 80). -/
def State.haltStep (s : State) (k : Nat) : State :=
  let ck := (s.wg k).ckey
  match (s.core ck).stepping with
  | none => s
  | some st =>
    if st.wg != k then s
    else if st.issued then s.stepEnd ck st
    else s.modCore ck fun c => { c with dbgctl := c.dbgctl &&& ~~~1#32, stepping := none }

/-- HALTWG: all-stop, then one report for each fragment that it halted. A thread that a trap of its own halts is in that trap's report. -/
def haltReq (s : State) (k : Nat) (_ : Req) : Ans :=
  let s := s.haltStep k
  let newly := (s.liveTids k).filter fun i => !(s.thr (thrKey k i)).halted
  if newly.isEmpty then .of s mbOk
  else
    let own := ((s.settleOwed k).2.flatMap Prod.snd)
    let s := s.allStop k
    { status := mbOk, s := s,
      after := (s.fragments k (newly.filter fun i => !own.contains i && (s.thr (thrKey k i)).live) []).map fun f => (0x16, f) }

def execHaltwg (pkg fn : Nat) (s : State) : Host.Outcome State Fault Refusal :=
  .next (s.serve pkg fn 1 anyReq haltReq)

def execStepComplete (pkg core : Nat) (s : State) : Host.Outcome State Fault Refusal :=
  let ck := coreKey pkg core
  match (s.core ck).stepping with
  | none => .next s
  | some st =>
    if st.issued || st.tids.all fun i => !(s.thr (thrKey st.wg i)).live then .next (s.stepEnd ck st) else .next s

/-! ### Registers (04_registers R85, R86) -/

/-- The x registers that a parked word will write. -/
def Park.writes (p : Park) : List Nat :=
  if p.frag.isEmpty then []
  else match decode p.word with
    | .ok i => (names i).xw
    | .error _ => []

/-- x register `n` of thread `k` has a write in flight. -/
def State.inFlight (s : State) (k n : Nat) : Bool :=
  let t := s.thr k
  (s.accs.any fun a => a.thr == k && a.destX.contains n) ||
  (match t.wait with
   | .recv _ d _ _ _ => decide (d ≤ n) && decide (n < d + 16)
   | _ => false) ||
  (match t.park with
   | some p => p.writes.contains n
   | none => false)

/-- A forced write takes its part of what is in flight. -/
def State.claim (s : State) (k n : Nat) : State :=
  let mark (a : Access) : Access :=
    match a.ret with
    | .x d _ =>
      if a.thr == k && a.destX.contains n then (if n = d then { a with dropLo := true } else { a with dropHi := true }) else a
    | .k _ => a
    | .none => a
  let t := s.thr k
  let later := match t.wait, t.park with
    | .recv _ d _ _ _, _ => decide (d ≤ n) && decide (n < d + 16)
    | _, some p => p.writes.contains n
    | _, none => false
  let s := { s with accs := s.accs.map mark }
  if later then s.modThr k fun t => { t with claimed := ninsert t.claimed n } else s

/-- A system selector that no request may write (R85). -/
def selRefused (sel : Nat) : Bool :=
  [0x0E, 0x0F, 0x11, 0x12, 0x28, 0x29].contains sel ||
    (match sysReg sel with | some (_, .r) => true | none => true | _ => false)

/-- A register write that R85 refuses whatever the state: q0, and the system registers named. -/
def badWrite (q : Req) : Bool := (q.kind == 2 && q.num == 0) || (q.kind == 3 && selRefused q.num)

/-- What a request for a thread's register meets first: a thread out of range, or one that is not halted; for a k register
the whole workgroup. -/
def State.regBusy (s : State) (k : Nat) (q : Req) : Option Nat :=
  if (s.wg k).size ≤ q.tid then some mbInvalid
  else if q.kind = 1 then
    (if (s.liveTids k).all fun i => (s.thr (thrKey k i)).halted then none else some mbBusy)
  else if (s.thr (thrKey k q.tid)).halted then none else some mbBusy

/-- RDREG. A word in error reads as a free value (assumption 2). -/
def readReq (s : State) (k : Nat) (q : Req) : Ans :=
  let w := s.wg k
  let t := s.thr (thrKey k q.tid)
  match s.regBusy k q with
  | some e => .of s e
  | none =>
    if (q.kind = 0 && w.nregs ≤ q.num) || (q.kind = 1 && 64 ≤ q.num) || (q.kind = 2 && 8 ≤ q.num) || (q.kind = 3 && (sysReg q.num).isNone) then
      .of s mbInvalid
    else if (q.kind = 0 && t.bad q.num) || (q.kind = 1 && w.badK.contains q.num) then
      let (b, s) := s.freeBytes 4
      { status := mbOk, value := BitVec.ofNat 64 (leNat b), s := s }
    else
      { status := mbOk, s := s, value := match q.kind with
        | 0 => (t.x.getD q.num 0).setWidth 64
        | 1 => (w.k.getD q.num 0).setWidth 64
        | 2 => if q.num = 0 || t.q.getLsbD q.num then 1 else 0
        | 3 => s.sysRead k q.tid q.num
        | _ => t.pc }

def execRdreg (pkg fn : Nat) (s : State) : Host.Outcome State Fault Refusal :=
  .next (s.serve pkg fn 4 anyReq readReq)

/-- A write of a system register of a halted thread; of TRAPPC also where its release resumes it (R186). -/
def State.selWrite (s : State) (k tid sel : Nat) (v : W64) : State :=
  if 0x18 ≤ sel && sel ≤ 0x1E then s.modCore (s.wg k).ckey fun c => c.dbgSet sel v
  else
    s.modThr (thrKey k tid) fun t =>
      let t := t.sysWrite sel v
      if sel = 0x10 && !t.handler then { t with relPc := some v } else t

/-- WRREG and, with `forced`, WRREGF. KIND 2 names predicate NUM, whose new value is bit 0 of VALUE (assumption 44). No KIND names SHC or
JOIN (assumption 72). A thread that is not halted answers BUSY before any check of the value (assumption 72). -/
def writeReq (forced : Bool) (s : State) (k : Nat) (q : Req) : Ans :=
  let w := s.wg k
  let tk := thrKey k q.tid
  match s.regBusy k q with
  | some e => .of s e
  | none =>
    if (q.kind = 0 && w.nregs ≤ q.num) || (q.kind = 1 && 64 ≤ q.num) || (q.kind = 2 && 8 ≤ q.num) ||
        (q.kind = 4 && q.value.toNat % 8 ≠ 0) then
      .of s mbInvalid
    else if q.kind = 0 && !forced && s.inFlight tk q.num then .of s mbBusy
    else
      let s := s.spoil k
      .of (match q.kind with
        | 0 => (s.claim tk q.num).modThr tk fun t => t.wx q.num (q.value.setWidth 32)
        | 1 => s.modWg k fun w => w.wk q.num (q.value.setWidth 32)
        | 2 => s.modThr tk fun t => t.wq (BitVec.ofNat 3 q.num) (q.value.getLsbD 0)
        | 3 => s.selWrite k q.tid q.num q.value
        | _ => s.modThr tk fun t => { t.moveTo q.value with relPc := none }) mbOk

def execWrreg (pkg fn : Nat) (s : State) : Host.Outcome State Fault Refusal :=
  .next (s.serve pkg fn 5 badWrite (writeReq false))

def execWrregf (pkg fn : Nat) (s : State) : Host.Outcome State Fault Refusal :=
  .next (s.serve pkg fn 6 badWrite (writeReq true))

/-- WRDBG names a debug register by its selector. -/
def badDbg (q : Req) : Bool := q.kind != 3 || !(decide (0x18 ≤ q.num) && decide (q.num ≤ 0x1E))

def wrdbgReq (s : State) (k : Nat) (q : Req) : Ans :=
  .of (((s.spoil k).modCore (s.wg k).ckey fun c => c.dbgSet q.num q.value)) mbOk

def execWrdbg (pkg fn : Nat) (s : State) : Host.Outcome State Fault Refusal :=
  .next (s.serve pkg fn 7 badDbg wrdbgReq)

end Sys2Proof.Machine
end

