-- ==== Sys2Proof/Machine/Flits.lean ====
section
/-! DEFINITION. Flits as beats on wavelengths: the header, the check, the deal of the beats, and what a receiver reads
(22_links R332, R333). -/

namespace Sys2Proof.Machine

/-- Bytes padded with zeros to a length. -/
def padTo (n : Nat) (b : List Byte) : List Byte := b ++ List.replicate (n - b.length) 0

/-! ### The check -/

/-- One bit of the CRC-32C, bits least significant first: the polynomial 0x1EDC_6F41, mirrored. -/
def crcBit (c : Nat) : Nat := if c % 2 = 1 then (c / 2) ^^^ 0x82F63B78 else c / 2

/-- One byte of it. -/
def crcByte (c : Nat) (b : Byte) : Nat := (List.range 8).foldl (fun c _ => crcBit c) (c ^^^ b.toNat)

/-- Some bytes of it. The match gives each byte the number that stands before it, so that Lean's kernel evaluates byte by byte. -/
def crcFrom (c : Nat) : List Byte → Nat
  | [] => c
  | b :: l =>
    match crcByte c b with
    | 0 => crcFrom 0 l
    | n + 1 => crcFrom (n + 1) l

/-- The CRC-32C of some bytes. -/
def crc32c (b : List Byte) : W32 := ~~~(BitVec.ofNat 32 (crcFrom 0xFFFFFFFF b))

/-! ### Layout -/

/-- The TYPE codes. -/
def FlitTy.code : FlitTy → Nat
  | .data => 1
  | .ack => 2
  | .loss => 3
  | .stripe => 4
  | .replay => 5

/-- The type of a code; the others are reserved. -/
def flitTy (n : Nat) : Option FlitTy := [FlitTy.data, .ack, .loss, .stripe, .replay].find? fun t => t.code == n

/-- Beat 0. -/
def Flit.header (y : Flit) : Nat :=
  y.seq.toNat * 2 ^ 48 + y.ack.toNat * 2 ^ 32 + y.epoch.toNat * 2 ^ 28 + y.ty.code * 2 ^ 24 + y.dst % 256 * 2 ^ 16 +
    y.src % 256 * 2 ^ 8 + y.cls % 8

/-- Beats 1 to 14: the payload, or the mask or SEQ of a control flit in bits 15:0 of beat 1 (for a replay request assumption 92). -/
def Flit.load (y : Flit) : List Byte :=
  (padTo 112 (match y.ty with
    | .data => y.payload
    | .ack => []
    | .loss => natLe 2 y.arg.toNat
    | .stripe => natLe 2 y.arg.toNat
    | .replay => natLe 2 y.arg.toNat)).take 112

/-- What the check covers: beats 0 to 14, then the message fields. -/
def Flit.body (y : Flit) : List Byte := natLe 8 y.header ++ y.load ++ natLe 4 y.msg.toNat

/-- The sixteen beats. -/
def Flit.beats (y : Flit) : List W64 :=
  (List.range 15).map (fun i => BitVec.ofNat 64 (fld y.body (8 * i) 8)) ++
    [BitVec.ofNat 64 (y.msg.toNat * 2 ^ 32 + (crc32c y.body).toNat)]

/-- The flit of sixteen beats whose check is right and whose TYPE is not reserved. -/
def flitOf (l : List W64) : Option Flit :=
  let b := l.flatMap fun v => natLe 8 v.toNat
  let h := fld b 0 8
  if l.length ≠ 16 || (crc32c (b.take 120 ++ (b.drop 124).take 4)).toNat ≠ fld b 120 4 then none
  else
    (flitTy (bits h 27 24)).map fun ty =>
      { ty := ty, seq := BitVec.ofNat 16 (bits h 63 48), ack := BitVec.ofNat 16 (bits h 47 32), epoch := BitVec.ofNat 4 (bits h 31 28),
        dst := bits h 23 16, src := bits h 15 8, cls := bits h 2 0, msg := BitVec.ofNat 32 (fld b 124 4),
        payload := if ty == .data then (b.drop 8).take 112 else [],
        arg := if ty == .data || ty == .ack then 0 else BitVec.ofNat 16 (fld b 8 2), numbered := ty == .data }

/-! ### The deal (R333) -/

/-- The wavelengths of a mask, in ascending order. -/
def lambdas (m : BitVec 16) : List Nat := (List.range 16).filter fun i => m.getLsbD i

def popMask (m : BitVec 16) : Nat := (lambdas m).length

/-- The wavelengths on which the sixteen beats of a flit go, from a deal counter on. -/
def deal (m : BitVec 16) (dc : Nat) : List Nat := (List.range 16).map fun i => (lambdas m).getD ((dc + i) % popMask m) 16

/-- The deal counter after sixteen beats. -/
def dealt (m : BitVec 16) (dc : Nat) : Nat := (dc + 16) % popMask m

/-- Nanoseconds that a flit takes from the deal counter on. -/
def Fibre.flitNs (x : Fibre) : Nat := if popMask x.active = 0 then 0 else (x.dc + 15) / popMask x.active + 1

/-- A flit on a fibre's wavelengths: a beat on a dark one is lost. -/
def Fibre.beam (x : Fibre) (y : Flit) : Beam :=
  let lanes := deal x.active x.dc
  { beats := (y.beats.zip lanes).map fun (v, l) => if x.dark.getLsbD l then none else some v, lanes := lanes, cmd := y.cmd,
    last := y.last }

/-- A flit damaged on its way: one bit of beat 8 changes. -/
def Beam.damage (b : Beam) : Beam := { b with beats := b.beats.modify 8 fun v => v.map fun v => v ^^^ 1#64 }

/-- What a receiver reads: all beats present, on the wavelengths of its own deal, and the check right. A stripe flit is the first under its
deal and is read by the mask that it announces. -/
def Fibre.reads (x : Fibre) (b : Beam) : Option Flit :=
  if b.beats.any Option.isNone then none
  else
    match flitOf (b.beats.filterMap id) with
    | none => none
    | some y =>
      if b.lanes == (if y.ty == .stripe then deal y.arg 0 else deal x.rxMask x.rxDc) then some { y with cmd := b.cmd, last := b.last }
      else none

end Sys2Proof.Machine
end

