-- ==== Sys2Proof/Machine/Queues.lean ====
section
/-! DEFINITION. The queue instructions: spawn deques, receive rings, SEND and RECV (19_queue_instr R305 to R313, 18_queues R291 to
R293). -/

namespace Sys2Proof.Machine

/-! ### SPAWN (R312) -/

/-- A continuation record with its side word (18_queues R291, R292). -/
def dqOf (b : List Byte) (lid : W32) (bsel : BitVec 5) : DqEnt :=
  let q (o : Nat) : W64 := BitVec.ofNat 64 (fld b o 8)
  { entry := q 0, bound := q 8, wait0 := q 16, wait1 := q 24, args := [q 32, q 40, q 48, q 56], launchid := lid, bsel := bsel }

/-- A wait address is 0 or an aligned GLOBAL address. -/
def waitOk (a : W64) : Bool := a == 0 || (a.toNat % 8 == 0 && decide (a.toNat < 2 ^ 48))

/-- Entries of a core's deque region; none when its limits break R291 or are equal. -/
def Core.dqRoom (c : Core) : Option Nat :=
  let b := c.dqbase.toNat
  let l := c.dqlimit.toNat
  if b < l && b % 128 == 0 && l % 128 == 0 && l - b ≤ 65536 then some ((l - b) / 128) else none

/-- The 72 bytes of an entry that mean something: the record and its side word (18_queues R291). -/
def DqEnt.bytes (e : DqEnt) : List Byte :=
  natLe 8 e.entry.toNat ++ natLe 8 e.bound.toNat ++ natLe 8 e.wait0.toNat ++ natLe 8 e.wait1.toNat ++
    e.args.flatMap (fun a => natLe 8 a.toNat) ++ natLe 8 (e.launchid.toNat + e.bsel.toNat * 2 ^ 32)

/-- A deque changes: its entries stand in the region of the scratchpad, thief end first (18_queues R291, assumption 87). -/
def State.setDeque (s : State) (ck : Nat) (l : List DqEnt) : State :=
  let base := locScratch (ck / 640) (ck % 640) (s.core ck).dqbase.toNat
  let s := s.modCore ck fun k => { k with deque := l }
  (l.zipIdx).foldl (fun s (e, i) => s.bulkRec (base + 128 * i) (e.bytes ++ List.replicate 56 0)) s

/-- Change every core of a package that holds state. -/
def State.mapCores (s : State) (p : Nat) (f : Core → Core) : State :=
  { s with cores := s.cores.map fun (k, c) => if k / 640 = p then (k, f c) else (k, c) }

/-- Append one record at the owner end: the status and the state. -/
def State.spawnOne (s : State) (c : Site) (tid : Nat) (b : List Byte) : Nat × State :=
  let ck := coreKey c.pkg c.core
  let w := s.wg c.wg
  let k := s.core ck
  let e := dqOf b w.launchid (s.thr (thrKey c.wg tid)).bsel
  match k.dqRoom with
  | none => (2, s)
  | some n =>
    if e.entry.toNat % 8 ≠ 0 || !waitOk e.wait0 || !waitOk e.wait1 then (3, s)
    else if dominatedBy (s.launchOf w) (bindIncs k.binds w.ctx) e.bound e.bsel then (4, s)
    else if n ≤ k.deque.length then (1, s)
    else (0, s.setDeque ck (k.deque ++ [e]))

/-- One thread of a SPAWN. -/
def State.spawnThread (s : State) (c : Site) (fr : Frag) (d : XReg) (m : MAddr) (e : Env) : State × Fin :=
  match s.readRec c e.tid (baseOff e m 64) 64 with
  | .wait => (s, .held)
  | .refuse x a s => (s, .trap { cause := .access, detail := x, pc := c.pc, addr := a })
  | .absent va s => (s.parkAt c e.tid va .read false true fr, .stay)
  | .bytes b s =>
    match s.spawnOne c e.tid b with
    | (st, s) => ((s.spoil c.wg).modThr (thrKey c.wg e.tid) fun t => t.wxs (put32 d st), .next)

/-- The deque's arbiter serves the core's SPAWN in this I-cycle: it has served nothing else (R296). -/
def State.mayServe (s : State) (ck : Nat) : Bool := (s.core ck).dqUse == .none

def State.served (s : State) (ck : Nat) (u : DqUse) : State := s.modCore ck fun k => { k with dqUse := u }

/-- SPAWN: the release step first, then the records in ascending lane order, as one service of the deque's arbiter. -/
def spawnBody (d : XReg) (m : MAddr) (o : MO) : Body := fun s c fr who =>
  match s.fenceFirst c (who.map fun e => e.tid) o with
  | some r => r
  | none =>
    let ck := coreKey c.pkg c.core
    if (who.any fun e => (baseOff e m 64).toNat % 64 == 0 && !s.quiet (thrKey c.wg e.tid)) || (!who.isEmpty && !s.mayServe ck) then .held
    else
      let r := who.foldl (fun (acc : State × List (Nat × Fin)) e =>
        match acc.1.spawnThread c fr d m e with
        | (s, f) => (s, acc.2 ++ [(e.tid, f)])) (if who.isEmpty then s else s.served ck .spawn, [])
      .done r.1 r.2

def execSpawn (d : XReg) (m : MAddr) (o : MO) : State → Host.Outcome State Fault Refusal :=
  runWord (.spawn d m o) m.g (rdPlain (.spawn d m o)) always (spawnBody d m o)

/-! ### Rings (R306, R307) -/

/-- Ring `n` of a workgroup on a core. -/
def State.ring (s : State) (ck : Nat) (lid wgid : W32) (n : Nat) : Option Ring :=
  (s.core ck).rings.find? fun r => r.launchid == lid && r.wgid == wgid && r.n == n

/-- The places of a ring's slots and of its control block in memory. -/
def Ring.slotAt (r : Ring) (p core c : Nat) : Nat := locScratch p core (r.base + 64 * (c % r.slots))
def Ring.ctlAt (r : Ring) (p core : Nat) : Nat := locScratch p core (r.base + 64 * r.slots)

def State.ringTail (s : State) (p core : Nat) (r : Ring) : Nat := (readWord s.mem (r.ctlAt p core / 8)).toNat
def State.ringHead (s : State) (p core : Nat) (r : Ring) : Nat := (readWord s.mem (r.ctlAt p core / 8 + 1)).toNat

/-- Messages in a ring: TAIL − HEAD. -/
def State.ringCount (s : State) (p core : Nat) (r : Ring) : Nat :=
  (s.ringTail p core r + 2 ^ 64 - s.ringHead p core r) % 2 ^ 64

/-- Regions of two rings with their control blocks meet. -/
def ringsMeet (b n b' n' : Nat) : Bool := decide (b < b' + n' + 16) && decide (b' < b + n + 16)

/-- The status of a RINGSET whose address is good, and the core's new table. -/
def ringStatus (l : List Ring) (lid wgid : W32) (n base size : Nat) : Nat × List Ring :=
  let same (r : Ring) : Bool := r.launchid == lid && r.wgid == wgid && r.n == n
  let mine (r : Ring) : Bool := r.launchid == lid && r.wgid == wgid && r.n != n
  if l.any fun r => mine r && ringsMeet base size r.base (64 * r.slots) then (2, l)
  else if !l.any same && decide (16 ≤ l.length) then (1, l)
  else (0, l.filter (fun r => !same r) ++ [{ launchid := lid, wgid := wgid, n := n, base := base, slots := size / 64 }])

/-- SIZE of a ring is a power of two from 256 bytes to 64 KiB. -/
def ringSize (z : Nat) : Bool := [256, 512, 1024, 2048, 4096, 8192, 16384, 32768, 65536].contains z

/-- RINGSET for the performing thread `e`: an ACCESS trap for all, or a status and the core's new table. -/
def State.ringset (s : State) (c : Site) (e : Env) (m : MAddr) (b : XReg) (n : Nat) : Except (Nat × W64) (Nat × List Ring) :=
  let a := baseOff e m 256
  let w := s.wg c.wg
  let l := (s.core (coreKey c.pkg c.core)).rings
  let z := (e.xr b.toNat).toNat
  let o := a.toNat % 2 ^ 48
  if a.toNat % 256 ≠ 0 then .error (0x07, a)
  else if a.toNat / 2 ^ 48 ≠ 0xFFFF || w.scrSize ≤ o then .error (0x01, a)
  else if z = 0 then .ok (0, l.filter fun r => !(r.launchid == w.launchid && r.wgid == w.wgid && r.n == n))
  else if !ringSize z then .ok (2, l)
  else if w.scrSize < o + z + 16 then .error (0x01, BitVec.ofNat 64 (scratchAp + w.scrSize))
  else .ok (ringStatus l w.launchid w.wgid n (w.scrBase + o) z)

def ringsetBody (d : XReg) (m : MAddr) (b : XReg) (n : Nat) : Body := fun s c _ who =>
  match who with
  | [] => .done s []
  | e :: _ =>
    match s.ringset c e m b n with
    | .error (x, a) => .done s (allTrap c who x a)
    | .ok (st, l) =>
      let s := s.modCore (coreKey c.pkg c.core) fun k => { k with rings := l }
      .done (who.foldl (fun s e => s.modThr (thrKey c.wg e.tid) fun t => t.wxs (put32 d st)) s) (who.map fun e => (e.tid, .next))

def execRingset (d : XReg) (m : MAddr) (b : XReg) (n : BitVec 2) : State → Host.Outcome State Fault Refusal :=
  runWord (.ringset d m b n) m.g (rdPlain (.ringset d m b n)) always (ringsetBody d m b n.toNat)

/-! ### RECV (R311) -/

/-- The sixteen registers from `d` take a message. -/
def msgOut (d : Nat) (l : List W64) : List (Nat × W32) :=
  (l.zipIdx).flatMap fun (v, k) => put64 (BitVec.ofNat 7 (d + 2 * k)) v.toNat

/-- Take the oldest message of a ring: its eight dwords, HEAD advanced; none of an empty or broken ring. -/
def State.takeRing (s : State) (p core : Nat) (r : Ring) : Option (List W64 × State) :=
  let n := s.ringCount p core r
  if n = 0 || r.slots < n then none
  else
    let h := s.ringHead p core r
    let l := (List.range 8).map fun k => readWord s.mem (r.slotAt p core h / 8 + k)
    some (l, s.bulkWord (r.ctlAt p core + 8) (BitVec.ofNat 64 (h + 1)))

/-- Some thread of the workgroup waits on ring `n`. -/
def State.ringWaiters (s : State) (wk n : Nat) : List (Nat × Nat) :=
  (s.liveTids wk).filterMap fun i =>
    match (s.thr (thrKey wk i)).wait with
    | .recv r _ since _ _ => if r = n then some (i, since) else none
    | _ => none

/-- Where a workgroup's ring has its TAIL, in the workgroup's scratchpad, and what stands there. -/
def Ring.tailOff (r : Ring) (w : Wg) : Nat := r.base + 64 * r.slots - w.scrBase
def State.tailAt (s : State) (w : Wg) (off : Nat) : Nat := (readWord s.mem (locScratch w.pkg w.core (w.scrBase + off) / 8)).toNat

/-- One thread of a RECV: behind threads that wait already it does not look at the ring itself. -/
def State.recvThread (s : State) (c : Site) (d n : Nat) (wait : Bool) (tid : Nat) : State × Fin :=
  let w := s.wg c.wg
  let k := thrKey c.wg tid
  match s.ring (coreKey c.pkg c.core) w.launchid w.wgid n with
  | none => (s, .trap { cause := .access, detail := 0x01, pc := c.pc, addr := 0 })
  | some r =>
    let s := s.spoil c.wg
    let ahead := wait && !(s.ringWaiters c.wg n).isEmpty
    match if ahead then none else s.takeRing c.pkg c.core r with
    | some (l, s) => (s.modThr k fun t => t.wxs (msgOut d l), .next)
    | none =>
      if wait then
        let (id, s) := s.fresh
        let off := r.tailOff w
        (s.modThr k fun t => t.await (.recv n d id off (if ahead then none else some (s.tailAt w off))), .stay)
      else (s.modThr k fun t => t.wxs (msgOut d (List.replicate 8 0)), .next)

/-- RECV in ascending lane order. HEAD is a scratchpad store and takes its place among the thread's accesses. -/
def recvBody (d n : Nat) (wait : Bool) : Body := fun s c _ who =>
  if who.any fun e => s.unsettled (thrKey c.wg e.tid) then .held
  else
    let r := who.foldl (fun (acc : State × List (Nat × Fin)) e =>
      match acc.1.recvThread c d n wait e.tid with
      | (s, f) => (s, acc.2 ++ [(e.tid, f)])) (s, [])
    .done r.1 r.2

def execRecvPoll (d : XReg) (n : BitVec 2) (g : Guard) : State → Host.Outcome State Fault Refusal :=
  runWord (.recvPoll d n g) g (rdPlain (.recvPoll d n g)) always (recvBody d.toNat n.toNat false)

def execRecvWait (d : XReg) (n : BitVec 2) (g : Guard) : State → Host.Outcome State Fault Refusal :=
  runWord (.recvWait d n g) g (rdPlain (.recvWait d n g)) always (recvBody d.toNat n.toNat true)

/-- A waiting thread's registers take a message, without those that a debugger has written meanwhile. -/
def Thread.receive (t : Thread) (l : List (Nat × W32)) : Thread :=
  { t.wxs (l.filter fun p => !t.claimed.contains p.1) with claimed := [] }

/-- The ring of a thread that waits at a RECV is gone: it wakes and raises ACCESS. -/
def State.recvGone (s : State) (wk tid : Nat) (pc : W64) : State :=
  (s.wake wk tid fun t => { t with wait := .none }).trap wk [(tid, { cause := .access, detail := 0x01, pc := pc, addr := 0 })]

/-- A thread that waits at a RECV takes the message that its ring gave, and goes on; without one it waits on, from what it has seen. -/
def State.recvGive (s : State) (thr d : Nat) (again : Wait) : Option (List W64 × State) → State
  | none => s.modThr thr fun t => { t with wait := again }
  | some (l, s) => (s.endWait (thr / 2048) (thr % 2048)).modThr thr fun t => t.receive (msgOut d l)

/-- What a ring does for the thread that waits at it since `since`. -/
def State.recvAt (s : State) (thr n d since : Nat) : Option Ring → State
  | none => s.recvGone (thr / 2048) (thr % 2048) (s.thr thr).pc
  | some r =>
    let w := s.wg (thr / 2048)
    let off := r.tailOff w
    s.recvGive thr d (.recv n d since off (some (s.tailAt w off))) (s.takeRing w.pkg w.core r)

/-- RECV_TAKE: once TAIL has changed, the thread whose wait on its ring began first takes again; a ring that is gone raises ACCESS. -/
def execRecvTake (thr : Nat) (s : State) : Host.Outcome State Fault Refusal :=
  let wk := thr / 2048
  let w := s.wg wk
  match (s.thr thr).wait with
  | .recv n d since off seen =>
    if !s.wakes thr || !(s.ringWaiters wk n).all (fun p => decide (since ≤ p.2)) || seen == some (s.tailAt w off) then .next s
    else .next (s.recvAt thr n d since (s.ring w.ckey w.launchid w.wgid n))
  | _ => .next s

/-! ### SEND (R309) -/

def execSend (e : EArgs) : State → Host.Outcome State Fault Refusal :=
  runWord (.send e) e.g (rdPlain (.send e)) always (eBody .send e)

def Cmd.sendBytes (c : Cmd) : Nat := c.at 24 4
def Cmd.sendRing (c : Cmd) : Nat := bits (c.at 28 1) 1 0
def Cmd.destPkg (c : Cmd) : Nat := c.at 32 1
def Cmd.destCore (c : Cmd) : Nat := c.at 34 2
def Cmd.destWg (c : Cmd) : W32 := BitVec.ofNat 32 (c.at 36 4)

/-- Messages of a SEND. -/
def Cmd.messages (c : Cmd) : Nat := (c.sendBytes + 55) / 56

/-- The SEND record breaks no rule. -/
def Cmd.sendOk (c : Cmd) : Bool :=
  c.headerOk && c.chan == 0 && decide (1 ≤ c.sendBytes) && decide (c.sendBytes ≤ 65536) && decide (c.at 28 1 < 4) &&
    zeros c.raw 29 3 && zeros c.raw 33 1 && zeros c.raw 40 88

/-- Bytes of message `j`. -/
def Cmd.messageLen (c : Cmd) (j : Nat) : Nat := min 56 (c.sendBytes - 56 * j)

/-- An earlier SEND of the core to the same ring still has messages to send (R310). -/
def State.sendBehind (s : State) (c : Cmd) : Bool :=
  s.cmds.any fun x => x.kind == .send && decide (x.id < c.id) && x.ckey == c.ckey && x.sendRing == c.sendRing &&
    x.launchid == c.launchid && x.at 32 8 == c.at 32 8 && !x.finished && decide (x.sent < x.messages)

end Sys2Proof.Machine
end

