-- ==== Sys2Proof/Machine/Links.lean ====
section
/-! DEFINITION. The links: Maelell flits and their delivery, loss of light, the rotation of slots, the routers and pod time, and
the instructions that change the link tables (22_links R329 to R346, 25_prog_alltoall R369, R370). -/

namespace Sys2Proof.Machine

/-! ### Circuits (R338 to R340) -/

/-- The slot entry in force. -/
def Pkg.slot (g : Pkg) : SlotEnt := g.slots.getD g.slotIdx ⟨10000, 400, List.replicate 32 none⟩

/-- The peer of a fibre: by the standing map, or by the current slot. -/
def Pkg.peer (g : Pkg) (f : Nat) : Option Nat :=
  if f < 16 then tfind g.cfg.peers f else (g.slot.peers.getD (f - 16) none)

/-- Fibres of one kind whose peer is `q`, in rising order. -/
def Pkg.fibresTo (g : Pkg) (q : Nat) (standing : Bool) : List Nat :=
  (List.range 48).filter fun f => decide (f < 16) == standing && g.peer f == some q

/-- The fibre of the peer that the tables of both packages join to this one: fibres of one pair are joined in rising order
(assumption 12). -/
def State.tableEnd (s : State) (p f : Nat) : Option (Nat × Nat) :=
  match (s.pkg p).peer f with
  | none => none
  | some q => (((s.pkg q).fibresTo p (decide (f < 16)))[((s.pkg p).fibresTo q (decide (f < 16))).idxOf f]?).map fun g => (q, g)

/-- The far end of a package's fibre: the package and its fibre. A rotor fibre without a valid peer is dark; the optical switch joins the
others as it was told, or as the tables of both packages say (R340). -/
def State.farEnd (s : State) (p f : Nat) : Option (Nat × Nat) :=
  if f < 16 || ((s.pkg p).peer f).isNone then s.tableEnd p f
  else match tfind s.circuits (fibreKey p f) with
    | some r => r
    | none => s.tableEnd p f

/-- The package whose light reaches a fibre, and its fibre there. -/
def State.nearEnd (s : State) (p f : Nat) : Option (Nat × Nat) :=
  let led := if f < 16 then none
    else (s.circuits.find? fun x => x.2 == some (p, f) && s.farEnd (x.1 / 48) (x.1 % 48) == some (p, f)).map fun x => (x.1 / 48, x.1 % 48)
  match led with
  | some z => some z
  | none => (s.tableEnd p f).bind fun z => if s.farEnd z.1 z.2 == some (p, f) then some z else none

/-- The standing fibre on which flits for a destination leave: by its route entry, or to the fibre's own peer (R338). -/
def BootCfg.routeTo (c : BootCfg) (d : Nat) : Option Nat :=
  match tfind c.routes d with
  | some f => some f
  | none => (List.range 16).find? fun f => tfind c.peers f == some d

def Pkg.routeTo (g : Pkg) (d : Nat) : Option Nat := g.cfg.routeTo d

/-- A destination has a slot in the current table. -/
def Pkg.hasSlot (g : Pkg) (d : Nat) : Bool := g.slots.any fun e => e.peers.contains (some d)

/-! ### Streams (R329, R334, R342) -/

/-- A package's stream on a fibre, with a peer. -/
def State.stream (s : State) (p f q : Nat) : Stream :=
  if f < 16 then tget {} (s.pkg p).standStreams f else tget {} (s.pkg p).rotStreams q

def State.modStream (s : State) (p f q : Nat) (u : Stream → Stream) : State :=
  s.modPkg p fun g =>
    if f < 16 then { g with standStreams := tmod {} g.standStreams f u } else { g with rotStreams := tmod {} g.rotStreams q u }

/-- The tag of a command in a stream, or the lowest free one. -/
def Stream.tagFor (t : Stream) (cmd : Nat) : Option Nat :=
  match t.tags.find? fun x => x.2 == cmd with
  | some x => some x.1
  | none => (List.range 256).find? fun n => !(t.tags.any fun x => x.1 == n)

def Stream.hold (t : Stream) (n cmd : Nat) : Stream :=
  if t.tags.any fun x => x.1 == n then t else { t with tags := t.tags ++ [(n, cmd)] }

/-- A SEQ lies before the expected one. -/
def seqBefore (a b : BitVec 16) : Bool :=
  let d := (b - a).toNat
  decide (1 ≤ d) && decide (d ≤ 0x8000)

/-! ### Wavelengths (R333, R335) -/

/-- A stripe flit announces the mask. -/
def stripeFlit (x : Fibre) : Flit := { ty := .stripe, epoch := x.epoch, arg := x.active }

/-- Put a control flit before everything else that waits. -/
def Fibre.first (x : Fibre) (f : Flit) : Fibre := { x with toSend := f :: x.toSend }

/-- Put a control flit behind the waiting ones, ahead of the data. -/
def Fibre.queueCtl (x : Fibre) (f : Flit) : Fibre :=
  { x with toSend := (x.toSend.filter fun y => y.ty != .data) ++ [f] ++ x.toSend.filter fun y => y.ty == .data }

/-- Every unacknowledged flit waits to be sent again, oldest first, and 1 μs begins anew. -/
def Fibre.replay (x : Fibre) (now : Nat) : Fibre :=
  { x with toSend := (x.toSend.filter fun y => y.ty != .data) ++ x.buf, stalls := x.stalls + 1, progress := now }

/-- A link event (R346). -/
def State.linkEvent (s : State) (p ty : Nat) (v : Nat) : State := s.pfEvent p ty 0xFFFF (BitVec.ofNat 64 v)

/-- Unacknowledged flits return to the front of their destinations' send queues, in SEQ order, with their SEQ. -/
def Pkg.unsend (g : Pkg) (rotor : Bool) (b : List Flit) : Pkg :=
  b.foldr (fun y g => if rotor then { g with rotq := tmod [] g.rotq y.dst (y :: ·) } else { g with standq := tmod [] g.standq y.dst (y :: ·) }) g

/-- The fibre is down: its mask is 0, and its replay buffer empties into the send queues, for no flit is lost (R336, assumption 91). -/
def State.fibreDown (s : State) (p f ty : Nat) (v : Nat) : State :=
  let b := (s.fibre (fibreKey p f)).buf
  ((s.modFibre (fibreKey p f) fun x => { x with active := 0, down := true, toSend := [], buf := [] }).modPkg p fun g =>
    g.unsend (decide (16 ≤ f)) b).linkEvent p ty v

/-- Replay; after eight in a row without progress the fibre is down (R334). Where nothing is unacknowledged there is nothing to replay. -/
def State.replayAll (s : State) (p f : Nat) : State :=
  let x := s.fibre (fibreKey p f)
  if x.down || x.buf.isEmpty then s
  else if 8 ≤ x.stalls then
    s.fibreDown p f 0x13 (f + 2 ^ 16 * x.active.toNat)
  else s.modFibre (fibreKey p f) fun x => x.replay (s.pkg p).podt.toNat

/-- A restripe (R333, R335): a new epoch, the deal from the lowest wavelength, a stripe flit, and the replay. During a guard
the stripe flit of the next slot announces the change (R337). -/
def State.restripe (s : State) (p f : Nat) : State :=
  let k := fibreKey p f
  let s := s.modFibre k fun x => { x with epoch := x.epoch + 1, dc := 0 }
  if (s.fibre k).active = 0 then s.fibreDown p f 0x11 f
  else if decide (16 ≤ f) && (s.pkg p).guard then s
  else
    let s := s.replayAll p f
    if (s.fibre k).down then s else s.modFibre k fun x => x.first (stripeFlit x)

/-! ### Queues of flits (R341, R342) -/

/-- Flits of a package that wait for a destination: queued, or sent and not acknowledged, which may have to wait again. -/
def State.waiting (s : State) (p d : Nat) : Nat :=
  let g := s.pkg p
  (tget [] g.standq d).length + (tget [] g.rotq d).length +
    total ((s.fibres.filter fun x => x.1 / 48 == p).map fun x => (x.2.buf.filter fun y => y.dst == d).length)

/-- A command holds a tag in the package's rotor stream to a destination, or in its standing one. -/
def State.holdsTag (s : State) (p d cmd : Nat) (rotor : Bool) : Bool :=
  if rotor then (s.stream p 16 d).tags.any fun x => x.2 == cmd
  else ((s.pkg p).routeTo d).any fun f => (s.stream p f d).tags.any fun x => x.2 == cmd

/-- The stream that a command's flits take: the one in which it has its tag, or a rotor one when its destination has a slot in the current
table (R338). -/
def State.takesRotor (s : State) (p d cmd : Nat) : Bool :=
  s.holdsTag p d cmd true || (!s.holdsTag p d cmd false && (s.pkg p).hasSlot d)

def Pkg.enqueue (g : Pkg) (rotor : Bool) (d : Nat) (f : Flit) : Pkg :=
  if rotor then { g with rotq := tmod [] g.rotq d (· ++ [f]) } else { g with standq := tmod [] g.standq d (· ++ [f]) }

/-- The TAG field of a flit's message word. -/
def withTag (m : W32) (t : Nat) : W32 := BitVec.ofNat 32 (t * 2 ^ 24 + m.toNat % 2 ^ 24)

/-- Put a CLASS 3 flit into its send queue under its command's tag; none when the queue is full, no tag is free, or no route
leads there. -/
def State.sendFlit (s : State) (p : Nat) (rotor : Bool) (f : Flit) : Option State :=
  match if rotor then some 16 else (s.pkg p).routeTo f.dst with
  | none => none
  | some o =>
    if 256 ≤ s.waiting p f.dst then none
    else
      match (s.stream p o f.dst).tagFor f.cmd with
      | none => none
      | some t =>
        let (n, s) := s.fresh
        some ((s.modStream p o f.dst fun x => x.hold t f.cmd).modPkg p fun g =>
          g.enqueue rotor f.dst { f with msg := withTag f.msg t, arr := n, numbered := false })

/-! ### Sending (R333, R334, R340) -/

/-- Before the guard, the whole flit must have left. -/
def State.inWindow (s : State) (p f : Nat) : Bool :=
  let g := s.pkg p
  decide (f < 16) ||
    (g.opened && !g.guard &&
      decide (g.podt.toNat + (s.fibre (fibreKey p f)).flitNs ≤ g.slotStart + (g.slot.len - g.slot.guard)))

/-- The first flit that waits on the fibre itself and may go now: a stripe flit, then a loss report, then the others in their order;
acknowledgements, reports and requests may always go (R340). -/
def State.nextOwn (s : State) (p f q : Nat) (window : Bool) : Option Flit :=
  let x := s.fibre (fibreKey p f)
  let t := s.stream p f q
  match x.toSend.find? fun y => window && y.ty == .stripe with
  | some y => some y
  | none =>
    if t.report = 0 then x.toSend.find? fun y => y.ty != .stripe && (window || y.ty != .data)
    else some { ty := .loss, arg := t.report, dst := q, src := p }

/-- That flit waits no longer. -/
def State.tookOwn (s : State) (p f q : Nat) (y : Flit) : State :=
  if y.ty == .loss then s.modStream p f q fun t => { t with report := 0 }
  else s.modFibre (fibreKey p f) fun x => { x with toSend := x.toSend.erase y }

/-- The better of two waiting flits: one that has its SEQ, then CLASS, then arrival. -/
def earlier (a b : Flit) : Flit :=
  if a.numbered != b.numbered then (if b.numbered then b else a)
  else if b.cls < a.cls || (b.cls == a.cls && b.arr < a.arr) then b else a

/-- The next flit of a standing fibre's send queues, or of a rotor fibre's peer. -/
def State.nextQueued (s : State) (p f : Nat) : Option Flit :=
  let g := s.pkg p
  if f < 16 then
    match g.standq.filterMap fun x => if g.routeTo x.1 == some f then x.2.head? else none with
    | [] => none
    | a :: r => some (r.foldl earlier a)
  else (g.peer f).bind fun q => (tget [] g.rotq q).head?

/-- Take the head of a destination's queue. -/
def Pkg.dequeue (g : Pkg) (d : Nat) (rotor : Bool) : Pkg :=
  if rotor then { g with rotq := tmod [] g.rotq d (·.drop 1) } else { g with standq := tmod [] g.standq d (·.drop 1) }

/-- A flit leaves on a fibre of the stream with peer `q`: its beats are dealt, and those on dark wavelengths are lost. -/
def State.transmit (s : State) (p f q : Nat) (far : Nat × Nat) (y : Flit) : State :=
  let x := s.fibre (fibreKey p f)
  let y := { y with ack := (s.stream p f q).expect, epoch := x.epoch, src := if y.ty == .data then y.src else p }
  (s.modFibre (fibreKey p f) fun x => { x with dc := dealt x.active x.dc }).modFibre (fibreKey far.1 far.2) fun z =>
    { z with wire := z.wire ++ [x.beam y] }

/-- FLIT_SENT: the fibre sends its next flit to its far end. -/
def execFlitSent (pkg fibre : Nat) (s : State) : Host.Outcome State Fault Refusal :=
  let k := fibreKey pkg fibre
  let x := s.fibre k
  match (s.pkg pkg).peer fibre, s.farEnd pkg fibre with
  | some q, some far =>
    if x.down || x.active = 0 then .next s
    else
      let w := s.inWindow pkg fibre
      match s.nextOwn pkg fibre q w with
      | some y => .next ((s.tookOwn pkg fibre q y).transmit pkg fibre q far (if y.ty == .data then y else { y with dst := q }))
      | none =>
        if !w || 64 ≤ x.buf.length then .next s
        else
          match s.nextQueued pkg fibre with
          | none => .next s
          | some y =>
            let t := s.stream pkg fibre q
            let y := if y.numbered then y else { y with seq := t.send, numbered := true }
            let s := s.modPkg pkg fun g => g.dequeue y.dst (decide (16 ≤ fibre))
            let s := s.modStream pkg fibre q fun t => { t with send := if y.seq == t.send then t.send + 1 else t.send }
            let s := s.modFibre k fun x =>
              { x with buf := x.buf ++ [y], progress := if x.buf.isEmpty then (s.pkg pkg).podt.toNat else x.progress }
            .next (s.transmit pkg fibre q far y)
  | _, _ => .next s

/-! ### Acknowledgement (R334) -/

/-- Some flit of the command still waits, is unacknowledged or is on its way, at any package. -/
def State.holdsFlits (s : State) (cmd : Nat) : Bool :=
  (s.pkgs.any fun (_, g) => (g.standq ++ g.rotq).any fun q => q.2.any fun y => y.cmd == cmd) ||
    s.fibres.any fun (_, x) => (x.buf.any fun y => y.cmd == cmd) || x.wire.any fun b => b.cmd == cmd

/-- A command will send no more flits. -/
def State.sentAll (s : State) (cmd : Nat) : Bool :=
  match s.cmd? cmd with
  | none => true
  | some c => c.finished || decide (c.messages ≤ c.sent)

/-- Release the tags of commands whose last flit has been acknowledged (R342), `done`, and of those that send no more and have no flit
left anywhere, for their last message was never sent. -/
def State.freeTags (s : State) (p f q : Nat) (done : List Nat) : State :=
  let keep := (s.stream p f q).tags.filter fun x => !done.contains x.2 && (s.holdsFlits x.2 || !s.sentAll x.2)
  s.modStream p f q fun t => { t with tags := keep }

/-- A cumulative acknowledgement of the stream to `q` reaches the sender. -/
def State.ackUpTo (s : State) (p f q : Nat) (a : BitVec 16) : State :=
  let k := fibreKey p f
  let gone (y : Flit) : Bool := (f < 16 || y.dst == q) && seqBefore y.seq a
  let acked := (s.fibre k).buf.filter gone
  if acked.isEmpty then s
  else
    (s.modFibre k fun x =>
      { x with buf := x.buf.filter fun y => !gone y, stalls := 0, progress := (s.pkg p).podt.toNat,
               toSend := x.toSend.filter fun y => y.ty != .data || !gone y }).freeTags p f q
      ((acked.filter fun y => y.last).map fun y => y.cmd)

/-! ### Receiving (R334, R337, R342) -/

/-- The oldest flit on its way to a fibre is taken from the light; the receiver's deal goes on by its sixteen beats. -/
def State.taken (s : State) (p f : Nat) : State :=
  s.modFibre (fibreKey p f) fun x => { x with wire := x.wire.drop 1, rxDc := dealt x.rxMask x.rxDc }

/-- The oldest flit on its way to a fibre, read by the receiver, when it is of a type. -/
def State.arriving (s : State) (p f : Nat) (ty : FlitTy) : Option (Flit × State) :=
  let x := s.fibre (fibreKey p f)
  match x.wire.head?.bind x.reads with
  | none => none
  | some y => if y.ty == ty then some (y, s.taken p f) else none

/-- The package that a flit on a fibre comes from: its source on a rotor fibre, else the peer. -/
def State.fromPkg (s : State) (p f : Nat) (y : Flit) : Nat := if f < 16 then ((s.pkg p).peer f).getD 0 else y.src

/-- A misdirected flit is counted and not acknowledged. -/
def State.misdirected (s : State) (p : Nat) : State := s.modPkg p fun g => { g with misdir := g.misdir + 1 }

/-- The message fields of a flit. -/
def Flit.tag (y : Flit) : Nat := bits y.msg.toNat 31 24
def Flit.ctxFlit (y : Flit) : Bool := bits y.msg.toNat 23 23 == 1
def Flit.mseq (y : Flit) : Nat := bits y.msg.toNat 15 0

/-- The context of a flit's command at the receiver. -/
def Stream.ctxOf (t : Stream) (y : Flit) : Option (List Byte) :=
  if y.ctxFlit then some (y.payload.take 24) else (t.rxCtx.find? fun x => x.tag == y.tag).map (·.bytes)

/-- Reserved fields of a CLASS 3 flit are zero. -/
def Flit.clean (y : Flit) : Bool :=
  bits y.msg.toNat 22 16 == 0 &&
    (!y.ctxFlit || (fld y.payload 14 1 < 4 && zeros y.payload 15 1 && zeros y.payload 20 4 && zeros y.payload 80 32 && y.mseq == 0))

/-- BYTES and the number of messages of a context. -/
def ctxBytes (c : List Byte) : Nat := fld c 18 2 + 1
def ctxMessages (c : List Byte) : Nat := (ctxBytes c + 55) / 56

/-- Message `j` of a context, found at an offset of the payload, on its way to its ring, unless an earlier message of the
command was dropped (R309). -/
def State.flitMsg (s : State) (p : Nat) (y : Flit) (c : List Byte) (j o : Nat) : State :=
  if s.severed.contains y.cmd then s
  else
    let (id, s) := s.fresh
    let len := if j + 1 = ctxMessages c then ctxBytes c - 56 * j else 56
    { s with msgs := s.msgs ++ [{
        id := id, cmd := y.cmd, pkg := p, core := fld c 12 2, launchid := 0, wgid := BitVec.ofNat 32 (fld c 8 4),
        ring := fld c 14 1, srcPkg := y.src, srcCore := fld c 16 2, seq := j, kind := 1,
        payload := (y.payload.drop o).take len, key := some (BitVec.ofNat 64 (fld c 0 8)) }] }

/-- A stream forgets the context of a command whose flits are all accepted. -/
def Stream.forget (t : Stream) (cmd : Nat) : Stream := { t with rxCtx := t.rxCtx.filter fun x => x.cmd != cmd || !x.whole }

/-- The receiver releases the tag of a command once its last message has been appended or dropped (R342). -/
def State.releaseCtx (s : State) (p cmd : Nat) : State :=
  if s.msgs.any fun m => m.pkg == p && m.cmd == cmd then s
  else s.modPkg p fun g => { g with standStreams := g.standStreams.map fun (k, t) => (k, t.forget cmd),
                                    rotStreams := g.rotStreams.map fun (k, t) => (k, t.forget cmd) }

/-- An accepted CLASS 3 flit for this package: its messages go to their ring. -/
def State.acceptFlit (s : State) (p f q : Nat) (y : Flit) (c : List Byte) : State :=
  let n := ctxMessages c
  let j := y.mseq
  let s := if y.ctxFlit then s.flitMsg p y c 0 24
    else
      let s := if j < n then s.flitMsg p y c j 0 else s
      if j + 1 < n then s.flitMsg p y c (j + 1) 56 else s
  let last := if y.ctxFlit then 1 else j + 2
  (s.modStream p f q fun t =>
    { t with rxCtx := (t.rxCtx.filter fun x => x.tag != y.tag) ++
               [{ tag := y.tag, cmd := y.cmd, bytes := c, whole := decide (n ≤ last) }] }).releaseCtx p y.cmd

/-- Acknowledge what has been accepted on a fibre. -/
def State.ackBack (s : State) (p f q : Nat) : State :=
  let e := (s.stream p f q).expect
  s.modFibre (fibreKey p f) fun x =>
    Fibre.queueCtl { x with toSend := x.toSend.filter fun (y : Flit) => y.ty != .ack } { ty := .ack, ack := e, dst := q, src := p }

/-- Ask for a replay from the expected SEQ on. -/
def State.askReplay (s : State) (p f q : Nat) : State :=
  let e := (s.stream p f q).expect
  s.modFibre (fibreKey p f) fun x => x.queueCtl { ty := .replay, arg := e, dst := q, src := p }

/-- The next SEQ is expected, and the accepted flit acknowledged. -/
def State.advance (s : State) (p f q : Nat) : State :=
  (s.modStream p f q fun t => { t with expect := t.expect + 1 }).ackBack p f q

/-- A data flit of the current epoch with a good CRC, by its SEQ. One for another package goes on by this package's own map; while its
queue is full it stays where it is. -/
def State.takeData (s0 s : State) (p f q : Nat) (y : Flit) : State :=
  let t := s.stream p f q
  if y.seq != t.expect then (if seqBefore y.seq t.expect then s.ackBack p f q else s.askReplay p f q)
  else if y.dst ≠ p then
    (match s.sendFlit p false y with
     | none => s0
     | some s => s.advance p f q)
  else
    match t.ctxOf y with
    | none => s.misdirected p
    | some c => if y.clean then (s.acceptFlit p f q y c).advance p f q else s.misdirected p

/-- A flit that cannot be read is discarded; outside loss recovery the receiver asks its stream for a replay (R334, R337). -/
def State.takeBad (s : State) (p f : Nat) : State :=
  let s1 := s.taken p f
  match s.nearEnd p f with
  | none => s1
  | some (z, _) => if (s.stream p f z).lost = 0 then s1.askReplay p f z else s1

/-- DATA_FLIT (R334): the oldest arriving flit, when it is data or cannot be read. A rotor fibre's flit for another package is
misdirected. -/
def execDataFlit (pkg fibre : Nat) (s : State) : Host.Outcome State Fault Refusal :=
  let x := s.fibre (fibreKey pkg fibre)
  match x.wire with
  | [] => .next s
  | b :: _ =>
    match x.reads b with
    | none => .next (s.takeBad pkg fibre)
    | some y =>
      let q := s.fromPkg pkg fibre y
      let s1 := s.taken pkg fibre
      if y.ty != .data then .next s
      else if (s.stream pkg fibre q).lost ≠ 0 then .next s1
      else if 16 ≤ fibre && y.dst ≠ pkg then .next (s1.misdirected pkg)
      else
        let s1 := s1.ackUpTo pkg fibre q y.ack
        if y.epoch != x.rxEpoch then .next s1
        else .next (State.takeData s s1 pkg fibre q y)

/-- ACK_FLIT. -/
def execAckFlit (pkg fibre : Nat) (s : State) : Host.Outcome State Fault Refusal :=
  match s.arriving pkg fibre .ack with
  | none => .next s
  | some (y, s) =>
    if y.dst ≠ pkg then .next (s.misdirected pkg) else .next (s.ackUpTo pkg fibre (s.fromPkg pkg fibre y) y.ack)

/-- REPLAY_REQUEST: it also acknowledges everything before the SEQ it names. -/
def execReplayRequest (pkg fibre : Nat) (s : State) : Host.Outcome State Fault Refusal :=
  match s.arriving pkg fibre .replay with
  | none => .next s
  | some (y, s) =>
    if y.dst ≠ pkg then .next (s.misdirected pkg)
    else .next ((s.ackUpTo pkg fibre (s.fromPkg pkg fibre y) y.arg).replayAll pkg fibre)

/-- ACK_TIMEOUT: 1 μs without progress while flits are outstanding. -/
def execAckTimeout (pkg fibre : Nat) (s : State) : Host.Outcome State Fault Refusal :=
  .next (if (s.fibre (fibreKey pkg fibre)).progress + 1000 ≤ (s.pkg pkg).podt.toNat then s.replayAll pkg fibre else s)

/-! ### Loss of light (R335 to R337) -/

/-- Detection runs on the fibre now. -/
def State.detects (s : State) (p f : Nat) : Bool :=
  decide (f < 16) || (((s.pkg p).peer f).isSome && !(s.pkg p).guard && (s.pkg p).opened)

/-- LOSS_DETECT: the receiver holds the sender's stream in loss recovery and has the wavelengths whose light it newly misses to report. -/
def execLossDetect (pkg fibre : Nat) (s : State) : Host.Outcome State Fault Refusal :=
  match s.nearEnd pkg fibre with
  | none => .next s
  | some (z, g) =>
    let new := (s.fibre (fibreKey z g)).dark &&& (s.fibre (fibreKey pkg fibre)).rxMask &&& ~~~(s.stream pkg fibre z).lost
    if new = 0 || !s.detects pkg fibre then .next s
    else .next (s.modStream pkg fibre z fun t => { t with lost := t.lost ||| new, report := t.report ||| new })

/-- LOSS_REPORT: the sender gives the lost wavelengths up and restripes. -/
def execLossReport (pkg fibre : Nat) (s : State) : Host.Outcome State Fault Refusal :=
  match s.arriving pkg fibre .loss with
  | none => .next s
  | some (y, s) =>
    if y.dst ≠ pkg then .next (s.misdirected pkg)
    else
      let k := fibreKey pkg fibre
      let lost := y.arg &&& (s.fibre k).active
      let s := s.modFibre k fun x => { x with active := x.active &&& ~~~lost, failed := x.failed ||| lost }
      let s := s.restripe pkg fibre
      let x := s.fibre k
      .next (s.linkEvent pkg 0x10 (fibre + 2 ^ 16 * lost.toNat + 2 ^ 32 * x.active.toNat + 2 ^ 48 * x.epoch.toNat))

/-- STRIPE_FLIT: the receiver takes the mask and the epoch, of whose deal the stripe flit was the first. Loss recovery of the stream ends
with the mask that has given up the wavelengths reported, which is that of the new EPOCH (R335, R337). -/
def execStripeFlit (pkg fibre : Nat) (s : State) : Host.Outcome State Fault Refusal :=
  match s.arriving pkg fibre .stripe with
  | none => .next s
  | some (y, s) =>
    if y.dst ≠ pkg then .next (s.misdirected pkg)
    else
      .next ((s.modFibre (fibreKey pkg fibre) fun x => { x with rxMask := y.arg, rxEpoch := y.epoch, rxDc := dealt y.arg 0 }).modStream
        pkg fibre (s.fromPkg pkg fibre y) fun t =>
          if y.arg &&& t.lost = 0 then { t with lost := 0, report := 0 } else t)

/-! ### Slots (R340, R345, R369) -/

/-- Unacknowledged rotor flits return to the front of their queues in SEQ order. -/
def State.returnFlits (s : State) (p : Nat) : State :=
  (List.range 32).foldl (fun s r =>
    let k := fibreKey p (16 + r)
    let b := (s.fibre k).buf
    (s.modFibre k fun x => { x with buf := [], toSend := [] }).modPkg p fun g => g.unsend true b) s

/-- GUARD_START: nothing new is sent. -/
def execGuardStart (pkg : Nat) (s : State) : Host.Outcome State Fault Refusal :=
  let g := s.pkg pkg
  if g.opened && !g.guard && decide (g.slotStart + (g.slot.len - g.slot.guard) ≤ g.podt.toNat) then
    .next (s.modPkg pkg fun g => { g with guard := true })
  else .next s

/-- SLOT_END: the next entry of the table begins. -/
def execSlotEnd (pkg : Nat) (s : State) : Host.Outcome State Fault Refusal :=
  let g := s.pkg pkg
  if g.slotStart + g.slot.len ≤ g.podt.toNat then
    .next ((s.returnFlits pkg).modPkg pkg fun g =>
      { g with slotIdx := (g.slotIdx + 1) % max 1 g.slots.length, slotStart := g.slotStart + g.slot.len, guard := false,
               opened := false })
  else .next s

/-- SLOT_START (R369): every sender with a valid peer deals from the lowest wavelength and announces its mask before any
other flit. -/
def execSlotStart (pkg : Nat) (s : State) : Host.Outcome State Fault Refusal :=
  let g := s.pkg pkg
  if g.opened then .next s
  else
    let s := s.modPkg pkg fun g => { g with opened := true }
    .next ((List.range 32).foldl (fun s r =>
      if (g.peer (16 + r)).isSome then
        s.modFibre (fibreKey pkg (16 + r)) fun x => { x with dc := 0 }.first (stripeFlit x)
      else s) s)

/-- SLOT_TABLE_START (R345): the staged table becomes current. -/
def execSlotTableStart (pkg : Nat) (s : State) : Host.Outcome State Fault Refusal :=
  let g := s.pkg pkg
  match g.staged with
  | none => .next s
  | some t =>
    if t.start ≤ g.podt.toNat then
      .next (((s.returnFlits pkg).modPkg pkg fun g =>
        { g with slots := t.ents, slotIdx := 0, slotStart := t.start, guard := false, opened := false, staged := none }).linkEvent
        pkg 0x14 t.ents.length)
    else .next s

/-! ### Routers and pod time (R329, R331) -/

/-- A router has carried nothing for 512 I-cycles: its die has carried nothing, or nothing that passed it, which nothing in the spec
decides (assumption 93). -/
def State.routerIdle (s : State) (p d : Nat) : Bool × State :=
  if (s.die (dieKey p d)).carried + 512 ≤ s.clockOf p then (true, s)
  else
    let (n, s) := s.draw
    (Config.freeRace n && decide (512 ≤ s.clockOf p), s)

/-- ROUTER_GATE: a router idle for 512 I-cycles, whichever it is, is gated (assumption 93). -/
def execRouterGate (pkg die : Nat) (s : State) : Host.Outcome State Fault Refusal :=
  match s.routerIdle pkg die with
  | (true, s) => .next (s.draw.2.modDie (dieKey pkg die) fun d => { d with gated := ninsert d.gated (Config.freeChoice s.draw.1) })
  | (false, s) => .next s

/-- ROUTER_WAKE: a wake signal or packet reaches one of the gated routers (assumption 93). -/
def execRouterWake (pkg die : Nat) (s : State) : Host.Outcome State Fault Refusal :=
  .next (s.draw.2.modDie (dieKey pkg die) fun d =>
    { d with gated := d.gated.eraseIdx (Config.freeChoice s.draw.1 % max 1 d.gated.length) })

/-- PODT_SYNC: pod time is brought to that of the pod's lowest package. -/
def execPodtSync (pkg : Nat) (s : State) : Host.Outcome State Fault Refusal :=
  .next (s.modPkg pkg fun g => { g with podt := (s.pkg 0).podt })

/-- PODT_NS: one nanosecond. -/
def execPodtNs (pkg : Nat) (s : State) : Host.Outcome State Fault Refusal :=
  .next (s.modPkg pkg fun g => { g with podt := g.podt + 1 })

/-! ### LPARK and LWAKE (R343, R344) -/

/-- The launch's function holds the link privilege, and the kernel is not `.replayable` (R343). -/
def linkOk (s : State) (c : Site) : Bool :=
  let w := s.wg c.wg
  (s.fn (s.fnOf w)).priv.getLsbD 1 && !(s.launchOf w).replayable

/-- Give every guard-active thread a status. -/
def State.giveAll (s : State) (c : Site) (who : Frag) (d : XReg) (v : Nat) : State :=
  who.foldl (fun s e => s.modThr (thrKey c.wg e.tid) fun t => t.wxs (put32 d v)) s

/-- Fibre and mask of a spec; none for a bad one. -/
def linkSpec (v : W32) : Option (Nat × BitVec 16) :=
  let f := bits v.toNat 5 0
  let m := bits v.toNat 31 16
  if 47 < f || bits v.toNat 15 6 ≠ 0 || m = 0 then none else some (f, BitVec.ofNat 16 m)

/-- LPARK on a fibre: the status and the state. -/
def State.lpark (s : State) (p f : Nat) (m : BitVec 16) : Nat × State :=
  let x := s.fibre (fibreKey p f)
  if f < 16 && popMask (x.active &&& ~~~m) < 4 then (1, s)
  else (0, (s.modFibre (fibreKey p f) fun x =>
    { x with active := x.active &&& ~~~m, parked := x.parked ||| m }).restripe p f)

def lparkBody (d b : XReg) : Body := fun s c _ who =>
  match who with
  | [] => .done s []
  | e :: _ =>
    let fin := who.map fun e => (e.tid, Fin.next)
    match linkSpec (e.xr b.toNat) with
    | none => .done (s.giveAll c who d 2) fin
    | some (f, m) =>
      match s.lpark c.pkg f m with
      | (st, s) => .done (s.giveAll c who d st) fin

def execLpark (d b : XReg) (g : Guard) : State → Host.Outcome State Fault Refusal :=
  runWord (.lpark d b g) g (rdPlain (.lpark d b g)) linkOk (lparkBody d b)

/-- LWAKE: threads wait until the light is confirmed or not. -/
def lwakeBody (d b : XReg) : Body := fun s c _ who =>
  match who with
  | [] => .done s []
  | e :: _ =>
    let fin := who.map fun e => (e.tid, Fin.next)
    match linkSpec (e.xr b.toNat) with
    | none => .done (s.giveAll c who d 2) fin
    | some (f, m) =>
      let x := s.fibre (fibreKey c.pkg f)
      let w := m &&& (x.parked ||| x.failed)
      if w = 0 then .done (s.giveAll c who d 0) fin
      else if x.wake.isSome then .held
      else
        let ks := who.map fun e => thrKey c.wg e.tid
        let s := s.modFibre (fibreKey c.pkg f) fun x => { x with wake := some (w, ks, d.toNat) }
        .done (s.modTids c.wg (who.map fun e => e.tid) fun t => { t with hold := .link d.toNat }) fin

def execLwake (d b : XReg) (g : Guard) : State → Host.Outcome State Fault Refusal :=
  runWord (.lwake d b g) g (rdPlain (.lwake d b g)) linkOk (lwakeBody d b)

/-- A waiting thread receives its status. -/
def State.linkDone (s : State) (k d v : Nat) : State :=
  if (s.thr k).live && (s.thr k).hold == .link d then
    (s.modThr k fun t => t.wxs (put32 (BitVec.ofNat 7 d) v)).endHold (k / 2048) (k % 2048)
  else s

/-- LIGHT_CONFIRMATION (R344): the wavelengths of the mask are confirmed at the peer within the time of an LWAKE. -/
def execLightConfirmation (pkg fibre mask : Nat) (s : State) : Host.Outcome State Fault Refusal :=
  let k := fibreKey pkg fibre
  match (s.fibre k).wake with
  | none => .next s
  | some (w, ks, d) =>
    let c := w &&& BitVec.ofNat 16 mask
    let s := s.modFibre k fun x =>
      { x with wake := none, active := x.active ||| c, parked := x.parked &&& ~~~c, failed := x.failed &&& ~~~c,
               down := x.down && c == 0, stalls := if c = 0 then x.stalls else 0 }
    let s := s.modFibre k fun x => { x with dark := x.dark &&& ~~~c }
    let s := if c = 0 then s else s.restripe pkg fibre
    let miss := (w &&& ~~~c).toNat
    let s := if miss = 0 then s else s.linkEvent pkg 0x12 (fibre + 2 ^ 16 * miss)
    .next (ks.foldl (fun s k => s.linkDone k d (if miss = 0 then 0 else 3 + 2 ^ 16 * miss)) s)

/-! ### SLOTSET (R345) -/

/-- A slot entry of 64 bytes, when it breaks no limit of R339 at package `p` of a pod. -/
def slotOf (p podSize : Nat) (b : List Byte) : Option SlotEnt :=
  let len := fld b 0 4
  let guard := fld b 4 2
  let peers : List (Option Nat) := (List.range 32).map fun r =>
    let v := fld b (8 + r) 1
    if 128 ≤ v then some (v % 64) else none
  let ids := peers.filterMap fun x => x
  if decide (1000 ≤ len) && decide (len ≤ 1000000) && decide (100 ≤ guard) && decide (guard + 100 ≤ len) && zeros b 6 2 &&
      zeros b 40 24 && (List.range 32).all (fun r => bits (fld b (8 + r) 1) 6 6 == 0) &&
      ids.all (fun q => decide (q < podSize) && q != p) && (distinct ids).length == ids.length then
    some ⟨len, guard, peers⟩
  else none

/-- All entries of a record. -/
def slotsOf (p podSize : Nat) (b : List Byte) : Nat → Option (List SlotEnt)
  | 0 => some []
  | n + 1 => (slotOf p podSize b).bind fun e => (slotsOf p podSize (b.drop 64) n).map fun l => e :: l

/-- The status of a SLOTSET and the table it stages. -/
def Pkg.stageSlots (g : Pkg) (p : Nat) (hdr ents : List Byte) : Nat × Option Staged :=
  let n := fld hdr 0 2
  let start := fld hdr 8 8
  if g.staged.isSome then (1, none)
  else if n = 0 || 64 < n || !zeros hdr 2 6 || !zeros hdr 16 48 then (2, none)
  else
    match slotsOf p g.cfg.podSize ents n with
    | none => (2, none)
    | some l => if start < g.podt.toNat + 1000 then (3, none) else (0, some ⟨start, l⟩)

/-- Read `n` records of 64 bytes in order. -/
def State.readRecs (s : State) (c : Site) (tid : Nat) (a : W64) : Nat → Rec
  | 0 => .bytes [] s
  | n + 1 =>
    match s.readRec c tid a 64 with
    | .bytes b s =>
      (match s.readRecs c tid (a + 64) n with
       | .bytes l s => .bytes (b ++ l) s
       | r => r)
    | r => r

def slotsetBody (d : XReg) (m : MAddr) : Body := fun s c _ who =>
  match who with
  | [] => .done s []
  | e :: _ =>
    let a := baseOff e m 64
    match s.readRec c e.tid a 64 with
    | .wait => .held
    | .refuse x y s => .done s (allTrap c who x y)
    | .absent va s => s.parkWord c who va
    | .bytes hdr s =>
      let n := fld hdr 0 2
      match s.readRecs c e.tid (a + 64) (if 64 < n then 0 else n) with
      | .wait => .held
      | .refuse x y s => .done s (allTrap c who x y)
      | .absent va s => s.parkWord c who va
      | .bytes ents s =>
        let (st, t) := (s.pkg c.pkg).stageSlots c.pkg hdr ents
        let s := match t with
          | some t => s.modPkg c.pkg fun g => { g with staged := some t }
          | none => s
        .done (s.giveAll c who d st) (who.map fun e => (e.tid, .next))

def execSlotset (d : XReg) (m : MAddr) : State → Host.Outcome State Fault Refusal :=
  runWord (.slotset d m) m.g (rdPlain (.slotset d m)) linkOk (slotsetBody d m)

end Sys2Proof.Machine
end

