-- ==== Sys2Proof/Machine/Messages.lean ====
section
/-! DEFINITION. Messages on their way to a receive ring: the sending side of SEND, within the package and across the pod, and the
append of each message (19_queue_instr R306, R308 to R310, 22_links R341, R342). -/

namespace Sys2Proof.Machine

/-! ### Sending (R309, R342) -/

/-- Address of message `j` of a SEND. -/
def Cmd.messageAt (c : Cmd) (j : Nat) : W64 := c.addrAt 16 + BitVec.ofNat 64 (56 * j)

/-- Message `j` on its way within the package. -/
def State.sendHere (s : State) (c : Cmd) (j : Nat) (b : List Byte) : State :=
  let (id, s) := s.fresh
  { s with msgs := s.msgs ++ [{
      id := id, cmd := c.id, pkg := c.pkg, core := c.destCore, launchid := c.launchid, wgid := c.destWg, ring := c.sendRing,
      srcPkg := c.pkg, srcCore := c.core, seq := j % 2 ^ 16, kind := 1, payload := b }] }

/-- The first flit of a command: its context and message 0. -/
def Cmd.firstFlit (c : Cmd) (podkey : W64) (b : List Byte) : Flit :=
  { ty := .data, dst := c.destPkg, src := c.pkg, cmd := c.id, last := decide (c.messages ≤ 1), msg := BitVec.ofNat 32 (2 ^ 23),
    payload := padTo 112 (natLe 8 podkey.toNat ++ natLe 4 c.destWg.toNat ++ natLe 2 c.destCore ++ natLe 1 c.sendRing ++
      natLe 1 0 ++ natLe 2 c.core ++ natLe 2 (c.sendBytes - 1) ++ natLe 4 0 ++ padTo 56 b) }

/-- A later flit: message `j` and, when the command has it, message `j + 1`. -/
def Cmd.laterFlit (c : Cmd) (j : Nat) (b : List Byte) : Flit :=
  { ty := .data, dst := c.destPkg, src := c.pkg, cmd := c.id, last := decide (c.messages ≤ j + 2), msg := BitVec.ofNat 32 (j % 2 ^ 16),
    payload := padTo 112 b }

/-- Messages that the next flit carries. -/
def Cmd.flitMessages (c : Cmd) : Nat := if c.sent = 0 then 1 else min 2 (c.messages - c.sent)

/-- The next messages of a SEND leave: read by the bulk path, then put on their way, or into the send queue, where a full
one keeps the command waiting. -/
def State.sendNext (s : State) (c : Cmd) : State :=
  let j := c.sent
  if c.destPkg = c.pkg then
    match s.engBytes c (c.messageAt j) (c.messageLen j) with
    | ((_, some e), s) => s.stopCmd c e
    | ((b, none), s) => (s.sendHere c j b).modCmd c.id fun x => { x with sent := x.sent + 1 }
  else
    let l := (s.ctx c.ctx).launch
    if l.podn = 0 || (s.pkg c.pkg).cfg.podSize ≤ c.destPkg then
      (s.errResponse c.pkg (4 + c.destPkg)).endCmd c.id 4 false
    else
      let n := c.flitMessages
      match s.engBytes c (c.messageAt j) (min (56 * n) (c.sendBytes - 56 * j)) with
      | ((_, some e), s) => s.stopCmd c e
      | ((b, none), s1) =>
        match s1.sendFlit c.pkg (s.takesRotor c.pkg c.destPkg c.id) (if j = 0 then c.firstFlit l.podkey b else c.laterFlit j b) with
        | none => s
        | some s2 => s2.modCmd c.id fun x => { x with sent := x.sent + n }

/-- A SEND still has bytes to read in an allocation that a stop has taken from it: one that was parked at the stop (assumption 83). -/
def State.sendHeld (s : State) (c : Cmd) : Bool := c.touches && s.classStopped c.gang .copy

/-- An earlier SEND of the core to the same ring has flits under way in another stream than this one would take, which a change of the slot
table leaves behind (R310). -/
def State.crosses (s : State) (c : Cmd) : Bool :=
  c.destPkg != c.pkg && s.cmds.any fun x => x.kind == .send && decide (x.id < c.id) && x.ckey == c.ckey && x.sendRing == c.sendRing &&
    x.launchid == c.launchid && x.at 32 8 == c.at 32 8 && !x.finished && s.holdsTag c.pkg c.destPkg x.id (!s.takesRotor c.pkg c.destPkg c.id)

/-- A SEND goes on: its record is checked before its first message, and the SENDs of a core to one ring go in issue order. -/
def State.sendStep (s : State) (c : Cmd) : State :=
  if c.kind != .send || c.finished || c.parked.isSome || s.sendBehind c || s.crosses c || s.sendHeld c then s
  else if !c.sendOk then s.endCmd c.id 1 false
  else if c.sent < c.messages then s.sendNext c
  else s

/-! ### Appending (R306, R308) -/

/-- The launch that a message addresses, by LAUNCHID or, from another package, by PODKEY. -/
def State.msgCtx (s : State) (m : Msg) : Option Nat :=
  match m.key with
  | none => s.ctxOf m.pkg m.launchid
  | some k => (s.ctxs.find? fun (i, c) => i / 256 == m.pkg && c.launch.podn != 0 && c.launch.podkey == k).map (·.1)

/-- The ring entry that a message finds. -/
def State.msgRing (s : State) (m : Msg) : Option Ring :=
  if m.core < Config.coresPerPkg then
    (s.msgCtx m).bind fun x => s.ring (coreKey m.pkg m.core) (s.ctx x).launchid m.wgid m.ring
  else none

/-- Two messages belong to one ordered stream: those of one core, or of one query in one Headspace unit, to one ring. -/
def Msg.sameStream (a b : Msg) : Bool :=
  a.pkg == b.pkg && a.core == b.core && a.wgid == b.wgid && a.ring == b.ring && a.launchid == b.launchid && a.key == b.key &&
    a.srcPkg == b.srcPkg && a.srcCore == b.srcCore && a.unit == b.unit && (a.srcCore != 0xFFFF || a.cmd == b.cmd)

/-- The message header (R306). -/
def Msg.header (m : Msg) : W64 :=
  BitVec.ofNat 64 (m.seq % 2 ^ 16 * 2 ^ 48 + m.payload.length * 2 ^ 40 + m.kind * 2 ^ 32 + m.srcPkg * 2 ^ 16 + m.srcCore)

/-- The slot and then TAIL are written. -/
def State.appendMsg (s : State) (m : Msg) (r : Ring) : State :=
  let t := s.ringTail m.pkg m.core r
  let s := s.bulkRec (r.slotAt m.pkg m.core t) (natLe 8 m.header.toNat ++ padTo 56 m.payload)
  s.bulkWord (r.ctlAt m.pkg m.core) (BitVec.ofNat 64 (t + 1))

/-- The first error of a SEARCH in list order. -/
def Cmd.firstErr (c : Cmd) : Nat :=
  match c.errs with
  | [] => 0
  | (_, e) :: _ => e

/-- Record an error of a bucket; its first one stands. -/
def Cmd.addErr (c : Cmd) (i code : Nat) : Cmd :=
  match tfind c.errs i with
  | none => { c with errs := tset c.errs i code }
  | some _ => c

/-- The sending command learns that a message is appended or dropped. A SEND is done with its last message, or with a drop; a
SEARCH when every unit's last message is accounted (23_index R358). -/
def State.msgOver (s : State) (m : Msg) (dropped : Bool) : State :=
  match s.cmd? m.cmd with
  | none => s
  | some c =>
    if c.kind == .send then
      let s := s.modCmd c.id fun x => { x with appended := x.appended + 1 }
      if dropped then s.endCmd c.id 4 false
      else if c.messages ≤ c.appended + 1 && !c.finished then s.endCmd c.id 0 false
      else s
    else
      let c := if dropped then c.addErr m.first 4 else c
      let n := c.appended + (if m.kind = 3 then 1 else 0)
      let s := s.modCmd c.id fun x => { x with errs := c.errs, appended := n }
      if m.kind = 3 && c.sent ≤ n then s.endCmd c.id c.firstErr false else s

/-- After a failure no later message of a SEND is sent (R309): those on their way are withdrawn, and those still in flits will
not be delivered. -/
def State.severCmd (s : State) (cmd : Nat) : State :=
  { s with msgs := s.msgs.filter fun m => m.cmd != cmd, severed := ninsert s.severed cmd }

/-- The receiver is done with a message from another package. -/
def State.msgDone (s : State) (m : Msg) : State := if m.key.isSome then s.releaseCtx m.pkg m.cmd else s

/-- A message that finds no ring is dropped: the receiving core logs it, with an event to the launch it addresses. -/
def State.dropMsg (s : State) (m : Msg) : State :=
  let s := s.errResponse m.srcPkg (4 + m.pkg)
  let v := BitVec.ofNat 64 (m.ring + m.srcPkg * 2 ^ 16 + m.srcCore * 2 ^ 32)
  let s := if m.core < Config.coresPerPkg then s.modCore (coreKey m.pkg m.core) fun k => { k with msgLog := k.msgLog ++ [v] } else s
  let x := s.msgCtx m
  let lid := match x, m.key with
    | some k, _ => (s.ctx k).launchid
    | none, _ => m.launchid
  let s := s.post m.pkg { fn := (match x with | some k => (s.ctx k).fn | none => 0), ty := 0x0D, launchid := lid,
                          wgid := m.wgid, core := m.core, value := v }
  ((if m.kind = 1 then s.severCmd m.cmd else s).msgOver m true).msgDone m

/-- A Headspace result of a gang that has stopped waits until the gang resumes (23_index R361). -/
def State.msgHeld (s : State) (m : Msg) : Bool :=
  m.srcCore == 0xFFFF &&
    (match s.cmd? m.cmd with
     | some c => s.classStopped c.gang .headspace
     | none => false)

/-- A Headspace result goes to the core where its workgroup now stands (23_index R361). -/
def State.aimed (s : State) (m : Msg) : Msg :=
  match s.cmd? m.cmd with
  | some c => if m.srcCore == 0xFFFF then { m with core := (s.wg c.wg).core } else m
  | none => m

/-- A message arrives. -/
def State.arriveMsg (s : State) (m : Msg) : State :=
  if s.msgHeld m || m.refused.isSome || s.msgs.any fun x => decide (x.id < m.id) && x.sameStream m then s
  else
    let m := s.aimed m
    let gone : State := { s with msgs := s.msgs.filter fun x => x.id != m.id }
    match s.msgRing m with
    | none => gone.dropMsg m
    | some r =>
      if r.slots ≤ s.ringCount m.pkg m.core r then
        { s with msgs := s.msgs.map fun (x : Msg) => if x.id == m.id then { x with refused := some (s.clockOf m.srcPkg) } else x }
      else ((gone.appendMsg m r).msgOver m false).msgDone m

/-- MESSAGE_APPEND: the next message of the SEND of that number leaves, or the message of that number arrives at its ring. -/
def execMessageAppend (id : Nat) (s : State) : Host.Outcome State Fault Refusal :=
  match s.cmd? id with
  | some c => .next (s.sendStep c)
  | none =>
    match s.msgs.find? fun m => m.id == id with
    | none => .next s
    | some m => .next (s.arriveMsg m)

/-- I-cycles in 1 μs (01_machine R10). -/
def retryWait : Nat := 1700

/-- A refused message may be sent again: 1 μs has passed at its sender. -/
def State.mayRetry (s : State) (m : Msg) : Bool :=
  match m.refused with
  | none => false
  | some t => decide (t + retryWait ≤ s.clockOf m.srcPkg)

/-- MESSAGE_RETRY (R308): a refused message is sent again, no sooner than 1 μs after its refusal. -/
def execMessageRetry (id : Nat) (s : State) : Host.Outcome State Fault Refusal :=
  .next { s with msgs := s.msgs.map fun (x : Msg) => if x.id == id && s.mayRetry x then { x with refused := none } else x }

end Sys2Proof.Machine
end

