-- ==== Sys2Proof/Machine/Headspace.lean ====
section
/-! DEFINITION. The Headspace units: buckets, SEARCH and HSPUB (23_index R347 to R361). -/

namespace Sys2Proof.Machine

/-! ### Where a unit's buckets stand (R348)

A unit addresses its memory by byte offsets: PA[30:0] of the channel-linear view, or PA[41:0] at the expander. -/

/-- The unit's offsets lie below this. -/
def State.hsSize (s : State) (p u : Nat) : Nat := if u < 512 then 2 ^ 31 else (s.pkg p).cfg.caps.getD (u - 512) 0

/-- The place of a byte behind a unit. -/
def hsLoc (p u off : Nat) : Nat :=
  if u < 512 then locHbm p (hbmOfLinear (u * 2 ^ 31 + off)) else locCxl p ((u - 512) * 2 ^ 42 + off)

def State.hsBytes (s : State) (p u off n : Nat) : List Byte := (List.range n).map fun i => readByte s.mem (hsLoc p u (off + i))

/-- Some byte behind the unit is poisoned. -/
def State.hsPoisoned (s : State) (p u off n : Nat) : Bool := (List.range n).any fun i => s.isPoisoned (hsLoc p u (off + i)) 1

/-- The null pointer. -/
def hsNull : Nat := 2 ^ 64 - 1

/-- A pointer that is not null names a page behind the unit. -/
def State.hsPageOk (s : State) (p u ptr : Nat) : Bool := ptr % 4096 == 0 && decide (ptr < s.hsSize p u)

/-- A bucket's unit and offset by the physical address of its header, on a page of R348. -/
def hsOf (pa : Nat) : Option (Nat × Nat) :=
  if 2 ^ 40 ≤ pa && pa < 2 ^ 41 then some ((pa - 2 ^ 40) / 2 ^ 31, (pa - 2 ^ 40) % 2 ^ 31)
  else if 2 ^ 44 ≤ pa && pa < 2 ^ 45 then some (512 + (pa - 2 ^ 44) / 2 ^ 42, (pa - 2 ^ 44) % 2 ^ 42)
  else none

/-! ### Headers, pages and entries (R349, R350) -/

/-- Bytes of the code of a vector, by CODE and DIM. -/
def codeBytes (code dim : Nat) : Nat :=
  match code with
  | 0 => dim
  | 1 => 2 * dim
  | _ => dim / 4

/-- The entry stride S. -/
def stride (code dim : Nat) : Nat := 16 + 16 * ((4 + codeBytes code dim + 15) / 16)

/-- Slots of a page. -/
def slotsOfPage (code dim : Nat) : Nat := 4032 / stride code dim

/-- CODE and DIM are in their limits. -/
def codeOk (code dim : Nat) : Bool := decide (code ≤ 2) && decide (8 ≤ dim) && decide (dim ≤ 4096) && dim % 8 == 0

/-- A pointer field is null or names a page. -/
def State.ptrFieldOk (s : State) (p u ptr : Nat) : Bool := ptr == hsNull || s.hsPageOk p u ptr

/-- The 128 bytes of a header break no limit. -/
def State.headerGood (s : State) (p u : Nat) (h : List Byte) : Bool :=
  let code := fld h 12 1
  let dim := fld h 14 2
  decide (fld h 0 8 < 2 ^ 31) && codeOk code dim && zeros h 13 1 && zeros h 20 4 && zeros h 48 80 &&
    decide (stride code dim ≤ 4032) && s.ptrFieldOk p u (fld h 24 8) && s.ptrFieldOk p u (fld h 32 8) &&
    s.ptrFieldOk p u (fld h 40 8)

/-- What a chain of pages gives: its pages, or an error code with the pages before it. -/
structure Chain where
  pages : List Nat
  err : Nat
  deriving DecidableEq, Repr, Inhabited

/-- The pages from a pointer along NEXT; at most `f` of them. -/
def State.hsChain (s : State) (p u : Nat) : Nat → Nat → Chain
  | 0, _ => ⟨[], 1⟩
  | f + 1, ptr =>
    if ptr = hsNull then ⟨[], 0⟩
    else if !s.hsPageOk p u ptr then ⟨[], 1⟩
    else if s.hsPoisoned p u ptr 64 then ⟨[], 3⟩
    else
      let h := s.hsBytes p u ptr 64
      if !zeros h 8 56 then ⟨[], 1⟩
      else
        let r := s.hsChain p u f (fld h 0 8)
        ⟨ptr :: r.pages, r.err⟩

/-- No unit has more pages behind it. -/
def hsPages : Nat := 2 ^ 30

/-- Offsets of the slots of some pages, in walk order. -/
def slotsOn (code dim : Nat) (pages : List Nat) : List Nat :=
  pages.flatMap fun g => (List.range (slotsOfPage code dim)).map fun j => g + 64 + j * stride code dim

/-- The state word's fields. -/
def stLive (w : W64) : Bool := w.getLsbD 63
def stDelv (w : W64) : Nat := bits w.toNat 61 31
def stInsv (w : W64) : Nat := bits w.toNat 30 0

/-- An entry is visible to a snapshot (R351). -/
def visible (w : W64) (v : Nat) : Bool := stLive w && decide (stInsv w ≤ v) && (stDelv w == 0 || decide (v < stDelv w))

/-- The state word of a slot. -/
def State.stateWord (s : State) (p u slot : Nat) : W64 := BitVec.ofNat 64 (leNat (s.hsBytes p u (slot + 8) 8))

/-! ### Scores (R355) -/

/-- Decoded integer elements of CODE 0 and 2. -/
def intVec (code : Nat) (cbt : List Byte) (b : List Byte) : List Int :=
  if code = 0 then b.map fun x => x.toInt
  else
    let cb : Tbl (BitVec 16) := (List.range 256).map fun r => (r, BitVec.ofNat 16 (fld cbt (2 * r) 2))
    (List.range (b.length / 2)).flatMap fun j => decodeCb cb (fld b (2 * j) 2)

/-- Elements of CODE 1. -/
def halfVec (b : List Byte) : List FV := (List.range (b.length / 2)).map fun j => unpack .f16 (fld b (2 * j) 2)

/-- A score: its bits, its flags, and whether it is a NaN. -/
structure Score where
  v : Nat
  f : W32 := 0
  nan : Bool := false
  deriving DecidableEq, Repr, Inhabited

/-- A binary32 result as a score. -/
def f32Score (r : Nat × W32) : Score :=
  let n := (unpack .f32 r.1).isNan
  { v := r.1, f := if n then r.2 ||| fIV else r.2, nan := n }

/-- The exact dot product of two vectors of values; none when it is a NaN. -/
def dotV (a b : List FV) : Option (List FV) :=
  let l := (a.zip b).map fun (x, y) => if x.isNan || y.isNan then none else mulV x y
  if l.any Option.isNone then none
  else
    let l := l.filterMap fun x => x
    if infSign l == some none then none else some l

/-- The exact sum of squared differences; none when it is a NaN. -/
def distV (a b : List FV) : Option (List FV) :=
  let l := (a.zip b).map fun (x, y) =>
    if x.isNan || y.isNan then none
    else
      match x, y with
      | .fin s m e, .fin t n d =>
        let k := sumTerms .rne [⟨s, m, e⟩, ⟨!t, n, d⟩]
        some (FV.fin false (k.m * k.m) (2 * k.e))
      | .inf s, .inf t => if s == t then none else some (FV.inf false)
      | _, _ => some (FV.inf false)
  if l.any Option.isNone then none else some (l.filterMap fun x => x)

/-- The exact sum of values as one value. -/
def foldV (l : List FV) : FV :=
  match infSign l with
  | some (some s) => .inf s
  | _ => let t := sumTerms .rne (termsOf l); .fin t.s t.m t.e

/-- Cosine from the exact dot product. -/
def cosScore (p : FV) (invn qinv : Nat) : Score :=
  let y := unpack .f32 invn
  if y.isNan then { v := 0, f := fIV, nan := true }
  else
    let a := prodV .f32 .rne 0 p y
    let b := fmulV .f32 .rne 0 a.1 qinv
    f32Score (b.1, a.2 ||| b.2)

/-- The score of an entry's code under a query of CODE and METRIC. -/
def scoreOf (metric code : Nat) (cbt q v : List Byte) (invn qinv : Nat) : Score :=
  let bad : Score := { v := 0, f := fIV, nan := true }
  if code = 1 then
    let a := halfVec q
    let b := halfVec v
    let r := if metric = 2 then distV a b else dotV a b
    match r with
    | none => bad
    | some l => if metric = 1 then cosScore (foldV l) invn qinv else f32Score (sumV .f32 .rne 0 l)
  else
    let a := intVec 0 cbt q
    let b := intVec code cbt v
    if metric = 2 then { v := umod 64 ((a.zip b).foldl (fun s x => s + (x.1 - x.2) * (x.1 - x.2)) 0) }
    else
      let d := dot a b
      if metric = 1 then cosScore (.fin (decide (d < 0)) d.natAbs 0) invn qinv else { v := umod 64 d }

/-- Scores are binary32 values. -/
def isF32 (metric code : Nat) : Bool := code == 1 || metric == 1

/-- The key of a score. -/
def scoreKey (f32 : Bool) (v : Nat) : Nat := if f32 then ordKey 32 v true true else ordKey 64 v false true

/-! ### The skip check (R356) -/

/-- A norm that no check uses. -/
def normBad (n : Nat) : Bool :=
  match unpack .f32 n with
  | .nan _ _ _ => true
  | .inf _ => true
  | .fin s m _ => s && m != 0

/-- The bound key of a bucket. -/
def boundKey (metric code qnorm maxn : Nat) : Nat :=
  let t : Nat :=
    if metric = 0 then (fmulV .f32 .rup 0 qnorm maxn).1
    else
      let d := (fsubV .f32 .rdn 0 qnorm maxn).1
      match unpack .f32 d with
      | .fin s m _ => if s || m = 0 then 0 else (fmulV .f32 .rdn 0 d d).1
      | _ => 0
  if isF32 metric code then scoreKey true t
  else scoreKey false (fcvtiV ⟨.w64, true⟩ .f32 (if metric = 0 then .rup else .rdn) true t).1

/-- The bucket need not be walked. -/
def skips (metric code qnorm maxn : Nat) (isMax : Bool) (inc : Option Inc) : Bool :=
  match inc with
  | none => false
  | some c =>
    if metric = 1 || normBad qnorm || normBad maxn then false
    else
      let k := boundKey metric code qnorm maxn
      if isMax then decide (k ≤ c.key.toNat) else decide (c.key.toNat ≤ k)

/-! ### SEARCH (R353, R354) -/

def execSearch (e : EArgs) : State → Host.Outcome State Fault Refusal :=
  runWord (.search e) e.g (rdPlain (.search e)) always (eBody .search e)

def Cmd.metric (c : Cmd) : Nat := c.at 24 1
def Cmd.qcode (c : Cmd) : Nat := c.at 25 1
def Cmd.qdim (c : Cmd) : Nat := c.at 26 2
def Cmd.topK (c : Cmd) : Nat := c.at 28 2
def Cmd.incOf (c : Cmd) : Option Nat := if bits (c.at 31 1) 4 4 = 1 then some (bits (c.at 31 1) 3 0) else none
def Cmd.nbkt (c : Cmd) : Nat := c.at 32 4

/-- The query record breaks no rule. -/
def State.searchOk (s : State) (c : Cmd) : Bool :=
  let l := (s.ctx c.ctx).launch
  c.headerOk && c.chan == 0 && decide (c.metric ≤ 2) && codeOk c.qcode c.qdim && decide (stride c.qcode c.qdim ≤ 4032) &&
    decide (1 ≤ c.topK) && decide (c.topK ≤ 256) && decide (c.at 30 1 < 4) && decide (c.at 31 1 < 32) &&
    decide (1 ≤ c.nbkt) && decide (c.nbkt ≤ 4096) && zeros c.raw 64 64 && (c.qcode != 2 || c.at 56 8 % 512 == 0) &&
    (match c.incOf with
     | none => true
     | some n => l.incDecl n && l.incMax n == (c.metric != 2))

/-- Translate a bucket address through the die TLB: its unit and offset; `fail` when it is not walked. -/
def State.findBucket (s : State) (c : Cmd) (a : W64) (want : Want) : Except Stop (Nat × Nat) × State :=
  if a.toNat % 128 ≠ 0 || 2 ^ 48 ≤ a.toNat then (.error (.fail 2), s)
  else
    match s.translateDie c.pkg (c.core / 160) c.fn a.toNat with
    | (.absent, s) => (.error (.park a.toNat), s)
    | (.bad, s) => (.error (.fail 2), s)
    | (.leaf e lg, s) =>
      match s.placeOf c.pkg a want e lg with
      | .ok p =>
        if p.void || p.peer || !(leafChl e || leafCxl e) then (.error (.fail 2), s)
        else
          (match hsOf (leafFrame e + a.toNat % 2 ^ lg) with
           | some x => (.ok x, s)
           | none => (.error (.fail 2), s))
      | _ => (.error (.fail 2), s)

/-- Find the buckets of a list: those found by position, the errors, and an absent address. -/
def State.findBuckets (s : State) (c : Cmd) (list : List Byte) : Nat → (List (Nat × Nat × Nat) × Tbl Nat × Option Nat) × State
  | 0 => (([], [], none), s)
  | n + 1 =>
    match s.findBuckets c list n with
    | ((l, er, some va), s) => ((l, er, some va), s)
    | ((l, er, none), s) =>
      match s.findBucket c (BitVec.ofNat 64 (fld list (8 * n) 8)) { r := true } with
      | (.ok (u, off), s) => ((l ++ [(n, u, off)], er, none), s)
      | (.error (.park va), s) => ((l, er, some va), s)
      | (.error _, s) => ((l, er ++ [(n, 2)], none), s)

/-- Give a unit its part of a query; the first of a context binds the unit's incumbent copies (R352). -/
def State.giveQuery (s : State) (c : Cmd) (q cbt : List Byte) (bs : List (Nat × Nat × Nat)) (units u : Nat) : State :=
  let mine := bs.filter fun b => b.2.1 == u
  let k := unitKey c.pkg u
  let s := s.bindCopies true k c.ctx
  s.modUnit k fun x => { x with queries := x.queries ++ [{
    cmd := c.id, buckets := mine.map fun b => (b.1, b.2.2), qvec := q, cbt := cbt, units := units,
    first := (mine.headD (0, 0, 0)).1 }] }

/-- A unit can keep the incumbent copies of a context: it has them, or keeps those of fewer than sixteen (R347). -/
def State.unitBinds (s : State) (k ctx : Nat) : Bool :=
  let b := (s.unit k).binds
  b.any (fun x => x.ctx == ctx) || decide (b.length < 16)

/-- Distribute a SEARCH; one for a unit that has no room for the copies of its context is held back. -/
def State.distribute (s : State) (c : Cmd) : State :=
  if !s.searchOk c then s.endCmd c.id 1 false
  else
    match s.engBytes c (c.addrAt 16) (if c.qcode = 1 then 2 * c.qdim else c.qdim) with
    | ((_, some e), s) => s.stopCmd c e
    | ((q, none), s) =>
      match s.engBytes c (c.addrAt 40) (8 * c.nbkt) with
      | ((_, some e), s) => s.stopCmd c e
      | ((list, none), s) =>
        match (if c.qcode = 2 then s.engBytes c (c.addrAt 56) 512 else (([], none), s)) with
        | ((_, some e), s) => s.stopCmd c e
        | ((cbt, none), s) =>
          match s.findBuckets c list c.nbkt with
          | ((_, _, some va), s) => s.parkCmd c va
          | ((bs, er, none), s) =>
            let us := distinct (bs.map fun b => b.2.1)
            if !us.all fun u => s.unitBinds (unitKey c.pkg u) c.ctx then s
            else
            let s := s.modCmd c.id fun x => { x with started := true, errs := er, sent := us.length }
            if us.isEmpty then s.endCmd c.id (Cmd.firstErr { c with errs := er }) false
            else us.foldl (fun s u => s.giveQuery c q cbt bs us.length u) s

/-! ### HSPUB: distribution (R359) -/

def execHspub (e : EArgs) : State → Host.Outcome State Fault Refusal :=
  runWord (.hspub e) e.g (rdPlain (.hspub e)) always (eBody .hspub e)

def Cmd.nops (c : Cmd) : Nat := c.at 32 2

/-- The HSPUB record breaks no rule. -/
def Cmd.pubOk (c : Cmd) : Bool :=
  c.headerOk && c.chan == 0 && decide (1 ≤ c.nops) && decide (c.nops ≤ 256) && zeros c.raw 34 94

/-- The operations break no rule. -/
def opsOk (ops : List Byte) (n : Nat) : Bool :=
  (List.range n).all fun i =>
    let o := (ops.drop (32 * i)).take 32
    (fld o 0 1 == 1 || fld o 0 1 == 2) && zeros o 1 7 && zeros o 24 8

/-- Read the insert sources, each of `len` bytes; a delete has none. -/
def State.readSources (s : State) (c : Cmd) (ops : List Byte) (len : Nat) : Nat → (List (List Byte) × Option Stop) × State
  | 0 => (([], none), s)
  | n + 1 =>
    match s.readSources c ops len n with
    | ((l, some e), s) => ((l, some e), s)
    | ((l, none), s) =>
      if fld ops (32 * n) 1 = 1 then
        let a := BitVec.ofNat 64 (fld ops (32 * n + 16) 8)
        if inSaved a && s.classStopped c.gang .headspace then ((l, some .wait), s)
        else
          match s.engBytes c a len with
          | ((_, some e), s) => ((l, some e), s)
          | ((b, none), s) => ((l ++ [b], none), s)
      else ((l ++ [[]], none), s)

/-- A unit may read a bucket for a command: the performing thread's own earlier stores are performed, and with an acquire the bucket's die
has applied the snapshot (12_ordering R220). -/
def State.hsReady (s : State) (c : Cmd) (u off : Nat) : Bool :=
  (s.accs.all fun a =>
    a.thr != c.thr || decide (c.id ≤ a.id) || a.performed || a.unbacked || a.kind.waitsTag || !a.kind.want.w) &&
  s.engReady c { loc := hsLoc c.pkg u off }

/-- Distribute an HSPUB; one for a unit whose publish queue is full is held back. -/
def State.distributePub (s : State) (c : Cmd) : State :=
  if !c.pubOk then s.endCmd c.id 1 false
  else
    match s.engBytes c (c.addrAt 24) (32 * c.nops) with
    | ((_, some e), s) => s.stopCmd c e
    | ((ops, none), s) =>
      if !opsOk ops c.nops then s.endCmd c.id 1 false
      else
        match s.findBucket c (c.addrAt 16) { r := true, w := true } with
        | (.error e, s) => s.stopCmd c e
        | (.ok (u, off), s) =>
          let h := s.hsBytes c.pkg u off 128
          if 16 ≤ (s.unit (unitKey c.pkg u)).pubs.length || !s.hsReady c u off then s
          else if s.hsPoisoned c.pkg u off 128 then s.endCmd c.id 3 true
          else if !s.headerGood c.pkg u h then s.endCmd c.id 1 false
          else
            match s.readSources c ops (stride (fld h 12 1) (fld h 14 2) - 16) c.nops with
            | ((_, some e), s) => s.stopCmd c e
            | ((srcs, none), s) =>
              (s.modCmd c.id fun x => { x with started := true }).modUnit (unitKey c.pkg u) fun x =>
                { x with pubs := x.pubs ++ [{ cmd := c.id, bucket := off, ops := ops, srcs := srcs }] }

/-- QUERY_DISTRIBUTE: the issuing die reads what the command needs and hands it to the units. -/
def execQueryDistribute (id : Nat) (s : State) : Host.Outcome State Fault Refusal :=
  match s.cmd? id with
  | none => .next s
  | some c =>
    if c.started || c.finished || c.parked.isSome then .next s
    else if c.kind == .search then .next (if s.classStopped c.gang .headspace then s else s.distribute c)
    else if c.kind == .hspub then .next (if s.classStopped c.gang .headspace && c.touches then s else s.distributePub c)
    else .next s

/-! ### Walking (R351, R355, R356) -/

/-- Change the query of a command in a unit. -/
def State.modQuery (s : State) (k cmd : Nat) (f : Query → Query) : State :=
  s.modUnit k fun u => { u with queries := u.queries.map fun q => if q.cmd == cmd then f q else q }

/-- A query may be worked on: the unit holds it, and its gang has not stopped, unless it is in the middle of a bucket. -/
def State.queryGoes (s : State) (q : Query) : Bool :=
  match s.cmd? q.cmd with
  | none => false
  | some c => q.walking.isSome || !s.classStopped c.gang .headspace

/-- The query whose walk goes on: the oldest of the unit's table that may. -/
def State.walker (s : State) (k : Nat) : Option Query :=
  ((s.unit k).queries.take 64).find? fun q => !q.buckets.isEmpty && s.queryGoes q

/-- The walk leaves the bucket: counted as walked or skipped, or with an error. -/
def State.leaveBucket (s : State) (k : Nat) (q : Query) (pos off walked skipped err : Nat) : State :=
  let s := match q.walking with
    | some w => s.modUnit k fun u => { u with snaps := u.snaps.erase (off, w.snap) }
    | none => s
  let s := s.modQuery k q.cmd fun q =>
    { q with buckets := q.buckets.drop 1, walking := none, walked := q.walked + walked, skipped := q.skipped + skipped }
  if err = 0 then s else s.modCmd q.cmd fun c => c.addErr pos err

/-- The snapshot of a bucket whose header reads VERSION `v`. Without an acquire it may be the version before the last publication, for the
read promises only the issuing thread's own stores (R360); which of the two nothing decides. -/
def State.snapOf (s : State) (k : Nat) (c : Cmd) (off v : Nat) : Nat × State :=
  match c.acq, tfind (s.unit k).prev off with
  | none, some o =>
    if o + 1 = v then
      let (n, s) := s.draw
      (if Config.freeRace n then o else v, s)
    else (v, s)
  | _, _ => (v, s)

/-- Begin a bucket: the snapshot, and the skip check. -/
def State.beginBucket (s : State) (k : Nat) (c : Cmd) (q : Query) (pos off : Nat) : State :=
  let u := k % 516
  if !s.hsReady c u off then s
  else if s.hsPoisoned c.pkg u off 128 then s.leaveBucket k q pos off 0 0 3
  else
    let h := s.hsBytes c.pkg u off 128
    if !s.headerGood c.pkg u h || fld h 12 1 ≠ c.qcode || fld h 14 2 ≠ c.qdim then s.leaveBucket k q pos off 0 0 1
    else
      let inc := c.incOf.bind fun n => tfind (bindRipe (s.unit k).binds c.ctx) n
      if skips c.metric c.qcode (c.at 48 4) (fld h 16 4) (c.metric != 2) inc then s.leaveBucket k q pos off 0 1 0
      else
        let (v, s) := s.snapOf k c off (fld h 0 8)
        (s.modUnit k fun x => { x with snaps := x.snaps ++ [(off, v)] }).modQuery k c.id fun q =>
          { q with walking := some { snap := v, page := fld h 24 8 } }

/-- A candidate stands before another: better score, then lower ITEM. -/
def Cand.before (a b : Cand) (greater : Bool) : Bool :=
  if a.key = b.key then decide (a.item < b.item) else if greater then decide (b.key < a.key) else decide (a.key < b.key)

/-- Insert a candidate behind those it does not precede. -/
def insertCand (greater : Bool) (x : Cand) : List Cand → List Cand
  | [] => [x]
  | y :: r => if x.before y greater then x :: y :: r else y :: insertCand greater x r

/-- What a walk gathers. -/
structure Walked where
  cands : List Cand
  flags : W32 := 0
  poison : Bool := false
  deriving DecidableEq, Repr, Inhabited

/-- One slot of a walk. -/
def State.walkSlot (s : State) (c : Cmd) (u v : Nat) (q : Query) (w : Walked) (slot : Nat) : Walked :=
  let n := stride c.qcode c.qdim
  if s.hsPoisoned c.pkg u slot n then { w with poison := true }
  else
    let e := s.hsBytes c.pkg u slot n
    if !visible (BitVec.ofNat 64 (fld e 8 8)) v then w
    else
      let r := scoreOf c.metric c.qcode q.cbt q.qvec ((e.drop 20).take (codeBytes c.qcode c.qdim)) (fld e 16 4) (c.at 52 4)
      let w := { w with flags := w.flags ||| r.f }
      if r.nan then w
      else
        let x : Cand := { key := BitVec.ofNat 64 (scoreKey (isF32 c.metric c.qcode) r.v), item := BitVec.ofNat 64 (fld e 0 8),
                          score := BitVec.ofNat 64 r.v }
        { w with cands := (insertCand (c.metric != 2) x w.cands).take c.topK }

/-- The walk goes on from `w`. -/
def State.setWalk (s : State) (k : Nat) (c : Cmd) (w : BWalk) : State := s.modQuery k c.id fun q => { q with walking := some w }

/-- The walk comes to the next page, or to the end of the chain. A chain of more pages than a unit can have does not end. -/
def State.walkPage (s : State) (k : Nat) (c : Cmd) (q : Query) (pos off : Nat) (w : BWalk) : State :=
  let u := k % 516
  let leave (err : Nat) : State :=
    let err := if w.poison then 3 else err
    s.leaveBucket k q pos off (if err = 0 then 1 else 0) 0 err
  if w.page = hsNull then leave 0
  else if hsPages ≤ w.seen || !s.hsPageOk c.pkg u w.page then leave 1
  else if s.hsPoisoned c.pkg u w.page 64 then leave 3
  else if !zeros (s.hsBytes c.pkg u w.page 64) 8 56 then leave 1
  else s.setWalk k c { w with inPage := true, slot := 0, seen := w.seen + 1 }

/-- The walk reads the next entry of its page, in one step, or leaves the page along NEXT. -/
def State.walkEntry (s : State) (k : Nat) (c : Cmd) (q : Query) (w : BWalk) : State :=
  let u := k % 516
  if slotsOfPage c.qcode c.qdim ≤ w.slot then s.setWalk k c { w with inPage := false, page := fld (s.hsBytes c.pkg u w.page 8) 0 8 }
  else
    let r := s.walkSlot c u w.snap q { cands := q.cands, poison := w.poison } (w.page + 64 + w.slot * stride c.qcode c.qdim)
    let s := s.modCmd c.id fun x => { x with flags := x.flags ||| r.flags }
    s.modQuery k c.id fun q => { q with cands := r.cands, walking := some { w with slot := w.slot + 1, poison := r.poison } }

/-- BUCKET_WALK: a unit begins the next bucket of a query, or takes the next step of the one it walks: a page, or one entry (R351). -/
def execBucketWalk (pkg unit : Nat) (s : State) : Host.Outcome State Fault Refusal :=
  let k := unitKey pkg unit
  if Config.unitsPerPkg ≤ unit then .next s
  else
    match s.walker k with
    | none => .next s
    | some q =>
      match s.cmd? q.cmd, q.buckets with
      | some c, (pos, off) :: _ =>
        (match q.walking with
         | none => .next (s.beginBucket k c q pos off)
         | some w => .next (if w.inPage then s.walkEntry k c q w else s.walkPage k c q pos off w))
      | _, _ => .next s

/-! ### Results (R357) -/

/-- Sixteen bytes of a candidate. -/
def Cand.bytes (x : Cand) : List Byte := natLe 8 x.item.toNat ++ natLe 8 x.score.toNat

/-- A result message. -/
def State.resultMsg (s : State) (c : Cmd) (q : Query) (unit seq kind : Nat) (payload : List Byte) : State :=
  let (id, s) := s.fresh
  let w := s.wg c.wg
  { s with msgs := s.msgs ++ [{
      id := id, cmd := c.id, pkg := c.pkg, core := w.core, launchid := c.launchid, wgid := w.wgid, ring := bits (c.at 30 1) 1 0,
      srcPkg := c.pkg, srcCore := 0xFFFF, seq := seq, kind := kind, payload := payload, unit := unit, first := q.first }] }

/-- All messages of a unit for a query: its candidates by three, then the last one. -/
def State.results (s : State) (c : Cmd) (q : Query) (unit : Nat) : State :=
  let n := (q.cands.length + 2) / 3
  let qid := natLe 4 (c.at 36 4)
  let s := (List.range n).foldl (fun s j =>
    let l := (q.cands.drop (3 * j)).take 3
    s.resultMsg c q unit j 2 (qid ++ natLe 2 (3 * j) ++ natLe 2 unit ++ l.flatMap Cand.bytes)) s
  s.resultMsg c q unit n 3 (qid ++ natLe 2 q.walked ++ natLe 2 q.skipped ++ natLe 2 q.cands.length ++ natLe 2 q.units ++ natLe 4 0)

/-- RESULT_APPEND: a unit that has finished its last bucket of a query sends its list and gives the query up. -/
def execResultAppend (pkg unit : Nat) (s : State) : Host.Outcome State Fault Refusal :=
  let k := unitKey pkg unit
  if Config.unitsPerPkg ≤ unit then .next s
  else
    match ((s.unit k).queries.take 64).find? fun q => q.buckets.isEmpty && s.queryGoes q with
    | none => .next s
    | some q =>
      match s.cmd? q.cmd with
      | none => .next s
      | some c =>
        let s := s.results c q unit
        let s := s.modUnit k fun u => { u with queries := u.queries.filter fun x => x.cmd != q.cmd }
        let more := (s.unit k).queries.any fun x => match s.cmd? x.cmd with | some d => d.ctx == c.ctx | none => false
        .next (if more then s else s.unbindCopies true k c.ctx)

/-! ### HSPUB: performance (R359) -/

/-- Write bytes within aligned words behind a unit, as an engine write of the command. -/
def State.hsPut (s : State) (c : Cmd) (u off : Nat) (b : List Byte) : State :=
  s.engStore c { loc := hsLoc c.pkg u off } b false

/-- Write a multiple of eight bytes. -/
def State.hsPuts (s : State) (c : Cmd) (u off : Nat) (b : List Byte) : State :=
  (List.range (b.length / 8)).foldl (fun s i => s.hsPut c u (off + 8 * i) ((b.drop (8 * i)).take 8)) s

/-- A slot may take a new entry at published version `v`. -/
def State.placeable (s : State) (k p u off v slot : Nat) : Bool :=
  let w := s.stateWord p u slot
  !stLive w ||
    (stDelv w != 0 && decide (stDelv w ≤ v) && (s.unit k).snaps.all fun x => x.1 != off || decide (stDelv w ≤ x.2))

/-- What HSPUB works on. -/
structure Bucket where
  k : Nat
  u : Nat
  off : Nat
  code : Nat
  dim : Nat
  v : Nat
  deriving DecidableEq, Repr, Inhabited

/-- The bucket's slots now. -/
def State.bucketSlots (s : State) (p : Nat) (b : Bucket) : List Nat :=
  slotsOn b.code b.dim (s.hsChain p b.u hsPages (fld (s.hsBytes p b.u b.off 128) 24 8)).pages

/-- The first SPARE page becomes the last page of the bucket: its first slot. -/
def State.linkSpare (s : State) (c : Cmd) (b : Bucket) : Option (Nat × State) :=
  let h := s.hsBytes c.pkg b.u b.off 128
  let last := fld h 32 8
  let pg := fld h 40 8
  if pg = hsNull then none
  else
    let next := fld (s.hsBytes c.pkg b.u pg 8) 0 8
    let s := s.hsPut c b.u pg (natLe 8 hsNull)
    let s := if last = hsNull then s.hsPut c b.u (b.off + 24) (natLe 8 pg) else s.hsPut c b.u last (natLe 8 pg)
    let s := s.hsPut c b.u (b.off + 32) (natLe 8 pg)
    some (pg + 64, s.hsPut c b.u (b.off + 40) (natLe 8 next))

/-- The square root of an exact sum of squares, rounded up to binary32. -/
def sqrtUp (m : Nat) (e : Int) : Nat :=
  if m = 0 then 0
  else
    let odd : Nat := (e % 2).toNat
    let v := m * 2 ^ odd * 2 ^ 64
    let r := isqrt v
    (roundV .f32 .rup false r ((e - odd) / 2 - 32) (r * r != v)).1

/-- The norm of an inserted vector. HSPUB names no codebook table, so the norm of a codebook vector is a free value
(assumption 2). -/
def State.normOf (s : State) (b : Bucket) (src : List Byte) : Nat × State :=
  let v := (src.drop 4).take (codeBytes b.code b.dim)
  match b.code with
  | 0 => (sqrtUp ((v.map fun x => x.toInt.natAbs * x.toInt.natAbs).foldl (· + ·) 0) 0, s)
  | 1 =>
    let l := halfVec v
    (match distV l (l.map fun _ => .fin false 0 0) with
     | none => (0x7FC00000, s)
     | some q => ((match foldV q with | .fin _ m e => sqrtUp m e | _ => 0x7F800000), s))
  | _ =>
    let (n, s) := s.draw
    ((Config.freeNorm n).toNat, s)

/-- Insert an item with its source bytes. -/
def State.hsInsert (s : State) (c : Cmd) (b : Bucket) (item : Nat) (src : List Byte) : State :=
  let found := match (s.bucketSlots c.pkg b).find? fun x => s.placeable b.k c.pkg b.u b.off b.v x with
    | some x => some (x, s)
    | none => s.linkSpare c b
  match found with
  | none => s
  | some (x, s) =>
    let s := s.hsPuts c b.u (x + 16) src
    let s := s.hsPut c b.u x (natLe 8 item)
    let s := s.hsPut c b.u (x + 8) (natLe 8 (2 ^ 63 + b.v + 1))
    let (n, s) := s.normOf b src
    s.hsPut c b.u (b.off + 16) (natLe 4 (fminmaxV true .f32 (fld (s.hsBytes c.pkg b.u b.off 128) 16 4) n).1)

/-- The lowest of some numbers. -/
def lowest : List Nat → Option Nat
  | [] => none
  | a :: r => some (r.foldl min a)

/-- Delete the lowest-addressed visible entry of an item. -/
def State.hsDelete (s : State) (c : Cmd) (b : Bucket) (item : Nat) : State :=
  let w := b.v + 1
  let l := (s.bucketSlots c.pkg b).filter fun x =>
    visible (s.stateWord c.pkg b.u x) w && leNat (s.hsBytes c.pkg b.u x 8) == item
  match lowest l with
  | none => s
  | some x =>
    let st := s.stateWord c.pkg b.u x
    s.hsPut c b.u (x + 8) (natLe 8 (st.toNat - stDelv st * 2 ^ 31 + w * 2 ^ 31))

/-- One step of a record that has found version `v` published: an operation, then COUNT, then VERSION, which completes the command. -/
def State.pubStep (s : State) (c : Cmd) (b : Bucket) (pub : Pub) : Option Pub × State :=
  let on : Option Pub := some { pub with done := pub.done + 1 }
  if pub.done < c.nops then
    let item := fld pub.ops (32 * pub.done + 8) 8
    (on, if fld pub.ops (32 * pub.done) 1 = 1 then s.hsInsert c b item (pub.srcs.getD pub.done []) else s.hsDelete c b item)
  else if pub.done = c.nops then
    (on, s.hsPut c b.u (b.off + 8)
      (natLe 4 ((s.bucketSlots c.pkg b).filter fun x => visible (s.stateWord c.pkg b.u x) (b.v + 1)).length))
  else
    (none, ((s.hsPut c b.u b.off (natLe 8 (b.v + 1))).modUnit b.k fun x => { x with prev := tset x.prev b.off b.v }).endCmd c.id 0 false)

/-- The bucket of a record with the header that stands there, at version `v`. -/
def bucketOf (k : Nat) (pub : Pub) (h : List Byte) (v : Nat) : Bucket :=
  { k := k, u := k % 516, off := pub.bucket, code := fld h 12 1, dim := fld h 14 2, v := v }

/-- A record begins: it is refused, or it takes the published version. -/
def State.beginPub (s : State) (k : Nat) (c : Cmd) (pub : Pub) : Option Pub × State :=
  let u := k % 516
  if s.hsPoisoned c.pkg u pub.bucket 128 then (none, s.endCmd c.id 3 true)
  else
    let h := s.hsBytes c.pkg u pub.bucket 128
    if !s.headerGood c.pkg u h then (none, s.endCmd c.id 1 false)
    else
      let b := bucketOf k pub h (fld h 0 8)
      let main := s.hsChain c.pkg u hsPages (fld h 24 8)
      let spare := s.hsChain c.pkg u hsPages (fld h 40 8)
      let ss := slotsOn b.code b.dim spare.pages
      let err := if main.err = 0 then spare.err else main.err
      let room := ((slotsOn b.code b.dim main.pages).filter fun x => s.placeable k c.pkg u b.off b.v x).length + ss.length
      let ins := ((List.range c.nops).filter fun i => fld pub.ops (32 * i) 1 == 1).length
      if err ≠ 0 then (none, s.endCmd c.id err (err == 3))
      else if (main.pages ++ spare.pages).any fun g => s.hsPoisoned c.pkg u g 4096 then (none, s.endCmd c.id 3 true)
      else if ss.any fun x => stLive (s.stateWord c.pkg u x) then (none, s.endCmd c.id 1 false)
      else if b.v + 1 = 2 ^ 31 || room < ins then (none, s.endCmd c.id 5 false)
      else (some { pub with base := some b.v }, s)

/-- The next step of a record at its unit. -/
def State.performPub (s : State) (k : Nat) (c : Cmd) (pub : Pub) : Option Pub × State :=
  match pub.base with
  | none => s.beginPub k c pub
  | some v => s.pubStep c (bucketOf k pub (s.hsBytes c.pkg (k % 516) pub.bucket 128) v) pub

/-- HSPUB_PERFORM: the oldest record of a unit's publish queue takes its next step: it begins, or it writes an entry, COUNT or VERSION. -/
def execHspubPerform (pkg unit : Nat) (s : State) : Host.Outcome State Fault Refusal :=
  let k := unitKey pkg unit
  if Config.unitsPerPkg ≤ unit then .next s
  else
    match (s.unit k).pubs with
    | [] => .next s
    | pub :: rest =>
      match s.cmd? pub.cmd with
      | none => .next (s.modUnit k fun u => { u with pubs := rest })
      | some c =>
        match s.performPub k c pub with
        | (left, s) => .next (s.modUnit k fun u => { u with pubs := left.toList ++ rest })

end Sys2Proof.Machine
end

