-- ==== Sys2Proof/Machine/Pairs.lean ====
section
/-! DEFINITION. Pair words (03_encoding R62 to R65): each half has the effect of its full form, both read their sources at
issue, and their results commit together. -/

namespace Sys2Proof.Machine

/-! ### Sources of a half -/

/-- The lane that supplies S (07_lanes R124): its own, or under the short modifier the one 2^n on. -/
def halfLane (h : HArgs) (i : Nat) : Nat :=
  match h.ss with
  | none => i
  | some n => (i + 2 ^ n.toNat) % Config.gwidth

/-- S read as an integer. -/
def readS (h : HArgs) (fr : Frag) (e : Env) : Nat :=
  match h.ss with
  | none => readOp .w32 e h.s
  | some _ => readLane .w32 fr (halfLane h e.lane) h.s

/-- S read as binary32. -/
def readSf (h : HArgs) (fr : Frag) (e : Env) : Nat :=
  match h.ss with
  | none => readFl .f32 e h.s
  | some _ =>
    match laneEnv fr (halfLane h e.lane) with
    | some f => readFl .f32 f h.s
    | none => 0

/-- S is a zero that its source lane supplies. -/
def zeroS (h : HArgs) (fr : Frag) (e : Env) : Bool :=
  match h.ss with
  | none => false
  | some _ => (laneEnv fr (halfLane h e.lane)).isNone

/-- D read as a source. -/
def readD (h : HArgs) (e : Env) : Nat := readOp .w32 e (.x h.d)

/-- The 32-bit integer types of R63. -/
def i32 : ITy := ⟨.w32, true⟩
def n32 : ITy := ⟨.w32, false⟩

/-! ### Results (R63) -/

/-- What a computing half writes in one thread; a memory half writes nothing of itself. -/
def halfOut (h : Half) (fr : Frag) (e : Env) : Out :=
  let d := h.args.d
  let a := readD h.args e
  let b := readS h.args fr e
  let bf := readSf h.args fr e
  let spec (k : Spec) : Out := (specOut k d .f32 e bf).unless (zeroS h.args fr e)
  let red (op : LOp) : Out := reduceOut d (readS h.args) (.int i32) Config.gwidth op fr e
  match h.op with
  | .add => addOut d n32 false a b
  | .sub => subOut d n32 false a b
  | .mul => mulOut d n32 false a b
  | .minI32 => minOut d i32 a b
  | .minN32 => minOut d n32 a b
  | .maxI32 => maxOut d i32 a b
  | .maxN32 => maxOut d n32 a b
  | .absI32 => absOut d .w32 false b
  | .and => andOut d n32 a b
  | .or => orOut d n32 a b
  | .xor => xorOut d n32 a b
  | .andn => andnOut d n32 a b
  | .shl => shlOut d n32 false a b
  | .shr => shrOut d n32 a b
  | .sar => sarOut d n32 a b
  | .rol => rolOut d n32 a b
  | .popc => popcOut d .w32 b
  | .clz => clzOut d .w32 b
  | .ctz => ctzOut d .w32 b
  | .brev => brevOut d n32 b
  | .mov => bitsOut d n32 b
  | .fadd => faddOut d .f32 .rne e a bf
  | .fsub => fsubOut d .f32 .rne e a bf
  | .fmul => (fmulOut d .f32 .rne e a bf).unless (zeroS h.args fr e && !(unpack .f32 a).isSnan)
  | .fmin => fminOut d .f32 e a bf
  | .fmax => fmaxOut d .f32 e a bf
  | .frcp => spec .rcp
  | .fsqrt => spec .sqrt
  | .frsq => spec .rsq
  | .fexp2 => spec .exp2
  | .flog2 => spec .log2
  | .frnd => frndOut d .f32 .rne e bf
  | .ldB32 => {}
  | .stB32 => {}
  | .ldB64 => {}
  | .stB64 => {}
  | .pref => {}
  | .perm => moveOut .w32 d fr (permLane b) (.x d)
  | .reduceAddI32 => red .add
  | .reduceMaxI32 => red .max
  | .reduceMinI32 => red .min
  | .scanAddI32 => scanOut d (readS h.args) (.int i32) Config.gwidth .add fr e

/-- The base of a memory half, with offset 0. -/
def halfAddr (h : HArgs) (e : Env) : W64 := BitVec.ofNat 64 (readOp .w64 e h.s)

/-- The access of a memory half. -/
def halfElems (h : Half) (e : Env) : List Elem :=
  let a := halfAddr h.args e
  let d := h.args.d
  match h.op with
  | .ldB32 => [{ kind := .load, addr := a, size := 4, ret := .x d.toNat n32 }]
  | .ldB64 => [{ kind := .load, addr := a, size := 8, ret := .x d.toNat ⟨.w64, false⟩ }]
  | .stB32 => [{ kind := .store, addr := a, size := 4, data := BitVec.ofNat 64 (readOp .w32 e (.x d)) }]
  | .stB64 => [{ kind := .store, addr := a, size := 8, data := BitVec.ofNat 64 (readOp .w64 e (.x d)) }]
  | _ => []

/-! ### Reads (04_registers R83) -/

/-- The words a half reads in one thread, all marked as the first or the second half's. -/
def halfReads (h : Half) (second : Bool) (fr : Frag) (e : Env) : Reads :=
  let sx := opndX .w32 h.args.s
  let all (ok : Env → Bool) : Reads := (fr.filter ok).flatMap fun f => rdLane fr (halfLane h.args f.lane) sx
  let l : Reads :=
    match h.op with
    | .perm => rdLane fr (halfLane h.args e.lane) sx ++
        (match permLane (readS h.args fr e) with | some j => rdLane fr j [h.args.d.toNat] | none => [])
    | .reduceAddI32 => all fun _ => true
    | .reduceMaxI32 => all fun _ => true
    | .reduceMinI32 => all fun _ => true
    | .scanAddI32 => all fun f => decide (f.lane ≤ e.lane)
    | op =>
      if hopMem op then rdOwn (halfNames h).xr e
      else (if hopBinary op then rdOwn [h.args.d.toNat] e else []) ++ rdLane fr (halfLane h.args e.lane) sx
  l.map fun (j, r, _) => (j, r, second)

/-! ### The word (R65) -/

/-- The threads of a fragment in which a half is active. -/
def halfFrag (h : Half) (fr : Frag) : Frag := fr.filter fun e => e.guarded h.args.g

/-- The results of both halves in one thread, from the same snapshot. -/
def pairOut (a b : Half) (fr : Frag) (e : Env) : List Out :=
  (if e.guarded a.args.g then [halfOut a (halfFrag a fr) e] else []) ++
  (if e.guarded b.args.g then [halfOut b (halfFrag b fr) e] else [])

/-- The accesses of the word's memory half in one thread, and whether it is the second half. -/
def pairElems (a b : Half) (e : Env) : List Elem × Bool :=
  match (if e.guarded a.args.g then halfElems a e else []) with
  | [] => ((if e.guarded b.args.g then halfElems b e else []), true)
  | l => (l, false)

/-- The body of a pair word: a thread whose access is refused or parks takes no effect of either half. -/
def pairBody (a b : Half) : Body := fun s c fr who =>
  match s.checkAll c (who.map fun e => (e, (pairElems a b e).1)) with
  | (ks, s1) =>
    if s1.heldElems c ks then .held
    else
      let r := ks.foldl (fun (acc : State × List (Nat × Fin)) (e, l, k) =>
        let one := if l.isEmpty then (acc.1, Fin.next)
          else acc.1.memThread c fr e.tid l ⟨.rlx, .lane⟩ k (pairElems a b e).2
        let s := match one.2 with
          | .next => one.1.modThr (thrKey c.wg e.tid) fun t => (pairOut a b fr e).foldl Thread.out t
          | _ => one.1
        (s, acc.2 ++ [(e.tid, one.2)])) (s1, [])
      .done r.1 r.2

/-- Run a pair word: each half under its own guard. -/
def runPair (i : Instr) (a b : Half) (s : State) : Host.Outcome State Fault Refusal :=
  match s.cur with
  | none => .fault .noIssuer
  | some c =>
    if !(s.wordOk c i) then .next (s.illegal c)
    else
      let envs := c.tids.map (s.env c.wg)
      let fr := envs.filter fun e => e.guarded a.args.g || e.guarded b.args.g
      let idle := (envs.filter fun e => !(e.guarded a.args.g || e.guarded b.args.g)).map fun e => e.tid
      let quiet (h : Half) : List (Nat × Nat) :=
        (s.idleReaders c ((envs.filter fun e => !e.guarded h.args.g).map fun e => e.tid)).flatMap fun t =>
          (halfNames h).xr.map fun r => (t, r)
      let kr (h : Half) (second : Bool) (e : Env) : List (Nat × Bool) :=
        if e.guarded h.args.g then (halfNames h).kr.map fun r => (r, second) else []
      let rds := fr.map fun e =>
        (e, (if e.guarded a.args.g then halfReads a false (halfFrag a fr) e else []) ++
          (if e.guarded b.args.g then halfReads b true (halfFrag b fr) e else []),
          kr a false e ++ kr b true e)
      let (s1, ecc) := s.regErrors c (quiet a ++ quiet b) rds
      let who := fr.filter fun e => !(ecc.any fun p => p.1 == e.tid)
      match pairBody a b s1 c fr who with
      | .illegal => .next (s.illegal c)
      | .held => .next s
      | .done s2 fin => .next (s2.finish c idle fin ecc)

/-! ### Meanings -/

def execAddHalf (h : HArgs) (snd : Half) : State → Host.Outcome State Fault Refusal :=
  runPair (.addHalf h snd) ⟨.add, h⟩ snd

def execSubHalf (h : HArgs) (snd : Half) : State → Host.Outcome State Fault Refusal :=
  runPair (.subHalf h snd) ⟨.sub, h⟩ snd

def execMulHalf (h : HArgs) (snd : Half) : State → Host.Outcome State Fault Refusal :=
  runPair (.mulHalf h snd) ⟨.mul, h⟩ snd

def execMinI32Half (h : HArgs) (snd : Half) : State → Host.Outcome State Fault Refusal :=
  runPair (.minI32Half h snd) ⟨.minI32, h⟩ snd

def execMinN32Half (h : HArgs) (snd : Half) : State → Host.Outcome State Fault Refusal :=
  runPair (.minN32Half h snd) ⟨.minN32, h⟩ snd

def execMaxI32Half (h : HArgs) (snd : Half) : State → Host.Outcome State Fault Refusal :=
  runPair (.maxI32Half h snd) ⟨.maxI32, h⟩ snd

def execMaxN32Half (h : HArgs) (snd : Half) : State → Host.Outcome State Fault Refusal :=
  runPair (.maxN32Half h snd) ⟨.maxN32, h⟩ snd

def execAbsI32Half (h : HArgs) (snd : Half) : State → Host.Outcome State Fault Refusal :=
  runPair (.absI32Half h snd) ⟨.absI32, h⟩ snd

def execAndHalf (h : HArgs) (snd : Half) : State → Host.Outcome State Fault Refusal :=
  runPair (.andHalf h snd) ⟨.and, h⟩ snd

def execOrHalf (h : HArgs) (snd : Half) : State → Host.Outcome State Fault Refusal :=
  runPair (.orHalf h snd) ⟨.or, h⟩ snd

def execXorHalf (h : HArgs) (snd : Half) : State → Host.Outcome State Fault Refusal :=
  runPair (.xorHalf h snd) ⟨.xor, h⟩ snd

def execAndnHalf (h : HArgs) (snd : Half) : State → Host.Outcome State Fault Refusal :=
  runPair (.andnHalf h snd) ⟨.andn, h⟩ snd

def execShlHalf (h : HArgs) (snd : Half) : State → Host.Outcome State Fault Refusal :=
  runPair (.shlHalf h snd) ⟨.shl, h⟩ snd

def execShrHalf (h : HArgs) (snd : Half) : State → Host.Outcome State Fault Refusal :=
  runPair (.shrHalf h snd) ⟨.shr, h⟩ snd

def execSarHalf (h : HArgs) (snd : Half) : State → Host.Outcome State Fault Refusal :=
  runPair (.sarHalf h snd) ⟨.sar, h⟩ snd

def execRolHalf (h : HArgs) (snd : Half) : State → Host.Outcome State Fault Refusal :=
  runPair (.rolHalf h snd) ⟨.rol, h⟩ snd

def execPopcHalf (h : HArgs) (snd : Half) : State → Host.Outcome State Fault Refusal :=
  runPair (.popcHalf h snd) ⟨.popc, h⟩ snd

def execClzHalf (h : HArgs) (snd : Half) : State → Host.Outcome State Fault Refusal :=
  runPair (.clzHalf h snd) ⟨.clz, h⟩ snd

def execCtzHalf (h : HArgs) (snd : Half) : State → Host.Outcome State Fault Refusal :=
  runPair (.ctzHalf h snd) ⟨.ctz, h⟩ snd

def execBrevHalf (h : HArgs) (snd : Half) : State → Host.Outcome State Fault Refusal :=
  runPair (.brevHalf h snd) ⟨.brev, h⟩ snd

def execMovHalf (h : HArgs) (snd : Half) : State → Host.Outcome State Fault Refusal :=
  runPair (.movHalf h snd) ⟨.mov, h⟩ snd

def execFaddHalf (h : HArgs) (snd : Half) : State → Host.Outcome State Fault Refusal :=
  runPair (.faddHalf h snd) ⟨.fadd, h⟩ snd

def execFsubHalf (h : HArgs) (snd : Half) : State → Host.Outcome State Fault Refusal :=
  runPair (.fsubHalf h snd) ⟨.fsub, h⟩ snd

def execFmulHalf (h : HArgs) (snd : Half) : State → Host.Outcome State Fault Refusal :=
  runPair (.fmulHalf h snd) ⟨.fmul, h⟩ snd

def execFminHalf (h : HArgs) (snd : Half) : State → Host.Outcome State Fault Refusal :=
  runPair (.fminHalf h snd) ⟨.fmin, h⟩ snd

def execFmaxHalf (h : HArgs) (snd : Half) : State → Host.Outcome State Fault Refusal :=
  runPair (.fmaxHalf h snd) ⟨.fmax, h⟩ snd

def execFrcpHalf (h : HArgs) (snd : Half) : State → Host.Outcome State Fault Refusal :=
  runPair (.frcpHalf h snd) ⟨.frcp, h⟩ snd

def execFsqrtHalf (h : HArgs) (snd : Half) : State → Host.Outcome State Fault Refusal :=
  runPair (.fsqrtHalf h snd) ⟨.fsqrt, h⟩ snd

def execFrsqHalf (h : HArgs) (snd : Half) : State → Host.Outcome State Fault Refusal :=
  runPair (.frsqHalf h snd) ⟨.frsq, h⟩ snd

def execFexp2Half (h : HArgs) (snd : Half) : State → Host.Outcome State Fault Refusal :=
  runPair (.fexp2Half h snd) ⟨.fexp2, h⟩ snd

def execFlog2Half (h : HArgs) (snd : Half) : State → Host.Outcome State Fault Refusal :=
  runPair (.flog2Half h snd) ⟨.flog2, h⟩ snd

def execFrndHalf (h : HArgs) (snd : Half) : State → Host.Outcome State Fault Refusal :=
  runPair (.frndHalf h snd) ⟨.frnd, h⟩ snd

def execLdB32Half (h : HArgs) (snd : Half) : State → Host.Outcome State Fault Refusal :=
  runPair (.ldB32Half h snd) ⟨.ldB32, h⟩ snd

def execStB32Half (h : HArgs) (snd : Half) : State → Host.Outcome State Fault Refusal :=
  runPair (.stB32Half h snd) ⟨.stB32, h⟩ snd

def execLdB64Half (h : HArgs) (snd : Half) : State → Host.Outcome State Fault Refusal :=
  runPair (.ldB64Half h snd) ⟨.ldB64, h⟩ snd

def execStB64Half (h : HArgs) (snd : Half) : State → Host.Outcome State Fault Refusal :=
  runPair (.stB64Half h snd) ⟨.stB64, h⟩ snd

def execPrefHalf (h : HArgs) (snd : Half) : State → Host.Outcome State Fault Refusal :=
  runPair (.prefHalf h snd) ⟨.pref, h⟩ snd

def execPermHalf (h : HArgs) (snd : Half) : State → Host.Outcome State Fault Refusal :=
  runPair (.permHalf h snd) ⟨.perm, h⟩ snd

def execReduceAddI32Half (h : HArgs) (snd : Half) : State → Host.Outcome State Fault Refusal :=
  runPair (.reduceAddI32Half h snd) ⟨.reduceAddI32, h⟩ snd

def execReduceMaxI32Half (h : HArgs) (snd : Half) : State → Host.Outcome State Fault Refusal :=
  runPair (.reduceMaxI32Half h snd) ⟨.reduceMaxI32, h⟩ snd

def execReduceMinI32Half (h : HArgs) (snd : Half) : State → Host.Outcome State Fault Refusal :=
  runPair (.reduceMinI32Half h snd) ⟨.reduceMinI32, h⟩ snd

def execScanAddI32Half (h : HArgs) (snd : Half) : State → Host.Outcome State Fault Refusal :=
  runPair (.scanAddI32Half h snd) ⟨.scanAddI32, h⟩ snd

end Sys2Proof.Machine
end

