-- ==== Sys2Proof/Machine/Replay.lean ====
section
/-! DEFINITION. Absent pages: fault records, the flush, and the replay of parked words (11_memories R206 to R209). -/

namespace Sys2Proof.Machine

/-! ### Replay (R209) -/

/-- The body of a word that can park; none of any other word. -/
def bodyOf (i : Instr) : Option Body :=
  match i with
  | .ld d m t o => some (ldBody d m t o)
  | .st m b w o => some (stBody m b w o)
  | .ldv d m t c o => some (ldvBody d m t c o)
  | .stv m b w c o => some (stvBody m b w c o)
  | .atom op d m b w sg o => some (atomBody op d m b w sg o)
  | .acas d m b w o => some (acasBody d m b w o)
  | .ldfe d m o => some (ldfeBody d m o)
  | .stfe m b o => some (stfeBody m b o)
  | .fetagRead d m o => some (fetagReadBody d m o)
  | .fetagFill m o => some (fetagFillBody m o)
  | .fetagEmpty m o => some (fetagEmptyBody m o)
  | .cbload m => some (cbloadBody m)
  | .tcopy e => some (eBody .tcopy e)
  | .tgather e => some (eBody .tgather e)
  | .cavred e => some (eBody .cavred e)
  | .loopnest e => some (eBody .loopnest e)
  | .send e => some (eBody .send e)
  | .search e => some (eBody .search e)
  | .hspub e => some (eBody .hspub e)
  | .spawn d m o => some (spawnBody d m o)
  | .slotset d m => some (slotsetBody d m)
  | i => (pairOf i).map fun p => pairBody p.1 p.2

/-- The word is performed once for its whole fragment, which parks together. -/
def parksWhole (i : Instr) : Bool :=
  match i with
  | .tcopy _ => true
  | .tgather _ => true
  | .cavred _ => true
  | .loopnest _ => true
  | .send _ => true
  | .search _ => true
  | .hspub _ => true
  | .slotset _ _ => true
  | _ => false

/-- Members of a fragment that still stand parked at its word. -/
def State.parkedMates (s : State) (wk : Nat) (p : Park) : Frag :=
  p.frag.filter fun e =>
    match (s.thr (thrKey wk e.tid)).park with
    | some q => q.word == p.word && q.frag == p.frag
    | none => false

/-- Parts of a replay's result that a forced write has claimed are discarded: of accesses still to return, and of what the
replay wrote at once (04_registers R86). -/
def State.dropClaimed (s : State) (k first : Nat) (old : Thread) : State :=
  let mark (a : Access) : Access :=
    match a.ret with
    | .x d _ =>
      if a.thr == k && decide (first ≤ a.id) then
        { a with dropLo := a.dropLo || old.claimed.contains d, dropHi := a.dropHi || old.claimed.contains (d + 1) }
      else a
    | .k _ => a
    | .none => a
  ({ s with accs := s.accs.map mark }).modThr k fun t =>
    { t with claimed := [], x := old.claimed.foldl (fun x n => padSet x n (old.x.getD n 0)) t.x }

/-- A cancelled thread after the replay of the word that it left: it keeps the word where that parks again or still waits for its place in the
order of sc fences (12_ordering R224), and nothing else. -/
def Thread.residue (old t : Thread) (f : Fin) : Thread :=
  match f with
  | .stay => { old with park := t.park }
  | .held =>
    (match t.hold with
     | .peer _ => { old with park := none }
     | h => { old with hold := h, scPlaced := t.scPlaced })
  | .next => { old with park := none }
  | .goto _ => { old with park := none }
  | .ended => { old with park := none }
  | .trap _ => { old with park := none }

/-- One thread after its replay: it goes on at the next word, stands parked again, waits on where it was, or traps. -/
def State.replayed (s : State) (wk first : Nat) (old : Thread) (tid : Nat) (f : Fin) : State :=
  let k := thrKey wk tid
  let now := s.clockOf (s.wg wk).pkg
  if !old.live then s.modThr k fun t => old.residue t f
  else
    let drop (s : State) : State := if old.claimed.isEmpty then s else s.dropClaimed k first old
    match f with
    | .next => (drop s).modThr k fun t => { t with pc := old.pc + 8, since := now }
    | .goto pc => (drop s).modThr k fun t => { t with pc := pc, since := now }
    | .stay => s
    | .ended => s
    | .held => s.modThr k fun t => match t.hold with
      | .peer _ => t
      | _ => { t with park := old.park }
    | .trap _ => s.modThr k fun t => { t with claimed := [] }

/-- Re-issue a parked word in the threads `who`; it counts as no new instruction. -/
def State.replay (s : State) (wk : Nat) (p : Park) (b : Body) (who : Frag) (pc : W64) : State :=
  let w := s.wg wk
  let tids := who.map fun e => e.tid
  let c : Site := { pkg := w.pkg, core := w.core, wg := wk, tids := tids, pc := pc, word := p.word }
  match b (s.modTids wk tids fun t => { t with park := none }) c p.frag who with
  | .illegal => s
  | .held => s
  | .done s' fin =>
    let s2 := fin.foldl (fun x (i, f) => x.replayed wk s.nextId (s.thr (thrKey wk i)) i f) s'
    match (trapsOf fin).filter fun x => (s.thr (thrKey wk x.1)).live with
    | [] => s2
    | ts => s2.trap wk ts

/-- A parked thread may look again: a flush or a resumption lets it, it is not halted, and its gang stands on its cores; a
cancelled thread's kept word does not depend on its gang. -/
def State.mayReplay (s : State) (k : Nat) : Bool :=
  let t := s.thr k
  (match t.park with | some p => p.rewalk | none => false) && !t.halted && t.hold == .none &&
    (!t.live || s.wakes k)

/-- ACCESS_REPLAY. -/
def execAccessReplay (thr : Nat) (s : State) : Host.Outcome State Fault Refusal :=
  let wk := thr / 2048
  let t := s.thr thr
  match t.park with
  | none => .next s
  | some p =>
    if !s.mayReplay thr then .next s
    else if p.frag.isEmpty then
      .next (s.modThr thr fun t => { t with park := none, since := s.clockOf (s.wg wk).pkg })
    else
      match decode p.word with
      | .error _ => .next s
      | .ok i =>
        match bodyOf i with
        | none => .next s
        | some b =>
          let who := if parksWhole i then (s.parkedMates wk p).filter fun e => s.mayReplay (thrKey wk e.tid)
            else p.frag.filter fun e => e.tid == thr % 2048
          .next (s.replay wk p b who t.pc)

/-! ### The flush (R208) -/

/-- FBFLUSH: GEN rises, every die's filter clears, and every parked access of the package is walked again. -/
def State.fbflush (s : State) (p : Nat) : State :=
  let s := s.modPkg p fun g => { g with gen := g.gen + 1 }
  let s := [0, 1, 2, 3].foldl (fun s d => s.modDie (dieKey p d) fun x => { x with filter := [] }) s
  { s with
    threads := s.threads.map fun (k, t) =>
      if (s.wg (k / 2048)).pkg = p then (k, { t with park := t.park.map fun q => { q with rewalk := true } }) else (k, t),
    cmds := s.cmds.map fun (c : Cmd) => if c.pkg = p then { c with parked := none } else c,
    fns := s.fns.map fun (k, f) => if k / 257 = p then (k, { f with held := none }) else (k, f) }

def execFbflush (pkg : Nat) (s : State) : Host.Outcome State Fault Refusal :=
  .next (s.hostDo pkg 0 fun s => s.fbflush pkg)

/-! ### Fault records (R207, R208) -/

def FKind.code : FKind → Nat
  | .read => 0
  | .write => 1
  | .atomic => 2
  | .fetch => 3
  | .engine => 4
  | .tag => 5

/-- Accesses parked on a record's range at its die. -/
def State.parkedOn (s : State) (p die : Nat) (r : FaultRec) : Nat :=
  let here (v : Nat) : Bool := v / 65536 * 65536 == r.va
  let threads := s.threads.filter fun (k, t) =>
    let w := s.wg (k / 2048)
    w.pkg == p && w.core / 160 == die && (s.ctx w.ctx).fn == r.fn && (match t.park with | some q => here q.va | none => false)
  let cmds := s.cmds.filter fun c =>
    c.pkg == p && c.die == die && c.fn == r.fn && (match c.parked with | some v => here v | none => false)
  let held := s.fns.filter fun (k, f) =>
    die == 0 && k == fnKey p r.fn && (match f.held with | some v => here v | none => false)
  min 255 (threads.length + cmds.length + held.length)

def faultBytes (r : FaultRec) (parked : Nat) : List Byte :=
  natLe 4 r.gen.toNat ++ natLe 4 r.launchid.toNat ++ natLe 8 r.va ++ natLe 2 r.core ++ natLe 1 r.kind.code ++ natLe 1 parked ++
    natLe 2 r.fn ++ natLe 10 0

/-- Records that the fault buffer holds at most; none before FBSIZE is set. -/
def Pkg.fbSlots (g : Pkg) : Nat := if g.fbsize = 0 then 0 else 2 ^ (g.fbsize.toNat - 5)

/-- FBTAIL as the host reads it: the count, and the full flag in bit 63. -/
def Pkg.fbTail (g : Pkg) : W64 := if g.fbfull then g.fbtail ||| (1#64 <<< 63) else g.fbtail

/-- A buffer that is full gets its flag, and one event tells the host. -/
def State.noteFull (s : State) (p : Nat) : State :=
  let g := s.pkg p
  if g.fbfull || (g.fbtail - g.fbhead).toNat < g.fbSlots then s
  else
    let s := s.modPkg p fun g => { g with fbfull := true }
    s.pfEvent p 0x06 0xFFFF (s.pkg p).fbTail

/-- FAULT_RECORD_POST: the die's oldest record is discarded as stale, written, or waits for room; the record that fills the buffer sets the
full flag. -/
def execFaultRecordPost (pkg die : Nat) (s : State) : Host.Outcome State Fault Refusal :=
  let dk := dieKey pkg die
  match (s.die dk).faults with
  | [] => .next s
  | r :: rest =>
    let g := s.pkg pkg
    let out : State := s.modDie dk fun d => { d with faults := rest }
    if r.gen != g.gen then .next out
    else if g.fbsize = 0 then .next s
    else if g.fbSlots ≤ (g.fbtail - g.fbhead).toNat then .next (s.noteFull pkg)
    else
      let s := out.devRec pkg (g.fbbase.toNat + 32 * (g.fbtail.toNat % g.fbSlots)) (faultBytes r (s.parkedOn pkg die r))
      .next ((s.modPkg pkg fun g => { g with fbtail := g.fbtail + 1, fbfull := false }).noteFull pkg)

end Sys2Proof.Machine
end

