-- ==== Sys2Proof/Machine/Tlb.lean ====
section
/-! DEFINITION. TLBINV: removing translations of a virtual function (21_tables R323). -/

namespace Sys2Proof.Machine

/-- The order scope of a TLBINV scope. -/
def tiScope : TiScope → Scope
  | .die => .die
  | .pkg => .pkg

/-- Dies within the scope of a TLBINV issued on die `d`. -/
def tiDies (sc : TiScope) (d : Nat) : List Nat :=
  match sc with
  | .die => [d]
  | .pkg => [0, 1, 2, 3]

/-- A TLB entry goes: it belongs to the function and, for a page, translates the address. -/
def TlbEnt.goes (e : TlbEnt) (fk : Nat) (va : Option Nat) : Bool :=
  match va with
  | none => e.fn == fk
  | some v => e.hits fk v

/-- Cores of some dies of a package that hold state. -/
def State.coresIn (s : State) (p : Nat) (dies : List Nat) : List Nat :=
  (s.cores.filter fun (k, _) => k / 640 == p && dies.contains (k % 640 / 160)).map (·.1)

/-- The entries that a removal takes. -/
def State.tlbGone (s : State) (p fk : Nat) (dies : List Nat) (va : Option Nat) : List TlbEnt :=
  (dies.flatMap fun d => (s.die (dieKey p d)).tlb.filter fun e => e.goes fk va) ++
    (s.coresIn p dies).flatMap fun k => (s.core k).utlb.filter fun e => e.goes fk va

/-- Remove a function's entries from every TLB of some dies. -/
def State.tlbRemove (s : State) (p fk : Nat) (dies : List Nat) (va : Option Nat) : State :=
  let s := dies.foldl (fun s d => s.modDie (dieKey p d) fun x => { x with tlb := x.tlb.filter fun e => !e.goes fk va }) s
  (s.coresIn p dies).foldl (fun s k => s.modCore k fun x => { x with utlb := x.utlb.filter fun e => !e.goes fk va }) s

/-- CBLOADs within some dies whose bytes are still out. -/
def State.cbOut (s : State) (p : Nat) (dies : List Nat) : List PlaneOp :=
  (s.coresIn p dies).flatMap fun k => (s.core k).pq.filter fun o => o.kind == .cbload && o.data.isNone

/-- Accesses and CBLOADs that a removed entry translated and that have been neither performed nor refused. -/
def State.tlbOwed (s : State) (p fk : Nat) (dies : List Nat) (gone : List TlbEnt) : List Nat :=
  let went (v : Nat) : Bool := decide (v < 2 ^ 48) && gone.any fun e => e.hits fk v
  (s.accs.filter fun a =>
    a.pkg == p && dies.contains a.die && !a.performed && s.fnOf (s.wg (a.thr / 2048)) == fk && went a.addr.toNat).map (·.id) ++
    ((s.cbOut p dies).filter fun o =>
      s.fnOf (s.wg o.wg) == fk && (went o.addr.toNat || went (o.addr.toNat + 256))).map (·.id)

/-- TLBINV, once per issue for the lowest guard-active thread, after its release step. -/
def tlbinvBody (va : Env → Option Nat) (sc : TiScope) : Body := fun s c _ who =>
  match who with
  | [] => .done s []
  | e :: _ =>
    if !s.relDone (thrKey c.wg e.tid) (tiScope sc) then .held
    else
      let fk := s.fnOf (s.wg c.wg)
      let dies := tiDies sc (c.core / 160)
      let ids := s.tlbOwed c.pkg fk dies (s.tlbGone c.pkg fk dies (va e))
      let s := s.tlbRemove c.pkg fk dies (va e)
      let s := if ids.isEmpty then s
        else s.modTids c.wg (who.map fun e => e.tid) fun t => { t with hold := .tlbinv ids }
      .done s (who.map fun e => (e.tid, .next))

def execTlbinvPage (a : Base) (sc : TiScope) (g : Guard) : State → Host.Outcome State Fault Refusal :=
  runWord (.tlbinvPage a sc g) g (rdPlain (.tlbinvPage a sc g)) always
    (tlbinvBody (fun e => some (readBase e a).toNat) sc)

def execTlbinvVf (sc : TiScope) (g : Guard) : State → Host.Outcome State Fault Refusal :=
  runWord (.tlbinvVf sc g) g (rdPlain (.tlbinvVf sc g)) always (tlbinvBody (fun _ => none) sc)

/-- A thread that waits for a TLBINV goes on when the accesses named have been performed. -/
def State.settleInv (s : State) (k : Nat) : State :=
  match (s.thr k).hold with
  | .tlbinv ids =>
    if (s.accs.any fun a => ids.contains a.id && !a.performed) ||
      (s.cbOut (s.wg (k / 2048)).pkg [0, 1, 2, 3]).any fun o => ids.contains o.id then s
    else s.endHold (k / 2048) (k % 2048)
  | _ => s

end Sys2Proof.Machine
end

