-- ==== Sys2Proof/Machine/Gangs.lean ====
section
/-! DEFINITION. Room for workgroups, the making and the freeing of gangs, and the mark for pre-emption (01_machine R13 to R24,
11_memories R195, R196, 18_queues R288, R300, 21_tables R324, 15_counters R267, R269). -/

namespace Sys2Proof.Machine

/-! ### Room on a core and beneath a quad -/

/-- The lowest 256-byte-aligned offset at which `size` bytes fit below `limit`, clear of some regions (assumption 22). -/
def firstFit (busy : List (Nat × Nat)) (size limit : Nat) : Option Nat :=
  let ok (o : Nat) : Bool := decide (o + size ≤ limit) && busy.all fun r => !meet o (o + size) r.1 r.2
  lowest? ((0 :: busy.map fun r => (r.2 + 255) / 256 * 256).filter ok)
where
  lowest? : List Nat → Option Nat
    | [] => none
    | a :: r => some (r.foldl min a)

/-- Bytes of vault that a gang of `n` threads takes: its stacks, then its `.vault` allocation. -/
def Launch.vaultNeed (l : Launch) (n : Nat) : Nat := 256 * l.stk * n + l.vault

/-- Threads, registers per thread and context of the workgroups on a core, with the one gathered for it. -/
def State.tenants (s : State) (ck : Nat) : List (Nat × Nat × Nat) :=
  ((s.wgsOn ck).map fun k => ((s.wg k).size, (s.wg k).nregs, (s.wg k).ctx)) ++
    (match (s.core ck).gathered with
     | some g => [(g.recs.length, (s.ctx g.ctx).launch.regs, g.ctx)]
     | none => [])

/-- Registers, threads and contexts of a core have room for `size` threads of a launch (R13, R18, R24, 08_planes R140). -/
def State.regsFit (s : State) (ck ctx size : Nat) : Bool :=
  let l := (s.ctx ctx).launch
  let ts := s.tenants ck
  decide (total (ts.map fun t => t.1) + size ≤ 2048) &&
  decide (total (ts.map fun t => t.1 * t.2.1) + size * l.regs ≤ 131072) &&
  decide ((distinct (ctx :: ts.map fun t => t.2.2)).length ≤ 4) &&
  !(l.plane && ts.any fun t => (s.ctx t.2.2).launch.plane)

/-- Scratchpad of a core that is taken: its deque region, its workgroups' allocations, and the one kept for a gathered one. -/
def State.scratchTaken (s : State) (ck : Nat) : List (Nat × Nat) :=
  let c := s.core ck
  let own := (s.wgsOn ck).map fun k => ((s.wg k).scrBase, (s.wg k).scrBase + (s.wg k).scrSize)
  ((c.dqbase.toNat, c.dqlimit.toNat) :: s.gatheredSpan ck :: own).filter fun r => r.1 < r.2

/-- The scratchpad offset at which a workgroup of a launch fits on a core (R18, R195, R324). -/
def State.scratchFit (s : State) (ck : Nat) (l : Launch) : Option Nat :=
  let c := s.core ck
  let kept := match c.gathered with
    | some g => if (s.ctx g.ctx).launch.scratch = 0 then 0 else 1
    | none => 0
  if l.scratch = 0 then some 0
  else if 32 ≤ c.land.length + kept then none
  else firstFit (s.scratchTaken ck) l.scratch 0x3C000

/-- A core takes a workgroup: its offset. A quarantined core takes none (15_counters R269). -/
def State.coreFit (s : State) (ck ctx size : Nat) : Option Nat :=
  if (s.core ck).quar || !s.regsFit ck ctx size then none else s.scratchFit ck (s.ctx ctx).launch

/-- Gangs that stand on a quad. -/
def State.gangsOn (s : State) (p q : Nat) : List Nat :=
  (s.gangs.filter fun (_, g) =>
    g.pkg == p && g.quad == q && g.st == .running && g.members.any fun k => (s.wg k).resident).map (·.1)

/-- Workgroups gathered for the cores of a quad. -/
def State.gatheredOn (s : State) (p q : Nat) : List Gathered :=
  (List.range 4).filterMap fun i => (s.core (coreKey p (4 * q + i))).gathered

/-- Bytes of vault held by a gang. -/
def Gang.vaultSpan (g : Gang) : Nat × Nat := (g.stkBase, g.vaultBase + g.vaultSize)

/-- The offset at which `need` bytes fit in a quad's vault (R19, R196, R324); `entry` when a landing entry is needed too. -/
def State.vaultFit (s : State) (p q need : Nat) (entry : Bool) : Option Nat :=
  let kept := (s.gatheredOn p q).map fun g =>
    ((g.voff, g.voff + (s.ctx g.ctx).launch.vaultNeed g.recs.length), (s.ctx g.ctx).launch.vault != 0)
  if need = 0 then some 0
  else if entry && decide (4 ≤ (s.quad (quadKey p q)).land.length + (kept.filter fun x => x.2).length) then none
  else firstFit (((s.gangsOn p q).map (fun k => (s.gang k).vaultSpan) ++ kept.map fun x => x.1).filter fun r => r.1 < r.2) need
    (2 ^ 22)

/-- Core sets of R19, in order. -/
def coreSets (n : Nat) : List (List Nat) :=
  match n with
  | 1 => [[0], [1], [2], [3]]
  | 2 => [[0, 1], [2, 3]]
  | 3 => [[0, 1, 2], [1, 2, 3]]
  | 4 => [[0, 1, 2, 3]]
  | _ => []

/-- Where a gang goes: its quad, its first core index, the scratchpad offset of each member, and the vault offset. -/
structure Fit where
  quad : Nat
  cidx : Nat
  offs : List Nat
  voff : Nat
  deriving DecidableEq, Repr, Inhabited

/-- Fit members of given sizes into one quad, on the first permitted core set, or only on the one that begins at `first`. -/
def State.fitQuad (s : State) (p ctx : Nat) (sizes : List Nat) (first : Option Nat) (q : Nat) : Option Fit :=
  let l := (s.ctx ctx).launch
  match s.vaultFit p q (l.vaultNeed (total sizes)) (l.vault != 0) with
  | none => none
  | some v =>
    (coreSets sizes.length).findSome? fun set =>
      let offs := (set.zip sizes).map fun (i, n) => s.coreFit (coreKey p (4 * q + i)) ctx n
      if (first.isNone || first == set.head?) && offs.all (·.isSome) then
        some { quad := q, cidx := set.headD 0, offs := offs.map fun o => o.getD 0, voff := v }
      else none

/-- The first of some quads in which the members fit (R288). -/
def State.findFit (s : State) (p ctx : Nat) (sizes quads : List Nat) : Option Fit := quads.findSome? (s.fitQuad p ctx sizes none)

/-- The lowest free save slot of a launch. -/
def Ctx.freeSlot (c : Ctx) : Option Nat := (List.range c.launch.csaCount).find? fun i => !c.slots.contains i

/-! ### Making a gang (R15, R20, R75, 15_counters R267) -/

/-- Clear a span of memory: zero, no poison, tags full, and the same in every die's view (R267). -/
def State.wipe (s : State) (loc n : Nat) : State :=
  let in' (a : Nat) : Bool := decide (loc ≤ a) && decide (a < loc + n)
  let word (w : Nat) : Bool := in' (8 * w) || in' (8 * w + 7)
  { s with
    mem := s.mem.filter fun c => !in' c.1,
    views := s.views.filter fun (k, _) => !word (k % 2 ^ 60),
    viewVer := s.viewVer.filter fun (k, _) => !word (k % 2 ^ 60),
    empties := s.empties.filter fun w => !word w,
    poison := s.poison.filter fun w => !word w }

/-- Write a span of memory at its home and in every die's view at once; its tags are full and it holds no poison. -/
def State.lay (s : State) (loc : Nat) (b : List Byte) : State :=
  let s := s.wipe loc b.length
  let new := (b.zipIdx).filterMap fun (v, i) => if v = unlisted then none else some (loc + i, v)
  { s with mem := (s.mem.takeWhile fun c => c.1 < loc) ++ new ++ s.mem.dropWhile fun c => c.1 < loc }

/-- A new landing entry (R324). -/
def newLand (lid wgid : W32) (g : BitVec 16) (base size : Nat) (vault : Bool) : Land :=
  { launchid := lid, wgid := wgid, lgen := g, base := base, size := size, vault := vault }

/-- Landing entries of a placed or resumed gang: one per member with scratchpad, one for its vault. -/
def State.makeLand (s : State) (gk : Nat) : State :=
  let g := s.gang gk
  let s := g.members.foldl (fun s k =>
    let w := s.wg k
    if w.scrSize = 0 then s
    else s.modCore w.ckey fun c =>
      { c with lgen := c.lgen + 1, land := c.land ++ [newLand w.launchid w.wgid (c.lgen + 1) w.scrBase w.scrSize false] }) s
  let w := s.wg (g.members.headD 0)
  if g.vaultSize = 0 then s
  else s.modQuad (quadKey g.pkg g.quad) fun q =>
    { q with lgen := q.lgen + 1, land := q.land ++ [newLand w.launchid w.wgid (q.lgen + 1) g.vaultBase g.vaultSize true] }

/-- A new plane owner finds no tile descriptors; that of a replayable kernel finds its whole plane state cleared. -/
def Core.planeOwner (c : Core) (replayable : Bool) : Core :=
  let c := { c with td := List.replicate 16 0 }
  if replayable then { c with acc := [], aov := 0, apoi := 0, cb := [] } else c

/-- What a core makes of a member that starts or resumes on it: its copies are bound, and for a fresh one the state that R267
and R141 clear. -/
def State.startMember (s : State) (k : Nat) : State :=
  let w := s.wg k
  let l := s.launchOf w
  let s := s.bindCopies false w.ckey w.ctx
  let s := if l.plane then s.modCore w.ckey fun c => c.planeOwner l.replayable else s
  if l.replayable then s.wipe (locScratch w.pkg w.core w.scrBase) w.scrSize else s

/-- The threads of a fresh workgroup, packed by TID. -/
def State.startThreads (s : State) (k : Nat) : State :=
  let w := s.wg k
  let now := s.clockOf w.pkg
  let entry := (s.launchOf w).entry
  (List.range w.size).foldl (fun s i =>
    let t : Thread := { x := List.replicate w.nregs 0, pc := entry, lane := i % Config.gwidth, lead := i - i % Config.gwidth,
                        since := now }
    let t : Thread := match (w.seeds[i]? : Option Seed) with
      | none => t
      | some d => { t with
          pc := d.entry, bnd := d.bound, bsel := d.bsel,
          x := (d.args.flatMap fun (a : W64) => [a.setWidth 32, (a >>> 32).setWidth 32]) ++ List.replicate (w.nregs - 8) 0 }
    { s with threads := tset s.threads (thrKey k i) t }) s

/-- What a new gang is made from. -/
structure Birth where
  pkg : Nat
  ctx : Nat
  gangid : W32
  wgids : List W32
  sizes : List Nat
  params : List W32
  seeds : List (List Seed) := []
  check : Option Nat := none
  gathered : Bool := false
  slot : Option Nat := none
  deriving DecidableEq, Repr, Inhabited

/-- Make a gang in its place: its workgroups and threads, its allocations, and its landing entries. -/
def State.makeGang (s : State) (b : Birth) (f : Fit) : Nat × State :=
  let c := s.ctx b.ctx
  let l := c.launch
  let (gk, s) := s.fresh
  let first := s.nextId
  let n := b.sizes.length
  let s := { s with nextId := first + n }
  let stkAll := 256 * l.stk * total b.sizes
  let g : Gang := { pkg := b.pkg, ctx := b.ctx, gangid := b.gangid, quad := f.quad, cidx := f.cidx,
                    members := (List.range n).map (first + ·), stkBase := f.voff, stk := 256 * l.stk,
                    vaultBase := f.voff + stkAll, vaultSize := l.vault, slot := b.slot, gathered := b.gathered, check := b.check }
  let s := { s with gangs := tset s.gangs gk g }
  let s := match b.slot with
    | some i => s.modCtx b.ctx fun c => { c with slots := c.slots ++ [i] }
    | none => s
  let s := if l.replayable then s.wipe (locVault b.pkg f.quad f.voff) (stkAll + l.vault) else s
  let s := (List.range n).foldl (fun s m =>
    let w : Wg := { pkg := b.pkg, core := 4 * f.quad + f.cidx + m, ctx := b.ctx, gang := gk, member := m,
                    wgid := b.wgids.getD m 0, gangid := b.gangid, launchid := c.launchid, size := b.sizes.getD m 0,
                    nregs := l.regs, k := b.params, scrBase := f.offs.getD m 0, scrSize := l.scratch,
                    seeds := b.seeds.getD m [] }
    let s := { s with wgs := tset s.wgs (first + m) w }
    (s.startMember (first + m)).startThreads (first + m)) s
  (gk, s.makeLand gk)

/-! ### Giving resources back -/

/-- The landing entries of a gang are invalidated, and its rings become absent (R300 mark, R306, R324). -/
def State.dropLand (s : State) (gk : Nat) : State :=
  let g := s.gang gk
  let s := g.members.foldl (fun s k =>
    let w := s.wg k
    let mine (lid wgid : W32) : Bool := lid == w.launchid && wgid == w.wgid
    s.modCore w.ckey fun c =>
      { c with land := c.land.filter (fun e => !mine e.launchid e.wgid), rings := c.rings.filter fun r => !mine r.launchid r.wgid }) s
  let w := s.wg (g.members.headD 0)
  s.modQuad (quadKey g.pkg g.quad) fun q =>
    { q with land := q.land.filter fun e => !(e.launchid == w.launchid && e.wgid == w.wgid) }

/-- A member leaves its core; the last one of its launch there takes the binding with it. -/
def State.leaveCore (s : State) (k : Nat) : State :=
  let w := s.wg k
  let s := s.modWg k fun w => { w with resident := false }
  if (s.wgsOn w.ckey).any fun j => (s.wg j).ctx == w.ctx then s else s.unbindCopies false w.ckey w.ctx

/-- A gang's cores, scratchpad and vault are freed. -/
def State.freeGang (s : State) (gk : Nat) : State := (s.gang gk).members.foldl State.leaveCore (s.dropLand gk)

/-- Its save slot too. -/
def State.freeSlot (s : State) (gk : Nat) : State :=
  let g := s.gang gk
  match g.slot with
  | none => s
  | some i =>
    (s.modCtx g.ctx fun c => { c with slots := c.slots.filter (· != i) }).modGang gk fun g => { g with slot := none }

/-- Every thread of the gang has ended, and every command of its threads has completed (R20). -/
def State.gangOver (s : State) (gk : Nat) : Bool :=
  let g := s.gang gk
  (g.members.all fun k => (s.liveTids k).isEmpty) && (s.cmds.all fun c => c.gang != gk) &&
    g.members.all fun k => (s.core (s.wg k).ckey).pq.all fun o => o.wg != k

/-! ### The mark (R300) -/

/-- A gang can be saved: it has a slot, or its launch has a free one for it (assumption 23). -/
def State.markable (s : State) (gk : Nat) : Bool :=
  let g := s.gang gk
  g.st == .running && g.pre.isNone && (g.slot.isSome || (s.ctx g.ctx).freeSlot.isSome)

/-- Mark a gang for pre-emption, or for being discarded. -/
def State.mark (s : State) (gk : Nat) (discard : Bool) : State :=
  let g := s.gang gk
  if g.st != .running then s
  else
    match g.pre with
    | some _ => if discard then s.modGang gk fun g => { g with pre := g.pre.map fun p => { p with discard := true } } else s
    | none =>
      if !discard && !s.markable gk then s
      else
        let s := match g.slot, discard, (s.ctx g.ctx).freeSlot with
          | none, false, some i =>
            (s.modCtx g.ctx fun c => { c with slots := c.slots ++ [i] }).modGang gk fun g => { g with slot := some i }
          | _, _, _ => s
        (s.dropLand gk).modGang gk fun g => { g with pre := some { discard := discard } }

/-- PREEMPTION_REQUEST (R290): system software asks for a gang's pre-emption. -/
def execPreemptionRequest (gang : Nat) (s : State) : Host.Outcome State Fault Refusal :=
  .next (if s.markable gang then s.mark gang false else s)

/-- The gang stands on a quarantined core and is not being pre-empted yet; a re-execution is discarded even then. -/
def State.onQuar (s : State) (g : Gang) : Bool :=
  g.st == .running && (g.pre.isNone || g.check.isSome) && g.members.any fun k => (s.wg k).resident && (s.core (s.wg k).ckey).quar

/-- Gangs of a package on quarantined cores are marked as soon as they can be saved (15_counters R269); a re-execution is discarded. -/
def State.markQuar (s : State) (p : Nat) : State :=
  s.gangs.foldl (fun s (k, g) => if g.pkg == p && s.onQuar g then s.mark k g.check.isSome else s) s

/-- The gang has retired: its record stays until the launch completes. Its save slot may serve a gang that a quarantine has to move. -/
def State.retireGang (s : State) (gk : Nat) : State :=
  (((s.freeGang gk).freeSlot gk).modGang gk fun g => { g with st := .retired, pre := none }).markQuar (s.gang gk).pkg

/-! ### Suspicion and quarantine (15_counters R268, R269) -/

/-- A core is quarantined: its queued forwarding messages are discarded, its landing entries and rings become absent, its gangs are marked,
a check that runs on it is abandoned, and the host is told. -/
def State.quarantine (s : State) (p core : Nat) : State :=
  let ck := coreKey p core
  let c := s.core ck
  let lost := total (c.fwd.map List.length)
  let gangs := distinct ((s.wgsOn ck).map fun k => (s.wg k).gang)
  let s := s.modCore ck fun c =>
    { c with quar := true, fwd := List.replicate 4 [], land := [], rings := [] }
  let s := s.markQuar p
  let s := s.modPkg p fun k =>
    { k with checks := k.checks.map fun (x : Check) =>
        match x.gang with
        | some g => if gangs.contains g then { x with gang := none, phase := x.phase - 1 } else x
        | none => x }
  s.pfEvent p 0x07 core (BitVec.ofNat 64 (c.susp.toNat + 2 ^ 16 * (lost % 2 ^ 16)))

/-- SUSP of a core changes within its bounds; from 512 on the core is quarantined. -/
def State.suspect (s : State) (p core : Nat) (d : Int) : State :=
  let ck := coreKey p core
  let v := (max 0 (min 65535 (((s.core ck).susp.toNat : Int) + d))).toNat
  let s := s.modCore ck fun c => { c with susp := BitVec.ofNat 16 v }
  if 512 ≤ v && !(s.core ck).quar then s.quarantine p core else s

/-- A clean completion on a core; each time its count wraps, its SUSP falls by 1. -/
def State.cleanDone (s : State) (p core : Nat) : State :=
  let ck := coreKey p core
  let s := s.modCore ck fun c => { c with clean := c.clean + 1 }
  if (s.core ck).clean = 0 then s.suspect p core (-1) else s

end Sys2Proof.Machine
end

