-- ==== Sys2Proof/Machine/Loop.lean ====
section
/-! DEFINITION. The loop sequencer: LOOPNEST records, iterations with their copy, plane and wake steps, permits, and the stop at
the end of a launch (14_engines R255, R256, R258). -/

namespace Sys2Proof.Machine

/-! ### The record (R255) -/

def Cmd.steps (c : Cmd) : Nat := c.at 16 1
def Cmd.hasCopy (c : Cmd) : Bool := bits c.steps 0 0 == 1
def Cmd.hasPlane (c : Cmd) : Bool := bits c.steps 1 1 == 1
def Cmd.hasWake (c : Cmd) : Bool := bits c.steps 2 2 == 1
def Cmd.nlev (c : Cmd) : Nat := c.at 17 1
def Cmd.permits (c : Cmd) : Nat := c.at 18 1

/-- PWORD, when it is one that R255 admits. -/
def Cmd.pword (c : Cmd) : Option Instr :=
  match decode (c.addrAt 32) with
  | .error _ => none
  | .ok i =>
    if !legal i then none
    else
      match i with
      | .plane d t n g => if g == default then some (.plane d t n g) else none
      | .align d t n g => if g == default then some (.align d t n g) else none
      | .mma a x y p g => if g == default then some (.mma a x y p g) else none
      | .mmac a x y p g => if g == default then some (.mmac a x y p g) else none
      | .accz m p g => if g == default then some (.accz m p g) else none
      | _ => none

/-- The LOOPNEST record breaks no rule. -/
def State.loopOk (s : State) (c : Cmd) : Bool :=
  c.headerOk && decide (1 ≤ c.steps) && decide (c.steps < 8) && decide (1 ≤ c.nlev) && decide (c.nlev ≤ 4) &&
    decide (1 ≤ c.permits) && decide (c.permits ≤ 16) && zeros c.raw 19 5 && zeros c.raw 48 16 &&
    (List.range c.nlev).all (fun l => c.at (64 + 16 * l) 4 != 0) && zeros c.raw (64 + 16 * c.nlev) (64 - 16 * c.nlev) &&
    (!c.hasPlane || (c.pword.isSome && (s.launchOf (s.wg c.wg)).plane)) &&
    (!c.hasWake || (c.at 40 8 / 2 ^ 48 == 0xFFFF && c.at 40 8 % 8 == 0))

/-- The index of level `l` in iteration `j`: the innermost level varies fastest. -/
def Cmd.index (c : Cmd) (j l : Nat) : Nat :=
  let inner := (List.range c.nlev).foldl (fun n k => if l < k then n * c.at (64 + 16 * k) 4 else n) 1
  j / inner % c.at (64 + 16 * l) 4

/-- The sum over the levels of index times a signed step of `n` bytes at `o` in the level. -/
def Cmd.offsetOf (c : Cmd) (j o n : Nat) : Int :=
  (List.range c.nlev).foldl (fun v l => v + (c.index j l : Int) * sint (8 * n) (c.at (64 + 16 * l + o) n)) 0

/-- A launch has no thread left, and none to come (R258). -/
def State.launchIdle (s : State) (ctx : Nat) : Bool :=
  s.unplaced ctx == 0 &&
    s.wgs.all fun (k, w) => w.ctx != ctx || (s.liveTids k).isEmpty

/-! ### The active nest -/

/-- The nest at the head of a core's sequencer. -/
def State.activeLoop (s : State) (ck : Nat) : Option Cmd :=
  match (s.core ck).loops with
  | [] => none
  | id :: _ => s.cmd? id

def State.modLoop (s : State) (id : Nat) (f : LoopSt → LoopSt) : State :=
  s.modCmd id fun c => { c with loop := c.loop.map f }

/-- Change an iteration. -/
def LoopSt.modIt (l : LoopSt) (j : Nat) (f : LoopIt → LoopIt) : LoopSt :=
  { l with its := l.its.map fun i => if i.j = j then f i else i }

/-- A step of an iteration failed: the iteration's later steps are not performed and the nest stops (R256). -/
def State.failLoop (s : State) (id j code : Nat) : State :=
  (s.modLoop id fun l =>
    { (l.modIt j fun i => { i with copyDone := true, planeDone := true, wakeDone := true, emptied := true }) with stopped := true }).modCmd
    id fun c => { c with code := if c.code = 0 then code else c.code }

/-- The template of the copy step, read once at the start. -/
def State.readTemplate (s : State) (c : Cmd) : State :=
  let a := c.addrAt 24
  if a.toNat % 128 ≠ 0 then s.endCmd c.id 2 false
  else
    match s.engBytes c a 128 with
    | ((_, some e), s) => s.stopCmd c e
    | ((b, none), s) =>
      let t : Cmd := { c with kind := .tcopy, raw := b }
      (match t.shape with
       | some h =>
         if h.n = 1 then s.modCmd c.id fun x => { x with loop := some { permits := c.permits, template := b } }
         else s.endCmd c.id 1 false
       | none => s.endCmd c.id 1 false)

/-- Replace bytes of a record. -/
def patch (r : List Byte) (o : Nat) (b : List Byte) : List Byte := r.take o ++ b ++ r.drop (o + b.length)

/-- The copy command of iteration `j`: the template on the nest's channel with SRC and DST moved, ordered by the flags of
both records. -/
def Cmd.copyStep (c : Cmd) (id j : Nat) (t : List Byte) (now : Vec) : Cmd :=
  let moved (o : Nat) (v : Int) : List Byte := natLe 8 (BitVec.ofInt 64 (fld t o 8 + v)).toNat
  let r := patch (patch t 16 (moved 16 (c.offsetOf j 4 4))) 24 (moved 24 (c.offsetOf j 8 4))
  let r := patch r 4 [BitVec.ofNat 8 c.chan]
  let r := if c.releases then patch r 2 [BitVec.ofNat 8 (fld t 2 1 ||| 2), BitVec.ofNat 8 (max c.scopeN (fld t 3 1))] else r
  { c with id := id, kind := .tcopy, recAddr := c.addrAt 24, raw := r, quiet := some c.id, loop := none, code := 0, flags := 0,
           acq := match c.acq with
             | some v => some v
             | none => if bits (fld t 2 1) 0 0 = 1 then some now else none }

/-- Start the next iteration with a permit. -/
def State.startIteration (s : State) (c : Cmd) (l : LoopSt) : State :=
  let j := l.next
  let it : LoopIt := { j := j, planeDone := !c.hasPlane, wakeDone := !c.hasWake, copyDone := !c.hasCopy }
  if c.hasCopy then
    let (id, s) := s.fresh
    let s := s.addCmd (c.copyStep id j l.template (s.die c.dkey).vec)
    s.modLoop c.id fun l => { l with next := j + 1, permits := l.permits - 1, its := l.its ++ [{ it with copy := some id }] }
  else s.modLoop c.id fun l => { l with next := j + 1, permits := l.permits - 1, its := l.its ++ [it] }

/-- LOOP_ITERATION_START: the nest is checked and its template read; then an iteration starts whenever a permit and the
channel have room, and none once the launch has no thread left (R258). -/
def execLoopIterationStart (pkg core : Nat) (s : State) : Host.Outcome State Fault Refusal :=
  match s.activeLoop (coreKey pkg core) with
  | none => .next s
  | some c =>
    if c.finished || c.parked.isSome || s.classStopped c.gang .loop || s.launchIdle c.ctx then .next s
    else
      match c.loop with
      | none =>
        if !s.loopOk c then .next (s.endCmd c.id 1 false)
        else if c.hasCopy then .next (s.readTemplate c)
        else .next (s.modCmd c.id fun x => { x with loop := some { permits := c.permits } })
      | some l =>
        if l.stopped || c.iterations ≤ l.next || l.permits = 0 || (c.hasCopy && !s.chanFreeFor c.ckey .tcopy c.chan) then .next s
        else .next (s.startIteration c l)

/-! ### Plane steps -/

/-- A descriptor with its BASE moved by units of 256 bytes; none when it breaks R143. -/
def shifted (d : W64) (u : Int) (size : Nat) : Option W64 :=
  let b : Int := (bits d.toNat 12 3 : Int) + u
  if b < 0 || 1023 < b then none
  else
    let v := BitVec.ofNat 64 (d.toNat - 8 * bits d.toNat 12 3 + 8 * b.toNat)
    if tdOk v size then some v else none

/-- The plane operation of iteration `j`, and whether it is paired; none for a descriptor that breaks R143. -/
def State.loopOp (s : State) (c : Cmd) (j : Nat) : Option (Tile × Bool) :=
  let td (n : BitVec 4) : W64 := (s.core c.ckey).td.getD n.toNat 0
  let size := (s.wg c.wg).scrSize
  let sh (n : BitVec 4) (o : Nat) : Option W64 := shifted (td n) (c.offsetOf j o 2) size
  match c.pword with
  | some (.plane d t n _) =>
    (match sh d 12, sh t 14 with
     | some x, some y => some (convTile .plane d t n.toNat 1 0 2 x y, false)
     | _, _ => none)
  | some (.align d t n _) =>
    (match sh d 12, sh t 14 with
     | some x, some y => some (convTile .align d t n.toNat 2 3 8 x y, false)
     | _, _ => none)
  | some (.mma a x y p _) =>
    (match sh x 12, sh y 14 with
     | some u, some v => some (mmaTile .mma a x y u v, p)
     | _, _ => none)
  | some (.mmac a x y p _) =>
    (match sh x 12, sh y 14 with
     | some u, some v => some (mmaTile .mmac a x y u v, p)
     | _, _ => none)
  | some (.accz m p _) => some (.op { id := 0, kind := .accz, mask := m }, p)
  | _ => none

/-- The site for which a nest issues its plane steps. -/
def Cmd.site (c : Cmd) : Site := { pkg := c.pkg, core := c.core, wg := c.wg, tids := [], pc := 0, word := c.addrAt 32 }

/-- Put the plane step of iteration `j` into the queue. -/
def State.pushLoopOp (s : State) (c : Cmd) (j : Nat) (o : PlaneOp) (pair : Bool) : State :=
  let (id, s) := s.fresh
  let o := { o with id := id, thr := c.thr, wg := c.wg, cyc := s.clockOf c.pkg, pc := 0, role := if pair then 1 else 0,
                    loop := some c.id }
  let s := s.push c.ckey o
  let s := match pair, s.follower c.site with
    | true, some v => s.push (c.ckey + 1) { o with wg := v, role := 2 }
    | _, _ => s
  s.modLoop c.id fun l => l.modIt j fun i => { i with plane := some id }

/-- LOOP_PLANE_STEP: the oldest iteration without its plane step, once its copy step has completed. -/
def execLoopPlaneStep (pkg core : Nat) (s : State) : Host.Outcome State Fault Refusal :=
  match s.activeLoop (coreKey pkg core) with
  | none => .next s
  | some c =>
    match (c.loop.getD {}).its.find? fun i => !i.planeDone && i.plane.isNone with
    | none => .next s
    | some i =>
      if !i.copyDone || s.classStopped c.gang .plane then .next s
      else
        match s.loopOp c i.j with
        | none => .next (s.failLoop c.id i.j 7)
        | some (.bad _ _, _) => .next (s.failLoop c.id i.j 7)
        | some (.op o, pair) =>
          if pair && (s.follower c.site).isNone then .next (s.failLoop c.id i.j 7)
          else if !s.pqFree c.ckey || (pair && !s.pqFree (c.ckey + 1)) then .next s
          else .next (s.pushLoopOp c i.j o pair)

/-! ### Wake steps and permits -/

/-- The wake word of an iteration. -/
def Cmd.wakeAddr (c : Cmd) (j : Nat) : W64 := c.addrAt 40 + BitVec.ofNat 64 (8 * (j % c.permits))

/-- A wake word is full, or still holds the fill of an iteration before. -/
def State.wakeFull (s : State) (its : List LoopIt) (w : Nat) : Bool := s.isFull w || its.any fun k => k.wake == some w && !k.emptied

/-- LOOP_WAKE_FILL: the oldest iteration without its wake fills its word with its number, as STFE does; it waits while the
word is full. -/
def execLoopWakeFill (pkg core : Nat) (s : State) : Host.Outcome State Fault Refusal :=
  match s.activeLoop (coreKey pkg core) with
  | none => .next s
  | some c =>
    let its := (c.loop.getD {}).its
    match its.find? fun i => !i.wakeDone with
    | none => .next s
    | some i =>
      if !i.copyDone || !i.planeDone || s.cmdStopped c then .next s
      else
        match s.engFind c (c.wakeAddr i.j) 8 { w := true, tag := true } with
        | (.error (.fail code), s) => .next (s.failLoop c.id i.j code)
        | (.error (.park va), s) => .next (s.parkCmd c va)
        | (.error .wait, s) => .next s
        | (.ok p, s) =>
          let w := p.loc / 8
          if s.wakeFull its w then .next s
          else
            let s := s.homeStore p.loc 8 (BitVec.ofNat 64 i.j) { acc := c.id, launch := c.launchid, repl := p.repl }
            let s := s.modLoop c.id fun l => l.modIt i.j fun k => { k with wake := some w, wakeDone := true }
            .next (s.engFill w)

/-- LOOP_PERMIT_RETURN: an iteration's wake word has been emptied, or without a wake step its last step has completed. -/
def execLoopPermitReturn (pkg core : Nat) (s : State) : Host.Outcome State Fault Refusal :=
  match s.activeLoop (coreKey pkg core) with
  | none => .next s
  | some c =>
    match (c.loop.getD {}).its.find? fun i => i.copyDone && i.planeDone && i.wakeDone && (i.wake.isNone || i.emptied) with
    | none => .next s
    | some i =>
      .next (s.modLoop c.id fun l => { l with permits := l.permits + 1, its := l.its.filter fun k => k.j != i.j })

/-! ### The end of a launch (R258) -/

/-- The wake fill of an iteration waits on a full word. -/
def State.fillWaits (s : State) (c : Cmd) (l : LoopSt) (i : LoopIt) : Bool :=
  !i.wakeDone && i.copyDone && i.planeDone &&
  (match (s.engFind c (c.wakeAddr i.j) 8 { w := true, tag := true }).1 with
   | .ok p => s.wakeFull l.its (p.loc / 8)
   | .error _ => false)

/-- LOOPNEST_ABORT: no new iteration starts, a wake fill that waits on a full word is abandoned, and the command ends with ABORTED; the
other steps that have started are performed. -/
def execLoopnestAbort (pkg core : Nat) (s : State) : Host.Outcome State Fault Refusal :=
  match s.activeLoop (coreKey pkg core) with
  | none => .next s
  | some c =>
    if !s.launchIdle c.ctx || c.done then .next s
    else
      match c.loop with
      | none => .next (s.endCmd c.id 6 false)
      | some l =>
        .next ((s.modLoop c.id fun l' =>
            { l' with stopped := true,
                      its := l'.its.map fun i => if s.fillWaits c l i then { i with wakeDone := true, emptied := true } else i }).modCmd
          c.id fun x => { x with code := if x.code = 0 then 6 else x.code })

end Sys2Proof.Machine
end

