-- ==== Sys2Proof/Machine/Launch.lean ====
section
/-! DEFINITION. Launch records: acceptance, the pod sequencer's answer, completion and abort, and launch events (18_queues R284 to
R289, R297, 13_memory_instr R238). -/

namespace Sys2Proof.Machine

/-! ### The record (R284) -/

/-- The fields of a launch record. -/
def recLaunch (r : List Byte) : Launch :=
  { entry := BitVec.ofNat 64 (fld r 0 8), param := BitVec.ofNat 64 (fld r 8 8), vec := BitVec.ofNat 64 (fld r 16 8),
    ngang := fld r 24 4, gang := fld r 28 1, prio := fld r 29 1, wgsize := fld r 30 2, regs := fld r 32 1,
    debug := bits (fld r 33 1) 0 0 == 1, replayable := bits (fld r 33 1) 1 1 == 1, plane := bits (fld r 33 1) 2 2 == 1,
    stk := fld r 34 2, scratch := fld r 36 4, vault := fld r 40 4, csaCount := fld r 44 2, podn := fld r 46 2,
    incdecl := BitVec.ofNat 64 (fld r 48 6), csa := BitVec.ofNat 64 (fld r 56 8), csaSlot := fld r 64 4, csaHoff := fld r 68 4,
    cpl := BitVec.ofNat 64 (fld r 72 8), podkey := BitVec.ofNat 64 (fld r 80 8) }

/-- A number rounded up to a multiple of 64 KiB. -/
def up64K (n : Nat) : Nat := (n + 65535) / 65536 * 65536

/-- Offset of the vault part in a save slot, of the accumulators, and of the per-thread blocks (R301). -/
def Launch.slotVault (l : Launch) : Nat := 65536 * (1 + l.gang)
def Launch.slotAcc (l : Launch) : Nat := l.slotVault + up64K (l.vaultNeed (l.wgsize * l.gang))
def Launch.slotThreads (l : Launch) : Nat := l.slotAcc + (if l.plane then 786432 * l.gang else 0)

/-- Bytes of the hardware part of a save slot (R301). -/
def Launch.hwPart (l : Launch) : Nat := l.slotThreads + 64 * l.wgsize * l.gang

/-- The declarations of pod-scope incumbents alone. -/
def podDecl (d : W64) : W64 :=
  (List.range 16).foldl (fun v j =>
    if d.getLsbD (3 * j) && d.getLsbD (3 * j + 2) then v ||| (d &&& (7#64 <<< (3 * j))) else v) 0

/-- The record breaks a rule of R284 or R286 that needs no memory; `rights` when the function may grant debug rights. -/
def recBad (r : List Byte) (rights : Bool) : Bool :=
  let l := recLaunch r
  !(l.entry.toNat % 8 == 0 && decide (l.entry.toNat < 2 ^ 48) && l.param.toNat % 8 == 0 && l.vec.toNat % 64 == 0 &&
    decide (1 ≤ l.gang) && decide (l.gang ≤ 4) && decide (1 ≤ l.ngang) && decide (l.prio < 8) && decide (1 ≤ l.wgsize) &&
    decide (l.wgsize ≤ 2048) && decide (16 ≤ l.regs) && decide (l.regs ≤ 128) && l.regs % 8 == 0 && decide (fld r 33 1 < 8) &&
    (!l.debug || rights) && decide (l.stk ≤ 256) && decide (1 ≤ l.csaCount) && decide (l.csaCount ≤ 128) &&
    ((l.podn == 0) == (l.podkey == 0)) && decide (l.podn ≤ 64) && !(l.podn == 0 && podDecl l.incdecl != 0) &&
    zeros r 54 2 && zeros r 88 40 && l.csa.toNat % 65536 == 0 && l.csaSlot % 65536 == 0 && l.csaHoff % 65536 == 0 &&
    decide (l.hwPart ≤ l.csaHoff) && decide (l.csaHoff ≤ l.csaSlot) && l.cpl.toNat % 8 == 0)

/-- The gang fits no empty quad, or the launch needs too many workgroups (R21, R23). -/
def recLimit (l : Launch) : Bool :=
  decide (2 ^ 31 < l.ngang * l.gang) || decide (131072 < l.wgsize * l.regs) || decide (0x3C000 < l.scratch) ||
    decide (2 ^ 22 < l.vaultNeed (l.wgsize * l.gang))

/-! ### The launch queue (R283, R285) -/

/-- The head of a function's launch queue: base, slots and HEAD; none of an empty ring or one that is not placed. -/
def State.lqHead (s : State) (p fn : Nat) : Option (Nat × Nat × Nat) :=
  let f := s.fn (fnKey p fn)
  match ringOf f.lqbase f.lqctl 4 3 with
  | none => none
  | some (base, n) =>
    let tail := s.devRead p (base + 128 * n) 8
    let head := s.devRead p (base + 128 * n + 8) 8
    if tail = head then none else some (base, n, head)

/-- The record at the head. -/
def State.lqRecord (s : State) (p : Nat) (h : Nat × Nat × Nat) : List Byte := s.devBytes p (h.1 + 128 * (h.2.2 % h.2.1)) 128

/-- HEAD advances past the record. -/
def State.lqNext (s : State) (p : Nat) (h : Nat × Nat × Nat) : State :=
  s.devWord p (h.1 + 128 * h.2.1 + 8) (BitVec.ofNat 64 (h.2.2 + 1))

/-- The winner of a contest among (priority, queue number) pairs (R289): the highest priority, and then the first number
after LASTWIN, wrapping from 256 to 0. -/
def contest (lastwin : List Nat) (l : List (Nat × Nat)) : Option (Nat × Nat) :=
  let turn (x : Nat × Nat) : Nat := (x.2 + 256 - lastwin.getD x.1 256) % 257
  l.foldl (fun m x => match m with
    | none => some x
    | some y => if y.1 < x.1 || (x.1 == y.1 && decide (turn x < turn y)) then some x else some y) none

/-- A winner is remembered. -/
def State.won (s : State) (p : Nat) (x : Nat × Nat) : State := s.modPkg p fun g => { g with lastwin := lset g.lastwin x.1 x.2 }

/-- Functions of a package that hold state. -/
def State.fnsOf (s : State) (p : Nat) : List Nat := (s.fns.filter fun (k, _) => k / 257 == p).map fun (k, _) => k % 257

/-- Functions whose launch queue offers its head, with its priority. -/
def State.lqOffers (s : State) (p : Nat) : List (Nat × Nat) :=
  (s.fnsOf p).filterMap fun q =>
    let f := s.fn (fnKey p q)
    if f.d3 || f.flr || f.held.isSome || f.podReg == .waiting then none
    else (s.lqHead p q).map fun h => (bits (fld (s.lqRecord p h) 29 1) 2 0, q)

/-! ### Accesses of acceptance (R285) -/

/-- Translate eight bytes for a function. -/
def State.recPlace (s : State) (p fn : Nat) (a : W64) (want : Want) : Res :=
  if 2 ^ 48 ≤ a.toNat then .refuse 0x01 a
  else
    match s.walk p fn a.toNat with
    | .absent => .absent a.toNat
    | .bad => .refuse 0x06 a
    | .leaf e lg => s.placeOf p a want e lg

/-- The parameter block: its words, a refusal, or an absent page. -/
inductive Params where
  | ok (l : List W32)
  | bad
  | absent (va : Nat)
  deriving DecidableEq, Repr, Inhabited

/-- Read `n` double words from an address up, each at its home. -/
def State.readParams (s : State) (p fn : Nat) (a : W64) : Nat → Params
  | 0 => .ok []
  | n + 1 =>
    match s.recPlace p fn a { r := true } with
    | .absent va => .absent va
    | .refuse _ _ => .bad
    | .ok pl =>
      if pl.void || s.isPoisoned pl.loc 8 then .bad
      else
        match s.readParams p fn (a + 8) n with
        | .ok l => .ok ((readWord s.mem (pl.loc / 8)).setWidth 32 :: (readWord s.mem (pl.loc / 8) >>> 32).setWidth 32 :: l)
        | .bad => .bad
        | .absent va => .absent va

/-- The completion word's place: none when CPL is 0. -/
inductive Cpl where
  | no
  | ok (p : Place)
  | bad
  | absent (va : Nat)
  deriving DecidableEq, Repr, Inhabited

def State.findCpl (s : State) (p fn : Nat) (a : W64) : Cpl :=
  if a = 0 then .no
  else if a.toNat % 8 ≠ 0 then .bad
  else
    match s.recPlace p fn a { w := true } with
    | .absent va => .absent va
    | .refuse _ _ => .bad
    | .ok pl => if pl.void then .bad else .ok pl

/-- Write a completion word. -/
def State.putCpl (s : State) (c : Cpl) (v : W64) : State :=
  match c with
  | .ok pl => s.homeStore pl.loc 8 v { repl := pl.repl }
  | .no => s
  | .bad => s
  | .absent _ => s

/-- LAUNCHID and STATUS in a completion word. -/
def cplWord (lid : W32) (status : Nat) : W64 := BitVec.ofNat 64 (lid.toNat + status * 2 ^ 32)

/-! ### The pod sequencer (R285, R286) -/

/-- Register a launch of a package under its key, when the sequencer grants it. -/
def State.register (s : State) (p : Nat) (l : Launch) : Option State :=
  match s.podOf l.podkey with
  | none => some { s with pods := s.pods ++ [{ key := l.podkey, podn := l.podn, decl := podDecl l.incdecl, pkgs := [p] }] }
  | some e =>
    if e.podn ≤ e.pkgs.length || e.pkgs.contains p || e.podn != l.podn || e.decl != podDecl l.incdecl then none
    else some { s with pods := s.pods.map fun (x : PodLaunch) => if x.key == l.podkey then { x with pkgs := x.pkgs ++ [p] } else x }

/-- A granted registration whose record was never accepted is given back. -/
def State.unregister (s : State) (p : Nat) (key : W64) : State :=
  let pods := s.pods.map fun (x : PodLaunch) => if x.key == key then { x with pkgs := x.pkgs.filter (· != p) } else x
  { s with pods := pods.filter fun x => !x.pkgs.isEmpty }

/-- Forget the registration of a function's head, which was not accepted. -/
def State.dropReg (s : State) (p fn : Nat) : State :=
  let s := match (s.fn (fnKey p fn)).podReg with
    | .granted k => s.unregister p k
    | .none => s
    | .waiting => s
    | .denied => s
  s.modFn (fnKey p fn) fun f => { f with podReg := .none }

/-- POD_REGISTER_ANSWER: the sequencer answers a waiting registration. -/
def execPodRegisterAnswer (pkg fn : Nat) (s : State) : Host.Outcome State Fault Refusal :=
  let fk := fnKey pkg fn
  if (s.fn fk).podReg != .waiting then .next s
  else
    match s.lqHead pkg fn with
    | none => .next (s.modFn fk fun f => { f with podReg := .none })
    | some h =>
      let l := recLaunch (s.lqRecord pkg h)
      match s.register pkg l with
      | none => .next (s.modFn fk fun f => { f with podReg := .denied })
      | some s => .next (s.modFn fk fun f => { f with podReg := .granted l.podkey })

/-! ### Acceptance (R285, R286) -/

/-- The record ends at acceptance. -/
def State.refuseRec (s : State) (p fn : Nat) (h : Nat × Nat × Nat) (c : Cpl) (status : Nat) : State :=
  let s := ((s.putCpl c (cplWord 0 status)).dropReg p fn).lqNext p h
  s.post p { fn := fn, ty := 0x02, value := cplWord 0 status }

/-- The record becomes launch context `num`, and its gangs enter the placement queue. -/
def State.acceptRec (s : State) (p fn num : Nat) (h : Nat × Nat × Nat) (l : Launch) (params : List W32) (c : Cpl) : State :=
  let lid := BitVec.ofNat 32 (256 * ((s.pkg p).accCount % 2 ^ 24) + num)
  let s := s.modPkg p fun g => { g with accCount := g.accCount + 1 }
  let ck := ctxKey p num
  let x : Ctx := { fn := fn, launchid := lid, launch := l, params := params,
                   cplAt := (match c with | .ok pl => some pl.loc | .no => none | .bad => none | .absent _ => none),
                   cplRepl := (match c with | .ok pl => pl.repl | .no => none | .bad => none | .absent _ => none) }
  let s := { s with ctxs := tset s.ctxs ck x, homes := tdel s.homes ck }
  let s := (s.putCpl c (cplWord lid 0xFF)).lqNext p h
  s.modFn (fnKey p fn) fun f => { f with place := f.place ++ [.fresh ck 0], podReg := .none }

/-- An absent page holds the record at the head of its queue, with a fault record of kind 4. -/
def State.holdRec (s : State) (p fn va : Nat) : State :=
  (s.modFn (fnKey p fn) fun f => { f with held := some va }).faultOn p 0 0xFFFF fn 0 va .engine

/-- What taking a record does: wait, be registered, be refused, or become a launch. The first part of the answer tells whether the
record has left its queue. -/
def State.takeRec (s : State) (p fn num : Nat) (h : Nat × Nat × Nat) : Bool × State :=
  let r := s.lqRecord p h
  let f := s.fn (fnKey p fn)
  let l := recLaunch r
  let code := if recBad r (f.priv.getLsbD 0) then 1 else if recLimit l then 5 else 0
  let par := if code = 0 then s.readParams p fn l.param 32 else .bad
  let c := s.findCpl p fn l.cpl
  match c, par with
  | .absent va, _ => (false, s.holdRec p fn va)
  | c, .absent va => if c == .bad then (true, s.refuseRec p fn h c 1) else (false, s.holdRec p fn va)
  | c, .bad => (true, s.refuseRec p fn h c (max code 1))
  | c, .ok params =>
    if c == .bad then (true, s.refuseRec p fn h c 1)
    else if l.podn = 0 then (true, s.acceptRec p fn num h l params c)
    else
      match f.podReg with
      | .granted k =>
        if k == l.podkey then (true, s.acceptRec p fn num h l params c) else (false, s.dropReg p fn)
      | .denied => (true, s.refuseRec p fn h c 1)
      | .none => (false, s.modFn (fnKey p fn) fun f => { f with podReg := .waiting })
      | .waiting => (false, s)

/-- The lowest free launch context of a package (01_machine R24). -/
def State.freeCtx (s : State) (p : Nat) : Option Nat :=
  (List.range Config.ctxsPerPkg).find? fun n => (tfind s.ctxs (ctxKey p n)).isNone

/-- The package has come through boot (24_host R365). -/
def Pkg.ready (g : Pkg) : Bool := g.bootst.toNat % 256 == 6

/-- LAUNCH_ACCEPT: with a context free, the queue that the contest chooses gives its head. -/
def execLaunchAccept (pkg : Nat) (s : State) : Host.Outcome State Fault Refusal :=
  if !(s.pkg pkg).ready then .next s
  else
    match s.freeCtx pkg, contest (s.pkg pkg).lastwin (s.lqOffers pkg) with
    | some num, some w =>
      (match s.lqHead pkg w.2 with
       | none => .next s
       | some h =>
         match s.takeRec pkg w.2 num h with
         | (gone, t) => .next (if gone && decide (1 < (s.lqOffers pkg).length) then t.won pkg w else t))
    | _, _ => .next s

/-! ### Launch events (R297) -/

/-- Remove the first event of a function. -/
def dropEvent (fn : Nat) : List Event → List Event
  | [] => []
  | e :: r => if e.fn = fn then r else e :: dropEvent fn r

/-- LAUNCH_EVENT_POST: the oldest waiting launch event of a function is written once its queue has room. -/
def execLaunchEventPost (pkg fn : Nat) (s : State) : Host.Outcome State Fault Refusal :=
  match (s.pkg pkg).events.find? fun e => e.fn == fn with
  | none => .next s
  | some e =>
    match s.putEvent pkg e with
    | none => .next s
    | some s => .next (s.modPkg pkg fun g => { g with events := dropEvent fn g.events })

/-! ### What a launch still has -/

/-- Continuation records of a launch: in deques, gathered, or in transit (R287). -/
def State.hasRecords (s : State) (p : Nat) (lid : W32) : Bool :=
  s.cores.any fun (k, c) => k / 640 == p &&
    (c.deque.any (fun e => e.launchid == lid) ||
     (match c.gathered with | some g => g.recs.any fun e => e.launchid == lid | none => false) ||
     (match c.transit with | some t => t.recs.any fun e => e.launchid == lid | none => false))

/-- A placement entry belongs to a context. -/
def State.entryOf (s : State) (ck : Nat) (e : PlaceEnt) : Bool :=
  match e with
  | .fresh x _ => x == ck
  | .back g => (s.gang g).ctx == ck

/-- The launch has gangs that wait for placement. -/
def State.hasPlace (s : State) (ck : Nat) : Bool :=
  (s.fn (fnKey (ck / 256) (s.ctx ck).fn)).place.any (s.entryOf ck)

/-- Workgroups of a context. -/
def State.wgsIn (s : State) (ck : Nat) : List Nat := (s.wgs.filter fun (_, w) => w.ctx == ck).map (·.1)

/-! ### Tag waits (13_memory_instr R238) -/

/-- Tag waits of a launch that stand at a home. -/
def State.tagWaits (s : State) (p : Nat) (lid : W32) : List Access :=
  s.accs.filter fun a => a.pkg == p && a.launchid == lid && a.kind.waitsTag && a.arrived.isSome && !a.performed

/-- Some are abandoned: one event for each word, in the name of its oldest waiter. -/
def State.abandon (s : State) (l : List Access) : List Nat → State
  | [] => { s with accs := s.accs.filter fun a => !(l.any fun b => b.id == a.id) }
  | w :: r =>
    match l.find? fun a => a.loc / 8 == w with
    | none => s.abandon l r
    | some a => (s.wgEvent (a.thr / 2048) 0x0C (a.thr % 2048) a.pc a.addr).abandon l r

/-- Access with the earlier arrival first. -/
def insArrival (a : Access) : List Access → List Access
  | [] => [a]
  | b :: r => if a.arrived.getD 0 < b.arrived.getD 0 then a :: b :: r else b :: insArrival a r

/-- TAG_WAIT_ABANDON: the launch has no thread left and no command; its tag waits end without effect. -/
def execTagWaitAbandon (pkg ctx : Nat) (s : State) : Host.Outcome State Fault Refusal :=
  let ck := ctxKey pkg ctx
  let lid := (s.ctx ck).launchid
  if 256 ≤ ctx || (tfind s.ctxs ck).isNone || !s.launchIdle ck || s.hasPlace ck || s.hasRecords pkg lid ||
      s.cmds.any (fun c => c.ctx == ck) then .next s
  else
    let l := (s.tagWaits pkg lid).foldl (fun r a => insArrival a r) []
    .next (s.abandon l (distinct (l.map fun a => a.loc / 8)))

/-! ### Completion (R287) -/

/-- An access keeps its launch open: a store, atomic or tag operation that has not been performed, or that waits for its tag. A load whose
thread has ended leaves nothing (09_control R177). -/
def Access.keepsOpen (a : Access) : Bool :=
  !a.unbacked &&
  (match a.kind with
   | .load => false
   | .tagRead => false
   | .ldfe => !a.performed
   | .atom _ _ _ => !a.performed
   | .acas _ => !a.performed
   | .store => true
   | .stfe => true
   | .tagFill => true
   | .tagEmpty => true)

/-- Every condition for completion holds (R21, R224, R238, R258, R269, R287): gangs and gathered workgroups have retired, commands have
completed, no record remains, parked stores have been performed, tag waits resolved, checks ended; and the stores of the launch stand in
every die of its package, since completion is a release of them at `.pkg` (R224). -/
def State.launchDone (s : State) (p ck : Nat) : Bool :=
  let c := s.ctx ck
  !s.hasPlace ck && (s.gangs.all fun (_, g) => g.ctx != ck || g.st == .retired) && !s.hasRecords p c.launchid &&
    (s.cmds.all fun x => x.ctx != ck) && (s.accs.all fun a => !(a.pkg == p && a.launchid == c.launchid && a.keepsOpen)) &&
    ((s.wgsIn ck).all fun k => (s.tidsOf k).all fun i => (s.thr (thrKey k i)).park.isNone) &&
    ((s.pkg p).checks.all fun x => x.ctx != ck) && s.notices.all fun n => n.pkg != p || n.launch != c.launchid

/-- The function's reset ends with its last launch (24_host R366): its register block is cleared and its translations go. -/
def State.settleFlr (s : State) (p fn : Nat) : State :=
  let fk := fnKey p fn
  if (s.fn fk).flr && s.ctxs.all fun (k, c) => !(k / 256 == p && c.fn == fn) then
    ((s.dropReg p fn).modFn fk fun f => { priv := f.priv }).tlbRemove p fk [0, 1, 2, 3] none
  else s

/-- A launch of a pod launch has completed: with the last one the key is free again (R285). -/
def State.podOver (s : State) (p : Nat) (l : Launch) : State :=
  if l.podn = 0 then s
  else
    let pods := s.pods.map fun (x : PodLaunch) => if x.key == l.podkey then { x with done := x.done ++ [p] } else x
    { s with pods := pods.filter fun x => x.done.length < x.podn }

/-- Everything of a launch context goes, its queued forwarding messages too (07_lanes R138). Its home registers are free, and keep what they
hold until a launch takes the context (04_registers R79, 20_prog_tour R316). -/
def State.freeCtxAll (s : State) (p ck : Nat) : State :=
  let c := s.ctx ck
  let fk := fnKey p c.fn
  let ws := s.wgsIn ck
  let keep (m : FMsg) : Bool := m.launchid != c.launchid
  { s with
    ctxs := tdel s.ctxs ck,
    homes := tset s.homes ck c.incs,
    accs := s.accs.filter (fun a => !(a.pkg == p && a.launchid == c.launchid)),
    gangs := s.gangs.filter (fun (_, g) => g.ctx != ck),
    wgs := s.wgs.filter (fun (_, w) => w.ctx != ck),
    threads := s.threads.filter (fun (k, _) => !ws.contains (k / 2048)),
    sillage := s.sillage.filter (fun m => m.ctx != ck),
    fwds := s.fwds.filter (fun m => !(m.core / 640 == p && !keep m.msg)),
    cores := s.cores.map (fun (k, x) =>
      if k / 640 = p then (k, { (if x.binds.any fun b => b.ctx == ck then x.unbind ck fk else x) with fwd := x.fwd.map fun q => q.filter keep })
      else (k, x)),
    units := s.units.map fun (k, x) => if k / 516 = p then (k, { x with binds := x.binds.filter fun b => b.ctx != ck }) else (k, x) }

/-- LAUNCH_COMPLETE: the completion word, the launch event, and the context is free. -/
def execLaunchComplete (pkg ctx : Nat) (s : State) : Host.Outcome State Fault Refusal :=
  let ck := ctxKey pkg ctx
  if 256 ≤ ctx || (tfind s.ctxs ck).isNone || !s.launchDone pkg ck then .next s
  else
    let c := s.ctx ck
    let v := cplWord c.launchid (if c.aborting then 6 else 0)
    let s := match c.cplAt with
      | some l => s.homeStore l 8 v { repl := c.cplRepl }
      | none => s
    let s := (s.post pkg { fn := c.fn, ty := 0x02, launchid := c.launchid, value := v }).lastOffers ck
    .next (((s.freeCtxAll pkg ck).podOver pkg c.launch).settleFlr pkg c.fn)

/-! ### Abort (R287) -/

/-- Unformed collectives of a launch end (14_engines R258). -/
def State.endUnformed (s : State) (ck : Nat) : State :=
  (s.cmds.filter fun c => c.ctx == ck && !c.finished && isGroup c.kind c.raw && !s.inColl c.id).foldl
    (fun s c => s.endCmd c.id 6 false) s

/-- A saved gang is discarded where it stands: its threads leave the residue of a cancellation, and commands that need its lost
allocations end. -/
def State.discardSaved (s : State) (gk : Nat) : State :=
  let g := s.gang gk
  let s := { s with cmds := s.cmds.map fun (c : Cmd) => if c.gang == gk then { c with parked := none } else c }
  let s := (s.cmds.filter fun c => c.gang == gk && !c.finished && c.touches).foldl (fun s c => s.endCmd c.id 6 false) s
  let s := g.members.foldl (fun s k =>
    let s := (s.liveTids k).foldl (fun s i =>
      (s.modThr (thrKey k i) fun t => { t with park := t.savedPark.map fun q => { q with rewalk := true } }).cancelThread k i) s
    s.modWg k fun w => { w with scrSize := 0 }) s
  s.modGang gk fun g => { g with st := .running, stk := 0, vaultSize := 0 }

/-- Continuation records of a launch are discarded. -/
def State.dropRecords (s : State) (p : Nat) (lid : W32) : State :=
  let keep (e : DqEnt) : Bool := e.launchid != lid
  let s := s.mapCores p fun c => { c with
    gathered := (match c.gathered with | some g => if g.recs.all keep then some g else none | none => none),
    transit := (match c.transit with | some t => if t.recs.all keep then some t else none | none => none) }
  (s.cores.filter fun (k, c) => k / 640 == p && !c.deque.all keep).foldl (fun s (k, c) => s.setDeque k (c.deque.filter keep)) s

/-- The second step of an abort: once no thread of the launch is left, its records go. -/
def State.dropAborted (s : State) (ck : Nat) : State :=
  let c := s.ctx ck
  if c.aborting && (s.wgsIn ck).all (fun k => (s.liveTids k).isEmpty) then s.dropRecords (ck / 256) c.launchid else s

/-- A gang that was pre-empted for a waiting head stays behind it (R290). -/
def State.waitsBehind (s : State) (p : Nat) (e : PlaceEnt) : Bool :=
  match e with
  | .fresh _ _ => false
  | .back g => s.fns.any fun (k, f) => k / 257 == p && f.emptied.contains g

/-- The head of a function's placement queue. -/
def State.placeHead (s : State) (p fn : Nat) : Option PlaceEnt :=
  (s.fn (fnKey p fn)).place.find? fun e => !s.waitsBehind p e

/-- Gangs of an aborted launch that wait for placement go. With a head that waits, its waiting time and the gangs emptied for it end. -/
def State.dropPlace (s : State) (p ck : Nat) : State :=
  let fn := (s.ctx ck).fn
  let head : Bool := match s.placeHead p fn with | some e => s.entryOf ck e | none => false
  s.modFn (fnKey p fn) fun f =>
    let f := { f with place := f.place.filter fun e => !s.entryOf ck e }
    if head then { f with since := none, emptied := [] } else f

/-- Abort a launch: unplaced gangs go, standing ones are marked to be discarded, saved ones are discarded, then its records, and unformed
collectives and checks end. The rest completes as usual. -/
def State.abortLaunch (s : State) (ck : Nat) : State :=
  let p := ck / 256
  let c := s.ctx ck
  if c.aborting then s
  else
    let s := s.modCtx ck fun c => { c with aborting := true }
    let s := s.dropPlace p ck
    let s := (s.gangs.filter fun (_, g) => g.ctx == ck).foldl (fun s (k, g) =>
      match g.st with
      | .running => s.mark k true
      | .preempted => s.discardSaved k
      | .retired => s) s
    let s := (s.dropAborted ck).endUnformed ck
    s.modPkg p fun g => { g with checks := g.checks.filter fun x => x.ctx != ck }

/-- The host names a LAUNCHID of one of the function's launches. -/
def State.abortId (s : State) (p fn : Nat) (lid : W32) : State :=
  match s.ctxs.find? fun (k, c) => k / 256 == p && c.fn == fn && c.launchid == lid with
  | some (k, _) => s.abortLaunch k
  | none => s

/-- Every launch of a function. -/
def State.abortFn (s : State) (p fn : Nat) : State :=
  ((s.ctxs.filter fun (k, c) => k / 256 == p && c.fn == fn).map (·.1)).foldl State.abortLaunch s

end Sys2Proof.Machine
end

