-- ==== Sys2Proof/Machine/Preempt.lean ====
section
/-! DEFINITION. Pre-emption: the acknowledgements of the engine classes, the save of a gang, its release of the cores and its
return (18_queues R300 to R303, 21_tables R328, 04_registers R81, R84, R88). -/

namespace Sys2Proof.Machine

/-! ### Acknowledgements (21_tables R328) -/

/-- Engine classes by number, in the order of the granularity table. -/
def classOf (n : Nat) : Option EClass := [EClass.issue, .plane, .copy, .atomiser, .loop, .accord, .headspace][n]?

/-- Live threads of a gang, as keys. -/
def State.gangThreads (s : State) (gk : Nat) : List Nat :=
  (s.gang gk).members.flatMap fun k => (s.liveTids k).map (thrKey k)

/-- The cores of a gang. -/
def State.gangCores (s : State) (gk : Nat) : List Nat := (s.gang gk).members.map fun k => (s.wg k).ckey

/-- An access has been served, or waits for its tag and is withdrawn (13_memory_instr R237). -/
def Access.settled (a : Access) : Bool :=
  if a.kind.waitsTag && !a.performed then true else a.performed && (a.done || !a.kind.returns)

/-- The thread stands behind an LDFE or STFE of its own that waits at its home for the tag, and its wait is the order of that word, which
is withdrawn with it. -/
def State.tagBound (s : State) (k : Nat) : Bool :=
  s.accs.any fun a => a.thr == k && a.kind.waitsTag && !a.performed && a.pc + 8 == (s.thr k).pc

/-- A scoreboard wait that does not outlast the stop: it ends first (R237, 13_memory_instr R235), unless it waits for the plane queue, or
for a tag that is withdrawn with the word. A fence behind such a word waits for it (assumption 89). -/
def State.holdEnds (s : State) (k : Nat) : Bool :=
  match (s.thr k).hold with
  | .none => false
  | .scPre _ => true
  | .plane _ => false
  | .acq _ => !s.tagBound k
  | .scPost _ => !s.tagBound k
  | .tlbinv ids => !(s.accs.any fun a => ids.contains a.id && a.kind.waitsTag && !a.performed)
  | .icflush _ => true
  | .link _ => true
  | .peer _ => true
  | .cb _ => true

/-- A live thread of the gang keeps the issue class from acknowledging: it runs its own handler, or what it has issued is not over. -/
def State.issueBusy (s : State) (k : Nat) : Bool :=
  let t := s.thr k
  (t.handler && !t.halted) || s.holdEnds k || t.fences

/-- What a thread of the gang has issued is not over, though it may have ended: an access (R237), or an LWAKE (22_links R343). -/
def State.leftBusy (s : State) (k : Nat) : Bool :=
  (s.accs.any fun a => a.thr == k && !a.settled) ||
    s.fibres.any fun (_, f) => match f.wake with | some (_, ks, _) => ks.contains k | none => false

/-- A CBLOAD of the gang has not had its bytes. -/
def State.readsTable (s : State) (gk : Nat) : Bool :=
  (s.gang gk).members.any fun k =>
    (s.core (s.wg k).ckey).pq.any fun o => o.wg == k && o.kind == .cbload && o.data.isNone

/-- All threads of a gang, ended ones too, as keys. -/
def State.gangAll (s : State) (gk : Nat) : List Nat := (s.gang gk).members.flatMap fun k => (s.tidsOf k).map (thrKey k)

/-- Threads of a gang that owe a WATCH trap, which they take at this boundary (10_trap_state R185). -/
def State.owesWatch (s : State) (wk : Nat) : List (Nat × TrapInfo) :=
  (s.liveTids wk).filterMap fun i =>
    let t := s.thr (thrKey wk i)
    match t.watch with
    | some a => if t.halted then none else some (i, { cause := .watch, pc := t.pc, addr := a })
    | none => none

/-- The WATCH traps that a gang's threads owe, fragment by fragment. -/
def State.takeWatches (s : State) (gk : Nat) : State :=
  (s.gang gk).members.foldl (fun s wk =>
    let owed := s.owesWatch wk
    let frs := s.fragments wk (owed.map Prod.fst) []
    frs.foldl (fun s fr =>
      (s.modTids wk fr fun t => { t with watch := none }).trap wk (owed.filter fun x => fr.contains x.1)) s) s

/-- A member of the gang is single-stepped, and its word has not completed. -/
def State.gangSteps (s : State) (gk : Nat) : Bool :=
  (s.gang gk).members.any fun k =>
    match (s.core (s.wg k).ckey).stepping with
    | some x => x.wg == k
    | none => false

/-- The issue class withdraws the tag waits, which are replayed on resume. -/
def State.withdrawTags (s : State) (ks : List Nat) : State :=
  { s with accs := s.accs.map fun a => if ks.contains a.thr && !a.performed then { a with arrived := none } else a }

/-- The product at the head of a plane queue stops after some of its steps, which and how many nothing decides (assumption 2);
both halves of a paired one keep in step. -/
def State.stopPlane (s : State) (gk ck : Nat) : State :=
  match (s.core ck).pq with
  | [] => s
  | o :: _ =>
    let (n, s) := s.draw
    let left := tdSteps o.ta - o.step
    let run := Config.freeChoice n % (max left 1)
    if (o.kind != .mma && o.kind != .mmac) || o.role = 2 || (s.wg o.wg).gang != gk || (s.pkg (ck / 640)).paused then s
    else
      let on (s : State) (o : PlaneOp) : State :=
        s.modCore (s.wg o.wg).ckey fun c => { c with pq := c.pq.map fun (x : PlaneOp) =>
          if x.id == o.id then { x with step := x.step + run } else x }
      if o.role = 0 then on (s.runProduct o none run) o
      else
        match (s.core (ck + 1)).pq with
        | [] => s
        | p :: _ => if p.id = o.id then on (on (s.runProduct o (some p) run) o) p else s

/-- A channel's commands, in order, stand where a stop of the gang may leave them: the first that it holds queued at a chunk boundary, with
what it has delivered counted, and no other command before it that has to run out (R254, R257). One whose group has yet to form, or that
waits for a page, does not run. -/
def State.queueAt (s : State) (gk : Nat) : List Nat → Bool
  | [] => true
  | id :: r =>
    match s.cmd? id with
    | none => s.queueAt gk r
    | some c =>
      if c.gang == gk && c.stops then s.inColl id || (c.atEdge && c.pos == c.sent)
      else if c.gang == gk && c.runsOut && c.parked.isNone && !isGroup c.kind c.raw then false
      else s.queueAt gk r

/-- A SEND of the gang has still to read its source in an allocation that will be saved (assumption 83). -/
def Cmd.sendReads (c : Cmd) (gk : Nat) : Bool :=
  c.gang == gk && c.kind == .send && c.touches && !c.finished && c.parked.isNone && decide (c.sent < c.messages)

/-- The copy channels of a core stand where the gang may be stopped. -/
def State.copyAt (s : State) (gk ck : Nat) : Bool := (s.core ck).chans.all (s.queueAt gk)

/-- A reduce block works on a phase of a chunk of one of the gang's collectives (R254, R257). -/
def State.phaseRuns (s : State) (gk : Nat) : Bool :=
  let mine (j : RedJob) : Bool := s.colls.any fun g =>
    g.collid == j.coll && (s.collCmds g).any fun c => c.gang == gk
  s.cores.any fun (_, k) => match k.resv with | some j => mine j | none => false

/-- The nest at the head of a core's sequencer belongs to the gang and could start a step of an iteration that it has started (R328). -/
def State.loopStarts (s : State) (gk ck : Nat) : Bool :=
  match s.activeLoop ck with
  | none => false
  | some c =>
    c.gang == gk && c.parked.isNone && !c.done &&
    (match c.loop with
     | none => false
     | some l =>
       (match l.its.find? fun i => !i.planeDone && i.plane.isNone with
        | some i => i.copyDone && s.pqFree ck && !s.classStopped gk .plane
        | none => false) ||
       (match l.its.find? fun i => !i.wakeDone with
        | some i => i.copyDone && i.planeDone && !s.fillWaits c l i && !s.cmdStopped c
        | none => false))

/-- Contributions of the gang that a granted collective has still to stage: the collective and the rank. -/
def State.toStage (s : State) (gk : Nat) : List (Coll × Nat × Rank × Cmd) :=
  s.colls.flatMap fun g =>
    if !g.granted then []
    else (g.ranks.zipIdx).filterMap fun (r, q) =>
      match s.cmd? r.cmd with
      | none => none
      | some c =>
        if c.gang == gk && inSaved c.shapeRaw.src && c.shapeRaw.gives q && decide (r.data.length < c.shapeRaw.total) then
          some (g, q, r, c)
        else none

/-- No unit walks a bucket for the gang (23_index R361). -/
def State.walksFor (s : State) (gk : Nat) : Bool :=
  s.units.any fun (_, u) => u.queries.any fun q =>
    q.walking.isSome && (match s.cmd? q.cmd with | some c => c.gang == gk | none => false)

/-- A HSPUB of the gang has still to be distributed, which a stop does not pause (23_index R361); one that waits for an absent page does not
keep the gang. -/
def State.pubLeft (s : State) (gk : Nat) : Bool :=
  s.cmds.any fun c => c.gang == gk && c.kind == .hspub && !c.started && !c.finished && c.parked.isNone

/-- What a class does on a stop: whether it acknowledges, and the state. -/
def State.stopClass (s : State) (gk : Nat) (c : EClass) : Bool × State :=
  match c with
  | .issue =>
    if (s.gang gk).members.any fun k => !(s.owesWatch k).isEmpty then (false, s.takeWatches gk)
    else if s.gangSteps gk || (s.gangThreads gk).any s.issueBusy || (s.gangAll gk).any s.leftBusy || s.readsTable gk then (false, s)
    else (true, s.withdrawTags (s.gangThreads gk))
  | .plane => (true, (s.gangCores gk).foldl (fun s ck => s.stopPlane gk ck) s)
  | .copy => ((s.gangCores gk).all (s.copyAt gk) && !s.cmds.any fun c => c.sendReads gk, s)
  | .atomiser => ((s.gangCores gk).all (s.copyAt gk) && !(s.gangCores gk).any (s.loopStarts gk) && !s.phaseRuns gk, s)
  | .loop => (!(s.gangCores gk).any (s.loopStarts gk), s)
  | .accord =>
    (match s.toStage gk with
     | [] => (!s.phaseRuns gk, s)
     | (g, q, r, c) :: _ => (false, if c.parked.isSome then s else s.stage g.collid q c c.shapeRaw r c.shapeRaw.total))
  | .headspace => (!s.walksFor gk && !s.pubLeft gk, s)

/-- ENGINE_STOP_ACK: a class that serves the marked gang stops at its unit and acknowledges. -/
def execEngineStopAck (gang cls : Nat) (s : State) : Host.Outcome State Fault Refusal :=
  match classOf cls, (s.gang gang).pre with
  | some c, some p =>
    if p.acks.contains c || (s.gang gang).st != .running then .next s
    else
      (match s.stopClass gang c with
       | (false, s) => .next s
       | (true, s) => .next (s.modGang gang fun g => { g with pre := g.pre.map fun p => { p with acks := p.acks ++ [c] } }))
  | _, _ => .next s

/-! ### The save slot (R301) -/

/-- Write bytes through a function's page tables, at most 256 at a time; a part whose page refuses the write or is absent stays
unwritten (assumption 24). -/
def State.saveSpan (s : State) (p fn : Nat) (a : W64) (b : List Byte) : State :=
  (List.range ((b.length + 255) / 256)).foldl (fun s i =>
    let x := a + BitVec.ofNat 64 (256 * i)
    let part := (b.drop (256 * i)).take 256
    match s.recPlace p fn x { w := true } with
    | .ok pl =>
      if pl.void then s
      else
        (match pl.repl with
         | none => s.lay pl.loc part
         | some r => r.words.foldl (fun s w => s.lay (8 * w) part) s)
    | .refuse _ _ => s
    | .absent _ => s) s

/-- A byte that says yes or no. -/
def flagByte (b : Bool) : Byte := if b then 1 else 0

/-- The 64 bytes of a thread's block: its flow state, in an order that the model chooses (assumption 24), with eight bytes whose layout is
open for its wait and its parked word, then its trap registers. -/
def Thread.block (t : Thread) (free : List Byte) : List Byte :=
  natLe 2 t.shc ++ natLe 2 t.join.toNat ++ natLe 2 t.arrive.toNat ++ [flagByte t.handler, flagByte t.halted] ++ free ++
    natLe 8 t.trap.pc.toNat ++ natLe 8 t.trap.addr.toNat ++ natLe 4 t.trap.cause.toNat ++ natLe 4 t.trap.parent.toNat ++
    natLe 8 t.trap.sibLo.toNat ++ natLe 8 t.trap.sibHi.toNat ++ natLe 8 0

/-- The header of a slot: LAUNCHID, GANGID, the number of members and their COREIDs, in an order that the model chooses. -/
def State.slotHeader (s : State) (gk : Nat) : List Byte :=
  let g := s.gang gk
  (natLe 4 (s.ctx g.ctx).launchid.toNat ++ natLe 4 g.gangid.toNat ++ natLe 4 g.members.length ++
    (g.members.flatMap fun k => natLe 2 (s.wg k).core) ++ List.replicate 64 0).take 64

/-- What of a member's part has a width that the spec gives: its write pointers, its deque region and, of a plane kernel, its descriptors,
codebook table, AOV and poison bits, in the order of the table. -/
def SavedCore.part (x : SavedCore) (plane : Bool) : List Byte :=
  (x.wptr.flatMap fun v => natLe 8 v.toNat) ++ natLe 4 x.dqbase.toNat ++ natLe 4 x.dqlimit.toNat ++
    (if plane then
      (x.td.flatMap fun v => natLe 8 v.toNat) ++ ((List.range 256).flatMap fun i => natLe 2 (tget 0 x.cb i).toNat) ++
        natLe 1 x.aov.toNat ++ natLe 1 x.apoi.toNat
    else [])

/-- The accumulators of a member, six bytes for each element. -/
def SavedCore.accBytes (x : SavedCore) : List Byte :=
  (List.range 131072).flatMap fun i => natLe 6 ((tget 0 x.acc i) % 2 ^ 48).toNat

/-- Operations and loop nests of a member whose state goes into its part, in a form that is open. -/
def State.openParts (s : State) (k : Nat) (x : SavedCore) : Nat :=
  x.pq.length + (s.cmds.filter fun c => c.wg == k && c.kind == .loopnest && c.loop.isSome).length

/-- The base of a gang's save slot. -/
def State.slotBase (s : State) (gk slot : Nat) : W64 :=
  let l := (s.ctx (s.gang gk).ctx).launch
  l.csa + BitVec.ofNat 64 (slot * l.csaSlot)

/-- The word of a slot at an address, if the page tables lead the save engine to it. -/
def State.slotLoc (s : State) (p fn : Nat) (a : W64) (want : Want) : Option Place :=
  match s.recPlace p fn a want with
  | .ok pl => if pl.void then none else some pl
  | .refuse _ _ => none
  | .absent _ => none

/-- Words of the saved vault, by number from the first of the stacks, in the order of its image, which begins with the `.vault`
allocation. -/
def Gang.imageWords (g : Gang) : List Nat :=
  let stk := (g.vaultBase - g.stkBase) / 8
  (List.range (g.vaultSize / 8)).map (stk + ·) ++ List.range stk

/-- The poisoned words of a vault are poisoned in its slot too (R303). -/
def State.poisonSlot (s : State) (gk : Nat) (a : W64) : State :=
  let g := s.gang gk
  let fn := (s.ctx g.ctx).fn
  ((g.imageWords.zipIdx).filter fun (w, _) => g.vaultBad.contains w).foldl (fun s (_, i) =>
    match s.slotLoc g.pkg fn (a + BitVec.ofNat 64 (8 * i)) { w := true } with
    | none => s
    | some pl =>
      { s with poison := ((match pl.repl with | none => [pl.loc / 8] | some r => r.words).foldl ninsert s.poison) }) s

/-- Write bytes of a gang's slot from byte `o` on. -/
def State.slotSpan (s : State) (gk slot o : Nat) (b : List Byte) : State :=
  s.saveSpan (s.gang gk).pkg (s.ctx (s.gang gk).ctx).fn (s.slotBase gk slot + BitVec.ofNat 64 o) b

/-- Write bytes of a gang's slot, `n` of which are free. -/
def State.slotFree (s : State) (gk slot o n : Nat) (part : List Byte → List Byte) : State :=
  match s.freeBytes n with
  | (b, s) => s.slotSpan gk slot o (part b)

/-- Write the member parts. -/
def State.writeParts (s : State) (gk slot : Nat) : State :=
  let g := s.gang gk
  ((g.members.zip g.saved).zipIdx).foldl (fun s ((k, x), m) =>
    s.slotFree gk slot (65536 * (1 + m)) (64 * s.openParts k x) (x.part (s.ctx g.ctx).launch.plane ++ ·)) s

/-- Write the vault part, a word in error poisoned. -/
def State.writeVault (s : State) (gk slot : Nat) : State :=
  let o := (s.ctx (s.gang gk).ctx).launch.slotVault
  (s.slotSpan gk slot o (s.gang gk).vaultImage).poisonSlot gk (s.slotBase gk slot + BitVec.ofNat 64 o)

/-- Write the accumulator part of one member. -/
def State.writeAcc (gk slot : Nat) (s : State) (x : SavedCore × Nat) : State :=
  s.slotSpan gk slot ((s.ctx (s.gang gk).ctx).launch.slotAcc + 786432 * x.2) x.1.accBytes

/-- Write the accumulator parts of a gang that has them. -/
def State.writeAccs (s : State) (gk slot : Nat) : State :=
  if (s.ctx (s.gang gk).ctx).launch.plane then ((s.gang gk).saved.zipIdx).foldl (State.writeAcc gk slot) s else s

/-- Write the thread blocks. -/
def State.writeThreads (s : State) (gk slot : Nat) : State :=
  let l := (s.ctx (s.gang gk).ctx).launch
  ((s.gang gk).members.zipIdx).foldl (fun s (k, m) =>
    (s.tidsOf k).foldl (fun s i =>
      s.slotFree gk slot (l.slotThreads + 64 * (m * l.wgsize + i)) 8 (s.thr (thrKey k i)).block) s) s

/-- Write the hardware part of a gang's slot. -/
def State.writeSlot (s : State) (gk slot : Nat) : State :=
  ((((s.slotSpan gk slot 0 (s.slotHeader gk)).writeParts gk slot).writeVault gk slot).writeAccs gk slot).writeThreads gk slot

/-- What the save engine finds in the eight bytes of a slot at an address: nothing where it cannot read them, else the bytes and whether
they are poisoned. -/
def State.slotWord (s : State) (p fn : Nat) (a : W64) : Option (List Byte × Bool) :=
  (s.slotLoc p fn a { r := true }).map fun pl => (readBytes s.mem pl.loc 8, s.poison.contains (pl.loc / 8))

/-- A gang's vault as its slot holds it, with the poison of its words; what the save engine cannot read is as it was saved. -/
def State.slotVault (s : State) (gk : Nat) : List Byte × List Nat :=
  let g := s.gang gk
  let l := (s.ctx g.ctx).launch
  let a := s.slotBase gk (g.slot.getD 0) + BitVec.ofNat 64 l.slotVault
  let found := (g.imageWords.zipIdx).map fun (w, i) =>
    match s.slotWord g.pkg (s.ctx g.ctx).fn (a + BitVec.ofNat 64 (8 * i)) with
    | some (b, bad) => (w, b, bad)
    | none => (w, (g.vaultImage.drop (8 * i)).take 8, g.vaultBad.contains w)
  (found.flatMap fun x => x.2.1, found.filterMap fun x => if x.2.2 then some x.1 else none)

/-- The trap registers of a thread's block. -/
def trapOf (b : List Byte) : TrapRegs :=
  { pc := BitVec.ofNat 64 (fld b 0 8), addr := BitVec.ofNat 64 (fld b 8 8), cause := BitVec.ofNat 32 (fld b 16 4),
    parent := BitVec.ofNat 32 (fld b 20 4), sibLo := BitVec.ofNat 64 (fld b 24 8), sibHi := BitVec.ofNat 64 (fld b 32 8) }

/-- The trap registers of the threads of a resuming gang, as its slot holds them; a word in error has free bytes, and a block that the save
engine cannot read stands as it was saved (assumption 24). -/
def State.slotTraps (s : State) (gk : Nat) : State :=
  let g := s.gang gk
  let l := (s.ctx g.ctx).launch
  let a := s.slotBase gk (g.slot.getD 0)
  (g.members.zipIdx).foldl (fun s (k, m) =>
    (s.liveTids k).foldl (fun s i =>
      let words := (List.range 5).map fun j =>
        s.slotWord g.pkg (s.ctx g.ctx).fn (a + BitVec.ofNat 64 (l.slotThreads + 64 * (m * l.wgsize + i) + 16 + 8 * j))
      match s.freeBytes 40 with
      | (b, s) =>
        if words.any Option.isNone then s
        else
          let bytes := (words.zipIdx).flatMap fun (w, j) =>
            match w with
            | some (x, false) => x
            | _ => (b.drop (8 * j)).take 8
          s.modThr (thrKey k i) fun t => { t with saved := trapOf bytes }) s) s

/-- The part of a core that belongs to a member (R301). -/
def State.coreOf (s : State) (k : Nat) : SavedCore :=
  let w := s.wg k
  let c := s.core w.ckey
  let x : SavedCore := { wptr := c.wptr, dqbase := c.dqbase, dqlimit := c.dqlimit }
  if (s.launchOf w).plane then
    { x with td := c.td, pq := (c.pq.filter fun o => o.wg == k).map fun (o : PlaneOp) => { o with old := [] },
             cb := c.cb, aov := c.aov, apoi := c.apoi, acc := c.acc }
  else x

/-- Words of a span, counted from its first, that are in a list. -/
def wordsIn (l : List Nat) (loc n : Nat) : List Nat :=
  (l.filter fun w => decide (loc ≤ 8 * w) && decide (8 * w < loc + n)).map fun w => w - loc / 8

/-- A gang's vault as it stands: its `.vault` allocation, then its stacks, and the tags and poison of their words, counted from the
first of the stacks. -/
def State.saveVault (s : State) (gk : Nat) : State :=
  let g := s.gang gk
  let at' := locVault g.pkg g.quad g.stkBase
  let stk := g.vaultBase - g.stkBase
  let img := readBytes s.mem (locVault g.pkg g.quad g.vaultBase) g.vaultSize ++ readBytes s.mem at' stk
  s.modGang gk fun g =>
    { g with vaultImage := img, vaultTags := wordsIn s.empties at' (stk + g.vaultSize),
             vaultBad := wordsIn s.poison at' (stk + g.vaultSize) }

/-! ### Entering the handlers (R300, R302) -/

/-- A thread's wait, word and halt go into the hardware part. -/
def Thread.stow (t : Thread) : Thread :=
  { t with saved := t.trap, savedPc := t.pc, savedWait := t.wait, savedPark := t.park, savedHold := t.hold,
           savedHalt := t.halted, savedHandler := t.handler, savedShc := t.shc, savedJoin := t.join, savedArrive := t.arrive,
           wait := .none, park := none, hold := .none, halted := false }

/-- The live threads of a workgroup trap with PREEMPT. -/
def State.preemptAll (s : State) (k detail : Nat) (p : PreT) : State :=
  let vec := (s.launchOf (s.wg k)).vec
  let now := s.clockOf (s.wg k).pkg
  (s.fragments k (s.liveTids k) []).foldl (fun s fr =>
    let sib := s.sibMask k fr
    s.modTids k fr fun t =>
      { t.enter { cause := .preempt, detail := detail, pc := t.pc } vec sib false with pre := p, since := now }) s

/-- The thread is cancelled at the boundary where it would take PREEMPT (R303). -/
def State.strikeAt (s : State) (wk tid : Nat) : Bool :=
  let t := s.thr (thrKey wk tid)
  t.live && !t.halted && !t.handler && t.shc == 0 && s.dominated wk t

/-- A gang that is discarded: its live threads are cancelled, and its collectives that have not formed end. -/
def State.discardGang (s : State) (gk : Nat) : State :=
  let g := s.gang gk
  let s := g.members.foldl (fun s k => s.cancelAll k (s.liveTids k)) s
  ((s.endUnformed g.ctx).modGang gk fun g => { g with pre := none }).dropAborted g.ctx

/-- The save of a gang, once every class has acknowledged. -/
def State.saveGang (s : State) (gk slot : Nat) : State :=
  let ms := (s.gang gk).members
  let s := ms.foldl (fun s k => s.cancelAll k ((s.liveTids k).filter (s.strikeAt k))) s
  let s := s.saveVault gk
  let s := s.modGang gk fun g => { g with saved := ms.map s.coreOf }
  let s := s.writeSlot gk slot
  let s := ms.foldl (fun s k => (s.preemptAll k (slot % 128) .saving)) (ms.foldl (fun s k => s.modTids k (s.liveTids k) Thread.stow) s)
  s.modGang gk fun g => { g with pre := g.pre.map fun p => { p with hwSaved := true } }

/-- HARDWARE_SAVE. -/
def execHardwareSave (gang : Nat) (s : State) : Host.Outcome State Fault Refusal :=
  let g := s.gang gang
  match g.pre with
  | none => .next s
  | some p =>
    if p.hwSaved || p.acks.length < 7 || g.st != .running then .next s
    else if p.discard then .next (s.discardGang gang)
    else
      match g.slot with
      | none => .next s
      | some slot => .next (s.saveGang gang slot)

/-! ### Freeing (R300) -/

/-- The thread has issued the RTE of its save handler, and its stores have been performed. -/
def State.savedOut (s : State) (k : Nat) : Bool :=
  (s.thr k).pre == .saved && (s.thr k).hold == .none &&
    s.accs.all fun a => a.thr != k || (a.kind.waitsTag && !a.performed) || (a.performed && (a.done || !a.kind.returns))

/-- A gang leaves its cores and re-enters the front of its placement queue. -/
def State.leaveGang (s : State) (gk : Nat) : State :=
  let g := s.gang gk
  let s := (s.gangCores gk).foldl (fun s ck => s.modCore ck fun c =>
    { c with pq := c.pq.filter fun o => !g.members.contains o.wg }) s
  let s := (s.freeGang gk).modGang gk fun g => { g with st := .preempted, pre := none }
  s.modFn (fnKey g.pkg (s.ctx g.ctx).fn) fun f => { f with place := .back gk :: f.place, since := if f.emptied.isEmpty then none else f.since }

/-- PREEMPT_FREE: every thread of the gang has issued its RTE; the gang leaves its cores. -/
def execPreemptFree (gang : Nat) (s : State) : Host.Outcome State Fault Refusal :=
  let g := s.gang gang
  match g.pre with
  | none => .next s
  | some p =>
    if !p.hwSaved || g.st != .running then .next s
    else if p.discard then .next (s.discardGang gang)
    else if (s.gangThreads gang).all s.savedOut then .next (s.leaveGang gang)
    else .next s

end Sys2Proof.Machine
end

