-- ==== Sys2Proof/Machine/Place.lean ====
section
/-! DEFINITION. Placement: the contest of heads, placing and resuming gangs, pre-emption for a waiting head, and retirement with
Drydown's selection (18_queues R288 to R290, R302, 01_machine R20, 15_counters R266). -/

namespace Sys2Proof.Machine

/-! ### Heads (R288 to R290) -/

/-- Package and quad numbers of a die's quads. -/
def quadsOf (die : Nat) : List Nat := (List.range 40).map (40 * die + ·)

/-- The context of an entry. -/
def State.entryCtx (s : State) (e : PlaceEnt) : Nat :=
  match e with
  | .fresh x _ => x
  | .back g => (s.gang g).ctx

def State.entryPrio (s : State) (e : PlaceEnt) : Nat := (s.ctx (s.entryCtx e)).launch.prio

/-- A gang must resume on the cores it left (07_lanes R138, 14_engines R257): messages or commands of its launch remain there. A
quarantine frees it from that (15_counters R269). -/
def State.boundToCores (s : State) (gk : Nat) : Bool :=
  let g := s.gang gk
  let lid := (s.ctx g.ctx).launchid
  let cks := s.gangCores gk
  !(cks.any fun k => (s.core k).quar) &&
    cks.any fun k =>
      (s.core k).fwd.any (fun q => q.any fun m => m.launchid == lid) ||
        s.cmds.any fun c => c.ckey == k && c.ctx == g.ctx && (c.kind.copies || c.kind == .loopnest)

/-- Quads that a Drydown execution may not use: those of the gang's other executions (15_counters R268). -/
def State.usedQuads (s : State) (p : Nat) (id : Option Nat) : List Nat :=
  match id with
  | none => []
  | some i =>
    match (s.pkg p).checks.find? fun x => x.id == i with
    | none => []
    | some x => (x.cores ++ x.cores2).map fun c => c / 4

/-- Where an entry fits now. -/
def State.entryFit (s : State) (p : Nat) (e : PlaceEnt) : Option Fit :=
  match e with
  | .fresh x _ =>
    let c := s.ctx x
    if c.freeSlot.isNone then none
    else s.findFit p x (List.replicate c.launch.gang c.launch.wgsize) (List.range Config.quadsPerPkg)
  | .back gk =>
    let g := s.gang gk
    let sizes := g.members.map fun k => (s.wg k).size
    if s.boundToCores gk then s.fitQuad p g.ctx sizes (some g.cidx) g.quad
    else
      let quads := if (s.ctx g.ctx).dieBars.isEmpty then List.range Config.quadsPerPkg else quadsOf (g.quad / 40)
      s.findFit p g.ctx sizes (quads.filter fun q => !(s.usedQuads p g.check).contains q)

/-- The die has placed a gang in this I-cycle, or a core of the placement has gathered in it, which would have come after the placement
(R288, R294). -/
def State.placeBusy (s : State) (p n : Nat) (f : Fit) : Bool :=
  (s.die (dieKey p (f.quad / 40))).placed ||
    (List.range n).any fun m => (s.core (coreKey p (4 * f.quad + f.cidx + m))).dqUse == .gather

/-- Heads that may be placed now: they fit, and their die may place in this I-cycle. -/
def State.placeable? (s : State) (p : Nat) : List (Nat × Nat) :=
  (s.fnsOf p).filterMap fun q =>
    match s.placeHead p q with
    | none => none
    | some e =>
      match s.entryFit p e with
      | none => none
      | some f => if s.placeBusy p f.offs.length f then none else some (s.entryPrio e, q)

/-- The head that wins: its function with its priority, its entry, and where it goes. -/
def State.placeWinner (s : State) (p : Nat) : Option ((Nat × Nat) × PlaceEnt × Fit) :=
  match contest (s.pkg p).lastwin (s.placeable? p) with
  | none => none
  | some w =>
    match s.placeHead p w.2 with
    | none => none
    | some e => (s.entryFit p e).map fun f => (w, e, f)

/-- Heads that fit nowhere begin to wait; the others do not wait. -/
def State.noteWaits (s : State) (p : Nat) : State :=
  let now := s.clockOf p
  (s.fnsOf p).foldl (fun t q =>
    match s.placeHead p q with
    | none => t.modFn (fnKey p q) fun f => { f with since := none }
    | some e =>
      let fits := (s.entryFit p e).isSome
      t.modFn (fnKey p q) fun f =>
        { f with since := if fits then none else (match f.since with | some x => some x | none => some now) }) s

/-- The placement of a head is noted: the rotation, the die, and the end of its wait. -/
def State.placedAs (s : State) (p : Nat) (w : Nat × Nat) (f : Fit) : State :=
  ((s.won p w).modDie (dieKey p (f.quad / 40)) fun d => { d with placed := true }).modFn (fnKey p w.2) fun x =>
    { x with since := none, emptied := [] }

/-- Replace or remove the entry of a function. -/
def placeNext (e : PlaceEnt) (n : Option PlaceEnt) : List PlaceEnt → List PlaceEnt
  | [] => []
  | x :: r => if x == e then (match n with | some y => y :: r | none => r) else x :: placeNext e n r

/-- Place gang `next` of a launch. -/
def State.placeFresh (s : State) (p : Nat) (w : Nat × Nat) (x next : Nat) (f : Fit) : State :=
  let c := s.ctx x
  let l := c.launch
  let s := s.placedAs p w f
  let more : Option PlaceEnt := if next + 1 < l.ngang then some (.fresh x (next + 1)) else none
  let s := s.modFn (fnKey p w.2) fun g => { g with place := placeNext (.fresh x next) more g.place }
  (s.makeGang { pkg := p, ctx := x, gangid := BitVec.ofNat 32 next,
                wgids := (List.range l.gang).map fun m => BitVec.ofNat 32 (next * l.gang + m),
                sizes := List.replicate l.gang l.wgsize, params := c.params, slot := c.freeSlot } f).2

/-- GANG_PLACE: the winning head, a gang not yet placed, goes to its quad. -/
def execGangPlace (pkg : Nat) (s : State) : Host.Outcome State Fault Refusal :=
  let s := s.noteWaits pkg
  match s.placeWinner pkg with
  | some (w, .fresh x next, f) => .next (s.placeFresh pkg w x next f)
  | some (_, .back _, _) => .next s
  | none => .next s

/-! ### Resumption (R302) -/

/-- The member's part of a core is restored: each item holds its saved value (04_registers R78, R88). -/
def State.restoreCore (s : State) (k : Nat) (x : SavedCore) : State :=
  let w := s.wg k
  let s := s.modCore w.ckey fun c => { c with wptr := x.wptr }
  let s := (s.dqWrite w.ckey x.dqbase x.dqlimit).getD s
  if (s.launchOf w).plane then
    s.modCore w.ckey fun c =>
      { c with td := x.td, pq := c.pq ++ x.pq, cb := x.cb, aov := x.aov, apoi := x.apoi, acc := x.acc, oneAcc := 0 }
  else s

/-- The vault as the slot held it is laid down again, a poisoned word poisoned (R303). -/
def State.restoreVault (s : State) (gk : Nat) (img : List Byte) (bad : List Nat) : State :=
  let g := s.gang gk
  let at' := locVault g.pkg g.quad g.stkBase
  let s := s.lay at' (img.drop g.vaultSize)
  let s := s.lay (at' + (img.length - g.vaultSize)) (img.take g.vaultSize)
  { s with empties := g.vaultTags.foldl (fun l w => ninsert l (w + at' / 8)) s.empties,
           poison := bad.foldl (fun l w => ninsert l (w + at' / 8)) s.poison }

/-- A tag wait that was withdrawn is replayed at the place where its address now stands. -/
def State.rehome (s : State) (a : Access) : State :=
  match s.resolve (a.thr / 2048) (a.thr % 2048) a.addr a.size a.kind.want with
  | (.ok pl, s) => s.modAcc a.id fun b => { b with loc := pl.loc, core := (s.wg (a.thr / 2048)).core }
  | (.refuse _ _, s) => s
  | (.absent _, s) => s

/-- A resuming thread: x registers zero, q1 to q7 clear; its bound, binding and flags, which its handler restores, hold nothing
that the spec states (assumption 2). -/
def Thread.blank (t : Thread) (n : Nat) (b : List Byte) : Thread :=
  { t with x := List.replicate n 0, q := 1, badX := [], oneX := [], poisonLo := 0, poisonHi := 0,
           bnd := BitVec.ofNat 64 (fld b 0 8), bsel := BitVec.ofNat 5 (fld b 8 1), flags := BitVec.ofNat 32 (fld b 9 4) &&& flagMask }

/-- The threads of a resuming workgroup enter their handlers. -/
def State.restoreThreads (s : State) (k slot : Nat) : State :=
  let w := s.wg k
  let params := (s.ctx w.ctx).params
  let s := s.modWg k fun w => { w with k := params, badK := [], oneK := [] }
  let s := (s.liveTids k).foldl (fun s i =>
    match s.freeBytes 13 with
    | (b, s) => s.modThr (thrKey k i) fun t => t.blank w.nregs b) s
  s.preemptAll k (slot % 128 + 128) .restoring

/-- Stand a gang in its new place. -/
def State.restoreGang (s : State) (gk : Nat) (f : Fit) : State :=
  let g := s.gang gk
  let l := (s.ctx g.ctx).launch
  let stk := 256 * l.stk * total (g.members.map fun k => (s.wg k).size)
  let (img, bad) := s.slotVault gk
  let s := s.slotTraps gk
  let s := s.modGang gk fun g =>
    { g with quad := f.quad, cidx := f.cidx, stkBase := f.voff, vaultBase := f.voff + stk, st := .running }
  let s := (g.members.zipIdx).foldl (fun s (k, m) =>
    let s := s.modWg k fun w =>
      { w with core := 4 * f.quad + f.cidx + m, scrBase := f.offs.getD m 0, resident := true }
    s.bindCopies false (s.wg k).ckey g.ctx) s
  let s := s.restoreVault gk img bad
  let s := (g.members.zip g.saved).foldl (fun s (k, x) => s.restoreCore k x) s
  let s := s.makeLand gk
  let s := (s.accs.filter fun a => g.members.contains (a.thr / 2048) && !a.performed).foldl State.rehome s
  let s := g.members.foldl (fun s k => s.restoreThreads k (g.slot.getD 0)) s
  s.modGang gk fun g => { g with saved := [], vaultImage := [], vaultTags := [], vaultBad := [] }

/-- GANG_RESUME: the winning head, a pre-empted gang, is restored in its new place. -/
def execGangResume (pkg : Nat) (s : State) : Host.Outcome State Fault Refusal :=
  let s := s.noteWaits pkg
  match s.placeWinner pkg with
  | some (w, .back gk, f) =>
    let s := s.placedAs pkg w f
    let s := s.modFn (fnKey pkg w.2) fun g => { g with place := placeNext (.back gk) none g.place }
    .next (s.restoreGang gk f)
  | some (_, .fresh _ _, _) => .next s
  | none => .next s

/-! ### Pre-emption for a waiting head (R290) -/

/-- I-cycles in 100 μs (01_machine R10). -/
def placeWait : Nat := 170000

/-- The quad with its gangs gone. -/
def State.without (s : State) (gs : List Nat) : State := gs.foldl State.freeGang s

/-- A quad that may be emptied for a head: its gangs, all of priority two or more below, all able to be saved, leave room. -/
def State.emptiable (s : State) (p : Nat) (e : PlaceEnt) (q : Nat) : Option (List Nat) :=
  let gs := s.gangsOn p q
  let low (g : Nat) : Bool := decide ((s.ctx (s.gang g).ctx).launch.prio + 2 ≤ s.entryPrio e) && s.markable g
  let marked := gs.foldl (fun s g => s.mark g false) s
  if gs.isEmpty || !gs.all low || !(gs.all fun g => (marked.gang g).pre.isSome) then none
  else
    let t := s.without gs
    let fits : Bool := match e with
      | .fresh x _ => (t.fitQuad p x (List.replicate (s.ctx x).launch.gang (s.ctx x).launch.wgsize) none q).isSome
      | .back gk => (match t.entryFit p (.back gk) with | some f => f.quad == q | none => false)
    if fits then some gs else none

/-- PLACEMENT_WAIT_EXPIRY: a head has waited its time; the lowest quad that may be emptied for it is emptied. -/
def execPlacementWaitExpiry (pkg fn : Nat) (s : State) : Host.Outcome State Fault Refusal :=
  let f := s.fn (fnKey pkg fn)
  match f.since, s.placeHead pkg fn with
  | some t, some e =>
    let slot := match e with | .fresh x _ => (s.ctx x).freeSlot.isSome | .back _ => true
    if s.clockOf pkg < t + placeWait || !f.emptied.isEmpty || !slot || (s.entryFit pkg e).isSome then .next s
    else
      (match (List.range Config.quadsPerPkg).findSome? (s.emptiable pkg e) with
       | none => .next s
       | some gs =>
         .next ((gs.foldl (fun s g => s.mark g false) s).modFn (fnKey pkg fn) fun f =>
           { f with emptied := gs, since := some (s.clockOf pkg) }))
  | _, _ => .next s

/-! ### Retirement and Drydown's selection (01_machine R20, 15_counters R266) -/

/-- The sampling exponent: none while Drydown is off. -/
def dryExp (dryfrac : W32) : Option Nat := if bits dryfrac.toNat 4 0 = 0 then none else some (bits dryfrac.toNat 4 0 - 1)

/-- The mixed number of a launch and a workgroup. -/
def drySel (lid wgid : W32) : Nat := (mix64 (BitVec.ofNat 64 (lid.toNat * 2 ^ 32 + wgid.toNat) + 0x9E3779B97F4A7C15#64)).toNat

/-- The low `n` bits are zero. -/
def lowZero (v n : Nat) : Bool := v % 2 ^ n == 0

/-- A gang is selected; `high` when a member's core is suspect enough to double the fraction. -/
def dryHit (n : Nat) (sel : Nat) (high : Bool) : Bool := lowZero sel n || (high && decide (1 ≤ n) && lowZero sel (n - 1))

/-- Drydown selects a retiring gang. -/
def State.selected (s : State) (gk : Nat) : Bool :=
  let g := s.gang gk
  let c := s.ctx g.ctx
  match dryExp (s.pkg g.pkg).dryfrac with
  | none => false
  | some n =>
    c.launch.replayable && g.check.isNone && (g.members.all fun k => !(s.wg k).inelig) &&
      dryHit n (drySel c.launchid (s.wg (g.members.headD 0)).wgid)
        (g.members.any fun k => decide (256 ≤ (s.core (s.wg k).ckey).susp.toNat))

/-- The check of a gang as it enters the pending-check queue. -/
def State.newCheck (s : State) (gk id : Nat) : Check :=
  let g := s.gang gk
  { id := id, pkg := g.pkg, ctx := g.ctx, gangid := g.gangid, wgids := g.members.map fun k => (s.wg k).wgid,
    params := (s.ctx g.ctx).params, sizes := g.members.map fun k => (s.wg k).size, seeds := g.members.map fun k => (s.wg k).seeds,
    cores := g.members.map fun k => (s.wg k).core, digests := g.members.map fun k => (s.wg k).digest }

/-- Every member of a gang completes cleanly. -/
def State.cleanAll (s : State) (gk : Nat) : State :=
  (s.gang gk).members.foldl (fun s k => s.cleanDone (s.wg k).pkg (s.wg k).core) s

/-- What Drydown does as a gang retires. -/
def State.dryRetire (s : State) (gk : Nat) : State :=
  let g := s.gang gk
  if !s.selected gk then s.cleanAll gk
  else
    let s := g.members.foldl (fun s k => s.count (s.wg k).ckey 9 1) s
    if decide (1024 ≤ (s.pkg g.pkg).checks.length) then
      (s.modPkg g.pkg fun p => { p with drySkip := p.drySkip + 1 }).cleanAll gk
    else
      let (id, s) := s.fresh
      let x := s.newCheck gk id
      s.modPkg g.pkg fun p => { p with checks := p.checks ++ [x] }

/-- The gang is an execution of a check that has not ended. -/
def State.checking (s : State) (gk : Nat) : Bool :=
  (s.pkg (s.gang gk).pkg).checks.any fun x => x.gang == some gk

/-- GANG_RETIRE. -/
def execGangRetire (gang : Nat) (s : State) : Host.Outcome State Fault Refusal :=
  let g := s.gang gang
  if g.members.isEmpty || g.st != .running || !s.gangOver gang || s.checking gang then .next s
  else .next (((if g.check.isNone then s.dryRetire gang else s).retireGang gang).dropAborted g.ctx)

end Sys2Proof.Machine
end

