-- ==== Sys2Proof/Machine/Scoreboard.lean ====
section
/-! DEFINITION. Scoreboard sources of a word other than registers (01_machine R25): what a word is held for without issuing, and whether it
may never come (09_control R175). -/

namespace Sys2Proof.Machine

/-- The site of one thread alone at its PC. -/
def State.siteOf (s : State) (wk tid : Nat) : Site :=
  let w := s.wg wk
  { pkg := w.pkg, core := w.core, wg := wk, tids := [tid], pc := (s.thr (thrKey wk tid)).pc, word := 0 }

/-- The engine queue that the record of an E-form word names has a free entry (14_engines R240); a record that does not read now decides
at issue. -/
def State.engineFree (s : State) (c : Site) (e : Env) (k : CKind) (a : EArgs) : Bool :=
  match s.readRec c e.tid (BitVec.ofInt 64 ((e.ky a.a.toNat).toNat + 8 * a.off.toInt)) 128 with
  | .bytes b _ => s.chanFreeFor (coreKey c.pkg c.core) k (bits (fld b 4 1) 2 0)
  | .refuse _ _ _ => true
  | .absent _ _ => true
  | .wait => true

/-- The plane queue has room for a word, on the follower too for a paired one (08_planes R146). -/
def State.planeFree (s : State) (c : Site) (pair : Bool) : Bool :=
  let ck := coreKey c.pkg c.core
  !planeOk s c || (s.pqFree ck && (!pair || (s.follower c).isNone || s.pqFree (ck + 1)))

/-- What a word of thread `tid` needs besides registers is there: an entry of the plane queue (R146), of an engine queue (R240) or of a
forwarding channel (07_lanes R136), a message for FWDR (R137), the end of the phase for a second arrival (15_counters R263). A thread
whose guard does not hold needs nothing. -/
def State.resource (s : State) (wk tid : Nat) (i : Instr) : Bool :=
  let c := s.siteOf wk tid
  let e := s.env wk tid
  let need (g : Guard) (b : Bool) : Bool := !e.guarded g || b
  match i with
  | .plane _ _ _ g => need g (s.planeFree c false)
  | .align _ _ _ g => need g (s.planeFree c false)
  | .mma _ _ _ p g => need g (s.planeFree c p)
  | .mmac _ _ _ p g => need g (s.planeFree c p)
  | .accz _ p g => need g (s.planeFree c p)
  | .accst _ m _ => need m.g (s.planeFree c false)
  | .cbload m => need m.g (s.planeFree c false)
  | .tcopy a => need a.g (s.engineFree c e .tcopy a)
  | .tgather a => need a.g (s.engineFree c e .tgather a)
  | .cavred a => need a.g (s.engineFree c e .cavred a)
  | .loopnest a => need a.g (s.engineFree c e .loopnest a)
  | .fwds _ _ g _ ch _ =>
    need g (match successor c.core with
      | none => true
      | some d => s.chanFree (coreKey c.pkg d) ch.toNat)
  | .fwdr _ g _ ch _ =>
    need g (takeMsg (s.wg wk).launchid ((s.core (coreKey c.pkg c.core)).fwd.getD ch.toNat [])).isSome
  | .bar _ sc n g => need g (!barOk sc s c || !s.hasFlag wk tid sc n.toNat)
  | .baro _ sc n g => need g (!barOk sc s c || !s.wgArrived wk sc n.toNat)
  | _ => true

/-- The memory order of a word. -/
def wordOrder (i : Instr) : Option MO :=
  match i with
  | .ld _ _ _ o => some o
  | .st _ _ _ o => some o
  | .ldv _ _ _ _ o => some o
  | .stv _ _ _ _ o => some o
  | .atom _ _ _ _ _ _ o => some o
  | .acas _ _ _ _ o => some o
  | .ldfe _ _ o => some o
  | .stfe _ _ o => some o
  | .fetagRead _ _ o => some o
  | .fetagFill _ o => some o
  | .fetagEmpty _ o => some o
  | .fence o _ => some o
  | .spawn _ _ o => some o
  | _ => none

/-- An access of the thread waits at its home for the tag of its word (13_memory_instr R233). -/
def State.hasTagWait (s : State) (k : Nat) : Bool := s.accs.any fun a => a.thr == k && a.kind.waitsTag && !a.performed && !a.cancelled

/-- The release step of the word does not wait for a tag of the thread's own, which may never come (12_ordering R215). Other release
steps end, and the word's fragment waits for them together. -/
def State.releases (s : State) (wk tid : Nat) (i : Instr) : Bool :=
  match wordOrder i with
  | none => true
  | some o => o.o == .sc || s.orderOk (thrKey wk tid) o || !s.hasTagWait (thrKey wk tid)

/-- Every source of a thread's next word is ready (R25). -/
def State.sourced (s : State) (wk tid : Nat) (i : Instr) : Bool :=
  s.sources wk tid i && s.resource wk tid i && s.releases wk tid i

end Sys2Proof.Machine
end

