-- ==== Sys2Proof/Machine/Select.lean ====
section
/-! DEFINITION. Fetching a word, the selection of what issues (18_queues R298), and the cancellation of a thread that waits
(09_control R175). -/

namespace Sys2Proof.Machine

/-! ### Fetch -/

/-- A fetched word, a refusal with its DETAIL code, or an absent page. -/
inductive Fetched where
  | word (w : W64)
  | refuse (detail : Nat)
  | absent (va : Nat)
  deriving DecidableEq, Repr, Inhabited

/-- Fetch the word at `pc` for a thread (11_memories R194, R202, R205, R206). A misaligned PC, which only a written TRAPPC can
leave behind, is refused (assumption 20). -/
def State.fetch (s : State) (wk tid : Nat) (pc : W64) : Fetched × State :=
  if pc.toNat % 8 ≠ 0 then (.refuse 0x07, s)
  else
  match s.resolve wk tid pc 8 { x := true } with
  | (.refuse d _, s) => (.refuse d, s)
  | (.absent va, s) => (.absent va, s)
  | (.ok p, s) =>
    let w := s.wg wk
    if p.void then (.refuse 0x03, s.errResponse w.pkg p.loc)
    else if s.isPoisoned (p.seen (w.core / 160)) 8 then (.refuse 0x05, s)
    else (.word (s.readSeen w.pkg w.core p 8), s)

/-! ### Candidates (R298) -/

/-- Threads of one workgroup and one parent at one PC in one mode; `red` when they are those of the reserved reduce context. -/
structure Group where
  wg : Nat
  seq : Nat
  lead : Nat
  pc : W64
  handler : Bool
  tids : List Nat
  red : Bool := false
  deriving DecidableEq, Repr, Inhabited

/-- Insert a TID by lane. -/
def State.byLane (s : State) (wk : Nat) : List Nat → Nat → List Nat
  | [], i => [i]
  | j :: r, i => if (s.thr (thrKey wk i)).lane < (s.thr (thrKey wk j)).lane then i :: j :: r else j :: s.byLane wk r i

/-- Add a thread to the candidates. -/
def State.addCand (s : State) (wk tid : Nat) : List Group → List Group
  | [] =>
    let t := s.thr (thrKey wk tid)
    [{ wg := wk, seq := t.seq, lead := t.lead, pc := t.pc, handler := t.handler, tids := [tid] }]
  | c :: r =>
    let t := s.thr (thrKey wk tid)
    if c.wg = wk && c.seq = t.seq && c.lead = t.lead && c.pc = t.pc && c.handler = t.handler then
      { c with tids := s.byLane wk c.tids tid } :: r
    else c :: s.addCand wk tid r

/-- A thread's next instruction, seen without effect; none when it does not fetch or decode. -/
def State.peek (s : State) (wk tid : Nat) (pc : W64) : Option Instr :=
  match (s.fetch wk tid pc).1 with
  | .word w => (match decode w with | .ok i => some i | .error _ => none)
  | _ => none

/-- A thread is runnable: R25 with its scoreboard. -/
def State.runnable (s : State) (wk tid : Nat) : Bool :=
  s.ready wk tid &&
  (match s.peek wk tid (s.thr (thrKey wk tid)).pc with
   | some i => s.sourced wk tid i
   | none => true)

/-- The threads of the reserved context are a candidate while they run a reduce block (R298, R299). -/
def Core.redCand (c : Core) : List Group :=
  match c.resv with
  | none => []
  | some j => if j.went then [] else [{ wg := 0, seq := 0, lead := 0, pc := 0, handler := false, tids := List.range 64, red := true }]

/-- The candidates of a core that share no thread with what has issued in this I-cycle. -/
def State.cands (s : State) (ck : Nat) : List Group :=
  let used := (s.core ck).issued
  (s.wgsOn ck).foldl (fun l wk =>
    (s.liveTids wk).foldl (fun l i =>
      if s.runnable wk i && !used.contains (thrKey wk i) then s.addCand wk i l else l) l) (s.core ck).redCand

/-- The order of R298, as numbers to compare from the left. -/
def State.candKey (s : State) (ck : Nat) (c : Group) : List Nat :=
  if c.red then
    let j := (s.core ck).resv.getD default
    let aged := decide (j.since + 2048 ≤ s.clockOf (ck / 640))
    [if aged then 0 else 1, if aged then j.since else 0, 0, 2048 - 64, j.since, 0, 0]
  else
  let ts := c.tids.map fun i => s.thr (thrKey c.wg i)
  let aged := ts.any (·.aged)
  [if aged then 0 else 1,
   if aged then ts.foldl (fun m t => min m t.since) (ts.headD {}).since else 0,
   if ts.any (·.yielded) then 1 else 0,
   2048 - ts.length,
   (s.wg c.wg).lastIssue,
   c.lead,
   c.pc.toNat]

/-- Lexicographic order. -/
def lexLt : List Nat → List Nat → Bool
  | a :: l, b :: r => if a = b then lexLt l r else decide (a < b)
  | _, _ => false

/-- Insert a candidate in order. -/
def State.insCand (s : State) (ck : Nat) (c : Group) : List Group → List Group
  | [] => [c]
  | d :: r => if lexLt (s.candKey ck c) (s.candKey ck d) then c :: d :: r else d :: s.insCand ck c r

/-- The candidates in the order in which a slot takes them. -/
def State.ordered (s : State) (ck : Nat) : List Group := (s.cands ck).foldl (fun l c => s.insCand ck c l) []

/-! ### Cancellation of waiting threads (09_control R175) -/

/-- An access of the thread waits for its tag, or stands in program order behind one that does. -/
def State.behindTag (s : State) (a : Access) : Bool :=
  (a.kind.waitsTag && !a.performed) ||
    (!a.performed && s.accs.any fun b => b.kind.waitsTag && !b.performed && s.blocksLoad a b)

/-- A thread that cannot issue for the tag condition of its own LDFE or STFE alone (13_memory_instr R237): everything that it still waits
for is such an access, or one kept back by it. -/
def State.tagBlocked (s : State) (wk tid : Nat) : Bool :=
  let k := thrKey wk tid
  let tagHold : Bool := match (s.thr k).hold with
    | .none => true
    | .acq _ => true
    | .scPre _ => true
    | .scPost _ => true
    | .tlbinv _ => false
    | .icflush _ => false
    | .link _ => false
    | .plane _ => false
    | .peer _ => false
    | .cb _ => false
  s.hasTagWait k && tagHold && !s.runnable wk tid &&
    s.accs.all fun a => a.thr != k || a.done || a.cancelled || !a.kind.returns || s.behindTag a

/-- The thread's next word is held for want of something that may never come. -/
def State.wantsWord (s : State) (wk tid : Nat) : Bool :=
  s.ready wk tid &&
  (match s.peek wk tid (s.thr (thrKey wk tid)).pc with
   | some i => s.sources wk tid i && !s.resource wk tid i
   | none => false)

/-- The thread waits in the sense of R175: in a wait, parked, at a held word, or for a tag. -/
def State.strikable (s : State) (wk tid : Nat) : Bool :=
  let t := s.thr (thrKey wk tid)
  t.wait != .none || t.park.isSome || s.wantsWord wk tid || s.tagBlocked wk tid

/-- DOMINANCE_CANCEL (R175): a dominated, unshielded thread that waits is cancelled as it stands. -/
def execDominanceCancel (thr : Nat) (s : State) : Host.Outcome State Fault Refusal :=
  if s.mayCancel (thr / 2048) (thr % 2048) && s.strikable (thr / 2048) (thr % 2048) then
    .next (s.cancelThread (thr / 2048) (thr % 2048))
  else .next s

end Sys2Proof.Machine
end

