-- ==== Sys2Proof/Machine/Deque.lean ====
section
/-! DEFINITION. Spawn deques: readiness and dominance of records, gathering, dispatch and stealing (18_queues R291 to R296). The
head of a deque's list is the thief end, its tail the owner end. -/

namespace Sys2Proof.Machine

/-! ### Readiness (R291) and dominance (R293) -/

/-- What the tag of a wait address tells. -/
inductive Tag where
  | full
  | empty
  | fail
  deriving DecidableEq, Repr, Inhabited

/-- Read the tag of a wait address as a core of a package does, in a function's translation; the causal past of the fill must stand
in die `d` (12_ordering R222). -/
def State.waitTag (s : State) (p core d fn : Nat) (lid : W32) (a : W64) : Tag × State :=
  match s.translate p core fn a.toNat with
  | (.absent, s) => (.empty, s.faultAt p core fn lid a.toNat .engine)
  | (.bad, s) => (.fail, s)
  | (.leaf e lg, s) =>
    match s.placeOf p a { r := true, tag := true } e lg with
    | .refuse _ _ => (.fail, s)
    | .absent _ => (.empty, s)
    | .ok pl =>
      let w := pl.loc / 8
      if s.isFull w && ((s.die (dieKey p d)).covered d).covers (s.fillPast w) then (.full, s) else (.empty, s)

/-- A record is ready, is not, or fails at a wait address. -/
inductive Ready where
  | yes
  | no
  | fail (a : W64)
  deriving DecidableEq, Repr, Inhabited

/-- Check the nonzero wait addresses in order. -/
def State.waitsFull (s : State) (p core d fn : Nat) (lid : W32) : List W64 → Ready × State
  | [] => (.yes, s)
  | a :: r =>
    if a = 0 then s.waitsFull p core d fn lid r
    else
      match s.waitTag p core d fn lid a with
      | (.fail, s) => (.fail a, s)
      | (.full, s) => s.waitsFull p core d fn lid r
      | (.empty, s) =>
        match s.waitsFull p core d fn lid r with
        | (.fail b, s) => (.fail b, s)
        | (_, s) => (.no, s)

/-- The record of a launch context is dominated at a core. -/
def State.recDominated (s : State) (ck : Nat) (e : DqEnt) : Bool :=
  match s.ctxOf (ck / 640) e.launchid with
  | none => false
  | some x => dominatedBy (s.ctx x).launch (bindIncs (s.core ck).binds x) e.bound e.bsel

/-- What a scan of a deque does with one record: keep it, take it, or discard it as dominated or failed. -/
inductive Verdict where
  | keep
  | take
  | dominated
  | failed (a : W64)
  deriving DecidableEq, Repr, Inhabited

/-- Judge a record at the core of the deque; `ok` says whether a usable record of its launch context is wanted. -/
def State.judge (s : State) (ck d : Nat) (ok : State → Nat → DqEnt → Bool) (e : DqEnt) : Verdict × State :=
  let p := ck / 640
  match s.ctxOf p e.launchid with
  | none => (.keep, s)
  | some x =>
    if !ok s x e then (.keep, s)
    else
      match s.waitsFull p (ck % 640) d (s.ctx x).fn e.launchid [e.wait0, e.wait1] with
      | (.no, s) => (.keep, s)
      | (.fail a, s) => (.failed a, s)
      | (.yes, s) => (if s.recDominated ck e then .dominated else .take, s)

/-- RECDROP of a core rises for each dominated record that it discards (15_counters R261). -/
def State.recDrop (s : State) (ck n : Nat) : State := s.count ck 7 n

/-- The event of a record that failed its wait address. -/
def State.recFail (s : State) (ck : Nat) (e : DqEnt) (a : W64) : State :=
  match s.ctxOf (ck / 640) e.launchid with
  | none => s
  | some x => s.post (ck / 640) { fn := (s.ctx x).fn, ty := 0x0E, launchid := e.launchid, core := ck % 640, value := a }

/-- Scan records in the given order for at most `n` that are wanted; the others stay, in their order. -/
def State.scan (s : State) (ck d : Nat) (ok : State → Nat → DqEnt → Bool) : Nat → List DqEnt → (List DqEnt × List DqEnt) × State
  | _, [] => (([], []), s)
  | 0, l => (([], l), s)
  | n + 1, e :: r =>
    match s.judge ck d ok e with
    | (.keep, s) =>
      (match s.scan ck d ok (n + 1) r with
       | ((t, l), s) => ((t, e :: l), s))
    | (.dominated, s) => (s.recDrop ck 1).scan ck d ok (n + 1) r
    | (.failed a, s) => (s.recFail ck e a).scan ck d ok (n + 1) r
    | (.take, s) =>
      match s.scan ck d ok n r with
      | ((t, l), s) => ((e :: t, l), s)

/-- Records of one kind: one launch context and entry PC. -/
def DqEnt.kindOf (a e : DqEnt) : Bool := a.launchid == e.launchid && a.entry == e.entry

/-! ### Gathering (R294) -/

/-- Where a gathered workgroup of a launch has room beneath a core: its scratchpad and vault offsets. -/
def State.gatherRoom (s : State) (ck x : Nat) : Option (Nat × Nat) :=
  let p := ck / 640
  let l := (s.ctx x).launch
  match s.coreFit ck x l.wgsize, s.vaultFit p (ck % 640 / 4) (l.vaultNeed l.wgsize) (l.vault != 0) with
  | some o, some v => some (o, v)
  | _, _ => none

/-- The gather counter of a launch would wrap: it gathers no more, and the host is told once (01_machine R23). -/
def State.gatherStop (s : State) (ck x : Nat) : State :=
  if (s.ctx x).gatherFull then s
  else
    let c := s.ctx x
    (s.modCtx x fun c => { c with gatherFull := true }).post (ck / 640) { fn := c.fn, ty := 0x0A, launchid := c.launchid }

/-- Records become the workgroup that is to be dispatched on a core, with the next WGID. -/
def State.gatherInto (s : State) (ck x : Nat) (recs : List DqEnt) (room : Nat × Nat) : State :=
  let g : Gathered := { ctx := x, wgid := BitVec.ofNat 32 (s.ctx x).gather, recs := recs, off := room.1, voff := room.2 }
  (s.modCtx x fun c => { c with gather := c.gather + 1 }).modCore ck fun c => { c with gathered := some g }

/-- A launch context may gather on a core: not one whose launch is being aborted. -/
def State.mayGather (s : State) (ck x : Nat) : Bool :=
  decide ((s.ctx x).gather < 2 ^ 32) && !(s.ctx x).aborting && (s.gatherRoom ck x).isSome

/-- The launch contexts whose records stand in a deque with a counter that would wrap. -/
def State.gatherEnds (s : State) (ck : Nat) : State :=
  (s.core ck).deque.foldl (fun s e =>
    match s.ctxOf (ck / 640) e.launchid with
    | none => s
    | some x => if 2 ^ 32 ≤ (s.ctx x).gather then s.gatherStop ck x else s) s

/-- A gang is about to be placed on a core, which comes before a gather there (R294). -/
def State.placesOn (s : State) (p core : Nat) : Bool :=
  match s.placeWinner p with
  | none => false
  | some (_, _, f) => decide (4 * f.quad + f.cidx ≤ core) && decide (core < 4 * f.quad + f.cidx + f.offs.length)

/-- GATHER: the core takes the usable record nearest the owner end and those of its kind behind it, as one service of its deque's
arbiter. -/
def execGather (pkg core : Nat) (s : State) : Host.Outcome State Fault Refusal :=
  let ck := coreKey pkg core
  let c := s.core ck
  if 640 ≤ core || c.quar || c.gathered.isSome || !s.mayServe ck || s.placesOn pkg core then .next s
  else
    let s := (s.gatherEnds ck).served ck .gather
    let d := core / 160
    match s.scan ck d (fun s x _ => s.mayGather ck x) 1 c.deque.reverse with
    | (([], l), s) => .next (s.setDeque ck l.reverse)
    | ((e :: _, l), s) =>
      match s.ctxOf pkg e.launchid with
      | none => .next s
      | some x =>
        match s.gatherRoom ck x, s.scan ck d (fun _ _ f => e.kindOf f) ((s.ctx x).launch.wgsize - 1) l with
        | some room, ((t, l), s) => .next ((s.setDeque ck l.reverse).gatherInto ck x (e :: t) room)
        | none, _ => .next s

/-- Split records into the undominated ones and the number of the others. -/
def State.survivors (s : State) (ck : Nat) (l : List DqEnt) : List DqEnt × Nat :=
  let k := l.filter fun e => !s.recDominated ck e
  (k, l.length - k.length)

/-- The initial state of a thread made from a record (04_registers R75). -/
def DqEnt.seed (e : DqEnt) : Seed := { entry := e.entry, bound := e.bound, bsel := e.bsel, args := e.args }

/-- A gang dispatched on a core that has been quarantined since it gathered stands there like one resident at that moment: it has no
landing entries, and is pre-empted (15_counters R269, assumption 88). -/
def State.onQuarantined (s : State) (ck gk : Nat) : State :=
  if (s.core ck).quar then (s.dropLand gk).markQuar (ck / 640) else s

/-- WORKGROUP_DISPATCH: the gathered workgroup is checked for dominance again, and its survivors become threads. -/
def execWorkgroupDispatch (pkg core : Nat) (s : State) : Host.Outcome State Fault Refusal :=
  let ck := coreKey pkg core
  match (s.core ck).gathered with
  | none => .next s
  | some g =>
    if (s.ctx g.ctx).aborting then .next s
    else
    let r := s.survivors ck g.recs
    let s := (s.modCore ck fun c => { c with gathered := none }).recDrop ck r.2
    if r.1.isEmpty then .next s
    else
      match s.makeGang { pkg := pkg, ctx := g.ctx, gangid := g.wgid, wgids := [g.wgid], sizes := [r.1.length],
                         params := (s.ctx g.ctx).params, seeds := [r.1.map DqEnt.seed], gathered := true }
              { quad := core / 4, cidx := core % 4, offs := [g.off], voff := g.voff } with
      | (gk, s) => .next (s.onQuarantined ck gk)

/-! ### Stealing (R295, R296) -/

/-- The core has had no runnable thread for 256 I-cycles, and is free to steal. -/
def State.mayGetWork (s : State) (ck : Nat) : Bool :=
  let c := s.core ck
  decide (c.busy + 256 ≤ s.clockOf (ck / 640)) && (s.cands ck).isEmpty && !c.quar && c.gathered.isNone && c.transit.isNone

/-- Cores of the package that hold records, other than the thief: those of its die first, each group in round-robin order from the
one after its last victim. -/
def State.victims (s : State) (ck : Nat) : List Nat :=
  let p := ck / 640
  let last := (s.core ck).lastVictim
  let turn (l : List Nat) : List Nat := (l.filter fun k => last < k % 640) ++ l.filter fun k => k % 640 ≤ last
  let all := (s.cores.filter fun (k, c) => k / 640 == p && k != ck && (!c.deque.isEmpty || (c.quar && c.transit.isSome))).map (·.1)
  turn (all.filter fun k => k % 640 / 160 == ck % 640 / 160) ++ turn (all.filter fun k => k % 640 / 160 != ck % 640 / 160)

/-- Records of a kind that are ready and undominated at the victim. -/
def State.readyOf (s : State) (v d : Nat) (e : DqEnt) (l : List DqEnt) : Nat × State :=
  l.foldl (fun r f =>
    match r.2.judge v d (fun _ _ g => e.kindOf g) f with
    | (.take, s) => (r.1 + 1, s)
    | (_, s) => (r.1, s)) (0, s)

/-- Records that were in transit to a core when it was quarantined stay open to thieves, as those of its deque do (R296, assumption 88). -/
def State.stranded (s : State) (ck v : Nat) : List DqEnt :=
  match (s.core v).quar, (s.core v).transit with
  | true, some t =>
    (match (t.recs.head?).bind fun e => s.ctxOf (v / 640) e.launchid with
     | some x => if s.mayGather ck x then t.recs else []
     | none => [])
  | _, _ => []

/-- What a victim's deque gives a thief: from the thief end, up to half its ready records of the kind, rounded up. -/
def State.giveDeque (s : State) (ck v : Nat) : List DqEnt × State :=
  let d := ck % 640 / 160
  match (s.served v .steal).scan v d (fun s x _ => s.mayGather ck x) 1 (s.core v).deque with
  | (([], l), s) => ([], s.setDeque v l)
  | ((e :: _, l), s) =>
    match s.readyOf v d e l with
    | (n, s) =>
      let size := match s.ctxOf (v / 640) e.launchid with | some x => (s.ctx x).launch.wgsize | none => 1
      match s.scan v d (fun _ _ f => e.kindOf f) (min size ((n + 2) / 2) - 1) l with
      | ((t, l), s) => (e :: t, s.setDeque v l)

/-- What a victim gives a thief. -/
def State.give (s : State) (ck v : Nat) : List DqEnt × State :=
  match s.stranded ck v with
  | [] => s.giveDeque ck v
  | l => (l, s.modCore v fun c => { c with transit := none })

/-- Ask victims in turn until one gives. -/
def State.askAll (s : State) (ck : Nat) : List Nat → State
  | [] => s
  | v :: r =>
    match s.give ck v with
    | ([], s) => s.askAll ck r
    | (recs, s) => s.modCore ck fun c => { c with transit := some { recs := recs }, lastVictim := v % 640 }

/-- STEAL_REQUEST: an idle core asks for records, which leave their deque at once. A victim whose arbiter has served something in this
I-cycle answers in a later one (R296). -/
def execStealRequest (pkg core : Nat) (s : State) : Host.Outcome State Fault Refusal :=
  let ck := coreKey pkg core
  if 640 ≤ core || !s.mayGetWork ck || (s.victims ck).any (fun v => !s.mayServe v) then .next s
  else .next (s.askAll ck (s.victims ck))

/-- STEAL_ARRIVAL: the thief checks the records and gathers them at once. One that has been quarantined since gathers nothing. -/
def execStealArrival (pkg core : Nat) (s : State) : Host.Outcome State Fault Refusal :=
  let ck := coreKey pkg core
  let c := s.core ck
  match c.transit with
  | none => .next s
  | some t =>
    if c.quar then .next s
    else
      let r := s.survivors ck t.recs
      match r.1 with
      | [] => .next ((s.modCore ck fun c => { c with transit := none }).recDrop ck r.2)
      | e :: _ =>
        match s.ctxOf pkg e.launchid with
        | none => .next (s.modCore ck fun c => { c with transit := none })
        | some x =>
          match s.gatherRoom ck x with
          | none => .next s
          | some room =>
            if c.gathered.isSome || 2 ^ 32 ≤ (s.ctx x).gather || (s.ctx x).aborting then .next s
            else .next (((s.modCore ck fun c => { c with transit := none }).recDrop ck r.2).gatherInto ck x r.1 room)

end Sys2Proof.Machine
end

