-- ==== Sys2Proof/Machine/Drydown.lean ====
section
/-! DEFINITION. Drydown checks: the start of a re-execution or an arbitration, and what its end settles (15_counters R268, R269). A
check's phase is 0 while it waits for its re-execution, 1 while that runs, 2 while it waits for arbitration, 3 while that runs. -/

namespace Sys2Proof.Machine

/-- Quads for an execution of a check: those of other dies first, without those it has used. -/
def checkQuads (x : Check) : List Nat :=
  let die := x.cores.headD 0 / 160
  let used := (x.cores ++ x.cores2).map fun c => c / 4
  let all := ((List.range 4).filter (· != die)).flatMap quadsOf ++ quadsOf die
  all.filter fun q => !used.contains q

/-- Change a check. -/
def State.modCheck (s : State) (p id : Nat) (f : Check → Check) : State :=
  s.modPkg p fun g => { g with checks := g.checks.map fun x => if x.id == id then f x else x }

/-- The next execution of a check and where it fits; it is a placement of R288, which needs a free save slot of its launch. -/
def State.nextCheck (s : State) (p : Nat) : Option (Check × Fit) :=
  (s.pkg p).checks.findSome? fun x =>
    if x.phase % 2 = 1 || (s.ctx x.ctx).freeSlot.isNone then none
    else (s.findFit p x.ctx x.sizes (checkQuads x)).bind fun f => if s.placeBusy p f.offs.length f then none else some (x, f)

/-- DRYDOWN_CHECK_START: the oldest check that may be placed begins its re-execution or its arbitration. -/
def execDrydownCheckStart (pkg : Nat) (s : State) : Host.Outcome State Fault Refusal :=
  match s.nextCheck pkg with
  | none => .next s
  | some (x, f) =>
    let slot := (s.ctx x.ctx).freeSlot
    let s := s.modDie (dieKey pkg (f.quad / 40)) fun d => { d with placed := true }
    match s.makeGang { pkg := pkg, ctx := x.ctx, gangid := x.gangid, wgids := x.wgids, sizes := x.sizes, params := x.params,
                       seeds := x.seeds, check := some x.id, gathered := x.seeds.any fun l => !l.isEmpty, slot := slot } f with
    | (gk, s) =>
      let s := (s.gangCores gk).foldl (fun s ck => s.count ck 10 1) s
      .next (s.modCheck pkg x.id fun x => { x with gang := some gk, phase := x.phase + 1 })

/-- The package and check of a number. -/
def State.findCheck (s : State) (id phase : Nat) : Option (Nat × Check × Nat) :=
  s.pkgs.findSome? fun (p, g) =>
    match g.checks.find? fun x => x.id == id && x.phase == phase with
    | none => none
    | some x => x.gang.map fun gk => (p, x, gk)

/-- Cores and digests of a gang's members. -/
def State.runOf (s : State) (gk : Nat) : List Nat × List W64 :=
  let ms := (s.gang gk).members
  (ms.map fun k => (s.wg k).core, ms.map fun k => (s.wg k).digest)

/-- The check ends and is forgotten. -/
def State.endCheck (s : State) (p id : Nat) : State := s.modPkg p fun g => { g with checks := g.checks.filter fun x => x.id != id }

/-- Clean completions of some cores of a package. -/
def State.cleanCores (s : State) (p : Nat) (l : List Nat) : State := l.foldl (fun s c => s.cleanDone p c) s

/-- Scores of some cores of a package change. -/
def State.score (s : State) (p : Nat) (l : List (Nat × Int)) : State := l.foldl (fun s c => s.suspect p c.1 c.2) s

/-- Members whose digests differ. -/
def differing (a b : List W64) : List Nat := (List.range a.length).filter fun m => a.getD m 0 != b.getD m 0

/-- The execution's gang may end. -/
def State.runOver (s : State) (gk : Nat) : Bool := (s.gang gk).st == .running && s.gangOver gk

/-- REEXECUTION_END: a match ends the check; a mismatch costs both cores 64 and asks for an arbitration. -/
def execReexecutionEnd (id : Nat) (s : State) : Host.Outcome State Fault Refusal :=
  match s.findCheck id 1 with
  | none => .next s
  | some (p, x, gk) =>
    if !s.runOver gk then .next s
    else
      let r := s.runOf gk
      let s := s.retireGang gk
      let bad := differing x.digests r.2
      if bad.isEmpty then .next (((s.endCheck p id).cleanCores p x.cores).cleanCores p r.1)
      else
        let s := s.modCheck p id fun x => { x with cores2 := r.1, digests2 := r.2, gang := none, phase := 2 }
        let pair (m : Nat) : List Nat := [x.cores.getD m 0, r.1.getD m 0]
        let s := (bad.flatMap pair).foldl (fun s c => s.count (coreKey p c) 11 1) s
        .next (s.score p ((bad.flatMap pair).map fun c => (c, 64)))

/-- What arbitration settles for a member: the changes of its scores, the cores whose execution counts as clean, and whether it
stays undecided. -/
def settleMember (c1 c2 c3 : Nat) (d1 d2 d3 : W64) : List (Nat × Int) × List Nat × Bool :=
  if d1 = d2 then ([], [c1, c2, c3], false)
  else if d1 = d3 then ([(c2, 192), (c1, -64)], [c1, c3], false)
  else if d2 = d3 then ([(c1, 192), (c2, -64)], [c2, c3], false)
  else ([(c3, 64)], [], true)

/-- ARBITRATION_END: a third execution settles the scores of the mismatched members; a member whose three digests all differ is
reported. -/
def execArbitrationEnd (id : Nat) (s : State) : Host.Outcome State Fault Refusal :=
  match s.findCheck id 3 with
  | none => .next s
  | some (p, x, gk) =>
    if !s.runOver gk then .next s
    else
      let r := s.runOf gk
      let out := (List.range x.digests.length).map fun m =>
        settleMember (x.cores.getD m 0) (x.cores2.getD m 0) (r.1.getD m 0) (x.digests.getD m 0) (x.digests2.getD m 0)
          (r.2.getD m 0)
      let c := s.ctx x.ctx
      let s := (s.retireGang gk).endCheck p id
      let s := if out.any fun o => o.2.2 then
          s.post p { fn := c.fn, ty := 0x08, launchid := c.launchid, value := (x.wgids.headD 0).setWidth 64 }
        else s
      let s := s.cleanCores p (out.flatMap fun o => o.2.1)
      .next (s.score p (out.flatMap fun o => o.1))

end Sys2Proof.Machine
end

