-- ==== Sys2Proof/Machine/Host.lean ====
section
/-! DEFINITION. The host: its register block, boot, resets, power and telemetry, and the passing of I-cycles
(24_host R363 to R368, 04_registers R80). -/

namespace Sys2Proof.Machine

/-! ### The register block (R363) -/

/-- A write that breaks a limit is ignored with an event to the physical function. -/
def State.refuseReg (s : State) (p off : Nat) : State := s.pfEvent p 0x0F 0xFFFF (BitVec.ofNat 64 off)

/-- A write that is taken when it breaks no limit. -/
def State.limited (s : State) (p off : Nat) (ok : Bool) (f : State → State) : State :=
  if ok then f s else s.refuseReg p off

/-- Zero a control block of `n` words. -/
def State.zeroWords (s : State) (p pa n : Nat) : State :=
  (List.range n).foldl (fun s i => s.devWord p (pa + 8 * i) 0) s

/-- The bits of a ring's control register: its enable bit and a size field `hi:0`. -/
def ctlBits (v hi : Nat) : W64 := BitVec.ofNat 64 (bits v 63 63 * 2 ^ 63 + bits v hi 0)

/-- A control register takes a value: the size stands within its limit and moves only while the ring is disabled. -/
def ctlOk (old : W64) (v hi top : Nat) : Bool :=
  decide (bits v hi 0 ≤ top) && (!old.getLsbD 63 || bits v hi 0 == bits old.toNat hi 0)

/-- The write enables the ring. -/
def enables (old : W64) (v : Nat) : Bool := !old.getLsbD 63 && v.testBit 63

/-- LQCTL: enabling zeroes the 16-byte control block after the last slot; disabling leaves no record held. -/
def State.writeLqctl (s : State) (p fn v : Nat) : State :=
  let fk := fnKey p fn
  let f := s.fn fk
  s.limited p 0x018 (ctlOk f.lqctl v 3 8) fun s =>
    let s := if enables f.lqctl v then s.zeroWords p (f.lqbase.toNat + 128 * 2 ^ (bits v 3 0 + 4)) 2 else s
    s.modFn fk fun x => { x with lqctl := ctlBits v 3, held := if v.testBit 63 then x.held else none }

/-- EQCTL: enabling zeroes the 24-byte control block. -/
def State.writeEqctl (s : State) (p fn v : Nat) : State :=
  let fk := fnKey p fn
  let f := s.fn fk
  s.limited p 0x028 (ctlOk f.eqctl v 4 10) fun s =>
    let s := if enables f.eqctl v then s.zeroWords p (f.eqbase.toNat + 32 * 2 ^ (bits v 4 0 + 6)) 3 else s
    s.modFn fk fun x => { x with eqctl := ctlBits v 4 }

/-- MBCTL: enabling zeroes the control blocks of both rings (17_prog_debug R278). -/
def State.writeMbctl (s : State) (p fn v : Nat) : State :=
  let fk := fnKey p fn
  let f := s.fn fk
  s.limited p 0x040 (ctlOk f.mbctl v 3 4) fun s =>
    let n := 64 * 2 ^ (bits v 3 0 + 4)
    let s := if enables f.mbctl v then
        (s.zeroWords p (f.mbqbase.toNat + n) 2).zeroWords p (f.mbrbase.toNat + n) 2
      else s
    s.modFn fk fun x => { x with mbctl := ctlBits v 3 }

/-- A ring's base moves only while the ring is disabled. -/
def State.writeBase (s : State) (p fn off : Nat) (ctl : W64) (f : Fn → Fn) : State :=
  s.limited p off (!ctl.getLsbD 63) fun s => s.modFn (fnKey p fn) f

/-- TLBINVH: the function's translations go from every TLB of the package (21_tables R323). -/
def State.writeTlbinvh (s : State) (p fn : Nat) : State := s.tlbRemove p (fnKey p fn) [0, 1, 2, 3] none

/-- DRYFRACH (15_counters R266): F of 18 to 31 or a nonzero reserved field changes nothing and is told to the host. -/
def State.writeDryfrach (s : State) (p v : Nat) : State :=
  if v < 18 then s.modPkg p fun g => { g with dryfrac := BitVec.ofNat 32 v }
  else s.pfEvent p 0x09 0xFFFF (BitVec.ofNat 64 v)

/-- SUSPW (15_counters R269): a core's SUSP is set and its quarantine ends. -/
def State.writeSuspw (s : State) (p v : Nat) : State :=
  s.limited p 0x130 (decide (bits v 9 0 < Config.coresPerPkg)) fun s =>
    s.modCore (coreKey p (bits v 9 0)) fun c => { c with susp := BitVec.ofNat 16 (bits v 31 16), quar := false }

/-- The telemetry counts return to zero (R368). -/
def State.clearTelemetry (s : State) (p : Nat) : State :=
  let s := s.mapCores p fun c => { c with corrX := 0 }
  let s := { s with dies := s.dies.map fun ((k, d) : Nat × Die) => if k / 4 = p then (k, { d with corrM := 0 }) else (k, d) }
  s.modPkg p fun g => { g with misdir := 0, errResp := [] }

/-- CNTCLR (15_counters R260, R261, R368): DROPPED, the performance counters, the telemetry counts. -/
def State.writeCntclr (s : State) (p v : Nat) : State :=
  let s := if v.testBit 0 then s.mapCores p fun c => { c with dropped := 0 } else s
  let s := if v.testBit 1 then
      (s.mapCores p fun c => { c with perf := List.replicate 13 0 }).modPkg p fun g => { g with drySkip := 0 }
    else s
  if v.testBit 2 then s.clearTelemetry p else s

/-- PRIV: debug rights (bit 16) and link privilege (bit 17) of the function named. -/
def State.writePriv (s : State) (p v : Nat) : State :=
  s.limited p 0x140 (decide (bits v 8 0 < Config.fnsPerPkg)) fun s =>
    s.modFn (fnKey p (bits v 8 0)) fun x => { x with priv := BitVec.ofNat 2 (bits v 17 16) }

/-- FBHEAD (11_memories R208): records consumed; the full flag falls once there is room. -/
def State.writeFbhead (s : State) (p v : Nat) : State :=
  s.modPkg p fun g =>
    let g := { g with fbhead := BitVec.ofNat 64 v }
    { g with fbfull := g.fbfull && decide (g.fbSlots ≤ (g.fbtail - g.fbhead).toNat) }

/-! ### Resets (R366) -/

/-- Memory of a package as after the scrub of boot stage 4 (R365): HBM4E, vaults and scratchpads zero, tags full, nothing poisoned; the
CXL tier is kept. -/
def State.scrub (s : State) (p : Nat) : State :=
  let keeps (l : Nat) : Bool := locPkg l != p || isCxl l
  { s with
    mem := s.mem.filter (fun c => keeps c.1),
    empties := s.empties.filter (fun w => keeps (8 * w)),
    poison := s.poison.filter (fun w => keeps (8 * w)) }

/-- Entries of a table whose keys a package does not own. -/
def others {α : Type} (per p : Nat) (t : Tbl α) : Tbl α := t.filter fun x => x.1 / per != p

/-- A pod launch after the reset of one of its packages: that package's launches are over. The package that holds the pod's sequencer
forgets them all. -/
def State.resetPods (s : State) (p : Nat) : State :=
  if p = 0 then { s with pods := [] }
  else
    let pods := s.pods.map fun (x : PodLaunch) =>
      { x with done := x.done ++ x.pkgs.filter fun q => q == p && !x.done.contains q }
    { s with pods := pods.filter fun x => x.done.length < x.podn }

/-- A package reset, cold or warm: every launch ends without completion records, all state of the package returns to its reset value,
the CXL tier is kept, and boot starts again. -/
def State.resetPkg (s : State) (p : Nat) : State :=
  let gone (wk : Nat) : Bool := (s.wg wk).pkg == p
  let mine := (s.cmds.filter fun c => c.pkg == p).map (·.id)
  let cut := (s.colls.filter fun g => g.ranks.any fun r => mine.contains r.cmd).map (·.collid)
  let s := (s.scrub p).resetPods p
  { s with
    views := s.views.filter (fun x => x.1 / 2 ^ 60 / 4 != p),
    viewVer := s.viewVer.filter (fun x => x.1 / 2 ^ 60 / 4 != p),
    homeVer := s.homeVer.filter (fun x => locPkg (8 * x.1) != p),
    wordVec := s.wordVec.filter (fun x => locPkg (8 * x.1) != p),
    pkgs := tdel s.pkgs p,
    dies := others 4 p s.dies, quads := others 160 p s.quads, cores := others 640 p s.cores, units := others 516 p s.units,
    fns := others 257 p s.fns, ctxs := others 256 p s.ctxs, homes := others 256 p s.homes, fibres := others 48 p s.fibres,
    gangs := s.gangs.filter (fun x => x.2.pkg != p),
    wgs := s.wgs.filter (fun x => x.2.pkg != p),
    threads := s.threads.filter (fun x => !gone (x.1 / 2048)),
    accs := s.accs.filter (fun a => a.pkg != p),
    notices := s.notices.filter (fun n => n.pkg != p),
    offers := s.offers.filter (fun o => o.pkg != p),
    sillage := s.sillage.filter (fun m => m.key / (if m.unit then 516 else 640) != p),
    msgs := s.msgs.filter (fun m => m.pkg != p && m.srcPkg != p),
    fwds := s.fwds.filter (fun m => m.core / 640 != p),
    cmds := s.cmds.filter (fun c => c.pkg != p),
    colls := s.colls.filter (fun g => !cut.contains g.collid),
    deliveries := s.deliveries.filter (fun d => !cut.contains d.coll) }

/-- COLD_RESET: power-on. -/
def execColdReset (pkg : Nat) (s : State) : Host.Outcome State Fault Refusal := .next (s.resetPkg pkg)

/-- RESET: the host writes the warm-reset value; any other value does nothing. -/
def execReset (pkg value : Nat) (s : State) : Host.Outcome State Fault Refusal :=
  .next (s.hostDo pkg 0 fun s => if value = 0xD0B0 then s.resetPkg pkg else s)

/-- FLR of a virtual function: its launches are aborted; the registers clear with the last of them. -/
def execFlr (pkg fn : Nat) (s : State) : Host.Outcome State Fault Refusal :=
  .next (if fn = 0 || Config.fnsPerPkg ≤ fn then s
    else ((s.modFn (fnKey pkg fn) fun f => { f with flr := true }).abortFn pkg fn).settleFlr pkg fn)

/-- D3HOT_ENTRY (R367): the function's launches are aborted; it takes no record until it is back in D0. -/
def execD3hotEntry (pkg fn : Nat) (s : State) : Host.Outcome State Fault Refusal :=
  .next (if Config.fnsPerPkg ≤ fn then s
    else (s.modFn (fnKey pkg fn) fun f => { f with d3 := true }).abortFn pkg fn)

/-! ### Boot (R365) -/

/-- BOOTST: the one host write it accepts; every other is ignored without an event. -/
def State.writeBootst (s : State) (p v : Nat) : State :=
  if (s.pkg p).bootst = 1 && v = 2 then s.modPkg p fun g => { g with bootst := 2 } else s

/-- The map of a package of the pod, as the record of package `p` gives it: peers and routes. -/
def BootCfg.mapOf (c : BootCfg) (p q : Nat) : BootCfg :=
  if q = p then c
  else { c with peers := (tget ([], []) c.maps q).1, routes := (tget ([], []) c.maps q).2 }

/-- A route leads from one package to another over at most `n` standing fibres (R338). -/
def BootCfg.leads (c : BootCfg) (p d : Nat) : Nat → Nat → Bool
  | 0, x => x == d
  | n + 1, x =>
    x == d ||
      (match (c.mapOf p x).routeTo d with
       | none => false
       | some f =>
         match tfind (c.mapOf p x).peers f with
         | none => false
         | some y => decide (f < 16) && c.leads p d n y)

/-- Every destination of the pod has a route of at most four standing fibres from every package (R338). -/
def BootCfg.routed (c : BootCfg) (p : Nat) : Bool :=
  (List.range c.podSize).all fun x => (List.range c.podSize).all fun d => c.leads p d 4 x

/-- The record's fields stand within their limits (R8, R338, R364). -/
def BootCfg.good (c : BootCfg) (p : Nat) : Bool :=
  decide (c.podSize ≤ 64) && decide (p < c.podSize) && c.pkgid == p &&
    c.fnLinks.all (fun x => decide (x.1 < Config.fnsPerPkg) && decide (x.2 < 2)) &&
    c.caps.length == 4 && c.caps.all (fun n => decide (n ≤ 2 ^ 42)) &&
    c.peers.all (fun x => decide (x.1 < 16) && decide (x.2 < c.podSize) && x.2 != p) && c.telem % 4096 == 0 &&
    c.routed p

/-- A boot stage fails with an error code; the package stays there until its next reset. -/
def State.bootFail (s : State) (p e : Nat) : State :=
  s.modPkg p fun g => { g with bootst := BitVec.ofNat 64 (bits g.bootst.toNat 7 0 + 256 * e) }

/-- A failure whose cause, one of two, nothing decides (assumption 2). -/
def State.bootFail2 (s : State) (p e : Nat) : State :=
  let (n, s) := s.draw
  s.bootFail p (if Config.freeRace n then e else e + 1)

/-- A boot stage is done. -/
def State.bootTo (s : State) (p stage : Nat) : State := s.modPkg p fun g => { g with bootst := BitVec.ofNat 64 stage }

/-- BOOT_STAGE_DONE: the stage that is running completes (`ok`) or fails. Stage 2 is the host's write. -/
def execBootStageDone (pkg : Nat) (ok : Bool) (s : State) : Host.Outcome State Fault Refusal :=
  let g := s.pkg pkg
  match g.bootst.toNat with
  | 0 => .next (s.bootTo pkg 1)
  | 2 =>
    (match g.staging with
     | none => .next (s.bootFail pkg 2)
     | some c =>
       if !ok then .next (s.bootFail2 pkg 1)
       else if !c.good pkg then .next (s.bootFail pkg 2)
       else .next ((s.modPkg pkg fun g => { g with cfg := c, staging := none }).bootTo pkg 3))
  | 3 => .next (if ok then (s.scrub pkg).bootTo pkg 4 else s.bootFail pkg 3)
  | 4 =>
    .next (if ok then (s.modPkg pkg fun g => { g with podt := (s.pkg 0).podt, slotStart := (s.pkg 0).podt.toNat }).bootTo pkg 5
      else s.bootFail2 pkg 4)
  | 5 => .next (s.bootTo pkg 6)
  | _ => .next s

/-! ### Host writes -/

/-- The registers that only the physical function has. -/
def State.writePf (s : State) (p off v : Nat) : State :=
  if off = 0x100 then s.modPkg p fun g => { g with fbbase := BitVec.ofNat 64 v }
  else if off = 0x108 then
    s.limited p off (decide (12 ≤ v) && decide (v ≤ 24)) fun s => s.modPkg p fun g => { g with fbsize := BitVec.ofNat 64 v }
  else if off = 0x110 then s.writeFbhead p v
  else if off = 0x120 then s.fbflush p
  else if off = 0x128 then s.writeDryfrach p v
  else if off = 0x130 then s.writeSuspw p v
  else if off = 0x138 then s.writeCntclr p v
  else if off = 0x140 then s.writePriv p v
  else if off = 0x150 then
    s.limited p off (decide (1800 ≤ v) && decide (v ≤ 2800)) fun s => s.modPkg p fun g => { g with pwrcap := BitVec.ofNat 64 v }
  else if off = 0x158 then (if v = 0xD0B0 then s.resetPkg p else s)
  else s

/-- One 8-byte write into a function's block. Read-only and unknown offsets ignore it, and so do the physical function's registers
in another block. -/
def State.hostWriteReg (s : State) (p fn off v : Nat) : State :=
  let f := s.fn (fnKey p fn)
  let v := v % 2 ^ 64
  let b := BitVec.ofNat 64 v
  if off = 0x000 then s.writeBootst p v
  else if off = 0x010 then s.writeBase p fn off f.lqctl fun x => { x with lqbase := b }
  else if off = 0x018 then s.writeLqctl p fn v
  else if off = 0x020 then s.writeBase p fn off f.eqctl fun x => { x with eqbase := b }
  else if off = 0x028 then s.writeEqctl p fn v
  else if off = 0x030 then s.writeBase p fn off f.mbctl fun x => { x with mbqbase := b }
  else if off = 0x038 then s.writeBase p fn off f.mbctl fun x => { x with mbrbase := b }
  else if off = 0x040 then s.writeMbctl p fn v
  else if off = 0x048 then
    s.limited p off (v % 4096 == 0) fun s => s.modFn (fnKey p fn) fun x => { x with ptroot := b }
  else if off = 0x050 then s.abortId p fn (BitVec.ofNat 32 v)
  else if off = 0x058 then s.writeTlbinvh p fn
  else if fn = 0 then s.writePf p off v
  else s

/-- HOST_REG_WRITE: a write of a register by its offset. -/
def execHostRegWrite (pkg fn off value : Nat) (s : State) : Host.Outcome State Fault Refusal :=
  .next (s.hostDo pkg fn fun s => s.hostWriteReg pkg fn off value)

def execBootst (pkg value : Nat) (s : State) : Host.Outcome State Fault Refusal :=
  .next (s.hostDo pkg 0 fun s => s.writeBootst pkg value)

def execLqctl (pkg fn value : Nat) (s : State) : Host.Outcome State Fault Refusal :=
  .next (s.hostDo pkg fn fun s => s.writeLqctl pkg fn value)

def execEqctl (pkg fn value : Nat) (s : State) : Host.Outcome State Fault Refusal :=
  .next (s.hostDo pkg fn fun s => s.writeEqctl pkg fn value)

def execMbctl (pkg fn value : Nat) (s : State) : Host.Outcome State Fault Refusal :=
  .next (s.hostDo pkg fn fun s => s.writeMbctl pkg fn value)

/-- ABORT (18_queues R287): the host names a LAUNCHID. -/
def execAbort (pkg fn value : Nat) (s : State) : Host.Outcome State Fault Refusal :=
  .next (s.hostDo pkg fn fun s => s.abortId pkg fn (BitVec.ofNat 32 value))

def execTlbinvh (pkg fn : Nat) (s : State) : Host.Outcome State Fault Refusal :=
  .next (s.hostDo pkg fn fun s => s.writeTlbinvh pkg fn)

def execDryfrach (pkg value : Nat) (s : State) : Host.Outcome State Fault Refusal :=
  .next (s.hostDo pkg 0 fun s => s.writeDryfrach pkg value)

def execSuspw (pkg value : Nat) (s : State) : Host.Outcome State Fault Refusal :=
  .next (s.hostDo pkg 0 fun s => s.writeSuspw pkg value)

def execCntclrTelemetry (pkg : Nat) (s : State) : Host.Outcome State Fault Refusal :=
  .next (s.hostDo pkg 0 fun s => s.clearTelemetry pkg)

/-! ### Power and telemetry (R367, R368) -/

/-- PLANE_ARRAY_PAUSE: the arrays pause, or go on, to hold power within PWRCAP. -/
def execPlaneArrayPause (pkg : Nat) (on : Bool) (s : State) : Host.Outcome State Fault Refusal :=
  .next (s.modPkg pkg fun g => { g with paused := on })

/-- TELEMETRY_POST: a record of 4 KiB whose layout the spec leaves open goes to the region that the configuration record names. -/
def execTelemetryPost (pkg : Nat) (s : State) : Host.Outcome State Fault Refusal :=
  if !(s.pkg pkg).ready then .next s
  else
    match s.freeBytes 4096 with
    | (b, s) => .next (s.devRec pkg (s.pkg pkg).cfg.telem b)

/-! ### I-cycles (04_registers R80, 01_machine R14) -/

/-- The debug values still owed, one I-cycle later (10_trap_state R183). -/
def ageDbg (l : List DbgOld) : List DbgOld := (l.filter fun x => 1 < x.left).map fun x => { x with left := x.left - 1 }

/-- A copy's latest updates, one I-cycle older (09_control R175). -/
def Bind.age (b : Bind) : Bind :=
  { b with young := (b.young.filter fun x => 1 < x.left).map fun x => { x with left := x.left - 1 } }

/-- What a thread notes at the end of an I-cycle: whether it is runnable, and since when (18_queues R298). -/
def Thread.note (t : Thread) (run : Bool) (now : Nat) : Thread :=
  { t with stood := run, aged := t.aged && run, since := if run && !t.stood then now else t.since }

/-- Which threads of a core are runnable at the end of an I-cycle. -/
def State.noteThreads (s : State) (p ck : Nat) : State :=
  let now := s.clockOf p
  (s.wgsOn ck).foldl (fun u wk => (s.liveTids wk).foldl (fun u i =>
    u.modThr (thrKey wk i) fun t => t.note (s.runnable wk i) now) u) s

/-- What a core has to note at the end of an I-cycle: its idle slots, whether anything ran, and its free slots. -/
def State.tickCore (s : State) (p ck : Nat) : State :=
  let c := s.core ck
  let runs := !c.issued.isEmpty || !(s.cands ck).isEmpty
  let s := s.noteThreads p ck
  let s := if !runs && c.resv.isNone && !(s.wgsOn ck).isEmpty then s.count ck 3 2 else s
  let now := s.clockOf p
  s.modCore ck fun c => { c with busy := if runs then now else c.busy, issued := [], slotUsed := 0, dqUse := .none, binds := c.binds.map Bind.age,
                                 resv := c.resv.map fun j => { j with went := false } }

/-- The routers of a die carry something: a notice, an access, a message, an offer or an update (22_links R331). -/
def State.carries (s : State) (p d : Nat) : Bool :=
  let here (ck : Nat) : Bool := ck / 640 == p && ck % 640 / 160 == d
  (s.notices.any fun n => n.pkg == p && n.die == d) ||
    (s.accs.any fun a => a.pkg == p && a.die == d && !isScratch a.loc && !(a.performed && (a.done || !a.kind.returns))) ||
    (s.msgs.any fun m => here (coreKey m.pkg m.core) || here (coreKey m.srcPkg m.srcCore)) ||
    (s.fwds.any fun m => here m.core) ||
    (s.offers.any fun o => here (s.wg (o.thr / 2048)).ckey) ||
    s.sillage.any fun m => !m.unit && here m.key

/-- A die carries a packet in this I-cycle: the routers that it passes, which the spec does not name, are awake (assumption 93). -/
def State.carry (s : State) (p d : Nat) : State :=
  let now := s.clockOf p
  if (s.die (dieKey p d)).gated.isEmpty then s.modDie (dieKey p d) fun x => { x with carried := now }
  else
    let (n, s) := s.draw
    s.modDie (dieKey p d) fun x => { x with carried := now, gated := x.gated.filter fun r => !(Config.freeChoice n).testBit r }

/-- What a die has to note: whether its routers carried anything, and that it may place again. -/
def State.tickDie (s : State) (p d : Nat) : State :=
  (if s.carries p d then s.carry p d else s).modDie (dieKey p d) fun x => { x with placed := false }

/-- The incumbent copies of a package's Headspace units, one I-cycle later (23_index R356). -/
def State.ageUnits (s : State) (p : Nat) : State :=
  { s with units := s.units.map fun (k, (u : HsUnit)) => if k / 516 = p then (k, { u with binds := u.binds.map Bind.age }) else (k, u) }

/-- I_CYCLE: CLOCK rises by one, every core's slots are free again, mailbox records that waited for room go out, and TLBINV waits that
are over end. -/
def execICycle (pkg : Nat) (s : State) : Host.Outcome State Fault Refusal :=
  let cores := (s.cores.filter fun x => x.1 / 640 == pkg).map (·.1)
  let s := cores.foldl (fun s k => s.tickCore pkg k) (s.mapCores pkg fun c => { c with dbgOld := ageDbg c.dbgOld })
  let s := [0, 1, 2, 3].foldl (fun s d => s.tickDie pkg d) s
  let s := s.ageUnits pkg
  let s := ((s.fns.filter fun x => x.1 / 257 == pkg && !x.2.mbOut.isEmpty).map fun x => x.1 % 257).foldl (fun s f => s.mbFlush pkg f) s
  let waits := (s.threads.filter fun x => (s.wg (x.1 / 2048)).pkg == pkg &&
    (match x.2.hold with | .tlbinv _ => true | _ => false)).map (·.1)
  let s := waits.foldl State.settleInv s
  .next (s.modPkg pkg fun g => { g with clock := g.clock + 1 })

end Sys2Proof.Machine
end

