-- ==== Sys2Proof/Machine/Dispatch.lean ====
section
/-! DEFINITION. One arm per instruction: its meaning, or a rejection by name. -/

namespace Sys2Proof.Machine

def exec (i : Instr) (s : State) : Host.Outcome State Fault Refusal :=
  match i with
  | .add o t sat => Sys2Proof.Machine.execAdd o t sat s
  | .sub o t sat => Sys2Proof.Machine.execSub o t sat s
  | .addc o w borrow => Sys2Proof.Machine.execAddc o w borrow s
  | .mul o t sat => Sys2Proof.Machine.execMul o t sat s
  | .mulh o w sg => Sys2Proof.Machine.execMulh o w sg s
  | .mad o c t sat => Sys2Proof.Machine.execMad o c t sat s
  | .div o t sat => Sys2Proof.Machine.execDiv o t sat s
  | .rem o t => Sys2Proof.Machine.execRem o t s
  | .min o t => Sys2Proof.Machine.execMin o t s
  | .max o t => Sys2Proof.Machine.execMax o t s
  | .abs o w sat => Sys2Proof.Machine.execAbs o w sat s
  | .and o t => Sys2Proof.Machine.execAnd o t s
  | .or o t => Sys2Proof.Machine.execOr o t s
  | .xor o t => Sys2Proof.Machine.execXor o t s
  | .andn o t => Sys2Proof.Machine.execAndn o t s
  | .shl o t sat => Sys2Proof.Machine.execShl o t sat s
  | .shr o t => Sys2Proof.Machine.execShr o t s
  | .sar o t => Sys2Proof.Machine.execSar o t s
  | .rol o t => Sys2Proof.Machine.execRol o t s
  | .popc o w => Sys2Proof.Machine.execPopc o w s
  | .clz o w => Sys2Proof.Machine.execClz o w s
  | .ctz o w => Sys2Proof.Machine.execCtz o w s
  | .brev o t => Sys2Proof.Machine.execBrev o t s
  | .bfx o t => Sys2Proof.Machine.execBfx o t s
  | .bfi o t => Sys2Proof.Machine.execBfi o t s
  | .sel o t p => Sys2Proof.Machine.execSel o t p s
  | .cmp o t c => Sys2Proof.Machine.execCmp o t c s
  | .mov d b sm g t => Sys2Proof.Machine.execMov d b sm g t s
  | .movi d g v => Sys2Proof.Machine.execMovi d g v s
  | .moviI64 d g v => Sys2Proof.Machine.execMoviI64 d g v s
  | .lea d m b t => Sys2Proof.Machine.execLea d m b t s
  | .addi d a g v => Sys2Proof.Machine.execAddi d a g v s
  | .fadd o f rm => Sys2Proof.Machine.execFadd o f rm s
  | .fsub o f rm => Sys2Proof.Machine.execFsub o f rm s
  | .fmul o f rm => Sys2Proof.Machine.execFmul o f rm s
  | .ffma o c f rm => Sys2Proof.Machine.execFfma o c f rm s
  | .fmin o f => Sys2Proof.Machine.execFmin o f s
  | .fmax o f => Sys2Proof.Machine.execFmax o f s
  | .fcmp o f c => Sys2Proof.Machine.execFcmp o f c s
  | .fclass o f => Sys2Proof.Machine.execFclass o f s
  | .frcp o f => Sys2Proof.Machine.execFrcp o f s
  | .fsqrt o f => Sys2Proof.Machine.execFsqrt o f s
  | .frsq o f => Sys2Proof.Machine.execFrsq o f s
  | .fexp2 o f => Sys2Proof.Machine.execFexp2 o f s
  | .flog2 o f => Sys2Proof.Machine.execFlog2 o f s
  | .fsint o f => Sys2Proof.Machine.execFsint o f s
  | .fcost o f => Sys2Proof.Machine.execFcost o f s
  | .fcvt o dst src rm sat => Sys2Proof.Machine.execFcvt o dst src rm sat s
  | .fcvti o t src rm sat => Sys2Proof.Machine.execFcvti o t src rm sat s
  | .icvtf o t dst rm => Sys2Proof.Machine.execIcvtf o t dst rm s
  | .fpack o t sat => Sys2Proof.Machine.execFpack o t sat s
  | .funpk o t => Sys2Proof.Machine.execFunpk o t s
  | .fscaleacc o f rm sat ak e8m0 => Sys2Proof.Machine.execFscaleacc o f rm sat ak e8m0 s
  | .ordkey o t => Sys2Proof.Machine.execOrdkey o t s
  | .fdot2 o bf rm => Sys2Proof.Machine.execFdot2 o bf rm s
  | .frnd o f rm => Sys2Proof.Machine.execFrnd o f rm s
  | .perm o w => Sys2Proof.Machine.execPerm o w s
  | .shufx o w seg m => Sys2Proof.Machine.execShufx o w seg m s
  | .vote d p g => Sys2Proof.Machine.execVote d p g s
  | .matchL o w hi => Sys2Proof.Machine.execMatchL o w hi s
  | .reduce o t seg op => Sys2Proof.Machine.execReduce o t seg op s
  | .scan o t seg op => Sys2Proof.Machine.execScan o t seg op s
  | .lscan o f seg => Sys2Proof.Machine.execLscan o f seg s
  | .cavity o t seg op => Sys2Proof.Machine.execCavity o t seg op s
  | .fwds b sm g w ch blk => Sys2Proof.Machine.execFwds b sm g w ch blk s
  | .fwdr d g w ch blk => Sys2Proof.Machine.execFwdr d g w ch blk s
  | .elect q g => Sys2Proof.Machine.execElect q g s
  | .tdesc slot a g => Sys2Proof.Machine.execTdesc slot a g s
  | .plane dst src idx g => Sys2Proof.Machine.execPlane dst src idx g s
  | .align dst src idx g => Sys2Proof.Machine.execAlign dst src idx g s
  | .cbload m => Sys2Proof.Machine.execCbload m s
  | .mma acc ta tb pair g => Sys2Proof.Machine.execMma acc ta tb pair g s
  | .mmac acc ta tb pair g => Sys2Proof.Machine.execMmac acc ta tb pair g s
  | .accz mask pair g => Sys2Proof.Machine.execAccz mask pair g s
  | .accrd d acc b sm g => Sys2Proof.Machine.execAccrd d acc b sm g s
  | .accst acc m b => Sys2Proof.Machine.execAccst acc m b s
  | .mmawait mask g => Sys2Proof.Machine.execMmawait mask g s
  | .bra g v => Sys2Proof.Machine.execBra g v s
  | .brc c a g v => Sys2Proof.Machine.execBrc c a g v s
  | .call d g v => Sys2Proof.Machine.execCall d g v s
  | .ret b g => Sys2Proof.Machine.execRet b g s
  | .jmpi b g => Sys2Proof.Machine.execJmpi b g s
  | .jmpiLink d b g => Sys2Proof.Machine.execJmpiLink d b g s
  | .rjoin n g => Sys2Proof.Machine.execRjoin n g s
  | .rwait n g => Sys2Proof.Machine.execRwait n g s
  | .exit g => Sys2Proof.Machine.execExit g s
  | .nop g => Sys2Proof.Machine.execNop g s
  | .yield g => Sys2Proof.Machine.execYield g s
  | .shield n g => Sys2Proof.Machine.execShield n g s
  | .bound n b sm g => Sys2Proof.Machine.execBound n b sm g s
  | .boundNone g => Sys2Proof.Machine.execBoundNone g s
  | .incofr n a b sm g => Sys2Proof.Machine.execIncofr n a b sm g s
  | .incrd d p n g => Sys2Proof.Machine.execIncrd d p n g s
  | .incwait n b sm g => Sys2Proof.Machine.execIncwait n b sm g s
  | .cancel g => Sys2Proof.Machine.execCancel g s
  | .ld d m t o => Sys2Proof.Machine.execLd d m t o s
  | .st m b w o => Sys2Proof.Machine.execSt m b w o s
  | .ldv d m t c o => Sys2Proof.Machine.execLdv d m t c o s
  | .stv m b w c o => Sys2Proof.Machine.execStv m b w c o s
  | .atom op d m b w sg o => Sys2Proof.Machine.execAtom op d m b w sg o s
  | .acas d m b w o => Sys2Proof.Machine.execAcas d m b w o s
  | .ldfe d m o => Sys2Proof.Machine.execLdfe d m o s
  | .stfe m b o => Sys2Proof.Machine.execStfe m b o s
  | .fetagRead d m o => Sys2Proof.Machine.execFetagRead d m o s
  | .fetagFill m o => Sys2Proof.Machine.execFetagFill m o s
  | .fetagEmpty m o => Sys2Proof.Machine.execFetagEmpty m o s
  | .fence o g => Sys2Proof.Machine.execFence o g s
  | .pref m => Sys2Proof.Machine.execPref m s
  | .tcopy e => Sys2Proof.Machine.execTcopy e s
  | .tgather e => Sys2Proof.Machine.execTgather e s
  | .cavred e => Sys2Proof.Machine.execCavred e s
  | .loopnest e => Sys2Proof.Machine.execLoopnest e s
  | .search e => Sys2Proof.Machine.execSearch e s
  | .spawn d m o => Sys2Proof.Machine.execSpawn d m o s
  | .ringset d m b n => Sys2Proof.Machine.execRingset d m b n s
  | .send e => Sys2Proof.Machine.execSend e s
  | .recvPoll d n g => Sys2Proof.Machine.execRecvPoll d n g s
  | .recvWait d n g => Sys2Proof.Machine.execRecvWait d n g s
  | .bar d sc n g => Sys2Proof.Machine.execBar d sc n g s
  | .baro d sc n g => Sys2Proof.Machine.execBaro d sc n g s
  | .barw b sc n g => Sys2Proof.Machine.execBarw b sc n g s
  | .waitptr c b g => Sys2Proof.Machine.execWaitptr c b g s
  | .waitptrTicket b g => Sys2Proof.Machine.execWaitptrTicket b g s
  | .cntrd d sel sc g => Sys2Proof.Machine.execCntrd d sel sc g s
  | .tlbinvPage a sc g => Sys2Proof.Machine.execTlbinvPage a sc g s
  | .tlbinvVf sc g => Sys2Proof.Machine.execTlbinvVf sc g s
  | .lpark d b g => Sys2Proof.Machine.execLpark d b g s
  | .lwake d b g => Sys2Proof.Machine.execLwake d b g s
  | .slotset d m => Sys2Proof.Machine.execSlotset d m s
  | .hspub e => Sys2Proof.Machine.execHspub e s
  | .srd d w sel g => Sys2Proof.Machine.execSrd d w sel g s
  | .swr b w sel g => Sys2Proof.Machine.execSwr b w sel g s
  | .trap c g => Sys2Proof.Machine.execTrap c g s
  | .rte skip g => Sys2Proof.Machine.execRte skip g s
  | .brk c g => Sys2Proof.Machine.execBrk c g s
  | .event b w g => Sys2Proof.Machine.execEvent b w g s
  | .eventMbx b w g => Sys2Proof.Machine.execEventMbx b w g s
  | .halt g => Sys2Proof.Machine.execHalt g s
  | .icflush sc g => Sys2Proof.Machine.execIcflush sc g s
  | .addHalf h snd => Sys2Proof.Machine.execAddHalf h snd s
  | .subHalf h snd => Sys2Proof.Machine.execSubHalf h snd s
  | .mulHalf h snd => Sys2Proof.Machine.execMulHalf h snd s
  | .minI32Half h snd => Sys2Proof.Machine.execMinI32Half h snd s
  | .minN32Half h snd => Sys2Proof.Machine.execMinN32Half h snd s
  | .maxI32Half h snd => Sys2Proof.Machine.execMaxI32Half h snd s
  | .maxN32Half h snd => Sys2Proof.Machine.execMaxN32Half h snd s
  | .absI32Half h snd => Sys2Proof.Machine.execAbsI32Half h snd s
  | .andHalf h snd => Sys2Proof.Machine.execAndHalf h snd s
  | .orHalf h snd => Sys2Proof.Machine.execOrHalf h snd s
  | .xorHalf h snd => Sys2Proof.Machine.execXorHalf h snd s
  | .andnHalf h snd => Sys2Proof.Machine.execAndnHalf h snd s
  | .shlHalf h snd => Sys2Proof.Machine.execShlHalf h snd s
  | .shrHalf h snd => Sys2Proof.Machine.execShrHalf h snd s
  | .sarHalf h snd => Sys2Proof.Machine.execSarHalf h snd s
  | .rolHalf h snd => Sys2Proof.Machine.execRolHalf h snd s
  | .popcHalf h snd => Sys2Proof.Machine.execPopcHalf h snd s
  | .clzHalf h snd => Sys2Proof.Machine.execClzHalf h snd s
  | .ctzHalf h snd => Sys2Proof.Machine.execCtzHalf h snd s
  | .brevHalf h snd => Sys2Proof.Machine.execBrevHalf h snd s
  | .movHalf h snd => Sys2Proof.Machine.execMovHalf h snd s
  | .faddHalf h snd => Sys2Proof.Machine.execFaddHalf h snd s
  | .fsubHalf h snd => Sys2Proof.Machine.execFsubHalf h snd s
  | .fmulHalf h snd => Sys2Proof.Machine.execFmulHalf h snd s
  | .fminHalf h snd => Sys2Proof.Machine.execFminHalf h snd s
  | .fmaxHalf h snd => Sys2Proof.Machine.execFmaxHalf h snd s
  | .frcpHalf h snd => Sys2Proof.Machine.execFrcpHalf h snd s
  | .fsqrtHalf h snd => Sys2Proof.Machine.execFsqrtHalf h snd s
  | .frsqHalf h snd => Sys2Proof.Machine.execFrsqHalf h snd s
  | .fexp2Half h snd => Sys2Proof.Machine.execFexp2Half h snd s
  | .flog2Half h snd => Sys2Proof.Machine.execFlog2Half h snd s
  | .frndHalf h snd => Sys2Proof.Machine.execFrndHalf h snd s
  | .ldB32Half h snd => Sys2Proof.Machine.execLdB32Half h snd s
  | .stB32Half h snd => Sys2Proof.Machine.execStB32Half h snd s
  | .ldB64Half h snd => Sys2Proof.Machine.execLdB64Half h snd s
  | .stB64Half h snd => Sys2Proof.Machine.execStB64Half h snd s
  | .prefHalf h snd => Sys2Proof.Machine.execPrefHalf h snd s
  | .permHalf h snd => Sys2Proof.Machine.execPermHalf h snd s
  | .reduceAddI32Half h snd => Sys2Proof.Machine.execReduceAddI32Half h snd s
  | .reduceMaxI32Half h snd => Sys2Proof.Machine.execReduceMaxI32Half h snd s
  | .reduceMinI32Half h snd => Sys2Proof.Machine.execReduceMinI32Half h snd s
  | .scanAddI32Half h snd => Sys2Proof.Machine.execScanAddI32Half h snd s
  | .faultRecordPost pkg die => Sys2Proof.Machine.execFaultRecordPost pkg die s
  | .fbflush pkg => Sys2Proof.Machine.execFbflush pkg s
  | .accessReplay thr => Sys2Proof.Machine.execAccessReplay thr s
  | .tlbWalk pkg core fn va => Sys2Proof.Machine.execTlbWalk pkg core fn va s
  | .storeAtHome id => Sys2Proof.Machine.execStoreAtHome id s
  | .noticeInstall id => Sys2Proof.Machine.execNoticeInstall id s
  | .loadReturn id => Sys2Proof.Machine.execLoadReturn id s
  | .atomReturn id => Sys2Proof.Machine.execAtomReturn id s
  | .tagWaitAbandon pkg ctx => Sys2Proof.Machine.execTagWaitAbandon pkg ctx s
  | .peerAck id => Sys2Proof.Machine.execPeerAck id s
  | .scFencePlace thr => Sys2Proof.Machine.execScFencePlace thr s
  | .peerErrorResponse id => Sys2Proof.Machine.execPeerErrorResponse id s
  | .hostMemWrite pkg pa bytes => Sys2Proof.Machine.execHostMemWrite pkg pa bytes s
  | .offerArrival id => Sys2Proof.Machine.execOfferArrival id s
  | .sillageDelivery id => Sys2Proof.Machine.execSillageDelivery id s
  | .dominanceCancel thr => Sys2Proof.Machine.execDominanceCancel thr s
  | .rbRelease wg n => Sys2Proof.Machine.execRbRelease wg n s
  | .phaseComplete sc owner n => Sys2Proof.Machine.execPhaseComplete sc owner n s
  | .barrierWake thr => Sys2Proof.Machine.execBarrierWake thr s
  | .incwaitWake thr => Sys2Proof.Machine.execIncwaitWake thr s
  | .waitptrWake thr => Sys2Proof.Machine.execWaitptrWake thr s
  | .recvTake thr => Sys2Proof.Machine.execRecvTake thr s
  | .forwardArrival id => Sys2Proof.Machine.execForwardArrival id s
  | .threadAged thr => Sys2Proof.Machine.execThreadAged thr s
  | .yieldExpiry thr => Sys2Proof.Machine.execYieldExpiry thr s
  | .planeOpRetire pkg core => Sys2Proof.Machine.execPlaneOpRetire pkg core s
  | .cbloadDataReturn id => Sys2Proof.Machine.execCbloadDataReturn id s
  | .copyChunkDeliver pkg core ch => Sys2Proof.Machine.execCopyChunkDeliver pkg core ch s
  | .commandComplete id => Sys2Proof.Machine.execCommandComplete id s
  | .collectiveForm collid => Sys2Proof.Machine.execCollectiveForm collid s
  | .stagingGrant collid => Sys2Proof.Machine.execStagingGrant collid s
  | .chunkArrival collid chunk rank => Sys2Proof.Machine.execChunkArrival collid chunk rank s
  | .reduceBlockDispatch pkg die => Sys2Proof.Machine.execReduceBlockDispatch pkg die s
  | .reduceBlockEnd pkg core => Sys2Proof.Machine.execReduceBlockEnd pkg core s
  | .deliveryArrival id => Sys2Proof.Machine.execDeliveryArrival id s
  | .loopIterationStart pkg core => Sys2Proof.Machine.execLoopIterationStart pkg core s
  | .loopPlaneStep pkg core => Sys2Proof.Machine.execLoopPlaneStep pkg core s
  | .loopWakeFill pkg core => Sys2Proof.Machine.execLoopWakeFill pkg core s
  | .loopPermitReturn pkg core => Sys2Proof.Machine.execLoopPermitReturn pkg core s
  | .loopnestAbort pkg core => Sys2Proof.Machine.execLoopnestAbort pkg core s
  | .messageAppend id => Sys2Proof.Machine.execMessageAppend id s
  | .messageRetry id => Sys2Proof.Machine.execMessageRetry id s
  | .launchAccept pkg => Sys2Proof.Machine.execLaunchAccept pkg s
  | .podRegisterAnswer pkg fn => Sys2Proof.Machine.execPodRegisterAnswer pkg fn s
  | .launchComplete pkg ctx => Sys2Proof.Machine.execLaunchComplete pkg ctx s
  | .launchEventPost pkg fn => Sys2Proof.Machine.execLaunchEventPost pkg fn s
  | .gangPlace pkg => Sys2Proof.Machine.execGangPlace pkg s
  | .placementWaitExpiry pkg fn => Sys2Proof.Machine.execPlacementWaitExpiry pkg fn s
  | .gangRetire gang => Sys2Proof.Machine.execGangRetire gang s
  | .engineStopAck gang cls => Sys2Proof.Machine.execEngineStopAck gang cls s
  | .hardwareSave gang => Sys2Proof.Machine.execHardwareSave gang s
  | .preemptFree gang => Sys2Proof.Machine.execPreemptFree gang s
  | .gangResume pkg => Sys2Proof.Machine.execGangResume pkg s
  | .gather pkg core => Sys2Proof.Machine.execGather pkg core s
  | .workgroupDispatch pkg core => Sys2Proof.Machine.execWorkgroupDispatch pkg core s
  | .stealRequest pkg core => Sys2Proof.Machine.execStealRequest pkg core s
  | .stealArrival pkg core => Sys2Proof.Machine.execStealArrival pkg core s
  | .drydownCheckStart pkg => Sys2Proof.Machine.execDrydownCheckStart pkg s
  | .reexecutionEnd id => Sys2Proof.Machine.execReexecutionEnd id s
  | .arbitrationEnd id => Sys2Proof.Machine.execArbitrationEnd id s
  | .haltwg pkg fn => Sys2Proof.Machine.execHaltwg pkg fn s
  | .release pkg fn => Sys2Proof.Machine.execRelease pkg fn s
  | .step pkg fn => Sys2Proof.Machine.execStep pkg fn s
  | .stepComplete pkg core => Sys2Proof.Machine.execStepComplete pkg core s
  | .rdreg pkg fn => Sys2Proof.Machine.execRdreg pkg fn s
  | .wrreg pkg fn => Sys2Proof.Machine.execWrreg pkg fn s
  | .wrregf pkg fn => Sys2Proof.Machine.execWrregf pkg fn s
  | .wrdbg pkg fn => Sys2Proof.Machine.execWrdbg pkg fn s
  | .queryDistribute id => Sys2Proof.Machine.execQueryDistribute id s
  | .bucketWalk pkg unit => Sys2Proof.Machine.execBucketWalk pkg unit s
  | .resultAppend pkg unit => Sys2Proof.Machine.execResultAppend pkg unit s
  | .hspubPerform pkg unit => Sys2Proof.Machine.execHspubPerform pkg unit s
  | .dataFlit pkg fibre => Sys2Proof.Machine.execDataFlit pkg fibre s
  | .ackFlit pkg fibre => Sys2Proof.Machine.execAckFlit pkg fibre s
  | .replayRequest pkg fibre => Sys2Proof.Machine.execReplayRequest pkg fibre s
  | .ackTimeout pkg fibre => Sys2Proof.Machine.execAckTimeout pkg fibre s
  | .lossDetect pkg fibre => Sys2Proof.Machine.execLossDetect pkg fibre s
  | .lossReport pkg fibre => Sys2Proof.Machine.execLossReport pkg fibre s
  | .stripeFlit pkg fibre => Sys2Proof.Machine.execStripeFlit pkg fibre s
  | .slotStart pkg => Sys2Proof.Machine.execSlotStart pkg s
  | .guardStart pkg => Sys2Proof.Machine.execGuardStart pkg s
  | .slotEnd pkg => Sys2Proof.Machine.execSlotEnd pkg s
  | .slotTableStart pkg => Sys2Proof.Machine.execSlotTableStart pkg s
  | .routerGate pkg die => Sys2Proof.Machine.execRouterGate pkg die s
  | .routerWake pkg die => Sys2Proof.Machine.execRouterWake pkg die s
  | .podtSync pkg => Sys2Proof.Machine.execPodtSync pkg s
  | .coldReset pkg => Sys2Proof.Machine.execColdReset pkg s
  | .reset pkg value => Sys2Proof.Machine.execReset pkg value s
  | .flr pkg fn => Sys2Proof.Machine.execFlr pkg fn s
  | .d3hotEntry pkg fn => Sys2Proof.Machine.execD3hotEntry pkg fn s
  | .bootst pkg value => Sys2Proof.Machine.execBootst pkg value s
  | .bootStageDone pkg ok => Sys2Proof.Machine.execBootStageDone pkg ok s
  | .hostRegWrite pkg fn off value => Sys2Proof.Machine.execHostRegWrite pkg fn off value s
  | .lqctl pkg fn value => Sys2Proof.Machine.execLqctl pkg fn value s
  | .eqctl pkg fn value => Sys2Proof.Machine.execEqctl pkg fn value s
  | .mbctl pkg fn value => Sys2Proof.Machine.execMbctl pkg fn value s
  | .abort pkg fn value => Sys2Proof.Machine.execAbort pkg fn value s
  | .tlbinvh pkg fn => Sys2Proof.Machine.execTlbinvh pkg fn s
  | .dryfrach pkg value => Sys2Proof.Machine.execDryfrach pkg value s
  | .suspw pkg value => Sys2Proof.Machine.execSuspw pkg value s
  | .cntclrDropped pkg core => Sys2Proof.Machine.execCntclrDropped pkg core s
  | .cntclrPerf pkg core => Sys2Proof.Machine.execCntclrPerf pkg core s
  | .cntclrTelemetry pkg => Sys2Proof.Machine.execCntclrTelemetry pkg s
  | .telemetryPost pkg => Sys2Proof.Machine.execTelemetryPost pkg s
  | .iCycle pkg => Sys2Proof.Machine.execICycle pkg s
  | .podtNs pkg => Sys2Proof.Machine.execPodtNs pkg s
  | .flitSent pkg fibre => Sys2Proof.Machine.execFlitSent pkg fibre s
  | .preemptionRequest gang => Sys2Proof.Machine.execPreemptionRequest gang s
  | .planeArrayPause pkg on => Sys2Proof.Machine.execPlaneArrayPause pkg on s
  | .icflushCompletion thr => Sys2Proof.Machine.execIcflushCompletion thr s
  | .lightConfirmation pkg fibre mask => Sys2Proof.Machine.execLightConfirmation pkg fibre mask s

end Sys2Proof.Machine
end

