-- ==== Sys2Proof/Machine/Issue.lean ====
section
/-! DEFINITION. One issue opportunity of one slot: what a boundary owes (10_trap_state R182), fetch, decode, execution, and fusion
(03_encoding R66, R67). -/

namespace Sys2Proof.Config

/-- What happens when no input names it: the spec leaves the order of events open (assumption 2). -/
opaque freeTurn : Nat → Machine.Turn

end Sys2Proof.Config

namespace Sys2Proof.Machine

/-! ### Boundaries (R182) -/

/-- The site of some threads of a candidate. -/
def Group.site (c : Group) (s : State) (slot : Nat) (tids : List Nat) : Site :=
  let w := s.wg c.wg
  { pkg := w.pkg, core := w.core, wg := c.wg, tids := tids, pc := c.pc, word := 0, slot := slot }

/-- The breakpoint register that matches a word of a debug launch (R183). -/
def State.brkMatch (s : State) (wk : Nat) (pc : W64) : Option Nat :=
  let w := s.wg wk
  if (s.launchOf w).debug then
    (List.range 4).find? fun n =>
      let b := (s.core w.ckey).inForce (0x19 + n)
      b.getLsbD 0 && (b >>> 3) == (pc >>> 3)
  else none

/-- A fetch from an absent page parks the fragment (R206). -/
def State.parkFetch (s : State) (c : Site) (va : Nat) : State :=
  let w := s.wg c.wg
  let s := s.modTids c.wg c.tids fun t => { t with park := some { va := va, kind := .fetch } }
  let s := s.count w.ckey 8 1
  s.faultAt w.pkg w.core (s.ctx w.ctx).fn w.launchid va .fetch

/-! ### Fusion (R66) -/

/-- Each later member of a fused sequence reads the destination of the one before, under the same guard. -/
def links : Instr → Instr → Bool
  | .shl o _ _, .add p t s => o.g == p.g && (names (.add p t s)).xr.contains o.d.toNat
  | .cmp o _ _, .bra g _ => g.q == o.q
  | .lea d m _ _, .ld _ n _ _ => m.g == n.g && n.a == .x d
  | .lea d m _ _, .ldv _ n _ _ _ => m.g == n.g && n.a == .x d
  | .fmul o _ _, .fadd p f r => o.g == p.g && (names (.fadd p f r)).xr.contains o.d.toNat
  | .fcvt o _ _ _ _, .fpack p t s => o.g == p.g && (names (.fpack p t s)).xr.contains o.d.toNat
  | .addi d _ g _, .cmp p t c => g == p.g && (names (.cmp p t c)).xr.contains d.toNat
  | .fscaleacc o _ _ _ _ _, .fcvt p d t r s => o.g == p.g && (names (.fcvt p d t r s)).xr.contains o.d.toNat
  | .fcvt o _ _ _ _, .st m b w e => o.g == m.g && (names (.st m b w e)).xr.contains o.d.toNat
  | _, _ => false

/-- The members after the first of a fused sequence that begins with these words. -/
def fusedTail (a : Instr) (b c : Option Instr) : List Instr :=
  match a, b, c with
  | .addi d x g v, some (.cmp o t k), some (.bra h n) =>
    if links (.addi d x g v) (.cmp o t k) && links (.cmp o t k) (.bra h n) then [.cmp o t k, .bra h n] else []
  | .fscaleacc o f r s k e, some (.fcvt p d t q u), some (.st m y w z) =>
    if links (.fscaleacc o f r s k e) (.fcvt p d t q u) && links (.fcvt p d t q u) (.st m y w z) then
      [.fcvt p d t q u, .st m y w z]
    else []
  | .addi _ _ _ _, _, _ => []
  | .fscaleacc _ _ _ _ _ _, _, _ => []
  | .fcvt o d t r s, some (.fpack p k u), _ => if links (.fcvt o d t r s) (.fpack p k u) then [.fpack p k u] else []
  | .fcvt _ _ _ _ _, _, _ => []
  | a, some b, _ => if links a b then [b] else []
  | _, none, _ => []

/-- The later members that fuse with `i` at a site: no breakpoint, single-step or expiring shield among them, and every
source of theirs ready. -/
def State.fuses (s : State) (c : Site) (i : Instr) : List Instr :=
  match c.tids with
  | [] => []
  | t0 :: _ =>
    let at' (n : Nat) : W64 := c.pc + BitVec.ofNat 64 (8 * n)
    let l := fusedTail i (s.peek c.wg t0 (at' 1)) (s.peek c.wg t0 (at' 2))
    if !(s.core (coreKey c.pkg c.core)).dbgctl.getLsbD 0 &&
        (List.range (l.length + 1)).all (fun n => s.brkMatch c.wg (at' n) == none) &&
        c.tids.all (fun t =>
          let n := (s.thr (thrKey c.wg t)).shc
          (n == 0 || decide (l.length < n)) && l.all (s.sources c.wg t)) then l
    else []

/-! ### Issue -/

/-- The threads of a site that stand at the next word and go on with a fused sequence. -/
def State.follows (s : State) (c : Site) (hm : Bool) : List Nat :=
  c.tids.filter fun t =>
    let u := s.thr (thrKey c.wg t)
    s.ready c.wg t && u.pc == c.nextPc && u.handler == hm && u.watch == none

/-- Execute the later members of a fused sequence, each with its own word and PC, ending at the first that does not complete. -/
def runTail (l : List Instr) (c : Site) (hm : Bool) (s : State) : Host.Outcome State Fault Refusal :=
  match l with
  | [] => .next s
  | i :: r =>
    let tids := s.follows c hm
    if tids.isEmpty then .next s
    else
      let d : Site := { c with tids := tids, pc := c.nextPc, word := (encode i).getD c.word }
      match exec i { s with cur := some d } with
      | .next s' => runTail r d hm s'
      | .fault f => .fault f
      | .refused f => .refused f

/-- What an attempt to issue answers: a word issued or trapped; the opportunity was taken without a word, by a fetch that parks or a word
that now awaits its place in the sc order or an error response; or the word is held. -/
inductive Tried where
  | issued (s : State)
  | took (s : State)
  | held
  | stop (o : Host.Outcome State Fault Refusal)

/-- The word was held: no thread and no issue count has changed. -/
def State.heldAs (s t : State) (c : Site) : Bool :=
  let ck := coreKey c.pkg c.core
  (s.core ck).perf.getD 0 0 == (t.core ck).perf.getD 0 0 && c.tids.all fun i => s.thr (thrKey c.wg i) == t.thr (thrKey c.wg i)

/-- No word has issued, and no thread has trapped: each stands where it stood. -/
def State.stands (s t : State) (c : Site) : Bool :=
  let ck := coreKey c.pkg c.core
  (s.core ck).perf.getD 0 0 == (t.core ck).perf.getD 0 0 && c.tids.all fun i =>
    let u := s.thr (thrKey c.wg i)
    let v := t.thr (thrKey c.wg i)
    u.pc == v.pc && u.handler == v.handler && u.halted == v.halted && u.life == v.life

/-- Execute a decoded word at a site, with the members that fuse behind it. -/
def runDecoded (i : Instr) (c : Site) (s : State) : Tried :=
  let tail := s.fuses c i
  let hm := s.inHandler c
  match exec i { s with cur := some c } with
  | .next s' =>
    if s.heldAs s' c then .held
    else if s.stands s' c then .took s'
    else if tail.isEmpty || (s'.follows c hm).isEmpty then .issued s'
    else
      (match runTail tail c hm (s'.count (coreKey c.pkg c.core) 2 1) with
       | .next s'' => .issued s''
       | o => .stop o)
  | o => .stop o

/-- Fetch and execute the next word of a site. -/
def issueSite (c : Site) (s : State) : Tried :=
  match c.tids with
  | [] => .held
  | t0 :: _ =>
    match s.fetch c.wg t0 c.pc with
    | (.refuse d, s) => .issued (s.trapAll c.wg c.tids { cause := .fetch, detail := d, pc := c.pc, addr := c.pc })
    | (.absent va, s) => .took (s.parkFetch c va)
    | (.word w, s) =>
      let c := { c with word := w }
      match decode w with
      | .error _ => .issued ({ s with cur := some c }.illegal c)
      | .ok i => runDecoded i c s

/-- What is left of a candidate after the boundary of R182: the state, and the threads that go on to the next word. -/
def State.boundary (s : State) (c : Group) : State × List Nat × Bool :=
  match s.watchers c.wg c.tids with
  | t :: ts => (s.modTids c.wg ((t :: ts).map Prod.fst) (fun u => { u with watch := none }) |>.trap c.wg (t :: ts), [], true)
  | [] =>
    let gone := c.tids.filter fun i => s.mayCancel c.wg i
    let s := s.cancelAll c.wg gone
    let left := c.tids.filter fun i => !gone.contains i
    match s.brkMatch c.wg c.pc with
    | none => (s, left, false)
    | some n =>
      let hit := left.filter fun i => !(s.thr (thrKey c.wg i)).skipBp
      if hit.isEmpty then (s, left, false)
      else
        (s.trapAll c.wg hit { cause := .bkptpc, pc := c.pc, addr := BitVec.ofNat 64 n },
         left.filter (fun i => !hit.contains i), false)

/-- A slot has served the threads of a site in this I-cycle. -/
def State.noteTaken (s : State) (c : Site) (slot : Nat) : State :=
  let now := s.clockOf c.pkg
  s.modCore (coreKey c.pkg c.core) fun k => { k with issued := c.tids.map (thrKey c.wg) ++ k.issued, slotUsed := slot + 1, busy := now }

/-- Note what a slot has issued in this I-cycle, and the threads' and the workgroup's last issue (R298). -/
def State.noteIssue (s : State) (c : Site) (slot : Nat) : State :=
  let now := s.clockOf c.pkg
  let s := s.modTids c.wg c.tids fun t => { t with since := now }
  let s := s.modWg c.wg fun w => { w with lastIssue := now }
  let step (st : StepSt) : StepSt := if st.wg = c.wg && c.tids.any st.tids.contains then { st with issued := true } else st
  (s.noteTaken c slot).modCore (coreKey c.pkg c.core) fun k => { k with stepping := k.stepping.map step }

/-- The threads of the reserved context issue a word of their reduce block (R299): its kind and what it writes are open, so that one of
their registers takes a free value (assumption 2). ISSUE and THRISS count it (15_counters R261). -/
def State.redIssue (s : State) (ck slot : Nat) : State :=
  let now := s.clockOf (ck / 640)
  let (n, s) := s.draw
  let (v, s) := s.draw
  let s := (s.count ck 0 1).count ck 1 64
  s.modCore ck fun k =>
    { k with resv := k.resv.map fun j => { j with since := now, went := true }, slotUsed := slot + 1, busy := now,
             resvX := tset k.resvX (Config.freeChoice n % 4096) (BitVec.ofNat 32 (Config.freeChoice v)) }

/-- A slot takes the first candidate that issues; a candidate that cancellation withholds frees the slot. -/
def issueFirst (s : State) (ck slot : Nat) : List Group → Host.Outcome State Fault Refusal
  | [] => .next s
  | c :: r =>
    if c.red then .next (s.redIssue ck slot)
    else
      let (s1, tids, took) := s.boundary c
      let site := c.site s1 slot tids
      if took then .next (s1.noteIssue { site with tids := c.tids } slot)
      else if tids.isEmpty then issueFirst s1 ck slot r
      else
        match issueSite site s1 with
        | .issued s2 => .next (s2.noteIssue site slot)
        | .took s2 => .next (s2.noteTaken site slot)
        | .held => issueFirst s1 ck slot r
        | .stop o => o

/-- One issue opportunity of a slot of a core: slot 0 chooses before slot 1 (01_machine R14). -/
def issueTurn (p core slot : Nat) (s : State) : Host.Outcome State Fault Refusal :=
  let ck := coreKey p core
  if 2 ≤ slot || slot < (s.core ck).slotUsed then .next s else issueFirst s ck slot (s.ordered ck)

/-- The event is one of the part's own: no word encodes it. -/
def isEvent (i : Instr) : Bool := (encode i).isNone

/-- An uncorrectable or single-bit error in an x register (04_registers R82, R83): a later read finds it. -/
def State.upsetX (s : State) (thr reg : Nat) (fatal : Bool) : State :=
  s.modThr thr fun t => if fatal then { t with badX := ninsert t.badX reg } else { t with oneX := ninsert t.oneX reg }

/-- The same in a k register. -/
def State.upsetK (s : State) (wk reg : Nat) (fatal : Bool) : State :=
  s.modWg wk fun w => if fatal then { w with badK := ninsert w.badK reg } else { w with oneK := ninsert w.oneK reg }

/-- An error in a word of memory (11_memories R202): an uncorrectable one poisons the word and posts its address. -/
def State.upsetMem (s : State) (loc : Nat) (fatal : Bool) : State :=
  let p := locPkg loc
  if fatal then
    ({ s with poison := ninsert s.poison (loc / 8) }).pfEvent p 0x04 0xFFFF (BitVec.ofNat 64 (loc % pkgSpan))
  else s.modDie (dieKey p (homeDie loc)) fun d => { d with corrM := d.corrM + 1 }

/-- An error in an accumulator: an uncorrectable one that the plane array finds (08_planes R160), or a single-bit one that waits for
the next read (04_registers R82). -/
def State.upsetAcc (s : State) (p core acc : Nat) (fatal : Bool) : State :=
  if fatal then
    (s.modCore (coreKey p core) fun c => { c with apoi := c.apoi ||| (1#8 <<< (acc % 8)) }).pfEvent p 0x05 core
      (BitVec.ofNat 64 (acc % 8))
  else s.modCore (coreKey p core) fun c => { c with oneAcc := c.oneAcc ||| (1#8 <<< (acc % 8)) }

/-- A read by the core's own hardware corrects a single-bit error in a system register (R82, assumption 73). -/
def State.upsetSys (s : State) (p core : Nat) : State := s.modCore (coreKey p core) Core.correct

/-- One turn of the machine. -/
def runTurn (t : Turn) (s : State) : Host.Outcome State Fault Refusal :=
  match t with
  | .issue p c slot => issueTurn p c slot s
  | .event i => if isEvent i then exec i { s with cur := none } else .next s
  | .upsetX thr reg fatal => .next (s.upsetX thr reg fatal)
  | .upsetK wk reg fatal => .next (s.upsetK wk reg fatal)
  | .upsetMem loc fatal => .next (s.upsetMem loc fatal)
  | .upsetAcc p c a fatal => .next (s.upsetAcc p c a fatal)
  | .upsetSys p c => .next (s.upsetSys p c)
  | .dark p f m => .next (s.modFibre (fibreKey p f) fun x => { x with dark := x.dark ||| m })
  | .damage p f => .next (s.modFibre (fibreKey p f) fun x =>
      { x with wire := match x.wire with | [] => [] | h :: r => h.damage :: r })
  | .circuit p f far =>
    if f < 16 || 48 ≤ f then .next s else .next { s with circuits := tset s.circuits (fibreKey p f) far }
  | .config p cfg => .next (s.modPkg p fun x => { x with staging := some cfg })

/-- The next turn: the input's, or a free one when no input stands (assumption 2). -/
def State.nextTurn (s : State) : Turn × State :=
  match s.turns with
  | t :: r => (t, { s with turns := r })
  | [] => (Config.freeTurn s.tick, { s with tick := s.tick + 1 })

/-- A step leaves no issuing fragment behind. -/
def settle (o : Host.Outcome State Fault Refusal) : Host.Outcome State Fault Refusal :=
  match o with
  | .next s => .next { s with cur := none }
  | .fault f => .fault f
  | .refused f => .refused f

end Sys2Proof.Machine
end

