-- ==== Sys2Proof/Machine/Step.lean ====
section
/-! DEFINITION. One step of the machine, and the state in which a given word is the next to be fetched. -/

namespace Sys2Proof.Machine

/-- One step: the next turn happens. -/
def step (s : State) : Host.Outcome State Fault Refusal :=
  let (t, s') := s.nextTurn
  settle (runTurn t s')

/-- The page of the word that `withFetchWord` places: virtual and physical address 0x10000, readable and executable. -/
def fetchPage : TlbEnt := { fn := 0, va := 0x10000, lg := 16, leaf := 0x10017#64 }

/-- A launch of one thread with 128 registers, a plane kernel with debug rights, whose entry is that word. -/
def fetchLaunch : Launch := { entry := 0x10000, regs := 128, debug := true, plane := true }

/-- `s` with a word of `nbits` bits placed at virtual address 0x10000, one thread of one workgroup on core 0 of package 0
standing there, and slot 0 of that core to issue next (assumption 6). The gang and the workgroup bear the serial number 0, which no
other ever has; the launch takes a free context. -/
def State.withFetchWord (s : State) (_nbits w : Nat) : State :=
  let c := (s.freeCtx 0).getD 0
  { s with
    mem := writeWord s.mem (0x10000 / 8) (BitVec.ofNat 64 w),
    poison := s.poison.filter (· != 0x10000 / 8),
    views := tdel s.views (viewKey (dieKey 0 0) (0x10000 / 8)),
    ctxs := tset s.ctxs (ctxKey 0 c) { launch := fetchLaunch },
    gangs := tset s.gangs 0 { ctx := ctxKey 0 c, members := [0] },
    wgs := tset (s.wgs.map fun p => if p.2.ckey = 0 then (p.1, { p.2 with resident := false }) else p) 0
      { ctx := ctxKey 0 c, size := 1, nregs := 128 },
    threads := tset s.threads 0 { x := List.replicate 128 0, pc := 0x10000, skipBp := true },
    accs := s.accs.filter fun a => a.thr / 2048 != 0,
    cores := tset s.cores 0
      { s.core 0 with utlb := [fetchPage], issued := [], slotUsed := 0, stepping := none, pq := [] },
    cur := none,
    turns := [.issue 0 0 0] }

end Sys2Proof.Machine
end

