-- ==== Sys2Proof/Laws/PerInstr.lean ====
section
/-! SUPPORT. Facts of every instruction as syntax, one lemma per constructor: which instructions a word encodes (03_encoding R70, R63),
and which are the part's own events. -/

namespace Sys2Proof.Laws

/-- The instruction is one of the full forms or pairs, which have words; the rest are events of the part, which have none. -/
def hasWord (i : Instr) : Bool :=
  match i with
  | .add _ _ _ => true
  | .sub _ _ _ => true
  | .addc _ _ _ => true
  | .mul _ _ _ => true
  | .mulh _ _ _ => true
  | .mad _ _ _ _ => true
  | .div _ _ _ => true
  | .rem _ _ => true
  | .min _ _ => true
  | .max _ _ => true
  | .abs _ _ _ => true
  | .and _ _ => true
  | .or _ _ => true
  | .xor _ _ => true
  | .andn _ _ => true
  | .shl _ _ _ => true
  | .shr _ _ => true
  | .sar _ _ => true
  | .rol _ _ => true
  | .popc _ _ => true
  | .clz _ _ => true
  | .ctz _ _ => true
  | .brev _ _ => true
  | .bfx _ _ => true
  | .bfi _ _ => true
  | .sel _ _ _ => true
  | .cmp _ _ _ => true
  | .mov _ _ _ _ _ => true
  | .movi _ _ _ => true
  | .moviI64 _ _ _ => true
  | .lea _ _ _ _ => true
  | .addi _ _ _ _ => true
  | .fadd _ _ _ => true
  | .fsub _ _ _ => true
  | .fmul _ _ _ => true
  | .ffma _ _ _ _ => true
  | .fmin _ _ => true
  | .fmax _ _ => true
  | .fcmp _ _ _ => true
  | .fclass _ _ => true
  | .frcp _ _ => true
  | .fsqrt _ _ => true
  | .frsq _ _ => true
  | .fexp2 _ _ => true
  | .flog2 _ _ => true
  | .fsint _ _ => true
  | .fcost _ _ => true
  | .fcvt _ _ _ _ _ => true
  | .fcvti _ _ _ _ _ => true
  | .icvtf _ _ _ _ => true
  | .fpack _ _ _ => true
  | .funpk _ _ => true
  | .fscaleacc _ _ _ _ _ _ => true
  | .ordkey _ _ => true
  | .fdot2 _ _ _ => true
  | .frnd _ _ _ => true
  | .perm _ _ => true
  | .shufx _ _ _ _ => true
  | .vote _ _ _ => true
  | .matchL _ _ _ => true
  | .reduce _ _ _ _ => true
  | .scan _ _ _ _ => true
  | .lscan _ _ _ => true
  | .cavity _ _ _ _ => true
  | .fwds _ _ _ _ _ _ => true
  | .fwdr _ _ _ _ _ => true
  | .elect _ _ => true
  | .tdesc _ _ _ => true
  | .plane _ _ _ _ => true
  | .align _ _ _ _ => true
  | .cbload _ => true
  | .mma _ _ _ _ _ => true
  | .mmac _ _ _ _ _ => true
  | .accz _ _ _ => true
  | .accrd _ _ _ _ _ => true
  | .accst _ _ _ => true
  | .mmawait _ _ => true
  | .bra _ _ => true
  | .brc _ _ _ _ => true
  | .call _ _ _ => true
  | .ret _ _ => true
  | .jmpi _ _ => true
  | .jmpiLink _ _ _ => true
  | .rjoin _ _ => true
  | .rwait _ _ => true
  | .exit _ => true
  | .nop _ => true
  | .yield _ => true
  | .shield _ _ => true
  | .bound _ _ _ _ => true
  | .boundNone _ => true
  | .incofr _ _ _ _ _ => true
  | .incrd _ _ _ _ => true
  | .incwait _ _ _ _ => true
  | .cancel _ => true
  | .ld _ _ _ _ => true
  | .st _ _ _ _ => true
  | .ldv _ _ _ _ _ => true
  | .stv _ _ _ _ _ => true
  | .atom _ _ _ _ _ _ _ => true
  | .acas _ _ _ _ _ => true
  | .ldfe _ _ _ => true
  | .stfe _ _ _ => true
  | .fetagRead _ _ _ => true
  | .fetagFill _ _ => true
  | .fetagEmpty _ _ => true
  | .fence _ _ => true
  | .pref _ => true
  | .tcopy _ => true
  | .tgather _ => true
  | .cavred _ => true
  | .loopnest _ => true
  | .search _ => true
  | .spawn _ _ _ => true
  | .ringset _ _ _ _ => true
  | .send _ => true
  | .recvPoll _ _ _ => true
  | .recvWait _ _ _ => true
  | .bar _ _ _ _ => true
  | .baro _ _ _ _ => true
  | .barw _ _ _ _ => true
  | .waitptr _ _ _ => true
  | .waitptrTicket _ _ => true
  | .cntrd _ _ _ _ => true
  | .tlbinvPage _ _ _ => true
  | .tlbinvVf _ _ => true
  | .lpark _ _ _ => true
  | .lwake _ _ _ => true
  | .slotset _ _ => true
  | .hspub _ => true
  | .srd _ _ _ _ => true
  | .swr _ _ _ _ => true
  | .trap _ _ => true
  | .rte _ _ => true
  | .brk _ _ => true
  | .event _ _ _ => true
  | .eventMbx _ _ _ => true
  | .halt _ => true
  | .icflush _ _ => true
  | .addHalf _ _ => true
  | .subHalf _ _ => true
  | .mulHalf _ _ => true
  | .minI32Half _ _ => true
  | .minN32Half _ _ => true
  | .maxI32Half _ _ => true
  | .maxN32Half _ _ => true
  | .absI32Half _ _ => true
  | .andHalf _ _ => true
  | .orHalf _ _ => true
  | .xorHalf _ _ => true
  | .andnHalf _ _ => true
  | .shlHalf _ _ => true
  | .shrHalf _ _ => true
  | .sarHalf _ _ => true
  | .rolHalf _ _ => true
  | .popcHalf _ _ => true
  | .clzHalf _ _ => true
  | .ctzHalf _ _ => true
  | .brevHalf _ _ => true
  | .movHalf _ _ => true
  | .faddHalf _ _ => true
  | .fsubHalf _ _ => true
  | .fmulHalf _ _ => true
  | .fminHalf _ _ => true
  | .fmaxHalf _ _ => true
  | .frcpHalf _ _ => true
  | .fsqrtHalf _ _ => true
  | .frsqHalf _ _ => true
  | .fexp2Half _ _ => true
  | .flog2Half _ _ => true
  | .frndHalf _ _ => true
  | .ldB32Half _ _ => true
  | .stB32Half _ _ => true
  | .ldB64Half _ _ => true
  | .stB64Half _ _ => true
  | .prefHalf _ _ => true
  | .permHalf _ _ => true
  | .reduceAddI32Half _ _ => true
  | .reduceMaxI32Half _ _ => true
  | .reduceMinI32Half _ _ => true
  | .scanAddI32Half _ _ => true
  | .faultRecordPost _ _ => false
  | .fbflush _ => false
  | .accessReplay _ => false
  | .tlbWalk _ _ _ _ => false
  | .storeAtHome _ => false
  | .noticeInstall _ => false
  | .loadReturn _ => false
  | .atomReturn _ => false
  | .tagWaitAbandon _ _ => false
  | .peerAck _ => false
  | .scFencePlace _ => false
  | .peerErrorResponse _ => false
  | .hostMemWrite _ _ _ => false
  | .offerArrival _ => false
  | .sillageDelivery _ => false
  | .dominanceCancel _ => false
  | .rbRelease _ _ => false
  | .phaseComplete _ _ _ => false
  | .barrierWake _ => false
  | .incwaitWake _ => false
  | .waitptrWake _ => false
  | .recvTake _ => false
  | .forwardArrival _ => false
  | .threadAged _ => false
  | .yieldExpiry _ => false
  | .planeOpRetire _ _ => false
  | .cbloadDataReturn _ => false
  | .copyChunkDeliver _ _ _ => false
  | .commandComplete _ => false
  | .collectiveForm _ => false
  | .stagingGrant _ => false
  | .chunkArrival _ _ _ => false
  | .reduceBlockDispatch _ _ => false
  | .reduceBlockEnd _ _ => false
  | .deliveryArrival _ => false
  | .loopIterationStart _ _ => false
  | .loopPlaneStep _ _ => false
  | .loopWakeFill _ _ => false
  | .loopPermitReturn _ _ => false
  | .loopnestAbort _ _ => false
  | .messageAppend _ => false
  | .messageRetry _ => false
  | .launchAccept _ => false
  | .podRegisterAnswer _ _ => false
  | .launchComplete _ _ => false
  | .launchEventPost _ _ => false
  | .gangPlace _ => false
  | .placementWaitExpiry _ _ => false
  | .gangRetire _ => false
  | .engineStopAck _ _ => false
  | .hardwareSave _ => false
  | .preemptFree _ => false
  | .gangResume _ => false
  | .gather _ _ => false
  | .workgroupDispatch _ _ => false
  | .stealRequest _ _ => false
  | .stealArrival _ _ => false
  | .drydownCheckStart _ => false
  | .reexecutionEnd _ => false
  | .arbitrationEnd _ => false
  | .haltwg _ _ => false
  | .release _ _ => false
  | .step _ _ => false
  | .stepComplete _ _ => false
  | .rdreg _ _ => false
  | .wrreg _ _ => false
  | .wrregf _ _ => false
  | .wrdbg _ _ => false
  | .queryDistribute _ => false
  | .bucketWalk _ _ => false
  | .resultAppend _ _ => false
  | .hspubPerform _ _ => false
  | .dataFlit _ _ => false
  | .ackFlit _ _ => false
  | .replayRequest _ _ => false
  | .ackTimeout _ _ => false
  | .lossDetect _ _ => false
  | .lossReport _ _ => false
  | .stripeFlit _ _ => false
  | .slotStart _ => false
  | .guardStart _ => false
  | .slotEnd _ => false
  | .slotTableStart _ => false
  | .routerGate _ _ => false
  | .routerWake _ _ => false
  | .podtSync _ => false
  | .coldReset _ => false
  | .reset _ _ => false
  | .flr _ _ => false
  | .d3hotEntry _ _ => false
  | .bootst _ _ => false
  | .bootStageDone _ _ => false
  | .hostRegWrite _ _ _ _ => false
  | .lqctl _ _ _ => false
  | .eqctl _ _ _ => false
  | .mbctl _ _ _ => false
  | .abort _ _ _ => false
  | .tlbinvh _ _ => false
  | .dryfrach _ _ => false
  | .suspw _ _ => false
  | .cntclrDropped _ _ => false
  | .cntclrPerf _ _ => false
  | .cntclrTelemetry _ => false
  | .telemetryPost _ => false
  | .iCycle _ => false
  | .podtNs _ => false
  | .flitSent _ _ => false
  | .preemptionRequest _ => false
  | .planeArrayPause _ _ => false
  | .icflushCompletion _ => false
  | .lightConfirmation _ _ _ => false

/-- The encoder gives a word to the instructions that have one, and to no other. -/
def Words.Statement (i : Instr) : Prop := (encode i).isSome = hasWord i

theorem Words.add (o : F3) (t : ITy) (sat : Bool) : Words.Statement (.add o t sat) := rfl
theorem Words.sub (o : F3) (t : ITy) (sat : Bool) : Words.Statement (.sub o t sat) := rfl
theorem Words.addc (o : F3) (w : W2) (borrow : Bool) : Words.Statement (.addc o w borrow) := rfl
theorem Words.mul (o : F3) (t : ITy) (sat : Bool) : Words.Statement (.mul o t sat) := rfl
theorem Words.mulh (o : F3) (w : W2) (sg : Bool) : Words.Statement (.mulh o w sg) := rfl
theorem Words.mad (o : F3) (c : Opnd) (t : ITy) (sat : Bool) : Words.Statement (.mad o c t sat) := rfl
theorem Words.div (o : F3) (t : ITy) (sat : Bool) : Words.Statement (.div o t sat) := rfl
theorem Words.rem (o : F3) (t : ITy) : Words.Statement (.rem o t) := rfl
theorem Words.min (o : F3) (t : ITy) : Words.Statement (.min o t) := rfl
theorem Words.max (o : F3) (t : ITy) : Words.Statement (.max o t) := rfl
theorem Words.abs (o : F2) (w : Width) (sat : Bool) : Words.Statement (.abs o w sat) := rfl
theorem Words.and (o : F3) (t : ITy) : Words.Statement (.and o t) := rfl
theorem Words.or (o : F3) (t : ITy) : Words.Statement (.or o t) := rfl
theorem Words.xor (o : F3) (t : ITy) : Words.Statement (.xor o t) := rfl
theorem Words.andn (o : F3) (t : ITy) : Words.Statement (.andn o t) := rfl
theorem Words.shl (o : F3) (t : ITy) (sat : Bool) : Words.Statement (.shl o t sat) := rfl
theorem Words.shr (o : F3) (t : ITy) : Words.Statement (.shr o t) := rfl
theorem Words.sar (o : F3) (t : ITy) : Words.Statement (.sar o t) := rfl
theorem Words.rol (o : F3) (t : ITy) : Words.Statement (.rol o t) := rfl
theorem Words.popc (o : F2) (w : Width) : Words.Statement (.popc o w) := rfl
theorem Words.clz (o : F2) (w : Width) : Words.Statement (.clz o w) := rfl
theorem Words.ctz (o : F2) (w : Width) : Words.Statement (.ctz o w) := rfl
theorem Words.brev (o : F2) (t : ITy) : Words.Statement (.brev o t) := rfl
theorem Words.bfx (o : F3) (t : ITy) : Words.Statement (.bfx o t) := rfl
theorem Words.bfi (o : F3) (t : ITy) : Words.Statement (.bfi o t) := rfl
theorem Words.sel (o : F3) (t : ITy) (p : PSrc) : Words.Statement (.sel o t p) := rfl
theorem Words.cmp (o : FP) (t : ITy) (c : ICond) : Words.Statement (.cmp o t c) := rfl
theorem Words.mov (d : Dst) (b : Opnd) (sm : Option SMod) (g : Guard) (t : ITy) : Words.Statement (.mov d b sm g t) := rfl
theorem Words.movi (d : Dst) (g : Guard) (v : W32) : Words.Statement (.movi d g v) := rfl
theorem Words.moviI64 (d : XReg) (g : Guard) (v : BitVec 33) : Words.Statement (.moviI64 d g v) := rfl
theorem Words.lea (d : XReg) (m : MAddr) (b : Opnd) (t : ITy) : Words.Statement (.lea d m b t) := rfl
theorem Words.addi (d : XReg) (a : Opnd) (g : Guard) (v : BitVec 33) : Words.Statement (.addi d a g v) := rfl
theorem Words.fadd (o : F3) (f : FFmt) (rm : RM) : Words.Statement (.fadd o f rm) := rfl
theorem Words.fsub (o : F3) (f : FFmt) (rm : RM) : Words.Statement (.fsub o f rm) := rfl
theorem Words.fmul (o : F3) (f : FFmt) (rm : RM) : Words.Statement (.fmul o f rm) := rfl
theorem Words.ffma (o : F3) (c : Opnd) (f : FFmt) (rm : RM) : Words.Statement (.ffma o c f rm) := rfl
theorem Words.fmin (o : F3) (f : FFmt) : Words.Statement (.fmin o f) := rfl
theorem Words.fmax (o : F3) (f : FFmt) : Words.Statement (.fmax o f) := rfl
theorem Words.fcmp (o : FP) (f : FFmt) (c : FCond) : Words.Statement (.fcmp o f c) := rfl
theorem Words.fclass (o : F2) (f : FFmt) : Words.Statement (.fclass o f) := rfl
theorem Words.frcp (o : F2) (f : FFmt) : Words.Statement (.frcp o f) := rfl
theorem Words.fsqrt (o : F2) (f : FFmt) : Words.Statement (.fsqrt o f) := rfl
theorem Words.frsq (o : F2) (f : FFmt) : Words.Statement (.frsq o f) := rfl
theorem Words.fexp2 (o : F2) (f : FFmt) : Words.Statement (.fexp2 o f) := rfl
theorem Words.flog2 (o : F2) (f : FFmt) : Words.Statement (.flog2 o f) := rfl
theorem Words.fsint (o : F2) (f : FFmt) : Words.Statement (.fsint o f) := rfl
theorem Words.fcost (o : F2) (f : FFmt) : Words.Statement (.fcost o f) := rfl
theorem Words.fcvt (o : F2) (dst src : NFmt) (rm : RM) (sat : Bool) : Words.Statement (.fcvt o dst src rm sat) := rfl
theorem Words.fcvti (o : F2) (t : ITy) (src : FFmt) (rm : RM) (sat : Bool) : Words.Statement (.fcvti o t src rm sat) := rfl
theorem Words.icvtf (o : F2) (t : ITy) (dst : FFmt) (rm : RM) : Words.Statement (.icvtf o t dst rm) := rfl
theorem Words.fpack (o : F3) (t : NFmt) (sat : Bool) : Words.Statement (.fpack o t sat) := rfl
theorem Words.funpk (o : F3) (t : NFmt) : Words.Statement (.funpk o t) := rfl
theorem Words.fscaleacc (o : F3) (f : FFmt) (rm : RM) (sat : Bool) (ak : AKind) (e8m0 : Bool) : Words.Statement (.fscaleacc o f rm sat ak e8m0) := rfl
theorem Words.ordkey (o : F2) (t : KeyTy) : Words.Statement (.ordkey o t) := rfl
theorem Words.fdot2 (o : F3) (bf : Bool) (rm : RM) : Words.Statement (.fdot2 o bf rm) := rfl
theorem Words.frnd (o : F2) (f : FFmt) (rm : RM) : Words.Statement (.frnd o f rm) := rfl
theorem Words.perm (o : F3) (w : W2) : Words.Statement (.perm o w) := rfl
theorem Words.shufx (o : F3) (w : W2) (seg : Seg) (m : ShMode) : Words.Statement (.shufx o w seg m) := rfl
theorem Words.vote (d : VoteDst) (p : PSrc) (g : Guard) : Words.Statement (.vote d p g) := rfl
theorem Words.matchL (o : F2) (w : W2) (hi : Bool) : Words.Statement (.matchL o w hi) := rfl
theorem Words.reduce (o : F2) (t : LTy) (seg : Seg) (op : LOp) : Words.Statement (.reduce o t seg op) := rfl
theorem Words.scan (o : F2) (t : LTy) (seg : Seg) (op : LOp) : Words.Statement (.scan o t seg op) := rfl
theorem Words.lscan (o : F3) (f : FFmt) (seg : Seg) : Words.Statement (.lscan o f seg) := rfl
theorem Words.cavity (o : F2) (t : LTy) (seg : Seg) (op : LOp) : Words.Statement (.cavity o t seg op) := rfl
theorem Words.fwds (b : Opnd) (sm : Option SMod) (g : Guard) (w : W2) (ch : BitVec 2) (blk : BitVec 2) : Words.Statement (.fwds b sm g w ch blk) := rfl
theorem Words.fwdr (d : XReg) (g : Guard) (w : W2) (ch : BitVec 2) (blk : BitVec 2) : Words.Statement (.fwdr d g w ch blk) := rfl
theorem Words.elect (q : QReg) (g : Guard) : Words.Statement (.elect q g) := rfl
theorem Words.tdesc (slot : BitVec 4) (a : XReg) (g : Guard) : Words.Statement (.tdesc slot a g) := rfl
theorem Words.plane (dst src : BitVec 4) (i : BitVec 5) (g : Guard) : Words.Statement (.plane dst src i g) := rfl
theorem Words.align (dst src : BitVec 4) (i : BitVec 5) (g : Guard) : Words.Statement (.align dst src i g) := rfl
theorem Words.cbload (m : MAddr) : Words.Statement (.cbload m) := rfl
theorem Words.mma (acc : AReg) (ta tb : BitVec 4) (pair : Bool) (g : Guard) : Words.Statement (.mma acc ta tb pair g) := rfl
theorem Words.mmac (acc : AReg) (ta tb : BitVec 4) (pair : Bool) (g : Guard) : Words.Statement (.mmac acc ta tb pair g) := rfl
theorem Words.accz (mask : BitVec 8) (pair : Bool) (g : Guard) : Words.Statement (.accz mask pair g) := rfl
theorem Words.accrd (d : XReg) (acc : AReg) (b : Opnd) (sm : Option SMod) (g : Guard) : Words.Statement (.accrd d acc b sm g) := rfl
theorem Words.accst (acc : AReg) (m : MAddr) (b : XReg) : Words.Statement (.accst acc m b) := rfl
theorem Words.mmawait (mask : BitVec 8) (g : Guard) : Words.Statement (.mmawait mask g) := rfl
theorem Words.bra (g : Guard) (v : BitVec 33) : Words.Statement (.bra g v) := rfl
theorem Words.brc (c : BCond) (a : Opnd) (g : Guard) (v : BitVec 33) : Words.Statement (.brc c a g v) := rfl
theorem Words.call (d : XReg) (g : Guard) (v : BitVec 33) : Words.Statement (.call d g v) := rfl
theorem Words.ret (b : Base) (g : Guard) : Words.Statement (.ret b g) := rfl
theorem Words.jmpi (b : Base) (g : Guard) : Words.Statement (.jmpi b g) := rfl
theorem Words.jmpiLink (d : XReg) (b : Base) (g : Guard) : Words.Statement (.jmpiLink d b g) := rfl
theorem Words.rjoin (n : BitVec 4) (g : Guard) : Words.Statement (.rjoin n g) := rfl
theorem Words.rwait (n : BitVec 4) (g : Guard) : Words.Statement (.rwait n g) := rfl
theorem Words.exit (g : Guard) : Words.Statement (.exit g) := rfl
theorem Words.nop (g : Guard) : Words.Statement (.nop g) := rfl
theorem Words.yield (g : Guard) : Words.Statement (.yield g) := rfl
theorem Words.shield (n : BitVec 33) (g : Guard) : Words.Statement (.shield n g) := rfl
theorem Words.bound (n : BitVec 4) (b : Base) (sm : Option SMod) (g : Guard) : Words.Statement (.bound n b sm g) := rfl
theorem Words.boundNone (g : Guard) : Words.Statement (.boundNone g) := rfl
theorem Words.incofr (n : BitVec 4) (a b : Base) (sm : Option SMod) (g : Guard) : Words.Statement (.incofr n a b sm g) := rfl
theorem Words.incrd (d : XReg) (p : IncPart) (n : BitVec 4) (g : Guard) : Words.Statement (.incrd d p n g) := rfl
theorem Words.incwait (n : BitVec 4) (b : Base) (sm : Option SMod) (g : Guard) : Words.Statement (.incwait n b sm g) := rfl
theorem Words.cancel (g : Guard) : Words.Statement (.cancel g) := rfl
theorem Words.ld (d : Dst) (m : MAddr) (t : ITy) (o : MO) : Words.Statement (.ld d m t o) := rfl
theorem Words.st (m : MAddr) (b : Opnd) (w : Width) (o : MO) : Words.Statement (.st m b w o) := rfl
theorem Words.ldv (d : XReg) (m : MAddr) (t : ITy) (c : VCnt) (o : MO) : Words.Statement (.ldv d m t c o) := rfl
theorem Words.stv (m : MAddr) (b : XReg) (w : Width) (c : VCnt) (o : MO) : Words.Statement (.stv m b w c o) := rfl
theorem Words.atom (op : AOp) (d : XReg) (m : MAddr) (b : Opnd) (w : W2) (sg : Bool) (o : MO) : Words.Statement (.atom op d m b w sg o) := rfl
theorem Words.acas (d : XReg) (m : MAddr) (b : Opnd) (w : W2) (o : MO) : Words.Statement (.acas d m b w o) := rfl
theorem Words.ldfe (d : XReg) (m : MAddr) (o : MO) : Words.Statement (.ldfe d m o) := rfl
theorem Words.stfe (m : MAddr) (b : Base) (o : MO) : Words.Statement (.stfe m b o) := rfl
theorem Words.fetagRead (d : XReg) (m : MAddr) (o : MO) : Words.Statement (.fetagRead d m o) := rfl
theorem Words.fetagFill (m : MAddr) (o : MO) : Words.Statement (.fetagFill m o) := rfl
theorem Words.fetagEmpty (m : MAddr) (o : MO) : Words.Statement (.fetagEmpty m o) := rfl
theorem Words.fence (o : MO) (g : Guard) : Words.Statement (.fence o g) := rfl
theorem Words.pref (m : MAddr) : Words.Statement (.pref m) := rfl
theorem Words.tcopy (e : EArgs) : Words.Statement (.tcopy e) := rfl
theorem Words.tgather (e : EArgs) : Words.Statement (.tgather e) := rfl
theorem Words.cavred (e : EArgs) : Words.Statement (.cavred e) := rfl
theorem Words.loopnest (e : EArgs) : Words.Statement (.loopnest e) := rfl
theorem Words.search (e : EArgs) : Words.Statement (.search e) := rfl
theorem Words.spawn (d : XReg) (m : MAddr) (o : MO) : Words.Statement (.spawn d m o) := rfl
theorem Words.ringset (d : XReg) (m : MAddr) (b : XReg) (n : BitVec 2) : Words.Statement (.ringset d m b n) := rfl
theorem Words.send (e : EArgs) : Words.Statement (.send e) := rfl
theorem Words.recvPoll (d : XReg) (n : BitVec 2) (g : Guard) : Words.Statement (.recvPoll d n g) := rfl
theorem Words.recvWait (d : XReg) (n : BitVec 2) (g : Guard) : Words.Statement (.recvWait d n g) := rfl
theorem Words.bar (d : XReg) (sc : Scope) (n : BitVec 4) (g : Guard) : Words.Statement (.bar d sc n g) := rfl
theorem Words.baro (d : XReg) (sc : Scope) (n : BitVec 4) (g : Guard) : Words.Statement (.baro d sc n g) := rfl
theorem Words.barw (b : Opnd) (sc : Scope) (n : BitVec 4) (g : Guard) : Words.Statement (.barw b sc n g) := rfl
theorem Words.waitptr (c : BitVec 3) (b : Base) (g : Guard) : Words.Statement (.waitptr c b g) := rfl
theorem Words.waitptrTicket (b : Opnd) (g : Guard) : Words.Statement (.waitptrTicket b g) := rfl
theorem Words.cntrd (d : XReg) (sel : BitVec 8) (sc : Option Scope) (g : Guard) : Words.Statement (.cntrd d sel sc g) := rfl
theorem Words.tlbinvPage (a : Base) (sc : TiScope) (g : Guard) : Words.Statement (.tlbinvPage a sc g) := rfl
theorem Words.tlbinvVf (sc : TiScope) (g : Guard) : Words.Statement (.tlbinvVf sc g) := rfl
theorem Words.lpark (d b : XReg) (g : Guard) : Words.Statement (.lpark d b g) := rfl
theorem Words.lwake (d b : XReg) (g : Guard) : Words.Statement (.lwake d b g) := rfl
theorem Words.slotset (d : XReg) (m : MAddr) : Words.Statement (.slotset d m) := rfl
theorem Words.hspub (e : EArgs) : Words.Statement (.hspub e) := rfl
theorem Words.srd (d : XReg) (w : W2) (sel : BitVec 8) (g : Guard) : Words.Statement (.srd d w sel g) := rfl
theorem Words.swr (b : Opnd) (w : W2) (sel : BitVec 8) (g : Guard) : Words.Statement (.swr b w sel g) := rfl
theorem Words.trap (c : BitVec 33) (g : Guard) : Words.Statement (.trap c g) := rfl
theorem Words.rte (skip : Bool) (g : Guard) : Words.Statement (.rte skip g) := rfl
theorem Words.brk (c : BitVec 33) (g : Guard) : Words.Statement (.brk c g) := rfl
theorem Words.event (b : Opnd) (w : W2) (g : Guard) : Words.Statement (.event b w g) := rfl
theorem Words.eventMbx (b : Opnd) (w : W2) (g : Guard) : Words.Statement (.eventMbx b w g) := rfl
theorem Words.halt (g : Guard) : Words.Statement (.halt g) := rfl
theorem Words.icflush (sc : IcScope) (g : Guard) : Words.Statement (.icflush sc g) := rfl
theorem Words.addHalf (h : HArgs) (snd : Half) : Words.Statement (.addHalf h snd) := rfl
theorem Words.subHalf (h : HArgs) (snd : Half) : Words.Statement (.subHalf h snd) := rfl
theorem Words.mulHalf (h : HArgs) (snd : Half) : Words.Statement (.mulHalf h snd) := rfl
theorem Words.minI32Half (h : HArgs) (snd : Half) : Words.Statement (.minI32Half h snd) := rfl
theorem Words.minN32Half (h : HArgs) (snd : Half) : Words.Statement (.minN32Half h snd) := rfl
theorem Words.maxI32Half (h : HArgs) (snd : Half) : Words.Statement (.maxI32Half h snd) := rfl
theorem Words.maxN32Half (h : HArgs) (snd : Half) : Words.Statement (.maxN32Half h snd) := rfl
theorem Words.absI32Half (h : HArgs) (snd : Half) : Words.Statement (.absI32Half h snd) := rfl
theorem Words.andHalf (h : HArgs) (snd : Half) : Words.Statement (.andHalf h snd) := rfl
theorem Words.orHalf (h : HArgs) (snd : Half) : Words.Statement (.orHalf h snd) := rfl
theorem Words.xorHalf (h : HArgs) (snd : Half) : Words.Statement (.xorHalf h snd) := rfl
theorem Words.andnHalf (h : HArgs) (snd : Half) : Words.Statement (.andnHalf h snd) := rfl
theorem Words.shlHalf (h : HArgs) (snd : Half) : Words.Statement (.shlHalf h snd) := rfl
theorem Words.shrHalf (h : HArgs) (snd : Half) : Words.Statement (.shrHalf h snd) := rfl
theorem Words.sarHalf (h : HArgs) (snd : Half) : Words.Statement (.sarHalf h snd) := rfl
theorem Words.rolHalf (h : HArgs) (snd : Half) : Words.Statement (.rolHalf h snd) := rfl
theorem Words.popcHalf (h : HArgs) (snd : Half) : Words.Statement (.popcHalf h snd) := rfl
theorem Words.clzHalf (h : HArgs) (snd : Half) : Words.Statement (.clzHalf h snd) := rfl
theorem Words.ctzHalf (h : HArgs) (snd : Half) : Words.Statement (.ctzHalf h snd) := rfl
theorem Words.brevHalf (h : HArgs) (snd : Half) : Words.Statement (.brevHalf h snd) := rfl
theorem Words.movHalf (h : HArgs) (snd : Half) : Words.Statement (.movHalf h snd) := rfl
theorem Words.faddHalf (h : HArgs) (snd : Half) : Words.Statement (.faddHalf h snd) := rfl
theorem Words.fsubHalf (h : HArgs) (snd : Half) : Words.Statement (.fsubHalf h snd) := rfl
theorem Words.fmulHalf (h : HArgs) (snd : Half) : Words.Statement (.fmulHalf h snd) := rfl
theorem Words.fminHalf (h : HArgs) (snd : Half) : Words.Statement (.fminHalf h snd) := rfl
theorem Words.fmaxHalf (h : HArgs) (snd : Half) : Words.Statement (.fmaxHalf h snd) := rfl
theorem Words.frcpHalf (h : HArgs) (snd : Half) : Words.Statement (.frcpHalf h snd) := rfl
theorem Words.fsqrtHalf (h : HArgs) (snd : Half) : Words.Statement (.fsqrtHalf h snd) := rfl
theorem Words.frsqHalf (h : HArgs) (snd : Half) : Words.Statement (.frsqHalf h snd) := rfl
theorem Words.fexp2Half (h : HArgs) (snd : Half) : Words.Statement (.fexp2Half h snd) := rfl
theorem Words.flog2Half (h : HArgs) (snd : Half) : Words.Statement (.flog2Half h snd) := rfl
theorem Words.frndHalf (h : HArgs) (snd : Half) : Words.Statement (.frndHalf h snd) := rfl
theorem Words.ldB32Half (h : HArgs) (snd : Half) : Words.Statement (.ldB32Half h snd) := rfl
theorem Words.stB32Half (h : HArgs) (snd : Half) : Words.Statement (.stB32Half h snd) := rfl
theorem Words.ldB64Half (h : HArgs) (snd : Half) : Words.Statement (.ldB64Half h snd) := rfl
theorem Words.stB64Half (h : HArgs) (snd : Half) : Words.Statement (.stB64Half h snd) := rfl
theorem Words.prefHalf (h : HArgs) (snd : Half) : Words.Statement (.prefHalf h snd) := rfl
theorem Words.permHalf (h : HArgs) (snd : Half) : Words.Statement (.permHalf h snd) := rfl
theorem Words.reduceAddI32Half (h : HArgs) (snd : Half) : Words.Statement (.reduceAddI32Half h snd) := rfl
theorem Words.reduceMaxI32Half (h : HArgs) (snd : Half) : Words.Statement (.reduceMaxI32Half h snd) := rfl
theorem Words.reduceMinI32Half (h : HArgs) (snd : Half) : Words.Statement (.reduceMinI32Half h snd) := rfl
theorem Words.scanAddI32Half (h : HArgs) (snd : Half) : Words.Statement (.scanAddI32Half h snd) := rfl
theorem Words.faultRecordPost (pkg die : Nat) : Words.Statement (.faultRecordPost pkg die) := rfl
theorem Words.fbflush (pkg : Nat) : Words.Statement (.fbflush pkg) := rfl
theorem Words.accessReplay (thr : Nat) : Words.Statement (.accessReplay thr) := rfl
theorem Words.tlbWalk (pkg core fn va : Nat) : Words.Statement (.tlbWalk pkg core fn va) := rfl
theorem Words.storeAtHome (id : Nat) : Words.Statement (.storeAtHome id) := rfl
theorem Words.noticeInstall (id : Nat) : Words.Statement (.noticeInstall id) := rfl
theorem Words.loadReturn (id : Nat) : Words.Statement (.loadReturn id) := rfl
theorem Words.atomReturn (id : Nat) : Words.Statement (.atomReturn id) := rfl
theorem Words.tagWaitAbandon (pkg ctx : Nat) : Words.Statement (.tagWaitAbandon pkg ctx) := rfl
theorem Words.peerAck (id : Nat) : Words.Statement (.peerAck id) := rfl
theorem Words.scFencePlace (thr : Nat) : Words.Statement (.scFencePlace thr) := rfl
theorem Words.peerErrorResponse (id : Nat) : Words.Statement (.peerErrorResponse id) := rfl
theorem Words.hostMemWrite (pkg pa : Nat) (bytes : List Byte) : Words.Statement (.hostMemWrite pkg pa bytes) := rfl
theorem Words.offerArrival (id : Nat) : Words.Statement (.offerArrival id) := rfl
theorem Words.sillageDelivery (id : Nat) : Words.Statement (.sillageDelivery id) := rfl
theorem Words.dominanceCancel (thr : Nat) : Words.Statement (.dominanceCancel thr) := rfl
theorem Words.rbRelease (wg n : Nat) : Words.Statement (.rbRelease wg n) := rfl
theorem Words.phaseComplete (sc : Scope) (owner n : Nat) : Words.Statement (.phaseComplete sc owner n) := rfl
theorem Words.barrierWake (thr : Nat) : Words.Statement (.barrierWake thr) := rfl
theorem Words.incwaitWake (thr : Nat) : Words.Statement (.incwaitWake thr) := rfl
theorem Words.waitptrWake (thr : Nat) : Words.Statement (.waitptrWake thr) := rfl
theorem Words.recvTake (thr : Nat) : Words.Statement (.recvTake thr) := rfl
theorem Words.forwardArrival (id : Nat) : Words.Statement (.forwardArrival id) := rfl
theorem Words.threadAged (thr : Nat) : Words.Statement (.threadAged thr) := rfl
theorem Words.yieldExpiry (thr : Nat) : Words.Statement (.yieldExpiry thr) := rfl
theorem Words.planeOpRetire (pkg core : Nat) : Words.Statement (.planeOpRetire pkg core) := rfl
theorem Words.cbloadDataReturn (id : Nat) : Words.Statement (.cbloadDataReturn id) := rfl
theorem Words.copyChunkDeliver (pkg core ch : Nat) : Words.Statement (.copyChunkDeliver pkg core ch) := rfl
theorem Words.commandComplete (id : Nat) : Words.Statement (.commandComplete id) := rfl
theorem Words.collectiveForm (collid : Nat) : Words.Statement (.collectiveForm collid) := rfl
theorem Words.stagingGrant (collid : Nat) : Words.Statement (.stagingGrant collid) := rfl
theorem Words.chunkArrival (collid chunk rank : Nat) : Words.Statement (.chunkArrival collid chunk rank) := rfl
theorem Words.reduceBlockDispatch (pkg die : Nat) : Words.Statement (.reduceBlockDispatch pkg die) := rfl
theorem Words.reduceBlockEnd (pkg core : Nat) : Words.Statement (.reduceBlockEnd pkg core) := rfl
theorem Words.deliveryArrival (id : Nat) : Words.Statement (.deliveryArrival id) := rfl
theorem Words.loopIterationStart (pkg core : Nat) : Words.Statement (.loopIterationStart pkg core) := rfl
theorem Words.loopPlaneStep (pkg core : Nat) : Words.Statement (.loopPlaneStep pkg core) := rfl
theorem Words.loopWakeFill (pkg core : Nat) : Words.Statement (.loopWakeFill pkg core) := rfl
theorem Words.loopPermitReturn (pkg core : Nat) : Words.Statement (.loopPermitReturn pkg core) := rfl
theorem Words.loopnestAbort (pkg core : Nat) : Words.Statement (.loopnestAbort pkg core) := rfl
theorem Words.messageAppend (id : Nat) : Words.Statement (.messageAppend id) := rfl
theorem Words.messageRetry (id : Nat) : Words.Statement (.messageRetry id) := rfl
theorem Words.launchAccept (pkg : Nat) : Words.Statement (.launchAccept pkg) := rfl
theorem Words.podRegisterAnswer (pkg fn : Nat) : Words.Statement (.podRegisterAnswer pkg fn) := rfl
theorem Words.launchComplete (pkg ctx : Nat) : Words.Statement (.launchComplete pkg ctx) := rfl
theorem Words.launchEventPost (pkg fn : Nat) : Words.Statement (.launchEventPost pkg fn) := rfl
theorem Words.gangPlace (pkg : Nat) : Words.Statement (.gangPlace pkg) := rfl
theorem Words.placementWaitExpiry (pkg fn : Nat) : Words.Statement (.placementWaitExpiry pkg fn) := rfl
theorem Words.gangRetire (gang : Nat) : Words.Statement (.gangRetire gang) := rfl
theorem Words.engineStopAck (gang cls : Nat) : Words.Statement (.engineStopAck gang cls) := rfl
theorem Words.hardwareSave (gang : Nat) : Words.Statement (.hardwareSave gang) := rfl
theorem Words.preemptFree (gang : Nat) : Words.Statement (.preemptFree gang) := rfl
theorem Words.gangResume (pkg : Nat) : Words.Statement (.gangResume pkg) := rfl
theorem Words.gather (pkg core : Nat) : Words.Statement (.gather pkg core) := rfl
theorem Words.workgroupDispatch (pkg core : Nat) : Words.Statement (.workgroupDispatch pkg core) := rfl
theorem Words.stealRequest (pkg core : Nat) : Words.Statement (.stealRequest pkg core) := rfl
theorem Words.stealArrival (pkg core : Nat) : Words.Statement (.stealArrival pkg core) := rfl
theorem Words.drydownCheckStart (pkg : Nat) : Words.Statement (.drydownCheckStart pkg) := rfl
theorem Words.reexecutionEnd (id : Nat) : Words.Statement (.reexecutionEnd id) := rfl
theorem Words.arbitrationEnd (id : Nat) : Words.Statement (.arbitrationEnd id) := rfl
theorem Words.haltwg (pkg fn : Nat) : Words.Statement (.haltwg pkg fn) := rfl
theorem Words.release (pkg fn : Nat) : Words.Statement (.release pkg fn) := rfl
theorem Words.step (pkg fn : Nat) : Words.Statement (.step pkg fn) := rfl
theorem Words.stepComplete (pkg core : Nat) : Words.Statement (.stepComplete pkg core) := rfl
theorem Words.rdreg (pkg fn : Nat) : Words.Statement (.rdreg pkg fn) := rfl
theorem Words.wrreg (pkg fn : Nat) : Words.Statement (.wrreg pkg fn) := rfl
theorem Words.wrregf (pkg fn : Nat) : Words.Statement (.wrregf pkg fn) := rfl
theorem Words.wrdbg (pkg fn : Nat) : Words.Statement (.wrdbg pkg fn) := rfl
theorem Words.queryDistribute (id : Nat) : Words.Statement (.queryDistribute id) := rfl
theorem Words.bucketWalk (pkg unit : Nat) : Words.Statement (.bucketWalk pkg unit) := rfl
theorem Words.resultAppend (pkg unit : Nat) : Words.Statement (.resultAppend pkg unit) := rfl
theorem Words.hspubPerform (pkg unit : Nat) : Words.Statement (.hspubPerform pkg unit) := rfl
theorem Words.dataFlit (pkg fibre : Nat) : Words.Statement (.dataFlit pkg fibre) := rfl
theorem Words.ackFlit (pkg fibre : Nat) : Words.Statement (.ackFlit pkg fibre) := rfl
theorem Words.replayRequest (pkg fibre : Nat) : Words.Statement (.replayRequest pkg fibre) := rfl
theorem Words.ackTimeout (pkg fibre : Nat) : Words.Statement (.ackTimeout pkg fibre) := rfl
theorem Words.lossDetect (pkg fibre : Nat) : Words.Statement (.lossDetect pkg fibre) := rfl
theorem Words.lossReport (pkg fibre : Nat) : Words.Statement (.lossReport pkg fibre) := rfl
theorem Words.stripeFlit (pkg fibre : Nat) : Words.Statement (.stripeFlit pkg fibre) := rfl
theorem Words.slotStart (pkg : Nat) : Words.Statement (.slotStart pkg) := rfl
theorem Words.guardStart (pkg : Nat) : Words.Statement (.guardStart pkg) := rfl
theorem Words.slotEnd (pkg : Nat) : Words.Statement (.slotEnd pkg) := rfl
theorem Words.slotTableStart (pkg : Nat) : Words.Statement (.slotTableStart pkg) := rfl
theorem Words.routerGate (pkg die : Nat) : Words.Statement (.routerGate pkg die) := rfl
theorem Words.routerWake (pkg die : Nat) : Words.Statement (.routerWake pkg die) := rfl
theorem Words.podtSync (pkg : Nat) : Words.Statement (.podtSync pkg) := rfl
theorem Words.coldReset (pkg : Nat) : Words.Statement (.coldReset pkg) := rfl
theorem Words.reset (pkg value : Nat) : Words.Statement (.reset pkg value) := rfl
theorem Words.flr (pkg fn : Nat) : Words.Statement (.flr pkg fn) := rfl
theorem Words.d3hotEntry (pkg fn : Nat) : Words.Statement (.d3hotEntry pkg fn) := rfl
theorem Words.bootst (pkg value : Nat) : Words.Statement (.bootst pkg value) := rfl
theorem Words.bootStageDone (pkg : Nat) (ok : Bool) : Words.Statement (.bootStageDone pkg ok) := rfl
theorem Words.hostRegWrite (pkg fn off value : Nat) : Words.Statement (.hostRegWrite pkg fn off value) := rfl
theorem Words.lqctl (pkg fn value : Nat) : Words.Statement (.lqctl pkg fn value) := rfl
theorem Words.eqctl (pkg fn value : Nat) : Words.Statement (.eqctl pkg fn value) := rfl
theorem Words.mbctl (pkg fn value : Nat) : Words.Statement (.mbctl pkg fn value) := rfl
theorem Words.abort (pkg fn value : Nat) : Words.Statement (.abort pkg fn value) := rfl
theorem Words.tlbinvh (pkg fn : Nat) : Words.Statement (.tlbinvh pkg fn) := rfl
theorem Words.dryfrach (pkg value : Nat) : Words.Statement (.dryfrach pkg value) := rfl
theorem Words.suspw (pkg value : Nat) : Words.Statement (.suspw pkg value) := rfl
theorem Words.cntclrDropped (pkg core : Nat) : Words.Statement (.cntclrDropped pkg core) := rfl
theorem Words.cntclrPerf (pkg core : Nat) : Words.Statement (.cntclrPerf pkg core) := rfl
theorem Words.cntclrTelemetry (pkg : Nat) : Words.Statement (.cntclrTelemetry pkg) := rfl
theorem Words.telemetryPost (pkg : Nat) : Words.Statement (.telemetryPost pkg) := rfl
theorem Words.iCycle (pkg : Nat) : Words.Statement (.iCycle pkg) := rfl
theorem Words.podtNs (pkg : Nat) : Words.Statement (.podtNs pkg) := rfl
theorem Words.flitSent (pkg fibre : Nat) : Words.Statement (.flitSent pkg fibre) := rfl
theorem Words.preemptionRequest (gang : Nat) : Words.Statement (.preemptionRequest gang) := rfl
theorem Words.planeArrayPause (pkg : Nat) (on : Bool) : Words.Statement (.planeArrayPause pkg on) := rfl
theorem Words.icflushCompletion (thr : Nat) : Words.Statement (.icflushCompletion thr) := rfl
theorem Words.lightConfirmation (pkg fibre mask : Nat) : Words.Statement (.lightConfirmation pkg fibre mask) := rfl

end Sys2Proof.Laws
end

