-- ==== Sys2Proof/Safety.lean ====
section
/-! DEFINITION. What counts as a safe run, in the terms the statements use: the conditions under which a word issues, and what a
word that touches only its own threads' registers leaves. -/

namespace Sys2Proof.Machine

/-- Memory keeps its canonical form. -/
def State.MemOk (s : State) : Prop := Memory.wf s.mem = true

/-! ### Issuing a word -/

/-- No register word of thread `i` of workgroup `wk` is in error or poisoned (04_registers R82, R83). -/
def State.cleanThread (s : State) (wk i : Nat) : Bool :=
  let t := s.thr (thrKey wk i)
  t.badX == [] && t.poisonLo == 0 && t.poisonHi == 0 && t.oneX == []

/-- No register that a word of the site could read is in error or poisoned. -/
def State.regsOk (s : State) (c : Site) : Bool :=
  (c.tids ++ s.liveTids c.wg).all (s.cleanThread c.wg) && (s.wg c.wg).badK == [] && (s.wg c.wg).oneK == []

/-- The fragment at site `c` issues the word `i`: it is legal in this kernel (03_encoding R68), no register is in error, and no
thread stands twice in the fragment. -/
structure State.Issues (s : State) (c : Site) (i : Instr) : Prop where
  cur : s.cur = some c
  ok : s.wordOk c i = true
  regsOk : s.regsOk c = true
  nodup : c.tids.Nodup

/-- The guard-active threads of a site, as they see their registers at issue (03_encoding R58). -/
def State.frag (s : State) (c : Site) (g : Guard) : Frag :=
  (c.tids.filter fun i => (s.env c.wg i).guarded g).map (s.env c.wg)

/-- The guard-inactive threads of a site. -/
def State.idle (s : State) (c : Site) (g : Guard) : List Nat := c.tids.filter fun i => !(s.env c.wg i).guarded g

/-! ### What an issued word leaves

`s` is the state at issue, whose registers decide which threads are guard-active; `v` is that state with the word's effects outside its
threads; `u` is the state that the word leaves. -/

/-- The threads of a site: a guard-inactive one goes on at the next word with nothing else changed, a guard-active one is as `act` says. -/
def ThreadsDo (s v : State) (c : Site) (g : Guard) (act : Env → Thread → Thread) (u : State) : Prop :=
  ∀ i ∈ c.tids, u.thr (thrKey c.wg i) =
    if (s.env c.wg i).guarded g then act (s.env c.wg i) (v.thr (thrKey c.wg i))
    else (v.thr (thrKey c.wg i)).goto c.nextPc

/-- Threads outside the site are as they were. -/
def OthersKeep (v : State) (c : Site) (u : State) : Prop :=
  ∀ k, (∀ i ∈ c.tids, k ≠ thrKey c.wg i) → u.thr k = v.thr k

/-- Of the cores, only the performance counters of the issuing one have changed (15_counters R261). -/
def CoresKeep (v : State) (c : Site) (u : State) : Prop :=
  ∀ k, u.core k = if k = coreKey c.pkg c.core then { v.core k with perf := (u.core k).perf } else v.core k

/-- A word leaves `v` with its threads done: nothing else has changed but issue counters. -/
def Leaves (s v : State) (c : Site) (g : Guard) (act : Env → Thread → Thread) (u : State) : Prop :=
  ThreadsDo s v c g act u ∧ OthersKeep v c u ∧ CoresKeep v c u ∧ u = { v with threads := u.threads, cores := u.cores }

/-- A word that changes only its own threads: no memory, no access in flight, no other table. -/
def OnlyThreads (s : State) (c : Site) (g : Guard) (act : Env → Thread → Thread) (u : State) : Prop := Leaves s s c g act u

/-- A word that computes in the registers of its threads: each guard-active one takes `f` of what it reads and goes on at the next word. -/
def Computes (s : State) (c : Site) (g : Guard) (f : Frag → Env → Out) (u : State) : Prop :=
  OnlyThreads s c g (fun e t => (t.out (f (s.frag c g) e)).goto c.nextPc) u

/-! ### Accesses to memory -/

/-- Element `x` of thread `i` reaches place `p`: aligned, in one allocation with the first element, translated without a walk, allowed,
backed, and without a poisoned byte to read (13_memory_instr R228, 11_memories R202). -/
def State.Reaches (s : State) (wk i : Nat) (first : W64) (x : Elem) (p : Place) : Prop :=
  x.addr.toNat % x.size = 0 ∧ sameAlloc first x.addr = true ∧ s.resolve wk i x.addr x.size x.kind.want = (.ok p, s) ∧
    p.void = false ∧ s.poisonOf (thrKey wk i) ((s.wg wk).core / 160) x p = none

/-- The threads `fr` may access the elements `els` at the places `place`: each is live, the first step of the word's order is behind it
(12_ordering R214), each element reaches its place, no earlier access of the thread keeps it back, and the workgroup is no
Drydown re-execution, whose stores are only digested (15_counters R268). -/
structure State.MayAccess (s : State) (c : Site) (fr : Frag) (o : MO) (els : Env → List Elem) (place : Env → Elem → Place) :
    Prop where
  live : ∀ e ∈ fr, (s.thr (thrKey c.wg e.tid)).live = true
  order : ∀ e ∈ fr, s.orderOk (thrKey c.wg e.tid) o = true
  reach : ∀ e ∈ fr, ∀ x ∈ els e, s.Reaches c.wg e.tid ((els e).headD default).addr x (place e x)
  unheld : ∀ e ∈ fr, ∀ x ∈ els e, s.keptBack (thrKey c.wg e.tid) x (place e x) = false
  first : s.redoing c.wg = false

/-- The access that an element becomes, but for the numbers that its issue gives it. -/
def State.accessOf (s : State) (c : Site) (e : Env) (x : Elem) (p : Place) : Access :=
  { id := 0, instr := 0, thr := thrKey c.wg e.tid, pkg := c.pkg, core := c.core, launchid := (s.wg c.wg).launchid, kind := x.kind,
    addr := x.addr, loc := p.loc, size := x.size, data := x.data, cmp := x.cmp, ret := x.ret, pc := c.pc,
    lane := (s.thr (thrKey c.wg e.tid)).lane, repl := p.repl, unc := p.unc, peer := p.peer }

/-- The accesses `l` are those of the threads `fr`, in lane order and then element order, numbered in that order; a store or an atomic
bears its clock value beside (12_ordering R212). -/
def State.Accesses (s : State) (c : Site) (fr : Frag) (els : Env → List Elem) (place : Env → Elem → Place) (l : List Access)
    (u : State) : Prop :=
  l.map (fun a => { a with id := 0, instr := 0, vec := none, deps := [] }) = fr.flatMap (fun e => (els e).map fun x => s.accessOf c e x (place e x)) ∧
    (l.map Access.id).Pairwise (· < ·) ∧ ∀ a ∈ l, s.nextId ≤ a.id ∧ a.id < u.nextId

/-- Of the dies, only the clock of the issuing core's has changed (12_ordering R212). -/
def DiesClock (s : State) (c : Site) (u : State) : Prop :=
  ∀ k, u.die k = if k = dieKey c.pkg (c.core / 160) then { s.die k with vec := (u.die k).vec } else s.die k

/-- What the order of a word leaves thread `t` waiting for, as `t'`; `ret` says that an access of it has still to return (R214). -/
def OrderHolds (o : MO) (ret : Bool) (t t' : Thread) : Prop :=
  match o.o with
  | .rlx => t'.hold = t.hold
  | .rel => t'.hold = t.hold
  | .acq => ret = true → t'.hold = .acq o.sc
  | .ar => ret = true → t'.hold = .acq o.sc
  | .sc => t'.hold = .scPost o.sc

/-- Thread `t` did `act`, and `t'` is that but for what the word's order and a watch (10_trap_state R185) leave in it. -/
def MemDoes (s : State) (c : Site) (o : MO) (ret : Bool) (act : Thread) (t t' : Thread) : Prop :=
  t' = { act with hold := t'.hold, since := t'.since, watch := t'.watch } ∧ OrderHolds o ret t t' ∧
    ((s.launchOf (s.wg c.wg)).debug = false → t'.watch = t.watch)

/-- What issuing elements leaves in the workgroups: the digest of a replayable kernel and the ineligibility of one that reads or writes
what a re-execution cannot repeat (15_counters R265, R267). -/
def WgKeeps (s : State) (c : Site) (fr : Frag) (els : Env → List Elem) (place : Env → Elem → Place) (u : State) : Prop :=
  (∀ k, k ≠ c.wg → u.wg k = s.wg k) ∧
  u.wg c.wg = { s.wg c.wg with digest := (u.wg c.wg).digest, inelig := (u.wg c.wg).inelig } ∧
  ((s.launchOf (s.wg c.wg)).replayable = false → (u.wg c.wg).digest = (s.wg c.wg).digest) ∧
  (u.wg c.wg).inelig = ((s.wg c.wg).inelig || fr.any fun e => (els e).any fun x => s.spoils c.wg x (place e x))

/-! ### Waking -/

/-- A thread wakes with those of its fragment whose wait is over too (`met`): each stands at the next word, and no other thread changes. -/
def MatesGo (s : State) (k : Nat) (met : Nat → Bool) (u : State) : Prop :=
  k ∈ (s.metMates k met).map (thrKey (k / 2048)) ∧
    ∀ j, u.thr j = if j ∈ (s.metMates k met).map (thrKey (k / 2048)) then
        { s.thr j with wait := .none, pc := (s.thr j).pc + 8, since := s.clockOf (s.wg (k / 2048)).pkg }
      else s.thr j

/-! ### Collectives -/

/-- One more input of node `d` of chunk `k` is there: the launch counter of the node, on its rank's die, falls by one from what it was or
from the node's inputs, and at zero the node's reduce block is queued there (14_engines R251). Nothing else of any die changes. -/
def CountsDown (s : State) (g : Coll) (k : Nat) (d : RedNode) (u : State) : Prop :=
  let dk := s.rankDie g d.rank
  let mine := fun e : RedCount => e.coll == g.collid && e.chunk == k && e.node == d
  let left := (((s.die dk).counts.find? mine).map RedCount.left).getD ((s.collShape g).inputs d) - 1
  ∀ i, u.die i = if i = dk then
      { s.die i with
        counts := ((s.die i).counts.filter fun e => !mine e) ++
          if left = 0 then [] else [{ coll := g.collid, chunk := k, node := d, left := left }]
        redq := (s.die i).redq ++ if left = 0 then [{ coll := g.collid, chunk := k, node := d }] else [] }
    else s.die i

/-! ### Operations of a plane queue -/

/-- Operation `o` at the head of a core's plane queue retires (08_planes R146): it is a plain one of a thread, on this core, its gang is
not stopped, and no store has raced with what it reads (R149). -/
structure State.Retiring (s : State) (p core : Nat) (o : PlaneOp) (rest : List PlaneOp) : Prop where
  head : (s.core (coreKey p core)).pq = o :: rest
  unpaused : (s.pkg p).paused = false
  goes : s.planeGoes o = true
  plain : o.role = 0
  thread : o.loop = none
  unraced : o.old = []
  here : (s.wg o.wg).ckey = coreKey p core

/-- Of the threads, only those that waited for operation `o` have changed, and the flags of its performing thread (R151, R158). -/
def PlaneWakes (s : State) (ck : Nat) (o : PlaneOp) (u : State) : Prop := ∀ k,
  let t := s.thr k
  u.thr k = { t with hold := (u.thr k).hold, since := (u.thr k).since, flags := (u.thr k).flags } ∧
    (k ≠ o.thr → (u.thr k).flags = t.flags) ∧ ((∀ ids, t.hold ≠ .plane ids) → (u.thr k).hold = t.hold) ∧
    ∀ ids, t.hold = .plane ids → k / 2048 ∈ s.wgsOn ck → k % 2048 < (s.wg (k / 2048)).size →
      (u.thr k).hold = if (ids.filter fun i => i != o.id) = [] then .none else .plane (ids.filter fun i => i != o.id)

end Sys2Proof.Machine

namespace Sys2Proof

/-- Operand A of a three-operand word at width `w`, as a thread reads it (05_integer R89). -/
def F3.va (o : F3) (w : Width) (e : Machine.Env) : Nat := Machine.readOp w e o.a

/-- Operand B at width `w`, of the source lane under a modifier (05_integer R89, 07_lanes R123). -/
def F3.vb (o : F3) (w : Width) (fr : Machine.Frag) (e : Machine.Env) : Nat := Machine.readB w fr e o.sm o.b

/-- The one source of a two-operand word. -/
def F2.vb (o : F2) (w : Width) (fr : Machine.Frag) (e : Machine.Env) : Nat := Machine.readB w fr e o.sm o.b

/-- Operand A read as a float of a format (06_float R106). -/
def F3.fa (o : F3) (f : NFmt) (e : Machine.Env) : Nat := Machine.readFl f e o.a

/-- Operand B read as a float of a format. -/
def F3.fb (o : F3) (f : NFmt) (fr : Machine.Frag) (e : Machine.Env) : Nat := Machine.readFlB f fr e o.sm o.b

/-- The one source read as a float of a format. -/
def F2.fb (o : F2) (f : NFmt) (fr : Machine.Frag) (e : Machine.Env) : Nat := Machine.readFlB f fr e o.sm o.b

/-- A source of FDOT2 (06_float R110): two 16-bit elements. That a small immediate stands for its integer value in element 0, with +0 in
element 1, is the model's choice (DESIGN CHOICE, assumption 74); anything else is the whole word. -/
def halvesOf (h : NFmt) (e : Machine.Env) (x : Opnd) : Nat :=
  match x with
  | .imm v => Machine.readFl h e (.imm v)
  | _ => Machine.readOp .w32 e x

end Sys2Proof
end

