-- ==== Sys2Proof/Certificates/Slice0/Obligations.lean ====
section
/-! DEFINITION. The statements: what the numbered rules of the spec say that the machine and each of its instructions do. -/

open Sys2Proof Sys2Proof.Machine

/-! ### Group 0: integer and address words -/

/-- 05_integer R92 to R95: an exact integer of the operands' values is delivered into D, modulo 2^w or, with saturation, clamped with SAT;
MULH takes the upper half of the product; a zero divisor gives all ones (DIV) or the dividend (REM) and raises
DZ, but not for a zero that the lane modifier supplies (02_numbers R41); ADDC writes the
carry or the borrow. -/
def Obligations.IntegerArithmetic : Prop := ∀ (s : State) (c : Site),
  (∀ o t sat, s.Issues c (.add o t sat) → ∃ u, exec (.add o t sat) s = .next u ∧
    Computes s c o.g (fun fr e => intOut o.d t sat (val t (o.va t.w e) + val t (o.vb t.w fr e))) u) ∧
  (∀ o t sat, s.Issues c (.sub o t sat) → ∃ u, exec (.sub o t sat) s = .next u ∧
    Computes s c o.g (fun fr e => intOut o.d t sat (val t (o.va t.w e) - val t (o.vb t.w fr e))) u) ∧
  (∀ o t sat, s.Issues c (.mul o t sat) → ∃ u, exec (.mul o t sat) s = .next u ∧
    Computes s c o.g (fun fr e => intOut o.d t sat (val t (o.va t.w e) * val t (o.vb t.w fr e))) u) ∧
  (∀ o z t sat, s.Issues c (.mad o z t sat) → ∃ u, exec (.mad o z t sat) s = .next u ∧
    Computes s c o.g (fun fr e =>
      intOut o.d t sat (val t (o.va t.w e) * val t (o.vb t.w fr e) + val t (readOp t.w e z))) u) ∧
  (∀ o w sg, s.Issues c (.mulh o w sg) → ∃ u, exec (.mulh o w sg) s = .next u ∧
    Computes s c o.g (fun fr e => { xs := put o.d ⟨w2 w, sg⟩ (umod (w2 w).bits
                                      (val ⟨w2 w, sg⟩ (o.va (w2 w) e) * val ⟨w2 w, sg⟩ (o.vb (w2 w) fr e) / (2 ^ (w2 w).bits : Nat))) }) u) ∧
  (∀ o t sat, s.Issues c (.div o t sat) → ∃ u, exec (.div o t sat) s = .next u ∧
    Computes s c o.g (fun fr e =>
      if val t (o.vb t.w fr e) = 0 then { xs := put o.d t (2 ^ t.w.bits - 1), fl := if zeroB fr e o.sm then 0 else fDZ }
      else intOut o.d t sat (Int.tdiv (val t (o.va t.w e)) (val t (o.vb t.w fr e)))) u) ∧
  (∀ o t, s.Issues c (.rem o t) → ∃ u, exec (.rem o t) s = .next u ∧
    Computes s c o.g (fun fr e =>
      if val t (o.vb t.w fr e) = 0 then { xs := put o.d t (o.va t.w e), fl := if zeroB fr e o.sm then 0 else fDZ }
      else intOut o.d t false (val t (o.va t.w e) -
        val t (o.vb t.w fr e) * Int.tdiv (val t (o.va t.w e)) (val t (o.vb t.w fr e)))) u) ∧
  (∀ o w borrow, s.Issues c (.addc o w borrow) → ∃ u, exec (.addc o w borrow) s = .next u ∧
    Computes s c o.g (fun fr e => { xs := put32 o.d
                                      (if borrow then (if o.va (w2 w) e < o.vb (w2 w) fr e then 1 else 0)
                                      else (if 2 ^ (w2 w).bits ≤ o.va (w2 w) e + o.vb (w2 w) fr e then 1 else 0)) }) u) ∧
  (∀ o t, s.Issues c (.min o t) → ∃ u, exec (.min o t) s = .next u ∧
    Computes s c o.g (fun fr e => intOut o.d t false
      (if val t (o.va t.w e) ≤ val t (o.vb t.w fr e) then val t (o.va t.w e) else val t (o.vb t.w fr e))) u) ∧
  (∀ o t, s.Issues c (.max o t) → ∃ u, exec (.max o t) s = .next u ∧
    Computes s c o.g (fun fr e => intOut o.d t false
      (if val t (o.va t.w e) ≤ val t (o.vb t.w fr e) then val t (o.vb t.w fr e) else val t (o.va t.w e))) u) ∧
  (∀ o w sat, s.Issues c (.abs o w sat) → ∃ u, exec (.abs o w sat) s = .next u ∧
    Computes s c o.g (fun fr e => intOut o.d ⟨w, true⟩ sat ((val ⟨w, true⟩ (o.vb w fr e)).natAbs : Int)) u)

/-- 05_integer R96 to R99: bitwise operations, shifts by an amount that may pass the width (SHL delivers A · 2^n, SHR and SAR give zero or
copies of the sign), rotation by n mod w, and the bit counts. -/
def Obligations.LogicShiftCount : Prop := ∀ (s : State) (c : Site),
  (∀ o t, s.Issues c (.and o t) → ∃ u, exec (.and o t) s = .next u ∧
    Computes s c o.g (fun fr e => { xs := put o.d t (o.va t.w e &&& o.vb t.w fr e) }) u) ∧
  (∀ o t, s.Issues c (.or o t) → ∃ u, exec (.or o t) s = .next u ∧
    Computes s c o.g (fun fr e => { xs := put o.d t (o.va t.w e ||| o.vb t.w fr e) }) u) ∧
  (∀ o t, s.Issues c (.xor o t) → ∃ u, exec (.xor o t) s = .next u ∧
    Computes s c o.g (fun fr e => { xs := put o.d t (o.va t.w e ^^^ o.vb t.w fr e) }) u) ∧
  (∀ o t, s.Issues c (.andn o t) → ∃ u, exec (.andn o t) s = .next u ∧
    Computes s c o.g (fun fr e => { xs := put o.d t (o.va t.w e &&& (2 ^ t.w.bits - 1 - o.vb t.w fr e)) }) u) ∧
  (∀ o t sat, s.Issues c (.shl o t sat) → ∃ u, exec (.shl o t sat) s = .next u ∧
    Computes s c o.g (fun fr e => intOut o.d t sat (val t (o.va t.w e) * (2 ^ min (o.vb .w32 fr e) 64 : Nat))) u) ∧
  (∀ o t, s.Issues c (.shr o t) → ∃ u, exec (.shr o t) s = .next u ∧
    Computes s c o.g (fun fr e => { xs := put o.d t
                                      (if t.w.bits ≤ o.vb .w32 fr e then 0 else o.va t.w e / 2 ^ o.vb .w32 fr e) }) u) ∧
  (∀ o t, s.Issues c (.sar o t) → ∃ u, exec (.sar o t) s = .next u ∧
    Computes s c o.g (fun fr e => { xs := put o.d t
                                      (if t.w.bits ≤ o.vb .w32 fr e then (if sint t.w.bits (o.va t.w e) < 0 then 2 ^ t.w.bits - 1 else 0)
                                      else umod t.w.bits (sint t.w.bits (o.va t.w e) / (2 ^ o.vb .w32 fr e : Nat))) }) u) ∧
  (∀ o t, s.Issues c (.rol o t) → ∃ u, exec (.rol o t) s = .next u ∧
    Computes s c o.g (fun fr e => { xs := put o.d t
                                      ((o.va t.w e * 2 ^ (o.vb .w32 fr e % t.w.bits) + o.va t.w e / 2 ^ (t.w.bits - o.vb .w32 fr e % t.w.bits)) %
                                      2 ^ t.w.bits) }) u) ∧
  (∀ o w, s.Issues c (.popc o w) → ∃ u, exec (.popc o w) s = .next u ∧
    Computes s c o.g (fun fr e => { xs := put32 o.d ((List.range w.bits).filter fun i => (o.vb w fr e).testBit i).length }) u) ∧
  (∀ o w, s.Issues c (.clz o w) → ∃ u, exec (.clz o w) s = .next u ∧
    Computes s c o.g (fun fr e => { xs := put32 o.d
                                      (if o.vb w fr e = 0 then w.bits else w.bits - 1 - Nat.log2 (o.vb w fr e)) }) u) ∧
  (∀ o w, s.Issues c (.ctz o w) → ∃ u, exec (.ctz o w) s = .next u ∧
    Computes s c o.g (fun fr e => { xs := put32 o.d
                                      (((List.range w.bits).find? fun i => (o.vb w fr e).testBit i).getD w.bits) }) u) ∧
  (∀ o t, s.Issues c (.brev o t) → ∃ u, exec (.brev o t) s = .next u ∧
    Computes s c o.g (fun fr e => { xs := put o.d t (bitReverse t.w.bits (o.vb t.w fr e)) }) u)

/-- 05_integer R99 to R105: bit fields, selection, comparison into a predicate, moves and constants into an x register, LEA and ADDI. -/
def Obligations.FieldsMovesAddresses : Prop := ∀ (s : State) (c : Site),
  (∀ o t, s.Issues c (.bfx o t) → ∃ u, exec (.bfx o t) s = .next u ∧
    Computes s c o.g (fun fr e => bfxOut o.d t (o.va t.w e) (o.vb .w32 fr e)) u) ∧
  (∀ o t, s.Issues c (.bfi o t) → ∃ u, exec (.bfi o t) s = .next u ∧
    Computes s c o.g (fun fr e => bfiOut o.d t (readOp t.w e (.x o.d)) (o.va t.w e) (o.vb .w32 fr e)) u) ∧
  (∀ o t p, s.Issues c (.sel o t p) → ∃ u, exec (.sel o t p) s = .next u ∧
    Computes s c o.g (fun fr e => { xs := put o.d t (if e.qr p.q != p.neg then o.va t.w e else o.vb t.w fr e) }) u) ∧
  (∀ o t k, s.Issues c (.cmp o t k) → ∃ u, exec (.cmp o t k) s = .next u ∧
    Computes s c o.g (fun fr e =>
      { qs := [(o.q, icond k (val t (readOp t.w e o.a)) (val t (readB t.w fr e o.sm o.b)))] }) u) ∧
  (∀ d b sm g t, s.Issues c (.mov (.x d) b sm g t) → ∃ u, exec (.mov (.x d) b sm g t) s = .next u ∧
    Computes s c g (fun fr e => { xs := put d t (readB t.w fr e sm b) }) u) ∧
  (∀ d g v, s.Issues c (.movi (.x d) g v) → ∃ u, exec (.movi (.x d) g v) s = .next u ∧
    Computes s c g (fun _ _ => { xs := [(d.toNat, v)] }) u) ∧
  (∀ d g v, s.Issues c (.moviI64 d g v) → ∃ u, exec (.moviI64 d g v) s = .next u ∧
    Computes s c g (fun _ _ => { xs := put64 d (umod 64 v.toInt) }) u) ∧
  (∀ d m b t, s.Issues c (.lea d m b t) → ∃ u, exec (.lea d m b t) s = .next u ∧
    Computes s c m.g (fun _ e => { xs := put64 d (umod 64 (((readBase e m.a).toNat : Int) +
                                     (t.w.bytes : Int) * m.off.toInt + (t.w.bytes : Int) * val ⟨.w32, t.sg⟩ (readOp .w32 e b))) }) u) ∧
  (∀ d a g v, s.Issues c (.addi d a g v) → ∃ u, exec (.addi d a g v) s = .next u ∧
    Computes s c g (fun _ e => { xs := put32 d (umod 32 ((readOp .w32 e a : Int) + v.toInt)) }) u)

/-- 04_registers R77: MOV and MOVI into a k register take the value of the lowest guard-active lane; with none the register keeps its
value. Of the machine only that register, the threads' standing and the issue counters change. -/
def Obligations.UniformMoves : Prop := ∀ (s : State) (c : Site) (n : KReg) (g : Guard) (i : Instr) (v : Frag → Env → Nat),
  ((∃ b sm t, i = .mov (.k n) b sm g t ∧ v = fun fr e => readB t.w fr e sm b) ∨ (∃ m, i = .movi (.k n) g m ∧ v = fun _ _ => m.toNat)) →
  s.Issues c i →
  ∃ u, exec i s = .next u ∧ ThreadsDo s s c g (fun _ t => t.goto c.nextPc) u ∧ OthersKeep s c u ∧ CoresKeep s c u ∧
    u = { s with threads := u.threads, cores := u.cores, wgs := u.wgs } ∧
    ∀ k, u.wg k =
      match s.frag c g with
      | [] => s.wg k
      | e :: _ => if k = c.wg then (s.wg k).wk n.toNat (BitVec.ofNat 32 (v (s.frag c g) e)) else s.wg k

/-! ### Group 1: floating point -/

/-- 06_float R109 to R111, R115: each result is the rounded exact result of its operands in the format and rounding mode of the word, with
the flags it raises, but for those that come through a zero supplied by the lane modifier alone (02_numbers R41). That a small immediate
of FDOT2 fills element 0, with +0 in element 1, is the model's choice (DESIGN CHOICE, assumption 74). -/
def Obligations.FloatArithmetic : Prop := ∀ (s : State) (c : Site),
  (∀ o f rm, s.Issues c (.fadd o f rm) → ∃ u, exec (.fadd o f rm) s = .next u ∧
    Computes s c o.g (fun fr e => fltOut o.d (faddV f.n rm e.org (o.fa f.n e) (o.fb f.n fr e))) u) ∧
  (∀ o f rm, s.Issues c (.fsub o f rm) → ∃ u, exec (.fsub o f rm) s = .next u ∧
    Computes s c o.g (fun fr e => fltOut o.d (fsubV f.n rm e.org (o.fa f.n e) (o.fb f.n fr e))) u) ∧
  (∀ o f rm, s.Issues c (.fmul o f rm) → ∃ u, exec (.fmul o f rm) s = .next u ∧
    Computes s c o.g (fun fr e => (fltOut o.d (fmulV f.n rm e.org (o.fa f.n e) (o.fb f.n fr e))).unless
      (onlyZero fr e o.sm [(f.n, o.fa f.n e)])) u) ∧
  (∀ o z f rm, s.Issues c (.ffma o z f rm) → ∃ u, exec (.ffma o z f rm) s = .next u ∧
    Computes s c o.g (fun fr e => (fltOut o.d (ffmaV f.n rm e.org (o.fa f.n e) (o.fb f.n fr e) (readFl f.n e z))).unless
      (onlyZero fr e o.sm [(f.n, o.fa f.n e), (f.n, readFl f.n e z)])) u) ∧
  (∀ o f, s.Issues c (.fmin o f) → ∃ u, exec (.fmin o f) s = .next u ∧
    Computes s c o.g (fun fr e => fltOut o.d (fminmaxV false f.n (o.fa f.n e) (o.fb f.n fr e))) u) ∧
  (∀ o f, s.Issues c (.fmax o f) → ∃ u, exec (.fmax o f) s = .next u ∧
    Computes s c o.g (fun fr e => fltOut o.d (fminmaxV true f.n (o.fa f.n e) (o.fb f.n fr e))) u) ∧
  (∀ o f rm, s.Issues c (.frnd o f rm) → ∃ u, exec (.frnd o f rm) s = .next u ∧
    Computes s c o.g (fun fr e => (fltOut o.d (frndV f.n rm (o.fb f.n fr e))).unless (zeroB fr e o.sm)) u) ∧
  (∀ o bf rm, s.Issues c (.fdot2 o bf rm) → ∃ u, exec (.fdot2 o bf rm) s = .next u ∧
    Computes s c o.g (fun fr e => (fltOut o.d (fdot2V (if bf then .bf16 else .f16) rm e.org (readOp .w32 e (.x o.d))
      (halvesOf (if bf then .bf16 else .f16) e o.a)
      (match o.sm with
       | none => halvesOf (if bf then .bf16 else .f16) e o.b
       | some m => match laneEnv fr (smodLane m e.lane) with
         | some x => halvesOf (if bf then .bf16 else .f16) x o.b
         | none => 0))).unless (onlyZero fr e o.sm [(.f32, readOp .w32 e (.x o.d)),
      (if bf then .bf16 else .f16, halvesOf (if bf then .bf16 else .f16) e o.a % 2 ^ 16),
      (if bf then .bf16 else .f16, halvesOf (if bf then .bf16 else .f16) e o.a / 2 ^ 16 % 2 ^ 16)])) u)

/-- 06_float R112 to R114: comparison into a predicate, classification, and the special functions, each with its flags, none of which
comes through a zero supplied by the lane modifier (02_numbers R41). -/
def Obligations.FloatCompareSpecial : Prop := ∀ (s : State) (c : Site),
  (∀ o f k, s.Issues c (.fcmp o f k) → ∃ u, exec (.fcmp o f k) s = .next u ∧
    Computes s c o.g (fun fr e =>
      { qs := [(o.q, (fcmpV k f.n (readFl f.n e o.a) (readFlB f.n fr e o.sm o.b)).1)],
        fl := (fcmpV k f.n (readFl f.n e o.a) (readFlB f.n fr e o.sm o.b)).2 }) u) ∧
  (∀ o f, s.Issues c (.fclass o f) → ∃ u, exec (.fclass o f) s = .next u ∧
    Computes s c o.g (fun fr e => { xs := put32 o.d (fclassV f.n (o.fb f.n fr e)) }) u) ∧
  (∀ (k : Spec) (i : Instr) (o : F2) (f : FFmt),
    (i, k) ∈ [(.frcp o f, .rcp), (.fsqrt o f, .sqrt), (.frsq o f, .rsq), (.fexp2 o f, .exp2), (.flog2 o f, .log2),
      (.fsint o f, .sint), (Instr.fcost o f, Spec.cost)] →
    s.Issues c i → ∃ u, exec i s = .next u ∧
      Computes s c o.g (fun fr e => (fltOut o.d (specV k f.n e.org (o.fb f.n fr e))).unless (zeroB fr e o.sm)) u)

/-- 06_float R116 to R122: conversions between formats and to and from integers, packing and unpacking of narrow codes, scaling into an
accumulated float, and order keys. -/
def Obligations.ConversionsScaling : Prop := ∀ (s : State) (c : Site),
  (∀ o dst src rm sat, s.Issues c (.fcvt o dst src rm sat) → ∃ u, exec (.fcvt o dst src rm sat) s = .next u ∧
    Computes s c o.g (fun fr e => (fltOut o.d (fcvtV dst src rm sat
      (if NFmtRaw src then o.vb .w32 fr e else o.fb src fr e))).unless (zeroB fr e o.sm)) u) ∧
  (∀ o t src rm sat, s.Issues c (.fcvti o t src rm sat) → ∃ u, exec (.fcvti o t src rm sat) s = .next u ∧
    Computes s c o.g (fun fr e => { xs := put o.d t (fcvtiV t src.n rm sat (o.fb src.n fr e)).1,
                                      fl := if zeroB fr e o.sm then 0 else (fcvtiV t src.n rm sat (o.fb src.n fr e)).2 }) u) ∧
  (∀ o t dst rm, s.Issues c (.icvtf o t dst rm) → ∃ u, exec (.icvtf o t dst rm) s = .next u ∧
    Computes s c o.g (fun fr e => fltOut o.d (icvtfV dst.n rm (val t (o.vb t.w fr e)))) u) ∧
  (∀ o f sat, s.Issues c (.fpack o f sat) → ∃ u, exec (.fpack o f sat) s = .next u ∧
    Computes s c o.g (fun fr e => fpackOut o.d f sat (readOp .w32 e (.x o.d)) (o.va .w32 e) (o.vb .w32 fr e)) u) ∧
  (∀ o f, s.Issues c (.funpk o f) → ∃ u, exec (.funpk o f) s = .next u ∧
    Computes s c o.g (fun fr e => { xs := put32 o.d
                                      (o.vb .w32 fr e / 2 ^ (o.va .w32 e % (32 / f.bits) * f.bits) % 2 ^ f.bits) }) u) ∧
  (∀ o f rm sat ak e8m0, s.Issues c (.fscaleacc o f rm sat ak e8m0) →
    ∃ u, exec (.fscaleacc o f rm sat ak e8m0) s = .next u ∧
    Computes s c o.g (fun fr e => fltOut o.d (fscaleV f.n rm sat e.org (unpack f.n (readFl f.n e (.x o.d))) (scaleA e ak o.a)
      (if e8m0 then ((o.vb .w32 fr e % 256 : Nat) : Int) - 127 else sint 32 (o.vb .w32 fr e))
      (e8m0 && o.vb .w32 fr e % 256 == 0xFF))) u) ∧
  (∀ o t, s.Issues c (.ordkey o (.int t)) → ∃ u, exec (.ordkey o (.int t)) s = .next u ∧
    Computes s c o.g (fun fr e => { xs := put64 o.d (ordKey t.w.bits (o.vb t.w fr e) false t.sg) }) u) ∧
  (∀ o f, s.Issues c (.ordkey o (.flt f)) → ∃ u, exec (.ordkey o (.flt f)) s = .next u ∧
    Computes s c o.g (fun fr e => { xs := put64 o.d (ordKey f.n.bits (o.fb f.n fr e) true false) }) u)

/-! ### Group 2: lanes -/

/-- 07_lanes R126 to R130: PERM and SHUFX bring A of the lane that B names, zero where no guard-active lane stands; VOTE counts a predicate
over the guard-active lanes; MATCH marks the lanes of equal B; ELECT marks the lowest lane. -/
def Obligations.LaneMovesVotes : Prop := ∀ (s : State) (c : Site),
  (∀ o w, s.Issues c (.perm o w) → ∃ u, exec (.perm o w) s = .next u ∧
    Computes s c o.g (fun fr e => { xs := put o.d ⟨w2 w, false⟩
                                      (if o.vb .w32 fr e < 64 then readLane (w2 w) fr (o.vb .w32 fr e) o.a else 0) }) u) ∧
  (∀ o w seg m, s.Issues c (.shufx o w seg m) → ∃ u, exec (.shufx o w seg m) s = .next u ∧
    Computes s c o.g (fun fr e => { xs := put o.d ⟨w2 w, false⟩
                                      (match shufLane m (segSize seg) e.lane (o.vb .w32 fr e) with
                                      | some j => readLane (w2 w) fr j o.a
                                      | none => 0) }) u) ∧
  (∀ q p g, s.Issues c (.vote (.all q) p g) → ∃ u, exec (.vote (.all q) p g) s = .next u ∧
    Computes s c g (fun fr _ => { qs := [(q, fr.all fun e => e.qr p.q != p.neg)] }) u) ∧
  (∀ q p g, s.Issues c (.vote (.any q) p g) → ∃ u, exec (.vote (.any q) p g) s = .next u ∧
    Computes s c g (fun fr _ => { qs := [(q, fr.any fun e => e.qr p.q != p.neg)] }) u) ∧
  (∀ d p g, s.Issues c (.vote (.ballot d) p g) → ∃ u, exec (.vote (.ballot d) p g) s = .next u ∧
    Computes s c g (fun fr _ => { xs := put64 d
                                    (laneMask ((fr.filter fun e => e.qr p.q != p.neg).map fun e => e.lane)).toNat }) u) ∧
  (∀ d p g, s.Issues c (.vote (.ballotHi d) p g) → ∃ u, exec (.vote (.ballotHi d) p g) s = .next u ∧
    Computes s c g (fun _ _ => { xs := put64 d 0 }) u) ∧
  (∀ o w, s.Issues c (.matchL o w false) → ∃ u, exec (.matchL o w false) s = .next u ∧
    Computes s c o.g (fun fr e => { xs := put64 o.d
                                      (laneMask ((fr.filter fun f => o.vb (w2 w) fr f == o.vb (w2 w) fr e).map fun f => f.lane)).toNat }) u) ∧
  (∀ o w, s.Issues c (.matchL o w true) → ∃ u, exec (.matchL o w true) s = .next u ∧
    Computes s c o.g (fun _ _ => { xs := put64 o.d 0 }) u) ∧
  (∀ q g, s.Issues c (.elect q g) → ∃ u, exec (.elect q g) s = .next u ∧
    Computes s c g (fun fr e => { qs := [(q, fr.all fun f => decide (e.lane ≤ f.lane))] }) u)

/-- 02_numbers R47, 07_lanes R131 to R134: REDUCE, SCAN, CAVITY and LSCAN by the combination schedule over the lane's segment, with the
identity in lanes that are not guard-active; of LSCAN the first lane folds in its state. -/
def Obligations.LaneCombinations : Prop := ∀ (s : State) (c : Site),
  (∀ (i : Instr) (sched : Nat → Comb Nat → Nat → List (Nat × W32) → List (Nat × W32)) (o : F2) (t : LTy) (seg : Seg) (op : LOp),
    (i = .reduce o t seg op ∧ sched = fun z f b => schedule (reduceStep z f b)) ∨
      (i = .scan o t seg op ∧ sched = fun z f b => schedule (scanStep z f b)) ∨
      (i = .cavity o t seg op ∧ sched = fun z f b => cavitySched z f b) →
    s.Issues c i → ∃ u, exec i s = .next u ∧
    Computes s c o.g (fun fr e =>
      let sz := segSize seg
      let b := e.lane - e.lane % sz
      lPut o.d t ((sched (lIdent t op) (lComb t op e.pc) b
        ((List.range sz).map fun k => match laneEnv fr (b + k) with
          | some x => (lRead t fr x o, 0)
          | none => (lIdent t op, 0))).getD (e.lane - b) (lIdent t op, 0))) u) ∧
  (∀ o f seg, s.Issues c (.lscan o f seg) → ∃ u, exec (.lscan o f seg) s = .next u ∧
    Computes s c o.g (fun fr e =>
      let sz := segSize seg
      let b := e.lane - e.lane % sz
      let r := (schedule (scanStep lscanIdent (lscanComb e.pc) b)
        ((List.range sz).map fun k => match laneEnv fr (b + k) with
          | some x => lscanElem o f.n fr sz x
          | none => (lscanIdent, 0))).getD (e.lane - b) (lscanIdent, 0)
      fltOut o.d (r.1.2, r.2)) u)

/-! ### Pair words -/

/-- 03_encoding R62 to R65: a pair word of two halves that do not access memory (PREF has no effect). Each half has the effect of its full
form in the threads where its own guard holds; both read their sources as they stood at issue, and both results are written. A
thread in which neither guard holds only goes on. -/
def Obligations.PairComputes : Prop := ∀ (s : State) (c : Site) (a b : Half),
  (∀ e, halfElems a e = []) → (∀ e, halfElems b e = []) → s.Issues c (mkPair a b) →
  ∃ u, exec (mkPair a b) s = .next u ∧
    (∀ i ∈ c.tids, u.thr (thrKey c.wg i) =
      let e := s.env c.wg i
      let t := s.thr (thrKey c.wg i)
      let t := if e.guarded a.args.g then t.out (halfOut a (s.frag c a.args.g) e) else t
      (if e.guarded b.args.g then t.out (halfOut b (s.frag c b.args.g) e) else t).goto c.nextPc) ∧
    OthersKeep s c u ∧ CoresKeep s c u ∧ u = { s with threads := u.threads, cores := u.cores }

/-! ### Group 4: control -/

/-- 09_control R163: BRA and CALL go to PC + 8 · IMM, BRC does where its condition holds; CALL leaves PC + 8 in its pair. RET and JMPI go to
the address in a pair, JMPI with a link leaving PC + 8. The targets are aligned here; `RefusedWordsTrap` has the rest. -/
def Obligations.BranchesGo : Prop := ∀ (s : State) (c : Site), c.pc.toNat % 8 = 0 →
  (∀ g v, s.Issues c (.bra g v) → ∃ u, exec (.bra g v) s = .next u ∧
    OnlyThreads s c g (fun _ t => t.goto (c.pc + BitVec.ofInt 64 (8 * v.toInt))) u) ∧
  (∀ k a g v, s.Issues c (.brc k a g v) → ∃ u, exec (.brc k a g v) s = .next u ∧
    OnlyThreads s c g (fun e t => t.goto
      (if bcond k (sint 32 (readOp .w32 e a)) then c.pc + BitVec.ofInt 64 (8 * v.toInt) else c.pc + 8)) u) ∧
  (∀ d g v, s.Issues c (.call d g v) → ∃ u, exec (.call d g v) s = .next u ∧
    OnlyThreads s c g (fun _ t => (t.wxs (put64 d (c.pc + 8).toNat)).goto (c.pc + BitVec.ofInt 64 (8 * v.toInt))) u) ∧
  (∀ b g, s.Issues c (.ret b g) → (∀ e ∈ s.frag c g, (readBase e b).toNat % 8 = 0) →
    ∃ u, exec (.ret b g) s = .next u ∧ OnlyThreads s c g (fun e t => t.goto (readBase e b)) u) ∧
  (∀ b g, s.Issues c (.jmpi b g) → (∀ e ∈ s.frag c g, (readBase e b).toNat % 8 = 0) →
    ∃ u, exec (.jmpi b g) s = .next u ∧ OnlyThreads s c g (fun e t => t.goto (readBase e b)) u) ∧
  (∀ d b g, s.Issues c (.jmpiLink d b g) → (∀ e ∈ s.frag c g, (readBase e b).toNat % 8 = 0) →
    ∃ u, exec (.jmpiLink d b g) s = .next u ∧
      OnlyThreads s c g (fun e t => (t.wxs (put64 d (c.pc + 8).toNat)).goto (readBase e b)) u)

/-- 09_control R164 to R167, R178: RJOIN sets JOIN[n]; RWAIT, once a release at .core is complete in each participant (12_ordering R217),
makes a participant arrive and wait with SHC cleared and lets any other thread go on; NOP only goes on; YIELD gives up the thread's place
from the current I-cycle on; SHIELD sets SHC to n where it is 0 and is counted where it is not. -/
def Obligations.ThreadControl : Prop := ∀ (s : State) (c : Site),
  (∀ n g, s.Issues c (.rjoin n g) → ∃ u, exec (.rjoin n g) s = .next u ∧
    OnlyThreads s c g (fun _ t => { (t.goto c.nextPc) with join := t.join ||| (1#16 <<< n.toNat) }) u) ∧
  (∀ n g, s.Issues c (.rwait n g) →
    (∀ e ∈ s.frag c g, (s.thr (thrKey c.wg e.tid)).join.getLsbD n.toNat = true → s.relDone (thrKey c.wg e.tid) .core = true) →
    ∃ u, exec (.rwait n g) s = .next u ∧
    OnlyThreads s c g (fun _ t =>
      if t.join.getLsbD n.toNat then
        { t.issue with shc := 0, wait := .rwait n.toNat, arrive := t.arrive ||| (1#16 <<< n.toNat) }
      else t.goto c.nextPc) u) ∧
  (∀ g, s.Issues c (.nop g) → ∃ u, exec (.nop g) s = .next u ∧ OnlyThreads s c g (fun _ t => t.goto c.nextPc) u) ∧
  (∀ g, s.Issues c (.yield g) → ∃ u, exec (.yield g) s = .next u ∧
    OnlyThreads s c g (fun _ t => { (t.goto c.nextPc) with yielded := true, yieldAt := s.clockOf c.pkg }) u) ∧
  (∀ n g, s.Issues c (.shield n g) → ∃ u, exec (.shield n g) s = .next u ∧
    OnlyThreads s c g (fun _ t => { (t.goto c.nextPc) with
      shc := if t.shc = 0 then n.toNat else if t.handler then t.shc else t.shc - 1 }) u)

/-- 09_control R167, 19_queue_instr R306: EXIT ends each guard-active thread: it waits for nothing and takes part in no barrier, the returns
of its accesses are discarded, and everything that it issued proceeds. When the last thread of the workgroup ends, its rings go.

09_control R176, R177: CANCEL cancels each guard-active thread whatever SHC holds: its registers are discarded, the workgroup is marked, its
unserved loads are dropped, and its other accesses proceed with their returns discarded. Memory is untouched. -/
def Obligations.ThreadsEnd : Prop :=
  (∀ (s : State) (c : Site) (g : Guard), s.Issues c (.exit g) →
    ∃ u, exec (.exit g) s = .next u ∧
      ThreadsDo s s c g (fun _ t => { t.issue with life := .exited, join := 0, arrive := 0, wait := .none, hold := .none, watch := none }) u ∧
      OthersKeep s c u ∧
      u.accs = s.accs.map (fun a => if (s.frag c g).any (fun e => a.thr == thrKey c.wg e.tid) then { a with cancelled := true } else a) ∧
      (∀ k, u.core k = { s.core k with perf := (u.core k).perf, rings := (u.core k).rings }) ∧
      ((∃ i ∈ s.liveTids c.wg, i ∉ (s.frag c g).map Env.tid) → CoresKeep s c u) ∧
      (s.frag c g ≠ [] → (∀ i ∈ s.liveTids c.wg, i ∈ (s.frag c g).map Env.tid) →
        (u.core (s.wg c.wg).ckey).rings = (s.core (s.wg c.wg).ckey).rings.filter fun r =>
          !(r.launchid == (s.wg c.wg).launchid && r.wgid == (s.wg c.wg).wgid)) ∧
      u = { s with threads := u.threads, cores := u.cores, accs := u.accs }) ∧
  (∀ (s : State) (c : Site) (g : Guard), s.Issues c (.cancel g) →
    ∃ u, exec (.cancel g) s = .next u ∧
      ThreadsDo s s c g (fun _ t =>
        { life := .cancelled, pc := t.pc, lane := t.lane, seq := t.seq, lead := t.lead, trap := t.trap,
          park := t.park.bind fun p => if p.keep then some p else none }) u ∧
      OthersKeep s c u ∧
      u.accs = (s.accs.filter fun a => !((s.frag c g).any (fun e => a.thr == thrKey c.wg e.tid) && a.unserved)).map
        (fun a => if (s.frag c g).any (fun e => a.thr == thrKey c.wg e.tid) then { a with cancelled := true } else a) ∧
      (∀ k, u.wg k = if k = c.wg ∧ s.frag c g ≠ [] then { s.wg k with cxl := true, inelig := true } else s.wg k) ∧
      (∀ k, u.core k = { s.core k with perf := (u.core k).perf, dropped := (u.core k).dropped, rings := (u.core k).rings }) ∧
      (∀ k, k ≠ coreKey c.pkg c.core → k ≠ (s.wg c.wg).ckey → u.core k = s.core k) ∧
      u = { s with threads := u.threads, cores := u.cores, wgs := u.wgs, accs := u.accs })

/-- 09_control R169, R171, R172, R174: with incumbent n declared, INCOFR sends one offer of key and payload per guard-active thread, with
the order PKGID, COREID, slot, LANE that decides equal keys; INCRD reads the core's copy (the worst key with payload 0 when it is empty),
unless that lags behind a key that the thread has read (12_ordering R223), INCWAIT makes the thread wait for a better key with SHC cleared,
and BOUND sets BND and BSEL; BOUND.NONE clears them. -/
def Obligations.IncumbentWords : Prop := ∀ (s : State) (c : Site),
  (∀ n a b sm g, s.Issues c (.incofr n a b sm g) → (s.launchOf (s.wg c.wg)).incDecl n.toNat = true → s.redoing c.wg = false →
    ∃ u, exec (.incofr n a b sm g) s = .next u ∧ ThreadsDo s s c g (fun _ t => t.goto c.nextPc) u ∧
      OthersKeep s c u ∧ CoresKeep s c u ∧
      u.offers = s.offers ++ (s.frag c g).zipIdx.map (fun p =>
        { id := s.nextId + p.2, pkg := c.pkg, ctx := (s.wg c.wg).ctx, n := n.toNat, thr := thrKey c.wg p.1.tid,
          inc := ⟨readBase p.1 a, readBaseMod (s.frag c g) p.1 sm b⟩,
          ord := ((640 * c.pkg + c.core) * 2 + c.slot) * Config.gwidth + (s.thr (thrKey c.wg p.1.tid)).lane }) ∧
      (∀ k, u.wg k = { s.wg k with digest := (u.wg k).digest }) ∧
      ((s.launchOf (s.wg c.wg)).replayable = false → ∀ k, u.wg k = s.wg k) ∧
      u = { s with threads := u.threads, cores := u.cores, wgs := u.wgs, offers := u.offers, nextId := u.nextId }) ∧
  (∀ d p n g, s.Issues c (.incrd d p n g) → (s.launchOf (s.wg c.wg)).incDecl n.toNat = true →
    (∀ e ∈ s.frag c g, s.incLags c.wg e.tid n.toNat = false) →
    ∃ u, exec (.incrd d p n g) s = .next u ∧
      Leaves s (if (s.frag c g).isEmpty then s else s.spoil c.wg) c g
        (fun _ t => { ((t.wxs (incOut d p (s.incCopy c.wg n.toNat))).goto c.nextPc) with
          incSeen := tset t.incSeen n.toNat (s.incCopy c.wg n.toNat).key }) u) ∧
  (∀ n b sm g, s.Issues c (.incwait n b sm g) → (s.launchOf (s.wg c.wg)).incDecl n.toNat = true →
    ∃ u, exec (.incwait n b sm g) s = .next u ∧
      Leaves s (if (s.frag c g).isEmpty then s else s.spoil c.wg) c g
        (fun e t => { t.issue with wait := .incwait n.toNat (readBaseMod (s.frag c g) e sm b), shc := 0 }) u) ∧
  (∀ n b sm g, s.Issues c (.bound n b sm g) → (s.launchOf (s.wg c.wg)).incDecl n.toNat = true →
    ∃ u, exec (.bound n b sm g) s = .next u ∧
      OnlyThreads s c g (fun e t => { (t.goto c.nextPc) with
        bnd := readBaseMod (s.frag c g) e sm b, bsel := BitVec.ofNat 5 (16 + n.toNat) }) u) ∧
  (∀ g, s.Issues c (.boundNone g) → ∃ u, exec (.boundNone g) s = .next u ∧
    OnlyThreads s c g (fun _ t => { (t.goto c.nextPc) with bnd := 0, bsel := 0 }) u)

/-! ### Exceptions (10_trap_state R179 to R190) -/

/-- 10_trap_state R179 to R182, R189: TRAP enters the handler at VEC + 0x400 with TRAPPC the next word; BRK, while HALTD is 0, at VEC + 0x440
with TRAPPC its own word. TRAPADDR is the code; PARENTID and SIBMASK name the parent group and the lanes of it that stay outside. -/
def Obligations.SoftwareTraps : Prop := ∀ (s : State) (c : Site), (∀ j ∈ c.tids, (s.thr (thrKey c.wg j)).handler = false) →
  (∀ n g, s.Issues c (.trap n g) → ∃ u, exec (.trap n g) s = .next u ∧
    OnlyThreads s c g (fun _ t => { t.issue with
      trap := { pc := c.pc + 8, cause := 0x10, addr := n.setWidth 64, parent := t.parentId,
                sibLo := s.sibMask c.wg ((s.frag c g).map Env.tid), sibHi := 0 },
      handler := true, pc := (s.launchOf (s.wg c.wg)).vec + 0x400 }) u) ∧
  (∀ n g, s.Issues c (.brk n g) → s.haltd c.wg = false →
    ∃ u, exec (.brk n g) s = .next u ∧
    OnlyThreads s c g (fun _ t => { t.issue with
      trap := { pc := c.pc, cause := 0x11, addr := n.setWidth 64, parent := t.parentId,
                sibLo := s.sibMask c.wg ((s.frag c g).map Env.tid), sibHi := 0 },
      handler := true, pc := (s.launchOf (s.wg c.wg)).vec + 0x440 }) u)

/-- 10_trap_state R190, 09_control R178: RTE of threads whose TRAPPC is aligned and that are in no pre-emption clears handler mode and goes to
TRAPPC; it is not counted toward SHC, and RTE.SKIP lets the next word pass one breakpoint match. Outside handler mode it is ILLEGAL. -/
def Obligations.ReturnFromTrap : Prop := ∀ (s : State) (c : Site) (skip : Bool) (g : Guard), s.Issues c (.rte skip g) →
  (s.inHandler c = true → (∀ e ∈ s.frag c g, (s.thr (thrKey c.wg e.tid)).trap.pc.toNat % 8 = 0) →
    (∀ e ∈ s.frag c g, (s.thr (thrKey c.wg e.tid)).pre = .none) →
    ∃ u, exec (.rte skip g) s = .next u ∧
      OnlyThreads s c g (fun _ t => { t with handler := false, pc := t.trap.pc, aged := false, scPlaced := false, skipBp := skip }) u) ∧
  (s.inHandler c = false → exec (.rte skip g) s = .next (s.illegal c))

/-! ### Group 5: memory -/

/-- 13_memory_instr R226 to R234, 12_ordering R210, R214: a memory word whose elements lie in package memory becomes, in each guard-active
thread, one access per element with its address, value and returning register, behind all accesses in flight; a store or an atomic takes the
next value of its die's clock (12_ordering R212); the thread goes on at the next word, held as the word's order says. No byte of memory and
no register changes at issue: the access is performed at its home and returns as an event. A k register takes the lowest guard-active lane's
value. -/
def Obligations.PackageAccessesIssue : Prop := ∀ (s : State) (c : Site) (g : Guard) (o : MO) (i : Instr)
    (plan : Bool → Env → List Elem) (place : Env → Elem → Place),
  ((∃ d m t, i = .ld d m t o ∧ g = m.g ∧ plan = fun lead e =>
      [{ kind := .load, addr := mAddr e m t.w.bytes, size := t.w.bytes,
         ret := match d with | .x n => .x n.toNat t | .k n => if lead then .k n.toNat else .none }]) ∨
    (∃ m b w, i = .st m b w o ∧ g = m.g ∧ plan = fun _ e =>
      [{ kind := .store, addr := mAddr e m w.bytes, size := w.bytes, data := BitVec.ofNat 64 (readOp w e b) }]) ∨
    (∃ d m t n, i = .ldv d m t n o ∧ g = m.g ∧ plan = fun _ => ldvElems d m t n) ∨
    (∃ m b w n, i = .stv m b w n o ∧ g = m.g ∧ plan = fun _ => stvElems m b w n) ∨
    (∃ op d m b w sg, i = .atom op d m b w sg o ∧ g = m.g ∧ plan = fun _ => atomElems op d m b w sg) ∨
    (∃ d m b w, i = .acas d m b w o ∧ g = m.g ∧ plan = fun _ => acasElems d m b w) ∨
    (∃ d m, i = .ldfe d m o ∧ g = m.g ∧ plan = fun _ => ldfeElems d m) ∨
    (∃ m b, i = .stfe m b o ∧ g = m.g ∧ plan = fun _ => stfeElems m b) ∨
    (∃ d m, i = .fetagRead d m o ∧ g = m.g ∧ plan = fun _ => tagElems .tagRead m (.x d.toNat ⟨.w32, false⟩)) ∨
    (∃ m, i = .fetagFill m o ∧ g = m.g ∧ plan = fun _ => tagElems .tagFill m .none) ∨
    (∃ m, i = .fetagEmpty m o ∧ g = m.g ∧ plan = fun _ => tagElems .tagEmpty m .none)) →
  s.Issues c i →
  let fr := s.frag c g
  let els := fun e => plan (e.tid == (fr.headD default).tid) e
  s.MayAccess c fr o els place → (∀ e ∈ fr, ∀ x ∈ els e, isScratch (place e x).loc = false) →
  ∃ u l, exec i s = .next u ∧ u.accs = s.accs ++ l ∧ s.Accesses c fr els place l u ∧
    (∀ j ∈ c.tids, let t := s.thr (thrKey c.wg j)
      if (s.env c.wg j).guarded g then
        MemDoes s c o ((els (s.env c.wg j)).any fun x => x.kind.returns) (t.goto c.nextPc) t (u.thr (thrKey c.wg j))
      else u.thr (thrKey c.wg j) = t.goto c.nextPc) ∧
    OthersKeep s c u ∧ CoresKeep s c u ∧ WgKeeps s c fr els place u ∧ (o.sc ≠ .pod → u.views = s.views) ∧ DiesClock s c u ∧
    ((∀ e ∈ fr, ∀ x ∈ els e, x.kind.clockedAtIssue = false) → u.dies = s.dies ∧ ∀ a ∈ l, a.vec = none) ∧
    u = { s with threads := u.threads, cores := u.cores, wgs := u.wgs, accs := u.accs, nextId := u.nextId, views := u.views, dies := u.dies }

/-- 13_memory_instr R229, R230, 12_ordering R211: LD and LDV from scratchpad are performed as they issue: each register takes the
little-endian value of its element's bytes, sign- or zero-extended; memory is untouched. -/
def Obligations.ScratchLoadsRead : Prop := ∀ (s : State) (c : Site) (g : Guard) (o : MO) (i : Instr) (els : Env → List Elem)
    (place : Env → Elem → Place) (regs : Env → List (Nat × W32)),
  ((∃ d m t, i = .ld (.x d) m t o ∧ g = m.g ∧
      els = (fun e => [{ kind := .load, addr := mAddr e m t.w.bytes, size := t.w.bytes, ret := .x d.toNat t }]) ∧
      regs = fun e => (els e).flatMap fun x => put d t (leNat (readBytes s.mem (place e x).loc t.w.bytes))) ∨
    (∃ d m t n, i = .ldv d m t n o ∧ g = m.g ∧ els = ldvElems d m t n ∧
      regs = fun e => (els e).zipIdx.flatMap fun p =>
        put (BitVec.ofNat 7 (d.toNat + (if t.w == .w64 then 2 * p.2 else p.2))) t
          (leNat (readBytes s.mem (place e p.1).loc t.w.bytes)))) →
  s.Issues c i → s.MayAccess c (s.frag c g) o els place →
  (∀ e ∈ s.frag c g, ∀ x ∈ els e, isScratch (place e x).loc = true ∧ (place e x).loc % x.size = 0) →
  ∃ u, exec i s = .next u ∧
    (∀ j ∈ c.tids, let t := s.thr (thrKey c.wg j)
      if (s.env c.wg j).guarded g then
        MemDoes s c o false ((t.wxs (regs (s.env c.wg j))).goto c.nextPc) t (u.thr (thrKey c.wg j))
      else u.thr (thrKey c.wg j) = t.goto c.nextPc) ∧
    OthersKeep s c u ∧ CoresKeep s c u ∧ WgKeeps s c (s.frag c g) els place u ∧ (o.sc ≠ .pod → u.views = s.views) ∧
    u = { s with threads := u.threads, cores := u.cores, wgs := u.wgs, nextId := u.nextId, views := u.views }

/-- 13_memory_instr R229, R230, 12_ordering R211: ST and STV to scratchpad are performed as they issue. Every byte outside the stored
elements reads as before; a stored element that no other element of the word meets holds its value's little-endian bytes. A
plane-queue operation that still stands may read the old word (08_planes R149), which the cores' queues remember. -/
def Obligations.ScratchStoresWrite : Prop := ∀ (s : State) (c : Site) (g : Guard) (o : MO) (i : Instr) (els : Env → List Elem)
    (place : Env → Elem → Place),
  ((∃ m b w, i = .st m b w o ∧ g = m.g ∧ els = fun e =>
      [{ kind := .store, addr := mAddr e m w.bytes, size := w.bytes, data := BitVec.ofNat 64 (readOp w e b) }]) ∨
    (∃ m b w n, i = .stv m b w n o ∧ g = m.g ∧ els = stvElems m b w n)) →
  s.Issues c i → s.MayAccess c (s.frag c g) o els place → s.MemOk →
  (∀ e ∈ s.frag c g, ∀ x ∈ els e, isScratch (place e x).loc = true ∧ (place e x).loc % x.size = 0) →
  ∃ u, exec i s = .next u ∧
    (∀ a, (∀ e ∈ s.frag c g, ∀ x ∈ els e, a < (place e x).loc ∨ (place e x).loc + x.size ≤ a) →
      readByte u.mem a = readByte s.mem a) ∧
    (∀ e ∈ s.frag c g, ∀ x ∈ els e,
      (∀ f ∈ s.frag c g, ∀ y ∈ els f, f = e ∧ y = x ∨ (place f y).loc + y.size ≤ (place e x).loc ∨
        (place e x).loc + x.size ≤ (place f y).loc) →
      readBytes u.mem (place e x).loc x.size = natLe x.size x.data.toNat) ∧
    (∀ j ∈ c.tids, let t := s.thr (thrKey c.wg j)
      if (s.env c.wg j).guarded g then MemDoes s c o false (t.goto c.nextPc) t (u.thr (thrKey c.wg j))
      else u.thr (thrKey c.wg j) = t.goto c.nextPc) ∧
    OthersKeep s c u ∧ (∀ k, u.core k = { s.core k with perf := (u.core k).perf, pq := (u.core k).pq }) ∧
    (∀ k, (s.core k).pq = [] → (u.core k).pq = []) ∧ WgKeeps s c (s.frag c g) els place u ∧ (o.sc ≠ .pod → u.views = s.views) ∧
    u = { s with threads := u.threads, cores := u.cores, wgs := u.wgs, nextId := u.nextId, views := u.views, mem := u.mem,
                 poison := u.poison }

/-- 13_memory_instr R235, R236, 12_ordering R214, R215: FENCE, once its first step is complete in every guard-active thread, passes: a release
leaves nothing to wait for, an acquire holds a thread behind the word while a load of it is out. PREF only goes on. -/
def Obligations.FencesPass : Prop := ∀ (s : State) (c : Site),
  (∀ o g, s.Issues c (.fence o g) → (∀ e ∈ s.frag c g, s.orderOk (thrKey c.wg e.tid) o = true) →
    ∃ u, exec (.fence o g) s = .next u ∧
      (∀ j ∈ c.tids, let t := s.thr (thrKey c.wg j); let t' := u.thr (thrKey c.wg j)
        if (s.env c.wg j).guarded g then
          t' = { t.goto c.nextPc with hold := t'.hold, since := t'.since, fence := none } ∧
          (o.o = .rel → t'.hold = t.hold ∧ t'.since = t.since) ∧
          (o.o ≠ .rel → s.loadsBack (thrKey c.wg j) = false → t'.hold = .acq o.sc) ∧
          (o.o ≠ .rel → s.loadsBack (thrKey c.wg j) = true → t'.hold = .none)
        else t' = t.goto c.nextPc) ∧
      OthersKeep s c u ∧ CoresKeep s c u ∧ (o.sc ≠ .pod → u.views = s.views) ∧
      u = { s with threads := u.threads, cores := u.cores, views := u.views }) ∧
  (∀ m, s.Issues c (.pref m) → ∃ u, exec (.pref m) s = .next u ∧ OnlyThreads s c m.g (fun _ t => t.goto c.nextPc) u)

/-- 03_encoding R63 to R65: a pair word with a memory half (LD.B32, ST.B32, LD.B64, ST.B64) whose elements lie in package memory issues them as
its full form would, and the other half's results are written in the same issue. -/
def Obligations.PairAccesses : Prop := ∀ (s : State) (c : Site) (a b : Half) (place : Env → Elem → Place),
  s.Issues c (mkPair a b) →
  let fr := (c.tids.map (s.env c.wg)).filter fun e => e.guarded a.args.g || e.guarded b.args.g
  let els := fun (e : Env) => (if e.guarded a.args.g then halfElems a e else []) ++ (if e.guarded b.args.g then halfElems b e else [])
  s.MayAccess c fr ⟨.rlx, .lane⟩ els place → (∀ e ∈ fr, ∀ x ∈ els e, isScratch (place e x).loc = false) →
  ∃ u l, exec (mkPair a b) s = .next u ∧ u.accs = s.accs ++ l ∧ s.Accesses c fr els place l u ∧
    (∀ j ∈ c.tids,
      let e := s.env c.wg j
      let t := s.thr (thrKey c.wg j)
      let t1 := if e.guarded a.args.g then t.out (halfOut a (s.frag c a.args.g) e) else t
      let t2 := if e.guarded b.args.g then t1.out (halfOut b (s.frag c b.args.g) e) else t1
      MemDoes s c ⟨.rlx, .lane⟩ false (t2.goto c.nextPc) t (u.thr (thrKey c.wg j))) ∧
    OthersKeep s c u ∧ CoresKeep s c u ∧ WgKeeps s c fr els place u ∧ DiesClock s c u ∧
    u = { s with threads := u.threads, cores := u.cores, wgs := u.wgs, accs := u.accs, nextId := u.nextId, dies := u.dies }

/-! ### Groups 2 and 3: forwarding and planes -/

/-- 07_lanes R135 to R137: FWDS, while the channel has a free entry, sends the successor core one message of 32 elements, each the operand of
the guard-active lane 32 · BLK + k or zero. FWDR takes the oldest message of the launch, of the same width, out of its channel;
the threads of the block take their element, and the workgroup is no longer eligible for a check. -/
def Obligations.ForwardingWords : Prop := ∀ (s : State) (c : Site) (g : Guard) (w : W2) (ch blk : BitVec 2),
  (∀ b sm n, s.Issues c (.fwds b sm g w ch blk) → s.frag c g ≠ [] → successor c.core = some n →
    s.chanFree (coreKey c.pkg n) ch.toNat = true →
    ∃ u m, exec (.fwds b sm g w ch blk) s = .next u ∧ ThreadsDo s s c g (fun _ t => t.goto c.nextPc) u ∧ OthersKeep s c u ∧
      CoresKeep s c u ∧ u.fwds = s.fwds ++ [m] ∧ m.core = coreKey c.pkg n ∧ m.ch = ch.toNat ∧
      m.msg.launchid = (s.wg c.wg).launchid ∧ m.msg.wide = (w == .w64) ∧ m.msg.elems.length = 32 ∧
      (∀ k < 32, m.msg.elems.getD k 0 =
        match (s.frag c g).find? fun e => e.lane == 32 * blk.toNat + k with
        | some e => BitVec.ofNat 64 (readB (w2 w) (s.frag c g) e sm b)
        | none => 0) ∧
      u = { s with threads := u.threads, cores := u.cores, fwds := u.fwds, nextId := u.nextId }) ∧
  (∀ b sm, s.Issues c (.fwds b sm g w ch blk) → successor c.core = none →
    (∀ j ∈ c.tids, (s.thr (thrKey c.wg j)).handler = false) →
    ∃ u, exec (.fwds b sm g w ch blk) s = .next u ∧
      OnlyThreads s c g (fun _ t => t.enter { cause := .fwdedge, pc := c.pc } (s.launchOf (s.wg c.wg)).vec
        (s.sibMask c.wg ((s.frag c g).map Env.tid)) false) u) ∧
  (∀ d before m after, s.Issues c (.fwdr d g w ch blk) → s.frag c g ≠ [] →
    (s.core (coreKey c.pkg c.core)).fwd.getD ch.toNat [] = before ++ m :: after →
    (∀ x ∈ before, x.launchid ≠ (s.wg c.wg).launchid) → m.launchid = (s.wg c.wg).launchid → m.wide = (w == .w64) →
    ch.toNat < (s.core (coreKey c.pkg c.core)).fwd.length →
    ∃ u, exec (.fwdr d g w ch blk) s = .next u ∧
      ThreadsDo s s c g (fun e t =>
        (if e.lane / 32 = blk.toNat then t.wxs (put d ⟨w2 w, false⟩ (m.elems.getD (e.lane % 32) 0).toNat) else t).goto c.nextPc) u ∧
      OthersKeep s c u ∧
      (∀ k, u.core k = if k = coreKey c.pkg c.core then { s.core k with perf := (u.core k).perf, fwd := (u.core k).fwd } else s.core k) ∧
      (∀ k, (u.core (coreKey c.pkg c.core)).fwd.getD k [] =
        if k = ch.toNat then before ++ after else (s.core (coreKey c.pkg c.core)).fwd.getD k []) ∧
      (∀ k, u.wg k = if k = c.wg then { s.wg k with inelig := true } else s.wg k) ∧
      u = { s with threads := u.threads, cores := u.cores, wgs := u.wgs })

/-- 08_planes R140 to R157: an operation of a plane kernel whose descriptors pass their checks takes one entry of its core's plane queue,
behind every other but the follower halves of its own I-cycle; a paired one takes an entry of the follower core as well. The
threads go on; nothing else has changed. -/
def Obligations.PlaneOperationsQueue : Prop := ∀ (s : State) (c : Site) (g : Guard) (i : Instr) (o : PlaneOp) (pair : Bool) (e : Env)
    (rest : Frag),
  s.frag c g = e :: rest →
  ((∃ dst src ix, i = .plane dst src ix g ∧ pair = false ∧ tdKind (s.slot c dst) = 1 ∧ tdKind (s.slot c src) = 4 ∧
      tdFmt (s.slot c src) ≤ 2 ∧ ix.toNat < tdSteps (s.slot c dst) ∧
      o = { id := 0, kind := .plane, ta := s.slot c dst, tb := s.slot c src, idx := ix.toNat }) ∨
    (∃ dst src ix, i = .align dst src ix g ∧ pair = false ∧ tdKind (s.slot c dst) = 2 ∧ tdKind (s.slot c src) = 4 ∧
      3 ≤ tdFmt (s.slot c src) ∧ tdFmt (s.slot c src) ≤ 8 ∧ ix.toNat < tdSteps (s.slot c dst) ∧
      o = { id := 0, kind := .align, ta := s.slot c dst, tb := s.slot c src, idx := ix.toNat }) ∨
    (∃ acc ta tb, i = .mma acc ta tb pair g ∧ tdKind (s.slot c ta) ∈ [1, 2] ∧ tdKind (s.slot c tb) ∈ [1, 2] ∧
      tdRole (s.slot c ta) = 0 ∧ tdRole (s.slot c tb) = 1 ∧ tdSteps (s.slot c ta) = tdSteps (s.slot c tb) ∧
      o = { id := 0, kind := .mma, acc := acc.toNat, ta := s.slot c ta, tb := s.slot c tb, idx := ta.toNat }) ∨
    (∃ acc ta tb, i = .mmac acc ta tb pair g ∧ tdKind (s.slot c ta) ∈ [1, 2] ∧ tdKind (s.slot c tb) = 3 ∧
      tdRole (s.slot c ta) = 0 ∧ tdRole (s.slot c tb) = 1 ∧ tdSteps (s.slot c ta) = tdSteps (s.slot c tb) ∧
      o = { id := 0, kind := .mmac, acc := acc.toNat, ta := s.slot c ta, tb := s.slot c tb, idx := ta.toNat }) ∨
    (∃ mask, i = .accz mask pair g ∧ o = { id := 0, kind := .accz, mask := mask }) ∨
    (∃ acc m b a f n p s', i = .accst acc m b ∧ g = m.g ∧ pair = false ∧
      a = BitVec.ofInt 64 ((readBase e m.a).toNat + 8 * m.off.toInt) ∧ a.toNat % 8 = 0 ∧ a.toNat / 2 ^ 48 ∈ [0xFFFF, 0xFFFD] ∧
      f = (e.xr b.toNat).toNat % 128 ∧ n = (e.xr b.toNat).toNat / 256 % 128 + 1 ∧ f + n ≤ 128 ∧
      s.resolve c.wg e.tid a (1024 * n) { w := true } = (.ok p, s') ∧ p.own = true ∧
      o = { id := 0, kind := .accst, acc := acc.toNat, addr := a, row := f, cnt := n })) →
  s.Issues c i → (s.launchOf (s.wg c.wg)).plane = true → (s.core (coreKey c.pkg c.core)).pq.length < 16 →
  (pair = true → (∃ v, s.follower c = some v) ∧ (s.core (coreKey c.pkg c.core + 1)).pq.length < 16) →
  let op := { o with id := s.nextId, thr := thrKey c.wg e.tid, wg := c.wg, cyc := s.clockOf c.pkg, pc := c.pc, role := if pair then 1 else 0 }
  ∃ u before after, exec i s = .next u ∧ ThreadsDo s s c g (fun _ t => t.goto c.nextPc) u ∧ OthersKeep s c u ∧
    (s.core (coreKey c.pkg c.core)).pq = before ++ after ∧ (∀ x ∈ after, x.role = 2 ∧ x.cyc = op.cyc) ∧
    (u.core (coreKey c.pkg c.core)).pq = before ++ op :: after ∧
    (pair = true → ∃ v, s.follower c = some v ∧
      (u.core (coreKey c.pkg c.core + 1)).pq = (s.core (coreKey c.pkg c.core + 1)).pq ++ [{ op with wg := v, role := 2 }]) ∧
    (∀ k, u.core k =
      if k = coreKey c.pkg c.core then { s.core k with perf := (u.core k).perf, pq := (u.core k).pq }
      else if pair = true ∧ k = coreKey c.pkg c.core + 1 then { s.core k with pq := (u.core k).pq }
      else s.core k) ∧
    u = { s with threads := u.threads, cores := u.cores, nextId := u.nextId }

/-- 08_planes R142 to R144, R155, R156, R158: TDESC writes the lowest guard-active lane's pair into its slot, a kind 0 value as zero; ACCRD
delivers an accumulator element as a 64-bit integer, or with bit 15 the overflow and poison bits, once no queued operation writes
what it reads (which is not in error here); MMAWAIT holds each thread behind the queued operations that write an accumulator of its mask.

21_tables R327: CBLOAD whose two granules are aligned, allowed and backed takes an entry of its core's plane queue; the performing thread
issues nothing more until the bytes have returned, the others go on. -/
def Obligations.PlaneWordsAct : Prop :=
  (∀ (s : State) (c : Site) (g : Guard), (s.launchOf (s.wg c.wg)).plane = true →
    (∀ slot a e rest, s.Issues c (.tdesc slot a g) → s.frag c g = e :: rest →
      let v := e.xy a.toNat
      tdKind v = 0 ∨ tdOk v (s.wg c.wg).scrSize = true →
      ∃ u, exec (.tdesc slot a g) s = .next u ∧ ThreadsDo s s c g (fun _ t => t.goto c.nextPc) u ∧ OthersKeep s c u ∧
        (∀ k, u.core k = if k = coreKey c.pkg c.core then
            { s.core k with perf := (u.core k).perf, td := (s.core k).td.set slot.toNat (if tdKind v = 0 then 0 else v) }
          else s.core k) ∧
        u = { s with threads := u.threads, cores := u.cores }) ∧
    (∀ d acc b sm, s.Issues c (.accrd d acc b sm g) →
      let k := s.core (coreKey c.pkg c.core)
      let rd := fun e => readB .w32 (s.frag c g) e sm b
      (∀ e ∈ s.frag c g, (rd e).testBit 15 = true → k.pq = []) →
      (∀ e ∈ s.frag c g, (rd e).testBit 15 = false → (∀ o ∈ k.pq, o.writesAcc acc.toNat = false) ∧ k.apoi.getLsbD acc.toNat = false ∧
        k.oneAcc.getLsbD acc.toNat = false) →
      ∃ u, exec (.accrd d acc b sm g) s = .next u ∧
        OnlyThreads s c g (fun e t => (t.wxs (put64 d
          (if (rd e).testBit 15 then 256 * k.apoi.toNat + k.aov.toNat
           else umod 64 (k.accAt acc.toNat (rd e % 128) (rd e / 256 % 128))))).goto c.nextPc) u) ∧
    (∀ mask, s.Issues c (.mmawait mask g) →
      let ids := ((s.core (coreKey c.pkg c.core)).pq.filter fun o =>
        mask == 0 || (List.range 8).any fun n => mask.getLsbD n && o.writesAcc n).map fun o => o.id
      ∃ u, exec (.mmawait mask g) s = .next u ∧
        OnlyThreads s c g (fun _ t => { (t.goto c.nextPc) with hold := if ids = [] then t.hold else .plane ids }) u)) ∧
  (∀ (s : State) (c : Site) (m : MAddr) (e : Env) (rest : Frag) (p q : Place),
    s.Issues c (.cbload m) → (s.launchOf (s.wg c.wg)).plane = true → s.frag c m.g = e :: rest →
    let a := BitVec.ofInt 64 ((readBase e m.a).toNat + 512 * m.off.toInt)
    a.toNat % 512 = 0 → sameAlloc a (a + 256) = true →
    s.resolve c.wg e.tid a 256 { r := true } = (.ok p, s) → s.resolve c.wg e.tid (a + 256) 256 { r := true } = (.ok q, s) →
    p.void = false → q.void = false → (s.core (coreKey c.pkg c.core)).pq.length < 16 →
    ∃ u before after op, exec (.cbload m) s = .next u ∧
      ThreadsDo s s c m.g (fun f t => if f.tid = e.tid then { (t.goto c.nextPc) with hold := .cb s.nextId } else t.goto c.nextPc) u ∧
      OthersKeep s c u ∧ (s.core (coreKey c.pkg c.core)).pq = before ++ after ∧
      (∀ x ∈ after, x.role = 2 ∧ x.cyc = s.clockOf c.pkg) ∧ (u.core (coreKey c.pkg c.core)).pq = before ++ op :: after ∧
      op = { id := s.nextId, kind := .cbload, thr := thrKey c.wg e.tid, wg := c.wg, cyc := s.clockOf c.pkg, pc := c.pc, addr := a,
             locs := [(p.seen (c.core / 160), p.unc), (q.seen (c.core / 160), q.unc)] } ∧
      (∀ k, u.core k = if k = coreKey c.pkg c.core then { s.core k with perf := (u.core k).perf, pq := (u.core k).pq } else s.core k) ∧
      (∀ k, u.wg k = if k = c.wg then { s.wg k with inelig := (u.wg k).inelig } else s.wg k) ∧
      u = { s with threads := u.threads, cores := u.cores, wgs := u.wgs, nextId := u.nextId })


/-! ### Engines and queues -/

/-- 14_engines R240, 19_queue_instr R309, 23_index R353, R359: an E-form word whose record of 128 bytes can be read, whose STATUS can be
written, and whose queue is free, puts one command behind the others: it holds the record as read, the performing thread and the
next ticket of the core, which every guard-active thread receives. The engine's own work follows as events. -/
def Obligations.EngineCommandsIssue : Prop := ∀ (s : State) (c : Site) (a : EArgs) (k : CKind) (i : Instr) (p : Env) (rest : Frag)
    (pl pl' : Place),
  (i, k) ∈ [(.tcopy a, .tcopy), (.tgather a, .tgather), (.cavred a, .cavred), (.loopnest a, .loopnest), (.send a, .send),
    (.search a, .search), (Instr.hspub a, CKind.hspub)] →
  s.Issues c i → s.frag c a.g = p :: rest → s.quiet (thrKey c.wg p.tid) = true →
  let r := BitVec.ofInt 64 ((p.ky a.a.toNat).toNat + 8 * a.off.toInt)
  let raw := s.seenBytes c.pkg c.core (pl.seen (c.core / 160)) pl.unc 128
  let ck := coreKey c.pkg c.core
  let s1 := if s.spoils c.wg { kind := .load, addr := r, size := 128 } pl then s.spoil c.wg else s
  r.toNat % 128 = 0 → s.resolve c.wg p.tid r 128 { r := true } = (.ok pl, s) → pl.void = false →
  (∀ j < 128, s.isPoisoned (pl.seen (c.core / 160) + j) 1 = false) →
  s1.resolve c.wg p.tid (r + 8) 8 { w := true } = (.ok pl', s1) →
  (k ∈ [.tcopy, .tgather, .cavred] → ((s.core ck).chans.getD (fld raw 4 1 % 8) []).length < 16) →
  (k = .loopnest → (s.core ck).loops.length < 4) →
  ∃ u cmd, exec i s = .next u ∧
    ThreadsDo s s c a.g (fun _ t => (t.wxs (put32 a.d ((s.core ck).tseq + 1).toNat)).goto c.nextPc) u ∧ OthersKeep s c u ∧
    u.cmds = s.cmds ++ [cmd] ∧
    cmd = { id := s.nextId, pkg := c.pkg, core := c.core, thr := thrKey c.wg p.tid, wg := c.wg, gang := (s.wg c.wg).gang,
            ctx := (s.wg c.wg).ctx, fn := (s.ctx (s.wg c.wg).ctx).fn, launchid := (s.wg c.wg).launchid,
            ticket := (s.core ck).tseq + 1, kind := k, recAddr := r, raw := raw,
            acq := if fld raw 2 1 % 2 = 1 then some (s.die (dieKey c.pkg (c.core / 160))).vec else none } ∧
    (∀ j, u.core j = if j = ck then
        { s.core j with
          perf := (u.core j).perf, tseq := (s.core j).tseq + 1,
          chans := if k ∈ [.tcopy, .tgather, .cavred] then
              (s.core j).chans.set (fld raw 4 1 % 8) ((s.core j).chans.getD (fld raw 4 1 % 8) [] ++ [s.nextId])
            else (s.core j).chans,
          loops := if k = .loopnest then (s.core j).loops ++ [s.nextId] else (s.core j).loops }
      else s.core j) ∧
    (∀ j, u.wg j = if j = c.wg then { s.wg j with inelig := (u.wg j).inelig } else s.wg j) ∧
    (k ∈ [.send, .search, .hspub] → (u.wg c.wg).inelig = true) ∧ (fld raw 2 1 % 2 = 0 → u.views = s.views) ∧
    u = { s with threads := u.threads, cores := u.cores, wgs := u.wgs, cmds := u.cmds, nextId := u.nextId, views := u.views }

/-- 19_queue_instr R312, 18_queues R291 to R293: SPAWN of one guard-active thread reads its record of 64 bytes and appends it to its core's deque.
The status is 2 without a deque region, 3 for a misaligned ENTRY or a wait address that is neither 0 nor an aligned GLOBAL one, 4
for a dominated record, 1 when the region is full, and else 0: only then is the record in the deque, and its entry of 128 bytes in the
region from DQBASE (11_memories R200; the layout of the entry is the model's choice, DESIGN CHOICE, assumption 87). The deque serves one
operation in an I-cycle (R296). -/
def Obligations.SpawnAppends : Prop := ∀ (s : State) (c : Site) (d : XReg) (m : MAddr) (o : MO) (e : Env) (p : Place),
  s.Issues c (.spawn d m o) → s.frag c m.g = [e] → s.orderOk (thrKey c.wg e.tid) o = true → s.quiet (thrKey c.wg e.tid) = true →
  s.mayServe (coreKey c.pkg c.core) = true →
  let a := BitVec.ofInt 64 ((readBase e m.a).toNat + 64 * m.off.toInt)
  let raw := s.seenBytes c.pkg c.core (p.seen (c.core / 160)) p.unc 64
  let k := s.core (coreKey c.pkg c.core)
  let r := dqOf raw (s.wg c.wg).launchid (s.thr (thrKey c.wg e.tid)).bsel
  let base := locScratch (coreKey c.pkg c.core / 640) (coreKey c.pkg c.core % 640) k.dqbase.toNat
  let st := if k.dqRoom = none then 2
    else if r.entry.toNat % 8 ≠ 0 ∨ waitOk r.wait0 = false ∨ waitOk r.wait1 = false then 3
    else if dominatedBy (s.launchOf (s.wg c.wg)) (bindIncs k.binds (s.wg c.wg).ctx) r.bound r.bsel then 4
    else if k.dqRoom.getD 0 ≤ k.deque.length then 1 else 0
  a.toNat % 64 = 0 → s.resolve c.wg e.tid a 64 { r := true } = (.ok p, s) → p.void = false →
  (∀ j < 64, s.isPoisoned (p.seen (c.core / 160) + j) 1 = false) →
  ∃ u, exec (.spawn d m o) s = .next u ∧ ThreadsDo s s c m.g (fun _ t => (t.wxs (put32 d st)).goto c.nextPc) u ∧ OthersKeep s c u ∧
    (∀ j, u.core j = if j = coreKey c.pkg c.core then
        { s.core j with
          perf := (u.core j).perf, pq := (u.core j).pq, dqUse := .spawn, deque := if st = 0 then k.deque ++ [r] else k.deque }
      else { s.core j with pq := (u.core j).pq }) ∧
    (∀ j, (s.core j).pq = [] → (u.core j).pq = []) ∧
    (∀ j, u.wg j = if j = c.wg then { s.wg j with inelig := true } else s.wg j) ∧
    (st ≠ 0 → u.mem = s.mem ∧ u.poison = s.poison ∧ ∀ j, (u.core j).pq = (s.core j).pq) ∧
    (s.MemOk → st = 0 → readBytes u.mem (base + 128 * k.deque.length) 128 = r.bytes ++ List.replicate 56 0) ∧
    (s.MemOk → ∀ x, x < base ∨ base + 128 * (k.deque.length + 1) ≤ x → readByte u.mem x = readByte s.mem x) ∧
    u = { s with threads := u.threads, cores := u.cores, wgs := u.wgs, mem := u.mem, poison := u.poison }

/-- 19_queue_instr R306, R307: RINGSET for the lowest guard-active thread's operands. SIZE 0 takes the ring away; a power of two from 256 bytes to
64 KiB that fits into SCRATCH with its control block makes it, with status 0; status 2 is a bad size or an overlap with another ring
of the workgroup, 1 a full table. Every guard-active thread receives the status. -/
def Obligations.RingsetSets : Prop := ∀ (s : State) (c : Site) (d : XReg) (m : MAddr) (b : XReg) (n : BitVec 2) (e : Env) (rest : Frag),
  s.Issues c (.ringset d m b n) → s.frag c m.g = e :: rest →
  let a := BitVec.ofInt 64 ((readBase e m.a).toNat + 256 * m.off.toInt)
  let w := s.wg c.wg
  let z := (e.xr b.toNat).toNat
  let off := a.toNat % 2 ^ 48
  let l := (s.core (coreKey c.pkg c.core)).rings
  let mine := fun r : Ring => r.launchid == w.launchid && r.wgid == w.wgid
  let other := l.filter fun r => !(mine r && r.n == n.toNat)
  let clash := l.any fun r => mine r && r.n != n.toNat && decide (w.scrBase + off < r.base + 64 * r.slots + 16) &&
    decide (r.base < w.scrBase + off + z + 16)
  let full := other.length = l.length ∧ 16 ≤ l.length
  let good := z ∈ [256, 512, 1024, 2048, 4096, 8192, 16384, 32768, 65536]
  a.toNat % 256 = 0 → a.toNat / 2 ^ 48 = 0xFFFF → off < w.scrSize → (good → off + z + 16 ≤ w.scrSize) →
  ∃ u, exec (.ringset d m b n) s = .next u ∧
    ThreadsDo s s c m.g (fun _ t => (t.wxs (put32 d
      (if z = 0 then 0 else if ¬ good ∨ clash = true then 2 else if full then 1 else 0))).goto c.nextPc) u ∧
    OthersKeep s c u ∧
    (∀ j, u.core j = if j = coreKey c.pkg c.core then
        { s.core j with
          perf := (u.core j).perf,
          rings := if z = 0 then other else if ¬ good ∨ clash = true ∨ full then l
            else other ++ [{ launchid := w.launchid, wgid := w.wgid, n := n.toNat, base := w.scrBase + off, slots := z / 64 }] }
      else s.core j) ∧
    u = { s with threads := u.threads, cores := u.cores }

/-- 19_queue_instr R311: RECV of one guard-active thread. From a ring that holds 1 to its SLOTS messages the sixteen registers from D take the
oldest one and HEAD advances; no other byte of memory changes. Of an empty ring, POLL delivers zeros, and WAIT stands at the word
with SHC cleared. -/
def Obligations.ReceiveTakes : Prop := ∀ (s : State) (c : Site) (d : XReg) (n : BitVec 2) (g : Guard) (wait : Bool) (i : Instr) (e : Env)
    (r : Ring),
  (i = .recvPoll d n g ∧ wait = false ∨ i = .recvWait d n g ∧ wait = true) → s.Issues c i → s.frag c g = [e] →
  s.unsettled (thrKey c.wg e.tid) = false → s.MemOk →
  s.ring (coreKey c.pkg c.core) (s.wg c.wg).launchid (s.wg c.wg).wgid n.toNat = some r →
  (wait = true → s.ringWaiters c.wg n.toNat = []) →
  let ctl := locScratch c.pkg c.core (r.base + 64 * r.slots)
  let tail := (readWord s.mem (ctl / 8)).toNat
  let head := (readWord s.mem (ctl / 8 + 1)).toNat
  let count := (tail + 2 ^ 64 - head) % 2 ^ 64
  let slot := locScratch c.pkg c.core (r.base + 64 * (head % r.slots))
  ctl % 16 = 0 → isScratch (ctl + 8) = true →
  ∃ u, exec i s = .next u ∧ OthersKeep s c u ∧ (∀ j, u.wg j = if j = c.wg then { s.wg j with inelig := true } else s.wg j) ∧
    (∀ j, u.core j = { s.core j with perf := (u.core j).perf, pq := (u.core j).pq }) ∧ (∀ j, (s.core j).pq = [] → (u.core j).pq = []) ∧
    (0 < count ∧ count ≤ r.slots →
      ThreadsDo s s c g (fun _ t => (t.wxs ((List.range 8).flatMap fun k =>
        put64 (BitVec.ofNat 7 (d.toNat + 2 * k)) (readWord s.mem (slot / 8 + k)).toNat)).goto c.nextPc) u ∧
      readWord u.mem (ctl / 8 + 1) = BitVec.ofNat 64 (head + 1) ∧
      (∀ x, x < ctl + 8 ∨ ctl + 16 ≤ x → readByte u.mem x = readByte s.mem x) ∧
      u = { s with threads := u.threads, cores := u.cores, wgs := u.wgs, mem := u.mem, poison := u.poison }) ∧
    (count = 0 ∧ wait = false →
      ThreadsDo s s c g (fun _ t => (t.wxs ((List.range 8).flatMap fun k => put64 (BitVec.ofNat 7 (d.toNat + 2 * k)) 0)).goto c.nextPc) u ∧
      u = { s with threads := u.threads, cores := u.cores, wgs := u.wgs }) ∧
    (count = 0 ∧ wait = true →
      ThreadsDo s s c g (fun _ t => { t.issue with
        wait := .recv n.toNat d.toNat s.nextId (r.tailOff (s.wg c.wg)) (some (s.tailAt (s.wg c.wg) (r.tailOff (s.wg c.wg)))), shc := 0 }) u ∧
      u = { s with threads := u.threads, cores := u.cores, wgs := u.wgs, nextId := u.nextId })


/-! ### Barriers, pointers, counters -/

/-- 15_counters R262, R263, R271: BAR, once the release of its scope is complete and no executing thread has arrived in this phase, makes each of
them arrive and delivers PHASE; BARO makes the workgroup arrive whole. No other object changes. -/
def Obligations.BarrierArrivals : Prop := ∀ (s : State) (c : Site) (d : XReg) (sc : Scope) (n : BitVec 4) (g : Guard),
  (sc ∈ [.die, .pkg, .pod] → (s.wg c.wg).wgid.toNat < 2 ^ 31) → s.frag c g ≠ [] →
  (s.Issues c (.bar d sc n g) →
    (∀ e ∈ s.frag c g, s.hasFlag c.wg e.tid sc n.toNat = false ∧ s.relDone (thrKey c.wg e.tid) sc = true) →
    ∃ u, exec (.bar d sc n g) s = .next u ∧
      ThreadsDo s s c g (fun _ t => (t.wxs (put32 d (s.bar c.wg sc n.toNat).phase.toNat)).goto c.nextPc) u ∧ OthersKeep s c u ∧
      CoresKeep s c u ∧ (u.bar c.wg sc n.toNat).phase = (s.bar c.wg sc n.toNat).phase ∧
      (∀ i, u.hasFlag c.wg i sc n.toNat = (s.hasFlag c.wg i sc n.toNat || (s.frag c g).any fun e => e.tid == i)) ∧
      (∀ sc' n', scIdx sc' ≠ scIdx sc ∨ n' ≠ n → u.bar c.wg sc' (BitVec.toNat n') = s.bar c.wg sc' n'.toNat) ∧
      (∀ k, u.wg k = { s.wg k with bars := (u.wg k).bars, wide := (u.wg k).wide }) ∧
      (∀ k, u.gang k = { s.gang k with bars := (u.gang k).bars }) ∧
      (∀ k, u.ctx k = { s.ctx k with dieBars := (u.ctx k).dieBars, pkgBars := (u.ctx k).pkgBars }) ∧
      u = { s with threads := u.threads, cores := u.cores, wgs := u.wgs, gangs := u.gangs, ctxs := u.ctxs, pods := u.pods }) ∧
  (s.Issues c (.baro d sc n g) → s.wgArrived c.wg sc n.toNat = false →
    (∀ e ∈ s.frag c g, s.relDone (thrKey c.wg e.tid) sc = true) →
    (sc = .pod → (s.launchOf (s.wg c.wg)).podn ≠ 0 → (s.podOf (s.launchOf (s.wg c.wg)).podkey).isSome) →
    ∃ u, exec (.baro d sc n g) s = .next u ∧
      ThreadsDo s s c g (fun _ t => (t.wxs (put32 d (s.bar c.wg sc n.toNat).phase.toNat)).goto c.nextPc) u ∧ OthersKeep s c u ∧
      CoresKeep s c u ∧ (u.bar c.wg sc n.toNat).phase = (s.bar c.wg sc n.toNat).phase ∧
      (∀ w, w ∈ (u.bar c.wg sc n.toNat).arr ↔ w = c.wg ∨ w ∈ (s.bar c.wg sc n.toNat).arr) ∧
      (∀ sc' n', scIdx sc' ≠ scIdx sc ∨ n' ≠ n → u.bar c.wg sc' (BitVec.toNat n') = s.bar c.wg sc' n'.toNat) ∧
      (∀ k, u.wg k = { s.wg k with bars := (u.wg k).bars, wide := (u.wg k).wide }) ∧
      (∀ k, u.gang k = { s.gang k with bars := (u.gang k).bars }) ∧
      (∀ k, u.ctx k = { s.ctx k with dieBars := (u.ctx k).dieBars, pkgBars := (u.ctx k).pkgBars }) ∧
      u = { s with threads := u.threads, cores := u.cores, wgs := u.wgs, gangs := u.gangs, ctxs := u.ctxs, pods := u.pods })

/-- 15_counters R272, R273, 09_control R161: BARW, WAITPTR and WAITPTR.TICKET make each guard-active thread stand at the word with SHC cleared: until
the phase of the token has completed, the copy pointer has passed the bound, or no command bears the ticket.

15_counters R274, R261: CNTRD delivers a counter as 64 bits: 0 to 7 the copy pointers, 8 the last ticket, 9 the oldest outstanding one or the
next, 0x10 + n PHASE and the arrivals still awaited, 0x40 up the performance counters. The workgroup is no longer eligible. -/
def Obligations.WaitsAndCounters : Prop :=
  (∀ (s : State) (c : Site) (g : Guard),
    (∀ b sc n, s.Issues c (.barw b sc n g) → (sc ∈ [.die, .pkg, .pod] → (s.wg c.wg).wgid.toNat < 2 ^ 31) →
      ∃ u, exec (.barw b sc n g) s = .next u ∧
        ThreadsDo s s c g (fun e t => { t.issue with wait := .barw sc n.toNat (readOp .w32 e b % 2 ^ 16), shc := 0 }) u ∧ OthersKeep s c u ∧
        CoresKeep s c u ∧ (∀ sc' n', u.bar c.wg sc' (BitVec.toNat (w := 4) n') = s.bar c.wg sc' n'.toNat) ∧
        (∀ k, u.gang k = { s.gang k with bars := (u.gang k).bars }) ∧
        (∀ k, u.ctx k = { s.ctx k with dieBars := (u.ctx k).dieBars }) ∧
        u = { s with threads := u.threads, cores := u.cores, gangs := u.gangs, ctxs := u.ctxs }) ∧
    (∀ ch b, s.Issues c (.waitptr ch b g) → ∃ u, exec (.waitptr ch b g) s = .next u ∧
      OnlyThreads s c g (fun e t => { t.issue with wait := .ptr ch.toNat (readBase e b), shc := 0 }) u) ∧
    (∀ b, s.Issues c (.waitptrTicket b g) → ∃ u, exec (.waitptrTicket b g) s = .next u ∧
      OnlyThreads s c g (fun e t => { t.issue with wait := .ticket (BitVec.ofNat 32 (readOp .w32 e b)), shc := 0 }) u)) ∧
  (∀ (s : State) (c : Site) (d : XReg) (sel : BitVec 8) (sc : Option Scope) (g : Guard),
    s.Issues c (.cntrd d sel sc g) → s.frag c g ≠ [] →
    (∀ x, sc = some x → x ∈ [.die, .pkg, .pod] → (s.wg c.wg).wgid.toNat < 2 ^ 31) →
    let k := s.core (s.wg c.wg).ckey
    ∃ u v, exec (.cntrd d sel sc g) s = .next u ∧
      Leaves s (s.modWg c.wg fun w => { w with inelig := true }) c g (fun _ t => (t.wxs (put64 d v)).goto c.nextPc) u ∧
      (sel.toNat < 8 → v = (k.wptr.getD sel.toNat 0).toNat) ∧ (sel = 8 → v = k.tseq.toNat) ∧
      (sel = 9 → v = match s.cmds.filter fun x => x.pkg == (s.wg c.wg).pkg && x.core == (s.wg c.wg).core && x.quiet == none with
        | [] => (k.tseq + 1).toNat
        | x :: _ => x.ticket.toNat) ∧
      (∀ n x, n < 16 → sel.toNat = 0x10 + n → sc = some x →
        v = (s.bar c.wg x n).phase.toNat + 2 ^ 16 * min (s.awaited c.wg x n) 0xFFFF) ∧
      (∀ n < 13, sel.toNat = 0x40 + n → v = if n = 12 then (s.pkg (s.wg c.wg).pkg).drySkip.toNat else (k.perf.getD n 0).toNat))

/-! ### Words that trap -/

/-- 09_control R163, R168, 13_memory_instr R228, 14_engines R240, 08_planes R150, R153, 10_trap_state R179 to R181: words whose guard-active threads
all take the same exception. A jump whose target is misaligned takes BADPC with TRAPADDR the target; a word of an undeclared
incumbent NOINC with its number; an access or a record that is not aligned to its size ACCESS with detail 7 and its address; MMA
or MMAC whose A slot holds no plane tile TILE with reason 1 and the slot. TRAPPC is the word, the other trap registers and the new PC
are as R180 and R181 say, and the word does nothing else.

03_encoding R68, 10_trap_state R179 to R181: a word that is not legal in its kernel raises ILLEGAL in every thread of its fragment,
whatever the guard says: TRAPPC is the word, TRAPCAUSE 1, TRAPADDR 0, and each thread stands at VEC + 64 in handler mode. Nothing else
changes. -/
def Obligations.RefusedWordsTrap : Prop :=
  (∀ (s : State) (c : Site) (g : Guard) (i : Instr) (info : Env → TrapInfo),
    s.Issues c i → (∀ j ∈ c.tids, (s.thr (thrKey c.wg j)).handler = false) →
    ((∃ b, (i = .ret b g ∨ i = .jmpi b g ∨ ∃ d, i = .jmpiLink d b g) ∧ (∀ e ∈ s.frag c g, (readBase e b).toNat % 8 ≠ 0) ∧
        info = fun e => { cause := .badpc, pc := c.pc, addr := readBase e b }) ∨
      (∃ n : BitVec 4, ((∃ a b sm, i = .incofr n a b sm g) ∨ (∃ d p, i = .incrd d p n g) ∨ (∃ b sm, i = .incwait n b sm g) ∨
          ∃ b sm, i = .bound n b sm g) ∧ (s.launchOf (s.wg c.wg)).incDecl n.toNat = false ∧
        info = fun _ => { cause := .noinc, pc := c.pc, addr := BitVec.ofNat 64 n.toNat }) ∨
      (∃ (o : MO) (m : MAddr) (n : Nat), g = m.g ∧
        ((∃ d t, i = .ld d m t o ∧ n = t.w.bytes) ∨ (∃ b w, i = .st m b w o ∧ n = w.bytes) ∨
          (∃ op d b w sg, i = .atom op d m b w sg o ∧ n = (w2 w).bytes) ∨ (∃ d b w, i = .acas d m b w o ∧ n = (w2 w).bytes) ∨
          (∃ d, i = .ldfe d m o ∧ n = 8) ∨ (∃ b, i = .stfe m b o ∧ n = 8) ∨ (∃ d, i = .fetagRead d m o ∧ n = 8) ∨
          (i = .fetagFill m o ∧ n = 8) ∨ (i = .fetagEmpty m o ∧ n = 8)) ∧
        (∀ e ∈ s.frag c g, s.orderOk (thrKey c.wg e.tid) o = true) ∧ (∀ e ∈ s.frag c g, (mAddr e m n).toNat % n ≠ 0) ∧
        info = fun e => { cause := .access, detail := 7, pc := c.pc, addr := mAddr e m n }) ∨
      (∃ a p rest, i ∈ [.tcopy a, .tgather a, .cavred a, .loopnest a, .send a, .search a, Instr.hspub a] ∧ g = a.g ∧
        s.frag c g = p :: rest ∧ (BitVec.ofInt 64 ((p.ky a.a.toNat).toNat + 8 * a.off.toInt)).toNat % 128 ≠ 0 ∧
        info = fun _ => { cause := .access, detail := 7, pc := c.pc, addr := BitVec.ofInt 64 ((p.ky a.a.toNat).toNat + 8 * a.off.toInt) }) ∨
      (∃ acc ta tb pair, (i = .mma acc ta tb pair g ∨ i = .mmac acc ta tb pair g) ∧ (s.launchOf (s.wg c.wg)).plane = true ∧
        tdKind (s.slot c ta) ∉ [1, 2] ∧ info = fun _ => { cause := .tile, pc := c.pc, addr := BitVec.ofNat 64 (256 + ta.toNat) })) →
    ∃ u, exec i s = .next u ∧
      OnlyThreads s c g (fun e t => t.enter (info e) (s.launchOf (s.wg c.wg)).vec (s.sibMask c.wg ((s.frag c g).map Env.tid)) false) u) ∧
  (∀ (s : State) (c : Site) (i : Instr),
    isEvent i = false → s.cur = some c → s.wordOk c i = false → c.tids.Nodup →
    (∀ j ∈ c.tids, (s.thr (thrKey c.wg j)).handler = false) →
    ∃ u, exec i s = .next u ∧
      (∀ j ∈ c.tids, u.thr (thrKey c.wg j) = { s.thr (thrKey c.wg j) with
        trap := { pc := c.pc, cause := 1, addr := 0, parent := (s.thr (thrKey c.wg j)).parentId, sibLo := s.sibMask c.wg c.tids, sibHi := 0 },
        handler := true, pc := (s.launchOf (s.wg c.wg)).vec + 64 }) ∧
      OthersKeep s c u ∧ u = { s with threads := u.threads })

/-! ### Group 7: the system -/

/-- 04_registers R80, 10_trap_state R187, R188: SRD delivers the system register of its selector, as each thread has it. -/
def Obligations.SystemRegisterReads : Prop := ∀ (s : State) (c : Site) (d : XReg) (w : W2) (g : Guard) (sel : BitVec 8)
    (v : Env → Thread → W64),
  let x := s.wg c.wg
  let k := s.core x.ckey
  (sel, v) ∈ [(0x00#8, fun e _ => BitVec.ofNat 64 e.tid), (0x01, fun _ t => BitVec.ofNat 64 t.lane), (0x02, fun _ _ => x.wgid.setWidth 64),
    (0x03, fun _ _ => x.gangid.setWidth 64),
    (0x04, fun _ _ => x.launchid.setWidth 64), (0x05, fun _ _ => BitVec.ofNat 64 x.core), (0x06, fun _ _ => BitVec.ofNat 64 (x.core / 4)),
    (0x07, fun _ _ => BitVec.ofNat 64 (x.core / 160)), (0x08, fun _ _ => BitVec.ofNat 64 x.pkg),
    (0x09, fun _ _ => BitVec.ofNat 64 Config.gwidth), (0x0A, fun _ t => t.flags.setWidth 64), (0x0B, fun _ t => (t.q ||| 1).setWidth 64),
    (0x0C, fun _ t => t.bnd), (0x0D, fun _ t => t.bsel.setWidth 64), (0x0E, fun _ t => t.poisonLo), (0x0F, fun _ t => t.poisonHi),
    (0x10, fun _ t => t.trap.pc), (0x11, fun _ t => t.trap.cause.setWidth 64), (0x12, fun _ t => t.trap.addr),
    (0x13, fun _ t => t.trap.parent.setWidth 64), (0x14, fun _ t => t.trap.sibLo), (0x15, fun _ t => t.trap.sibHi),
    (0x18, fun _ _ => k.dbgctl.setWidth 64), (0x19, fun _ _ => k.brkpc.getD 0 0), (0x1A, fun _ _ => k.brkpc.getD 1 0),
    (0x1B, fun _ _ => k.brkpc.getD 2 0), (0x1C, fun _ _ => k.brkpc.getD 3 0), (0x1D, fun _ _ => k.watchLo), (0x1E, fun _ _ => k.watchHi),
    (0x20, fun _ _ => (s.pkg x.pkg).gen.setWidth 64), (0x21, fun _ _ => (s.pkg x.pkg).dryfrac.setWidth 64),
    (0x22, fun _ _ => k.susp.setWidth 64), (0x23, fun _ _ => k.dropped), (0x24, fun _ _ => (s.pkg x.pkg).clock),
    (0x28, fun _ _ => k.dqbase.setWidth 64), (0x29, fun _ _ => k.dqlimit.setWidth 64)] →
  s.Issues c (.srd d w sel g) →
  ∃ u, exec (.srd d w sel g) s = .next u ∧
    ThreadsDo s s c g (fun e t => (t.wxs (put d ⟨w2 w, false⟩ (v e t).toNat)).goto c.nextPc) u ∧ OthersKeep s c u ∧ CoresKeep s c u ∧
    (∀ j, u.wg j = if j = c.wg ∧ s.frag c g ≠ [] ∧ sel ∈ [0x05, 0x06, 0x07, 0x20, 0x22, 0x23, 0x24] then
        { s.wg j with inelig := true }
      else s.wg j) ∧
    u = { s with threads := u.threads, cores := u.cores, wgs := u.wgs }

/-- 04_registers R80, R81, 10_trap_state R183, R188: SWR. FLAGS takes its defined bits in any mode; the trap-handler registers are written in
handler mode, a debug register there or in a launch with debug rights, by the lowest guard-active thread; DQBASE and DQLIMIT are
written while the deque is empty and the new region may stand. Any other write is ILLEGAL. For up to two I-cycles, a free number
(log entry 2), the core's words still issue under the debug register's value before. -/
def Obligations.SystemRegisterWrites : Prop := ∀ (s : State) (c : Site) (b : Opnd) (w : W2) (sel : BitVec 8) (g : Guard),
  s.Issues c (.swr b w sel g) →
  let val := fun e : Env => BitVec.ofNat 64 (readOp (w2 w) e b)
  let ck := coreKey c.pkg c.core
  (∀ f : Thread → W64 → Thread,
    (sel, f) ∈ [(0x0A#8, fun t v => { t with flags := v.setWidth 32 &&& 0x7F }), (0x0B, fun t v => { t with q := v.setWidth 8 ||| 1 }),
      (0x0C, fun t v => { t with bnd := v }), (0x0D, fun t v => { t with bsel := v.setWidth 5 }),
      (0x0E, fun t v => { t with poisonLo := v }), (0x0F, fun t v => { t with poisonHi := v }),
      (0x10, fun t v => { t with trap := { t.trap with pc := v } }), (0x11, fun t _ => t), (0x12, fun t _ => t)] →
    sel = 0x0A ∨ s.inHandler c = true →
    ∃ u, exec (.swr b w sel g) s = .next u ∧ OnlyThreads s c g (fun e t => (f t (val e)).goto c.nextPc) u) ∧
  (∀ e rest f, s.frag c g = e :: rest →
    (sel, f) ∈ [(0x18#8, fun k : Core => { k with dbgctl := ((val e).setWidth 32 &&& 0xE) ||| (k.dbgctl &&& 1) }),
      (0x19, fun k => { k with brkpc := k.brkpc.set 0 (val e &&& ~~~6) }), (0x1A, fun k => { k with brkpc := k.brkpc.set 1 (val e &&& ~~~6) }),
      (0x1B, fun k => { k with brkpc := k.brkpc.set 2 (val e &&& ~~~6) }), (0x1C, fun k => { k with brkpc := k.brkpc.set 3 (val e &&& ~~~6) }),
      (0x1D, fun k => { k with watchLo := val e }), (0x1E, fun k => { k with watchHi := val e })] →
    s.inHandler c = true ∨ (s.launchOf (s.wg c.wg)).debug = true →
    ∃ u, exec (.swr b w sel g) s = .next u ∧ ThreadsDo s s c g (fun _ t => t.goto c.nextPc) u ∧ OthersKeep s c u ∧
      (∀ j, u.core j = if j = ck then
          { f (s.core j) with perf := (u.core j).perf, dbgOld := (u.core j).dbgOld }
        else s.core j) ∧
      ((u.core ck).dbgOld = (s.core ck).dbgOld ∨ ∃ left, (left = 1 ∨ left = 2) ∧
        (u.core ck).dbgOld = (s.core ck).dbgOld ++ [{ sel := sel.toNat, old := (s.core ck).dbgReg sel.toNat, left := left }]) ∧
      u = { s with threads := u.threads, cores := u.cores, tick := s.tick + 1 }) ∧
  (∀ e rest, s.frag c g = e :: rest → sel = 0x28 ∨ sel = 0x29 →
    let base := if sel = 0x28 then (val e).setWidth 32 else (s.core ck).dqbase
    let limit := if sel = 0x29 then (val e).setWidth 32 else (s.core ck).dqlimit
    ((s.core ck).deque = [] → s.dqRegion ck base.toNat limit.toNat = true →
      ∃ u, exec (.swr b w sel g) s = .next u ∧ ThreadsDo s s c g (fun _ t => t.goto c.nextPc) u ∧ OthersKeep s c u ∧
        (∀ j, u.core j = if j = ck then { s.core j with perf := (u.core j).perf, dqbase := base, dqlimit := limit } else s.core j) ∧
        u = { s with threads := u.threads, cores := u.cores }) ∧
    ((s.core ck).deque ≠ [] → exec (.swr b w sel g) s = .next (s.illegal c))) ∧
  (sel ∈ [0x0B, 0x0C, 0x0D, 0x0E, 0x0F, 0x10, 0x11, 0x12] → s.inHandler c = false → exec (.swr b w sel g) s = .next (s.illegal c)) ∧
  (0x18 ≤ sel.toNat → sel.toNat ≤ 0x1E → s.inHandler c = false → (s.launchOf (s.wg c.wg)).debug = false →
    exec (.swr b w sel g) s = .next (s.illegal c))

/-- 18_queues R297, 10_trap_state R191: posting an event record to a placed queue with room writes its 32 bytes at slot TAIL, advances TAIL, and
leaves every other byte of memory. -/
def Obligations.EventRecordsPost : Prop := ∀ (s : State) (p : Nat) (e : Event) (base n l lt : Nat),
  let f := s.fn (fnKey p e.fn)
  s.MemOk → e.ty ≠ 2 → f.eqctl.getLsbD 63 = true → base = f.eqbase.toNat → n = 2 ^ (f.eqctl.toNat % 32 + 6) →
  let tail := s.devRead p (base + 32 * n) 8
  (tail + 2 ^ 64 - s.devRead p (base + 32 * n + 8) 8) % 2 ^ 64 < n →
  s.devLoc p (base + 32 * (tail % n)) = some l → s.devLoc p (base + 32 * n) = some lt → l % 8 = 0 → lt % 8 = 0 → l + 32 ≤ lt →
  let u := s.post p e
  readBytes u.mem l 32 = natLe 2 e.ty ++ natLe 2 0 ++ natLe 4 e.launchid.toNat ++ natLe 4 e.wgid.toNat ++ natLe 2 e.core ++
    natLe 2 e.tid ++ natLe 8 e.pc.toNat ++ natLe 8 e.value.toNat ∧
  readBytes u.mem lt 8 = natLe 8 (tail + 1) ∧
  (∀ a, a < l ∨ l + 32 ≤ a ∧ a < lt ∨ lt + 8 ≤ a → readByte u.mem a = readByte s.mem a) ∧
  (u.fn (fnKey p e.fn)).msix = true ∧ u.threads = s.threads

/-- 10_trap_state R191, 15_counters R268: EVENT posts one record of TYPE 1 for the lowest guard-active thread, EVENT.MBX sends one of KIND 3
to the mailbox, both with the operand as value; a re-execution posts nothing. The bytes that 17_prog_debug R279 names for a fragment are the
model's free values (log entry 2).

10_trap_state R182, R192: HALT of a launch with debug rights: the fragment stands at the next word and every live thread of the workgroup
halts; no register of theirs changes but the trap-handler program counter of a thread outside its handler, which a halted thread holds as
its own. What a thread still owes by its last word, a WATCH or a cancellation, comes first (R182). Where the function's response ring is not
placed, nothing else does. Without debug rights it is ILLEGAL. ICFLUSH holds each guard-active thread behind the word. -/
def Obligations.SignalsAndHalts : Prop :=
  (∀ (s : State) (c : Site) (b : Opnd) (w : W2) (g : Guard) (e : Env) (rest : Frag),
    s.frag c g = e :: rest →
    let x := s.wg c.wg
    let v : W64 := BitVec.ofNat 64 (readOp (w2 w) e b)
    let r : Event :=
      { fn := (s.ctx x.ctx).fn, ty := 1, launchid := x.launchid, wgid := x.wgid, core := x.core, tid := e.tid, pc := c.pc, value := v }
    (s.Issues c (.event b w g) → ∃ u, exec (.event b w g) s = .next u ∧
      Leaves s (if s.redoing c.wg then s else s.post x.pkg r) c g (fun _ t => t.goto c.nextPc) u) ∧
    (s.Issues c (.eventMbx b w g) → (s.launchOf x).debug = true → s.redoing c.wg = false →
      ∃ u lanes sib, exec (.eventMbx b w g) s = .next u ∧ lanes.length = 16 ∧ sib.length = 16 ∧
        Leaves s (({ s with tick := s.tick + 32 }).mbPost c.pkg (s.ctx x.ctx).fn
          (natLe 2 3 ++ natLe 4 0 ++ natLe 2 e.tid ++ natLe 4 x.launchid.toNat ++ natLe 4 x.wgid.toNat ++ natLe 2 c.core ++ natLe 2 0 ++
            natLe 4 (s.thr (thrKey c.wg e.tid)).parentId.toNat ++ natLe 8 v.toNat ++ lanes ++ sib)) c g (fun _ t => t.goto c.nextPc) u) ∧
    (s.Issues c (.eventMbx b w g) → (s.launchOf x).debug = false → exec (.eventMbx b w g) s = .next (s.illegal c))) ∧
  (∀ (s : State) (c : Site) (g : Guard),
    (s.Issues c (.halt g) → (s.launchOf (s.wg c.wg)).debug = true → s.frag c g ≠ [] →
      (∀ j ∈ c.tids, j ∈ s.liveTids c.wg ∧ (s.thr (thrKey c.wg j)).halted = false) →
      (∀ j ∈ s.liveTids c.wg, (s.thr (thrKey c.wg j)).watch = none ∧ s.dominated c.wg (s.thr (thrKey c.wg j)) = false) →
      ∃ u, exec (.halt g) s = .next u ∧
        (∀ j ∈ c.tids,
          let t := s.thr (thrKey c.wg j)
          u.thr (thrKey c.wg j) = { (t.goto c.nextPc) with
            halted := true, relPc := none, trap := if t.handler then t.trap else { t.trap with pc := c.nextPc } }) ∧
        (∀ j ∈ s.liveTids c.wg, j ∉ c.tids → (s.thr (thrKey c.wg j)).halted = false →
          u.thr (thrKey c.wg j) = { s.thr (thrKey c.wg j) with halted := true, relPc := none }) ∧
        (∀ k, (∀ j ∈ s.liveTids c.wg, k ≠ thrKey c.wg j) → u.thr k = s.thr k) ∧
        (∀ k, u.wg k = if k = c.wg then { s.wg k with inelig := true } else s.wg k) ∧
        ((s.fn (fnKey (s.wg c.wg).pkg (s.ctx (s.wg c.wg).ctx).fn)).mbctl.getLsbD 63 = false →
          CoresKeep s c u ∧ u = { s with threads := u.threads, cores := u.cores, wgs := u.wgs })) ∧
    (s.Issues c (.halt g) → (s.launchOf (s.wg c.wg)).debug = false → exec (.halt g) s = .next (s.illegal c)) ∧
    (∀ sc, s.Issues c (.icflush sc g) → ∃ u, exec (.icflush sc g) s = .next u ∧
      OnlyThreads s c g (fun _ t => { (t.goto c.nextPc) with hold := Hold.icflush sc }) u))

/-- 21_tables R323, 11_memories R204: TLBINV, once the release of its scope is complete, removes the translations of the launch's function (of one
page, or all) from every TLB of the dies in its scope; the threads wait for the accesses that a removed entry translated. -/
def Obligations.TranslationsInvalidate : Prop := ∀ (s : State) (c : Site) (sc : TiScope) (g : Guard) (i : Instr) (va : Option Nat) (e : Env)
    (rest : Frag),
  s.frag c g = e :: rest →
  ((∃ a, i = .tlbinvPage a sc g ∧ va = some (readBase e a).toNat) ∨ (i = .tlbinvVf sc g ∧ va = none)) → s.Issues c i →
  let dies := match sc with | .die => [c.core / 160] | .pkg => [0, 1, 2, 3]
  s.relDone (thrKey c.wg e.tid) (match sc with | .die => .die | .pkg => .pkg) = true →
  let fk := s.fnOf (s.wg c.wg)
  let goes := fun t : TlbEnt => t.fn == fk && va.all fun v => v / 2 ^ t.lg == t.va / 2 ^ t.lg
  let ids := s.tlbOwed c.pkg fk dies (s.tlbGone c.pkg fk dies va)
  ∃ u, exec i s = .next u ∧
    ThreadsDo s s c g (fun _ t => if ids = [] then t.goto c.nextPc else { (t.goto c.nextPc) with hold := .tlbinv ids }) u ∧
    OthersKeep s c u ∧
    (∀ d, u.die d = if ∃ n ∈ dies, d = dieKey c.pkg n then { s.die d with tlb := (s.die d).tlb.filter fun t => !goes t } else s.die d) ∧
    (∀ k, u.core k = { s.core k with
      perf := if k = coreKey c.pkg c.core then (u.core k).perf else (s.core k).perf,
      utlb := if k / 640 = c.pkg ∧ k % 640 / 160 ∈ dies then (s.core k).utlb.filter fun t => !goes t else (s.core k).utlb }) ∧
    u = { s with threads := u.threads, cores := u.cores, dies := u.dies }

/-- 22_links R343, R344: LPARK and LWAKE in a function with link privilege. A bad spec gives status 2 and changes nothing. LPARK leaves a standing
fibre at least four active wavelengths, else it gives status 1; it moves the mask's wavelengths from active to parked in a new
epoch. LWAKE of wavelengths none of which is parked or failed gives 0; else the threads wait for the light. -/
def Obligations.LightParksAndWakes : Prop := ∀ (s : State) (c : Site) (d b : XReg) (g : Guard) (e : Env) (rest : Frag),
  s.frag c g = e :: rest → (s.fn (s.fnOf (s.wg c.wg))).priv.getLsbD 1 = true → (s.launchOf (s.wg c.wg)).replayable = false →
  let v := (e.xr b.toNat).toNat
  let f := v % 64
  let m := BitVec.ofNat 16 (v / 2 ^ 16)
  let k := fibreKey c.pkg f
  let bad := 47 < f ∨ v / 64 % 1024 ≠ 0 ∨ m = 0
  (∀ i, i = .lpark d b g ∨ i = .lwake d b g → s.Issues c i → bad →
    ∃ u, exec i s = .next u ∧ OnlyThreads s c g (fun _ t => (t.wxs (put32 d 2)).goto c.nextPc) u) ∧
  (s.Issues c (.lpark d b g) → ¬bad → f < 16 → popMask ((s.fibre k).active &&& ~~~m) < 4 →
    ∃ u, exec (.lpark d b g) s = .next u ∧ OnlyThreads s c g (fun _ t => (t.wxs (put32 d 1)).goto c.nextPc) u) ∧
  (s.Issues c (.lpark d b g) → ¬bad → (f < 16 → 4 ≤ popMask ((s.fibre k).active &&& ~~~m)) → (s.fibre k).active &&& ~~~m ≠ 0 →
    (s.fibre k).buf = [] ∨ (s.fibre k).stalls < 8 →
    ∃ u, exec (.lpark d b g) s = .next u ∧ ThreadsDo s s c g (fun _ t => (t.wxs (put32 d 0)).goto c.nextPc) u ∧ OthersKeep s c u ∧
      CoresKeep s c u ∧ (u.fibre k).active = (s.fibre k).active &&& ~~~m ∧ (u.fibre k).parked = (s.fibre k).parked ||| m ∧
      (u.fibre k).epoch = (s.fibre k).epoch + 1 ∧ (u.fibre k).failed = (s.fibre k).failed ∧ (u.fibre k).down = (s.fibre k).down ∧
      (∀ j, j ≠ k → u.fibre j = s.fibre j) ∧ u = { s with threads := u.threads, cores := u.cores, fibres := u.fibres }) ∧
  (s.Issues c (.lwake d b g) → ¬bad → m &&& ((s.fibre k).parked ||| (s.fibre k).failed) = 0 →
    ∃ u, exec (.lwake d b g) s = .next u ∧ OnlyThreads s c g (fun _ t => (t.wxs (put32 d 0)).goto c.nextPc) u) ∧
  (s.Issues c (.lwake d b g) → ¬bad → m &&& ((s.fibre k).parked ||| (s.fibre k).failed) ≠ 0 → (s.fibre k).wake = none →
    ∃ u, exec (.lwake d b g) s = .next u ∧ ThreadsDo s s c g (fun _ t => { (t.goto c.nextPc) with hold := .link d.toNat }) u ∧
      OthersKeep s c u ∧ CoresKeep s c u ∧
      (∀ j, u.fibre j = if j = k then { s.fibre j with
          wake := some (m &&& ((s.fibre k).parked ||| (s.fibre k).failed), (s.frag c g).map fun e => thrKey c.wg e.tid, d.toNat) }
        else s.fibre j) ∧
      u = { s with threads := u.threads, cores := u.cores, fibres := u.fibres })

/-- 22_links R339, R345: SLOTSET, its records read. Status 1 while a table is staged, 2 for a count outside 1 to 64 or a broken entry, 3 for a
START less than 1,000 ns ahead, else 0: only then is the table staged. Every guard-active thread receives the status. -/
def Obligations.SlotTableStages : Prop := ∀ (s s1 s2 : State) (c : Site) (d : XReg) (m : MAddr) (e : Env) (rest : Frag)
    (hdr ents : List Byte),
  s.Issues c (.slotset d m) → s.frag c m.g = e :: rest →
  (s.fn (s.fnOf (s.wg c.wg))).priv.getLsbD 1 = true → (s.launchOf (s.wg c.wg)).replayable = false →
  let a := BitVec.ofInt 64 ((readBase e m.a).toNat + 64 * m.off.toInt)
  let n := fld hdr 0 2
  let start := fld hdr 8 8
  s.readRec c e.tid a 64 = .bytes hdr s1 → s1.readRecs c e.tid (a + 64) (if 64 < n then 0 else n) = .bytes ents s2 →
  let p := s2.pkg c.pkg
  let good := 1 ≤ n ∧ n ≤ 64 ∧ zeros hdr 2 6 = true ∧ zeros hdr 16 48 = true
  let st := if p.staged.isSome then 1 else if ¬good then 2
    else match slotsOf c.pkg p.cfg.podSize ents n with
      | none => 2
      | some _ => if start < p.podt.toNat + 1000 then 3 else 0
  ∃ u, exec (.slotset d m) s = .next u ∧ ThreadsDo s s2 c m.g (fun _ t => (t.wxs (put32 d st)).goto c.nextPc) u ∧ OthersKeep s2 c u ∧
    CoresKeep s2 c u ∧
    (∀ j, u.pkg j = if j = c.pkg ∧ st = 0 then
        { s2.pkg j with staged := (slotsOf c.pkg p.cfg.podSize ents n).map fun l => ⟨start, l⟩ }
      else s2.pkg j) ∧
    u = { s2 with threads := u.threads, cores := u.cores, pkgs := u.pkgs }


/-! ### Events of memory -/

/-- 12_ordering R210 to R213, R218, 13_memory_instr R229 to R234: a store, an atomic or a tag operation whose turn in program order has come is
performed at its home: exactly its bytes change there, an atomic takes the old value as its answer, a tag operation changes its
tag. A load whose turn has come reads its die's view; a value that the die covers reaches its register. A notice whose turn it is
is installed in its die. -/
def Obligations.AccessesPerform : Prop := ∀ (s : State) (id : Nat) (a : Access),
  s.MemOk → s.acc? id = some a → a.unbacked = false →
  (a.kind = .store → a.performed = false → s.mayStore a = true → a.loc % 8 + a.size ≤ 8 →
    ∃ u, exec (.storeAtHome id) s = .next u ∧ readBytes u.mem a.loc a.size = natLe a.size a.data.toNat ∧
      (∀ x, x < a.loc ∨ a.loc + a.size ≤ x → readByte u.mem x = readByte s.mem x) ∧ u.threads = s.threads ∧ u.wgs = s.wgs) ∧
  (a.kind = .tagFill ∨ a.kind = .tagEmpty → a.performed = false → s.mayStore a = true → s.waiter (a.loc / 8) .ldfe = none →
    s.waiter (a.loc / 8) .stfe = none →
    ∃ u, exec (.storeAtHome id) s = .next u ∧ u.isFull (a.loc / 8) = (a.kind == .tagFill) ∧
      (∀ w, w ≠ a.loc / 8 → u.isFull w = s.isFull w) ∧ u.mem = s.mem ∧ u.threads = s.threads ∧ u.wgs = s.wgs) ∧
  (a.kind = .load → a.performed = false → a.done = false → a.peer = false → a.unc = false → s.mayLoad a = true →
    exec (.loadReturn id) s = .next { s with accs := s.accs.map fun b =>
      if b.id == id then { b with served := some (s.readSeen a.pkg a.core { loc := a.loc, repl := a.repl } a.size) } else b }) ∧
  (∀ v d t, a.served = some v → a.done = false → a.cancelled = false → a.ret = .x d t → a.dropLo = false → a.dropHi = false →
    s.covered a = true →
    ∃ u, exec (.loadReturn id) s = .next u ∧
      u.thr a.thr = { ((s.thr a.thr).wxs (put (BitVec.ofNat 7 d) t v.toNat)).raise a.flags with
        hold := (u.thr a.thr).hold, since := (u.thr a.thr).since } ∧
      (∀ k, k ≠ a.thr → u.thr k = s.thr k) ∧ u.mem = s.mem ∧ u.wgs = s.wgs) ∧
  (∀ op w sg, a.kind = .atom op w sg → a.served = none → a.done = false → s.mayStore a = true → a.loc % 8 + a.size ≤ 8 →
    let old := leNat (readBytes s.mem a.loc a.size)
    ∃ u b, exec (.atomReturn id) s = .next u ∧
      readBytes u.mem a.loc a.size = natLe a.size (atomNew op w sg (originPay a.pc a.lane) old a.data.toNat).1 ∧
      (∀ x, x < a.loc ∨ a.loc + a.size ≤ x → readByte u.mem x = readByte s.mem x) ∧ u.acc? id = some b ∧
      b.served = some (BitVec.ofNat 64 old) ∧ u.threads = s.threads ∧ u.wgs = s.wgs) ∧
  (a.peer = true → a.performed = true → a.kind.returns = false → (∀ n ∈ s.notices, n.acc ≠ id) →
    exec (.peerAck id) s = .next { s with accs := s.accs.filter fun b => b.id != id })

/-- 12_ordering R212, R213, R215, R218: a notice whose turn it is leaves, and the die's view takes a newer value; the host writes the bytes it names
and no others; a fence whose release step is complete takes its place. -/
def Obligations.OrderEventsStep : Prop := ∀ (s : State),
  (∀ id n, s.notices.find? (fun n => n.id == id) = some n → s.canInstall n = true →
    ∃ u, exec (.noticeInstall id) s = .next u ∧ (∀ m ∈ u.notices, m.id ≠ id) ∧
      (n.dupl = none → u.mem = s.mem ∧ (s.heldVer (dieKey n.pkg n.die) n.word < n.ver → n.ver ≠ tget 0 s.homeVer n.word →
        tfind u.views (viewKey (dieKey n.pkg n.die) n.word) = some n.value)) ∧
      u.threads = s.threads ∧ u.wgs = s.wgs) ∧
  (∀ p pa l bytes, s.MemOk → (∀ i < bytes.length, s.devLoc p (pa + i) = some (l + i)) →
    ∃ u, exec (.hostMemWrite p pa bytes) s = .next u ∧ readBytes u.mem l bytes.length = bytes ∧
      (∀ x, x < l ∨ l + bytes.length ≤ x → readByte u.mem x = readByte s.mem x) ∧ u.threads = s.threads ∧ u.wgs = s.wgs) ∧
  (∀ k sc, (s.thr k).hold = .scPre sc → s.relDone k sc = true →
    ∃ u, exec (.scFencePlace k) s = .next u ∧
      (∀ j, u.thr j = if j = k then { s.thr k with scPlaced := true, hold := .none, since := s.clockOf (s.wg (k / 2048)).pkg } else s.thr j) ∧
      u = { s with threads := u.threads }) ∧
  (∀ k sc, (s.thr k).hold = .icflush sc → s.flushOwes k sc = false →
    ∃ u, exec (.icflushCompletion k) s = .next u ∧
      (∀ j, u.thr j = if j = k then { s.thr k with hold := .none, since := s.clockOf (s.wg (k / 2048)).pkg } else s.thr j) ∧
      u = { s with threads := u.threads })

/-- 11_memories R199, R204 to R208, 13_memory_instr R238: an error response raises ACCESS in the thread that waits for it and is counted; a
walk leaves the translation in the TLBs; tag waits of a launch without threads or commands end without effect; a parked fetch or load looks
again after a flush; a fault record is discarded when stale, else written where there is room, and the record that takes the last room sets
the full flag; FBFLUSH raises GEN, clears the filters and lets every parked access look again. -/
def Obligations.FaultEventsAnswer : Prop := ∀ (s : State),
  (∀ id a, s.acc? id = some a → a.unbacked = true → (s.thr a.thr).live = true → (s.thr a.thr).hold = .peer id →
    (s.thr a.thr).handler = false →
    ∃ u sib, exec (.peerErrorResponse id) s = .next u ∧
      u.thr a.thr = { s.thr a.thr with hold := .none }.enter { cause := .access, detail := 3, pc := (s.thr a.thr).pc, addr := a.addr }
        (s.launchOf (s.wg (a.thr / 2048))).vec sib false ∧
      (∀ k, k ≠ a.thr → u.thr k = s.thr k) ∧ u.accs = (s.accs.filter fun b => b.id != id) ∧
      tget 0 (u.pkg a.pkg).errResp a.loc = tget 0 (s.pkg a.pkg).errResp a.loc + 1 ∧ u.mem = s.mem) ∧
  (∀ p c fn va e lg, (s.core (coreKey p c)).utlb.find? (fun t => t.hits (fnKey p fn) va) = none →
    (s.die (dieKey p (c / 160))).tlb.find? (fun t => t.hits (fnKey p fn) va) = none → s.walk p fn va = .leaf e lg →
    ∃ u, exec (.tlbWalk p c fn va) s = .next u ∧ u.translate p c fn va = (.leaf e lg, u) ∧ u.mem = s.mem ∧ u.threads = s.threads) ∧
  (∀ p n, n < 256 → (tfind s.ctxs (ctxKey p n)).isSome → s.launchIdle (ctxKey p n) = true → s.hasPlace (ctxKey p n) = false →
    s.hasRecords p (s.ctx (ctxKey p n)).launchid = false → (∀ c ∈ s.cmds, c.ctx ≠ ctxKey p n) →
    ∃ u, exec (.tagWaitAbandon p n) s = .next u ∧ (∀ a ∈ s.tagWaits p (s.ctx (ctxKey p n)).launchid, a ∉ u.accs) ∧
      (∀ a ∈ u.accs, a ∈ s.accs) ∧ u.empties = s.empties) ∧
  (∀ k q, (s.thr k).park = some q → s.mayReplay k = true → q.frag = [] →
    ∃ u, exec (.accessReplay k) s = .next u ∧
      (∀ j, u.thr j = if j = k then { s.thr k with park := none, since := s.clockOf (s.wg (k / 2048)).pkg } else s.thr j) ∧
      u = { s with threads := u.threads }) ∧
  (∀ k q e d m t pl,
    let w := s.wg (k / 2048)
    let c : Site := { pkg := w.pkg, core := w.core, wg := k / 2048, tids := [k % 2048], pc := (s.thr k).pc, word := q.word }
    let s1 := s.modThr k fun t => { t with park := none }
    (s.thr k).park = some q → s.mayReplay k = true → q.frag = [e] → e.tid = k % 2048 →
    decode q.word = .ok (.ld (.x d) m t ⟨.rlx, .lane⟩) → (s.thr k).claimed = [] →
    s1.MayAccess c [e] ⟨.rlx, .lane⟩ (fun e => [{ kind := .load, addr := mAddr e m t.w.bytes, size := t.w.bytes, ret := .x d.toNat t }]) pl →
    (∀ x, isScratch (pl e x).loc = false) →
    ∃ u a, exec (.accessReplay k) s = .next u ∧ u.accs = s.accs ++ [a] ∧ a.addr = mAddr e m t.w.bytes ∧ a.kind = .load ∧
      a.thr = k ∧ a.ret = .x d.toNat t ∧ (u.thr k).park = none ∧ (u.thr k).pc = (s.thr k).pc + 8 ∧ (u.thr k).x = (s.thr k).x ∧
      (u.thr k).shc = (s.thr k).shc ∧ (∀ j, j ≠ k → u.thr j = s.thr j) ∧ u.mem = s.mem) ∧
  (∀ p d r rest, (s.die (dieKey p d)).faults = r :: rest → r.gen ≠ (s.pkg p).gen →
    ∃ u, exec (.faultRecordPost p d) s = .next u ∧
      (∀ j, u.die j = if j = dieKey p d then { s.die j with faults := rest } else s.die j) ∧ u = { s with dies := u.dies }) ∧
  (∀ p d r rest l, (s.die (dieKey p d)).faults = r :: rest → r.gen = (s.pkg p).gen →
    let g := s.pkg p
    let n := 2 ^ (g.fbsize.toNat - 5)
    s.MemOk → g.fbsize ≠ 0 → (g.fbtail - g.fbhead).toNat + 1 < n → s.devLoc p (g.fbbase.toNat + 32 * (g.fbtail.toNat % n)) = some l → l % 8 = 0 →
    ∃ u, exec (.faultRecordPost p d) s = .next u ∧ (u.die (dieKey p d)).faults = rest ∧ (u.pkg p).fbtail = g.fbtail + 1 ∧ (u.pkg p).fbfull = false ∧
      readBytes u.mem l 32 = natLe 4 r.gen.toNat ++ natLe 4 r.launchid.toNat ++ natLe 8 r.va ++ natLe 2 r.core ++
        natLe 1 r.kind.code ++ natLe 1 (s.parkedOn p d r) ++ natLe 2 r.fn ++ natLe 10 0 ∧
      (∀ x, x < l ∨ l + 32 ≤ x → readByte u.mem x = readByte s.mem x) ∧ u.threads = s.threads) ∧
  (∀ p d r rest, (s.die (dieKey p d)).faults = r :: rest → r.gen = (s.pkg p).gen → (s.pkg p).fbsize ≠ 0 →
    ((s.pkg p).fbtail - (s.pkg p).fbhead).toNat + 1 = 2 ^ ((s.pkg p).fbsize.toNat - 5) →
    ∃ u, exec (.faultRecordPost p d) s = .next u ∧ (u.die (dieKey p d)).faults = rest ∧ (u.pkg p).fbtail = (s.pkg p).fbtail + 1 ∧
      (u.pkg p).fbfull = true) ∧
  (∀ p, s.hostOpen p 0 = true →
    ∃ u, exec (.fbflush p) s = .next u ∧ (u.pkg p).gen = (s.pkg p).gen + 1 ∧ (∀ d < 4, (u.die (dieKey p d)).filter = []) ∧
      (∀ k, (s.wg (k / 2048)).pkg = p → u.thr k = { s.thr k with park := (s.thr k).park.map fun q => { q with rewalk := true } }) ∧
      (∀ k, (s.wg (k / 2048)).pkg ≠ p → u.thr k = s.thr k) ∧ u.mem = s.mem ∧ u.accs = s.accs)


/-! ### Events of threads -/

/-- 15_counters R264, R272, R273, 09_control R172, 19_queue_instr R311: a wait ends when what it waits for has come: the token's phase has
completed, the core's copy holds a better key, the pointer has passed the bound, no command bears the ticket, or the ring whose TAIL has
changed has a message, which the registers take. The thread stands at the next word; nothing else of it changes. The threads of its fragment
whose wait is over too go with it: that they wake at one time is the model's reading (log entry 69). -/
def Obligations.WaitsEnd : Prop := ∀ (s : State) (k : Nat), s.wakes k = true → k % 2048 ∈ s.liveTids (k / 2048) →
  let w := s.wg (k / 2048)
  let now := s.clockOf w.pkg
  let t := s.thr k
  let on := { t with wait := .none, pc := t.pc + 8, since := now }
  (∀ sc n tok, t.wait = .barw sc n tok → passed (s.bar (k / 2048) sc n).phase tok = true →
    ∃ u, exec (.barrierWake k) s = .next u ∧ u.thr k = { on with hold := (u.thr k).hold } ∧
      (s.loadsBack k = false → (u.thr k).hold = .acq sc) ∧ (s.loadsBack k = true → (u.thr k).hold = .none) ∧
      (∀ j, u.thr j = s.thr j ∨ j ∈ (s.metMates k s.barMet).map (thrKey (k / 2048)) ∧
        u.thr j = { s.thr j with wait := .none, pc := (s.thr j).pc + 8, hold := (u.thr j).hold, since := (u.thr j).since }) ∧
      u = { s with threads := u.threads, views := u.views }) ∧
  (∀ n key v, t.wait = .incwait n key → tfind (bindIncs (s.core w.ckey).binds w.ctx) n = some v →
    better ((s.launchOf w).incMax n) v.key key = true →
    ∃ u, exec (.incwaitWake k) s = .next u ∧ MatesGo s k s.incMet u ∧ u = { s with threads := u.threads }) ∧
  (∀ c bound, t.wait = .ptr c bound → bound ≤ (s.core w.ckey).wptr.getD c 0 →
    ∃ u, exec (.waitptrWake k) s = .next u ∧ MatesGo s k s.ptrMet u ∧ u = { s with threads := u.threads }) ∧
  (∀ tk, t.wait = .ticket tk → (∀ c ∈ s.cmds, c.pkg = w.pkg → c.core = w.core → c.quiet = none → c.ticket ≠ tk) →
    ∃ u, exec (.waitptrWake k) s = .next u ∧ MatesGo s k s.ptrMet u ∧ u = { s with threads := u.threads }) ∧
  (∀ n d since off seen r, t.wait = .recv n d since off seen → seen ≠ some (s.tailAt w off) → (∀ p ∈ s.ringWaiters (k / 2048) n, since ≤ p.2) →
    s.ring w.ckey w.launchid w.wgid n = some r → t.claimed = [] →
    let ctl := locScratch w.pkg w.core (r.base + 64 * r.slots)
    let head := (readWord s.mem (ctl / 8 + 1)).toNat
    let count := ((readWord s.mem (ctl / 8)).toNat + 2 ^ 64 - head) % 2 ^ 64
    let slot := locScratch w.pkg w.core (r.base + 64 * (head % r.slots))
    s.MemOk → 0 < count → count ≤ r.slots → ctl % 16 = 0 → isScratch (ctl + 8) = true →
    ∃ u, exec (.recvTake k) s = .next u ∧
      u.thr k = on.wxs ((List.range 8).flatMap fun i => put64 (BitVec.ofNat 7 (d + 2 * i)) (readWord s.mem (slot / 8 + i)).toNat) ∧
      (∀ j, j ≠ k → u.thr j = s.thr j) ∧ readWord u.mem (ctl / 8 + 1) = BitVec.ofNat 64 (head + 1) ∧
      (∀ x, x < ctl + 8 ∨ ctl + 16 ≤ x → readByte u.mem x = readByte s.mem x))

/-- 09_control R165, R166, R175, R177, 15_counters R262, 18_queues R298, 09_control R167: when every participant of a barrier has arrived
they go on at the next word in new groups, out of the barrier, once their loads are back (12_ordering R217); a phase that has all its
arrivals ends, PHASE one higher and no arrival left; a dominated thread that waits is cancelled; a thread ages after 2,048 I-cycles and a
YIELD expires after 64. -/
def Obligations.ThreadEventsStep : Prop := ∀ (s : State),
  (∀ wk n, n < 16 →
    let ps := (s.liveTids wk).filter fun i => (s.thr (thrKey wk i)).join.getLsbD n
    ps ≠ [] → (∀ i ∈ ps, (s.thr (thrKey wk i)).arrive.getLsbD n = true ∧ (s.thr (thrKey wk i)).wait = .rwait n) →
    (∀ i ∈ ps, s.wakes (thrKey wk i) = true) →
    ∃ u, exec (.rbRelease wk n) s = .next u ∧
      (∀ p ∈ ps.zipIdx, let t := s.thr (thrKey wk p.1)
        u.thr (thrKey wk p.1) = { t with
          wait := .none, pc := t.pc + 8, since := s.clockOf (s.wg wk).pkg, join := t.join &&& ~~~(1#16 <<< n),
          arrive := t.arrive &&& ~~~(1#16 <<< n), lane := p.2 % Config.gwidth, seq := (s.wg wk).seq + 1,
          lead := ps.getD (p.2 - p.2 % Config.gwidth) 0,
          hold := if s.loadsBack (thrKey wk p.1) then .none else .acq .core }) ∧
      (∀ k, (∀ i ∈ ps, k ≠ thrKey wk i) → u.thr k = s.thr k) ∧
      (∀ k, u.wg k = if k = wk then { s.wg k with seq := (s.wg k).seq + 1 } else s.wg k) ∧
      u = { s with threads := u.threads, wgs := u.wgs }) ∧
  (∀ wk n, n < 16 → s.awaited wk .core n = 0 → (s.bar wk .core n).arr ≠ [] →
    ∃ u, exec (.phaseComplete .core wk n) s = .next u ∧ (u.bar wk .core n).phase = (s.bar wk .core n).phase + 1 ∧
      (u.bar wk .core n).arr = [] ∧ (∀ m, m ≠ n → u.bar wk .core m = s.bar wk .core m) ∧ u = { s with wgs := u.wgs }) ∧
  (∀ sc owner wk n, n < 16 → sc ∈ [.quad, .die, .pkg] → s.viewer sc owner = some wk → s.awaited wk sc n = 0 →
    s.someArrival wk sc n = true →
    ∃ u, exec (.phaseComplete sc owner n) s = .next u ∧ (u.bar wk sc n).phase = (s.bar wk sc n).phase + 1 ∧
      (u.bar wk sc n).arr = [] ∧ (∀ v ∈ (s.expected wk sc).1, tsorted (s.wg v).wide = true →
        tfind (u.wg v).wide (wideKey sc n) = none) ∧ u.threads = s.threads ∧ u.mem = s.mem) ∧
  (∀ k, s.mayCancel (k / 2048) (k % 2048) = true → s.strikable (k / 2048) (k % 2048) = true →
    ∃ u, exec (.dominanceCancel k) s = .next u ∧ (u.thr k).life = .cancelled ∧ (u.thr k).x = [] ∧ (u.thr k).trap = (s.thr k).trap ∧
      (∀ j, j ≠ k → u.thr j = s.thr j) ∧ (u.wg (k / 2048)).cxl = true ∧ u.mem = s.mem ∧
      (∀ a ∈ u.accs, a.thr = k → a.cancelled = true ∧ a.unserved = false)) ∧
  (∀ k, s.ready (k / 2048) (k % 2048) = true → (s.thr k).stood = true → (s.thr k).since + 2048 ≤ s.clockOf (s.wg (k / 2048)).pkg →
    ∃ u, exec (.threadAged k) s = .next u ∧ (∀ j, u.thr j = if j = k then { s.thr k with aged := true } else s.thr j) ∧
      u = { s with threads := u.threads }) ∧
  (∀ k, (s.thr k).yielded = true → (s.thr k).yieldAt + 64 ≤ s.clockOf (s.wg (k / 2048)).pkg →
    ∃ u, exec (.yieldExpiry k) s = .next u ∧ (∀ j, u.thr j = if j = k then { s.thr k with yielded := false } else s.thr j) ∧
      u = { s with threads := u.threads })

/-- 09_control R168 to R170, 07_lanes R135: an offer whose turn it is (of the offers of one cycle the one whose order comes first) reaches
its home, which takes a strictly better key, and only that; an accepted value reaches a copy, which takes it when empty or strictly worse; a
forwarding message whose turn it is stands last in its channel. -/
def Obligations.MessagesArrive : Prop := ∀ (s : State) (id : Nat),
  (∀ o, s.offers.find? (fun p => p.id == id) = some o → (∀ p ∈ s.offers, p.thr = o.thr → o.id ≤ p.id) → (tfind s.ctxs o.ctx).isSome →
    s.offerLate o = false →
    (s.ctx o.ctx).launch.incPod o.n = false →
    ∃ u, exec (.offerArrival id) s = .next u ∧ u.offers = (s.offers.filter fun p => p.id != id) ∧
      tfind (u.homeIncs o.ctx o.n) o.n = (match tfind (s.homeIncs o.ctx o.n) o.n with
        | none => some o.inc
        | some h => if better ((s.ctx o.ctx).launch.incMax o.n) o.inc.key h.key then some o.inc else some h) ∧
      (∀ m, m ≠ o.n → tfind (u.homeIncs o.ctx m) m = tfind (s.homeIncs o.ctx m) m) ∧ u.threads = s.threads ∧ u.mem = s.mem) ∧
  (∀ m, s.sillage.find? (fun x => x.id == id) = some m →
    let upd := fun (b : Bind) => if b.ctx = m.ctx then
        { b with incs := match tfind b.incs m.n with
          | none => tset b.incs m.n m.inc
          | some h => if better ((s.ctx m.ctx).launch.incMax m.n) m.inc.key h.key then tset b.incs m.n m.inc else b.incs,
                 young := b.young ++ [{ n := m.n, old := tfind b.incs m.n, left := 2 }] }
      else b
    ∃ u, exec (.sillageDelivery id) s = .next u ∧ u.sillage = (s.sillage.filter fun x => x.id != id) ∧
      (∀ k, u.core k = if m.unit = false ∧ k = m.key then { s.core k with binds := (s.core k).binds.map upd } else s.core k) ∧
      (∀ k, u.unit k = if m.unit = true ∧ k = m.key then { s.unit k with binds := (s.unit k).binds.map upd } else s.unit k) ∧
      u = { s with sillage := u.sillage, cores := u.cores, units := u.units }) ∧
  (∀ m, s.fwds.find? (fun x => x.id == id) = some m → (∀ n ∈ s.fwds, n.core = m.core → n.ch = m.ch → m.id ≤ n.id) →
    (s.core m.core).quar = false → m.ch < (s.core m.core).fwd.length →
    ∃ u, exec (.forwardArrival id) s = .next u ∧ u.fwds = (s.fwds.filter fun x => x.id != id) ∧
      (∀ k, u.core k = if k = m.core then { s.core k with fwd := (u.core k).fwd } else s.core k) ∧
      (∀ c, (u.core m.core).fwd.getD c [] = (s.core m.core).fwd.getD c [] ++ if c = m.ch then [m.msg] else []) ∧
      u = { s with fwds := u.fwds, cores := u.cores })


/-! ### Events of planes and of the loop sequencer -/

/-- 08_planes R146, R148, R151 to R155, 02_numbers R44, 21_tables R327: the head of a plane queue retires. The last step of a product adds
to every element of its accumulator the exact dot product of the row of A and the column of B, saturated at 48 bits with AOV, and counts the
corrected error of an accumulator it reads (04_registers R82); ACCZ zeroes the accumulators of its mask; PLANE writes each element of its
source, clamped to the tile's width, and SAT where one was; CBLOAD loads the 256 rows of the codebook. The bytes of a CBLOAD return as its
die sees them, and its thread goes on. -/
def Obligations.PlanesRetire : Prop := ∀ (s : State) (p core : Nat),
  let ck := coreKey p core
  (∀ o rest, s.Retiring p core o rest →
    let lead := o.thr / 2048
    let av := fun r k => planeElem s.mem (s.tileAt o.wg o.ta o.step) (tdW o.ta) r k
    let bv := fun c k => if o.kind = .mmac then (cbRow s.mem (s.core (s.wg lead).ckey).cb (s.tileAt lead o.tb o.step) c).getD k 0
      else planeElem s.mem (s.tileAt lead o.tb o.step) (tdW o.tb) c k
    let sum := fun r c => sat48 ((s.core ck).accAt o.acc r c + ((List.range 128).map fun k => av r k * bv c k).sum)
    (o.kind = .mma ∨ o.kind = .mmac) → o.step + 1 = tdSteps o.ta →
    ∃ u, exec (.planeOpRetire p core) s = .next u ∧ (∀ r < 128, ∀ c < 128, (u.core ck).accAt o.acc r c = (sum r c).1) ∧
      (∀ n r c, n ≠ o.acc → r < 128 → c < 128 → (u.core ck).accAt n r c = (s.core ck).accAt n r c) ∧
      ((∃ r < 128, ∃ c < 128, (sum r c).2 = true) → (u.core ck).aov = (s.core ck).aov ||| 1#8 <<< o.acc) ∧
      ((∀ r < 128, ∀ c < 128, (sum r c).2 = false) → (u.core ck).aov = (s.core ck).aov) ∧
      (∀ k, u.core k = if k = ck then
          { s.core k with
            pq := rest, acc := (u.core k).acc, aov := (u.core k).aov, perf := (u.core k).perf,
            oneAcc := (s.core k).oneAcc &&& ~~~(1#8 <<< o.acc),
            corrX := (s.core k).corrX + if (s.core k).oneAcc.getLsbD o.acc then 1 else 0 }
        else s.core k) ∧
      PlaneWakes s ck o u ∧ u = { s with threads := u.threads, cores := u.cores }) ∧
  (∀ o rest, s.Retiring p core o rest → o.kind = .accz →
    ∃ u, exec (.planeOpRetire p core) s = .next u ∧
      (∀ n r c, r < 128 → c < 128 → (u.core ck).accAt n r c = if o.mask.getLsbD n then 0 else (s.core ck).accAt n r c) ∧
      (∀ k, u.core k = if k = ck then
          { s.core k with
            pq := rest, acc := (u.core k).acc, aov := (s.core k).aov &&& ~~~o.mask, apoi := (s.core k).apoi &&& ~~~o.mask,
            oneAcc := (s.core k).oneAcc &&& ~~~o.mask, perf := (u.core k).perf }
        else s.core k) ∧
      PlaneWakes s ck o u ∧ u = { s with threads := u.threads, cores := u.cores, tick := s.tick + 1 }) ∧
  (∀ o rest, s.Retiring p core o rest → o.kind = .cbload → (∃ b, o.data = some b) →
    ∃ u, exec (.planeOpRetire p core) s = .next u ∧
      (∀ r < 256, tget 0 (u.core ck).cb r = BitVec.ofNat 16 (fld (o.data.getD []) (2 * r) 2)) ∧
      (∀ k, u.core k = if k = ck then { s.core k with pq := rest, cb := (u.core k).cb, perf := (u.core k).perf } else s.core k) ∧
      PlaneWakes s ck o u ∧ u = { s with threads := u.threads, cores := u.cores, tick := s.tick + 1 }) ∧
  (∀ o rest, s.Retiring p core o rest → o.kind = .plane →
    let w := tdW o.ta
    let l := s.tileAt o.wg o.ta o.idx
    let v := fun t k => match srcPos (tdRole o.ta) (tdRows o.tb) (tdCols o.tb) t k with
      | none => 0
      | some (r, c) => sint (fmtBits (tdFmt o.tb)) (rowMajor s.mem (s.tileAt o.wg o.tb 0) (tdFmt o.tb) r c)
    let top : Int := 2 ^ (w - 1)
    s.MemOk → 2 ≤ w → w ≤ 16 →
    ∃ u, exec (.planeOpRetire p core) s = .next u ∧
      (∀ t < 128, ∀ k < 128, planeElem u.mem l w t k = max (-top) (min (top - 1) (v t k))) ∧
      (∀ x, x < l ∨ l + 2048 * w ≤ x → readByte u.mem x = readByte s.mem x) ∧
      ((s.thr o.thr).live = true → (∃ t < 128, ∃ k < 128, v t k < -top ∨ top ≤ v t k) →
        (u.thr o.thr).flags = (s.thr o.thr).flags ||| fSAT) ∧
      ((∀ t < 128, ∀ k < 128, -top ≤ v t k ∧ v t k < top) → (u.thr o.thr).flags = (s.thr o.thr).flags) ∧
      PlaneWakes s ck o u ∧ (u.core ck).pq.map PlaneOp.id = rest.map PlaneOp.id ∧
      u = { s with threads := u.threads, cores := u.cores, mem := u.mem, poison := u.poison, tick := s.tick + 1 }) ∧
  (∀ id o, s.planeOp id = some (ck, o) → o.kind = .cbload → o.data = none → s.quiet o.thr = true →
    (∀ l ∈ o.locs, s.isPoisoned l.1 256 = false) →
    let b := o.locs.flatMap fun l => s.seenBytes (s.wg o.wg).pkg (s.wg o.wg).core l.1 l.2 256
    ∃ u, exec (.cbloadDataReturn id) s = .next u ∧
      (∀ k, u.thr k = if k = o.thr ∧ (s.thr k).hold = .cb id then
          { s.thr k with hold := .none, since := s.clockOf (s.wg (k / 2048)).pkg }
        else s.thr k) ∧
      (∀ k, u.core k = if k = ck then
          { s.core k with pq := (s.core k).pq.map fun x => if x.id == id then { x with data := some b } else x }
        else s.core k) ∧
      u = { s with threads := u.threads, cores := u.cores })

/-- 14_engines R255, R256, R258: the nest at the head of a core's loop sequencer. A checked nest begins with its permits; an iteration
starts with a permit, its copy step a TCOPY of the template with SRC and DST moved by the level offsets; its plane step takes an entry of
the plane queue once the copy step is over; its wake step writes its number into the wake word and fills it while that is empty; a permit
returns once the word has been emptied; at the end of its launch no iteration starts, and the nest stops with ABORTED and drops the wake
step that waits on a full word. -/
def Obligations.LoopsIterate : Prop := ∀ (s : State) (p core : Nat) (c : Cmd), s.activeLoop (coreKey p core) = some c →
  let upd := fun f : LoopSt → LoopSt => s.cmds.map fun x => if x.id == c.id then { x with loop := x.loop.map f } else x
  (c.finished = false → c.parked = none → s.classStopped c.gang .loop = false → s.launchIdle c.ctx = false → c.loop = none → s.loopOk c = true →
    c.hasCopy = false →
    exec (.loopIterationStart p core) s = .next { s with cmds := s.cmds.map fun x =>
      if x.id == c.id then { x with loop := some { permits := c.permits } } else x }) ∧
  (∀ l, c.finished = false → c.parked = none → s.classStopped c.gang .loop = false → s.launchIdle c.ctx = false → c.loop = some l →
    l.stopped = false →
    l.next < c.iterations → l.permits ≠ 0 → c.hasCopy = false →
    exec (.loopIterationStart p core) s = .next { s with cmds := upd fun m =>
      { m with
        next := l.next + 1, permits := m.permits - 1,
        its := m.its ++ [{ j := l.next, planeDone := !c.hasPlane, wakeDone := !c.hasWake, copyDone := true }] } }) ∧
  (∀ l, c.finished = false → c.parked = none → s.classStopped c.gang .loop = false → s.launchIdle c.ctx = false → c.loop = some l →
    l.stopped = false →
    l.next < c.iterations → l.permits ≠ 0 → c.hasCopy = true → l.template.length = 128 →
    ((s.core c.ckey).chans.getD c.chan []).length < 16 →
    ∃ u x, exec (.loopIterationStart p core) s = .next u ∧ x.id = s.nextId ∧ x.kind = .tcopy ∧ x.quiet = some c.id ∧ x.thr = c.thr ∧
      x.ckey = c.ckey ∧ x.chan = c.chan ∧ fld x.raw 16 8 = umod 64 (fld l.template 16 8 + c.offsetOf l.next 4 4) ∧
      fld x.raw 24 8 = umod 64 (fld l.template 24 8 + c.offsetOf l.next 8 4) ∧ x.raw.drop 32 = l.template.drop 32 ∧
      u.cmds = (upd fun m =>
        { m with
          next := l.next + 1, permits := m.permits - 1,
          its := m.its ++ [{ j := l.next, planeDone := !c.hasPlane, wakeDone := !c.hasWake, copyDone := false, copy := some s.nextId }] })
        ++ [x] ∧
      (∀ k, u.core k = if k = c.ckey then
          { s.core k with chans := (s.core k).chans.set c.chan ((s.core k).chans.getD c.chan [] ++ [s.nextId]) }
        else s.core k) ∧
      u = { s with cmds := u.cmds, cores := u.cores, nextId := s.nextId + 1 }) ∧
  (∀ l i o, c.loop = some l → l.its.find? (fun i => !i.planeDone && i.plane.isNone) = some i → i.copyDone = true →
    s.classStopped c.gang .plane = false → s.loopOp c i.j = some (.op o, false) → (s.core c.ckey).pq.length < 16 →
    let op := { o with id := s.nextId, thr := c.thr, wg := c.wg, cyc := s.clockOf c.pkg, pc := 0, role := 0, loop := some c.id }
    ∃ u before after, exec (.loopPlaneStep p core) s = .next u ∧ (s.core c.ckey).pq = before ++ after ∧
      (∀ x ∈ after, x.role = 2 ∧ x.cyc = op.cyc) ∧ (u.core c.ckey).pq = before ++ op :: after ∧
      (∀ k, u.core k = if k = c.ckey then { s.core k with pq := (u.core k).pq } else s.core k) ∧
      u.cmds = (upd fun m => m.modIt i.j fun x => { x with plane := some s.nextId }) ∧
      u = { s with cmds := u.cmds, cores := u.cores, nextId := s.nextId + 1 }) ∧
  (∀ l i q t, c.loop = some l → l.its.find? (fun i => !i.wakeDone) = some i → i.copyDone = true → i.planeDone = true →
    s.cmdStopped c = false → s.engFind c (c.wakeAddr i.j) 8 { w := true, tag := true } = (.ok q, t) → s.MemOk →
    isScratch q.loc = true → q.loc % 8 = 0 → s.isFull (q.loc / 8) = false →
    (∀ k ∈ l.its, k.wake = some (q.loc / 8) → k.emptied = true) → s.waiter (q.loc / 8) .ldfe = none →
    ∃ u, exec (.loopWakeFill p core) s = .next u ∧ readBytes u.mem q.loc 8 = natLe 8 i.j ∧
      (∀ x, x < q.loc ∨ q.loc + 8 ≤ x → readByte u.mem x = readByte s.mem x) ∧ u.isFull (q.loc / 8) = true ∧
      (∀ w, w ≠ q.loc / 8 → u.isFull w = s.isFull w) ∧
      u.cmds = (upd fun m => m.modIt i.j fun k => { k with wake := some (q.loc / 8), wakeDone := true }) ∧
      u.threads = s.threads ∧ u.wgs = s.wgs ∧ u.accs = s.accs) ∧
  (∀ l i, c.loop = some l →
    l.its.find? (fun i => i.copyDone && i.planeDone && i.wakeDone && (i.wake.isNone || i.emptied)) = some i →
    exec (.loopPermitReturn p core) s = .next { s with cmds := upd fun m =>
      { m with permits := m.permits + 1, its := m.its.filter fun k => k.j != i.j } }) ∧
  (∀ l, s.launchIdle c.ctx = true → c.done = false → c.loop = some l →
    ∃ u, exec (.loopnestAbort p core) s = .next u ∧
      u.cmds = (s.cmds.map fun x => if x.id == c.id then
        { x with
          code := if x.code = 0 then 6 else x.code,
          loop := x.loop.map fun m =>
            { m with
              stopped := true,
              its := m.its.map fun i => if s.fillWaits c l i then { i with wakeDone := true, emptied := true } else i } }
        else x) ∧
      u = { s with cmds := u.cmds })

/-! ### Events of engines, messages and the Headspace -/

/-- 14_engines R241 to R245, 19_queue_instr R306, R308, R309: the head of a copy channel delivers a piece: for a TCOPY of one row within
SCRATCH, at most 256 bytes, to the end of a destination word and no further than the word that ends a 4 KiB chunk, equal to the source; once
its bytes are visible the channel's pointer passes them. A finished command writes its STATUS word and then leaves its queue. A SEND puts
its next message on its way; a message that finds its ring with room is written, header and payload padded to 56 bytes, and TAIL advances; a
full ring refuses it, and a refused message is sent again, no sooner than 1 us later. -/
def Obligations.CopiesAndMessages : Prop := ∀ (s : State),
  (∀ p core ch id rest c, (s.core (coreKey p core)).chans.getD ch [] = id :: rest → s.cmd? id = some c → c.pos < c.sent →
    s.pendingIn c.id c.pkg c.die = false →
    let n := min 256 (c.sent - c.pos)
    ∃ u, exec (.copyChunkDeliver p core ch) s = .next u ∧
      u.cmds = (s.cmds.map fun x => if x.id == c.id then { x with pos := x.pos + n } else x) ∧
      (∀ k, u.core k = if k = c.ckey then
          { s.core k with
            perf := (u.core k).perf, wptr := (s.core k).wptr.set c.chan ((s.core k).wptr.getD c.chan 0 + BitVec.ofNat 64 n) }
        else s.core k) ∧
      u = { s with cmds := u.cmds, cores := u.cores }) ∧
  (∀ p core ch id rest c h so d, (s.core (coreKey p core)).chans.getD ch [] = id :: rest → s.cmd? id = some c → c.sent ≤ c.pos →
    c.finished = false → c.parked = none → s.cmdStopped c = false → c.kind = .tcopy → c.shape = some h → h.n = 1 → h.rop = 0 →
    h.rows = 1 → c.sent < h.rb → c.fills = false → c.acq = none → c.overlaps = false → (∀ a ∈ s.accs, a.thr ≠ c.thr) →
    (s.launchOf (s.wg c.wg)).replayable = false → s.redoing c.wg = false → s.MemOk →
    let w := s.wg c.wg
    let loc := fun o => locScratch w.pkg w.core (w.scrBase + o)
    h.src = BitVec.ofNat 64 (0xFFFF000000000000 + so) → h.dst = BitVec.ofNat 64 (0xFFFF000000000000 + d) →
    so + h.rb ≤ w.scrSize → d + h.rb ≤ w.scrSize → w.scrSize ≤ 2 ^ 18 → w.scrBase % 8 = 0 → (∀ x < h.rb, s.isPoisoned (loc so + x) 1 = false) →
    ∃ u n, exec (.copyChunkDeliver p core ch) s = .next u ∧ 0 < n ∧ n ≤ 256 ∧ c.sent + n ≤ h.rb ∧ c.sent % 4096 + n < 4096 + 8 ∧
      ((d + c.sent + n) % 8 = 0 ∨ c.sent + n = h.rb) ∧
      readBytes u.mem (loc d + c.sent) n = readBytes s.mem (loc so + c.sent) n ∧
      (∀ x, x < loc d + c.sent ∨ loc d + c.sent + n ≤ x → readByte u.mem x = readByte s.mem x) ∧
      u.cmds = (s.cmds.map fun x => if x.id == c.id then { x with sent := x.sent + n } else x) ∧ u.threads = s.threads ∧
      u.wgs = s.wgs ∧ u.accs = s.accs) ∧
  (∀ id c, s.cmd? id = some c → c.done = true → c.parked = none → s.cmdStopped c = false → (c.kind.copies = true → c.pos = c.sent) →
    s.engInstalled c = true → c.quiet = none →
    (c.written = true → (c.aborts = true → c.kind.copies = false) →
      ∃ u, exec (.commandComplete id) s = .next u ∧ u.cmds = (s.cmds.filter fun x => x.id != c.id) ∧
        (∀ k, u.core k = if k = c.ckey then
            { s.core k with
              chans := (s.core k).chans.map (fun q => q.filter fun x => x != c.id), loops := (s.core k).loops.filter fun x => x != c.id }
          else s.core k) ∧
        u = { s with cmds := u.cmds, cores := u.cores }) ∧
    (∀ q t, c.written = false → s.engFind c (c.recAddr + 8) 8 { w := true } = (.ok q, t) → q.loc % 8 = 0 → c.fills = false →
      s.redoing c.wg = false → s.MemOk →
      ∃ u, exec (.commandComplete id) s = .next u ∧ readBytes u.mem q.loc 8 = natLe 8 (statusWord c.code c.flags).toNat ∧
        (∀ x, x < q.loc ∨ q.loc + 8 ≤ x → readByte u.mem x = readByte s.mem x) ∧
        u.cmds = (s.cmds.map fun x => if x.id == c.id then { x with written := true } else x) ∧ u.threads = s.threads ∧ u.wgs = s.wgs)) ∧
  (∀ id c b t, s.cmd? id = some c → c.kind = .send → c.finished = false → c.parked = none → s.sendBehind c = false →
    s.sendHeld c = false → c.sendOk = true → c.sent < c.messages → c.destPkg = c.pkg →
    s.engBytes c (c.messageAt c.sent) (c.messageLen c.sent) = ((b, none), t) →
    let m : Msg :=
      { id := t.nextId, cmd := c.id, pkg := c.pkg, core := c.destCore, launchid := c.launchid, wgid := c.destWg, ring := c.sendRing,
        srcPkg := c.pkg, srcCore := c.core, seq := c.sent % 2 ^ 16, kind := 1, payload := b }
    exec (.messageAppend id) s = .next { t with
      msgs := t.msgs ++ [m]
      nextId := t.nextId + 1
      cmds := t.cmds.map fun x => if x.id == c.id then { x with sent := x.sent + 1 } else x }) ∧
  (∀ id m0 r, s.cmd? id = none → s.msgs.find? (fun m => m.id == id) = some m0 → m0.refused = none → s.msgHeld m0 = false →
    (∀ x ∈ s.msgs, x.id < m0.id → x.sameStream m0 = false) →
    let m := s.aimed m0
    s.msgRing m = some r →
    let ctl := locScratch m.pkg m.core (r.base + 64 * r.slots)
    let tail := (readWord s.mem (ctl / 8)).toNat
    let count := (tail + 2 ^ 64 - (readWord s.mem (ctl / 8 + 1)).toNat) % 2 ^ 64
    let slot := locScratch m.pkg m.core (r.base + 64 * (tail % r.slots))
    (count < r.slots → r.base % 8 = 0 → m.payload.length ≤ 56 → s.MemOk →
      ∃ u, exec (.messageAppend id) s = .next u ∧
        readBytes u.mem slot 64 = natLe 8 (m.seq % 2 ^ 16 * 2 ^ 48 + m.payload.length * 2 ^ 40 + m.kind * 2 ^ 32 + m.srcPkg * 2 ^ 16 +
          m.srcCore) ++ m.payload ++ List.replicate (56 - m.payload.length) 0 ∧
        readBytes u.mem ctl 8 = natLe 8 (tail + 1) ∧
        (∀ x, (x < slot ∨ slot + 64 ≤ x) → (x < ctl ∨ ctl + 8 ≤ x) → readByte u.mem x = readByte s.mem x) ∧
        u.msgs = (s.msgs.filter fun x => x.id != m.id) ∧ u.threads = s.threads ∧ u.wgs = s.wgs) ∧
    (r.slots ≤ count → exec (.messageAppend id) s = .next { s with
      msgs := s.msgs.map fun x => if x.id == m.id then { x with refused := some (s.clockOf m.srcPkg) } else x })) ∧
  (∀ id m t, s.msgs.find? (fun m => m.id == id) = some m → m.refused = some t → (s.msgs.map Msg.id).Nodup →
    (t + retryWait ≤ s.clockOf m.srcPkg → exec (.messageRetry id) s = .next { s with
      msgs := s.msgs.map fun x => if x.id == id then { x with refused := none } else x }) ∧
    (s.clockOf m.srcPkg < t + retryWait → exec (.messageRetry id) s = .next s))

/-- 14_engines R246, R250 to R252, 18_queues R299, 21_tables R325: a group of agreeing commands forms; it is granted its staging on every
die at once; a chunk that a rank has staged counts down the launch counter of the rank's tree node (of both sweeps for CAVRED), and the last
input queues a reduce block on the node's die; a block goes to the lowest core with a free reserved context that is not quarantined; its end
is an input of the node above; at the end of the tree the chunk is combined, and the results leave for the ranks that receive; a delivery
that its landing entry accepts is written to the rank's destination. -/
def Obligations.CollectivesCombine : Prop := ∀ (s : State),
  (∀ collid g, (∀ x ∈ s.colls, x.collid ≠ collid) → g ≠ [] → agree g = true → (∀ d ∈ diesOf g, needOn g d ≤ 2 ^ 22) →
    (let cs := s.cmds.filter (s.waitsGroup collid)
     cs.findSome? fun c => s.gatherGroup cs (c.table.getD [])) = some g →
    exec (.collectiveForm collid) s = .next { s with colls := s.colls ++ [{ collid := collid, ranks := g.map s.newRank }] }) ∧
  (∀ collid g, s.colls.find? (fun g => g.collid == collid && !g.granted) = some g →
    let cs := s.collCmds g
    (∀ d ∈ diesOf cs, (s.die d).used + needOn cs d ≤ 2 ^ 22) →
    (∀ d ∈ diesOf cs, ∀ x ∈ s.colls, x.collid < collid → x.granted = false → d ∉ diesOf (s.collCmds x)) →
    ∃ u, exec (.stagingGrant collid) s = .next u ∧
      u.colls = (s.colls.map fun x => if x.collid == collid then { x with granted := true } else x) ∧
      (∀ k, u.die k = if k ∈ diesOf cs then { s.die k with staging := tset (s.die k).staging collid (needOn cs k) } else s.die k) ∧
      u = { s with colls := u.colls, dies := u.dies }) ∧
  (∀ collid chunk rank g r c, s.colls.find? (fun g => g.collid == collid && g.granted) = some g → g.ranks[rank]? = some r →
    s.cmd? r.cmd = some c → c.parked = none →
    let h := s.collShape g
    h.rop ≠ 0 → h.exact = false → chunk = r.arrived → chunk < h.chunks → h.chunkEnd chunk ≤ r.data.length →
    (s.isCav g = false → ∀ l q, treeNext h.n 0 rank = some (l, q) →
      ∃ u, exec (.chunkArrival collid chunk rank) s = .next u ∧
        u.colls = (s.colls.map fun x => if x.collid == collid then
          { x with ranks := x.ranks.modify rank fun r => { r with arrived := r.arrived + 1 } } else x) ∧
        CountsDown s g chunk ⟨.tree, l, q⟩ u ∧ u = { s with colls := u.colls, dies := u.dies }) ∧
    (s.isCav g = true →
      ∃ u v, exec (.chunkArrival collid chunk rank) s = .next u ∧ CountsDown s g chunk ⟨.pre, 0, rank⟩ v ∧
        CountsDown { s with dies := v.dies } g chunk ⟨.post, 0, rank⟩ u ∧ u = { s with colls := u.colls, dies := u.dies })) ∧
  (∀ p d j rest i, (s.die (dieKey p d)).redq = j :: rest → i < 160 → (s.core (coreKey p (160 * d + i))).resv = none →
    (s.core (coreKey p (160 * d + i))).quar = false →
    (∀ m < i, (s.core (coreKey p (160 * d + m))).resv ≠ none ∨ (s.core (coreKey p (160 * d + m))).quar = true) →
    ∃ u, exec (.reduceBlockDispatch p d) s = .next u ∧
      (∀ k, u.die k = if k = dieKey p d then { s.die k with redq := rest } else s.die k) ∧
      (∀ k, u.core k = if k = coreKey p (160 * d + i) then
          { s.core k with resv := some { j with since := s.clockOf p, went := false } } else s.core k) ∧
      u = { s with dies := u.dies, cores := u.cores }) ∧
  (∀ p core j g l q, (s.core (coreKey p core)).resv = some j → s.colls.find? (fun g => g.collid == j.coll) = some g →
    j.chunk ∉ g.reduced → j.node.pass = .tree →
    let h := s.collShape g
    h.rop ≠ 0 → treeNext h.n (j.node.level + 1) j.node.rank = some (l, q) →
    ∃ u, exec (.reduceBlockEnd p core) s = .next u ∧
      (∀ k, u.core k = if k = coreKey p core then { s.core k with resv := none } else s.core k) ∧
      CountsDown s g j.chunk ⟨.tree, l, q⟩ u ∧ u = { s with cores := u.cores, dies := u.dies }) ∧
  (∀ p core j g q r, (s.core (coreKey p core)).resv = some j → s.colls.find? (fun g => g.collid == j.coll) = some g →
    j.chunk ∉ g.reduced → j.node.pass = .tree → (s.collShape g).rop ≠ 0 →
    treeNext (s.collShape g).n (j.node.level + 1) j.node.rank = none →
    let h := s.collShape g
    let cav := s.isCav g
    let outs := combine cav h.rop h.efmt (g.ranks.map fun r => r.chunkBytes h j.chunk)
    g.ranks[q]? = some r → h.receives q = true → r.delivered < h.chunks →
    ∃ u, exec (.reduceBlockEnd p core) s = .next u ∧
      (∀ k, u.core k = if k = coreKey p core then { s.core k with resv := none } else s.core k) ∧
      (u.deliveries.map fun d => (d.coll, d.rank, d.chunk, d.data)) = (s.deliveries.map fun d => (d.coll, d.rank, d.chunk, d.data)) ++
        ((List.range h.n).filter h.receives).map (fun q => (g.collid, q, j.chunk, (outs.getD q ([], 0)).1)) ∧
      (∃ x ∈ u.colls, x.collid = g.collid ∧ x.reduced = g.reduced ++ [j.chunk]) ∧
      u = { s with cores := u.cores, deliveries := u.deliveries, colls := u.colls, nextId := u.nextId }) ∧
  (∀ id d g r c o, s.deliveries.find? (fun d => d.id == id) = some d → s.colls.find? (fun g => g.collid == d.coll) = some g →
    g.ranks[d.rank]? = some r → s.cmd? r.cmd = some c → d.chunk = r.delivered → c.parked = none → c.fills = false →
    (s.launchOf (s.wg c.wg)).replayable = false → s.redoing c.wg = false → s.MemOk →
    let h := c.shapeRaw
    let w := s.wg c.wg
    let b := h.chunkEnd d.chunk - d.data.length
    let l := locScratch w.pkg w.core (w.scrBase + o + b)
    h.rows = 1 → d.data.length ≤ h.chunkEnd d.chunk → h.dst = BitVec.ofNat 64 (0xFFFF000000000000 + o) → o + h.rb ≤ w.scrSize →
    w.scrSize ≤ 2 ^ 18 → w.scrBase % 8 = 0 → s.landing c h r b (h.chunkEnd d.chunk) = .accept →
    ∃ u, exec (.deliveryArrival id) s = .next u ∧ readBytes u.mem l d.data.length = d.data ∧
      (∀ x, x < l ∨ l + d.data.length ≤ x → readByte u.mem x = readByte s.mem x) ∧ (∀ x ∈ u.deliveries, x.id ≠ id) ∧
      u.threads = s.threads ∧ u.wgs = s.wgs)

/-- 23_index R349 to R359: a SEARCH whose record and lists are read goes to each unit that holds one of its buckets; a unit begins its
query's next bucket with a snapshot of VERSION (without an acquire perhaps that of the version before, R360), and walking it, entry by
entry, keeps the best K visible entries; a finished query sends its list, three results to a message, and the last message with its counts;
a publish that has room takes the published version, writes its entries one by one, then COUNT, and raises VERSION by one last. -/
def Obligations.HeadspaceWorks : Prop := ∀ (s : State),
  (∀ id c q list bs er t1 t2 t, s.cmd? id = some c → c.started = false → c.finished = false → c.parked = none → c.kind = .search →
    s.classStopped c.gang .headspace = false → s.searchOk c = true → c.qcode = 0 →
    s.engBytes c (c.addrAt 16) c.qdim = ((q, none), t1) → t1.engBytes c (c.addrAt 40) (8 * c.nbkt) = ((list, none), t2) →
    t2.findBuckets c list c.nbkt = ((bs, er, none), t) → bs ≠ [] →
    (∀ b ∈ bs, t.unitBinds (unitKey c.pkg b.2.1) c.ctx = true) →
    let us := distinct (bs.map fun b => b.2.1)
    ∃ u, exec (.queryDistribute id) s = .next u ∧
      (∀ x ∈ us, let mine := bs.filter fun b => b.2.1 == x
        (u.unit (unitKey c.pkg x)).queries = (t.unit (unitKey c.pkg x)).queries ++ [{
          cmd := c.id, buckets := mine.map fun b => (b.1, b.2.2), qvec := q, cbt := [], units := us.length,
          first := (mine.headD (0, 0, 0)).1 }]) ∧
      (∀ k, (∀ x ∈ us, k ≠ unitKey c.pkg x) → u.unit k = t.unit k) ∧
      u.cmds = (t.cmds.map fun x => if x.id == c.id then { x with started := true, errs := er, sent := us.length } else x) ∧
      u = { t with units := u.units, cmds := u.cmds, sillage := u.sillage, nextId := u.nextId }) ∧
  (∀ p unit q c pos off rest, unit < Config.unitsPerPkg → s.walker (unitKey p unit) = some q → s.cmd? q.cmd = some c → c.pkg = p →
    q.buckets = (pos, off) :: rest →
    let k := unitKey p unit
    let queries := fun f : Query → Query => (s.unit k).queries.map fun x => if x.cmd == c.id then f x else x
    let goes := fun (w : BWalk) (u : State) => (∀ j, u.unit j = if j = k then
      { s.unit j with queries := queries fun x => { x with walking := some w } } else s.unit j) ∧ u = { s with units := u.units }
    let h := s.hsBytes p unit off 128
    let n := slotsOfPage c.qcode c.qdim
    (q.walking = none → s.hsReady c unit off = true → s.hsPoisoned p unit off 128 = false → s.headerGood p unit h = true →
      fld h 12 1 = c.qcode → fld h 14 2 = c.qdim →
      skips c.metric c.qcode (c.at 48 4) (fld h 16 4) (c.metric != 2)
        (c.incOf.bind fun n => tfind (bindRipe (s.unit k).binds c.ctx) n) = false →
      ∃ u v, exec (.bucketWalk p unit) s = .next u ∧ (v = fld h 0 8 ∨ c.acq = none ∧ v + 1 = fld h 0 8) ∧
        (∀ j, u.unit j = if j = k then
            { s.unit j with
              snaps := (s.unit j).snaps ++ [(off, v)]
              queries := queries fun x => { x with walking := some { snap := v, page := fld h 24 8 } } }
          else s.unit j) ∧
        u = { s with units := u.units, tick := u.tick }) ∧
    (∀ w, q.walking = some w → w.inPage = false → w.page ≠ hsNull → w.seen < hsPages → s.hsPageOk p unit w.page = true →
      s.hsPoisoned p unit w.page 64 = false → zeros (s.hsBytes p unit w.page 64) 8 56 = true →
      ∃ u, exec (.bucketWalk p unit) s = .next u ∧ goes { w with inPage := true, slot := 0, seen := w.seen + 1 } u) ∧
    (∀ w, q.walking = some w → w.inPage = true → w.slot < n →
      let r := s.walkSlot c unit w.snap q { cands := q.cands, poison := w.poison } (w.page + 64 + w.slot * stride c.qcode c.qdim)
      ∃ u, exec (.bucketWalk p unit) s = .next u ∧
        (∀ j, u.unit j = if j = k then
            { s.unit j with queries := queries fun x =>
              { x with cands := r.cands, walking := some { w with slot := w.slot + 1, poison := r.poison } } }
          else s.unit j) ∧
        u.cmds = (s.cmds.map fun x => if x.id == c.id then { x with flags := x.flags ||| r.flags } else x) ∧
        u = { s with units := u.units, cmds := u.cmds }) ∧
    (∀ w, q.walking = some w → w.inPage = true → n ≤ w.slot →
      ∃ u, exec (.bucketWalk p unit) s = .next u ∧ goes { w with inPage := false, page := fld (s.hsBytes p unit w.page 8) 0 8 } u) ∧
    (∀ w, q.walking = some w → w.inPage = false → w.page = hsNull → w.poison = false →
      ∃ u, exec (.bucketWalk p unit) s = .next u ∧
        (∀ j, u.unit j = if j = k then
            { s.unit j with
              snaps := (s.unit j).snaps.erase (off, w.snap)
              queries := queries fun x => { x with buckets := x.buckets.drop 1, walking := none, walked := x.walked + 1 } }
          else s.unit j) ∧
        u = { s with units := u.units })) ∧
  (∀ p unit q c, unit < Config.unitsPerPkg →
    ((s.unit (unitKey p unit)).queries.take 64).find? (fun q => q.buckets.isEmpty && s.queryGoes q) = some q →
    s.cmd? q.cmd = some c →
    let n := (q.cands.length + 2) / 3
    let qid := natLe 4 (c.at 36 4)
    ∃ u l, exec (.resultAppend p unit) s = .next u ∧ u.msgs = s.msgs ++ l ∧
      l.map Msg.payload = ((List.range n).map fun j =>
        qid ++ natLe 2 (3 * j) ++ natLe 2 unit ++
          ((q.cands.drop (3 * j)).take 3).flatMap fun x => natLe 8 x.item.toNat ++ natLe 8 x.score.toNat) ++
        [qid ++ natLe 2 q.walked ++ natLe 2 q.skipped ++ natLe 2 q.cands.length ++ natLe 2 q.units ++ natLe 4 0] ∧
      l.map Msg.kind = List.replicate n 2 ++ [3] ∧ (∀ m ∈ l, m.cmd = c.id ∧ m.ring = c.at 30 1 % 4 ∧ m.srcCore = 0xFFFF) ∧
      (u.unit (unitKey p unit)).queries = ((s.unit (unitKey p unit)).queries.filter fun x => x.cmd != q.cmd) ∧
      u = { s with units := u.units, msgs := u.msgs, sillage := u.sillage, nextId := u.nextId }) ∧
  (∀ p unit pub rest c, unit < Config.unitsPerPkg → (s.unit (unitKey p unit)).pubs = pub :: rest → s.cmd? pub.cmd = some c → c.pkg = p →
    let k := unitKey p unit
    let off := pub.bucket
    let h := s.hsBytes p unit off 128
    let l := hsLoc p unit off
    let main := s.hsChain p unit hsPages (fld h 24 8)
    let spare := s.hsChain p unit hsPages (fld h 40 8)
    let slots := slotsOn (fld h 12 1) (fld h 14 2) spare.pages
    (pub.base = none → s.hsPoisoned p unit off 128 = false → s.headerGood p unit h = true → main.err = 0 → spare.err = 0 →
      (∀ g ∈ main.pages ++ spare.pages, s.hsPoisoned p unit g 4096 = false) →
      (∀ x ∈ slots, stLive (s.stateWord p unit x) = false) → fld h 0 8 + 1 ≠ 2 ^ 31 →
      ((List.range c.nops).filter fun i => fld pub.ops (32 * i) 1 == 1).length ≤ slots.length →
      ∃ u, exec (.hspubPerform p unit) s = .next u ∧
        (∀ j, u.unit j = if j = k then { s.unit j with pubs := { pub with base := some (fld h 0 8) } :: rest } else s.unit j) ∧
        u = { s with units := u.units }) ∧
    (∀ v, pub.base = some v → pub.done < c.nops →
      ∃ u, exec (.hspubPerform p unit) s = .next u ∧
        (∀ j, u.unit j = if j = k then { s.unit j with pubs := { pub with done := pub.done + 1 } :: rest } else s.unit j) ∧
        u.cmds = s.cmds ∧ u.threads = s.threads ∧ u.wgs = s.wgs) ∧
    (∀ v, pub.base = some v → pub.done = c.nops → s.MemOk → off % 128 = 0 →
      let b : Bucket := { k := k, u := unit, off := off, code := fld h 12 1, dim := fld h 14 2, v := v }
      ∃ u, exec (.hspubPerform p unit) s = .next u ∧
        readBytes u.mem (l + 8) 4 =
          natLe 4 ((s.bucketSlots p b).filter fun x => visible (s.stateWord p unit x) (v + 1)).length ∧
        (∀ x, x < l + 8 ∨ l + 12 ≤ x → readByte u.mem x = readByte s.mem x) ∧ u.cmds = s.cmds ∧ u.threads = s.threads) ∧
    (∀ v, pub.base = some v → c.nops < pub.done → s.MemOk → off % 128 = 0 →
      ∃ u, exec (.hspubPerform p unit) s = .next u ∧ readBytes u.mem l 8 = natLe 8 (v + 1) ∧
        (∀ x, x < l ∨ l + 8 ≤ x → readByte u.mem x = readByte s.mem x) ∧
        (∀ j, u.unit j = if j = k then { s.unit j with pubs := rest, prev := tset (s.unit j).prev off v } else s.unit j) ∧
        (∀ x ∈ u.cmds, x.id = c.id → x.finished = true) ∧ u.threads = s.threads))

/-! ### Events of launches and gangs -/

/-- 18_queues R284 to R288, R297, R290, 01_machine R20: a good record at the head of the winning launch queue becomes a launch context with the next
LAUNCHID, and HEAD passes it; a waiting pod registration is granted; a launch that is over writes its completion word, posts its event
and frees its context; a waiting launch event is written once there is room; a placed gang stands with fresh threads at ENTRY, its
registers zero; a head that has waited 100 μs has the gangs of a quad marked; a gang that is over retires. -/
def Obligations.LaunchesRun : Prop := ∀ (s : State) (p : Nat),
  (∀ num w h params l, (s.pkg p).ready = true → s.freeCtx p = some num → contest (s.pkg p).lastwin (s.lqOffers p) = some w →
    s.lqHead p w.2 = some h →
    let r := s.lqRecord p h
    recBad r ((s.fn (fnKey p w.2)).priv.getLsbD 0) = false → recLimit (recLaunch r) = false → fld r 46 2 = 0 → fld r 72 8 = 0 →
    s.readParams p w.2 (recLaunch r).param 32 = .ok params → s.devLoc p (h.1 + 128 * h.2.1 + 8) = some l → l % 8 = 0 → s.MemOk →
    let ck := ctxKey p num
    ∃ u, exec (.launchAccept p) s = .next u ∧
      (∀ k, u.ctx k = if k = ck then
          { fn := w.2, launchid := BitVec.ofNat 32 (256 * ((s.pkg p).accCount % 2 ^ 24) + num), launch := recLaunch r, params := params }
        else s.ctx k) ∧
      (∀ k, u.fn k = if k = fnKey p w.2 then { s.fn k with place := (s.fn k).place ++ [.fresh ck 0], podReg := .none } else s.fn k) ∧
      (∀ k, u.pkg k = if k = p then { s.pkg k with accCount := (s.pkg k).accCount + 1, lastwin := (u.pkg k).lastwin } else s.pkg k) ∧
      readBytes u.mem l 8 = natLe 8 (h.2.2 + 1) ∧ (∀ x, x < l ∨ l + 8 ≤ x → readByte u.mem x = readByte s.mem x) ∧
      u.threads = s.threads ∧ u.gangs = s.gangs ∧ u.wgs = s.wgs) ∧
  (∀ fn h, (s.fn (fnKey p fn)).podReg = .waiting → s.lqHead p fn = some h →
    let r := recLaunch (s.lqRecord p h)
    (∀ x ∈ s.pods, x.key ≠ r.podkey) →
    ∃ u, exec (.podRegisterAnswer p fn) s = .next u ∧
      u.pods = s.pods ++ [{ key := r.podkey, podn := r.podn, decl := podDecl r.incdecl, pkgs := [p] }] ∧
      (∀ k, u.fn k = if k = fnKey p fn then { s.fn k with podReg := .granted r.podkey } else s.fn k) ∧
      u = { s with pods := u.pods, fns := u.fns }) ∧
  (∀ n l, n < 256 →
    let ck := ctxKey p n
    let c := s.ctx ck
    (tfind s.ctxs ck).isSome → tsorted s.ctxs = true → s.launchDone p ck = true → c.launch.podn = 0 →
    (s.fn (fnKey p c.fn)).flr = false → (s.fn (fnKey p c.fn)).eqctl.getLsbD 63 = false → c.cplAt = some l → l % 8 = 0 → s.MemOk →
    ∃ u, exec (.launchComplete p n) s = .next u ∧ tfind u.ctxs ck = none ∧ (∀ k, k ≠ ck → tfind u.ctxs k = tfind s.ctxs k) ∧
      readBytes u.mem l 8 = natLe 8 (c.launchid.toNat + (if c.aborting then 6 else 0) * 2 ^ 32) ∧
      (∀ x, x < l ∨ l + 8 ≤ x → readByte u.mem x = readByte s.mem x) ∧ (∀ g ∈ u.gangs, g.2.ctx ≠ ck) ∧ (∀ w ∈ u.wgs, w.2.ctx ≠ ck) ∧
      ∃ e ∈ (u.pkg p).events, e.ty = 2 ∧ e.fn = c.fn ∧ e.launchid = c.launchid ∧
        e.value = BitVec.ofNat 64 (c.launchid.toNat + (if c.aborting then 6 else 0) * 2 ^ 32)) ∧
  (∀ fn e t, (s.pkg p).events.find? (fun e => e.fn == fn) = some e → s.putEvent p e = some t →
    ∃ u, exec (.launchEventPost p fn) s = .next u ∧ u.mem = t.mem ∧
      (u.pkg p).events = (s.pkg p).events.eraseIdx ((s.pkg p).events.findIdx fun e => e.fn == fn) ∧ u.threads = s.threads) ∧
  (∀ w x next f, (s.noteWaits p).placeWinner p = some (w, .fresh x next, f) →
    let c := s.ctx x
    let l := c.launch
    let first := s.nextId + 1
    l.wgsize ≤ 2048 →
    ∃ u, exec (.gangPlace p) s = .next u ∧
      u.gang s.nextId =
        { pkg := p, ctx := x, gangid := BitVec.ofNat 32 next, quad := f.quad, cidx := f.cidx,
          members := (List.range l.gang).map fun m => first + m, stkBase := f.voff, stk := 256 * l.stk,
          vaultBase := f.voff + 256 * l.stk * (l.gang * l.wgsize), vaultSize := l.vault, slot := c.freeSlot } ∧
      (∀ m < l.gang, u.wg (first + m) =
        { pkg := p, core := 4 * f.quad + f.cidx + m, ctx := x, gang := s.nextId, member := m,
          wgid := BitVec.ofNat 32 (next * l.gang + m), gangid := BitVec.ofNat 32 next, launchid := c.launchid, size := l.wgsize,
          nregs := l.regs, k := c.params, scrBase := f.offs.getD m 0, scrSize := l.scratch }) ∧
      (∀ m < l.gang, ∀ i < l.wgsize, u.thr (thrKey (first + m) i) =
        { x := List.replicate l.regs 0, pc := l.entry, lane := i % Config.gwidth, lead := i - i % Config.gwidth,
          since := s.clockOf p }) ∧
      (∀ k, k / 2048 < s.nextId → u.thr k = s.thr k) ∧ (∀ k < s.nextId, u.wg k = s.wg k ∧ u.gang k = s.gang k) ∧
      (l.replayable = false → u.mem = s.mem) ∧ u.accs = s.accs ∧ u.cmds = s.cmds) ∧
  (∀ fn t e gs, (s.fn (fnKey p fn)).since = some t → s.placeHead p fn = some e → t + 170000 ≤ s.clockOf p →
    (s.fn (fnKey p fn)).emptied = [] → (∀ x n, e = .fresh x n → (s.ctx x).freeSlot ≠ none) → s.entryFit p e = none →
    (List.range Config.quadsPerPkg).findSome? (s.emptiable p e) = some gs →
    ∃ u, exec (.placementWaitExpiry p fn) s = .next u ∧ (∀ g ∈ gs, (u.gang g).pre ≠ none) ∧ gs ≠ [] ∧
      (∀ k, u.fn k = if k = fnKey p fn then { s.fn k with emptied := gs, since := some (s.clockOf p) } else s.fn k) ∧
      u.threads = s.threads ∧ u.mem = s.mem) ∧
  (∀ gk,
    let g := s.gang gk
    g.members ≠ [] → g.st = .running → s.gangOver gk = true → s.checking gk = false →
    ∃ u, exec (.gangRetire gk) s = .next u ∧ (u.gang gk).st = .retired ∧ (u.gang gk).pre = none ∧ (u.gang gk).slot = none ∧
      (∀ k ∈ g.members, (u.wg k).resident = false) ∧ u.threads = s.threads)

/-- 18_queues R300 to R302, 21_tables R328, 04_registers R88: the request marks a gang that can be saved; each engine class acknowledges at
its stop point; the hardware save stows each thread's wait and trap registers and enters PREEMPT with the slot number; when every thread has
issued its RTE the gang leaves its cores and stands first in its placement queue; a resumed gang stands in its new place, each thread in the
PREEMPT handler with 128 added to the slot, its registers zero. -/
def Obligations.GangsPreempt : Prop := ∀ (s : State) (gk : Nat),
  let g := s.gang gk
  (s.markable gk = true →
    ∃ u, exec (.preemptionRequest gk) s = .next u ∧ (u.gang gk).pre = some {} ∧ (∃ i, (u.gang gk).slot = some i) ∧
      (u.gang gk).st = .running ∧ u.threads = s.threads ∧ u.wgs = s.wgs ∧ u.mem = s.mem) ∧
  (s.markable gk = false → exec (.preemptionRequest gk) s = .next s) ∧
  (∀ cls c ready q,
    let cores := s.gangCores gk
    let chunk := cores.all (s.copyAt gk)
    let starts := cores.any (s.loopStarts gk)
    (cls, c, ready) ∈ [(2, EClass.copy, chunk && !s.cmds.any fun c => c.sendReads gk), (3, .atomiser, chunk && !starts && !s.phaseRuns gk),
      (4, .loop, !starts), (5, .accord, (s.toStage gk).isEmpty && !s.phaseRuns gk), (6, .headspace, !s.walksFor gk && !s.pubLeft gk)] →
    ready = true → g.pre = some q → c ∉ q.acks → g.st = .running →
    ∃ u, exec (.engineStopAck gk cls) s = .next u ∧
      (∀ k, u.gang k = if k = gk then { g with pre := some { q with acks := q.acks ++ [c] } } else s.gang k) ∧
      u = { s with gangs := u.gangs }) ∧
  (∀ q, g.pre = some q → .issue ∉ q.acks → g.st = .running → (∀ k ∈ g.members, s.owesWatch k = []) → s.gangSteps gk = false →
    (∀ k ∈ s.gangThreads gk, s.issueBusy k = false) → (∀ k ∈ s.gangAll gk, s.leftBusy k = false) → s.readsTable gk = false →
    ∃ u, exec (.engineStopAck gk 0) s = .next u ∧
      (∀ k, u.gang k = if k = gk then { g with pre := some { q with acks := q.acks ++ [.issue] } } else s.gang k) ∧
      u.accs = (s.accs.map fun a => if (s.gangThreads gk).contains a.thr && !a.performed then { a with arrived := none } else a) ∧
      u = { s with gangs := u.gangs, accs := u.accs }) ∧
  (∀ q slot, g.pre = some q → q.hwSaved = false → 7 ≤ q.acks.length → g.st = .running → q.discard = false → g.slot = some slot →
    g.members.Nodup → (∀ k ∈ g.members, (s.wg k).size ≤ 2048 ∧ ∀ i ∈ s.liveTids k, s.strikeAt k i = false) →
    ∃ u, exec (.hardwareSave gk) s = .next u ∧ (u.gang gk).pre = some { q with hwSaved := true } ∧
      (∀ k ∈ g.members, ∀ i ∈ s.liveTids k, let t := s.thr (thrKey k i)
        let v := u.thr (thrKey k i)
        v = { t.stow with handler := true, pc := v.pc, trap := v.trap, pre := .saving, since := s.clockOf (s.wg k).pkg } ∧
          v.pc = (s.launchOf (s.wg k)).vec + 64 * 0x18 ∧ v.trap.pc = t.pc ∧ v.trap.cause = BitVec.ofNat 32 (256 * (slot % 128) + 0x18) ∧
          v.trap.addr = 0 ∧ v.trap.parent = t.parentId) ∧
      (∀ j, (∀ k ∈ g.members, ∀ i ∈ s.liveTids k, j ≠ thrKey k i) → u.thr j = s.thr j)) ∧
  (∀ q, g.pre = some q → q.hwSaved = true → g.st = .running → q.discard = false → (∀ k ∈ s.gangThreads gk, s.savedOut k = true) →
    ∃ u, exec (.preemptFree gk) s = .next u ∧ (u.gang gk).st = .preempted ∧ (u.gang gk).pre = none ∧
      (∀ k ∈ g.members, (u.wg k).resident = false) ∧
      (u.fn (fnKey g.pkg (s.ctx g.ctx).fn)).place = .back gk :: (s.fn (fnKey g.pkg (s.ctx g.ctx).fn)).place ∧ u.threads = s.threads ∧
      u.mem = s.mem) ∧
  (∀ p w f, (s.noteWaits p).placeWinner p = some (w, .back gk, f) → g.members.Nodup → (∀ k ∈ g.members, (s.wg k).size ≤ 2048) →
    ∃ u, exec (.gangResume p) s = .next u ∧ (u.gang gk).st = .running ∧ (u.gang gk).quad = f.quad ∧ (u.gang gk).cidx = f.cidx ∧
      (u.gang gk).saved = [] ∧
      (∀ m k, g.members[m]? = some k → (u.wg k).core = 4 * f.quad + f.cidx + m ∧ (u.wg k).resident = true ∧
        (u.wg k).scrBase = f.offs.getD m 0 ∧ (u.wg k).k = (s.ctx (s.wg k).ctx).params) ∧
      (∀ k ∈ g.members, ∀ i ∈ s.liveTids k, let v := u.thr (thrKey k i)
        v.handler = true ∧ v.pc = (s.launchOf (s.wg k)).vec + 64 * 0x18 ∧ v.trap.pc = (s.thr (thrKey k i)).pc ∧
          v.trap.cause = BitVec.ofNat 32 (256 * (g.slot.getD 0 % 128 + 128) + 0x18) ∧ v.pre = .restoring ∧
          v.x = List.replicate (s.wg k).nregs 0 ∧ v.q = 1))

/-- 18_queues R292 to R296, 15_counters R266, R268, R269: an idle core gathers the ready, undominated record of its deque into a workgroup,
when its arbiter has served nothing in this I-cycle and no placement comes first, or steals one from the first victim; the gathered
workgroup is dispatched with a thread for each record that is still undominated; a pending check is executed again; equal digests end it;
unequal ones cost both cores 64 and ask for an arbitration, which settles the scores. -/
def Obligations.RecordsAndChecks : Prop := ∀ (s : State) (p core : Nat), core < 640 →
  let ck := coreKey p core
  (∀ e x room, (s.core ck).quar = false → (s.core ck).gathered = none → (s.core ck).transit = none → (s.core ck).deque = [e] →
    s.ctxOf p e.launchid = some x → (s.ctx x).gather < 2 ^ 32 → s.gatherRoom ck x = some room → e.wait0 = 0 → e.wait1 = 0 →
    s.recDominated ck e = false → (s.core ck).dqUse = .none → s.placesOn p core = false → (s.ctx x).aborting = false →
    ∃ u, exec (.gather p core) s = .next u ∧
      (∀ k, u.core k = if k = ck then
          { s.core k with
            deque := [], dqUse := .gather,
            gathered := some { ctx := x, wgid := BitVec.ofNat 32 (s.ctx x).gather, recs := [e], off := room.1, voff := room.2 } }
        else s.core k) ∧
      (∀ k, u.ctx k = if k = x then { s.ctx k with gather := (s.ctx k).gather + 1 } else s.ctx k) ∧
      u = { s with cores := u.cores, ctxs := u.ctxs }) ∧
  (∀ e v rest x, s.mayGetWork ck = true → s.victims ck = v :: rest → v / 640 = p → v ≠ ck → (s.core v).deque = [e] →
    (s.core v).quar = false → (∀ w ∈ s.victims ck, (s.core w).dqUse = .none) →
    s.ctxOf p e.launchid = some x → s.mayGather ck x = true → e.wait0 = 0 → e.wait1 = 0 → s.recDominated v e = false →
    ∃ u, exec (.stealRequest p core) s = .next u ∧
      (∀ k, u.core k =
        if k = ck then { s.core k with transit := some { recs := [e] }, lastVictim := v % 640 }
        else if k = v then { s.core k with deque := [], dqUse := .steal }
        else s.core k) ∧
      u = { s with cores := u.cores }) ∧
  (∀ t e rest x room, (s.core ck).transit = some t → (s.core ck).quar = false →
    (t.recs.filter fun e => !s.recDominated ck e) = e :: rest → s.ctxOf p e.launchid = some x → s.gatherRoom ck x = some room →
    (s.core ck).gathered = none → (s.ctx x).gather < 2 ^ 32 → (s.ctx x).aborting = false →
    ∃ u, exec (.stealArrival p core) s = .next u ∧
      (∀ k, u.core k = if k = ck then
          { s.core k with
            transit := none, perf := (u.core k).perf,
            gathered := some { ctx := x, wgid := BitVec.ofNat 32 (s.ctx x).gather, recs := e :: rest, off := room.1, voff := room.2 } }
        else s.core k) ∧
      (∀ k, u.ctx k = if k = x then { s.ctx k with gather := (s.ctx k).gather + 1 } else s.ctx k) ∧
      u = { s with cores := u.cores, ctxs := u.ctxs }) ∧
  (∀ g, (s.core ck).gathered = some g →
    let keep := g.recs.filter fun e => !s.recDominated ck e
    let l := (s.ctx g.ctx).launch
    keep ≠ [] → keep.length ≤ 2048 → (s.ctx g.ctx).aborting = false →
    ∃ u, exec (.workgroupDispatch p core) s = .next u ∧ (u.core ck).gathered = none ∧ (u.gang s.nextId).members = [s.nextId + 1] ∧
      (u.gang s.nextId).gathered = true ∧ (u.wg (s.nextId + 1)).wgid = g.wgid ∧ (u.wg (s.nextId + 1)).core = core ∧
      (u.wg (s.nextId + 1)).size = keep.length ∧
      (∀ i < keep.length, let e := keep.getD i default
        u.thr (thrKey (s.nextId + 1) i) =
          { x := (e.args.flatMap fun (a : W64) => [a.setWidth 32, (a >>> 32).setWidth 32]) ++ List.replicate (l.regs - 8) 0,
            pc := e.entry, bnd := e.bound, bsel := e.bsel, lane := i % Config.gwidth, lead := i - i % Config.gwidth,
            since := s.clockOf p }) ∧
      (∀ k, k / 2048 ≤ s.nextId → u.thr k = s.thr k)) ∧
  (∀ x f, s.nextCheck p = some (x, f) →
    ∃ u, exec (.drydownCheckStart p) s = .next u ∧ (u.gang s.nextId).check = some x.id ∧
      (∀ m < x.sizes.length, (u.wg (s.nextId + 1 + m)).wgid = x.wgids.getD m 0 ∧
        (u.wg (s.nextId + 1 + m)).core = 4 * f.quad + f.cidx + m ∧ (u.wg (s.nextId + 1 + m)).k = x.params) ∧
      (∀ k, u.pkg k = if k = p then
          { s.pkg k with checks := (s.pkg k).checks.map fun y =>
              if y.id == x.id then { y with gang := some s.nextId, phase := y.phase + 1 } else y }
        else s.pkg k)) ∧
  (∀ id x gk k c1 c2 d1 d2, s.findCheck id 1 = some (p, x, gk) → s.runOver gk = true → x.cores = [c1] → x.digests = [d1] →
    (s.gang gk).members = [k] → (s.wg k).core = c2 → (s.wg k).digest = d2 → c1 ≠ c2 → c1 < 640 → c2 < 640 →
    ∃ u, exec (.reexecutionEnd id) s = .next u ∧ (u.gang gk).st = .retired ∧ u.threads = s.threads ∧
      (d1 = d2 → ∀ y ∈ (u.pkg p).checks, y.id ≠ id) ∧
      (d1 ≠ d2 → (u.core (coreKey p c1)).susp.toNat = min 65535 ((s.core (coreKey p c1)).susp.toNat + 64) ∧
        (u.core (coreKey p c2)).susp.toNat = min 65535 ((s.core (coreKey p c2)).susp.toNat + 64) ∧
        ∀ y ∈ (u.pkg p).checks, y.id = id → y.phase = 2 ∧ y.cores2 = [c2] ∧ y.digests2 = [d2])) ∧
  (∀ id x gk k c1 c2 c3 d1 d2, s.findCheck id 3 = some (p, x, gk) → s.runOver gk = true → x.cores = [c1] → x.cores2 = [c2] →
    x.digests = [d1] → x.digests2 = [d2] → (s.gang gk).members = [k] → (s.wg k).core = c3 → (s.wg k).digest = d1 → d1 ≠ d2 →
    [c1, c2, c3].Nodup → c1 < 640 → c2 < 640 → c3 < 640 → (s.core (coreKey p c1)).clean + 1 ≠ 0 →
    ∃ u, exec (.arbitrationEnd id) s = .next u ∧ (u.gang gk).st = .retired ∧ (∀ y ∈ (u.pkg p).checks, y.id ≠ id) ∧
      (u.core (coreKey p c2)).susp.toNat = min 65535 ((s.core (coreKey p c2)).susp.toNat + 192) ∧
      (u.core (coreKey p c1)).susp.toNat = (s.core (coreKey p c1)).susp.toNat - 64 ∧ u.threads = s.threads)

/-! ### Events of the debug agent and of the links -/

/-- 10_trap_state R184, R186, 17_prog_debug R278, R279, 04_registers R85, R86: the head request of a mailbox, for a resident workgroup of a
launch of the function, is served. HALTWG halts every live thread, where none owes a WATCH, a cancellation or the end of a step; RELEASE
lets the halted ones go on at their PC, or at a TRAPPC written since; STEP releases the halted fragment of the named thread for one word;
RDREG answers a register of a halted thread in the response ring; WRREG and WRREGF write it, the former unless a write is in flight; WRDBG
writes a debug register; the end of a step traps with STEP. -/
def Obligations.DebugRequestsServe : Prop := ∀ (s : State) (p : Nat),
  (∀ fn q k, s.mbHead p fn = some q → q.ok = true → s.reqWg p fn q = some k → s.awayWg k = false →
    let w := s.wg k
    let tk := thrKey k q.tid
    let t := s.thr tk
    let now := s.clockOf w.pkg
    (q.req = 1 → (∀ i ∈ s.liveTids k, (s.thr (thrKey k i)).watch = none ∧ s.dominated k (s.thr (thrKey k i)) = false) →
      (∀ st, (s.core w.ckey).stepping = some st → st.wg ≠ k) →
      ∃ u, exec (.haltwg p fn) s = .next u ∧
      (∀ i ∈ s.liveTids k, (s.thr (thrKey k i)).halted = false →
        u.thr (thrKey k i) = { s.thr (thrKey k i) with halted := true, relPc := none } ∧ (u.wg k).inelig = true) ∧
      (∀ j, (∀ i ∈ s.liveTids k, (s.thr (thrKey k i)).halted = false → j ≠ thrKey k i) → u.thr j = s.thr j)) ∧
    (q.req = 2 → w.size ≤ 2048 → ∃ u, exec (.release p fn) s = .next u ∧
      (∀ i ∈ s.liveTids k, let x := s.thr (thrKey k i)
        let v := u.thr (thrKey k i)
        x.halted = true →
          v.halted = false ∧ v.relPc = none ∧ v.skipBp = (x.skipBp || q.flg == 1) ∧ v.x = x.x ∧ v.trap = x.trap ∧ v.since = now ∧
          v.pc = (match x.relPc with | some a => if x.handler then x.pc else a | none => x.pc) ∧
          (v.pc = x.pc → v = { x with halted := false, relPc := none, skipBp := v.skipBp, since := now })) ∧
      (∀ j, (∀ i ∈ s.liveTids k, (s.thr (thrKey k i)).halted = true → j ≠ thrKey k i) → u.thr j = s.thr j)) ∧
    (q.req = 3 → q.tid < w.size → t.halted = true → (s.core w.ckey).dbgctl.getLsbD 0 = false →
      let fr := (s.siblings k t).filter fun i => let u := s.thr (thrKey k i)
        u.halted && u.handler == t.handler && u.effPc == t.effPc
      ∃ u, exec (.step p fn) s = .next u ∧ (∀ i ∈ fr, (u.thr (thrKey k i)).halted = false ∧ (u.thr (thrKey k i)).skipBp = true) ∧
        (∀ j, (∀ i ∈ fr, j ≠ thrKey k i) → u.thr j = s.thr j) ∧
        (∀ j, u.core j = if j = w.ckey then
            { s.core j with
              dbgctl := (s.core j).dbgctl ||| 1,
              stepping := some { wg := k, tid := q.tid, tids := fr, pc := t.effPc, handler := t.handler, issued := false } }
          else s.core j)) ∧
    (q.req = 4 → q.kind = 0 → q.tid < w.size → t.halted = true → q.num < w.nregs → t.bad q.num = false →
      let f := s.fn (fnKey p fn)
      let n := 2 ^ (f.mbctl.toNat % 16 + 4)
      let tail := s.devRead p (f.mbrbase.toNat + 64 * n) 8
      let head := s.devRead p (f.mbqbase.toNat + 64 * n + 8) 8
      ∀ l lt lh, f.mbOut = [] → (tail + 2 ^ 64 - s.devRead p (f.mbrbase.toNat + 64 * n + 8) 8) % 2 ^ 64 < n →
        s.devLoc p (f.mbrbase.toNat + 64 * (tail % n)) = some l → s.devLoc p (f.mbrbase.toNat + 64 * n) = some lt →
        s.devLoc p (f.mbqbase.toNat + 64 * n + 8) = some lh → l % 8 = 0 → lt % 8 = 0 → lh % 8 = 0 → l + 64 ≤ lt →
        lh + 8 ≤ l ∨ lt + 8 ≤ lh → s.MemOk →
        ∃ u, exec (.rdreg p fn) s = .next u ∧
          readBytes u.mem l 64 = natLe 2 1 ++ natLe 2 q.tag ++ natLe 2 0 ++ natLe 2 q.tid ++ natLe 4 q.launchid.toNat ++
            natLe 4 q.wgid.toNat ++ natLe 2 w.core ++ natLe 2 0 ++ natLe 4 0 ++ natLe 8 (t.x.getD q.num 0).toNat ++ natLe 32 0 ∧
          readBytes u.mem lt 8 = natLe 8 (tail + 1) ∧ readBytes u.mem lh 8 = natLe 8 (head + 1) ∧
          (∀ x, x < l ∨ l + 64 ≤ x → x < lt ∨ lt + 8 ≤ x → x < lh ∨ lh + 8 ≤ x → readByte u.mem x = readByte s.mem x) ∧
          u.threads = s.threads ∧ u.wgs = s.wgs) ∧
    (q.req = 5 → q.kind = 0 → q.tid < w.size → t.halted = true → q.num < w.nregs → s.inFlight tk q.num = false →
      ∃ u, exec (.wrreg p fn) s = .next u ∧ (∀ j, u.thr j = if j = tk then t.wx q.num (q.value.setWidth 32) else s.thr j) ∧
        (u.wg k).inelig = true ∧ u.accs = s.accs) ∧
    (q.req = 6 → q.kind = 0 → q.tid < w.size → t.halted = true → q.num < w.nregs → t.wait = .none → t.park = none →
      ∃ u, exec (.wrregf p fn) s = .next u ∧ (∀ j, u.thr j = if j = tk then t.wx q.num (q.value.setWidth 32) else s.thr j) ∧
        (u.wg k).inelig = true ∧
        (∀ a ∈ s.accs, ∀ d y, a.thr = tk → a.ret = .x d y → q.num ∈ a.destX →
          (if q.num = d then { a with dropLo := true } else { a with dropHi := true }) ∈ u.accs)) ∧
    (q.req = 7 → q.kind = 3 → 0x18 ≤ q.num → q.num ≤ 0x1E →
      ∃ u, exec (.wrdbg p fn) s = .next u ∧ (∀ j, u.core j = if j = w.ckey then (s.core j).dbgSet q.num q.value else s.core j) ∧
        (u.wg k).inelig = true ∧ u.threads = s.threads)) ∧
  (∀ core st, (s.core (coreKey p core)).stepping = some st → st.issued = true → st.tids = [st.tid] → st.handler = false →
    let tk := thrKey st.wg st.tid
    let t := s.thr tk
    t.live = true → t.watch = none → t.halted = false → t.handler = false →
    ∃ u, exec (.stepComplete p core) s = .next u ∧
      (∀ j, u.thr j = if j = tk then t.enter { cause := .step, pc := t.pc } 0 (s.sibMask st.wg [st.tid]) true else s.thr j) ∧
      (∀ j, u.core j = if j = coreKey p core then { s.core j with dbgctl := (s.core j).dbgctl &&& ~~~1#32, stepping := none }
        else s.core j))

/-- 22_links R329 to R346, 25_prog_alltoall R369: a fibre sends the next flit of its queues, numbered, kept until it is acknowledged, its beats dealt
on the active wavelengths; a good flit of the expected SEQ is accepted, its message goes to its ring, and it is acknowledged; one that cannot
be read is discarded, with a replay request outside loss recovery; an acknowledgement, a timeout, a replay request, a loss and a stripe
flit do what R334 to R337 say; slots, guards and slot tables follow pod time; routers gate and wake; confirmed light
ends an LWAKE. -/
def Obligations.LinksRun : Prop := ∀ (s : State) (p f : Nat),
  let k := fibreKey p f
  let x := s.fibre k
  let ctl := x.toSend.filter fun y => y.ty != .data
  let now := (s.pkg p).podt.toNat
  (∀ b y r c, x.wire = b :: r → x.reads b = some y → y.ty = .data → x.buf = [] → y.epoch = x.rxEpoch → y.dst = p →
    let q := s.fromPkg p f y
    let t := s.stream p f q
    t.lost = 0 → y.seq = t.expect → t.ctxOf y = some c → y.clean = true → y.ctxFlit = true → ctxMessages c = 1 → y.cmd ∉ s.severed →
    ∃ u m, exec (.dataFlit p f) s = .next u ∧ (u.fibre k).wire = r ∧ (u.fibre k).rxDc = dealt x.rxMask x.rxDc ∧
      (u.stream p f q).expect = t.expect + 1 ∧ u.msgs = s.msgs ++ [m] ∧
      m.id = s.nextId ∧ m.cmd = y.cmd ∧ m.pkg = p ∧ m.core = fld c 12 2 ∧ m.wgid = BitVec.ofNat 32 (fld c 8 4) ∧ m.ring = fld c 14 1 ∧
      m.srcPkg = y.src ∧ m.srcCore = fld c 16 2 ∧ m.seq = 0 ∧ m.payload = (y.payload.drop 24).take (fld c 18 2 + 1) ∧
      m.key = some (BitVec.ofNat 64 (fld c 0 8)) ∧ (∃ a ∈ (u.fibre k).toSend, a.ty = .ack ∧ a.ack = t.expect + 1) ∧
      u.threads = s.threads ∧ u.mem = s.mem) ∧
  (∀ b r z g, x.wire = b :: r → x.reads b = none → s.nearEnd p f = some (z, g) →
    let t := s.stream p f z
    ∃ u, exec (.dataFlit p f) s = .next u ∧
      (∀ j, u.fibre j = if j = k then
          let v := { x with wire := r, rxDc := dealt x.rxMask x.rxDc }
          if t.lost = 0 then v.queueCtl { ty := .replay, arg := t.expect, dst := z, src := p } else v
        else s.fibre j) ∧
      u = { s with fibres := u.fibres }) ∧
  (∀ b y r, x.wire = b :: r → x.reads b = some y → y.ty = .ack → y.dst = p →
    let q := s.fromPkg p f y
    ∃ u, exec (.ackFlit p f) s = .next u ∧ (u.fibre k).wire = r ∧
      (u.fibre k).buf = (x.buf.filter fun z => !((decide (f < 16) || z.dst == q) && seqBefore z.seq y.ack)) ∧
      (∀ j, j ≠ k → u.fibre j = s.fibre j) ∧ u = { s with fibres := u.fibres, pkgs := u.pkgs }) ∧
  (∀ b y r, x.wire = b :: r → x.reads b = some y → y.ty = .replay → y.dst = p → x.down = false → x.stalls < 8 →
    let q := s.fromPkg p f y
    ∃ u, exec (.replayRequest p f) s = .next u ∧ (u.fibre k).wire = r ∧
      (u.fibre k).buf = (x.buf.filter fun z => !((decide (f < 16) || z.dst == q) && seqBefore z.seq y.arg)) ∧
      ((u.fibre k).buf ≠ [] → (u.fibre k).toSend = ctl ++ (u.fibre k).buf) ∧
      (∀ j, j ≠ k → u.fibre j = s.fibre j) ∧ u = { s with fibres := u.fibres, pkgs := u.pkgs }) ∧
  (x.buf ≠ [] → x.down = false →
    (x.progress + 1000 ≤ now → x.stalls < 8 → ∃ u, exec (.ackTimeout p f) s = .next u ∧
      (∀ j, u.fibre j = if j = k then { x with toSend := ctl ++ x.buf, stalls := x.stalls + 1, progress := now } else s.fibre j) ∧
      u = { s with fibres := u.fibres }) ∧
    (x.progress + 1000 ≤ now → 8 ≤ x.stalls → ∃ u, exec (.ackTimeout p f) s = .next u ∧
      (∀ j, u.fibre j = if j = k then { x with active := 0, down := true, toSend := [], buf := [] } else s.fibre j) ∧
      u.threads = s.threads) ∧
    (now < x.progress + 1000 → exec (.ackTimeout p f) s = .next s)) ∧
  (∀ z g, s.nearEnd p f = some (z, g) → s.detects p f = true →
    let t := s.stream p f z
    let new := (s.fibre (fibreKey z g)).dark &&& x.rxMask &&& ~~~t.lost
    new ≠ 0 →
    ∃ u, exec (.lossDetect p f) s = .next u ∧ u.stream p f z = { t with lost := t.lost ||| new, report := t.report ||| new } ∧
      u = { s with pkgs := u.pkgs }) ∧
  (∀ b y r, x.wire = b :: r → x.reads b = some y → y.ty = .loss → y.dst = p → f < 16 → x.active &&& ~~~(y.arg &&& x.active) ≠ 0 →
    x.down = false → x.buf = [] ∨ x.stalls < 8 →
    let act := x.active &&& ~~~(y.arg &&& x.active)
    ∃ u, exec (.lossReport p f) s = .next u ∧
      (∀ j, u.fibre j = if j = k then
          { x with
            wire := r, rxDc := dealt x.rxMask x.rxDc, active := act, failed := x.failed ||| (y.arg &&& x.active), epoch := x.epoch + 1,
            dc := 0, stalls := if x.buf = [] then x.stalls else x.stalls + 1, progress := if x.buf = [] then x.progress else now,
            toSend := { ty := .stripe, epoch := x.epoch + 1, arg := act } :: if x.buf = [] then x.toSend else ctl ++ x.buf }
        else s.fibre j) ∧
      u.threads = s.threads) ∧
  (∀ b y r, x.wire = b :: r → x.reads b = some y → y.ty = .stripe → y.dst = p →
    let q := s.fromPkg p f y
    let t := s.stream p f q
    ∃ u, exec (.stripeFlit p f) s = .next u ∧
      (∀ j, u.fibre j = if j = k then { x with wire := r, rxMask := y.arg, rxEpoch := y.epoch, rxDc := dealt y.arg 0 }
        else s.fibre j) ∧
      u.stream p f q = (if y.arg &&& t.lost = 0 then { t with lost := 0, report := 0 } else t) ∧
      u = { s with fibres := u.fibres, pkgs := u.pkgs }) ∧
  (∀ q far y, (s.pkg p).peer f = some q → s.farEnd p f = some far → x.down = false → x.active ≠ 0 → s.inWindow p f = true →
    x.toSend = [] → x.buf.length < 64 → s.nextQueued p f = some y → y.numbered = false →
    let t := s.stream p f q
    let kept := { y with seq := t.send, numbered := true }
    t.report = 0 →
    ∃ u, exec (.flitSent p f) s = .next u ∧ (u.fibre k).buf = x.buf ++ [kept] ∧
      (u.stream p f q).send = t.send + 1 ∧ (u.fibre k).dc = (x.dc + 16) % popMask x.active ∧
      (u.fibre (fibreKey far.1 far.2)).wire = (s.fibre (fibreKey far.1 far.2)).wire ++
        [x.beam { kept with ack := t.expect, epoch := x.epoch, src := if y.ty = .data then y.src else p }] ∧
      u = { s with fibres := u.fibres, pkgs := u.pkgs }) ∧
  ((s.pkg p).opened = false →
    ∃ u, exec (.slotStart p) s = .next u ∧ (∀ j, u.pkg j = if j = p then { s.pkg j with opened := true } else s.pkg j) ∧
      (∀ r < 32, let e := s.fibre (fibreKey p (16 + r))
        u.fibre (fibreKey p (16 + r)) = if ((s.pkg p).peer (16 + r)).isSome then
          { e with dc := 0, toSend := { ty := .stripe, epoch := e.epoch, arg := e.active } :: e.toSend } else e) ∧
      u = { s with pkgs := u.pkgs, fibres := u.fibres }) ∧
  ((s.pkg p).opened = true → (s.pkg p).guard = false →
    (s.pkg p).slotStart + ((s.pkg p).slot.len - (s.pkg p).slot.guard) ≤ (s.pkg p).podt.toNat →
    ∃ u, exec (.guardStart p) s = .next u ∧ (∀ j, u.pkg j = if j = p then { s.pkg j with guard := true } else s.pkg j) ∧
      u = { s with pkgs := u.pkgs }) ∧
  ((s.pkg p).slotStart + (s.pkg p).slot.len ≤ (s.pkg p).podt.toNat →
    ∃ u, exec (.slotEnd p) s = .next u ∧
      (∀ j, u.pkg j = if j = p then
          { s.pkg j with
            rotq := (u.pkg j).rotq, slotIdx := ((s.pkg j).slotIdx + 1) % max 1 (s.pkg j).slots.length,
            slotStart := (s.pkg j).slotStart + (s.pkg j).slot.len, guard := false, opened := false }
        else s.pkg j) ∧
      (∀ r < 32, (u.fibre (fibreKey p (16 + r))).buf = [] ∧ (u.fibre (fibreKey p (16 + r))).toSend = []) ∧
      u = { s with pkgs := u.pkgs, fibres := u.fibres }) ∧
  (∀ t, (s.pkg p).staged = some t → t.start ≤ (s.pkg p).podt.toNat →
    ∃ u, exec (.slotTableStart p) s = .next u ∧
      (∀ j, u.pkg j = if j = p then
          { s.pkg j with
            rotq := (u.pkg j).rotq, slots := t.ents, slotIdx := 0, slotStart := t.start, guard := false, opened := false, staged := none }
        else s.pkg j) ∧
      u.threads = s.threads) ∧
  ((s.die (dieKey p f)).carried + 512 ≤ s.clockOf p → ∃ u, exec (.routerGate p f) s = .next u ∧
    (∀ j, u.die j = if j = dieKey p f then
        { s.die j with gated := ninsert (s.die j).gated (Config.freeChoice s.tick) } else s.die j) ∧
    u = { s with dies := u.dies, tick := s.tick + 1 }) ∧
  (∃ u, exec (.routerWake p f) s = .next u ∧
    (∀ j, u.die j = if j = dieKey p f then
        { s.die j with gated := (s.die j).gated.eraseIdx (Config.freeChoice s.tick % max 1 (s.die j).gated.length) }
      else s.die j) ∧
    u = { s with dies := u.dies, tick := s.tick + 1 }) ∧
  (∃ u, exec (.podtSync p) s = .next u ∧ (∀ j, u.pkg j = if j = p then { s.pkg j with podt := (s.pkg 0).podt } else s.pkg j) ∧
    u = { s with pkgs := u.pkgs }) ∧
  (∃ u, exec (.podtNs p) s = .next u ∧ (∀ j, u.pkg j = if j = p then { s.pkg j with podt := (s.pkg j).podt + 1 } else s.pkg j) ∧
    u = { s with pkgs := u.pkgs }) ∧
  (∀ w ks d mask, x.wake = some (w, ks, d) → w ≠ 0 → w &&& BitVec.ofNat 16 mask = w → ((s.pkg p).guard = false ∨ f < 16) →
    ∃ u, exec (.lightConfirmation p f mask) s = .next u ∧ (u.fibre k).wake = none ∧ (u.fibre k).active = x.active ||| w ∧
      (u.fibre k).parked = x.parked &&& ~~~w ∧ (u.fibre k).failed = x.failed &&& ~~~w ∧ (u.fibre k).epoch = x.epoch + 1 ∧
      (∀ j, u.thr j = if j ∈ ks ∧ (s.thr j).live = true ∧ (s.thr j).hold = .link d then
          { (s.thr j).wxs (put32 (BitVec.ofNat 7 d) 0) with hold := .none, since := s.clockOf (s.wg (j / 2048)).pkg }
        else s.thr j) ∧
      u.mem = s.mem)

/-! ### Events of the host -/

/-- 24_host R363 to R368, 04_registers R80, 11_memories R203, 15_counters R260, R266, R269, 18_queues R287: what the host and the boot do. A
reset returns every part of the package to its reset value, its memory to zero but for the CXL tier, which is kept; boot goes stage by
stage; a register takes a write that breaks no limit; enabling a ring zeroes its control block; an abort marks the launch; TLBINVH empties
the TLBs of the function; an I-cycle raises CLOCK by one, frees the issue slots and the deque arbiters, and ages the updates of the
incumbent copies. -/
def Obligations.HostActs : Prop := ∀ (s : State) (p : Nat),
  (tsorted s.pkgs = true → ∃ u, exec (.coldReset p) s = .next u ∧ u.pkg p = {} ∧
    (∀ l, readByte u.mem l = if locPkg l = p ∧ isCxl l = false then 0 else readByte s.mem l) ∧
    (∀ c < 640, u.core (coreKey p c) = {}) ∧ (∀ d < 4, u.die (dieKey p d) = {}) ∧ (∀ f < 257, u.fn (fnKey p f) = {}) ∧
    (∀ c < 256, tfind u.ctxs (ctxKey p c) = none) ∧ (∀ f < 48, u.fibre (fibreKey p f) = {}) ∧ (∀ g ∈ u.gangs, g.2.pkg ≠ p) ∧
    (∀ w ∈ u.wgs, w.2.pkg ≠ p) ∧ (∀ a ∈ u.accs, a.pkg ≠ p) ∧ (∀ c ∈ u.cmds, c.pkg ≠ p) ∧ (∀ q, q ≠ p → u.pkg q = s.pkg q) ∧
    (∀ q c, q ≠ p → c < 640 → u.core (coreKey q c) = s.core (coreKey q c))) ∧
  (∀ v, s.hostOpen p 0 = true → (s.fn (fnKey p 0)).d3 = false →
    exec (.reset p v) s = if v = 0xD0B0 then exec (.coldReset p) s else .next s) ∧
  (∀ fn, 0 < fn → fn < 257 → (∀ c ∈ s.ctxs, c.1 / 256 = p → c.2.fn ≠ fn) →
    ∃ u, exec (.flr p fn) s = .next u ∧ u.fn (fnKey p fn) = { priv := (s.fn (fnKey p fn)).priv } ∧
      (∀ k, k ≠ fnKey p fn → u.fn k = s.fn k) ∧ u.threads = s.threads ∧ u.mem = s.mem) ∧
  (∀ fn, fn < 257 → ∃ u, exec (.d3hotEntry p fn) s = .next u ∧ (u.fn (fnKey p fn)).d3 = true ∧
    (∀ k c, tfind s.ctxs k = some c → k / 256 = p → c.fn = fn → (u.ctx k).aborting = true)) ∧
  ((s.pkg p).bootst = 1 → (s.fn (fnKey p 0)).d3 = false → (s.fn (fnKey p 0)).flr = false → ∃ u, exec (.bootst p 2) s = .next u ∧
    (∀ k, u.pkg k = if k = p then { s.pkg k with bootst := 2 } else s.pkg k) ∧ u = { s with pkgs := u.pkgs }) ∧
  ((s.pkg p).bootst = 0 → ∃ u, exec (.bootStageDone p true) s = .next u ∧
    (∀ k, u.pkg k = if k = p then { s.pkg k with bootst := 1 } else s.pkg k) ∧ u = { s with pkgs := u.pkgs }) ∧
  (∀ c, (s.pkg p).bootst = 2 → (s.pkg p).staging = some c → c.good p = true → ∃ u, exec (.bootStageDone p true) s = .next u ∧
    (∀ k, u.pkg k = if k = p then { s.pkg k with bootst := 3, cfg := c, staging := none } else s.pkg k) ∧ u = { s with pkgs := u.pkgs }) ∧
  ((s.pkg p).bootst = 3 → ∃ u, exec (.bootStageDone p true) s = .next u ∧ (u.pkg p).bootst = 4 ∧
    (∀ l, readByte u.mem l = if locPkg l = p ∧ isCxl l = false then 0 else readByte s.mem l) ∧
    (∀ w, locPkg (8 * w) = p → isCxl (8 * w) = false → u.isFull w = true)) ∧
  ((s.pkg p).bootst = 5 → ∃ u, exec (.bootStageDone p true) s = .next u ∧
    (∀ k, u.pkg k = if k = p then { s.pkg k with bootst := 6 } else s.pkg k) ∧ u = { s with pkgs := u.pkgs }) ∧
  (∀ fn, s.hostOpen p fn = true → (s.fn (fnKey p fn)).d3 = false →
    let fk := fnKey p fn
    let f := s.fn fk
    (∀ v, v < 2 ^ 64 → v % 4096 = 0 → ∃ u, exec (.hostRegWrite p fn 0x048 v) s = .next u ∧
      (∀ k, u.fn k = if k = fk then { f with ptroot := BitVec.ofNat 64 v } else s.fn k) ∧ u = { s with fns := u.fns }) ∧
    (∀ v, v < 2 ^ 64 → f.lqctl.getLsbD 63 = false → ∃ u, exec (.hostRegWrite p fn 0x010 v) s = .next u ∧
      (∀ k, u.fn k = if k = fk then { f with lqbase := BitVec.ofNat 64 v } else s.fn k) ∧ u = { s with fns := u.fns }) ∧
    (∀ v, 1800 ≤ v → v ≤ 2800 → fn = 0 → ∃ u, exec (.hostRegWrite p fn 0x150 v) s = .next u ∧
      (∀ k, u.pkg k = if k = p then { s.pkg k with pwrcap := BitVec.ofNat 64 v } else s.pkg k) ∧ u = { s with pkgs := u.pkgs }) ∧
    (∀ v l, f.lqctl.getLsbD 63 = false → v.testBit 63 = true → v % 16 ≤ 8 → s.MemOk →
      let a := f.lqbase.toNat + 128 * 2 ^ (v % 16 + 4)
      s.devLoc p a = some l → s.devLoc p (a + 8) = some (l + 8) → l % 8 = 0 →
      ∃ u, exec (.lqctl p fn v) s = .next u ∧
        (∀ k, u.fn k = if k = fk then { f with lqctl := BitVec.ofNat 64 (2 ^ 63 + v % 16) } else s.fn k) ∧
        (∀ x, readByte u.mem x = if l ≤ x ∧ x < l + 16 then 0 else readByte s.mem x) ∧ u.threads = s.threads) ∧
    (∀ v l, f.eqctl.getLsbD 63 = false → v.testBit 63 = true → v % 32 ≤ 10 → s.MemOk →
      let a := f.eqbase.toNat + 32 * 2 ^ (v % 32 + 6)
      s.devLoc p a = some l → s.devLoc p (a + 8) = some (l + 8) → s.devLoc p (a + 16) = some (l + 16) → l % 8 = 0 →
      ∃ u, exec (.eqctl p fn v) s = .next u ∧
        (∀ k, u.fn k = if k = fk then { f with eqctl := BitVec.ofNat 64 (2 ^ 63 + v % 32) } else s.fn k) ∧
        (∀ x, readByte u.mem x = if l ≤ x ∧ x < l + 24 then 0 else readByte s.mem x) ∧ u.threads = s.threads) ∧
    (∀ v, f.mbctl.getLsbD 63 = true → v.testBit 63 = false → v % 16 ≤ 4 → v % 16 = f.mbctl.toNat % 16 →
      ∃ u, exec (.mbctl p fn v) s = .next u ∧
        (∀ k, u.fn k = if k = fk then { f with mbctl := BitVec.ofNat 64 (v % 16) } else s.fn k) ∧ u = { s with fns := u.fns }) ∧
    (∀ v k c, s.ctxs.find? (fun x => x.1 / 256 == p && x.2.fn == fn && x.2.launchid == BitVec.ofNat 32 v) = some (k, c) →
      (s.ctx k).aborting = false → (s.ctx k).fn = fn →
      ∃ u, exec (.abort p fn v) s = .next u ∧ (u.ctx k).aborting = true ∧ (∀ x ∈ (u.fn fk).place, s.entryOf k x = false) ∧
        (∀ x ∈ (u.pkg p).checks, x.ctx ≠ k)) ∧
    (∃ u, exec (.tlbinvh p fn) s = .next u ∧
      (∀ c < 640, (u.core (coreKey p c)).utlb = (s.core (coreKey p c)).utlb.filter fun t => t.fn != fk) ∧
      (∀ d < 4, (u.die (dieKey p d)).tlb = (s.die (dieKey p d)).tlb.filter fun t => t.fn != fk) ∧ u.mem = s.mem ∧
      u.threads = s.threads)) ∧
  (s.hostOpen p 0 = true → (s.fn (fnKey p 0)).d3 = false →
    (∀ v, v < 18 → ∃ u, exec (.dryfrach p v) s = .next u ∧
      (∀ k, u.pkg k = if k = p then { s.pkg k with dryfrac := BitVec.ofNat 32 v } else s.pkg k) ∧ u = { s with pkgs := u.pkgs }) ∧
    (∀ v, v % 1024 < 640 → ∃ u, exec (.suspw p v) s = .next u ∧
      (∀ k, u.core k = if k = coreKey p (v % 1024) then { s.core k with susp := BitVec.ofNat 16 (v / 2 ^ 16), quar := false }
        else s.core k) ∧ u = { s with cores := u.cores }) ∧
    (∀ c, ∃ u, exec (.cntclrDropped p c) s = .next u ∧
      (∀ k, u.core k = if k = coreKey p c then { s.core k with dropped := 0 } else s.core k) ∧ u = { s with cores := u.cores }) ∧
    (∀ c, ∃ u, exec (.cntclrPerf p c) s = .next u ∧
      (∀ k, u.core k = if k = coreKey p c then { s.core k with perf := List.replicate 13 0 } else s.core k) ∧
      (∀ k, u.pkg k = if k = p then { s.pkg k with drySkip := 0 } else s.pkg k) ∧ u = { s with cores := u.cores, pkgs := u.pkgs }) ∧
    (∃ u, exec (.cntclrTelemetry p) s = .next u ∧
      (∀ k, u.pkg k = if k = p then { s.pkg k with misdir := 0, errResp := [] } else s.pkg k) ∧
      (∀ k, u.core k = if k / 640 = p then { s.core k with corrX := 0 } else s.core k) ∧
      (∀ k, u.die k = if k / 4 = p then { s.die k with corrM := 0 } else s.die k) ∧
      u = { s with cores := u.cores, dies := u.dies, pkgs := u.pkgs })) ∧
  (∀ l, (s.pkg p).ready = true → s.devLoc p (s.pkg p).cfg.telem = some l → l % 8 = 0 →
    ∃ u, exec (.telemetryPost p) s = .next u ∧ (∀ x, x < l ∨ l + 4096 ≤ x → readByte u.mem x = readByte s.mem x) ∧
      u.tick = s.tick + 4096 ∧ u.threads = s.threads ∧ u.wgs = s.wgs) ∧
  ((∀ x ∈ s.fns, x.1 / 257 = p → x.2.mbOut = []) →
    ∃ u, exec (.iCycle p) s = .next u ∧ (∀ k, u.pkg k = if k = p then { s.pkg k with clock := (s.pkg k).clock + 1 } else s.pkg k) ∧
    (∀ k, u.core k = if k / 640 = p then
        { s.core k with
          perf := (u.core k).perf, busy := (u.core k).busy, issued := [], slotUsed := 0, dqUse := .none,
          dbgOld := ageDbg (s.core k).dbgOld, binds := (s.core k).binds.map Bind.age,
          resv := (s.core k).resv.map fun j => { j with went := false } }
      else s.core k) ∧
    (∀ d < 4, (u.die (dieKey p d)).placed = false) ∧
    (∀ k, (∀ ids, (s.thr k).hold ≠ .tlbinv ids) →
      u.thr k = { s.thr k with stood := (u.thr k).stood, aged := (u.thr k).aged, since := (u.thr k).since }) ∧
    u.mem = s.mem ∧ u.accs = s.accs) ∧
  (∀ on, ∃ u, exec (.planeArrayPause p on) s = .next u ∧ (∀ k, u.pkg k = if k = p then { s.pkg k with paused := on } else s.pkg k) ∧
    u = { s with pkgs := u.pkgs })

/-! ### The machine as a whole -/

/-- 03_encoding R53 to R63, R70: decoding and encoding agree: what the encoder writes for a well-formed instruction, with every operand at every
value, the decoder reads back, and the word that the decoder accepts for a well-formed instruction is the one that the encoder writes. -/
def Obligations.DecodeEncodes : Prop := ∀ (i : Instr) (w : W64), i.WellFormed → (encode i = some w ↔ decode w = .ok i)

/-- 03_encoding R53, R61 to R63 and the examples of the chapters: words that the spec writes out, one or two of each group, and the pair word,
decode to the instructions they stand for; a word of an unused index of each group, and a word with reserved bits set, does not. -/
def Obligations.DecodeWords : Prop :=
  let g : Guard := ⟨false, 0⟩
  decode 0x0360001960000000 = .ok (.mov (.x 0) .tid none g ⟨.w32, false⟩) ∧
  decode 0x0000404000000800 = .ok (.add ⟨2, .x 2, .x 0, none, g⟩ ⟨.w64, false⟩ false) ∧
  decode 0x0360A0008C020000 = .ok (.mov (.x 5) (.x 4) (some ⟨.rot, true, 0, 1⟩) g ⟨.w32, false⟩) ∧
  decode 0x10C0402040000002 = .ok (.fcmp ⟨2, .x 1, .x 2, none, g⟩ .f32 .lt) ∧
  decode 0x2080200040000400 = .ok (.reduce ⟨1, .x 2, none, g⟩ (.int ⟨.w32, true⟩) 0 .add) ∧
  decode 0x30C0000000000003 = .ok (.accz 3 false g) ∧
  decode 0x4000001200000002 = .ok (.bra ⟨true, 1⟩ 2) ∧
  decode 0x4160000180000000 = .ok (.bound 0 (.x 6) none g) ∧
  decode 0x50008040000400C0 = .ok (.ld (.x 4) ⟨.x 2, 2, g⟩ ⟨.w32, false⟩ ⟨.acq, .pkg⟩) ∧
  decode 0x6001908000000000 = .ok (.tcopy ⟨12, 4, 0, g⟩) ∧
  decode 0x7001000000000810 = .ok (.srd 4 .w64 0x10 g) ∧
  decode 0x80060500140E0A00 = .ok (.addHalf ⟨6, .x 5, g, none⟩ ⟨.xor, 7, .x 5, g, none⟩) ∧
  (∀ p ∈ [(0, 31), (1, 24), (2, 11), (3, 10), (4, 16), (5, 11), (6, 19), (7, 8)],
    decode (BitVec.ofNat 64 ((p.1 * 128 + p.2) * 2 ^ 53)) = .error .undefinedOpcode) ∧
  decode 0x80060500140E0A01 = .error .reservedField

/-- 01_machine R14, 03_encoding R51, R68, 18_queues R298: a step takes the next turn. At an issue turn whose first candidate owes nothing,
the word that its threads fetch at their PC is decoded; a word that decodes, that no sequence of R66 continues and that is not held runs as
`exec` gives it at that site, and the step adds only what the slot notes of the issue, or, of a word that only begins to wait where it
stands, of the slot. A word that does not decode raises ILLEGAL in each thread. At an event's turn the event happens. Either way the step
leaves no fragment in issue. -/
def Obligations.StepRunsDecoded : Prop := ∀ (s : State) (rest : List Turn),
  let t := { s with turns := rest }
  (∀ p core slot g l i0 tids w s1 s2, s.turns = .issue p core slot :: rest → slot < 2 → (s.core (coreKey p core)).slotUsed ≤ slot →
    t.ordered (coreKey p core) = g :: l → g.red = false → t.boundary g = (s1, i0 :: tids, false) → s1.fetch g.wg i0 g.pc = (.word w, s2) →
    let c : Site := { pkg := (s1.wg g.wg).pkg, core := (s1.wg g.wg).core, wg := g.wg, tids := i0 :: tids, pc := g.pc, word := w, slot := slot }
    (∀ i u, decode w = .ok i → s2.fuses c i = [] → exec i { s2 with cur := some c } = .next u → s2.heldAs u c = false →
      step s = .next { (if s2.stands u c then u.noteTaken c slot else u.noteIssue c slot) with cur := none }) ∧
    (∀ e, decode w = .error e → step s = .next { (({ s2 with cur := some c }).illegal c).noteIssue c slot with cur := none })) ∧
  (∀ i, s.turns = .event i :: rest → encode i = none →
    step s = match exec i { t with cur := none } with
      | .next u => .next { u with cur := none }
      | .fault f => .fault f
      | .refused r => .refused r) ∧
  (∀ p core slot, s.turns = .issue p core slot :: rest → t.ordered (coreKey p core) = [] → step s = .next { t with cur := none })

/-- 11_memories R200, 24_host R366: no step stops the machine, and every step keeps the canonical form of memory. This says of every instruction
and every event, on every state with canonical memory, that it has an effect. -/
def Obligations.StepKeepsMemory : Prop := ∀ (s : State), s.MemOk → ∃ u, step s = .next u ∧ u.MemOk

/-- 04_registers R73, R78, R80, 08_planes R140, 15_counters R260, 18_queues R282, 22_links R329, 24_host R363, R366: what the inventories say of a
reset. No byte but of the CXL tier has another value than zero, every tag is full, nothing is poisoned; every register of the host's block, of a
package, a die, a core and a fibre has its reset value; no launch, gang, workgroup, thread, access or message stands. The CXL tier
reads zero too: that, of all these, is the model's choice (log entry 3). -/
def Obligations.ResetLeaves : Prop :=
  State.reset.MemOk ∧
  (∀ a, readByte State.reset.mem a = 0) ∧ (∀ w, State.reset.isFull w = true) ∧ (∀ a n, State.reset.isPoisoned a n = false) ∧
  (∀ p, let g := State.reset.pkg p
    g.bootst = 0 ∧ g.fbbase = 0 ∧ g.fbsize = 0 ∧ g.fbhead = 0 ∧ g.fbtail = 0 ∧ g.fbfull = false ∧ g.gen = 0 ∧ g.dryfrac = 0 ∧
    g.pwrcap = 2800 ∧ g.clock = 0 ∧ g.checks = [] ∧ g.podt = 0 ∧ g.slots = [⟨10000, 400, List.replicate 32 none⟩] ∧ g.staged = none ∧
    g.slotIdx = 0 ∧ g.slotStart = 0 ∧ g.standq = [] ∧ g.rotq = []) ∧
  (∀ f, let r := State.reset.fn f
    r.lqbase = 0 ∧ r.lqctl = 0 ∧ r.eqbase = 0 ∧ r.eqctl = 0 ∧ r.mbqbase = 0 ∧ r.mbrbase = 0 ∧ r.mbctl = 0 ∧ r.ptroot = 0 ∧ r.priv = 0 ∧
    r.place = []) ∧
  (∀ d, let r := State.reset.die d
    r.vec = ⟨0, 0, 0, 0⟩ ∧ r.tlb = [] ∧ r.filter = [] ∧ r.faults = [] ∧ r.redq = [] ∧ r.gated = []) ∧
  (∀ k, let r := State.reset.core k
    (∀ a < 8, r.accAt a = fun _ _ => 0) ∧ r.aov = 0 ∧ r.apoi = 0 ∧ r.td = List.replicate 16 0 ∧ r.pq = [] ∧ r.wptr = List.replicate 8 0 ∧
    r.dqbase = 0 ∧ r.dqlimit = 0 ∧ r.deque = [] ∧ r.dbgctl = 0 ∧ r.brkpc = [0, 0, 0, 0] ∧ r.watchLo = 0 ∧ r.watchHi = 0 ∧ r.susp = 0 ∧
    r.dropped = 0 ∧ r.perf = List.replicate 13 0 ∧ r.clean = 0 ∧ r.quar = false ∧ r.tseq = 0 ∧ r.chans = List.replicate 8 [] ∧ r.loops = [] ∧
    r.fwd = List.replicate 4 [] ∧ r.rings = [] ∧ r.land = []) ∧
  (∀ f, let r := State.reset.fibre f
    r.active = 0xFFFF ∧ r.parked = 0 ∧ r.failed = 0 ∧ r.epoch = 0 ∧ r.dc = 0 ∧ r.buf = []) ∧
  State.reset.ctxs = [] ∧ State.reset.gangs = [] ∧ State.reset.wgs = [] ∧ State.reset.threads = [] ∧ State.reset.accs = [] ∧
  State.reset.notices = [] ∧ State.reset.msgs = [] ∧ State.reset.fwds = [] ∧ State.reset.cmds = [] ∧ State.reset.colls = []
end

