-- ==== Sys2Proof/Laws/Codec.lean ====
section
/-! SUPPORT. Laws of the field codes: each code reads back as what was written, and a code that reads as a value is the one that the
value is written with. -/

namespace Sys2Proof

/-! ### Words and fields -/

@[simp] theorem FF.of_word (f : FF) : FF.of f.word = f := by
  obtain ⟨op, d, a, b, sm, g, x⟩ := f
  simp only [FF.of, FF.word, FF.mk.injEq]
  refine ⟨?_, ?_, ?_, ?_, ?_, ?_, ?_⟩ <;> apply BitVec.eq_of_getLsbD_eq <;> intro i hi <;>
    simp only [BitVec.getLsbD_extractLsb', BitVec.getLsbD_append, hi, decide_true, Bool.true_and] <;>
    repeat' split
  all_goals first | omega | (congr 1; omega)

@[simp] theorem FF.word_63 (f : FF) : f.word.getLsbD 63 = false := by
  simp only [FF.word, BitVec.getLsbD_append]; repeat' split
  all_goals first | omega | simp

/-- Bit `i` of a field, at its place in the word. -/
theorem bit_at {m : Nat} {w : BitVec m} {n a b i : Nat} (hb : b < n) (h : a + b = i) :
    (decide (b < n) && w.getLsbD (a + b)) = w.getLsbD i := by subst h; simp [hb]

theorem FF.word_of {w : W64} (h : w.getLsbD 63 = false) : (FF.of w).word = w := by
  apply BitVec.eq_of_getLsbD_eq; intro i hi
  simp only [FF.of, FF.word, BitVec.getLsbD_extractLsb', BitVec.getLsbD_append]
  repeat' split
  all_goals first
    | exact bit_at (by omega) (by omega)
    | (rw [show i = 63 by omega, h]; simp)

@[simp] theorem IF.of_word (f : IF) : IF.of f.word = f := by
  obtain ⟨op, d, a, g, v⟩ := f
  simp only [IF.of, IF.word, IF.mk.injEq]
  refine ⟨?_, ?_, ?_, ?_, ?_⟩ <;> apply BitVec.eq_of_getLsbD_eq <;> intro i hi <;>
    simp only [BitVec.getLsbD_extractLsb', BitVec.getLsbD_append, hi, decide_true, Bool.true_and] <;>
    repeat' split
  all_goals first | omega | (congr 1; omega)

@[simp] theorem IF.word_63 (f : IF) : f.word.getLsbD 63 = false := by
  simp only [IF.word, BitVec.getLsbD_append]; repeat' split
  all_goals first | omega | simp

theorem IF.word_of {w : W64} (h : w.getLsbD 63 = false) : (IF.of w).word = w := by
  apply BitVec.eq_of_getLsbD_eq; intro i hi
  simp only [IF.of, IF.word, BitVec.getLsbD_extractLsb', BitVec.getLsbD_append]
  repeat' split
  all_goals first
    | exact bit_at (by omega) (by omega)
    | (rw [show i = 63 by omega, h]; simp)

/-- The opcode stands in the same place in both layouts. -/
@[simp] theorem FF.of_word_op (f : IF) : (FF.of f.word).op = f.op := by
  have : (FF.of f.word).op = (IF.of f.word).op := rfl
  rw [this, IF.of_word]

@[simp] theorem IF.of_word_op (f : FF) : (IF.of f.word).op = f.op := by
  have : (IF.of f.word).op = (FF.of f.word).op := rfl
  rw [this, FF.of_word]

@[simp] theorem XF.of_bits (x : XF) : XF.of x.bits = x := by
  obtain ⟨w, s, r, t, l⟩ := x
  simp only [XF.of, XF.bits, XF.mk.injEq]
  refine ⟨?_, ?_, ?_, ?_, ?_⟩
  all_goals try (apply BitVec.eq_of_getLsbD_eq; intro i hi)
  all_goals simp only [BitVec.getLsbD_extractLsb', BitVec.getLsbD_append, *, decide_true, Bool.true_and]
  all_goals repeat' split
  all_goals first | omega | (congr 1; omega) | simp

/-! ### Slices of words put together

The widths are written so that simp finds them whichever way a sum of widths has been reduced. -/

theorem extract_lo {m n : Nat} (a : BitVec m) (b : BitVec n) (s k : Nat) (h : s + k ≤ n) :
    BitVec.extractLsb' (n := no_index (m + n)) s k
      (@HAppend.hAppend (BitVec m) (BitVec n) (no_index (BitVec (m + n))) (no_index inferInstance) a b) = b.extractLsb' s k := by
  show BitVec.extractLsb' s k (a ++ b) = _
  apply BitVec.eq_of_getLsbD_eq; intro i hi
  simp only [BitVec.getLsbD_extractLsb', BitVec.getLsbD_append]
  rw [if_pos (by omega)]

theorem extract_hi {m n : Nat} (a : BitVec m) (b : BitVec n) (s k : Nat) (h : n ≤ s) :
    BitVec.extractLsb' (n := no_index (m + n)) s k
      (@HAppend.hAppend (BitVec m) (BitVec n) (no_index (BitVec (m + n))) (no_index inferInstance) a b) =
    a.extractLsb' (s - n) k := by
  show BitVec.extractLsb' s k (a ++ b) = _
  apply BitVec.eq_of_getLsbD_eq; intro i hi
  simp only [BitVec.getLsbD_extractLsb', BitVec.getLsbD_append]
  rw [if_neg (by omega), show s + i - n = s - n + i by omega]

theorem bit_lo {m n : Nat} (a : BitVec m) (b : BitVec n) (i : Nat) (h : i < n) :
    BitVec.getLsbD (w := no_index (m + n))
      (@HAppend.hAppend (BitVec m) (BitVec n) (no_index (BitVec (m + n))) (no_index inferInstance) a b) i = b.getLsbD i := by
  show (a ++ b).getLsbD i = _
  rw [BitVec.getLsbD_append, if_pos h]

theorem bit_hi {m n : Nat} (a : BitVec m) (b : BitVec n) (i : Nat) (h : n ≤ i) :
    BitVec.getLsbD (w := no_index (m + n))
      (@HAppend.hAppend (BitVec m) (BitVec n) (no_index (BitVec (m + n))) (no_index inferInstance) a b) i = a.getLsbD (i - n) := by
  show (a ++ b).getLsbD i = _
  rw [BitVec.getLsbD_append, if_neg (by omega)]

@[simp] theorem extract_full {n : Nat} (b : BitVec n) : b.extractLsb' 0 n = b := by
  apply BitVec.eq_of_getLsbD_eq; intro i hi; simp [hi]

@[simp] theorem bit_ofBool (b : Bool) : (BitVec.ofBool b).getLsbD 0 = b := by cases b <;> rfl

/-! ### Steps of the decoder -/

@[simp] theorem need_true (r : Reject) : need true r = .ok () := rfl

@[simp] theorem need_beq {α : Type} [BEq α] [LawfulBEq α] (a : α) (r : Reject) : need (a == a) r = .ok () := by simp [need]

@[simp] theorem ok_bind {α β : Type} (a : α) (f : α → Dec β) : ((Except.ok a : Dec α) >>= f) = f a := rfl

/-! ### Small codes -/

/-- A code is rejected, or what it reads as passes `p`. -/
def readsBack {α : Type} (p : α → Bool) : Dec α → Bool
  | .ok v => p v
  | .error _ => true

theorem code_of {α : Type} {n : Nat} {dec : BitVec n → Dec α} {enc : α → BitVec n}
    (hall : ∀ c, readsBack (enc · == c) (dec c) = true) {c : BitVec n} {v : α} (h : dec c = .ok v) : enc v = c := by
  have := hall c; rw [h] at this; exact eq_of_beq this

@[simp] theorem decW_encW (v : Width) : decW (encW v) = v := by cases v <;> rfl

@[simp] theorem encW_decW (c : BitVec 2) : encW (decW c) = c := by revert c; decide

@[simp] theorem decShM_encShM (v : ShMode) : decShM (encShM v) = v := by cases v <;> rfl

@[simp] theorem encShM_decShM (c : BitVec 2) : encShM (decShM c) = c := by revert c; decide

@[simp] theorem decFCond_encFCond (v : FCond) : decFCond (encFCond v) = v := by cases v <;> rfl

@[simp] theorem encFCond_decFCond (c : BitVec 3) : encFCond (decFCond c) = c := by revert c; decide

@[simp] theorem decW2_encW2 (v : W2) : decW2 (encW2 v) = .ok v := by cases v <;> rfl

theorem encW2_of_decW2 {c : BitVec 2} {v : W2} (h : decW2 c = .ok v) : encW2 v = c :=
  code_of (by decide : ∀ c : BitVec 2, readsBack (encW2 · == c) (decW2 c) = true) h

@[simp] theorem decF2c_encF2c (v : FFmt) : decF2c (encF2c v) = .ok v := by cases v <;> rfl

theorem encF2c_of_decF2c {c : BitVec 2} {v : FFmt} (h : decF2c c = .ok v) : encF2c v = c :=
  code_of (by decide : ∀ c : BitVec 2, readsBack (encF2c · == c) (decF2c c) = true) h

@[simp] theorem decNF_encNF (v : NFmt) : decNF (encNF v) = .ok v := by cases v <;> rfl

theorem encNF_of_decNF {c : BitVec 3} {v : NFmt} (h : decNF c = .ok v) : encNF v = c :=
  code_of (by decide : ∀ c : BitVec 3, readsBack (encNF · == c) (decNF c) = true) h

@[simp] theorem decRM_encRM (v : RM) : decRM (encRM v) = .ok v := by cases v <;> rfl

theorem encRM_of_decRM {c : BitVec 3} {v : RM} (h : decRM c = .ok v) : encRM v = c :=
  code_of (by decide : ∀ c : BitVec 3, readsBack (encRM · == c) (decRM c) = true) h

@[simp] theorem decOrd_encOrd (v : MOrd) : decOrd (encOrd v) = .ok v := by cases v <;> rfl

theorem encOrd_of_decOrd {c : BitVec 3} {v : MOrd} (h : decOrd c = .ok v) : encOrd v = c :=
  code_of (by decide : ∀ c : BitVec 3, readsBack (encOrd · == c) (decOrd c) = true) h

@[simp] theorem decSc_encSc (v : Scope) : decSc (encSc v) = .ok v := by cases v <;> rfl

theorem encSc_of_decSc {c : BitVec 3} {v : Scope} (h : decSc c = .ok v) : encSc v = c :=
  code_of (by decide : ∀ c : BitVec 3, readsBack (encSc · == c) (decSc c) = true) h

@[simp] theorem decCond_encCond (v : ICond) : decCond (encCond v) = .ok v := by cases v <;> rfl

theorem encCond_of_decCond {c : BitVec 3} {v : ICond} (h : decCond c = .ok v) : encCond v = c :=
  code_of (by decide : ∀ c : BitVec 3, readsBack (encCond · == c) (decCond c) = true) h

@[simp] theorem decBCond_encBCond (v : BCond) : decBCond (encBCond v) = .ok v := by cases v <;> rfl

theorem encBCond_of_decBCond {c : BitVec 8} {v : BCond} (h : decBCond c = .ok v) : encBCond v = c :=
  code_of (by decide : ∀ c : BitVec 8, readsBack (encBCond · == c) (decBCond c) = true) h

@[simp] theorem decLOp_encLOp (v : LOp) : decLOp (encLOp v) = .ok v := by cases v <;> rfl

theorem encLOp_of_decLOp {c : BitVec 3} {v : LOp} (h : decLOp c = .ok v) : encLOp v = c :=
  code_of (by decide : ∀ c : BitVec 3, readsBack (encLOp · == c) (decLOp c) = true) h

@[simp] theorem decVC_encVC (v : VCnt) : decVC (encVC v) = .ok v := by cases v <;> rfl

theorem encVC_of_decVC {c : BitVec 2} {v : VCnt} (h : decVC c = .ok v) : encVC v = c :=
  code_of (by decide : ∀ c : BitVec 2, readsBack (encVC · == c) (decVC c) = true) h

@[simp] theorem decAOp_encAOp (v : AOp) : decAOp (encAOp v) = .ok v := by cases v <;> rfl

theorem encAOp_of_decAOp {c : BitVec 4} {v : AOp} (h : decAOp c = .ok v) : encAOp v = c :=
  code_of (by decide : ∀ c : BitVec 4, readsBack (encAOp · == c) (decAOp c) = true) h

@[simp] theorem decAK_encAK (v : AKind) : decAK (encAK v) = .ok v := by cases v <;> rfl

theorem encAK_of_decAK {c : BitVec 2} {v : AKind} (h : decAK c = .ok v) : encAK v = c :=
  code_of (by decide : ∀ c : BitVec 2, readsBack (encAK · == c) (decAK c) = true) h

@[simp] theorem decPart_encPart (v : IncPart) : decPart (encPart v) = .ok v := by cases v <;> rfl

theorem encPart_of_decPart {c : BitVec 2} {v : IncPart} (h : decPart c = .ok v) : encPart v = c :=
  code_of (by decide : ∀ c : BitVec 2, readsBack (encPart · == c) (decPart c) = true) h

@[simp] theorem decHop_encHop (v : HOp) : decHop (encHop v) = .ok v := by cases v <;> rfl

theorem encHop_of_decHop {c : BitVec 7} {v : HOp} (h : decHop c = .ok v) : encHop v = c :=
  code_of (by decide : ∀ c : BitVec 7, readsBack (encHop · == c) (decHop c) = true) h

@[simp] theorem decFF_encFF (f : FFmt) : decFF (encFF f).1 (encFF f).2 = .ok f := by cases f <;> rfl

theorem encFF_of_decFF {c : BitVec 2} {s : Bool} {f : FFmt} (h : decFF c s = .ok f) : encFF f = (c, s) := by
  have hall : ∀ (c : BitVec 2) (s : Bool), readsBack (encFF · == (c, s)) (decFF c s) = true := by decide
  have := hall c s; rw [h] at this; exact eq_of_beq this

/-! ### Operand codes -/

@[simp] theorem decX_encX (n : XReg) : decX (encX n) = .ok n := by revert n; decide

theorem encX_of_decX {c : BitVec 8} {n : XReg} (h : decX c = .ok n) : encX n = c :=
  code_of (by decide : ∀ c : BitVec 8, readsBack (encX · == c) (decX c) = true) h

@[simp] theorem decK_encK (n : KReg) : decK (encK n) = .ok n := by revert n; decide

theorem encK_of_decK {c : BitVec 8} {n : KReg} (h : decK c = .ok n) : encK n = c :=
  code_of (by decide : ∀ c : BitVec 8, readsBack (encK · == c) (decK c) = true) h

@[simp] theorem decA_encA (n : AReg) : decA (encA n) = .ok n := by revert n; decide

theorem encA_of_decA {c : BitVec 8} {n : AReg} (h : decA c = .ok n) : encA n = c :=
  code_of (by decide : ∀ c : BitVec 8, readsBack (encA · == c) (decA c) = true) h

@[simp] theorem decQ_encQ (n : QReg) : decQ (encQ n) = .ok n := by revert n; decide

theorem encQ_of_decQ {c : BitVec 8} {n : QReg} (h : decQ c = .ok n) : encQ n = c :=
  code_of (by decide : ∀ c : BitVec 8, readsBack (encQ · == c) (decQ c) = true) h

@[simp] theorem decOp_encOp (o : Opnd) : decOp (encOp o) = .ok o := by
  cases o with
  | x n => revert n; decide
  | k n => revert n; decide
  | imm v => revert v; decide
  | zero => rfl
  | lane => rfl
  | gwidth => rfl
  | tid => rfl

theorem encOp_of_decOp {c : BitVec 8} {o : Opnd} (h : decOp c = .ok o) : encOp o = c :=
  code_of (by decide : ∀ c : BitVec 8, readsBack (encOp · == c) (decOp c) = true) h

@[simp] theorem decBase_encBase (b : Base) : decBase (encBase b) = .ok b := by
  cases b with
  | x n => revert n; decide
  | k n => revert n; decide

theorem encBase_of_decBase {c : BitVec 8} {b : Base} (h : decBase c = .ok b) : encBase b = c :=
  code_of (by decide : ∀ c : BitVec 8, readsBack (encBase · == c) (decBase c) = true) h

@[simp] theorem decDst_encDst (b : Dst) : decDst (encDst b) = .ok b := by
  cases b with
  | x n => revert n; decide
  | k n => revert n; decide

theorem encDst_of_decDst {c : BitVec 8} {b : Dst} (h : decDst c = .ok b) : encDst b = c :=
  code_of (by decide : ∀ c : BitVec 8, readsBack (encDst · == c) (decDst c) = true) h

@[simp] theorem decG_encG (g : Guard) : decG (encG g) = g := by
  obtain ⟨n, q⟩ := g; revert q; revert n; decide

@[simp] theorem encG_decG (c : BitVec 4) : encG (decG c) = c := by revert c; decide

@[simp] theorem decSM_encSM (m : Option SMod) : decSM (encSM m) = .ok m := by
  cases m with
  | none => rfl
  | some m =>
    obtain ⟨c, r, s, d⟩ := m
    cases c <;> simp (disch := omega) [decSM, encSM, -BitVec.getLsbD_eq_getElem, extract_lo, extract_hi, bit_lo, bit_hi]

/-- A modifier field is its class, rel, s and d. -/
theorem smod_parts (c : BitVec 12) :
    c.extractLsb' 10 2 ++ BitVec.ofBool (c.getLsbD 9) ++ c.extractLsb' 5 4 ++ c.extractLsb' 0 5 = c := by
  apply BitVec.eq_of_getLsbD_eq; intro i hi
  simp only [BitVec.getLsbD_append, BitVec.getLsbD_extractLsb']
  repeat' split
  all_goals first
    | exact bit_at (by omega) (by omega)
    | (rw [show i = 9 by omega]; simp)

theorem encSM_of_decSM {c : BitVec 12} {m : Option SMod} (h : decSM c = .ok m) : encSM m = c := by
  have hp := smod_parts c
  unfold decSM at h
  split at h
  · split at h
    · next hc => cases h; exact hc.symm
    · cases h
  · next hn => cases h; rw [show c.extractLsb' 10 2 = 1#2 from BitVec.eq_of_toNat_eq hn] at hp; exact hp
  · next hn => cases h; rw [show c.extractLsb' 10 2 = 2#2 from BitVec.eq_of_toNat_eq hn] at hp; exact hp
  · next h0 h1 h2 =>
    cases h
    have : (c.extractLsb' 10 2).toNat < 4 := (c.extractLsb' 10 2).isLt
    have h3 : (c.extractLsb' 10 2).toNat = 3 := by
      generalize (c.extractLsb' 10 2).toNat = n at *
      match n, h0, h1, h2, this with
      | 3, _, _, _, _ => rfl
      | 0, h, _, _, _ => exact absurd rfl h
      | 1, _, h, _, _ => exact absurd rfl h
      | 2, _, _, h, _ => exact absurd rfl h
      | n + 4, _, _, _, h => omega
    rw [show c.extractLsb' 10 2 = 3#2 from BitVec.eq_of_toNat_eq h3] at hp; exact hp

@[simp] theorem decSS_encSS {n : Option (BitVec 3)} (h : n ≠ some 7) : decSS (encSS n) = .ok n := by
  cases n with
  | none => rfl
  | some n => revert h; revert n; decide

theorem encSS_of_decSS {c : BitVec 4} {n : Option (BitVec 3)} (h : decSS c = .ok n) : encSS n = c :=
  code_of (by decide : ∀ c : BitVec 4, readsBack (encSS · == c) (decSS c) = true) h

/-! ### The opcode map -/

/-- A word in the layout of the F-, M- and E-forms is decoded by its group. -/
theorem decode_FF (f : FF) : decode f.word =
    (match (f.op.extractLsb' 7 3).toNat with
    | 0 => decG0 (f.op.extractLsb' 0 7).toNat f (IF.of f.word)
    | 1 => decG1 (f.op.extractLsb' 0 7).toNat f
    | 2 => decG2 (f.op.extractLsb' 0 7).toNat f
    | 3 => decG3 (f.op.extractLsb' 0 7).toNat f
    | 4 => decG4 (f.op.extractLsb' 0 7).toNat f (IF.of f.word)
    | 5 => decG5 (f.op.extractLsb' 0 7).toNat f
    | 6 => decG6 (f.op.extractLsb' 0 7).toNat f
    | _ => decG7 (f.op.extractLsb' 0 7).toNat f (IF.of f.word)) := by
  simp only [decode, FF.word_63, FF.of_word, Bool.false_eq_true, if_false] <;> rfl

/-- A word in the layout of the I-form. -/
theorem decode_IF (f : IF) : decode f.word =
    (match (f.op.extractLsb' 7 3).toNat with
    | 0 => decG0 (f.op.extractLsb' 0 7).toNat (FF.of f.word) f
    | 1 => decG1 (f.op.extractLsb' 0 7).toNat (FF.of f.word)
    | 2 => decG2 (f.op.extractLsb' 0 7).toNat (FF.of f.word)
    | 3 => decG3 (f.op.extractLsb' 0 7).toNat (FF.of f.word)
    | 4 => decG4 (f.op.extractLsb' 0 7).toNat (FF.of f.word) f
    | 5 => decG5 (f.op.extractLsb' 0 7).toNat (FF.of f.word)
    | 6 => decG6 (f.op.extractLsb' 0 7).toNat (FF.of f.word)
    | _ => decG7 (f.op.extractLsb' 0 7).toNat (FF.of f.word) f) := by
  simp only [decode, IF.word_63, IF.of_word, FF.of_word_op, Bool.false_eq_true, if_false] <;> rfl

end Sys2Proof
end

