-- ==== Sys2Proof/Laws/Tables.lean ====
section
/-! SUPPORT. Laws of the finite tables and of the bytes of memory: a read after a write, what a write leaves alone, and that every
write keeps the canonical form. -/

namespace Sys2Proof.Machine

/-! ### Tables -/

theorem tfind_tset {α : Type} (m : Tbl α) (k j : Nat) (v : α) :
    tfind (tset m k v) j = if k = j then some v else tfind m j := by
  induction m with
  | nil => simp [tset, tfind]
  | cons p r ih =>
    obtain ⟨i, w⟩ := p
    simp only [tset]
    split
    · next h => subst h; by_cases hj : i = j <;> simp [tfind, hj]
    · split
      · by_cases hj : k = j <;> simp [tfind, hj]
      · next h _ =>
        simp only [tfind, ih]
        by_cases hi : i = j
        · subst hi; simp [Ne.symm h]
        · simp [hi]

theorem tget_tset {α : Type} (d : α) (m : Tbl α) (k j : Nat) (v : α) :
    tget d (tset m k v) j = if k = j then v else tget d m j := by
  simp only [tget, tfind_tset]; split <;> rfl

@[simp] theorem tget_tset_self {α : Type} (d : α) (m : Tbl α) (k : Nat) (v : α) : tget d (tset m k v) k = v := by
  simp [tget_tset]

theorem tget_tset_ne {α : Type} (d : α) (m : Tbl α) {k j : Nat} (v : α) (h : k ≠ j) :
    tget d (tset m k v) j = tget d m j := by
  simp [tget_tset, h]

theorem tget_tmod {α : Type} (d : α) (m : Tbl α) (k j : Nat) (f : α → α) :
    tget d (tmod d m k f) j = if k = j then f (tget d m k) else tget d m j := tget_tset ..

@[simp] theorem tget_tmod_self {α : Type} (d : α) (m : Tbl α) (k : Nat) (f : α → α) :
    tget d (tmod d m k f) k = f (tget d m k) := tget_tset_self ..

theorem tfind_tdel_ne {α : Type} (m : Tbl α) {k j : Nat} (h : k ≠ j) : tfind (tdel m k) j = tfind m j := by
  induction m with
  | nil => rfl
  | cons p r ih =>
    obtain ⟨i, w⟩ := p
    simp only [tdel]
    split
    · next hi => subst hi; simp [tfind, h]
    · simp only [tfind, ih]

/-! ### Sorted tables -/

/-- Every key of a table is above `n`. -/
def above {α : Type} (n : Nat) (m : Tbl α) : Prop := ∀ p ∈ m, n < p.1

theorem tsorted_cons {α : Type} (k : Nat) (v : α) (r : Tbl α) :
    tsorted ((k, v) :: r) = true ↔ above k r ∧ tsorted r = true := by
  induction r generalizing k v with
  | nil => simp [tsorted, above]
  | cons p r ih =>
    obtain ⟨j, w⟩ := p
    have hs : tsorted ((k, v) :: (j, w) :: r) = (decide (k < j) && tsorted ((j, w) :: r)) := rfl
    rw [hs, Bool.and_eq_true, decide_eq_true_eq]
    constructor
    · rintro ⟨hkj, hr⟩
      refine ⟨?_, hr⟩
      intro q hq
      rcases List.mem_cons.mp hq with rfl | hq
      · exact hkj
      · exact Nat.lt_trans hkj (((ih j w).mp hr).1 q hq)
    · rintro ⟨ha, hr⟩
      exact ⟨ha (j, w) (by simp), hr⟩

theorem above_tset {α : Type} {n k : Nat} {m : Tbl α} (v : α) (h : above n m) (hk : n < k) : above n (tset m k v) := by
  induction m with
  | nil => intro p hp; simp only [tset, List.mem_singleton] at hp; subst hp; exact hk
  | cons q r ih =>
    obtain ⟨i, w⟩ := q
    have hr : above n r := fun p hp => h p (List.mem_cons_of_mem _ hp)
    have hi : n < i := h (i, w) (by simp)
    simp only [tset]
    split
    · intro p hp; rcases List.mem_cons.mp hp with rfl | hp
      · exact hk
      · exact hr p hp
    · split
      · intro p hp; rcases List.mem_cons.mp hp with rfl | hp
        · exact hk
        · exact h p hp
      · intro p hp; rcases List.mem_cons.mp hp with rfl | hp
        · exact hi
        · exact ih hr p hp

theorem tsorted_tset {α : Type} {m : Tbl α} (k : Nat) (v : α) (h : tsorted m = true) : tsorted (tset m k v) = true := by
  induction m with
  | nil => rfl
  | cons q r ih =>
    obtain ⟨i, w⟩ := q
    obtain ⟨ha, hr⟩ := (tsorted_cons i w r).mp h
    simp only [tset]
    split
    · next hk => subst hk; exact (tsorted_cons _ _ _).mpr ⟨ha, hr⟩
    · split
      · next hk =>
        refine (tsorted_cons _ _ _).mpr ⟨?_, h⟩
        intro p hp; rcases List.mem_cons.mp hp with rfl | hp
        · exact hk
        · exact Nat.lt_trans hk (ha p hp)
      · next h1 h2 => exact (tsorted_cons _ _ _).mpr ⟨above_tset v ha (by omega), ih hr⟩

theorem mem_of_mem_tdel {α : Type} {m : Tbl α} {k : Nat} {p : Nat × α} (h : p ∈ tdel m k) : p ∈ m := by
  induction m with
  | nil => cases h
  | cons q r ih =>
    simp only [tdel] at h
    split at h
    · exact List.mem_cons_of_mem _ h
    · rcases List.mem_cons.mp h with rfl | h
      · simp
      · exact List.mem_cons_of_mem _ (ih h)

theorem tsorted_tdel {α : Type} {m : Tbl α} (k : Nat) (h : tsorted m = true) : tsorted (tdel m k) = true := by
  induction m with
  | nil => rfl
  | cons q r ih =>
    obtain ⟨i, w⟩ := q
    obtain ⟨ha, hr⟩ := (tsorted_cons i w r).mp h
    simp only [tdel]
    split
    · exact hr
    · exact (tsorted_cons _ _ _).mpr ⟨fun p hp => ha p (mem_of_mem_tdel hp), ih hr⟩

theorem tfind_above {α : Type} {m : Tbl α} {k : Nat} (h : above k m) : tfind m k = none := by
  induction m with
  | nil => rfl
  | cons q r ih =>
    obtain ⟨i, w⟩ := q
    have hi : k < i := h (i, w) (by simp)
    simp only [tfind, Nat.ne_of_gt hi, if_false]
    exact ih fun p hp => h p (List.mem_cons_of_mem _ hp)

theorem tfind_tdel_self {α : Type} {m : Tbl α} (k : Nat) (h : tsorted m = true) : tfind (tdel m k) k = none := by
  induction m with
  | nil => rfl
  | cons q r ih =>
    obtain ⟨i, w⟩ := q
    obtain ⟨ha, hr⟩ := (tsorted_cons i w r).mp h
    simp only [tdel]
    split
    · next hi => subst hi; exact tfind_above ha
    · next hi => simp only [tfind, hi, if_false]; exact ih hr

/-! ### Bytes -/

theorem mem_tset {α : Type} {m : Tbl α} {k : Nat} {v : α} {p : Nat × α} (h : p ∈ tset m k v) : p = (k, v) ∨ p ∈ m := by
  induction m with
  | nil => simp only [tset, List.mem_singleton] at h; exact .inl h
  | cons q r ih =>
    obtain ⟨i, w⟩ := q
    simp only [tset] at h
    split at h
    · rcases List.mem_cons.mp h with h | h
      · exact .inl h
      · exact .inr (List.mem_cons_of_mem _ h)
    · split at h
      · rcases List.mem_cons.mp h with h | h
        · exact .inl h
        · exact .inr h
      · rcases List.mem_cons.mp h with h | h
        · exact .inr (by simp [h])
        · exact (ih h).imp id (List.mem_cons_of_mem _)

theorem wf_iff (m : List Host.Cell) :
    Memory.wf m = true ↔ tsorted m = true ∧ ∀ c ∈ m, c.2 ≠ unlisted := by
  simp [Memory.wf, List.all_eq_true]

/-- Writing a byte keeps the canonical form. -/
theorem wf_writeByte {m : List Host.Cell} (a : Nat) (v : Byte) (h : Memory.wf m = true) :
    Memory.wf (writeByte m a v) = true := by
  obtain ⟨hs, hn⟩ := (wf_iff m).mp h
  unfold writeByte
  split
  · exact (wf_iff _).mpr ⟨tsorted_tdel a hs, fun c hc => hn c (mem_of_mem_tdel hc)⟩
  · next hv =>
    refine (wf_iff _).mpr ⟨tsorted_tset a v hs, fun c hc => ?_⟩
    rcases mem_tset hc with rfl | hc
    · exact hv
    · exact hn c hc

/-- Writing bytes keeps the canonical form. -/
@[simp] theorem wf_writeBytes {m : List Host.Cell} (a : Nat) (b : List Byte) (h : Memory.wf m = true) :
    Memory.wf (writeBytes m a b) = true := by
  induction b generalizing m a with
  | nil => exact h
  | cons v r ih => exact ih (a + 1) (wf_writeByte a v h)

/-- Writing a word keeps the canonical form. -/
@[simp] theorem wf_writeWord {m : List Host.Cell} (w : Nat) (v : W64) (h : Memory.wf m = true) :
    Memory.wf (writeWord m w v) = true := wf_writeBytes _ _ h

/-- A byte write leaves every other byte alone. -/
theorem readByte_writeByte_ne (m : List Host.Cell) {a b : Nat} (v : Byte) (h : a ≠ b) :
    readByte (writeByte m a v) b = readByte m b := by
  unfold readByte writeByte tget
  split
  · rw [tfind_tdel_ne m h]
  · rw [tfind_tset, if_neg h]

/-- A byte reads as what was last written to it. -/
theorem readByte_writeByte_self {m : List Host.Cell} (a : Nat) (v : Byte) (h : Memory.wf m = true) :
    readByte (writeByte m a v) a = v := by
  unfold readByte writeByte tget
  split
  · next hv => subst hv; rw [tfind_tdel_self a ((wf_iff m).mp h).1]; rfl
  · rw [tfind_tset, if_pos rfl]; rfl

/-- A write of bytes leaves every byte outside them alone. -/
theorem readByte_writeBytes_out (m : List Host.Cell) (a : Nat) (l : List Byte) (b : Nat)
    (h : b < a ∨ a + l.length ≤ b) : readByte (writeBytes m a l) b = readByte m b := by
  induction l generalizing m a with
  | nil => rfl
  | cons v r ih =>
    have hl : a + r.length + 1 ≤ b ∨ b < a := by simp only [List.length_cons] at h; omega
    rw [writeBytes, ih _ _ (by omega), readByte_writeByte_ne]
    omega

/-- A byte within written bytes reads as written. -/
theorem readByte_writeBytes_in {m : List Host.Cell} (a : Nat) (l : List Byte) (i : Nat) (h : Memory.wf m = true)
    (hi : i < l.length) : readByte (writeBytes m a l) (a + i) = l.getD i unlisted := by
  induction l generalizing m a i with
  | nil => simp at hi
  | cons v r ih =>
    have hw : Memory.wf (writeByte m a v) = true := wf_writeByte a v h
    cases i with
    | zero =>
      rw [writeBytes, readByte_writeBytes_out _ _ _ _ (by omega)]
      exact readByte_writeByte_self a v h
    | succ i =>
      have hr : i < r.length := by simpa using hi
      have := ih (m := writeByte m a v) (a + 1) i hw hr
      rw [writeBytes, show a + (i + 1) = a + 1 + i by omega, this]
      rfl

@[simp] theorem length_natLe (n v : Nat) : (natLe n v).length = n := by
  induction n generalizing v with
  | zero => rfl
  | succ n ih => simp [natLe, ih]

@[simp] theorem length_readBytes (m : List Host.Cell) (a n : Nat) : (readBytes m a n).length = n := by
  induction n generalizing a with
  | zero => rfl
  | succ n ih => simp [readBytes, ih]

end Sys2Proof.Machine
end

