-- ==== Sys2Proof/Laws/State.lean ====
section
/-! SUPPORT. What each update of one table of the state leaves in every other field, and what it puts into its own. -/

namespace Sys2Proof.Machine

variable (s : State) (k j n i : Nat)

/-! ### modPkg -/

@[simp] theorem State.modPkg_self (f : Pkg → Pkg) : (s.modPkg k f).pkg k = f (s.pkg k) := tget_tmod_self ..

theorem State.modPkg_pkg (f : Pkg → Pkg) : (s.modPkg k f).pkg j = if k = j then f (s.pkg k) else s.pkg j := tget_tmod ..

@[simp] theorem State.modPkg_mem (f : Pkg → Pkg) : (s.modPkg k f).mem = s.mem := rfl
@[simp] theorem State.modPkg_empties (f : Pkg → Pkg) : (s.modPkg k f).empties = s.empties := rfl
@[simp] theorem State.modPkg_poison (f : Pkg → Pkg) : (s.modPkg k f).poison = s.poison := rfl
@[simp] theorem State.modPkg_views (f : Pkg → Pkg) : (s.modPkg k f).views = s.views := rfl
@[simp] theorem State.modPkg_homeVer (f : Pkg → Pkg) : (s.modPkg k f).homeVer = s.homeVer := rfl
@[simp] theorem State.modPkg_viewVer (f : Pkg → Pkg) : (s.modPkg k f).viewVer = s.viewVer := rfl
@[simp] theorem State.modPkg_wordVec (f : Pkg → Pkg) : (s.modPkg k f).wordVec = s.wordVec := rfl
@[simp] theorem State.modPkg_dies (f : Pkg → Pkg) : (s.modPkg k f).dies = s.dies := rfl
@[simp] theorem State.modPkg_quads (f : Pkg → Pkg) : (s.modPkg k f).quads = s.quads := rfl
@[simp] theorem State.modPkg_cores (f : Pkg → Pkg) : (s.modPkg k f).cores = s.cores := rfl
@[simp] theorem State.modPkg_units (f : Pkg → Pkg) : (s.modPkg k f).units = s.units := rfl
@[simp] theorem State.modPkg_fns (f : Pkg → Pkg) : (s.modPkg k f).fns = s.fns := rfl
@[simp] theorem State.modPkg_ctxs (f : Pkg → Pkg) : (s.modPkg k f).ctxs = s.ctxs := rfl
@[simp] theorem State.modPkg_homes (f : Pkg → Pkg) : (s.modPkg k f).homes = s.homes := rfl
@[simp] theorem State.modPkg_fibres (f : Pkg → Pkg) : (s.modPkg k f).fibres = s.fibres := rfl
@[simp] theorem State.modPkg_circuits (f : Pkg → Pkg) : (s.modPkg k f).circuits = s.circuits := rfl
@[simp] theorem State.modPkg_gangs (f : Pkg → Pkg) : (s.modPkg k f).gangs = s.gangs := rfl
@[simp] theorem State.modPkg_wgs (f : Pkg → Pkg) : (s.modPkg k f).wgs = s.wgs := rfl
@[simp] theorem State.modPkg_threads (f : Pkg → Pkg) : (s.modPkg k f).threads = s.threads := rfl
@[simp] theorem State.modPkg_accs (f : Pkg → Pkg) : (s.modPkg k f).accs = s.accs := rfl
@[simp] theorem State.modPkg_notices (f : Pkg → Pkg) : (s.modPkg k f).notices = s.notices := rfl
@[simp] theorem State.modPkg_offers (f : Pkg → Pkg) : (s.modPkg k f).offers = s.offers := rfl
@[simp] theorem State.modPkg_sillage (f : Pkg → Pkg) : (s.modPkg k f).sillage = s.sillage := rfl
@[simp] theorem State.modPkg_msgs (f : Pkg → Pkg) : (s.modPkg k f).msgs = s.msgs := rfl
@[simp] theorem State.modPkg_severed (f : Pkg → Pkg) : (s.modPkg k f).severed = s.severed := rfl
@[simp] theorem State.modPkg_fwds (f : Pkg → Pkg) : (s.modPkg k f).fwds = s.fwds := rfl
@[simp] theorem State.modPkg_cmds (f : Pkg → Pkg) : (s.modPkg k f).cmds = s.cmds := rfl
@[simp] theorem State.modPkg_colls (f : Pkg → Pkg) : (s.modPkg k f).colls = s.colls := rfl
@[simp] theorem State.modPkg_deliveries (f : Pkg → Pkg) : (s.modPkg k f).deliveries = s.deliveries := rfl
@[simp] theorem State.modPkg_pods (f : Pkg → Pkg) : (s.modPkg k f).pods = s.pods := rfl
@[simp] theorem State.modPkg_cur (f : Pkg → Pkg) : (s.modPkg k f).cur = s.cur := rfl
@[simp] theorem State.modPkg_turns (f : Pkg → Pkg) : (s.modPkg k f).turns = s.turns := rfl
@[simp] theorem State.modPkg_tick (f : Pkg → Pkg) : (s.modPkg k f).tick = s.tick := rfl
@[simp] theorem State.modPkg_nextId (f : Pkg → Pkg) : (s.modPkg k f).nextId = s.nextId := rfl
@[simp] theorem State.modPkg_die (f : Pkg → Pkg) : (s.modPkg k f).die j = s.die j := rfl
@[simp] theorem State.modPkg_quad (f : Pkg → Pkg) : (s.modPkg k f).quad j = s.quad j := rfl
@[simp] theorem State.modPkg_core (f : Pkg → Pkg) : (s.modPkg k f).core j = s.core j := rfl
@[simp] theorem State.modPkg_unit (f : Pkg → Pkg) : (s.modPkg k f).unit j = s.unit j := rfl
@[simp] theorem State.modPkg_fn (f : Pkg → Pkg) : (s.modPkg k f).fn j = s.fn j := rfl
@[simp] theorem State.modPkg_fibre (f : Pkg → Pkg) : (s.modPkg k f).fibre j = s.fibre j := rfl
@[simp] theorem State.modPkg_ctx (f : Pkg → Pkg) : (s.modPkg k f).ctx j = s.ctx j := rfl
@[simp] theorem State.modPkg_gang (f : Pkg → Pkg) : (s.modPkg k f).gang j = s.gang j := rfl
@[simp] theorem State.modPkg_wg (f : Pkg → Pkg) : (s.modPkg k f).wg j = s.wg j := rfl
@[simp] theorem State.modPkg_thr (f : Pkg → Pkg) : (s.modPkg k f).thr j = s.thr j := rfl

/-! ### modDie -/

@[simp] theorem State.modDie_self (f : Die → Die) : (s.modDie k f).die k = f (s.die k) := tget_tmod_self ..

theorem State.modDie_die (f : Die → Die) : (s.modDie k f).die j = if k = j then f (s.die k) else s.die j := tget_tmod ..

@[simp] theorem State.modDie_mem (f : Die → Die) : (s.modDie k f).mem = s.mem := rfl
@[simp] theorem State.modDie_empties (f : Die → Die) : (s.modDie k f).empties = s.empties := rfl
@[simp] theorem State.modDie_poison (f : Die → Die) : (s.modDie k f).poison = s.poison := rfl
@[simp] theorem State.modDie_views (f : Die → Die) : (s.modDie k f).views = s.views := rfl
@[simp] theorem State.modDie_homeVer (f : Die → Die) : (s.modDie k f).homeVer = s.homeVer := rfl
@[simp] theorem State.modDie_viewVer (f : Die → Die) : (s.modDie k f).viewVer = s.viewVer := rfl
@[simp] theorem State.modDie_wordVec (f : Die → Die) : (s.modDie k f).wordVec = s.wordVec := rfl
@[simp] theorem State.modDie_pkgs (f : Die → Die) : (s.modDie k f).pkgs = s.pkgs := rfl
@[simp] theorem State.modDie_quads (f : Die → Die) : (s.modDie k f).quads = s.quads := rfl
@[simp] theorem State.modDie_cores (f : Die → Die) : (s.modDie k f).cores = s.cores := rfl
@[simp] theorem State.modDie_units (f : Die → Die) : (s.modDie k f).units = s.units := rfl
@[simp] theorem State.modDie_fns (f : Die → Die) : (s.modDie k f).fns = s.fns := rfl
@[simp] theorem State.modDie_ctxs (f : Die → Die) : (s.modDie k f).ctxs = s.ctxs := rfl
@[simp] theorem State.modDie_homes (f : Die → Die) : (s.modDie k f).homes = s.homes := rfl
@[simp] theorem State.modDie_fibres (f : Die → Die) : (s.modDie k f).fibres = s.fibres := rfl
@[simp] theorem State.modDie_circuits (f : Die → Die) : (s.modDie k f).circuits = s.circuits := rfl
@[simp] theorem State.modDie_gangs (f : Die → Die) : (s.modDie k f).gangs = s.gangs := rfl
@[simp] theorem State.modDie_wgs (f : Die → Die) : (s.modDie k f).wgs = s.wgs := rfl
@[simp] theorem State.modDie_threads (f : Die → Die) : (s.modDie k f).threads = s.threads := rfl
@[simp] theorem State.modDie_accs (f : Die → Die) : (s.modDie k f).accs = s.accs := rfl
@[simp] theorem State.modDie_notices (f : Die → Die) : (s.modDie k f).notices = s.notices := rfl
@[simp] theorem State.modDie_offers (f : Die → Die) : (s.modDie k f).offers = s.offers := rfl
@[simp] theorem State.modDie_sillage (f : Die → Die) : (s.modDie k f).sillage = s.sillage := rfl
@[simp] theorem State.modDie_msgs (f : Die → Die) : (s.modDie k f).msgs = s.msgs := rfl
@[simp] theorem State.modDie_severed (f : Die → Die) : (s.modDie k f).severed = s.severed := rfl
@[simp] theorem State.modDie_fwds (f : Die → Die) : (s.modDie k f).fwds = s.fwds := rfl
@[simp] theorem State.modDie_cmds (f : Die → Die) : (s.modDie k f).cmds = s.cmds := rfl
@[simp] theorem State.modDie_colls (f : Die → Die) : (s.modDie k f).colls = s.colls := rfl
@[simp] theorem State.modDie_deliveries (f : Die → Die) : (s.modDie k f).deliveries = s.deliveries := rfl
@[simp] theorem State.modDie_pods (f : Die → Die) : (s.modDie k f).pods = s.pods := rfl
@[simp] theorem State.modDie_cur (f : Die → Die) : (s.modDie k f).cur = s.cur := rfl
@[simp] theorem State.modDie_turns (f : Die → Die) : (s.modDie k f).turns = s.turns := rfl
@[simp] theorem State.modDie_tick (f : Die → Die) : (s.modDie k f).tick = s.tick := rfl
@[simp] theorem State.modDie_nextId (f : Die → Die) : (s.modDie k f).nextId = s.nextId := rfl
@[simp] theorem State.modDie_pkg (f : Die → Die) : (s.modDie k f).pkg j = s.pkg j := rfl
@[simp] theorem State.modDie_quad (f : Die → Die) : (s.modDie k f).quad j = s.quad j := rfl
@[simp] theorem State.modDie_core (f : Die → Die) : (s.modDie k f).core j = s.core j := rfl
@[simp] theorem State.modDie_unit (f : Die → Die) : (s.modDie k f).unit j = s.unit j := rfl
@[simp] theorem State.modDie_fn (f : Die → Die) : (s.modDie k f).fn j = s.fn j := rfl
@[simp] theorem State.modDie_fibre (f : Die → Die) : (s.modDie k f).fibre j = s.fibre j := rfl
@[simp] theorem State.modDie_ctx (f : Die → Die) : (s.modDie k f).ctx j = s.ctx j := rfl
@[simp] theorem State.modDie_gang (f : Die → Die) : (s.modDie k f).gang j = s.gang j := rfl
@[simp] theorem State.modDie_wg (f : Die → Die) : (s.modDie k f).wg j = s.wg j := rfl
@[simp] theorem State.modDie_thr (f : Die → Die) : (s.modDie k f).thr j = s.thr j := rfl

/-! ### modQuad -/

@[simp] theorem State.modQuad_self (f : Quad → Quad) : (s.modQuad k f).quad k = f (s.quad k) := tget_tmod_self ..

theorem State.modQuad_quad (f : Quad → Quad) : (s.modQuad k f).quad j = if k = j then f (s.quad k) else s.quad j := tget_tmod ..

@[simp] theorem State.modQuad_mem (f : Quad → Quad) : (s.modQuad k f).mem = s.mem := rfl
@[simp] theorem State.modQuad_empties (f : Quad → Quad) : (s.modQuad k f).empties = s.empties := rfl
@[simp] theorem State.modQuad_poison (f : Quad → Quad) : (s.modQuad k f).poison = s.poison := rfl
@[simp] theorem State.modQuad_views (f : Quad → Quad) : (s.modQuad k f).views = s.views := rfl
@[simp] theorem State.modQuad_homeVer (f : Quad → Quad) : (s.modQuad k f).homeVer = s.homeVer := rfl
@[simp] theorem State.modQuad_viewVer (f : Quad → Quad) : (s.modQuad k f).viewVer = s.viewVer := rfl
@[simp] theorem State.modQuad_wordVec (f : Quad → Quad) : (s.modQuad k f).wordVec = s.wordVec := rfl
@[simp] theorem State.modQuad_pkgs (f : Quad → Quad) : (s.modQuad k f).pkgs = s.pkgs := rfl
@[simp] theorem State.modQuad_dies (f : Quad → Quad) : (s.modQuad k f).dies = s.dies := rfl
@[simp] theorem State.modQuad_cores (f : Quad → Quad) : (s.modQuad k f).cores = s.cores := rfl
@[simp] theorem State.modQuad_units (f : Quad → Quad) : (s.modQuad k f).units = s.units := rfl
@[simp] theorem State.modQuad_fns (f : Quad → Quad) : (s.modQuad k f).fns = s.fns := rfl
@[simp] theorem State.modQuad_ctxs (f : Quad → Quad) : (s.modQuad k f).ctxs = s.ctxs := rfl
@[simp] theorem State.modQuad_homes (f : Quad → Quad) : (s.modQuad k f).homes = s.homes := rfl
@[simp] theorem State.modQuad_fibres (f : Quad → Quad) : (s.modQuad k f).fibres = s.fibres := rfl
@[simp] theorem State.modQuad_circuits (f : Quad → Quad) : (s.modQuad k f).circuits = s.circuits := rfl
@[simp] theorem State.modQuad_gangs (f : Quad → Quad) : (s.modQuad k f).gangs = s.gangs := rfl
@[simp] theorem State.modQuad_wgs (f : Quad → Quad) : (s.modQuad k f).wgs = s.wgs := rfl
@[simp] theorem State.modQuad_threads (f : Quad → Quad) : (s.modQuad k f).threads = s.threads := rfl
@[simp] theorem State.modQuad_accs (f : Quad → Quad) : (s.modQuad k f).accs = s.accs := rfl
@[simp] theorem State.modQuad_notices (f : Quad → Quad) : (s.modQuad k f).notices = s.notices := rfl
@[simp] theorem State.modQuad_offers (f : Quad → Quad) : (s.modQuad k f).offers = s.offers := rfl
@[simp] theorem State.modQuad_sillage (f : Quad → Quad) : (s.modQuad k f).sillage = s.sillage := rfl
@[simp] theorem State.modQuad_msgs (f : Quad → Quad) : (s.modQuad k f).msgs = s.msgs := rfl
@[simp] theorem State.modQuad_severed (f : Quad → Quad) : (s.modQuad k f).severed = s.severed := rfl
@[simp] theorem State.modQuad_fwds (f : Quad → Quad) : (s.modQuad k f).fwds = s.fwds := rfl
@[simp] theorem State.modQuad_cmds (f : Quad → Quad) : (s.modQuad k f).cmds = s.cmds := rfl
@[simp] theorem State.modQuad_colls (f : Quad → Quad) : (s.modQuad k f).colls = s.colls := rfl
@[simp] theorem State.modQuad_deliveries (f : Quad → Quad) : (s.modQuad k f).deliveries = s.deliveries := rfl
@[simp] theorem State.modQuad_pods (f : Quad → Quad) : (s.modQuad k f).pods = s.pods := rfl
@[simp] theorem State.modQuad_cur (f : Quad → Quad) : (s.modQuad k f).cur = s.cur := rfl
@[simp] theorem State.modQuad_turns (f : Quad → Quad) : (s.modQuad k f).turns = s.turns := rfl
@[simp] theorem State.modQuad_tick (f : Quad → Quad) : (s.modQuad k f).tick = s.tick := rfl
@[simp] theorem State.modQuad_nextId (f : Quad → Quad) : (s.modQuad k f).nextId = s.nextId := rfl
@[simp] theorem State.modQuad_pkg (f : Quad → Quad) : (s.modQuad k f).pkg j = s.pkg j := rfl
@[simp] theorem State.modQuad_die (f : Quad → Quad) : (s.modQuad k f).die j = s.die j := rfl
@[simp] theorem State.modQuad_core (f : Quad → Quad) : (s.modQuad k f).core j = s.core j := rfl
@[simp] theorem State.modQuad_unit (f : Quad → Quad) : (s.modQuad k f).unit j = s.unit j := rfl
@[simp] theorem State.modQuad_fn (f : Quad → Quad) : (s.modQuad k f).fn j = s.fn j := rfl
@[simp] theorem State.modQuad_fibre (f : Quad → Quad) : (s.modQuad k f).fibre j = s.fibre j := rfl
@[simp] theorem State.modQuad_ctx (f : Quad → Quad) : (s.modQuad k f).ctx j = s.ctx j := rfl
@[simp] theorem State.modQuad_gang (f : Quad → Quad) : (s.modQuad k f).gang j = s.gang j := rfl
@[simp] theorem State.modQuad_wg (f : Quad → Quad) : (s.modQuad k f).wg j = s.wg j := rfl
@[simp] theorem State.modQuad_thr (f : Quad → Quad) : (s.modQuad k f).thr j = s.thr j := rfl

/-! ### modCore -/

@[simp] theorem State.modCore_self (f : Core → Core) : (s.modCore k f).core k = f (s.core k) := tget_tmod_self ..

theorem State.modCore_core (f : Core → Core) : (s.modCore k f).core j = if k = j then f (s.core k) else s.core j := tget_tmod ..

@[simp] theorem State.modCore_mem (f : Core → Core) : (s.modCore k f).mem = s.mem := rfl
@[simp] theorem State.modCore_empties (f : Core → Core) : (s.modCore k f).empties = s.empties := rfl
@[simp] theorem State.modCore_poison (f : Core → Core) : (s.modCore k f).poison = s.poison := rfl
@[simp] theorem State.modCore_views (f : Core → Core) : (s.modCore k f).views = s.views := rfl
@[simp] theorem State.modCore_homeVer (f : Core → Core) : (s.modCore k f).homeVer = s.homeVer := rfl
@[simp] theorem State.modCore_viewVer (f : Core → Core) : (s.modCore k f).viewVer = s.viewVer := rfl
@[simp] theorem State.modCore_wordVec (f : Core → Core) : (s.modCore k f).wordVec = s.wordVec := rfl
@[simp] theorem State.modCore_pkgs (f : Core → Core) : (s.modCore k f).pkgs = s.pkgs := rfl
@[simp] theorem State.modCore_dies (f : Core → Core) : (s.modCore k f).dies = s.dies := rfl
@[simp] theorem State.modCore_quads (f : Core → Core) : (s.modCore k f).quads = s.quads := rfl
@[simp] theorem State.modCore_units (f : Core → Core) : (s.modCore k f).units = s.units := rfl
@[simp] theorem State.modCore_fns (f : Core → Core) : (s.modCore k f).fns = s.fns := rfl
@[simp] theorem State.modCore_ctxs (f : Core → Core) : (s.modCore k f).ctxs = s.ctxs := rfl
@[simp] theorem State.modCore_homes (f : Core → Core) : (s.modCore k f).homes = s.homes := rfl
@[simp] theorem State.modCore_fibres (f : Core → Core) : (s.modCore k f).fibres = s.fibres := rfl
@[simp] theorem State.modCore_circuits (f : Core → Core) : (s.modCore k f).circuits = s.circuits := rfl
@[simp] theorem State.modCore_gangs (f : Core → Core) : (s.modCore k f).gangs = s.gangs := rfl
@[simp] theorem State.modCore_wgs (f : Core → Core) : (s.modCore k f).wgs = s.wgs := rfl
@[simp] theorem State.modCore_threads (f : Core → Core) : (s.modCore k f).threads = s.threads := rfl
@[simp] theorem State.modCore_accs (f : Core → Core) : (s.modCore k f).accs = s.accs := rfl
@[simp] theorem State.modCore_notices (f : Core → Core) : (s.modCore k f).notices = s.notices := rfl
@[simp] theorem State.modCore_offers (f : Core → Core) : (s.modCore k f).offers = s.offers := rfl
@[simp] theorem State.modCore_sillage (f : Core → Core) : (s.modCore k f).sillage = s.sillage := rfl
@[simp] theorem State.modCore_msgs (f : Core → Core) : (s.modCore k f).msgs = s.msgs := rfl
@[simp] theorem State.modCore_severed (f : Core → Core) : (s.modCore k f).severed = s.severed := rfl
@[simp] theorem State.modCore_fwds (f : Core → Core) : (s.modCore k f).fwds = s.fwds := rfl
@[simp] theorem State.modCore_cmds (f : Core → Core) : (s.modCore k f).cmds = s.cmds := rfl
@[simp] theorem State.modCore_colls (f : Core → Core) : (s.modCore k f).colls = s.colls := rfl
@[simp] theorem State.modCore_deliveries (f : Core → Core) : (s.modCore k f).deliveries = s.deliveries := rfl
@[simp] theorem State.modCore_pods (f : Core → Core) : (s.modCore k f).pods = s.pods := rfl
@[simp] theorem State.modCore_cur (f : Core → Core) : (s.modCore k f).cur = s.cur := rfl
@[simp] theorem State.modCore_turns (f : Core → Core) : (s.modCore k f).turns = s.turns := rfl
@[simp] theorem State.modCore_tick (f : Core → Core) : (s.modCore k f).tick = s.tick := rfl
@[simp] theorem State.modCore_nextId (f : Core → Core) : (s.modCore k f).nextId = s.nextId := rfl
@[simp] theorem State.modCore_pkg (f : Core → Core) : (s.modCore k f).pkg j = s.pkg j := rfl
@[simp] theorem State.modCore_die (f : Core → Core) : (s.modCore k f).die j = s.die j := rfl
@[simp] theorem State.modCore_quad (f : Core → Core) : (s.modCore k f).quad j = s.quad j := rfl
@[simp] theorem State.modCore_unit (f : Core → Core) : (s.modCore k f).unit j = s.unit j := rfl
@[simp] theorem State.modCore_fn (f : Core → Core) : (s.modCore k f).fn j = s.fn j := rfl
@[simp] theorem State.modCore_fibre (f : Core → Core) : (s.modCore k f).fibre j = s.fibre j := rfl
@[simp] theorem State.modCore_ctx (f : Core → Core) : (s.modCore k f).ctx j = s.ctx j := rfl
@[simp] theorem State.modCore_gang (f : Core → Core) : (s.modCore k f).gang j = s.gang j := rfl
@[simp] theorem State.modCore_wg (f : Core → Core) : (s.modCore k f).wg j = s.wg j := rfl
@[simp] theorem State.modCore_thr (f : Core → Core) : (s.modCore k f).thr j = s.thr j := rfl

/-! ### modUnit -/

@[simp] theorem State.modUnit_self (f : HsUnit → HsUnit) : (s.modUnit k f).unit k = f (s.unit k) := tget_tmod_self ..

theorem State.modUnit_unit (f : HsUnit → HsUnit) : (s.modUnit k f).unit j = if k = j then f (s.unit k) else s.unit j := tget_tmod ..

@[simp] theorem State.modUnit_mem (f : HsUnit → HsUnit) : (s.modUnit k f).mem = s.mem := rfl
@[simp] theorem State.modUnit_empties (f : HsUnit → HsUnit) : (s.modUnit k f).empties = s.empties := rfl
@[simp] theorem State.modUnit_poison (f : HsUnit → HsUnit) : (s.modUnit k f).poison = s.poison := rfl
@[simp] theorem State.modUnit_views (f : HsUnit → HsUnit) : (s.modUnit k f).views = s.views := rfl
@[simp] theorem State.modUnit_homeVer (f : HsUnit → HsUnit) : (s.modUnit k f).homeVer = s.homeVer := rfl
@[simp] theorem State.modUnit_viewVer (f : HsUnit → HsUnit) : (s.modUnit k f).viewVer = s.viewVer := rfl
@[simp] theorem State.modUnit_wordVec (f : HsUnit → HsUnit) : (s.modUnit k f).wordVec = s.wordVec := rfl
@[simp] theorem State.modUnit_pkgs (f : HsUnit → HsUnit) : (s.modUnit k f).pkgs = s.pkgs := rfl
@[simp] theorem State.modUnit_dies (f : HsUnit → HsUnit) : (s.modUnit k f).dies = s.dies := rfl
@[simp] theorem State.modUnit_quads (f : HsUnit → HsUnit) : (s.modUnit k f).quads = s.quads := rfl
@[simp] theorem State.modUnit_cores (f : HsUnit → HsUnit) : (s.modUnit k f).cores = s.cores := rfl
@[simp] theorem State.modUnit_fns (f : HsUnit → HsUnit) : (s.modUnit k f).fns = s.fns := rfl
@[simp] theorem State.modUnit_ctxs (f : HsUnit → HsUnit) : (s.modUnit k f).ctxs = s.ctxs := rfl
@[simp] theorem State.modUnit_homes (f : HsUnit → HsUnit) : (s.modUnit k f).homes = s.homes := rfl
@[simp] theorem State.modUnit_fibres (f : HsUnit → HsUnit) : (s.modUnit k f).fibres = s.fibres := rfl
@[simp] theorem State.modUnit_circuits (f : HsUnit → HsUnit) : (s.modUnit k f).circuits = s.circuits := rfl
@[simp] theorem State.modUnit_gangs (f : HsUnit → HsUnit) : (s.modUnit k f).gangs = s.gangs := rfl
@[simp] theorem State.modUnit_wgs (f : HsUnit → HsUnit) : (s.modUnit k f).wgs = s.wgs := rfl
@[simp] theorem State.modUnit_threads (f : HsUnit → HsUnit) : (s.modUnit k f).threads = s.threads := rfl
@[simp] theorem State.modUnit_accs (f : HsUnit → HsUnit) : (s.modUnit k f).accs = s.accs := rfl
@[simp] theorem State.modUnit_notices (f : HsUnit → HsUnit) : (s.modUnit k f).notices = s.notices := rfl
@[simp] theorem State.modUnit_offers (f : HsUnit → HsUnit) : (s.modUnit k f).offers = s.offers := rfl
@[simp] theorem State.modUnit_sillage (f : HsUnit → HsUnit) : (s.modUnit k f).sillage = s.sillage := rfl
@[simp] theorem State.modUnit_msgs (f : HsUnit → HsUnit) : (s.modUnit k f).msgs = s.msgs := rfl
@[simp] theorem State.modUnit_severed (f : HsUnit → HsUnit) : (s.modUnit k f).severed = s.severed := rfl
@[simp] theorem State.modUnit_fwds (f : HsUnit → HsUnit) : (s.modUnit k f).fwds = s.fwds := rfl
@[simp] theorem State.modUnit_cmds (f : HsUnit → HsUnit) : (s.modUnit k f).cmds = s.cmds := rfl
@[simp] theorem State.modUnit_colls (f : HsUnit → HsUnit) : (s.modUnit k f).colls = s.colls := rfl
@[simp] theorem State.modUnit_deliveries (f : HsUnit → HsUnit) : (s.modUnit k f).deliveries = s.deliveries := rfl
@[simp] theorem State.modUnit_pods (f : HsUnit → HsUnit) : (s.modUnit k f).pods = s.pods := rfl
@[simp] theorem State.modUnit_cur (f : HsUnit → HsUnit) : (s.modUnit k f).cur = s.cur := rfl
@[simp] theorem State.modUnit_turns (f : HsUnit → HsUnit) : (s.modUnit k f).turns = s.turns := rfl
@[simp] theorem State.modUnit_tick (f : HsUnit → HsUnit) : (s.modUnit k f).tick = s.tick := rfl
@[simp] theorem State.modUnit_nextId (f : HsUnit → HsUnit) : (s.modUnit k f).nextId = s.nextId := rfl
@[simp] theorem State.modUnit_pkg (f : HsUnit → HsUnit) : (s.modUnit k f).pkg j = s.pkg j := rfl
@[simp] theorem State.modUnit_die (f : HsUnit → HsUnit) : (s.modUnit k f).die j = s.die j := rfl
@[simp] theorem State.modUnit_quad (f : HsUnit → HsUnit) : (s.modUnit k f).quad j = s.quad j := rfl
@[simp] theorem State.modUnit_core (f : HsUnit → HsUnit) : (s.modUnit k f).core j = s.core j := rfl
@[simp] theorem State.modUnit_fn (f : HsUnit → HsUnit) : (s.modUnit k f).fn j = s.fn j := rfl
@[simp] theorem State.modUnit_fibre (f : HsUnit → HsUnit) : (s.modUnit k f).fibre j = s.fibre j := rfl
@[simp] theorem State.modUnit_ctx (f : HsUnit → HsUnit) : (s.modUnit k f).ctx j = s.ctx j := rfl
@[simp] theorem State.modUnit_gang (f : HsUnit → HsUnit) : (s.modUnit k f).gang j = s.gang j := rfl
@[simp] theorem State.modUnit_wg (f : HsUnit → HsUnit) : (s.modUnit k f).wg j = s.wg j := rfl
@[simp] theorem State.modUnit_thr (f : HsUnit → HsUnit) : (s.modUnit k f).thr j = s.thr j := rfl

/-! ### modFn -/

@[simp] theorem State.modFn_self (f : Fn → Fn) : (s.modFn k f).fn k = f (s.fn k) := tget_tmod_self ..

theorem State.modFn_fn (f : Fn → Fn) : (s.modFn k f).fn j = if k = j then f (s.fn k) else s.fn j := tget_tmod ..

@[simp] theorem State.modFn_mem (f : Fn → Fn) : (s.modFn k f).mem = s.mem := rfl
@[simp] theorem State.modFn_empties (f : Fn → Fn) : (s.modFn k f).empties = s.empties := rfl
@[simp] theorem State.modFn_poison (f : Fn → Fn) : (s.modFn k f).poison = s.poison := rfl
@[simp] theorem State.modFn_views (f : Fn → Fn) : (s.modFn k f).views = s.views := rfl
@[simp] theorem State.modFn_homeVer (f : Fn → Fn) : (s.modFn k f).homeVer = s.homeVer := rfl
@[simp] theorem State.modFn_viewVer (f : Fn → Fn) : (s.modFn k f).viewVer = s.viewVer := rfl
@[simp] theorem State.modFn_wordVec (f : Fn → Fn) : (s.modFn k f).wordVec = s.wordVec := rfl
@[simp] theorem State.modFn_pkgs (f : Fn → Fn) : (s.modFn k f).pkgs = s.pkgs := rfl
@[simp] theorem State.modFn_dies (f : Fn → Fn) : (s.modFn k f).dies = s.dies := rfl
@[simp] theorem State.modFn_quads (f : Fn → Fn) : (s.modFn k f).quads = s.quads := rfl
@[simp] theorem State.modFn_cores (f : Fn → Fn) : (s.modFn k f).cores = s.cores := rfl
@[simp] theorem State.modFn_units (f : Fn → Fn) : (s.modFn k f).units = s.units := rfl
@[simp] theorem State.modFn_ctxs (f : Fn → Fn) : (s.modFn k f).ctxs = s.ctxs := rfl
@[simp] theorem State.modFn_homes (f : Fn → Fn) : (s.modFn k f).homes = s.homes := rfl
@[simp] theorem State.modFn_fibres (f : Fn → Fn) : (s.modFn k f).fibres = s.fibres := rfl
@[simp] theorem State.modFn_circuits (f : Fn → Fn) : (s.modFn k f).circuits = s.circuits := rfl
@[simp] theorem State.modFn_gangs (f : Fn → Fn) : (s.modFn k f).gangs = s.gangs := rfl
@[simp] theorem State.modFn_wgs (f : Fn → Fn) : (s.modFn k f).wgs = s.wgs := rfl
@[simp] theorem State.modFn_threads (f : Fn → Fn) : (s.modFn k f).threads = s.threads := rfl
@[simp] theorem State.modFn_accs (f : Fn → Fn) : (s.modFn k f).accs = s.accs := rfl
@[simp] theorem State.modFn_notices (f : Fn → Fn) : (s.modFn k f).notices = s.notices := rfl
@[simp] theorem State.modFn_offers (f : Fn → Fn) : (s.modFn k f).offers = s.offers := rfl
@[simp] theorem State.modFn_sillage (f : Fn → Fn) : (s.modFn k f).sillage = s.sillage := rfl
@[simp] theorem State.modFn_msgs (f : Fn → Fn) : (s.modFn k f).msgs = s.msgs := rfl
@[simp] theorem State.modFn_severed (f : Fn → Fn) : (s.modFn k f).severed = s.severed := rfl
@[simp] theorem State.modFn_fwds (f : Fn → Fn) : (s.modFn k f).fwds = s.fwds := rfl
@[simp] theorem State.modFn_cmds (f : Fn → Fn) : (s.modFn k f).cmds = s.cmds := rfl
@[simp] theorem State.modFn_colls (f : Fn → Fn) : (s.modFn k f).colls = s.colls := rfl
@[simp] theorem State.modFn_deliveries (f : Fn → Fn) : (s.modFn k f).deliveries = s.deliveries := rfl
@[simp] theorem State.modFn_pods (f : Fn → Fn) : (s.modFn k f).pods = s.pods := rfl
@[simp] theorem State.modFn_cur (f : Fn → Fn) : (s.modFn k f).cur = s.cur := rfl
@[simp] theorem State.modFn_turns (f : Fn → Fn) : (s.modFn k f).turns = s.turns := rfl
@[simp] theorem State.modFn_tick (f : Fn → Fn) : (s.modFn k f).tick = s.tick := rfl
@[simp] theorem State.modFn_nextId (f : Fn → Fn) : (s.modFn k f).nextId = s.nextId := rfl
@[simp] theorem State.modFn_pkg (f : Fn → Fn) : (s.modFn k f).pkg j = s.pkg j := rfl
@[simp] theorem State.modFn_die (f : Fn → Fn) : (s.modFn k f).die j = s.die j := rfl
@[simp] theorem State.modFn_quad (f : Fn → Fn) : (s.modFn k f).quad j = s.quad j := rfl
@[simp] theorem State.modFn_core (f : Fn → Fn) : (s.modFn k f).core j = s.core j := rfl
@[simp] theorem State.modFn_unit (f : Fn → Fn) : (s.modFn k f).unit j = s.unit j := rfl
@[simp] theorem State.modFn_fibre (f : Fn → Fn) : (s.modFn k f).fibre j = s.fibre j := rfl
@[simp] theorem State.modFn_ctx (f : Fn → Fn) : (s.modFn k f).ctx j = s.ctx j := rfl
@[simp] theorem State.modFn_gang (f : Fn → Fn) : (s.modFn k f).gang j = s.gang j := rfl
@[simp] theorem State.modFn_wg (f : Fn → Fn) : (s.modFn k f).wg j = s.wg j := rfl
@[simp] theorem State.modFn_thr (f : Fn → Fn) : (s.modFn k f).thr j = s.thr j := rfl

/-! ### modFibre -/

@[simp] theorem State.modFibre_self (f : Fibre → Fibre) : (s.modFibre k f).fibre k = f (s.fibre k) := tget_tmod_self ..

theorem State.modFibre_fibre (f : Fibre → Fibre) : (s.modFibre k f).fibre j = if k = j then f (s.fibre k) else s.fibre j := tget_tmod ..

@[simp] theorem State.modFibre_mem (f : Fibre → Fibre) : (s.modFibre k f).mem = s.mem := rfl
@[simp] theorem State.modFibre_empties (f : Fibre → Fibre) : (s.modFibre k f).empties = s.empties := rfl
@[simp] theorem State.modFibre_poison (f : Fibre → Fibre) : (s.modFibre k f).poison = s.poison := rfl
@[simp] theorem State.modFibre_views (f : Fibre → Fibre) : (s.modFibre k f).views = s.views := rfl
@[simp] theorem State.modFibre_homeVer (f : Fibre → Fibre) : (s.modFibre k f).homeVer = s.homeVer := rfl
@[simp] theorem State.modFibre_viewVer (f : Fibre → Fibre) : (s.modFibre k f).viewVer = s.viewVer := rfl
@[simp] theorem State.modFibre_wordVec (f : Fibre → Fibre) : (s.modFibre k f).wordVec = s.wordVec := rfl
@[simp] theorem State.modFibre_pkgs (f : Fibre → Fibre) : (s.modFibre k f).pkgs = s.pkgs := rfl
@[simp] theorem State.modFibre_dies (f : Fibre → Fibre) : (s.modFibre k f).dies = s.dies := rfl
@[simp] theorem State.modFibre_quads (f : Fibre → Fibre) : (s.modFibre k f).quads = s.quads := rfl
@[simp] theorem State.modFibre_cores (f : Fibre → Fibre) : (s.modFibre k f).cores = s.cores := rfl
@[simp] theorem State.modFibre_units (f : Fibre → Fibre) : (s.modFibre k f).units = s.units := rfl
@[simp] theorem State.modFibre_fns (f : Fibre → Fibre) : (s.modFibre k f).fns = s.fns := rfl
@[simp] theorem State.modFibre_ctxs (f : Fibre → Fibre) : (s.modFibre k f).ctxs = s.ctxs := rfl
@[simp] theorem State.modFibre_homes (f : Fibre → Fibre) : (s.modFibre k f).homes = s.homes := rfl
@[simp] theorem State.modFibre_circuits (f : Fibre → Fibre) : (s.modFibre k f).circuits = s.circuits := rfl
@[simp] theorem State.modFibre_gangs (f : Fibre → Fibre) : (s.modFibre k f).gangs = s.gangs := rfl
@[simp] theorem State.modFibre_wgs (f : Fibre → Fibre) : (s.modFibre k f).wgs = s.wgs := rfl
@[simp] theorem State.modFibre_threads (f : Fibre → Fibre) : (s.modFibre k f).threads = s.threads := rfl
@[simp] theorem State.modFibre_accs (f : Fibre → Fibre) : (s.modFibre k f).accs = s.accs := rfl
@[simp] theorem State.modFibre_notices (f : Fibre → Fibre) : (s.modFibre k f).notices = s.notices := rfl
@[simp] theorem State.modFibre_offers (f : Fibre → Fibre) : (s.modFibre k f).offers = s.offers := rfl
@[simp] theorem State.modFibre_sillage (f : Fibre → Fibre) : (s.modFibre k f).sillage = s.sillage := rfl
@[simp] theorem State.modFibre_msgs (f : Fibre → Fibre) : (s.modFibre k f).msgs = s.msgs := rfl
@[simp] theorem State.modFibre_severed (f : Fibre → Fibre) : (s.modFibre k f).severed = s.severed := rfl
@[simp] theorem State.modFibre_fwds (f : Fibre → Fibre) : (s.modFibre k f).fwds = s.fwds := rfl
@[simp] theorem State.modFibre_cmds (f : Fibre → Fibre) : (s.modFibre k f).cmds = s.cmds := rfl
@[simp] theorem State.modFibre_colls (f : Fibre → Fibre) : (s.modFibre k f).colls = s.colls := rfl
@[simp] theorem State.modFibre_deliveries (f : Fibre → Fibre) : (s.modFibre k f).deliveries = s.deliveries := rfl
@[simp] theorem State.modFibre_pods (f : Fibre → Fibre) : (s.modFibre k f).pods = s.pods := rfl
@[simp] theorem State.modFibre_cur (f : Fibre → Fibre) : (s.modFibre k f).cur = s.cur := rfl
@[simp] theorem State.modFibre_turns (f : Fibre → Fibre) : (s.modFibre k f).turns = s.turns := rfl
@[simp] theorem State.modFibre_tick (f : Fibre → Fibre) : (s.modFibre k f).tick = s.tick := rfl
@[simp] theorem State.modFibre_nextId (f : Fibre → Fibre) : (s.modFibre k f).nextId = s.nextId := rfl
@[simp] theorem State.modFibre_pkg (f : Fibre → Fibre) : (s.modFibre k f).pkg j = s.pkg j := rfl
@[simp] theorem State.modFibre_die (f : Fibre → Fibre) : (s.modFibre k f).die j = s.die j := rfl
@[simp] theorem State.modFibre_quad (f : Fibre → Fibre) : (s.modFibre k f).quad j = s.quad j := rfl
@[simp] theorem State.modFibre_core (f : Fibre → Fibre) : (s.modFibre k f).core j = s.core j := rfl
@[simp] theorem State.modFibre_unit (f : Fibre → Fibre) : (s.modFibre k f).unit j = s.unit j := rfl
@[simp] theorem State.modFibre_fn (f : Fibre → Fibre) : (s.modFibre k f).fn j = s.fn j := rfl
@[simp] theorem State.modFibre_ctx (f : Fibre → Fibre) : (s.modFibre k f).ctx j = s.ctx j := rfl
@[simp] theorem State.modFibre_gang (f : Fibre → Fibre) : (s.modFibre k f).gang j = s.gang j := rfl
@[simp] theorem State.modFibre_wg (f : Fibre → Fibre) : (s.modFibre k f).wg j = s.wg j := rfl
@[simp] theorem State.modFibre_thr (f : Fibre → Fibre) : (s.modFibre k f).thr j = s.thr j := rfl

/-! ### modCtx -/

@[simp] theorem State.modCtx_self (f : Ctx → Ctx) : (s.modCtx k f).ctx k = f (s.ctx k) := tget_tmod_self ..

theorem State.modCtx_ctx (f : Ctx → Ctx) : (s.modCtx k f).ctx j = if k = j then f (s.ctx k) else s.ctx j := tget_tmod ..

@[simp] theorem State.modCtx_mem (f : Ctx → Ctx) : (s.modCtx k f).mem = s.mem := rfl
@[simp] theorem State.modCtx_empties (f : Ctx → Ctx) : (s.modCtx k f).empties = s.empties := rfl
@[simp] theorem State.modCtx_poison (f : Ctx → Ctx) : (s.modCtx k f).poison = s.poison := rfl
@[simp] theorem State.modCtx_views (f : Ctx → Ctx) : (s.modCtx k f).views = s.views := rfl
@[simp] theorem State.modCtx_homeVer (f : Ctx → Ctx) : (s.modCtx k f).homeVer = s.homeVer := rfl
@[simp] theorem State.modCtx_viewVer (f : Ctx → Ctx) : (s.modCtx k f).viewVer = s.viewVer := rfl
@[simp] theorem State.modCtx_wordVec (f : Ctx → Ctx) : (s.modCtx k f).wordVec = s.wordVec := rfl
@[simp] theorem State.modCtx_pkgs (f : Ctx → Ctx) : (s.modCtx k f).pkgs = s.pkgs := rfl
@[simp] theorem State.modCtx_dies (f : Ctx → Ctx) : (s.modCtx k f).dies = s.dies := rfl
@[simp] theorem State.modCtx_quads (f : Ctx → Ctx) : (s.modCtx k f).quads = s.quads := rfl
@[simp] theorem State.modCtx_cores (f : Ctx → Ctx) : (s.modCtx k f).cores = s.cores := rfl
@[simp] theorem State.modCtx_units (f : Ctx → Ctx) : (s.modCtx k f).units = s.units := rfl
@[simp] theorem State.modCtx_fns (f : Ctx → Ctx) : (s.modCtx k f).fns = s.fns := rfl
@[simp] theorem State.modCtx_homes (f : Ctx → Ctx) : (s.modCtx k f).homes = s.homes := rfl
@[simp] theorem State.modCtx_fibres (f : Ctx → Ctx) : (s.modCtx k f).fibres = s.fibres := rfl
@[simp] theorem State.modCtx_circuits (f : Ctx → Ctx) : (s.modCtx k f).circuits = s.circuits := rfl
@[simp] theorem State.modCtx_gangs (f : Ctx → Ctx) : (s.modCtx k f).gangs = s.gangs := rfl
@[simp] theorem State.modCtx_wgs (f : Ctx → Ctx) : (s.modCtx k f).wgs = s.wgs := rfl
@[simp] theorem State.modCtx_threads (f : Ctx → Ctx) : (s.modCtx k f).threads = s.threads := rfl
@[simp] theorem State.modCtx_accs (f : Ctx → Ctx) : (s.modCtx k f).accs = s.accs := rfl
@[simp] theorem State.modCtx_notices (f : Ctx → Ctx) : (s.modCtx k f).notices = s.notices := rfl
@[simp] theorem State.modCtx_offers (f : Ctx → Ctx) : (s.modCtx k f).offers = s.offers := rfl
@[simp] theorem State.modCtx_sillage (f : Ctx → Ctx) : (s.modCtx k f).sillage = s.sillage := rfl
@[simp] theorem State.modCtx_msgs (f : Ctx → Ctx) : (s.modCtx k f).msgs = s.msgs := rfl
@[simp] theorem State.modCtx_severed (f : Ctx → Ctx) : (s.modCtx k f).severed = s.severed := rfl
@[simp] theorem State.modCtx_fwds (f : Ctx → Ctx) : (s.modCtx k f).fwds = s.fwds := rfl
@[simp] theorem State.modCtx_cmds (f : Ctx → Ctx) : (s.modCtx k f).cmds = s.cmds := rfl
@[simp] theorem State.modCtx_colls (f : Ctx → Ctx) : (s.modCtx k f).colls = s.colls := rfl
@[simp] theorem State.modCtx_deliveries (f : Ctx → Ctx) : (s.modCtx k f).deliveries = s.deliveries := rfl
@[simp] theorem State.modCtx_pods (f : Ctx → Ctx) : (s.modCtx k f).pods = s.pods := rfl
@[simp] theorem State.modCtx_cur (f : Ctx → Ctx) : (s.modCtx k f).cur = s.cur := rfl
@[simp] theorem State.modCtx_turns (f : Ctx → Ctx) : (s.modCtx k f).turns = s.turns := rfl
@[simp] theorem State.modCtx_tick (f : Ctx → Ctx) : (s.modCtx k f).tick = s.tick := rfl
@[simp] theorem State.modCtx_nextId (f : Ctx → Ctx) : (s.modCtx k f).nextId = s.nextId := rfl
@[simp] theorem State.modCtx_pkg (f : Ctx → Ctx) : (s.modCtx k f).pkg j = s.pkg j := rfl
@[simp] theorem State.modCtx_die (f : Ctx → Ctx) : (s.modCtx k f).die j = s.die j := rfl
@[simp] theorem State.modCtx_quad (f : Ctx → Ctx) : (s.modCtx k f).quad j = s.quad j := rfl
@[simp] theorem State.modCtx_core (f : Ctx → Ctx) : (s.modCtx k f).core j = s.core j := rfl
@[simp] theorem State.modCtx_unit (f : Ctx → Ctx) : (s.modCtx k f).unit j = s.unit j := rfl
@[simp] theorem State.modCtx_fn (f : Ctx → Ctx) : (s.modCtx k f).fn j = s.fn j := rfl
@[simp] theorem State.modCtx_fibre (f : Ctx → Ctx) : (s.modCtx k f).fibre j = s.fibre j := rfl
@[simp] theorem State.modCtx_gang (f : Ctx → Ctx) : (s.modCtx k f).gang j = s.gang j := rfl
@[simp] theorem State.modCtx_wg (f : Ctx → Ctx) : (s.modCtx k f).wg j = s.wg j := rfl
@[simp] theorem State.modCtx_thr (f : Ctx → Ctx) : (s.modCtx k f).thr j = s.thr j := rfl

/-! ### modGang -/

@[simp] theorem State.modGang_self (f : Gang → Gang) : (s.modGang k f).gang k = f (s.gang k) := tget_tmod_self ..

theorem State.modGang_gang (f : Gang → Gang) : (s.modGang k f).gang j = if k = j then f (s.gang k) else s.gang j := tget_tmod ..

@[simp] theorem State.modGang_mem (f : Gang → Gang) : (s.modGang k f).mem = s.mem := rfl
@[simp] theorem State.modGang_empties (f : Gang → Gang) : (s.modGang k f).empties = s.empties := rfl
@[simp] theorem State.modGang_poison (f : Gang → Gang) : (s.modGang k f).poison = s.poison := rfl
@[simp] theorem State.modGang_views (f : Gang → Gang) : (s.modGang k f).views = s.views := rfl
@[simp] theorem State.modGang_homeVer (f : Gang → Gang) : (s.modGang k f).homeVer = s.homeVer := rfl
@[simp] theorem State.modGang_viewVer (f : Gang → Gang) : (s.modGang k f).viewVer = s.viewVer := rfl
@[simp] theorem State.modGang_wordVec (f : Gang → Gang) : (s.modGang k f).wordVec = s.wordVec := rfl
@[simp] theorem State.modGang_pkgs (f : Gang → Gang) : (s.modGang k f).pkgs = s.pkgs := rfl
@[simp] theorem State.modGang_dies (f : Gang → Gang) : (s.modGang k f).dies = s.dies := rfl
@[simp] theorem State.modGang_quads (f : Gang → Gang) : (s.modGang k f).quads = s.quads := rfl
@[simp] theorem State.modGang_cores (f : Gang → Gang) : (s.modGang k f).cores = s.cores := rfl
@[simp] theorem State.modGang_units (f : Gang → Gang) : (s.modGang k f).units = s.units := rfl
@[simp] theorem State.modGang_fns (f : Gang → Gang) : (s.modGang k f).fns = s.fns := rfl
@[simp] theorem State.modGang_ctxs (f : Gang → Gang) : (s.modGang k f).ctxs = s.ctxs := rfl
@[simp] theorem State.modGang_homes (f : Gang → Gang) : (s.modGang k f).homes = s.homes := rfl
@[simp] theorem State.modGang_fibres (f : Gang → Gang) : (s.modGang k f).fibres = s.fibres := rfl
@[simp] theorem State.modGang_circuits (f : Gang → Gang) : (s.modGang k f).circuits = s.circuits := rfl
@[simp] theorem State.modGang_wgs (f : Gang → Gang) : (s.modGang k f).wgs = s.wgs := rfl
@[simp] theorem State.modGang_threads (f : Gang → Gang) : (s.modGang k f).threads = s.threads := rfl
@[simp] theorem State.modGang_accs (f : Gang → Gang) : (s.modGang k f).accs = s.accs := rfl
@[simp] theorem State.modGang_notices (f : Gang → Gang) : (s.modGang k f).notices = s.notices := rfl
@[simp] theorem State.modGang_offers (f : Gang → Gang) : (s.modGang k f).offers = s.offers := rfl
@[simp] theorem State.modGang_sillage (f : Gang → Gang) : (s.modGang k f).sillage = s.sillage := rfl
@[simp] theorem State.modGang_msgs (f : Gang → Gang) : (s.modGang k f).msgs = s.msgs := rfl
@[simp] theorem State.modGang_severed (f : Gang → Gang) : (s.modGang k f).severed = s.severed := rfl
@[simp] theorem State.modGang_fwds (f : Gang → Gang) : (s.modGang k f).fwds = s.fwds := rfl
@[simp] theorem State.modGang_cmds (f : Gang → Gang) : (s.modGang k f).cmds = s.cmds := rfl
@[simp] theorem State.modGang_colls (f : Gang → Gang) : (s.modGang k f).colls = s.colls := rfl
@[simp] theorem State.modGang_deliveries (f : Gang → Gang) : (s.modGang k f).deliveries = s.deliveries := rfl
@[simp] theorem State.modGang_pods (f : Gang → Gang) : (s.modGang k f).pods = s.pods := rfl
@[simp] theorem State.modGang_cur (f : Gang → Gang) : (s.modGang k f).cur = s.cur := rfl
@[simp] theorem State.modGang_turns (f : Gang → Gang) : (s.modGang k f).turns = s.turns := rfl
@[simp] theorem State.modGang_tick (f : Gang → Gang) : (s.modGang k f).tick = s.tick := rfl
@[simp] theorem State.modGang_nextId (f : Gang → Gang) : (s.modGang k f).nextId = s.nextId := rfl
@[simp] theorem State.modGang_pkg (f : Gang → Gang) : (s.modGang k f).pkg j = s.pkg j := rfl
@[simp] theorem State.modGang_die (f : Gang → Gang) : (s.modGang k f).die j = s.die j := rfl
@[simp] theorem State.modGang_quad (f : Gang → Gang) : (s.modGang k f).quad j = s.quad j := rfl
@[simp] theorem State.modGang_core (f : Gang → Gang) : (s.modGang k f).core j = s.core j := rfl
@[simp] theorem State.modGang_unit (f : Gang → Gang) : (s.modGang k f).unit j = s.unit j := rfl
@[simp] theorem State.modGang_fn (f : Gang → Gang) : (s.modGang k f).fn j = s.fn j := rfl
@[simp] theorem State.modGang_fibre (f : Gang → Gang) : (s.modGang k f).fibre j = s.fibre j := rfl
@[simp] theorem State.modGang_ctx (f : Gang → Gang) : (s.modGang k f).ctx j = s.ctx j := rfl
@[simp] theorem State.modGang_wg (f : Gang → Gang) : (s.modGang k f).wg j = s.wg j := rfl
@[simp] theorem State.modGang_thr (f : Gang → Gang) : (s.modGang k f).thr j = s.thr j := rfl

/-! ### modWg -/

@[simp] theorem State.modWg_self (f : Wg → Wg) : (s.modWg k f).wg k = f (s.wg k) := tget_tmod_self ..

theorem State.modWg_wg (f : Wg → Wg) : (s.modWg k f).wg j = if k = j then f (s.wg k) else s.wg j := tget_tmod ..

@[simp] theorem State.modWg_mem (f : Wg → Wg) : (s.modWg k f).mem = s.mem := rfl
@[simp] theorem State.modWg_empties (f : Wg → Wg) : (s.modWg k f).empties = s.empties := rfl
@[simp] theorem State.modWg_poison (f : Wg → Wg) : (s.modWg k f).poison = s.poison := rfl
@[simp] theorem State.modWg_views (f : Wg → Wg) : (s.modWg k f).views = s.views := rfl
@[simp] theorem State.modWg_homeVer (f : Wg → Wg) : (s.modWg k f).homeVer = s.homeVer := rfl
@[simp] theorem State.modWg_viewVer (f : Wg → Wg) : (s.modWg k f).viewVer = s.viewVer := rfl
@[simp] theorem State.modWg_wordVec (f : Wg → Wg) : (s.modWg k f).wordVec = s.wordVec := rfl
@[simp] theorem State.modWg_pkgs (f : Wg → Wg) : (s.modWg k f).pkgs = s.pkgs := rfl
@[simp] theorem State.modWg_dies (f : Wg → Wg) : (s.modWg k f).dies = s.dies := rfl
@[simp] theorem State.modWg_quads (f : Wg → Wg) : (s.modWg k f).quads = s.quads := rfl
@[simp] theorem State.modWg_cores (f : Wg → Wg) : (s.modWg k f).cores = s.cores := rfl
@[simp] theorem State.modWg_units (f : Wg → Wg) : (s.modWg k f).units = s.units := rfl
@[simp] theorem State.modWg_fns (f : Wg → Wg) : (s.modWg k f).fns = s.fns := rfl
@[simp] theorem State.modWg_ctxs (f : Wg → Wg) : (s.modWg k f).ctxs = s.ctxs := rfl
@[simp] theorem State.modWg_homes (f : Wg → Wg) : (s.modWg k f).homes = s.homes := rfl
@[simp] theorem State.modWg_fibres (f : Wg → Wg) : (s.modWg k f).fibres = s.fibres := rfl
@[simp] theorem State.modWg_circuits (f : Wg → Wg) : (s.modWg k f).circuits = s.circuits := rfl
@[simp] theorem State.modWg_gangs (f : Wg → Wg) : (s.modWg k f).gangs = s.gangs := rfl
@[simp] theorem State.modWg_threads (f : Wg → Wg) : (s.modWg k f).threads = s.threads := rfl
@[simp] theorem State.modWg_accs (f : Wg → Wg) : (s.modWg k f).accs = s.accs := rfl
@[simp] theorem State.modWg_notices (f : Wg → Wg) : (s.modWg k f).notices = s.notices := rfl
@[simp] theorem State.modWg_offers (f : Wg → Wg) : (s.modWg k f).offers = s.offers := rfl
@[simp] theorem State.modWg_sillage (f : Wg → Wg) : (s.modWg k f).sillage = s.sillage := rfl
@[simp] theorem State.modWg_msgs (f : Wg → Wg) : (s.modWg k f).msgs = s.msgs := rfl
@[simp] theorem State.modWg_severed (f : Wg → Wg) : (s.modWg k f).severed = s.severed := rfl
@[simp] theorem State.modWg_fwds (f : Wg → Wg) : (s.modWg k f).fwds = s.fwds := rfl
@[simp] theorem State.modWg_cmds (f : Wg → Wg) : (s.modWg k f).cmds = s.cmds := rfl
@[simp] theorem State.modWg_colls (f : Wg → Wg) : (s.modWg k f).colls = s.colls := rfl
@[simp] theorem State.modWg_deliveries (f : Wg → Wg) : (s.modWg k f).deliveries = s.deliveries := rfl
@[simp] theorem State.modWg_pods (f : Wg → Wg) : (s.modWg k f).pods = s.pods := rfl
@[simp] theorem State.modWg_cur (f : Wg → Wg) : (s.modWg k f).cur = s.cur := rfl
@[simp] theorem State.modWg_turns (f : Wg → Wg) : (s.modWg k f).turns = s.turns := rfl
@[simp] theorem State.modWg_tick (f : Wg → Wg) : (s.modWg k f).tick = s.tick := rfl
@[simp] theorem State.modWg_nextId (f : Wg → Wg) : (s.modWg k f).nextId = s.nextId := rfl
@[simp] theorem State.modWg_pkg (f : Wg → Wg) : (s.modWg k f).pkg j = s.pkg j := rfl
@[simp] theorem State.modWg_die (f : Wg → Wg) : (s.modWg k f).die j = s.die j := rfl
@[simp] theorem State.modWg_quad (f : Wg → Wg) : (s.modWg k f).quad j = s.quad j := rfl
@[simp] theorem State.modWg_core (f : Wg → Wg) : (s.modWg k f).core j = s.core j := rfl
@[simp] theorem State.modWg_unit (f : Wg → Wg) : (s.modWg k f).unit j = s.unit j := rfl
@[simp] theorem State.modWg_fn (f : Wg → Wg) : (s.modWg k f).fn j = s.fn j := rfl
@[simp] theorem State.modWg_fibre (f : Wg → Wg) : (s.modWg k f).fibre j = s.fibre j := rfl
@[simp] theorem State.modWg_ctx (f : Wg → Wg) : (s.modWg k f).ctx j = s.ctx j := rfl
@[simp] theorem State.modWg_gang (f : Wg → Wg) : (s.modWg k f).gang j = s.gang j := rfl
@[simp] theorem State.modWg_thr (f : Wg → Wg) : (s.modWg k f).thr j = s.thr j := rfl

/-! ### modThr -/

@[simp] theorem State.modThr_self (f : Thread → Thread) : (s.modThr k f).thr k = f (s.thr k) := tget_tmod_self ..

theorem State.modThr_thr (f : Thread → Thread) : (s.modThr k f).thr j = if k = j then f (s.thr k) else s.thr j := tget_tmod ..

@[simp] theorem State.modThr_mem (f : Thread → Thread) : (s.modThr k f).mem = s.mem := rfl
@[simp] theorem State.modThr_empties (f : Thread → Thread) : (s.modThr k f).empties = s.empties := rfl
@[simp] theorem State.modThr_poison (f : Thread → Thread) : (s.modThr k f).poison = s.poison := rfl
@[simp] theorem State.modThr_views (f : Thread → Thread) : (s.modThr k f).views = s.views := rfl
@[simp] theorem State.modThr_homeVer (f : Thread → Thread) : (s.modThr k f).homeVer = s.homeVer := rfl
@[simp] theorem State.modThr_viewVer (f : Thread → Thread) : (s.modThr k f).viewVer = s.viewVer := rfl
@[simp] theorem State.modThr_wordVec (f : Thread → Thread) : (s.modThr k f).wordVec = s.wordVec := rfl
@[simp] theorem State.modThr_pkgs (f : Thread → Thread) : (s.modThr k f).pkgs = s.pkgs := rfl
@[simp] theorem State.modThr_dies (f : Thread → Thread) : (s.modThr k f).dies = s.dies := rfl
@[simp] theorem State.modThr_quads (f : Thread → Thread) : (s.modThr k f).quads = s.quads := rfl
@[simp] theorem State.modThr_cores (f : Thread → Thread) : (s.modThr k f).cores = s.cores := rfl
@[simp] theorem State.modThr_units (f : Thread → Thread) : (s.modThr k f).units = s.units := rfl
@[simp] theorem State.modThr_fns (f : Thread → Thread) : (s.modThr k f).fns = s.fns := rfl
@[simp] theorem State.modThr_ctxs (f : Thread → Thread) : (s.modThr k f).ctxs = s.ctxs := rfl
@[simp] theorem State.modThr_homes (f : Thread → Thread) : (s.modThr k f).homes = s.homes := rfl
@[simp] theorem State.modThr_fibres (f : Thread → Thread) : (s.modThr k f).fibres = s.fibres := rfl
@[simp] theorem State.modThr_circuits (f : Thread → Thread) : (s.modThr k f).circuits = s.circuits := rfl
@[simp] theorem State.modThr_gangs (f : Thread → Thread) : (s.modThr k f).gangs = s.gangs := rfl
@[simp] theorem State.modThr_wgs (f : Thread → Thread) : (s.modThr k f).wgs = s.wgs := rfl
@[simp] theorem State.modThr_accs (f : Thread → Thread) : (s.modThr k f).accs = s.accs := rfl
@[simp] theorem State.modThr_notices (f : Thread → Thread) : (s.modThr k f).notices = s.notices := rfl
@[simp] theorem State.modThr_offers (f : Thread → Thread) : (s.modThr k f).offers = s.offers := rfl
@[simp] theorem State.modThr_sillage (f : Thread → Thread) : (s.modThr k f).sillage = s.sillage := rfl
@[simp] theorem State.modThr_msgs (f : Thread → Thread) : (s.modThr k f).msgs = s.msgs := rfl
@[simp] theorem State.modThr_severed (f : Thread → Thread) : (s.modThr k f).severed = s.severed := rfl
@[simp] theorem State.modThr_fwds (f : Thread → Thread) : (s.modThr k f).fwds = s.fwds := rfl
@[simp] theorem State.modThr_cmds (f : Thread → Thread) : (s.modThr k f).cmds = s.cmds := rfl
@[simp] theorem State.modThr_colls (f : Thread → Thread) : (s.modThr k f).colls = s.colls := rfl
@[simp] theorem State.modThr_deliveries (f : Thread → Thread) : (s.modThr k f).deliveries = s.deliveries := rfl
@[simp] theorem State.modThr_pods (f : Thread → Thread) : (s.modThr k f).pods = s.pods := rfl
@[simp] theorem State.modThr_cur (f : Thread → Thread) : (s.modThr k f).cur = s.cur := rfl
@[simp] theorem State.modThr_turns (f : Thread → Thread) : (s.modThr k f).turns = s.turns := rfl
@[simp] theorem State.modThr_tick (f : Thread → Thread) : (s.modThr k f).tick = s.tick := rfl
@[simp] theorem State.modThr_nextId (f : Thread → Thread) : (s.modThr k f).nextId = s.nextId := rfl
@[simp] theorem State.modThr_pkg (f : Thread → Thread) : (s.modThr k f).pkg j = s.pkg j := rfl
@[simp] theorem State.modThr_die (f : Thread → Thread) : (s.modThr k f).die j = s.die j := rfl
@[simp] theorem State.modThr_quad (f : Thread → Thread) : (s.modThr k f).quad j = s.quad j := rfl
@[simp] theorem State.modThr_core (f : Thread → Thread) : (s.modThr k f).core j = s.core j := rfl
@[simp] theorem State.modThr_unit (f : Thread → Thread) : (s.modThr k f).unit j = s.unit j := rfl
@[simp] theorem State.modThr_fn (f : Thread → Thread) : (s.modThr k f).fn j = s.fn j := rfl
@[simp] theorem State.modThr_fibre (f : Thread → Thread) : (s.modThr k f).fibre j = s.fibre j := rfl
@[simp] theorem State.modThr_ctx (f : Thread → Thread) : (s.modThr k f).ctx j = s.ctx j := rfl
@[simp] theorem State.modThr_gang (f : Thread → Thread) : (s.modThr k f).gang j = s.gang j := rfl
@[simp] theorem State.modThr_wg (f : Thread → Thread) : (s.modThr k f).wg j = s.wg j := rfl

/-! ### Serial numbers, free-value counter, performance counters -/

@[simp] theorem State.fresh_fst : s.fresh.1 = s.nextId := rfl
@[simp] theorem State.fresh_nextId : s.fresh.2.nextId = s.nextId + 1 := rfl
@[simp] theorem State.draw_fst : s.draw.1 = s.tick := rfl
@[simp] theorem State.draw_tick : s.draw.2.tick = s.tick + 1 := rfl
@[simp] theorem State.fresh_mem : s.fresh.2.mem = s.mem := rfl
@[simp] theorem State.fresh_empties : s.fresh.2.empties = s.empties := rfl
@[simp] theorem State.fresh_poison : s.fresh.2.poison = s.poison := rfl
@[simp] theorem State.fresh_views : s.fresh.2.views = s.views := rfl
@[simp] theorem State.fresh_homeVer : s.fresh.2.homeVer = s.homeVer := rfl
@[simp] theorem State.fresh_viewVer : s.fresh.2.viewVer = s.viewVer := rfl
@[simp] theorem State.fresh_wordVec : s.fresh.2.wordVec = s.wordVec := rfl
@[simp] theorem State.fresh_pkgs : s.fresh.2.pkgs = s.pkgs := rfl
@[simp] theorem State.fresh_dies : s.fresh.2.dies = s.dies := rfl
@[simp] theorem State.fresh_quads : s.fresh.2.quads = s.quads := rfl
@[simp] theorem State.fresh_cores : s.fresh.2.cores = s.cores := rfl
@[simp] theorem State.fresh_units : s.fresh.2.units = s.units := rfl
@[simp] theorem State.fresh_fns : s.fresh.2.fns = s.fns := rfl
@[simp] theorem State.fresh_ctxs : s.fresh.2.ctxs = s.ctxs := rfl
@[simp] theorem State.fresh_homes : s.fresh.2.homes = s.homes := rfl
@[simp] theorem State.fresh_fibres : s.fresh.2.fibres = s.fibres := rfl
@[simp] theorem State.fresh_circuits : s.fresh.2.circuits = s.circuits := rfl
@[simp] theorem State.fresh_gangs : s.fresh.2.gangs = s.gangs := rfl
@[simp] theorem State.fresh_wgs : s.fresh.2.wgs = s.wgs := rfl
@[simp] theorem State.fresh_threads : s.fresh.2.threads = s.threads := rfl
@[simp] theorem State.fresh_accs : s.fresh.2.accs = s.accs := rfl
@[simp] theorem State.fresh_notices : s.fresh.2.notices = s.notices := rfl
@[simp] theorem State.fresh_offers : s.fresh.2.offers = s.offers := rfl
@[simp] theorem State.fresh_sillage : s.fresh.2.sillage = s.sillage := rfl
@[simp] theorem State.fresh_msgs : s.fresh.2.msgs = s.msgs := rfl
@[simp] theorem State.fresh_severed : s.fresh.2.severed = s.severed := rfl
@[simp] theorem State.fresh_fwds : s.fresh.2.fwds = s.fwds := rfl
@[simp] theorem State.fresh_cmds : s.fresh.2.cmds = s.cmds := rfl
@[simp] theorem State.fresh_colls : s.fresh.2.colls = s.colls := rfl
@[simp] theorem State.fresh_deliveries : s.fresh.2.deliveries = s.deliveries := rfl
@[simp] theorem State.fresh_pods : s.fresh.2.pods = s.pods := rfl
@[simp] theorem State.fresh_cur : s.fresh.2.cur = s.cur := rfl
@[simp] theorem State.fresh_turns : s.fresh.2.turns = s.turns := rfl
@[simp] theorem State.fresh_tick : s.fresh.2.tick = s.tick := rfl
@[simp] theorem State.draw_mem : s.draw.2.mem = s.mem := rfl
@[simp] theorem State.draw_empties : s.draw.2.empties = s.empties := rfl
@[simp] theorem State.draw_poison : s.draw.2.poison = s.poison := rfl
@[simp] theorem State.draw_views : s.draw.2.views = s.views := rfl
@[simp] theorem State.draw_homeVer : s.draw.2.homeVer = s.homeVer := rfl
@[simp] theorem State.draw_viewVer : s.draw.2.viewVer = s.viewVer := rfl
@[simp] theorem State.draw_wordVec : s.draw.2.wordVec = s.wordVec := rfl
@[simp] theorem State.draw_pkgs : s.draw.2.pkgs = s.pkgs := rfl
@[simp] theorem State.draw_dies : s.draw.2.dies = s.dies := rfl
@[simp] theorem State.draw_quads : s.draw.2.quads = s.quads := rfl
@[simp] theorem State.draw_cores : s.draw.2.cores = s.cores := rfl
@[simp] theorem State.draw_units : s.draw.2.units = s.units := rfl
@[simp] theorem State.draw_fns : s.draw.2.fns = s.fns := rfl
@[simp] theorem State.draw_ctxs : s.draw.2.ctxs = s.ctxs := rfl
@[simp] theorem State.draw_homes : s.draw.2.homes = s.homes := rfl
@[simp] theorem State.draw_fibres : s.draw.2.fibres = s.fibres := rfl
@[simp] theorem State.draw_circuits : s.draw.2.circuits = s.circuits := rfl
@[simp] theorem State.draw_gangs : s.draw.2.gangs = s.gangs := rfl
@[simp] theorem State.draw_wgs : s.draw.2.wgs = s.wgs := rfl
@[simp] theorem State.draw_threads : s.draw.2.threads = s.threads := rfl
@[simp] theorem State.draw_accs : s.draw.2.accs = s.accs := rfl
@[simp] theorem State.draw_notices : s.draw.2.notices = s.notices := rfl
@[simp] theorem State.draw_offers : s.draw.2.offers = s.offers := rfl
@[simp] theorem State.draw_sillage : s.draw.2.sillage = s.sillage := rfl
@[simp] theorem State.draw_msgs : s.draw.2.msgs = s.msgs := rfl
@[simp] theorem State.draw_severed : s.draw.2.severed = s.severed := rfl
@[simp] theorem State.draw_fwds : s.draw.2.fwds = s.fwds := rfl
@[simp] theorem State.draw_cmds : s.draw.2.cmds = s.cmds := rfl
@[simp] theorem State.draw_colls : s.draw.2.colls = s.colls := rfl
@[simp] theorem State.draw_deliveries : s.draw.2.deliveries = s.deliveries := rfl
@[simp] theorem State.draw_pods : s.draw.2.pods = s.pods := rfl
@[simp] theorem State.draw_cur : s.draw.2.cur = s.cur := rfl
@[simp] theorem State.draw_turns : s.draw.2.turns = s.turns := rfl
@[simp] theorem State.draw_nextId : s.draw.2.nextId = s.nextId := rfl
@[simp] theorem State.count_mem : (s.count k i n).mem = s.mem := rfl
@[simp] theorem State.count_empties : (s.count k i n).empties = s.empties := rfl
@[simp] theorem State.count_poison : (s.count k i n).poison = s.poison := rfl
@[simp] theorem State.count_views : (s.count k i n).views = s.views := rfl
@[simp] theorem State.count_homeVer : (s.count k i n).homeVer = s.homeVer := rfl
@[simp] theorem State.count_viewVer : (s.count k i n).viewVer = s.viewVer := rfl
@[simp] theorem State.count_wordVec : (s.count k i n).wordVec = s.wordVec := rfl
@[simp] theorem State.count_pkgs : (s.count k i n).pkgs = s.pkgs := rfl
@[simp] theorem State.count_dies : (s.count k i n).dies = s.dies := rfl
@[simp] theorem State.count_quads : (s.count k i n).quads = s.quads := rfl
@[simp] theorem State.count_units : (s.count k i n).units = s.units := rfl
@[simp] theorem State.count_fns : (s.count k i n).fns = s.fns := rfl
@[simp] theorem State.count_ctxs : (s.count k i n).ctxs = s.ctxs := rfl
@[simp] theorem State.count_homes : (s.count k i n).homes = s.homes := rfl
@[simp] theorem State.count_fibres : (s.count k i n).fibres = s.fibres := rfl
@[simp] theorem State.count_circuits : (s.count k i n).circuits = s.circuits := rfl
@[simp] theorem State.count_gangs : (s.count k i n).gangs = s.gangs := rfl
@[simp] theorem State.count_wgs : (s.count k i n).wgs = s.wgs := rfl
@[simp] theorem State.count_threads : (s.count k i n).threads = s.threads := rfl
@[simp] theorem State.count_accs : (s.count k i n).accs = s.accs := rfl
@[simp] theorem State.count_notices : (s.count k i n).notices = s.notices := rfl
@[simp] theorem State.count_offers : (s.count k i n).offers = s.offers := rfl
@[simp] theorem State.count_sillage : (s.count k i n).sillage = s.sillage := rfl
@[simp] theorem State.count_msgs : (s.count k i n).msgs = s.msgs := rfl
@[simp] theorem State.count_severed : (s.count k i n).severed = s.severed := rfl
@[simp] theorem State.count_fwds : (s.count k i n).fwds = s.fwds := rfl
@[simp] theorem State.count_cmds : (s.count k i n).cmds = s.cmds := rfl
@[simp] theorem State.count_colls : (s.count k i n).colls = s.colls := rfl
@[simp] theorem State.count_deliveries : (s.count k i n).deliveries = s.deliveries := rfl
@[simp] theorem State.count_pods : (s.count k i n).pods = s.pods := rfl
@[simp] theorem State.count_cur : (s.count k i n).cur = s.cur := rfl
@[simp] theorem State.count_turns : (s.count k i n).turns = s.turns := rfl
@[simp] theorem State.count_tick : (s.count k i n).tick = s.tick := rfl
@[simp] theorem State.count_nextId : (s.count k i n).nextId = s.nextId := rfl

/-- A count changes the performance counters of its core and nothing else of any core (15_counters R261). -/
theorem State.count_core : (s.count k i n).core j =
    if k = j then { s.core k with perf := lset (s.core k).perf i ((s.core k).perf.getD i 0 + BitVec.ofNat 64 n) } else s.core j :=
  State.modCore_core ..

end Sys2Proof.Machine
end

