-- ==== Sys2Proof/Laws/Run.lean ====
section
/-! SUPPORT. What running a word does, said once: with no register in error, the word's body runs on all guard-active threads; a body
that only computes changes its threads' registers and the issue counters. -/

namespace Sys2Proof.Machine

/-! ### No register error -/

theorem clean_of_mem {s : State} {c : Site} (h : s.regsOk c = true) {i : Nat} (hi : i ∈ c.tids ++ s.liveTids c.wg) :
    s.cleanThread c.wg i = true :=
  List.all_eq_true.mp (Bool.and_eq_true_iff.mp (Bool.and_eq_true_iff.mp h).1).1 i hi

theorem badK_of_quiet {s : State} {c : Site} (h : s.regsOk c = true) : (s.wg c.wg).badK = [] := by
  simpa using (Bool.and_eq_true_iff.mp (Bool.and_eq_true_iff.mp h).1).2

theorem oneK_of_quiet {s : State} {c : Site} (h : s.regsOk c = true) : (s.wg c.wg).oneK = [] := by
  simpa using (Bool.and_eq_true_iff.mp h).2

theorem bad_of_clean {s : State} {wk i : Nat} (h : s.cleanThread wk i = true) (n : Nat) :
    (s.thr (thrKey wk i)).bad n = false := by
  simp only [State.cleanThread, Bool.and_eq_true, beq_iff_eq] at h
  obtain ⟨⟨⟨hb, hl⟩, hh⟩, -⟩ := h
  simp [Thread.bad, Thread.poisonBit, hb, hl, hh]

theorem badX_of_clean {s : State} {wk i : Nat} (h : s.cleanThread wk i = true) : (s.thr (thrKey wk i)).badX = [] := by
  simp only [State.cleanThread, Bool.and_eq_true, beq_iff_eq] at h
  exact h.1.1.1

theorem oneX_of_clean {s : State} {wk i : Nat} (h : s.cleanThread wk i = true) : (s.thr (thrKey wk i)).oneX = [] := by
  simp only [State.cleanThread, Bool.and_eq_true, beq_iff_eq] at h
  exact h.2

theorem laneTid_mem {s : State} {c : Site} {j i : Nat} (h : s.laneTid c j = some i) : i ∈ c.tids :=
  List.mem_of_find?_eq_some h

theorem badAt_quiet {s : State} {c : Site} (h : s.regsOk c = true) (j n : Nat) : s.badAt c j n = false := by
  unfold State.badAt
  split
  · next i hi => exact bad_of_clean (clean_of_mem h (List.mem_append_left _ (laneTid_mem hi))) n
  · rfl

theorem eccTrap_quiet {s : State} {c : Site} (h : s.regsOk c = true) (rd : Reads) (kr : List (Nat × Bool)) (e : Env) :
    s.eccTrap c rd kr e = none := by
  have h1 : (rd.find? fun (j, n, _) => s.badAt c j n) = none := by simp [List.find?_eq_none, badAt_quiet h]
  have h2 : (kr.find? fun (n, _) => (s.wg c.wg).badK.contains n) = none := by simp [List.find?_eq_none, badK_of_quiet h]
  simp only [State.eccTrap]
  rw [h1, h2]

theorem foldl_fixed {α β : Type} (f : β → α → β) (l : List α) (b : β) (h : ∀ a ∈ l, f b a = b) : l.foldl f b = b := by
  induction l with
  | nil => rfl
  | cons a r ih =>
    rw [List.foldl_cons, h a (by simp)]
    exact ih fun x hx => h x (List.mem_cons_of_mem _ hx)

theorem quietErrors_quiet {s : State} {c : Site} {quiet : List (Nat × Nat)}
    (h : ∀ p ∈ quiet, s.cleanThread c.wg p.1 = true) : s.quietErrors c quiet = s := by
  unfold State.quietErrors
  refine foldl_fixed _ _ _ fun p hp => ?_
  simp [badX_of_clean (h p hp)]

theorem corrected_quiet {s : State} {c : Site} (hs : s.regsOk c = true) {xs : List (Nat × Nat)} (ks : List Nat)
    (h : ∀ p ∈ xs, s.cleanThread c.wg p.1 = true) : s.corrected c xs ks = s := by
  unfold State.corrected
  have h1 := foldl_fixed (fun s (p : Nat × Nat) =>
    if (s.thr (thrKey c.wg p.1)).oneX.contains p.2 then
      (s.modThr (thrKey c.wg p.1) fun t => { t with oneX := t.oneX.filter (· != p.2) }).modCore (coreKey c.pkg c.core) Core.correct
    else s) xs s fun p hp => by simp [oneX_of_clean (h p hp)]
  simp only
  rw [h1]
  exact foldl_fixed _ _ _ fun n _ => by simp [oneK_of_quiet hs]

theorem readWords_tid {s : State} {c : Site} {rd : Reads} {p : Nat × Nat} (h : p ∈ s.readWords c rd) : p.1 ∈ c.tids := by
  obtain ⟨⟨j, n, b⟩, -, hp⟩ := List.mem_filterMap.mp h
  simp only [Option.map_eq_some_iff] at hp
  obtain ⟨i, hi, rfl⟩ := hp
  exact laneTid_mem hi

theorem handlerErrors_quiet {s : State} {c : Site} (h : s.regsOk c = true) (rds : List Reads) : s.handlerErrors c rds = s := by
  unfold State.handlerErrors
  refine foldl_fixed _ _ _ fun rd _ => foldl_fixed _ _ _ fun p _ => ?_
  obtain ⟨j, n, b⟩ := p
  simp only
  split
  · next i hi => simp [badX_of_clean (clean_of_mem h (List.mem_append_left _ (laneTid_mem hi)))]
  · rfl

theorem siblings_live {s : State} {wk : Nat} {t : Thread} {i : Nat} (h : i ∈ s.siblings wk t) : i ∈ s.liveTids wk :=
  List.mem_of_mem_filter h

theorem idleReaders_clean {s : State} {c : Site} (h : s.regsOk c = true) {idle : List Nat} (hi : ∀ i ∈ idle, i ∈ c.tids) :
    ∀ i ∈ s.idleReaders c idle, s.cleanThread c.wg i = true := by
  intro i
  unfold State.idleReaders
  split
  · intro hm; cases hm
  · intro hm
    rcases List.mem_append.mp hm with hm | hm
    · exact clean_of_mem h (List.mem_append_left _ (hi i hm))
    · exact clean_of_mem h (List.mem_append_right _ (siblings_live (List.mem_of_mem_filter hm)))

/-- With no register in error, the register checks find and change nothing. -/
theorem regErrors_quiet {s : State} {c : Site} (h : s.regsOk c = true) {quiet : List (Nat × Nat)}
    (rds : List (Env × Reads × List (Nat × Bool))) (hq : ∀ p ∈ quiet, s.cleanThread c.wg p.1 = true) :
    s.regErrors c quiet rds = (s, []) := by
  unfold State.regErrors
  simp only
  rw [corrected_quiet h _ fun p hp => ?_]
  · split
    · rw [handlerErrors_quiet h]
    · rw [quietErrors_quiet fun p hp => hq p (List.mem_of_mem_filter hp)]
      simp [eccTrap_quiet h]
  · rcases List.mem_append.mp hp with hp | hp
    · exact hq p hp
    · exact clean_of_mem h (List.mem_append_left _ (readWords_tid hp))

/-! ### A word's body -/

/-- What a body's answer makes of the machine when no register is in error. -/
def Ran.outcome (r : Ran) (s : State) (c : Site) (idle : List Nat) : Host.Outcome State Fault Refusal :=
  match r with
  | .illegal => .next (s.illegal c)
  | .held => .next s
  | .done s2 fin => .next (s2.finish c idle fin [])

/-- A legal word with no register in error runs its body on every guard-active thread. -/
theorem runWord_eq {i : Instr} {g : Guard} {rd : Frag → Env → Reads} {ok : State → Site → Bool} {body : Body} {s : State}
    {c : Site} (h : s.Issues c i) (hok : ok s c = true) :
    runWord i g rd ok body s = (body s c (s.frag c g) (s.frag c g)).outcome s c (s.idle c g) := by
  have hi : ∀ p ∈ (s.idleReaders c (c.tids.filter fun t => !(s.env c.wg t).guarded g)).flatMap
      (fun t => (names i).xr.map fun r => (t, r)), s.cleanThread c.wg p.1 = true := by
    intro p hp
    obtain ⟨t, ht, hp⟩ := List.mem_flatMap.mp hp
    obtain ⟨r, -, rfl⟩ := List.mem_map.mp hp
    exact idleReaders_clean h.regsOk (fun i hi => List.mem_of_mem_filter hi) t ht
  simp only [runWord, h.cur, h.ok, hok, Bool.and_self, Bool.not_true, Bool.false_eq_true, if_false,
    regErrors_quiet h.regsOk _ hi, List.any_nil, Bool.not_false, List.filter_true, List.isEmpty_nil, Bool.and_false, bodyUnless]
  rfl

/-- A word that is not legal here takes ILLEGAL in every thread of its fragment (03_encoding R68). -/
theorem runWord_illegal {i : Instr} {g : Guard} {rd : Frag → Env → Reads} {ok : State → Site → Bool} {body : Body}
    {s : State} {c : Site} (hc : s.cur = some c) (h : (s.wordOk c i && ok s c) = false) :
    runWord i g rd ok body s = .next (s.illegal c) := by
  simp only [runWord, hc, h, Bool.not_false, if_true]

/-- Every word of an issuing fragment answers a next state. -/
theorem runWord_next {i : Instr} {g : Guard} {rd : Frag → Env → Reads} {ok : State → Site → Bool} {body : Body} {s : State}
    {c : Site} (hc : s.cur = some c) : ∃ t, runWord i g rd ok body s = .next t := by
  simp only [runWord, hc]
  split
  · exact ⟨_, rfl⟩
  · split <;> exact ⟨_, rfl⟩

/-! ### Changing the threads of a site -/

theorem thrKey_inj {wk i j : Nat} (h : thrKey wk i = thrKey wk j) : i = j := by
  simp only [thrKey] at h; omega

/-- Changing a list of distinct threads changes each once. -/
theorem foldl_modThr {α : Type} (wk : Nat) (l : List α) (tid : α → Nat) (f : α → Thread → Thread) (s : State)
    (hn : (l.map tid).Nodup) (k : Nat) :
    (l.foldl (fun s a => s.modThr (thrKey wk (tid a)) (f a)) s).thr k =
      match l.find? fun a => thrKey wk (tid a) == k with
      | some a => f a (s.thr k)
      | none => s.thr k := by
  induction l generalizing s with
  | nil => rfl
  | cons a r ih =>
    simp only [List.map_cons, List.nodup_cons] at hn
    rw [List.foldl_cons, ih _ hn.2, List.find?_cons]
    by_cases hk : thrKey wk (tid a) = k
    · have : (r.find? fun b => thrKey wk (tid b) == k) = none := by
        rw [List.find?_eq_none]
        intro b hb hbk
        exact hn.1 (List.mem_map.mpr ⟨b, hb, thrKey_inj ((beq_iff_eq.mp hbk).trans hk.symm)⟩)
      subst hk
      simp [this]
    · simp only [beq_eq_false_iff_ne.mpr hk, State.modThr_thr, if_neg hk]

theorem foldl_modThr_threads {α : Type} (key : α → Nat) (l : List α) (f : α → Thread → Thread) (s : State) :
    ∃ ts, l.foldl (fun s a => s.modThr (key a) (f a)) s = { s with threads := ts } := by
  induction l generalizing s with
  | nil => exact ⟨s.threads, rfl⟩
  | cons a r ih =>
    obtain ⟨ts, h⟩ := ih (s.modThr (key a) (f a))
    exact ⟨ts, by rw [List.foldl_cons, h]; rfl⟩

/-! ### Finishing a word -/

/-- A fate that is no trap and lets the word issue. -/
def Fin.plain (f : Fin) : Bool := match f with | .trap _ => false | .held => false | _ => true

theorem trapsOf_plain {fin : List (Nat × Fin)} (h : ∀ p ∈ fin, p.2.plain = true) : trapsOf fin = [] := by
  induction fin with
  | nil => rfl
  | cons p r ih =>
    obtain ⟨i, f⟩ := p
    have hf := h (i, f) (by simp)
    have hr := ih fun q hq => h q (List.mem_cons_of_mem _ hq)
    cases f <;> first | exact hr | simp [Fin.plain] at hf

/-- When no active thread holds the word, the inactive ones go on. -/
theorem goers_idle {idle : List Nat} {fin : List (Nat × Fin)} (h : ∀ p ∈ fin, (p.2 == .held) = false) : goers idle fin = idle := by
  cases fin with
  | nil => rfl
  | cons p r => simp [goers, h p (by simp)]

theorem goers_plain {idle : List Nat} {fin : List (Nat × Fin)} (h : ∀ p ∈ fin, p.2.plain = true) : goers idle fin = idle :=
  goers_idle fun p hp => by
    have := h p hp
    cases hf : p.2 <;> simp_all [Fin.plain]

/-- A word's fates put into the threads, and its issue counted; traps come after. -/
def State.settled (s : State) (c : Site) (idle : List Nat) (fin : List (Nat × Fin)) : State :=
  let u := fin.foldl (fun s (p : Nat × Fin) => s.modThr (thrKey c.wg p.1) (p.2.apply c))
    (s.modTids c.wg idle fun t => t.goto c.nextPc)
  let n := (fin.filter fun p => p.2.issued c).length
  if idle.isEmpty && n == 0 then u else (u.count (coreKey c.pkg c.core) 0 1).count (coreKey c.pkg c.core) 1 n

theorem finish_eq (s : State) (c : Site) (idle : List Nat) (fin : List (Nat × Fin)) :
    s.finish c idle fin [] =
      match trapsOf fin with
      | [] => s.settled c (goers idle fin) fin
      | p :: r => (s.settled c (goers idle fin) fin).trap c.wg (p :: r) := by
  unfold State.finish
  rw [List.nil_append]
  cases trapsOf fin <;> rfl

theorem finish_plain {s : State} {c : Site} {idle : List Nat} {fin : List (Nat × Fin)} (hp : ∀ p ∈ fin, p.2.plain = true) :
    s.finish c idle fin [] = s.settled c idle fin := by
  rw [finish_eq, trapsOf_plain hp, goers_plain hp]

/-- Guard-inactive threads go on, each other takes its fate, and of the cores only issue counters change. -/
theorem settled_eq (s : State) (c : Site) (idle : List Nat) (fin : List (Nat × Fin)) :
    let u := fin.foldl (fun s (p : Nat × Fin) => s.modThr (thrKey c.wg p.1) (p.2.apply c))
      (s.modTids c.wg idle fun t => t.goto c.nextPc)
    let t := s.settled c idle fin
    t = { u with cores := t.cores } ∧
      ∀ k, t.core k = if k = coreKey c.pkg c.core then { u.core k with perf := (t.core k).perf } else u.core k := by
  intro u t
  have ht : t = if idle.isEmpty && (fin.filter fun p => p.2.issued c).length == 0 then u
      else (u.count (coreKey c.pkg c.core) 0 1).count (coreKey c.pkg c.core) 1 (fin.filter fun p => p.2.issued c).length := rfl
  rw [ht]
  split
  · refine ⟨rfl, fun k => ?_⟩
    split <;> rfl
  · refine ⟨rfl, fun k => ?_⟩
    simp only [State.count_core]
    by_cases hk : coreKey c.pkg c.core = k
    · subst hk; simp
    · simp [hk, Ne.symm hk]

theorem find_tid {wk : Nat} {l : List Env} {i : Nat} (h : ∃ e ∈ l, e.tid = i) (hn : (l.map Env.tid).Nodup) :
    ∃ e ∈ l, e.tid = i ∧ (l.find? fun e => thrKey wk e.tid == thrKey wk i) = some e := by
  induction l with
  | nil => obtain ⟨e, he, _⟩ := h; cases he
  | cons a r ih =>
    simp only [List.map_cons, List.nodup_cons] at hn
    by_cases ha : a.tid = i
    · exact ⟨a, by simp, ha, by simp [ha]⟩
    · obtain ⟨e, he, hi⟩ := h
      have her : e ∈ r := by rcases List.mem_cons.mp he with rfl | he; exact absurd hi ha; exact he
      obtain ⟨e', he', hi', hf⟩ := ih ⟨e, her, hi⟩ hn.2
      refine ⟨e', List.mem_cons_of_mem _ he', hi', ?_⟩
      have hk : (thrKey wk a.tid == thrKey wk i) = false := beq_eq_false_iff_ne.mpr fun h => ha (thrKey_inj h)
      rw [List.find?_cons, hk]
      exact hf

theorem find_out {wk k : Nat} {α : Type} (l : List α) (tid : α → Nat) (h : ∀ a ∈ l, k ≠ thrKey wk (tid a)) :
    (l.find? fun a => thrKey wk (tid a) == k) = none := by
  rw [List.find?_eq_none]
  intro a ha hk
  exact h a ha (beq_iff_eq.mp hk).symm

theorem count_thr (s : State) (ck i n k : Nat) : (s.count ck i n).thr k = s.thr k := rfl

theorem frag_tids (s : State) (c : Site) (g : Guard) :
    (s.frag c g).map Env.tid = c.tids.filter fun i => (s.env c.wg i).guarded g := by
  simp only [State.frag, List.map_map]
  exact List.map_id' _

theorem env_of_frag {s : State} {c : Site} {g : Guard} {e : Env} (h : e ∈ s.frag c g) :
    e.tid ∈ c.tids ∧ e = s.env c.wg e.tid ∧ e.guarded g = true := by
  obtain ⟨i, hi, rfl⟩ := List.mem_map.mp h
  exact ⟨List.mem_of_mem_filter hi, rfl, (List.mem_filter.mp hi).2⟩

theorem frag_nodup {s : State} {c : Site} (hn : c.tids.Nodup) (g : Guard) : ((s.frag c g).map Env.tid).Nodup := by
  rw [frag_tids]; exact hn.filter _

theorem mem_frag {s : State} {c : Site} {g : Guard} {i : Nat} (hi : i ∈ c.tids) (hg : (s.env c.wg i).guarded g = true) :
    s.env c.wg i ∈ s.frag c g := List.mem_map.mpr ⟨i, List.mem_filter.mpr ⟨hi, hg⟩, rfl⟩

/-- Changing the guard-active threads of a site one by one. -/
theorem frag_foldl {s : State} (v : State) {c : Site} {g : Guard} (hn : c.tids.Nodup) (upd : Env → Thread → Thread) :
    let w := (s.frag c g).foldl (fun s e => s.modThr (thrKey c.wg e.tid) (upd e)) v
    (∀ i ∈ c.tids, w.thr (thrKey c.wg i) =
      if (s.env c.wg i).guarded g then upd (s.env c.wg i) (v.thr (thrKey c.wg i)) else v.thr (thrKey c.wg i)) ∧
    (∀ k, (∀ i ∈ c.tids, k ≠ thrKey c.wg i) → w.thr k = v.thr k) ∧ w = { v with threads := w.threads } := by
  intro w
  have h1 : ∀ k, w.thr k = _ := foldl_modThr c.wg (s.frag c g) Env.tid (fun e => upd e) v (frag_nodup hn g)
  refine ⟨fun i hi => ?_, fun k hk => ?_, ?_⟩
  · rw [h1]
    by_cases hg : (s.env c.wg i).guarded g = true
    · obtain ⟨e, he, hei, hf⟩ := find_tid (wk := c.wg) ⟨_, mem_frag hi hg, rfl⟩ (frag_nodup hn g)
      have hei' : e.tid = i := hei
      have hee : e = s.env c.wg i := by rw [← hei']; exact (env_of_frag he).2.1
      have hf' : ((s.frag c g).find? fun e => thrKey c.wg e.tid == thrKey c.wg i) = some e := hf
      rw [hf', if_pos hg, ← hee]
    · have hnone : ((s.frag c g).find? fun e => thrKey c.wg e.tid == thrKey c.wg i) = none := by
        refine find_out _ Env.tid fun e he hk => hg ?_
        have := env_of_frag he
        rw [thrKey_inj hk, ← this.2.1]
        exact this.2.2
      rw [hnone, if_neg hg]
  · rw [h1, find_out (wk := c.wg) (k := k) (s.frag c g) Env.tid fun e he => hk _ (env_of_frag he).1]
  · obtain ⟨ts, ht⟩ := foldl_modThr_threads (fun e : Env => thrKey c.wg e.tid) (s.frag c g) (fun e => upd e) v
    have hw : w = { v with threads := ts } := ht
    rw [hw]

/-- A word's fates in the threads of its site. -/
theorem settled_leaves {s : State} (v : State) {c : Site} {g : Guard} (hn : c.tids.Nodup) (fate : Env → Fin) :
    Leaves s v c g (fun e t => (fate e).apply c t)
      (v.settled c (s.idle c g) ((s.frag c g).map fun e => (e.tid, fate e))) := by
  obtain ⟨ht, hc⟩ := settled_eq v c (s.idle c g) ((s.frag c g).map fun e => (e.tid, fate e))
  let t := v.settled c (s.idle c g) ((s.frag c g).map fun e => (e.tid, fate e))
  let v2 := v.modTids c.wg (s.idle c g) fun t => t.goto c.nextPc
  have hni : ((s.idle c g).map id).Nodup := by rw [List.map_id]; exact hn.filter _
  have h2 : ∀ k, v2.thr k = _ := foldl_modThr c.wg (s.idle c g) id (fun _ (u : Thread) => u.goto c.nextPc) v hni
  obtain ⟨t2, hv2⟩ := foldl_modThr_threads (fun i => thrKey c.wg i) (s.idle c g) (fun _ (u : Thread) => u.goto c.nextPc) v
  have hv2' : v2 = { v with threads := t2 } := hv2
  obtain ⟨ha, hb, hw⟩ := frag_foldl (s := s) v2 (g := g) hn fun e => (fate e).apply c
  rw [List.foldl_map] at ht hc
  have h3 : ∀ k, t.thr k = State.thr _ k := fun k => congrArg (State.thr · k) ht
  refine ⟨fun i hi => ?_, fun k hk => ?_, fun k => ?_, ?_⟩
  · refine (h3 _).trans ((ha i hi).trans ?_)
    rw [h2]
    by_cases hg : (s.env c.wg i).guarded g = true
    · have hidle : ((s.idle c g).find? fun j => thrKey c.wg (id j) == thrKey c.wg i) = none := by
        refine find_out _ id fun j hj hk => ?_
        have := thrKey_inj hk
        subst this
        have := (List.mem_filter.mp hj).2
        simp [hg] at this
      rw [if_pos hg, if_pos hg, hidle]
    · have hgf : (s.env c.wg i).guarded g = false := by simpa using hg
      obtain ⟨j, hj⟩ := Option.isSome_iff_exists.mp (List.find?_isSome.mpr
        ⟨i, List.mem_filter.mpr ⟨hi, by simp [hgf]⟩, by simp⟩ :
        ((s.idle c g).find? fun j => thrKey c.wg (id j) == thrKey c.wg i).isSome)
      rw [if_neg hg, if_neg hg, hj]
  · refine (h3 _).trans ((hb k hk).trans ?_)
    rw [h2, find_out (wk := c.wg) (k := k) (s.idle c g) id fun j hj => hk _ (List.mem_of_mem_filter hj)]
  · have hu : (List.foldl (fun s (e : Env) => s.modThr (thrKey c.wg e.tid) ((fate e).apply c)) v2 (s.frag c g)).core k = v.core k := by
      rw [hw, hv2']; rfl
    exact (hc k).trans (by rw [hu])
  · obtain ⟨t3, h3⟩ := foldl_modThr_threads (fun e : Env => thrKey c.wg e.tid) (s.frag c g) (fun e => (fate e).apply c) v2
    have h1 : t = { v2 with threads := t3, cores := t.cores } := ht.trans (by rw [h3])
    have h0 : t = { v with threads := t3, cores := t.cores } := h1.trans (by rw [hv2'])
    change t = { v with threads := t.threads, cores := t.cores }
    rw [h0]

/-- Finishing a word whose fates are plain. -/
theorem finish_leaves {s : State} (v : State) {c : Site} {g : Guard} (hn : c.tids.Nodup) (fate : Env → Fin)
    (hp : ∀ e ∈ s.frag c g, (fate e).plain = true) :
    Leaves s v c g (fun e t => (fate e).apply c t)
      (v.finish c (s.idle c g) ((s.frag c g).map fun e => (e.tid, fate e)) []) := by
  rw [finish_plain fun p hp' => by obtain ⟨e, he, rfl⟩ := List.mem_map.mp hp'; exact hp e he]
  exact settled_leaves v hn fate

/-- A word whose body, from `v` on, changes its guard-active threads by `upd` and gives each the plain fate `fate`. -/
theorem done_leaves {s : State} (v : State) {c : Site} {g : Guard} (hn : c.tids.Nodup) (upd : Env → Thread → Thread)
    (fate : Env → Fin) (hp : ∀ e ∈ s.frag c g, (fate e).plain = true) :
    let t := ((s.frag c g).foldl (fun s e => s.modThr (thrKey c.wg e.tid) (upd e)) v).finish c (s.idle c g)
      ((s.frag c g).map fun e => (e.tid, fate e)) []
    Leaves s v c g (fun e u => (fate e).apply c (upd e u)) t := by
  intro t
  obtain ⟨ha, hb, hw⟩ := frag_foldl (s := s) v (g := g) hn upd
  have hl := finish_leaves (s := s) ((s.frag c g).foldl (fun s e => s.modThr (thrKey c.wg e.tid) (upd e)) v) (g := g) hn fate hp
  refine ⟨fun i hi => ?_, fun k hk => (hl.2.1 k hk).trans (hb k hk), fun k => ?_, ?_⟩
  · rw [hl.1 i hi, ha i hi]
    by_cases hg : (s.env c.wg i).guarded g = true
    · simp only [hg, if_true]
    · simp only [hg, Bool.false_eq_true, if_false]
  · have hc : ((s.frag c g).foldl (fun s e => s.modThr (thrKey c.wg e.tid) (upd e)) v).core k = v.core k := by rw [hw]; rfl
    exact (hl.2.2.1 k).trans (by rw [hc])
  · obtain ⟨t1, h1⟩ := foldl_modThr_threads (fun e : Env => thrKey c.wg e.tid) (s.frag c g) (fun e => upd e) v
    have h0 : ∀ w u : State, w = { v with threads := t1 } → u = { w with threads := u.threads, cores := u.cores } →
        u = { v with threads := u.threads, cores := u.cores } := by
      intro w u hw hu; subst hw; exact hu
    exact h0 _ _ h1 hl.2.2.2

/-- A word that computes in each thread from what its fragment reads. -/
theorem runLane_spec {i : Instr} {g : Guard} {rd : Frag → Env → Reads} {f : Frag → Env → Out} {s : State} {c : Site}
    (h : s.Issues c i) : ∃ t, runWord i g rd always (laneBody f) s = .next t ∧ Computes s c g f t := by
  exact ⟨_, runWord_eq h rfl, done_leaves s (g := g) h.nodup (fun e u => u.out (f (s.frag c g) e)) (fun _ => .next) fun _ _ => rfl⟩

/-- The same for a meaning `m` that is such a word and for results written otherwise. -/
theorem computes_of {i : Instr} {g : Guard} {rd : Frag → Env → Reads} {f f' : Frag → Env → Out} {s : State} {c : Site}
    {m : Host.Outcome State Fault Refusal} (hm : m = runWord i g rd always (laneBody f) s) (h : s.Issues c i)
    (hf : ∀ fr e, f fr e = f' fr e) : ∃ u, m = .next u ∧ Computes s c g f' u := by
  obtain rfl : f = f' := funext fun fr => funext fun e => hf fr e
  rw [hm]
  exact runLane_spec h

/-- A word whose body makes `v` of the state outside its threads, changes its guard-active threads by `upd` and gives each the plain
fate `fate`. -/
theorem leaves_of {i : Instr} {g : Guard} {rd : Frag → Env → Reads} {ok : State → Site → Bool} {body : Body} {s v : State}
    {c : Site} {m : Host.Outcome State Fault Refusal} {act : Env → Thread → Thread} (hm : m = runWord i g rd ok body s)
    (h : s.Issues c i) (hok : ok s c = true) (upd : Env → Thread → Thread) (fate : Env → Fin)
    (hb : body s c (s.frag c g) (s.frag c g) =
      .done ((s.frag c g).foldl (fun s e => s.modThr (thrKey c.wg e.tid) (upd e)) v) ((s.frag c g).map fun e => (e.tid, fate e)))
    (hp : ∀ e ∈ s.frag c g, (fate e).plain = true)
    (ha : ∀ e ∈ s.frag c g, (fate e).apply c (upd e (v.thr (thrKey c.wg e.tid))) = act e (v.thr (thrKey c.wg e.tid))) :
    ∃ u, m = .next u ∧ Leaves s v c g act u := by
  have hl := done_leaves (s := s) v (g := g) h.nodup upd fate hp
  refine ⟨_, by rw [hm, runWord_eq h hok, hb]; rfl, ⟨fun i hi => ?_, hl.2.1, hl.2.2.1, hl.2.2.2⟩⟩
  rw [hl.1 i hi]
  by_cases hg : (s.env c.wg i).guarded g = true
  · rw [if_pos hg, if_pos hg]
    exact ha _ (List.mem_map.mpr ⟨i, List.mem_filter.mpr ⟨hi, hg⟩, rfl⟩)
  · rw [if_neg hg, if_neg hg]

end Sys2Proof.Machine
end

