-- ==== Sys2Proof/Laws/Control.lean ====
section
/-! SUPPORT. What the shared bodies of control words do, and what taking a trap does: jumps, words that change each executing thread
alone, and the entry of a handler. -/

namespace Sys2Proof.Machine

/-! ### Words that change each executing thread alone -/

/-- A word whose body is `threadBody f`. -/
theorem thread_of {i : Instr} {g : Guard} {rd : Frag → Env → Reads} {ok : State → Site → Bool} {s : State} {c : Site}
    {m : Host.Outcome State Fault Refusal} {f : Env → Thread → Thread} (hm : m = runWord i g rd ok (threadBody f) s)
    (h : s.Issues c i) (hok : ok s c = true) :
    ∃ u, m = .next u ∧ OnlyThreads s c g (fun e t => (f e t).goto c.nextPc) u :=
  leaves_of hm h hok f (fun _ => .next) rfl (fun _ _ => rfl) fun _ _ => rfl

/-- Changing threads by the identity changes nothing that an accessor sees. -/
theorem Leaves.congr {s v : State} {c : Site} {g : Guard} {act act' : Env → Thread → Thread} {u : State}
    (h : Leaves s v c g act u) (ha : ∀ e ∈ s.frag c g, act e (v.thr (thrKey c.wg e.tid)) = act' e (v.thr (thrKey c.wg e.tid))) :
    Leaves s v c g act' u := by
  refine ⟨fun i hi => ?_, h.2⟩
  rw [h.1 i hi]
  by_cases hg : (s.env c.wg i).guarded g = true
  · rw [if_pos hg, if_pos hg]
    exact ha _ (List.mem_map.mpr ⟨i, List.mem_filter.mpr ⟨hi, hg⟩, rfl⟩)
  · rw [if_neg hg, if_neg hg]

/-! ### Jumps (09_control R163) -/

theorem toTarget_aligned (c : Site) {t : W64} (h : t.toNat % 8 = 0) : toTarget c t = .goto t := by simp [toTarget, h]

theorem toTarget_misaligned (c : Site) {t : W64} (h : t.toNat % 8 ≠ 0) :
    toTarget c t = .trap { cause := .badpc, pc := c.pc, addr := t } := by simp [toTarget, h]

/-- A jump without a link whose targets are aligned. -/
theorem jump_of {i : Instr} {g : Guard} {rd : Frag → Env → Reads} {s : State} {c : Site} {tg : Site → Frag → Env → W64}
    {m : Host.Outcome State Fault Refusal} (hm : m = runWord i g rd always (jumpBody tg none) s) (h : s.Issues c i)
    (ha : ∀ e ∈ s.frag c g, (tg c (s.frag c g) e).toNat % 8 = 0) :
    ∃ u, m = .next u ∧ OnlyThreads s c g (fun e t => t.goto (tg c (s.frag c g) e)) u := by
  have hl := finish_leaves (s := s) s (g := g) h.nodup (fun e => toTarget c (tg c (s.frag c g) e))
    fun e he => by rw [toTarget_aligned c (ha e he)]; rfl
  exact ⟨_, by rw [hm, runWord_eq h rfl]; rfl, hl.congr fun e he => by rw [toTarget_aligned c (ha e he)]; rfl⟩

/-- A jump with a link whose targets are aligned. -/
theorem jumpLink_of {i : Instr} {g : Guard} {rd : Frag → Env → Reads} {s : State} {c : Site} {tg : Site → Frag → Env → W64}
    {d : XReg} {m : Host.Outcome State Fault Refusal} (hm : m = runWord i g rd always (jumpBody tg (some d)) s)
    (h : s.Issues c i) (ha : ∀ e ∈ s.frag c g, (tg c (s.frag c g) e).toNat % 8 = 0) :
    ∃ u, m = .next u ∧ OnlyThreads s c g (fun e t => (t.wxs (put64 d c.nextPc.toNat)).goto (tg c (s.frag c g) e)) u := by
  refine leaves_of hm h rfl (fun _ t => t.wxs (put64 d c.nextPc.toNat)) (fun e => .goto (tg c (s.frag c g) e)) ?_
    (fun _ _ => rfl) fun _ _ => rfl
  have hh : ((s.frag c g).map fun e => (e.tid, toTarget c (tg c (s.frag c g) e))) =
      (s.frag c g).map fun e => (e.tid, Fin.goto (tg c (s.frag c g) e)) :=
    List.map_congr_left fun e he => by rw [toTarget_aligned c (ha e he)]
  simp only [jumpBody, hh]
  rw [List.foldl_map]

/-! ### Taking a trap (10_trap_state R179 to R182) -/

/-- Traps of threads outside handler mode, none of which halts: each enters its handler. -/
theorem trap_enters {s : State} {wk : Nat} {who : List (Nat × TrapInfo)}
    (hh : ∀ p ∈ who, (s.thr (thrKey wk p.1)).handler = false)
    (hc : ∀ p ∈ who, p.2.cause.halts (s.haltd wk) = false) :
    s.trap wk who = who.foldl (fun s' p => s'.modThr (thrKey wk p.1) fun t =>
      t.enter p.2 (s.launchOf (s.wg wk)).vec (s.sibMask wk (who.map Prod.fst)) false) s := by
  have h1 : (who.filter fun p => (s.thr (thrKey wk p.1)).handler) = [] := by
    rw [List.filter_eq_nil_iff]; intro p hp; simp [hh p hp]
  have h2 : (who.filter fun p => !(s.thr (thrKey wk p.1)).handler) = who := by
    rw [List.filter_eq_self]; intro p hp; simp [hh p hp]
  have h3 : (who.filter fun p => p.2.cause.halts (s.haltd wk)) = [] := by
    rw [List.filter_eq_nil_iff]; intro p hp; simp only [hc p hp, Bool.false_eq_true, not_false_eq_true]
  simp only [State.trap, State.takeTraps]
  rw [h1, h2, h3]
  simp only
  generalize hv : (s.launchOf (s.wg wk)).vec = vec
  generalize s.sibMask wk (who.map Prod.fst) = sib
  have : ∀ (l : List (Nat × TrapInfo)) (t : State), (∀ p ∈ l, p ∈ who) →
      l.foldl (fun s' p => s'.modThr (thrKey wk p.1) fun t => t.enter p.2 vec sib
        (p.2.cause.halts (s.haltd wk))) t =
      l.foldl (fun s' p => s'.modThr (thrKey wk p.1) fun t => t.enter p.2 vec sib false) t := by
    intro l
    induction l with
    | nil => intro _ _; rfl
    | cons p r ih =>
      intro t hl
      rw [List.foldl_cons, List.foldl_cons, hc p (hl p (by simp))]
      exact ih _ fun q hq => hl q (List.mem_cons_of_mem _ hq)
  exact this who s fun _ hp => hp

theorem trapsOf_map (l : List Env) (info : Env → TrapInfo) :
    trapsOf (l.map fun e => (e.tid, Fin.trap (info e))) = l.map fun e => (e.tid, info e) := by
  induction l with
  | nil => rfl
  | cons e r ih => simp only [List.map_cons, trapsOf, ih]

/-- SIBMASK depends on where the threads stand only through who is live, their groups and their lanes. -/
theorem sibMask_congr {s w : State} {wk : Nat} (hs : (w.wg wk).size = (s.wg wk).size)
    (h : ∀ k, (w.thr k).life = (s.thr k).life ∧ (w.thr k).seq = (s.thr k).seq ∧ (w.thr k).lead = (s.thr k).lead ∧
      (w.thr k).lane = (s.thr k).lane) (l : List Nat) : w.sibMask wk l = s.sibMask wk l := by
  cases l with
  | nil => rfl
  | cons a r =>
    simp only [State.sibMask, State.siblings, State.liveTids, State.tidsOf, Thread.live, hs, (h _).1, (h _).2.1, (h _).2.2.1,
      (h _).2.2.2]

/-- A word that traps in each guard-active thread, none of which is in handler mode or halts. -/
theorem trapWord_of {i : Instr} {g : Guard} {rd : Frag → Env → Reads} {ok : State → Site → Bool} {body : Body} {s : State}
    {c : Site} {m : Host.Outcome State Fault Refusal} (hm : m = runWord i g rd ok body s) (h : s.Issues c i)
    (hok : ok s c = true) (info : Env → TrapInfo)
    (hb : body s c (s.frag c g) (s.frag c g) = .done s ((s.frag c g).map fun e => (e.tid, .trap (info e))))
    (hh : ∀ j ∈ c.tids, (s.thr (thrKey c.wg j)).handler = false)
    (hc : ∀ e ∈ s.frag c g, (info e).cause.halts
      (s.haltd c.wg) = false) :
    ∃ u, m = .next u ∧ OnlyThreads s c g (fun e t =>
      (if (info e).ofIssued c then t.issue else t).enter (info e) (s.launchOf (s.wg c.wg)).vec
        (s.sibMask c.wg ((s.frag c g).map Env.tid)) false) u := by
  obtain ⟨w, hwd⟩ : ∃ w, w = s.settled c (s.idle c g) ((s.frag c g).map fun e => (e.tid, .trap (info e))) := ⟨_, rfl⟩
  have hw : Leaves s s c g (fun e t => (Fin.trap (info e)).apply c t) w := by rw [hwd]; exact settled_leaves s h.nodup _
  have hwg : ∀ k, w.wg k = s.wg k := fun k => (congrArg (State.wg · k) hw.2.2.2).trans rfl
  have hln : w.launchOf (w.wg c.wg) = s.launchOf (s.wg c.wg) := by
    rw [hwg]; exact (congrArg (fun v : State => v.launchOf (s.wg c.wg)) hw.2.2.2).trans rfl
  have hdb : w.haltd c.wg = s.haltd c.wg := by
    have hin : (w.core (w.wg c.wg).ckey).inForce 0x18 = (s.core (s.wg c.wg).ckey).inForce 0x18 := by
      rw [hwg, hw.2.2.1]; split <;> rfl
    simp only [State.haltd]
    rw [hin, hln]
  have hsame : ∀ k, (w.thr k).life = (s.thr k).life ∧ (w.thr k).seq = (s.thr k).seq ∧ (w.thr k).lead = (s.thr k).lead ∧
      (w.thr k).lane = (s.thr k).lane ∧ ((w.thr k).handler = (s.thr k).handler) := by
    intro k
    by_cases hk : ∃ i ∈ c.tids, k = thrKey c.wg i
    · obtain ⟨i, hi, rfl⟩ := hk
      have := hw.1 i hi
      simp only [Fin.apply] at this
      rw [this]
      split
      · split <;> exact ⟨rfl, rfl, rfl, rfl, rfl⟩
      · exact ⟨rfl, rfl, rfl, rfl, rfl⟩
    · rw [hw.2.1 k fun i hi he => hk ⟨i, hi, he⟩]
      exact ⟨rfl, rfl, rfl, rfl, rfl⟩
  have hfin : s.finish c (s.idle c g) ((s.frag c g).map fun e => (e.tid, .trap (info e))) [] =
      w.trap c.wg ((s.frag c g).map fun e => (e.tid, info e)) := by
    rw [finish_eq, trapsOf_map, goers_idle (fun p hp => by obtain ⟨e, _, rfl⟩ := List.mem_map.mp hp; rfl), ← hwd]
    cases (s.frag c g) <;> rfl
  have hen : w.trap c.wg ((s.frag c g).map fun e => (e.tid, info e)) = (s.frag c g).foldl (fun v e => v.modThr (thrKey c.wg e.tid)
      fun t => t.enter (info e) (s.launchOf (s.wg c.wg)).vec (s.sibMask c.wg ((s.frag c g).map Env.tid)) false) w := by
    rw [trap_enters, List.foldl_map, hln, sibMask_congr (s := s) (w := w) (by rw [hwg]) fun k =>
      ⟨(hsame k).1, (hsame k).2.1, (hsame k).2.2.1, (hsame k).2.2.2.1⟩, List.map_map]
    · rfl
    · intro p hp
      obtain ⟨e, he, rfl⟩ := List.mem_map.mp hp
      rw [(hsame _).2.2.2.2]
      exact hh _ (env_of_frag he).1
    · intro p hp
      obtain ⟨e, he, rfl⟩ := List.mem_map.mp hp
      rw [hdb]
      exact hc e he
  refine ⟨_, by rw [hm, runWord_eq h hok, hb, Ran.outcome, hfin, hen], ?_⟩
  obtain ⟨ha, hb, hu⟩ := frag_foldl (s := s) w (g := g) h.nodup fun e t =>
    t.enter (info e) (s.launchOf (s.wg c.wg)).vec (s.sibMask c.wg ((s.frag c g).map Env.tid)) false
  refine ⟨fun i hi => ?_, fun k hk => (hb k hk).trans (hw.2.1 k hk), fun k => ?_, ?_⟩
  · rw [ha i hi, hw.1 i hi]
    by_cases hg : (s.env c.wg i).guarded g = true
    · simp only [hg, if_true, Fin.apply]
    · simp only [hg, Bool.false_eq_true, if_false]
  · have : ∀ u : State, u = { w with threads := u.threads } → u.core k = w.core k := fun u h => by rw [h]; rfl
    rw [this _ hu]
    exact hw.2.2.1 k
  · have : ∀ u : State, u = { w with threads := u.threads } → u = { s with threads := u.threads, cores := u.cores } := by
      intro u h1; rw [h1]; have := hw.2.2.2; generalize u.threads = a; rw [this]
    exact this _ hu

end Sys2Proof.Machine
end

