-- ==== Sys2Proof/Laws/Memory.lean ====
section
/-! SUPPORT. Every operation that writes memory keeps its canonical form, and the wider operations over it that leave memory alone. -/

namespace Sys2Proof.Machine

/-! ### Lists of cells -/

theorem wf_pairwise (m : List Host.Cell) :
    Memory.wf m = true ↔ m.Pairwise (fun a b => a.1 < b.1) ∧ ∀ c ∈ m, c.2 ≠ unlisted := by
  rw [wf_iff]
  refine and_congr ?_ Iff.rfl
  induction m with
  | nil => simp [tsorted]
  | cons p r ih => obtain ⟨k, v⟩ := p; rw [tsorted_cons, List.pairwise_cons, ih]; exact Iff.rfl

@[simp] theorem wf_filter {m : List Host.Cell} (f : Host.Cell → Bool) (h : Memory.wf m = true) : Memory.wf (m.filter f) = true := by
  obtain ⟨hp, hn⟩ := (wf_pairwise m).mp h
  exact (wf_pairwise _).mpr ⟨hp.filter f, fun c hc => hn c (List.mem_of_mem_filter hc)⟩

/-- The listed cells of a run of bytes from `a` up. -/
theorem wf_listed (a : Nat) (b : List Byte) (k : Nat) :
    let new := (b.zipIdx k).filterMap fun (v, i) => if v = unlisted then none else some (a + i, v)
    Memory.wf new = true ∧ ∀ c ∈ new, a + k ≤ c.1 ∧ c.1 < a + k + b.length := by
  induction b generalizing k with
  | nil => exact ⟨rfl, by simp⟩
  | cons v r ih =>
    obtain ⟨hw, hb⟩ := ih (k + 1)
    simp only [List.zipIdx_cons, List.filterMap_cons]
    by_cases hv : v = unlisted
    · simp only [hv, if_true]
      exact ⟨hw, fun c hc => by have := hb c hc; simp only [List.length_cons]; omega⟩
    · simp only [hv, if_false]
      refine ⟨(wf_pairwise _).mpr ⟨List.pairwise_cons.mpr ⟨fun c hc => ?_, ((wf_pairwise _).mp hw).1⟩, ?_⟩, ?_⟩
      · have := hb c hc; simp only; omega
      · intro c hc
        rcases List.mem_cons.mp hc with rfl | hc
        · exact hv
        · exact ((wf_pairwise _).mp hw).2 c hc
      · intro c hc
        rcases List.mem_cons.mp hc with rfl | hc
        · simp only [List.length_cons]; omega
        · have := hb c hc; simp only [List.length_cons]; omega

/-- Cells put into the gap of a memory that lists nothing there. -/
theorem wf_splice {m new : List Host.Cell} {a b : Nat} (hab : a ≤ b) (h : Memory.wf m = true) (hg : ∀ c ∈ m, c.1 < a ∨ b ≤ c.1)
    (hn : Memory.wf new = true) (hr : ∀ c ∈ new, a ≤ c.1 ∧ c.1 < b) :
    Memory.wf ((m.takeWhile fun c => c.1 < a) ++ new ++ m.dropWhile fun c => c.1 < a) = true := by
  obtain ⟨hp, hl⟩ := (wf_pairwise m).mp h
  obtain ⟨hq, hk⟩ := (wf_pairwise new).mp hn
  have lo : ∀ c ∈ m.takeWhile fun c => decide (c.1 < a), c.1 < a := fun c hc => by
    simpa using List.mem_takeWhile_imp hc
  have hi : ∀ c ∈ m.dropWhile fun c => decide (c.1 < a), b ≤ c.1 := by
    clear lo hl h
    induction m with
    | nil => simp
    | cons p r ih =>
      obtain ⟨hpr, hr'⟩ := List.pairwise_cons.mp hp
      intro c hc
      simp only [List.dropWhile_cons] at hc
      split at hc
      · exact ih (fun c hc => hg c (List.mem_cons_of_mem _ hc)) hr' c hc
      · next hlt =>
        have hpa : b ≤ p.1 := (hg p (by simp)).resolve_left (by simpa using hlt)
        rcases List.mem_cons.mp hc with rfl | hc
        · exact hpa
        · exact Nat.le_trans hpa (Nat.le_of_lt (hpr c hc))
  have sub : ∀ c, c ∈ (m.takeWhile fun c => decide (c.1 < a)) ∨ c ∈ (m.dropWhile fun c => decide (c.1 < a)) → c ∈ m := by
    rintro c (hc | hc)
    · exact (List.takeWhile_sublist _).subset hc
    · exact (List.dropWhile_sublist _).subset hc
  refine (wf_pairwise _).mpr ⟨?_, ?_⟩
  · rw [List.append_assoc, List.pairwise_append, List.pairwise_append]
    refine ⟨hp.sublist (List.takeWhile_sublist _), ⟨hq, hp.sublist (List.dropWhile_sublist _), ?_⟩, ?_⟩
    · intro c hc d hd; have := hr c hc; have := hi d hd; omega
    · intro c hc d hd
      have h1 := lo c hc
      rcases List.mem_append.mp hd with hd | hd
      · have := hr d hd; omega
      · have := hi d hd
        omega
  · intro c hc
    rcases List.mem_append.mp hc with hc | hc
    · rcases List.mem_append.mp hc with hc | hc
      · exact hl c (sub c (.inl hc))
      · exact hk c hc
    · exact hl c (sub c (.inr hc))

/-! ### Operations over the state -/

theorem State.MemOk.of_mem {s t : State} (h : s.MemOk) (e : t.mem = s.mem) : t.MemOk := by unfold State.MemOk; rw [e]; exact h

/-- A fold keeps what each of its steps keeps. -/
theorem State.MemOk.foldl {α : Type} {f : State → α → State} (hf : ∀ s a, s.MemOk → (f s a).MemOk) {s : State} (l : List α)
    (h : s.MemOk) : (l.foldl f s).MemOk := by
  induction l generalizing s with
  | nil => exact h
  | cons a r ih => exact ih (hf s a h)

@[simp] theorem foldl_mem {α : Type} {f : State → α → State} (hf : ∀ s a, (f s a).mem = s.mem) (s : State) (l : List α) :
    (l.foldl f s).mem = s.mem := by
  induction l generalizing s with
  | nil => rfl
  | cons a r ih => exact (ih (f s a)).trans (hf s a)

@[simp] theorem State.keepOld_mem (s : State) (w : Nat) : (s.keepOld w).mem = s.mem := by
  unfold State.keepOld
  simp only
  split <;> split <;> rfl

@[simp] theorem State.setTag_mem (s : State) (w : Nat) (full : Bool) : (s.setTag w full).mem = s.mem := by
  unfold State.setTag; split <;> rfl

theorem State.MemOk.word {s : State} (h : s.MemOk) (w : Nat) (v : W64) : Memory.wf (writeWord s.mem w v) = true := wf_writeWord w v h

/-- A word written at its home changes memory in that word alone. -/
theorem State.homeWord_mem (s : State) (w : Nat) (v : W64) (m : StoreMode) : (s.homeWord w v m).mem = writeWord s.mem w v := by
  unfold State.homeWord
  split
  · simp
  · simp only
    refine (foldl_mem ?_ _ _).trans ?_
    · intro s d; simp
    · refine congrArg (fun m => writeWord m w v) ?_
      split
      · refine foldl_mem (fun s d => ?_) _ _
        split <;> rfl
      · split <;> rfl

theorem State.MemOk.homeWord {s : State} (h : s.MemOk) (w : Nat) (v : W64) (m : StoreMode) : (s.homeWord w v m).MemOk := by
  unfold State.MemOk; rw [State.homeWord_mem]; exact h.word w v

theorem State.homeStore_mem (s : State) (loc n : Nat) (d : W64) (m : StoreMode) :
    (s.homeStore loc n d m).mem = writeWord s.mem (loc / 8) (wordSet (readWord s.mem (loc / 8)) (loc % 8) n d) := by
  unfold State.homeStore
  simp only
  split <;> exact State.homeWord_mem _ _ _ _

theorem State.MemOk.homeStore {s : State} (h : s.MemOk) (loc n : Nat) (d : W64) (m : StoreMode) : (s.homeStore loc n d m).MemOk := by
  unfold State.MemOk; rw [State.homeStore_mem]; exact h.word _ _

theorem State.MemOk.bulkWord {s : State} (h : s.MemOk) (loc : Nat) (v : W64) : (s.bulkWord loc v).MemOk := h.homeStore loc 8 v _

theorem State.MemOk.bulkCount {s : State} (h : s.MemOk) (loc : Nat) (v : W64) : (s.bulkCount loc v).MemOk := h.homeStore loc 8 v _

theorem State.MemOk.bulkRec {s : State} (h : s.MemOk) (loc : Nat) (r : List Byte) : (s.bulkRec loc r).MemOk :=
  State.MemOk.foldl (fun _ _ hs => hs.bulkWord _ _) _ h

/-- Installing a notice writes a replica's word of an atomic-propagation page, or no memory. -/
theorem State.MemOk.install {s : State} (h : s.MemOk) (n : Notice) : (s.install n).MemOk := by
  unfold State.install
  simp only
  have key : ∀ t : State, t.MemOk → (if t.notices.any (fun m => m.word == n.word) then t
      else { t with homeVer := tdel t.homeVer n.word, viewVer := [0, 1, 2, 3].foldl (fun x d =>
        tdel x (viewKey (dieKey n.pkg d) n.word)) t.viewVer }).MemOk := by
    intro t ht; split
    · exact ht
    · exact ht
  apply key
  split
  · split
    · exact wf_writeWord _ _ h
    · exact h
  · split
    · split <;> exact h
    · exact h

theorem State.MemOk.wipe {s : State} (h : s.MemOk) (loc n : Nat) : (s.wipe loc n).MemOk := wf_filter _ h

theorem State.MemOk.lay {s : State} (h : s.MemOk) (loc : Nat) (b : List Byte) : (s.lay loc b).MemOk := by
  obtain ⟨hw, hb⟩ := wf_listed loc b 0
  refine wf_splice (a := loc) (b := loc + b.length) (by omega) (h.wipe loc b.length) ?_ hw (by simpa using hb)
  intro c hc
  simp only [State.wipe, List.mem_filter] at hc
  have := hc.2
  simp at this
  omega

theorem State.MemOk.scrub {s : State} (h : s.MemOk) (p : Nat) : (s.scrub p).MemOk := wf_filter _ h

@[simp] theorem State.forget_mem (s : State) (l n : Nat) : (s.forget l n).mem = s.mem := by
  unfold State.forget
  simp only
  refine foldl_mem (fun s k => ?_) _ _
  split <;> rfl

theorem State.scratchWrite_mem (s : State) (l : Nat) (b : List Byte) : (s.scratchWrite l b).mem = writeBytes s.mem l b := by
  simp [State.scratchWrite, State.heal]

theorem State.MemOk.scratchWrite {s : State} (h : s.MemOk) (l : Nat) (b : List Byte) : (s.scratchWrite l b).MemOk := by
  unfold State.MemOk; rw [State.scratchWrite_mem]; exact wf_writeBytes _ _ h

@[simp] theorem wf_readsAs {m : List Host.Cell} (t : Nat) (l : List (Nat × W64)) (h : Memory.wf m = true) : Memory.wf (readsAs m t l) = true := by
  induction l generalizing m t with
  | nil => exact h
  | cons p r ih =>
    obtain ⟨w, v⟩ := p
    simp only [readsAs]
    split
    · exact ih _ (wf_writeWord _ _ h)
    · exact ih _ h

theorem State.MemOk.withFetchWord {s : State} (h : s.MemOk) (nbits w : Nat) : (s.withFetchWord nbits w).MemOk := wf_writeWord _ _ h

end Sys2Proof.Machine
end

