-- ==== Sys2Proof/Laws/Keeps.lean ====
section
/-! SUPPORT. What each shared operation does to memory: `_mem` lemmas of those that leave it alone, `_wf` lemmas of those that write it
and keep its canonical form. -/

namespace Sys2Proof.Machine
@[simp] theorem ite_mem (c : Prop) [Decidable c] (a b : State) : (if c then a else b).mem = if c then a.mem else b.mem := by split <;> rfl
@[simp] theorem wf_ite (c : Prop) [Decidable c] (a b : List Host.Cell) : Memory.wf (if c then a else b) = if c then Memory.wf a else Memory.wf b := by split <;> rfl
@[simp] theorem foldl_wf {α : Type} {f : State → α → State} (hf : ∀ s a, Memory.wf s.mem = true → Memory.wf (f s a).mem = true) {s : State}
    (l : List α) (h : Memory.wf s.mem = true) : Memory.wf (l.foldl f s).mem = true := by
  induction l generalizing s with
  | nil => exact h
  | cons a r ih => exact ih (hf s a h)
@[simp] theorem foldl_modThr_mem {α : Type} (l : List α) (k : State → α → Nat) (f : State → α → Thread → Thread) (s : State) :
    (l.foldl (fun s a => s.modThr (k s a) (f s a)) s).mem = s.mem := foldl_mem (fun _ _ => by rfl) s l
@[simp] theorem foldl_modCore_mem {α : Type} (l : List α) (k : State → α → Nat) (f : State → α → Core → Core) (s : State) :
    (l.foldl (fun s a => s.modCore (k s a) (f s a)) s).mem = s.mem := foldl_mem (fun _ _ => by rfl) s l
@[simp] theorem foldl_modDie_mem {α : Type} (l : List α) (k : State → α → Nat) (f : State → α → Die → Die) (s : State) :
    (l.foldl (fun s a => s.modDie (k s a) (f s a)) s).mem = s.mem := foldl_mem (fun _ _ => by rfl) s l
@[simp] theorem foldl_modWg_mem {α : Type} (l : List α) (k : State → α → Nat) (f : State → α → Wg → Wg) (s : State) :
    (l.foldl (fun s a => s.modWg (k s a) (f s a)) s).mem = s.mem := foldl_mem (fun _ _ => by rfl) s l

@[simp] theorem State.hostDo_wf (s : State) (p fn : Nat) (f : State → State) (hf : ∀ s, Memory.wf s.mem = true → Memory.wf (f s).mem = true) (hm :
    Memory.wf s.mem = true) :
    Memory.wf (State.hostDo s p fn f).mem = true := by
  unfold State.hostDo; split <;> simp [*]
@[simp] theorem State.modTids_mem (s : State) (wk : Nat) (tids : List Nat) (f : Thread → Thread) : (State.modTids s wk tids f).mem = s.mem := by
  unfold State.modTids; (try dsimp only); refine foldl_mem (fun s a => ?_) _ _; (repeat' split) <;> simp_all
@[simp] theorem State.errResponse_mem (s : State) (p k : Nat) : (State.errResponse s p k).mem = s.mem := by simp [State.errResponse]
@[simp] theorem State.homeWord_wf (s : State) (w : Nat) (v : W64) (m : StoreMode) (h : Memory.wf s.mem = true) :
    Memory.wf (State.homeWord s w v m).mem = true := State.MemOk.homeWord h w v m
@[simp] theorem State.homeStore_wf (s : State) (loc n : Nat) (d : W64) (m : StoreMode) (h : Memory.wf s.mem = true) :
    Memory.wf (State.homeStore s loc n d m).mem = true := State.MemOk.homeStore h loc n d m
@[simp] theorem State.bulkWord_wf (s : State) (loc : Nat) (v : W64) (h : Memory.wf s.mem = true) :
    Memory.wf (State.bulkWord s loc v).mem = true := State.MemOk.bulkWord h loc v
@[simp] theorem State.bulkRec_wf (s : State) (loc : Nat) (r : List Byte) (h : Memory.wf s.mem = true) :
    Memory.wf (State.bulkRec s loc r).mem = true := State.MemOk.bulkRec h loc r
@[simp] theorem State.bulkCount_wf (s : State) (loc : Nat) (v : W64) (hm : Memory.wf s.mem = true) :
    Memory.wf (State.bulkCount s loc v).mem = true := by
  simp +contextual [State.bulkCount, hm]
@[simp] theorem State.install_wf (s : State) (n : Notice) (h : Memory.wf s.mem = true) :
    Memory.wf (State.install s n).mem = true := State.MemOk.install h n
@[simp] theorem State.devRec_wf (s : State) (p pa : Nat) (r : List Byte) (hm : Memory.wf s.mem = true) :
    Memory.wf (State.devRec s p pa r).mem = true := by
  unfold State.devRec; (repeat' split) <;> simp +contextual [hm]
@[simp] theorem State.devWord_wf (s : State) (p pa : Nat) (v : W64) (hm : Memory.wf s.mem = true) :
    Memory.wf (State.devWord s p pa v).mem = true := by
  unfold State.devWord; (repeat' split) <;> simp +contextual [hm]
@[simp] theorem State.overflow_wf (s : State) (p fn : Nat) (hm : Memory.wf s.mem = true) : Memory.wf (State.overflow s p fn).mem = true := by
  unfold State.overflow; (try dsimp only); (repeat' split) <;> simp +contextual [hm]
theorem State.putEvent_wf {s t : State} {p : Nat} {e : Event} (h : s.putEvent p e = some t) (hm : Memory.wf s.mem = true) :
    Memory.wf t.mem = true := by
  unfold State.putEvent at h
  dsimp only at h
  split at h
  · cases h
  · split at h
    · cases h; simp [hm]
    · cases h
@[simp] theorem State.post_wf (s : State) (p : Nat) (e : Event) (hm : Memory.wf s.mem = true) : Memory.wf (State.post s p e).mem = true := by
  unfold State.post
  dsimp only
  split
  · next t h =>
    split at h
    · cases h
    · exact State.putEvent_wf h hm
  · split <;> simp [hm]
@[simp] theorem State.wgEvent_wf (s : State) (wk ty : Nat) (tid : Nat) (pc v : W64) (hm : Memory.wf s.mem = true) :
    Memory.wf (State.wgEvent s wk ty tid pc v).mem = true := by
  simp +contextual [State.wgEvent, hm]
@[simp] theorem State.pfEvent_wf (s : State) (p ty core : Nat) (v : W64) (hm : Memory.wf s.mem = true) :
    Memory.wf (State.pfEvent s p ty core v).mem = true := by
  simp +contextual [State.pfEvent, hm]
@[simp] theorem State.mbFlushN_wf (s : State) (p fn : Nat) (a0 : Nat) (hm : Memory.wf s.mem = true) :
    Memory.wf (State.mbFlushN s p fn a0).mem = true := by
  induction a0 generalizing s with
  | zero => exact hm
  | succ n ih =>
    unfold State.mbFlushN
    dsimp only
    split
    · split
      · exact ih _ (by simp [hm])
      · exact hm
    · exact hm
@[simp] theorem State.mbFlush_wf (s : State) (p fn : Nat) (hm : Memory.wf s.mem = true) : Memory.wf (State.mbFlush s p fn).mem = true := by
  simp +contextual [State.mbFlush, hm]
@[simp] theorem State.mbPost_wf (s : State) (p fn : Nat) (r : List Byte) (hm : Memory.wf s.mem = true) :
    Memory.wf (State.mbPost s p fn r).mem = true := by
  simp +contextual [State.mbPost, hm]
@[simp] theorem State.report_wf (s : State) (wk : Nat) (cause : Nat) (tids : List Nat) (hm : Memory.wf s.mem = true) :
    Memory.wf (State.report s wk cause tids).mem = true := by
  unfold State.report; (repeat' split) <;> simp +contextual [hm]
@[simp] theorem State.discardReturns_mem (s : State) (k : Nat) : (State.discardReturns s k).mem = s.mem := by simp [State.discardReturns]
@[simp] theorem State.dropRings_mem (s : State) (wk : Nat) : (State.dropRings s wk).mem = s.mem := by simp [State.dropRings]
@[simp] theorem State.dropLoads_mem (s : State) (k ck : Nat) : (State.dropLoads s k ck).mem = s.mem := by simp [State.dropLoads]
@[simp] theorem State.cancelThread_mem (s : State) (wk tid : Nat) : (State.cancelThread s wk tid).mem = s.mem := by simp [State.cancelThread]
@[simp] theorem State.cancelAll_mem (s : State) (wk : Nat) (tids : List Nat) : (State.cancelAll s wk tids).mem = s.mem := by simp [State.cancelAll]
@[simp] theorem State.takeTraps_wf (s : State) (wk : Nat) (who : List (Nat × TrapInfo)) (hm : Memory.wf s.mem = true) :
    Memory.wf (State.takeTraps s wk who).1.mem = true := by
  unfold State.takeTraps
  have h1 : ∀ (f : Nat × TrapInfo → Thread → Thread) (l : List (Nat × TrapInfo)),
      (l.foldl (fun s x => s.modThr (thrKey wk x.1) (f x)) s).mem = s.mem := fun f l =>
    foldl_modThr_mem l (fun _ x => thrKey wk x.1) (fun _ x => f x) s
  dsimp only
  split
  · exact (congrArg Memory.wf (h1 _ _)).trans hm
  · refine State.wgEvent_wf _ _ _ _ _ _ ?_
    rw [State.modTids_mem]
    exact (congrArg Memory.wf (h1 _ _)).trans hm
@[simp] theorem State.reports_wf (s : State) (wk : Nat) (l : List (Nat × List Nat)) (hm : Memory.wf s.mem = true) :
    Memory.wf (State.reports s wk l).mem = true := by
  simp +contextual [State.reports, hm]
@[simp] theorem State.settleOwed_wf (s : State) (wk : Nat) (hm : Memory.wf s.mem = true) : Memory.wf (State.settleOwed s wk).1.mem = true := by
  unfold State.settleOwed
  dsimp only
  rw [State.cancelAll_mem]
  generalize s.fragments wk _ [] = l
  suffices ∀ a : State × List (Nat × List Nat), Memory.wf a.1.mem = true → Memory.wf (l.foldl (fun (a : State × List (Nat × List Nat)) f =>
      (((a.1.modTids wk f fun t => { t with watch := none }).takeTraps wk
        ((s.watchers wk ((s.liveTids wk).filter fun i => !(s.thr (thrKey wk i)).halted)).filter fun x => f.contains x.1)).1,
        a.2 ++ ((a.1.modTids wk f fun t => { t with watch := none }).takeTraps wk
        ((s.watchers wk ((s.liveTids wk).filter fun i => !(s.thr (thrKey wk i)).halted)).filter fun x => f.contains x.1)).2)) a).1.mem = true from
    this (s, []) hm
  induction l with
  | nil => exact fun _ h => h
  | cons f r ih => exact fun a h => ih _ (State.takeTraps_wf _ _ _ (by rw [State.modTids_mem]; exact h))
@[simp] theorem State.allStop_wf (s : State) (wk : Nat) (hm : Memory.wf s.mem = true) : Memory.wf (State.allStop s wk).mem = true := by
  simp +contextual [State.allStop, hm]
@[simp] theorem State.trap_wf (s : State) (wk : Nat) (who : List (Nat × TrapInfo)) (hm : Memory.wf s.mem = true) :
    Memory.wf (State.trap s wk who).mem = true := by
  unfold State.trap
  have h1 := State.takeTraps_wf s wk who hm
  split
  · next hh => rw [hh] at h1; exact h1
  · next hh => rw [hh] at h1; exact State.reports_wf _ _ _ (State.allStop_wf _ _ h1)
@[simp] theorem State.trapAll_wf (s : State) (wk : Nat) (tids : List Nat) (i : TrapInfo) (hm : Memory.wf s.mem = true) :
    Memory.wf (State.trapAll s wk tids i).mem = true := by
  simp +contextual [State.trapAll, hm]
@[simp] theorem State.finish_wf (s : State) (c : Site) (idle : List Nat) (fin : List (Nat × Fin)) (ecc : List (Nat × TrapInfo)) (hm :
    Memory.wf s.mem = true) :
    Memory.wf (State.finish s c idle fin ecc).mem = true := by
  unfold State.finish; (repeat' split) <;> simp +contextual [hm]
@[simp] theorem State.quietErrors_wf (s : State) (c : Site) (quiet : List (Nat × Nat)) (hm : Memory.wf s.mem = true) :
    Memory.wf (State.quietErrors s c quiet).mem = true := by
  simp +contextual [State.quietErrors, hm]
@[simp] theorem State.handlerErrors_mem (s : State) (c : Site) (rds : List Reads) : (State.handlerErrors s c rds).mem = s.mem := by
  unfold State.handlerErrors; (try dsimp only); refine foldl_mem (fun s a => foldl_mem (fun s b => ?_) _ _) _ _; (repeat' split) <;> simp_all
@[simp] theorem State.corrected_mem (s : State) (c : Site) (xs : List (Nat × Nat)) (ks : List Nat) : (State.corrected s c xs ks).mem = s.mem := by
  simp [State.corrected]
@[simp] theorem State.regErrors_wf (s : State) (c : Site) (quiet : List (Nat × Nat)) (rds : List (Env × Reads × List (Nat × Bool))) (hm : Memory.wf s.mem = true) :
    Memory.wf (State.regErrors s c quiet rds).1.mem = true := by
  unfold State.regErrors; (try dsimp only); (repeat' (first | (split <;> rename_i hh <;> replace hh := congrArg (fun r => Memory.wf r.2.mem) hh) | split)) <;> simp_all
@[simp] theorem State.illegal_wf (s : State) (c : Site) (hm : Memory.wf s.mem = true) : Memory.wf (State.illegal s c).mem = true := by
  simp +contextual [State.illegal, hm]
@[simp] theorem State.fillMicro_mem (s : State) (ck : Nat) (e : TlbEnt) : (State.fillMicro s ck e).mem = s.mem := by simp [State.fillMicro]
@[simp] theorem State.fillDie_mem (s : State) (dk : Nat) (e : TlbEnt) : (State.fillDie s dk e).mem = s.mem := by simp [State.fillDie]
@[simp] theorem State.translateDie_mem (s : State) (p die fn va : Nat) : (State.translateDie s p die fn va).2.mem = s.mem := by
  unfold State.translateDie; (try dsimp only); (repeat' (first | (split <;> rename_i hh <;> replace hh := congrArg (fun r => r.2.mem) hh) | split)) <;> simp_all
@[simp] theorem State.translate_mem (s : State) (p core fn va : Nat) : (State.translate s p core fn va).2.mem = s.mem := by
  unfold State.translate; dsimp only; (repeat' split) <;> simp
@[simp] theorem State.resolve_mem (s : State) (wk tid : Nat) (a : W64) (n : Nat) (want : Want) : (State.resolve s wk tid a n want).2.mem = s.mem := by
  unfold State.resolve; (try dsimp only); (repeat' (first | (split <;> rename_i hh <;> replace hh := congrArg (fun r => r.2.mem) hh) | split)) <;> simp_all
@[simp] theorem State.wake_mem (s : State) (wk tid : Nat) (f : Thread → Thread) : (State.wake s wk tid f).mem = s.mem := by simp [State.wake]
@[simp] theorem State.endWait_mem (s : State) (wk tid : Nat) : (State.endWait s wk tid).mem = s.mem := by simp [State.endWait]
@[simp] theorem State.endHold_mem (s : State) (wk tid : Nat) : (State.endHold s wk tid).mem = s.mem := by simp [State.endHold]
@[simp] theorem State.exitThread_mem (s : State) (wk tid : Nat) : (State.exitThread s wk tid).mem = s.mem := by simp [State.exitThread]
@[simp] theorem State.faultOn_mem (s : State) (p die core fn : Nat) (lid : W32) (va : Nat) (kind : FKind) :
    (State.faultOn s p die core fn lid va kind).mem = s.mem := by
  simp [State.faultOn]
@[simp] theorem State.faultAt_mem (s : State) (p core fn : Nat) (lid : W32) (va : Nat) (kind : FKind) :
    (State.faultAt s p core fn lid va kind).mem = s.mem := by
  simp [State.faultAt]
@[simp] theorem State.modAcc_mem (s : State) (id : Nat) (f : Access → Access) : (State.modAcc s id f).mem = s.mem := by simp [State.modAcc]
@[simp] theorem State.stamp_mem (s : State) (a : Access) : (State.stamp s a).mem = s.mem := by simp [State.stamp]
@[simp] theorem State.addAcc_mem (s : State) (a : Access) : (State.addAcc s a).mem = s.mem := by simp [State.addAcc]
@[simp] theorem State.stampUpTo_mem (s : State) (a : Access) : (State.stampUpTo s a).mem = s.mem := by simp [State.stampUpTo]
@[simp] theorem State.setPast_mem (s : State) (w : Nat) (v : Option Vec) : (State.setPast s w v).mem = s.mem := by simp [State.setPast]
@[simp] theorem State.setFillPast_mem (s : State) (w : Nat) (v : Vec) : (State.setFillPast s w v).mem = s.mem := by simp [State.setFillPast]
@[simp] theorem State.uncache_mem (s : State) (dk loc : Nat) : (State.uncache s dk loc).mem = s.mem := by simp [State.uncache]
@[simp] theorem State.dropPeers_mem (s : State) (dk p : Nat) : (State.dropPeers s dk p).mem = s.mem := by simp [State.dropPeers]
@[simp] theorem State.performData_wf (s : State) (a : Access) (n : Nat) (d : W64) (past : Vec) (hm : Memory.wf s.mem = true) :
    Memory.wf (State.performData s a n d past).mem = true := by
  simp +contextual [State.performData, hm]
@[simp] theorem State.take_mem (s : State) (a : Access) : (State.take s a).mem = s.mem := by simp [State.take]
@[simp] theorem State.put_wf (s : State) (a : Access) (hm : Memory.wf s.mem = true) : Memory.wf (State.put s a).mem = true := by
  simp +contextual [State.put, hm]
@[simp] theorem State.serveLdfe_mem (s : State) (w : Nat) : (State.serveLdfe s w).mem = s.mem := by unfold State.serveLdfe; (repeat' split) <;> simp
@[simp] theorem State.admitStfe_wf (s : State) (w : Nat) (hm : Memory.wf s.mem = true) : Memory.wf (State.admitStfe s w).mem = true := by
  unfold State.admitStfe; (repeat' split) <;> simp +contextual [hm]
@[simp] theorem State.arrive_wf (s : State) (a : Access) (hm : Memory.wf s.mem = true) : Memory.wf (State.arrive s a).mem = true := by
  simp +contextual [State.arrive, hm]
@[simp] theorem State.tagStep_wf (s : State) (a : Access) (hm : Memory.wf s.mem = true) : Memory.wf (State.tagStep s a).mem = true := by
  simp +contextual [State.tagStep, hm]
@[simp] theorem State.performNone_wf (s : State) (a : Access) (hm : Memory.wf s.mem = true) : Memory.wf (State.performNone s a).mem = true := by
  unfold State.performNone; (repeat' split) <;> simp +contextual [hm]
@[simp] theorem State.performAtom_wf (s : State) (a : Access) (hm : Memory.wf s.mem = true) : Memory.wf (State.performAtom s a).mem = true := by
  simp +contextual [State.performAtom, hm]
@[simp] theorem State.deliver_mem (s : State) (a : Access) (v : W64) : (State.deliver s a v).mem = s.mem := by
  unfold State.deliver; (repeat' split) <;> simp
@[simp] theorem State.settleAcq_mem (s : State) (k : Nat) : (State.settleAcq s k).mem = s.mem := by
  unfold State.settleAcq; dsimp only; (repeat' split) <;> simp
@[simp] theorem State.retireAcc_mem (s : State) (id : Nat) : (State.retireAcc s id).mem = s.mem := by unfold State.retireAcc; (repeat' split) <;> simp
@[simp] theorem State.finishReturn_mem (s : State) (a : Access) (v : W64) : (State.finishReturn s a v).mem = s.mem := by simp [State.finishReturn]
@[simp] theorem State.afterOrder_mem (s : State) (k : Nat) (o : MO) : (State.afterOrder s k o).mem = s.mem := by
  unfold State.afterOrder; (repeat' split) <;> simp
@[simp] theorem State.awaitPlace_mem (s : State) (wk : Nat) (tids : List Nat) (o : MO) : (State.awaitPlace s wk tids o).mem = s.mem := by
  simp [State.awaitPlace]
@[simp] theorem State.findAll_mem (s : State) (wk tid : Nat) (first : W64) (a0 : List Elem) (a1 : Found) :
    (State.findAll s wk tid first a0 a1).2.mem = s.mem := by
  induction a0 generalizing s a1 with
  | nil => rfl
  | cons e r ih =>
    unfold State.findAll
    split
    · exact ih _ _
    · split
      · exact ih _ _
      · have hr := State.resolve_mem s wk tid e.addr e.size e.kind.want
        split <;> next hh => rw [hh] at hr; exact (ih _ _).trans hr
@[simp] theorem State.check_mem (s : State) (wk tid : Nat) (l : List Elem) : (State.check s wk tid l).2.mem = s.mem := by
  unfold State.check; dsimp only; (repeat' split) <;> simp
@[simp] theorem State.digest_mem (s : State) (wk : Nat) (a : W64) (data : List Byte) : (State.digest s wk a data).mem = s.mem := by
  simp [State.digest]
@[simp] theorem State.spoil_mem (s : State) (wk : Nat) : (State.spoil s wk).mem = s.mem := by simp [State.spoil]
@[simp] theorem State.newAccess_mem (s : State) (c : Site) (tid instr : Nat) (e : Elem) (p : Place) :
    (State.newAccess s c tid instr e p).2.mem = s.mem := by
  simp [State.newAccess]
@[simp] theorem State.inScratch_wf (s : State) (a : Access) (hm : Memory.wf s.mem = true) : Memory.wf (State.inScratch s a).mem = true := by
  unfold State.inScratch; (try dsimp only); (repeat' split) <;> simp +contextual [hm]
@[simp] theorem State.issueElem_wf (s : State) (c : Site) (tid instr : Nat) (e : Elem) (p : Place) (hm : Memory.wf s.mem = true) :
    Memory.wf (State.issueElem s c tid instr e p).mem = true := by
  unfold State.issueElem; (try dsimp only); (repeat' split) <;> simp +contextual [hm]
@[simp] theorem State.unbackedElem_mem (s : State) (c : Site) (tid : Nat) (e : Elem) (p : Place) : (State.unbackedElem s c tid e p).mem = s.mem := by
  simp [State.unbackedElem]
@[simp] theorem State.parkAt_mem (s : State) (c : Site) (tid va : Nat) (kind : FKind) (keep drops : Bool) (fr : Frag) :
    (State.parkAt s c tid va kind keep drops fr).mem = s.mem := by
  simp [State.parkAt]
@[simp] theorem State.issueAll_wf (s : State) (c : Site) (tid : Nat) (l : List (Elem × Place)) (hm : Memory.wf s.mem = true) :
    Memory.wf (State.issueAll s c tid l).mem = true := by
  simp +contextual [State.issueAll, hm]
@[simp] theorem State.memThread_wf (s : State) (c : Site) (fr : Frag) (tid : Nat) (els : List Elem) (o : MO) (ck : Chk) (half : Bool) (hm :
    Memory.wf s.mem = true) :
    Memory.wf (State.memThread s c fr tid els o ck half).1.mem = true := by
  unfold State.memThread; (repeat' split) <;> simp +contextual [hm]
@[simp] theorem State.checkAll_mem (s : State) (c : Site) (a0 : List (Env × List Elem)) : (State.checkAll s c a0).2.mem = s.mem := by
  induction a0 generalizing s with | nil => simp [State.checkAll] | cons a r ih => unfold State.checkAll; (repeat' (first | (split <;> rename_i hh <;> replace hh := congrArg (fun r => r.2.mem) hh) | split)) <;> simp_all
@[simp] theorem State.pack_mem (s : State) (wk : Nat) (seq : Nat) (tids : List Nat) : (State.pack s wk seq tids).mem = s.mem := by simp [State.pack]
@[simp] theorem State.offer_mem (s : State) (c : Site) (n tid : Nat) (v : Inc) : (State.offer s c n tid v).mem = s.mem := by simp [State.offer]
@[simp] theorem State.spread_mem (s : State) (ctxs : List Nat) (n : Nat) (v : Inc) : (State.spread s ctxs n v).mem = s.mem := by simp [State.spread]
@[simp] theorem State.setHome_mem (s : State) (ctx n : Nat) (m : Tbl Inc) : (State.setHome s ctx n m).mem = s.mem := by simp [State.setHome]
@[simp] theorem State.bindCopies_mem (s : State) (unit : Bool) (key ctx : Nat) : (State.bindCopies s unit key ctx).mem = s.mem := by
  unfold State.bindCopies
  dsimp only
  have key : ∀ t : State, ((List.range 16).foldl (fun s n => match tfind (s.homeIncs ctx n) n with
      | none => s
      | some v => { s.fresh.2 with sillage := s.fresh.2.sillage ++ [{ id := s.fresh.1, unit := unit, key := key, ctx := ctx, n := n, inc := v }] })
      t).mem = t.mem := fun t => foldl_mem (fun s n => by split <;> rfl) t _
  cases unit <;> (simp only [Bool.false_eq_true, if_true, if_false]; split <;> first | rfl | exact (key _).trans rfl)
@[simp] theorem State.unbindCopies_mem (s : State) (unit : Bool) (key ctx : Nat) : (State.unbindCopies s unit key ctx).mem = s.mem := by
  simp [State.unbindCopies]
@[simp] theorem State.setOffer_mem (s : State) (ctx n : Nat) (v : Nat × Nat) : (State.setOffer s ctx n v).mem = s.mem := by simp [State.setOffer]
@[simp] theorem State.takeOffer_mem (s : State) (o : Offer) : (State.takeOffer s o).mem = s.mem := by simp [State.takeOffer]
@[simp] theorem State.lastOffers_mem (s : State) (ctx : Nat) : (State.lastOffers s ctx).mem = s.mem := by simp [State.lastOffers]
@[simp] theorem State.heal_mem (s : State) (l n : Nat) : (State.heal s l n).mem = s.mem := by simp [State.heal]
@[simp] theorem State.scratchWrite_wf (s : State) (l : Nat) (b : List Byte) (h : Memory.wf s.mem = true) :
    Memory.wf (State.scratchWrite s l b).mem = true := State.MemOk.scratchWrite h l b
@[simp] theorem State.opMem_wf (s : State) (o : PlaneOp) (hm : Memory.wf s.mem = true) : Memory.wf (State.opMem s o).2.mem = true := by
  simp +contextual [State.opMem, hm]
@[simp] theorem State.raiseIn_mem (s : State) (k : Nat) (f : W32) : (State.raiseIn s k f).mem = s.mem := by simp [State.raiseIn]
@[simp] theorem State.raiseFor_mem (s : State) (o : PlaneOp) (f : W32) : (State.raiseFor s o f).mem = s.mem := by
  unfold State.raiseFor; (repeat' split) <;> simp
@[simp] theorem State.runPlane_wf (s : State) (o : PlaneOp) (hm : Memory.wf s.mem = true) : Memory.wf (State.runPlane s o).mem = true := by
  simp +contextual [State.runPlane, hm]
@[simp] theorem State.runAlign_wf (s : State) (o : PlaneOp) (hm : Memory.wf s.mem = true) : Memory.wf (State.runAlign s o).mem = true := by
  unfold State.runAlign
  have h1 : Memory.wf (s.opMem o).2.mem = true := by simp [hm]
  generalize s.opMem o = p at h1
  obtain ⟨m, t⟩ := p
  dsimp only
  generalize alignVals m _ _ _ = q
  obtain ⟨rows, es, f⟩ := q
  dsimp only
  rw [State.raiseFor_mem]
  exact State.scratchWrite_wf _ _ _ h1
@[simp] theorem State.mmaSteps_mem (s : State) (m mb : List Host.Cell) (o : PlaneOp) (i : Nat) (a0 : Nat) :
    (State.mmaSteps s m mb o i a0).mem = s.mem := by
  induction a0 generalizing s i with
  | zero => rfl
  | succ n ih => exact ih _ _
@[simp] theorem State.runSteps_mem (s : State) (m mb : List Host.Cell) (o : PlaneOp) (n : Nat) : (State.runSteps s m mb o n).mem = s.mem := by
  simp [State.runSteps]
@[simp] theorem State.runProduct_wf (s : State) (o : PlaneOp) (follower : Option PlaneOp) (n : Nat) (hm : Memory.wf s.mem = true) :
    Memory.wf (State.runProduct s o follower n).mem = true := by
  unfold State.runProduct; (try dsimp only); (repeat' (first | (split <;> rename_i hh <;> replace hh := congrArg (fun r => Memory.wf r.2.mem) hh) | split)) <;> simp_all
@[simp] theorem State.storeWords_wf (s : State) (acc : Nat) (launch : W32) (dk loc : Nat) (a0 : List W64) (hm : Memory.wf s.mem = true) :
    Memory.wf (State.storeWords s acc launch dk loc a0).mem = true := by
  induction a0 generalizing s loc with
  | nil => exact hm
  | cons v r ih =>
    refine ih _ _ (foldl_wf (fun t n ht => ?_) _ (State.homeStore_wf _ _ _ _ _ hm))
    split
    · exact State.install_wf _ _ ht
    · exact ht
@[simp] theorem State.runAccst_wf (s : State) (o : PlaneOp) (hm : Memory.wf s.mem = true) : Memory.wf (State.runAccst s o).mem = true := by
  unfold State.runAccst; (try dsimp only); (repeat' (first | (split <;> rename_i hh <;> replace hh := congrArg (fun r => Memory.wf r.2.mem) hh) | split)) <;> simp_all
@[simp] theorem State.runCbload_mem (s : State) (o : PlaneOp) : (State.runCbload s o).mem = s.mem := by simp [State.runCbload]
@[simp] theorem State.busyFor_mem (s : State) (o : PlaneOp) : (State.busyFor s o).mem = s.mem := by simp [State.busyFor]
@[simp] theorem State.runOp_wf (s : State) (o : PlaneOp) (follower : Option PlaneOp) (hm : Memory.wf s.mem = true) :
    Memory.wf (State.runOp s o follower).mem = true := by
  unfold State.runOp; (repeat' split) <;> simp +contextual [hm]
@[simp] theorem State.push_mem (s : State) (ck : Nat) (o : PlaneOp) : (State.push s ck o).mem = s.mem := by simp [State.push]
@[simp] theorem State.wakePlane_mem (s : State) (ck id : Nat) : (State.wakePlane s ck id).mem = s.mem := by
  unfold State.wakePlane; (try dsimp only); refine foldl_mem (fun s a => foldl_mem (fun s b => ?_) _ _) _ _; (repeat' split) <;> simp_all
@[simp] theorem State.loopPlaneDone_mem (s : State) (o : PlaneOp) : (State.loopPlaneDone s o).mem = s.mem := by
  unfold State.loopPlaneDone; (repeat' split) <;> simp
@[simp] theorem State.modCmd_mem (s : State) (id : Nat) (f : Cmd → Cmd) : (State.modCmd s id f).mem = s.mem := by simp [State.modCmd]
@[simp] theorem State.endCmd_mem (s : State) (id code : Nat) (own : Bool) : (State.endCmd s id code own).mem = s.mem := by simp [State.endCmd]
@[simp] theorem State.parkCmd_mem (s : State) (c : Cmd) (va : Nat) : (State.parkCmd s c va).mem = s.mem := by simp [State.parkCmd]
@[simp] theorem State.addCmd_mem (s : State) (c : Cmd) : (State.addCmd s c).mem = s.mem := by simp [State.addCmd]
@[simp] theorem State.snapshot_mem (s : State) (p core : Nat) (c : Cmd) : (State.snapshot s p core c).2.mem = s.mem := by
  unfold State.snapshot; (repeat' split) <;> simp
@[simp] theorem State.issueCmd_mem (s : State) (k : CKind) (c : Site) (d : XReg) (who : Frag) (tid : Nat) (a : W64) (raw : List Byte) :
    (State.issueCmd s k c d who tid a raw).mem = s.mem := by
  unfold State.issueCmd
  dsimp only
  rw [State.addCmd_mem, State.snapshot_mem]
  split
  · rw [State.spoil_mem]; exact foldl_mem (fun _ _ => by simp) _ _
  · exact foldl_mem (fun _ _ => by simp) _ _
@[simp] theorem State.engFind_mem (s : State) (c : Cmd) (a : W64) (n : Nat) (want : Want) : (State.engFind s c a n want).2.mem = s.mem := by
  unfold State.engFind; (try dsimp only); (repeat' (first | (split <;> rename_i hh <;> replace hh := congrArg (fun r => r.2.mem) hh) | split)) <;> simp_all
@[simp] theorem State.keepBytes_mem (s : State) (c : Cmd) (l n : Nat) : (State.keepBytes s c l n).mem = s.mem := by simp [State.keepBytes]
@[simp] theorem State.sourceByte_mem (s : State) (c : Cmd) (l : Nat) : (State.sourceByte s c l).2.mem = s.mem := by
  unfold State.sourceByte; dsimp only; (repeat' split) <;> simp
@[simp] theorem State.engByte_mem (s : State) (c : Cmd) (a : W64) : (State.engByte s c a).2.mem = s.mem := by
  unfold State.engByte; (try dsimp only); (repeat' (first | (split <;> rename_i hh <;> replace hh := congrArg (fun r => r.2.mem) hh) | split)) <;> simp_all
theorem engRun_mem {src : State → Nat → Except Stop Byte × State} (hs : ∀ s b, (src s b).2.mem = s.mem) (a0 a1 : Nat) (a2 : State) :
    (engRun src a0 a1 a2).2.mem = a2.mem := by
  induction a0 generalizing a1 a2 with
  | zero => rfl
  | succ n ih =>
    unfold engRun
    have h1 := hs a2 a1
    split
    · next hh => rw [hh] at h1; exact h1
    · next hh =>
      rw [hh] at h1
      next t => exact (ih _ t).trans h1
@[simp] theorem State.engBytes_mem (s : State) (c : Cmd) (a : W64) (n : Nat) : (State.engBytes s c a n).2.mem = s.mem :=
  engRun_mem (fun _ _ => by simp) n 0 s
@[simp] theorem State.stopCmd_mem (s : State) (c : Cmd) (e : Stop) : (State.stopCmd s c e).mem = s.mem := by
  unfold State.stopCmd; (repeat' split) <;> simp
@[simp] theorem State.engFill_mem (s : State) (w : Nat) : (State.engFill s w).mem = s.mem := by simp [State.engFill]
@[simp] theorem State.engStore_wf (s : State) (c : Cmd) (p : Place) (b : List Byte) (fill : Bool) (hm : Memory.wf s.mem = true) :
    Memory.wf (State.engStore s c p b fill).mem = true := by
  simp +contextual [State.engStore, hm]
@[simp] theorem State.engPut_wf (s : State) (c : Cmd) (a : W64) (p : Place) (b : List Byte) (hm : Memory.wf s.mem = true) :
    Memory.wf (State.engPut s c a p b).mem = true := by
  simp +contextual [State.engPut, hm]
theorem copyUnits_wf (c : Cmd) {src : State → Nat → Except Stop Byte × State} (hs : ∀ s b, (src s b).2.mem = s.mem) (dst : Nat → W64)
    (a0 a1 a2 : Nat) (a3 : State) (hm : Memory.wf a3.mem = true) : Memory.wf (copyUnits c src dst a0 a1 a2 a3).2.mem = true := by
  induction a0 generalizing a1 a2 a3 with
  | zero => exact hm
  | succ n ih =>
    unfold copyUnits
    split
    · exact hm
    · dsimp only
      have h1 := State.engFind_mem a3 c (dst a1) (unitLen dst a1 a2) { w := true, tag := c.fills }
      split
      · next hh => rw [hh] at h1; rw [h1]; exact hm
      · next p t hh =>
        rw [hh] at h1
        have h2 := engRun_mem hs (unitLen dst a1 a2) a1 t
        generalize engRun src (unitLen dst a1 a2) a1 t = r at h2 ⊢
        obtain ⟨⟨l, stop⟩, u⟩ := r
        dsimp only at h1 h2 ⊢
        have h3 : Memory.wf u.mem = true := by rw [h2, h1]; exact hm
        have h4 : ∀ m, Memory.wf (if m = 0 then u else u.engPut c (dst a1) p (l.take m)).mem = true := by
          intro m; split
          · exact h3
          · exact State.engPut_wf _ _ _ _ _ h3
        split
        · exact h4 _
        · exact ih _ _ _ (h4 _)
theorem State.piece_wf (s : State) (c : Cmd) {src : State → Nat → Except Stop Byte × State} (hs : ∀ s b, (src s b).2.mem = s.mem) (dst : Nat → W64)
    (b n : Nat) (hm : Memory.wf s.mem = true) : Memory.wf (State.piece s c src dst b n).mem = true := by
  unfold State.piece
  have h1 := copyUnits_wf c hs dst (n + 1) b n s hm
  generalize copyUnits c src dst (n + 1) b n s = r at h1 ⊢
  obtain ⟨⟨m, stop⟩, t⟩ := r
  dsimp only at h1 ⊢
  split <;> simpa using h1
@[simp] theorem State.localPiece_wf (s : State) (c : Cmd) (h : Shape) (hm : Memory.wf s.mem = true) :
    Memory.wf (State.localPiece s c h).mem = true := by
  unfold State.localPiece
  dsimp only
  split
  · simpa using hm
  · split
    · exact State.piece_wf s c (fun _ _ => by simp) _ _ _ hm
    · refine State.piece_wf _ c (fun _ _ => by rw [apply_ite Prod.snd, ite_self]) _ _ _ ?_
      rw [State.modCmd_mem, engRun_mem (fun _ _ => by simp)]
      exact hm
@[simp] theorem State.gatherByte_mem (c : Cmd) (s : State) (i : Nat) : (State.gatherByte c s i).2.mem = s.mem := by
  unfold State.gatherByte; (try dsimp only); (repeat' (first | (split <;> rename_i hh <;> replace hh := congrArg (fun r => r.2.mem) hh) | split)) <;> simp_all
@[simp] theorem State.gatherPiece_wf (s : State) (c : Cmd) (hm : Memory.wf s.mem = true) : Memory.wf (State.gatherPiece s c).mem = true := by
  unfold State.gatherPiece
  dsimp only
  split
  · simpa using hm
  · split
    · simpa using hm
    · exact State.piece_wf s c (fun _ _ => by simp) _ _ _ hm
@[simp] theorem State.countCopy_mem (s : State) (c : Cmd) : (State.countCopy s c).mem = s.mem := by simp [State.countCopy]
@[simp] theorem State.writeStatus_wf (s : State) (c : Cmd) (code : Nat) (hm : Memory.wf s.mem = true) :
    Memory.wf (State.writeStatus s c code).mem = true := by
  unfold State.writeStatus; (try dsimp only); (repeat' (first | (split <;> rename_i hh <;> replace hh := congrArg (fun r => Memory.wf r.2.mem) hh) | split)) <;> simp_all
@[simp] theorem State.dropCmd_mem (s : State) (c : Cmd) : (State.dropCmd s c).mem = s.mem := by simp [State.dropCmd]
@[simp] theorem State.loopCopied_mem (s : State) (loop : Nat) (c : Cmd) : (State.loopCopied s loop c).mem = s.mem := by simp [State.loopCopied]
@[simp] theorem State.modBar_mem (s : State) (wk : Nat) (sc : Scope) (n : Nat) (f : Bar → Bar) : (State.modBar s wk sc n f).mem = s.mem := by
  unfold State.modBar; (repeat' split) <;> simp
@[simp] theorem State.endPhase_mem (s : State) (wk : Nat) (sc : Scope) (n : Nat) : (State.endPhase s wk sc n).mem = s.mem := by
  unfold State.endPhase; (try dsimp only); refine (foldl_mem (fun s a => ?_) _ _).trans ?_ <;> (repeat' split) <;> simp_all
@[simp] theorem State.arriveAt_mem (s : State) (wk tid : Nat) (sc : Scope) (n : Nat) : (State.arriveAt s wk tid sc n).mem = s.mem := by
  simp [State.arriveAt]
@[simp] theorem State.endBarw_mem (s : State) (k : Nat) : (State.endBarw s k).mem = s.mem := by unfold State.endBarw; (repeat' split) <;> simp
@[simp] theorem State.modLoop_mem (s : State) (id : Nat) (f : LoopSt → LoopSt) : (State.modLoop s id f).mem = s.mem := by simp [State.modLoop]
@[simp] theorem State.failLoop_mem (s : State) (id j code : Nat) : (State.failLoop s id j code).mem = s.mem := by simp [State.failLoop]
@[simp] theorem State.readTemplate_mem (s : State) (c : Cmd) : (State.readTemplate s c).mem = s.mem := by
  unfold State.readTemplate; (try dsimp only); (repeat' (first | (split <;> rename_i hh <;> replace hh := congrArg (fun r => r.2.mem) hh) | split)) <;> simp_all
@[simp] theorem State.startIteration_mem (s : State) (c : Cmd) (l : LoopSt) : (State.startIteration s c l).mem = s.mem := by
  simp [State.startIteration]
@[simp] theorem State.pushLoopOp_mem (s : State) (c : Cmd) (j : Nat) (o : PlaneOp) (pair : Bool) : (State.pushLoopOp s c j o pair).mem = s.mem := by
  unfold State.pushLoopOp; dsimp only; (repeat' split) <;> simp
@[simp] theorem State.fetch_mem (s : State) (wk tid : Nat) (pc : W64) : (State.fetch s wk tid pc).2.mem = s.mem := by
  unfold State.fetch; (try dsimp only); (repeat' (first | (split <;> rename_i hh <;> replace hh := congrArg (fun r => r.2.mem) hh) | split)) <;> simp_all
@[simp] theorem State.readTable_mem (s : State) (c : Cmd) (h : Shape) : (State.readTable s c h).mem = s.mem := by
  unfold State.readTable; (try dsimp only); (repeat' (first | (split <;> rename_i hh <;> replace hh := congrArg (fun r => r.2.mem) hh) | split)) <;> simp_all
@[simp] theorem State.copyWork_wf (s : State) (c : Cmd) (hm : Memory.wf s.mem = true) : Memory.wf (State.copyWork s c).mem = true := by
  unfold State.copyWork; (try dsimp only); (repeat' split) <;> simp +contextual [hm]
@[simp] theorem State.endAll_mem (s : State) (cs : List Nat) (code : Nat) : (State.endAll s cs code).mem = s.mem := by simp [State.endAll]
@[simp] theorem State.modColl_mem (s : State) (collid : Nat) (f : Coll → Coll) : (State.modColl s collid f).mem = s.mem := by simp [State.modColl]
@[simp] theorem State.endColl_mem (s : State) (g : Coll) : (State.endColl s g).mem = s.mem := by
  unfold State.endColl
  dsimp only
  rw [foldl_mem (fun _ _ => by simp), foldl_mem (fun _ _ => by simp)]
@[simp] theorem State.settleColl_mem (s : State) (collid : Nat) : (State.settleColl s collid).mem = s.mem := by
  unfold State.settleColl; (repeat' split) <;> simp
@[simp] theorem State.failColl_mem (s : State) (collid : Nat) (c : Cmd) (code : Nat) : (State.failColl s collid c code).mem = s.mem := by
  unfold State.failColl; dsimp only; (repeat' split) <;> simp
@[simp] theorem State.stage_mem (s : State) (collid q : Nat) (c : Cmd) (h : Shape) (r : Rank) (upto : Nat) :
    (State.stage s collid q c h r upto).mem = s.mem := by
  unfold State.stage
  dsimp only
  have h1 := engRun_mem (src := fun s i => s.engByte c (h.srcAt i)) (fun _ _ => by simp) (upto - r.data.length) r.data.length s
  split <;> simpa using h1
@[simp] theorem State.sendChunk_mem (s : State) (g : Coll) (h : Shape) (k : Nat) (out : Nat → List Byte) :
    (State.sendChunk s g h k out).mem = s.mem := by
  simp [State.sendChunk]
@[simp] theorem State.arriveNode_mem (s : State) (g : Coll) (h : Shape) (k : Nat) (d : RedNode) : (State.arriveNode s g h k d).mem = s.mem := by
  simp [State.arriveNode]
@[simp] theorem State.reduceChunk_mem (s : State) (g : Coll) (k : Nat) : (State.reduceChunk s g k).mem = s.mem := by simp [State.reduceChunk]
@[simp] theorem State.nodeDone_mem (s : State) (g : Coll) (k : Nat) (d : RedNode) : (State.nodeDone s g k d).mem = s.mem := by
  unfold State.nodeDone; (try dsimp only); (repeat' (first | (split <;> rename_i hh <;> replace hh := congrArg (fun r => r.2.mem) hh) | split)) <;> simp_all
@[simp] theorem State.delivered_mem (s : State) (d : Delivery) (code : Nat) : (State.delivered s d code).mem = s.mem := by simp [State.delivered]
@[simp] theorem State.deliverBytes_wf (s : State) (d : Delivery) (c : Cmd) (h : Shape) (hm : Memory.wf s.mem = true) :
    Memory.wf (State.deliverBytes s d c h).mem = true := by
  unfold State.deliverBytes
  have h1 := copyUnits_wf c (src := fun s i => (.ok (d.data.getD (i - (h.chunkEnd d.chunk - d.data.length)) 0), s)) (fun _ _ => rfl) h.dstAt
    (d.data.length + 1) (h.chunkEnd d.chunk - d.data.length) d.data.length s hm
  dsimp only
  split <;> simpa using h1
@[simp] theorem State.turnAway_mem (s : State) (d : Delivery) (c : Cmd) (h : Shape) (a : W64) : (State.turnAway s d c h a).mem = s.mem := by
  simp [State.turnAway]
@[simp] theorem State.fenceAt_mem (s : State) (wk : Nat) (tids : List Nat) (pc : Option W64) : (State.fenceAt s wk tids pc).mem = s.mem := by
  simp [State.fenceAt]
@[simp] theorem State.peerLoad_mem (s : State) (a : Access) : (State.peerLoad s a).2.mem = s.mem := by
  unfold State.peerLoad; dsimp only; (repeat' split) <;> simp
@[simp] theorem State.serveLoad_mem (s : State) (a : Access) : (State.serveLoad s a).mem = s.mem := by simp [State.serveLoad]
@[simp] theorem State.hostWrite_wf (s : State) (p pa : Nat) (bytes : List Byte) (hm : Memory.wf s.mem = true) :
    Memory.wf (State.hostWrite s p pa bytes).mem = true := by
  unfold State.hostWrite; (try dsimp only); refine foldl_wf (fun s a hs => ?_) _ ?_ <;> (repeat' split) <;> simp_all
@[simp] theorem State.dbgSwr_mem (s : State) (ck sel : Nat) (v : W64) : (State.dbgSwr s ck sel v).mem = s.mem := by
  simp [State.dbgSwr]
@[simp] theorem State.freeBytes_mem (s : State) (n : Nat) : (State.freeBytes s n).2.mem = s.mem := by simp [State.freeBytes]
@[simp] theorem State.mbNext_wf (s : State) (p fn : Nat) (hm : Memory.wf s.mem = true) : Memory.wf (State.mbNext s p fn).mem = true := by
  unfold State.mbNext; (try dsimp only); (repeat' split) <;> simp +contextual [hm]
@[simp] theorem State.respond_wf (s : State) (p fn : Nat) (q : Req) (core status : Nat) (v : W64) (hm : Memory.wf s.mem = true) :
    Memory.wf (State.respond s p fn q core status v).mem = true := by
  simp +contextual [State.respond, hm]
theorem State.serve_wf (s : State) (p fn req : Nat) (bad : Req → Bool) {f : State → Nat → Req → Ans} (hf : ∀ k q, Memory.wf (f s k q).s.mem = true) (hm :
    Memory.wf s.mem = true) :
    Memory.wf (State.serve s p fn req bad f).mem = true := by
  unfold State.serve
  split
  · exact hm
  · dsimp only
    split
    · exact hm
    · split
      · exact State.respond_wf _ _ _ _ _ _ _ hm
      · split
        · exact State.respond_wf _ _ _ _ _ _ _ hm
        · split
          · exact hm
          · refine foldl_wf (fun t x ht => ?_) _ (State.respond_wf _ _ _ _ _ _ _ (hf _ _))
            simp [ht]
@[simp] theorem State.stepTrap_mem (s : State) (k : Nat) (fr : List Nat) : (State.stepTrap s k fr).mem = s.mem := by
  unfold State.stepTrap; (try dsimp only); refine foldl_mem (fun s a => ?_) _ _; (repeat' split) <;> simp_all
@[simp] theorem State.stepHalt_mem (s : State) (k : Nat) (took : List Nat) (ts : List Nat) : (State.stepHalt s k took ts).mem = s.mem := by
  simp [State.stepHalt]
@[simp] theorem State.stepGone_wf (s : State) (st : StepSt) (hm : Memory.wf s.mem = true) : Memory.wf (State.stepGone s st).mem = true := by
  simp +contextual [State.stepGone, hm]
@[simp] theorem State.stepEnd_wf (s : State) (ck : Nat) (st : StepSt) (hm : Memory.wf s.mem = true) :
    Memory.wf (State.stepEnd s ck st).mem = true := by
  unfold State.stepEnd; (try dsimp only); (repeat' split) <;> simp +contextual [hm]
@[simp] theorem State.haltStep_wf (s : State) (k : Nat) (hm : Memory.wf s.mem = true) : Memory.wf (State.haltStep s k).mem = true := by
  unfold State.haltStep
  dsimp only
  split
  · exact hm
  · repeat' split
    all_goals simp [hm]
@[simp] theorem State.claim_mem (s : State) (k n : Nat) : (State.claim s k n).mem = s.mem := by simp [State.claim]
@[simp] theorem State.selWrite_mem (s : State) (k tid sel : Nat) (v : W64) : (State.selWrite s k tid sel v).mem = s.mem := by simp [State.selWrite]
@[simp] theorem State.setDeque_wf (s : State) (ck : Nat) (l : List DqEnt) (hm : Memory.wf s.mem = true) :
    Memory.wf (State.setDeque s ck l).mem = true := by
  simp +contextual [State.setDeque, hm]
@[simp] theorem State.mapCores_mem (s : State) (p : Nat) (f : Core → Core) : (State.mapCores s p f).mem = s.mem := by simp [State.mapCores]
@[simp] theorem State.spawnOne_wf (s : State) (c : Site) (tid : Nat) (b : List Byte) (hm : Memory.wf s.mem = true) :
    Memory.wf (State.spawnOne s c tid b).2.mem = true := by
  unfold State.spawnOne
  dsimp only
  split
  · exact hm
  · repeat' split
    all_goals simp [hm]
/-- The state that a record read leaves. -/
def Rec.state (r : Rec) (s : State) : State :=
  match r with
  | .bytes _ t => t
  | .refuse _ _ t => t
  | .absent _ t => t
  | .wait => s
theorem State.readRec_mem (s : State) (c : Site) (tid : Nat) (a : W64) (n : Nat) : ((s.readRec c tid a n).state s).mem = s.mem := by
  unfold State.readRec
  split
  · rfl
  · split
    · rfl
    · have h1 := State.resolve_mem s c.wg tid a n { r := true }
      split
      · next hh => rw [hh] at h1; exact h1
      · next hh => rw [hh] at h1; exact h1
      · next hh =>
        rw [hh] at h1
        dsimp only
        split
        · exact (State.errResponse_mem _ _ _).trans h1
        · split
          · exact h1
          · dsimp only [Rec.state]
            split
            · exact (State.spoil_mem _ _).trans h1
            · exact h1
@[simp] theorem State.spawnThread_wf (s : State) (c : Site) (fr : Frag) (d : XReg) (m : MAddr) (e : Env) (hm : Memory.wf s.mem = true) :
    Memory.wf (State.spawnThread s c fr d m e).1.mem = true := by
  unfold State.spawnThread
  have h1 := s.readRec_mem c e.tid (baseOff e m 64) 64
  split
  · exact hm
  · next hh => rw [hh] at h1; exact (congrArg Memory.wf h1).trans hm
  · next hh => rw [hh] at h1; exact (congrArg Memory.wf ((State.parkAt_mem ..).trans h1)).trans hm
  · next b t hh =>
    rw [hh] at h1
    have h2 := t.spawnOne_wf c e.tid b ((congrArg Memory.wf h1).trans hm)
    split
    next hq =>
    rw [hq] at h2
    simpa using h2
@[simp] theorem State.served_mem (s : State) (ck : Nat) (u : DqUse) : (State.served s ck u).mem = s.mem := by simp [State.served]
theorem State.takeRing_wf {s t : State} {p core : Nat} {r : Ring} {l : List W64} (h : s.takeRing p core r = some (l, t)) (hm :
    Memory.wf s.mem = true) :
    Memory.wf t.mem = true := by
  unfold State.takeRing at h
  dsimp only at h
  split at h
  · cases h
  · cases h; exact State.bulkWord_wf _ _ _ hm
@[simp] theorem State.recvThread_wf (s : State) (c : Site) (d n : Nat) (wait : Bool) (tid : Nat) (hm : Memory.wf s.mem = true) :
    Memory.wf (State.recvThread s c d n wait tid).1.mem = true := by
  unfold State.recvThread
  dsimp only
  split
  · exact hm
  · split
    · next hh =>
      split at hh
      · cases hh
      · have := State.takeRing_wf hh (by simpa using hm)
        simpa using this
    · split <;> simpa using hm
@[simp] theorem State.recvGone_wf (s : State) (wk tid : Nat) (pc : W64) (hm : Memory.wf s.mem = true) :
    Memory.wf (State.recvGone s wk tid pc).mem = true := by
  simp +contextual [State.recvGone, hm]
theorem State.recvGive_wf {s : State} {o : Option (List W64 × State)} (ho : ∀ l t, o = some (l, t) → Memory.wf t.mem = true)
    (hm : Memory.wf s.mem = true) (thr d : Nat) (again : Wait) : Memory.wf (State.recvGive s thr d again o).mem = true := by
  unfold State.recvGive
  split
  · simpa using hm
  · simpa using ho _ _ rfl
@[simp] theorem State.recvAt_wf (s : State) (thr n d since : Nat) (a0 : Option Ring) (hm : Memory.wf s.mem = true) :
    Memory.wf (State.recvAt s thr n d since a0).mem = true := by
  unfold State.recvAt
  split
  · exact State.recvGone_wf _ _ _ _ hm
  · exact State.recvGive_wf (fun _ _ h => State.takeRing_wf h hm) hm _ _ _
@[simp] theorem State.modStream_mem (s : State) (p f q : Nat) (u : Stream → Stream) : (State.modStream s p f q u).mem = s.mem := by
  simp [State.modStream]
@[simp] theorem State.linkEvent_wf (s : State) (p ty : Nat) (v : Nat) (hm : Memory.wf s.mem = true) :
    Memory.wf (State.linkEvent s p ty v).mem = true := by
  simp +contextual [State.linkEvent, hm]
@[simp] theorem State.fibreDown_wf (s : State) (p f ty : Nat) (v : Nat) (hm : Memory.wf s.mem = true) :
    Memory.wf (State.fibreDown s p f ty v).mem = true := by
  simp +contextual [State.fibreDown, hm]
@[simp] theorem State.replayAll_wf (s : State) (p f : Nat) (hm : Memory.wf s.mem = true) : Memory.wf (State.replayAll s p f).mem = true := by
  simp +contextual [State.replayAll, hm]
@[simp] theorem State.restripe_wf (s : State) (p f : Nat) (hm : Memory.wf s.mem = true) : Memory.wf (State.restripe s p f).mem = true := by
  simp +contextual [State.restripe, hm]
@[simp] theorem State.tookOwn_mem (s : State) (p f q : Nat) (y : Flit) : (State.tookOwn s p f q y).mem = s.mem := by simp [State.tookOwn]
@[simp] theorem State.transmit_mem (s : State) (p f q : Nat) (far : Nat × Nat) (y : Flit) : (State.transmit s p f q far y).mem = s.mem := by
  simp [State.transmit]
@[simp] theorem State.freeTags_mem (s : State) (p f q : Nat) (done : List Nat) : (State.freeTags s p f q done).mem = s.mem := by simp [State.freeTags]
@[simp] theorem State.ackUpTo_mem (s : State) (p f q : Nat) (a : BitVec 16) : (State.ackUpTo s p f q a).mem = s.mem := by simp [State.ackUpTo]
@[simp] theorem State.taken_mem (s : State) (p f : Nat) : (State.taken s p f).mem = s.mem := by simp [State.taken]
@[simp] theorem State.misdirected_mem (s : State) (p : Nat) : (State.misdirected s p).mem = s.mem := by simp [State.misdirected]
@[simp] theorem State.flitMsg_mem (s : State) (p : Nat) (y : Flit) (c : List Byte) (j o : Nat) : (State.flitMsg s p y c j o).mem = s.mem := by
  simp [State.flitMsg]
@[simp] theorem State.releaseCtx_mem (s : State) (p cmd : Nat) : (State.releaseCtx s p cmd).mem = s.mem := by simp [State.releaseCtx]
@[simp] theorem State.acceptFlit_mem (s : State) (p f q : Nat) (y : Flit) (c : List Byte) : (State.acceptFlit s p f q y c).mem = s.mem := by
  simp [State.acceptFlit]
@[simp] theorem State.ackBack_mem (s : State) (p f q : Nat) : (State.ackBack s p f q).mem = s.mem := by simp [State.ackBack]
@[simp] theorem State.askReplay_mem (s : State) (p f q : Nat) : (State.askReplay s p f q).mem = s.mem := by simp [State.askReplay]
@[simp] theorem State.advance_mem (s : State) (p f q : Nat) : (State.advance s p f q).mem = s.mem := by simp [State.advance]
theorem State.sendFlit_mem {s t : State} {p : Nat} {rotor : Bool} {f : Flit} (h : s.sendFlit p rotor f = some t) : t.mem = s.mem := by
  unfold State.sendFlit at h
  dsimp only at h
  repeat' split at h
  all_goals first | (cases h; done) | (cases h; simp)
theorem State.takeData_mem {s0 s : State} (h : s0.mem = s.mem) (p f q : Nat) (y : Flit) : (State.takeData s0 s p f q y).mem = s.mem := by
  unfold State.takeData
  dsimp only
  split
  · split <;> simp
  · split
    · split
      · exact h
      · next hh => simpa using State.sendFlit_mem hh
    · split
      · simp
      · split <;> simp
@[simp] theorem State.takeBad_mem (s : State) (p f : Nat) : (State.takeBad s p f).mem = s.mem := by unfold State.takeBad; (repeat' split) <;> simp
@[simp] theorem State.returnFlits_mem (s : State) (p : Nat) : (State.returnFlits s p).mem = s.mem := by
  unfold State.returnFlits; (try dsimp only); refine foldl_mem (fun s a => ?_) _ _; (repeat' split) <;> simp_all
@[simp] theorem State.routerIdle_mem (s : State) (p d : Nat) : (State.routerIdle s p d).2.mem = s.mem := by
  unfold State.routerIdle; (try dsimp only); (repeat' (first | (split <;> rename_i hh <;> replace hh := congrArg (fun r => r.2.mem) hh) | split)) <;> simp_all
@[simp] theorem State.giveAll_mem (s : State) (c : Site) (who : Frag) (d : XReg) (v : Nat) : (State.giveAll s c who d v).mem = s.mem := by
  unfold State.giveAll; (try dsimp only); refine foldl_mem (fun s a => ?_) _ _; (repeat' split) <;> simp_all
@[simp] theorem State.lpark_wf (s : State) (p f : Nat) (m : BitVec 16) (hm : Memory.wf s.mem = true) :
    Memory.wf (State.lpark s p f m).2.mem = true := by
  unfold State.lpark; (try dsimp only); (repeat' split) <;> simp +contextual [hm]
@[simp] theorem State.linkDone_mem (s : State) (k d v : Nat) : (State.linkDone s k d v).mem = s.mem := by simp [State.linkDone]
@[simp] theorem State.dropClaimed_mem (s : State) (k first : Nat) (old : Thread) : (State.dropClaimed s k first old).mem = s.mem := by
  simp [State.dropClaimed]
@[simp] theorem State.replayed_mem (s : State) (wk first : Nat) (old : Thread) (tid : Nat) (f : Fin) :
    (State.replayed s wk first old tid f).mem = s.mem := by
  unfold State.replayed; (repeat' split) <;> simp
theorem State.replay_wf (s : State) (wk : Nat) (p : Park) (b : Body) (who : Frag) (pc : W64)
    (hb : ∀ s c fr who t fin, b s c fr who = .done t fin → Memory.wf s.mem = true → Memory.wf t.mem = true)
    (hm : Memory.wf s.mem = true) : Memory.wf (State.replay s wk p b who pc).mem = true := by
  unfold State.replay
  dsimp only
  split
  · exact hm
  · exact hm
  · next hh =>
    have h1 := hb _ _ _ _ _ _ hh (by simpa using hm)
    have h2 := fun (l : List (Nat × Fin)) => foldl_wf (f := fun x (q : Nat × Fin) => x.replayed wk s.nextId (s.thr (thrKey wk q.1)) q.1 q.2)
      (fun t q ht => by simpa using ht) l h1
    split
    · exact h2 _
    · exact State.trap_wf _ _ _ (h2 _)
@[simp] theorem State.fbflush_mem (s : State) (p : Nat) : (State.fbflush s p).mem = s.mem := by simp [State.fbflush]
@[simp] theorem State.noteFull_wf (s : State) (p : Nat) (hm : Memory.wf s.mem = true) : Memory.wf (State.noteFull s p).mem = true := by
  simp +contextual [State.noteFull, hm]
@[simp] theorem State.sendHere_mem (s : State) (c : Cmd) (j : Nat) (b : List Byte) : (State.sendHere s c j b).mem = s.mem := by simp [State.sendHere]
@[simp] theorem State.sendNext_mem (s : State) (c : Cmd) : (State.sendNext s c).mem = s.mem := by
  unfold State.sendNext
  dsimp only
  split
  · have h1 := State.engBytes_mem s c (c.messageAt c.sent) (c.messageLen c.sent)
    split <;> next hh => rw [hh] at h1; simpa using h1
  · split
    · simp
    · have h1 := State.engBytes_mem s c (c.messageAt c.sent) (min (56 * c.flitMessages) (c.sendBytes - 56 * c.sent))
      split
      · next hh => rw [hh] at h1; simpa using h1
      · next hh =>
        rw [hh] at h1
        split
        · rfl
        · next h2 => simpa using (State.sendFlit_mem h2).trans h1
@[simp] theorem State.sendStep_mem (s : State) (c : Cmd) : (State.sendStep s c).mem = s.mem := by simp [State.sendStep]
@[simp] theorem State.appendMsg_wf (s : State) (m : Msg) (r : Ring) (hm : Memory.wf s.mem = true) : Memory.wf (State.appendMsg s m r).mem = true := by
  simp +contextual [State.appendMsg, hm]
@[simp] theorem State.msgOver_mem (s : State) (m : Msg) (dropped : Bool) : (State.msgOver s m dropped).mem = s.mem := by
  unfold State.msgOver; (repeat' split) <;> simp
@[simp] theorem State.severCmd_mem (s : State) (cmd : Nat) : (State.severCmd s cmd).mem = s.mem := by simp [State.severCmd]
@[simp] theorem State.msgDone_mem (s : State) (m : Msg) : (State.msgDone s m).mem = s.mem := by simp [State.msgDone]
@[simp] theorem State.dropMsg_wf (s : State) (m : Msg) (hm : Memory.wf s.mem = true) : Memory.wf (State.dropMsg s m).mem = true := by
  simp +contextual [State.dropMsg, hm]
@[simp] theorem State.arriveMsg_wf (s : State) (m : Msg) (hm : Memory.wf s.mem = true) : Memory.wf (State.arriveMsg s m).mem = true := by
  unfold State.arriveMsg; (try dsimp only); (repeat' split) <;> simp +contextual [hm]
@[simp] theorem State.tlbRemove_mem (s : State) (p fk : Nat) (dies : List Nat) (va : Option Nat) : (State.tlbRemove s p fk dies va).mem = s.mem := by
  unfold State.tlbRemove
  dsimp only
  rw [foldl_mem (fun _ _ => by simp), foldl_mem (fun _ _ => by simp)]
@[simp] theorem State.settleInv_mem (s : State) (k : Nat) : (State.settleInv s k).mem = s.mem := by unfold State.settleInv; (repeat' split) <;> simp
@[simp] theorem State.wipe_wf (s : State) (loc n : Nat) (h : Memory.wf s.mem = true) :
    Memory.wf (State.wipe s loc n).mem = true := State.MemOk.wipe h loc n
@[simp] theorem State.lay_wf (s : State) (loc : Nat) (b : List Byte) (h : Memory.wf s.mem = true) :
    Memory.wf (State.lay s loc b).mem = true := State.MemOk.lay h loc b
@[simp] theorem State.makeLand_mem (s : State) (gk : Nat) : (State.makeLand s gk).mem = s.mem := by simp [State.makeLand]
@[simp] theorem State.startMember_wf (s : State) (k : Nat) (hm : Memory.wf s.mem = true) : Memory.wf (State.startMember s k).mem = true := by
  simp +contextual [State.startMember, hm]
@[simp] theorem State.startThreads_mem (s : State) (k : Nat) : (State.startThreads s k).mem = s.mem := by simp [State.startThreads]
@[simp] theorem State.makeGang_wf (s : State) (b : Birth) (f : Fit) (hm : Memory.wf s.mem = true) :
    Memory.wf (State.makeGang s b f).2.mem = true := by
  unfold State.makeGang; (try dsimp only); (repeat' split) <;> simp +contextual [hm]
@[simp] theorem State.dropLand_mem (s : State) (gk : Nat) : (State.dropLand s gk).mem = s.mem := by
  unfold State.dropLand; (try dsimp only); refine foldl_mem (fun s a => ?_) _ _; (repeat' split) <;> simp_all
@[simp] theorem State.leaveCore_mem (s : State) (k : Nat) : (State.leaveCore s k).mem = s.mem := by simp [State.leaveCore]
@[simp] theorem State.freeGang_mem (s : State) (gk : Nat) : (State.freeGang s gk).mem = s.mem := by simp [State.freeGang]
@[simp] theorem State.freeSlot_mem (s : State) (gk : Nat) : (State.freeSlot s gk).mem = s.mem := by
  unfold State.freeSlot; dsimp only; (repeat' split) <;> simp
@[simp] theorem State.mark_mem (s : State) (gk : Nat) (discard : Bool) : (State.mark s gk discard).mem = s.mem := by
  unfold State.mark; dsimp only; (repeat' split) <;> simp
@[simp] theorem State.markQuar_mem (s : State) (p : Nat) : (State.markQuar s p).mem = s.mem := by simp [State.markQuar]
@[simp] theorem State.retireGang_mem (s : State) (gk : Nat) : (State.retireGang s gk).mem = s.mem := by simp [State.retireGang]
@[simp] theorem State.quarantine_wf (s : State) (p core : Nat) (hm : Memory.wf s.mem = true) : Memory.wf (State.quarantine s p core).mem = true := by
  simp +contextual [State.quarantine, hm]
@[simp] theorem State.suspect_wf (s : State) (p core : Nat) (d : Int) (hm : Memory.wf s.mem = true) :
    Memory.wf (State.suspect s p core d).mem = true := by
  simp +contextual [State.suspect, hm]
@[simp] theorem State.cleanDone_wf (s : State) (p core : Nat) (hm : Memory.wf s.mem = true) : Memory.wf (State.cleanDone s p core).mem = true := by
  simp +contextual [State.cleanDone, hm]
@[simp] theorem State.lqNext_wf (s : State) (p : Nat) (h : Nat × Nat × Nat) (hm : Memory.wf s.mem = true) :
    Memory.wf (State.lqNext s p h).mem = true := by
  simp +contextual [State.lqNext, hm]
@[simp] theorem State.won_mem (s : State) (p : Nat) (x : Nat × Nat) : (State.won s p x).mem = s.mem := by simp [State.won]
@[simp] theorem State.putCpl_wf (s : State) (c : Cpl) (v : W64) (hm : Memory.wf s.mem = true) : Memory.wf (State.putCpl s c v).mem = true := by
  unfold State.putCpl; (repeat' split) <;> simp +contextual [hm]
@[simp] theorem State.unregister_mem (s : State) (p : Nat) (key : W64) : (State.unregister s p key).mem = s.mem := by simp [State.unregister]
@[simp] theorem State.dropReg_mem (s : State) (p fn : Nat) : (State.dropReg s p fn).mem = s.mem := by unfold State.dropReg; (repeat' split) <;> simp
@[simp] theorem State.refuseRec_wf (s : State) (p fn : Nat) (h : Nat × Nat × Nat) (c : Cpl) (status : Nat) (hm : Memory.wf s.mem = true) :
    Memory.wf (State.refuseRec s p fn h c status).mem = true := by
  unfold State.refuseRec
  dsimp only
  exact State.post_wf _ _ _ (State.lqNext_wf _ _ _ (by rw [State.dropReg_mem]; exact State.putCpl_wf _ _ _ hm))
@[simp] theorem State.acceptRec_wf (s : State) (p fn num : Nat) (h : Nat × Nat × Nat) (l : Launch) (params : List W32) (c : Cpl) (hm :
    Memory.wf s.mem = true) :
    Memory.wf (State.acceptRec s p fn num h l params c).mem = true := by
  simp +contextual [State.acceptRec, hm]
@[simp] theorem State.holdRec_mem (s : State) (p fn va : Nat) : (State.holdRec s p fn va).mem = s.mem := by simp [State.holdRec]
@[simp] theorem State.takeRec_wf (s : State) (p fn num : Nat) (h : Nat × Nat × Nat) (hm : Memory.wf s.mem = true) :
    Memory.wf (State.takeRec s p fn num h).2.mem = true := by
  unfold State.takeRec; (try dsimp only); (repeat' split) <;> simp +contextual [hm]
@[simp] theorem State.abandon_wf (s : State) (l : List Access) (a0 : List Nat) (hm : Memory.wf s.mem = true) :
    Memory.wf (State.abandon s l a0).mem = true := by
  induction a0 generalizing s with | nil => simpa [State.abandon] | cons a r ih => unfold State.abandon; (try dsimp only); (repeat' split) <;> simp_all
@[simp] theorem State.settleFlr_mem (s : State) (p fn : Nat) : (State.settleFlr s p fn).mem = s.mem := by simp [State.settleFlr]
@[simp] theorem State.podOver_mem (s : State) (p : Nat) (l : Launch) : (State.podOver s p l).mem = s.mem := by simp [State.podOver]
@[simp] theorem State.freeCtxAll_mem (s : State) (p ck : Nat) : (State.freeCtxAll s p ck).mem = s.mem := by simp [State.freeCtxAll]
@[simp] theorem State.endUnformed_mem (s : State) (ck : Nat) : (State.endUnformed s ck).mem = s.mem := by simp [State.endUnformed]
@[simp] theorem State.discardSaved_mem (s : State) (gk : Nat) : (State.discardSaved s gk).mem = s.mem := by simp [State.discardSaved]
@[simp] theorem State.dropRecords_wf (s : State) (p : Nat) (lid : W32) (hm : Memory.wf s.mem = true) :
    Memory.wf (State.dropRecords s p lid).mem = true := by
  simp +contextual [State.dropRecords, hm]
@[simp] theorem State.dropAborted_wf (s : State) (ck : Nat) (hm : Memory.wf s.mem = true) : Memory.wf (State.dropAborted s ck).mem = true := by
  simp +contextual [State.dropAborted, hm]
@[simp] theorem State.dropPlace_mem (s : State) (p ck : Nat) : (State.dropPlace s p ck).mem = s.mem := by simp [State.dropPlace]
@[simp] theorem State.abortLaunch_wf (s : State) (ck : Nat) (hm : Memory.wf s.mem = true) : Memory.wf (State.abortLaunch s ck).mem = true := by
  unfold State.abortLaunch
  dsimp only
  split
  · exact hm
  · rw [State.modPkg_mem, State.endUnformed_mem]
    refine State.dropAborted_wf _ _ (foldl_wf (fun t x ht => ?_) _ (by simpa using hm))
    split <;> simpa using ht
@[simp] theorem State.abortId_wf (s : State) (p fn : Nat) (lid : W32) (hm : Memory.wf s.mem = true) :
    Memory.wf (State.abortId s p fn lid).mem = true := by
  unfold State.abortId; (repeat' split) <;> simp +contextual [hm]
@[simp] theorem State.abortFn_wf (s : State) (p fn : Nat) (hm : Memory.wf s.mem = true) : Memory.wf (State.abortFn s p fn).mem = true := by
  simp +contextual [State.abortFn, hm]
@[simp] theorem State.findBucket_mem (s : State) (c : Cmd) (a : W64) (want : Want) : (State.findBucket s c a want).2.mem = s.mem := by
  unfold State.findBucket; (try dsimp only); (repeat' (first | (split <;> rename_i hh <;> replace hh := congrArg (fun r => r.2.mem) hh) | split)) <;> simp_all
@[simp] theorem State.findBuckets_mem (s : State) (c : Cmd) (list : List Byte) (a0 : Nat) : (State.findBuckets s c list a0).2.mem = s.mem := by
  induction a0 generalizing s with | zero => simp [State.findBuckets] | succ n ih => unfold State.findBuckets; (repeat' (first | (split <;> rename_i hh <;> replace hh := congrArg (fun r => r.2.mem) hh) | split)) <;> simp_all
@[simp] theorem State.giveQuery_mem (s : State) (c : Cmd) (q cbt : List Byte) (bs : List (Nat × Nat × Nat)) (units u : Nat) :
    (State.giveQuery s c q cbt bs units u).mem = s.mem := by
  simp [State.giveQuery]
@[simp] theorem State.distribute_mem (s : State) (c : Cmd) : (State.distribute s c).mem = s.mem := by
  unfold State.distribute
  split
  · simp
  · have h1 := State.engBytes_mem s c (c.addrAt 16) (if c.qcode = 1 then 2 * c.qdim else c.qdim)
    split
    · next hh => rw [hh] at h1; simpa using h1
    · next q s1 hh =>
      rw [hh] at h1
      have h2 := State.engBytes_mem s1 c (c.addrAt 40) (8 * c.nbkt)
      split
      · next hh => rw [hh] at h2; simpa using h2.trans h1
      · next l s2 hh =>
        rw [hh] at h2
        have h3 : (if c.qcode = 2 then s2.engBytes c (c.addrAt 56) 512 else (([], none), s2)).2.mem = s2.mem := by split <;> simp
        split
        · next hh => rw [hh] at h3; simpa using h3.trans (h2.trans h1)
        · next cbt s3 hh =>
          rw [hh] at h3
          have h4 := State.findBuckets_mem s3 c l c.nbkt
          split
          · next hh => rw [hh] at h4; simpa using h4.trans (h3.trans (h2.trans h1))
          · next hh =>
            rw [hh] at h4
            have h5 := h4.trans (h3.trans (h2.trans h1))
            dsimp only
            split
            · exact h5
            · split
              · simpa using h5
              · rw [foldl_mem (fun _ _ => by simp)]; simpa using h5
@[simp] theorem State.readSources_mem (s : State) (c : Cmd) (ops : List Byte) (len : Nat) (a0 : Nat) :
    (State.readSources s c ops len a0).2.mem = s.mem := by
  induction a0 generalizing s with
  | zero => rfl
  | succ n ih =>
    unfold State.readSources
    have h1 := ih s
    split
    · next hh => rw [hh] at h1; exact h1
    · next l t hh =>
      rw [hh] at h1
      split
      · dsimp only
        split
        · exact h1
        · have h2 := State.engBytes_mem t c (BitVec.ofNat 64 (fld ops (32 * n + 16) 8)) len
          split <;> next hh => rw [hh] at h2; exact h2.trans h1
      · exact h1
@[simp] theorem State.distributePub_mem (s : State) (c : Cmd) : (State.distributePub s c).mem = s.mem := by
  unfold State.distributePub; (try dsimp only); (repeat' (first | (split <;> rename_i hh <;> replace hh := congrArg (fun r => r.2.mem) hh) | split)) <;> simp_all
@[simp] theorem State.modQuery_mem (s : State) (k cmd : Nat) (f : Query → Query) : (State.modQuery s k cmd f).mem = s.mem := by simp [State.modQuery]
@[simp] theorem State.leaveBucket_mem (s : State) (k : Nat) (q : Query) (pos off walked skipped err : Nat) :
    (State.leaveBucket s k q pos off walked skipped err).mem = s.mem := by
  unfold State.leaveBucket; (repeat' split) <;> simp
@[simp] theorem State.snapOf_mem (s : State) (k : Nat) (c : Cmd) (off v : Nat) : (State.snapOf s k c off v).2.mem = s.mem := by
  unfold State.snapOf; (try dsimp only); (repeat' (first | (split <;> rename_i hh <;> replace hh := congrArg (fun r => r.2.mem) hh) | split)) <;> simp_all
@[simp] theorem State.beginBucket_mem (s : State) (k : Nat) (c : Cmd) (q : Query) (pos off : Nat) :
    (State.beginBucket s k c q pos off).mem = s.mem := by
  simp [State.beginBucket]
@[simp] theorem State.setWalk_mem (s : State) (k : Nat) (c : Cmd) (w : BWalk) : (State.setWalk s k c w).mem = s.mem := by simp [State.setWalk]
@[simp] theorem State.walkPage_mem (s : State) (k : Nat) (c : Cmd) (q : Query) (pos off : Nat) (w : BWalk) :
    (State.walkPage s k c q pos off w).mem = s.mem := by
  simp [State.walkPage]
@[simp] theorem State.walkEntry_mem (s : State) (k : Nat) (c : Cmd) (q : Query) (w : BWalk) : (State.walkEntry s k c q w).mem = s.mem := by
  simp [State.walkEntry]
@[simp] theorem State.resultMsg_mem (s : State) (c : Cmd) (q : Query) (unit seq kind : Nat) (payload : List Byte) :
    (State.resultMsg s c q unit seq kind payload).mem = s.mem := by
  simp [State.resultMsg]
@[simp] theorem State.results_mem (s : State) (c : Cmd) (q : Query) (unit : Nat) : (State.results s c q unit).mem = s.mem := by simp [State.results]
@[simp] theorem State.hsPut_wf (s : State) (c : Cmd) (u off : Nat) (b : List Byte) (hm : Memory.wf s.mem = true) :
    Memory.wf (State.hsPut s c u off b).mem = true := by
  simp +contextual [State.hsPut, hm]
@[simp] theorem State.hsPuts_wf (s : State) (c : Cmd) (u off : Nat) (b : List Byte) (hm : Memory.wf s.mem = true) :
    Memory.wf (State.hsPuts s c u off b).mem = true := by
  simp +contextual [State.hsPuts, hm]
@[simp] theorem State.normOf_mem (s : State) (b : Bucket) (src : List Byte) : (State.normOf s b src).2.mem = s.mem := by
  unfold State.normOf; dsimp only; (repeat' split) <;> simp
theorem State.linkSpare_wf {s t : State} {c : Cmd} {b : Bucket} {x : Nat} (h : s.linkSpare c b = some (x, t)) (hm : Memory.wf s.mem = true) :
    Memory.wf t.mem = true := by
  unfold State.linkSpare at h
  dsimp only at h
  split at h
  · cases h
  · cases h
    refine State.hsPut_wf _ _ _ _ _ (State.hsPut_wf _ _ _ _ _ ?_)
    split
    · exact State.hsPut_wf _ _ _ _ _ (State.hsPut_wf _ _ _ _ _ hm)
    · exact State.hsPut_wf _ _ _ _ _ (State.hsPut_wf _ _ _ _ _ hm)
@[simp] theorem State.hsInsert_wf (s : State) (c : Cmd) (b : Bucket) (item : Nat) (src : List Byte) (hm : Memory.wf s.mem = true) :
    Memory.wf (State.hsInsert s c b item src).mem = true := by
  have key : ∀ t : State, ∀ x, Memory.wf t.mem = true →
      Memory.wf (((t.hsPuts c b.u (x + 16) src).hsPut c b.u x (natLe 8 item)).hsPut c b.u (x + 8) (natLe 8 (2 ^ 63 + b.v + 1))).mem = true :=
    fun t x ht => State.hsPut_wf _ _ _ _ _ (State.hsPut_wf _ _ _ _ _ (State.hsPuts_wf _ _ _ _ _ ht))
  unfold State.hsInsert
  dsimp only
  split
  · exact hm
  · next x t hh =>
    have ht : Memory.wf t.mem = true := by
      split at hh
      · cases hh; exact hm
      · exact State.linkSpare_wf hh hm
    have h1 := key t x ht
    generalize ((t.hsPuts c b.u (x + 16) src).hsPut c b.u x (natLe 8 item)).hsPut c b.u (x + 8) (natLe 8 (2 ^ 63 + b.v + 1)) = u at h1 ⊢
    refine State.hsPut_wf _ _ _ _ _ ?_
    rw [State.normOf_mem]; exact h1
@[simp] theorem State.hsDelete_wf (s : State) (c : Cmd) (b : Bucket) (item : Nat) (hm : Memory.wf s.mem = true) :
    Memory.wf (State.hsDelete s c b item).mem = true := by
  unfold State.hsDelete; (try dsimp only); (repeat' split) <;> simp +contextual [hm]
@[simp] theorem State.pubStep_wf (s : State) (c : Cmd) (b : Bucket) (pub : Pub) (hm : Memory.wf s.mem = true) :
    Memory.wf (State.pubStep s c b pub).2.mem = true := by
  unfold State.pubStep; (repeat' split) <;> simp +contextual [hm]
@[simp] theorem State.beginPub_mem (s : State) (k : Nat) (c : Cmd) (pub : Pub) : (State.beginPub s k c pub).2.mem = s.mem := by
  unfold State.beginPub; (try dsimp only); (repeat' (first | (split <;> rename_i hh <;> replace hh := congrArg (fun r => r.2.mem) hh) | split)) <;> simp_all
@[simp] theorem State.performPub_wf (s : State) (k : Nat) (c : Cmd) (pub : Pub) (hm : Memory.wf s.mem = true) :
    Memory.wf (State.performPub s k c pub).2.mem = true := by
  unfold State.performPub; (repeat' split) <;> simp +contextual [hm]
@[simp] theorem State.takeWatches_wf (s : State) (gk : Nat) (hm : Memory.wf s.mem = true) : Memory.wf (State.takeWatches s gk).mem = true := by
  unfold State.takeWatches; (try dsimp only); refine foldl_wf (fun s a hs => ?_) _ ?_ <;> (repeat' split) <;> simp_all
@[simp] theorem State.withdrawTags_mem (s : State) (ks : List Nat) : (State.withdrawTags s ks).mem = s.mem := by simp [State.withdrawTags]
@[simp] theorem State.stopPlane_wf (s : State) (gk ck : Nat) (hm : Memory.wf s.mem = true) : Memory.wf (State.stopPlane s gk ck).mem = true := by
  unfold State.stopPlane
  have h0 : Memory.wf s.draw.2.mem = true := hm
  generalize s.draw = d at h0 ⊢
  obtain ⟨n, u⟩ := d
  split
  · exact hm
  · dsimp only at h0 ⊢
    split
    · exact h0
    · split
      · rw [State.modCore_mem]
        exact State.runProduct_wf _ _ _ _ h0
      · split
        · exact h0
        · split
          · rw [State.modCore_mem, State.modCore_mem]
            exact State.runProduct_wf _ _ _ _ h0
          · exact h0
@[simp] theorem State.stopClass_wf (s : State) (gk : Nat) (c : EClass) (hm : Memory.wf s.mem = true) :
    Memory.wf (State.stopClass s gk c).2.mem = true := by
  unfold State.stopClass; (repeat' split) <;> simp +contextual [hm]
@[simp] theorem State.saveSpan_wf (s : State) (p fn : Nat) (a : W64) (b : List Byte) (hm : Memory.wf s.mem = true) :
    Memory.wf (State.saveSpan s p fn a b).mem = true := by
  unfold State.saveSpan; (try dsimp only); refine foldl_wf (fun s a hs => ?_) _ ?_ <;> (repeat' split) <;> simp_all
@[simp] theorem State.poisonSlot_mem (s : State) (gk : Nat) (a : W64) : (State.poisonSlot s gk a).mem = s.mem := by
  unfold State.poisonSlot; (try dsimp only); refine foldl_mem (fun s a => ?_) _ _; (repeat' split) <;> simp_all
@[simp] theorem State.slotSpan_wf (s : State) (gk slot o : Nat) (b : List Byte) (hm : Memory.wf s.mem = true) :
    Memory.wf (State.slotSpan s gk slot o b).mem = true := by
  simp +contextual [State.slotSpan, hm]
@[simp] theorem State.slotFree_wf (s : State) (gk slot o n : Nat) (part : List Byte → List Byte) (hm : Memory.wf s.mem = true) :
    Memory.wf (State.slotFree s gk slot o n part).mem = true := by
  unfold State.slotFree
  have h1 := State.freeBytes_mem s n
  generalize s.freeBytes n = r at h1 ⊢
  exact State.slotSpan_wf _ _ _ _ _ ((congrArg Memory.wf h1).trans hm)
@[simp] theorem State.writeParts_wf (s : State) (gk slot : Nat) (hm : Memory.wf s.mem = true) : Memory.wf (State.writeParts s gk slot).mem = true :=
  foldl_wf (fun _ _ h => State.slotFree_wf _ _ _ _ _ _ h) _ hm
@[simp] theorem State.writeVault_wf (s : State) (gk slot : Nat) (hm : Memory.wf s.mem = true) :
    Memory.wf (State.writeVault s gk slot).mem = true := by
  simp +contextual [State.writeVault, hm]
@[simp] theorem State.writeAcc_wf (gk slot : Nat) (s : State) (x : SavedCore × Nat) (hm : Memory.wf s.mem = true) :
    Memory.wf (State.writeAcc gk slot s x).mem = true := by
  unfold State.writeAcc
  generalize x.1.accBytes = b
  exact State.slotSpan_wf s gk slot _ b hm
@[simp] theorem State.writeAccs_wf (s : State) (gk slot : Nat) (hm : Memory.wf s.mem = true) : Memory.wf (State.writeAccs s gk slot).mem = true := by
  unfold State.writeAccs
  generalize (s.gang gk).saved.zipIdx = l
  split
  · exact foldl_wf (State.writeAcc_wf gk slot) l hm
  · exact hm
@[simp] theorem State.writeThreads_wf (s : State) (gk slot : Nat) (hm : Memory.wf s.mem = true) :
    Memory.wf (State.writeThreads s gk slot).mem = true :=
  foldl_wf (fun _ _ h => foldl_wf (fun _ _ h => State.slotFree_wf _ _ _ _ _ _ h) _ h) _ hm
@[simp] theorem State.writeSlot_wf (s : State) (gk slot : Nat) (hm : Memory.wf s.mem = true) : Memory.wf (State.writeSlot s gk slot).mem = true := by
  unfold State.writeSlot
  exact State.writeThreads_wf _ _ _ (State.writeAccs_wf _ _ _ (State.writeVault_wf _ _ _ (State.writeParts_wf _ _ _ (State.slotSpan_wf _ _ _ _ _ hm))))
@[simp] theorem State.slotTraps_mem (s : State) (gk : Nat) : (State.slotTraps s gk).mem = s.mem := by simp [State.slotTraps]
@[simp] theorem State.saveVault_mem (s : State) (gk : Nat) : (State.saveVault s gk).mem = s.mem := by simp [State.saveVault]
@[simp] theorem State.preemptAll_mem (s : State) (k detail : Nat) (p : PreT) : (State.preemptAll s k detail p).mem = s.mem := by
  simp [State.preemptAll]
@[simp] theorem State.discardGang_wf (s : State) (gk : Nat) (hm : Memory.wf s.mem = true) : Memory.wf (State.discardGang s gk).mem = true := by
  simp +contextual [State.discardGang, hm]
@[simp] theorem State.saveGang_wf (s : State) (gk slot : Nat) (hm : Memory.wf s.mem = true) : Memory.wf (State.saveGang s gk slot).mem = true := by
  simp +contextual [State.saveGang, hm]
@[simp] theorem State.leaveGang_mem (s : State) (gk : Nat) : (State.leaveGang s gk).mem = s.mem := by
  unfold State.leaveGang
  dsimp only
  rw [State.modFn_mem, State.modGang_mem, State.freeGang_mem, foldl_mem (fun _ _ => by simp)]
@[simp] theorem State.noteWaits_mem (s : State) (p : Nat) : (State.noteWaits s p).mem = s.mem := by
  unfold State.noteWaits; (try dsimp only); refine foldl_mem (fun s a => ?_) _ _; (repeat' split) <;> simp_all
@[simp] theorem State.placedAs_mem (s : State) (p : Nat) (w : Nat × Nat) (f : Fit) : (State.placedAs s p w f).mem = s.mem := by simp [State.placedAs]
@[simp] theorem State.placeFresh_wf (s : State) (p : Nat) (w : Nat × Nat) (x next : Nat) (f : Fit) (hm : Memory.wf s.mem = true) :
    Memory.wf (State.placeFresh s p w x next f).mem = true := by
  simp +contextual [State.placeFresh, hm]
theorem State.dqWrite_mem {s t : State} {ck : Nat} {b l : W32} (h : s.dqWrite ck b l = some t) : t.mem = s.mem := by
  unfold State.dqWrite at h
  split at h <;> cases h
  rfl
theorem State.dqWrite_getD_mem (s : State) (ck : Nat) (b l : W32) : ((s.dqWrite ck b l).getD s).mem = s.mem := by
  cases h : s.dqWrite ck b l with
  | none => rfl
  | some t => exact State.dqWrite_mem h
@[simp] theorem State.restoreCore_mem (s : State) (k : Nat) (x : SavedCore) : (State.restoreCore s k x).mem = s.mem := by
  unfold State.restoreCore
  dsimp only
  split <;> simp [State.dqWrite_getD_mem]
@[simp] theorem State.restoreVault_wf (s : State) (gk : Nat) (img : List Byte) (bad : List Nat) (hm : Memory.wf s.mem = true) :
    Memory.wf (State.restoreVault s gk img bad).mem = true := by
  simp +contextual [State.restoreVault, hm]
@[simp] theorem State.rehome_mem (s : State) (a : Access) : (State.rehome s a).mem = s.mem := by
  unfold State.rehome; (try dsimp only); (repeat' (first | (split <;> rename_i hh <;> replace hh := congrArg (fun r => r.2.mem) hh) | split)) <;> simp_all
@[simp] theorem State.restoreThreads_mem (s : State) (k slot : Nat) : (State.restoreThreads s k slot).mem = s.mem := by simp [State.restoreThreads]
@[simp] theorem State.restoreGang_wf (s : State) (gk : Nat) (f : Fit) (hm : Memory.wf s.mem = true) :
    Memory.wf (State.restoreGang s gk f).mem = true := by
  simp +contextual [State.restoreGang, hm]
@[simp] theorem State.without_mem (s : State) (gs : List Nat) : (State.without s gs).mem = s.mem := by simp [State.without]
@[simp] theorem State.cleanAll_wf (s : State) (gk : Nat) (hm : Memory.wf s.mem = true) : Memory.wf (State.cleanAll s gk).mem = true := by
  simp +contextual [State.cleanAll, hm]
@[simp] theorem State.dryRetire_wf (s : State) (gk : Nat) (hm : Memory.wf s.mem = true) : Memory.wf (State.dryRetire s gk).mem = true := by
  simp +contextual [State.dryRetire, hm]
@[simp] theorem State.waitTag_mem (s : State) (p core d fn : Nat) (lid : W32) (a : W64) : (State.waitTag s p core d fn lid a).2.mem = s.mem := by
  unfold State.waitTag; (try dsimp only); (repeat' (first | (split <;> rename_i hh <;> replace hh := congrArg (fun r => r.2.mem) hh) | split)) <;> simp_all
@[simp] theorem State.waitsFull_mem (s : State) (p core d fn : Nat) (lid : W32) (a0 : List W64) :
    (State.waitsFull s p core d fn lid a0).2.mem = s.mem := by
  induction a0 generalizing s with | nil => simp [State.waitsFull] | cons a r ih => unfold State.waitsFull; (repeat' (first | (split <;> rename_i hh <;> replace hh := congrArg (fun r => r.2.mem) hh) | split)) <;> simp_all
@[simp] theorem State.judge_mem (s : State) (ck d : Nat) (ok : State → Nat → DqEnt → Bool) (e : DqEnt) : (State.judge s ck d ok e).2.mem = s.mem := by
  unfold State.judge; (try dsimp only); (repeat' (first | (split <;> rename_i hh <;> replace hh := congrArg (fun r => r.2.mem) hh) | split)) <;> simp_all
@[simp] theorem State.recDrop_mem (s : State) (ck n : Nat) : (State.recDrop s ck n).mem = s.mem := by simp [State.recDrop]
@[simp] theorem State.recFail_wf (s : State) (ck : Nat) (e : DqEnt) (a : W64) (hm : Memory.wf s.mem = true) :
    Memory.wf (State.recFail s ck e a).mem = true := by
  unfold State.recFail; (repeat' split) <;> simp +contextual [hm]
@[simp] theorem State.scan_wf (s : State) (ck d : Nat) (ok : State → Nat → DqEnt → Bool) (a0 : Nat) (a1 : List DqEnt) (hm : Memory.wf s.mem = true) :
    Memory.wf (State.scan s ck d ok a0 a1).2.mem = true := by
  induction a1 generalizing s a0 with
  | nil => cases a0 <;> exact hm
  | cons e r ih =>
    cases a0 with
    | zero => exact hm
    | succ n =>
      unfold State.scan
      have h1 := State.judge_mem s ck d ok e
      split
      · next t hh => rw [hh] at h1; exact ih t (n + 1) (by rw [h1]; exact hm)
      · next t hh => rw [hh] at h1; exact ih _ _ (by rw [State.recDrop_mem, h1]; exact hm)
      · next a t hh => rw [hh] at h1; exact ih _ _ (State.recFail_wf _ _ _ _ (by rw [h1]; exact hm))
      · next t hh => rw [hh] at h1; exact ih t n (by rw [h1]; exact hm)
@[simp] theorem State.gatherStop_wf (s : State) (ck x : Nat) (hm : Memory.wf s.mem = true) : Memory.wf (State.gatherStop s ck x).mem = true := by
  simp +contextual [State.gatherStop, hm]
@[simp] theorem State.gatherInto_mem (s : State) (ck x : Nat) (recs : List DqEnt) (room : Nat × Nat) :
    (State.gatherInto s ck x recs room).mem = s.mem := by
  simp [State.gatherInto]
@[simp] theorem State.gatherEnds_wf (s : State) (ck : Nat) (hm : Memory.wf s.mem = true) : Memory.wf (State.gatherEnds s ck).mem = true := by
  unfold State.gatherEnds; (try dsimp only); refine foldl_wf (fun s a hs => ?_) _ ?_ <;> (repeat' split) <;> simp_all
@[simp] theorem State.onQuarantined_mem (s : State) (ck gk : Nat) : (State.onQuarantined s ck gk).mem = s.mem := by simp [State.onQuarantined]
@[simp] theorem State.readyOf_mem (s : State) (v d : Nat) (e : DqEnt) (l : List DqEnt) : (State.readyOf s v d e l).2.mem = s.mem := by
  unfold State.readyOf
  suffices ∀ (l : List DqEnt) (r : Nat × State), (l.foldl (fun r f =>
      match r.2.judge v d (fun _ _ g => e.kindOf g) f with
      | (.take, s) => (r.1 + 1, s)
      | (_, s) => (r.1, s)) r).2.mem = r.2.mem from this l (0, s)
  intro l
  induction l with
  | nil => intro r; rfl
  | cons f l ih =>
    intro r
    refine (ih _).trans ?_
    dsimp only
    have h1 := State.judge_mem r.2 v d (fun _ _ g => e.kindOf g) f
    split <;> next hh => rw [hh] at h1; exact h1
@[simp] theorem State.giveDeque_wf (s : State) (ck v : Nat) (hm : Memory.wf s.mem = true) : Memory.wf (State.giveDeque s ck v).2.mem = true := by
  unfold State.giveDeque
  dsimp only
  have h1 := State.scan_wf (s.served v .steal) v (ck % 640 / 160) (fun s x _ => s.mayGather ck x) 1 (s.core v).deque (by simpa using hm)
  split
  · next hh => rw [hh] at h1; exact State.setDeque_wf _ _ _ h1
  · next e t l u hh =>
    rw [hh] at h1
    have h2 := State.readyOf_mem u v (ck % 640 / 160) e l
    have h3 := fun k => State.scan_wf (u.readyOf v (ck % 640 / 160) e l).2 v (ck % 640 / 160) (fun _ _ f => e.kindOf f) k l
      ((congrArg Memory.wf h2).trans h1)
    split <;> exact State.setDeque_wf _ _ _ (h3 _)
@[simp] theorem State.give_wf (s : State) (ck v : Nat) (hm : Memory.wf s.mem = true) : Memory.wf (State.give s ck v).2.mem = true := by
  unfold State.give; (repeat' split) <;> simp +contextual [hm]
@[simp] theorem State.askAll_wf (s : State) (ck : Nat) (a0 : List Nat) (hm : Memory.wf s.mem = true) :
    Memory.wf (State.askAll s ck a0).mem = true := by
  induction a0 generalizing s with | nil => simpa [State.askAll] | cons a r ih => unfold State.askAll; (try dsimp only); (repeat' (first | (split <;> rename_i hh <;> replace hh := congrArg (fun r => Memory.wf r.2.mem) hh) | split)) <;> simp_all
@[simp] theorem State.modCheck_mem (s : State) (p id : Nat) (f : Check → Check) : (State.modCheck s p id f).mem = s.mem := by simp [State.modCheck]
@[simp] theorem State.endCheck_mem (s : State) (p id : Nat) : (State.endCheck s p id).mem = s.mem := by simp [State.endCheck]
@[simp] theorem State.cleanCores_wf (s : State) (p : Nat) (l : List Nat) (hm : Memory.wf s.mem = true) :
    Memory.wf (State.cleanCores s p l).mem = true := by
  simp +contextual [State.cleanCores, hm]
@[simp] theorem State.score_wf (s : State) (p : Nat) (l : List (Nat × Int)) (hm : Memory.wf s.mem = true) :
    Memory.wf (State.score s p l).mem = true := by
  simp +contextual [State.score, hm]
@[simp] theorem State.refuseReg_wf (s : State) (p off : Nat) (hm : Memory.wf s.mem = true) : Memory.wf (State.refuseReg s p off).mem = true := by
  simp +contextual [State.refuseReg, hm]
theorem State.limited_wf (s : State) (p off : Nat) (ok : Bool) {f : State → State} (hf : Memory.wf (f s).mem = true) (hm : Memory.wf s.mem = true) :
    Memory.wf (State.limited s p off ok f).mem = true := by
  unfold State.limited
  split
  · exact hf
  · exact State.refuseReg_wf _ _ _ hm
@[simp] theorem State.zeroWords_wf (s : State) (p pa n : Nat) (hm : Memory.wf s.mem = true) : Memory.wf (State.zeroWords s p pa n).mem = true := by
  simp +contextual [State.zeroWords, hm]
@[simp] theorem State.writeLqctl_wf (s : State) (p fn v : Nat) (hm : Memory.wf s.mem = true) : Memory.wf (State.writeLqctl s p fn v).mem = true := by
  unfold State.writeLqctl
  try dsimp only
  refine State.limited_wf _ _ _ _ ?_ hm
  rw [State.modFn_mem]; split <;> simp [hm]
@[simp] theorem State.writeEqctl_wf (s : State) (p fn v : Nat) (hm : Memory.wf s.mem = true) : Memory.wf (State.writeEqctl s p fn v).mem = true := by
  unfold State.writeEqctl
  try dsimp only
  refine State.limited_wf _ _ _ _ ?_ hm
  rw [State.modFn_mem]; split <;> simp [hm]
@[simp] theorem State.writeMbctl_wf (s : State) (p fn v : Nat) (hm : Memory.wf s.mem = true) : Memory.wf (State.writeMbctl s p fn v).mem = true := by
  unfold State.writeMbctl
  try dsimp only
  refine State.limited_wf _ _ _ _ ?_ hm
  rw [State.modFn_mem]; split <;> simp [hm]
@[simp] theorem State.writeBase_wf (s : State) (p fn off : Nat) (ctl : W64) (f : Fn → Fn) (hm : Memory.wf s.mem = true) :
    Memory.wf (State.writeBase s p fn off ctl f).mem = true := by
  unfold State.writeBase
  try dsimp only
  refine State.limited_wf _ _ _ _ ?_ hm
  simpa using hm
@[simp] theorem State.writeTlbinvh_mem (s : State) (p fn : Nat) : (State.writeTlbinvh s p fn).mem = s.mem := by simp [State.writeTlbinvh]
@[simp] theorem State.writeDryfrach_wf (s : State) (p v : Nat) (hm : Memory.wf s.mem = true) : Memory.wf (State.writeDryfrach s p v).mem = true := by
  simp +contextual [State.writeDryfrach, hm]
@[simp] theorem State.writeSuspw_wf (s : State) (p v : Nat) (hm : Memory.wf s.mem = true) : Memory.wf (State.writeSuspw s p v).mem = true := by
  unfold State.writeSuspw
  try dsimp only
  refine State.limited_wf _ _ _ _ ?_ hm
  simpa using hm
@[simp] theorem State.clearTelemetry_mem (s : State) (p : Nat) : (State.clearTelemetry s p).mem = s.mem := by simp [State.clearTelemetry]
@[simp] theorem State.writeCntclr_mem (s : State) (p v : Nat) : (State.writeCntclr s p v).mem = s.mem := by simp [State.writeCntclr]
@[simp] theorem State.writePriv_wf (s : State) (p v : Nat) (hm : Memory.wf s.mem = true) : Memory.wf (State.writePriv s p v).mem = true := by
  unfold State.writePriv
  try dsimp only
  refine State.limited_wf _ _ _ _ ?_ hm
  simpa using hm
@[simp] theorem State.writeFbhead_mem (s : State) (p v : Nat) : (State.writeFbhead s p v).mem = s.mem := by simp [State.writeFbhead]
@[simp] theorem State.scrub_wf (s : State) (p : Nat) (h : Memory.wf s.mem = true) : Memory.wf (State.scrub s p).mem = true := State.MemOk.scrub h p
@[simp] theorem State.resetPods_mem (s : State) (p : Nat) : (State.resetPods s p).mem = s.mem := by simp [State.resetPods]
@[simp] theorem State.resetPkg_wf (s : State) (p : Nat) (hm : Memory.wf s.mem = true) : Memory.wf (State.resetPkg s p).mem = true := by
  simp +contextual [State.resetPkg, hm]
@[simp] theorem State.writeBootst_mem (s : State) (p v : Nat) : (State.writeBootst s p v).mem = s.mem := by simp [State.writeBootst]
@[simp] theorem State.bootFail_mem (s : State) (p e : Nat) : (State.bootFail s p e).mem = s.mem := by simp [State.bootFail]
@[simp] theorem State.bootFail2_mem (s : State) (p e : Nat) : (State.bootFail2 s p e).mem = s.mem := by simp [State.bootFail2]
@[simp] theorem State.bootTo_mem (s : State) (p stage : Nat) : (State.bootTo s p stage).mem = s.mem := by simp [State.bootTo]
theorem wf_of_ite {c : Prop} [Decidable c] {a b : State} (ha : Memory.wf a.mem = true) (hb : Memory.wf b.mem = true) :
    Memory.wf (if c then a else b).mem = true := by split <;> assumption
@[simp] theorem State.writePf_wf (s : State) (p off v : Nat) (hm : Memory.wf s.mem = true) : Memory.wf (State.writePf s p off v).mem = true :=
  wf_of_ite (by simpa using hm) <| wf_of_ite (State.limited_wf _ _ _ _ (by simpa using hm) hm) <|
  wf_of_ite (by simpa using hm) <| wf_of_ite (by simpa using hm) <| wf_of_ite (by simp [hm]) <|
  wf_of_ite (State.writeSuspw_wf _ _ _ hm) <| wf_of_ite (by simpa using hm) <| wf_of_ite (State.writePriv_wf _ _ _ hm) <|
  wf_of_ite (State.limited_wf _ _ _ _ (by simpa using hm) hm) <| wf_of_ite (wf_of_ite (by simp [hm]) hm) hm
@[simp] theorem State.hostWriteReg_wf (s : State) (p fn off v : Nat) (hm : Memory.wf s.mem = true) :
    Memory.wf (State.hostWriteReg s p fn off v).mem = true :=
  wf_of_ite (by simpa using hm) <| wf_of_ite (State.writeBase_wf _ _ _ _ _ _ hm) <| wf_of_ite (State.writeLqctl_wf _ _ _ _ hm) <|
  wf_of_ite (State.writeBase_wf _ _ _ _ _ _ hm) <| wf_of_ite (State.writeEqctl_wf _ _ _ _ hm) <|
  wf_of_ite (State.writeBase_wf _ _ _ _ _ _ hm) <| wf_of_ite (State.writeBase_wf _ _ _ _ _ _ hm) <|
  wf_of_ite (State.writeMbctl_wf _ _ _ _ hm) <| wf_of_ite (State.limited_wf _ _ _ _ (by simpa using hm) hm) <|
  wf_of_ite (State.abortId_wf _ _ _ _ hm) <| wf_of_ite (by simpa using hm) <| wf_of_ite (State.writePf_wf _ _ _ _ hm) hm
@[simp] theorem State.noteThreads_mem (s : State) (p ck : Nat) : (State.noteThreads s p ck).mem = s.mem := by simp [State.noteThreads]
@[simp] theorem State.tickCore_mem (s : State) (p ck : Nat) : (State.tickCore s p ck).mem = s.mem := by simp [State.tickCore]
@[simp] theorem State.carry_mem (s : State) (p d : Nat) : (State.carry s p d).mem = s.mem := by simp [State.carry]
@[simp] theorem State.tickDie_mem (s : State) (p d : Nat) : (State.tickDie s p d).mem = s.mem := by simp [State.tickDie]
@[simp] theorem State.ageUnits_mem (s : State) (p : Nat) : (State.ageUnits s p).mem = s.mem := by simp [State.ageUnits]
@[simp] theorem State.parkFetch_mem (s : State) (c : Site) (va : Nat) : (State.parkFetch s c va).mem = s.mem := by simp [State.parkFetch]
@[simp] theorem State.boundary_wf (s : State) (c : Group) (hm : Memory.wf s.mem = true) : Memory.wf (State.boundary s c).1.mem = true := by
  unfold State.boundary; (try dsimp only); (repeat' split) <;> simp +contextual [hm]
@[simp] theorem State.noteTaken_mem (s : State) (c : Site) (slot : Nat) : (State.noteTaken s c slot).mem = s.mem := by simp [State.noteTaken]
@[simp] theorem State.noteIssue_mem (s : State) (c : Site) (slot : Nat) : (State.noteIssue s c slot).mem = s.mem := by simp [State.noteIssue]
@[simp] theorem State.redIssue_mem (s : State) (ck slot : Nat) : (State.redIssue s ck slot).mem = s.mem := by simp [State.redIssue]
@[simp] theorem State.upsetX_mem (s : State) (thr reg : Nat) (fatal : Bool) : (State.upsetX s thr reg fatal).mem = s.mem := by simp [State.upsetX]
@[simp] theorem State.upsetK_mem (s : State) (wk reg : Nat) (fatal : Bool) : (State.upsetK s wk reg fatal).mem = s.mem := by simp [State.upsetK]
@[simp] theorem State.upsetMem_wf (s : State) (loc : Nat) (fatal : Bool) (hm : Memory.wf s.mem = true) :
    Memory.wf (State.upsetMem s loc fatal).mem = true := by
  simp +contextual [State.upsetMem, hm]
@[simp] theorem State.upsetAcc_wf (s : State) (p core acc : Nat) (fatal : Bool) (hm : Memory.wf s.mem = true) :
    Memory.wf (State.upsetAcc s p core acc fatal).mem = true := by
  simp +contextual [State.upsetAcc, hm]
@[simp] theorem State.upsetSys_mem (s : State) (p core : Nat) : (State.upsetSys s p core).mem = s.mem := by simp [State.upsetSys]
@[simp] theorem State.nextTurn_mem (s : State) : (State.nextTurn s).2.mem = s.mem := by unfold State.nextTurn; (repeat' split) <;> simp
end Sys2Proof.Machine
end

