-- ==== Sys2Proof/Laws/Meanings.lean ====
section
/-! SUPPORT. Every meaning answers a next state and keeps the canonical form of memory: a word at the site it issues at, an event anywhere. -/

namespace Sys2Proof.Machine

/-- The word goes on to a state with canonical memory. -/
def Keeps (o : Host.Outcome State Fault Refusal) : Prop := ∃ t, o = .next t ∧ Memory.wf t.mem = true
@[simp] theorem keeps_next (t : State) : Keeps (.next t) ↔ Memory.wf t.mem = true := ⟨fun ⟨_, h, k⟩ => by cases h; exact k, fun h => ⟨t, rfl, h⟩⟩
@[simp] theorem keeps_ite (c : Prop) [Decidable c] (a b : Host.Outcome State Fault Refusal) :
    Keeps (if c then a else b) ↔ if c then Keeps a else Keeps b := by
  split <;> exact Iff.rfl
/-- A body's answer has canonical memory. -/
def Ran.Keeps (r : Ran) : Prop := ∀ t fin, r = .done t fin → Memory.wf t.mem = true
@[simp] theorem ran_done (t : State) (fin : List (Nat × Fin)) : (Ran.done t fin).Keeps ↔ Memory.wf t.mem = true :=
  ⟨fun h => h t fin rfl, fun h _ _ e => by cases e; exact h⟩
@[simp] theorem ran_held : Ran.held.Keeps := fun _ _ h => by cases h
@[simp] theorem ran_illegal : Ran.illegal.Keeps := fun _ _ h => by cases h
@[simp] theorem ran_ite (c : Prop) [Decidable c] (a b : Ran) : (if c then a else b).Keeps ↔ if c then a.Keeps else b.Keeps := by
  split <;> exact Iff.rfl
/-- A body keeps the canonical form of memory. -/
def BodyKeeps (b : Body) : Prop := ∀ s c fr who, Memory.wf s.mem = true → (b s c fr who).Keeps
theorem bodyUnless_keeps {b : Body} (hb : BodyKeeps b) (stop : Bool) : BodyKeeps (bodyUnless stop b) := fun s c fr who hm => by
  unfold bodyUnless
  split
  · simpa using hm
  · exact hb s c fr who hm
theorem runWord_keeps {i : Instr} {g : Guard} {rd : Frag → Env → Reads} {ok : State → Site → Bool} {b : Body} (hb : BodyKeeps b) {s : State}
    (hc : s.cur.isSome = true) (hm : Memory.wf s.mem = true) : Keeps (runWord i g rd ok b s) := by
  unfold runWord
  split
  · next h => simp [h] at hc
  · next c h =>
    split
    · simp [hm]
    · dsimp only
      split
      · simp [hm]
      · simpa using hm
      · next hh =>
        have h2 := bodyUnless_keeps hb _ _ c _ _ (State.regErrors_wf _ _ _ _ hm) _ _ hh
        simpa using State.finish_wf _ _ _ _ _ h2
theorem laneBody_keeps (f : Frag → Env → Out) : BodyKeeps (laneBody f) := fun s c fr who hm => by
  simp only [laneBody, ran_done]
  exact foldl_wf (fun _ _ h => by simpa using h) _ hm
theorem runLane_keeps {i : Instr} {g : Guard} {sm : Option SMod} {bx : List Nat} {f : Frag → Env → Out} {s : State}
    (hc : s.cur.isSome = true) (hm : Memory.wf s.mem = true) : Keeps (runLane i g sm bx f s) := runWord_keeps (laneBody_keeps f) hc hm
theorem uniformBody_keeps (n : KReg) (f : Frag → Env → Nat) : BodyKeeps (uniformBody n f) := fun s c fr who hm => by
  unfold uniformBody; dsimp only; split <;> simpa using hm
theorem jumpBody_keeps (t : Site → Frag → Env → W64) (l : Option XReg) : BodyKeeps (jumpBody t l) := fun s c fr who hm => by
  unfold jumpBody
  cases l with
  | none => simpa using hm
  | some d =>
    dsimp only
    rw [ran_done]
    exact foldl_wf (fun t x h => by obtain ⟨i, f⟩ := x; dsimp only; split <;> simpa using h) _ hm
theorem threadBody_keeps (f : Env → Thread → Thread) : BodyKeeps (threadBody f) := fun s c fr who hm => by
  simp only [threadBody, ran_done]
  exact foldl_wf (fun _ _ h => by simpa using h) _ hm
theorem rwaitBody_keeps (n : Nat) : BodyKeeps (rwaitBody n) := fun s c fr who hm => by
  unfold rwaitBody
  dsimp only
  split
  · simp
  · rw [ran_done]
    exact foldl_wf (fun _ _ h => by simpa using h) _ hm
theorem needInc_keeps (n : Nat) {b : Body} (h : BodyKeeps b) : BodyKeeps (needInc n b) := fun s c fr who hm => by
  unfold needInc; split
  · exact h _ _ _ _ hm
  · simpa using hm
theorem fwdsBody_keeps (b sm w ch blk) : BodyKeeps (fwdsBody b sm w ch blk) := fun s c fr who hm => by
  unfold fwdsBody; dsimp only; (repeat' split) <;> simp [hm]
theorem fwdrBody_keeps (d w ch blk) : BodyKeeps (fwdrBody d w ch blk) := fun s c fr who hm => by
  unfold fwdrBody; dsimp only; (repeat' split) <;> simp [hm]
theorem barBody_keeps (d sc n) : BodyKeeps (barBody d sc n) := fun s c fr who hm => by
  unfold barBody; dsimp only
  split
  · simp
  · rw [ran_done]; exact foldl_wf (fun _ _ h => by simpa using h) _ hm
theorem baroBody_keeps (d sc n) : BodyKeeps (baroBody d sc n) := fun s c fr who hm => by
  unfold baroBody; dsimp only
  split
  · simpa using hm
  · split
    · simp
    · rw [ran_done]; exact foldl_wf (fun _ _ h => by simpa using h) _ (by simpa using hm)
theorem barwBody_keeps (b sc n) : BodyKeeps (barwBody b sc n) := fun s c fr who hm => by
  unfold barwBody; dsimp only
  rw [ran_done]
  exact foldl_wf (fun _ _ h => by simpa using h) _ (by split <;> simpa using hm)
theorem lparkBody_keeps (d b) : BodyKeeps (lparkBody d b) := fun s c fr who hm => by
  unfold lparkBody; dsimp only; (repeat' split) <;> simp [hm]
theorem lwakeBody_keeps (d b) : BodyKeeps (lwakeBody d b) := fun s c fr who hm => by
  unfold lwakeBody; dsimp only; (repeat' split) <;> simp [hm]
theorem parkWord_keeps (s : State) (c : Site) (who : Frag) (va : Nat) (hm : Memory.wf s.mem = true) : (s.parkWord c who va).Keeps := by
  unfold State.parkWord
  rw [ran_done]
  exact foldl_wf (fun _ _ h => by simpa using h) _ hm
theorem readRec_wf {s : State} {c : Site} {tid : Nat} {a : W64} {n : Nat} (hm : Memory.wf s.mem = true) :
    Memory.wf ((s.readRec c tid a n).state s).mem = true := by rw [State.readRec_mem]; exact hm
theorem readRecs_mem (s : State) (c : Site) (tid : Nat) (a : W64) (n : Nat) : ((s.readRecs c tid a n).state s).mem = s.mem := by
  induction n generalizing s a with
  | zero => rfl
  | succ n ih =>
    unfold State.readRecs
    have h1 := State.readRec_mem s c tid a 64
    split
    · next b t hh =>
      rw [hh] at h1
      have h2 := ih t (a + 64)
      split
      · next hq => rw [hq] at h2; exact h2.trans h1
      · next r hq =>
        generalize t.readRecs c tid (a + 64) n = x at h2 ⊢
        cases x <;> first | exact h2.trans h1 | rfl
    · exact h1
theorem slotsetBody_keeps (d m) : BodyKeeps (slotsetBody d m) := fun s c fr who hm => by
  unfold slotsetBody
  split
  · simpa using hm
  · next e _ =>
    dsimp only
    have h1 : Memory.wf ((s.readRec c e.tid (baseOff e m 64) 64).state s).mem = true := readRec_wf hm
    split
    · simp
    · next hh => rw [hh] at h1; exact (ran_done _ _).mpr h1
    · next hh => rw [hh] at h1; exact parkWord_keeps _ _ _ _ h1
    · next hdr t hh =>
      rw [hh] at h1
      have h2 := readRecs_mem t c e.tid (baseOff e m 64 + 64) (if 64 < fld hdr 0 2 then 0 else fld hdr 0 2)
      split
      · simp
      · next hh =>
        rw [hh] at h2
        exact (ran_done _ _).mpr (show Memory.wf _ = true from (show _ = t.mem from h2) ▸ (show Memory.wf t.mem = true from h1))
      · next u hh =>
        rw [hh] at h2
        have h3 : Memory.wf u.mem = true := (show u.mem = t.mem from h2) ▸ h1
        exact parkWord_keeps _ _ _ _ h3
      · next u hh =>
        rw [hh] at h2
        have h3 : Memory.wf u.mem = true := (show u.mem = t.mem from h2) ▸ h1
        rw [ran_done, State.giveAll_mem]
        split
        · exact h3
        · exact h3
theorem memThread_fold_wf {α : Type} (f : State × List (Nat × Fin) → α → State × List (Nat × Fin)) (l : List α)
    (hf : ∀ r a, Memory.wf r.1.mem = true → Memory.wf (f r a).1.mem = true) (r : State × List (Nat × Fin)) (hr : Memory.wf r.1.mem = true) :
    Memory.wf (l.foldl f r).1.mem = true := by
  induction l generalizing r with
  | nil => exact hr
  | cons a l ih => exact ih _ (hf _ _ hr)
theorem pairBody_keeps (a b) : BodyKeeps (pairBody a b) := fun s c fr who hm => by
  unfold pairBody
  have h1 := State.checkAll_mem s c (who.map fun e => (e, (pairElems a b e).1))
  split
  next ks s1 hh =>
  rw [hh] at h1
  have h2 : Memory.wf s1.mem = true := by rw [show s1.mem = _ from h1]; exact hm
  split
  · simp
  · dsimp only
    rw [ran_done]
    refine memThread_fold_wf _ _ (fun r x hr => ?_) _ h2
    obtain ⟨e, l, k⟩ := x
    dsimp only
    have h3 : Memory.wf (if l.isEmpty then (r.1, Fin.next) else r.1.memThread c fr e.tid l ⟨.rlx, .lane⟩ k (pairElems a b e).2).1.mem = true := by
      split
      · exact hr
      · exact State.memThread_wf _ _ _ _ _ _ _ _ hr
    split
    · simpa using h3
    · exact h3
theorem fenceFirst_keeps {s : State} {c : Site} {tids : List Nat} {o : MO} {r : Ran} (h : s.fenceFirst c tids o = some r) (hm : Memory.wf s.mem = true) : r.Keeps := by
  unfold State.fenceFirst at h
  repeat' split at h
  all_goals first | (cases h; done) | (cases h; simp [hm])
theorem memBody_keeps (plan o) : BodyKeeps (memBody plan o) := fun s c fr who hm => by
  unfold memBody
  split
  · next h => exact fenceFirst_keeps h hm
  · dsimp only
    have h1 : Memory.wf (s.checkAll c (who.map fun e => (e, plan (e.tid == (fr.headD default).tid) e))).2.mem = true := by
      rw [State.checkAll_mem]; exact hm
    split
    · simp
    · rw [ran_done]
      exact memThread_fold_wf _ _ (fun r x hr => State.memThread_wf _ _ _ _ _ _ _ _ hr) _ h1
theorem fenceBody_keeps (o) : BodyKeeps (fenceBody o) := fun s c fr who hm => by
  unfold fenceBody
  dsimp only
  split
  · next h => rw [ran_done, State.fenceAt_mem]; exact fenceFirst_keeps h hm _ _ rfl
  · rw [ran_done, State.fenceAt_mem]; exact hm
  · simp
  · rw [ran_done]
    refine foldl_wf (fun t x h => ?_) _ ((congrArg Memory.wf (State.fenceAt_mem _ _ _ _)).trans hm)
    split <;> simpa using h
theorem queueBody_keeps (p k) : BodyKeeps (queueBody p k) := fun s c fr who hm => by
  unfold queueBody
  split
  · simpa using hm
  · split
    · simpa using hm
    · dsimp only
      split
      · simpa using hm
      · split
        · simp
        · rw [ran_done]
          split <;> simpa using hm
theorem tdescBody_keeps (p k) : BodyKeeps (tdescBody p k) := fun s c fr who hm => by
  unfold tdescBody; dsimp only; (repeat' split) <;> simp [hm]
theorem cbloadBody_keeps (m) : BodyKeeps (cbloadBody m) := fun s c fr who hm => by
  unfold cbloadBody
  split
  · simpa using hm
  · next e rest =>
    dsimp only
    split
    · simpa using hm
    · have h1 : Memory.wf (s.findAll c.wg e.tid (baseOff e m 512) (cbElems m e) {}).2.mem = true := by rw [State.findAll_mem]; exact hm
      split
      · exact (ran_done _ _).mpr h1
      · rw [ran_done, State.parkAt_mem]; exact h1
      · split
        · rw [ran_done, State.unbackedElem_mem]; exact h1
        · split
          · simp
          · rw [ran_done]
            simp [hm]
theorem accrdBody_keeps (d n b sm) : BodyKeeps (accrdBody d n b sm) := fun s c fr who hm => by
  unfold accrdBody; dsimp only
  split
  · simp
  · simpa using hm
theorem mmawaitBody_keeps (m) : BodyKeeps (mmawaitBody m) := fun s c fr who hm => by
  unfold mmawaitBody; simpa using hm
theorem spawnBody_keeps (d m o) : BodyKeeps (spawnBody d m o) := fun s c fr who hm => by
  unfold spawnBody
  split
  · next h => exact fenceFirst_keeps h hm
  · dsimp only
    split
    · simp
    · rw [ran_done]
      exact memThread_fold_wf _ _ (fun r x hr => State.spawnThread_wf _ _ _ _ _ _ hr) _ (by split <;> simpa using hm)
theorem ringsetBody_keeps (d m b n) : BodyKeeps (ringsetBody d m b n) := fun s c fr who hm => by
  unfold ringsetBody; (repeat' split) <;> simp [hm]
theorem recvBody_keeps (d n w) : BodyKeeps (recvBody d n w) := fun s c fr who hm => by
  unfold recvBody
  split
  · simp
  · dsimp only
    rw [ran_done]
    exact memThread_fold_wf _ _ (fun r x hr => State.recvThread_wf _ _ _ _ _ _ hr) _ hm
theorem tlbinvBody_keeps (v sc) : BodyKeeps (tlbinvBody v sc) := fun s c fr who hm => by
  unfold tlbinvBody; dsimp only; (repeat' split) <;> simp [hm]
theorem swrBody_keeps (b w sel) : BodyKeeps (swrBody b w sel) := fun s c fr who hm => by
  unfold swrBody
  dsimp only
  split
  · simpa using hm
  · split
    · split
      · simp
      · next h => rw [ran_done, State.dqWrite_mem h]; exact hm
    · split <;> simp [hm]
theorem trapBody_keeps (f) : BodyKeeps (trapBody f) := fun s c fr who hm => by simpa [trapBody] using hm
theorem rteBody_keeps (k) : BodyKeeps (rteBody k) := fun s c fr who hm => by
  unfold rteBody; dsimp only
  rw [ran_done]
  exact foldl_wf (fun _ _ h => by split <;> simpa using h) _ hm
theorem eventBody_keeps (b w m) : BodyKeeps (eventBody b w m) := fun s c fr who hm => by
  unfold eventBody; dsimp only; (repeat' split) <;> simp [hm]
theorem haltBody_keeps : BodyKeeps haltBody := fun s c fr who hm => by
  unfold haltBody; dsimp only; split <;> simp [hm]
theorem eBody_keeps (k e) : BodyKeeps (eBody k e) := fun s c fr who hm => by
  unfold eBody
  split
  · simpa using hm
  · next p _ =>
    dsimp only
    have h1 : Memory.wf ((s.readRec c p.tid (BitVec.ofInt 64 ((p.ky e.a.toNat).toNat + 8 * e.off.toInt)) 128).state s).mem = true := readRec_wf hm
    split
    · simp
    · next hh => rw [hh] at h1; exact (ran_done _ _).mpr h1
    · next hh => rw [hh] at h1; exact parkWord_keeps _ _ _ _ h1
    · next b t hh =>
      rw [hh] at h1
      have h2 := State.resolve_mem t c.wg p.tid (BitVec.ofInt 64 ((p.ky e.a.toNat).toNat + 8 * e.off.toInt) + 8) 8 { w := true }
      split
      · next hq => rw [hq] at h2; rw [ran_done, show State.mem _ = _ from h2]; exact h1
      · next hq => rw [hq] at h2; exact parkWord_keeps _ _ _ _ (by rw [show State.mem _ = _ from h2]; exact h1)
      · next hq =>
        rw [hq] at h2
        split
        · simp
        · rw [ran_done, State.issueCmd_mem, show State.mem _ = _ from h2]; exact h1
theorem runF3_keeps {i o w f} {s : State} (hc : s.cur.isSome = true) (hm : Memory.wf s.mem = true) : Keeps (runF3 i o w f s) := runLane_keeps hc hm
theorem runF3b_keeps {i o w f} {s : State} (hc : s.cur.isSome = true) (hm : Memory.wf s.mem = true) : Keeps (runF3b i o w f s) := runLane_keeps hc hm
theorem runF2_keeps {i o w f} {s : State} (hc : s.cur.isSome = true) (hm : Memory.wf s.mem = true) : Keeps (runF2 i o w f s) := runLane_keeps hc hm
theorem runFP_keeps {i o w f} {s : State} (hc : s.cur.isSome = true) (hm : Memory.wf s.mem = true) : Keeps (runFP i o w f s) := runLane_keeps hc hm
theorem runFl3_keeps {i o w f} {s : State} (hc : s.cur.isSome = true) (hm : Memory.wf s.mem = true) : Keeps (runFl3 i o w f s) := runLane_keeps hc hm
theorem runFl2_keeps {i o w f} {s : State} (hc : s.cur.isSome = true) (hm : Memory.wf s.mem = true) : Keeps (runFl2 i o w f s) := runLane_keeps hc hm
theorem runPair_keeps {i a b} {s : State} (hc : s.cur.isSome = true) (hm : Memory.wf s.mem = true) : Keeps (runPair i a b s) := by
  unfold runPair
  split
  · next h => simp [h] at hc
  · next c h =>
    split
    · simp [hm]
    · dsimp only
      split
      · simp [hm]
      · simpa using hm
      · next hh =>
        have h2 := pairBody_keeps _ _ _ c _ _ (State.regErrors_wf _ _ _ _ hm) _ _ hh
        simpa using State.finish_wf _ _ _ _ _ h2
theorem execBra_keeps (g : Guard) (v : BitVec 33) (s : State) (hc : s.cur.isSome = true) (hm : Memory.wf s.mem = true) : Keeps (execBra g v s) := by
  exact runWord_keeps (jumpBody_keeps _ _) hc hm
theorem execBrc_keeps (b : BCond) (a : Opnd) (g : Guard) (v : BitVec 33) (s : State) (hc : s.cur.isSome = true) (hm : Memory.wf s.mem = true) :
    Keeps (execBrc b a g v s) := by
  exact runWord_keeps (jumpBody_keeps _ _) hc hm
theorem execCall_keeps (d : XReg) (g : Guard) (v : BitVec 33) (s : State) (hc : s.cur.isSome = true) (hm : Memory.wf s.mem = true) :
    Keeps (execCall d g v s) := by
  exact runWord_keeps (jumpBody_keeps _ _) hc hm
theorem execRet_keeps (b : Base) (g : Guard) (s : State) (hc : s.cur.isSome = true) (hm : Memory.wf s.mem = true) : Keeps (execRet b g s) := by
  exact runWord_keeps (jumpBody_keeps _ _) hc hm
theorem execJmpi_keeps (b : Base) (g : Guard) (s : State) (hc : s.cur.isSome = true) (hm : Memory.wf s.mem = true) : Keeps (execJmpi b g s) := by
  exact runWord_keeps (jumpBody_keeps _ _) hc hm
theorem execJmpiLink_keeps (d : XReg) (b : Base) (g : Guard) (s : State) (hc : s.cur.isSome = true) (hm : Memory.wf s.mem = true) :
    Keeps (execJmpiLink d b g s) := by
  exact runWord_keeps (jumpBody_keeps _ _) hc hm
theorem execRjoin_keeps (n : BitVec 4) (g : Guard) (s : State) (hc : s.cur.isSome = true) (hm : Memory.wf s.mem = true) :
    Keeps (execRjoin n g s) := by
  exact runWord_keeps (threadBody_keeps _) hc hm
theorem execRwait_keeps (n : BitVec 4) (g : Guard) (s : State) (hc : s.cur.isSome = true) (hm : Memory.wf s.mem = true) :
    Keeps (execRwait n g s) := by
  exact runWord_keeps (rwaitBody_keeps _) hc hm
theorem execRbRelease_keeps (wg n : Nat) (s : State) (hm : Memory.wf s.mem = true) : Keeps (execRbRelease wg n s) := by
  simp +contextual [execRbRelease, hm]
theorem execExit_keeps (g : Guard) (s : State) (hc : s.cur.isSome = true) (hm : Memory.wf s.mem = true) : Keeps (execExit g s) := by
  exact runWord_keeps (fun s c fr who hm => (ran_done _ _).mpr (foldl_wf (fun _ _ h => by simpa using h) _ hm)) hc hm
theorem execNop_keeps (g : Guard) (s : State) (hc : s.cur.isSome = true) (hm : Memory.wf s.mem = true) : Keeps (execNop g s) := by
  exact runWord_keeps (threadBody_keeps _) hc hm
theorem execYield_keeps (g : Guard) (s : State) (hc : s.cur.isSome = true) (hm : Memory.wf s.mem = true) : Keeps (execYield g s) := by
  exact runWord_keeps (fun s c fr who hm => threadBody_keeps _ s c fr who hm) hc hm
theorem execYieldExpiry_keeps (thr : Nat) (s : State) (hm : Memory.wf s.mem = true) : Keeps (execYieldExpiry thr s) := by
  simp +contextual [execYieldExpiry, hm]
theorem execThreadAged_keeps (thr : Nat) (s : State) (hm : Memory.wf s.mem = true) : Keeps (execThreadAged thr s) := by
  simp +contextual [execThreadAged, hm]
theorem execIncofr_keeps (n : BitVec 4) (a b : Base) (sm : Option SMod) (g : Guard) (s : State) (hc : s.cur.isSome = true) (hm : Memory.wf s.mem = true) :
    Keeps (execIncofr n a b sm g s) := by
  exact runWord_keeps (needInc_keeps _ (fun s c fr who hm => (ran_done _ _).mpr (foldl_wf (fun _ _ h => by simpa using h) _ hm))) hc hm
theorem execIncrd_keeps (d : XReg) (p : IncPart) (n : BitVec 4) (g : Guard) (s : State) (hc : s.cur.isSome = true) (hm : Memory.wf s.mem = true) :
    Keeps (execIncrd d p n g s) := runWord_keeps (needInc_keeps _ (fun s c fr who hm => by
  dsimp only
  split
  · simp
  · exact (ran_done _ _).mpr (foldl_wf (fun _ _ h => by simpa using h) _ (by split <;> simpa using hm)))) hc hm
theorem execIncwait_keeps (n : BitVec 4) (b : Base) (sm : Option SMod) (g : Guard) (s : State) (hc : s.cur.isSome = true) (hm : Memory.wf s.mem = true) :
    Keeps (execIncwait n b sm g s) := runWord_keeps (needInc_keeps _ (fun s c fr who hm => (ran_done _ _).mpr
    (foldl_wf (fun _ _ h => by simpa using h) _ (by split <;> simpa using hm)))) hc hm
theorem execIncwaitWake_keeps (thr : Nat) (s : State) (hm : Memory.wf s.mem = true) : Keeps (execIncwaitWake thr s) := by
  unfold execIncwaitWake; (try dsimp only); (repeat' split) <;> simp +contextual [hm]
theorem execOfferArrival_keeps (id : Nat) (s : State) (hm : Memory.wf s.mem = true) : Keeps (execOfferArrival id s) := by
  unfold execOfferArrival; (repeat' split) <;> simp +contextual [hm]
theorem execSillageDelivery_keeps (id : Nat) (s : State) (hm : Memory.wf s.mem = true) : Keeps (execSillageDelivery id s) := by
  unfold execSillageDelivery; (repeat' split) <;> simp +contextual [hm]
theorem execBound_keeps (n : BitVec 4) (b : Base) (sm : Option SMod) (g : Guard) (s : State) (hc : s.cur.isSome = true) (hm : Memory.wf s.mem = true) :
    Keeps (execBound n b sm g s) := by
  exact runWord_keeps (needInc_keeps _ (fun s c fr who hm => (ran_done _ _).mpr (foldl_wf (fun _ _ h => by simpa using h) _ hm))) hc hm
theorem execBoundNone_keeps (g : Guard) (s : State) (hc : s.cur.isSome = true) (hm : Memory.wf s.mem = true) : Keeps (execBoundNone g s) := by
  exact runWord_keeps (threadBody_keeps _) hc hm
theorem execCancel_keeps (g : Guard) (s : State) (hc : s.cur.isSome = true) (hm : Memory.wf s.mem = true) : Keeps (execCancel g s) := by
  exact runWord_keeps (fun s c fr who hm => (ran_done _ _).mpr (foldl_wf (fun _ _ h => by simpa using h) _ hm)) hc hm
theorem execShield_keeps (n : BitVec 33) (g : Guard) (s : State) (hc : s.cur.isSome = true) (hm : Memory.wf s.mem = true) :
    Keeps (execShield n g s) := by
  exact runWord_keeps (threadBody_keeps _) hc hm
theorem execTdesc_keeps (slot : BitVec 4) (a : XReg) (g : Guard) (s : State) (hc : s.cur.isSome = true) (hm : Memory.wf s.mem = true) :
    Keeps (execTdesc slot a g s) := by
  exact runWord_keeps (tdescBody_keeps _ _) hc hm
theorem execPlane_keeps (dst src : BitVec 4) (i : BitVec 5) (g : Guard) (s : State) (hc : s.cur.isSome = true) (hm : Memory.wf s.mem = true) :
    Keeps (execPlane dst src i g s) := by
  exact runWord_keeps (queueBody_keeps _ _) hc hm
theorem execAlign_keeps (dst src : BitVec 4) (i : BitVec 5) (g : Guard) (s : State) (hc : s.cur.isSome = true) (hm : Memory.wf s.mem = true) :
    Keeps (execAlign dst src i g s) := by
  exact runWord_keeps (queueBody_keeps _ _) hc hm
theorem execMma_keeps (acc : AReg) (ta tb : BitVec 4) (pair : Bool) (g : Guard) (s : State) (hc : s.cur.isSome = true) (hm : Memory.wf s.mem = true) :
    Keeps (execMma acc ta tb pair g s) := by
  exact runWord_keeps (queueBody_keeps _ _) hc hm
theorem execMmac_keeps (acc : AReg) (ta tb : BitVec 4) (pair : Bool) (g : Guard) (s : State) (hc : s.cur.isSome = true) (hm : Memory.wf s.mem = true) :
    Keeps (execMmac acc ta tb pair g s) := by
  exact runWord_keeps (queueBody_keeps _ _) hc hm
theorem execAccz_keeps (mask : BitVec 8) (pair : Bool) (g : Guard) (s : State) (hc : s.cur.isSome = true) (hm : Memory.wf s.mem = true) :
    Keeps (execAccz mask pair g s) := by
  exact runWord_keeps (queueBody_keeps _ _) hc hm
theorem execAccst_keeps (acc : AReg) (m : MAddr) (b : XReg) (s : State) (hc : s.cur.isSome = true) (hm : Memory.wf s.mem = true) :
    Keeps (execAccst acc m b s) := by
  exact runWord_keeps (queueBody_keeps _ _) hc hm
theorem execCbload_keeps (m : MAddr) (s : State) (hc : s.cur.isSome = true) (hm : Memory.wf s.mem = true) : Keeps (execCbload m s) := by
  exact runWord_keeps (cbloadBody_keeps _) hc hm
theorem execCbloadDataReturn_keeps (id : Nat) (s : State) (hm : Memory.wf s.mem = true) : Keeps (execCbloadDataReturn id s) := by
  unfold execCbloadDataReturn; (repeat' split) <;> simp +contextual [hm]
theorem execAccrd_keeps (d : XReg) (acc : AReg) (b : Opnd) (sm : Option SMod) (g : Guard) (s : State) (hc : s.cur.isSome = true) (hm : Memory.wf s.mem = true) :
    Keeps (execAccrd d acc b sm g s) := by
  exact runWord_keeps (accrdBody_keeps _ _ _ _) hc hm
theorem execMmawait_keeps (mask : BitVec 8) (g : Guard) (s : State) (hc : s.cur.isSome = true) (hm : Memory.wf s.mem = true) :
    Keeps (execMmawait mask g s) := by
  exact runWord_keeps (mmawaitBody_keeps _) hc hm
theorem execPlaneOpRetire_keeps (pkg core : Nat) (s : State) (hm : Memory.wf s.mem = true) : Keeps (execPlaneOpRetire pkg core s) := by
  unfold execPlaneOpRetire; (try dsimp only); (repeat' split) <;> simp +contextual [hm]
theorem execFadd_keeps (o : F3) (f : FFmt) (rm : RM) (s : State) (hc : s.cur.isSome = true) (hm : Memory.wf s.mem = true) :
    Keeps (execFadd o f rm s) := by
  exact runFl3_keeps hc hm
theorem execFsub_keeps (o : F3) (f : FFmt) (rm : RM) (s : State) (hc : s.cur.isSome = true) (hm : Memory.wf s.mem = true) :
    Keeps (execFsub o f rm s) := by
  exact runFl3_keeps hc hm
theorem execFmul_keeps (o : F3) (f : FFmt) (rm : RM) (s : State) (hc : s.cur.isSome = true) (hm : Memory.wf s.mem = true) :
    Keeps (execFmul o f rm s) := by
  exact runLane_keeps hc hm
theorem execFfma_keeps (o : F3) (c : Opnd) (f : FFmt) (rm : RM) (s : State) (hc : s.cur.isSome = true) (hm : Memory.wf s.mem = true) :
    Keeps (execFfma o c f rm s) := by
  exact runLane_keeps hc hm
theorem execFmin_keeps (o : F3) (f : FFmt) (s : State) (hc : s.cur.isSome = true) (hm : Memory.wf s.mem = true) : Keeps (execFmin o f s) := by
  exact runFl3_keeps hc hm
theorem execFmax_keeps (o : F3) (f : FFmt) (s : State) (hc : s.cur.isSome = true) (hm : Memory.wf s.mem = true) : Keeps (execFmax o f s) := by
  exact runFl3_keeps hc hm
theorem execFcmp_keeps (o : FP) (f : FFmt) (c : FCond) (s : State) (hc : s.cur.isSome = true) (hm : Memory.wf s.mem = true) :
    Keeps (execFcmp o f c s) := by
  exact runLane_keeps hc hm
theorem execFclass_keeps (o : F2) (f : FFmt) (s : State) (hc : s.cur.isSome = true) (hm : Memory.wf s.mem = true) : Keeps (execFclass o f s) := by
  exact runFl2_keeps hc hm
theorem execFdot2_keeps (o : F3) (bf : Bool) (rm : RM) (s : State) (hc : s.cur.isSome = true) (hm : Memory.wf s.mem = true) :
    Keeps (execFdot2 o bf rm s) := by
  unfold execFdot2; (repeat' split) <;> first | exact runLane_keeps hc hm
theorem execFrcp_keeps (o : F2) (f : FFmt) (s : State) (hc : s.cur.isSome = true) (hm : Memory.wf s.mem = true) : Keeps (execFrcp o f s) := by
  exact runFl2_keeps hc hm
theorem execFsqrt_keeps (o : F2) (f : FFmt) (s : State) (hc : s.cur.isSome = true) (hm : Memory.wf s.mem = true) : Keeps (execFsqrt o f s) := by
  exact runFl2_keeps hc hm
theorem execFrsq_keeps (o : F2) (f : FFmt) (s : State) (hc : s.cur.isSome = true) (hm : Memory.wf s.mem = true) : Keeps (execFrsq o f s) := by
  exact runFl2_keeps hc hm
theorem execFexp2_keeps (o : F2) (f : FFmt) (s : State) (hc : s.cur.isSome = true) (hm : Memory.wf s.mem = true) : Keeps (execFexp2 o f s) := by
  exact runFl2_keeps hc hm
theorem execFlog2_keeps (o : F2) (f : FFmt) (s : State) (hc : s.cur.isSome = true) (hm : Memory.wf s.mem = true) : Keeps (execFlog2 o f s) := by
  exact runFl2_keeps hc hm
theorem execFsint_keeps (o : F2) (f : FFmt) (s : State) (hc : s.cur.isSome = true) (hm : Memory.wf s.mem = true) : Keeps (execFsint o f s) := by
  exact runFl2_keeps hc hm
theorem execFcost_keeps (o : F2) (f : FFmt) (s : State) (hc : s.cur.isSome = true) (hm : Memory.wf s.mem = true) : Keeps (execFcost o f s) := by
  exact runFl2_keeps hc hm
theorem execFrnd_keeps (o : F2) (f : FFmt) (rm : RM) (s : State) (hc : s.cur.isSome = true) (hm : Memory.wf s.mem = true) :
    Keeps (execFrnd o f rm s) := by
  exact runFl2_keeps hc hm
theorem execFcvt_keeps (o : F2) (dst src : NFmt) (rm : RM) (sat : Bool) (s : State) (hc : s.cur.isSome = true) (hm : Memory.wf s.mem = true) :
    Keeps (execFcvt o dst src rm sat s) := by
  exact runLane_keeps hc hm
theorem execFcvti_keeps (o : F2) (t : ITy) (src : FFmt) (rm : RM) (sat : Bool) (s : State) (hc : s.cur.isSome = true) (hm : Memory.wf s.mem = true) :
    Keeps (execFcvti o t src rm sat s) := by
  exact runFl2_keeps hc hm
theorem execIcvtf_keeps (o : F2) (t : ITy) (dst : FFmt) (rm : RM) (s : State) (hc : s.cur.isSome = true) (hm : Memory.wf s.mem = true) :
    Keeps (execIcvtf o t dst rm s) := by
  exact runF2_keeps hc hm
theorem execFpack_keeps (o : F3) (t : NFmt) (sat : Bool) (s : State) (hc : s.cur.isSome = true) (hm : Memory.wf s.mem = true) :
    Keeps (execFpack o t sat s) := by
  exact runF3b_keeps hc hm
theorem execFunpk_keeps (o : F3) (t : NFmt) (s : State) (hc : s.cur.isSome = true) (hm : Memory.wf s.mem = true) : Keeps (execFunpk o t s) := by
  exact runF3_keeps hc hm
theorem execFscaleacc_keeps (o : F3) (f : FFmt) (rm : RM) (sat : Bool) (ak : AKind) (e8m0 : Bool) (s : State) (hc : s.cur.isSome = true) (hm : Memory.wf s.mem = true) :
    Keeps (execFscaleacc o f rm sat ak e8m0 s) := by
  exact runLane_keeps hc hm
theorem execOrdkey_keeps (o : F2) (t : KeyTy) (s : State) (hc : s.cur.isSome = true) (hm : Memory.wf s.mem = true) : Keeps (execOrdkey o t s) := by
  unfold execOrdkey
  split
  · exact runF2_keeps hc hm
  · exact runFl2_keeps hc hm
theorem execAdd_keeps (o : F3) (t : ITy) (sat : Bool) (s : State) (hc : s.cur.isSome = true) (hm : Memory.wf s.mem = true) :
    Keeps (execAdd o t sat s) := by
  exact runF3_keeps hc hm
theorem execSub_keeps (o : F3) (t : ITy) (sat : Bool) (s : State) (hc : s.cur.isSome = true) (hm : Memory.wf s.mem = true) :
    Keeps (execSub o t sat s) := by
  exact runF3_keeps hc hm
theorem execAddc_keeps (o : F3) (w : W2) (borrow : Bool) (s : State) (hc : s.cur.isSome = true) (hm : Memory.wf s.mem = true) :
    Keeps (execAddc o w borrow s) := by
  exact runF3_keeps hc hm
theorem execMul_keeps (o : F3) (t : ITy) (sat : Bool) (s : State) (hc : s.cur.isSome = true) (hm : Memory.wf s.mem = true) :
    Keeps (execMul o t sat s) := by
  exact runF3_keeps hc hm
theorem execMulh_keeps (o : F3) (w : W2) (sg : Bool) (s : State) (hc : s.cur.isSome = true) (hm : Memory.wf s.mem = true) :
    Keeps (execMulh o w sg s) := by
  exact runF3_keeps hc hm
theorem execMad_keeps (o : F3) (c : Opnd) (t : ITy) (sat : Bool) (s : State) (hc : s.cur.isSome = true) (hm : Memory.wf s.mem = true) :
    Keeps (execMad o c t sat s) := by
  exact runLane_keeps hc hm
theorem execDiv_keeps (o : F3) (t : ITy) (sat : Bool) (s : State) (hc : s.cur.isSome = true) (hm : Memory.wf s.mem = true) :
    Keeps (execDiv o t sat s) := by
  unfold execDiv runDiv
  exact runLane_keeps hc hm
theorem execRem_keeps (o : F3) (t : ITy) (s : State) (hc : s.cur.isSome = true) (hm : Memory.wf s.mem = true) :
    Keeps (execRem o t s) := by
  unfold execRem runDiv
  exact runLane_keeps hc hm
theorem execMin_keeps (o : F3) (t : ITy) (s : State) (hc : s.cur.isSome = true) (hm : Memory.wf s.mem = true) : Keeps (execMin o t s) := by
  exact runF3_keeps hc hm
theorem execMax_keeps (o : F3) (t : ITy) (s : State) (hc : s.cur.isSome = true) (hm : Memory.wf s.mem = true) : Keeps (execMax o t s) := by
  exact runF3_keeps hc hm
theorem execAbs_keeps (o : F2) (w : Width) (sat : Bool) (s : State) (hc : s.cur.isSome = true) (hm : Memory.wf s.mem = true) :
    Keeps (execAbs o w sat s) := by
  exact runF2_keeps hc hm
theorem execAnd_keeps (o : F3) (t : ITy) (s : State) (hc : s.cur.isSome = true) (hm : Memory.wf s.mem = true) : Keeps (execAnd o t s) := by
  exact runF3_keeps hc hm
theorem execOr_keeps (o : F3) (t : ITy) (s : State) (hc : s.cur.isSome = true) (hm : Memory.wf s.mem = true) : Keeps (execOr o t s) := by
  exact runF3_keeps hc hm
theorem execXor_keeps (o : F3) (t : ITy) (s : State) (hc : s.cur.isSome = true) (hm : Memory.wf s.mem = true) : Keeps (execXor o t s) := by
  exact runF3_keeps hc hm
theorem execAndn_keeps (o : F3) (t : ITy) (s : State) (hc : s.cur.isSome = true) (hm : Memory.wf s.mem = true) : Keeps (execAndn o t s) := by
  exact runF3_keeps hc hm
theorem execShl_keeps (o : F3) (t : ITy) (sat : Bool) (s : State) (hc : s.cur.isSome = true) (hm : Memory.wf s.mem = true) :
    Keeps (execShl o t sat s) := by
  exact runF3b_keeps hc hm
theorem execShr_keeps (o : F3) (t : ITy) (s : State) (hc : s.cur.isSome = true) (hm : Memory.wf s.mem = true) : Keeps (execShr o t s) := by
  exact runF3b_keeps hc hm
theorem execSar_keeps (o : F3) (t : ITy) (s : State) (hc : s.cur.isSome = true) (hm : Memory.wf s.mem = true) : Keeps (execSar o t s) := by
  exact runF3b_keeps hc hm
theorem execRol_keeps (o : F3) (t : ITy) (s : State) (hc : s.cur.isSome = true) (hm : Memory.wf s.mem = true) : Keeps (execRol o t s) := by
  exact runF3b_keeps hc hm
theorem execPopc_keeps (o : F2) (w : Width) (s : State) (hc : s.cur.isSome = true) (hm : Memory.wf s.mem = true) : Keeps (execPopc o w s) := by
  exact runF2_keeps hc hm
theorem execClz_keeps (o : F2) (w : Width) (s : State) (hc : s.cur.isSome = true) (hm : Memory.wf s.mem = true) : Keeps (execClz o w s) := by
  exact runF2_keeps hc hm
theorem execCtz_keeps (o : F2) (w : Width) (s : State) (hc : s.cur.isSome = true) (hm : Memory.wf s.mem = true) : Keeps (execCtz o w s) := by
  exact runF2_keeps hc hm
theorem execBrev_keeps (o : F2) (t : ITy) (s : State) (hc : s.cur.isSome = true) (hm : Memory.wf s.mem = true) : Keeps (execBrev o t s) := by
  exact runF2_keeps hc hm
theorem execBfx_keeps (o : F3) (t : ITy) (s : State) (hc : s.cur.isSome = true) (hm : Memory.wf s.mem = true) : Keeps (execBfx o t s) := by
  exact runF3b_keeps hc hm
theorem execBfi_keeps (o : F3) (t : ITy) (s : State) (hc : s.cur.isSome = true) (hm : Memory.wf s.mem = true) : Keeps (execBfi o t s) := by
  exact runF3b_keeps hc hm
theorem execSel_keeps (o : F3) (t : ITy) (p : PSrc) (s : State) (hc : s.cur.isSome = true) (hm : Memory.wf s.mem = true) :
    Keeps (execSel o t p s) := by
  exact runLane_keeps hc hm
theorem execCmp_keeps (o : FP) (t : ITy) (c : ICond) (s : State) (hc : s.cur.isSome = true) (hm : Memory.wf s.mem = true) :
    Keeps (execCmp o t c s) := by
  exact runFP_keeps hc hm
theorem execMov_keeps (d : Dst) (b : Opnd) (sm : Option SMod) (g : Guard) (t : ITy) (s : State) (hc : s.cur.isSome = true)
    (hm : Memory.wf s.mem = true) : Keeps (execMov d b sm g t s) := by
  unfold execMov
  cases d with
  | x n => dsimp only; exact runLane_keeps hc hm
  | k n => dsimp only; exact runWord_keeps (uniformBody_keeps _ _) hc hm
theorem execMovi_keeps (d : Dst) (g : Guard) (v : W32) (s : State) (hc : s.cur.isSome = true) (hm : Memory.wf s.mem = true) :
    Keeps (execMovi d g v s) := by
  unfold execMovi
  cases d with
  | x n => dsimp only; exact runLane_keeps hc hm
  | k n => dsimp only; exact runWord_keeps (uniformBody_keeps _ _) hc hm
theorem execMoviI64_keeps (d : XReg) (g : Guard) (v : BitVec 33) (s : State) (hc : s.cur.isSome = true) (hm : Memory.wf s.mem = true) :
    Keeps (execMoviI64 d g v s) := by
  exact runLane_keeps hc hm
theorem execLea_keeps (d : XReg) (m : MAddr) (b : Opnd) (t : ITy) (s : State) (hc : s.cur.isSome = true) (hm : Memory.wf s.mem = true) :
    Keeps (execLea d m b t s) := by
  exact runLane_keeps hc hm
theorem execAddi_keeps (d : XReg) (a : Opnd) (g : Guard) (v : BitVec 33) (s : State) (hc : s.cur.isSome = true) (hm : Memory.wf s.mem = true) :
    Keeps (execAddi d a g v s) := by
  exact runLane_keeps hc hm
theorem execPerm_keeps (o : F3) (w : W2) (s : State) (hc : s.cur.isSome = true) (hm : Memory.wf s.mem = true) : Keeps (execPerm o w s) := by
  unfold execPerm; exact runWord_keeps (laneBody_keeps _) hc hm
theorem execShufx_keeps (o : F3) (w : W2) (seg : Seg) (m : ShMode) (s : State) (hc : s.cur.isSome = true) (hm : Memory.wf s.mem = true) :
    Keeps (execShufx o w seg m s) := by
  unfold execShufx; exact runWord_keeps (laneBody_keeps _) hc hm
theorem execVote_keeps (d : VoteDst) (p : PSrc) (g : Guard) (s : State) (hc : s.cur.isSome = true) (hm : Memory.wf s.mem = true) :
    Keeps (execVote d p g s) := by
  exact runLane_keeps hc hm
theorem execMatchL_keeps (o : F2) (w : W2) (hi : Bool) (s : State) (hc : s.cur.isSome = true) (hm : Memory.wf s.mem = true) :
    Keeps (execMatchL o w hi s) := by
  unfold execMatchL; exact runWord_keeps (laneBody_keeps _) hc hm
theorem execElect_keeps (q : QReg) (g : Guard) (s : State) (hc : s.cur.isSome = true) (hm : Memory.wf s.mem = true) : Keeps (execElect q g s) := by
  exact runLane_keeps hc hm
theorem execReduce_keeps (o : F2) (t : LTy) (seg : Seg) (op : LOp) (s : State) (hc : s.cur.isSome = true) (hm : Memory.wf s.mem = true) :
    Keeps (execReduce o t seg op s) := by
  unfold execReduce; exact runWord_keeps (laneBody_keeps _) hc hm
theorem execScan_keeps (o : F2) (t : LTy) (seg : Seg) (op : LOp) (s : State) (hc : s.cur.isSome = true) (hm : Memory.wf s.mem = true) :
    Keeps (execScan o t seg op s) := by
  unfold execScan; exact runWord_keeps (laneBody_keeps _) hc hm
theorem execCavity_keeps (o : F2) (t : LTy) (seg : Seg) (op : LOp) (s : State) (hc : s.cur.isSome = true) (hm : Memory.wf s.mem = true) :
    Keeps (execCavity o t seg op s) := by
  unfold execCavity; exact runWord_keeps (laneBody_keeps _) hc hm
theorem execLscan_keeps (o : F3) (f : FFmt) (seg : Seg) (s : State) (hc : s.cur.isSome = true) (hm : Memory.wf s.mem = true) :
    Keeps (execLscan o f seg s) := by
  unfold execLscan; exact runWord_keeps (laneBody_keeps _) hc hm
theorem execFwds_keeps (b : Opnd) (sm : Option SMod) (g : Guard) (w : W2) (ch : BitVec 2) (blk : BitVec 2) (s : State) (hc : s.cur.isSome = true) (hm : Memory.wf s.mem = true) :
    Keeps (execFwds b sm g w ch blk s) := by
  exact runWord_keeps (fwdsBody_keeps _ _ _ _ _) hc hm
theorem execFwdr_keeps (d : XReg) (g : Guard) (w : W2) (ch : BitVec 2) (blk : BitVec 2) (s : State) (hc : s.cur.isSome = true) (hm : Memory.wf s.mem = true) :
    Keeps (execFwdr d g w ch blk s) := by
  exact runWord_keeps (fwdrBody_keeps _ _ _ _) hc hm
theorem execForwardArrival_keeps (id : Nat) (s : State) (hm : Memory.wf s.mem = true) : Keeps (execForwardArrival id s) := by
  unfold execForwardArrival; (repeat' split) <;> simp +contextual [hm]
theorem execTcopy_keeps (e : EArgs) (s : State) (hc : s.cur.isSome = true) (hm : Memory.wf s.mem = true) : Keeps (execTcopy e s) := by
  exact runWord_keeps (eBody_keeps _ _) hc hm
theorem execTgather_keeps (e : EArgs) (s : State) (hc : s.cur.isSome = true) (hm : Memory.wf s.mem = true) : Keeps (execTgather e s) := by
  exact runWord_keeps (eBody_keeps _ _) hc hm
theorem execCavred_keeps (e : EArgs) (s : State) (hc : s.cur.isSome = true) (hm : Memory.wf s.mem = true) : Keeps (execCavred e s) := by
  exact runWord_keeps (eBody_keeps _ _) hc hm
theorem execLoopnest_keeps (e : EArgs) (s : State) (hc : s.cur.isSome = true) (hm : Memory.wf s.mem = true) : Keeps (execLoopnest e s) := by
  exact runWord_keeps (eBody_keeps _ _) hc hm
theorem execCommandComplete_keeps (id : Nat) (s : State) (hm : Memory.wf s.mem = true) : Keeps (execCommandComplete id s) := by
  unfold execCommandComplete; (repeat' split) <;> simp +contextual [hm]
theorem execPhaseComplete_keeps (sc : Scope) (owner n : Nat) (s : State) (hm : Memory.wf s.mem = true) : Keeps (execPhaseComplete sc owner n s) := by
  unfold execPhaseComplete; (repeat' split) <;> simp +contextual [hm]
theorem execBar_keeps (d : XReg) (sc : Scope) (n : BitVec 4) (g : Guard) (s : State) (hc : s.cur.isSome = true) (hm : Memory.wf s.mem = true) :
    Keeps (execBar d sc n g s) := by
  exact runWord_keeps (barBody_keeps _ _ _) hc hm
theorem execBaro_keeps (d : XReg) (sc : Scope) (n : BitVec 4) (g : Guard) (s : State) (hc : s.cur.isSome = true) (hm : Memory.wf s.mem = true) :
    Keeps (execBaro d sc n g s) := by
  exact runWord_keeps (baroBody_keeps _ _ _) hc hm
theorem execBarw_keeps (b : Opnd) (sc : Scope) (n : BitVec 4) (g : Guard) (s : State) (hc : s.cur.isSome = true) (hm : Memory.wf s.mem = true) :
    Keeps (execBarw b sc n g s) := by
  exact runWord_keeps (barwBody_keeps _ _ _) hc hm
theorem execBarrierWake_keeps (thr : Nat) (s : State) (hm : Memory.wf s.mem = true) : Keeps (execBarrierWake thr s) := by
  unfold execBarrierWake; (repeat' split) <;> simp +contextual [hm]
theorem execWaitptr_keeps (ch : BitVec 3) (b : Base) (g : Guard) (s : State) (hc : s.cur.isSome = true) (hm : Memory.wf s.mem = true) :
    Keeps (execWaitptr ch b g s) := by
  exact runWord_keeps (fun s c fr who hm => (ran_done _ _).mpr (foldl_wf (fun _ _ h => by simpa using h) _ hm)) hc hm
theorem execWaitptrTicket_keeps (b : Opnd) (g : Guard) (s : State) (hc : s.cur.isSome = true) (hm : Memory.wf s.mem = true) :
    Keeps (execWaitptrTicket b g s) := by
  exact runWord_keeps (fun s c fr who hm => (ran_done _ _).mpr (foldl_wf (fun _ _ h => by simpa using h) _ hm)) hc hm
theorem execWaitptrWake_keeps (thr : Nat) (s : State) (hm : Memory.wf s.mem = true) : Keeps (execWaitptrWake thr s) := by
  unfold execWaitptrWake; (repeat' split) <;> simp +contextual [hm]
theorem execCntrd_keeps (d : XReg) (sel : BitVec 8) (sc : Option Scope) (g : Guard) (s : State) (hc : s.cur.isSome = true) (hm : Memory.wf s.mem = true) :
    Keeps (execCntrd d sel sc g s) := by
  refine runWord_keeps (fun s c fr who hm => ?_) hc hm
  dsimp only
  first
  | (rw [ran_done]; (repeat' split); all_goals first | (simpa using hm) | exact foldl_wf (fun _ _ h => by simpa using h) _ (by first | simpa using hm | (split <;> simpa using hm)))
  | simp [hm]
theorem execCntclrDropped_keeps (pkg core : Nat) (s : State) (hm : Memory.wf s.mem = true) : Keeps (execCntclrDropped pkg core s) := by
  simp +contextual [execCntclrDropped, hm]
theorem execCntclrPerf_keeps (pkg core : Nat) (s : State) (hm : Memory.wf s.mem = true) : Keeps (execCntclrPerf pkg core s) := by
  simp +contextual [execCntclrPerf, hm]
theorem execLoopIterationStart_keeps (pkg core : Nat) (s : State) (hm : Memory.wf s.mem = true) : Keeps (execLoopIterationStart pkg core s) := by
  unfold execLoopIterationStart; (repeat' split) <;> simp +contextual [hm]
theorem execLoopPlaneStep_keeps (pkg core : Nat) (s : State) (hm : Memory.wf s.mem = true) : Keeps (execLoopPlaneStep pkg core s) := by
  unfold execLoopPlaneStep; (repeat' split) <;> simp +contextual [hm]
theorem execLoopWakeFill_keeps (pkg core : Nat) (s : State) (hm : Memory.wf s.mem = true) : Keeps (execLoopWakeFill pkg core s) := by
  unfold execLoopWakeFill
  dsimp only
  split
  · simpa using hm
  · split
    · simpa using hm
    · split
      · simpa using hm
      · have h1 := fun (c : Cmd) a => State.engFind_mem s c a 8 { w := true, tag := true }
        split
        · next hh => rw [keeps_next, State.failLoop_mem, show State.mem _ = _ from congrArg (fun r : Except Stop Place × State => r.2.mem) hh ▸ h1 _ _]; exact hm
        · next hh => rw [keeps_next, State.parkCmd_mem, show State.mem _ = _ from congrArg (fun r : Except Stop Place × State => r.2.mem) hh ▸ h1 _ _]; exact hm
        · next hh => rw [keeps_next, show State.mem _ = _ from congrArg (fun r : Except Stop Place × State => r.2.mem) hh ▸ h1 _ _]; exact hm
        · next p t hh =>
          have h2 : Memory.wf t.mem = true := by
            rw [show t.mem = s.mem from congrArg (fun r : Except Stop Place × State => r.2.mem) hh ▸ h1 _ _]; exact hm
          split
          · simpa using h2
          · rw [keeps_next]
            simp [h2]
theorem execLoopPermitReturn_keeps (pkg core : Nat) (s : State) (hm : Memory.wf s.mem = true) : Keeps (execLoopPermitReturn pkg core s) := by
  unfold execLoopPermitReturn; (repeat' split) <;> simp +contextual [hm]
theorem execLoopnestAbort_keeps (pkg core : Nat) (s : State) (hm : Memory.wf s.mem = true) : Keeps (execLoopnestAbort pkg core s) := by
  unfold execLoopnestAbort; (repeat' split) <;> simp +contextual [hm]
theorem execDominanceCancel_keeps (thr : Nat) (s : State) (hm : Memory.wf s.mem = true) : Keeps (execDominanceCancel thr s) := by
  simp +contextual [execDominanceCancel, hm]
theorem execCopyChunkDeliver_keeps (pkg core ch : Nat) (s : State) (hm : Memory.wf s.mem = true) : Keeps (execCopyChunkDeliver pkg core ch s) := by
  unfold execCopyChunkDeliver; (repeat' split) <;> simp +contextual [hm]
theorem execCollectiveForm_keeps (collid : Nat) (s : State) (hm : Memory.wf s.mem = true) : Keeps (execCollectiveForm collid s) := by
  unfold execCollectiveForm; (try dsimp only); (repeat' split) <;> simp +contextual [hm]
theorem execStagingGrant_keeps (collid : Nat) (s : State) (hm : Memory.wf s.mem = true) : Keeps (execStagingGrant collid s) := by
  unfold execStagingGrant; (repeat' split) <;> simp +contextual [hm]
theorem execChunkArrival_keeps (collid chunk rank : Nat) (s : State) (hm : Memory.wf s.mem = true) :
    Keeps (execChunkArrival collid chunk rank s) := by
  unfold execChunkArrival; (repeat' split) <;> simp +contextual [hm]
theorem execReduceBlockDispatch_keeps (pkg die : Nat) (s : State) (hm : Memory.wf s.mem = true) : Keeps (execReduceBlockDispatch pkg die s) := by
  unfold execReduceBlockDispatch; (try dsimp only); (repeat' split) <;> simp +contextual [hm]
theorem execReduceBlockEnd_keeps (pkg core : Nat) (s : State) (hm : Memory.wf s.mem = true) : Keeps (execReduceBlockEnd pkg core s) := by
  unfold execReduceBlockEnd; (try dsimp only); (repeat' split) <;> simp +contextual [hm]
theorem execDeliveryArrival_keeps (id : Nat) (s : State) (hm : Memory.wf s.mem = true) : Keeps (execDeliveryArrival id s) := by
  unfold execDeliveryArrival; (try dsimp only); (repeat' split) <;> simp +contextual [hm]
theorem execLd_keeps (d : Dst) (m : MAddr) (t : ITy) (o : MO) (s : State) (hc : s.cur.isSome = true) (hm : Memory.wf s.mem = true) :
    Keeps (execLd d m t o s) := by
  exact runWord_keeps (memBody_keeps _ _) hc hm
theorem execSt_keeps (m : MAddr) (b : Opnd) (w : Width) (o : MO) (s : State) (hc : s.cur.isSome = true) (hm : Memory.wf s.mem = true) :
    Keeps (execSt m b w o s) := by
  exact runWord_keeps (memBody_keeps _ _) hc hm
theorem execLdv_keeps (d : XReg) (m : MAddr) (t : ITy) (c : VCnt) (o : MO) (s : State) (hc : s.cur.isSome = true) (hm : Memory.wf s.mem = true) :
    Keeps (execLdv d m t c o s) := by
  exact runWord_keeps (memBody_keeps _ _) hc hm
theorem execStv_keeps (m : MAddr) (b : XReg) (w : Width) (c : VCnt) (o : MO) (s : State) (hc : s.cur.isSome = true) (hm : Memory.wf s.mem = true) :
    Keeps (execStv m b w c o s) := by
  exact runWord_keeps (memBody_keeps _ _) hc hm
theorem execAtom_keeps (op : AOp) (d : XReg) (m : MAddr) (b : Opnd) (w : W2) (sg : Bool) (o : MO) (s : State) (hc : s.cur.isSome = true) (hm : Memory.wf s.mem = true) :
    Keeps (execAtom op d m b w sg o s) := by
  exact runWord_keeps (memBody_keeps _ _) hc hm
theorem execAcas_keeps (d : XReg) (m : MAddr) (b : Opnd) (w : W2) (o : MO) (s : State) (hc : s.cur.isSome = true) (hm : Memory.wf s.mem = true) :
    Keeps (execAcas d m b w o s) := by
  exact runWord_keeps (memBody_keeps _ _) hc hm
theorem execLdfe_keeps (d : XReg) (m : MAddr) (o : MO) (s : State) (hc : s.cur.isSome = true) (hm : Memory.wf s.mem = true) :
    Keeps (execLdfe d m o s) := by
  exact runWord_keeps (memBody_keeps _ _) hc hm
theorem execStfe_keeps (m : MAddr) (b : Base) (o : MO) (s : State) (hc : s.cur.isSome = true) (hm : Memory.wf s.mem = true) :
    Keeps (execStfe m b o s) := by
  exact runWord_keeps (memBody_keeps _ _) hc hm
theorem execFetagRead_keeps (d : XReg) (m : MAddr) (o : MO) (s : State) (hc : s.cur.isSome = true) (hm : Memory.wf s.mem = true) :
    Keeps (execFetagRead d m o s) := by
  exact runWord_keeps (memBody_keeps _ _) hc hm
theorem execFetagFill_keeps (m : MAddr) (o : MO) (s : State) (hc : s.cur.isSome = true) (hm : Memory.wf s.mem = true) :
    Keeps (execFetagFill m o s) := by
  exact runWord_keeps (memBody_keeps _ _) hc hm
theorem execFetagEmpty_keeps (m : MAddr) (o : MO) (s : State) (hc : s.cur.isSome = true) (hm : Memory.wf s.mem = true) :
    Keeps (execFetagEmpty m o s) := by
  exact runWord_keeps (memBody_keeps _ _) hc hm
theorem execFence_keeps (o : MO) (g : Guard) (s : State) (hc : s.cur.isSome = true) (hm : Memory.wf s.mem = true) : Keeps (execFence o g s) := by
  exact runWord_keeps (fenceBody_keeps _) hc hm
theorem execPref_keeps (m : MAddr) (s : State) (hc : s.cur.isSome = true) (hm : Memory.wf s.mem = true) : Keeps (execPref m s) := by
  exact runWord_keeps (fun s c fr who hm => (ran_done _ _).mpr (by simpa using hm)) hc hm
theorem execLoadReturn_keeps (id : Nat) (s : State) (hm : Memory.wf s.mem = true) : Keeps (execLoadReturn id s) := by
  unfold execLoadReturn; (repeat' split) <;> simp +contextual [hm]
theorem execStoreAtHome_keeps (id : Nat) (s : State) (hm : Memory.wf s.mem = true) : Keeps (execStoreAtHome id s) := by
  unfold execStoreAtHome; (repeat' split) <;> simp +contextual [hm]
theorem execAtomReturn_keeps (id : Nat) (s : State) (hm : Memory.wf s.mem = true) : Keeps (execAtomReturn id s) := by
  unfold execAtomReturn; (repeat' split) <;> simp +contextual [hm]
theorem execNoticeInstall_keeps (id : Nat) (s : State) (hm : Memory.wf s.mem = true) : Keeps (execNoticeInstall id s) := by
  unfold execNoticeInstall; (repeat' split) <;> simp +contextual [hm]
theorem execPeerAck_keeps (id : Nat) (s : State) (hm : Memory.wf s.mem = true) : Keeps (execPeerAck id s) := by
  unfold execPeerAck; (repeat' split) <;> simp +contextual [hm]
theorem execScFencePlace_keeps (thr : Nat) (s : State) (hm : Memory.wf s.mem = true) : Keeps (execScFencePlace thr s) := by
  unfold execScFencePlace; (try dsimp only); (repeat' split) <;> simp +contextual [hm]
theorem execPeerErrorResponse_keeps (id : Nat) (s : State) (hm : Memory.wf s.mem = true) : Keeps (execPeerErrorResponse id s) := by
  unfold execPeerErrorResponse; (repeat' split) <;> simp +contextual [hm]
theorem execHostMemWrite_keeps (pkg pa : Nat) (bytes : List Byte) (s : State) (hm : Memory.wf s.mem = true) :
    Keeps (execHostMemWrite pkg pa bytes s) := by
  simp +contextual [execHostMemWrite, hm]
theorem execTlbWalk_keeps (pkg core fn va : Nat) (s : State) (hm : Memory.wf s.mem = true) : Keeps (execTlbWalk pkg core fn va s) := by
  simp +contextual [execTlbWalk, hm]
theorem execSrd_keeps (d : XReg) (w : W2) (sel : BitVec 8) (g : Guard) (s : State) (hc : s.cur.isSome = true) (hm : Memory.wf s.mem = true) :
    Keeps (execSrd d w sel g s) := by
  refine runWord_keeps (fun s c fr who hm => ?_) hc hm
  dsimp only
  first
  | (rw [ran_done]; (repeat' split); all_goals first | (simpa using hm) | exact foldl_wf (fun _ _ h => by simpa using h) _ (by first | simpa using hm | (split <;> simpa using hm)))
  | simp [hm]
theorem execSwr_keeps (b : Opnd) (w : W2) (sel : BitVec 8) (g : Guard) (s : State) (hc : s.cur.isSome = true) (hm : Memory.wf s.mem = true) :
    Keeps (execSwr b w sel g s) := by
  exact runWord_keeps (swrBody_keeps _ _ _) hc hm
theorem execTrap_keeps (n : BitVec 33) (g : Guard) (s : State) (hc : s.cur.isSome = true) (hm : Memory.wf s.mem = true) : Keeps (execTrap n g s) := by
  exact runWord_keeps (trapBody_keeps _) hc hm
theorem execBrk_keeps (n : BitVec 33) (g : Guard) (s : State) (hc : s.cur.isSome = true) (hm : Memory.wf s.mem = true) : Keeps (execBrk n g s) := by
  exact runWord_keeps (trapBody_keeps _) hc hm
theorem execRte_keeps (skip : Bool) (g : Guard) (s : State) (hc : s.cur.isSome = true) (hm : Memory.wf s.mem = true) : Keeps (execRte skip g s) := by
  exact runWord_keeps (rteBody_keeps _) hc hm
theorem execEvent_keeps (b : Opnd) (w : W2) (g : Guard) (s : State) (hc : s.cur.isSome = true) (hm : Memory.wf s.mem = true) :
    Keeps (execEvent b w g s) := by
  exact runWord_keeps (eventBody_keeps _ _ _) hc hm
theorem execEventMbx_keeps (b : Opnd) (w : W2) (g : Guard) (s : State) (hc : s.cur.isSome = true) (hm : Memory.wf s.mem = true) :
    Keeps (execEventMbx b w g s) := by
  exact runWord_keeps (eventBody_keeps _ _ _) hc hm
theorem execHalt_keeps (g : Guard) (s : State) (hc : s.cur.isSome = true) (hm : Memory.wf s.mem = true) : Keeps (execHalt g s) := by
  exact runWord_keeps (haltBody_keeps) hc hm
theorem execIcflush_keeps (sc : IcScope) (g : Guard) (s : State) (hc : s.cur.isSome = true) (hm : Memory.wf s.mem = true) :
    Keeps (execIcflush sc g s) := by
  exact runWord_keeps (fun s c fr who hm => (ran_done _ _).mpr (foldl_wf (fun _ _ h => by simpa using h) _ hm)) hc hm
theorem execIcflushCompletion_keeps (thr : Nat) (s : State) (hm : Memory.wf s.mem = true) : Keeps (execIcflushCompletion thr s) := by
  unfold execIcflushCompletion; (repeat' split) <;> simp +contextual [hm]
theorem execRelease_keeps (pkg fn : Nat) (s : State) (hm : Memory.wf s.mem = true) :
    Keeps (execRelease pkg fn s) := (keeps_next _).mpr (State.serve_wf _ _ _ _ _ (fun k q => by
  simpa [releaseReq, Ans.of] using hm) hm)
theorem execStep_keeps (pkg fn : Nat) (s : State) (hm : Memory.wf s.mem = true) :
    Keeps (execStep pkg fn s) := (keeps_next _).mpr (State.serve_wf _ _ _ _ _ (fun k q => by
  unfold stepReq; dsimp only; (repeat' split) <;> simpa [Ans.of] using hm) hm)
theorem execHaltwg_keeps (pkg fn : Nat) (s : State) (hm : Memory.wf s.mem = true) :
    Keeps (execHaltwg pkg fn s) := (keeps_next _).mpr (State.serve_wf _ _ _ _ _ (fun k q => by
  unfold haltReq; dsimp only; split <;> simp [Ans.of, hm]) hm)
theorem execStepComplete_keeps (pkg core : Nat) (s : State) (hm : Memory.wf s.mem = true) : Keeps (execStepComplete pkg core s) := by
  unfold execStepComplete; (try dsimp only); (repeat' split) <;> simp +contextual [hm]
theorem execRdreg_keeps (pkg fn : Nat) (s : State) (hm : Memory.wf s.mem = true) :
    Keeps (execRdreg pkg fn s) := (keeps_next _).mpr (State.serve_wf _ _ _ _ _ (fun k q => by
  unfold readReq; dsimp only; (repeat' split) <;> simpa [Ans.of] using hm) hm)
theorem execWrreg_keeps (pkg fn : Nat) (s : State) (hm : Memory.wf s.mem = true) :
    Keeps (execWrreg pkg fn s) := (keeps_next _).mpr (State.serve_wf _ _ _ _ _ (fun k q => by
  unfold writeReq; dsimp only; (repeat' split) <;> simpa [Ans.of] using hm) hm)
theorem execWrregf_keeps (pkg fn : Nat) (s : State) (hm : Memory.wf s.mem = true) :
    Keeps (execWrregf pkg fn s) := (keeps_next _).mpr (State.serve_wf _ _ _ _ _ (fun k q => by
  unfold writeReq; dsimp only; (repeat' split) <;> simpa [Ans.of] using hm) hm)
theorem execWrdbg_keeps (pkg fn : Nat) (s : State) (hm : Memory.wf s.mem = true) :
    Keeps (execWrdbg pkg fn s) := (keeps_next _).mpr (State.serve_wf _ _ _ _ _ (fun k q => by
  simpa [wrdbgReq, Ans.of] using hm) hm)
theorem execAddHalf_keeps (h : HArgs) (snd : Half) (s : State) (hc : s.cur.isSome = true) (hm : Memory.wf s.mem = true) :
    Keeps (execAddHalf h snd s) := by
  exact runPair_keeps hc hm
theorem execSubHalf_keeps (h : HArgs) (snd : Half) (s : State) (hc : s.cur.isSome = true) (hm : Memory.wf s.mem = true) :
    Keeps (execSubHalf h snd s) := by
  exact runPair_keeps hc hm
theorem execMulHalf_keeps (h : HArgs) (snd : Half) (s : State) (hc : s.cur.isSome = true) (hm : Memory.wf s.mem = true) :
    Keeps (execMulHalf h snd s) := by
  exact runPair_keeps hc hm
theorem execMinI32Half_keeps (h : HArgs) (snd : Half) (s : State) (hc : s.cur.isSome = true) (hm : Memory.wf s.mem = true) :
    Keeps (execMinI32Half h snd s) := by
  exact runPair_keeps hc hm
theorem execMinN32Half_keeps (h : HArgs) (snd : Half) (s : State) (hc : s.cur.isSome = true) (hm : Memory.wf s.mem = true) :
    Keeps (execMinN32Half h snd s) := by
  exact runPair_keeps hc hm
theorem execMaxI32Half_keeps (h : HArgs) (snd : Half) (s : State) (hc : s.cur.isSome = true) (hm : Memory.wf s.mem = true) :
    Keeps (execMaxI32Half h snd s) := by
  exact runPair_keeps hc hm
theorem execMaxN32Half_keeps (h : HArgs) (snd : Half) (s : State) (hc : s.cur.isSome = true) (hm : Memory.wf s.mem = true) :
    Keeps (execMaxN32Half h snd s) := by
  exact runPair_keeps hc hm
theorem execAbsI32Half_keeps (h : HArgs) (snd : Half) (s : State) (hc : s.cur.isSome = true) (hm : Memory.wf s.mem = true) :
    Keeps (execAbsI32Half h snd s) := by
  exact runPair_keeps hc hm
theorem execAndHalf_keeps (h : HArgs) (snd : Half) (s : State) (hc : s.cur.isSome = true) (hm : Memory.wf s.mem = true) :
    Keeps (execAndHalf h snd s) := by
  exact runPair_keeps hc hm
theorem execOrHalf_keeps (h : HArgs) (snd : Half) (s : State) (hc : s.cur.isSome = true) (hm : Memory.wf s.mem = true) :
    Keeps (execOrHalf h snd s) := by
  exact runPair_keeps hc hm
theorem execXorHalf_keeps (h : HArgs) (snd : Half) (s : State) (hc : s.cur.isSome = true) (hm : Memory.wf s.mem = true) :
    Keeps (execXorHalf h snd s) := by
  exact runPair_keeps hc hm
theorem execAndnHalf_keeps (h : HArgs) (snd : Half) (s : State) (hc : s.cur.isSome = true) (hm : Memory.wf s.mem = true) :
    Keeps (execAndnHalf h snd s) := by
  exact runPair_keeps hc hm
theorem execShlHalf_keeps (h : HArgs) (snd : Half) (s : State) (hc : s.cur.isSome = true) (hm : Memory.wf s.mem = true) :
    Keeps (execShlHalf h snd s) := by
  exact runPair_keeps hc hm
theorem execShrHalf_keeps (h : HArgs) (snd : Half) (s : State) (hc : s.cur.isSome = true) (hm : Memory.wf s.mem = true) :
    Keeps (execShrHalf h snd s) := by
  exact runPair_keeps hc hm
theorem execSarHalf_keeps (h : HArgs) (snd : Half) (s : State) (hc : s.cur.isSome = true) (hm : Memory.wf s.mem = true) :
    Keeps (execSarHalf h snd s) := by
  exact runPair_keeps hc hm
theorem execRolHalf_keeps (h : HArgs) (snd : Half) (s : State) (hc : s.cur.isSome = true) (hm : Memory.wf s.mem = true) :
    Keeps (execRolHalf h snd s) := by
  exact runPair_keeps hc hm
theorem execPopcHalf_keeps (h : HArgs) (snd : Half) (s : State) (hc : s.cur.isSome = true) (hm : Memory.wf s.mem = true) :
    Keeps (execPopcHalf h snd s) := by
  exact runPair_keeps hc hm
theorem execClzHalf_keeps (h : HArgs) (snd : Half) (s : State) (hc : s.cur.isSome = true) (hm : Memory.wf s.mem = true) :
    Keeps (execClzHalf h snd s) := by
  exact runPair_keeps hc hm
theorem execCtzHalf_keeps (h : HArgs) (snd : Half) (s : State) (hc : s.cur.isSome = true) (hm : Memory.wf s.mem = true) :
    Keeps (execCtzHalf h snd s) := by
  exact runPair_keeps hc hm
theorem execBrevHalf_keeps (h : HArgs) (snd : Half) (s : State) (hc : s.cur.isSome = true) (hm : Memory.wf s.mem = true) :
    Keeps (execBrevHalf h snd s) := by
  exact runPair_keeps hc hm
theorem execMovHalf_keeps (h : HArgs) (snd : Half) (s : State) (hc : s.cur.isSome = true) (hm : Memory.wf s.mem = true) :
    Keeps (execMovHalf h snd s) := by
  exact runPair_keeps hc hm
theorem execFaddHalf_keeps (h : HArgs) (snd : Half) (s : State) (hc : s.cur.isSome = true) (hm : Memory.wf s.mem = true) :
    Keeps (execFaddHalf h snd s) := by
  exact runPair_keeps hc hm
theorem execFsubHalf_keeps (h : HArgs) (snd : Half) (s : State) (hc : s.cur.isSome = true) (hm : Memory.wf s.mem = true) :
    Keeps (execFsubHalf h snd s) := by
  exact runPair_keeps hc hm
theorem execFmulHalf_keeps (h : HArgs) (snd : Half) (s : State) (hc : s.cur.isSome = true) (hm : Memory.wf s.mem = true) :
    Keeps (execFmulHalf h snd s) := by
  exact runPair_keeps hc hm
theorem execFminHalf_keeps (h : HArgs) (snd : Half) (s : State) (hc : s.cur.isSome = true) (hm : Memory.wf s.mem = true) :
    Keeps (execFminHalf h snd s) := by
  exact runPair_keeps hc hm
theorem execFmaxHalf_keeps (h : HArgs) (snd : Half) (s : State) (hc : s.cur.isSome = true) (hm : Memory.wf s.mem = true) :
    Keeps (execFmaxHalf h snd s) := by
  exact runPair_keeps hc hm
theorem execFrcpHalf_keeps (h : HArgs) (snd : Half) (s : State) (hc : s.cur.isSome = true) (hm : Memory.wf s.mem = true) :
    Keeps (execFrcpHalf h snd s) := by
  exact runPair_keeps hc hm
theorem execFsqrtHalf_keeps (h : HArgs) (snd : Half) (s : State) (hc : s.cur.isSome = true) (hm : Memory.wf s.mem = true) :
    Keeps (execFsqrtHalf h snd s) := by
  exact runPair_keeps hc hm
theorem execFrsqHalf_keeps (h : HArgs) (snd : Half) (s : State) (hc : s.cur.isSome = true) (hm : Memory.wf s.mem = true) :
    Keeps (execFrsqHalf h snd s) := by
  exact runPair_keeps hc hm
theorem execFexp2Half_keeps (h : HArgs) (snd : Half) (s : State) (hc : s.cur.isSome = true) (hm : Memory.wf s.mem = true) :
    Keeps (execFexp2Half h snd s) := by
  exact runPair_keeps hc hm
theorem execFlog2Half_keeps (h : HArgs) (snd : Half) (s : State) (hc : s.cur.isSome = true) (hm : Memory.wf s.mem = true) :
    Keeps (execFlog2Half h snd s) := by
  exact runPair_keeps hc hm
theorem execFrndHalf_keeps (h : HArgs) (snd : Half) (s : State) (hc : s.cur.isSome = true) (hm : Memory.wf s.mem = true) :
    Keeps (execFrndHalf h snd s) := by
  exact runPair_keeps hc hm
theorem execLdB32Half_keeps (h : HArgs) (snd : Half) (s : State) (hc : s.cur.isSome = true) (hm : Memory.wf s.mem = true) :
    Keeps (execLdB32Half h snd s) := by
  exact runPair_keeps hc hm
theorem execStB32Half_keeps (h : HArgs) (snd : Half) (s : State) (hc : s.cur.isSome = true) (hm : Memory.wf s.mem = true) :
    Keeps (execStB32Half h snd s) := by
  exact runPair_keeps hc hm
theorem execLdB64Half_keeps (h : HArgs) (snd : Half) (s : State) (hc : s.cur.isSome = true) (hm : Memory.wf s.mem = true) :
    Keeps (execLdB64Half h snd s) := by
  exact runPair_keeps hc hm
theorem execStB64Half_keeps (h : HArgs) (snd : Half) (s : State) (hc : s.cur.isSome = true) (hm : Memory.wf s.mem = true) :
    Keeps (execStB64Half h snd s) := by
  exact runPair_keeps hc hm
theorem execPrefHalf_keeps (h : HArgs) (snd : Half) (s : State) (hc : s.cur.isSome = true) (hm : Memory.wf s.mem = true) :
    Keeps (execPrefHalf h snd s) := by
  exact runPair_keeps hc hm
theorem execPermHalf_keeps (h : HArgs) (snd : Half) (s : State) (hc : s.cur.isSome = true) (hm : Memory.wf s.mem = true) :
    Keeps (execPermHalf h snd s) := by
  exact runPair_keeps hc hm
theorem execReduceAddI32Half_keeps (h : HArgs) (snd : Half) (s : State) (hc : s.cur.isSome = true) (hm : Memory.wf s.mem = true) :
    Keeps (execReduceAddI32Half h snd s) := by
  exact runPair_keeps hc hm
theorem execReduceMaxI32Half_keeps (h : HArgs) (snd : Half) (s : State) (hc : s.cur.isSome = true) (hm : Memory.wf s.mem = true) :
    Keeps (execReduceMaxI32Half h snd s) := by
  exact runPair_keeps hc hm
theorem execReduceMinI32Half_keeps (h : HArgs) (snd : Half) (s : State) (hc : s.cur.isSome = true) (hm : Memory.wf s.mem = true) :
    Keeps (execReduceMinI32Half h snd s) := by
  exact runPair_keeps hc hm
theorem execScanAddI32Half_keeps (h : HArgs) (snd : Half) (s : State) (hc : s.cur.isSome = true) (hm : Memory.wf s.mem = true) :
    Keeps (execScanAddI32Half h snd s) := by
  exact runPair_keeps hc hm
theorem execSpawn_keeps (d : XReg) (m : MAddr) (o : MO) (s : State) (hc : s.cur.isSome = true) (hm : Memory.wf s.mem = true) :
    Keeps (execSpawn d m o s) := by
  exact runWord_keeps (spawnBody_keeps _ _ _) hc hm
theorem execRingset_keeps (d : XReg) (m : MAddr) (b : XReg) (n : BitVec 2) (s : State) (hc : s.cur.isSome = true) (hm : Memory.wf s.mem = true) :
    Keeps (execRingset d m b n s) := by
  exact runWord_keeps (ringsetBody_keeps _ _ _ _) hc hm
theorem execRecvPoll_keeps (d : XReg) (n : BitVec 2) (g : Guard) (s : State) (hc : s.cur.isSome = true) (hm : Memory.wf s.mem = true) :
    Keeps (execRecvPoll d n g s) := by
  exact runWord_keeps (recvBody_keeps _ _ _) hc hm
theorem execRecvWait_keeps (d : XReg) (n : BitVec 2) (g : Guard) (s : State) (hc : s.cur.isSome = true) (hm : Memory.wf s.mem = true) :
    Keeps (execRecvWait d n g s) := by
  exact runWord_keeps (recvBody_keeps _ _ _) hc hm
theorem execRecvTake_keeps (thr : Nat) (s : State) (hm : Memory.wf s.mem = true) : Keeps (execRecvTake thr s) := by
  unfold execRecvTake
  dsimp only
  split
  · split
    · exact (keeps_next _).mpr hm
    · exact (keeps_next _).mpr (State.recvAt_wf _ _ _ _ _ _ hm)
  · exact (keeps_next _).mpr hm
theorem execSend_keeps (e : EArgs) (s : State) (hc : s.cur.isSome = true) (hm : Memory.wf s.mem = true) : Keeps (execSend e s) := by
  exact runWord_keeps (eBody_keeps _ _) hc hm
theorem execFlitSent_keeps (pkg fibre : Nat) (s : State) (hm : Memory.wf s.mem = true) : Keeps (execFlitSent pkg fibre s) := by
  unfold execFlitSent
  dsimp only
  split
  · split
    · simpa using hm
    · split
      · simpa using hm
      · split
        · simpa using hm
        · split
          · simpa using hm
          · simpa using hm
  · simpa using hm
theorem State.arriving_mem {s t : State} {p f : Nat} {ty : FlitTy} {y : Flit} (h : s.arriving p f ty = some (y, t)) : t.mem = s.mem := by
  unfold State.arriving at h
  dsimp only at h
  split at h
  · cases h
  · split at h
    · cases h; simp
    · cases h
theorem execDataFlit_keeps (pkg fibre : Nat) (s : State) (hm : Memory.wf s.mem = true) : Keeps (execDataFlit pkg fibre s) := by
  unfold execDataFlit
  dsimp only
  split
  · simpa using hm
  · split
    · simpa using hm
    · split
      · simpa using hm
      · split
        · simpa using hm
        · split
          · simpa using hm
          · split
            · simpa using hm
            · rw [keeps_next, State.takeData_mem (by simp)]; simpa using hm
theorem execAckFlit_keeps (pkg fibre : Nat) (s : State) (hm : Memory.wf s.mem = true) : Keeps (execAckFlit pkg fibre s) := by
  unfold execAckFlit
  split
  · simpa using hm
  · next y t hh =>
    have h1 : Memory.wf t.mem = true := by rw [State.arriving_mem hh]; exact hm
    (repeat' split) <;> simp [h1]
theorem execReplayRequest_keeps (pkg fibre : Nat) (s : State) (hm : Memory.wf s.mem = true) : Keeps (execReplayRequest pkg fibre s) := by
  unfold execReplayRequest
  split
  · simpa using hm
  · next y t hh =>
    have h1 : Memory.wf t.mem = true := by rw [State.arriving_mem hh]; exact hm
    (repeat' split) <;> simp [h1]
theorem execAckTimeout_keeps (pkg fibre : Nat) (s : State) (hm : Memory.wf s.mem = true) : Keeps (execAckTimeout pkg fibre s) := by
  simp +contextual [execAckTimeout, hm]
theorem execLossDetect_keeps (pkg fibre : Nat) (s : State) (hm : Memory.wf s.mem = true) : Keeps (execLossDetect pkg fibre s) := by
  unfold execLossDetect; (repeat' split) <;> simp +contextual [hm]
theorem execLossReport_keeps (pkg fibre : Nat) (s : State) (hm : Memory.wf s.mem = true) : Keeps (execLossReport pkg fibre s) := by
  unfold execLossReport
  split
  · simpa using hm
  · next y t hh =>
    have h1 : Memory.wf t.mem = true := by rw [State.arriving_mem hh]; exact hm
    dsimp only
    (repeat' split) <;> simp [h1]
theorem execStripeFlit_keeps (pkg fibre : Nat) (s : State) (hm : Memory.wf s.mem = true) : Keeps (execStripeFlit pkg fibre s) := by
  unfold execStripeFlit
  split
  · simpa using hm
  · next y t hh =>
    have h1 : Memory.wf t.mem = true := by rw [State.arriving_mem hh]; exact hm
    (repeat' split) <;> simp [h1]
theorem execGuardStart_keeps (pkg : Nat) (s : State) (hm : Memory.wf s.mem = true) : Keeps (execGuardStart pkg s) := by
  simp +contextual [execGuardStart, hm]
theorem execSlotEnd_keeps (pkg : Nat) (s : State) (hm : Memory.wf s.mem = true) : Keeps (execSlotEnd pkg s) := by simp +contextual [execSlotEnd, hm]
theorem execSlotStart_keeps (pkg : Nat) (s : State) (hm : Memory.wf s.mem = true) : Keeps (execSlotStart pkg s) := by
  simp +contextual [execSlotStart, hm]
theorem execSlotTableStart_keeps (pkg : Nat) (s : State) (hm : Memory.wf s.mem = true) : Keeps (execSlotTableStart pkg s) := by
  unfold execSlotTableStart; (try dsimp only); (repeat' split) <;> simp +contextual [hm]
theorem execRouterGate_keeps (pkg die : Nat) (s : State) (hm : Memory.wf s.mem = true) : Keeps (execRouterGate pkg die s) := by
  unfold execRouterGate
  have h1 := State.routerIdle_mem s pkg die
  split <;> next hh => rw [hh] at h1; simpa using (congrArg Memory.wf h1).trans hm
theorem execRouterWake_keeps (pkg die : Nat) (s : State) (hm : Memory.wf s.mem = true) : Keeps (execRouterWake pkg die s) := by
  simp +contextual [execRouterWake, hm]
theorem execPodtSync_keeps (pkg : Nat) (s : State) (hm : Memory.wf s.mem = true) : Keeps (execPodtSync pkg s) := by
  simp +contextual [execPodtSync, hm]
theorem execPodtNs_keeps (pkg : Nat) (s : State) (hm : Memory.wf s.mem = true) : Keeps (execPodtNs pkg s) := by simp +contextual [execPodtNs, hm]
theorem execLpark_keeps (d b : XReg) (g : Guard) (s : State) (hc : s.cur.isSome = true) (hm : Memory.wf s.mem = true) :
    Keeps (execLpark d b g s) := by
  exact runWord_keeps (lparkBody_keeps _ _) hc hm
theorem execLwake_keeps (d b : XReg) (g : Guard) (s : State) (hc : s.cur.isSome = true) (hm : Memory.wf s.mem = true) :
    Keeps (execLwake d b g s) := by
  exact runWord_keeps (lwakeBody_keeps _ _) hc hm
theorem execLightConfirmation_keeps (pkg fibre mask : Nat) (s : State) (hm : Memory.wf s.mem = true) :
    Keeps (execLightConfirmation pkg fibre mask s) := by
  unfold execLightConfirmation; (try dsimp only); (repeat' split) <;> simp +contextual [hm]
theorem execSlotset_keeps (d : XReg) (m : MAddr) (s : State) (hc : s.cur.isSome = true) (hm : Memory.wf s.mem = true) :
    Keeps (execSlotset d m s) := by
  exact runWord_keeps (slotsetBody_keeps _ _) hc hm
theorem bodyOf_keeps {i : Instr} {b : Body} (h : bodyOf i = some b) : BodyKeeps b := by
  unfold bodyOf at h
  split at h
  · cases h; exact memBody_keeps _ _
  · cases h; exact memBody_keeps _ _
  · cases h; exact memBody_keeps _ _
  · cases h; exact memBody_keeps _ _
  · cases h; exact memBody_keeps _ _
  · cases h; exact memBody_keeps _ _
  · cases h; exact memBody_keeps _ _
  · cases h; exact memBody_keeps _ _
  · cases h; exact memBody_keeps _ _
  · cases h; exact memBody_keeps _ _
  · cases h; exact memBody_keeps _ _
  · cases h; exact cbloadBody_keeps _
  · cases h; exact eBody_keeps _ _
  · cases h; exact eBody_keeps _ _
  · cases h; exact eBody_keeps _ _
  · cases h; exact eBody_keeps _ _
  · cases h; exact eBody_keeps _ _
  · cases h; exact eBody_keeps _ _
  · cases h; exact eBody_keeps _ _
  · cases h; exact spawnBody_keeps _ _ _
  · cases h; exact slotsetBody_keeps _ _
  · obtain ⟨p, _, rfl⟩ := Option.map_eq_some_iff.mp h; exact pairBody_keeps _ _
theorem execAccessReplay_keeps (thr : Nat) (s : State) (hm : Memory.wf s.mem = true) : Keeps (execAccessReplay thr s) := by
  unfold execAccessReplay
  dsimp only
  split
  · simpa using hm
  · split
    · simpa using hm
    · split
      · simpa using hm
      · split
        · simpa using hm
        · split
          · simpa using hm
          · next hb => exact (keeps_next _).mpr (State.replay_wf _ _ _ _ _ _ (fun s c fr who t fin h hs => bodyOf_keeps hb s c fr who hs t fin h) hm)
theorem execFbflush_keeps (pkg : Nat) (s : State) (hm : Memory.wf s.mem = true) : Keeps (execFbflush pkg s) := by simp +contextual [execFbflush, hm]
theorem execFaultRecordPost_keeps (pkg die : Nat) (s : State) (hm : Memory.wf s.mem = true) : Keeps (execFaultRecordPost pkg die s) := by
  unfold execFaultRecordPost; (try dsimp only); (repeat' split) <;> simp +contextual [hm]
theorem execMessageAppend_keeps (id : Nat) (s : State) (hm : Memory.wf s.mem = true) : Keeps (execMessageAppend id s) := by
  unfold execMessageAppend; (repeat' split) <;> simp +contextual [hm]
theorem execMessageRetry_keeps (id : Nat) (s : State) (hm : Memory.wf s.mem = true) : Keeps (execMessageRetry id s) := by
  simp +contextual [execMessageRetry, hm]
theorem execTlbinvPage_keeps (a : Base) (sc : TiScope) (g : Guard) (s : State) (hc : s.cur.isSome = true) (hm : Memory.wf s.mem = true) :
    Keeps (execTlbinvPage a sc g s) := by
  exact runWord_keeps (tlbinvBody_keeps _ _) hc hm
theorem execTlbinvVf_keeps (sc : TiScope) (g : Guard) (s : State) (hc : s.cur.isSome = true) (hm : Memory.wf s.mem = true) :
    Keeps (execTlbinvVf sc g s) := by
  exact runWord_keeps (tlbinvBody_keeps _ _) hc hm
theorem execPreemptionRequest_keeps (gang : Nat) (s : State) (hm : Memory.wf s.mem = true) : Keeps (execPreemptionRequest gang s) := by
  simp +contextual [execPreemptionRequest, hm]
theorem State.register_mem {s t : State} {p : Nat} {l : Launch} (h : s.register p l = some t) : t.mem = s.mem := by
  unfold State.register at h
  split at h
  · cases h; rfl
  · split at h
    · cases h
    · cases h; rfl
theorem execPodRegisterAnswer_keeps (pkg fn : Nat) (s : State) (hm : Memory.wf s.mem = true) : Keeps (execPodRegisterAnswer pkg fn s) := by
  unfold execPodRegisterAnswer
  dsimp only
  split
  · simpa using hm
  · split
    · simpa using hm
    · split
      · simpa using hm
      · next h => simpa [State.register_mem h] using hm
theorem execLaunchAccept_keeps (pkg : Nat) (s : State) (hm : Memory.wf s.mem = true) : Keeps (execLaunchAccept pkg s) := by
  unfold execLaunchAccept; (try dsimp only); (repeat' split) <;> simp +contextual [hm]
theorem execLaunchEventPost_keeps (pkg fn : Nat) (s : State) (hm : Memory.wf s.mem = true) : Keeps (execLaunchEventPost pkg fn s) := by
  unfold execLaunchEventPost
  split
  · simpa using hm
  · split
    · simpa using hm
    · next h => simpa using State.putEvent_wf h hm
theorem execTagWaitAbandon_keeps (pkg ctx : Nat) (s : State) (hm : Memory.wf s.mem = true) : Keeps (execTagWaitAbandon pkg ctx s) := by
  simp +contextual [execTagWaitAbandon, hm]
theorem execLaunchComplete_keeps (pkg ctx : Nat) (s : State) (hm : Memory.wf s.mem = true) : Keeps (execLaunchComplete pkg ctx s) := by
  unfold execLaunchComplete; (try dsimp only); (repeat' split) <;> simp +contextual [hm]
theorem execSearch_keeps (e : EArgs) (s : State) (hc : s.cur.isSome = true) (hm : Memory.wf s.mem = true) : Keeps (execSearch e s) := by
  exact runWord_keeps (eBody_keeps _ _) hc hm
theorem execHspub_keeps (e : EArgs) (s : State) (hc : s.cur.isSome = true) (hm : Memory.wf s.mem = true) : Keeps (execHspub e s) := by
  exact runWord_keeps (eBody_keeps _ _) hc hm
theorem execQueryDistribute_keeps (id : Nat) (s : State) (hm : Memory.wf s.mem = true) : Keeps (execQueryDistribute id s) := by
  unfold execQueryDistribute; (repeat' split) <;> simp +contextual [hm]
theorem execBucketWalk_keeps (pkg unit : Nat) (s : State) (hm : Memory.wf s.mem = true) : Keeps (execBucketWalk pkg unit s) := by
  unfold execBucketWalk; (try dsimp only); (repeat' split) <;> simp +contextual [hm]
theorem execResultAppend_keeps (pkg unit : Nat) (s : State) (hm : Memory.wf s.mem = true) : Keeps (execResultAppend pkg unit s) := by
  unfold execResultAppend; (try dsimp only); (repeat' split) <;> simp +contextual [hm]
theorem execHspubPerform_keeps (pkg unit : Nat) (s : State) (hm : Memory.wf s.mem = true) : Keeps (execHspubPerform pkg unit s) := by
  unfold execHspubPerform; (try dsimp only); (repeat' split) <;> simp +contextual [hm]
theorem execEngineStopAck_keeps (gang cls : Nat) (s : State) (hm : Memory.wf s.mem = true) : Keeps (execEngineStopAck gang cls s) := by
  unfold execEngineStopAck; (try dsimp only); (repeat' (first | (split <;> rename_i hh <;> replace hh := congrArg (fun r => Memory.wf r.2.mem) hh) | split)) <;> simp_all
theorem execHardwareSave_keeps (gang : Nat) (s : State) (hm : Memory.wf s.mem = true) : Keeps (execHardwareSave gang s) := by
  unfold execHardwareSave; (try dsimp only); (repeat' split) <;> simp +contextual [hm]
theorem execPreemptFree_keeps (gang : Nat) (s : State) (hm : Memory.wf s.mem = true) : Keeps (execPreemptFree gang s) := by
  unfold execPreemptFree; (try dsimp only); (repeat' split) <;> simp +contextual [hm]
theorem execGangPlace_keeps (pkg : Nat) (s : State) (hm : Memory.wf s.mem = true) : Keeps (execGangPlace pkg s) := by
  unfold execGangPlace; (try dsimp only); (repeat' split) <;> simp +contextual [hm]
theorem execGangResume_keeps (pkg : Nat) (s : State) (hm : Memory.wf s.mem = true) : Keeps (execGangResume pkg s) := by
  unfold execGangResume; (try dsimp only); (repeat' split) <;> simp +contextual [hm]
theorem execPlacementWaitExpiry_keeps (pkg fn : Nat) (s : State) (hm : Memory.wf s.mem = true) : Keeps (execPlacementWaitExpiry pkg fn s) := by
  unfold execPlacementWaitExpiry; (try dsimp only); (repeat' split) <;> simp +contextual [hm]
theorem execGangRetire_keeps (gang : Nat) (s : State) (hm : Memory.wf s.mem = true) : Keeps (execGangRetire gang s) := by
  simp +contextual [execGangRetire, hm]
theorem execGather_keeps (pkg core : Nat) (s : State) (hm : Memory.wf s.mem = true) : Keeps (execGather pkg core s) := by
  unfold execGather
  dsimp only
  split
  · simpa using hm
  · have h0 : Memory.wf ((s.gatherEnds (coreKey pkg core)).served (coreKey pkg core) .gather).mem = true := by
      simpa using State.gatherEnds_wf s (coreKey pkg core) hm
    generalize (s.gatherEnds (coreKey pkg core)).served (coreKey pkg core) .gather = u at h0 ⊢
    have h1 := State.scan_wf u (coreKey pkg core) (core / 160) (fun s x _ => s.mayGather (coreKey pkg core) x) 1
      (s.core (coreKey pkg core)).deque.reverse h0
    split
    · next hh => rw [hh] at h1; exact (keeps_next _).mpr (State.setDeque_wf _ _ _ h1)
    · next e _ l t hh =>
      rw [hh] at h1
      split
      · simpa using h1
      · next x _ =>
        have h2 := State.scan_wf t (coreKey pkg core) (core / 160) (fun _ _ f => e.kindOf f) ((t.ctx x).launch.wgsize - 1) l h1
        split
        · next hq => rw [hq] at h2; exact (keeps_next _).mpr ((congrArg Memory.wf (State.gatherInto_mem _ _ _ _ _)).trans (State.setDeque_wf _ _ _ h2))
        · simpa using h1
theorem execWorkgroupDispatch_keeps (pkg core : Nat) (s : State) (hm : Memory.wf s.mem = true) : Keeps (execWorkgroupDispatch pkg core s) := by
  unfold execWorkgroupDispatch; (try dsimp only); (repeat' split) <;> simp +contextual [hm]
theorem execStealRequest_keeps (pkg core : Nat) (s : State) (hm : Memory.wf s.mem = true) : Keeps (execStealRequest pkg core s) := by
  simp +contextual [execStealRequest, hm]
theorem execStealArrival_keeps (pkg core : Nat) (s : State) (hm : Memory.wf s.mem = true) : Keeps (execStealArrival pkg core s) := by
  unfold execStealArrival; (try dsimp only); (repeat' split) <;> simp +contextual [hm]
theorem execDrydownCheckStart_keeps (pkg : Nat) (s : State) (hm : Memory.wf s.mem = true) : Keeps (execDrydownCheckStart pkg s) := by
  unfold execDrydownCheckStart; (try dsimp only); (repeat' split) <;> simp +contextual [hm]
theorem execReexecutionEnd_keeps (id : Nat) (s : State) (hm : Memory.wf s.mem = true) : Keeps (execReexecutionEnd id s) := by
  unfold execReexecutionEnd; (repeat' split) <;> simp +contextual [hm]
theorem execArbitrationEnd_keeps (id : Nat) (s : State) (hm : Memory.wf s.mem = true) : Keeps (execArbitrationEnd id s) := by
  unfold execArbitrationEnd
  dsimp only
  split
  · simpa using hm
  · split
    · simpa using hm
    · rw [keeps_next]
      refine State.score_wf _ _ _ (State.cleanCores_wf _ _ _ ?_)
      split
      · exact State.post_wf _ _ _ (by simpa using hm)
      · simpa using hm
theorem execColdReset_keeps (pkg : Nat) (s : State) (hm : Memory.wf s.mem = true) : Keeps (execColdReset pkg s) := by
  simp +contextual [execColdReset, hm]
theorem execReset_keeps (pkg value : Nat) (s : State) (hm : Memory.wf s.mem = true) : Keeps (execReset pkg value s) := by
  simp +contextual [execReset, hm]
theorem execFlr_keeps (pkg fn : Nat) (s : State) (hm : Memory.wf s.mem = true) : Keeps (execFlr pkg fn s) := by simp +contextual [execFlr, hm]
theorem execD3hotEntry_keeps (pkg fn : Nat) (s : State) (hm : Memory.wf s.mem = true) : Keeps (execD3hotEntry pkg fn s) := by
  simp +contextual [execD3hotEntry, hm]
theorem execBootStageDone_keeps (pkg : Nat) (ok : Bool) (s : State) (hm : Memory.wf s.mem = true) : Keeps (execBootStageDone pkg ok s) := by
  unfold execBootStageDone; (try dsimp only); (repeat' split) <;> simp +contextual [hm]
theorem execHostRegWrite_keeps (pkg fn off value : Nat) (s : State) (hm : Memory.wf s.mem = true) : Keeps (execHostRegWrite pkg fn off value s) := by
  simp +contextual [execHostRegWrite, hm]
theorem execBootst_keeps (pkg value : Nat) (s : State) (hm : Memory.wf s.mem = true) : Keeps (execBootst pkg value s) := by
  simp +contextual [execBootst, hm]
theorem execLqctl_keeps (pkg fn value : Nat) (s : State) (hm : Memory.wf s.mem = true) : Keeps (execLqctl pkg fn value s) := by
  simp +contextual [execLqctl, hm]
theorem execEqctl_keeps (pkg fn value : Nat) (s : State) (hm : Memory.wf s.mem = true) : Keeps (execEqctl pkg fn value s) := by
  simp +contextual [execEqctl, hm]
theorem execMbctl_keeps (pkg fn value : Nat) (s : State) (hm : Memory.wf s.mem = true) : Keeps (execMbctl pkg fn value s) := by
  simp +contextual [execMbctl, hm]
theorem execAbort_keeps (pkg fn value : Nat) (s : State) (hm : Memory.wf s.mem = true) : Keeps (execAbort pkg fn value s) := by
  simp +contextual [execAbort, hm]
theorem execTlbinvh_keeps (pkg fn : Nat) (s : State) (hm : Memory.wf s.mem = true) : Keeps (execTlbinvh pkg fn s) := by
  simp +contextual [execTlbinvh, hm]
theorem execDryfrach_keeps (pkg value : Nat) (s : State) (hm : Memory.wf s.mem = true) : Keeps (execDryfrach pkg value s) := by
  simp +contextual [execDryfrach, hm]
theorem execSuspw_keeps (pkg value : Nat) (s : State) (hm : Memory.wf s.mem = true) : Keeps (execSuspw pkg value s) := by
  simp +contextual [execSuspw, hm]
theorem execCntclrTelemetry_keeps (pkg : Nat) (s : State) (hm : Memory.wf s.mem = true) : Keeps (execCntclrTelemetry pkg s) := by
  simp +contextual [execCntclrTelemetry, hm]
theorem execPlaneArrayPause_keeps (pkg : Nat) (on : Bool) (s : State) (hm : Memory.wf s.mem = true) : Keeps (execPlaneArrayPause pkg on s) := by
  simp +contextual [execPlaneArrayPause, hm]
theorem execTelemetryPost_keeps (pkg : Nat) (s : State) (hm : Memory.wf s.mem = true) : Keeps (execTelemetryPost pkg s) := by
  simp +contextual [execTelemetryPost, hm]
theorem execICycle_keeps (pkg : Nat) (s : State) (hm : Memory.wf s.mem = true) : Keeps (execICycle pkg s) := by simp +contextual [execICycle, hm]
end Sys2Proof.Machine
end

