-- ==== Sys2Proof/Tests/Slice0.lean ====
section
/-! SUPPORT. Tests: ill-formed terms refused, words written out from the spec's encodings, single steps whose results the spec gives, and
for each statement a state and operands that meet its hypotheses. -/

namespace Sys2Proof.Tests

open Sys2Proof.Machine

/-! ### Well-formedness: for each check of R68, a term that it refuses -/

/-- The guard that always holds. -/
def g0 : Guard := ⟨false, 0⟩

/-- Terms that break one check each. -/
def illFormed : List Instr := [
  .nop ⟨true, 0⟩,                                                   -- the negated q0 as guard (R58)
  .add ⟨3, .x 2, .x 4, none, g0⟩ ⟨.w64, false⟩ false,               -- 64-bit operands in odd registers (R56, R57)
  .add ⟨2, .x 3, .x 4, none, g0⟩ ⟨.w64, false⟩ false,
  .add ⟨2, .x 2, .k 5, none, g0⟩ ⟨.w64, false⟩ false,
  .add ⟨2, .x 2, .k 4, some ⟨.rot, false, 1, 0⟩, g0⟩ ⟨.w32, false⟩ false, -- a source modifier on a k register (R60)
  .add ⟨2, .x 2, .x 4, some ⟨.rot, false, 0, 0⟩, g0⟩ ⟨.w32, false⟩ false, -- and its limits
  .add ⟨2, .x 2, .x 4, some ⟨.rot, false, 2, 4⟩, g0⟩ ⟨.w32, false⟩ false,
  .add ⟨2, .x 2, .x 4, some ⟨.rot, true, 6, 0⟩, g0⟩ ⟨.w32, false⟩ false,
  .cmp ⟨0, .x 2, .x 4, none, g0⟩ ⟨.w32, false⟩ .lt,                 -- q0 as a destination (R58)
  .vote (.all 0) ⟨false, 1⟩ g0, .elect 0 g0,
  .mov (.k 3) (.x 2) none g0 ⟨.w64, false⟩,                         -- a 64-bit move into a k register
  .moviI64 5 g0 0, .lea 5 ⟨.x 2, 0, g0⟩ (.x 4) ⟨.w32, false⟩,
  .fpack ⟨1, .x 2, .x 3, none, g0⟩ .f32 false,                      -- FPACK and FUNPK of F32
  .funpk ⟨1, .x 2, .x 3, none, g0⟩ .f32,
  .fscaleacc ⟨1, .x 3, .x 4, none, g0⟩ .f32 .rne false .i64 false,  -- a 64-bit A in an odd register
  .reduce ⟨1, .x 2, none, g0⟩ (.int ⟨.w32, true⟩) 7 .add,           -- SEG above log2 GWIDTH (R125)
  .reduce ⟨1, .x 2, none, g0⟩ (.flt .f32 .rtz) 0 .max,              -- MAX with a rounding mode, AND on floats (R131)
  .scan ⟨1, .x 2, none, g0⟩ (.flt .f32 .rne) 0 .and,
  .fwds (.x 2) none g0 .w32 0 2,                                    -- BLK beyond GWIDTH
  .tdesc 0 3 g0, .accz 0 false g0, .accrd 3 0 (.x 2) none g0,
  .call 3 g0 0, .ret (.x 3) g0, .jmpi (.k 5) g0,                    -- odd pairs
  .shield 0 g0, .shield 17 g0,                                      -- SHIELD outside 1 to 16
  .incrd 6 .both 0 g0,                                              -- a four-register destination not aligned
  .ld (.x 4) ⟨.x 2, 0, g0⟩ ⟨.w32, false⟩ ⟨.rel, .die⟩,              -- orders that a load, a store, a FENCE do not have
  .st ⟨.x 2, 0, g0⟩ (.x 4) .w32 ⟨.acq, .die⟩,
  .ld (.x 4) ⟨.x 2, 0, g0⟩ ⟨.w32, false⟩ ⟨.rlx, .die⟩,              -- a scope without an order (R227)
  .fence ⟨.rlx, .lane⟩ g0, .spawn 4 ⟨.x 2, 0, g0⟩ ⟨.acq, .die⟩,
  .atom .fadd 4 ⟨.x 2, 0, g0⟩ (.x 6) .w64 false ⟨.rlx, .lane⟩,
  .atom .add 4 ⟨.x 2, 0, g0⟩ (.x 6) .w32 true ⟨.rlx, .lane⟩,
  .ldfe 3 ⟨.x 2, 0, g0⟩ ⟨.rlx, .lane⟩, .stfe ⟨.x 2, 0, g0⟩ (.x 5) ⟨.rlx, .lane⟩,
  .tcopy ⟨1, 3, 0, g0⟩, .recvPoll 8 0 g0,
  .bar 4 .lane 0 g0, .baro 4 .core 0 g0,                            -- barrier scopes (R270)
  .cntrd 4 0x0A none g0, .cntrd 4 0x10 none g0, .cntrd 4 0 (some .core) g0,
  .srd 4 .w32 0x10 g0, .srd 4 .w64 0x16 g0, .swr (.x 4) .w32 0x09 g0, -- width, absence, access of R80
  .trap 0x10000 g0, .brk 0x10000 g0,
  .addHalf ⟨4, .x 5, g0, none⟩ ⟨.mov, ⟨8, .x 9, g0, none⟩⟩,          -- pair rules (R64): destinations in one bank,
  .addHalf ⟨4, .x 5, g0, none⟩ ⟨.mov, ⟨7, .x 9, g0, none⟩⟩,          -- sources in one bank,
  .addHalf ⟨4, .x 5, g0, none⟩ ⟨.mov, ⟨7, .x 4, g0, none⟩⟩,          -- the second half reading the first's result,
  .ldB32Half ⟨4, .x 8, g0, none⟩ ⟨.stB32, ⟨7, .x 10, g0, none⟩⟩,      -- two memory halves, two lane halves,
  .permHalf ⟨4, .x 5, g0, none⟩ ⟨.perm, ⟨7, .x 2, g0, none⟩⟩,
  .addHalf ⟨4, .x 5, g0, some 6⟩ ⟨.mov, ⟨7, .k 2, g0, none⟩⟩,        -- a short modifier of GWIDTH, one on a memory half
  .ldB32Half ⟨4, .x 8, g0, some 1⟩ ⟨.mov, ⟨7, .k 2, g0, none⟩⟩,
  .prefHalf ⟨4, .x 8, g0, none⟩ ⟨.mov, ⟨7, .k 2, g0, none⟩⟩,         -- a destination on PREF
  .ldB64Half ⟨5, .x 8, g0, none⟩ ⟨.mov, ⟨7, .k 2, g0, none⟩⟩ ]

theorem test_ill_formed : illFormed.all (fun i => !i.wf) = true := by decide

/-- Terms of the same shapes on the allowed side of each limit. -/
theorem test_well_formed : ([
    .add ⟨2, .x 2, .x 4, some ⟨.rot, false, 2, 3⟩, g0⟩ ⟨.w32, false⟩ false,
    .add ⟨2, .x 2, .x 4, some ⟨.rot, true, 5, 1⟩, g0⟩ ⟨.w64, false⟩ false,
    .reduce ⟨1, .x 2, none, g0⟩ (.int ⟨.w32, true⟩) 6 .add, .fwds (.x 2) none g0 .w32 0 1, .shield 1 g0, .shield 16 g0,
    .incrd 8 .both 0 g0, .cntrd 4 0x09 none g0, .cntrd 4 0x1F (some .pod) g0, .cntrd 4 0x4C none g0, .trap 0xFFFF g0,
    .addHalf ⟨4, .x 5, g0, some 5⟩ ⟨.mov, ⟨7, .x 6, g0, none⟩⟩, .baro 4 .quad 0 g0 ] : List Instr).all (·.wf) = true := by decide

/-! ### Words

Each word is put together field by field from the tables of 03_encoding and of its chapter, or stands in the chapter's own example. -/

/-- Each word decodes to its instruction, which encodes to it. -/
def agree (l : List (W64 × Instr)) : Bool := l.all fun p => (decode p.1).toOption == some p.2 && encode p.2 == some p.1

/-- Group 0 (05_integer). -/
theorem test_words_0 : agree [
    (0x0000404000000800, .add ⟨2, .x 2, .x 0, none, g0⟩ ⟨.w64, false⟩ false),
    (0x0000809C20000000, .add ⟨4, .x 4, .imm 1, none, g0⟩ ⟨.w32, false⟩ false),
    (0x002070BFE0013C40, .sub ⟨3, .k 5, .imm 31, none, ⟨true, 1⟩⟩ ⟨.w8, true⟩ true),
    (0x004080C100000801, .addc ⟨4, .x 6, .x 8, none, g0⟩ .w64 true),
    (0x0060205920001400, .mul ⟨1, .x 2, .lane, none, g0⟩ ⟨.w16, true⟩ false),
    (0x0080204060000400, .mulh ⟨1, .x 2, .x 3, none, g0⟩ .w32 true),
    (0x00A0A02040000064, .mad ⟨5, .x 1, .x 2, none, g0⟩ (.x 3) ⟨.w32, true⟩ false),
    (0x00C0205960000440, .div ⟨1, .x 2, .tid, none, g0⟩ ⟨.w32, true⟩ true),
    (0x00E0205940001800, .rem ⟨1, .x 2, .gwidth, none, g0⟩ ⟨.w8, false⟩),
    (0x0100204071600400, .min ⟨1, .x 2, .x 3, some ⟨.bfly, false, 5, 16⟩, g0⟩ ⟨.w32, true⟩),
    (0x012020407C4E0000, .max ⟨1, .x 2, .x 3, some ⟨.bcast, true, 1, 7⟩, g0⟩ ⟨.w32, false⟩),
    (0x0140200060001440, .abs ⟨1, .x 3, none, g0⟩ .w16 true),
    (0x0160204060000000, .and ⟨1, .x 2, .x 3, none, g0⟩ ⟨.w32, false⟩),
    (0x0180205900001400, .or ⟨1, .x 2, .zero, none, g0⟩ ⟨.w16, true⟩),
    (0x01A02057E0001800, .xor ⟨1, .x 2, .k 63, none, g0⟩ ⟨.w8, false⟩),
    (0x01C0404080000800, .andn ⟨2, .x 2, .x 4, none, g0⟩ ⟨.w64, false⟩),
    (0x01E0001C40000440, .shl ⟨0, .x 0, .imm 2, none, g0⟩ ⟨.w32, true⟩ true),
    (0x0200205C80001000, .shr ⟨1, .x 2, .imm 4, none, g0⟩ ⟨.w16, false⟩),
    (0x0220205C80001000, .sar ⟨1, .x 2, .imm 4, none, g0⟩ ⟨.w16, false⟩),
    (0x0240204060000000, .rol ⟨1, .x 2, .x 3, none, g0⟩ ⟨.w32, false⟩),
    (0x0260200040000800, .popc ⟨1, .x 2, none, g0⟩ .w64),
    (0x0280200040000000, .clz ⟨1, .x 2, none, g0⟩ .w32),
    (0x02A0200040001800, .ctz ⟨1, .x 2, none, g0⟩ .w8),
    (0x02C0200040001400, .brev ⟨1, .x 2, none, g0⟩ ⟨.w16, true⟩),
    (0x02E0204060000400, .bfx ⟨1, .x 2, .x 3, none, g0⟩ ⟨.w32, true⟩),
    (0x0300204060000000, .bfi ⟨1, .x 2, .x 3, none, g0⟩ ⟨.w32, false⟩),
    (0x032020406000000D, .sel ⟨1, .x 2, .x 3, none, g0⟩ ⟨.w32, false⟩ ⟨true, 5⟩),
    (0x0340209D00000402, .cmp ⟨1, .x 4, .imm 8, none, g0⟩ ⟨.w32, true⟩ .lt),
    (0x0360001960000000, .mov (.x 0) .tid none g0 ⟨.w32, false⟩),
    (0x03712000A0000000, .mov (.k 9) (.x 5) none g0 ⟨.w32, false⟩),
    (0x0380400000001234, .movi (.x 2) g0 0x1234),
    (0x03808021FFFFFFFF, .moviI64 4 g0 0x1FFFFFFFF),
    (0x03A0C040C0040800, .lea 6 ⟨.x 2, 2, g0⟩ (.x 6) ⟨.w64, false⟩),
    (0x03C12121FFFFFFFF, .addi 9 (.x 9) g0 0x1FFFFFFFF) ] = true := by decide

/-- Group 1 (06_float). -/
theorem test_words_1 : agree [
    (0x1000204060001100, .fadd ⟨1, .x 2, .x 3, none, g0⟩ .f16 .rup),
    (0x1020204060001580, .fsub ⟨1, .x 2, .x 3, none, g0⟩ .bf16 .rdn),
    (0x1040204060000200, .fmul ⟨1, .x 2, .x 3, none, g0⟩ .f32 .rna),
    (0x1061002040000066, .ffma ⟨8, .x 1, .x 2, none, g0⟩ (.x 3) .bf16 .rtz),
    (0x1080204060000000, .fmin ⟨1, .x 2, .x 3, none, g0⟩ .f32),
    (0x10A0204060001000, .fmax ⟨1, .x 2, .x 3, none, g0⟩ .f16),
    (0x10C0402040000002, .fcmp ⟨2, .x 1, .x 2, none, g0⟩ .f32 .lt),
    (0x10E0200040000000, .fclass ⟨1, .x 2, none, g0⟩ .f32),
    (0x1100200040000000, .frcp ⟨1, .x 2, none, g0⟩ .f32),
    (0x1120200040001000, .fsqrt ⟨1, .x 2, none, g0⟩ .f16),
    (0x1140200040001400, .frsq ⟨1, .x 2, none, g0⟩ .bf16),
    (0x1160200040000000, .fexp2 ⟨1, .x 2, none, g0⟩ .f32),
    (0x1180200040000000, .flog2 ⟨1, .x 2, none, g0⟩ .f32),
    (0x11A0200040000000, .fsint ⟨1, .x 2, none, g0⟩ .f32),
    (0x11C0200040000000, .fcost ⟨1, .x 2, none, g0⟩ .f32),
    (0x11E02000400010D0, .fcvt ⟨1, .x 2, none, g0⟩ .e5m2 .bf16 .rtz true),
    (0x1200400020000440, .fcvti ⟨2, .x 1, none, g0⟩ ⟨.w32, true⟩ .f32 .rne true),
    (0x1220400080000920, .icvtf ⟨2, .x 4, none, g0⟩ ⟨.w64, false⟩ .bf16 .rup),
    (0x1240204060001440, .fpack ⟨1, .x 2, .x 3, none, g0⟩ .e2m1 true),
    (0x1260204060001800, .funpk ⟨1, .x 2, .x 3, none, g0⟩ .e8m0),
    (0x12812080C0000000, .fscaleacc ⟨9, .x 4, .x 6, none, g0⟩ .f32 .rne false .i48 false),
    (0x12812080C0001658, .fscaleacc ⟨9, .x 4, .x 6, none, g0⟩ .bf16 .rna true .i64 true),
    (0x12A0400020001020, .ordkey ⟨2, .x 1, none, g0⟩ (.flt .f16)),
    (0x12C0204060001480, .fdot2 ⟨1, .x 2, .x 3, none, g0⟩ true .rtz),
    (0x12E0200040000080, .frnd ⟨1, .x 2, none, g0⟩ .f32 .rtz) ] = true := by decide

/-- Group 2 (07_lanes). -/
theorem test_words_2 : agree [
    (0x2000C080E0000000, .perm ⟨6, .x 4, .x 7, none, g0⟩ .w32),
    (0x2020C080E0000832, .shufx ⟨6, .x 4, .x 7, none, g0⟩ .w64 3 .xor),
    (0x2041000000000022, .vote (.ballot 8) ⟨false, 2⟩ g0),
    (0x204060000000001A, .vote (.any 3) ⟨true, 2⟩ g0),
    (0x20608000E0000001, .matchL ⟨4, .x 7, none, g0⟩ .w32 true),
    (0x2080200040000400, .reduce ⟨1, .x 2, none, g0⟩ (.int ⟨.w32, true⟩) 0 .add),
    (0x20A02000400015DE, .scan ⟨1, .x 2, none, g0⟩ (.flt .bf16 .rdn) 5 .mul),
    (0x20C1004060001030, .lscan ⟨8, .x 2, .x 3, none, g0⟩ .f16 3),
    (0x20E0200040001825, .cavity ⟨1, .x 2, none, g0⟩ (.int ⟨.w8, false⟩) 2 .xor),
    (0x21000000C0000004, .fwds (.x 6) none g0 .w32 1 0),
    (0x2121000000000809, .fwdr 8 g0 .w64 2 1),
    (0x2140600000000000, .elect 3 g0) ] = true := by decide

/-- Group 3 (08_planes). -/
theorem test_words_3 : agree [
    (0x3000010000000002, .tdesc 2 8 g0),
    (0x3020000000000004, .plane 0 4 0 g0),
    (0x3040000000000015, .align 1 5 0 g0),
    (0x3060020000000000, .cbload ⟨.x 16, 0, g0⟩),
    (0x3098200000000030, .mma 1 0 1 true g0),
    (0x30B8000000000040, .mmac 0 0 2 false g0),
    (0x30C0000000000003, .accz 3 false g0),
    (0x30E1982060000800, .accrd 12 1 (.x 3) none g0),
    (0x3118214060000800, .accst 1 ⟨.x 10, 0, g0⟩ 3),
    (0x3120000000000002, .mmawait 2 g0) ] = true := by decide

/-- Group 4 (09_control). -/
theorem test_words_4 : agree [
    (0x40000001FFFFFFFD, .bra g0 0x1FFFFFFFD),
    (0x402020A000000004, .brc .nez (.x 5) g0 4),
    (0x404280000000000A, .call 20 g0 10),
    (0x4060000280000000, .ret (.x 20) g0),
    (0x40800010C0000000, .jmpi (.k 6) g0),
    (0x4080800080000001, .jmpiLink 4 (.x 4) g0),
    (0x40A000000000000F, .rjoin 15 g0),
    (0x40C0000000014009, .rwait 9 ⟨true, 2⟩),
    (0x40E0000000000000, .exit g0),
    (0x4100000000000000, .nop g0),
    (0x4120000000000000, .yield g0),
    (0x4140000000000002, .shield 2 g0),
    (0x41600000C0000000, .bound 0 (.x 6) none g0),
    (0x4160000180000000, .bound 0 (.x 12) none g0),
    (0x4160000000000010, .boundNone g0),
    (0x4180010180000000, .incofr 0 (.x 8) (.x 12) none g0),
    (0x41A1000000000023, .incrd 8 .both 3 g0),
    (0x41C0000180000000, .incwait 0 (.x 12) none g0),
    (0x41E0000000000000, .cancel g0) ] = true := by decide

/-- Group 5 (13_memory_instr). -/
theorem test_words_5 : agree [
    (0x5000804000000000, .ld (.x 4) ⟨.x 2, 0, g0⟩ ⟨.w32, false⟩ ⟨.rlx, .lane⟩),
    (0x50008040000400C0, .ld (.x 4) ⟨.x 2, 2, g0⟩ ⟨.w32, false⟩ ⟨.acq, .pkg⟩),
    (0x5020109C7FFE1A50, .st ⟨.k 4, 0xFFF, g0⟩ (.imm 3) .w8 ⟨.sc, .pod⟩),
    (0x5041004000000001, .ldv 8 ⟨.x 2, 0, g0⟩ ⟨.w32, false⟩ .x4 ⟨.rlx, .lane⟩),
    (0x5060004110000932, .stv ⟨.x 2, 0x800, g0⟩ 8 .w64 .x8 ⟨.rel, .die⟩),
    (0x50812040E0000000, .atom .add 9 ⟨.x 2, 0, g0⟩ (.x 7) .w32 false ⟨.rlx, .lane⟩),
    (0x50810040C0000DA6, .atom .max 8 ⟨.x 2, 0, g0⟩ (.x 6) .w64 true ⟨.ar, .quad⟩),
    (0x50A1004180000800, .acas 8 ⟨.x 2, 0, g0⟩ (.x 12) .w64 ⟨.rlx, .lane⟩),
    (0x50C0804000020890, .ldfe 4 ⟨.x 2, 1, g0⟩ ⟨.acq, .core⟩),
    (0x50E00040C0000800, .stfe ⟨.x 2, 0, g0⟩ (.x 6) ⟨.rlx, .lane⟩),
    (0x5100A04000000800, .fetagRead 5 ⟨.x 2, 0, g0⟩ ⟨.rlx, .lane⟩),
    (0x5100004000000941, .fetagFill ⟨.x 2, 0, g0⟩ ⟨.rel, .pkg⟩),
    (0x5100004000000802, .fetagEmpty ⟨.x 2, 0, g0⟩ ⟨.rlx, .lane⟩),
    (0x5120000000000150, .fence ⟨.rel, .pod⟩ g0),
    (0x5140104000100000, .pref ⟨.k 2, 8, g0⟩) ] = true := by decide

/-- Group 6 (14, 19, 15, 21, 22, 23). -/
theorem test_words_6 : agree [
    (0x6001908000000000, .tcopy ⟨12, 4, 0, g0⟩),
    (0x6021B0C01FE00000, .tgather ⟨13, 6, 0xFF0, g0⟩),
    (0x6041D08000200000, .cavred ⟨14, 4, 16, g0⟩),
    (0x6061F10000000000, .loopnest ⟨15, 8, 0, g0⟩),
    (0x6082114000400000, .search ⟨16, 10, 32, g0⟩),
    (0x60A0E08000020130, .spawn 7 ⟨.x 4, 1, g0⟩ ⟨.rel, .die⟩),
    (0x60C0E08120020003, .ringset 7 ⟨.x 4, 1, g0⟩ 9 3),
    (0x60E2318000000000, .send ⟨17, 12, 0, g0⟩),
    (0x6102000000000002, .recvPoll 16 2 g0),
    (0x6104000000000011, .recvWait 32 1 g0),
    (0x6120A00000000012, .bar 5 .core 2 g0),
    (0x6140A00000000020, .baro 5 .quad 0 g0),
    (0x61600000A0000012, .barw (.x 5) .core 2 g0),
    (0x6180000180000002, .waitptr 2 (.x 12) g0),
    (0x6180000180000008, .waitptrTicket (.x 12) g0),
    (0x61A1000000000002, .cntrd 8 2 none g0),
    (0x61A1000000000413, .cntrd 8 0x13 (some .pkg) g0),
    (0x61C0008000000030, .tlbinvPage (.x 4) .die g0),
    (0x61C0000000000041, .tlbinvVf .pkg g0),
    (0x61E0A000C0000000, .lpark 5 6 g0),
    (0x6200A000C0000000, .lwake 5 6 g0),
    (0x6220A10000040000, .slotset 5 ⟨.x 8, 2, g0⟩),
    (0x624251C000000000, .hspub ⟨18, 14, 0, g0⟩) ] = true := by decide

/-- Group 7 (10_trap_state). -/
theorem test_words_7 : agree [
    (0x7001000000000810, .srd 8 .w64 0x10 g0),
    (0x70200000C0000018, .swr (.x 6) .w32 0x18 g0),
    (0x7040000000000005, .trap 5 g0),
    (0x7060000000000001, .rte true g0),
    (0x7080000000000012, .brk 0x12 g0),
    (0x70A00000C0000800, .event (.x 6) .w64 g0),
    (0x70A00000C0000001, .eventMbx (.x 6) .w32 g0),
    (0x70C0000000000000, .halt g0),
    (0x70E0000000000001, .icflush .core g0),
    (0x70E0000000000003, .icflush .die g0),
    (0x70E0000000000004, .icflush .pkg g0) ] = true := by decide

/-- Pairs (03_encoding R62, R63). -/
theorem test_words_8a : agree [
    (0x80060500140E0A00, .addHalf ⟨6, .x 5, g0, none⟩ ⟨.xor, 7, .x 5, g0, none⟩),
    (0x800409AD280F0600, .addHalf ⟨4, .x 9, ⟨true, 2⟩, some 5⟩ ⟨.mov, 7, .k 3, g0, none⟩),
    (0x810409AD280F0600, .subHalf ⟨4, .x 9, ⟨true, 2⟩, some 5⟩ ⟨.mov, 7, .k 3, g0, none⟩),
    (0x820409AD280F0600, .mulHalf ⟨4, .x 9, ⟨true, 2⟩, some 5⟩ ⟨.mov, 7, .k 3, g0, none⟩),
    (0x830409AD280F0600, .minI32Half ⟨4, .x 9, ⟨true, 2⟩, some 5⟩ ⟨.mov, 7, .k 3, g0, none⟩),
    (0x840409AD280F0600, .minN32Half ⟨4, .x 9, ⟨true, 2⟩, some 5⟩ ⟨.mov, 7, .k 3, g0, none⟩),
    (0x850409AD280F0600, .maxI32Half ⟨4, .x 9, ⟨true, 2⟩, some 5⟩ ⟨.mov, 7, .k 3, g0, none⟩),
    (0x860409AD280F0600, .maxN32Half ⟨4, .x 9, ⟨true, 2⟩, some 5⟩ ⟨.mov, 7, .k 3, g0, none⟩),
    (0x870409AD280F0600, .absI32Half ⟨4, .x 9, ⟨true, 2⟩, some 5⟩ ⟨.mov, 7, .k 3, g0, none⟩),
    (0x880409AD280F0600, .andHalf ⟨4, .x 9, ⟨true, 2⟩, some 5⟩ ⟨.mov, 7, .k 3, g0, none⟩),
    (0x890409AD280F0600, .orHalf ⟨4, .x 9, ⟨true, 2⟩, some 5⟩ ⟨.mov, 7, .k 3, g0, none⟩),
    (0x8A0409AD280F0600, .xorHalf ⟨4, .x 9, ⟨true, 2⟩, some 5⟩ ⟨.mov, 7, .k 3, g0, none⟩),
    (0x8B0409AD280F0600, .andnHalf ⟨4, .x 9, ⟨true, 2⟩, some 5⟩ ⟨.mov, 7, .k 3, g0, none⟩),
    (0x8C0409AD280F0600, .shlHalf ⟨4, .x 9, ⟨true, 2⟩, some 5⟩ ⟨.mov, 7, .k 3, g0, none⟩),
    (0x8D0409AD280F0600, .shrHalf ⟨4, .x 9, ⟨true, 2⟩, some 5⟩ ⟨.mov, 7, .k 3, g0, none⟩),
    (0x8E0409AD280F0600, .sarHalf ⟨4, .x 9, ⟨true, 2⟩, some 5⟩ ⟨.mov, 7, .k 3, g0, none⟩),
    (0x8F0409AD280F0600, .rolHalf ⟨4, .x 9, ⟨true, 2⟩, some 5⟩ ⟨.mov, 7, .k 3, g0, none⟩),
    (0x900409AD280F0600, .popcHalf ⟨4, .x 9, ⟨true, 2⟩, some 5⟩ ⟨.mov, 7, .k 3, g0, none⟩),
    (0x910409AD280F0600, .clzHalf ⟨4, .x 9, ⟨true, 2⟩, some 5⟩ ⟨.mov, 7, .k 3, g0, none⟩),
    (0x920409AD280F0600, .ctzHalf ⟨4, .x 9, ⟨true, 2⟩, some 5⟩ ⟨.mov, 7, .k 3, g0, none⟩),
    (0x930409AD280F0600, .brevHalf ⟨4, .x 9, ⟨true, 2⟩, some 5⟩ ⟨.mov, 7, .k 3, g0, none⟩) ] = true := by decide

/-- Pairs (03_encoding R62, R63). -/
theorem test_words_8b : agree [
    (0x940409AD280F0600, .movHalf ⟨4, .x 9, ⟨true, 2⟩, some 5⟩ ⟨.mov, 7, .k 3, g0, none⟩),
    (0xA00409AD280F0600, .faddHalf ⟨4, .x 9, ⟨true, 2⟩, some 5⟩ ⟨.mov, 7, .k 3, g0, none⟩),
    (0xA10409AD280F0600, .fsubHalf ⟨4, .x 9, ⟨true, 2⟩, some 5⟩ ⟨.mov, 7, .k 3, g0, none⟩),
    (0xA20409AD280F0600, .fmulHalf ⟨4, .x 9, ⟨true, 2⟩, some 5⟩ ⟨.mov, 7, .k 3, g0, none⟩),
    (0xA30409AD280F0600, .fminHalf ⟨4, .x 9, ⟨true, 2⟩, some 5⟩ ⟨.mov, 7, .k 3, g0, none⟩),
    (0xA40409AD280F0600, .fmaxHalf ⟨4, .x 9, ⟨true, 2⟩, some 5⟩ ⟨.mov, 7, .k 3, g0, none⟩),
    (0xA50409AD280F0600, .frcpHalf ⟨4, .x 9, ⟨true, 2⟩, some 5⟩ ⟨.mov, 7, .k 3, g0, none⟩),
    (0xA60409AD280F0600, .fsqrtHalf ⟨4, .x 9, ⟨true, 2⟩, some 5⟩ ⟨.mov, 7, .k 3, g0, none⟩),
    (0xA70409AD280F0600, .frsqHalf ⟨4, .x 9, ⟨true, 2⟩, some 5⟩ ⟨.mov, 7, .k 3, g0, none⟩),
    (0xA80409AD280F0600, .fexp2Half ⟨4, .x 9, ⟨true, 2⟩, some 5⟩ ⟨.mov, 7, .k 3, g0, none⟩),
    (0xA90409AD280F0600, .flog2Half ⟨4, .x 9, ⟨true, 2⟩, some 5⟩ ⟨.mov, 7, .k 3, g0, none⟩),
    (0xAA0409AD280F0600, .frndHalf ⟨4, .x 9, ⟨true, 2⟩, some 5⟩ ⟨.mov, 7, .k 3, g0, none⟩),
    (0xE00409AD280F0600, .permHalf ⟨4, .x 9, ⟨true, 2⟩, some 5⟩ ⟨.mov, 7, .k 3, g0, none⟩),
    (0xE10409AD280F0600, .reduceAddI32Half ⟨4, .x 9, ⟨true, 2⟩, some 5⟩ ⟨.mov, 7, .k 3, g0, none⟩),
    (0xE20409AD280F0600, .reduceMaxI32Half ⟨4, .x 9, ⟨true, 2⟩, some 5⟩ ⟨.mov, 7, .k 3, g0, none⟩),
    (0xE30409AD280F0600, .reduceMinI32Half ⟨4, .x 9, ⟨true, 2⟩, some 5⟩ ⟨.mov, 7, .k 3, g0, none⟩),
    (0xE40409AD280F0600, .scanAddI32Half ⟨4, .x 9, ⟨true, 2⟩, some 5⟩ ⟨.mov, 7, .k 3, g0, none⟩),
    (0xC0050800280FFE60, .ldB32Half ⟨5, .x 8, g0, none⟩ ⟨.mov, 7, .imm 31, ⟨false, 3⟩, none⟩),
    (0xC1050800280FFE60, .stB32Half ⟨5, .x 8, g0, none⟩ ⟨.mov, 7, .imm 31, ⟨false, 3⟩, none⟩),
    (0xC2040800280FFE60, .ldB64Half ⟨4, .x 8, g0, none⟩ ⟨.mov, 7, .imm 31, ⟨false, 3⟩, none⟩),
    (0xC3040800280FFE60, .stB64Half ⟨4, .x 8, g0, none⟩ ⟨.mov, 7, .imm 31, ⟨false, 3⟩, none⟩),
    (0xC4000800280FFE60, .prefHalf ⟨0, .x 8, g0, none⟩ ⟨.mov, 7, .imm 31, ⟨false, 3⟩, none⟩) ] = true := by decide

/-! ### A small machine

One gang of one workgroup on core 0 of package 0, its launch in context 0 of function 0, its two threads at address 0x10000, with
translations for the 64 KiB pages at 0x10000 and 0x20000. -/

/-- A page that the function may read, write, execute and use tags on. -/
def tlbAt (va : Nat) : TlbEnt := { fn := 0, va := va, lg := 16, leaf := BitVec.ofNat 64 (va + 0x1F) }

/-- A thread with 128 registers that all hold `v`. -/
def thread (lane : Nat) (v : W32) : Thread := { x := List.replicate 128 v, pc := 0x10000, lane := lane }

/-- The launch: a plane kernel that declares every incumbent. -/
def launch0 : Launch :=
  { entry := 0x10000, vec := 0x20000, wgsize := 2, regs := 128, plane := true, incdecl := 0x249249249249, scratch := 0x20000 }

/-- The machine. -/
def base : State :=
  { State.reset with
    ctxs := [(0, { launch := launch0 })]
    gangs := [(0, { members := [0], vaultSize := 0x1000, stk := 0x100, slot := some 0 })]
    wgs := [(0, { size := 2, nregs := 128, k := List.replicate 64 0, scrSize := 0x20000 })]
    threads := [(0, thread 0 0), (1, thread 1 0)]
    cores := [(0, { utlb := [tlbAt 0x10000, tlbAt 0x20000] })] }

/-- The fragment of thread 0. -/
def site : Site := { pkg := 0, core := 0, wg := 0, tids := [0], pc := 0x10000, word := 0 }

/-- The fragment of both threads. -/
def site2 : Site := { site with tids := [0, 1] }

/-- The machine with the fragment of thread 0 in issue. -/
def one : State := { base with cur := some site }

/-- The machine with both threads in issue. -/
def two : State := { base with cur := some site2 }

/-- The guard that holds in no thread here. -/
def gNone : Guard := ⟨false, 1⟩

/-- The conditions of `State.Issues`, to be evaluated. -/
def issues (s : State) (c : Site) (i : Instr) : Bool := s.cur == some c && s.wordOk c i && s.regsOk c && decide c.tids.Nodup

theorem issues_of {s : State} {c : Site} {i : Instr} (h : issues s c i = true) : s.Issues c i := by
  simp only [issues, Bool.and_eq_true, beq_iff_eq, decide_eq_true_eq] at h
  exact ⟨h.1.1.1, h.1.1.2, h.1.2, h.2⟩

theorem all_issue {s : State} {c : Site} {l : List Instr} (h : l.all (issues s c) = true) : ∀ i ∈ l, s.Issues c i :=
  fun i hi => issues_of (List.all_eq_true.mp h i hi)

/-! ### The hypotheses of the statements are met

One theorem for each statement: a state and operands for each of its clauses, at the edge of their ranges. -/

theorem witness_IntegerArithmetic : ∀ i ∈ ([
    .add ⟨127, .x 127, .imm 31, none, g0⟩ ⟨.w32, true⟩ true, .sub ⟨126, .x 126, .zero, none, g0⟩ ⟨.w64, true⟩ true,
    .mul ⟨127, .k 63, .imm 0, none, g0⟩ ⟨.w16, false⟩ true, .mad ⟨0, .x 0, .x 0, none, g0⟩ (.x 127) ⟨.w8, true⟩ false,
    .mulh ⟨126, .x 126, .k 62, none, g0⟩ .w64 true, .div ⟨127, .imm 16, .zero, none, g0⟩ ⟨.w32, true⟩ true,
    .rem ⟨127, .x 127, .zero, none, g0⟩ ⟨.w8, true⟩, .addc ⟨127, .x 126, .x 126, none, g0⟩ .w64 true,
    .min ⟨0, .x 1, .x 2, some ⟨.rot, false, 6, 63⟩, g0⟩ ⟨.w32, true⟩, .max ⟨127, .lane, .tid, none, gNone⟩ ⟨.w32, false⟩,
    .abs ⟨127, .x 0, none, g0⟩ .w16 true ] : List Instr), two.Issues site2 i := all_issue (by decide)

theorem witness_LogicShiftCount : ∀ i ∈ ([
    .and ⟨127, .x 127, .imm 31, none, g0⟩ ⟨.w32, true⟩, .or ⟨126, .x 126, .zero, none, g0⟩ ⟨.w64, true⟩,
    .xor ⟨0, .k 63, .x 0, none, g0⟩ ⟨.w8, true⟩, .andn ⟨127, .x 127, .x 127, none, g0⟩ ⟨.w16, false⟩,
    .shl ⟨126, .x 126, .imm 31, none, g0⟩ ⟨.w64, true⟩ true, .shr ⟨127, .x 127, .imm 31, none, g0⟩ ⟨.w8, false⟩,
    .sar ⟨127, .x 127, .imm 31, none, g0⟩ ⟨.w8, true⟩, .rol ⟨126, .x 126, .zero, none, g0⟩ ⟨.w64, false⟩,
    .popc ⟨127, .x 126, none, g0⟩ .w64, .clz ⟨127, .zero, none, g0⟩ .w8, .ctz ⟨127, .zero, none, g0⟩ .w64,
    .brev ⟨126, .x 0, some ⟨.bcast, true, 5, 1⟩, gNone⟩ ⟨.w64, false⟩ ] : List Instr), two.Issues site2 i := all_issue (by decide)

theorem witness_FieldsMovesAddresses : ∀ i ∈ ([
    .bfx ⟨126, .x 0, .imm 31, none, g0⟩ ⟨.w64, true⟩, .bfi ⟨127, .x 0, .zero, none, g0⟩ ⟨.w8, false⟩,
    .sel ⟨126, .x 0, .k 62, none, g0⟩ ⟨.w64, false⟩ ⟨true, 7⟩, .cmp ⟨7, .x 0, .zero, none, g0⟩ ⟨.w64, true⟩ .le,
    .mov (.x 126) (.x 126) (some ⟨.bfly, false, 1, 1⟩) g0 ⟨.w64, false⟩, .movi (.x 127) g0 0xFFFFFFFF,
    .moviI64 126 gNone 0x100000000, .lea 126 ⟨.k 62, 0x800, g0⟩ (.x 127) ⟨.w64, false⟩,
    .addi 127 (.imm 16) g0 0x100000000 ] : List Instr), two.Issues site2 i := all_issue (by decide)

theorem witness_UniformMoves :
    (∀ i ∈ ([.mov (.k 63) (.x 127) (some ⟨.rot, false, 6, 63⟩) g0 ⟨.w32, false⟩, .movi (.k 0) g0 0xFFFFFFFF,
        .mov (.k 0) .tid none gNone ⟨.w32, true⟩] : List Instr), two.Issues site2 i) ∧
      (two.frag site2 g0).length = 2 ∧ two.frag site2 gNone = [] :=
  ⟨all_issue (by decide), by decide, by decide⟩

theorem witness_FloatArithmetic : ∀ i ∈ ([
    .fadd ⟨127, .x 127, .imm 16, none, g0⟩ .f32 .rna, .fsub ⟨0, .k 63, .zero, none, g0⟩ .f16 .rdn,
    .fmul ⟨127, .x 0, .x 1, some ⟨.rot, false, 6, 0⟩, g0⟩ .bf16 .rup, .ffma ⟨127, .x 0, .x 1, none, g0⟩ (.imm 31) .f32 .rtz,
    .fmin ⟨127, .x 0, .x 1, none, g0⟩ .f16, .fmax ⟨127, .x 0, .x 1, none, gNone⟩ .f32, .frnd ⟨127, .x 0, none, g0⟩ .bf16 .rna,
    .fdot2 ⟨127, .x 127, .imm 1, none, g0⟩ true .rne, .fdot2 ⟨0, .x 0, .x 0, some ⟨.bcast, false, 1, 1⟩, g0⟩ false .rdn
    ] : List Instr), two.Issues site2 i := all_issue (by decide)

theorem witness_FloatCompareSpecial : ∀ i ∈ ([
    .fcmp ⟨7, .x 127, .zero, none, g0⟩ .f32 .un, .fclass ⟨127, .x 0, none, g0⟩ .f16, .frcp ⟨127, .zero, none, g0⟩ .f32,
    .fsqrt ⟨127, .imm 31, none, g0⟩ .f32, .frsq ⟨0, .x 0, none, g0⟩ .bf16, .fexp2 ⟨0, .x 127, none, g0⟩ .f16,
    .flog2 ⟨0, .zero, none, g0⟩ .f32, .fsint ⟨0, .x 0, none, gNone⟩ .f32, .fcost ⟨0, .x 0, none, g0⟩ .bf16
    ] : List Instr), two.Issues site2 i := all_issue (by decide)

theorem witness_ConversionsScaling : ∀ i ∈ ([
    .fcvt ⟨127, .x 127, none, g0⟩ .e8m0 .f32 .rne true, .fcvt ⟨0, .x 0, none, g0⟩ .f32 .e4m3 .rna false,
    .fcvti ⟨126, .x 127, none, g0⟩ ⟨.w64, true⟩ .f32 .rdn true, .icvtf ⟨127, .x 126, none, g0⟩ ⟨.w64, true⟩ .f16 .rup,
    .fpack ⟨127, .x 0, .x 1, none, g0⟩ .e8m0 true, .funpk ⟨127, .imm 31, .x 1, none, g0⟩ .e2m1,
    .fscaleacc ⟨127, .x 126, .x 0, none, g0⟩ .f32 .rna true .i64 true, .ordkey ⟨126, .x 126, none, g0⟩ (.int ⟨.w64, true⟩),
    .ordkey ⟨126, .x 127, none, gNone⟩ (.flt .bf16) ] : List Instr), two.Issues site2 i := all_issue (by decide)

theorem witness_LaneMovesVotes : ∀ i ∈ ([
    .perm ⟨126, .x 126, .imm 31, none, g0⟩ .w64, .shufx ⟨127, .x 127, .x 0, none, g0⟩ .w32 6 .down,
    .vote (.all 7) ⟨true, 7⟩ g0, .vote (.any 1) ⟨false, 0⟩ g0, .vote (.ballot 126) ⟨true, 0⟩ g0, .vote (.ballotHi 0) ⟨false, 7⟩ g0,
    .matchL ⟨126, .x 126, none, g0⟩ .w64 false, .matchL ⟨0, .x 127, none, gNone⟩ .w32 true, .elect 7 g0
    ] : List Instr), two.Issues site2 i := all_issue (by decide)

theorem witness_LaneCombinations : ∀ i ∈ ([
    .reduce ⟨127, .x 127, none, g0⟩ (.flt .f16 .rna) 6 .mul, .scan ⟨126, .x 126, none, g0⟩ (.int ⟨.w64, true⟩) 1 .min,
    .cavity ⟨127, .x 0, none, g0⟩ (.int ⟨.w8, false⟩) 0 .xor, .lscan ⟨127, .x 127, .x 0, none, gNone⟩ .bf16 6
    ] : List Instr), two.Issues site2 i := all_issue (by decide)

/-- A half of every non-memory operation, and PREF, as either half of a word. -/
theorem witness_PairComputes :
    (∀ i ∈ ([.add, .sub, .mul, .minI32, .minN32, .maxI32, .maxN32, .absI32, .and, .or, .xor, .andn, .shl, .shr, .sar, .rol, .popc, .clz,
        .ctz, .brev, .mov, .fadd, .fsub, .fmul, .fmin, .fmax, .frcp, .fsqrt, .frsq, .fexp2, .flog2, .frnd, .perm, .reduceAddI32,
        .reduceMaxI32, .reduceMinI32, .scanAddI32] : List HOp).map
        fun h => mkPair ⟨h, 124, .x 127, gNone, some 5⟩ ⟨.mov, 126, .k 63, g0, none⟩, two.Issues site2 i) ∧
      two.Issues site2 (mkPair ⟨.mov, 125, .imm 31, g0, none⟩ ⟨.pref, 0, .x 126, g0, none⟩) ∧
      (∀ e, halfElems ⟨.pref, 0, .x 126, g0, none⟩ e = []) ∧ ∀ e, halfElems ⟨.scanAddI32, 124, .x 127, gNone, some 5⟩ e = [] :=
  ⟨all_issue (by decide), issues_of (by decide), fun _ => rfl, fun _ => rfl⟩

/-- Both threads in handler mode, their TRAPPC at the top of the address space. -/
def handlers : State := (two.modThr 0 fun t => { t with handler := true, trap := { t.trap with pc := 0xFFFFFFFFFFFFFFF8 } }).modThr 1
  fun t => { t with handler := true, trap := { t.trap with pc := 0 } }

/-- Thread 1 takes part in barrier 15. -/
def joined : State := two.modThr 1 fun t => { t with join := 0x8000, shc := 1 }

theorem witness_BranchesGo : site2.pc.toNat % 8 = 0 ∧
    (∀ i ∈ ([.bra g0 0x100000000, .brc .lez (.x 127) g0 0x0FFFFFFFF, .call 126 gNone 0, .ret (.k 62) g0, .jmpi (.x 126) g0,
      .jmpiLink 126 (.x 126) g0] : List Instr), two.Issues site2 i) ∧
    (∀ b ∈ ([.k 62, .x 126] : List Base), ∀ e ∈ two.frag site2 g0, (readBase e b).toNat % 8 = 0) :=
  ⟨by decide, all_issue (by decide), by decide⟩

theorem witness_ThreadControl :
    (∀ i ∈ ([.rjoin 15 g0, .rwait 15 g0, .nop gNone, .yield g0, .shield 16 g0, .shield 1 g0] : List Instr), joined.Issues site2 i) ∧
    (∃ e ∈ joined.frag site2 g0, (joined.thr (thrKey 0 e.tid)).join.getLsbD 15 = true) ∧
    ∀ e ∈ joined.frag site2 g0, joined.relDone (thrKey 0 e.tid) .core = true := ⟨all_issue (by decide), by decide, by decide⟩

theorem witness_ThreadsEnd : (∀ i ∈ ([.exit g0, .exit gNone, .cancel g0, .cancel gNone] : List Instr), two.Issues site2 i) ∧
    (∀ i ∈ two.liveTids 0, i ∈ (two.frag site2 g0).map Env.tid) ∧ two.frag site2 g0 ≠ [] ∧
    one.Issues site (.exit g0) ∧ ∃ i ∈ one.liveTids 0, i ∉ (one.frag site g0).map Env.tid :=
  ⟨all_issue (by decide), by decide, by decide, issues_of (by decide), 1, by decide⟩

theorem witness_IncumbentWords : (∀ i ∈ ([.incofr 15 (.x 126) (.k 62) none g0, .incrd 124 .both 15 g0, .incrd 126 .key 0 g0,
      .incwait 15 (.x 0) (some ⟨.rot, false, 6, 63⟩) g0, .bound 15 (.k 0) none g0, .boundNone gNone] : List Instr), two.Issues site2 i) ∧
    (two.launchOf (two.wg 0)).incDecl 15 = true ∧ (two.launchOf (two.wg 0)).incDecl 0 = true ∧ two.redoing 0 = false ∧
    (∀ e ∈ two.frag site2 g0, ∀ n < 16, two.incLags 0 e.tid n = false) :=
  ⟨all_issue (by decide), by decide, by decide, by decide, by decide⟩

theorem witness_SoftwareTraps : (∀ i ∈ ([.trap 0xFFFF g0, .trap 0 gNone, .brk 0xFFFF g0] : List Instr), two.Issues site2 i) ∧
    (∀ j ∈ site2.tids, (two.thr (thrKey 0 j)).handler = false) ∧
    two.haltd 0 = false :=
  ⟨all_issue (by decide), by decide, by decide⟩

theorem witness_ReturnFromTrap : handlers.Issues site2 (.rte true g0) ∧ handlers.inHandler site2 = true ∧
    (∀ e ∈ handlers.frag site2 g0, (handlers.thr (thrKey 0 e.tid)).trap.pc.toNat % 8 = 0) ∧
    (∀ e ∈ handlers.frag site2 g0, (handlers.thr (thrKey 0 e.tid)).pre = .none) ∧
    two.Issues site2 (.rte false g0) ∧ two.inHandler site2 = false :=
  ⟨issues_of (by decide), by decide, by decide, by decide, issues_of (by decide), by decide⟩

/-- 10_trap_state R183: a debug value still owed governs, and SRD reads the register; it is gone after its I-cycles. -/
theorem test_debug_write_in_force : let k : Core := { dbgctl := 0xE, watchLo := 5, dbgOld := [⟨0x18, 0, 1⟩, ⟨0x18, 4, 2⟩, ⟨0x1D, 7, 1⟩] }
    k.inForce 0x18 = 0 ∧ k.dbgReg 0x18 = 0xE ∧ k.inForce 0x1D = 7 ∧ k.inForce 0x1E = 0 ∧
      ({ k with dbgOld := ageDbg k.dbgOld }).inForce 0x18 = 4 ∧ ({ k with dbgOld := ageDbg k.dbgOld }).inForce 0x1D = 5 ∧
      ageDbg (ageDbg k.dbgOld) = [] := by decide

/-- The place of an element, as the machine resolves it. -/
def placeIn (s : State) (c : Site) (e : Env) (x : Elem) : Place :=
  match (s.resolve c.wg e.tid x.addr x.size x.kind.want).1 with
  | .ok p => p
  | .refuse _ _ => default
  | .absent _ => default

/-- The conditions of `State.MayAccess` at those places, to be evaluated. -/
def mayAccess (s : State) (c : Site) (fr : Frag) (o : MO) (els : Env → List Elem) : Bool :=
  !s.redoing c.wg && fr.all fun e => (s.thr (thrKey c.wg e.tid)).live && s.orderOk (thrKey c.wg e.tid) o && (els e).all fun x =>
    x.addr.toNat % x.size == 0 && sameAlloc ((els e).headD default).addr x.addr &&
      decide (s.resolve c.wg e.tid x.addr x.size x.kind.want = (.ok (placeIn s c e x), s)) && !(placeIn s c e x).void &&
      s.poisonOf (thrKey c.wg e.tid) ((s.wg c.wg).core / 160) x (placeIn s c e x) == none && !s.keptBack (thrKey c.wg e.tid) x (placeIn s c e x)

theorem mayAccess_of {s : State} {c : Site} {fr : Frag} {o : MO} {els : Env → List Elem} (h : mayAccess s c fr o els = true) :
    s.MayAccess c fr o els (placeIn s c) := by
  simp only [mayAccess, Bool.and_eq_true, Bool.not_eq_true', List.all_eq_true, beq_iff_eq, decide_eq_true_eq] at h
  exact ⟨fun e he => (h.2 e he).1.1, fun e he => (h.2 e he).1.2,
    fun e he x hx => let k := (h.2 e he).2 x hx; ⟨k.1.1.1.1.1, k.1.1.1.1.2, k.1.1.1.2, k.1.1.2, k.1.2⟩,
    fun e he x hx => ((h.2 e he).2 x hx).2, h.1⟩

/-- The word issues and its elements may be accessed, all in package memory or all in scratchpad, aligned. -/
def accesses (s : State) (c : Site) (g : Guard) (o : MO) (scr : Bool) (i : Instr) (els : Env → List Elem) : Bool :=
  issues s c i && mayAccess s c (s.frag c g) o els && (s.frag c g).all fun e => (els e).all fun x =>
    isScratch (placeIn s c e x).loc == scr && (placeIn s c e x).loc % x.size == 0

/-- Both threads with a base register pair x2 and values to store; `a` and `b` are the bases. -/
def based (a b : W64) : State := (two.modThr 0 fun t =>
    { t with x := (t.x.set 2 (a.setWidth 32)).set 3 ((a >>> 32).setWidth 32) |>.set 6 0xAABBCCDD |>.set 7 0x80000001, scPlaced := true }).modThr 1
  fun t => { t with x := (t.x.set 2 (b.setWidth 32)).set 3 ((b >>> 32).setWidth 32) |>.set 6 0x11223344, scPlaced := true }

/-- Bases in the page at 0x20000. -/
def far : State := based 0x20000 0x20000

/-- Bases in SCRATCH. -/
def near : State := based 0xFFFF000000001000 0xFFFF000000001040

/-- The address x2 with offset `n`. -/
def at2 (n : BitVec 12) : MAddr := ⟨.x 2, n, g0⟩

theorem witness_PackageAccessesIssue : (
    accesses far site2 g0 ⟨.sc, .pod⟩ false (.ld (.x 126) (at2 0xFFF) ⟨.w64, true⟩ ⟨.sc, .pod⟩)
      (fun e => [{ kind := .load, addr := mAddr e (at2 0xFFF) 8, size := 8, ret := .x 126 ⟨.w64, true⟩ }]) &&
    accesses far site2 g0 ⟨.rlx, .lane⟩ false (.ld (.k 63) (at2 0x7FF) ⟨.w32, false⟩ ⟨.rlx, .lane⟩)
      (fun e => [{ kind := .load, addr := mAddr e (at2 0x7FF) 4, size := 4, ret := if e.tid == 0 then .k 63 else .none }]) &&
    accesses far site2 g0 ⟨.rel, .quad⟩ false (.st (at2 0x800) (.x 6) .w8 ⟨.rel, .quad⟩)
      (fun e => [{ kind := .store, addr := mAddr e (at2 0x800) 1, size := 1, data := BitVec.ofNat 64 (readOp .w8 e (.x 6)) }]) &&
    accesses far site2 g0 ⟨.acq, .core⟩ false (.ldv 120 (at2 0x7F8) ⟨.w16, true⟩ .x8 ⟨.acq, .core⟩)
      (ldvElems 120 (at2 0x7F8) ⟨.w16, true⟩ .x8) &&
    accesses far site2 g0 ⟨.rlx, .lane⟩ false (.stv (at2 0x7F8) 112 .w64 .x8 ⟨.rlx, .lane⟩) (stvElems (at2 0x7F8) 112 .w64 .x8) &&
    accesses far site2 g0 ⟨.ar, .die⟩ false (.atom .min 126 (at2 0) (.k 62) .w64 true ⟨.ar, .die⟩)
      (atomElems .min 126 (at2 0) (.k 62) .w64 true) &&
    accesses far site2 g0 ⟨.rlx, .lane⟩ false (.acas 127 (at2 0x800) (.imm 31) .w32 ⟨.rlx, .lane⟩)
      (acasElems 127 (at2 0x800) (.imm 31) .w32) &&
    accesses far site2 g0 ⟨.acq, .pkg⟩ false (.ldfe 126 (at2 0x7FF) ⟨.acq, .pkg⟩) (ldfeElems 126 (at2 0x7FF)) &&
    accesses far site2 g0 ⟨.rel, .lane⟩ false (.stfe (at2 0x7FF) (.k 62) ⟨.rel, .lane⟩) (stfeElems (at2 0x7FF) (.k 62)) &&
    accesses far site2 g0 ⟨.rlx, .lane⟩ false (.fetagRead 127 (at2 0) ⟨.rlx, .lane⟩) (tagElems .tagRead (at2 0) (.x 127 ⟨.w32, false⟩)) &&
    accesses far site2 g0 ⟨.rlx, .lane⟩ false (.fetagFill (at2 0) ⟨.rlx, .lane⟩) (tagElems .tagFill (at2 0) .none) &&
    accesses far site2 g0 ⟨.rlx, .lane⟩ false (.fetagEmpty (at2 0) ⟨.rlx, .lane⟩) (tagElems .tagEmpty (at2 0) .none)) = true ∧
    (∀ e ∈ far.frag site2 g0, ∀ x ∈ ldfeElems 126 (at2 0x7FF) e ++ ldvElems 120 (at2 0x7F8) ⟨.w16, true⟩ .x8 e, x.kind.clockedAtIssue = false) := by decide

theorem witness_ScratchLoadsRead : (
    accesses near site2 g0 ⟨.rlx, .lane⟩ true (.ld (.x 127) (at2 0) ⟨.w8, true⟩ ⟨.rlx, .lane⟩)
      (fun e => [{ kind := .load, addr := mAddr e (at2 0) 1, size := 1, ret := .x 127 ⟨.w8, true⟩ }]) &&
    accesses near site2 g0 ⟨.sc, .pod⟩ true (.ldv 112 (at2 0xE00) ⟨.w64, false⟩ .x8 ⟨.sc, .pod⟩)
      (ldvElems 112 (at2 0xE00) ⟨.w64, false⟩ .x8)) = true := by decide

theorem witness_ScratchStoresWrite : (
    accesses near site2 g0 ⟨.sc, .core⟩ true (.st (at2 0) (.x 6) .w64 ⟨.sc, .core⟩)
      (fun e => [{ kind := .store, addr := mAddr e (at2 0) 8, size := 8, data := BitVec.ofNat 64 (readOp .w64 e (.x 6)) }]) &&
    accesses near site2 g0 ⟨.rlx, .lane⟩ true (.stv (at2 0xE00) 112 .w64 .x8 ⟨.rlx, .lane⟩)
      (stvElems (at2 0xE00) 112 .w64 .x8)) = true ∧ near.MemOk := ⟨by decide, rfl⟩

theorem witness_FencesPass : (∀ i ∈ ([.fence ⟨.rel, .pod⟩ g0, .fence ⟨.acq, .lane⟩ g0, .fence ⟨.sc, .pod⟩ g0, .pref ⟨.k 62, 0x800, g0⟩] : List Instr),
      far.Issues site2 i) ∧
    ∀ o ∈ ([⟨.rel, .pod⟩, ⟨.acq, .lane⟩, ⟨.sc, .pod⟩] : List MO), ∀ e ∈ far.frag site2 g0, far.orderOk (thrKey 0 e.tid) o = true :=
  ⟨all_issue (by decide), by decide⟩

/-- The four memory halves beside a move, whose guard holds in neither thread for one of them. -/
theorem witness_PairAccesses : ([(⟨.ldB32, 127, .x 2, g0, none⟩, ⟨.mov, 4, .k 63, gNone, none⟩), (⟨.stB32, 6, .x 2, gNone, none⟩, ⟨.mov, 5, .k 63, g0, none⟩),
      (⟨.mov, 127, .imm 31, g0, none⟩, ⟨.ldB64, 124, .x 2, g0, none⟩), (⟨.mov, 4, .imm 16, g0, none⟩, ⟨.stB64, 8, .x 2, g0, none⟩)] : List (Half × Half)).all
    (fun p => issues far site2 (mkPair p.1 p.2) &&
      let fr := (site2.tids.map (far.env 0)).filter fun e => e.guarded p.1.args.g || e.guarded p.2.args.g
      let els := fun (e : Env) => (if e.guarded p.1.args.g then halfElems p.1 e else []) ++ (if e.guarded p.2.args.g then halfElems p.2 e else [])
      mayAccess far site2 fr ⟨.rlx, .lane⟩ els && fr.all fun e => (els e).all fun x => !isScratch (placeIn far site2 e x).loc) = true := by decide

/-- The bytes resolve without a walk, to a place that is backed. -/
def finds (s : State) (wk tid : Nat) (a : W64) (n : Nat) (want : Want) : Bool :=
  match s.resolve wk tid a n want with
  | (.ok p, t) => decide (t = s) && !p.void
  | _ => false

theorem finds_of {s : State} {wk tid : Nat} {a : W64} {n : Nat} {want : Want} (h : finds s wk tid a n want = true) :
    ∃ p, s.resolve wk tid a n want = (.ok p, s) ∧ p.void = false := by
  unfold finds at h
  split at h
  · next p t heq => simp at h; exact ⟨p, by rw [heq, h.1], h.2⟩
  · cases h

/-- The bytes resolve to a place of the thread's own. -/
def owns (s : State) (wk tid : Nat) (a : W64) (n : Nat) (want : Want) : Bool :=
  match s.resolve wk tid a n want with
  | (.ok p, _) => p.own
  | _ => false

theorem owns_of {s : State} {wk tid : Nat} {a : W64} {n : Nat} {want : Want} (h : owns s wk tid a n want = true) :
    ∃ p t, s.resolve wk tid a n want = (.ok p, t) ∧ p.own = true := by
  unfold owns at h
  split at h
  · next p t heq => exact ⟨p, t, heq, h⟩
  · cases h

/-- The last core of a forwarding chain, to which the workgroup is moved. -/
def lastCore : State := { two.modWg 0 (fun w => { w with core := 156 }) with cur := some { site2 with core := 156 } }

/-- Channel 3 of core 0 holds a message of another launch before one of this one. -/
def heard : State := two.modCore 0 fun k =>
  { k with fwd := k.fwd.set 3 [{ launchid := 9, wide := false, elems := List.replicate 32 1 }, { launchid := 0, wide := true, elems := List.replicate 32 2 }] }

/-- Threads in lanes 32 and 63. -/
def highLanes : State := (two.modThr 0 fun t => { t with lane := 32 }).modThr 1 fun t => { t with lane := 63 }

theorem witness_ForwardingWords :
    (highLanes.Issues site2 (.fwds (.x 126) none g0 .w64 3 1) ∧ highLanes.frag site2 g0 ≠ [] ∧ successor 0 = some 1 ∧
      highLanes.chanFree 1 3 = true) ∧
    (lastCore.Issues { site2 with core := 156 } (.fwds (.x 126) none g0 .w64 3 1) ∧ successor 156 = none ∧
      ∀ j ∈ site2.tids, (lastCore.thr j).handler = false) ∧
    heard.Issues site2 (.fwdr 126 g0 .w64 3 1) ∧ heard.frag site2 g0 ≠ [] ∧
      (heard.core 0).fwd.getD 3 [] = [⟨9, false, List.replicate 32 1⟩] ++ ⟨0, true, List.replicate 32 2⟩ :: [] ∧ (heard.core 0).fwd.length = 4 :=
  ⟨⟨issues_of (by decide), by decide, by decide, by decide⟩, ⟨issues_of (by decide), by decide, by decide⟩, issues_of (by decide),
    by decide, by decide, by decide⟩

/-- A tile descriptor (21_tables R317: KIND, W, FMT, STEPS, ROLE; BASE 0, 128 rows and columns). -/
def td (kind w fmt steps role : Nat) : W64 :=
  BitVec.ofNat 64 (kind + 2 ^ 13 * w + 2 ^ 18 * fmt + 2 ^ 22 * 127 + 2 ^ 29 * 127 + 2 ^ 36 * (steps - 1) + 2 ^ 41 * role)

/-- Cores 0 and 1 hold two members of one gang; 15 entries stand in the plane queue of each, the last of core 0 a follower's half of this
I-cycle; x2 is the base of SCRATCH and x5 asks for 128 rows from row 0. -/
def planes : State :=
  let pq := (List.range 14).map fun i => ({ id := 100 + i, kind := .accz, mask := 1 } : PlaneOp)
  let half : PlaneOp := { id := 90, kind := .accz, mask := 2, role := 2, wg := 1 }
  let s : State := (two.modGang 0 fun g => { g with members := [0, 1] }).modCore 0 fun k =>
    { k with pq := pq ++ [half], td := [td 1 2 0 32 0, td 1 2 0 32 1, td 4 0 2 1 0, td 2 4 0 16 0, td 4 0 8 1 0, td 3 0 0 32 1] ++ List.replicate 10 0 }
  let s : State := s.modCore 1 fun k => { k with pq := pq ++ [half] }
  let s : State := { s with wgs := s.wgs ++ [(1, { core := 1, size := 2, nregs := 128, member := 1, scrSize := 0x20000 })] }
  s.modThr 0 fun t => { t with x := t.x.set 3 0xFFFF0000 |>.set 5 0x7F00 }

theorem witness_PlaneOperationsQueue :
    (∃ e r, planes.frag site2 g0 = e :: r) ∧ (planes.launchOf (planes.wg 0)).plane = true ∧ (planes.core 0).pq.length = 15 ∧
    planes.follower site2 = some 1 ∧ (planes.core 1).pq.length = 15 ∧
    (∀ i ∈ ([.plane 0 2 31 g0, .align 3 4 15 g0, .mma 7 0 1 true g0, .mmac 0 0 5 false g0, .accz 0x80 true g0, .accst 7 ⟨.x 2, 0, g0⟩ 5] : List Instr),
      planes.Issues site2 i) ∧
    (tdKind (planes.slot site2 0) = 1 ∧ tdKind (planes.slot site2 2) = 4 ∧ tdFmt (planes.slot site2 2) = 2 ∧ tdSteps (planes.slot site2 0) = 32) ∧
    (tdKind (planes.slot site2 3) = 2 ∧ tdFmt (planes.slot site2 4) = 8 ∧ tdSteps (planes.slot site2 3) = 16) ∧
    (tdRole (planes.slot site2 0) = 0 ∧ tdRole (planes.slot site2 1) = 1 ∧ tdSteps (planes.slot site2 1) = 32) ∧
    (tdKind (planes.slot site2 5) = 3 ∧ tdRole (planes.slot site2 5) = 1 ∧ tdSteps (planes.slot site2 5) = 32) ∧
    (∃ p s', planes.resolve 0 0 0xFFFF000000000000 (1024 * 128) { w := true } = (.ok p, s') ∧ p.own = true) :=
  ⟨⟨_, _, by rfl⟩, by decide, by decide, by decide, by decide, all_issue (by decide), by decide, by decide, by decide, by decide,
    owns_of (by decide)⟩

/-- The plane queue writes accumulator 0 only; register pair x2 of thread 0 holds a descriptor of the whole scratchpad. -/
def tiles : State := (two.modCore 0 fun k => { k with pq := [{ id := 7, kind := .mma, acc := 0 }] }).modThr 0 fun t =>
  { t with x := (t.x.set 2 ((td 1 2 0 32 0).setWidth 32)).set 3 ((td 1 2 0 32 0 >>> 32).setWidth 32) |>.set 9 0x8000 }

theorem witness_PlaneWordsAct :
    ((tiles.launchOf (tiles.wg 0)).plane = true ∧ tiles.Issues site2 (.tdesc 15 2 g0) ∧ (∃ e r, tiles.frag site2 g0 = e :: r ∧
        tdOk (e.xy 2) (tiles.wg 0).scrSize = true ∧ tdKind (e.xy 4) = 0) ∧ tiles.Issues site2 (.tdesc 0 4 g0)) ∧
    (two.Issues site2 (.accrd 126 7 (.imm 31) none g0) ∧ (two.core 0).pq = []) ∧
    (tiles.Issues site2 (.accrd 126 7 (.imm 0) none g0) ∧ (∀ o ∈ (tiles.core 0).pq, o.writesAcc 7 = false) ∧
      (tiles.core 0).apoi.getLsbD 7 = false ∧ (tiles.core 0).oneAcc.getLsbD 7 = false) ∧
    (∀ i ∈ ([.mmawait 0 g0, .mmawait 0xFF g0, .mmawait 0x80 gNone] : List Instr), tiles.Issues site2 i) ∧
    far.Issues site2 (.cbload ⟨.x 2, 0x000, g0⟩) ∧ (∃ e r, far.frag site2 g0 = e :: r ∧ e.tid = 0) ∧ sameAlloc 0x20000 0x20100 = true ∧
    (∃ p, far.resolve 0 0 0x20000 256 { r := true } = (.ok p, far) ∧ p.void = false) ∧
    (∃ q, far.resolve 0 0 0x20100 256 { r := true } = (.ok q, far) ∧ q.void = false) ∧ (far.core 0).pq.length < 16 :=
  ⟨⟨by decide, issues_of (by decide), ⟨_, _, rfl, by decide, by decide⟩, issues_of (by decide)⟩, ⟨issues_of (by decide), by decide⟩,
    ⟨issues_of (by decide), by decide, by decide, by decide⟩, all_issue (by decide), issues_of (by decide), ⟨_, _, rfl, rfl⟩, by decide, finds_of (by decide),
    finds_of (by decide), by decide⟩

/-- `s` with the words `l` from byte address `a` on. -/
def holding (s : State) (a : Nat) (l : List W64) : State := { s with mem := l.zipIdx.foldl (fun m p => writeWord m (a / 8 + p.2) p.1) s.mem }

/-- The k pair k4 names a record at 0x20000 that acquires and uses channel 7; 15 commands stand there and 3 in the loop sequencer. -/
def engine : State := (holding (two.modWg 0 fun w => { w with k := w.k.set 4 0x20000 }) 0x20000 [0x0000000700010000]).modCore 0 fun k =>
  { k with chans := k.chans.set 7 (List.range 15), loops := [20, 21, 22] }

theorem witness_EngineCommandsIssue :
    (∀ i ∈ ([.tcopy ⟨127, 4, 0, g0⟩, .tgather ⟨127, 4, 0, g0⟩, .cavred ⟨127, 4, 0, g0⟩, .loopnest ⟨0, 4, 0, g0⟩, .send ⟨127, 4, 0, g0⟩,
        .search ⟨127, 4, 0, g0⟩, .hspub ⟨127, 4, 0, g0⟩] : List Instr), engine.Issues site2 i) ∧
    (∃ p r, engine.frag site2 g0 = p :: r ∧ (p.ky 4).toNat = 0x20000 ∧ p.tid = 0) ∧ engine.quiet 0 = true ∧
    (∃ p, engine.resolve 0 0 0x20000 128 { r := true } = (.ok p, engine) ∧ p.void = false) ∧
    (∀ j < 128, engine.isPoisoned (0x20000 + j) 1 = false) ∧
    (∃ p, (engine.spoil 0).resolve 0 0 0x20008 8 { w := true } = (.ok p, engine.spoil 0) ∧ p.void = false) ∧
    ((engine.core 0).chans.getD 7 []).length = 15 ∧ (engine.core 0).loops.length = 3 :=
  ⟨all_issue (by decide), ⟨_, _, rfl, by decide, by decide⟩, by decide, finds_of (by decide), by decide, finds_of (by decide), by decide, by decide⟩

/-- Thread 0 alone, its base x2 at a record of 64 bytes whose ENTRY is 0x10000; the deque region of one entry lies behind SCRATCH. -/
def spawner : State := { (holding far 0x20000 [0x10000, 0, 0, 0x20008]).modCore 0 (fun k => { k with dqbase := 0x20000, dqlimit := 0x20080 }) with
  cur := some site }

theorem witness_SpawnAppends : spawner.Issues site (.spawn 127 (at2 0) ⟨.rel, .pod⟩) ∧
    (∃ e, spawner.frag site g0 = [e] ∧ e.tid = 0 ∧ (readBase e (.x 2)).toNat = 0x20000) ∧ spawner.orderOk 0 ⟨.rel, .pod⟩ = true ∧
    spawner.quiet 0 = true ∧ (∃ p, spawner.resolve 0 0 0x20000 64 { r := true } = (.ok p, spawner) ∧ p.void = false) ∧
    (∀ j < 64, spawner.isPoisoned (0x20000 + j) 1 = false) ∧ (spawner.core 0).dqRoom = some 1 ∧ spawner.mayServe 0 = true ∧ spawner.MemOk :=
  ⟨issues_of (by decide), ⟨_, rfl, rfl, by decide⟩, by decide, by decide, finds_of (by decide), by decide, by decide, by decide, by rfl⟩

/-- x2 names the last place of SCRATCH at which a ring of 64 KiB fits, x5 its size, x6 a size that no ring has. -/
def ringer : State := two.modThr 0 fun t => { t with x := t.x.set 2 0x0000FF00 |>.set 3 0xFFFF0000 |>.set 5 0x10000 |>.set 6 512 |>.set 7 0x101 }

theorem witness_RingsetSets :
    (∀ i ∈ ([.ringset 127 (at2 0) 5 3, .ringset 127 (at2 0) 4 0, .ringset 127 (at2 0) 7 3] : List Instr), ringer.Issues site2 i) ∧
    ∃ e r, ringer.frag site2 g0 = e :: r ∧ (readBase e (.x 2)).toNat = 0xFFFF00000000FF00 ∧ (e.xr 5).toNat = 65536 ∧ (e.xr 4).toNat = 0 ∧
      (e.xr 7).toNat = 257 ∧ 0xFF00 < (ringer.wg 0).scrSize ∧ 0xFF00 + 65536 + 16 ≤ (ringer.wg 0).scrSize :=
  ⟨all_issue (by decide), _, _, rfl, by decide, by decide, by decide, by decide, by decide, by decide⟩

/-- Ring 3 of four slots at offset 0x1000, with `count` messages from HEAD 2^64 - 1 on. -/
def ringed (count : W64) : State :=
  { (holding two (locScratch 0 0 0x1100) [count - 1, -1]).modCore 0 fun k =>
      { k with rings := [{ launchid := 0, wgid := 0, n := 3, base := 0x1000, slots := 4 }] } with cur := some site }

theorem witness_ReceiveTakes : (∀ i ∈ ([.recvPoll 112 3 g0, .recvWait 112 3 g0] : List Instr), (ringed 4).Issues site i ∧ (ringed 0).Issues site i) ∧
    (∀ s ∈ [ringed 4, ringed 0], (∃ e, s.frag site g0 = [e] ∧ e.tid = 0) ∧ s.unsettled 0 = false ∧ s.MemOk ∧
      s.ring 0 (s.wg 0).launchid (s.wg 0).wgid 3 = some { launchid := 0, wgid := 0, n := 3, base := 0x1000, slots := 4 } ∧
      s.ringWaiters 0 3 = [] ∧ locScratch 0 0 0x1100 % 16 = 0 ∧ isScratch (locScratch 0 0 0x1100 + 8) = true) ∧
    (readWord (ringed 4).mem (locScratch 0 0 0x1100 / 8)) - (readWord (ringed 4).mem (locScratch 0 0 0x1100 / 8 + 1)) = 4 ∧
    (readWord (ringed 0).mem (locScratch 0 0 0x1100 / 8)) - (readWord (ringed 0).mem (locScratch 0 0 0x1100 / 8 + 1)) = 0 := by
  refine ⟨?_, ?_, by decide, by decide⟩
  · intro i hi; exact ⟨all_issue (l := [.recvPoll 112 3 g0, .recvWait 112 3 g0]) (by decide) i hi,
      all_issue (l := [.recvPoll 112 3 g0, .recvWait 112 3 g0]) (by decide) i hi⟩
  · intro s hs
    simp only [List.mem_cons, List.not_mem_nil, or_false] at hs
    obtain rfl | rfl := hs <;> exact ⟨⟨_, rfl, rfl⟩, by decide, by rfl, by decide, by decide, by decide, by decide⟩

theorem witness_BarrierArrivals :
    (∀ i ∈ ([.bar 127 .pod 15 g0, .bar 0 .core 0 g0, .baro 127 .quad 15 g0, .baro 0 .pod 0 g0] : List Instr), two.Issues site2 i) ∧
    (two.wg 0).wgid.toNat < 2 ^ 31 ∧ two.frag site2 g0 ≠ [] ∧
    (∀ p ∈ ([(.pod, 15), (.core, 0), (.quad, 15), (.pod, 0)] : List (Scope × Nat)), two.wgArrived 0 p.1 p.2 = false ∧
      ∀ e ∈ two.frag site2 g0, two.hasFlag 0 e.tid p.1 p.2 = false ∧ two.relDone (thrKey 0 e.tid) p.1 = true) ∧
    (two.launchOf (two.wg 0)).podn = 0 :=
  ⟨all_issue (by decide), by decide, by decide, by decide, by decide⟩

theorem witness_WaitsAndCounters :
    (∀ i ∈ ([.barw (.x 127) .pkg 15 g0, .barw (.imm 0) .core 0 gNone, .waitptr 7 (.k 62) g0, .waitptrTicket (.x 127) g0, .cntrd 126 7 none g0,
        .cntrd 126 8 none g0, .cntrd 126 9 none g0, .cntrd 126 0x1F (some .pod) g0, .cntrd 126 0x4C none g0] : List Instr),
      two.Issues site2 i) ∧ (two.wg 0).wgid.toNat < 2 ^ 31 ∧ two.frag site2 g0 ≠ [] :=
  ⟨all_issue (by decide), by decide, by decide⟩

/-- Bases and record addresses at odd places, in a launch that declares no incumbent. -/
def crooked : State := { (based 0x20001 0x20FFF).modWg 0 (fun w => { w with k := w.k.set 4 0x20040 }) with
  ctxs := [(0, { launch := { launch0 with incdecl := 0 } })] }

theorem witness_RefusedWordsTrap :
    (∀ i ∈ ([.ret (.x 2) g0, .jmpi (.x 2) g0, .jmpiLink 126 (.x 2) g0, .incofr 15 (.x 0) (.x 2) none g0, .incrd 0 .pay 15 g0, .incwait 0 (.x 0) none g0,
        .bound 15 (.x 0) none g0, .ld (.x 0) (at2 0) ⟨.w16, true⟩ ⟨.rlx, .lane⟩, .st (at2 0x800) (.x 6) .w32 ⟨.rel, .pod⟩,
        .atom .add 0 (at2 0) (.x 6) .w32 false ⟨.ar, .die⟩, .acas 0 (at2 0x7FF) (.x 6) .w64 ⟨.rlx, .lane⟩, .ldfe 0 (at2 0) ⟨.rlx, .lane⟩,
        .stfe (at2 0) (.x 6) ⟨.rlx, .lane⟩, .fetagRead 0 (at2 0) ⟨.acq, .core⟩, .fetagFill (at2 0) ⟨.rlx, .lane⟩, .fetagEmpty (at2 0) ⟨.rlx, .lane⟩,
        .tcopy ⟨0, 4, 0, g0⟩, .tgather ⟨0, 4, 0, g0⟩, .cavred ⟨0, 4, 0, g0⟩, .loopnest ⟨0, 4, 0, g0⟩, .send ⟨0, 4, 0, g0⟩, .search ⟨0, 4, 0, g0⟩,
        .hspub ⟨0, 4, 0, g0⟩, .mma 0 15 0 true g0, .mmac 7 0 0 false g0] : List Instr), crooked.Issues site2 i) ∧
    (∀ j ∈ site2.tids, (crooked.thr (thrKey 0 j)).handler = false) ∧
    (∀ e ∈ crooked.frag site2 g0, (readBase e (.x 2)).toNat % 8 ≠ 0) ∧
    (∀ n < 16, (crooked.launchOf (crooked.wg 0)).incDecl n = false) ∧
    (∀ o ∈ ([⟨.rlx, .lane⟩, ⟨.rel, .pod⟩, ⟨.ar, .die⟩, ⟨.acq, .core⟩] : List MO), ∀ e ∈ crooked.frag site2 g0, crooked.orderOk (thrKey 0 e.tid) o = true) ∧
    (∀ p ∈ ([(0, 2), (0x800, 4), (0, 4), (0x7FF, 8), (0, 8)] : List (BitVec 12 × Nat)), ∀ e ∈ crooked.frag site2 g0, (mAddr e (at2 p.1) p.2).toNat % p.2 ≠ 0) ∧
    (∃ p r, crooked.frag site2 g0 = p :: r ∧ (p.ky 4).toNat % 128 ≠ 0) ∧ (crooked.launchOf (crooked.wg 0)).plane = true ∧
    (∀ n : BitVec 4, tdKind (crooked.slot site2 n) ∉ [1, 2]) ∧
    -- and words that are not legal: on their own bits, and in a kernel with 16 registers
    ((∀ i ∈ ([.nop ⟨true, 0⟩, .shield 17 g0] : List Instr), isEvent i = false ∧ two.wordOk site2 i = false) ∧
      (two.modWg 0 fun w => { w with nregs := 16 }).wordOk site2 (.mov (.x 16) (.x 0) none g0 ⟨.w32, false⟩) = false ∧ site2.tids.Nodup ∧
      ∀ j ∈ site2.tids, (two.thr (thrKey 0 j)).handler = false) :=
  ⟨all_issue (by decide), by decide, by decide, by decide, by decide, by decide, ⟨_, _, rfl, by decide⟩, by decide, by decide,
    by decide, by decide, by decide, by decide⟩

/-- The launch has debug rights. -/
def debugged : State := { two with ctxs := [(0, { launch := { launch0 with debug := true } })] }

theorem witness_SystemRegisterReads : (
    ((List.range 10 ++ [0x0A, 0x0B, 0x0D, 0x11, 0x13, 0x18, 0x20, 0x21, 0x22, 0x28, 0x29]).all fun n => issues two site2 (.srd 127 .w32 (BitVec.ofNat 8 n) g0)) &&
    ([0x0C, 0x0E, 0x0F, 0x10, 0x12, 0x14, 0x15, 0x19, 0x1A, 0x1B, 0x1C, 0x1D, 0x1E, 0x23, 0x24].all fun n =>
      issues two site2 (.srd 126 .w64 (BitVec.ofNat 8 n) g0))) = true := by decide

/-- A deque region behind SCRATCH, and a record in the deque. -/
def deques : State := two.modCore 0 fun k => { k with dqbase := 0x30000, dqlimit := 0x3C000, deque := [default] }

theorem witness_SystemRegisterWrites :
    ([0x0A, 0x0B, 0x0D, 0x11].all fun n => issues handlers site2 (.swr (.x 127) .w32 (BitVec.ofNat 8 n) g0)) = true ∧
    ([0x0C, 0x0E, 0x0F, 0x10, 0x12].all fun n => issues handlers site2 (.swr (.x 126) .w64 (BitVec.ofNat 8 n) g0)) = true ∧
    handlers.inHandler site2 = true ∧ two.Issues site2 (.swr (.imm 31) .w32 0x0A g0) ∧
    issues debugged site2 (.swr (.x 127) .w32 0x18 g0) = true ∧
    ([0x19, 0x1A, 0x1B, 0x1C, 0x1D, 0x1E].all fun n => issues debugged site2 (.swr (.x 126) .w64 (BitVec.ofNat 8 n) g0)) = true ∧
    (debugged.launchOf (debugged.wg 0)).debug = true ∧ (∃ e r, debugged.frag site2 g0 = e :: r) ∧
    (two.Issues site2 (.swr (.x 126) .w32 0x28 g0) ∧ (two.core 0).deque = [] ∧ two.dqRegion 0 0 0 = true) ∧
    (two.Issues site2 (.swr (.imm 0) .w32 0x29 g0)) ∧ (deques.Issues site2 (.swr (.x 0) .w32 0x29 g0) ∧ (deques.core 0).deque ≠ []) ∧
    (∀ i ∈ ([.swr (.x 0) .w32 0x0B g0, .swr (.x 0) .w64 0x12 g0, .swr (.x 0) .w32 0x18 g0, .swr (.x 0) .w64 0x1E g0] : List Instr), two.Issues site2 i) ∧
    two.inHandler site2 = false ∧ (two.launchOf (two.wg 0)).debug = false :=
  ⟨by decide, by decide, by decide, issues_of (by decide), by decide, by decide, by decide, ⟨_, _, rfl⟩, ⟨issues_of (by decide), by decide, by decide⟩,
    issues_of (by decide), ⟨issues_of (by decide), by decide⟩, all_issue (by decide), by decide, by decide⟩

/-- Function 0 has an event queue of 64 records at physical address 0x30000, its last but one place taken. -/
def evented : State := { (holding two (0x30000 + 32 * 64) [63, 0]) with fns := [(0, { eqbase := 0x30000, eqctl := 0x8000000000000000 })] }

theorem witness_EventRecordsPost : evented.MemOk ∧ (evented.fn 0).eqctl.getLsbD 63 = true ∧ 64 = 2 ^ ((evented.fn 0).eqctl.toNat % 32 + 6) ∧
    evented.devRead 0 (0x30000 + 32 * 64) 8 = 63 ∧ evented.devRead 0 (0x30000 + 32 * 64 + 8) 8 = 0 ∧
    evented.devLoc 0 (0x30000 + 32 * 63) = some (0x30000 + 32 * 63) ∧ evented.devLoc 0 (0x30000 + 32 * 64) = some (0x30000 + 32 * 64) :=
  ⟨by rfl, by decide, by decide, by decide, by decide, by decide, by decide⟩

theorem witness_SignalsAndHalts : (∀ i ∈ ([.event (.x 126) .w64 g0, .event (.imm 31) .w32 g0, .eventMbx (.imm 16) .w32 g0, .halt g0, .icflush .pkg gNone] : List Instr),
      debugged.Issues site2 i ∧ two.Issues site2 i) ∧ (∃ e r, two.frag site2 g0 = e :: r) ∧ debugged.frag site2 g0 ≠ [] ∧
    (debugged.launchOf (debugged.wg 0)).debug = true ∧ (two.launchOf (two.wg 0)).debug = false ∧ debugged.redoing 0 = false ∧
    (debugged.fn (fnKey 0 0)).mbctl.getLsbD 63 = false :=
  ⟨fun i hi => ⟨all_issue (l := [.event (.x 126) .w64 g0, .event (.imm 31) .w32 g0, .eventMbx (.imm 16) .w32 g0, .halt g0, .icflush .pkg gNone]) (by decide) i hi,
      all_issue (l := [.event (.x 126) .w64 g0, .event (.imm 31) .w32 g0, .eventMbx (.imm 16) .w32 g0, .halt g0, .icflush .pkg gNone]) (by decide) i hi⟩,
    ⟨_, _, rfl⟩, by decide, by decide, by decide, by decide, by decide⟩

theorem witness_TranslationsInvalidate : (∀ i ∈ ([.tlbinvPage (.x 2) .pkg g0, .tlbinvVf .die g0] : List Instr), far.Issues site2 i) ∧
    (∃ e r, far.frag site2 g0 = e :: r ∧ e.tid = 0) ∧ far.relDone 0 .die = true ∧ far.relDone 0 .pkg = true :=
  ⟨all_issue (by decide), ⟨_, _, rfl, rfl⟩, by decide, by decide⟩

/-- A function with link privilege; x1 asks for 12 wavelengths of fibre 15, x2 for 13 of it, x3 for 16 of fibre 47, x4 for one of fibre 48; wavelength 0
of fibre 47 has failed. -/
def lit : State := { (two.modThr 0 fun t => { t with x := t.x.set 1 0x0FFF000F |>.set 2 0x1FFF000F |>.set 3 0x7FFF002F |>.set 4 0x00010030 |>.set 5 0x0001002F }) with
  fns := [(0, { priv := 2 })], fibres := [(47, { failed := 1, active := 0xFFFE })] }

theorem witness_LightParksAndWakes :
    (∀ i ∈ ([.lpark 127 1 g0, .lpark 127 2 g0, .lpark 127 3 g0, .lpark 127 4 g0, .lwake 127 0 g0, .lwake 127 1 g0, .lwake 127 5 g0] : List Instr), lit.Issues site2 i) ∧
    (lit.fn (lit.fnOf (lit.wg 0))).priv.getLsbD 1 = true ∧ (lit.launchOf (lit.wg 0)).replayable = false ∧
    (∃ e r, lit.frag site2 g0 = e :: r ∧ (e.xr 1).toNat = 0x0FFF000F ∧ (e.xr 2).toNat = 0x1FFF000F ∧ (e.xr 3).toNat = 0x7FFF002F ∧
      (e.xr 4).toNat = 0x00010030 ∧ (e.xr 0).toNat = 0 ∧ (e.xr 5).toNat = 0x0001002F) ∧
    popMask ((lit.fibre 15).active &&& ~~~0x0FFF#16) = 4 ∧ popMask ((lit.fibre 15).active &&& ~~~0x1FFF#16) = 3 ∧ (lit.fibre 15).stalls = 0 ∧
    (lit.fibre 47).active &&& ~~~0x7FFF#16 ≠ 0 ∧ (0x0FFF#16 &&& ((lit.fibre 15).parked ||| (lit.fibre 15).failed)) = 0 ∧
    (1#16 &&& ((lit.fibre 47).parked ||| (lit.fibre 47).failed)) ≠ 0 ∧ (lit.fibre 47).wake = none :=
  ⟨all_issue (by decide), by decide, by decide, ⟨_, _, rfl, by decide⟩, by decide, by decide, by decide, by decide, by decide, by decide, by decide⟩

/-- The records of a SLOTSET can be read. -/
def reads (s : State) (c : Site) (tid : Nat) (a : W64) : Bool :=
  match s.readRec c tid a 64 with
  | .bytes h t => (match t.readRecs c tid (a + 64) (if 64 < fld h 0 2 then 0 else fld h 0 2) with | .bytes _ _ => true | _ => false)
  | _ => false

theorem reads_of {s : State} {c : Site} {tid : Nat} {a : W64} (h : reads s c tid a = true) :
    ∃ hdr s1 ents s2, s.readRec c tid a 64 = .bytes hdr s1 ∧ s1.readRecs c tid (a + 64) (if 64 < fld hdr 0 2 then 0 else fld hdr 0 2) = .bytes ents s2 := by
  unfold reads at h
  split at h
  · next b t heq =>
    split at h
    · next l u heq' => exact ⟨b, t, l, u, heq, heq'⟩
    · cases h
  · cases h

/-- A table of one slot of 1,000 ns with a guard of 900, to start at 1,000; and the least start allowed. -/
def slotted : State := { holding far 0x20000 ([1, 1000, 0, 0, 0, 0, 0, 0] ++ [1000 + 2 ^ 32 * 900]) with fns := [(0, { priv := 2 })] }

theorem witness_SlotTableStages : slotted.Issues site2 (.slotset 127 (at2 0)) ∧ (∃ e r, slotted.frag site2 g0 = e :: r ∧ e.tid = 0) ∧
    (slotted.fn (slotted.fnOf (slotted.wg 0))).priv.getLsbD 1 = true ∧ (slotted.launchOf (slotted.wg 0)).replayable = false ∧
    ∃ hdr s1 ents s2, slotted.readRec site2 0 0x20000 64 = .bytes hdr s1 ∧
      s1.readRecs site2 0 (0x20000 + 64) (if 64 < fld hdr 0 2 then 0 else fld hdr 0 2) = .bytes ents s2 :=
  ⟨issues_of (by decide), ⟨_, _, rfl, rfl⟩, by decide, by decide, reads_of (by decide)⟩

/-- An access of thread 0, in the upper half of the word at 0x20000. -/
def acc0 : Access := { id := 5, instr := 5, thr := 0, pkg := 0, core := 0, kind := .store, addr := 0x20004, loc := 0x20004, size := 4, data := 0xAABBCCDD }

/-- The machine with one access in flight. -/
def flying (a : Access) : State := { base with accs := [a] }

theorem witness_AccessesPerform :
    (∀ k ∈ ([.store, .load, .tagFill, .tagEmpty, .atom .max .w32 true] : List AKindM),
      let s := flying { acc0 with kind := k }
      let a : Access := { acc0 with kind := k }
      s.MemOk ∧ s.acc? 5 = some a ∧ a.unbacked = false ∧ a.performed = false ∧ a.done = false ∧ a.peer = false ∧ a.unc = false ∧
        s.mayStore a = true ∧ s.mayLoad a = true ∧ a.loc % 8 + a.size = 8 ∧ s.waiter (a.loc / 8) .ldfe = none ∧ s.waiter (a.loc / 8) .stfe = none) ∧
    (let a : Access := { acc0 with kind := .load, ret := .x 127 ⟨.w32, true⟩, served := some 0x80000000, flags := 1 }
     (flying a).MemOk ∧ (flying a).acc? 5 = some a ∧ a.cancelled = false ∧ a.dropLo = false ∧ a.dropHi = false ∧ (flying a).covered a = true) ∧
    (let a : Access := { acc0 with peer := true, served := some 0 }
     (flying a).MemOk ∧ (flying a).acc? 5 = some a ∧ a.performed = true ∧ a.kind.returns = false ∧ ∀ n ∈ (flying a).notices, n.acc ≠ 5) := by
  refine ⟨?_, ⟨by rfl, by decide⟩, by rfl, by decide⟩
  intro k hk
  simp only [List.mem_cons, List.not_mem_nil, or_false] at hk
  obtain rfl | rfl | rfl | rfl | rfl := hk <;> exact ⟨by rfl, by decide⟩

/-- A notice on its way to die 1 in its turn, and a thread before each of the two scoreboard waits. -/
def noted : State := { base with
  notices := [{ id := 9, acc := 5, pkg := 0, die := 1, word := 0x4000, value := 7, ver := 1, origin := some 0, vec := ⟨1, 0, 0, 0⟩ }]
  homeVer := [(0x4000, 2)]
  views := [(viewKey 1 0x4000, 6)]
  viewVer := [(viewKey 1 0x4000, 0)]
  threads := [(0, { thread 0 0 with hold := .scPre .pod }), (1, { thread 1 0 with hold := .icflush .core })] }

theorem witness_OrderEventsStep :
    (∃ n, noted.notices.find? (fun n => n.id == 9) = some n ∧ noted.canInstall n = true ∧ n.dupl = none ∧
      noted.heldVer (dieKey n.pkg n.die) n.word < n.ver ∧ n.ver ≠ tget 0 noted.homeVer n.word) ∧
    (base.MemOk ∧ ∀ i < 3, base.devLoc 0 (0x20006 + i) = some (0x20006 + i)) ∧
    ((noted.thr 0).hold = .scPre .pod ∧ noted.relDone 0 .pod = true) ∧ (noted.thr 1).hold = .icflush .core ∧ noted.flushOwes 1 .core = false :=
  ⟨⟨_, by rfl, by decide, by decide, by decide, by decide⟩, ⟨by rfl, by decide⟩, by decide, by decide, by decide⟩

/-- An access to a hole that thread 0 waits for. -/
def holed : State := { flying { acc0 with unbacked := true, addr := 0xFFFFFFFFFFF8 } with
  threads := [(0, { thread 0 0 with hold := .peer 5 }), (1, thread 1 0)] }

/-- Function 0 has page tables from 0x40000 on that map 0x30000. -/
def tabled : State := { holding (holding (holding (holding base 0x40000 [0x41001]) 0x41000 [0x42001]) 0x42000 [0x43001]) 0x43018 [0x3001F] with
  fns := [(0, { ptroot := 0x40000 })] }

/-- A launch whose threads have ended, with a wait for a tag. -/
def waiting : State := { flying { acc0 with kind := .ldfe, loc := 0x20000, size := 8, arrived := some 3 } with
  threads := [(0, { thread 0 0 with life := .exited }), (1, { thread 1 0 with life := .cancelled })] }

/-- Thread 0 parked at a load into x126 after a flush, thread 1 at a fetch. -/
def parked : State := { base with
  threads := [(0, { thread 0 0 with park := some { va := 0x20000, kind := .read, rewalk := true, word := 0x500FC04000000000, frag := [{ x := (List.replicate 128 0).set 2 0x20000 }] } }),
    (1, { thread 1 0 with park := some { va := 0x10000, kind := .fetch, rewalk := true } })] }

/-- A fault record in die 3, a fault buffer of two records of which the last before `tail` is not taken. -/
def faulted (gen : W32) (tail : W64) : State := { base with
  dies := [(3, { faults := [{ gen := gen, launchid := 5, va := 0x30000, core := 639, kind := .write, fn := 256 }] })]
  pkgs := [(0, { gen := 0xFFFFFFFF, fbbase := 0x50000, fbsize := 6, fbhead := -1, fbtail := tail, bootst := 6 })] }

theorem witness_FaultEventsAnswer :
    (∃ a, holed.acc? 5 = some a ∧ a.unbacked = true ∧ (holed.thr a.thr).live = true ∧ (holed.thr a.thr).hold = .peer 5 ∧ (holed.thr a.thr).handler = false) ∧
    ((tabled.core 0).utlb.find? (fun t => t.hits (fnKey 0 0) 0x3FFFF) = none ∧ (tabled.die 0).tlb.find? (fun t => t.hits (fnKey 0 0) 0x3FFFF) = none ∧
      tabled.walk 0 0 0x3FFFF = .leaf 0x3001F 16) ∧
    ((tfind waiting.ctxs (ctxKey 0 0)).isSome ∧ waiting.launchIdle 0 = true ∧ waiting.hasPlace 0 = false ∧ waiting.hasRecords 0 0 = false ∧
      (∀ c ∈ waiting.cmds, c.ctx ≠ 0) ∧ (waiting.tagWaits 0 0).length = 1) ∧
    (∃ q, (parked.thr 1).park = some q ∧ parked.mayReplay 1 = true ∧ q.frag = []) ∧
    (∃ q e, (parked.thr 0).park = some q ∧ parked.mayReplay 0 = true ∧ q.frag = [e] ∧ e.tid = 0 ∧ (parked.thr 0).claimed = [] ∧
      decode q.word = .ok (.ld (.x 126) (at2 0) ⟨.w32, false⟩ ⟨.rlx, .lane⟩) ∧
      mayAccess (parked.modThr 0 fun t => { t with park := none }) { site with word := q.word } [e] ⟨.rlx, .lane⟩
        (fun e => [{ kind := .load, addr := mAddr e (at2 0) 4, size := 4, ret := .x 126 ⟨.w32, false⟩ }]) = true) ∧
    (∃ r l, ((faulted 0 0).die 3).faults = r :: l ∧ r.gen ≠ ((faulted 0 0).pkg 0).gen) ∧
    (∀ tail ∈ [0, -1], let s := faulted 0xFFFFFFFF tail
      ∃ r l, (s.die 3).faults = r :: l ∧ r.gen = (s.pkg 0).gen ∧ s.MemOk ∧ (s.pkg 0).fbsize = 6 ∧
        ((s.pkg 0).fbtail - (s.pkg 0).fbhead).toNat = (if tail = 0 then 1 else 0) ∧
        s.devLoc 0 (0x50000 + 32 * (tail.toNat % 2)) = some (0x50000 + 32 * (tail.toNat % 2))) ∧
    (faulted 0 0).hostOpen 0 0 = true := by
  refine ⟨⟨_, by rfl, by decide⟩, by decide, by decide, ⟨_, by rfl, by decide, by decide⟩, ⟨_, _, by rfl, by decide, by rfl, by decide, by decide, by decide, by decide⟩,
    ⟨_, _, by rfl, by decide⟩, ?_, by decide⟩
  intro tail ht
  simp only [List.mem_cons, List.not_mem_nil, or_false] at ht
  obtain rfl | rfl := ht <;> exact ⟨_, _, by rfl, by decide, by rfl, by decide, by decide, by decide⟩

/-- Thread 0 in a wait, with what it waits for at its limits: the phase 0x7FFF after its token, a better key in the copy of incumbent 15, the
copy pointer at its bound. -/
def waits (w : Wait) : State := { base with
  threads := [(0, { thread 0 0 with wait := w }), (1, thread 1 0)]
  wgs := [(0, { base.wg 0 with bars := [(15, { phase := 0x7FFF })] })]
  cores := [(0, { utlb := [tlbAt 0x10000, tlbAt 0x20000], wptr := [0, 0, 0, 0, 0, 0, 0, 0x100], binds := [{ ctx := 0, incs := [(15, ⟨4, 9⟩)] }],
                  rings := [{ launchid := 0, wgid := 0, n := 3, base := 0x1000, slots := 4 }] })] }

/-- Thread 0 waits for ring 3, which is full. -/
def receiving : State := holding (waits (.recv 3 112 0 0x1100 (some 2))) (locScratch 0 0 0x1100) [3, -1]

theorem witness_WaitsEnd : (waits .none).wakes 0 = true ∧ 0 ∈ (waits .none).liveTids 0 ∧
    (((waits (.barw .core 15 0)).thr 0).wait = .barw .core 15 0 ∧ passed ((waits (.barw .core 15 0)).bar 0 .core 15).phase 0 = true) ∧
    (∃ v, ((waits (.incwait 15 5)).thr 0).wait = .incwait 15 5 ∧ tfind (bindIncs ((waits (.incwait 15 5)).core 0).binds 0) 15 = some v ∧
      better ((waits (.incwait 15 5)).launchOf ((waits (.incwait 15 5)).wg 0) |>.incMax 15) v.key 5 = true) ∧
    (((waits (.ptr 7 0x100)).thr 0).wait = .ptr 7 0x100 ∧ (0x100 : W64) ≤ ((waits (.ptr 7 0x100)).core 0).wptr.getD 7 0) ∧
    (((waits (.ticket 0xFFFFFFFF)).thr 0).wait = .ticket 0xFFFFFFFF ∧ (waits (.ticket 0xFFFFFFFF)).cmds = []) ∧
    ((receiving.thr 0).wait = .recv 3 112 0 0x1100 (some 2) ∧ receiving.tailAt (receiving.wg 0) 0x1100 = 3 ∧ receiving.wakes 0 = true ∧
      0 ∈ receiving.liveTids 0 ∧ (∀ p ∈ receiving.ringWaiters 0 3, 0 ≤ p.2) ∧ (receiving.thr 0).claimed = [] ∧
      receiving.ring 0 0 0 3 = some { launchid := 0, wgid := 0, n := 3, base := 0x1000, slots := 4 } ∧ receiving.MemOk ∧
      readWord receiving.mem (locScratch 0 0 0x1100 / 8) - readWord receiving.mem (locScratch 0 0 0x1100 / 8 + 1) = 4) :=
  ⟨by decide, by decide, by decide, ⟨⟨4, 9⟩, by decide⟩, by decide, by decide, by decide, by decide, by decide, by decide, by decide, by decide, by decide,
    by rfl, by decide⟩

/-- Both threads stand at barrier 15; thread 1 is dominated, has waited long, and has yielded. -/
def stalled : State := { base with
  threads := [(0, { thread 0 0 with wait := .rwait 15, join := 0x8000, arrive := 0x8000 }),
    (1, { thread 1 0 with wait := .rwait 15, join := 0x8001, arrive := 0x8000, bnd := 4, bsel := 31, yielded := true })]
  cores := [(0, { binds := [{ ctx := 0, incs := [(15, ⟨4, 9⟩)] }] })]
  pkgs := [(0, { clock := 2048 })] }

/-- Every thread has arrived at an object of each scope. -/
def arrived : State := { base with
  threads := [(0, thread 0 0), (1, { thread 1 0 with stood := true })]
  gangs := [(0, { members := [0], bars := [(15, { arr := [0] })] })]
  wgs := [(0, { base.wg 0 with bars := [(15, { phase := 0xFFFF, arr := [0, 1] })], wide := [(wideKey .pkg 0, [0, 1])] })]
  ctxs := [(0, { launch := launch0, dieBars := [(15, { arr := [0] })] })]
  pkgs := [(0, { clock := 2048 })] }

theorem witness_ThreadEventsStep :
    ((stalled.liveTids 0).filter (fun i => (stalled.thr (thrKey 0 i)).join.getLsbD 15) = [0, 1] ∧
      (∀ i ∈ [0, 1], (stalled.thr (thrKey 0 i)).arrive.getLsbD 15 = true ∧ (stalled.thr (thrKey 0 i)).wait = .rwait 15) ∧
      ∀ i ∈ [0, 1], stalled.wakes (thrKey 0 i) = true) ∧
    (arrived.awaited 0 .core 15 = 0 ∧ (arrived.bar 0 .core 15).arr ≠ []) ∧
    (∀ p ∈ ([(.quad, 15), (.die, 15), (.pkg, 0)] : List (Scope × Nat)), arrived.viewer p.1 0 = some 0 ∧ arrived.awaited 0 p.1 p.2 = 0 ∧
      arrived.someArrival 0 p.1 p.2 = true) ∧
    (stalled.mayCancel 0 1 = true ∧ stalled.strikable 0 1 = true) ∧
    (arrived.ready 0 1 = true ∧ (arrived.thr 1).stood = true ∧ (arrived.thr 1).since + 2048 = arrived.clockOf 0) ∧
    ((stalled.thr 1).yielded = true ∧ (stalled.thr 1).yieldAt + 64 ≤ stalled.clockOf 0) := by decide

/-- An offer to an empty home, an update of a copy, and a forwarding message, each on its way. -/
def carried : State := { base with
  offers := [{ id := 3, pkg := 0, ctx := 0, n := 15, thr := 0, inc := ⟨7, 8⟩ }]
  sillage := [{ id := 4, unit := false, key := 0, ctx := 0, n := 15, inc := ⟨7, 8⟩ }]
  fwds := [{ id := 5, core := 1, ch := 3, msg := { launchid := 0, wide := true, elems := List.replicate 32 1 } }]
  cores := [(0, { binds := [{ ctx := 0, incs := [(15, ⟨8, 0⟩)] }] })] }

theorem witness_MessagesArrive :
    (∃ o, carried.offers.find? (fun p => p.id == 3) = some o ∧ (∀ p ∈ carried.offers, p.thr = o.thr → o.id ≤ p.id) ∧
      (tfind carried.ctxs o.ctx).isSome ∧ (carried.ctx o.ctx).launch.incPod o.n = false ∧ carried.offerLate o = false) ∧
    (∃ m, carried.sillage.find? (fun x => x.id == 4) = some m) ∧
    (∃ m, carried.fwds.find? (fun x => x.id == 5) = some m ∧ (∀ n ∈ carried.fwds, n.core = m.core → n.ch = m.ch → m.id ≤ n.id) ∧
      (carried.core m.core).quar = false ∧ m.ch < (carried.core m.core).fwd.length) :=
  ⟨⟨_, by rfl, by decide, by decide, by decide, by decide⟩, ⟨_, by rfl⟩, _, by rfl, by decide, by decide, by decide⟩

/-- A record of 128 bytes from its fields: offset, length, value. -/
def record (l : List (Nat × Nat × Nat)) : List Byte := l.foldl (fun r p => patch r p.1 (natLe p.2.1 p.2.2)) (List.replicate 128 0)

/-- The conditions of `State.Retiring` on package 0, core 0. -/
def retires (s : State) (o : PlaneOp) (rest : List PlaneOp) : Bool :=
  (s.core 0).pq == o :: rest && !(s.pkg 0).paused && s.planeGoes o && o.role == 0 && o.loop == none && o.old == [] && (s.wg o.wg).ckey == 0

theorem retires_of {s : State} {o : PlaneOp} {rest : List PlaneOp} (h : retires s o rest = true) : s.Retiring 0 0 o rest := by
  simp only [retires, Bool.and_eq_true, beq_iff_eq, Bool.not_eq_true'] at h
  exact ⟨h.1.1.1.1.1.1, h.1.1.1.1.1.2, h.1.1.1.1.2, h.1.1.1.2, h.1.1.2, h.1.2, h.2⟩

/-- An operation at the head of the plane queue, which thread 1 waits for. -/
def queued (o : PlaneOp) : State := { base with
  threads := [(0, thread 0 0), (1, { thread 1 0 with hold := .plane [o.id] })]
  cores := [(0, { pq := [o], acc := [(0, 2 ^ 47 - 1)], oneAcc := 0x80, utlb := [tlbAt 0x10000, tlbAt 0x20000] })] }

/-- The last step of a product of planes of 2 bits; the same by codebook; a clearing of all; a returned codebook; 32-bit elements into 16 bits. -/
def planeOps : List PlaneOp := [
  { id := 7, kind := .mma, acc := 7, ta := td 1 2 0 32 0, tb := td 1 2 0 32 1, step := 31 },
  { id := 7, kind := .mmac, acc := 0, ta := td 1 2 0 1 0, tb := td 3 0 0 1 1, step := 0 },
  { id := 7, kind := .accz, mask := 0xFF },
  { id := 7, kind := .cbload, data := some [1, 2, 3] },
  { id := 7, kind := .plane, ta := td 1 16 0 1 0, tb := td 4 0 2 1 0, idx := 0 }]

/-- A CBLOAD whose bytes are on their way to thread 0. -/
def loading : State := { base with
  threads := [(0, { thread 0 0 with hold := .cb 7 }), (1, thread 1 0)]
  cores := [(0, { pq := [{ id := 7, kind := .cbload, addr := 0x20000, locs := [(0x20000, false), (0x20100, true)] }] })] }

theorem witness_PlanesRetire : (∀ o ∈ planeOps, (queued o).Retiring 0 0 o []) ∧ (∀ o ∈ planeOps.take 2, o.step + 1 = tdSteps o.ta) ∧
    (∀ o ∈ planeOps, (queued o).MemOk) ∧ tdW (td 1 16 0 1 0) = 16 ∧
    (∃ o, loading.planeOp 7 = some (coreKey 0 0, o) ∧ o.kind = .cbload ∧ o.data = none ∧ loading.quiet o.thr = true ∧
      ∀ l ∈ o.locs, loading.isPoisoned l.1 256 = false) := by
  have h : ∀ o ∈ planeOps, retires (queued o) o [] = true := by decide
  exact ⟨fun o ho => retires_of (h o ho), by decide, fun _ _ => rfl, by decide, ⟨_, by rfl, by decide⟩⟩

/-- A LOOPNEST of one level and one iteration, with the given steps, one permit, the plane word ACCZ and a wake word in SCRATCH. -/
def nest (steps : Nat) (loop : Option LoopSt) : Cmd :=
  { id := 7, pkg := 0, core := 0, thr := 0, wg := 0, gang := 0, ctx := 0, fn := 0, launchid := 0, ticket := 1, kind := .loopnest, recAddr := 0x20000,
    raw := record [(0, 2, 4), (4, 1, 7), (16, 1, steps), (17, 1, 1), (18, 1, 1), (32, 8, 0x30C0000000000001), (40, 8, 0xFFFF000000001000), (64, 4, 1),
      (68, 4, 0xFFFFFFFF), (72, 4, 16)], loop := loop }

/-- That nest at the head of the sequencer, 15 commands in its channel, its wake word empty. -/
def nesting (c : Cmd) : State := { base with
  cmds := [c]
  empties := [locScratch 0 0 0x1000 / 8]
  cores := [(0, { loops := [7], chans := List.replicate 7 [] ++ [List.range 15], utlb := [tlbAt 0x20000] })] }

/-- The states of a nest: not begun; with a permit; the copy step over; then the plane step; and the wake word emptied. -/
def fresh : LoopSt := { permits := 1 }
def began : LoopSt := { permits := 1, template := record [(0, 2, 0), (16, 8, 0x20000), (24, 8, 0xFFFFFFFFFFFFFFF0)] }
def planeNext : LoopSt := { next := 1, its := [{ j := 0, planeDone := false, wakeDone := false }] }
def wakeNext : LoopSt := { next := 1, its := [{ j := 0, wakeDone := false }] }
def emptied : LoopSt := { next := 1, its := [{ j := 0, wake := some 5, emptied := true }] }

theorem witness_LoopsIterate :
    (let c := nest 6 none
     (nesting c).activeLoop (coreKey 0 0) = some c ∧ c.finished = false ∧ c.parked = none ∧ (nesting c).classStopped c.gang .loop = false ∧
      (nesting c).launchIdle c.ctx = false ∧ c.loop = none ∧ (nesting c).loopOk c = true ∧ c.hasCopy = false) ∧
    (let c := nest 6 (some fresh)
     (nesting c).activeLoop (coreKey 0 0) = some c ∧ c.finished = false ∧ c.parked = none ∧ (nesting c).classStopped c.gang .loop = false ∧
      (nesting c).launchIdle c.ctx = false ∧ fresh.stopped = false ∧ fresh.next < c.iterations ∧ fresh.permits ≠ 0 ∧ c.hasCopy = false) ∧
    (let c := nest 7 (some began)
     (nesting c).activeLoop (coreKey 0 0) = some c ∧ (nesting c).launchIdle c.ctx = false ∧ began.stopped = false ∧ began.next < c.iterations ∧ began.permits ≠ 0 ∧ c.hasCopy = true ∧ began.template.length = 128 ∧
      ((nesting c).core c.ckey |>.chans.getD c.chan []).length = 15) ∧
    (let c := nest 6 (some planeNext)
     (nesting c).loopOp c 0 = some (.op { id := 0, kind := .accz, mask := 1 }, false) ∧
      (nesting c).activeLoop (coreKey 0 0) = some c ∧ (nesting c).classStopped c.gang .plane = false ∧ ((nesting c).core c.ckey).pq.length < 16 ∧
      (planeNext.its.find? fun i => !i.planeDone && i.plane.isNone).isSome) ∧
    (let c := nest 6 (some wakeNext)
     (nesting c).activeLoop (coreKey 0 0) = some c ∧ (nesting c).cmdStopped c = false ∧ (nesting c).MemOk ∧
      (∃ q, (nesting c).engFind c (c.wakeAddr 0) 8 { w := true, tag := true } = (.ok q, nesting c) ∧ isScratch q.loc = true ∧ q.loc % 8 = 0 ∧
        (nesting c).isFull (q.loc / 8) = false ∧ (nesting c).waiter (q.loc / 8) .ldfe = none) ∧
      (wakeNext.its.find? fun i => !i.wakeDone).isSome ∧ ∀ k ∈ wakeNext.its, k.wake = none) ∧
    (let c := nest 6 (some emptied)
     (nesting c).activeLoop (coreKey 0 0) = some c ∧
      (emptied.its.find? fun i => i.copyDone && i.planeDone && i.wakeDone && (i.wake.isNone || i.emptied)).isSome) ∧
    (let c := nest 6 (some wakeNext)
     let s := { nesting c with threads := [(0, { thread 0 0 with life := .exited }), (1, { thread 1 0 with life := .exited })] }
     s.activeLoop (coreKey 0 0) = some c ∧ s.launchIdle c.ctx = true ∧ c.done = false) := by
  refine ⟨by decide, by decide, ⟨by rfl, by decide, by decide, by decide, by decide, by rfl, by rfl, by rfl⟩, ⟨by rfl, by decide⟩, ⟨by decide, by decide, by rfl, ⟨_, by rfl, by decide⟩, by decide, by decide⟩, by decide, by decide⟩

/-- A command of thread 0 with its record at 0x20000. -/
def cmdOf (k : CKind) (raw : List Byte) : Cmd :=
  { id := 7, pkg := 0, core := 0, thr := 0, wg := 0, gang := 0, ctx := 0, fn := 0, launchid := 0, ticket := 1, kind := k, recAddr := 0x20000, raw := raw }

/-- That command at the head of channel 7. -/
def working (c : Cmd) : State := { base with
  cmds := [c]
  cores := [(0, { chans := List.replicate 7 [] ++ [[7, 8]], utlb := [tlbAt 0x10000, tlbAt 0x20000] })] }

/-- A copy of one row of 600 bytes within SCRATCH. -/
def rowCopy : Cmd := cmdOf .tcopy (record [(0, 2, 1), (4, 1, 7), (16, 8, 0xFFFF000000001000), (24, 8, 0xFFFF00000001FDA8), (32, 4, 1), (36, 4, 600),
  (56, 1, 1), (57, 1, 1), (58, 1, 1), (72, 8, 1)])

/-- A SEND of 57 bytes from 0x20000 to ring 3 of workgroup 0 on core 0. -/
def sendCmd : Cmd := { cmdOf .send (record [(0, 2, 5), (16, 8, 0x20000), (24, 4, 57), (28, 1, 3)]) with sent := 1 }

/-- A message of 56 bytes on its way to ring 3, which holds messages from HEAD 2^64 - 1 up to `tail`. -/
def mailed (tail : W64) : State := { ringed 0 with
  mem := (holding two (locScratch 0 0 0x1100) [tail, -1]).mem
  msgs := [{ id := 9, cmd := 7, pkg := 0, core := 0, launchid := 0, wgid := 0, ring := 3, srcPkg := 63, srcCore := 639, seq := 65535, kind := 1,
             payload := List.replicate 56 0xAA }] }

/-- A message from package 0 that a full ring refused at 10. -/
def waitingMsg (clock : Nat) : State := { base with
  msgs := [{ (mailed 3).msgs.headD default with srcPkg := 0, refused := some 10 }]
  pkgs := [(0, { clock := BitVec.ofNat 64 (clock + retryWait - 1) })] }

theorem witness_CopiesAndMessages :
    (∀ p ∈ [(0, 256), (0, 257), (255, 256)], let c := { rowCopy with pos := p.1, sent := p.2 }
      ((working c).core 0).chans.getD 7 [] = [7, 8] ∧ (working c).cmd? 7 = some c ∧ c.pos < c.sent ∧ (working c).pendingIn c.id c.pkg c.die = false) ∧
    (let c := { rowCopy with pos := 512, sent := 512 }
     (working c).cmd? 7 = some c ∧ (∃ h, c.shape = some h ∧ h.n = 1 ∧ h.rop = 0 ∧ h.rows = 1 ∧ c.sent < h.rb ∧
       h.src = BitVec.ofNat 64 (0xFFFF000000000000 + 0x1000) ∧ h.dst = BitVec.ofNat 64 (0xFFFF000000000000 + 0x1FDA8) ∧
       0x1FDA8 + h.rb = ((working c).wg 0).scrSize) ∧ c.fills = false ∧ c.overlaps = false ∧ (working c).cmdStopped c = false ∧
       ((working c).launchOf ((working c).wg 0)).replayable = false ∧ (working c).redoing 0 = false ∧ (working c).MemOk ∧
       (working c).poison = []) ∧
    (∀ w ∈ [true, false], let c := { rowCopy with pos := 600, sent := 600, finished := true, written := w }
      (working c).cmd? 7 = some c ∧ c.done = true ∧ (working c).cmdStopped c = false ∧ (working c).engInstalled c = true ∧ c.fills = false ∧
        (working c).redoing 0 = false ∧ (working c).MemOk) ∧
    (∃ q, (working rowCopy).engFind rowCopy (rowCopy.recAddr + 8) 8 { w := true } = (.ok q, working rowCopy) ∧ q.loc % 8 = 0) ∧
    (let c := sendCmd
     (working c).cmd? 7 = some c ∧ (working c).sendBehind c = false ∧ (working c).sendHeld c = false ∧ c.sendOk = true ∧ c.sent < c.messages ∧
       c.destPkg = c.pkg ∧ ∃ b t, (working c).engBytes c (c.messageAt c.sent) (c.messageLen c.sent) = ((b, none), t)) ∧
    (∀ t ∈ [2, 3], let s := mailed t
      s.cmd? 9 = none ∧ ∃ m r, s.msgs.find? (fun m => m.id == 9) = some m ∧ m.refused = none ∧ s.msgHeld m = false ∧
        (∀ x ∈ s.msgs, x.id < m.id → x.sameStream m = false) ∧ s.aimed m = m ∧ s.msgRing m = some r ∧ r.base % 8 = 0 ∧ r.slots = 4 ∧ m.payload.length ≤ 56 ∧
        s.MemOk ∧ readWord s.mem (locScratch m.pkg m.core (r.base + 64 * r.slots) / 8) = t ∧
        readWord s.mem (locScratch m.pkg m.core (r.base + 64 * r.slots) / 8 + 1) = -1) ∧
    (∀ clock ∈ [10, 11], let s := waitingMsg clock
      (∃ m, s.msgs.find? (fun m => m.id == 9) = some m ∧ m.refused = some 10 ∧ m.srcPkg = 0) ∧ (s.msgs.map Msg.id).Nodup ∧
        s.clockOf 0 = clock + retryWait - 1) := by
  refine ⟨by decide, ⟨by decide, ⟨_, by rfl, by decide⟩, by decide, by decide, by decide, by decide, by decide, by rfl, by rfl⟩, ?_, ⟨_, by rfl, by decide⟩,
    ⟨by decide, by decide, by decide, by decide, by decide, by decide, ⟨_, _, by rfl⟩⟩, ?_, ?_⟩
  · intro w hw
    simp only [List.mem_cons, List.not_mem_nil, or_false] at hw
    obtain rfl | rfl := hw <;> exact ⟨by decide, by decide, by decide, by decide, by decide, by decide, by rfl⟩
  · intro t ht
    simp only [List.mem_cons, List.not_mem_nil, or_false] at ht
    obtain rfl | rfl := ht <;> exact ⟨by rfl, _, _, by rfl, by decide, by decide, by decide, by rfl, by rfl, by decide, by decide, by decide, by rfl, by decide, by decide⟩
  · intro k hk
    simp only [List.mem_cons, List.not_mem_nil, or_false] at hk
    obtain rfl | rfl := hk <;> exact ⟨⟨_, by rfl, by decide⟩, by decide, by decide⟩

/-- Rank `q` of a sum of 32-bit unsigned integers over `n` workgroups, its row at the end of SCRATCH. -/
def rankCmd (n rb q : Nat) : Cmd := { cmdOf .tcopy (record [(0, 2, 1), (4, 1, 7), (16, 8, 0xFFFF000000000000), (24, 8, 0xFFFF000000020000 - rb), (32, 4, 1),
    (36, 4, rb), (48, 1, 1), (49, 1, 1), (52, 4, 5), (56, 1, n), (57, 1, 1), (58, 1, 1), (59, 1, q), (64, 8, 0x20000), (72, 8, 3)]) with
  id := 7 + q, thr := 2048 * q, core := q, wg := q, table := some ((List.range n).map fun q => BitVec.ofNat 64 (2 ^ 32 * q + 2 ^ 16 * q)) }

/-- The node of ranks 0 and 1 of the one chunk. -/
def node0 : RedNode := ⟨.tree, 0, 0⟩

/-- All those commands at the heads of their channels; the node's reduce block is done. -/
def ranked (n rb : Nat) (cs : List Coll) : State := { base with
  gangs := [(0, { members := List.range n })]
  wgs := (List.range n).map fun q => (q, { base.wg 0 with core := q, member := q, wgid := BitVec.ofNat 32 q })
  threads := (List.range n).map fun q => (2048 * q, thread 0 0)
  cmds := (List.range n).map (rankCmd n rb)
  cores := (List.range n).map fun q =>
    (q, { chans := List.replicate 7 [] ++ [[7 + q]], resv := if q = 0 then some ⟨5, 0, node0, 0, true⟩ else none,
          land := if q = 1 then [⟨0, 1, 6, 0, 0x20000, false⟩] else [] })
  dies := [(0, { staging := [(4, 0)] })]
  colls := cs
  deliveries := [{ id := 9, coll := 5, rank := 1, chunk := 0, data := [1, 2, 3, 4, 5, 6, 7, 8] }] }

/-- The collective of those commands, of whose one chunk rank 1 has not yet given its input. -/
def coll (granted : Bool) (n : Nat) : Coll := {
  collid := 5, granted := granted
  ranks := [{ cmd := 7, data := [1, 0, 0, 0, 2, 0, 0, 0], arrived := 1 }, { cmd := 8, land := true, lgen := 6, data := [255, 255, 255, 255, 3, 0, 0, 0] }] ++
    (List.range (n - 2)).map fun q => { cmd := 9 + q, data := List.replicate 8 0, arrived := 1 } }

/-- The same with a launch counter of the node that stands at `l`. -/
def counted (l : Nat) : State := { ranked 2 8 [coll true 2] with dies := [(0, { counts := [⟨5, 0, node0, l⟩] })] }

/-- The same of CAVRED commands. -/
def cavs : State := { ranked 2 8 [coll true 2] with cmds := (List.range 2).map fun q => { rankCmd 2 8 q with kind := .cavred } }

/-- A die whose cores 480 and 481 cannot take a reduce block. -/
def busyDie : State := { base with
  dies := [(3, { redq := [⟨5, 0, node0, 0, false⟩, ⟨5, 1, node0, 0, false⟩] })]
  cores := [(480, { quar := true }), (481, { resv := some ⟨4, 0, node0, 0, false⟩ })] }

theorem witness_CollectivesCombine :
    (let s := ranked 2 (2 ^ 20) []
     let g := [rankCmd 2 (2 ^ 20) 0, rankCmd 2 (2 ^ 20) 1]
     Machine.agree g = true ∧ needOn g 0 = 2 ^ 22 ∧ diesOf g = [0] ∧
       (s.cmds.filter (s.waitsGroup 5)).findSome? (fun c => s.gatherGroup (s.cmds.filter (s.waitsGroup 5)) (c.table.getD [])) = some g) ∧
    (let s := ranked 2 (2 ^ 20) [coll false 2]
     s.colls.find? (fun g => g.collid == 5 && !g.granted) = some (coll false 2) ∧ diesOf (s.collCmds (coll false 2)) = [0] ∧
       (s.die 0).used + needOn (s.collCmds (coll false 2)) 0 = 2 ^ 22) ∧
    (∀ s ∈ [counted 1, counted 2, ranked 2 8 [coll true 2], cavs],
      s.colls.find? (fun g => g.collid == 5 && g.granted) = some (coll true 2) ∧ s.cmd? 8 = s.cmds[1]? ∧ (s.cmds[1]?.bind Cmd.parked) = none ∧
        (s.collShape (coll true 2)).chunks = 1 ∧ (s.collShape (coll true 2)).rop = 1 ∧ (s.collShape (coll true 2)).exact = false ∧
        (s.collShape (coll true 2)).chunkEnd 0 = 8 ∧ treeNext (s.collShape (coll true 2)).n 0 1 = some (0, 0)) ∧
    ((counted 1).isCav (coll true 2) = false ∧ cavs.isCav (coll true 2) = true) ∧
    ((busyDie.die (dieKey 0 3)).redq = [⟨5, 0, node0, 0, false⟩, ⟨5, 1, node0, 0, false⟩] ∧ (busyDie.core (coreKey 0 (160 * 3 + 2))).resv = none ∧
      (busyDie.core (coreKey 0 (160 * 3 + 2))).quar = false ∧
      ∀ m < 2, (busyDie.core (coreKey 0 (160 * 3 + m))).resv ≠ none ∨ (busyDie.core (coreKey 0 (160 * 3 + m))).quar = true) ∧
    (∀ n ∈ [2, 3], let s := ranked n 8 [coll true n]
     (s.core (coreKey 0 0)).resv = some ⟨5, 0, node0, 0, true⟩ ∧ s.colls.find? (fun g => g.collid == 5) = some (coll true n) ∧
       0 ∉ (coll true n).reduced ∧ (s.collShape (coll true n)).rop ≠ 0 ∧
       treeNext (s.collShape (coll true n)).n 1 0 = (if n = 2 then none else some (1, 0)) ∧ (s.collShape (coll true n)).receives 1 = true ∧
       ∃ r, (coll true n).ranks[1]? = some r ∧ r.delivered < (s.collShape (coll true n)).chunks) ∧
    (let s := ranked 2 8 [coll true 2]
     let c := rankCmd 2 8 1
     let h := c.shapeRaw
     (∃ d, s.deliveries.find? (fun d => d.id == 9) = some d ∧ d.coll = 5 ∧ d.rank = 1 ∧ d.chunk = 0 ∧ d.data.length = h.chunkEnd 0) ∧
       s.cmd? 8 = some c ∧ c.parked = none ∧ c.fills = false ∧ (s.launchOf (s.wg c.wg)).replayable = false ∧ s.redoing c.wg = false ∧ s.MemOk ∧
       h.rows = 1 ∧ h.dst = BitVec.ofNat 64 (0xFFFF000000000000 + (0x20000 - 8)) ∧ 0x20000 - 8 + h.rb = (s.wg c.wg).scrSize ∧
       s.landing c h { cmd := 8, land := true, lgen := 6, data := [255, 255, 255, 255, 3, 0, 0, 0] } 0 (h.chunkEnd 0) = .accept) := by
  refine ⟨⟨by decide, by decide, by decide, by rfl⟩, by decide, ?_, by decide, by decide, ?_, ⟨_, by rfl, by decide⟩, by rfl, by decide, by decide, by decide,
    by decide, by rfl, by decide +kernel⟩
  · intro s hs
    simp only [List.mem_cons, List.not_mem_nil, or_false] at hs
    obtain rfl | rfl | rfl | rfl := hs <;> exact ⟨by rfl, by rfl, by decide, by decide, by decide, by decide, by decide, by decide⟩
  · intro n hn
    simp only [List.mem_cons, List.not_mem_nil, or_false] at hn
    obtain rfl | rfl := hn <;> exact ⟨by rfl, by rfl, by decide, by decide, by decide, by decide, _, by rfl, by decide⟩

/-- `s` with words behind Headspace unit 0 from an offset on. -/
def behind (s : State) (off : Nat) (l : List W64) : State :=
  { s with mem := l.zipIdx.foldl (fun m p => writeWord m (hsLoc 0 0 (off + 8 * p.2) / 8) p.1) s.mem }

/-- A bucket of vectors of `dim` bytes at offset 0x80 of unit 0, at version `v`: one page with one entry, and one spare page. -/
def bucketed (dim : Nat) (v : W64) (s : State) : State :=
  behind (behind (behind (behind s 0x80 [v, BitVec.ofNat 64 (dim * 2 ^ 48 + 1), 0, 0x1000, 0x1000, 0x2000]) 0x1000 [-1]) 0x1040 [77, 0x8000000000000003, 0x0201000000000000, 3])
    0x2000 [-1]

/-- A SEARCH of one bucket, at address 0x30080, with its query at 0x20100 and its list at 0x20200. -/
def searchCmd : Cmd := cmdOf .search (record [(0, 2, 6), (16, 8, 0x20100), (26, 2, 8), (28, 2, 256), (30, 1, 3), (32, 4, 1), (36, 4, 0xABCD), (40, 8, 0x20200)])

/-- The queries of the unit, and the state with the bucket's page mapped. -/
def searching (qs : List Query) : State := { bucketed 8 5 (holding base 0x20200 [0x30080]) with
  cmds := [searchCmd]
  units := [(0, { queries := qs })]
  cores := [(0, { utlb := [tlbAt 0x20000] })]
  dies := [(0, { tlb := [tlbAt 0x20000, { fn := 0, va := 0x30000, lg := 16, leaf := 0x080001000000001F }] })] }

/-- A query before its bucket, before its page, at the first and at the last entry of the page, behind it, at the end of the bucket, and with four
results behind it. -/
def toWalk : Query := { cmd := 7, buckets := [(0, 0x80)], qvec := [1, 0, 0, 0, 0, 0, 0, 0], cbt := [], units := 1 }
def beforePage : BWalk := { snap := 5, page := 0x1000 }
def entry (n : Nat) : BWalk := { snap := 5, page := 0x1000, inPage := true, slot := n, seen := 1 }
def bucketEnd : BWalk := { snap := 5, page := hsNull, seen := 1 }
def walked : Query := { toWalk with buckets := [], cands := (List.range 4).map fun i => ⟨0, BitVec.ofNat 64 i, 5⟩, walked := 1 }

/-- An HSPUB of one insert at version `v`, at its unit: not begun, or with `done` operations done. -/
def publishing (v : W64) (base : Option Nat) (done : Nat) : State := { bucketed 1000 v Tests.base with
  cmds := [cmdOf .hspub (record [(0, 2, 7), (16, 8, 0x30080), (24, 8, 0x20100), (32, 2, 1)])]
  units := [(0, { pubs := [{ cmd := 7, bucket := 0x80, ops := [1, 0, 0, 0, 0, 0, 0, 0, 9] ++ List.replicate 23 0, srcs := [List.replicate 1008 2],
                             base := base, done := done }] })] }

theorem witness_HeadspaceWorks :
    (let s := searching []
     s.cmd? 7 = some searchCmd ∧ searchCmd.started = false ∧ searchCmd.finished = false ∧ searchCmd.parked = none ∧
       s.classStopped searchCmd.gang .headspace = false ∧ s.searchOk searchCmd = true ∧ searchCmd.qcode = 0 ∧
       (let a := s.engBytes searchCmd (searchCmd.addrAt 16) searchCmd.qdim
        let b := a.2.engBytes searchCmd (searchCmd.addrAt 40) (8 * searchCmd.nbkt)
        let f := b.2.findBuckets searchCmd b.1.1 searchCmd.nbkt
        a.1.2 = none ∧ b.1.2 = none ∧ f.1 = ([(0, 0, 0x80)], [], none) ∧ f.2.unitBinds (unitKey 0 0) searchCmd.ctx = true)) ∧
    (∀ w ∈ [none, some beforePage, some (entry 0), some (entry 125), some (entry 126), some bucketEnd],
      let q := { toWalk with walking := w }
      let s := searching [q]
      s.walker (unitKey 0 0) = some q ∧ s.cmd? q.cmd = some searchCmd ∧ searchCmd.pkg = 0) ∧
    (let s := searching [toWalk]
     s.hsReady searchCmd 0 0x80 = true ∧ s.hsPoisoned 0 0 0x80 128 = false ∧
       s.headerGood 0 0 (s.hsBytes 0 0 0x80 128) = true ∧ fld (s.hsBytes 0 0 0x80 128) 12 1 = searchCmd.qcode ∧
       fld (s.hsBytes 0 0 0x80 128) 14 2 = searchCmd.qdim ∧ searchCmd.incOf = none ∧
       skips searchCmd.metric searchCmd.qcode (searchCmd.at 48 4) (fld (s.hsBytes 0 0 0x80 128) 16 4) (searchCmd.metric != 2) none = false) ∧
    (let s := searching [{ toWalk with walking := some beforePage }]
     beforePage.page ≠ hsNull ∧ beforePage.seen < hsPages ∧ s.hsPageOk 0 0 0x1000 = true ∧ s.hsPoisoned 0 0 0x1000 64 = false ∧
       zeros (s.hsBytes 0 0 0x1000 64) 8 56 = true ∧ slotsOfPage searchCmd.qcode searchCmd.qdim = 126) ∧
    (let s := searching [walked]
     ((s.unit (unitKey 0 0)).queries.take 64).find? (fun q => q.buckets.isEmpty && s.queryGoes q) = some walked ∧ s.cmd? walked.cmd = some searchCmd) ∧
    (∀ v ∈ [0, 2 ^ 31 - 2], let s := publishing v none 0
      (∃ pub c, (s.unit (unitKey 0 0)).pubs = [pub] ∧ pub.bucket = 0x80 ∧ s.cmd? pub.cmd = some c ∧ c.pkg = 0 ∧ c.nops = 1 ∧
        ((List.range 1).filter fun i => fld pub.ops (32 * i) 1 == 1).length = 1) ∧
        s.poison = [] ∧ s.headerGood 0 0 (s.hsBytes 0 0 0x80 128) = true ∧ s.hsChain 0 0 hsPages 0x1000 = ⟨[0x1000], 0⟩ ∧
        fld (s.hsBytes 0 0 0x80 128) 24 8 = 0x1000 ∧ s.hsChain 0 0 hsPages 0x2000 = ⟨[0x2000], 0⟩ ∧ fld (s.hsBytes 0 0 0x80 128) 40 8 = 0x2000 ∧ fld (s.hsBytes 0 0 0x80 128) 14 2 = 1000 ∧
        (slotsOn 0 1000 [0x2000]).length = 3 ∧ ∀ x ∈ slotsOn 0 1000 [0x2000], stLive (s.stateWord 0 0 x) = false) ∧
    (∀ n ∈ [0, 1, 2], let s := publishing 5 (some 5) n
      ∃ pub, (s.unit (unitKey 0 0)).pubs = [pub] ∧ (s.cmd? pub.cmd).isSome ∧ pub.base = some 5 ∧ pub.done = n ∧ s.MemOk ∧ pub.bucket % 128 = 0) := by
  refine ⟨by decide +kernel, ?_, by decide +kernel, by decide +kernel, ⟨by rfl, by decide⟩, ?_, ?_⟩
  · intro w hw
    simp only [List.mem_cons, List.not_mem_nil, or_false] at hw
    obtain rfl | rfl | rfl | rfl | rfl | rfl := hw <;> exact ⟨by rfl, by rfl, by rfl⟩
  · intro v hv
    simp only [List.mem_cons, List.not_mem_nil, or_false] at hv
    obtain rfl | rfl := hv <;> exact ⟨⟨_, _, by rfl, by decide, by rfl, by decide, by decide, by decide⟩, by decide +kernel⟩
  · intro n hn
    simp only [List.mem_cons, List.not_mem_nil, or_false] at hn
    obtain rfl | rfl | rfl := hn <;> exact ⟨_, by rfl, by decide, by decide, by decide, by unfold State.MemOk; decide +kernel, by decide⟩

/-- The words of a record of 128 bytes. -/
def wordsOf (r : List Byte) : List W64 := (List.range 16).map fun i => BitVec.ofNat 64 (fld r (8 * i) 8)

/-- A launch record of one thread, whose parameter block is the last of the page at 0x30000, in the last slot of a launch queue at 0x50000. -/
def launching (podn : Nat) (reg : PodReg) : State := { holding (holding tabled 0x50780
    (wordsOf (record [(0, 8, 0x10000), (8, 8, 0x3FF00), (16, 8, 0x20000), (24, 4, 1), (28, 1, 1), (29, 1, 7), (30, 2, 1), (32, 1, 16), (44, 2, 1),
      (46, 2, podn), (64, 4, 0x30000), (68, 4, 0x30000), (80, 8, podn)]))) 0x50800 [0, -1] with
  pkgs := [(0, { bootst := 6, accCount := 0xFFFFFF })]
  fns := [(0, { ptroot := 0x40000, lqbase := 0x50000, lqctl := 0x8000000000000000, podReg := reg })] }

/-- Two launches that are over, the second in the last context, aborted, with a completion word. -/
def overs : State := { State.reset with
  ctxs := [(0, {}), (255, { fn := 0, launchid := 0x1FF, cplAt := some 0x20000, aborting := true })] }

/-- A launch event of function 256 behind one of function 0; the queue of function 256 has one free slot of 64. -/
def posting : State := { holding State.reset 0x60800 [63, 0] with
  pkgs := [(0, { events := [{ fn := 0, ty := 2 }, { fn := 256, ty := 2, launchid := 9, value := 9 }] })]
  fns := [(256, { eqbase := 0x60000, eqctl := 0x8000000000000000 })] }

/-- The second gang of a launch, of two workgroups, waits for its place beside the gang of function 0. -/
def placing : State := { base with
  ctxs := [(0, { launch := launch0 }), (7, { fn := 1, launchid := 7, launch := { ngang := 3, gang := 2, prio := 7, wgsize := 2, regs := 128, stk := 1, vault := 64, scratch := 512, csaCount := 2 }, slots := [0] })]
  fns := [(1, { place := [.fresh 7 1] })] }

/-- A gang of one workgroup on core 0 of the launch in context 1, and another there that must return to core 0, where a message of its launch
stands, and that has waited for 100 μs. -/
def bound : State := { State.reset with
  ctxs := [(0, { launch := { prio := 2, wgsize := 2 } }), (1, { launchid := 1, launch := { prio := 0, wgsize := 1024, regs := 128 } })]
  gangs := [(0, { ctx := 0, members := [0], slot := some 0, st := .preempted }), (1, { ctx := 1, members := [1] })]
  wgs := [(0, { size := 2, resident := false }), (1, { ctx := 1, gang := 1, size := 1024, nregs := 128, launchid := 1 })]
  cores := [(0, { fwd := [[{ launchid := 0, wide := false, elems := [] }], [], [], []] })]
  fns := [(0, { place := [.back 0], since := some 5 })]
  pkgs := [(0, { clock := 170005 })] }

/-- The machine whose threads have ended. -/
def ended : State := { base with threads := [(0, { thread 0 0 with life := .exited }), (1, { thread 1 0 with life := .cancelled })] }

theorem witness_LaunchesRun :
    (let s := launching 0 .none
     (s.pkg 0).ready = true ∧ s.freeCtx 0 = some 1 ∧ contest (s.pkg 0).lastwin (s.lqOffers 0) = some (7, 0) ∧
       s.lqHead 0 0 = some (0x50000, 16, 2 ^ 64 - 1) ∧ recBad (s.lqRecord 0 (0x50000, 16, 2 ^ 64 - 1)) false = false ∧
       recLimit (recLaunch (s.lqRecord 0 (0x50000, 16, 2 ^ 64 - 1))) = false ∧ fld (s.lqRecord 0 (0x50000, 16, 2 ^ 64 - 1)) 46 2 = 0 ∧
       fld (s.lqRecord 0 (0x50000, 16, 2 ^ 64 - 1)) 72 8 = 0 ∧
       s.readParams 0 0 (recLaunch (s.lqRecord 0 (0x50000, 16, 2 ^ 64 - 1))).param 32 = .ok (List.replicate 64 0) ∧
       s.devLoc 0 (0x50000 + 128 * 16 + 8) = some 0x50808 ∧ Memory.wf s.mem = true) ∧
    (let s := launching 64 .waiting
     (s.fn (fnKey 0 0)).podReg = .waiting ∧ s.lqHead 0 0 = some (0x50000, 16, 2 ^ 64 - 1) ∧ s.pods = []) ∧
    ((tfind overs.ctxs (ctxKey 0 255)).isSome ∧ tsorted overs.ctxs = true ∧ overs.launchDone 0 255 = true ∧ (overs.ctx 255).launch.podn = 0 ∧
      (overs.fn (fnKey 0 0)).flr = false ∧ (overs.fn (fnKey 0 0)).eqctl.getLsbD 63 = false ∧ (overs.ctx 255).cplAt = some 0x20000 ∧
      Memory.wf overs.mem = true) ∧
    (∃ e, (posting.pkg 0).events.find? (fun e => e.fn == 256) = some e ∧ (posting.putEvent 0 e).isSome) ∧
    (∃ w f, (placing.noteWaits 0).placeWinner 0 = some (w, .fresh 7 1, f) ∧ (placing.ctx 7).launch.wgsize ≤ 2048) ∧
    ((bound.fn (fnKey 0 0)).since = some 5 ∧ bound.placeHead 0 0 = some (.back 0) ∧ 5 + 170000 = bound.clockOf 0 ∧
      (bound.fn (fnKey 0 0)).emptied = [] ∧ bound.entryFit 0 (.back 0) = none ∧
      (List.range Config.quadsPerPkg).findSome? (bound.emptiable 0 (.back 0)) = some [1]) ∧
    ((ended.gang 0).members ≠ [] ∧ (ended.gang 0).st = .running ∧ ended.gangOver 0 = true ∧ ended.checking 0 = false) := by
  refine ⟨by decide +kernel, by decide +kernel, by decide +kernel, ⟨_, by rfl, by decide +kernel⟩, ⟨_, _, by rfl, by decide⟩, by decide +kernel, by decide +kernel⟩

/-- A marked gang with classes that have stopped; one of its threads waits for a tag. -/
def marked (acks : List EClass) : State := { base with
  gangs := [(0, { base.gang 0 with slot := some 127, pre := some { acks := acks } })]
  accs := [{ acc0 with kind := .ldfe, loc := 0x20000, size := 8, arrived := some 3 }] }

/-- All classes. -/
def allClasses : List EClass := [.issue, .plane, .copy, .atomiser, .loop, .accord, .headspace]

/-- A saved gang whose threads have issued their RTEs. -/
def savedGang : State := { marked allClasses with
  gangs := [(0, { base.gang 0 with slot := some 127, pre := some { acks := allClasses, hwSaved := true } })]
  threads := [(0, { thread 0 0 with pre := .saved }), (1, { thread 1 0 with pre := .saved })] }

/-- A gang that waits to be resumed. -/
def resuming : State := { base with
  gangs := [(0, { base.gang 0 with slot := some 127, st := .preempted, saved := [{}] })]
  wgs := [(0, { base.wg 0 with resident := false })]
  fns := [(0, { place := [.back 0] })] }

theorem witness_GangsPreempt :
    base.markable 0 = true ∧ (marked []).markable 0 = false ∧
    (let s := marked []
     (s.gang 0).pre = some {} ∧ (s.gang 0).st = .running ∧ s.gangCores 0 = [0] ∧ s.copyAt 0 0 = true ∧ s.loopStarts 0 0 = false ∧ s.cmds = [] ∧
       s.phaseRuns 0 = false ∧ s.toStage 0 = [] ∧ s.walksFor 0 = false ∧ s.pubLeft 0 = false) ∧
    (((marked [.plane]).gang 0).pre = some { acks := [.plane] } ∧ (∀ k ∈ ((marked [.plane]).gang 0).members, (marked [.plane]).owesWatch k = []) ∧
      (marked [.plane]).gangSteps 0 = false ∧ (∀ k ∈ (marked [.plane]).gangThreads 0, (marked [.plane]).issueBusy k = false) ∧
      (∀ k ∈ (marked [.plane]).gangAll 0, (marked [.plane]).leftBusy k = false) ∧ (marked [.plane]).readsTable 0 = false) ∧
    (let s := marked allClasses
     (s.gang 0).pre = some { acks := allClasses } ∧ (s.gang 0).slot = some 127 ∧ (s.gang 0).members = [0] ∧ (s.wg 0).size ≤ 2048 ∧ s.liveTids 0 = [0, 1] ∧
       ∀ i ∈ s.liveTids 0, s.strikeAt 0 i = false) ∧
    ((savedGang.gang 0).pre = some { acks := allClasses, hwSaved := true } ∧ (savedGang.gang 0).st = .running ∧
      ∀ k ∈ savedGang.gangThreads 0, savedGang.savedOut k = true) ∧
    ∃ w f, (resuming.noteWaits 0).placeWinner 0 = some (w, .back 0, f) := by
  refine ⟨by decide, by decide, by decide, by decide, by decide, by decide, ⟨_, _, by rfl⟩⟩

/-- A continuation record of the launch. -/
def rec0 : DqEnt := { entry := 0x10000, bound := 4, wait0 := 0, wait1 := 0, args := [1, 2, 3, 0xFFFFFFFF00000004], launchid := 0, bsel := 0 }

/-- Such records in the deque of core 1, gathered on core 2, and on their way to core 639, whose incumbent dominates the second; the last WGID
is left. -/
def spawned : State := { base with
  ctxs := [(0, { launch := launch0, gather := 2 ^ 32 - 1 })]
  cores := [(0, {}), (1, { deque := [rec0] }), (2, { gathered := some { ctx := 0, wgid := 0xFFFFFFFF, recs := [rec0, { rec0 with bsel := 31 }], off := 0x100, voff := 0 } }),
    (3, {}), (639, { transit := some { recs := [{ rec0 with bsel := 31 }, rec0] }, binds := [{ ctx := 0, incs := [(15, ⟨4, 9⟩)] }] })]
  pkgs := [(0, { clock := 256 })] }

/-- A check of a workgroup of 2 threads that ran on core 0, in a phase, with an execution that has ended on core 639. -/
def check0 : Check := { id := 5, pkg := 0, ctx := 0, gangid := 3, wgids := [3], params := List.replicate 64 0, sizes := [2], seeds := [[]], cores := [0], digests := [7] }
def checks (x : Check) (d : W64) : State := { base with
  gangs := [(0, { members := [0], quad := 159, cidx := 3, check := some 5 })]
  wgs := [(0, { base.wg 0 with core := 639, digest := d })]
  threads := [(0, { thread 0 0 with life := .exited }), (1, { thread 1 0 with life := .exited })]
  cores := [(0, { susp := 65500 }), (320, { susp := 63 })]
  pkgs := [(0, { checks := [x] })] }

theorem witness_RecordsAndChecks :
    ((spawned.core 1).quar = false ∧ (spawned.core 1).gathered = none ∧ (spawned.core 1).transit = none ∧ (spawned.core 1).deque = [rec0] ∧
      spawned.ctxOf 0 rec0.launchid = some 0 ∧ (spawned.ctx 0).gather < 2 ^ 32 ∧ spawned.gatherRoom 1 0 = some (0, 0) ∧ rec0.wait0 = 0 ∧ rec0.wait1 = 0 ∧
      spawned.recDominated 1 rec0 = false ∧ (spawned.core 1).dqUse = .none ∧ spawned.placesOn 0 1 = false ∧ (spawned.ctx 0).aborting = false) ∧
    (spawned.mayGetWork 3 = true ∧ spawned.victims 3 = [1] ∧ (spawned.core 1).deque = [rec0] ∧ spawned.mayGather 3 0 = true ∧ (spawned.core 1).quar = false ∧
      (∀ w ∈ spawned.victims 3, (spawned.core w).dqUse = .none) ∧ spawned.recDominated 1 rec0 = false) ∧
    (∃ t, (spawned.core 639).transit = some t ∧ (spawned.core 639).quar = false ∧ t.recs.filter (fun e => !spawned.recDominated 639 e) = [rec0] ∧
      (spawned.gatherRoom 639 0).isSome ∧ (spawned.core 639).gathered = none) ∧
    (∃ g, (spawned.core 2).gathered = some g ∧ (g.recs.filter fun e => !spawned.recDominated 2 e).length = 2) ∧
    (∃ f, (checks check0 0).nextCheck 0 = some (check0, f)) ∧
    (∀ d ∈ [(7 : W64), 8], let x := { check0 with phase := 1, gang := some 0 }
      (checks x d).findCheck 5 1 = some (0, x, 0) ∧ (checks x d).runOver 0 = true ∧ x.cores = [0] ∧ x.digests = [7] ∧
        ((checks x d).gang 0).members = [0] ∧ ((checks x d).wg 0).core = 639 ∧ ((checks x d).wg 0).digest = d) ∧
    (let x := { check0 with phase := 3, gang := some 0, cores := [320], cores2 := [0], digests2 := [8] }
     (checks x 7).findCheck 5 3 = some (0, x, 0) ∧ (checks x 7).runOver 0 = true ∧ ((checks x 7).gang 0).members = [0] ∧
       ((checks x 7).wg 0).core = 639 ∧ ((checks x 7).wg 0).digest = 7 ∧ [320, 0, 639].Nodup ∧ ((checks x 7).core 320).clean + 1 ≠ 0) := by
  refine ⟨by decide, by decide, ⟨_, by rfl, by decide⟩, ⟨_, by rfl, by decide⟩, ⟨_, by rfl⟩, ?_, by decide⟩
  intro d hd
  simp only [List.mem_cons, List.not_mem_nil, or_false] at hd
  obtain rfl | rfl := hd <;> decide

/-- A request in the last slot of the mailbox of function 0, for thread 1 of workgroup 0, whose threads are halted, thread 1 at an address that
TRAPPC changed since. -/
def asked (req kind num : Nat) (value : W64) (flg : Nat) : State := { holding (holding base 0x503C0
    [BitVec.ofNat 64 (req + 0xFFFF * 2 ^ 16), BitVec.ofNat 64 (2 ^ 32 + kind * 2 ^ 48 + num * 2 ^ 56), value, BitVec.ofNat 64 flg]) 0x50400 [0, -1] with
  fns := [(0, { mbqbase := 0x50000, mbrbase := 0x60000, mbctl := 0x8000000000000000 })]
  threads := [(0, { thread 0 0 with halted := true }), (1, { thread 1 5 with halted := true, relPc := some 0x10008 })] }

/-- A load of thread 1 into the pair x126. -/
def loadingPair : State := { asked 6 0 127 9 0 with accs := [{ acc0 with thr := 1, kind := .load, size := 8, loc := 0x20000, ret := .x 126 ⟨.w64, false⟩ }] }

/-- A single-step of thread 1 whose word has issued. -/
def stepped : State := { base with cores := [(0, { dbgctl := 1, stepping := some { wg := 0, tid := 1, tids := [1], pc := 0x10000, handler := false, issued := true } })] }

/-- The head request names workgroup 0 and is good. -/
def serves (s : State) (req kind num : Nat) : Bool :=
  match s.mbHead 0 0 with
  | none => false
  | some q => q.ok && s.reqWg 0 0 q == some 0 && q.req == req && q.kind == kind && q.num == num && q.tid == 1 && !s.awayWg 0

theorem witness_DebugRequestsServe :
    serves (asked 1 0 0 0 0) 1 0 0 = true ∧ serves (asked 2 0 0 0 1) 2 0 0 = true ∧ serves (asked 3 0 0 0 0) 3 0 0 = true ∧
    serves (asked 4 0 127 0 0) 4 0 127 = true ∧ serves (asked 5 0 127 9 0) 5 0 127 = true ∧ serves loadingPair 6 0 127 = true ∧
    (∀ n ∈ [0x18, 0x1E], serves (asked 7 3 n 9 0) 7 3 n = true) ∧
    (let s := asked 4 0 127 0 0
     (s.wg 0).size = 2 ∧ (s.wg 0).nregs = 128 ∧ (s.thr 1).halted = true ∧ (s.core 0).dbgctl.getLsbD 0 = false ∧ (s.thr 1).bad 127 = false ∧
       s.inFlight 1 127 = false ∧ (s.thr 1).wait = .none ∧ (s.thr 1).park = none ∧ (s.fn (fnKey 0 0)).mbOut = [] ∧
       (∀ i ∈ s.liveTids 0, (s.thr (thrKey 0 i)).watch = none ∧ s.dominated 0 (s.thr (thrKey 0 i)) = false) ∧ (s.core 0).stepping = none ∧
       (s.devRead 0 (0x60000 + 64 * 16) 8 + 2 ^ 64 - s.devRead 0 (0x60000 + 64 * 16 + 8) 8) % 2 ^ 64 < 16 ∧
       s.devLoc 0 0x60000 = some 0x60000 ∧ s.devLoc 0 (0x60000 + 64 * 16) = some 0x60400 ∧ s.devLoc 0 (0x50000 + 64 * 16 + 8) = some 0x50408 ∧
       Memory.wf s.mem = true) ∧
    (∃ a ∈ loadingPair.accs, a.thr = 1 ∧ a.ret = .x 126 ⟨.w64, false⟩ ∧ 127 ∈ a.destX) ∧
    (∃ st, (stepped.core 0).stepping = some st ∧ st.issued = true ∧ st.tids = [st.tid] ∧ st.handler = false ∧ (stepped.thr 1).live = true ∧
      (stepped.thr 1).watch = none ∧ (stepped.thr 1).halted = false ∧ (stepped.thr 1).handler = false) := by
  refine ⟨by decide +kernel, by decide +kernel, by decide +kernel, by decide +kernel, by decide +kernel, by decide +kernel, by decide +kernel, by decide +kernel, by decide, ⟨_, by rfl, by decide⟩⟩

/-- A package with peer 1 on standing fibre 0 and, in its slot, on rotor fibre 47; the fibre has the given state. -/
def linked (k : Nat) (x : Fibre) (p : Pkg) : State := { State.reset with
  pkgs := [(0, { p with
      cfg := { p.cfg with podSize := 64, peers := [(0, 1)] }
      slots := [⟨10000, 400, List.replicate 31 none ++ [some 1]⟩] }),
    (1, { cfg := { podSize := 64, peers := [(5, 0)], routes := [], caps := [0, 0, 0, 0], telem := 0, pkgid := 1 }, slots := [⟨10000, 400, some 0 :: List.replicate 31 none⟩] })]
  fibres := [(k, x)] }

/-- A flit with the context and the one message of a SEND of 56 bytes to ring 3 of core 639, numbered 0xFFFF. -/
def flit0 : Flit := {
  ty := .data, seq := 0xFFFF, epoch := 15, dst := 0, src := 1, msg := 0xFF800000, numbered := true
  payload := natLe 8 7 ++ natLe 4 0xFFFFFFFF ++ natLe 2 639 ++ [3, 0] ++ natLe 2 638 ++ natLe 2 55 ++ natLe 4 0 ++ List.replicate 56 0xAB ++ List.replicate 32 0 }

/-- A fibre on whose wire a flit travels, sent on the fibre's own wavelengths. -/
def lit1 (x : Fibre) (y : Flit) : Fibre := { x with wire := [x.beam y] }

/-- The same, not yet sent, for package 1. -/
def waitingFlit : Flit := { flit0 with dst := 1, numbered := false }

/-- A flit of each type but DATA: of SEQ, loss mask or acknowledgement 5, or of all wavelengths. -/
def ctlFlit (ty : FlitTy) : Flit := { ty := ty, ack := 5, arg := if ty = .stripe then 0xFFFF else if ty = .ack then 0 else 5, src := 1 }

/-- 22_links R332: CRC-32C of the digits 1 to 9, the check value of that code; and a flit is read from the beats it is sent as. -/
theorem test_flit_codes : crc32c ((List.range 9).map fun i => BitVec.ofNat 8 (0x31 + i)) = 0xE3069283 ∧ flitOf flit0.beats = some flit0 := by decide +kernel

theorem witness_LinksRun :
    (∀ p ∈ [(0, linked 0 (lit1 { rxEpoch := 15 } flit0) { standStreams := [(0, { expect := 0xFFFF })] }),
        (47, linked 47 (lit1 { rxEpoch := 15 } flit0) { rotStreams := [(1, { expect := 0xFFFF })] })],
      let x := p.2.fibre (fibreKey 0 p.1)
      let t := p.2.stream 0 p.1 (p.2.fromPkg 0 p.1 flit0)
      (∃ b, x.wire = [b] ∧ x.reads b = some flit0) ∧ x.buf = [] ∧ flit0.ty = .data ∧ flit0.epoch = x.rxEpoch ∧ flit0.dst = 0 ∧ t.lost = 0 ∧
        flit0.seq = t.expect ∧ flit0.clean = true ∧ flit0.ctxFlit = true ∧
        (∃ c, t.ctxOf flit0 = some c ∧ ctxMessages c = 1) ∧ flit0.cmd ∉ p.2.severed) ∧
    (∀ l ∈ [0, 0x8000], let s := linked 47 (lit1 { dark := 0x8000 } flit0) { rotStreams := [(1, { lost := l })] }
      (∃ b, (s.fibre 47).wire = [b] ∧ (s.fibre 47).reads b = none) ∧ s.nearEnd 0 47 = some (1, 16) ∧ (s.stream 0 47 1).lost = l) ∧
    (∀ ty ∈ [FlitTy.ack, .replay, .stripe, .loss],
      let s := linked 15 (lit1 { buf := [{ ty := .data, seq := 4 }, { ty := .data, seq := 5 }], stalls := 7 } (ctlFlit ty)) {}
      let x := s.fibre (fibreKey 0 15)
      (∃ b, x.wire = [b] ∧ x.reads b = some (ctlFlit ty)) ∧ (ctlFlit ty).ty = ty ∧ (ctlFlit ty).dst = 0 ∧ x.down = false ∧ x.stalls < 8 ∧
        x.active &&& ~~~(5 &&& x.active) ≠ 0) ∧
    (∀ n ∈ [7, 8], ∀ now ∈ [999, 1000], let s := linked 0 { buf := [flit0], stalls := n } { podt := BitVec.ofNat 64 now }
      (s.fibre 0).buf ≠ [] ∧ (s.fibre 0).down = false ∧ (s.fibre 0).stalls = n ∧ (s.fibre 0).progress = 0 ∧ (s.pkg 0).podt.toNat = now) ∧
    (∀ f ∈ [(0, 5), (47, 16)], let s := linked (fibreKey 1 f.2) { dark := 0x8001 } { standStreams := [(0, { lost := 1 })], rotStreams := [(1, { lost := 1 })] }
      s.nearEnd 0 f.1 = some (1, f.2) ∧ s.detects 0 f.1 = true ∧
        (s.fibre (fibreKey 1 f.2)).dark &&& (s.fibre (fibreKey 0 f.1)).rxMask &&& ~~~(s.stream 0 f.1 1).lost ≠ 0) ∧
    (∀ p ∈ [(0, { standq := [(1, [waitingFlit])] }), (47, ({ rotq := [(1, [waitingFlit])] } : Pkg))],
      let s := linked p.1 { buf := List.replicate 63 flit0, active := 0xF } p.2
      (s.pkg 0).peer p.1 = some 1 ∧ (s.farEnd 0 p.1 = some (1, 5) ∨ s.farEnd 0 p.1 = some (1, 16)) ∧ (s.fibre (fibreKey 0 p.1)).down = false ∧
        s.inWindow 0 p.1 = true ∧ (s.fibre (fibreKey 0 p.1)).toSend = [] ∧ (s.fibre (fibreKey 0 p.1)).buf.length = 63 ∧
        s.nextQueued 0 p.1 = some waitingFlit ∧ waitingFlit.numbered = false ∧ (s.stream 0 p.1 1).report = 0) ∧
    ((linked 16 {} { opened := false }).pkg 0).opened = false ∧
    (let g := (linked 16 {} { podt := 10600, slotStart := 1000 }).pkg 0
     g.opened = true ∧ g.guard = false ∧ g.slotStart + (g.slot.len - g.slot.guard) = g.podt.toNat) ∧
    (let g := (linked 16 {} { podt := 11000, slotStart := 1000 }).pkg 0
     g.slotStart + g.slot.len = g.podt.toNat) ∧
    (let g := (linked 16 {} { podt := 11000, staged := some ⟨11000, [⟨1000, 100, []⟩]⟩ }).pkg 0
     ∃ t, g.staged = some t ∧ t.start ≤ g.podt.toNat) ∧
    ((linked 16 {} { clock := 512 }).die (dieKey 0 3)).carried + 512 = (linked 16 {} { clock := 512 }).clockOf 0 ∧
    (let x := (linked 47 { wake := some (0x8001, [1], 127), parked := 0x8000, failed := 1, active := 0xF0, stalls := 7 } {}).fibre (fibreKey 0 47)
     x.wake = some (0x8001, [1], 127) ∧ (0x8001#16 &&& BitVec.ofNat 16 0x8001) = 0x8001) := by
  refine ⟨?_, ?_, ?_, by decide, by decide, ?_, by decide, by decide, by decide, ⟨_, by rfl, by decide⟩, by decide, by decide⟩
  · intro p hp
    simp only [List.mem_cons, List.not_mem_nil, or_false] at hp
    obtain rfl | rfl := hp <;> exact ⟨⟨_, by rfl, by decide +kernel⟩, by decide, by decide, by decide, by decide, by decide, by decide, by decide, by decide,
      ⟨_, by rfl, by decide⟩, by decide⟩
  · intro l hl
    simp only [List.mem_cons, List.not_mem_nil, or_false] at hl
    obtain rfl | rfl := hl <;> exact ⟨⟨_, by rfl, by decide +kernel⟩, by decide, by decide⟩
  · intro t ht
    simp only [List.mem_cons, List.not_mem_nil, or_false] at ht
    obtain rfl | rfl | rfl | rfl := ht <;> exact ⟨⟨_, by rfl, by decide +kernel⟩, by decide⟩
  · intro p hp
    simp only [List.mem_cons, List.not_mem_nil, or_false] at hp
    obtain rfl | rfl := hp <;> decide +kernel

/-- A package at a boot stage, with a configuration supplied; function 256 has rings that are not enabled, function 0 an enabled mailbox. -/
def booted (st : W64) : State := { base with
  pkgs := [(0, { bootst := st, staging := some { podSize := 2, peers := [(15, 1)], routes := [], caps := [2 ^ 42, 0, 0, 0], telem := 0x70000, fnLinks := [(256, 1)], maps := [(1, [(0, 0)], [])] }, cfg := { podSize := 1, peers := [], routes := [], caps := [0, 0, 0, 0], telem := 0x70000 } })]
  fns := [(0, { mbctl := 0x8000000000000004 }), (256, { lqbase := 0x50000, eqbase := 0x60000 })] }

theorem witness_HostActs :
    tsorted (booted 6).pkgs = true ∧ ((booted 6).hostOpen 0 0 = true ∧ ((booted 6).fn (fnKey 0 0)).d3 = false ∧ ((booted 6).fn (fnKey 0 0)).flr = false) ∧
    (∀ c ∈ (booted 6).ctxs, c.1 / 256 = 0 → c.2.fn ≠ 256) ∧
    (∀ n : W64, ((booted n).pkg 0).bootst = n) ∧
    (∃ c, ((booted 2).pkg 0).staging = some c ∧ c.good 0 = true) ∧
    ((booted 6).hostOpen 0 256 = true ∧ ((booted 6).fn (fnKey 0 256)).d3 = false ∧ ((booted 6).fn (fnKey 0 256)).lqctl.getLsbD 63 = false ∧
      ((booted 6).fn (fnKey 0 256)).eqctl.getLsbD 63 = false ∧ Memory.wf (booted 6).mem = true ∧
      (booted 6).devLoc 0 (0x50000 + 128 * 2 ^ 12) = some 0xD0000 ∧ (booted 6).devLoc 0 (0x50000 + 128 * 2 ^ 12 + 8) = some 0xD0008 ∧
      (booted 6).devLoc 0 (0x60000 + 32 * 2 ^ 16) = some 0x260000 ∧ (booted 6).devLoc 0 (0x60000 + 32 * 2 ^ 16 + 8) = some 0x260008 ∧
      (booted 6).devLoc 0 (0x60000 + 32 * 2 ^ 16 + 16) = some 0x260010) ∧
    (((booted 6).fn (fnKey 0 0)).mbctl.getLsbD 63 = true ∧ ((booted 6).fn (fnKey 0 0)).mbctl.toNat % 16 = 4) ∧
    (∃ c, (booted 6).ctxs.find? (fun x => x.1 / 256 == 0 && x.2.fn == 0 && x.2.launchid == BitVec.ofNat 32 0) = some (0, c) ∧
      ((booted 6).ctx 0).aborting = false ∧ ((booted 6).ctx 0).fn = 0) ∧
    (((booted 6).pkg 0).ready = true ∧ (booted 6).devLoc 0 ((booted 6).pkg 0).cfg.telem = some 0x70000) := by
  refine ⟨by decide, by decide, by decide, fun _ => rfl, ⟨_, by rfl, by decide⟩, by decide +kernel, by decide, ⟨_, by rfl, by decide⟩, by decide⟩

/-- A machine whose turn is an issue of core 0, with a word at the PC of its threads. -/
def fetching (w : W64) : State := { holding base 0x10000 [w] with turns := [.issue 0 0 1] }

/-- What the issue turn of core 0 finds for its first candidate: the state after the fetch, and the site. -/
def issueSite (s : State) : Option (State × Site) :=
  match s.ordered (coreKey 0 0) with
  | [] => none
  | g :: _ =>
    match s.boundary g, g.red with
    | (s1, i0 :: tids, false), false =>
      (match s1.fetch g.wg i0 g.pc with
       | (.word w, s2) => some (s2, { pkg := (s1.wg g.wg).pkg, core := (s1.wg g.wg).core, wg := g.wg, tids := i0 :: tids, pc := g.pc, word := w, slot := 1 })
       | _ => none)
    | _, _ => none

theorem witness_StepRunsDecoded :
    (let s := fetching 0x0000404000000800
     let i := Instr.add ⟨2, .x 2, .x 0, none, g0⟩ ⟨.w64, false⟩ false
     (s.core (coreKey 0 0)).slotUsed ≤ 1 ∧ decode 0x0000404000000800 = .ok i ∧
       ∃ s2 c, issueSite { s with turns := [] } = some (s2, c) ∧ c.word = 0x0000404000000800 ∧ s2.fuses c i = [] ∧
         ∃ u, exec i { s2 with cur := some c } = .next u ∧ s2.heldAs u c = false ∧ s2.stands u c = false) ∧
    -- and a word that begins to wait where it stands, WAITPTR
    (∃ s2 c, issueSite { fetching 0x6180000180000002 with turns := [] } = some (s2, c) ∧ decode c.word = .ok (.waitptr 2 (.x 12) g0) ∧
      s2.fuses c (.waitptr 2 (.x 12) g0) = [] ∧
        ∃ u, exec (.waitptr 2 (.x 12) g0) { s2 with cur := some c } = .next u ∧ s2.heldAs u c = false) ∧
    (∃ s2 c e, issueSite { fetching (-1) with turns := [] } = some (s2, c) ∧ decode c.word = .error e) ∧
    encode (.iCycle 0) = none ∧ State.reset.ordered (coreKey 0 0) = [] := by
  refine ⟨⟨by decide, by decide, _, _, by rfl, by decide, by decide, _, by rfl, by decide, by decide⟩, ⟨_, _, by rfl, by rfl, by decide, _, by rfl, by decide⟩, ⟨_, _, _, by rfl, by rfl⟩, by decide, by decide⟩

theorem witness_DecodeEncodes : (Instr.add ⟨2, .x 2, .x 0, none, g0⟩ ⟨.w64, false⟩ false).WellFormed := by decide

theorem witness_StepKeepsMemory : State.reset.MemOk ∧ (fetching 0x0000404000000800).MemOk := ⟨by rfl, by rfl⟩

/-! ### Single steps: the worked examples of the spec -/

/-- An instruction runs in thread 0 with registers set, and then other registers and FLAGS hold what the spec says; the PC advances. -/
def gives (inp : List (Nat × W32)) (i : Instr) (out : List (Nat × W32)) (fl : W32) : Bool :=
  match exec i (one.modThr 0 fun t => { t with x := inp.foldl (fun l p => l.set p.1 p.2) t.x }) with
  | .next u => out.all (fun p => (u.thr 0).x.getD p.1 0 == p.2) && (u.thr 0).flags == fl && (u.thr 0).pc == 0x10008
  | _ => false

/-- The operands x1, x2 and x3, and x1 with an immediate. -/
def r3 : F3 := ⟨1, .x 2, .x 3, none, g0⟩
def r2 : F2 := ⟨1, .x 2, none, g0⟩
def ri (v : BitVec 5) : F3 := ⟨1, .x 2, .imm v, none, g0⟩
def s32 : ITy := ⟨.w32, true⟩
def u32 : ITy := ⟨.w32, false⟩

/-- 05_integer R92 to R95, R97. -/
theorem test_integer_examples : (
    gives [(2, 0x7F)] (.add (ri 1) ⟨.w8, true⟩ true) [(1, 0x7F)] fSAT && gives [(2, 0x7F)] (.add (ri 1) ⟨.w8, true⟩ false) [(1, 0xFFFFFF80)] 0 &&
    gives [] (.sub ⟨1, .zero, .imm 1, none, g0⟩ u32 false) [(1, 0xFFFFFFFF)] 0 &&
    gives [(2, 300), (3, 200)] (.mul r3 ⟨.w16, true⟩ false) [(1, 0xFFFFEA60)] 0 &&
    gives [(2, 0x80000000), (3, 0x80000000)] (.mulh r3 .w32 false) [(1, 0x40000000)] 0 &&
    gives [(2, 0x80000000)] (.min (ri 31) s32) [(1, 0x80000000)] 0 && gives [(2, 0x80000000)] (.max (ri 31) u32) [(1, 0xFFFFFFFF)] 0 &&
    gives [(2, 0x80000000)] (.abs r2 .w32 false) [(1, 0x80000000)] 0 && gives [(2, 0x80000000)] (.abs r2 .w32 true) [(1, 0x7FFFFFFF)] fSAT &&
    gives [(2, 0xFFFFFFF9)] (.div (ri 2) s32 false) [(1, 0xFFFFFFFD)] 0 && gives [(2, 0xFFFFFFF9)] (.rem (ri 2) s32) [(1, 0xFFFFFFFF)] 0 &&
    gives [(2, 9)] (.div ⟨1, .x 2, .zero, none, g0⟩ u32 false) [(1, 0xFFFFFFFF)] fDZ &&
    gives [(1, 0x40000000), (2, 4), (3, 1)] (.mad ⟨8, .x 1, .x 2, none, g0⟩ (.x 3) s32 false) [(8, 1)] 0 &&
    gives [(1, 0x40000000), (2, 4), (3, 1)] (.mad ⟨8, .x 1, .x 2, none, g0⟩ (.x 3) s32 true) [(8, 0x7FFFFFFF)] fSAT &&
    gives [(2, 0x8000)] (.sar (ri 4) ⟨.w16, false⟩) [(1, 0xF800)] 0 && gives [(2, 0x10000000)] (.shl (ri 4) s32 true) [(1, 0x7FFFFFFF)] fSAT &&
    gives [(2, 0x12345678)] (.shl (ri 31) u32 false) [(1, 0)] 0 && gives [(2, 0x12345678)] (.rol (ri 8) u32) [(1, 0x34567812)] 0) = true := by
  decide +kernel

/-- 05_integer R98, R99, R102 to R105. -/
theorem test_field_examples : (
    gives [(2, 0x10000)] (.clz r2 .w64) [(1, 47)] 0 && gives [(2, 0xABCD), (3, 0x804)] (.bfx r3 u32) [(1, 0xBC)] 0 &&
    gives [(2, 0xABCD), (3, 0x804)] (.bfx r3 s32) [(1, 0xFFFFFFBC)] 0 && gives [(1, 0xFFFFFFFF), (2, 0), (3, 0x804)] (.bfi r3 u32) [(1, 0xFFFFF00F)] 0 &&
    gives [(2, 0x18000)] (.mov (.x 1) (.x 2) none g0 ⟨.w16, true⟩) [(1, 0xFFFF8000)] 0 && gives [] (.movi (.x 2) g0 0x1234) [(2, 0x1234)] 0 &&
    gives [(2, 0), (3, 1), (6, 3)] (.lea 6 ⟨.x 2, 2, g0⟩ (.x 6) ⟨.w64, false⟩) [(6, 0x28), (7, 1)] 0 &&
    gives [(9, 0)] (.addi 9 (.x 9) g0 0x1FFFFFFFF) [(9, 0xFFFFFFFF)] 0) = true := by decide +kernel

/-- 06_float R109 to R115. -/
theorem test_float_examples : (
    gives [(1, 0x3F800001), (2, 0x3F7FFFFE), (3, 0xBF800000)] (.ffma ⟨8, .x 1, .x 2, none, g0⟩ (.x 3) .f32 .rtz) [(8, 0xA8800000)] 0 &&
    gives [(2, 0x3F800001), (3, 0x3F7FFFFE)] (.fmul r3 .f32 .rne) [(1, 0x3F800000)] fIX && gives [(2, 0x3F800000), (3, 0xBF800000)] (.fadd r3 .f32 .rne) [(1, 0)] 0 &&
    gives [(6, 0x40003C00), (7, 0x38004200), (5, 0x3E800000)] (.fdot2 ⟨5, .x 6, .x 7, none, g0⟩ false .rne) [(5, 0x40880000)] 0 &&
    gives [(2, 0), (3, 0xFFC00001)] (.fmin r3 .f32) [(1, 0)] 0 && gives [(2, 1)] (.fclass r2 .f16) [(1, 0x20)] 0 &&
    gives [(2, 0x3F000000)] (.fexp2 r2 .f32) [(1, 0x3FB504F3)] fIX && gives [(2, 0xBFA00000)] (.fsint r2 .f32) [(1, 0xBF800000)] 0 &&
    gives [(2, 0xBF400000)] (.frnd r2 .f32 .rtz) [(1, 0x80000000)] fIX && gives [(2, 0x40200000)] (.frnd r2 .f32 .rne) [(1, 0x40000000)] fIX &&
    gives [(2, 0x40200000)] (.frnd r2 .f32 .rna) [(1, 0x40400000)] fIX) = true := by decide +kernel

/-- 06_float R117 to R122. -/
theorem test_conversion_examples : (
    gives [(1, 0x43FA0000)] (.fcvt ⟨2, .x 1, none, g0⟩ .e4m3 .f32 .rne false) [(2, 0x7F)] (fOF ||| fIX) &&
    gives [(1, 0x43FA0000)] (.fcvt ⟨2, .x 1, none, g0⟩ .e4m3 .f32 .rne true) [(2, 0x7E)] fSAT &&
    gives [(1, 0x3F808000)] (.fcvt ⟨2, .x 1, none, g0⟩ .bf16 .f32 .rne false) [(2, 0x3F80)] fIX &&
    gives [(1, 0x7D)] (.fcvt ⟨2, .x 1, none, g0⟩ .f32 .e5m2 .rne false) [(2, 0x7FC00001)] fIV &&
    gives [(2, 0x43488000)] (.fcvti r2 ⟨.w8, true⟩ .f32 .rne false) [(1, 0x7F)] fIV && gives [(2, 0xC0200000)] (.fcvti r2 ⟨.w8, true⟩ .f32 .rne false) [(1, 0xFFFFFFFE)] fIX &&
    gives [(2, 0x1000001), (3, 0)] (.icvtf r2 ⟨.w64, true⟩ .f32 .rne) [(1, 0x4B800000)] fIX &&
    gives [(3, 0x7C), (4, 0)] (.fpack ⟨4, .imm 2, .x 3, none, g0⟩ .e5m2 true) [(4, 0x7B0000)] fSAT &&
    gives [(4, 0x7B0000)] (.funpk ⟨5, .imm 2, .x 4, none, g0⟩ .e5m2) [(5, 0x7B)] 0 &&
    gives [(2, 0x1000001), (3, 0), (6, 0), (9, 0xCB800000)] (.fscaleacc ⟨9, .x 2, .x 6, none, g0⟩ .f32 .rne false .i48 false) [(9, 0x3F800000)] 0 &&
    gives [(1, 0x3FC00000)] (.ordkey ⟨8, .x 1, none, g0⟩ (.flt .f32)) [(8, 0), (9, 0xBFC00000)] 0) = true := by decide +kernel

/-- Four threads in issue with values in x2, x1 zero; the last may be out of the guard. -/
def four (l : List W32) : State := { base with
  wgs := [(0, { base.wg 0 with size := 4 })]
  threads := (List.range 4).map fun i => (i, { thread i 0 with x := (List.replicate 128 0).set 2 (l.getD i 0) |>.set 1 9, q := if i = 2 then 1 else 3 })
  cur := some { site with tids := [0, 1, 2, 3] } }

/-- x1 and FLAGS of the four after an instruction. -/
def after4 (l : List W32) (i : Instr) : List (W32 × W32) :=
  match exec i (four l) with
  | .next u => (List.range 4).map fun i => ((u.thr i).x.getD 1 0, (u.thr i).flags)
  | _ => []

/-- 07_lanes R132, R133: the sums whose steps round in lanes 0 and 1 alone, and the maxima of the others, with lane 2 in the guard and out of it. -/
theorem test_lane_examples :
    after4 [0x3F800000, 0x4B800000, 0xCB800000, 0x3F800000] (.reduce r2 (.flt .f32 .rne) 2 .add) =
      [(0x3F800000, fIX), (0x3F800000, fIX), (0x3F800000, 0), (0x3F800000, 0)] ∧
    after4 [7, 2, 5, 3] (.cavity r2 (.int s32) 2 .max) = [(5, 0), (7, 0), (7, 0), (7, 0)] ∧
    after4 [7, 2, 5, 3] (.cavity { r2 with g := ⟨false, 1⟩ } (.int s32) 2 .max) = [(3, 0), (7, 0), (9, 0), (7, 0)] := by decide +kernel

/-- 02_numbers R38: the origin NaN of lane 5 at PC 0x1F40. -/
theorem test_origin_nan : (match exec (.fsqrt r2 .f32) { base with
      threads := [(0, { thread 5 0 with x := (List.replicate 128 0).set 2 0xBF800000, pc := 0x1F40 })]
      cur := some { site with pc := 0x1F40 } } with
    | .next u => (u.thr 0).x.getD 1 0
    | _ => 0) = 0x7FC310C3 := by decide +kernel

end Sys2Proof.Tests
end

/-! ### A step runs the word that its threads fetch -/

namespace Sys2Proof.Machine

/-! #### What a step makes of its turn -/

/-- 00_scope R7: the next turn is the input's first. -/
theorem step_of_turns_cons {s : State} {t : Turn} {rest : List Turn} (h : s.turns = t :: rest) :
    step s = settle (runTurn t { s with turns := rest }) := by
  simp only [step, State.nextTurn, h]

@[simp] theorem settle_next (s : State) : settle (.next s) = .next { s with cur := none } := rfl

@[simp] theorem runTurn_issue (s : State) (p core slot : Nat) :
    runTurn (.issue p core slot) s = issueTurn p core slot s := rfl

/-- An instruction that no word encodes happens as `exec` gives it, with no fragment in issue. -/
theorem runTurn_event_of_encode_none {s : State} {i : Instr} (h : encode i = none) :
    runTurn (.event i) s = exec i { s with cur := none } := by
  simp [runTurn, isEvent, h]

/-! #### What an issue opportunity makes of its candidates -/

/-- A slot of the core that has not been served in this I-cycle tries the core's candidates in order (01_machine R14). -/
theorem issueTurn_of_free {s : State} {p core slot : Nat} (hslot : slot < 2) (hfree : (s.core (coreKey p core)).slotUsed ≤ slot) :
    issueTurn p core slot s = issueFirst s (coreKey p core) slot (s.ordered (coreKey p core)) := by
  simp [issueTurn, Nat.not_le.mpr hslot, Nat.not_lt.mpr hfree]

theorem issueTurn_of_ordered_nil {s : State} {p core : Nat} (slot : Nat) (h : s.ordered (coreKey p core) = []) :
    issueTurn p core slot s = .next s := by
  simp only [issueTurn, h, issueFirst, ite_self]

section
variable {s s1 : State} {g : Group} {tids : List Nat} (ck slot : Nat) (l : List Group)
  (hred : g.red = false) (hb : s.boundary g = (s1, tids, false)) (hne : tids ≠ [])
include hred hb hne

/-- Of a candidate that owes nothing at its boundary, what remains issues: the slot notes the issue. -/
theorem issueFirst_cons_of_issued {s2 : State} (h : issueSite (g.site s1 slot tids) s1 = .issued s2) :
    issueFirst s ck slot (g :: l) = .next (s2.noteIssue (g.site s1 slot tids) slot) := by
  simp [issueFirst, hred, hb, hne, h]

/-- The same where the opportunity is taken without a word: the slot alone is noted. -/
theorem issueFirst_cons_of_took {s2 : State} (h : issueSite (g.site s1 slot tids) s1 = .took s2) :
    issueFirst s ck slot (g :: l) = .next (s2.noteTaken (g.site s1 slot tids) slot) := by
  simp [issueFirst, hred, hb, hne, h]

end

/-! #### What a site makes of its word -/

section
variable {s s2 : State} {c : Site} {i0 : Nat} {tids : List Nat} {w : W64}
  (htids : c.tids = i0 :: tids) (hf : s.fetch c.wg i0 c.pc = (.word w, s2))
include htids hf

/-- 03_encoding R68: a word that does not decode is ILLEGAL in each thread of its site. -/
theorem issueSite_of_decode_error {e : Reject} (hd : decode w = .error e) :
    issueSite c s = .issued ({ s2 with cur := some { c with word := w } }.illegal { c with word := w }) := by
  simp [issueSite, htids, hf, hd]

/-- 03_encoding R51: a word that decodes runs at its site. -/
theorem issueSite_of_decode_ok {i : Instr} (hd : decode w = .ok i) :
    issueSite c s = runDecoded i { c with word := w } s2 := by
  simp [issueSite, htids, hf, hd]

end

section
variable {s u : State} {c : Site} {i : Instr} (hx : exec i { s with cur := some c } = .next u) (hheld : s.heldAs u c = false)
include hx hheld

theorem runDecoded_of_stands (hs : s.stands u c = true) : runDecoded i c s = .took u := by
  simp [runDecoded, hx, hheld, hs]

/-- 03_encoding R66: a word that no sequence continues issues alone. -/
theorem runDecoded_of_fuses_nil (hfu : s.fuses c i = []) (hs : s.stands u c = false) : runDecoded i c s = .issued u := by
  simp [runDecoded, hx, hheld, hs, hfu]

end

/-- Settles O58, by the three kinds of turn: an issue with a candidate, an event, and an issue with none. -/
theorem stepRunsDecoded : Obligations.StepRunsDecoded := by
  intro s rest t
  refine ⟨?_, ?_, ?_⟩
  · intro p core slot g l i0 tids w s1 s2 hturn hslot hfree hord hred hb hf c
    have hstep : step s = settle (issueFirst t (coreKey p core) slot (g :: l)) := by
      rw [step_of_turns_cons hturn, runTurn_issue, issueTurn_of_free (s := t) hslot hfree, hord]
    have hne : i0 :: tids ≠ [] := List.cons_ne_nil i0 tids
    refine ⟨?_, ?_⟩
    · intro i u hd hfu hx hheld
      have hsite : issueSite (g.site s1 slot (i0 :: tids)) s1 = runDecoded i c s2 := issueSite_of_decode_ok rfl hf hd
      cases hs : s2.stands u c with
      | true =>
        have htook := hsite.trans (runDecoded_of_stands hx hheld hs)
        rw [hstep, issueFirst_cons_of_took _ slot l hred hb hne htook]
        rfl
      | false =>
        have hissued := hsite.trans (runDecoded_of_fuses_nil hx hheld hfu hs)
        rw [hstep, issueFirst_cons_of_issued _ slot l hred hb hne hissued]
        rfl
    · intro e hd
      have hissued := issueSite_of_decode_error (c := g.site s1 slot (i0 :: tids)) rfl hf hd
      rw [hstep, issueFirst_cons_of_issued _ slot l hred hb hne hissued]
      rfl
  · intro i hturn henc
    rw [step_of_turns_cons hturn, runTurn_event_of_encode_none henc]
    rfl
  · intro p core slot hturn hord
    rw [step_of_turns_cons hturn, runTurn_issue, issueTurn_of_ordered_nil slot hord, settle_next]

end Sys2Proof.Machine

/-! ### Lane combinations (02_numbers R47, 07_lanes R131 to R134) -/

namespace Sys2Proof.Machine

/-- R131: what a combination word leaves in one lane, by its schedule `sched` over the values of the lane's segment. -/
theorem combOut_eq (d : XReg) (rd : Frag → Env → Nat) (t : LTy) (sz : Nat) (op : LOp)
    (sched : Nat → Comb Nat → Nat → List (Nat × W32) → List (Nat × W32)) (fr : Frag) (e : Env) :
    combOut d rd t sz op sched fr e = lPut d t ((sched (lIdent t op) (lComb t op e.pc) (segBase sz e.lane)
      (segVals (lIdent t op) fr (rd fr) (segBase sz e.lane) sz)).getD (e.lane - segBase sz e.lane) (lIdent t op, 0)) := rfl

section
variable (o : F2) (t : LTy) (seg : Seg) (op : LOp) (s : State)

/-- R132: REDUCE computes in each lane by the reduce schedule. -/
theorem exec_reduce_eq_runWord : exec (.reduce o t seg op) s =
    runWord (.reduce o t seg op) o.g (rdAll (ltyW t) o (sameSeg (segSize seg))) always
      (laneBody (combOut o.d (fun fr e => lRead t fr e o) t (segSize seg) op fun z f b => schedule (reduceStep z f b))) s := rfl

/-- R132: SCAN computes in each lane by the scan schedule. -/
theorem exec_scan_eq_runWord : exec (.scan o t seg op) s =
    runWord (.scan o t seg op) o.g (rdAll (ltyW t) o fun e f => sameSeg (segSize seg) e f && decide (f.lane ≤ e.lane)) always
      (laneBody (combOut o.d (fun fr e => lRead t fr e o) t (segSize seg) op fun z f b => schedule (scanStep z f b))) s := rfl

/-- R133: CAVITY computes in each lane by the scan schedule and its mirror. -/
theorem exec_cavity_eq_runWord : exec (.cavity o t seg op) s =
    runWord (.cavity o t seg op) o.g (rdAll (ltyW t) o fun e f => sameSeg (segSize seg) e f && f.lane != e.lane) always
      (laneBody (combOut o.d (fun fr e => lRead t fr e o) t (segSize seg) op fun z f b => cavitySched z f b)) s := rfl

end

/-- R134: LSCAN computes in each lane by the scan schedule over pairs. -/
theorem exec_lscan_eq_runWord (o : F3) (f : FFmt) (seg : Seg) (s : State) : exec (.lscan o f seg) s =
    runWord (.lscan o f seg) o.g (rdLscan o (segSize seg)) always (laneBody (lscanOut o f.n (segSize seg))) s := rfl

/-- Settles O9: REDUCE, SCAN and CAVITY are one combination word with three schedules, and LSCAN is the scan of its pairs. -/
theorem laneCombinations : Obligations.LaneCombinations := by
  intro s c
  refine ⟨?_, ?_⟩
  · intro i sched o t seg op hi h
    have hx : ∃ rd, exec i s =
        runWord i o.g rd always (laneBody (combOut o.d (fun fr e => lRead t fr e o) t (segSize seg) op sched)) s := by
      rcases hi with ⟨rfl, rfl⟩ | ⟨rfl, rfl⟩ | ⟨rfl, rfl⟩
      · exact ⟨_, exec_reduce_eq_runWord o t seg op s⟩
      · exact ⟨_, exec_scan_eq_runWord o t seg op s⟩
      · exact ⟨_, exec_cavity_eq_runWord o t seg op s⟩
    obtain ⟨rd, hx⟩ := hx
    exact computes_of hx h fun fr e => combOut_eq o.d (fun fr e => lRead t fr e o) t (segSize seg) op sched fr e
  · intro o f seg h
    exact computes_of (exec_lscan_eq_runWord o f seg s) h fun _ _ => rfl

end Sys2Proof.Machine

/-! ### Encoding and decoding agree (03_encoding R53 to R63, R70)

Two directions. A word that decodes is inverted arm by arm of the decoder: each step of an arm that succeeds fixes a field of the word or
some bits of its X field, and the word put together again from those is the one that the encoder writes. An instruction that encodes is
read back arm by arm of the encoder, by the laws of the field codes. -/

namespace Sys2Proof

/-! #### What the decoder's steps accept -/

theorem bind_eq_ok_iff {α β : Type} {x : Dec α} {k : α → Dec β} {b : β} :
    (x >>= k) = .ok b ↔ ∃ a, x = .ok a ∧ k a = .ok b := by
  cases x with
  | ok a => simp [ok_bind]
  | error e => simp [bind, Except.bind]

theorem need_eq_ok_iff {b : Bool} {r : Reject} {u : Unit} : need b r = .ok u ↔ b = true := by
  cases b <;> simp [need]

/-- A field code that reads back what was written, and only that, accepts exactly what is written. -/
theorem ok_iff_of_codec {α : Type} {n : Nat} {dec : BitVec n → Dec α} {enc : α → BitVec n} (hde : ∀ v, dec (enc v) = .ok v)
    (hed : ∀ {c v}, dec c = .ok v → enc v = c) (c : BitVec n) (v : α) : dec c = .ok v ↔ c = enc v :=
  ⟨fun h => (hed h).symm, fun h => h ▸ hde v⟩

theorem decX_ok_iff (c : BitVec 8) (v : XReg) : decX c = .ok v ↔ c = encX v := ok_iff_of_codec decX_encX encX_of_decX c v
theorem decK_ok_iff (c : BitVec 8) (v : KReg) : decK c = .ok v ↔ c = encK v := ok_iff_of_codec decK_encK encK_of_decK c v
theorem decA_ok_iff (c : BitVec 8) (v : AReg) : decA c = .ok v ↔ c = encA v := ok_iff_of_codec decA_encA encA_of_decA c v
theorem decQ_ok_iff (c : BitVec 8) (v : QReg) : decQ c = .ok v ↔ c = encQ v := ok_iff_of_codec decQ_encQ encQ_of_decQ c v
theorem decOp_ok_iff (c : BitVec 8) (v : Opnd) : decOp c = .ok v ↔ c = encOp v :=
  ok_iff_of_codec decOp_encOp encOp_of_decOp c v
theorem decBase_ok_iff (c : BitVec 8) (v : Base) : decBase c = .ok v ↔ c = encBase v :=
  ok_iff_of_codec decBase_encBase encBase_of_decBase c v
theorem decDst_ok_iff (c : BitVec 8) (v : Dst) : decDst c = .ok v ↔ c = encDst v :=
  ok_iff_of_codec decDst_encDst encDst_of_decDst c v
theorem decSM_ok_iff (c : BitVec 12) (v : Option SMod) : decSM c = .ok v ↔ c = encSM v :=
  ok_iff_of_codec decSM_encSM encSM_of_decSM c v
theorem decW2_ok_iff (c : BitVec 2) (v : W2) : decW2 c = .ok v ↔ c = encW2 v := ok_iff_of_codec decW2_encW2 encW2_of_decW2 c v
theorem decF2c_ok_iff (c : BitVec 2) (v : FFmt) : decF2c c = .ok v ↔ c = encF2c v :=
  ok_iff_of_codec decF2c_encF2c encF2c_of_decF2c c v
theorem decNF_ok_iff (c : BitVec 3) (v : NFmt) : decNF c = .ok v ↔ c = encNF v := ok_iff_of_codec decNF_encNF encNF_of_decNF c v
theorem decRM_ok_iff (c : BitVec 3) (v : RM) : decRM c = .ok v ↔ c = encRM v := ok_iff_of_codec decRM_encRM encRM_of_decRM c v
theorem decOrd_ok_iff (c : BitVec 3) (v : MOrd) : decOrd c = .ok v ↔ c = encOrd v :=
  ok_iff_of_codec decOrd_encOrd encOrd_of_decOrd c v
theorem decSc_ok_iff (c : BitVec 3) (v : Scope) : decSc c = .ok v ↔ c = encSc v := ok_iff_of_codec decSc_encSc encSc_of_decSc c v
theorem decCond_ok_iff (c : BitVec 3) (v : ICond) : decCond c = .ok v ↔ c = encCond v :=
  ok_iff_of_codec decCond_encCond encCond_of_decCond c v
theorem decBCond_ok_iff (c : BitVec 8) (v : BCond) : decBCond c = .ok v ↔ c = encBCond v :=
  ok_iff_of_codec decBCond_encBCond encBCond_of_decBCond c v
theorem decLOp_ok_iff (c : BitVec 3) (v : LOp) : decLOp c = .ok v ↔ c = encLOp v :=
  ok_iff_of_codec decLOp_encLOp encLOp_of_decLOp c v
theorem decVC_ok_iff (c : BitVec 2) (v : VCnt) : decVC c = .ok v ↔ c = encVC v := ok_iff_of_codec decVC_encVC encVC_of_decVC c v
theorem decAOp_ok_iff (c : BitVec 4) (v : AOp) : decAOp c = .ok v ↔ c = encAOp v :=
  ok_iff_of_codec decAOp_encAOp encAOp_of_decAOp c v
theorem decAK_ok_iff (c : BitVec 2) (v : AKind) : decAK c = .ok v ↔ c = encAK v := ok_iff_of_codec decAK_encAK encAK_of_decAK c v
theorem decPart_ok_iff (c : BitVec 2) (v : IncPart) : decPart c = .ok v ↔ c = encPart v :=
  ok_iff_of_codec decPart_encPart encPart_of_decPart c v
theorem decHop_ok_iff (c : BitVec 7) (v : HOp) : decHop c = .ok v ↔ c = encHop v :=
  ok_iff_of_codec decHop_encHop encHop_of_decHop c v

theorem decFF_ok_iff (c : BitVec 2) (s : Bool) (f : FFmt) : decFF c s = .ok f ↔ c = (encFF f).1 ∧ s = (encFF f).2 :=
  ⟨fun h => by simp [encFF_of_decFF h], fun ⟨hc, hs⟩ => by rw [hc, hs]; exact decFF_encFF f⟩

/-! #### What the readers of the operand groups accept -/

theorem FF.f3_ok_iff (f : FF) (o : F3) : f.f3 = .ok o ↔
    f.d = encX o.d ∧ f.a = encOp o.a ∧ f.b = encOp o.b ∧ f.sm = encSM o.sm ∧ decG f.g = o.g := by
  obtain ⟨d, a, b, sm, g⟩ := o
  simp [FF.f3, bind_eq_ok_iff, decX_ok_iff, decOp_ok_iff, decSM_ok_iff]

theorem FF.f2_ok_iff (f : FF) (o : F2) : f.f2 = .ok o ↔
    f.d = encX o.d ∧ f.a = 0 ∧ f.b = encOp o.b ∧ f.sm = encSM o.sm ∧ decG f.g = o.g := by
  obtain ⟨d, b, sm, g⟩ := o
  simp [FF.f2, bind_eq_ok_iff, need_eq_ok_iff, decX_ok_iff, decOp_ok_iff, decSM_ok_iff]

theorem FF.fp_ok_iff (f : FF) (o : FP) : f.fp = .ok o ↔
    f.d = encQ o.q ∧ f.a = encOp o.a ∧ f.b = encOp o.b ∧ f.sm = encSM o.sm ∧ decG f.g = o.g := by
  obtain ⟨q, a, b, sm, g⟩ := o
  simp [FF.fp, bind_eq_ok_iff, decQ_ok_iff, decOp_ok_iff, decSM_ok_iff]

theorem FF.maddr_ok_iff (f : FF) (m : MAddr) : f.maddr = .ok m ↔ f.a = encBase m.a ∧ f.sm = m.off ∧ decG f.g = m.g := by
  obtain ⟨a, o, g⟩ := m
  simp [FF.maddr, bind_eq_ok_iff, decBase_ok_iff]

theorem FF.eargs_ok_iff (f : FF) (e : EArgs) : f.eargs = .ok e ↔
    f.d = encX e.d ∧ f.a = encK e.a ∧ f.b = 0 ∧ f.x = 0 ∧ f.sm = e.off ∧ decG f.g = e.g := by
  obtain ⟨d, a, o, g⟩ := e
  simp [FF.eargs, bind_eq_ok_iff, need_eq_ok_iff, decX_ok_iff, decK_ok_iff, and_assoc]

theorem FF.bare_ok_iff (f : FF) (u : Unit) : f.bare = .ok u ↔ f.d = 0 ∧ f.a = 0 ∧ f.b = 0 ∧ f.sm = 0 := by
  simp [FF.bare, need_eq_ok_iff, and_assoc]

theorem FF.mo_ok_iff (f : FF) (o : MO) : f.mo = .ok o ↔
    f.x.extractLsb' 7 3 = encOrd o.o ∧ f.x.extractLsb' 4 3 = encSc o.sc := by
  obtain ⟨o, s⟩ := o
  simp [FF.mo, bind_eq_ok_iff, decOrd_ok_iff, decSc_ok_iff]

/-- The type of a lane combination is read from X[12:10], and from X[9:7] and X[3] whether it is a float with a rounding mode (R131). -/
theorem XF.lty_ok_iff (x : XF) (t : LTy) : x.lty = .ok t ↔
    match t with
    | .int i => x.l.getLsbD 3 = false ∧ x.r = 0 ∧ x.ity = i
    | .flt f rm => x.l.getLsbD 3 = true ∧ (x.w = (encFF f).1 ∧ x.s = (encFF f).2) ∧ x.r = encRM rm := by
  cases h : x.l.getLsbD 3 <;> cases t <;>
    simp [XF.lty, h, bind_eq_ok_iff, need_eq_ok_iff, decFF_ok_iff, decRM_ok_iff, -BitVec.getLsbD_eq_getElem]

/-! #### Slices of a field

An equation between slices is brought down to single bits and to slices that hold one code each. -/

theorem append_eq_iff {m n : Nat} (a : BitVec m) (b : BitVec n) (x : BitVec (no_index (m + n))) :
    @Eq (no_index (BitVec (m + n)))
      (@HAppend.hAppend (BitVec m) (BitVec n) (no_index (BitVec (m + n))) (no_index inferInstance) a b) x ↔
    a = x.extractLsb' n m ∧ b = x.extractLsb' 0 n := by
  constructor
  · intro h
    have h' : a ++ b = x := h
    rw [← h']
    exact ⟨BitVec.extractLsb'_append_eq_left.symm, BitVec.extractLsb'_append_eq_right.symm⟩
  · rintro ⟨rfl, rfl⟩
    exact BitVec.extractLsb'_append_extractLsb'

theorem extract_extract {n : Nat} (x : BitVec n) (s k t len : Nat) (h : t + k ≤ len) :
    (x.extractLsb' s len).extractLsb' t k = x.extractLsb' (s + t) k := by
  apply BitVec.eq_of_getLsbD_eq; intro i hi
  simp only [BitVec.getLsbD_extractLsb', hi, decide_true, Bool.true_and, Nat.add_assoc, show t + i < len by omega]

theorem bit_extract {n : Nat} (x : BitVec n) (s len i : Nat) (h : i < len) :
    (x.extractLsb' s len).getLsbD i = x.getLsbD (s + i) := by
  simp only [BitVec.getLsbD_extractLsb', h, decide_true, Bool.true_and]

theorem ofBool_eq_extract_iff {n : Nat} (b : Bool) (x : BitVec n) (s : Nat) :
    BitVec.ofBool b = x.extractLsb' s 1 ↔ b = x.getLsbD s := by
  have hx : x.extractLsb' s 1 = BitVec.ofBool (x.getLsbD s) := by
    apply BitVec.eq_of_getLsbD_eq; intro i hi
    obtain rfl : i = 0 := by omega
    rw [bit_extract x s 1 0 (by omega)]
    exact (bit_ofBool _).symm
  rw [hx]
  exact ⟨fun h => by simpa using congrArg (BitVec.getLsbD · 0) h, fun h => by rw [h]⟩

/-- A slice holds a number where its lowest bit and the rest of it do. -/
theorem extract_succ_eq_ofNat_iff {w : Nat} (x : BitVec w) (s n c : Nat) :
    x.extractLsb' s (n + 1) = BitVec.ofNat (n + 1) c ↔
      x.getLsbD s = (c % 2 == 1) ∧ x.extractLsb' (s + 1) n = BitVec.ofNat n (c / 2) := by
  have hlow : c.testBit 0 = (c % 2 == 1) := by rw [Nat.testBit_zero]; rfl
  constructor
  · intro h
    have hbit (i : Nat) (hi : i < n + 1) : x.getLsbD (s + i) = c.testBit i := by
      rw [← bit_extract x s (n + 1) i hi, h, BitVec.getLsbD_ofNat, decide_eq_true hi, Bool.true_and]
    refine ⟨(hbit 0 (by omega)).trans hlow, BitVec.eq_of_getLsbD_eq fun i hi => ?_⟩
    rw [bit_extract x (s + 1) n i hi, Nat.add_assoc, Nat.add_comm 1 i, hbit (i + 1) (by omega), Nat.testBit_succ,
      BitVec.getLsbD_ofNat, decide_eq_true hi, Bool.true_and]
  · rintro ⟨h0, h⟩
    refine BitVec.eq_of_getLsbD_eq fun i hi => ?_
    rw [bit_extract x s (n + 1) i hi, BitVec.getLsbD_ofNat, decide_eq_true hi, Bool.true_and]
    match i with
    | 0 => exact h0.trans hlow.symm
    | i + 1 =>
      have hi' : i < n := by omega
      rw [Nat.add_comm i 1, ← Nat.add_assoc, ← bit_extract x (s + 1) n i hi', h, BitVec.getLsbD_ofNat, Nat.add_comm 1 i,
        Nat.testBit_succ, decide_eq_true hi', Bool.true_and]

/-- The same of a whole field, as an encoder writes it. -/
theorem ofNat_succ_eq_iff {n : Nat} (c : Nat) (x : BitVec (n + 1)) :
    BitVec.ofNat (n + 1) c = x ↔ x.getLsbD 0 = (c % 2 == 1) ∧ x.extractLsb' 1 n = BitVec.ofNat n (c / 2) := by
  rw [← extract_succ_eq_ofNat_iff x 0 n c, extract_full, eq_comm]

theorem toNat_eq_iff {n : Nat} (x : BitVec n) (k : Nat) (h : k < 2 ^ n) : x.toNat = k ↔ x = BitVec.ofNat n k := by
  rw [BitVec.toNat_eq_nat, and_iff_right h]

/-! #### Words put together again from what was read -/

section
variable {f : FF} {op : BitVec 10} {x : BitVec 13} (hop : f.op = op)
include hop

theorem FF.mk_eq_word {d a b : BitVec 8} {sm : BitVec 12} (hd : f.d = d) (ha : f.a = a) (hb : f.b = b) (hs : f.sm = sm)
    (hx : x = f.x) : (FF.mk op d a b sm (encG (decG f.g)) x).word = f.word := by
  subst hop hd ha hb hs hx
  rw [encG_decG]

theorem IF.mk_eq_word {d a : BitVec 8} {v : BitVec 33} (hd : (IF.of f.word).d = d) (ha : (IF.of f.word).a = a)
    (hv : v = (IF.of f.word).imm) : (IF.mk op d a (encG (decG (IF.of f.word).g)) v).word = f.word := by
  rw [← IF.of_word_op f] at hop
  subst hop hd ha hv
  rw [encG_decG]
  exact IF.word_of (FF.word_63 f)

theorem encF3_eq_word {o : F3} (ho : f.f3 = .ok o) (hx : x = f.x) : encF3 op o x = f.word := by
  obtain ⟨hd, ha, hb, hs, hg⟩ := (FF.f3_ok_iff f o).1 ho
  rw [encF3, ← hg]
  exact FF.mk_eq_word hop hd ha hb hs hx

theorem encF2_eq_word {o : F2} (ho : f.f2 = .ok o) (hx : x = f.x) : encF2 op o x = f.word := by
  obtain ⟨hd, ha, hb, hs, hg⟩ := (FF.f2_ok_iff f o).1 ho
  rw [encF2, ← hg]
  exact FF.mk_eq_word hop hd ha hb hs hx

theorem encFP_eq_word {o : FP} (ho : f.fp = .ok o) (hx : x = f.x) : encFP op o x = f.word := by
  obtain ⟨hd, ha, hb, hs, hg⟩ := (FF.fp_ok_iff f o).1 ho
  rw [encFP, ← hg]
  exact FF.mk_eq_word hop hd ha hb hs hx

theorem encM_eq_word {m : MAddr} {d b : BitVec 8} (hd : f.d = d) (hm : f.maddr = .ok m) (hb : f.b = b) (hx : x = f.x) :
    encM op d m b x = f.word := by
  obtain ⟨ha, hs, hg⟩ := (FF.maddr_ok_iff f m).1 hm
  rw [encM, ← hg]
  exact FF.mk_eq_word hop hd ha hb hs hx

theorem encE_eq_word {e : EArgs} (he : f.eargs = .ok e) : encE op e = f.word := by
  obtain ⟨hd, ha, hb, hx, hs, hg⟩ := (FF.eargs_ok_iff f e).1 he
  rw [encE, ← hg]
  exact FF.mk_eq_word hop hd ha hb hs hx.symm

theorem encBare_eq_word (hb : f.d = 0 ∧ f.a = 0 ∧ f.b = 0 ∧ f.sm = 0) (hx : x = f.x) : encBare op (decG f.g) x = f.word := by
  obtain ⟨hd, ha, hb, hs⟩ := hb
  exact FF.mk_eq_word hop hd ha hb hs hx

end

/-- The X field of a lane combination, from its type, segment and operator (R125). -/
theorem encXL_eq {x : BitVec 13} {t : LTy} {op : LOp} (ht : (XF.of x).lty = .ok t) (hop : x.extractLsb' 0 3 = encLOp op) :
    encXL t (x.extractLsb' 4 3) op = x := by
  rw [XF.lty_ok_iff] at ht
  cases t with
  | int i =>
    simp (disch := omega) only [XF.of, XF.ity, bit_extract, extract_succ_eq_ofNat_iff, BitVec.ofNat_eq_ofNat,
      BitVec.extractLsb'_eq_zero, Nat.reduceAdd, Nat.reduceMod, Nat.reduceDiv, Nat.reduceBEq, and_true] at ht
    obtain ⟨h3, hr, rfl⟩ := ht
    simp (disch := omega) [encXL, append_eq_iff, extract_extract, ofBool_eq_extract_iff, ofNat_succ_eq_iff,
      extract_succ_eq_ofNat_iff, *, -BitVec.getLsbD_eq_getElem]
  | flt f rm =>
    simp (disch := omega) only [XF.of, bit_extract, Nat.reduceAdd] at ht
    simp (disch := omega) [encXL, append_eq_iff, extract_extract, ofBool_eq_extract_iff, ofNat_succ_eq_iff, *,
      -BitVec.getLsbD_eq_getElem]

/-! #### A word that decodes is the encoder's, group by group

`h_1`, `h_2` and so on are the arms of the decoder, from index 0 on. What is left of each arm after its operands is the X field. -/

section
variable {f : FF} {i : Instr} {n : Nat}

theorem encode_of_decG0 (hop : f.op = BitVec.ofNat 10 (0x000 + n)) (h : decG0 n f (IF.of f.word) = .ok i) :
    encode i = some f.word := by
  unfold decG0 at h
  split at h
  case h_29 =>
    split at h
    all_goals simp only [decX_ok_iff, decDst_ok_iff, bind_eq_ok_iff, need_eq_ok_iff, beq_iff_eq, exists_const, Except.ok.injEq,
      reduceCtorEq] at h
    · next ha =>
      obtain ⟨d, hd, hx, rfl⟩ := h
      have hz : 0#1 = (IF.of f.word).imm.extractLsb' 32 1 := (ofBool_eq_extract_iff false _ 32).2 hx.symm
      exact congrArg some (IF.mk_eq_word hop hd (BitVec.eq_of_toNat_eq ha) ((append_eq_iff _ _ _).2 ⟨hz, rfl⟩))
    · next ha =>
      obtain ⟨d, hd, rfl⟩ := h
      exact congrArg some (IF.mk_eq_word hop hd (BitVec.eq_of_toNat_eq ha) rfl)
  all_goals
    simp (disch := omega) only [decX_ok_iff, decOp_ok_iff, decW2_ok_iff, decCond_ok_iff, decDst_ok_iff, decSM_ok_iff, XF.plain,
      XF.of, XF.ity, bind_eq_ok_iff, need_eq_ok_iff, Bool.and_eq_true, beq_iff_eq, exists_const, Except.ok.injEq, reduceCtorEq,
      bit_extract, extract_extract, extract_succ_eq_ofNat_iff, BitVec.ofNat_eq_ofNat, BitVec.extractLsb'_eq_zero, Nat.reduceAdd,
      Nat.reduceMod, Nat.reduceDiv, Nat.reduceBEq, and_true] at h
  case h_31 =>
    obtain ⟨d, hd, a, ha, rfl⟩ := h
    exact congrArg some (IF.mk_eq_word hop hd ha rfl)
  case' h_1 | h_2 | h_4 | h_7 | h_8 | h_9 | h_10 | h_12 | h_13 | h_14 | h_15 | h_16 | h_17 | h_18 | h_19 | h_24 | h_25 | h_26 =>
    obtain ⟨o, ho, hx, rfl⟩ := h
    refine congrArg some (encF3_eq_word hop ho ?_)
  case' h_3 | h_5 | h_6 =>
    obtain ⟨o, ho, c, hc, hx, rfl⟩ := h
    refine congrArg some (encF3_eq_word hop ho ?_)
  case' h_11 | h_20 | h_21 | h_22 =>
    obtain ⟨o, ho, hs, hx, rfl⟩ := h
    refine congrArg some (encF2_eq_word hop ho ?_)
  case' h_23 =>
    obtain ⟨o, ho, hx, rfl⟩ := h
    refine congrArg some (encF2_eq_word hop ho ?_)
  case' h_27 =>
    obtain ⟨o, ho, hx, c, hc, rfl⟩ := h
    refine congrArg some (encFP_eq_word hop ho ?_)
  case' h_28 =>
    obtain ⟨d, hd, ha, b, hb, m, hm, hx, rfl⟩ := h
    refine congrArg some (FF.mk_eq_word hop hd ha hb hm ?_)
  case' h_30 =>
    obtain ⟨d, hd, m, hm, b, hb, hx, rfl⟩ := h
    refine congrArg some (encM_eq_word hop hd hm hb ?_)
  all_goals simp (disch := omega) [encXI, encP, XF.bits, append_eq_iff, extract_extract, ofBool_eq_extract_iff, ofNat_succ_eq_iff,
    extract_succ_eq_ofNat_iff, *, -BitVec.getLsbD_eq_getElem]

theorem encode_of_decG1 (hop : f.op = BitVec.ofNat 10 (0x080 + n)) (h : decG1 n f = .ok i) : encode i = some f.word := by
  unfold decG1 at h
  split at h
  all_goals
    simp (disch := omega) only [decOp_ok_iff, decRM_ok_iff, decFF_ok_iff, decF2c_ok_iff, decNF_ok_iff, decAK_ok_iff, XF.plain,
      XF.of, XF.ity, bind_eq_ok_iff, need_eq_ok_iff, ite_eq_iff, Bool.and_eq_true, beq_iff_eq, exists_const, Except.ok.injEq,
      reduceCtorEq, bit_extract, extract_extract, extract_succ_eq_ofNat_iff, BitVec.ofNat_eq_ofNat, BitVec.extractLsb'_eq_zero,
      Nat.reduceAdd, Nat.reduceMod, Nat.reduceDiv, Nat.reduceBEq, and_true] at h
  case' h_1 | h_2 | h_3 =>
    obtain ⟨o, ho, t, ht, rm, hrm, hx, rfl⟩ := h
    refine congrArg some (encF3_eq_word hop ho ?_)
  case' h_4 =>
    obtain ⟨o, ho, c, hc, rm, hrm, t, ht, rfl⟩ := h
    refine congrArg some (encF3_eq_word hop ho ?_)
  case' h_5 | h_6 | h_19 | h_20 =>
    obtain ⟨o, ho, t, ht, hx, rfl⟩ := h
    refine congrArg some (encF3_eq_word hop ho ?_)
  case' h_7 =>
    obtain ⟨o, ho, t, ht, hx, rfl⟩ := h
    refine congrArg some (encFP_eq_word hop ho ?_)
  case' h_8 | h_9 | h_10 | h_11 | h_12 | h_13 | h_14 | h_15 =>
    obtain ⟨o, ho, t, ht, hx, rfl⟩ := h
    refine congrArg some (encF2_eq_word hop ho ?_)
  case' h_16 =>
    obtain ⟨o, ho, dst, hd, rm, hrm, src, hs, hx, rfl⟩ := h
    refine congrArg some (encF2_eq_word hop ho ?_)
  case' h_17 | h_18 | h_24 =>
    obtain ⟨o, ho, t, ht, rm, hrm, hx, rfl⟩ := h
    refine congrArg some (encF2_eq_word hop ho ?_)
  case' h_21 =>
    obtain ⟨o, ho, t, ht, rm, hrm, ak, hak, hx, rfl⟩ := h
    refine congrArg some (encF3_eq_word hop ho ?_)
  case' h_22 =>
    obtain ⟨o, ho, hx, ⟨hf, t, ht, rfl⟩ | ⟨hf, rfl⟩⟩ := h
    all_goals refine congrArg some (encF2_eq_word hop ho ?_)
  case' h_23 =>
    obtain ⟨o, ho, hw, rm, hrm, hx, rfl⟩ := h
    refine congrArg some (encF3_eq_word hop ho ?_)
  all_goals simp (disch := omega) [encXI, encXFl, XF.bits, append_eq_iff, extract_extract, ofBool_eq_extract_iff, ofNat_succ_eq_iff,
    extract_succ_eq_ofNat_iff, *, -BitVec.getLsbD_eq_getElem]

theorem encode_of_decG2 (hop : f.op = BitVec.ofNat 10 (0x100 + n)) (h : decG2 n f = .ok i) : encode i = some f.word := by
  unfold decG2 at h
  split at h
  all_goals
    simp only [decOp_ok_iff, decX_ok_iff, decQ_ok_iff, decSM_ok_iff, decW2_ok_iff, decLOp_ok_iff, decFF_ok_iff, XF.plain, FF.seg,
      bind_eq_ok_iff, need_eq_ok_iff, Bool.and_eq_true, beq_iff_eq, exists_const, Except.ok.injEq, reduceCtorEq] at h
  case h_5 | h_6 | h_8 =>
    obtain ⟨o, ho, t, ht, c, hc, rfl⟩ := h
    exact congrArg some (encF2_eq_word hop ho (encXL_eq ht hc))
  all_goals
    simp (disch := omega) only [XF.of, bit_extract, extract_extract, extract_succ_eq_ofNat_iff, BitVec.ofNat_eq_ofNat,
      BitVec.extractLsb'_eq_zero, Nat.reduceAdd, Nat.reduceMod, Nat.reduceDiv, Nat.reduceBEq, and_true] at h
  case' h_1 =>
    obtain ⟨o, ho, w, hw, hx, hx', rfl⟩ := h
    refine congrArg some (encF3_eq_word hop ho ?_)
  case' h_2 | h_7 =>
    obtain ⟨o, ho, w, hw, hx, rfl⟩ := h
    refine congrArg some (encF3_eq_word hop ho ?_)
  case h_3 =>
    obtain ⟨⟨⟨ha, hb⟩, hs⟩, hx, h⟩ := h
    have hlt := (f.x.extractLsb' 4 2).isLt
    split at h
    case' h_4 h0 h1 h2 =>
      change ¬ _ at h0 h1 h2
      have hk : (f.x.extractLsb' 4 2).toNat = 3 := by omega
    all_goals
      rename_i hk
      rw [toNat_eq_iff _ _ (by decide)] at hk
      simp (disch := omega) only [extract_succ_eq_ofNat_iff, BitVec.extractLsb'_eq_zero, Nat.reduceAdd, Nat.reduceMod,
        Nat.reduceDiv, Nat.reduceBEq, and_true] at hk
      simp only [decQ_ok_iff, decX_ok_iff, bind_eq_ok_iff, Except.ok.injEq] at h
      obtain ⟨d, hd, rfl⟩ := h
      refine congrArg some (FF.mk_eq_word hop hd ha hb hs ?_)
      simp (disch := omega) [encP, append_eq_iff, extract_extract, ofBool_eq_extract_iff, ofNat_succ_eq_iff,
        extract_succ_eq_ofNat_iff, *, -BitVec.getLsbD_eq_getElem]
  case' h_4 =>
    obtain ⟨o, ho, w, hw, hx, rfl⟩ := h
    refine congrArg some (encF2_eq_word hop ho ?_)
  case' h_9 =>
    obtain ⟨⟨hd, ha⟩, b, hb, m, hm, w, hw, hx, rfl⟩ := h
    refine congrArg some (FF.mk_eq_word hop hd ha hb hm ?_)
  case' h_10 =>
    obtain ⟨d, hd, ⟨⟨ha, hb⟩, hs⟩, w, hw, hx, rfl⟩ := h
    refine congrArg some (FF.mk_eq_word hop hd ha hb hs ?_)
  case' h_11 =>
    obtain ⟨d, hd, ⟨⟨⟨ha, hb⟩, hs⟩, hx⟩, rfl⟩ := h
    refine congrArg some (FF.mk_eq_word hop hd ha hb hs hx.symm)
  all_goals simp (disch := omega) [append_eq_iff, extract_extract, ofBool_eq_extract_iff, ofNat_succ_eq_iff,
    extract_succ_eq_ofNat_iff, *, -BitVec.getLsbD_eq_getElem]

theorem encode_of_decG3 (hop : f.op = BitVec.ofNat 10 (0x180 + n)) (h : decG3 n f = .ok i) : encode i = some f.word := by
  unfold decG3 at h
  split at h
  all_goals
    simp (disch := omega) only [FF.bare_ok_iff, decOp_ok_iff, decX_ok_iff, decA_ok_iff, decSM_ok_iff, bind_eq_ok_iff,
      need_eq_ok_iff, Bool.and_eq_true, beq_iff_eq, exists_const, Except.ok.injEq, reduceCtorEq, extract_succ_eq_ofNat_iff,
      BitVec.ofNat_eq_ofNat, BitVec.extractLsb'_eq_zero, Nat.reduceAdd, Nat.reduceMod, Nat.reduceDiv, Nat.reduceBEq, and_true] at h
  case' h_1 =>
    obtain ⟨⟨⟨⟨hd, hb⟩, hs⟩, hx⟩, a, ha, rfl⟩ := h
    refine congrArg some (FF.mk_eq_word hop hd ha hb hs ?_)
  case' h_2 | h_3 =>
    obtain ⟨hb, rfl⟩ := h
    refine congrArg some (encBare_eq_word hop hb ?_)
  case h_4 =>
    obtain ⟨⟨⟨hd, hb⟩, hx⟩, m, hm, rfl⟩ := h
    exact congrArg some (encM_eq_word hop hd hm hb hx.symm)
  case' h_5 | h_6 =>
    obtain ⟨a, hd, ⟨⟨⟨ha, hb⟩, hs⟩, hx⟩, rfl⟩ := h
    refine congrArg some (FF.mk_eq_word hop hd ha hb hs ?_)
  case' h_7 | h_10 =>
    obtain ⟨hb, hx, rfl⟩ := h
    refine congrArg some (encBare_eq_word hop hb ?_)
  case h_8 =>
    obtain ⟨d, hd, a, ha, b, hb, m, hm, hx, rfl⟩ := h
    exact congrArg some (FF.mk_eq_word hop hd ha hb hm hx.symm)
  case h_9 =>
    obtain ⟨a, hd, m, hm, b, hb, hx, rfl⟩ := h
    exact congrArg some (encM_eq_word hop hd hm hb hx.symm)
  all_goals simp (disch := omega) [append_eq_iff, extract_extract, ofBool_eq_extract_iff, ofNat_succ_eq_iff,
    extract_succ_eq_ofNat_iff, *, -BitVec.getLsbD_eq_getElem]

theorem encode_of_decG4 (hop : f.op = BitVec.ofNat 10 (0x200 + n)) (h : decG4 n f (IF.of f.word) = .ok i) :
    encode i = some f.word := by
  unfold decG4 at h
  split at h
  all_goals
    simp (disch := omega) only [FF.bare_ok_iff, decOp_ok_iff, decX_ok_iff, decBase_ok_iff, decBCond_ok_iff, decPart_ok_iff,
      decSM_ok_iff, bind_eq_ok_iff, need_eq_ok_iff, ite_eq_iff, Bool.and_eq_true, beq_iff_eq, exists_const, Except.ok.injEq,
      reduceCtorEq, extract_succ_eq_ofNat_iff, BitVec.ofNat_eq_ofNat, BitVec.extractLsb'_eq_zero, Nat.reduceAdd, Nat.reduceMod,
      Nat.reduceDiv, Nat.reduceBEq, and_true] at h
  case h_1 | h_11 =>
    obtain ⟨⟨hd, ha⟩, rfl⟩ := h
    exact congrArg some (IF.mk_eq_word hop hd ha rfl)
  case h_2 =>
    obtain ⟨c, hd, a, ha, rfl⟩ := h
    exact congrArg some (IF.mk_eq_word hop hd ha rfl)
  case h_3 =>
    obtain ⟨d, hd, ha, rfl⟩ := h
    exact congrArg some (IF.mk_eq_word hop hd ha rfl)
  case h_4 =>
    obtain ⟨⟨⟨⟨hd, ha⟩, hs⟩, hx⟩, b, hb, rfl⟩ := h
    exact congrArg some (FF.mk_eq_word hop hd ha hb hs hx.symm)
  case' h_5 =>
    obtain ⟨⟨⟨ha, hs⟩, hx⟩, b, hb, ⟨hl, d, hd, rfl⟩ | ⟨hl, hd, rfl⟩⟩ := h
    all_goals refine congrArg some (FF.mk_eq_word hop hd ha hb hs ?_)
  case' h_6 | h_7 =>
    obtain ⟨hb, hx, rfl⟩ := h
    refine congrArg some (encBare_eq_word hop hb ?_)
  case h_8 | h_9 | h_10 | h_16 =>
    obtain ⟨hb, hx, rfl⟩ := h
    exact congrArg some (encBare_eq_word hop hb hx.symm)
  case' h_12 =>
    obtain ⟨⟨⟨hd, ha⟩, hx⟩, ⟨hn, ⟨⟨hb, hs⟩, hx'⟩, rfl⟩ | ⟨hn, b, hb, m, hs, rfl⟩⟩ := h
    all_goals refine congrArg some (FF.mk_eq_word hop hd ha hb hs ?_)
  case' h_13 =>
    obtain ⟨⟨hd, hx⟩, a, ha, b, hb, m, hm, rfl⟩ := h
    refine congrArg some (FF.mk_eq_word hop hd ha hb hm ?_)
  case' h_14 =>
    obtain ⟨d, hd, ⟨⟨⟨ha, hb⟩, hs⟩, hx⟩, p, hp, rfl⟩ := h
    refine congrArg some (FF.mk_eq_word hop hd ha hb hs ?_)
  case' h_15 =>
    obtain ⟨⟨⟨hd, ha⟩, hx⟩, b, hb, m, hm, rfl⟩ := h
    refine congrArg some (FF.mk_eq_word hop hd ha hb hm ?_)
  all_goals simp (disch := omega) [append_eq_iff, extract_extract, ofNat_succ_eq_iff, extract_succ_eq_ofNat_iff, *,
    -BitVec.getLsbD_eq_getElem]

theorem encode_of_decG5 (hop : f.op = BitVec.ofNat 10 (0x280 + n)) (h : decG5 n f = .ok i) : encode i = some f.word := by
  unfold decG5 at h
  split at h
  all_goals
    simp (disch := omega) only [FF.bare_ok_iff, FF.mo_ok_iff, decOp_ok_iff, decX_ok_iff, decBase_ok_iff, decDst_ok_iff,
      decW2_ok_iff, decVC_ok_iff, decAOp_ok_iff, XF.of, XF.ity, bind_eq_ok_iff, need_eq_ok_iff, Bool.and_eq_true, beq_iff_eq,
      exists_const, Except.ok.injEq, reduceCtorEq, extract_succ_eq_ofNat_iff, BitVec.ofNat_eq_ofNat, BitVec.extractLsb'_eq_zero,
      Nat.reduceAdd, Nat.reduceMod, Nat.reduceDiv, Nat.reduceBEq, and_true] at h
  case' h_1 =>
    obtain ⟨d, hd, m, hm, o, ho, ⟨hb, hx⟩, rfl⟩ := h
    refine congrArg some (encM_eq_word hop hd hm hb ?_)
  case' h_2 =>
    obtain ⟨m, hm, b, hb, o, ho, ⟨⟨hd, hx⟩, hs⟩, rfl⟩ := h
    refine congrArg some (encM_eq_word hop hd hm hb ?_)
  case' h_3 =>
    obtain ⟨d, hd, m, hm, o, ho, ⟨hb, hx⟩, c, hc, rfl⟩ := h
    refine congrArg some (encM_eq_word hop hd hm hb ?_)
  case' h_4 =>
    obtain ⟨m, hm, b, hb, o, ho, ⟨⟨hd, hx⟩, hs⟩, c, hc, rfl⟩ := h
    refine congrArg some (encM_eq_word hop hd hm hb ?_)
  case' h_5 =>
    obtain ⟨d, hd, m, hm, b, hb, w, hw, o, ho, op, hx, hs, rfl⟩ := h
    refine congrArg some (encM_eq_word hop hd hm hb ?_)
  case' h_6 =>
    obtain ⟨d, hd, m, hm, b, hb, w, hw, o, ho, hx, rfl⟩ := h
    refine congrArg some (encM_eq_word hop hd hm hb ?_)
  case' h_7 =>
    obtain ⟨d, hd, m, hm, o, ho, hw, ⟨⟨hb, hx⟩, hs⟩, rfl⟩ := h
    refine congrArg some (encM_eq_word hop hd hm hb ?_)
  case' h_8 =>
    obtain ⟨m, hm, b, hb, o, ho, hw, ⟨⟨hd, hx⟩, hs⟩, rfl⟩ := h
    refine congrArg some (encM_eq_word hop hd hm hb ?_)
  case h_9 =>
    obtain ⟨m, hm, o, ho, hw, ⟨⟨hb, hx⟩, hs⟩, h⟩ := h
    split at h
    all_goals
      rename_i hk
      simp only [decX_ok_iff, bind_eq_ok_iff, need_eq_ok_iff, beq_iff_eq, exists_const, Except.ok.injEq, reduceCtorEq] at h
    all_goals
      rw [toNat_eq_iff _ _ (by decide)] at hk
      simp (disch := omega) only [extract_succ_eq_ofNat_iff, BitVec.extractLsb'_eq_zero, Nat.reduceAdd, Nat.reduceMod,
        Nat.reduceDiv, Nat.reduceBEq, and_true] at hk
    case' h_1 => obtain ⟨d, hd, rfl⟩ := h
    case' h_2 | h_3 => obtain ⟨hd, rfl⟩ := h
    all_goals
      refine congrArg some (encM_eq_word hop hd hm hb ?_)
      simp (disch := omega) [encXM, append_eq_iff, extract_extract, ofNat_succ_eq_iff, extract_succ_eq_ofNat_iff, *,
        -BitVec.getLsbD_eq_getElem]
  case' h_10 =>
    obtain ⟨hb, o, ho, hx, rfl⟩ := h
    refine congrArg some (encBare_eq_word hop hb ?_)
  case h_11 =>
    obtain ⟨m, hm, ⟨⟨hd, hb⟩, hx⟩, rfl⟩ := h
    exact congrArg some (encM_eq_word hop hd hm hb hx.symm)
  all_goals simp (disch := omega) [encXM, append_eq_iff, extract_extract, ofBool_eq_extract_iff, ofNat_succ_eq_iff,
    extract_succ_eq_ofNat_iff, *, -BitVec.getLsbD_eq_getElem]

theorem encode_of_decG6 (hop : f.op = BitVec.ofNat 10 (0x300 + n)) (h : decG6 n f = .ok i) : encode i = some f.word := by
  unfold decG6 at h
  split at h
  all_goals
    simp (disch := omega) only [FF.mo_ok_iff, decOp_ok_iff, decX_ok_iff, decBase_ok_iff, decSc_ok_iff, bind_eq_ok_iff,
      need_eq_ok_iff, ite_eq_iff, Bool.and_eq_true, beq_iff_eq, exists_const, Except.ok.injEq, reduceCtorEq,
      extract_succ_eq_ofNat_iff, BitVec.ofNat_eq_ofNat, BitVec.extractLsb'_eq_zero, Nat.reduceAdd, Nat.reduceMod, Nat.reduceDiv,
      Nat.reduceBEq, and_true] at h
  case h_1 | h_2 | h_3 | h_4 | h_5 | h_8 | h_19 =>
    obtain ⟨e, he, rfl⟩ := h
    exact congrArg some (encE_eq_word hop he)
  case' h_6 =>
    obtain ⟨d, hd, m, hm, o, ho, ⟨⟨hb, hx⟩, hx'⟩, rfl⟩ := h
    refine congrArg some (encM_eq_word hop hd hm hb ?_)
  case' h_7 =>
    obtain ⟨d, hd, m, hm, b, hb, hx, rfl⟩ := h
    refine congrArg some (encM_eq_word hop hd hm hb ?_)
  case' h_9 =>
    obtain ⟨d, hd, ⟨⟨ha, hb⟩, hs⟩, hx, ⟨hw, rfl⟩ | ⟨hw, rfl⟩⟩ := h
    all_goals refine congrArg some (FF.mk_eq_word hop hd ha hb hs ?_)
  case' h_10 | h_11 =>
    obtain ⟨d, hd, ⟨⟨⟨ha, hb⟩, hs⟩, hx⟩, s, hsc, rfl⟩ := h
    refine congrArg some (FF.mk_eq_word hop hd ha hb hs ?_)
  case' h_12 =>
    obtain ⟨⟨⟨⟨hd, ha⟩, hs⟩, hx⟩, b, hb, s, hsc, rfl⟩ := h
    refine congrArg some (FF.mk_eq_word hop hd ha hb hs ?_)
  case' h_13 =>
    obtain ⟨⟨⟨⟨hd, ha⟩, hs⟩, hx⟩, ⟨ht, hx', b, hb, rfl⟩ | ⟨ht, b, hb, rfl⟩⟩ := h
    all_goals refine congrArg some (FF.mk_eq_word hop hd ha hb hs ?_)
  case' h_14 =>
    obtain ⟨d, hd, ⟨⟨⟨ha, hb⟩, hs⟩, hx⟩, ⟨hsel, s, hsc, rfl⟩ | ⟨hsel, hsc, rfl⟩⟩ := h
    all_goals refine congrArg some (FF.mk_eq_word hop hd ha hb hs ?_)
  case h_15 =>
    obtain ⟨⟨⟨⟨⟨hd, hb⟩, hs⟩, hx⟩, hx'⟩, sc, hsc, h⟩ := h
    split at hsc
    all_goals
      rename_i hk
      simp only [Except.ok.injEq, reduceCtorEq] at hsc
    all_goals
      subst hsc
      rw [toNat_eq_iff _ _ (by decide)] at hk
      simp (disch := omega) only [extract_succ_eq_ofNat_iff, BitVec.extractLsb'_eq_zero, Nat.reduceAdd, Nat.reduceMod,
        Nat.reduceDiv, Nat.reduceBEq, and_true] at hk
      split at h
      all_goals
        rename_i hl
        simp only [decBase_ok_iff, bind_eq_ok_iff, need_eq_ok_iff, beq_iff_eq, exists_const, Except.ok.injEq, reduceCtorEq] at h
      all_goals
        rw [toNat_eq_iff _ _ (by decide)] at hl
        simp (disch := omega) only [extract_succ_eq_ofNat_iff, BitVec.extractLsb'_eq_zero, Nat.reduceAdd, Nat.reduceMod,
          Nat.reduceDiv, Nat.reduceBEq, and_true] at hl
      · obtain ⟨a, ha, rfl⟩ := h
        refine congrArg some (FF.mk_eq_word hop hd ha hb hs ?_)
        simp (disch := omega) [ofNat_succ_eq_iff, extract_succ_eq_ofNat_iff, *, -BitVec.getLsbD_eq_getElem]
      · obtain ⟨ha, rfl⟩ := h
        refine congrArg some (FF.mk_eq_word hop hd ha hb hs ?_)
        simp (disch := omega) [ofNat_succ_eq_iff, extract_succ_eq_ofNat_iff, *, -BitVec.getLsbD_eq_getElem]
  case h_16 | h_17 =>
    obtain ⟨d, hd, b, hb, ⟨⟨ha, hs⟩, hx⟩, rfl⟩ := h
    exact congrArg some (FF.mk_eq_word hop hd ha hb hs hx.symm)
  case h_18 =>
    obtain ⟨d, hd, m, hm, ⟨hb, hx⟩, rfl⟩ := h
    exact congrArg some (encM_eq_word hop hd hm hb hx.symm)
  all_goals simp (disch := omega) [encXM, append_eq_iff, extract_extract, ofNat_succ_eq_iff, extract_succ_eq_ofNat_iff, *,
    -BitVec.getLsbD_eq_getElem]

theorem encode_of_decG7 (hop : f.op = BitVec.ofNat 10 (0x380 + n)) (h : decG7 n f (IF.of f.word) = .ok i) :
    encode i = some f.word := by
  unfold decG7 at h
  split at h
  all_goals
    simp (disch := omega) only [FF.bare_ok_iff, decOp_ok_iff, decX_ok_iff, decW2_ok_iff, XF.of, bind_eq_ok_iff, need_eq_ok_iff,
      ite_eq_iff, Bool.and_eq_true, beq_iff_eq, exists_const, Except.ok.injEq, reduceCtorEq, extract_succ_eq_ofNat_iff,
      BitVec.ofNat_eq_ofNat, BitVec.extractLsb'_eq_zero, Nat.reduceAdd, Nat.reduceMod, Nat.reduceDiv, Nat.reduceBEq, and_true] at h
  case' h_1 =>
    obtain ⟨d, hd, ⟨⟨⟨ha, hb⟩, hs⟩, hx⟩, w, hw, rfl⟩ := h
    refine congrArg some (FF.mk_eq_word hop hd ha hb hs ?_)
  case' h_2 =>
    obtain ⟨⟨⟨⟨hd, ha⟩, hs⟩, hx⟩, b, hb, w, hw, rfl⟩ := h
    refine congrArg some (FF.mk_eq_word hop hd ha hb hs ?_)
  case h_3 | h_5 =>
    obtain ⟨⟨hd, ha⟩, rfl⟩ := h
    exact congrArg some (IF.mk_eq_word hop hd ha rfl)
  case' h_4 =>
    obtain ⟨hb, hx, rfl⟩ := h
    refine congrArg some (encBare_eq_word hop hb ?_)
  case' h_6 =>
    obtain ⟨⟨⟨⟨hd, ha⟩, hs⟩, hx⟩, b, hb, w, hw, ⟨hm, rfl⟩ | ⟨hm, rfl⟩⟩ := h
    all_goals refine congrArg some (FF.mk_eq_word hop hd ha hb hs ?_)
  case h_7 =>
    obtain ⟨hb, hx, rfl⟩ := h
    exact congrArg some (encBare_eq_word hop hb hx.symm)
  case h_8 =>
    obtain ⟨hb, hx, h⟩ := h
    split at h
    all_goals
      rename_i hk
      simp only [Except.ok.injEq, reduceCtorEq] at h
    all_goals
      subst h
      rw [toNat_eq_iff _ _ (by decide)] at hk
      simp (disch := omega) only [extract_succ_eq_ofNat_iff, BitVec.extractLsb'_eq_zero, Nat.reduceAdd, Nat.reduceMod,
        Nat.reduceDiv, Nat.reduceBEq, and_true] at hk
      refine congrArg some (encBare_eq_word hop hb ?_)
      simp (disch := omega) [ofNat_succ_eq_iff, extract_succ_eq_ofNat_iff, *, -BitVec.getLsbD_eq_getElem]
  all_goals simp (disch := omega) [append_eq_iff, extract_extract, ofBool_eq_extract_iff, ofNat_succ_eq_iff,
    extract_succ_eq_ofNat_iff, *, -BitVec.getLsbD_eq_getElem]

end

/-! #### An instruction that encodes is read back, group by group -/

/-- The opcode group of a full form (R54); pair words and the part's own events are in none. -/
def Instr.group : Instr → Option (Fin 8)
  | .add .. | .sub .. | .mul .. | .div .. | .shl .. | .rem .. | .min .. | .max .. | .and .. | .or .. | .xor .. | .andn .. |
    .shr .. | .sar .. | .rol .. | .bfx .. | .bfi .. | .sel .. | .addc .. | .mulh .. | .mad .. | .abs .. | .popc .. | .clz .. |
    .ctz .. | .brev .. | .cmp .. | .mov .. | .lea .. | .movi .. | .moviI64 .. | .addi .. => some 0
  | .fadd .. | .fsub .. | .fmul .. | .fmin .. | .fmax .. | .ffma .. | .fpack .. | .funpk .. | .fscaleacc .. | .fdot2 .. |
    .fcmp .. | .fclass .. | .frcp .. | .fsqrt .. | .frsq .. | .fexp2 .. | .flog2 .. | .fsint .. | .fcost .. | .frnd .. |
    .fcvt .. | .fcvti .. | .icvtf .. | .ordkey .. => some 1
  | .perm .. | .shufx .. | .lscan .. | .matchL .. | .fwds .. | .fwdr .. | .elect .. | .vote .. | .reduce .. | .scan .. |
    .cavity .. => some 2
  | .tdesc .. | .plane .. | .align .. | .cbload .. | .mma .. | .mmac .. | .accz .. | .accrd .. | .accst .. | .mmawait .. => some 3
  | .bra .. | .brc .. | .call .. | .shield .. | .ret .. | .jmpi .. | .jmpiLink .. | .rjoin .. | .rwait .. | .exit .. | .nop .. |
    .yield .. | .bound .. | .boundNone .. | .incofr .. | .incrd .. | .incwait .. | .cancel .. => some 4
  | .ld .. | .st .. | .ldv .. | .stv .. | .acas .. | .ldfe .. | .stfe .. | .fetagRead .. | .fetagFill .. | .fetagEmpty .. |
    .fence .. | .pref .. | .atom .. => some 5
  | .tcopy .. | .tgather .. | .cavred .. | .loopnest .. | .search .. | .send .. | .hspub .. | .spawn .. | .ringset .. |
    .recvPoll .. | .recvWait .. | .bar .. | .baro .. | .barw .. | .waitptr .. | .waitptrTicket .. | .lpark .. | .lwake .. |
    .slotset .. | .cntrd .. | .tlbinvPage .. | .tlbinvVf .. => some 6
  | .srd .. | .swr .. | .rte .. | .event .. | .eventMbx .. | .halt .. | .trap .. | .brk .. | .icflush .. => some 7
  | _ => none

section
variable {i : Instr} {w : W64}

theorem decode_of_encode_group0 (hg : i.group = some 0) (he : encode i = some w) : decode w = .ok i := by
  cases i
  case add | sub | mul | div | shl | rem | min | max | and | or | xor | andn | shr | sar | rol | bfx | bfi | sel | addc | mulh | mad =>
    cases he
    simp (disch := omega) [encF3, encXI, XF.bits, encP, decode_FF, decG0, FF.f3, XF.plain, XF.of, XF.ity, extract_lo, extract_hi,
      bit_lo, bit_hi, -BitVec.getLsbD_eq_getElem]
  case abs | popc | clz | ctz | brev =>
    cases he
    simp (disch := omega) [encF2, encXI, XF.bits, decode_FF, decG0, FF.f2, XF.plain, XF.of, XF.ity, extract_lo, extract_hi, bit_lo,
      bit_hi, -BitVec.getLsbD_eq_getElem]
  case cmp | mov | lea =>
    cases he
    simp (disch := omega) [encFP, encM, encXI, XF.bits, decode_FF, decG0, FF.fp, FF.maddr, XF.plain, XF.of, XF.ity, extract_lo,
      extract_hi, bit_lo, bit_hi, -BitVec.getLsbD_eq_getElem]
  case movi | moviI64 | addi =>
    cases he
    simp (disch := omega) [decode_IF, decG0, extract_lo, bit_hi, -BitVec.getLsbD_eq_getElem]
  all_goals cases hg

theorem decode_of_encode_group1 (hg : i.group = some 1) (he : encode i = some w) : decode w = .ok i := by
  cases i
  case fadd | fsub | fmul | fmin | fmax | ffma | fpack | funpk | fscaleacc | fdot2 =>
    cases he
    simp (disch := omega) [encF3, encXFl, XF.bits, decode_FF, decG1, FF.f3, XF.plain, XF.of, extract_lo, extract_hi, bit_lo, bit_hi,
      -BitVec.getLsbD_eq_getElem]
  case fcmp =>
    cases he
    simp (disch := omega) [encFP, encXFl, XF.bits, decode_FF, decG1, FF.fp, XF.of, extract_lo, extract_hi, bit_lo, bit_hi,
      -BitVec.getLsbD_eq_getElem]
  case fclass | frcp | fsqrt | frsq | fexp2 | flog2 | fsint | fcost | frnd | fcvt | fcvti | icvtf =>
    cases he
    simp (disch := omega) [encF2, encXFl, XF.bits, decode_FF, decG1, FF.f2, XF.plain, XF.of, XF.ity, extract_lo, extract_hi, bit_lo,
      bit_hi, -BitVec.getLsbD_eq_getElem]
  case ordkey o t =>
    cases he
    cases t
    all_goals simp (disch := omega) [encF2, encXI, encXFl, XF.bits, XF.of, decode_FF, decG1, FF.f2, XF.ity, extract_lo, extract_hi,
      bit_lo, bit_hi, -BitVec.getLsbD_eq_getElem]
  all_goals cases hg

theorem decode_of_encode_group2 (hg : i.group = some 2) (he : encode i = some w) : decode w = .ok i := by
  cases i
  case perm | shufx | lscan =>
    cases he
    simp (disch := omega) [encF3, decode_FF, decG2, FF.f3, FF.seg, XF.plain, XF.of, extract_lo, extract_hi, bit_lo, bit_hi,
      -BitVec.getLsbD_eq_getElem]
  case matchL | fwds | fwdr | elect =>
    cases he
    simp (disch := omega) [encF2, decode_FF, decG2, FF.f2, XF.of, extract_lo, extract_hi, bit_lo, bit_hi, -BitVec.getLsbD_eq_getElem]
  case vote d p g =>
    cases he
    cases d
    all_goals simp (disch := omega) [encP, XF.of, decode_FF, decG2, extract_lo, extract_hi, bit_lo, bit_hi, -BitVec.getLsbD_eq_getElem]
  case reduce o t g op | scan o t g op | cavity o t g op =>
    cases he
    cases t
    all_goals simp (disch := omega) [encF2, FF.f2, XF.lty, XF.of, encXL, FF.seg, XF.ity, decode_FF, decG2, extract_lo, extract_hi,
      bit_lo, bit_hi, -BitVec.getLsbD_eq_getElem]
  all_goals cases hg

theorem decode_of_encode_group3 (hg : i.group = some 3) (he : encode i = some w) : decode w = .ok i := by
  cases i
  case tdesc | plane | align | cbload | mma | mmac | accz | accrd | accst | mmawait =>
    cases he
    simp (disch := omega) [encBare, encM, decode_FF, decG3, FF.bare, FF.maddr, extract_lo, extract_hi, bit_lo, bit_hi,
      -BitVec.getLsbD_eq_getElem]
  all_goals cases hg

theorem decode_of_encode_group4 (hg : i.group = some 4) (he : encode i = some w) : decode w = .ok i := by
  cases i
  case bra | brc | call | shield =>
    cases he
    simp (disch := omega) [decode_IF, decG4, -BitVec.getLsbD_eq_getElem]
  case ret | jmpi | jmpiLink | rjoin | rwait | exit | nop | yield | bound | boundNone | incofr | incrd | incwait | cancel =>
    cases he
    simp (disch := omega) [encBare, decode_FF, decG4, FF.bare, extract_lo, extract_hi, bit_hi, -BitVec.getLsbD_eq_getElem]
  all_goals cases hg

theorem decode_of_encode_group5 (hw : i.WellFormed) (hg : i.group = some 5) (he : encode i = some w) : decode w = .ok i := by
  cases i
  case ld | st | ldv | stv | acas | ldfe | stfe | fetagRead | fetagFill | fetagEmpty | fence | pref =>
    cases he
    simp (disch := omega) [encM, encBare, FF.bare, encXM, decode_FF, decG5, FF.mo, FF.maddr, XF.of, XF.ity, extract_lo, extract_hi,
      bit_lo, bit_hi, -BitVec.getLsbD_eq_getElem]
  case atom op d m b w sg o =>
    cases he
    have hsg : (!sg || op == .min || op == .max) = true := (Bool.and_eq_true_iff.1 hw).2
    simp (disch := omega) [hsg, encM, encXM, decode_FF, decG5, FF.maddr, FF.mo, XF.of, extract_lo, extract_hi, bit_lo, bit_hi,
      -BitVec.getLsbD_eq_getElem]
  all_goals cases hg

theorem decode_of_encode_group6 (hw : i.WellFormed) (hg : i.group = some 6) (he : encode i = some w) : decode w = .ok i := by
  cases i
  case tcopy | tgather | cavred | loopnest | search | send | hspub =>
    cases he
    simp (disch := omega) [encE, decode_FF, decG6, FF.eargs, -BitVec.getLsbD_eq_getElem]
  case spawn | ringset | recvPoll | recvWait | bar | baro | barw | waitptr | waitptrTicket | lpark | lwake | slotset =>
    cases he
    simp (disch := omega) [encM, encXM, decode_FF, decG6, FF.mo, FF.maddr, extract_lo, extract_hi, bit_hi,
      -BitVec.getLsbD_eq_getElem]
  case cntrd d sel sc g =>
    cases he
    have hsc : Machine.cntSelBar sel.toNat = sc.isSome := by
      have h := (Bool.and_eq_true_iff.1 hw).2
      cases sc with
      | none => simpa using h
      | some s => exact (Bool.and_eq_true_iff.1 h).1
    cases sc
    all_goals simp (disch := omega) [hsc, decode_FF, decG6, extract_lo, extract_hi, -BitVec.getLsbD_eq_getElem]
  case tlbinvPage a sc g =>
    cases he
    cases sc
    all_goals simp (disch := omega) [decode_FF, decG6, -BitVec.getLsbD_eq_getElem]
  case tlbinvVf sc g =>
    cases he
    cases sc
    all_goals simp (disch := omega) [encBare, decode_FF, decG6, -BitVec.getLsbD_eq_getElem]
  all_goals cases hg

theorem decode_of_encode_group7 (hg : i.group = some 7) (he : encode i = some w) : decode w = .ok i := by
  cases i
  case srd | swr | rte | event | eventMbx | halt =>
    cases he
    simp (disch := omega) [encBare, FF.bare, decode_FF, decG7, XF.of, extract_lo, extract_hi, bit_lo, bit_hi, -BitVec.getLsbD_eq_getElem]
  case trap | brk =>
    cases he
    simp (disch := omega) [decode_IF, decG7, -BitVec.getLsbD_eq_getElem]
  case icflush sc g =>
    cases he
    cases sc
    all_goals simp (disch := omega) [encBare, FF.bare, decode_FF, decG7, -BitVec.getLsbD_eq_getElem]
  all_goals cases hg

end

/-! #### Pair words (R62) -/

theorem encode_mkPair (a b : Half) : encode (mkPair a b) = some (pairWord a b) := by
  obtain ⟨op, args⟩ := a
  cases op <;> rfl

theorem mkPair_of_pairOf {i : Instr} {a b : Half} (h : Machine.pairOf i = some (a, b)) : mkPair a b = i := by
  cases i <;> cases h
  all_goals rfl

theorem encode_of_pairOf {i : Instr} {a b : Half} (h : Machine.pairOf i = some (a, b)) : encode i = some (pairWord a b) := by
  rw [← mkPair_of_pairOf h, encode_mkPair]

theorem Half.bits_of {c : BitVec 31} {a : Half} (h : Half.of c = .ok a) : a.bits = c := by
  simp only [Half.of, bind_eq_ok_iff, decHop_ok_iff, decX_ok_iff, decOp_ok_iff, Except.ok.injEq] at h
  obtain ⟨op, hop, d, hd, s, hs, ss, hss, rfl⟩ := h
  simp (disch := omega) [Half.bits, append_eq_iff, extract_extract, encSS_of_decSS hss, hop, hd, hs]

theorem Half.of_bits {a : Half} (h : a.args.ss ≠ some 7) : Half.of a.bits = .ok a := by
  simp (disch := omega) [Half.of, Half.bits, extract_lo, extract_hi, -BitVec.getLsbD_eq_getElem]

/-- The scale of a legal half is below 7: 2^7 is not below a group's width (R57). -/
theorem scale_ne_seven {a : Half} (h : Machine.halfOk a = true) : a.args.ss ≠ some 7 := by
  intro h7
  simp [Machine.halfOk, Machine.ssOk, h7, Config.gwidth] at h

theorem pairWord_63 (a b : Half) : (pairWord a b).getLsbD 63 = true := by
  simp (disch := omega) [pairWord, bit_hi, -BitVec.getLsbD_eq_getElem]

theorem decode_pairWord {a b : Half} (ha : a.args.ss ≠ some 7) (hb : b.args.ss ≠ some 7) :
    decode (pairWord a b) = .ok (mkPair a b) := by
  rw [decode, if_pos (pairWord_63 a b)]
  simp (disch := omega) [pairWord, Half.of_bits ha, Half.of_bits hb, extract_lo, extract_hi, bit_lo, -BitVec.getLsbD_eq_getElem]

theorem pairOk_of_wellFormed {i : Instr} {a b : Half} (hw : i.WellFormed) (h : Machine.pairOf i = some (a, b)) :
    Machine.pairOk a b = true := by
  cases i <;> cases h
  all_goals exact hw

theorem pair_decodes {i : Instr} {a b : Half} {w : W64} (hw : i.WellFormed) (hp : Machine.pairOf i = some (a, b))
    (he : encode i = some w) : decode w = .ok i := by
  obtain ⟨hab, -⟩ := Bool.and_eq_true_iff.1 (pairOk_of_wellFormed hw hp)
  obtain ⟨ha, hb⟩ := Bool.and_eq_true_iff.1 hab
  obtain rfl : pairWord a b = w := Option.some.inj ((encode_of_pairOf hp).symm.trans he)
  rw [decode_pairWord (scale_ne_seven ha) (scale_ne_seven hb), mkPair_of_pairOf hp]

/-! #### The two directions -/

theorem group_isSome {i : Instr} {w : W64} (hp : Machine.pairOf i = none) (he : encode i = some w) : i.group.isSome = true := by
  have h : (i.group.isSome || (Machine.pairOf i).isSome || (encode i).isNone) = true := by cases i <;> rfl
  simpa [hp, he] using h

theorem decode_of_encode {i : Instr} {w : W64} (hw : i.WellFormed) (he : encode i = some w) : decode w = .ok i := by
  cases hp : Machine.pairOf i with
  | some p => exact pair_decodes hw hp he
  | none =>
    obtain ⟨k, hg⟩ := Option.isSome_iff_exists.1 (group_isSome hp he)
    match k, hg with
    | 0, hg => exact decode_of_encode_group0 hg he
    | 1, hg => exact decode_of_encode_group1 hg he
    | 2, hg => exact decode_of_encode_group2 hg he
    | 3, hg => exact decode_of_encode_group3 hg he
    | 4, hg => exact decode_of_encode_group4 hg he
    | 5, hg => exact decode_of_encode_group5 hw hg he
    | 6, hg => exact decode_of_encode_group6 hw hg he
    | 7, hg => exact decode_of_encode_group7 hg he

/-- An opcode is its group, 128 times, and its index in the group (R54). -/
theorem op_of_group {op : BitVec 10} {k : Nat} (h : (op.extractLsb' 7 3).toNat = k) :
    op = BitVec.ofNat 10 (128 * k + (op.extractLsb' 0 7).toNat) := by
  apply BitVec.eq_of_toNat_eq
  have hlt := op.isLt
  simp only [BitVec.extractLsb'_toNat, BitVec.toNat_ofNat, Nat.shiftRight_eq_div_pow] at h ⊢
  omega

theorem encode_of_decode_full {f : FF} {i : Instr} (h : decode f.word = .ok i) : encode i = some f.word := by
  rw [decode_FF] at h
  split at h
  case h_1 hk => exact encode_of_decG0 (op_of_group hk) h
  case h_2 hk => exact encode_of_decG1 (op_of_group hk) h
  case h_3 hk => exact encode_of_decG2 (op_of_group hk) h
  case h_4 hk => exact encode_of_decG3 (op_of_group hk) h
  case h_5 hk => exact encode_of_decG4 (op_of_group hk) h
  case h_6 hk => exact encode_of_decG5 (op_of_group hk) h
  case h_7 hk => exact encode_of_decG6 (op_of_group hk) h
  case h_8 h0 h1 h2 h3 h4 h5 h6 =>
    have hlt := (f.op.extractLsb' 7 3).isLt
    have hk : (f.op.extractLsb' 7 3).toNat = 7 := by
      change ¬ _ at h0 h1 h2 h3 h4 h5 h6
      omega
    exact encode_of_decG7 (op_of_group hk) h

theorem encode_of_decode_pair {w : W64} {i : Instr} (h63 : w.getLsbD 63 = true) (h : decode w = .ok i) : encode i = some w := by
  rw [decode, if_pos h63] at h
  simp only [bind_eq_ok_iff, need_eq_ok_iff, beq_iff_eq, exists_const, Except.ok.injEq] at h
  obtain ⟨a, ha, b, hb, h0, rfl⟩ := h
  rw [encode_mkPair]
  refine congrArg some ?_
  have h1 : 1#1 = w.extractLsb' 63 1 := (ofBool_eq_extract_iff true w 63).2 h63.symm
  have h2 : 0#1 = w.extractLsb' 0 1 := (ofBool_eq_extract_iff false w 0).2 h0.symm
  simp (disch := omega) [pairWord, append_eq_iff, extract_extract, Half.bits_of ha, Half.bits_of hb, h1, h2]

theorem encode_of_decode {w : W64} {i : Instr} (h : decode w = .ok i) : encode i = some w := by
  cases h63 : w.getLsbD 63 with
  | true => exact encode_of_decode_pair h63 h
  | false =>
    rw [← FF.word_of h63] at h ⊢
    exact encode_of_decode_full h

/-- Settles O56: well-formedness is used where the encoder can write what the decoder refuses, a scale of 7 in a pair half, ATOM's sign on
an operation that has none, and CNTRD's scope on a counter that takes none. -/
theorem decodeEncodes : Obligations.DecodeEncodes := by
  unfold Obligations.DecodeEncodes
  exact fun i w hw => ⟨decode_of_encode hw, encode_of_decode⟩

end Sys2Proof

/-! ### Pair words (03_encoding R62 to R65)

A pair word is run as any other word is, but for its fragment: the threads in which either guard holds. Every one of them goes on at the
next word, and so do the others. -/

namespace Sys2Proof.Machine

theorem exec_mkPair (a b : Half) (s : State) : exec (mkPair a b) s = runPair (mkPair a b) a b s := by
  obtain ⟨op, args⟩ := a
  cases op <;> rfl

/-! #### The threads of the word -/

/-- A half's guard holds. -/
def Env.paired (a b : Half) (e : Env) : Bool := e.guarded a.args.g || e.guarded b.args.g

/-- The threads of a site in which `p` holds, as they see their registers at issue. -/
def State.envsOf (s : State) (c : Site) (p : Env → Bool) : Frag := (c.tids.map (s.env c.wg)).filter p

theorem mem_envsOf {s : State} {c : Site} {p : Env → Bool} {e : Env} :
    e ∈ s.envsOf c p ↔ e.tid ∈ c.tids ∧ e = s.env c.wg e.tid ∧ p e = true := by
  simp only [State.envsOf, List.mem_filter, List.mem_map]
  constructor
  · rintro ⟨⟨i, hi, rfl⟩, hp⟩
    exact ⟨hi, rfl, hp⟩
  · rintro ⟨hi, he, hp⟩
    exact ⟨⟨e.tid, hi, he.symm⟩, hp⟩

theorem envsOf_tids (s : State) (c : Site) (p : Env → Bool) :
    (s.envsOf c p).map Env.tid = c.tids.filter fun i => p (s.env c.wg i) := by
  simp only [State.envsOf, List.filter_map, List.map_map]
  exact List.map_id' _

theorem envsOf_nodup {s : State} {c : Site} (hn : c.tids.Nodup) (p : Env → Bool) : ((s.envsOf c p).map Env.tid).Nodup := by
  rw [envsOf_tids]
  exact hn.filter _

/-- The threads in which one half is active are those of a full form with its guard. -/
theorem halfFrag_envsOf (s : State) (c : Site) {p : Env → Bool} {h : Half} (hp : ∀ e : Env, e.guarded h.args.g = true → p e = true) :
    halfFrag h (s.envsOf c p) = s.frag c h.args.g := by
  have hand (e : Env) : (e.guarded h.args.g && p e) = e.guarded h.args.g := by
    cases hg : e.guarded h.args.g
    · rfl
    · exact hp e hg
  rw [halfFrag, State.envsOf, List.filter_filter, funext hand, List.filter_map]
  rfl

/-- Changing those threads one by one. -/
theorem envsOf_foldl {s : State} (v : State) {c : Site} (hn : c.tids.Nodup) (p : Env → Bool) (upd : Env → Thread → Thread) :
    let w := (s.envsOf c p).foldl (fun s e => s.modThr (thrKey c.wg e.tid) (upd e)) v
    (∀ i ∈ c.tids, w.thr (thrKey c.wg i) =
      if p (s.env c.wg i) then upd (s.env c.wg i) (v.thr (thrKey c.wg i)) else v.thr (thrKey c.wg i)) ∧
    (∀ k, (∀ i ∈ c.tids, k ≠ thrKey c.wg i) → w.thr k = v.thr k) ∧ w = { v with threads := w.threads } := by
  intro w
  have hw (k : Nat) := foldl_modThr c.wg (s.envsOf c p) Env.tid (fun e => upd e) v (envsOf_nodup hn p) k
  refine ⟨fun i hi => (hw _).trans ?_, fun k hk => (hw k).trans ?_, ?_⟩
  · by_cases hp : p (s.env c.wg i) = true
    · obtain ⟨e, he, hei, hf⟩ := find_tid (wk := c.wg) (i := i) ⟨_, mem_envsOf.2 ⟨hi, rfl, hp⟩, rfl⟩ (envsOf_nodup hn p)
      have hee : e = s.env c.wg i := by rw [← hei]; exact (mem_envsOf.1 he).2.1
      rw [hf, if_pos hp, ← hee]
    · rw [find_out (wk := c.wg) _ Env.tid fun e he hk => hp ?_, if_neg hp]
      obtain ⟨-, hee, hpe⟩ := mem_envsOf.1 he
      rw [thrKey_inj hk, ← hee]
      exact hpe
  · rw [find_out (wk := c.wg) _ Env.tid fun e he => hk _ (mem_envsOf.1 he).1]
  · obtain ⟨ts, ht⟩ := foldl_modThr_threads (fun e : Env => thrKey c.wg e.tid) (s.envsOf c p) (fun e => upd e) v
    have hw : w = { v with threads := ts } := ht
    rw [hw]

/-! #### Running the word -/

/-- A legal pair word with no register in error runs its body on all of its threads. -/
theorem runPair_eq {i : Instr} {a b : Half} {s : State} {c : Site} (h : s.Issues c i) :
    runPair i a b s = (pairBody a b s c (s.envsOf c (Env.paired a b)) (s.envsOf c (Env.paired a b))).outcome s c
      ((s.envsOf c fun e => !e.paired a b).map Env.tid) := by
  have hq (x : Half) : ∀ p ∈ (s.idleReaders c (((c.tids.map (s.env c.wg)).filter fun e => !e.guarded x.args.g).map
      fun e => e.tid)).flatMap (fun t => (halfNames x).xr.map fun r => (t, r)), s.cleanThread c.wg p.1 = true := by
    intro p hp
    obtain ⟨t, ht, hp⟩ := List.mem_flatMap.mp hp
    obtain ⟨r, -, rfl⟩ := List.mem_map.mp hp
    refine idleReaders_clean h.regsOk (fun i hi => ?_) t ht
    obtain ⟨e, he, rfl⟩ := List.mem_map.mp hi
    exact (mem_envsOf.1 he).1
  have hq2 := fun p hp => (List.mem_append.mp hp).elim (hq a p) (hq b p)
  simp only [runPair, h.cur, h.ok, Bool.not_true, Bool.false_eq_true, if_false, regErrors_quiet h.regsOk _ hq2, List.any_nil,
    Bool.not_false, List.filter_true]
  rfl

/-- A word that only computes checks no access. -/
theorem checkAll_nil (s : State) (c : Site) (fr : Frag) :
    s.checkAll c (fr.map fun e => (e, [])) = (fr.map fun e => (e, [], .ok []), s) := by
  induction fr with
  | nil => rfl
  | cons e r ih =>
    have hc : s.check c.wg e.tid [] = (.ok [], s) := rfl
    simp only [List.map_cons, State.checkAll, hc, ih]

/-- A body's walk over its threads, each of which goes on. -/
theorem foldl_next (f : State → Env → State) (fr : Frag) (v : State) (fin : List (Nat × Fin)) :
    fr.foldl (fun (acc : State × List (Nat × Fin)) e => (f acc.1 e, acc.2 ++ [(e.tid, Fin.next)])) (v, fin) =
      (fr.foldl f v, fin ++ fr.map fun e => (e.tid, .next)) := by
  induction fr generalizing v fin with
  | nil => simp
  | cons e r ih => simp [ih]

/-- The results of both halves, put into their thread one after the other. -/
def pairOuts (a b : Half) (fr : Frag) (e : Env) (t : Thread) : Thread := (pairOut a b fr e).foldl Thread.out t

/-- Two halves without an access write their results in every thread, which goes on. -/
theorem pairBody_computes {a b : Half} (ha : ∀ e, halfElems a e = []) (hb : ∀ e, halfElems b e = [])
    (s : State) (c : Site) (fr : Frag) : pairBody a b s c fr fr =
      .done (fr.foldl (fun v e => v.modThr (thrKey c.wg e.tid) (pairOuts a b fr e)) s) (fr.map fun e => (e.tid, .next)) := by
  have he (e : Env) : (pairElems a b e).1 = [] := by simp [pairElems, ha, hb]
  have hh : s.heldElems c (fr.map fun e => (e, [], .ok [])) = false := by simp [State.heldElems]
  simp only [pairBody, he, checkAll_nil, hh, Bool.false_eq_true, if_false, List.foldl_map, List.isEmpty_nil, if_true]
  exact congrArg (fun r : State × List (Nat × Fin) => Ran.done r.1 r.2)
    (foldl_next (fun v e => v.modThr (thrKey c.wg e.tid) (pairOuts a b fr e)) fr s [])

/-! #### Finishing the word -/

/-- Where every thread of the word goes on, all threads of its site stand at the next word. -/
theorem settled_next (v : State) (c : Site) {idle act : List Nat} (hn : (idle ++ act).Nodup) :
    let u := v.settled c idle (act.map fun i => (i, .next))
    (∀ i ∈ idle ++ act, u.thr (thrKey c.wg i) = (v.thr (thrKey c.wg i)).goto c.nextPc) ∧
      (∀ k, (∀ i ∈ idle ++ act, k ≠ thrKey c.wg i) → u.thr k = v.thr k) ∧ CoresKeep v c u ∧
      u = { v with threads := u.threads, cores := u.cores } := by
  intro u
  let w := (idle ++ act).foldl (fun s i => s.modThr (thrKey c.wg i) fun t => t.goto c.nextPc) v
  have hwu : (act.map fun i => (i, Fin.next)).foldl (fun s (p : Nat × Fin) => s.modThr (thrKey c.wg p.1) (p.2.apply c))
      (v.modTids c.wg idle fun t => t.goto c.nextPc) = w := by
    rw [List.foldl_map]
    exact List.foldl_append.symm
  obtain ⟨hs, hc⟩ := settled_eq v c idle (act.map fun i => (i, .next))
  rw [hwu] at hs hc
  have hu : u = { w with cores := u.cores } := hs
  have hthr (k : Nat) : u.thr k = w.thr k := by rw [hu]; rfl
  have hw (k : Nat) := foldl_modThr c.wg (idle ++ act) id (fun _ t => t.goto c.nextPc) v (by rwa [List.map_id]) k
  obtain ⟨ts, hts⟩ : ∃ ts, w = { v with threads := ts } :=
    foldl_modThr_threads (thrKey c.wg) (idle ++ act) (fun _ t => t.goto c.nextPc) v
  refine ⟨fun i hi => (hthr _).trans ((hw _).trans ?_), fun k hk => (hthr k).trans ((hw k).trans ?_), fun k => ?_, ?_⟩
  · obtain ⟨j, hj⟩ := Option.isSome_iff_exists.mp (List.find?_isSome.mpr ⟨i, hi, by simp⟩ :
      ((idle ++ act).find? fun a => thrKey c.wg (id a) == thrKey c.wg i).isSome)
    rw [hj]
  · rw [find_out (wk := c.wg) _ id fun i hi => hk i hi]
  · have hk : w.core k = v.core k := by rw [hts]; rfl
    rw [← hk]
    exact hc k
  · have hv : u = { v with threads := ts, cores := u.cores } := by rw [hts] at hu; exact hu
    rw [hv]


/-- A pair word whose body lets all its threads go on. -/
theorem exec_of_pairBody {a b : Half} {s v : State} {c : Site} (h : s.Issues c (mkPair a b))
    (hv : pairBody a b s c (s.envsOf c (Env.paired a b)) (s.envsOf c (Env.paired a b)) =
      .done v ((s.envsOf c (Env.paired a b)).map fun e => (e.tid, .next))) :
    exec (mkPair a b) s = .next (v.settled c ((s.envsOf c fun e => !e.paired a b).map Env.tid)
      (((s.envsOf c (Env.paired a b)).map Env.tid).map fun i => (i, .next))) := by
  rw [exec_mkPair, runPair_eq h, hv, List.map_map]
  refine congrArg Host.Outcome.next (finish_plain fun p hp => ?_)
  obtain ⟨e, -, rfl⟩ := List.mem_map.1 hp
  rfl

/-! #### The results of the halves -/

theorem paired_of_left {a b : Half} (e : Env) (h : e.guarded a.args.g = true) : e.paired a b = true := by
  rw [Env.paired, h, Bool.true_or]

theorem paired_of_right {a b : Half} (e : Env) (h : e.guarded b.args.g = true) : e.paired a b = true := by
  rw [Env.paired, h, Bool.or_true]

/-- The results of both halves, each where its guard holds; in a thread outside the word there are none. -/
theorem pairOuts_eq (s : State) (c : Site) (a b : Half) (e : Env) (t : Thread) :
    pairOuts a b (s.envsOf c (Env.paired a b)) e t =
      let t := if e.guarded a.args.g then t.out (halfOut a (s.frag c a.args.g) e) else t
      if e.guarded b.args.g then t.out (halfOut b (s.frag c b.args.g) e) else t := by
  simp only [pairOuts, pairOut, halfFrag_envsOf s c (paired_of_left (a := a) (b := b)),
    halfFrag_envsOf s c (paired_of_right (a := a) (b := b))]
  cases e.guarded a.args.g <;> cases e.guarded b.args.g <;> rfl

theorem pairOuts_unpaired {a b : Half} {e : Env} (h : e.paired a b = false) (fr : Frag) (t : Thread) : pairOuts a b fr e t = t := by
  obtain ⟨ha, hb⟩ := Bool.or_eq_false_iff.1 h
  simp [pairOuts, pairOut, ha, hb]

/-- The threads of a pair word and the idle ones are those of its site, each once. -/
theorem envsOf_perm (s : State) (c : Site) (p : Env → Bool) :
    (((s.envsOf c fun e => !p e).map Env.tid) ++ (s.envsOf c p).map Env.tid).Perm c.tids := by
  rw [envsOf_tids, envsOf_tids]
  exact List.perm_append_comm.trans (List.filter_append_perm _ c.tids)

theorem threads_cores_of {s v u : State} (hv : v = { s with threads := v.threads })
    (hu : u = { v with threads := u.threads, cores := u.cores }) : u = { s with threads := u.threads, cores := u.cores } := by
  rw [hv] at hu
  exact hu

/-- Settles O10: the body writes both halves' results in every thread of the word, and all threads of its site go on. -/
theorem pairComputes : Obligations.PairComputes := by
  unfold Obligations.PairComputes
  intro s c a b ha hb h
  let fr := s.envsOf c (Env.paired a b)
  let v := fr.foldl (fun v e => v.modThr (thrKey c.wg e.tid) (pairOuts a b fr e)) s
  obtain ⟨hin, hout, hv⟩ : _ ∧ _ ∧ v = { s with threads := v.threads } := envsOf_foldl s h.nodup (Env.paired a b) (pairOuts a b fr)
  have hthr (i : Nat) (hi : i ∈ c.tids) : v.thr (thrKey c.wg i) = pairOuts a b fr (s.env c.wg i) (s.thr (thrKey c.wg i)) := by
    refine (hin i hi).trans ?_
    cases hp : (s.env c.wg i).paired a b with
    | true => rfl
    | false => exact (pairOuts_unpaired hp fr _).symm
  have hperm := envsOf_perm s c (Env.paired a b)
  obtain ⟨hgo, hkeep, hcores, hu⟩ := settled_next v c (hperm.nodup_iff.2 h.nodup)
  refine ⟨_, exec_of_pairBody h (pairBody_computes ha hb s c fr), fun i hi => ?_, fun k hk => ?_, fun k => ?_, ?_⟩
  · have hi' := hgo i (hperm.mem_iff.2 hi)
    rw [hthr i hi, pairOuts_eq] at hi'
    exact hi'
  · exact (hkeep k fun i hi => hk i (hperm.mem_iff.1 hi)).trans (hout k hk)
  · rw [← show v.core k = s.core k by rw [hv]; rfl]
    exact hcores k
  · exact threads_cores_of hv hu

end Sys2Proof.Machine

/-! ### A pair word's store under a number that is in use already (03_encoding R63 to R65)

A store takes a clock at its issue (12_ordering R212), and `State.modAcc` writes it into every access that bears the number of the new one.
`PairAccesses` does not ask that the numbers of the accesses in flight were all drawn before: in a state where one of them is still to be
drawn, the access that bears it takes the clock as well, and is not as it was. -/

namespace Sys2Proof.Machine

/-- A load in flight of thread 0 of workgroup 1, under number 2. -/
def strayLoad : Access := { id := 2, instr := 1, thr := 2048, pkg := 0, core := 0, kind := .load, addr := 0, loc := 0, size := 4 }

/-- The fragment of thread 0 of workgroup 0. -/
def straySite : Site := { pkg := 0, core := 0, wg := 0, tids := [0], pc := 0, word := 0 }

/-- One thread, whose pair x2 holds the first address of STACK. The issue numbers its instruction 1 and its access 2. -/
def strayState : State :=
  { State.reset with
    gangs := [(0, { stk := 8 })], wgs := [(0, { size := 1, nregs := 4 })], threads := [(0, { x := [7, 0, 0, 0xFFFE0000] })],
    accs := [strayLoad], cur := some straySite }

/-- ST.B32 of x0 at the address in x2, beside a move of a constant into x1. -/
def strayStore : Half := ⟨.stB32, ⟨0, .x 2, ⟨false, 0⟩, none⟩⟩
def strayMove : Half := ⟨.mov, ⟨1, .imm 16, ⟨false, 0⟩, none⟩⟩

/-- The store's place: the start of the gang's stacks in its vault. -/
def strayPlace (_ : Env) (_ : Elem) : Place := { loc := locVault 0 0 0, own := true }

/-- What the store accesses, as `PairAccesses` puts it. -/
def strayElems (e : Env) : List Elem :=
  (if e.guarded strayStore.args.g then halfElems strayStore e else []) ++ (if e.guarded strayMove.args.g then halfElems strayMove e else [])

theorem stray_issues : strayState.Issues straySite (mkPair strayStore strayMove) where
  cur := rfl
  ok := by decide
  regsOk := by decide
  nodup := by decide

theorem stray_mayAccess : strayState.MayAccess straySite [strayState.env 0 0] ⟨.rlx, .lane⟩ strayElems strayPlace where
  live := by decide
  order := by decide
  reach := by
    simp only [State.Reaches]
    decide
  unheld := by decide
  first := by decide

/-- The stray load has a clock afterwards. -/
theorem stray_clocked : (match exec (mkPair strayStore strayMove) strayState with
    | .next u => u.accs.head?.any fun a : Access => a.vec.isSome
    | _ => false) = true := by decide

/-- Refutes O21: the store is numbered 2 like the stray load in flight, and the load takes the store's clock, so the accesses afterwards
do not begin with those at issue. -/
theorem not_pairAccesses : ¬ Obligations.PairAccesses := by
  unfold Obligations.PairAccesses
  intro h
  obtain ⟨u, l, hu, hl, -⟩ := h strayState straySite strayStore strayMove strayPlace stray_issues stray_mayAccess (by decide)
  have hc := stray_clocked
  rw [hu] at hc
  change (u.accs.head?.any fun a : Access => a.vec.isSome) = true at hc
  rw [hl] at hc
  exact Bool.false_ne_true hc

end Sys2Proof.Machine

/-! ### Register words and system registers (04_registers R73 to R81, 10_trap_state R183, R187, R188) -/

namespace Sys2Proof.Machine

/-! #### Words whose threads only go on -/

/-- A word whose body makes `v` of the state outside its threads, all of which go on at the next word. -/
theorem goesOn_of {i : Instr} {g : Guard} {rd : Frag → Env → Reads} {ok : State → Site → Bool} {body : Body} {s v : State}
    {c : Site} {m : Host.Outcome State Fault Refusal} (hm : m = runWord i g rd ok body s) (h : s.Issues c i)
    (hok : ok s c = true)
    (hb : body s c (s.frag c g) (s.frag c g) = .done v ((s.frag c g).map fun e => (e.tid, .next))) :
    ∃ u, m = .next u ∧ Leaves s v c g (fun _ t => t.goto c.nextPc) u :=
  ⟨_, by rw [hm, runWord_eq h hok, hb]; rfl, finish_leaves v h.nodup (fun _ => .next) fun _ _ => rfl⟩

/-- A word whose body, besides its threads, changes workgroups alone: what it leaves, told from the state at issue. -/
theorem Leaves.of_wgs {s v u : State} {c : Site} {g : Guard} {act : Env → Thread → Thread} (hv : v = { s with wgs := v.wgs })
    (h : Leaves s v c g act u) :
    ThreadsDo s s c g act u ∧ OthersKeep s c u ∧ CoresKeep s c u ∧ (∀ k, u.wg k = v.wg k) ∧
      u = { s with threads := u.threads, cores := u.cores, wgs := u.wgs } := by
  obtain ⟨hthr, hkeep, hcores, hall⟩ := h
  have hw : u.wgs = v.wgs := (congrArg State.wgs hall).trans rfl
  have hwg (k : Nat) : u.wg k = v.wg k := congrArg (tget ({} : Wg) · k) hw
  rw [hw]
  rw [hv] at hthr hkeep hcores hall
  exact ⟨hthr, hkeep, hcores, hwg, hall⟩

/-- Of the cores, the issuing one is as the word's body made it but for its performance counters. -/
theorem CoresKeep.of_modCore {s u : State} {c : Site} {f : Core → Core}
    (h : CoresKeep (s.modCore (coreKey c.pkg c.core) f) c u) (j : Nat) :
    u.core j = if j = coreKey c.pkg c.core then { f (s.core j) with perf := (u.core j).perf } else s.core j := by
  have hj := h j
  rw [State.modCore_core] at hj
  by_cases hk : j = coreKey c.pkg c.core
  · rw [if_pos hk, if_pos hk.symm] at hj
    rw [if_pos hk, hj, hk]
  · rw [if_neg hk, if_neg fun h => hk h.symm] at hj
    rw [if_neg hk, hj]

/-! #### Moves into a k register (R77) -/

theorem exec_mov_k_eq_runWord (n : KReg) (b : Opnd) (sm : Option SMod) (g : Guard) (t : ITy) (s : State) :
    exec (.mov (.k n) b sm g t) s = runWord (.mov (.k n) b sm g t) g (rdWord (.mov (.k n) b sm g t) sm (opndX t.w b)) always
      (uniformBody n fun fr e => readB t.w fr e sm b) s := rfl

theorem exec_movi_k_eq_runWord (n : KReg) (g : Guard) (m : W32) (s : State) :
    exec (.movi (.k n) g m) s = runWord (.movi (.k n) g m) g (rdPlain (.movi (.k n) g m)) always
      (uniformBody n fun _ _ => m.toNat) s := rfl

/-- With no guard-active lane the register keeps its value. -/
theorem uniformBody_nil (n : KReg) (f : Frag → Env → Nat) (s : State) (c : Site) : uniformBody n f s c [] [] = .done s [] := rfl

/-- The lowest guard-active lane gives the value. -/
theorem uniformBody_cons (n : KReg) (f : Frag → Env → Nat) (s : State) (c : Site) (e : Env) (r : Frag) :
    uniformBody n f s c (e :: r) (e :: r) =
      .done (s.modWg c.wg fun w => w.wk n.toNat (BitVec.ofNat 32 (f (e :: r) e))) ((e :: r).map fun e => (e.tid, .next)) := by
  simp [uniformBody]

/-- Settles O4, by whether a lane is guard-active. -/
theorem uniformMoves : Obligations.UniformMoves := by
  intro s c n g i v hi h
  obtain ⟨rd, hx⟩ : ∃ rd, exec i s = runWord i g rd always (uniformBody n v) s := by
    rcases hi with ⟨b, sm, t, rfl, rfl⟩ | ⟨m, rfl, rfl⟩
    · exact ⟨_, exec_mov_k_eq_runWord n b sm g t s⟩
    · exact ⟨_, exec_movi_k_eq_runWord n g m s⟩
  cases hf : s.frag c g with
  | nil =>
    obtain ⟨u, hu, hl⟩ := goesOn_of hx h rfl (by rw [hf]; exact uniformBody_nil n v s c)
    obtain ⟨hthr, hkeep, hcores, hwg, hall⟩ := hl.of_wgs rfl
    exact ⟨u, hu, hthr, hkeep, hcores, hall, hwg⟩
  | cons e r =>
    obtain ⟨u, hu, hl⟩ := goesOn_of hx h rfl (by rw [hf]; exact uniformBody_cons n v s c e r)
    obtain ⟨hthr, hkeep, hcores, hwg, hall⟩ := hl.of_wgs rfl
    refine ⟨u, hu, hthr, hkeep, hcores, hall, fun k => ?_⟩
    rw [hwg, State.modWg_wg]
    by_cases hk : k = c.wg
    · subst hk; simp
    · simp [hk, Ne.symm hk]

/-! #### Reading a system register (R80, R188) -/

theorem exec_srd_eq_execSrd (d : XReg) (w : W2) (sel : BitVec 8) (g : Guard) (s : State) :
    exec (.srd d w sel g) s = execSrd d w sel g s := rfl

/-- Changing a list of threads one by one by a change `F` that may read the state around them, but not the threads changed before:
the threads take `upd`. -/
theorem foldl_modThr_congr {α : Type} (key : α → Nat) (F : State → α → Thread → Thread) (upd : α → Thread → Thread) (l : List α)
    (v : State) (h : ∀ a ts, F { v with threads := ts } a (({ v with threads := ts } : State).thr (key a)) =
      upd a (({ v with threads := ts } : State).thr (key a))) :
    l.foldl (fun s a => s.modThr (key a) (F s a)) v = l.foldl (fun s a => s.modThr (key a) (upd a)) v := by
  induction l generalizing v with
  | nil => rfl
  | cons a r ih =>
    have ha : v.modThr (key a) (F v a) = v.modThr (key a) (upd a) := by
      simp only [State.modThr, tmod]
      exact congrArg (fun x => { v with threads := tset v.threads (key a) x }) (h a v.threads)
    rw [List.foldl_cons, List.foldl_cons, ha]
    exact ih _ fun b ts => h b ts

/-- What SRD leaves beside its threads: a register that differs by core or time makes the workgroup ineligible for re-execution
(15_counters R267). -/
def State.afterSrd (s : State) (c : Site) (g : Guard) (sel : Nat) : State :=
  if !(s.frag c g).isEmpty && sysSpoils sel then s.spoil c.wg else s

theorem afterSrd_frame (s : State) (c : Site) (g : Guard) (sel : Nat) :
    s.afterSrd c g sel = { s with wgs := (s.afterSrd c g sel).wgs } := by
  unfold State.afterSrd; split <;> rfl

theorem sysSpoils_iff (sel : BitVec 8) :
    sysSpoils sel.toNat = true ↔ sel ∈ ([0x05, 0x06, 0x07, 0x20, 0x22, 0x23, 0x24] : List (BitVec 8)) := by
  revert sel; decide

theorem afterSrd_wg (s : State) (c : Site) (g : Guard) (sel : BitVec 8) (j : Nat) :
    (s.afterSrd c g sel.toNat).wg j =
      if j = c.wg ∧ s.frag c g ≠ [] ∧ sel ∈ ([0x05, 0x06, 0x07, 0x20, 0x22, 0x23, 0x24] : List (BitVec 8)) then
        { s.wg j with inelig := true }
      else s.wg j := by
  simp only [← sysSpoils_iff]
  unfold State.afterSrd
  by_cases hp : (!(s.frag c g).isEmpty && sysSpoils sel.toNat) = true
  · obtain ⟨hne, hsp⟩ : s.frag c g ≠ [] ∧ sysSpoils sel.toNat = true := by simpa using hp
    rw [if_pos hp, State.spoil, State.modWg_wg]
    by_cases hj : j = c.wg
    · subst hj; simp [hne, hsp]
    · simp [hj, Ne.symm hj]
  · have hno : ¬ (s.frag c g ≠ [] ∧ sysSpoils sel.toNat = true) := by simpa using hp
    rw [if_neg hp, if_neg fun ⟨_, hne, hsp⟩ => hno ⟨hne, hsp⟩]

/-- SRD reads nothing that it changes in the workgroup. -/
theorem sysRead_spoil (s : State) (wk tid sel : Nat) : (s.spoil wk).sysRead wk tid sel = s.sysRead wk tid sel := by
  simp only [State.spoil, State.sysRead, State.modWg_self, State.modWg_core, State.modWg_pkg, State.modWg_thr, Wg.ckey]

theorem sysRead_afterSrd (s : State) (c : Site) (g : Guard) (n : Nat) (ts : Tbl Thread) (tid sel : Nat) :
    ({ s.afterSrd c g n with threads := ts } : State).sysRead c.wg tid sel = ({ s with threads := ts } : State).sysRead c.wg tid sel := by
  unfold State.afterSrd
  split
  · exact sysRead_spoil { s with threads := ts } c.wg tid sel
  · rfl

/-- SRD's value delivered into `d`. -/
def srdInto (d : XReg) (w : W2) (x : W64) (t : Thread) : Thread := t.wxs (put d ⟨w2 w, false⟩ x.toNat)

/-- Settles O32: each selector's value is read off SRD's table, in a state where only threads of the fragment may have changed. -/
theorem systemRegisterReads : Obligations.SystemRegisterReads := by
  intro s c d w g sel v x k hv h
  have hread : ∀ (e : Env) (ts : Tbl Thread), ({ s with threads := ts } : State).sysRead c.wg e.tid sel.toNat =
      v e (({ s with threads := ts } : State).thr (thrKey c.wg e.tid)) := by
    simp only [List.mem_cons, Prod.mk.injEq, List.not_mem_nil, or_false] at hv
    casesm* _ ∨ _
    all_goals
      obtain ⟨rfl, rfl⟩ := ‹_ ∧ _›
      exact fun _ _ => rfl
  have hframe := afterSrd_frame s c g sel.toNat
  have hbody := foldl_modThr_congr (fun e : Env => thrKey c.wg e.tid)
    (fun s e => srdInto d w (s.sysRead c.wg e.tid sel.toNat)) (fun e t => srdInto d w (v e t) t) (s.frag c g)
    (s.afterSrd c g sel.toNat) fun e ts => by
      rw [sysRead_afterSrd, hread, hframe]
      rfl
  obtain ⟨u, hu, hl⟩ := leaves_of (act := fun e t => (srdInto d w (v e t) t).goto c.nextPc) (exec_srd_eq_execSrd d w sel g s)
    h rfl (fun e t => srdInto d w (v e t) t) (fun _ => .next) (congrArg (Ran.done · _) hbody) (fun _ _ => rfl) (fun _ _ => rfl)
  obtain ⟨hthr, hkeep, hcores, hwg, hall⟩ := hl.of_wgs hframe
  refine ⟨u, hu, hthr, hkeep, hcores, fun j => ?_, hall⟩
  rw [hwg, afterSrd_wg]

/-! #### Writing a system register (R80, R81, R183) -/

section
variable (b : Opnd) (w : W2) (sel : BitVec 8) (g : Guard) (s : State) (c : Site)

theorem exec_swr_eq_runWord : exec (.swr b w sel g) s =
    runWord (.swr b w sel g) g (rdPlain (.swr b w sel g)) (State.mayWrite sel.toNat) (swrBody b w sel.toNat) s := rfl

/-- The value that SWR writes, as a thread reads it. -/
def swrVal (e : Env) : W64 := BitVec.ofNat 64 (readOp (w2 w) e b)

variable {n : Nat} {b w}

theorem mayWrite_user {x : W2} (h : sysReg n = some (x, .u)) : State.mayWrite n s c = true := by simp only [State.mayWrite, h]

theorem mayWrite_handler {x : W2} (h : sysReg n = some (x, .t)) : State.mayWrite n s c = s.inHandler c := by
  simp only [State.mayWrite, h]

theorem mayWrite_debug {x : W2} (h : sysReg n = some (x, .d)) :
    State.mayWrite n s c = (s.inHandler c || (s.launchOf (s.wg c.wg)).debug) := by simp only [State.mayWrite, h]

/-- A selector of a per-thread register. -/
def perThread (n : Nat) : Bool := n != 0x28 && n != 0x29 && !(decide (0x18 ≤ n) && decide (n ≤ 0x1E))

/-- A per-thread register is written in each executing thread. -/
theorem swrBody_perThread (h : perThread n = true) (fr : Frag) : swrBody b w n s c fr fr =
    .done (fr.foldl (fun s e => s.modThr (thrKey c.wg e.tid) fun t => t.sysWrite n (swrVal b w e)) s)
      (fr.map fun e => (e.tid, .next)) := by
  simp only [perThread, Bool.and_eq_true, bne_iff_ne, ne_eq, Bool.not_eq_true'] at h
  obtain ⟨⟨h28, h29⟩, hdbg⟩ := h
  cases fr with
  | nil => rfl
  | cons e r => simp only [swrBody, h28, h29, hdbg, decide_false, Bool.or_self, Bool.false_eq_true, if_false]; rfl

/-- A debug register is written by the lowest guard-active thread. -/
theorem swrBody_debug (hlo : 0x18 ≤ n) (hhi : n ≤ 0x1E) (e : Env) (r : Frag) : swrBody b w n s c (e :: r) (e :: r) =
    .done (s.dbgSwr (coreKey c.pkg c.core) n (swrVal b w e)) ((e :: r).map fun e => (e.tid, .next)) := by
  have h28 : n ≠ 0x28 := by omega
  have h29 : n ≠ 0x29 := by omega
  simp only [swrBody, h28, h29, hlo, hhi, decide_false, decide_true, Bool.or_self, Bool.and_self, Bool.false_eq_true, if_false, if_true]
  rfl

/-- DQBASE and DQLIMIT are written by the lowest guard-active thread, or the word is illegal. -/
theorem swrBody_deque (h : n = 0x28 ∨ n = 0x29) (e : Env) (r : Frag) : swrBody b w n s c (e :: r) (e :: r) =
    (s.dqWrite (coreKey c.pkg c.core)
      (if n = 0x28 then (swrVal b w e).setWidth 32 else (s.core (coreKey c.pkg c.core)).dqbase)
      (if n = 0x29 then (swrVal b w e).setWidth 32 else (s.core (coreKey c.pkg c.core)).dqlimit)).elim .illegal fun v =>
        .done v ((e :: r).map fun e => (e.tid, .next)) := by
  have hn : (decide (n = 0x28) || decide (n = 0x29)) = true := by simpa using h
  simp only [swrBody, hn, if_true, swrVal]
  cases s.dqWrite _ _ _ <;> rfl

/-- The debug registers' selectors. -/
theorem sysReg_debug (hlo : 0x18 ≤ n) (hhi : n ≤ 0x1E) : ∃ x, sysReg n = some (x, .d) := by
  interval_cases n <;> exact ⟨_, rfl⟩

/-- Deque registers take new values while the deque is empty and the new region may stand (R81). -/
theorem dqWrite_of_nil {ck : Nat} {base limit : W32} (hd : (s.core ck).deque = [])
    (hr : s.dqRegion ck base.toNat limit.toNat = true) :
    s.dqWrite ck base limit = some (s.modCore ck fun k => { k with dqbase := base, dqlimit := limit }) := by
  simp [State.dqWrite, hd, hr]

theorem dqWrite_of_ne_nil {ck : Nat} (base limit : W32) (hd : (s.core ck).deque ≠ []) : s.dqWrite ck base limit = none := by
  simp [State.dqWrite, hd]

/-- The values before a SWR of debug register `n` of core `k` that words still issue under after it (R183). -/
def State.dbgOwed (s : State) (n : Nat) (k : Core) : List DbgOld :=
  if (Config.freeDelay s.tick).val = 0 then k.dbgOld
  else k.dbgOld ++ [{ sel := n, old := k.dbgReg n, left := (Config.freeDelay s.tick).val }]

theorem dbgSwr_eq_modCore (ck : Nat) (v : W64) :
    s.dbgSwr ck n v = s.draw.2.modCore ck fun k => { k.dbgWrite n v with dbgOld := s.dbgOwed n k } := rfl

theorem dbgOwed_cases (k : Core) : s.dbgOwed n k = k.dbgOld ∨
    ∃ left, (left = 1 ∨ left = 2) ∧ s.dbgOwed n k = k.dbgOld ++ [{ sel := n, old := k.dbgReg n, left := left }] := by
  have hlt := (Config.freeDelay s.tick).isLt
  by_cases h0 : (Config.freeDelay s.tick).val = 0
  · exact .inl (if_pos h0)
  · exact .inr ⟨_, by omega, if_neg h0⟩

variable {s c g sel} (h : s.Issues c (.swr b w sel g)) (hmay : State.mayWrite sel.toNat s c = true)
include h hmay

theorem exec_swr_perThread (hkind : perThread sel.toNat = true) : ∃ u, exec (.swr b w sel g) s = .next u ∧
    OnlyThreads s c g (fun e t => (t.sysWrite sel.toNat (swrVal b w e)).goto c.nextPc) u :=
  leaves_of (exec_swr_eq_runWord b w sel g s) h hmay (fun e t => t.sysWrite sel.toNat (swrVal b w e)) (fun _ => .next)
    (swrBody_perThread s c hkind _) (fun _ _ => rfl) fun _ _ => rfl

theorem exec_swr_debug (hlo : 0x18 ≤ sel.toNat) (hhi : sel.toNat ≤ 0x1E) {e : Env} {rest : Frag} (hfr : s.frag c g = e :: rest) :
    ∃ u, exec (.swr b w sel g) s = .next u ∧
      Leaves s (s.dbgSwr (coreKey c.pkg c.core) sel.toNat (swrVal b w e)) c g (fun _ t => t.goto c.nextPc) u :=
  goesOn_of (exec_swr_eq_runWord b w sel g s) h hmay (by rw [hfr]; exact swrBody_debug s c hlo hhi e rest)

end

/-- Settles O33: the kind of the selector gives who may write it and which register the body writes. -/
theorem systemRegisterWrites : Obligations.SystemRegisterWrites := by
  intro s c b w sel g h val ck
  have hx := exec_swr_eq_runWord b w sel g s
  refine ⟨?_, ?_, ?_, ?_, ?_⟩
  · intro f hf hmode
    obtain ⟨hkind, hmay, hwrite⟩ : perThread sel.toNat = true ∧ State.mayWrite sel.toNat s c = true ∧
        ∀ t v, Thread.sysWrite t sel.toNat v = f t v := by
      simp only [List.mem_cons, Prod.mk.injEq, List.not_mem_nil, or_false] at hf
      rcases hf with ⟨rfl, rfl⟩ | hf
      · exact ⟨rfl, mayWrite_user s c rfl, fun _ _ => rfl⟩
      · casesm* (_ ∧ _) ∨ _
        all_goals
          obtain ⟨rfl, rfl⟩ := ‹_ ∧ _›
          exact ⟨rfl, (mayWrite_handler s c rfl).trans (hmode.resolve_left (by decide)), fun _ _ => rfl⟩
    obtain ⟨u, hu, hl⟩ := exec_swr_perThread h hmay hkind
    exact ⟨u, hu, hl.congr fun e _ => congrArg (Thread.goto · c.nextPc) (hwrite _ _)⟩
  · intro e rest f hfr hf hmode
    obtain ⟨hlo, hhi, hwrite⟩ : 0x18 ≤ sel.toNat ∧ sel.toNat ≤ 0x1E ∧ ∀ k : Core, k.dbgWrite sel.toNat (val e) = f k := by
      simp only [List.mem_cons, Prod.mk.injEq, List.not_mem_nil, or_false] at hf
      casesm* _ ∨ _
      all_goals
        obtain ⟨rfl, rfl⟩ := ‹(_ : BitVec 8) = _ ∧ _›
        exact ⟨by decide, by decide, fun _ => rfl⟩
    obtain ⟨x, hreg⟩ := sysReg_debug hlo hhi
    have hmay : State.mayWrite sel.toNat s c = true := by
      rw [mayWrite_debug s c hreg, Bool.or_eq_true]
      exact hmode
    obtain ⟨u, hu, hl⟩ := exec_swr_debug h hmay hlo hhi hfr
    rw [dbgSwr_eq_modCore] at hl
    obtain ⟨hthr, hkeep, hcores, hall⟩ := hl
    have hck : u.core ck = { (s.core ck).dbgWrite sel.toNat (val e) with
        dbgOld := s.dbgOwed sel.toNat (s.core ck), perf := (u.core ck).perf } := (hcores.of_modCore ck).trans (if_pos rfl)
    have hold : (u.core ck).dbgOld = s.dbgOwed sel.toNat (s.core ck) := (congrArg Core.dbgOld hck).trans rfl
    refine ⟨u, hu, hthr, hkeep, fun j => ?_, ?_, hall⟩
    · by_cases hj : j = ck
      · rw [hj, if_pos rfl, ← hwrite, hold]
        exact hck
      · rw [if_neg hj]
        exact (hcores.of_modCore j).trans (if_neg hj)
    · rw [hold]
      exact dbgOwed_cases s (s.core ck)
  · intro e rest hfr hsel base limit
    have hmay : State.mayWrite sel.toNat s c = true := by rcases hsel with rfl | rfl <;> exact mayWrite_user s c rfl
    have hbody : swrBody b w sel.toNat s c (s.frag c g) (s.frag c g) =
        (s.dqWrite ck base limit).elim .illegal fun v => .done v ((s.frag c g).map fun e => (e.tid, .next)) := by
      rw [hfr]
      rcases hsel with rfl | rfl
      · exact swrBody_deque s c (.inl rfl) e rest
      · exact swrBody_deque s c (.inr rfl) e rest
    refine ⟨fun hnil hroom => ?_, fun hne => ?_⟩
    · obtain ⟨u, hu, hthr, hkeep, hcores, hall⟩ := goesOn_of hx h hmay (by rw [hbody, dqWrite_of_nil s hnil hroom]; rfl)
      refine ⟨u, hu, hthr, hkeep, fun j => (hcores.of_modCore j).trans ?_, hall⟩
      split <;> rfl
    · rw [hx, runWord_eq h hmay, hbody, dqWrite_of_ne_nil s base limit hne]
      rfl
  · intro hsel hmode
    obtain ⟨x, hreg⟩ : ∃ x, sysReg sel.toNat = some (x, .t) := by fin_cases hsel <;> exact ⟨_, rfl⟩
    exact hx.trans (runWord_illegal h.cur (by rw [mayWrite_handler s c hreg, hmode]; simp))
  · intro hlo hhi hmode hdbg
    obtain ⟨x, hreg⟩ := sysReg_debug hlo hhi
    exact hx.trans (runWord_illegal h.cur (by rw [mayWrite_debug s c hreg, hmode, hdbg]; simp))

/-! #### What reset leaves (R73, R78, R80, 24_host R366)

Every table of the state after reset is empty, so that each unit reads as one with its reset values. -/

@[simp] theorem reset_pkg (p : Nat) : State.reset.pkg p = {} := rfl
@[simp] theorem reset_fn (f : Nat) : State.reset.fn f = {} := rfl
@[simp] theorem reset_die (d : Nat) : State.reset.die d = {} := rfl
@[simp] theorem reset_core (k : Nat) : State.reset.core k = {} := rfl
@[simp] theorem reset_fibre (f : Nat) : State.reset.fibre f = {} := rfl

/-- Memory after reset lists no byte, and an unlisted byte reads zero (log entry 3 for the CXL tier). -/
@[simp] theorem reset_readByte (a : Nat) : readByte State.reset.mem a = 0 := rfl

theorem reset_memOk : State.reset.MemOk := rfl

@[simp] theorem reset_isFull (w : Nat) : State.reset.isFull w = true := rfl

@[simp] theorem reset_isPoisoned (a n : Nat) : State.reset.isPoisoned a n = false := rfl

/-- The planes of a core are zero (08_planes R140). -/
@[simp] theorem accAt_default (a : Nat) : Core.accAt {} a = fun _ _ => 0 := rfl

/-- Settles O60: each unit reads as its record of reset values. -/
theorem resetLeaves : Obligations.ResetLeaves := by
  refine ⟨reset_memOk, reset_readByte, reset_isFull, reset_isPoisoned, fun p => ?_, fun f => ?_, fun d => ?_, fun k => ?_,
    fun f => ?_, rfl, rfl, rfl, rfl, rfl, rfl, rfl, rfl, rfl, rfl⟩
  · rw [reset_pkg]; and_intros <;> rfl
  · rw [reset_fn]; and_intros <;> rfl
  · rw [reset_die]; and_intros <;> rfl
  · rw [reset_core]; exact ⟨fun a _ => accAt_default a, by and_intros <;> rfl⟩
  · rw [reset_fibre]; and_intros <;> rfl

end Sys2Proof.Machine

/-! ### Integer and address words (05_integer R89 to R105) -/

namespace Sys2Proof.Machine

/-! #### What a word of each operand form computes (R53 to R57, R89)

`m` is the meaning of the word `i`, which is a word of the form. -/

section
variable {i : Instr} {w : Width} {s : State} {c : Site} {m : Host.Outcome State Fault Refusal}

theorem runLane_computes {g : Guard} {sm : Option SMod} {bx : List Nat} (f : Frag → Env → Out) (hm : m = runLane i g sm bx f s)
    (h : s.Issues c i) : ∃ u, m = .next u ∧ Computes s c g f u :=
  computes_of hm h fun _ _ => rfl

theorem runF3_computes {o : F3} (f : Nat → Nat → Out) (hm : m = runF3 i o w f s) (h : s.Issues c i) :
    ∃ u, m = .next u ∧ Computes s c o.g (fun fr e => f (o.va w e) (o.vb w fr e)) u :=
  runLane_computes _ hm h

theorem runF3b_computes {o : F3} (f : Env → Nat → Nat → Out) (hm : m = runF3b i o w f s) (h : s.Issues c i) :
    ∃ u, m = .next u ∧ Computes s c o.g (fun fr e => f e (o.va w e) (o.vb .w32 fr e)) u :=
  runLane_computes _ hm h

theorem runF2_computes {o : F2} (f : Nat → Out) (hm : m = runF2 i o w f s) (h : s.Issues c i) :
    ∃ u, m = .next u ∧ Computes s c o.g (fun fr e => f (o.vb w fr e)) u :=
  runLane_computes _ hm h

theorem runFP_computes {o : FP} (f : Nat → Nat → Bool × W32) (hm : m = runFP i o w f s) (h : s.Issues c i) :
    ∃ u, m = .next u ∧ Computes s c o.g (fun fr e =>
      { qs := [(o.q, (f (readOp w e o.a) (readB w fr e o.sm o.b)).1)],
        fl := (f (readOp w e o.a) (readB w fr e o.sm o.b)).2 }) u :=
  runLane_computes _ hm h

theorem runDiv_computes {o : F3} (f : Nat → Nat → Out) (hm : m = runDiv i o w f s) (h : s.Issues c i) :
    ∃ u, m = .next u ∧ Computes s c o.g (fun fr e => (f (o.va w e) (o.vb w fr e)).unless (zeroB fr e o.sm)) u :=
  runLane_computes _ hm h

end

/-! #### Zero divisors (R93, 02_numbers R41) -/

@[simp] theorem val_zero (t : ITy) : val t 0 = 0 := by
  simp [val, sint]

/-- A zero that the lane modifier supplies is the value read (R123). -/
theorem readB_of_zeroB {fr : Frag} {e : Env} {sm : Option SMod} (h : zeroB fr e sm = true) (w : Width) (b : Opnd) :
    readB w fr e sm b = 0 := by
  cases sm with
  | none => cases h
  | some k =>
    have hlane : laneEnv fr (smodLane k e.lane) = none := Option.isNone_iff_eq_none.mp h
    simp only [readB, hlane]

/-- Only a zero divisor can be a supplied zero, so that withholding the flags for one touches nothing but DZ: a quotient's SAT stays. -/
theorem divisor_unless_zeroB (o : F3) (t : ITy) (fr : Frag) (e : Env) (xs : List (Nat × W32)) (r : Out) :
    (if val t (o.vb t.w fr e) = 0 then { xs := xs, fl := fDZ } else r).unless (zeroB fr e o.sm) =
      if val t (o.vb t.w fr e) = 0 then { xs := xs, fl := if zeroB fr e o.sm then 0 else fDZ } else r := by
  cases hz : zeroB fr e o.sm with
  | false => rfl
  | true =>
    have hb : val t (o.vb t.w fr e) = 0 := by rw [F3.vb, readB_of_zeroB hz, val_zero]
    rw [if_pos hb, if_pos hb]
    rfl

/-! #### Constants (R103) -/

@[simp] theorem put32_toNat (d : XReg) (v : W32) : put32 d v.toNat = [(d.toNat, v)] := by
  rw [put32, BitVec.ofNat_toNat, BitVec.setWidth_eq]

/-! #### The statements -/

/-- Settles O1: each word is one of its operand form with its result function; for the divisions, the flags withheld through a supplied
zero can only be the DZ of a zero divisor. -/
theorem integerArithmetic : Obligations.IntegerArithmetic := by
  intro s c
  refine ⟨?add, ?sub, ?mul, ?mad, ?mulh, ?div, ?rem, ?addc, ?min, ?max, ?abs⟩
  case add => exact fun o t sat => runF3_computes (addOut o.d t sat) rfl
  case sub => exact fun o t sat => runF3_computes (subOut o.d t sat) rfl
  case mul => exact fun o t sat => runF3_computes (mulOut o.d t sat) rfl
  case mad => exact fun o z t sat =>
    runLane_computes (fun fr e => madOut o.d t sat (o.va t.w e) (o.vb t.w fr e) (readOp t.w e z)) rfl
  case mulh => exact fun o w sg => runF3_computes (mulhOut o.d ⟨w2 w, sg⟩) rfl
  case div =>
    intro o t sat h
    obtain ⟨u, hu, hc⟩ := runDiv_computes (divOut o.d t sat) rfl h
    exact ⟨u, hu, by simpa only [divOut, divisor_unless_zeroB] using hc⟩
  case rem =>
    intro o t h
    obtain ⟨u, hu, hc⟩ := runDiv_computes (remOut o.d t) rfl h
    exact ⟨u, hu, by simpa only [remOut, divisor_unless_zeroB] using hc⟩
  case addc => exact fun o w borrow => runF3_computes (addcOut o.d (w2 w) borrow) rfl
  case min => exact fun o t => runF3_computes (minOut o.d t) rfl
  case max => exact fun o t => runF3_computes (maxOut o.d t) rfl
  case abs => exact fun o w sat => runF2_computes (absOut o.d w sat) rfl

/-- Settles O2: each word is one of its operand form with its result function; the shifts read B at 32 bits. -/
theorem logicShiftCount : Obligations.LogicShiftCount := by
  intro s c
  refine ⟨?and, ?or, ?xor, ?andn, ?shl, ?shr, ?sar, ?rol, ?popc, ?clz, ?ctz, ?brev⟩
  case and => exact fun o t => runF3_computes (andOut o.d t) rfl
  case or => exact fun o t => runF3_computes (orOut o.d t) rfl
  case xor => exact fun o t => runF3_computes (xorOut o.d t) rfl
  case andn => exact fun o t => runF3_computes (andnOut o.d t) rfl
  case shl => exact fun o t sat => runF3b_computes (fun _ => shlOut o.d t sat) rfl
  case shr => exact fun o t => runF3b_computes (fun _ => shrOut o.d t) rfl
  case sar => exact fun o t => runF3b_computes (fun _ => sarOut o.d t) rfl
  case rol => exact fun o t => runF3b_computes (fun _ => rolOut o.d t) rfl
  case popc => exact fun o w => runF2_computes (popcOut o.d w) rfl
  case clz => exact fun o w => runF2_computes (clzOut o.d w) rfl
  case ctz => exact fun o w => runF2_computes (ctzOut o.d w) rfl
  case brev => exact fun o t => runF2_computes (brevOut o.d t) rfl

/-- Settles O3: each word is one of its operand form with its result function; the field words read B at 32 bits, and a 32-bit constant is
written as it stands. -/
theorem fieldsMovesAddresses : Obligations.FieldsMovesAddresses := by
  intro s c
  refine ⟨?bfx, ?bfi, ?sel, ?cmp, ?mov, ?movi, ?moviI64, ?lea, ?addi⟩
  case bfx => exact fun o t => runF3b_computes (fun _ => bfxOut o.d t) rfl
  case bfi => exact fun o t => runF3b_computes (fun e => bfiOut o.d t (readOp t.w e (.x o.d))) rfl
  case sel => exact fun o t p =>
    runLane_computes (fun fr e => bitsOut o.d t (if e.sel p then o.va t.w e else o.vb t.w fr e)) rfl
  case cmp => exact fun o t k => runFP_computes (fun a b => (icond k (val t a) (val t b), 0)) rfl
  case mov => exact fun d b sm g t => runLane_computes (fun fr e => bitsOut d t (readB t.w fr e sm b)) rfl
  case movi =>
    intro d g v h
    obtain ⟨u, hu, hc⟩ := runLane_computes (fun _ _ => { xs := put32 d v.toNat }) rfl h
    exact ⟨u, hu, by simpa only [put32_toNat] using hc⟩
  case moviI64 => exact fun d g v => runLane_computes (fun _ _ => { xs := put64 d (umod 64 v.toInt) }) rfl
  case lea => exact fun d m b t => runLane_computes (fun _ e => { xs := put64 d (leaAddr e m b t) }) rfl
  case addi => exact fun d a g v =>
    runLane_computes (fun _ e => { xs := put32 d (umod 32 ((readOp .w32 e a : Int) + v.toInt)) }) rfl

end Sys2Proof.Machine

/-! ### Floating-point words (06_float R106 to R122) -/

namespace Sys2Proof.Machine

/-! #### What a word of each operand form computes (R106)

`m` is the meaning of the word `i`, which is a word of the form. -/

section
variable {i : Instr} {f : NFmt} {s : State} {c : Site} {m : Host.Outcome State Fault Refusal}

theorem runFl3_computes {o : F3} (k : Env → Nat → Nat → Out) (hm : m = runFl3 i o f k s) (h : s.Issues c i) :
    ∃ u, m = .next u ∧ Computes s c o.g (fun fr e => k e (o.fa f e) (o.fb f fr e)) u :=
  runLane_computes _ hm h

theorem runFl2_computes {o : F2} (k : Env → Nat → Out) (hm : m = runFl2 i o f k s) (h : s.Issues c i) :
    ∃ u, m = .next u ∧ Computes s c o.g (fun fr e => (k e (o.fb f fr e)).unless (zeroB fr e o.sm)) u :=
  runLane_computes _ hm h

end

/-! #### Results without the flags of a supplied zero (02_numbers R41) -/

@[simp] theorem unless_mk (xs : List (Nat × W32)) (qs : List (QReg × Bool)) (fl : W32) (b : Bool) :
    ({ xs := xs, qs := qs, fl := fl } : Out).unless b = { xs := xs, qs := qs, fl := if b then 0 else fl } := by
  cases b <;> rfl

/-! #### The elements of FDOT2 (R110) -/

/-- The model's reading of a source of FDOT2 is the statement's: a small immediate is its integer value in element 0 (assumption 74), and
every other operand is its whole word. -/
theorem readPair_eq_halvesOf : readPair = halvesOf := by
  funext h e x
  cases x <;> rfl

/-! #### The special functions (R114) -/

/-- Each special function is the one-source word of its function `k`. -/
theorem exec_special {k : Spec} {i : Instr} {o : F2} {f : FFmt}
    (hi : (i, k) ∈ [(.frcp o f, .rcp), (.fsqrt o f, .sqrt), (.frsq o f, .rsq), (.fexp2 o f, .exp2), (.flog2 o f, .log2),
      (.fsint o f, .sint), (Instr.fcost o f, Spec.cost)]) (s : State) :
    exec i s = runFl2 i o f.n (specOut k o.d f.n) s := by
  simp only [List.mem_cons, List.not_mem_nil, or_false, Prod.mk.injEq] at hi
  rcases hi with ⟨rfl, rfl⟩ | ⟨rfl, rfl⟩ | ⟨rfl, rfl⟩ | ⟨rfl, rfl⟩ | ⟨rfl, rfl⟩ | ⟨rfl, rfl⟩ | ⟨rfl, rfl⟩ <;> rfl

/-! #### The statements -/

/-- Settles O5: each word is one of its operand form with its result function; the words with a condition of their own on the flags (FMUL,
FFMA, FDOT2) compute the statement's function of all their operands, FDOT2 once its two readings of a source are known to be one. -/
theorem floatArithmetic : Obligations.FloatArithmetic := by
  intro s c
  refine ⟨?fadd, ?fsub, ?fmul, ?ffma, ?fmin, ?fmax, ?frnd, ?fdot2⟩
  case fadd => exact fun o f rm => runFl3_computes (faddOut o.d f.n rm) rfl
  case fsub => exact fun o f rm => runFl3_computes (fsubOut o.d f.n rm) rfl
  case fmul => exact fun o f rm => runLane_computes _ rfl
  case ffma => exact fun o z f rm => runLane_computes _ rfl
  case fmin => exact fun o f => runFl3_computes (fminOut o.d f.n) rfl
  case fmax => exact fun o f => runFl3_computes (fmaxOut o.d f.n) rfl
  case frnd => exact fun o f rm => runFl2_computes (frndOut o.d f.n rm) rfl
  case fdot2 =>
    intro o bf rm
    rw [← readPair_eq_halvesOf]
    exact runLane_computes _ rfl

/-- Settles O6: FCMP computes the statement's function, FCLASS raises no flag that a supplied zero could withhold, and the special
functions are one word with seven functions. -/
theorem floatCompareSpecial : Obligations.FloatCompareSpecial := by
  intro s c
  refine ⟨?fcmp, ?fclass, ?special⟩
  case fcmp => exact fun o f k => runLane_computes _ rfl
  case fclass =>
    intro o f h
    obtain ⟨u, hu, hc⟩ := runFl2_computes (fun _ b => fltOut o.d (fclassV f.n b, 0)) rfl h
    exact ⟨u, hu, by simpa only [fltOut, unless_mk, ite_self] using hc⟩
  case special => exact fun k i o f hi => runFl2_computes (specOut k o.d f.n) (exec_special hi s)

/-- Settles O7: each word is one of its operand form with its result function; an order key raises no flag, so that a supplied zero
withholds none. -/
theorem conversionsScaling : Obligations.ConversionsScaling := by
  intro s c
  refine ⟨?fcvt, ?fcvti, ?icvtf, ?fpack, ?funpk, ?fscaleacc, ?ordkeyInt, ?ordkeyFlt⟩
  case fcvt => exact fun o dst src rm sat => runLane_computes _ rfl
  case fcvti =>
    intro o t src rm sat h
    obtain ⟨u, hu, hc⟩ := runFl2_computes
      (fun _ b => { xs := put o.d t (fcvtiV t src.n rm sat b).1, fl := (fcvtiV t src.n rm sat b).2 }) rfl h
    exact ⟨u, hu, by simpa only [unless_mk] using hc⟩
  case icvtf => exact fun o t dst rm => runF2_computes (fun b => fltOut o.d (icvtfV dst.n rm (val t b))) rfl
  case fpack => exact fun o f sat => runF3b_computes (fun e => fpackOut o.d f sat (readOp .w32 e (.x o.d))) rfl
  case funpk => exact fun o f => runF3_computes (funpkOut o.d f) rfl
  case fscaleacc => exact fun o f rm sat ak e8m0 => runLane_computes _ rfl
  case ordkeyInt => exact fun o t => runF2_computes (fun b => { xs := put64 o.d (ordKey t.w.bits b false t.sg) }) rfl
  case ordkeyFlt =>
    intro o f h
    obtain ⟨u, hu, hc⟩ := runFl2_computes (fun _ b => { xs := put64 o.d (ordKey f.n.bits b true false) }) rfl h
    exact ⟨u, hu, by simpa only [unless_mk, ite_self] using hc⟩

end Sys2Proof.Machine

/-! ### Lane moves, votes, matches and election (07_lanes R126 to R130) -/

namespace Sys2Proof.Machine

/-! #### Lane moves (R126, R127) -/

section
variable (o : F3) (w : W2) (s : State)

theorem exec_perm_eq_runWord : exec (.perm o w) s =
    runWord (.perm o w) o.g (fun fr e => rdMove (w2 w) fr e o.sm o.b o.a (permLane (o.vb .w32 fr e))) always
      (laneBody fun fr e => moveOut (w2 w) o.d fr (permLane (o.vb .w32 fr e)) o.a) s := rfl

theorem exec_shufx_eq_runWord (seg : Seg) (m : ShMode) : exec (.shufx o w seg m) s =
    runWord (.shufx o w seg m) o.g
      (fun fr e => rdMove (w2 w) fr e o.sm o.b o.a (shufLane m (segSize seg) e.lane (o.vb .w32 fr e))) always
      (laneBody fun fr e => moveOut (w2 w) o.d fr (shufLane m (segSize seg) e.lane (o.vb .w32 fr e)) o.a) s := rfl

end

/-- R126: PERM's index names a lane of the group, or the value is zero. -/
theorem moveOut_permLane (w : Width) (d : XReg) (fr : Frag) (n : Nat) (a : Opnd) :
    moveOut w d fr (permLane n) a = { xs := put d ⟨w, false⟩ (if n < 64 then readLane w fr n a else 0) } := by
  unfold permLane
  by_cases hn : n < 64
  · rw [if_pos hn, if_pos (show n < Config.gwidth from hn)]
    rfl
  · rw [if_neg hn, if_neg (show ¬ n < Config.gwidth from hn)]
    rfl

/-! #### Votes, matches and election (R128 to R130) -/

theorem exec_vote_eq_runLane (d : VoteDst) (p : PSrc) (g : Guard) (s : State) :
    exec (.vote d p g) s = runLane (.vote d p g) g none [] (fun fr _ => voteOut d p fr) s := rfl

theorem exec_matchL_eq_runWord (o : F2) (w : W2) (hi : Bool) (s : State) : exec (.matchL o w hi) s =
    runWord (.matchL o w hi) o.g (rdAll (w2 w) o fun _ _ => true) always (laneBody (matchOut (w2 w) hi o)) s := rfl

theorem exec_elect_eq_runLane (q : QReg) (g : Guard) (s : State) : exec (.elect q g) s =
    runLane (.elect q g) g none [] (fun fr e => { qs := [(q, fr.all fun f => decide (e.lane ≤ f.lane))] }) s := rfl

/-- Settles O8: the two lane moves are one word with two choices of the source lane; the others compute the statement's function of their
fragment. -/
theorem laneMovesVotes : Obligations.LaneMovesVotes := by
  intro s c
  refine ⟨?perm, ?shufx, ?all, ?any, ?ballot, ?ballotHi, ?matchLo, ?matchHi, ?elect⟩
  case perm =>
    exact fun o w h => computes_of (exec_perm_eq_runWord o w s) h fun fr e => moveOut_permLane (w2 w) o.d fr (o.vb .w32 fr e) o.a
  case shufx => exact fun o w seg m h => computes_of (exec_shufx_eq_runWord o w s seg m) h fun _ _ => rfl
  case all => exact fun q p g => runLane_computes _ (exec_vote_eq_runLane (.all q) p g s)
  case any => exact fun q p g => runLane_computes _ (exec_vote_eq_runLane (.any q) p g s)
  case ballot => exact fun d p g => runLane_computes _ (exec_vote_eq_runLane (.ballot d) p g s)
  case ballotHi => exact fun d p g => runLane_computes _ (exec_vote_eq_runLane (.ballotHi d) p g s)
  case matchLo => exact fun o w h => computes_of (exec_matchL_eq_runWord o w false s) h fun _ _ => rfl
  case matchHi => exact fun o w h => computes_of (exec_matchL_eq_runWord o w true s) h fun _ _ => rfl
  case elect => exact fun q g => runLane_computes _ (exec_elect_eq_runLane q g s)

end Sys2Proof.Machine

/-! ### The forwarding chain (07_lanes R135 to R137) -/

namespace Sys2Proof.Machine

/-! #### Sending (R136) -/

section
variable (b : Opnd) (sm : Option SMod) (w : W2) (fr : Frag)

/-- The element that FWDS takes from lane `j`: its operand, or zero where no guard-active lane stands. -/
def fwdElem (j : Nat) : W64 :=
  match laneEnv fr j with
  | some e => BitVec.ofNat 64 (readB (w2 w) fr e sm b)
  | none => 0

/-- The elements of FWDS's message: the lanes of block `blk`. -/
def fwdElems (blk : Nat) : List W64 := (List.range 32).map fun k => fwdElem b sm w fr (32 * blk + k)

@[simp] theorem fwdElems_length (blk : Nat) : (fwdElems b sm w fr blk).length = 32 := by
  simp [fwdElems]

theorem fwdElems_getD (blk : Nat) {k : Nat} (hk : k < 32) :
    (fwdElems b sm w fr blk).getD k 0 = fwdElem b sm w fr (32 * blk + k) := by
  simp [fwdElems, List.getD_eq_getElem?_getD, hk]

variable (g : Guard) (s : State) (c : Site)

theorem exec_fwds_eq_runWord (ch blk : BitVec 2) : exec (.fwds b sm g w ch blk) s =
    runWord (.fwds b sm g w ch blk) g (rdWord (.fwds b sm g w ch blk) sm (opndX (w2 w) b)) always
      (fwdsBody b sm w ch.toNat blk.toNat) s := rfl

/-- The message that FWDS puts on its way to core `n`, under the state's next number. -/
def State.fwdMsg (n ch blk : Nat) : FwdMsg :=
  { id := s.nextId, core := coreKey c.pkg n, ch := ch,
    msg := { launchid := (s.wg c.wg).launchid, wide := w == .w64, elems := fwdElems b sm w fr blk } }

/-- The state with a further message on its way, which took a number. -/
def State.forwarding (m : FwdMsg) : State := { s.fresh.2 with fwds := s.fwds ++ [m] }

theorem fwdsBody_of_chanFree {n ch : Nat} (blk : Nat) (hfr : fr ≠ []) (hn : successor c.core = some n)
    (hfree : s.chanFree (coreKey c.pkg n) ch = true) :
    fwdsBody b sm w ch blk s c fr fr =
      .done (s.forwarding (s.fwdMsg b sm w fr c n ch blk)) (fr.map fun e => (e.tid, .next)) := by
  have hne : fr.isEmpty = false := List.isEmpty_eq_false_iff.mpr hfr
  simp only [fwdsBody, hne, hn, hfree, Bool.false_eq_true, if_false, if_true]
  rfl

/-- At the end of a die's chain every guard-active thread traps; with none the word does nothing. -/
theorem fwdsBody_of_edge (ch blk : Nat) (hn : successor c.core = none) :
    fwdsBody b sm w ch blk s c fr fr = .done s (fr.map fun e => (e.tid, .trap { cause := .fwdedge, pc := c.pc })) := by
  cases fr with
  | nil => rfl
  | cons e r =>
    simp only [fwdsBody, hn]
    rfl

end

/-- An FWDEDGE trap leaves its thread at the word, which has not issued. -/
theorem fwdedge_not_ofIssued (c : Site) : TrapInfo.ofIssued { cause := .fwdedge, pc := c.pc } c = false := by
  simp [TrapInfo.ofIssued]

/-! #### Taking a message (R137) -/

/-- The oldest message of the launch is taken; the others keep their order. -/
theorem takeMsg_append {lid : W32} {before : List FMsg} {m : FMsg} (after : List FMsg) (hb : ∀ x ∈ before, x.launchid ≠ lid)
    (hm : m.launchid = lid) : takeMsg lid (before ++ m :: after) = some (m, before ++ after) := by
  induction before with
  | nil => simp [takeMsg, hm]
  | cons x r ih =>
    have hr := ih fun y hy => hb y (List.mem_cons_of_mem x hy)
    have hx : x.launchid ≠ lid := hb x List.mem_cons_self
    simp [takeMsg, hx, hr]

section
variable (d : XReg) (w : W2)

/-- What a thread takes of message `m`: its element of the block, when its lane stands in it. -/
def fwdrInto (blk : Nat) (m : FMsg) (e : Env) (t : Thread) : Thread :=
  if e.lane / 32 = blk then t.wxs (put d ⟨w2 w, false⟩ (m.elems.getD (e.lane % 32) 0).toNat) else t

/-- Results of x registers alone. -/
theorem out_xs (t : Thread) (xs : List (Nat × W32)) : t.out { xs := xs } = t.wxs xs := by
  simp [Thread.out, Thread.raise]

theorem out_fwdrOut (blk : Nat) (m : FMsg) (e : Env) (t : Thread) : t.out (fwdrOut d w blk m e) = fwdrInto d w blk m e t := by
  unfold fwdrOut fwdrInto
  split
  · exact out_xs t _
  · exact out_xs t []

variable (g : Guard) (s : State) (c : Site)

theorem exec_fwdr_eq_runWord (ch blk : BitVec 2) : exec (.fwdr d g w ch blk) s =
    runWord (.fwdr d g w ch blk) g (rdPlain (.fwdr d g w ch blk)) always (fwdrBody d w ch.toNat blk.toNat) s := rfl

/-- The state with `rest` left in channel `ch` of the site's core and the workgroup no longer eligible for a check. -/
def State.forwarded (ch : Nat) (rest : List FMsg) : State :=
  (s.modCore (coreKey c.pkg c.core) fun k => { k with fwd := lset k.fwd ch rest }).spoil c.wg

theorem forwarded_wg (ch : Nat) (rest : List FMsg) (j : Nat) :
    (s.forwarded c ch rest).wg j = if j = c.wg then { s.wg j with inelig := true } else s.wg j := by
  rw [State.forwarded, State.spoil, State.modWg_wg]
  by_cases hj : j = c.wg
  · subst hj; simp
  · simp [hj, Ne.symm hj]

variable {s c}

/-- Of the cores, the issuing one has the channel as set. -/
theorem CoresKeep.of_forwarded {u : State} {ch : Nat} {rest : List FMsg} (h : CoresKeep (s.forwarded c ch rest) c u) (j : Nat) :
    u.core j = if j = coreKey c.pkg c.core then { s.core j with perf := (u.core j).perf, fwd := lset (s.core j).fwd ch rest }
      else s.core j :=
  CoresKeep.of_modCore (s := s) (f := fun k => { k with fwd := lset k.fwd ch rest }) h j

variable (s c)

theorem fwdrBody_of_takeMsg {ch : Nat} (blk : Nat) {m : FMsg} {rest : List FMsg} {fr : Frag} (hfr : fr ≠ [])
    (hm : takeMsg (s.wg c.wg).launchid ((s.core (coreKey c.pkg c.core)).fwd.getD ch []) = some (m, rest))
    (hw : m.wide = (w == .w64)) :
    fwdrBody d w ch blk s c fr fr =
      .done (fr.foldl (fun s e => s.modThr (thrKey c.wg e.tid) (fwdrInto d w blk m e)) (s.forwarded c ch rest))
        (fr.map fun e => (e.tid, .next)) := by
  have hne : fr.isEmpty = false := List.isEmpty_eq_false_iff.mpr hfr
  simp only [fwdrBody, hne, hm, hw, out_fwdrOut, bne_self_eq_false, Bool.false_eq_true, if_false]
  rfl

end

/-- A channel after one of them was set. -/
theorem getD_lset {α : Type} {l : List α} {i : Nat} (hi : i < l.length) (v : α) (k : Nat) (dflt : α) :
    (lset l i v).getD k dflt = if k = i then v else l.getD k dflt := by
  simp only [lset, List.getD_eq_getElem?_getD, List.getElem?_set]
  by_cases hk : k = i
  · subst hk
    simp [hi]
  · simp [hk, Ne.symm hk]

/-- Settles O22: FWDS's body sends its message while the successor's channel is free and traps at the chain's edge;
FWDR's takes the launch's oldest message and puts its elements into the threads. -/
theorem forwardingWords : Obligations.ForwardingWords := by
  intro s c g w ch blk
  refine ⟨?sends, ?edge, ?takes⟩
  case sends =>
    intro b sm n h hfr hn hfree
    let m := s.fwdMsg b sm w (s.frag c g) c n ch.toNat blk.toNat
    obtain ⟨u, hu, hthr, hkeep, hcores, hall⟩ := goesOn_of (exec_fwds_eq_runWord b sm w g s ch blk) h rfl
      (fwdsBody_of_chanFree b sm w (s.frag c g) s c blk.toNat hfr hn hfree)
    have hfwds : u.fwds = s.fwds ++ [m] := (congrArg State.fwds hall).trans rfl
    have hid : u.nextId = s.nextId + 1 := (congrArg State.nextId hall).trans rfl
    refine ⟨u, m, hu, hthr, hkeep, hcores, hfwds, rfl, rfl, rfl, rfl, fwdElems_length .., fun k hk => ?_, ?_⟩
    · exact fwdElems_getD b sm w (s.frag c g) blk.toNat hk
    · rw [hfwds, hid]
      exact hall
  case edge =>
    intro b sm h hn hh
    obtain ⟨u, hu, hl⟩ := trapWord_of (exec_fwds_eq_runWord b sm w g s ch blk) h rfl
      (fun _ => { cause := .fwdedge, pc := c.pc }) (fwdsBody_of_edge b sm w (s.frag c g) s c ch.toNat blk.toNat hn) hh
      fun _ _ => rfl
    refine ⟨u, hu, hl.congr fun e _ => ?_⟩
    rw [fwdedge_not_ofIssued]
    rfl
  case takes =>
    intro d before m after h hfr hq hbefore hm hw hch
    have htake : takeMsg (s.wg c.wg).launchid ((s.core (coreKey c.pkg c.core)).fwd.getD ch.toNat []) = some (m, before ++ after) := by
      rw [hq]
      exact takeMsg_append after hbefore hm
    obtain ⟨u, hu, hthr, hkeep, hcores, hall⟩ := leaves_of (act := fun e t => (fwdrInto d w blk.toNat m e t).goto c.nextPc)
      (exec_fwdr_eq_runWord d w g s ch blk) h rfl (fwdrInto d w blk.toNat m) (fun _ => .next)
      (fwdrBody_of_takeMsg d w s c blk.toNat hfr htake hw) (fun _ _ => rfl) fun _ _ => rfl
    have hcore := hcores.of_forwarded
    have hfwd : (u.core (coreKey c.pkg c.core)).fwd = lset (s.core (coreKey c.pkg c.core)).fwd ch.toNat (before ++ after) :=
      (congrArg Core.fwd ((hcore _).trans (if_pos rfl))).trans rfl
    have hwgs : u.wgs = (s.forwarded c ch.toNat (before ++ after)).wgs := (congrArg State.wgs hall).trans rfl
    refine ⟨u, hu, hthr, hkeep, fun k => ?_, fun k => ?_, fun k => ?_, ?_⟩
    · by_cases hk : k = coreKey c.pkg c.core
      · subst hk
        rw [if_pos rfl, hfwd]
        exact (hcore _).trans (if_pos rfl)
      · rw [if_neg hk]
        exact (hcore k).trans (if_neg hk)
    · rw [hfwd]
      exact getD_lset hch _ k []
    · exact (congrArg (tget ({} : Wg) · k) hwgs).trans (forwarded_wg s c ch.toNat (before ++ after) k)
    · rw [hwgs]
      exact hall

end Sys2Proof.Machine

/-! ### Words of plane kernels (08_planes R140 to R158, 21_tables R327) -/

namespace Sys2Proof.Machine

/-- A word whose body, besides its threads, changes cores, workgroups and the next number alone: what it leaves, told from the state at
issue. -/
theorem Leaves.of_units {s v u : State} {c : Site} {g : Guard} {act : Env → Thread → Thread}
    (hv : v = { s with cores := v.cores, wgs := v.wgs, nextId := v.nextId }) (h : Leaves s v c g act u) :
    ThreadsDo s s c g act u ∧ OthersKeep s c u ∧ CoresKeep v c u ∧
      u = { s with threads := u.threads, cores := u.cores, wgs := v.wgs, nextId := v.nextId } := by
  obtain ⟨hthr, hkeep, hcores, hall⟩ := h
  refine ⟨?_, ?_, hcores, ?_⟩
  · rw [hv] at hthr
    exact hthr
  · rw [hv] at hkeep
    exact hkeep
  · rw [hv] at hall
    exact hall

/-! #### The plane queue (R146, R150) -/

section
variable (q : List PlaneOp) (o : PlaneOp)

/-- The follower halves at the end of a queue, of the operation's own I-cycle: it goes ahead of them. -/
def queueBehind : List PlaneOp := q.rtakeWhile fun x => x.role == 2 && x.cyc == o.cyc

/-- The entries that an operation goes behind. -/
def queueAhead : List PlaneOp := q.rdropWhile fun x => x.role == 2 && x.cyc == o.cyc

theorem queueAhead_append_queueBehind : queueAhead q o ++ queueBehind q o = q := by
  rw [queueAhead, queueBehind, List.rdropWhile, List.rtakeWhile, ← List.reverse_append, List.takeWhile_append_dropWhile,
    List.reverse_reverse]

variable {q o} in
theorem role_cyc_of_mem_queueBehind {x : PlaneOp} (h : x ∈ queueBehind q o) : x.role = 2 ∧ x.cyc = o.cyc := by
  simpa using List.mem_rtakeWhile_imp h

theorem enqueue_of_role_ne (h : o.role ≠ 2) : enqueue q o = queueAhead q o ++ o :: queueBehind q o := by
  have hlen : (q.reverse.takeWhile fun x => x.role == 2 && x.cyc == o.cyc).length = (queueBehind q o).length := List.length_reverse.symm
  have hcut {a b : List PlaneOp} (h : a ++ b = q) :
      q.take (q.length - b.length) ++ [o] ++ q.drop (q.length - b.length) = a ++ o :: b := by
    subst h
    simp
  simp only [enqueue, h, if_false, hlen]
  exact hcut (queueAhead_append_queueBehind q o)

theorem enqueue_of_role_eq (h : o.role = 2) : enqueue q o = q ++ [o] := if_pos h

end

section
variable (s : State)

theorem push_core (ck : Nat) (o : PlaneOp) (k : Nat) :
    (s.push ck o).core k = if ck = k then { s.core k with pq := enqueue (s.core k).pq o } else s.core k := by
  rw [State.push, State.modCore_core]
  split
  · next h => rw [h]
  · rfl

/-- The state with `op` put into the queue of core `ck` under the state's next number, and its half into the follower's, when it has one. -/
def State.queueing (ck : Nat) (op : PlaneOp) : Option Nat → State
  | none => s.fresh.2.push ck op
  | some v => (s.fresh.2.push ck op).push (ck + 1) { op with wg := v, role := 2 }

theorem queueing_frame (ck : Nat) (op : PlaneOp) (fl : Option Nat) :
    s.queueing ck op fl = { s with cores := (s.queueing ck op fl).cores, nextId := s.nextId + 1 } := by
  cases fl <;> rfl

theorem queueing_core (ck : Nat) (op : PlaneOp) (fl : Option Nat) (k : Nat) :
    (s.queueing ck op fl).core k =
      if k = ck then { s.core k with pq := enqueue (s.core k).pq op }
      else if fl.isSome ∧ k = ck + 1 then { s.core k with pq := ((s.queueing ck op fl).core k).pq }
      else s.core k := by
  have hfresh : s.fresh.2.core k = s.core k := rfl
  cases fl with
  | none => simp [State.queueing, push_core, hfresh, eq_comm]
  | some v =>
    simp only [State.queueing, push_core, hfresh, Option.isSome_some, true_and]
    by_cases hk : k = ck
    · simp [hk]
    · by_cases hk' : k = ck + 1
      · simp [hk']
      · simp [hk, hk', Ne.symm hk, Ne.symm hk']

theorem queueing_follower_pq (ck : Nat) (op : PlaneOp) (v : Nat) :
    ((s.queueing ck op (some v)).core (ck + 1)).pq = (s.core (ck + 1)).pq ++ [{ op with wg := v, role := 2 }] := by
  simp [State.queueing, push_core, enqueue_of_role_eq]
  rfl

end

/-- An operation as a thread's word puts it into its core's queue. -/
def State.opOf (s : State) (c : Site) (e : Env) (pair : Bool) (o : PlaneOp) : PlaneOp :=
  { o with id := s.nextId, thr := thrKey c.wg e.tid, wg := c.wg, cyc := s.clockOf c.pkg, pc := c.pc, role := if pair then 1 else 0 }

theorem opOf_role_ne (s : State) (c : Site) (e : Env) (pair : Bool) (o : PlaneOp) : (s.opOf c e pair o).role ≠ 2 := by
  cases pair <;> simp [State.opOf]

theorem queueBody_of_op {pair : Bool} {check : State → Site → Env → Tile} {s : State} {c : Site} {fr : Frag} {e : Env} {rest : Frag}
    {o : PlaneOp} (hop : check s c e = .op o) (hroom : (s.core (coreKey c.pkg c.core)).pq.length < 16)
    (hpair : pair = true → (∃ v, s.follower c = some v) ∧ (s.core (coreKey c.pkg c.core + 1)).pq.length < 16) :
    queueBody pair check s c fr (e :: rest) =
      .done (s.queueing (coreKey c.pkg c.core) (s.opOf c e pair o) (if pair then s.follower c else none))
        ((e :: rest).map fun e => (e.tid, .next)) := by
  have hfree : s.pqFree (coreKey c.pkg c.core) = true := decide_eq_true hroom
  cases pair with
  | false =>
    simp only [queueBody, hop, hfree, Bool.false_and, Bool.not_true, Bool.or_self, Bool.false_eq_true, if_false]
    rfl
  | true =>
    obtain ⟨⟨v, hv⟩, hroom'⟩ := hpair rfl
    have hfree' : s.pqFree (coreKey c.pkg c.core + 1) = true := decide_eq_true hroom'
    simp only [queueBody, hop, hv, hfree, hfree', Option.isNone_some, Bool.and_false, Bool.not_true, Bool.or_self, Bool.false_eq_true,
      if_false, if_true]
    rfl

/-! #### Descriptors that pass the checks (R150) -/

theorem convTile_op {k : PKind} {dst src : BitVec 4} {i dk lo hi : Nat} {d r : W64} (hd : tdKind d = dk) (hr : tdKind r = 4)
    (hlo : lo ≤ tdFmt r) (hhi : tdFmt r ≤ hi) (hidx : i < tdSteps d) :
    convTile k dst src i dk lo hi d r = .op { id := 0, kind := k, ta := d, tb := r, idx := i } := by
  simp [convTile, hd, hr, hlo, hhi, Nat.not_le.mpr hidx]

theorem mmaTile_op {k : PKind} {acc : AReg} {ta tb : BitVec 4} {a b : W64} (ha : tdKind a ∈ [1, 2])
    (hb : if k = .mmac then tdKind b = 3 else tdKind b ∈ [1, 2]) (hra : tdRole a = 0) (hrb : tdRole b = 1)
    (hsteps : tdSteps a = tdSteps b) :
    mmaTile k acc ta tb a b = .op { id := 0, kind := k, acc := acc.toNat, ta := a, tb := b, idx := ta.toNat } := by
  have ha' : (tdKind a == 1 || tdKind a == 2) = true := by simpa using ha
  have hb' : (if k == .mmac then tdKind b == 3 else tdKind b == 1 || tdKind b == 2) = true := by
    cases k <;> simpa using hb
  simp only [mmaTile, ha', hb', hra, hrb, hsteps, Bool.not_true, Bool.false_eq_true, ne_eq, not_true_eq_false, if_false]

theorem accstCheck_op {acc : AReg} {m : MAddr} {b : XReg} {s s' : State} {c : Site} {e : Env} {a : W64} {f n : Nat} {p : Place}
    (ha : a = baseOff e m 8) (halign : a.toNat % 8 = 0)
    (hap : a.toNat / 2 ^ 48 ∈ [0xFFFF, 0xFFFD]) (hf : f = (e.xr b.toNat).toNat % 128) (hn : n = (e.xr b.toNat).toNat / 256 % 128 + 1)
    (hrows : f + n ≤ 128) (hplace : s.resolve c.wg e.tid a (1024 * n) { w := true } = (.ok p, s')) (hown : p.own = true) :
    accstCheck acc m b s c e = .op { id := 0, kind := .accst, acc := acc.toNat, addr := a, row := f, cnt := n } := by
  have hf' : bits (e.xr b.toNat).toNat 6 0 = f := by simp [bits, hf]
  have hn' : bits (e.xr b.toNat).toNat 14 8 + 1 = n := by simp [bits, hn]
  have hap' : (a.toNat / 2 ^ 48 == 0xFFFF || a.toNat / 2 ^ 48 == 0xFFFD) = true := by simpa using hap
  simp only [accstCheck, ← ha, hf', hn', halign, hap', Nat.not_lt.mpr hrows, hplace, hown]
  rfl

/-- Settles O23: each word's checks give its operation, and the body of every word of the plane queue puts that into its place. -/
theorem planeOperationsQueue : Obligations.PlaneOperationsQueue := by
  intro s c g i o pair e rest hfr hword h hplane hroom hpair op
  obtain ⟨rd, check, hx, hop⟩ : ∃ rd check, exec i s = runWord i g rd planeOk (queueBody pair check) s ∧ check s c e = .op o := by
    rcases hword with ⟨dst, src, ix, rfl, rfl, hd, hr, hfmt, hidx, rfl⟩ | ⟨dst, src, ix, rfl, rfl, hd, hr, hlo, hhi, hidx, rfl⟩ |
      ⟨acc, ta, tb, rfl, ha, hb, hra, hrb, hsteps, rfl⟩ | ⟨acc, ta, tb, rfl, ha, hb, hra, hrb, hsteps, rfl⟩ | ⟨mask, rfl, rfl⟩ |
      ⟨acc, m, b, a, f, n, p, s', rfl, rfl, rfl, ha, halign, hap, hf, hn, hrows, hplace, hown, rfl⟩
    · exact ⟨_, _, rfl, convTile_op hd hr (Nat.zero_le _) hfmt hidx⟩
    · exact ⟨_, _, rfl, convTile_op hd hr hlo hhi hidx⟩
    · exact ⟨_, _, rfl, mmaTile_op ha hb hra hrb hsteps⟩
    · exact ⟨_, _, rfl, mmaTile_op ha hb hra hrb hsteps⟩
    · exact ⟨_, _, rfl, rfl⟩
    · exact ⟨_, _, rfl, accstCheck_op ha halign hap hf hn hrows hplace hown⟩
  let ck := coreKey c.pkg c.core
  let fl := if pair then s.follower c else none
  let v := s.queueing ck op fl
  have hfl : fl.isSome = true ↔ pair = true := by
    cases pair with
    | false => simp [fl]
    | true =>
      obtain ⟨⟨w, hw⟩, -⟩ := hpair rfl
      simp [fl, hw]
  have hframe : v = { s with cores := v.cores, nextId := s.nextId + 1 } := queueing_frame s ck op fl
  obtain ⟨u, hu, hl⟩ : ∃ u, exec i s = .next u ∧ Leaves s v c g (fun _ t => t.goto c.nextPc) u :=
    goesOn_of hx h hplane (by rw [hfr]; exact queueBody_of_op hop hroom hpair)
  obtain ⟨hthr, hkeep, hcores, hall⟩ := hl.of_units (by rw [hframe])
  have hpq (k : Nat) : (u.core k).pq = (v.core k).pq := by
    rw [hcores k]
    split <;> rfl
  have hown : (u.core ck).pq = enqueue (s.core ck).pq op := by
    rw [hpq, queueing_core, if_pos rfl]
  refine ⟨u, queueAhead (s.core ck).pq op, queueBehind (s.core ck).pq op, hu, hthr, hkeep, (queueAhead_append_queueBehind _ _).symm,
    fun x hx => role_cyc_of_mem_queueBehind hx,
    hown.trans (enqueue_of_role_ne _ _ (opOf_role_ne s c e pair o)), fun hp => ?_, fun k => ?_, ?_⟩
  · obtain ⟨⟨w, hw⟩, -⟩ := hpair hp
    have hsome : fl = some w := by simp [fl, hp, hw]
    refine ⟨w, hw, ?_⟩
    rw [hpq]
    simp only [v, hsome]
    exact queueing_follower_pq s ck op w
  · refine (hcores k).trans ?_
    have hv := queueing_core s ck op fl k
    by_cases hk : k = ck
    · rw [if_pos hk] at hv
      rw [if_pos hk, if_pos hk, hpq]
      simp only [v, hv]
    · simp only [if_neg hk, hfl] at hv
      rw [if_neg hk, if_neg hk, hpq]
      exact hv
  · have hwgs : v.wgs = s.wgs := (congrArg State.wgs hframe).trans rfl
    have hnext : u.nextId = v.nextId := (congrArg State.nextId hall).trans rfl
    rw [hnext]
    rw [hwgs] at hall
    exact hall

/-! #### Tile descriptors (R144) -/

theorem exec_tdesc_eq_runWord (slot : BitVec 4) (a : XReg) (g : Guard) (s : State) : exec (.tdesc slot a g) s =
    runWord (.tdesc slot a g) g (rdPlain (.tdesc slot a g)) planeOk (tdescBody slot a) s := rfl

theorem tdescBody_of_ok {slot : BitVec 4} {a : XReg} {s : State} {c : Site} {e : Env} (fr rest : Frag)
    (h : tdKind (e.xy a.toNat) = 0 ∨ tdOk (e.xy a.toNat) (s.wg c.wg).scrSize = true) :
    tdescBody slot a s c fr (e :: rest) =
      .done (s.modCore (coreKey c.pkg c.core) fun k =>
        { k with td := k.td.set slot.toNat (if tdKind (e.xy a.toNat) = 0 then 0 else e.xy a.toNat) })
        ((e :: rest).map fun e => (e.tid, .next)) := by
  by_cases hk : tdKind (e.xy a.toNat) = 0
  · simp only [tdescBody, hk, if_true]
    rfl
  · simp only [tdescBody, hk, if_false, h.resolve_left hk, if_true]
    rfl

/-! #### Reading accumulators (R156) -/

theorem exec_accrd_eq_runWord (d : XReg) (acc : AReg) (b : Opnd) (sm : Option SMod) (g : Guard) (s : State) :
    exec (.accrd d acc b sm g) s = runWord (.accrd d acc b sm g) g (rdWord (.accrd d acc b sm g) sm (opndX .w32 b)) planeOk
      (accrdBody d acc.toNat b sm) s := rfl

theorem bits_15_15_eq_one_iff (n : Nat) : bits n 15 15 = 1 ↔ n.testBit 15 = true := by
  simp [bits, Nat.testBit_eq_decide_div_mod_eq]

theorem bits_15_15_eq_zero_iff (n : Nat) : bits n 15 15 = 0 ↔ n.testBit 15 = false := by
  simp [bits, Nat.testBit_eq_decide_div_mod_eq]

/-- What ACCRD of accumulator `n` delivers for the selector `b`: the overflow and poison bits, or an element. -/
def accrdVal (k : Core) (n b : Nat) : Nat :=
  if b.testBit 15 then 256 * k.apoi.toNat + k.aov.toNat else umod 64 (k.accAt n (b % 128) (b / 256 % 128))

theorem accrdOne_of_clean {k : Core} {n b : Nat} (h : b.testBit 15 = false → k.apoi.getLsbD n = false) (d : XReg) (c : Site)
    (lane : Nat) (t : Thread) : accrdOne k d n c b lane t = (t.wxs (put64 d (accrdVal k n b)), .next) := by
  simp only [accrdOne, accrdVal, bits_15_15_eq_one_iff]
  cases hb : b.testBit 15 with
  | false => simp [h hb, bits]
  | true => simp

/-- A read of an accumulator without an error changes nothing. -/
theorem readAcc_of_clean {k : Core} {n : Nat} (h : k.oneAcc.getLsbD n = false) : k.readAcc n = k := by
  simp [Core.readAcc, h]

section
variable {s : State} {c : Site} {fr : Frag} {n : Nat} {rd : Env → Nat}

/-- The state in which ACCRD delivers: a read of an element has corrected the accumulator (04_registers R82). -/
def State.accrdRead (s : State) (c : Site) (fr : Frag) (n : Nat) (rd : Env → Nat) : State :=
  if fr.any fun e => bits (rd e) 15 15 = 0 then s.modCore (coreKey c.pkg c.core) fun k => k.readAcc n else s

theorem accrdRead_frame : s.accrdRead c fr n rd = { s with cores := (s.accrdRead c fr n rd).cores } := by
  unfold State.accrdRead
  split <;> rfl

theorem accrdRead_core (h : ∀ e ∈ fr, (rd e).testBit 15 = false → (s.core (coreKey c.pkg c.core)).oneAcc.getLsbD n = false) (k : Nat) :
    (s.accrdRead c fr n rd).core k = s.core k := by
  unfold State.accrdRead
  split
  · next hany =>
    obtain ⟨e, he, hb⟩ := List.any_eq_true.mp hany
    rw [State.modCore_core, readAcc_of_clean (h e he ((bits_15_15_eq_zero_iff _).mp (of_decide_eq_true hb)))]
    split
    · next hk => rw [hk]
    · rfl
  · rfl

end

theorem accrdBody_of_clean {d : XReg} {n : Nat} {b : Opnd} {sm : Option SMod} {s : State} {c : Site} {fr : Frag}
    (hstat : ∀ e ∈ fr, (readB .w32 fr e sm b).testBit 15 = true → (s.core (coreKey c.pkg c.core)).pq = [])
    (helem : ∀ e ∈ fr, (readB .w32 fr e sm b).testBit 15 = false →
      (∀ o ∈ (s.core (coreKey c.pkg c.core)).pq, o.writesAcc n = false) ∧ (s.core (coreKey c.pkg c.core)).apoi.getLsbD n = false) :
    accrdBody d n b sm s c fr fr =
      .done (fr.foldl (fun s' e => s'.modThr (thrKey c.wg e.tid) fun t =>
          t.wxs (put64 d (accrdVal (s.core (coreKey c.pkg c.core)) n (readB .w32 fr e sm b))))
        (s.accrdRead c fr n fun e => readB .w32 fr e sm b))
        (fr.map fun e => (e.tid, .next)) := by
  have hidle : (fr.any fun e => if bits (readB .w32 fr e sm b) 15 15 = 1 then !(s.core (coreKey c.pkg c.core)).pq.isEmpty
      else (s.core (coreKey c.pkg c.core)).pq.any fun o => o.writesAcc n) = false := by
    rw [List.any_eq_false]
    intro e he
    simp only [bits_15_15_eq_one_iff]
    cases hb : (readB .w32 fr e sm b).testBit 15 with
    | false => simpa using (helem e he hb).1
    | true => simp [hstat e he hb]
  have hone (e : Env) (he : e ∈ fr) := accrdOne_of_clean (d := d) (c := c) (lane := e.lane) (fun hb => (helem e he hb).2)
  simp only [accrdBody, hidle, Bool.false_eq_true, if_false]
  congr 1
  · refine List.foldl_ext _ _ _ fun s' e he => ?_
    simp only [hone e he]
  · refine List.map_congr_left fun e he => ?_
    rw [hone e he]

/-- A word whose body changes no core that an accessor sees has changed its threads alone. -/
theorem Leaves.of_sameCores {s v u : State} {c : Site} {g : Guard} {act : Env → Thread → Thread}
    (hv : v = { s with cores := v.cores }) (hcore : ∀ k, v.core k = s.core k) (h : Leaves s v c g act u) : OnlyThreads s c g act u := by
  have hunits : v = { s with cores := v.cores, wgs := v.wgs, nextId := v.nextId } := by
    rw [hv]
  obtain ⟨hthr, hkeep, hcores, hall⟩ := h.of_units hunits
  refine ⟨hthr, hkeep, fun k => ?_, ?_⟩
  · have hk := hcores k
    rw [hcore] at hk
    exact hk
  · rw [hv] at hall
    exact hall

/-! #### Waiting for the plane queue (R158) -/

theorem exec_mmawait_eq_runWord (mask : BitVec 8) (g : Guard) (s : State) : exec (.mmawait mask g) s =
    runWord (.mmawait mask g) g (rdPlain (.mmawait mask g)) planeOk (mmawaitBody mask) s := rfl

/-! #### Loading a codebook (21_tables R327) -/

theorem exec_cbload_eq_runWord (m : MAddr) (s : State) : exec (.cbload m) s =
    runWord (.cbload m) m.g (rdPlain (.cbload m)) planeOk (cbloadBody m) s := rfl

theorem sameAlloc_self (a : W64) : sameAlloc a a = true := by
  simp [sameAlloc]

/-- An element that is aligned, of the allocation of the first, and translated adds its place. -/
theorem findAll_cons_ok {s : State} {wk tid : Nat} {first : W64} {e : Elem} {p : Place} (halign : e.addr.toNat % e.size = 0)
    (hsame : sameAlloc first e.addr = true) (hplace : s.resolve wk tid e.addr e.size e.kind.want = (.ok p, s)) (r : List Elem) (f : Found) :
    s.findAll wk tid first (e :: r) f = s.findAll wk tid first r { f with ok := f.ok ++ [(e, p)] } := by
  rw [State.findAll]
  simp only [halign, hsame, hplace, ne_eq, not_true_eq_false, Bool.not_true, Bool.false_eq_true, if_false]

section
variable {m : MAddr} {s : State} {c : Site} {e : Env} {p q : Place}

/-- Both granules of a codebook are found. -/
theorem findAll_cbElems (halign : (baseOff e m 512).toNat % 512 = 0) (hsame : sameAlloc (baseOff e m 512) (baseOff e m 512 + 256) = true)
    (hp : s.resolve c.wg e.tid (baseOff e m 512) 256 { r := true } = (.ok p, s))
    (hq : s.resolve c.wg e.tid (baseOff e m 512 + 256) 256 { r := true } = (.ok q, s)) :
    s.findAll c.wg e.tid (baseOff e m 512) (cbElems m e) {} =
      ({ ok := (cbElems m e).zip [p, q] }, s) := by
  have hhi : (baseOff e m 512 + 256).toNat % 256 = 0 := by
    rw [BitVec.toNat_add]
    have h256 : (256 : W64).toNat = 256 := rfl
    omega
  have hlo : (baseOff e m 512).toNat % 256 = 0 := by omega
  rw [cbElems, findAll_cons_ok (e := { kind := .load, addr := baseOff e m 512, size := 256 }) hlo (sameAlloc_self _) hp,
    findAll_cons_ok (e := { kind := .load, addr := baseOff e m 512 + 256, size := 256 }) hhi hsame hq]
  rfl

variable (m s c e p q)

/-- The operation that CBLOAD queues, of the granules at `p` and `q`. -/
def State.cbOp : PlaneOp :=
  { id := s.nextId, kind := .cbload, thr := thrKey c.wg e.tid, wg := c.wg, cyc := s.clockOf c.pkg, pc := c.pc, addr := baseOff e m 512,
    locs := [(p.seen (c.core / 160), p.unc), (q.seen (c.core / 160), q.unc)] }

/-- CBLOAD's state before its operation is queued: a workgroup that loads what a re-execution cannot repeat is no longer eligible. -/
def State.cbSpoiled : State :=
  if ((cbElems m e).zip [p, q]).any fun x => s.spoils c.wg x.1 x.2 then s.spoil c.wg else s

/-- The state with CBLOAD's operation queued and its thread waiting for the bytes. -/
def State.cbQueueing : State :=
  ((s.cbSpoiled m c e p q).queueing (coreKey c.pkg c.core) (s.cbOp m c e p q) none).modThr (thrKey c.wg e.tid) fun t =>
    { t with hold := .cb s.nextId }


theorem cbSpoiled_frame : s.cbSpoiled m c e p q = { s with wgs := (s.cbSpoiled m c e p q).wgs } := by
  unfold State.cbSpoiled
  split <;> rfl

theorem cbSpoiled_wg (k : Nat) : (s.cbSpoiled m c e p q).wg k =
    if k = c.wg then { s.wg k with inelig := ((s.cbSpoiled m c e p q).wg k).inelig } else s.wg k := by
  unfold State.cbSpoiled
  split
  · rw [State.spoil, State.modWg_wg]
    by_cases hk : k = c.wg
    · subst hk
      simp
    · simp [hk, Ne.symm hk]
  · simp

variable {m s c e p q}

theorem cbloadBody_of_found (fr rest : Frag) (halign : (baseOff e m 512).toNat % 512 = 0)
    (hfound : s.findAll c.wg e.tid (baseOff e m 512) (cbElems m e) {} = ({ ok := (cbElems m e).zip [p, q] }, s))
    (hpv : p.void = false) (hqv : q.void = false) (hroom : (s.core (coreKey c.pkg c.core)).pq.length < 16) :
    cbloadBody m s c fr (e :: rest) = .done (s.cbQueueing m c e p q) ((e :: rest).map fun e => (e.tid, .next)) := by
  have hfree : s.pqFree (coreKey c.pkg c.core) = true := decide_eq_true hroom
  have hback : ((cbElems m e).zip [p, q]).find? (fun x => x.2.void) = none := by simp [cbElems, hpv, hqv]
  have hspoils : s.fresh.2.spoils = s.spoils := rfl
  simp only [cbloadBody, halign, hfound, hback, hfree, hspoils, ne_eq, not_true_eq_false, Bool.not_true, Bool.false_eq_true, if_false,
    State.cbQueueing, State.cbSpoiled]
  split <;> rfl

variable (m s c e p q)

theorem cbQueueing_frame : s.cbQueueing m c e p q =
    { s with
      threads := (s.cbQueueing m c e p q).threads, cores := (s.cbQueueing m c e p q).cores,
      wgs := (s.cbSpoiled m c e p q).wgs, nextId := s.nextId + 1 } := by
  rw [State.cbQueueing, cbSpoiled_frame]
  rfl

theorem cbQueueing_thr (k : Nat) : (s.cbQueueing m c e p q).thr k =
    if k = thrKey c.wg e.tid then { s.thr k with hold := .cb s.nextId } else s.thr k := by
  rw [State.cbQueueing, cbSpoiled_frame, State.modThr_thr]
  by_cases hk : k = thrKey c.wg e.tid
  · subst hk
    simp only [if_true]
    rfl
  · simp only [hk, Ne.symm hk, if_false]
    rfl

variable {m s c e p q} in
/-- Of the threads, the performing one waits besides going on. -/
theorem ThreadsDo.of_cbQueueing {g : Guard} {u : State} (he : e ∈ s.frag c g)
    (h : ThreadsDo s (s.cbQueueing m c e p q) c g (fun _ t => t.goto c.nextPc) u) :
    ThreadsDo s s c g (fun f t => if f.tid = e.tid then { (t.goto c.nextPc) with hold := .cb s.nextId } else t.goto c.nextPc) u := by
  intro i hi
  have hid : (s.env c.wg i).tid = i := rfl
  rw [h i hi, cbQueueing_thr]
  by_cases hie : i = e.tid
  · subst hie
    obtain ⟨-, henv, hguard⟩ := env_of_frag he
    rw [henv] at hguard
    simp only [hguard, hid, if_true]
    rfl
  · have hne : thrKey c.wg i ≠ thrKey c.wg e.tid := fun hk => hie (thrKey_inj hk)
    simp only [hid, hie, hne, if_false]

theorem cbQueueing_core (k : Nat) : (s.cbQueueing m c e p q).core k =
    if k = coreKey c.pkg c.core then { s.core k with pq := enqueue (s.core k).pq (s.cbOp m c e p q) } else s.core k := by
  rw [State.cbQueueing, State.modThr_core, queueing_core, cbSpoiled_frame]
  simp only [Option.isSome_none, Bool.false_eq_true, false_and, if_false]
  rfl

end

/-- Settles O24: each word's body, told in one equation for the case stated, gives what the word leaves. -/
theorem planeWordsAct : Obligations.PlaneWordsAct := by
  refine ⟨fun s c g hplane => ⟨?tdesc, ?accrd, ?mmawait⟩, ?cbload⟩
  case tdesc =>
    intro slot a e rest h hfr v hv
    obtain ⟨u, hu, hthr, hkeep, hcores, hall⟩ := goesOn_of (exec_tdesc_eq_runWord slot a g s) h hplane
      (by rw [hfr]; exact tdescBody_of_ok _ rest hv)
    refine ⟨u, hu, hthr, hkeep, fun k => (hcores.of_modCore k).trans ?_, hall⟩
    split <;> rfl
  case accrd =>
    intro d acc b sm h k rd hstat helem
    obtain ⟨u, hu, hl⟩ := leaves_of (act := fun e t => (t.wxs (put64 d (accrdVal k acc.toNat (rd e)))).goto c.nextPc)
      (exec_accrd_eq_runWord d acc b sm g s) h hplane (fun e t => t.wxs (put64 d (accrdVal k acc.toNat (rd e)))) (fun _ => .next)
      (accrdBody_of_clean hstat fun e he hb => ⟨(helem e he hb).1, (helem e he hb).2.1⟩) (fun _ _ => rfl) fun _ _ => rfl
    exact ⟨u, hu, hl.of_sameCores (accrdRead_frame ..) (accrdRead_core fun e he hb => (helem e he hb).2.2)⟩
  case mmawait =>
    intro mask h ids
    exact leaves_of (exec_mmawait_eq_runWord mask g s) h hplane (fun _ t => if ids.isEmpty then t else { t with hold := .plane ids })
      (fun _ => .next) rfl (fun _ _ => rfl) fun _ _ => by
        cases ids <;> rfl
  case cbload =>
    intro s c m e rest p q h hplane hfr a halign hsame hp hq hpv hqv hroom
    obtain ⟨u, hu, hthr, hkeep, hcores, hall⟩ := goesOn_of (exec_cbload_eq_runWord m s) h hplane (by
      rw [hfr]
      exact cbloadBody_of_found _ rest halign (findAll_cbElems halign hsame hp hq) hpv hqv hroom)
    have he : e ∈ s.frag c m.g := by rw [hfr]; exact List.mem_cons_self
    have hwgs : u.wgs = (s.cbSpoiled m c e p q).wgs := by rw [hall, cbQueueing_frame]
    have hwg (k : Nat) : u.wg k = (s.cbSpoiled m c e p q).wg k := congrArg (tget ({} : Wg) · k) hwgs
    have hown : (u.core (coreKey c.pkg c.core)).pq = enqueue (s.core (coreKey c.pkg c.core)).pq (s.cbOp m c e p q) := by
      rw [hcores, if_pos rfl, cbQueueing_core, if_pos rfl]
    refine ⟨u, queueAhead (s.core (coreKey c.pkg c.core)).pq (s.cbOp m c e p q),
      queueBehind (s.core (coreKey c.pkg c.core)).pq (s.cbOp m c e p q),
      s.cbOp m c e p q, hu, .of_cbQueueing he hthr, fun k hk => ?_, (queueAhead_append_queueBehind _ _).symm,
      fun x hx => role_cyc_of_mem_queueBehind hx, hown.trans (enqueue_of_role_ne _ _ (by simp [State.cbOp])), rfl,
      fun k => ?_, fun k => ?_, ?_⟩
    · rw [hkeep k hk, cbQueueing_thr, if_neg (hk _ (env_of_frag he).1)]
    · rw [hcores, cbQueueing_core]
      split <;> rfl
    · rw [hwg]
      exact cbSpoiled_wg m s c e p q k
    · rw [hall, cbQueueing_frame]

end Sys2Proof.Machine

/-! ### Retirement of the plane queue's head (08_planes R146 to R155) -/

namespace Sys2Proof.Machine

/-! #### Ends of waits for an operation (R158) -/

/-- What is left of a wait when operation `id` has retired. -/
def Hold.without (id : Nat) : Hold → Hold
  | .plane ids => if (ids.filter fun i => i != id) = [] then .none else .plane (ids.filter fun i => i != id)
  | h => h

theorem Hold.without_without (id : Nat) (h : Hold) : (h.without id).without id = h.without id := by
  cases h with
  | plane ids =>
    have hagain : (ids.filter fun i => i != id).filter (fun i => i != id) = ids.filter fun i => i != id := by
      simp [List.filter_filter]
    by_cases hl : (ids.filter fun i => i != id) = []
    · simp only [Hold.without, hl, if_true]
    · simp only [Hold.without, hl, if_false, hagain]
  | _ => rfl

theorem Hold.without_of_ne_plane {id : Nat} {h : Hold} (hne : ∀ ids, h ≠ .plane ids) : h.without id = h := by
  cases h with
  | plane ids => exact absurd rfl (hne ids)
  | _ => rfl

/-- From `s` to `u`, only waits for operation `id` have ended, here or there. -/
structure Woken (id : Nat) (s u : State) : Prop where
  frame : u = { s with threads := u.threads }
  thr : ∀ k, u.thr k = { s.thr k with hold := (u.thr k).hold, since := (u.thr k).since }
  hold : ∀ k, (u.thr k).hold = (s.thr k).hold ∨ (u.thr k).hold = (s.thr k).hold.without id

section
variable {id : Nat} {s u v : State}

theorem Woken.refl : Woken id s s := ⟨rfl, fun _ => rfl, fun _ => .inl rfl⟩

/-- A wait that has ended stays ended. -/
theorem Woken.hold_without {h : Hold} {k : Nat} (hw : Woken id s u) (hs : (s.thr k).hold = h.without id) :
    (u.thr k).hold = h.without id := by
  rcases hw.hold k with hu | hu
  · rw [hu, hs]
  · rw [hu, hs, Hold.without_without]

theorem Woken.trans (h : Woken id s u) (h' : Woken id u v) : Woken id s v where
  frame := by
    have hu := h.frame
    have hv := h'.frame
    rw [hu] at hv
    exact hv
  thr k := by
    have hv := h'.thr k
    rw [h.thr k] at hv
    exact hv
  hold k := by
    rcases h.hold k with hu | hu
    · rw [← hu]
      exact h'.hold k
    · exact .inr (h'.hold_without hu)

/-- Changing one thread's wait. -/
theorem Woken.modThr {k : Nat} {f : Thread → Thread}
    (hf : f (s.thr k) = { s.thr k with hold := (f (s.thr k)).hold, since := (f (s.thr k)).since })
    (hh : (f (s.thr k)).hold = (s.thr k).hold.without id) : Woken id s (s.modThr k f) where
  frame := rfl
  thr j := by
    rw [State.modThr_thr]
    by_cases hk : k = j
    · subst hk
      simpa using hf
    · simp [hk]
  hold j := by
    rw [State.modThr_thr]
    by_cases hk : k = j
    · subst hk
      exact .inr (by simpa using hh)
    · simp [hk]

section
variable {α : Type} {f : State → α → State}

theorem Woken.foldl (hf : ∀ s a, Woken id s (f s a)) (l : List α) : Woken id s (l.foldl f s) := by
  induction l generalizing s with
  | nil => exact .refl
  | cons a r ih => exact (hf s a).trans ih

/-- A walk that ends the wait of thread `k` at one of its steps. -/
theorem hold_foldl_of_mem {l : List α} {a : α} {k : Nat} (hf : ∀ s a, Woken id s (f s a)) (ha : a ∈ l)
    (hk : ∀ t, Woken id s t → ((f t a).thr k).hold = (t.thr k).hold.without id) :
    ((l.foldl f s).thr k).hold = (s.thr k).hold.without id := by
  induction l generalizing s with
  | nil => cases ha
  | cons b r ih =>
    rw [List.foldl_cons]
    rcases List.mem_cons.mp ha with rfl | har
    · exact (Woken.foldl hf r).hold_without (hk s .refl)
    · rw [ih har fun t ht => hk t ((hf s b).trans ht)]
      rcases (hf s b).hold k with h | h
      · rw [h]
      · rw [h, Hold.without_without]

end

end

/-- Thread `i` of a workgroup stops waiting for operation `id`, if it does. -/
def State.wakeOne (id wk : Nat) (s : State) (i : Nat) : State :=
  match (s.thr (thrKey wk i)).hold with
  | .plane ids =>
    let l := ids.filter (· != id)
    if l.isEmpty then s.endHold wk i else s.modThr (thrKey wk i) fun t => { t with hold := .plane l }
  | _ => s

theorem wakePlane_eq (s : State) (ck id : Nat) :
    s.wakePlane ck id = (s.wgsOn ck).foldl (fun s wk => (s.tidsOf wk).foldl (State.wakeOne id wk) s) s := rfl

theorem woken_wakeOne (id wk : Nat) (s : State) (i : Nat) : Woken id s (s.wakeOne id wk i) := by
  unfold State.wakeOne
  split
  · next ids h =>
    simp only [List.isEmpty_iff]
    split
    · next hl => exact .modThr rfl (by simp [h, Hold.without, hl])
    · next hl => exact .modThr rfl (by simp [h, Hold.without, hl])
  · exact .refl

theorem hold_wakeOne (id wk : Nat) (s : State) (i : Nat) :
    ((s.wakeOne id wk i).thr (thrKey wk i)).hold = (s.thr (thrKey wk i)).hold.without id := by
  unfold State.wakeOne
  split
  · next ids h =>
    simp only [List.isEmpty_iff]
    split
    · next hl => simp [State.endHold, State.wake, h, Hold.without, hl]
    · next hl => simp [h, Hold.without, hl]
  · next hne => exact (Hold.without_of_ne_plane fun ids h => hne ids h).symm

theorem woken_wakePlane (s : State) (ck id : Nat) : Woken id s (s.wakePlane ck id) :=
  Woken.foldl (fun s wk => Woken.foldl (woken_wakeOne id wk) (s.tidsOf wk)) (s.wgsOn ck)

theorem hold_wakePlane {s : State} {ck wk i : Nat} (id : Nat) (hwk : wk ∈ s.wgsOn ck) (hi : i < (s.wg wk).size) :
    ((s.wakePlane ck id).thr (thrKey wk i)).hold = (s.thr (thrKey wk i)).hold.without id := by
  refine hold_foldl_of_mem (fun s wk => Woken.foldl (woken_wakeOne id wk) (s.tidsOf wk)) hwk fun t ht => ?_
  have hsize : (t.wg wk).size = (s.wg wk).size := by rw [ht.frame]; rfl
  exact hold_foldl_of_mem (woken_wakeOne id wk) (List.mem_range.mpr (hsize ▸ hi)) fun t _ => hold_wakeOne id wk t i

theorem thrKey_div_mod (k : Nat) : thrKey (k / 2048) (k % 2048) = k := Nat.div_add_mod k 2048

/-- What the threads are after an operation's wake, told from a state whose threads differ at most in the flags of the performing one. -/
theorem planeWakes_wakePlane {s v : State} {ck : Nat} {o : PlaneOp} (hwgs : v.wgs = s.wgs)
    (hthr : ∀ k, v.thr k = { s.thr k with flags := (v.thr k).flags }) (hflags : ∀ k, k ≠ o.thr → (v.thr k).flags = (s.thr k).flags) :
    PlaneWakes s ck o (v.wakePlane ck o.id) := by
  intro k t
  have hw := woken_wakePlane v ck o.id
  have hhold : (v.thr k).hold = t.hold := (congrArg Thread.hold (hthr k)).trans rfl
  have hfl : ((v.wakePlane ck o.id).thr k).flags = (v.thr k).flags := (congrArg Thread.flags (hw.thr k)).trans rfl
  refine ⟨?_, fun hk => hfl.trans (hflags k hk), fun hne => ?_, fun ids hids hon hsize => ?_⟩
  · have hu := hw.thr k
    rw [hthr k, ← hfl] at hu
    exact hu
  · rcases hw.hold k with h | h
    · rw [h, hhold]
    · rw [h, hhold, Hold.without_of_ne_plane hne]
  · have hon' : k / 2048 ∈ v.wgsOn ck := by rw [State.wgsOn, hwgs]; exact hon
    have hsize' : k % 2048 < (v.wg (k / 2048)).size := by rw [State.wg, hwgs]; exact hsize
    have hk := hold_wakePlane o.id hon' hsize'
    rw [thrKey_div_mod] at hk
    rw [hk, hhold, hids, Hold.without]

/-! #### The head of a queue (R146) -/

/-- The state once operation `o` has left the head of the queue and those that waited for it go on. -/
def State.retireHead (s : State) (ck : Nat) (o : PlaneOp) : State :=
  (s.modCore ck fun k => { k with pq := k.pq.drop 1 }).wakePlane ck o.id

theorem exec_planeOpRetire_of_retiring {s : State} {p core : Nat} {o : PlaneOp} {rest : List PlaneOp} (h : s.Retiring p core o rest)
    (hdata : o.kind = .cbload → o.data.isNone = false) :
    exec (.planeOpRetire p core) s = .next ((s.runOp o none).retireHead (coreKey p core) o) := by
  have hready : (o.kind == .cbload && o.data.isNone) = false := by
    by_cases hk : o.kind = .cbload
    · simp [hdata hk]
    · simp [hk]
  show execPlaneOpRetire p core s = _
  simp only [execPlaneOpRetire, h.head, h.unpaused, h.goes, h.plain, hready, State.loopPlaneDone, h.thread, Bool.not_true, Bool.or_self,
    Bool.false_eq_true, if_false, if_true, decide_false, OfNat.zero_ne_ofNat]
  rfl

section
variable (s : State) (ck : Nat) (o : PlaneOp)

theorem retireHead_frame : s.retireHead ck o =
    { s with threads := (s.retireHead ck o).threads, cores := (s.retireHead ck o).cores } := by
  have h := (woken_wakePlane (s.modCore ck fun k => { k with pq := k.pq.drop 1 }) ck o.id).frame
  rw [State.retireHead, h]
  rfl

theorem retireHead_core (k : Nat) : (s.retireHead ck o).core k =
    if k = ck then { s.core k with pq := (s.core k).pq.drop 1 } else s.core k := by
  have hcores : (s.retireHead ck o).cores = (s.modCore ck fun k => { k with pq := k.pq.drop 1 }).cores :=
    (congrArg State.cores (woken_wakePlane _ ck o.id).frame).trans rfl
  refine (congrArg (tget ({} : Core) · k) hcores).trans ((State.modCore_core s ck k _).trans ?_)
  by_cases hk : k = ck
  · subst hk
    simp
  · simp [hk, Ne.symm hk]

theorem retireHead_flags (k : Nat) : ((s.retireHead ck o).thr k).flags = (s.thr k).flags :=
  (congrArg Thread.flags ((woken_wakePlane (s.modCore ck fun k => { k with pq := k.pq.drop 1 }) ck o.id).thr k)).trans rfl

variable {s ck o} in
theorem planeWakes_retireHead {v : State} (hwgs : v.wgs = s.wgs) (hthr : ∀ k, v.thr k = { s.thr k with flags := (v.thr k).flags })
    (hflags : ∀ k, k ≠ o.thr → (v.thr k).flags = (s.thr k).flags) : PlaneWakes s ck o (v.retireHead ck o) :=
  planeWakes_wakePlane (v := v.modCore ck fun k => { k with pq := k.pq.drop 1 }) hwgs hthr hflags

end

/-! #### Tables without some of their keys, or put together from parts -/

section
variable {α : Type}

theorem tfind_append (l m : Tbl α) (k : Nat) : tfind (l ++ m) k = (tfind l k).or (tfind m k) := by
  induction l with
  | nil => rfl
  | cons p r ih =>
    rw [List.cons_append, tfind, tfind, ih]
    split <;> rfl

theorem tfind_filter (m : Tbl α) (g : Nat → Bool) (k : Nat) :
    tfind (m.filter fun p => g p.1) k = if g k then tfind m k else none := by
  induction m with
  | nil => simp [tfind]
  | cons p r ih =>
    rw [List.filter_cons]
    by_cases hk : p.1 = k
    · subst hk
      by_cases hg : g p.1 = true
      · simp [hg, tfind]
      · simpa [hg] using ih
    · by_cases hg : g p.1 = true
      · simpa [hg, tfind, hk] using ih
      · simpa [hg, tfind, hk] using ih

theorem tfind_eq_none {m : Tbl α} {k : Nat} (h : ∀ p ∈ m, p.1 ≠ k) : tfind m k = none := by
  induction m with
  | nil => rfl
  | cons p r ih =>
    rw [tfind, if_neg (h p List.mem_cons_self), ih fun q hq => h q (List.mem_cons_of_mem p hq)]

theorem tfind_eq_some {m : Tbl α} {k : Nat} {v : α} (hmem : (k, v) ∈ m) (h : ∀ p ∈ m, p.1 = k → p.2 = v) : tfind m k = some v := by
  induction m with
  | nil => cases hmem
  | cons p r ih =>
    rw [tfind]
    by_cases hk : p.1 = k
    · rw [if_pos hk, h p List.mem_cons_self hk]
    · rw [if_neg hk]
      refine ih ((List.mem_cons.mp hmem).resolve_left fun he => hk ?_) fun q hq => h q (List.mem_cons_of_mem p hq)
      rw [← he]

end

/-! #### Elements of an accumulator (R140) -/

theorem accKey_div {n r c : Nat} (hr : r < 128) (hc : c < 128) : accKey n r c / 16384 = n := by
  unfold accKey
  omega

theorem accKey_inj {n r c r' c' : Nat} (hc : c < 128) (hc' : c' < 128)
    (h : accKey n r c = accKey n r' c') : r = r' ∧ c = c' := by
  unfold accKey at h
  omega

/-- The elements of accumulator `n` that `f` lists. -/
def accList (n : Nat) (f : Nat → Nat → Int) : Tbl Int :=
  (List.range 128).flatMap fun r => (List.range 128).filterMap fun c => if f r c = 0 then none else some (accKey n r c, f r c)

theorem accSet_eq (m : Tbl Int) (n : Nat) (f : Nat → Nat → Int) : accSet m n f =
    m.filter (fun p => decide (p.1 / 16384 < n)) ++ accList n f ++ m.filter (fun p => decide (n < p.1 / 16384)) := rfl

theorem mem_accList {n : Nat} {f : Nat → Nat → Int} {p : Nat × Int} :
    p ∈ accList n f ↔ ∃ r < 128, ∃ c < 128, f r c ≠ 0 ∧ p = (accKey n r c, f r c) := by
  simp only [accList, List.mem_flatMap, List.mem_filterMap, List.mem_range, ite_eq_iff, reduceCtorEq, and_false, false_or,
    Option.some.injEq, ne_eq, eq_comm (a := p)]

theorem tget_accList {n r c : Nat} (f : Nat → Nat → Int) (hr : r < 128) (hc : c < 128) :
    (tfind (accList n f) (accKey n r c)).getD 0 = f r c := by
  have hval : ∀ p ∈ accList n f, p.1 = accKey n r c → p.2 = f r c ∧ f r c ≠ 0 := by
    intro p hp hk
    obtain ⟨r', hr', c', hc', hne, rfl⟩ := mem_accList.mp hp
    obtain ⟨rfl, rfl⟩ := accKey_inj hc' hc hk
    exact ⟨rfl, hne⟩
  by_cases h0 : f r c = 0
  · rw [tfind_eq_none fun p hp hk => (hval p hp hk).2 h0, h0]
    rfl
  · rw [tfind_eq_some (mem_accList.mpr ⟨r, hr, c, hc, h0, rfl⟩) fun p hp hk => (hval p hp hk).1]
    rfl

theorem tfind_accList_ne {n n' r c : Nat} (f : Nat → Nat → Int) (hn : n' ≠ n) (hr : r < 128) (hc : c < 128) :
    tfind (accList n f) (accKey n' r c) = none := by
  refine tfind_eq_none fun p hp hk => hn ?_
  obtain ⟨r', hr', c', hc', -, rfl⟩ := mem_accList.mp hp
  rw [← accKey_div hr hc (n := n'), ← hk, accKey_div hr' hc']

/-- Replacing accumulator `n` gives its elements, and leaves the others. -/
theorem tget_accSet (m : Tbl Int) (n : Nat) (f : Nat → Nat → Int) {n' r c : Nat} (hr : r < 128) (hc : c < 128) :
    tget 0 (accSet m n f) (accKey n' r c) = if n' = n then f r c else tget 0 m (accKey n' r c) := by
  rw [accSet_eq, tget, tfind_append, tfind_append, tfind_filter m fun k => decide (k / 16384 < n),
    tfind_filter m fun k => decide (n < k / 16384), accKey_div hr hc]
  by_cases hn : n' = n
  · subst hn
    simp [tget_accList f hr hc]
  · rw [tfind_accList_ne f hn hr hc, if_neg hn]
    rcases Nat.lt_or_gt_of_ne hn with h | h
    · simp [h, Nat.not_lt.mpr (Nat.le_of_lt h), tget]
    · simp [h, Nat.not_lt.mpr (Nat.le_of_lt h), tget]

/-! #### Products (R153, R154, 02_numbers R44) -/

theorem dot_eq_sum (a b : List Int) (hlen : a.length = b.length) :
    dot a b = ((List.range a.length).map fun k => a.getD k 0 * b.getD k 0).sum := by
  have hzip : (a.zip b).map (fun p => p.1 * p.2) = (List.range a.length).map fun k => a.getD k 0 * b.getD k 0 := by
    refine List.ext_getElem (by simp [hlen]) fun i hi _ => ?_
    have hia : i < a.length := by simpa [hlen] using hi
    simp [hia, hlen ▸ hia]
  rw [← hzip, List.sum_eq_foldl, List.foldl_map]
  rfl

@[simp] theorem planeRow_length (m : List Host.Cell) (l w t : Nat) : (planeRow m l w t).length = 128 := by
  simp [planeRow]

theorem planeRow_getD (m : List Host.Cell) (l w t : Nat) {k : Nat} (hk : k < 128) : (planeRow m l w t).getD k 0 = planeElem m l w t k := by
  simp [planeRow, hk]

@[simp] theorem decodeCb_length (cb : Tbl (BitVec 16)) (idx : Nat) : (decodeCb cb idx).length = 8 := by
  simp [decodeCb]

@[simp] theorem cbRow_length (m : List Host.Cell) (cb : Tbl (BitVec 16)) (l n : Nat) : (cbRow m cb l n).length = 128 := by
  simp [cbRow, List.length_flatMap]

/-- The sum that a step of rows `A` and columns `B` leaves in an element, before it saturates. -/
def Core.stepSum (k : Core) (n : Nat) (A B : Nat → List Int) (r c : Nat) : Int := k.accAt n r c + dot (A r) (B c)

section
variable (k : Core) (n : Nat) (A B : Nat → List Int)

theorem zipIdx_map_range {α : Type} (N : Nat) (f : Nat → α) : ((List.range N).map f).zipIdx = (List.range N).map fun i => (f i, i) := by
  refine List.ext_getElem (by simp) fun i _ _ => ?_
  simp

/-- The sums of a step, saturated. -/
def Core.stepSats : List (List (Int × Bool)) :=
  (List.range 128).map fun r => (List.range 128).map fun c => sat48 (k.stepSum n A B r c)

theorem mmaStep_eq : k.mmaStep n ((List.range 128).map A) ((List.range 128).map B) =
    { k with
      acc := accSet k.acc n fun r c => (((k.stepSats n A B).getD r []).getD c (0, false)).1
      aov := if (k.stepSats n A B).any fun l => l.any (·.2) then k.aov ||| 1#8 <<< n else k.aov } := by
  simp only [Core.mmaStep, zipIdx_map_range, List.map_map]
  rfl

theorem stepSats_any : ((k.stepSats n A B).any fun l => l.any (·.2)) = true ↔
    ∃ r < 128, ∃ c < 128, (sat48 (k.stepSum n A B r c)).2 = true := by
  simp [Core.stepSats]

theorem mmaStep_accAt {n' r c : Nat} (hr : r < 128) (hc : c < 128) :
    (k.mmaStep n ((List.range 128).map A) ((List.range 128).map B)).accAt n' r c =
      if n' = n then (sat48 (k.stepSum n A B r c)).1 else k.accAt n' r c := by
  rw [mmaStep_eq, Core.accAt, tget_accSet _ _ _ hr hc]
  simp [Core.stepSats, hr, hc, Core.accAt]

/-- A read of an accumulator corrects a single-bit error in it and counts it. -/
theorem readAcc_eq : k.readAcc n =
    { k with oneAcc := k.oneAcc &&& ~~~(1#8 <<< n), corrX := k.corrX + if k.oneAcc.getLsbD n then 1 else 0 } := by
  unfold Core.readAcc
  by_cases h : k.oneAcc.getLsbD n = true
  · simp only [h, if_true]
    rfl
  · have hkeep : k.oneAcc &&& ~~~(1#8 <<< n) = k.oneAcc := by
      refine BitVec.eq_of_getLsbD_eq fun i hi => ?_
      by_cases hin : i = n
      · subst hin
        simp [h]
      · simp
        omega
    simp [h, hkeep]

end

section
variable (s : State) (o : PlaneOp)

/-- Row `r` of A in the step that a product half is at. -/
def State.rowOf (r : Nat) : List Int := planeRow s.mem (s.tileAt o.wg o.ta o.step) (tdW o.ta) r

/-- Column `c` of B in the step that a product half is at: B and the codebook are the leader's. -/
def State.colOf (c : Nat) : List Int :=
  if o.kind == .mmac then cbRow s.mem (s.core (s.wg (o.thr / 2048)).ckey).cb (s.tileAt (o.thr / 2048) o.tb o.step) c
  else planeRow s.mem (s.tileAt (o.thr / 2048) o.tb o.step) (tdW o.tb) c

theorem rowOf_length (r : Nat) : (s.rowOf o r).length = 128 := planeRow_length ..

theorem colOf_length (c : Nat) : (s.colOf o c).length = 128 := by
  unfold State.colOf
  split <;> simp

theorem rowOf_getD (r : Nat) {k : Nat} (hk : k < 128) :
    (s.rowOf o r).getD k 0 = planeElem s.mem (s.tileAt o.wg o.ta o.step) (tdW o.ta) r k := planeRow_getD _ _ _ _ hk

theorem colOf_getD (c : Nat) {k : Nat} (hk : k < 128) : (s.colOf o c).getD k 0 =
    if o.kind = .mmac then (cbRow s.mem (s.core (s.wg (o.thr / 2048)).ckey).cb (s.tileAt (o.thr / 2048) o.tb o.step) c).getD k 0
    else planeElem s.mem (s.tileAt (o.thr / 2048) o.tb o.step) (tdW o.tb) c k := by
  unfold State.colOf
  by_cases h : o.kind = .mmac
  · simp [h]
  · simpa [h] using planeRow_getD s.mem (s.tileAt (o.thr / 2048) o.tb o.step) (tdW o.tb) c hk

/-- What the step that a product half is at makes of its core. -/
def State.stepOf (k : Core) : Core :=
  (k.readAcc o.acc).mmaStep o.acc ((List.range 128).map (s.rowOf o)) ((List.range 128).map (s.colOf o))

/-- The sum that the step makes for an element, before it saturates. -/
def State.sumOf (k : Core) (r c : Nat) : Int :=
  k.accAt o.acc r c + ((List.range 128).map fun i => (s.rowOf o r).getD i 0 * (s.colOf o c).getD i 0).sum

theorem stepSum_readAcc (k : Core) : (k.readAcc o.acc).stepSum o.acc (s.rowOf o) (s.colOf o) = s.sumOf o k := by
  funext r c
  have hacc : (k.readAcc o.acc).accAt o.acc r c = k.accAt o.acc r c := by
    rw [readAcc_eq]
    rfl
  rw [Core.stepSum, hacc, dot_eq_sum _ _ ((rowOf_length s o r).trans (colOf_length s o c).symm), rowOf_length]
  rfl

theorem stepOf_accAt (k : Core) {n r c : Nat} (hr : r < 128) (hc : c < 128) :
    (s.stepOf o k).accAt n r c = if n = o.acc then (sat48 (s.sumOf o k r c)).1 else k.accAt n r c := by
  rw [State.stepOf, mmaStep_accAt _ _ _ _ hr hc, stepSum_readAcc, readAcc_eq]
  rfl

theorem stepOf_frame (k : Core) : s.stepOf o k =
    { k with
      acc := (s.stepOf o k).acc, aov := (s.stepOf o k).aov, oneAcc := k.oneAcc &&& ~~~(1#8 <<< o.acc),
      corrX := k.corrX + if k.oneAcc.getLsbD o.acc then 1 else 0 } := by
  simp only [State.stepOf, mmaStep_eq, readAcc_eq]

theorem stepOf_aov_of_sat (k : Core) (h : ∃ r < 128, ∃ c < 128, (sat48 (s.sumOf o k r c)).2 = true) :
    (s.stepOf o k).aov = k.aov ||| 1#8 <<< o.acc := by
  rw [← stepSum_readAcc, ← stepSats_any] at h
  rw [State.stepOf, mmaStep_eq, readAcc_eq] at *
  simp only [h, if_true]

theorem stepOf_aov_of_exact (k : Core) (h : ∀ r < 128, ∀ c < 128, (sat48 (s.sumOf o k r c)).2 = false) : (s.stepOf o k).aov = k.aov := by
  have hno : ¬ ∃ r < 128, ∃ c < 128, (sat48 (s.sumOf o k r c)).2 = true := fun ⟨r, hr, c, hc, hs⟩ => by simp [h r hr c hc] at hs
  rw [← stepSum_readAcc, ← stepSats_any] at hno
  rw [State.stepOf, mmaStep_eq, readAcc_eq] at *
  simp only [hno, Bool.false_eq_true, if_false]

/-- The last step of a product that no store has raced with. -/
theorem runOp_of_last_step (hkind : o.kind = .mma ∨ o.kind = .mmac) (hlast : o.step + 1 = tdSteps o.ta) (hold : o.old = []) :
    s.runOp o none = (s.modCore (s.wg o.wg).ckey (s.stepOf o)).count (s.wg o.wg).ckey 4 (mmaCycles o 1) := by
  have hone : tdSteps o.ta - o.step = 1 := by omega
  have hrun : s.runOp o none = s.runProduct o none 1 := by
    rcases hkind with hk | hk <;> simp only [State.runOp, hk, hone]
  rw [hrun]
  simp only [State.runProduct, State.opMem, hold, readsAs]
  rfl

variable {s o} in
/-- A product retires with its last step. -/
theorem retires_last_step {p core : Nat} {rest : List PlaneOp} (h : s.Retiring p core o rest) (hkind : o.kind = .mma ∨ o.kind = .mmac)
    (hlast : o.step + 1 = tdSteps o.ta) : ∃ u, exec (.planeOpRetire p core) s = .next u ∧
      (∀ k, u.core k = if k = coreKey p core then { s.stepOf o (s.core k) with pq := rest, perf := (u.core k).perf } else s.core k) ∧
      PlaneWakes s (coreKey p core) o u ∧ u = { s with threads := u.threads, cores := u.cores } := by
  have hrun := runOp_of_last_step s o hkind hlast h.unraced
  have hframe : s.runOp o none = { s with cores := (s.runOp o none).cores } := by
    rw [hrun]
    rfl
  have hdata : o.kind = .cbload → o.data.isNone = false := fun hk => by rcases hkind with hk' | hk' <;> simp [hk] at hk'
  let u := (s.runOp o none).retireHead (coreKey p core) o
  refine ⟨u, exec_planeOpRetire_of_retiring h hdata, fun k => ?_, ?_, ?_⟩
  · simp only [u]
    rw [retireHead_core, hrun, h.here, State.count_core, State.modCore_core]
    by_cases hk : k = coreKey p core
    · subst hk
      simp only [if_true, State.modCore_self]
      rw [stepOf_frame, h.head]
      rfl
    · simp only [hk, Ne.symm hk, if_false, State.modCore_core]
  · exact planeWakes_retireHead (by rw [hframe]) (fun k => by rw [hframe]; rfl) (fun k _ => by rw [hframe]; rfl)
  · have hu : u = { s.runOp o none with threads := u.threads, cores := u.cores } := retireHead_frame ..
    rw [hframe] at hu
    exact hu

end

/-! #### Integers in planes of bits (R145) -/

/-- The number whose bits below `n` are those that `p` marks. -/
def bitSum (p : Nat → Prop) [DecidablePred p] (n : Nat) : Nat := (List.range n).foldl (fun v j => v + if p j then 2 ^ j else 0) 0

section
variable (p : Nat → Prop) [DecidablePred p] (n : Nat)

theorem bitSum_succ : bitSum p (n + 1) = bitSum p n + if p n then 2 ^ n else 0 := by
  rw [bitSum, List.range_succ, List.foldl_append]
  rfl

theorem bitSum_lt : bitSum p n < 2 ^ n := by
  induction n with
  | zero => exact Nat.one_pos
  | succ n ih =>
    rw [bitSum_succ]
    split <;> omega

theorem testBit_bitSum (i : Nat) : (bitSum p n).testBit i = (decide (i < n) && decide (p i)) := by
  induction n with
  | zero => simp [bitSum]
  | succ n ih =>
    have hlt := bitSum_lt p n
    rw [bitSum_succ]
    rcases Nat.lt_trichotomy i n with hi | rfl | hi
    · have hi' : i < n + 1 := by omega
      by_cases hp : p n
      · rw [if_pos hp, Nat.add_comm, Nat.testBit_two_pow_add_gt hi, ih]
        simp [hi, hi']
      · rw [if_neg hp, Nat.add_zero, ih]
        simp [hi, hi']
    · by_cases hp : p i
      · rw [if_pos hp, Nat.add_comm, Nat.testBit_two_pow_add_eq, ih]
        simp [hp]
      · rw [if_neg hp, Nat.add_zero, ih]
        simp [hp]
    · have hbound := bitSum_lt p (n + 1)
      rw [bitSum_succ] at hbound
      rw [Nat.testBit_lt_two_pow (hbound.trans_le (Nat.pow_le_pow_right (by decide) hi))]
      simp
      omega

end

section
variable {w : Nat}

theorem umod_lt (x : Int) : umod w x < 2 ^ w := by
  have hpos : (0 : Int) < (2 ^ w : Nat) := by exact_mod_cast Nat.two_pow_pos w
  have := Int.emod_lt_of_pos x hpos
  have := Int.emod_nonneg x hpos.ne'
  unfold umod
  omega

theorem testBit_umod {j : Nat} (hj : j < w) (x : Int) : (umod w x).testBit j = decide (x / (2 ^ j : Nat) % 2 ≠ 0) := by
  have hsplit : ((2 ^ w : Nat) : Int) = (2 ^ j : Nat) * (2 * (2 ^ (w - 1 - j) : Nat)) := by
    rw [← Nat.cast_ofNat (R := Int), ← Nat.cast_mul, ← Nat.cast_mul, ← Nat.pow_succ', ← Nat.pow_add]
    congr 2
    omega
  have hpos : ((2 ^ j : Nat) : Int) ≠ 0 := by exact_mod_cast (Nat.two_pow_pos j).ne'
  have hval : (umod w x : Int) = x % (2 ^ w : Nat) :=
    Int.toNat_of_nonneg (Int.emod_nonneg x (by exact_mod_cast (Nat.two_pow_pos w).ne'))
  have hbit : ((umod w x / 2 ^ j % 2 : Nat) : Int) = x / (2 ^ j : Nat) % 2 := by
    have hx : x / (2 ^ j : Nat) = x % (2 ^ w : Nat) / (2 ^ j : Nat) + 2 * ((2 ^ (w - 1 - j) : Nat) * (x / (2 ^ w : Nat))) := by
      conv_lhs => rw [← Int.emod_add_mul_ediv x (2 ^ w : Nat), hsplit, Int.mul_assoc, Int.add_mul_ediv_left _ _ hpos, ← hsplit]
      rw [Int.mul_assoc]
    rw [Int.natCast_mod, Int.natCast_div, hval, hx]
    omega
  rw [Nat.testBit_eq_decide_div_mod_eq]
  congr 1
  rw [← hbit]
  apply propext
  omega

/-- A value of `w` bits is read back as it is. -/
theorem sint_umod (hw : 0 < w) {x : Int} (hlo : -2 ^ (w - 1) ≤ x) (hhi : x < 2 ^ (w - 1)) : sint w (umod w x) = x := by
  obtain ⟨n, rfl⟩ : ∃ n, w = n + 1 := ⟨w - 1, by omega⟩
  have hlt := umod_lt (w := n + 1) x
  have hcast : ((2 ^ n : Nat) : Int) = 2 ^ n := by push_cast; rfl
  rw [Nat.add_sub_cancel, ← hcast] at hlo hhi
  have hsucc : 2 ^ (n + 1) = 2 * 2 ^ n := by rw [Nat.pow_succ, Nat.mul_comm]
  rw [sint, Nat.mod_eq_of_lt hlt]
  simp only [umod, Nat.add_sub_cancel, hsucc]
  generalize 2 ^ n = N at hlo hhi
  rcases Int.lt_or_le x 0 with hx | hx
  · have hmod : x % ((2 * N : Nat) : Int) = x + (2 * N : Nat) := by
      rw [← Int.add_emod_right, Int.emod_eq_of_lt] <;> omega
    rw [hmod]
    split <;> omega
  · have hmod : x % ((2 * N : Nat) : Int) = x := Int.emod_eq_of_lt hx (by omega)
    rw [hmod]
    split <;> omega

/-- Clamping to `w` bits, as the planes of a tile hold it. -/
theorem sint_satInt (hw : 0 < w) (x : Int) :
    sint w (satInt x w true).1 = max (-2 ^ (w - 1)) (min (2 ^ (w - 1) - 1) x) := by
  have hpos : (0 : Int) < 2 ^ (w - 1) := Int.pow_pos (by decide)
  have hmin : intMin w true = -2 ^ (w - 1) := by simp [intMin]
  have hmax : intMax w true = 2 ^ (w - 1) - 1 := by simp [intMax]
  unfold satInt
  rw [hmin, hmax]
  split
  · rw [sint_umod hw] <;> omega
  · split <;> (rw [sint_umod hw] <;> omega)

theorem satInt_flags (x : Int) : (satInt x w true).2 = if x < -2 ^ (w - 1) ∨ 2 ^ (w - 1) ≤ x then fSAT else 0 := by
  have hmin : intMin w true = -2 ^ (w - 1) := by simp [intMin]
  have hmax : intMax w true = 2 ^ (w - 1) - 1 := by simp [intMax]
  unfold satInt
  rw [hmin, hmax]
  split
  · next h => rw [if_pos (.inl h)]
  · next h =>
    split
    · next h' => rw [if_pos (.inr (by omega))]
    · next h' => rw [if_neg (by omega)]

theorem satInt_zero : satInt 0 w true = (0, 0) := by
  have hpos : (0 : Int) < (2 ^ (w - 1) : Nat) := by exact_mod_cast Nat.two_pow_pos _
  have hmin : ¬ (0 : Int) < intMin w true := by simp only [intMin, if_true]; omega
  have hmax : ¬ intMax w true < 0 := by simp only [intMax, if_true]; omega
  simp [satInt, hmin, hmax, umod]

end

/-! #### A tile's bytes (R145) -/

section
variable {α : Type} {n L : Nat} {g : Nat → List α}

theorem length_flatMap_range (hg : ∀ i < n, (g i).length = L) : ((List.range n).flatMap g).length = L * n := by
  have hconst : (List.range n).map (List.length ∘ g) = (List.range n).map fun _ => L :=
    List.map_congr_left fun i hi => hg i (List.mem_range.mp hi)
  rw [List.length_flatMap, ← Function.comp_def, hconst]
  simp [Nat.mul_comm]

/-- An element of pieces of one length laid one after the other. -/
theorem getD_flatMap_range (hg : ∀ i < n, (g i).length = L) {i x : Nat} (hi : i < n) (hx : x < L) (d : α) :
    ((List.range n).flatMap g).getD (L * i + x) d = (g i).getD x d := by
  induction n with
  | zero => cases hi
  | succ n ih =>
    have hg' : ∀ j < n, (g j).length = L := fun j hj => hg j (Nat.lt_succ_of_lt hj)
    have hlen := length_flatMap_range hg'
    rw [List.range_succ, List.flatMap_append, List.flatMap_singleton]
    rcases Nat.lt_succ_iff_lt_or_eq.mp hi with hin | rfl
    · have hlt : L * i + x < L * n := by
        calc L * i + x < L * (i + 1) := by rw [Nat.mul_succ]; omega
          _ ≤ L * n := Nat.mul_le_mul_left L hin
      rw [List.getD_append _ _ _ _ (hlen.symm ▸ hlt)]
      exact ih hg' hin
    · rw [List.getD_append_right _ _ _ _ (hlen.symm ▸ Nat.le_add_right _ _), hlen, Nat.add_sub_cancel_left]

end

@[simp] theorem planeBytes_length (row : List Int) (j : Nat) : (planeBytes row j).length = 16 := by
  simp [planeBytes]

theorem planeBytes_bit (row : List Int) (j : Nat) {b i : Nat} (hb : b < 16) (hi : i < 8) (d : Byte) :
    ((planeBytes row j).getD b d).getLsbD i = decide (row.getD (8 * b + i) 0 / (2 ^ j : Nat) % 2 ≠ 0) := by
  have hbyte : (planeBytes row j).getD b d =
      BitVec.ofNat 8 (bitSum (fun i => row.getD (8 * b + i) 0 / (2 ^ j : Nat) % 2 ≠ 0) 8) := by
    simp only [planeBytes, bitSum, ne_eq, ite_not, List.getD_eq_getElem?_getD, List.getElem?_map, List.getElem?_range hb,
      Option.map_some, Option.getD_some]
  rw [hbyte, BitVec.getLsbD_ofNat, testBit_bitSum]
  simp [hi]

section
variable (w : Nat) (R : Nat → List Int)

theorem planesOf_eq : planesOf w ((List.range 128).map R) =
    (List.range w).flatMap fun j => (List.range 128).flatMap fun t => planeBytes (R t) j := by
  simp only [planesOf, List.flatMap_map]

theorem planesOf_length : (planesOf w ((List.range 128).map R)).length = 2048 * w := by
  rw [planesOf_eq, length_flatMap_range fun j _ => length_flatMap_range fun t _ => planeBytes_length (R t) j]

theorem planesOf_getD {j t b : Nat} (hj : j < w) (ht : t < 128) (hb : b < 16) (d : Byte) :
    (planesOf w ((List.range 128).map R)).getD (2048 * j + (16 * t + b)) d = (planeBytes (R t) j).getD b d := by
  have hplane (j : Nat) : ∀ t < 128, (planeBytes (R t) j).length = 16 := fun t _ => planeBytes_length (R t) j
  rw [planesOf_eq, getD_flatMap_range (L := 2048) (fun j _ => length_flatMap_range (hplane j)) hj (by omega),
    getD_flatMap_range (hplane j) ht hb]

variable {m : List Host.Cell} (hm : Memory.wf m = true) (l : Nat)
include hm

theorem planeBit_writeBytes {j t k : Nat} (hj : j < w) (ht : t < 128) (hk : k < 128) :
    planeBit (writeBytes m l (planesOf w ((List.range 128).map R))) l j t k = decide ((R t).getD k 0 / (2 ^ j : Nat) % 2 ≠ 0) := by
  have haddr : l + 2048 * j + 16 * t + k / 8 = l + (2048 * j + (16 * t + k / 8)) := by omega
  rw [planeBit, haddr, readByte_writeBytes_in l _ _ hm (by rw [planesOf_length]; omega), planesOf_getD w R hj ht (by omega),
    planeBytes_bit _ _ (by omega) (Nat.mod_lt k (by decide)), Nat.div_add_mod]

/-- A tile that was written reads as its elements, as far as these have its width. -/
theorem planeElem_writeBytes (hw : 0 < w) {t k : Nat} (ht : t < 128) (hk : k < 128) (hlo : -2 ^ (w - 1) ≤ (R t).getD k 0)
    (hhi : (R t).getD k 0 < 2 ^ (w - 1)) :
    planeElem (writeBytes m l (planesOf w ((List.range 128).map R))) l w t k = (R t).getD k 0 := by
  have hbits : bitSum (fun j => planeBit (writeBytes m l (planesOf w ((List.range 128).map R))) l j t k = true) w =
      umod w ((R t).getD k 0) := by
    refine Nat.eq_of_testBit_eq fun j => ?_
    rw [testBit_bitSum]
    by_cases hj : j < w
    · rw [testBit_umod hj, planeBit_writeBytes w R hm l hj ht hk]
      simp [hj]
    · rw [Nat.testBit_lt_two_pow ((umod_lt _).trans_le (Nat.pow_le_pow_right (by decide) (Nat.not_lt.mp hj)))]
      simp [hj]
  rw [← sint_umod hw hlo hhi, ← hbits]
  rfl

end

/-! #### Conversion into planes (R151) -/

section
variable (m : List Host.Cell) (l : Nat) (dst src : W64)

/-- The element of the source at position (t, k) of the tile, zero where the source declares none. -/
def srcInt (t k : Nat) : Int :=
  match srcPos (tdRole dst) (tdRows src) (tdCols src) t k with
  | none => 0
  | some (r, c) => sint (fmtBits (tdFmt src)) (rowMajor m l (tdFmt src) r c)

/-- The source's element at the tile's width, with SAT where that changes it. -/
def planeConv (t k : Nat) : Int × W32 :=
  (sint (tdW dst) (satInt (srcInt m l dst src t k) (tdW dst) true).1, (satInt (srcInt m l dst src t k) (tdW dst) true).2)

def planeRows (t : Nat) : List (Int × W32) := (List.range 128).map (planeConv m l dst src t)

variable {dst}

theorem planeVals_eq : planeVals m l dst src =
    ((List.range 128).map fun t => (planeRows m l dst src t).map Prod.fst,
      ((List.range 128).map (planeRows m l dst src)).flatten.foldl (fun f p => f ||| p.2) 0) := by
  have hel : planeConv m l dst src = fun t k => match srcPos (tdRole dst) (tdRows src) (tdCols src) t k with
      | none => (0, 0)
      | some (r, c) => (sint (tdW dst) (satInt (sint (fmtBits (tdFmt src)) (rowMajor m l (tdFmt src) r c)) (tdW dst) true).1,
          (satInt (sint (fmtBits (tdFmt src)) (rowMajor m l (tdFmt src) r c)) (tdW dst) true).2) := by
    funext t k
    unfold planeConv srcInt
    cases srcPos (tdRole dst) (tdRows src) (tdCols src) t k with
    | none => simp [satInt_zero, sint]
    | some rc => rfl
  have hrows : planeVals m l dst src = (((List.range 128).map (planeRows m l dst src)).map fun r => r.map Prod.fst,
      ((List.range 128).map (planeRows m l dst src)).foldl (fun f r => r.foldl (fun f p => f ||| p.2) f) 0) := by
    unfold planeRows
    rw [hel]
    rfl
  rw [hrows, List.foldl_flatten, List.map_map]
  rfl

end

/-! #### The flags of a conversion (R151) -/

section
variable {α : Type} {g : α → W32} {F f : W32} {l : List α}

/-- Flags raised by some of a list's members. -/
theorem foldl_or_of_mem (hg : ∀ a ∈ l, g a = 0 ∨ g a = F) (hmem : ∃ a ∈ l, g a = F) : l.foldl (fun f a => f ||| g a) f = f ||| F := by
  induction l with
  | nil =>
    obtain ⟨a, ha, -⟩ := hmem
    cases ha
  | cons b r ih =>
    have hr : ∀ a ∈ r, g a = 0 ∨ g a = F := fun a ha => hg a (List.mem_cons_of_mem b ha)
    rw [List.foldl_cons]
    by_cases hb : g b = F
    · rw [hb]
      refine foldl_fixed _ r _ fun a ha => ?_
      rcases hr a ha with h | h <;> simp [h, BitVec.or_assoc]
    · have hb0 : g b = 0 := (hg b List.mem_cons_self).resolve_right hb
      obtain ⟨a, ha, haF⟩ := hmem
      have har : a ∈ r := (List.mem_cons.mp ha).resolve_left fun he => hb (he ▸ haF)
      rw [hb0, show f ||| 0 = f from BitVec.or_zero]
      exact ih hr ⟨a, har, haF⟩

end

section
variable (m : List Host.Cell) (l : Nat) (dst src : W64)

/-- The element of the source does not fit the tile's width. -/
def Overflows (t k : Nat) : Prop :=
  srcInt m l dst src t k < -2 ^ (tdW dst - 1) ∨ 2 ^ (tdW dst - 1) ≤ srcInt m l dst src t k

theorem mem_planeRows {p : Int × W32} :
    p ∈ ((List.range 128).map (planeRows m l dst src)).flatten ↔ ∃ t < 128, ∃ k < 128, planeConv m l dst src t k = p := by
  simp [planeRows]

theorem planeConv_fst (hw : 0 < tdW dst) (t k : Nat) : (planeConv m l dst src t k).1 =
    max (-2 ^ (tdW dst - 1)) (min (2 ^ (tdW dst - 1) - 1) (srcInt m l dst src t k)) := sint_satInt hw _

theorem planeConv_snd_of_overflows {t k : Nat} (h : Overflows m l dst src t k) : (planeConv m l dst src t k).2 = fSAT :=
  (satInt_flags _).trans (if_pos h)

theorem planeConv_snd_of_fits {t k : Nat} (h : ¬ Overflows m l dst src t k) : (planeConv m l dst src t k).2 = 0 :=
  (satInt_flags _).trans (if_neg h)

theorem planeVals_flags : (planeVals m l dst src).2 =
    ((List.range 128).map (planeRows m l dst src)).flatten.foldl (fun f p => f ||| p.2) 0 := by
  rw [planeVals_eq]

theorem planeVals_flags_of_overflows (h : ∃ t < 128, ∃ k < 128, Overflows m l dst src t k) : (planeVals m l dst src).2 = fSAT := by
  obtain ⟨t, ht, k, hk, hover⟩ := h
  refine (planeVals_flags ..).trans ((foldl_or_of_mem (fun p hp => ?_) ⟨_, ?_, planeConv_snd_of_overflows m l dst src hover⟩).trans
    BitVec.zero_or)
  · obtain ⟨t, -, k, -, rfl⟩ := (mem_planeRows ..).mp hp
    by_cases h : Overflows m l dst src t k
    · exact .inr (planeConv_snd_of_overflows m l dst src h)
    · exact .inl (planeConv_snd_of_fits m l dst src h)
  · exact (mem_planeRows ..).mpr ⟨t, ht, k, hk, rfl⟩

theorem planeVals_flags_of_fits (h : ∀ t < 128, ∀ k < 128, ¬ Overflows m l dst src t k) : (planeVals m l dst src).2 = 0 := by
  refine (planeVals_flags ..).trans (foldl_fixed _ _ _ fun p hp => ?_)
  obtain ⟨t, ht, k, hk, rfl⟩ := (mem_planeRows ..).mp hp
  rw [planeConv_snd_of_fits m l dst src (h t ht k hk)]
  rfl

/-- The values of a step as they stand in its planes. -/
theorem planeVals_rows_getD {t k : Nat} (hk : k < 128) :
    ((planeRows m l dst src t).map Prod.fst).getD k 0 = (planeConv m l dst src t k).1 := by
  simp [planeRows, hk]

end

/-! #### Writing a tile (R145, R149) -/

section
variable (s : State) (l n : Nat)

/-- An operation of the queue to which no older value of the words at `l` is left. -/
def PlaneOp.forgetting (o : PlaneOp) : PlaneOp :=
  { o with old := o.old.filter fun p => !(decide (l ≤ 8 * p.1) && decide (8 * p.1 < l + n)) }

/-- The operations of core `k`'s queue forget the words at `l`. -/
def State.forgetIn (k : Nat) : State :=
  if (s.core k).pq.isEmpty then s else s.modCore k fun c => { c with pq := c.pq.map (PlaneOp.forgetting l n) }

theorem forget_eq : s.forget l n =
    [coreKey (locPkg l) ((l % pkgSpan - 2 ^ 42) / 2 ^ 18), coreKey (locPkg l) ((l % pkgSpan - 2 ^ 42) / 2 ^ 18) + 1].foldl
      (fun s k => s.forgetIn l n k) s := rfl

theorem forgetIn_frame (k : Nat) : s.forgetIn l n k = { s with cores := (s.forgetIn l n k).cores } := by
  unfold State.forgetIn
  split <;> rfl

/-- The operations of a queue are the same after it, in the same order. -/
theorem forgetIn_pq_ids (k j : Nat) : ((s.forgetIn l n k).core j).pq.map PlaneOp.id = (s.core j).pq.map PlaneOp.id := by
  unfold State.forgetIn
  split
  · rfl
  · rw [State.modCore_core]
    split
    · next h => simp [h, PlaneOp.forgetting, Function.comp_def]
    · rfl

theorem forget_frame : s.forget l n = { s with cores := (s.forget l n).cores } := by
  rw [forget_eq, List.foldl_cons, List.foldl_cons, List.foldl_nil, forgetIn_frame, forgetIn_frame s]

theorem forget_pq_ids (j : Nat) : ((s.forget l n).core j).pq.map PlaneOp.id = (s.core j).pq.map PlaneOp.id := by
  rw [forget_eq, List.foldl_cons, List.foldl_cons, List.foldl_nil, forgetIn_pq_ids, forgetIn_pq_ids]

theorem scratchWrite_frame (b : List Byte) : s.scratchWrite l b =
    { s with cores := (s.scratchWrite l b).cores, mem := (s.scratchWrite l b).mem, poison := (s.scratchWrite l b).poison } := by
  unfold State.scratchWrite
  rw [forget_frame]
  rfl

theorem scratchWrite_pq_ids (b : List Byte) (k : Nat) :
    ((s.scratchWrite l b).core k).pq.map PlaneOp.id = (s.core k).pq.map PlaneOp.id := forget_pq_ids s l b.length k

end

/-! #### PLANE (R151) -/

section
variable {s : State} {o : PlaneOp}

/-- The step of the tile that PLANE writes. -/
def State.planeDst (s : State) (o : PlaneOp) : Nat := s.tileAt o.wg o.ta o.idx

/-- What PLANE makes of its source: the values and the flags. -/
def State.planeMakes (s : State) (o : PlaneOp) : List (List Int) × W32 := planeVals s.mem (s.tileAt o.wg o.tb 0) o.ta o.tb

/-- The state with the tile of PLANE written. -/
def State.planeWritten (s : State) (o : PlaneOp) : State :=
  s.scratchWrite (s.planeDst o) (planesOf (tdW o.ta) (s.planeMakes o).1)

theorem runOp_of_plane (hkind : o.kind = .plane) (hloop : o.loop = none) (hold : o.old = []) :
    s.runOp o none = ((s.planeWritten o).raiseIn o.thr (s.planeMakes o).2).busyFor o := by
  simp only [State.runOp, hkind, State.runPlane, State.opMem, hold, readsAs, State.raiseFor, hloop]
  rfl

end

section
variable {s : State} {o : PlaneOp}

theorem planeWritten_frame : s.planeWritten o =
    { s with cores := (s.planeWritten o).cores, mem := (s.planeWritten o).mem, poison := (s.planeWritten o).poison } :=
  scratchWrite_frame ..

theorem planeWritten_mem : (s.planeWritten o).mem = writeBytes s.mem (s.planeDst o) (planesOf (tdW o.ta)
    ((List.range 128).map fun t => (planeRows s.mem (s.tileAt o.wg o.tb 0) o.ta o.tb t).map Prod.fst)) := by
  rw [State.planeWritten, State.planeMakes, planeVals_eq]
  exact State.scratchWrite_mem ..

/-- The tile that PLANE writes holds its source's elements, clamped. -/
theorem planeElem_planeWritten (hm : s.MemOk) (hw : 0 < tdW o.ta) {t k : Nat} (ht : t < 128) (hk : k < 128) :
    planeElem (s.planeWritten o).mem (s.planeDst o) (tdW o.ta) t k =
      max (-2 ^ (tdW o.ta - 1)) (min (2 ^ (tdW o.ta - 1) - 1) (srcInt s.mem (s.tileAt o.wg o.tb 0) o.ta o.tb t k)) := by
  have hpos : (0 : Int) < 2 ^ (tdW o.ta - 1) := Int.pow_pos (by decide)
  have hval := (planeVals_rows_getD s.mem (s.tileAt o.wg o.tb 0) o.ta o.tb (t := t) hk).trans (planeConv_fst _ _ _ _ hw t k)
  rw [planeWritten_mem, planeElem_writeBytes (tdW o.ta) _ hm _ hw ht hk (by rw [hval]; omega) (by rw [hval]; omega), hval]

theorem readByte_planeWritten_out {x : Nat} (hx : x < s.planeDst o ∨ s.planeDst o + 2048 * tdW o.ta ≤ x) :
    readByte (s.planeWritten o).mem x = readByte s.mem x := by
  rw [planeWritten_mem]
  exact readByte_writeBytes_out _ _ _ _ (by rwa [planesOf_length])

theorem raiseIn_thr (s : State) (j : Nat) (f : W32) (k : Nat) : (s.raiseIn j f).thr k =
    { s.thr k with flags := if k = j ∧ (s.thr k).live = true then (s.thr k).flags ||| (f &&& flagMask) else (s.thr k).flags } := by
  rw [State.raiseIn, State.modThr_thr]
  by_cases hk : k = j
  · subst hk
    by_cases hl : (s.thr k).live = true <;> simp [hl, Thread.raise]
  · simp [hk, Ne.symm hk]

end

/-! #### Time of operations without an exact one (R148) -/

section
variable (s : State) (o : PlaneOp)

theorem busyFor_core (k : Nat) : (s.busyFor o).core k =
    if k = (s.wg o.wg).ckey then { s.core k with perf := ((s.busyFor o).core k).perf } else s.core k := by
  have h := State.count_core { s with tick := s.tick + 1 } (s.wg o.wg).ckey k (1 + Config.freeTime s.tick % o.most) 4
  have hb : (s.busyFor o).core k = _ := h
  rw [hb]
  by_cases hk : k = (s.wg o.wg).ckey
  · subst hk
    simp only [if_true]
    rfl
  · simp only [hk, Ne.symm hk, if_false]
    rfl

end

/-! #### Operations that change their core alone: ACCZ and CBLOAD (R155, 21_tables R327) -/

section
variable {s : State} {o : PlaneOp} {p core : Nat} {rest : List PlaneOp}

/-- Such an operation retires, having done `f` to its core. -/
theorem retires_modCore (f : Core → Core) (h : s.Retiring p core o rest) (hdata : o.kind = .cbload → o.data.isNone = false)
    (hpq : ∀ k, (f k).pq = k.pq) (hrun : s.runOp o none = (s.modCore (s.wg o.wg).ckey f).busyFor o) :
    ∃ u, exec (.planeOpRetire p core) s = .next u ∧
      (∀ k, u.core k = if k = coreKey p core then { f (s.core k) with pq := rest, perf := (u.core k).perf } else s.core k) ∧
      PlaneWakes s (coreKey p core) o u ∧ u = { s with threads := u.threads, cores := u.cores, tick := s.tick + 1 } := by
  have hframe : s.runOp o none = { s with cores := (s.runOp o none).cores, tick := s.tick + 1 } := by
    rw [hrun]
    rfl
  have hhere : ((s.modCore (s.wg o.wg).ckey f).wg o.wg).ckey = coreKey p core := h.here
  let u := (s.runOp o none).retireHead (coreKey p core) o
  refine ⟨u, exec_planeOpRetire_of_retiring h hdata, fun k => ?_, ?_, ?_⟩
  · have hu : u.core k = _ := retireHead_core (s.runOp o none) (coreKey p core) o k
    have hv := busyFor_core (s.modCore (s.wg o.wg).ckey f) o k
    rw [← hrun, hhere, h.here, State.modCore_core] at hv
    by_cases hk : k = coreKey p core
    · subst hk
      simp only [if_true] at hu hv ⊢
      have hperf : (u.core (coreKey p core)).perf = ((s.runOp o none).core (coreKey p core)).perf := (congrArg Core.perf hu).trans rfl
      have hq : ((s.runOp o none).core (coreKey p core)).pq.drop 1 = rest := by
        rw [hv]
        simp only [hpq, h.head]
        rfl
      rw [hperf, hu, hq, hv]
    · simp only [hk, Ne.symm hk, if_false] at hu hv ⊢
      rw [hu, hv]
  · exact planeWakes_retireHead (by rw [hframe]) (fun k => by rw [hframe]; rfl) (fun k _ => by rw [hframe]; rfl)
  · have hu : u = { s.runOp o none with threads := u.threads, cores := u.cores } := retireHead_frame ..
    rw [hframe] at hu
    exact hu

end

/-! #### PLANE's retirement -/

section
variable {s : State} {o : PlaneOp} {p core : Nat} {rest : List PlaneOp}

/-- PLANE retires, having written its tile and raised its flags in the performing thread. -/
theorem retires_plane (h : s.Retiring p core o rest) (hkind : o.kind = .plane) :
    ∃ u, exec (.planeOpRetire p core) s = .next u ∧ u.mem = (s.planeWritten o).mem ∧
      (u.thr o.thr).flags = (if (s.thr o.thr).live = true then (s.thr o.thr).flags ||| ((s.planeMakes o).2 &&& flagMask)
        else (s.thr o.thr).flags) ∧
      PlaneWakes s (coreKey p core) o u ∧ (u.core (coreKey p core)).pq.map PlaneOp.id = rest.map PlaneOp.id ∧
      u = { s with threads := u.threads, cores := u.cores, mem := u.mem, poison := u.poison, tick := s.tick + 1 } := by
  let w := s.planeWritten o
  let v := (w.raiseIn o.thr (s.planeMakes o).2).busyFor o
  have hrun : s.runOp o none = v := runOp_of_plane hkind h.thread h.unraced
  have hframe : v = { s with threads := v.threads, cores := v.cores, mem := v.mem, poison := v.poison, tick := s.tick + 1 } := by
    simp only [v, w]
    rw [planeWritten_frame]
    rfl
  have hthr (k : Nat) : v.thr k = { s.thr k with
      flags := if k = o.thr ∧ (s.thr k).live = true then (s.thr k).flags ||| ((s.planeMakes o).2 &&& flagMask) else (s.thr k).flags } := by
    have hw : w.thr k = s.thr k := by
      simp only [w]
      rw [planeWritten_frame]
      rfl
    rw [← hw]
    exact raiseIn_thr w o.thr _ k
  have hpq (k : Nat) : (v.core k).pq.map PlaneOp.id = (s.core k).pq.map PlaneOp.id := by
    have hv : (v.core k).pq = (w.core k).pq := by
      rw [busyFor_core]
      split <;> rfl
    rw [hv]
    exact scratchWrite_pq_ids ..
  let u := v.retireHead (coreKey p core) o
  have hu : u = { v with threads := u.threads, cores := u.cores } := retireHead_frame ..
  have hmem : u.mem = v.mem := (congrArg State.mem hu).trans rfl
  have hpoison : u.poison = v.poison := (congrArg State.poison hu).trans rfl
  refine ⟨u, (exec_planeOpRetire_of_retiring h (by simp [hkind])).trans (by rw [hrun]), hmem, ?_, ?_, ?_, ?_⟩
  · rw [retireHead_flags, hthr]
    simp
  · refine planeWakes_retireHead (by rw [hframe]) (fun k => ?_) fun k hk => ?_
    · rw [hthr]
    · rw [hthr]
      simp [hk]
  · rw [retireHead_core, if_pos rfl, List.map_drop, hpq, h.head]
    rfl
  · rw [hframe] at hu
    rw [hmem, hpoison]
    exact hu

end

theorem runOp_of_accz {s : State} {o : PlaneOp} (hkind : o.kind = .accz) :
    s.runOp o none = (s.modCore (s.wg o.wg).ckey fun k => k.accz o.mask).busyFor o := by
  simp only [State.runOp, hkind]

/-- The codebook that CBLOAD loads: 256 rows of the bytes that have returned. -/
def PlaneOp.codebook (o : PlaneOp) : Tbl (BitVec 16) :=
  (List.range 256).map fun r => (r, BitVec.ofNat 16 (fld (o.data.getD []) (2 * r) 2))

theorem runOp_of_cbload {s : State} {o : PlaneOp} (hkind : o.kind = .cbload) :
    s.runOp o none = (s.modCore (s.wg o.wg).ckey fun k => { k with cb := o.codebook }).busyFor o := by
  simp only [State.runOp, hkind, State.runCbload]
  rfl

theorem accz_accAt (k : Core) (mask : BitVec 8) (n : Nat) {r c : Nat} (hr : r < 128) (hc : c < 128) :
    (k.accz mask).accAt n r c = if mask.getLsbD n then 0 else k.accAt n r c := by
  have hfind : (k.accz mask).accAt n r c = (tfind (k.acc.filter fun p => !mask.getLsbD (p.1 / 16384)) (accKey n r c)).getD 0 := rfl
  rw [hfind, tfind_filter k.acc fun i => !mask.getLsbD (i / 16384), accKey_div hr hc]
  cases mask.getLsbD n <;> rfl

/-- The rows of a codebook that was loaded. -/
theorem tget_rows {α : Type} (d : α) (N : Nat) (g : Nat → α) {r : Nat} (hr : r < N) :
    tget d ((List.range N).map fun r => (r, g r)) r = g r := by
  have hfind : tfind ((List.range N).map fun r => (r, g r)) r = some (g r) :=
    tfind_eq_some (List.mem_map.mpr ⟨r, List.mem_range.mpr hr, rfl⟩) fun p hp hk => by
      obtain ⟨i, -, rfl⟩ := List.mem_map.mp hp
      exact congrArg g hk
  rw [tget, hfind]
  rfl

/-! #### The bytes of a CBLOAD (21_tables R327) -/

section
variable (s : State) (ck id : Nat) (o : PlaneOp)

/-- The state with the bytes `b` in the queued CBLOAD. -/
def State.cbReturned (b : List Byte) : State :=
  s.modCore ck fun c => { c with pq := c.pq.map fun x => if x.id == id then { x with data := some b } else x }

/-- The performing thread of CBLOAD `id` goes on, if it waits for the bytes. -/
def State.cbFree : State := if (s.thr o.thr).hold == .cb id then s.endHold (o.thr / 2048) (o.thr % 2048) else s

theorem cbFree_frame : s.cbFree id o = { s with threads := (s.cbFree id o).threads } := by
  unfold State.cbFree
  split <;> rfl

theorem cbFree_thr (k : Nat) : (s.cbFree id o).thr k =
    if k = o.thr ∧ (s.thr k).hold = .cb id then { s.thr k with hold := .none, since := s.clockOf (s.wg (k / 2048)).pkg } else s.thr k := by
  unfold State.cbFree
  by_cases hh : (s.thr o.thr).hold = .cb id
  · simp only [hh, beq_self_eq_true, if_true]
    rw [State.endHold, State.wake, State.modThr_thr, thrKey_div_mod]
    by_cases hk : k = o.thr
    · subst hk
      simp [hh]
    · simp [hk, Ne.symm hk]
  · have hne : ¬ (k = o.thr ∧ (s.thr k).hold = .cb id) := fun ⟨hk, h⟩ => hh (hk ▸ h)
    simp [hh, hne]

variable {s ck id o}

theorem exec_cbloadDataReturn_of_quiet (hop : s.planeOp id = some (ck, o)) (hkind : o.kind = .cbload) (hdata : o.data = none)
    (hquiet : s.quiet o.thr = true) (hgood : ∀ l ∈ o.locs, s.isPoisoned l.1 256 = false) :
    exec (.cbloadDataReturn id) s = .next ((s.cbReturned ck id
      (o.locs.flatMap fun l => s.seenBytes (s.wg o.wg).pkg (s.wg o.wg).core l.1 l.2 256)).cbFree id o) := by
  have hready : (o.kind != .cbload || o.data.isSome || !s.quiet o.thr) = false := by simp [hkind, hdata, hquiet]
  have hclean : (o.locs.any fun l => s.isPoisoned l.1 256) = false := by simpa using hgood
  show execCbloadDataReturn id s = _
  simp only [execCbloadDataReturn, hop, hready, hclean, Bool.false_eq_true, if_false]
  rfl

end

/-- Settles O45: what each kind of operation makes of its core or of memory, and then the one way in which the head leaves its queue. -/
theorem planesRetire : Obligations.PlanesRetire := by
  intro s p core ck
  refine ⟨?product, ?accz, ?cbload, ?plane, ?data⟩
  case product =>
    intro o rest h lead av bv sum hkind hlast
    have hsum (r c : Nat) : sat48 (s.sumOf o (s.core ck) r c) = sum r c := by
      refine congrArg (fun x => sat48 ((s.core ck).accAt o.acc r c + List.sum x)) (List.map_congr_left fun k hk => ?_)
      rw [rowOf_getD s o r (List.mem_range.mp hk), colOf_getD s o c (List.mem_range.mp hk)]
    obtain ⟨u, hu, hcore, hwakes, hall⟩ := retires_last_step h hkind hlast
    have hck : u.core ck = { s.stepOf o (s.core ck) with pq := rest, perf := (u.core ck).perf } := (hcore ck).trans (if_pos rfl)
    have hacc (n r c : Nat) (hr : r < 128) (hc : c < 128) : (u.core ck).accAt n r c =
        if n = o.acc then (sum r c).1 else (s.core ck).accAt n r c := by
      have hu : (u.core ck).accAt n r c = (s.stepOf o (s.core ck)).accAt n r c := by
        rw [hck]
        rfl
      rw [hu, stepOf_accAt _ _ _ hr hc, hsum]
    have haov : (u.core ck).aov = (s.stepOf o (s.core ck)).aov := (congrArg Core.aov hck).trans rfl
    refine ⟨u, hu, fun r hr c hc => ?_, fun n r c hn hr hc => ?_, fun hsat => ?_, fun hexact => ?_, fun k => ?_, hwakes, hall⟩
    · rw [hacc _ _ _ hr hc, if_pos rfl]
    · rw [hacc _ _ _ hr hc, if_neg hn]
    · rw [haov]
      exact stepOf_aov_of_sat s o _ (by simpa only [hsum] using hsat)
    · rw [haov]
      exact stepOf_aov_of_exact s o _ (by simpa only [hsum] using hexact)
    · by_cases hk : k = ck
      · subst hk
        have hacck : (u.core ck).acc = (s.stepOf o (s.core ck)).acc := (congrArg Core.acc hck).trans rfl
        rw [if_pos rfl, hacck, haov]
        rw [stepOf_frame] at hck
        exact hck
      · rw [if_neg hk]
        exact (hcore k).trans (if_neg hk)
  case accz =>
    intro o rest h hkind
    obtain ⟨u, hu, hcore, hwakes, hall⟩ := retires_modCore (fun k => k.accz o.mask) h (by simp [hkind]) (fun _ => rfl)
      (runOp_of_accz hkind)
    have hck : u.core ck = { (s.core ck).accz o.mask with pq := rest, perf := (u.core ck).perf } := (hcore ck).trans (if_pos rfl)
    refine ⟨u, hu, fun n r c hr hc => ?_, fun k => ?_, hwakes, hall⟩
    · rw [hck]
      exact accz_accAt (s.core ck) o.mask n hr hc
    · by_cases hk : k = ck
      · subst hk
        have hacc : (u.core ck).acc = ((s.core ck).accz o.mask).acc := (congrArg Core.acc hck).trans rfl
        rw [if_pos rfl, hacc]
        exact hck
      · rw [if_neg hk]
        exact (hcore k).trans (if_neg hk)
  case cbload =>
    intro o rest h hkind ⟨b, hb⟩
    obtain ⟨u, hu, hcore, hwakes, hall⟩ := retires_modCore (fun k => { k with cb := o.codebook }) h (by simp [hb]) (fun _ => rfl)
      (runOp_of_cbload hkind)
    have hck : u.core ck = { s.core ck with cb := o.codebook, pq := rest, perf := (u.core ck).perf } := (hcore ck).trans (if_pos rfl)
    have hcb : (u.core ck).cb = o.codebook := (congrArg Core.cb hck).trans rfl
    refine ⟨u, hu, fun r hr => ?_, fun k => ?_, hwakes, hall⟩
    · rw [hcb]
      exact tget_rows 0 256 _ hr
    · by_cases hk : k = ck
      · subst hk
        rw [if_pos rfl, hcb]
        exact hck
      · rw [if_neg hk]
        exact (hcore k).trans (if_neg hk)
  case plane =>
    intro o rest h hkind w l val top hm hlo hhi
    obtain ⟨u, hu, hmem, hflags, hwakes, hpq, hall⟩ := retires_plane h hkind
    refine ⟨u, hu, fun t ht k hk => ?_, fun x hx => ?_, fun hlive hover => ?_, fun hfits => ?_, hwakes, hpq, hall⟩
    · rw [hmem]
      exact planeElem_planeWritten hm (by omega) ht hk
    · rw [hmem]
      exact readByte_planeWritten_out hx
    · rw [hflags, if_pos hlive, State.planeMakes, planeVals_flags_of_overflows _ _ _ _ hover]
      rfl
    · have hno : ∀ t < 128, ∀ k < 128, ¬ Overflows s.mem (s.tileAt o.wg o.tb 0) o.ta o.tb t k := fun t ht k hk hover =>
        hover.elim (Int.not_lt.mpr (hfits t ht k hk).1) (Int.not_le.mpr (hfits t ht k hk).2)
      rw [hflags, State.planeMakes, planeVals_flags_of_fits _ _ _ _ hno]
      simp
  case data =>
    intro id o hop hkind hdata hquiet hgood b
    let u := (s.cbReturned ck id b).cbFree id o
    have hframe : u = { s.cbReturned ck id b with threads := u.threads } := cbFree_frame ..
    have hcores : u.cores = (s.cbReturned ck id b).cores := (congrArg State.cores hframe).trans rfl
    refine ⟨u, exec_cbloadDataReturn_of_quiet hop hkind hdata hquiet hgood, fun k => cbFree_thr .., fun k => ?_, ?_⟩
    · refine (congrArg (tget ({} : Core) · k) hcores).trans ((State.modCore_core s ck k _).trans ?_)
      by_cases hk : k = ck
      · subst hk
        simp
      · simp [hk, Ne.symm hk]
    · rw [hcores]
      exact hframe

end Sys2Proof.Machine

/-! ### Branches and thread control (09_control R163 to R167, R178) -/

namespace Sys2Proof.Machine

/-! #### Where branches go (R163) -/

/-- A branch from an aligned word goes to an aligned word. -/
theorem branchTo_aligned {pc : W64} (h : pc.toNat % 8 = 0) (v : BitVec 33) : (branchTo pc v).toNat % 8 = 0 := by
  simp only [branchTo, BitVec.toNat_add, BitVec.toNat_ofInt]
  omega

theorem nextPc_aligned {c : Site} (h : c.pc.toNat % 8 = 0) : c.nextPc.toNat % 8 = 0 := by
  have h8 : (8 : W64).toNat = 8 := rfl
  simp only [Site.nextPc, BitVec.toNat_add, h8]
  omega

section
variable (s : State) (g : Guard) (v : BitVec 33) (b : Base) (d : XReg)

theorem exec_bra_eq_runWord : exec (.bra g v) s =
    runWord (.bra g v) g (rdPlain (.bra g v)) always (jumpBody (fun c _ _ => branchTo c.pc v) none) s := rfl

/-- Where BRC sends a thread: to the branch's target under its condition, else to the next word. -/
def brcTarget (k : BCond) (a : Opnd) (c : Site) (_ : Frag) (e : Env) : W64 :=
  if bcond k (sint 32 (readOp .w32 e a)) then branchTo c.pc v else c.nextPc

theorem exec_brc_eq_runWord (k : BCond) (a : Opnd) : exec (.brc k a g v) s =
    runWord (.brc k a g v) g (rdPlain (.brc k a g v)) always (jumpBody (brcTarget v k a) none) s := rfl

theorem exec_call_eq_runWord : exec (.call d g v) s =
    runWord (.call d g v) g (rdPlain (.call d g v)) always (jumpBody (fun c _ _ => branchTo c.pc v) (some d)) s := rfl

theorem exec_ret_eq_runWord : exec (.ret b g) s =
    runWord (.ret b g) g (rdPlain (.ret b g)) always (jumpBody (fun _ _ e => readBase e b) none) s := rfl

theorem exec_jmpi_eq_runWord : exec (.jmpi b g) s =
    runWord (.jmpi b g) g (rdPlain (.jmpi b g)) always (jumpBody (fun _ _ e => readBase e b) none) s := rfl

theorem exec_jmpiLink_eq_runWord : exec (.jmpiLink d b g) s =
    runWord (.jmpiLink d b g) g (rdPlain (.jmpiLink d b g)) always (jumpBody (fun _ _ e => readBase e b) (some d)) s := rfl

end

/-- Settles O11: each word's body is a jump, with or without a link, whose targets are aligned. -/
theorem branchesGo : Obligations.BranchesGo := by
  intro s c hpc
  refine ⟨?bra, ?brc, ?call, ?ret, ?jmpi, ?jmpiLink⟩
  case bra => exact fun g v h => jump_of (exec_bra_eq_runWord s g v) h fun _ _ => branchTo_aligned hpc v
  case brc =>
    intro k a g v h
    refine jump_of (exec_brc_eq_runWord s g v k a) h fun e _ => ?_
    unfold brcTarget
    split
    · exact branchTo_aligned hpc v
    · exact nextPc_aligned hpc
  case call => exact fun d g v h => jumpLink_of (exec_call_eq_runWord s g v d) h fun _ _ => branchTo_aligned hpc v
  case ret => exact fun b g h ha => jump_of (exec_ret_eq_runWord s g b) h ha
  case jmpi => exact fun b g h ha => jump_of (exec_jmpi_eq_runWord s g b) h ha
  case jmpiLink => exact fun d b g h ha => jumpLink_of (exec_jmpiLink_eq_runWord s g b d) h ha

/-! #### Waiting at a reconvergence barrier (R165) -/

theorem exec_rwait_eq_runWord (n : BitVec 4) (g : Guard) (s : State) : exec (.rwait n g) s =
    runWord (.rwait n g) g (rdPlain (.rwait n g)) always (rwaitBody n.toNat) s := rfl

/-- What RWAIT makes of a thread: a participant waits, any other is as it was. -/
def Thread.rwait (n : Nat) (t : Thread) : Thread :=
  if t.join.getLsbD n then { t.await (.rwait n) with arrive := t.arrive ||| (1#16 <<< n) } else t

/-- A participant stands at its RWAIT; any other thread goes on. -/
def rwaitFate (s : State) (c : Site) (n : Nat) (e : Env) : Fin :=
  if (s.thr (thrKey c.wg e.tid)).join.getLsbD n then .stay else .next

theorem rwaitBody_of_relDone {s : State} {c : Site} {n : Nat} {fr : Frag}
    (h : ∀ e ∈ fr, (s.thr (thrKey c.wg e.tid)).join.getLsbD n = true → s.relDone (thrKey c.wg e.tid) .core = true) :
    rwaitBody n s c fr fr = .done (fr.foldl (fun s e => s.modThr (thrKey c.wg e.tid) (Thread.rwait n)) s)
      (fr.map fun e => (e.tid, rwaitFate s c n e)) := by
  have hnone : (fr.any fun e => (s.thr (thrKey c.wg e.tid)).join.getLsbD n && !s.relDone (thrKey c.wg e.tid) .core) = false := by
    rw [List.any_eq_false]
    intro e he
    cases hj : (s.thr (thrKey c.wg e.tid)).join.getLsbD n with
    | false => simp
    | true => simp [h e he hj]
  simp only [rwaitBody, hnone, Bool.false_eq_true, if_false]
  rfl

theorem rwaitFate_apply (s : State) (c : Site) (n : Nat) (e : Env) :
    (rwaitFate s c n e).apply c ((s.thr (thrKey c.wg e.tid)).rwait n) =
      if (s.thr (thrKey c.wg e.tid)).join.getLsbD n then
        { (s.thr (thrKey c.wg e.tid)).issue with
          shc := 0, wait := .rwait n, arrive := (s.thr (thrKey c.wg e.tid)).arrive ||| (1#16 <<< n) }
      else (s.thr (thrKey c.wg e.tid)).goto c.nextPc := by
  simp only [rwaitFate, Thread.rwait]
  split
  · simp [Fin.apply, Thread.issue, Thread.await]
  · rfl

/-! #### The shield (R178) -/

/-- What SHIELD makes of a thread, its own issue apart. -/
def Thread.shield (n : Nat) (t : Thread) : Thread :=
  if t.shc = 0 then { t with shc := if t.handler then n else n + 1 } else t

theorem shield_goto (n : Nat) (t : Thread) (pc : W64) : (t.shield n).goto pc =
    { (t.goto pc) with shc := if t.shc = 0 then n else if t.handler then t.shc else t.shc - 1 } := by
  cases hh : t.handler <;> by_cases h0 : t.shc = 0 <;> simp [Thread.shield, Thread.goto, Thread.issue, hh, h0]

section
variable (s : State) (g : Guard)

theorem exec_rjoin_eq_runWord (n : BitVec 4) : exec (.rjoin n g) s =
    runWord (.rjoin n g) g (rdPlain (.rjoin n g)) always (threadBody fun _ t => { t with join := t.join ||| (1#16 <<< n.toNat) }) s := rfl

theorem exec_nop_eq_runWord : exec (.nop g) s = runWord (.nop g) g (rdPlain (.nop g)) always (threadBody fun _ t => t) s := rfl

/-- The body of YIELD reads the clock of the state it runs in. -/
def yieldBody : Body := fun s c fr who =>
  threadBody (fun _ t => { t with yielded := true, yieldAt := s.clockOf c.pkg }) s c fr who

theorem exec_yield_eq_runWord : exec (.yield g) s = runWord (.yield g) g (rdPlain (.yield g)) always yieldBody s := rfl

theorem exec_shield_eq_runWord (n : BitVec 33) : exec (.shield n g) s =
    runWord (.shield n g) g (rdPlain (.shield n g)) always (threadBody fun _ => Thread.shield n.toNat) s := rfl

end

/-- Settles O12: RJOIN, NOP, YIELD and SHIELD change each thread alone, and RWAIT does where every participant's release is complete. -/
theorem threadControl : Obligations.ThreadControl := by
  intro s c
  refine ⟨?rjoin, ?rwait, ?nop, ?yield, ?shield⟩
  case rjoin => exact fun n g h => thread_of (exec_rjoin_eq_runWord s g n) h rfl
  case rwait =>
    intro n g h hrel
    exact leaves_of (exec_rwait_eq_runWord n g s) h rfl (fun _ => Thread.rwait n.toNat) (rwaitFate s c n.toNat) (rwaitBody_of_relDone hrel)
      (fun e _ => by unfold rwaitFate; split <;> rfl) fun e _ => rwaitFate_apply s c n.toNat e
  case nop => exact fun g h => thread_of (exec_nop_eq_runWord s g) h rfl
  case yield =>
    exact fun g h => leaves_of (exec_yield_eq_runWord s g) h rfl
      (fun _ t => { t with yielded := true, yieldAt := s.clockOf c.pkg }) (fun _ => .next) rfl (fun _ _ => rfl) fun _ _ => rfl
  case shield =>
    intro n g h
    obtain ⟨u, hu, hl⟩ := thread_of (exec_shield_eq_runWord s g n) h rfl
    exact ⟨u, hu, hl.congr fun e _ => shield_goto ..⟩

end Sys2Proof.Machine

/-! ### Ends of threads: EXIT and CANCEL (09_control R167, R176, R177, 19_queue_instr R306) -/

namespace Sys2Proof.Machine

/-! #### One thread after another, each with an effect outside the threads -/

theorem tset_tset {α : Type} (m : Tbl α) (k : Nat) (v w : α) : tset (tset m k v) k w = tset m k w := by
  induction m with
  | nil => simp [tset]
  | cons p r ih =>
    obtain ⟨j, x⟩ := p
    by_cases hj : j = k
    · simp [tset, hj]
    · by_cases hk : k < j
      · simp [tset, hj, hk]
      · simp [tset, hj, hk, ih]

theorem tmod_tmod {α : Type} (d : α) (m : Tbl α) (k : Nat) (f g : α → α) : tmod d (tmod d m k f) k g = tmod d m k (g ∘ f) := by
  simp only [tmod, tget_tset_self, tset_tset, Function.comp_apply]

section
variable {α : Type} {key : α → Nat} {f : α → Thread → Thread} {step : State → α → State}

/-- Steps that change their own thread, the cores, the workgroups and the accesses: what they make of the latter three stands in the state before
the threads change. -/
theorem foldl_eq_foldl_modThr (hstep : ∀ s a, step s a =
      { s.modThr (key a) (f a) with accs := (step s a).accs, cores := (step s a).cores, wgs := (step s a).wgs })
    (l : List α) (s : State) : l.foldl step s = l.foldl (fun s a => s.modThr (key a) (f a))
      { s with accs := (l.foldl step s).accs, cores := (l.foldl step s).cores, wgs := (l.foldl step s).wgs } := by
  induction l generalizing s with
  | nil => rfl
  | cons a r ih =>
    simp only [List.foldl_cons]
    refine (ih (step s a)).trans (congrArg (fun v : State => r.foldl (fun (s : State) a => s.modThr (key a) (f a)) v) ?_)
    generalize r.foldl step (step s a) = v
    exact congrArg (fun x : State => { x with accs := v.accs, cores := v.cores, wgs := v.wgs }) (hstep s a)

end

/-- The returns of thread `k` among some accesses are discarded. -/
def discardIn (k : Nat) (l : List Access) : List Access := l.map fun a => if a.thr == k then { a with cancelled := true } else a

theorem discardIn_thr (k : Nat) (a : Access) : (if a.thr == k then { a with cancelled := true } else a).thr = a.thr := by
  split <;> rfl

theorem discardIn_unserved (k : Nat) (a : Access) :
    (if a.thr == k then { a with cancelled := true } else a).unserved = a.unserved := by
  split <;> rfl

theorem foldl_discardIn (ks : List Nat) (l : List Access) : ks.foldl (fun l k => discardIn k l) l =
    l.map fun a => if ks.any (fun k => a.thr == k) then { a with cancelled := true } else a := by
  induction ks generalizing l with
  | nil => simp
  | cons k r ih =>
    rw [List.foldl_cons, ih, discardIn, List.map_map]
    refine List.map_congr_left fun a _ => ?_
    by_cases hk : a.thr = k
    · simp [hk]
    · simp [hk]

/-! #### The rings of a workgroup whose last thread ends (R306) -/

/-- The rings that are not the workgroup's. -/
def Core.withoutRings (k : Core) (w : Wg) : Core :=
  { k with rings := k.rings.filter fun r => !(r.launchid == w.launchid && r.wgid == w.wgid) }

theorem withoutRings_withoutRings (k : Core) (w : Wg) : (k.withoutRings w).withoutRings w = k.withoutRings w := by
  simp [Core.withoutRings]

section
variable (s : State) (wk : Nat)

theorem dropRings_frame : s.dropRings wk = { s with cores := (s.dropRings wk).cores } := by
  unfold State.dropRings
  dsimp only
  split <;> rfl

theorem dropRings_core (k : Nat) : (s.dropRings wk).core k =
    if k = (s.wg wk).ckey ∧ s.liveTids wk = [] then (s.core k).withoutRings (s.wg wk) else s.core k := by
  unfold State.dropRings
  by_cases hlive : s.liveTids wk = []
  · simp only [hlive, List.isEmpty_nil, if_true, State.modCore_core, and_true]
    by_cases hk : k = (s.wg wk).ckey
    · subst hk
      simp [Core.withoutRings]
    · simp [hk, Ne.symm hk]
  · have hne : (s.liveTids wk).isEmpty = false := by simpa using hlive
    simp [hne, hlive]

end

/-! #### EXIT (R167) -/

/-- What EXIT leaves of a thread. -/
def Thread.exit (t : Thread) : Thread :=
  { t.issue with life := .exited, join := 0, arrive := 0, wait := .none, hold := .none, watch := none }

/-- EXIT of one thread that issues it. -/
def State.exitOne (wk : Nat) (s : State) (i : Nat) : State := (s.modThr (thrKey wk i) Thread.issue).exitThread wk i

section
variable (wk : Nat) (s : State) (i : Nat)

theorem exitOne_eq : s.exitOne wk i =
    ({ s.modThr (thrKey wk i) Thread.exit with accs := discardIn (thrKey wk i) s.accs } : State).dropRings wk := by
  have ht : tmod {} (tmod {} s.threads (thrKey wk i) Thread.issue) (thrKey wk i)
      (fun t => { t with life := .exited, join := 0, arrive := 0, wait := .none, hold := .none, watch := none }) =
      tmod {} s.threads (thrKey wk i) Thread.exit := tmod_tmod ..
  rw [State.modThr, ← ht]
  rfl

theorem exitOne_frame : s.exitOne wk i = { s.modThr (thrKey wk i) Thread.exit with
    accs := (s.exitOne wk i).accs, cores := (s.exitOne wk i).cores, wgs := (s.exitOne wk i).wgs } := by
  rw [exitOne_eq, dropRings_frame]

theorem exitOne_accs : (s.exitOne wk i).accs = discardIn (thrKey wk i) s.accs := by
  rw [exitOne_eq, dropRings_frame]

theorem exitOne_wgs : (s.exitOne wk i).wgs = s.wgs := by
  rw [exitOne_eq, dropRings_frame]
  rfl

/-- A thread that is over is not live; no other has changed. -/
theorem modThr_exit_liveTids : (s.modThr (thrKey wk i) Thread.exit).liveTids wk = (s.liveTids wk).filter (· != i) := by
  have hlive (j : Nat) : ((s.modThr (thrKey wk i) Thread.exit).thr (thrKey wk j)).live = ((s.thr (thrKey wk j)).live && j != i) := by
    rw [State.modThr_thr]
    by_cases hj : j = i
    · subst hj
      simp [Thread.exit, Thread.live]
    · rw [if_neg fun h => hj (thrKey_inj h).symm]
      simp [hj]
  simp only [State.liveTids, List.filter_filter, hlive, Bool.and_comm]
  rfl

theorem exitOne_liveTids : (s.exitOne wk i).liveTids wk = (s.liveTids wk).filter (· != i) := by
  rw [← modThr_exit_liveTids]
  have hthr : (s.exitOne wk i).threads = (s.modThr (thrKey wk i) Thread.exit).threads := by rw [exitOne_frame]
  simp only [State.liveTids, State.tidsOf, State.wg, State.thr, exitOne_wgs, hthr]
  rfl

theorem exitOne_core (k : Nat) : (s.exitOne wk i).core k =
    if k = (s.wg wk).ckey ∧ (s.liveTids wk).filter (· != i) = [] then (s.core k).withoutRings (s.wg wk) else s.core k := by
  rw [exitOne_eq, dropRings_core, ← modThr_exit_liveTids]
  rfl

variable (l : List Nat)

theorem foldl_exitOne_wgs : (l.foldl (State.exitOne wk) s).wgs = s.wgs := by
  induction l generalizing s with
  | nil => rfl
  | cons i r ih => rw [List.foldl_cons, ih, exitOne_wgs]

theorem foldl_exitOne_accs : (l.foldl (State.exitOne wk) s).accs =
    s.accs.map fun a => if l.any (fun i => a.thr == thrKey wk i) then { a with cancelled := true } else a := by
  have h := List.foldl_hom State.accs (g₁ := State.exitOne wk) (g₂ := fun l i => discardIn (thrKey wk i) l) (l := l) (init := s)
    fun s i => (exitOne_accs wk s i).symm
  have hks := foldl_discardIn (l.map (thrKey wk)) s.accs
  simp only [List.foldl_map, List.any_map] at hks
  exact h.symm.trans hks

/-- The rings go with the last live thread. -/
theorem foldl_exitOne_core (k : Nat) : (l.foldl (State.exitOne wk) s).core k =
    if k = (s.wg wk).ckey ∧ l ≠ [] ∧ ∀ i ∈ s.liveTids wk, i ∈ l then (s.core k).withoutRings (s.wg wk) else s.core k := by
  induction l generalizing s with
  | nil => simp
  | cons i r ih =>
    have hwg : (s.exitOne wk i).wg wk = s.wg wk := congrArg (tget ({} : Wg) · wk) (exitOne_wgs wk s i)
    have hall : (∀ j ∈ (s.liveTids wk).filter (· != i), j ∈ r) ↔ ∀ j ∈ s.liveTids wk, j ∈ i :: r := by
      simp only [List.mem_filter, bne_iff_ne, List.mem_cons, and_imp]
      exact forall₂_congr fun j _ => by tauto
    rw [List.foldl_cons, ih, hwg, exitOne_liveTids, exitOne_core]
    simp only [hall, ne_eq, reduceCtorEq, not_false_eq_true, true_and]
    by_cases hk : k = (s.wg wk).ckey
    · by_cases hl : (s.liveTids wk).filter (· != i) = []
      · have hin : ∀ j ∈ s.liveTids wk, j ∈ i :: r := hall.mp (by simp [hl])
        rw [if_pos (c := _ ∧ List.filter _ _ = []) ⟨hk, hl⟩, if_pos (c := _ ∧ ∀ j ∈ s.liveTids wk, j ∈ i :: r) ⟨hk, hin⟩,
          withoutRings_withoutRings, ite_self]
      · have hr : (∀ j ∈ s.liveTids wk, j ∈ i :: r) → r ≠ [] := by
          rintro h rfl
          exact hl (List.eq_nil_iff_forall_not_mem.mpr fun j hj => by simpa using hall.mpr h j hj)
        simp only [hk, hl, true_and, and_false, if_false]
        exact if_congr ⟨fun h => h.2, fun h => ⟨hr h, h⟩⟩ rfl rfl
    · simp [hk]

end

theorem exec_exit_eq_runWord (g : Guard) (s : State) : exec (.exit g) s = runWord (.exit g) g (rdPlain (.exit g)) always
    (fun s c _ who => .done (who.foldl (fun s e => s.exitOne c.wg e.tid) s) (who.map fun e => (e.tid, .ended))) s := rfl

section
variable (s : State) (c : Site) (g : Guard)

/-- The state after EXIT of the guard-active threads, in so far as it is outside them. -/
def State.exited : State :=
  let v := (s.frag c g).foldl (fun s e => s.exitOne c.wg e.tid) s
  { s with accs := v.accs, cores := v.cores }

theorem exited_eq : (s.frag c g).foldl (fun s e => s.exitOne c.wg e.tid) s =
    (s.frag c g).foldl (fun s e => s.modThr (thrKey c.wg e.tid) Thread.exit) (s.exited c g) := by
  have hwgs := foldl_exitOne_wgs c.wg s ((s.frag c g).map Env.tid)
  rw [List.foldl_map] at hwgs
  refine (foldl_eq_foldl_modThr (key := fun e : Env => thrKey c.wg e.tid) (f := fun _ => Thread.exit)
    (fun s e => exitOne_frame c.wg s e.tid) (s.frag c g) s).trans ?_
  rw [hwgs]
  rfl

theorem exited_accs : (s.exited c g).accs =
    s.accs.map fun a => if (s.frag c g).any (fun e => a.thr == thrKey c.wg e.tid) then { a with cancelled := true } else a := by
  have h := foldl_exitOne_accs c.wg s ((s.frag c g).map Env.tid)
  simp only [List.foldl_map, List.any_map] at h
  exact h

theorem exited_core (k : Nat) : (s.exited c g).core k =
    if k = (s.wg c.wg).ckey ∧ s.frag c g ≠ [] ∧ ∀ i ∈ s.liveTids c.wg, i ∈ (s.frag c g).map Env.tid then
      (s.core k).withoutRings (s.wg c.wg)
    else s.core k := by
  have h := foldl_exitOne_core c.wg s ((s.frag c g).map Env.tid) k
  simp only [List.foldl_map, ne_eq, List.map_eq_nil_iff] at h
  exact h

end

/-! #### CANCEL (R176, R177) -/

/-- What a cancellation leaves of a thread. -/
def Thread.cancel (t : Thread) : Thread :=
  { life := .cancelled, pc := t.pc, lane := t.lane, seq := t.seq, lead := t.lead, trap := t.trap,
    park := match t.park with | some p => if p.keep then some p else none | none => none }

theorem cancel_eq_bind (t : Thread) : t.cancel =
    { life := .cancelled, pc := t.pc, lane := t.lane, seq := t.seq, lead := t.lead, trap := t.trap,
      park := t.park.bind fun p => if p.keep then some p else none } := by
  cases h : t.park <;> simp [Thread.cancel, h]

/-- The accesses without the unserved loads of thread `k`, the returns of its others discarded. -/
def dropIn (k : Nat) (l : List Access) : List Access := discardIn k (l.filter fun a => !(a.thr == k && a.unserved))

theorem dropIn_filter (k : Nat) (ks : List Nat) (l : List Access) :
    (dropIn k l).filter (fun a => !(ks.any (fun j => a.thr == j) && a.unserved)) =
      discardIn k (l.filter fun a => !((k :: ks).any (fun j => a.thr == j) && a.unserved)) := by
  rw [dropIn, discardIn, List.filter_map, List.filter_filter, discardIn]
  refine congrArg (List.map _) (List.filter_congr fun a _ => ?_)
  simp only [Function.comp_apply, discardIn_thr, discardIn_unserved, List.any_cons]
  cases a.thr == k <;> cases a.unserved <;> simp

theorem foldl_dropIn (ks : List Nat) (l : List Access) : ks.foldl (fun l k => dropIn k l) l =
    (l.filter fun a => !(ks.any (fun k => a.thr == k) && a.unserved)).map
      fun a => if ks.any (fun k => a.thr == k) then { a with cancelled := true } else a := by
  rw [← foldl_discardIn]
  induction ks generalizing l with
  | nil => simp
  | cons k r ih => rw [List.foldl_cons, ih, dropIn_filter, List.foldl_cons]

/-- A core but for what a cancellation counts there and for its rings. -/
def Core.SameButCounts (k k' : Core) : Prop := k' = { k with perf := k'.perf, dropped := k'.dropped, rings := k'.rings }

theorem Core.SameButCounts.refl (k : Core) : k.SameButCounts k := rfl

theorem Core.SameButCounts.trans {k k' k'' : Core} (h : k.SameButCounts k') (h' : k'.SameButCounts k'') : k.SameButCounts k'' := by
  unfold Core.SameButCounts at h h' ⊢
  rw [h']
  generalize k''.perf = p, k''.dropped = d, k''.rings = r
  rw [h]

section
variable (s : State) (wk i : Nat)

/-- The state without the unserved loads of thread `k`, which its core counts, a parked one too (R177). -/
def State.loadsDropped (k ck : Nat) : State :=
  let v := s.dropLoads k ck
  let parkedLoad : Bool := match (s.thr k).park with | some p => p.drops | none => false
  if parkedLoad then v.modCore ck fun c => { c with dropped := satAdd c.dropped 1 } else v

theorem loadsDropped_frame (k ck : Nat) : s.loadsDropped k ck =
    { s with accs := s.accs.filter (fun a => !(a.thr == k && a.unserved)), cores := (s.loadsDropped k ck).cores } := by
  unfold State.loadsDropped
  dsimp only
  split
  · split <;> rfl
  · rfl

/-- The mark of a workgroup with a cancelled thread. -/
def Wg.cancelled (w : Wg) : Wg := { w with cxl := true, inelig := true }

/-- What a cancellation changes in the thread, its other accesses and its workgroup. -/
def State.cancelMarks : State := ((s.discardReturns (thrKey wk i)).modThr (thrKey wk i) Thread.cancel).modWg wk Wg.cancelled

theorem cancelMarks_cores : (s.cancelMarks wk i).cores = s.cores := rfl

theorem cancelMarks_wg : (s.cancelMarks wk i).wg wk = (s.wg wk).cancelled := tget_tmod_self ..

theorem cancelThread_eq : s.cancelThread wk i =
    (((s.loadsDropped (thrKey wk i) (s.wg wk).ckey).cancelMarks wk i).count (s.wg wk).ckey 6 1).dropRings wk := rfl

theorem cancelThread_frame : s.cancelThread wk i = { s.modThr (thrKey wk i) Thread.cancel with
    accs := (s.cancelThread wk i).accs, cores := (s.cancelThread wk i).cores, wgs := (s.cancelThread wk i).wgs } := by
  rw [cancelThread_eq, dropRings_frame, loadsDropped_frame]
  rfl

theorem cancelThread_accs : (s.cancelThread wk i).accs = dropIn (thrKey wk i) s.accs := by
  rw [cancelThread_eq, dropRings_frame, loadsDropped_frame]
  rfl

theorem cancelThread_wgs : (s.cancelThread wk i).wgs = tmod {} s.wgs wk Wg.cancelled := by
  rw [cancelThread_eq, dropRings_frame, loadsDropped_frame]
  rfl

theorem cancelThread_wg (k : Nat) : (s.cancelThread wk i).wg k = if k = wk then (s.wg k).cancelled else s.wg k := by
  rw [State.wg, cancelThread_wgs, tget_tmod]
  by_cases hk : k = wk
  · subst hk
    simp only [if_true]
    rfl
  · rw [if_neg hk, if_neg (Ne.symm hk)]
    rfl

end

/-- Of the cores, at most core `ck` has changed, in what a cancellation counts and in its rings. -/
def CountsIn (ck : Nat) (s u : State) : Prop := ∀ k, (s.core k).SameButCounts (u.core k) ∧ (k ≠ ck → u.core k = s.core k)

section
variable {ck : Nat} {s u v : State}

theorem CountsIn.of_cores (h : u.cores = s.cores) : CountsIn ck s u := fun k => by
  have hk : u.core k = s.core k := congrArg (tget ({} : Core) · k) h
  rw [hk]
  exact ⟨.refl _, fun _ => rfl⟩

theorem CountsIn.trans (h : CountsIn ck s u) (h' : CountsIn ck u v) : CountsIn ck s v := fun k =>
  ⟨(h k).1.trans (h' k).1, fun hk => ((h' k).2 hk).trans ((h k).2 hk)⟩

theorem CountsIn.modCore {f : Core → Core} (hf : ∀ k : Core, k.SameButCounts (f k)) : CountsIn ck s (s.modCore ck f) := fun k => by
  rw [State.modCore_core]
  by_cases hk : k = ck
  · subst hk
    rw [if_pos rfl]
    exact ⟨hf _, fun h => absurd rfl h⟩
  · rw [if_neg (Ne.symm hk)]
    exact ⟨.refl _, fun _ => rfl⟩

theorem countsIn_loadsDropped (s : State) (k ck : Nat) : CountsIn ck s (s.loadsDropped k ck) := by
  have hmore (s : State) (n : Nat) : CountsIn ck s (s.modCore ck fun c => { c with dropped := satAdd c.dropped n }) :=
    .modCore fun _ => rfl
  have hdrop : CountsIn ck s (s.dropLoads k ck) :=
    .trans (.of_cores rfl : CountsIn ck s { s with accs := s.accs.filter fun a => !(a.thr == k && a.unserved) }) (hmore _ _)
  unfold State.loadsDropped
  dsimp only
  split
  · split
    · exact hdrop.trans (hmore _ 1)
    · exact hdrop
  · exact hdrop

theorem countsIn_count (s : State) (ck i n : Nat) : CountsIn ck s (s.count ck i n) := .modCore fun _ => rfl

theorem countsIn_dropRings {wk : Nat} (h : (s.wg wk).ckey = ck) : CountsIn ck s (s.dropRings wk) := by
  intro k
  rw [dropRings_core, h]
  by_cases hk : k = ck
  · exact ⟨by split <;> rfl, fun h => absurd hk h⟩
  · rw [if_neg fun h => hk h.1]
    exact ⟨.refl _, fun _ => rfl⟩

theorem countsIn_cancelThread (s : State) (wk i : Nat) : CountsIn (s.wg wk).ckey s (s.cancelThread wk i) := by
  rw [cancelThread_eq]
  have hloads := countsIn_loadsDropped s (thrKey wk i) (s.wg wk).ckey
  have hwg : (s.loadsDropped (thrKey wk i) (s.wg wk).ckey).wg wk = s.wg wk := by
    rw [loadsDropped_frame]
    rfl
  generalize s.loadsDropped (thrKey wk i) (s.wg wk).ckey = v at hloads hwg
  have hck : (((v.cancelMarks wk i).count (s.wg wk).ckey 6 1).wg wk).ckey = (s.wg wk).ckey :=
    (congrArg Wg.ckey ((cancelMarks_wg v wk i).trans (congrArg Wg.cancelled hwg))).trans rfl
  exact hloads.trans ((CountsIn.of_cores (cancelMarks_cores v wk i)).trans ((countsIn_count _ _ 6 1).trans (countsIn_dropRings hck)))

end

section
variable (wk : Nat) (s : State) (l : List Nat)

theorem cancelAll_accs : (s.cancelAll wk l).accs =
    (s.accs.filter fun a => !(l.any (fun i => a.thr == thrKey wk i) && a.unserved)).map
      fun a => if l.any (fun i => a.thr == thrKey wk i) then { a with cancelled := true } else a := by
  have h := List.foldl_hom State.accs (g₁ := fun s i => s.cancelThread wk i) (g₂ := fun l i => dropIn (thrKey wk i) l) (l := l)
    (init := s) fun s i => (cancelThread_accs s wk i).symm
  have hks := foldl_dropIn (l.map (thrKey wk)) s.accs
  simp only [List.foldl_map, List.any_map] at hks
  exact h.symm.trans hks

theorem cancelAll_wg (k : Nat) : (s.cancelAll wk l).wg k = if k = wk ∧ l ≠ [] then (s.wg k).cancelled else s.wg k := by
  induction l generalizing s with
  | nil => simp [State.cancelAll]
  | cons i r ih =>
    rw [State.cancelAll, List.foldl_cons]
    refine (ih (s.cancelThread wk i)).trans ?_
    rw [cancelThread_wg]
    by_cases hk : k = wk
    · simp [hk, Wg.cancelled]
    · simp [hk]

theorem countsIn_cancelAll : CountsIn (s.wg wk).ckey s (s.cancelAll wk l) := by
  induction l generalizing s with
  | nil => exact .of_cores rfl
  | cons i r ih =>
    have hck : ((s.cancelThread wk i).wg wk).ckey = (s.wg wk).ckey := by
      rw [cancelThread_wg, if_pos rfl]
      rfl
    exact (countsIn_cancelThread s wk i).trans (hck ▸ ih (s.cancelThread wk i))

end

section
variable (s : State) (c : Site) (g : Guard)

/-- The state after a cancellation of the guard-active threads, in so far as it is outside them. -/
def State.cancelled : State :=
  let v := s.cancelAll c.wg ((s.frag c g).map Env.tid)
  { s with accs := v.accs, cores := v.cores, wgs := v.wgs }

theorem cancelled_eq : s.cancelAll c.wg ((s.frag c g).map Env.tid) =
    (s.frag c g).foldl (fun s e => s.modThr (thrKey c.wg e.tid) Thread.cancel) (s.cancelled c g) := by
  have h := foldl_eq_foldl_modThr (key := thrKey c.wg) (f := fun _ => Thread.cancel)
    (fun s i => cancelThread_frame s c.wg i) ((s.frag c g).map Env.tid) s
  rw [List.foldl_map (g := fun (s : State) i => s.modThr (thrKey c.wg i) Thread.cancel)] at h
  exact h

end

theorem exec_cancel_eq_runWord (g : Guard) (s : State) : exec (.cancel g) s = runWord (.cancel g) g (rdPlain (.cancel g)) always
    (fun s c _ who => .done (s.cancelAll c.wg (who.map fun e => e.tid)) (who.map fun e => (e.tid, .ended))) s := rfl

/-- Settles O13: a thread that ends or is cancelled changes alone, and what goes with it outside the threads is put together thread by
thread. -/
theorem threadsEnd : Obligations.ThreadsEnd := by
  refine ⟨fun s c g h => ?exit, fun s c g h => ?cancel⟩
  case exit =>
    obtain ⟨u, hu, hthr, hkeep, hcores, hall⟩ := leaves_of (act := fun _ => Thread.exit) (exec_exit_eq_runWord g s) h rfl
      (fun _ => Thread.exit) (fun _ => .ended) (congrArg (Ran.done · _) (exited_eq s c g)) (fun _ _ => rfl) fun _ _ => rfl
    have haccs : u.accs = (s.exited c g).accs := (congrArg State.accs hall).trans rfl
    refine ⟨u, hu, hthr, hkeep, haccs.trans (exited_accs s c g), fun k => ?_, fun hleft k => ?_, fun hne hlast => ?_, ?_⟩
    · rw [hcores k, exited_core]
      split <;> split <;> rfl
    · obtain ⟨i, hi, hout⟩ := hleft
      have hk : (s.exited c g).core k = s.core k := (exited_core s c g k).trans (if_neg fun h => hout (h.2.2 i hi))
      have h := hcores k
      rw [hk] at h
      exact h
    · have hck := (exited_core s c g (s.wg c.wg).ckey).trans (if_pos ⟨rfl, hne, hlast⟩)
      rw [hcores, hck]
      split <;> rfl
    · rw [haccs]
      exact hall
  case cancel =>
    obtain ⟨u, hu, hthr, hkeep, hcores, hall⟩ := leaves_of (act := fun _ => Thread.cancel) (exec_cancel_eq_runWord g s) h rfl
      (fun _ => Thread.cancel) (fun _ => .ended) (congrArg (Ran.done · _) (cancelled_eq s c g)) (fun _ _ => rfl) fun _ _ => rfl
    have haccs : u.accs = (s.cancelled c g).accs := (congrArg State.accs hall).trans rfl
    have hwgs : u.wgs = (s.cancelled c g).wgs := (congrArg State.wgs hall).trans rfl
    have hcounts := countsIn_cancelAll c.wg s ((s.frag c g).map Env.tid)
    refine ⟨u, hu, fun i hi => ?_, hkeep, ?_, fun k => ?_, fun k => ?_, fun k hk hck => ?_, ?_⟩
    · simp only [← cancel_eq_bind]
      exact hthr i hi
    · have h := cancelAll_accs c.wg s ((s.frag c g).map Env.tid)
      simp only [List.any_map] at h
      exact haccs.trans h
    · have h := cancelAll_wg c.wg s ((s.frag c g).map Env.tid) k
      simp only [ne_eq, List.map_eq_nil_iff] at h
      exact (congrArg (tget ({} : Wg) · k) hwgs).trans h
    · have h : ((s.cancelled c g).core k).SameButCounts (u.core k) := by
        rw [hcores k]
        split <;> rfl
      exact (hcounts k).1.trans h
    · exact ((hcores k).trans (if_neg hk)).trans ((hcounts k).2 hck)
    · rw [haccs, hwgs]
      exact hall

end Sys2Proof.Machine

/-! ### Words of incumbents (09_control R168 to R174) -/

namespace Sys2Proof.Machine

/-- The word of a declared incumbent runs its body (R168). -/
theorem needInc_of_decl {n : Nat} {b : Body} {s : State} {c : Site} (h : (s.launchOf (s.wg c.wg)).incDecl n = true) (fr who : Frag) :
    needInc n b s c fr who = b s c fr who := if_pos h

/-! #### INCOFR (R169) -/

/-- What an offer of workgroup `wk` changes besides what is on its way: the numbers drawn, and digests where the kernel is replayable. -/
structure OfferKeeps (wk : Nat) (s u : State) : Prop where
  frame : u = { s with wgs := u.wgs, offers := u.offers, nextId := u.nextId }
  wg : ∀ k, u.wg k = { s.wg k with digest := (u.wg k).digest }
  plain : (s.launchOf (s.wg wk)).replayable = false → ∀ k, u.wg k = s.wg k

section
variable {wk : Nat} {s u v : State}

theorem OfferKeeps.refl : OfferKeeps wk s s := ⟨rfl, fun _ => rfl, fun _ _ => rfl⟩

theorem OfferKeeps.thr (h : OfferKeeps wk s u) (k : Nat) : u.thr k = s.thr k := (congrArg (State.thr · k) h.frame).trans rfl

theorem OfferKeeps.ctx (h : OfferKeeps wk s u) (k : Nat) : (u.wg k).ctx = (s.wg k).ctx := (congrArg Wg.ctx (h.wg k)).trans rfl

theorem OfferKeeps.launchOf (h : OfferKeeps wk s u) (k : Nat) : u.launchOf (u.wg k) = s.launchOf (s.wg k) := by
  have hctxs : u.ctxs = s.ctxs := (congrArg State.ctxs h.frame).trans rfl
  simp only [State.launchOf, State.ctx, hctxs, h.ctx]

theorem OfferKeeps.redoing (h : OfferKeeps wk s u) (k : Nat) : u.redoing k = s.redoing k := by
  have hgangs : u.gangs = s.gangs := (congrArg State.gangs h.frame).trans rfl
  have hgang : (u.wg k).gang = (s.wg k).gang := (congrArg Wg.gang (h.wg k)).trans rfl
  simp only [State.redoing, State.gang, hgangs, hgang]

theorem OfferKeeps.trans (h : OfferKeeps wk s u) (h' : OfferKeeps wk u v) : OfferKeeps wk s v where
  frame := by
    rw [h'.frame]
    generalize v.wgs = w, v.offers = o, v.nextId = n
    rw [h.frame]
  wg k := by
    rw [h'.wg k]
    generalize (v.wg k).digest = d
    rw [h.wg k]
  plain hp k := (h'.plain (by rwa [h.launchOf]) k).trans (h.plain hp k)

theorem digest_frame (s : State) (wk : Nat) (a : W64) (data : List Byte) :
    s.digest wk a data = { s with wgs := (s.digest wk a data).wgs } := by
  unfold State.digest
  split <;> rfl

theorem offerKeeps_digest (s : State) (wk : Nat) (a : W64) (data : List Byte) : OfferKeeps wk s (s.digest wk a data) where
  frame := by
    rw [digest_frame]
  wg k := by
    unfold State.digest
    split
    · rw [State.modWg_wg]
      split
      · next h => rw [h]
      · rfl
    · rfl
  plain hp k := by simp [State.digest, hp]

end

section
variable (s : State) (c : Site) (n : Nat)

/-- The state with an offer's key and payload in the workgroup's digest. -/
def State.offerDigest (v : Inc) : State :=
  (s.digest c.wg (incAddr n) (natLe 8 v.key.toNat)).digest c.wg (incAddr n + 8) (natLe 8 v.pay.toNat)

theorem offerDigest_frame (v : Inc) : s.offerDigest c n v = { s with wgs := (s.offerDigest c n v).wgs } := by
  rw [State.offerDigest, digest_frame, digest_frame]

theorem offerKeeps_offerDigest (v : Inc) : OfferKeeps c.wg s (s.offerDigest c n v) :=
  (offerKeeps_digest ..).trans (offerKeeps_digest ..)

variable (inc : Env → Inc)

/-- The offer of a thread that takes the `i`th number after the state's next one. -/
def State.offerOf (e : Env) (i : Nat) : Offer :=
  { id := s.nextId + i, pkg := c.pkg, ctx := (s.wg c.wg).ctx, n := n, thr := thrKey c.wg e.tid, inc := inc e,
    ord := ((640 * c.pkg + c.core) * 2 + c.slot) * Config.gwidth + (s.thr (thrKey c.wg e.tid)).lane }

theorem offer_eq_of_not_redoing (e : Env) (h : (s.offerDigest c n (inc e)).redoing c.wg = false) : s.offer c n e.tid (inc e) =
    let u := s.offerDigest c n (inc e)
    { u with nextId := u.nextId + 1, offers := u.offers ++ [u.offerOf c n inc e 0] } := by
  refine (if_neg ?_ : s.offer c n e.tid (inc e) = _)
  exact Bool.eq_false_iff.mp h

/-- An offer that is sent stands last among those on their way. -/
theorem offer_sends (e : Env) (h : s.redoing c.wg = false) : OfferKeeps c.wg s (s.offer c n e.tid (inc e)) ∧
    (s.offer c n e.tid (inc e)).offers = s.offers ++ [s.offerOf c n inc e 0] ∧
    (s.offer c n e.tid (inc e)).nextId = s.nextId + 1 := by
  have hkeeps := offerKeeps_offerDigest s c n (inc e)
  have hframe := offerDigest_frame s c n (inc e)
  rw [offer_eq_of_not_redoing s c n inc e (by rw [hkeeps.redoing, h])]
  generalize s.offerDigest c n (inc e) = u at hkeeps hframe
  have hoffers : u.offers = s.offers := (congrArg State.offers hframe).trans rfl
  have hid : u.nextId = s.nextId := (congrArg State.nextId hframe).trans rfl
  refine ⟨⟨?_, hkeeps.wg, hkeeps.plain⟩, ?_, congrArg (· + 1) hid⟩
  · dsimp only
    generalize u.offers ++ _ = l, u.nextId + 1 = i
    exact congrArg (fun x : State => { x with offers := l, nextId := i }) hframe
  · dsimp only
    simp only [State.offerOf, hoffers, hid, hkeeps.ctx, hkeeps.thr]

theorem foldl_offer_sends (fr : Frag) (h : s.redoing c.wg = false) :
    let u := fr.foldl (fun s e => s.offer c n e.tid (inc e)) s
    OfferKeeps c.wg s u ∧ u.offers = s.offers ++ fr.zipIdx.map fun p => s.offerOf c n inc p.1 p.2 := by
  induction fr generalizing s with
  | nil => exact ⟨.refl, (List.append_nil _).symm⟩
  | cons e r ih =>
    obtain ⟨hkeeps, hoffers, hid⟩ := offer_sends s c n inc e h
    obtain ⟨hkeeps', hoffers'⟩ := ih (s.offer c n e.tid (inc e)) (by rw [hkeeps.redoing, h])
    refine ⟨hkeeps.trans hkeeps', hoffers'.trans ?_⟩
    have hnext (e' : Env) (i : Nat) : (s.offer c n e.tid (inc e)).offerOf c n inc e' i = s.offerOf c n inc e' (i + 1) := by
      simp only [State.offerOf, hid, hkeeps.ctx, hkeeps.thr, Nat.add_comm, Nat.add_left_comm]
    simp only [hoffers, hnext, List.zipIdx_cons', List.map_cons, List.map_map, List.append_assoc, List.cons_append, List.nil_append]
    rfl

end

/-- The body of INCOFR for a declared incumbent. -/
def incofrBody (n : Nat) (a b : Base) (sm : Option SMod) : Body := fun s c fr who =>
  .done (who.foldl (fun s e => s.offer c n e.tid ⟨readBase e a, readBaseMod fr e sm b⟩) s) (who.map fun e => (e.tid, .next))

theorem exec_incofr_eq_runWord (n : BitVec 4) (a b : Base) (sm : Option SMod) (g : Guard) (s : State) : exec (.incofr n a b sm g) s =
    runWord (.incofr n a b sm g) g (fun fr e => rdOwn (baseX a) e ++ rdB fr sm (baseX b) e.lane) always
      (needInc n.toNat (incofrBody n.toNat a b sm)) s := rfl

/-! #### Reading and waiting for an incumbent (R171, R172) -/

/-- A word that reads an incumbent spoils its workgroup (15_counters R267), when it has a guard-active thread. -/
def State.incRead (s : State) (wk : Nat) (fr : Frag) : State := if fr.isEmpty then s else s.spoil wk

/-- What INCRD writes into a thread: the parts of the copy, and the key that the thread has read. -/
def incrdInto (d : XReg) (p : IncPart) (n : Nat) (v : Inc) (t : Thread) : Thread :=
  { t.wxs (incOut d p v) with incSeen := tset t.incSeen n v.key }

/-- The body of INCRD for a declared incumbent. -/
def incrdBody (d : XReg) (p : IncPart) (n : Nat) : Body := fun s c _ who =>
  if who.any fun e => s.incLags c.wg e.tid n then .held
  else .done (who.foldl (fun u e => u.modThr (thrKey c.wg e.tid) (incrdInto d p n (s.incCopy c.wg n))) (s.incRead c.wg who))
    (who.map fun e => (e.tid, .next))

theorem exec_incrd_eq_runWord (d : XReg) (p : IncPart) (n : BitVec 4) (g : Guard) (s : State) : exec (.incrd d p n g) s =
    runWord (.incrd d p n g) g (rdPlain (.incrd d p n g)) always (needInc n.toNat (incrdBody d p n.toNat)) s := rfl

theorem incrdBody_of_current {d : XReg} {p : IncPart} {n : Nat} {s : State} {c : Site} (fr : Frag) {who : Frag}
    (h : ∀ e ∈ who, s.incLags c.wg e.tid n = false) : incrdBody d p n s c fr who =
      .done (who.foldl (fun u e => u.modThr (thrKey c.wg e.tid) (incrdInto d p n (s.incCopy c.wg n))) (s.incRead c.wg who))
        (who.map fun e => (e.tid, .next)) :=
  if_neg (by simpa using h)

/-- The body of INCWAIT for a declared incumbent. -/
def incwaitBody (n : Nat) (b : Base) (sm : Option SMod) : Body := fun s c fr who =>
  .done (who.foldl (fun s e => s.modThr (thrKey c.wg e.tid) fun t => t.await (.incwait n (readBaseMod fr e sm b))) (s.incRead c.wg who))
    (who.map fun e => (e.tid, .stay))

theorem exec_incwait_eq_runWord (n : BitVec 4) (b : Base) (sm : Option SMod) (g : Guard) (s : State) : exec (.incwait n b sm g) s =
    runWord (.incwait n b sm g) g (fun fr e => rdB fr sm (baseX b) e.lane) always (needInc n.toNat (incwaitBody n.toNat b sm)) s := rfl

/-- A thread that issues a word and waits at it (R161). -/
theorem issue_await (t : Thread) (w : Wait) : (t.await w).issue = { t.issue with wait := w, shc := 0 } := by
  simp [Thread.await, Thread.issue]

/-! #### Bounds (R174) -/

/-- The body of BOUND for a declared incumbent. -/
def boundBody (n : Nat) (b : Base) (sm : Option SMod) : Body := fun s c fr who =>
  .done (who.foldl (fun s e => s.modThr (thrKey c.wg e.tid) fun t =>
      { t with bnd := readBaseMod fr e sm b, bsel := BitVec.ofNat 5 (16 + n) }) s) (who.map fun e => (e.tid, .next))

theorem exec_bound_eq_runWord (n : BitVec 4) (b : Base) (sm : Option SMod) (g : Guard) (s : State) : exec (.bound n b sm g) s =
    runWord (.bound n b sm g) g (fun fr e => rdB fr sm (baseX b) e.lane) always (needInc n.toNat (boundBody n.toNat b sm)) s := rfl

theorem exec_boundNone_eq_runWord (g : Guard) (s : State) : exec (.boundNone g) s =
    runWord (.boundNone g) g (rdPlain (.boundNone g)) always (threadBody fun _ t => { t with bnd := 0, bsel := 0 }) s := rfl

/-- Settles O14: with the incumbent declared each word runs its body, which sends an offer per thread, or changes each thread alone. -/
theorem incumbentWords : Obligations.IncumbentWords := by
  intro s c
  refine ⟨?incofr, ?incrd, ?incwait, ?bound, ?boundNone⟩
  case incofr =>
    intro n a b sm g h hdecl hfirst
    obtain ⟨hkeeps, hoffers⟩ := foldl_offer_sends s c n.toNat (fun e => ⟨readBase e a, readBaseMod (s.frag c g) e sm b⟩) (s.frag c g) hfirst
    obtain ⟨u, hu, hthr, hkeep, hcores, hall⟩ := goesOn_of (exec_incofr_eq_runWord n a b sm g s) h rfl
      ((needInc_of_decl hdecl _ _).trans rfl)
    generalize (s.frag c g).foldl _ s = v at hkeeps hoffers hthr hkeep hcores hall
    have hwg (k : Nat) : u.wg k = v.wg k := (congrArg (State.wg · k) hall).trans rfl
    have hcore (k : Nat) : v.core k = s.core k := (congrArg (State.core · k) hkeeps.frame).trans rfl
    refine ⟨u, hu, fun i hi => ?_, fun k hk => ?_, fun k => ?_, ?_, fun k => ?_, fun hp k => ?_, ?_⟩
    · rw [hthr i hi, hkeeps.thr]
    · rw [hkeep k hk, hkeeps.thr]
    · exact hcore k ▸ hcores k
    · exact (congrArg State.offers hall).trans hoffers
    · rw [hwg]
      exact hkeeps.wg k
    · rw [hwg]
      exact hkeeps.plain hp k
    · rw [hall]
      generalize u.threads = ts, u.cores = cs
      rw [hkeeps.frame]
  case incrd =>
    intro d p n g h hdecl hcur
    exact leaves_of (exec_incrd_eq_runWord d p n g s) h rfl (fun _ => incrdInto d p n.toNat (s.incCopy c.wg n.toNat)) (fun _ => .next)
      ((needInc_of_decl hdecl _ _).trans (incrdBody_of_current _ hcur)) (fun _ _ => rfl) fun _ _ => rfl
  case incwait =>
    intro n b sm g h hdecl
    exact leaves_of (exec_incwait_eq_runWord n b sm g s) h rfl
      (fun e t => t.await (.incwait n.toNat (readBaseMod (s.frag c g) e sm b))) (fun _ => .stay)
      ((needInc_of_decl hdecl _ _).trans rfl) (fun _ _ => rfl) fun _ _ => issue_await ..
  case bound =>
    intro n b sm g h hdecl
    exact leaves_of (exec_bound_eq_runWord n b sm g s) h rfl
      (fun e t => { t with bnd := readBaseMod (s.frag c g) e sm b, bsel := BitVec.ofNat 5 (16 + n.toNat) }) (fun _ => .next)
      ((needInc_of_decl hdecl _ _).trans rfl) (fun _ _ => rfl) fun _ _ => rfl
  case boundNone => exact fun g h => thread_of (exec_boundNone_eq_runWord g s) h rfl

end Sys2Proof.Machine

/-! ### Arrivals of messages (09_control R168 to R170, 07_lanes R135) -/

namespace Sys2Proof.Machine

/-! #### Offers (R169) -/

section
variable (s : State) (o : Offer)

theorem homeIncs_of_not_pod {x n : Nat} (h : (s.ctx x).launch.incPod n = false) : s.homeIncs x n = (s.ctx x).incs := by
  simp [State.homeIncs, h]

/-- What an accepted value's updates change: the updates on their way, and the numbers drawn. -/
theorem spread_frame (l : List Nat) (n : Nat) (v : Inc) :
    s.spread l n v = { s with sillage := (s.spread l n v).sillage, nextId := (s.spread l n v).nextId } := by
  have fold {α : Type} (f : State → α → State) (hf : ∀ s a, f s a = { s with sillage := (f s a).sillage, nextId := (f s a).nextId })
      (r : List α) (s : State) : r.foldl f s = { s with sillage := (r.foldl f s).sillage, nextId := (r.foldl f s).nextId } := by
    induction r generalizing s with
    | nil => rfl
    | cons a r ih =>
      rw [List.foldl_cons, ih, hf]
  unfold State.spread
  dsimp only
  rw [fold]
  · generalize State.sillage _ = a, State.nextId _ = b
    rw [fold]
    intro s p
    rw [fold]
    intro s b
    split <;> rfl
  · intro s p
    rw [fold]
    intro s b
    split <;> rfl

variable {s o}

/-- The arrival is noted in the context of an incumbent whose home is its own. -/
theorem setOffer_of_ctx {x n : Nat} (v : Nat × Nat) (hpod : (s.ctx x).launch.incPod n = false) (hctx : (tfind s.ctxs x).isSome) :
    s.setOffer x n v = s.modCtx x fun c => { c with offerAt := tset c.offerAt n v } := by
  simp [State.setOffer, hpod, hctx]

theorem setHome_of_ctx {x n : Nat} (m : Tbl Inc) (hpod : (s.ctx x).launch.incPod n = false) :
    s.setHome x n m = s.modCtx x fun c => { c with incs := m } := by
  simp [State.setHome, hpod]

theorem tfind_modCtx_isSome {x : Nat} (f : Ctx → Ctx) : (tfind (s.modCtx x f).ctxs x).isSome := by
  simp [State.modCtx, tmod, tfind_tset]

/-- Whether a home takes an offer (R169). -/
def Offer.taken (o : Offer) (isMax : Bool) (m : Tbl Inc) : Bool :=
  match tfind m o.n with
  | none => true
  | some x => better isMax o.inc.key x.key

/-- An offer that its home refuses is gone. -/
theorem takeOffer_refused (h : o.taken ((s.ctx o.ctx).launch.incMax o.n) (s.homeIncs o.ctx o.n) = false) :
    s.takeOffer o = { s with offers := s.offers.filter (·.id != o.id) } := by
  refine if_neg fun hc => ?_
  exact Bool.false_ne_true (h.symm.trans (Bool.and_eq_true _ _ ▸ hc).2)

/-- An offer that its home takes is its new value. -/
theorem takeOffer_taken (h : o.taken ((s.ctx o.ctx).launch.incMax o.n) (s.homeIncs o.ctx o.n) = true) (hctx : (tfind s.ctxs o.ctx).isSome) :
    s.takeOffer o = ({ s with offers := s.offers.filter (·.id != o.id) }.setHome o.ctx o.n
      (tset (s.homeIncs o.ctx o.n) o.n o.inc)).spread (s.sharers o.ctx o.n) o.n o.inc :=
  if_pos (Bool.and_eq_true _ _ ▸ ⟨hctx, h⟩)

/-- An offer at its context's home: what it takes becomes the home's value, all else there stays. -/
theorem takeOffer_home (hpod : (s.ctx o.ctx).launch.incPod o.n = false) (hctx : (tfind s.ctxs o.ctx).isSome) :
    let u := s.takeOffer o
    let m := (s.ctx o.ctx).incs
    u.offers = s.offers.filter (·.id != o.id) ∧ u.threads = s.threads ∧ u.mem = s.mem ∧ u.pods = s.pods ∧
      (u.ctx o.ctx).launch = (s.ctx o.ctx).launch ∧
      (u.ctx o.ctx).incs = if o.taken ((s.ctx o.ctx).launch.incMax o.n) m then tset m o.n o.inc else m := by
  have hhome := homeIncs_of_not_pod s hpod
  dsimp only
  cases htaken : o.taken ((s.ctx o.ctx).launch.incMax o.n) (s.ctx o.ctx).incs with
  | false =>
    rw [takeOffer_refused (by rwa [hhome])]
    exact ⟨rfl, rfl, rfl, rfl, rfl, rfl⟩
  | true =>
    have hset := setHome_of_ctx (s := { s with offers := s.offers.filter (·.id != o.id) }) (tset (s.ctx o.ctx).incs o.n o.inc) hpod
    have hself := State.modCtx_self { s with offers := s.offers.filter (·.id != o.id) } o.ctx fun c =>
      { c with incs := tset (s.ctx o.ctx).incs o.n o.inc }
    rw [takeOffer_taken (by rwa [hhome]) hctx, hhome, hset, spread_frame]
    exact ⟨rfl, rfl, rfl, rfl, (congrArg Ctx.launch hself).trans rfl, (congrArg Ctx.incs hself).trans (if_pos rfl).symm⟩

theorem tfind_taken (isMax : Bool) (m : Tbl Inc) : tfind (if o.taken isMax m then tset m o.n o.inc else m) o.n =
    match tfind m o.n with
    | none => some o.inc
    | some h => if better isMax o.inc.key h.key then some o.inc else some h := by
  unfold Offer.taken
  cases hfound : tfind m o.n with
  | none => simp [tfind_tset]
  | some h =>
    dsimp only
    split <;> simp [tfind_tset, hfound]

theorem tfind_taken_ne {n : Nat} (hn : n ≠ o.n) (isMax : Bool) (m : Tbl Inc) :
    tfind (if o.taken isMax m then tset m o.n o.inc else m) n = tfind m n := by
  split
  · rw [tfind_tset, if_neg hn.symm]
  · rfl

end

section
variable {s : State} {id : Nat} {o : Offer}

/-- An offer whose turn it is is noted at its home and taken there. -/
theorem exec_offerArrival_of_turn (hfound : s.offers.find? (fun p => p.id == id) = some o)
    (hfirst : ∀ p ∈ s.offers, p.thr = o.thr → o.id ≤ p.id) (hturn : s.offerLate o = false) :
    exec (.offerArrival id) s = .next ((s.setOffer o.ctx o.n (s.clockOf (s.homePkg o.ctx o.n), o.ord)).takeOffer o) := by
  have hnone : (s.offers.any fun p => p.thr == o.thr && decide (p.id < o.id)) = false := by
    simpa using hfirst
  change execOfferArrival id s = _
  simp [execOfferArrival, hfound, hnone, hturn]

end

/-! #### Copies (R170) -/

section
variable (isMax : Bool) (m : Sillage)

/-- The bindings of a core or unit after a value reached the copies of its context. -/
def Sillage.reach (l : List Bind) : List Bind := l.map fun b => if b.ctx == m.ctx then b.take isMax m.n m.inc else b

variable {s : State} {id : Nat} {m}

theorem exec_sillageDelivery_of_found (hfound : s.sillage.find? (fun x => x.id == id) = some m) :
    exec (.sillageDelivery id) s = .next (
      let s' := { s with sillage := s.sillage.filter (·.id != id) }
      let isMax := (s.ctx m.ctx).launch.incMax m.n
      if m.unit then s'.modUnit m.key fun u => { u with binds := m.reach isMax u.binds }
      else s'.modCore m.key fun c => { c with binds := m.reach isMax c.binds }) := by
  change execSillageDelivery id s = _
  simp only [execSillageDelivery, hfound]
  rfl

end

/-! #### Forwarding messages (R135) -/

section
variable {s : State} {id : Nat} {m : FwdMsg}

theorem exec_forwardArrival_of_turn (hfound : s.fwds.find? (fun x => x.id == id) = some m)
    (hfirst : ∀ n ∈ s.fwds, n.core = m.core → n.ch = m.ch → m.id ≤ n.id) (hquar : (s.core m.core).quar = false) :
    exec (.forwardArrival id) s = .next ({ s with fwds := s.fwds.filter (·.id != id) }.modCore m.core fun k =>
      { k with fwd := lset k.fwd m.ch (k.fwd.getD m.ch [] ++ [m.msg]) }) := by
  have hnone : (s.fwds.any fun n => n.core == m.core && n.ch == m.ch && decide (n.id < m.id)) = false := by
    simpa using hfirst
  change execForwardArrival id s = _
  simp only [execForwardArrival, hfound, hnone]
  exact congrArg Host.Outcome.next (if_neg (Bool.eq_false_iff.mp hquar))

end

/-- Settles O44: an offer that has its turn is taken from its way and compared at its home, which is its context's; a value meets the
bindings of its core or unit; a message goes to the end of its channel. -/
theorem messagesArrive : Obligations.MessagesArrive := by
  intro s id
  refine ⟨?offer, ?copy, ?forward⟩
  case offer =>
    intro o hfound hfirst hctx hturn hpod
    have hid : o.id = id := by simpa using List.find?_some hfound
    have hexec := exec_offerArrival_of_turn hfound hfirst hturn
    have hset := setOffer_of_ctx (s.clockOf (s.homePkg o.ctx o.n), o.ord) hpod hctx
    generalize s.setOffer o.ctx o.n (s.clockOf (s.homePkg o.ctx o.n), o.ord) = t at hexec hset
    have ht : (t.ctx o.ctx).launch = (s.ctx o.ctx).launch ∧ (t.ctx o.ctx).incs = (s.ctx o.ctx).incs := by
      rw [hset, State.modCtx_self]
      exact ⟨rfl, rfl⟩
    obtain ⟨hlaunch, hincs⟩ := ht
    have hkeep : t.offers = s.offers ∧ t.threads = s.threads ∧ t.mem = s.mem ∧ t.pods = s.pods := by
      rw [hset]
      exact ⟨rfl, rfl, rfl, rfl⟩
    obtain ⟨hoffers, hthreads, hmem, hpods⟩ := hkeep
    obtain ⟨hoffers', hthreads', hmem', hpods', hlaunch', hincs'⟩ := takeOffer_home (s := t) (o := o) (by rw [hlaunch, hpod])
      (by rw [hset]; exact tfind_modCtx_isSome _)
    rw [hlaunch, hincs] at hincs'
    refine ⟨_, hexec, by rw [hoffers', hoffers, hid], ?_, fun n hn => ?_, by rw [hthreads', hthreads], by rw [hmem', hmem]⟩
    · rw [homeIncs_of_not_pod _ (by rw [hlaunch', hlaunch, hpod]), homeIncs_of_not_pod s hpod, hincs']
      exact (tfind_taken ..).trans rfl
    · unfold State.homeIncs
      dsimp only
      rw [hlaunch', hlaunch, hpods', hpods, hincs']
      split
      · rfl
      · exact tfind_taken_ne hn ..
  case copy =>
    intro m hfound
    have hexec := exec_sillageDelivery_of_found hfound
    intro upd
    have hreach (l : List Bind) : m.reach ((s.ctx m.ctx).launch.incMax m.n) l = l.map upd := by
      refine List.map_congr_left fun b _ => ?_
      simp only [upd, beq_iff_eq]
      rfl
    cases hunit : m.unit with
    | true =>
      rw [hunit, if_pos rfl] at hexec
      refine ⟨_, hexec, rfl, fun k => (if_neg fun h => Bool.false_ne_true h.1.symm).symm, fun k => ?_, rfl⟩
      rw [State.modUnit_unit]
      by_cases hk : k = m.key
      · rw [if_pos hk.symm, if_pos ⟨rfl, hk⟩, hreach, hk]
        rfl
      · rw [if_neg (Ne.symm hk), if_neg fun h => hk h.2]
        rfl
    | false =>
      rw [hunit, if_neg Bool.false_ne_true] at hexec
      refine ⟨_, hexec, rfl, fun k => ?_, fun k => (if_neg fun h => Bool.false_ne_true h.1).symm, rfl⟩
      rw [State.modCore_core]
      by_cases hk : k = m.key
      · rw [if_pos hk.symm, if_pos ⟨rfl, hk⟩, hreach, hk]
        rfl
      · rw [if_neg (Ne.symm hk), if_neg fun h => hk h.2]
        rfl
  case forward =>
    intro m hfound hfirst hquar hch
    refine ⟨_, exec_forwardArrival_of_turn hfound hfirst hquar, rfl, fun k => ?_, fun c => ?_, rfl⟩
    · rw [State.modCore_core]
      by_cases hk : k = m.core
      · rw [if_pos hk.symm, if_pos hk, hk]
        rfl
      · rw [if_neg (Ne.symm hk), if_neg hk]
        rfl
    · rw [State.modCore_self]
      refine (getD_lset hch ((s.core m.core).fwd.getD m.ch [] ++ [m.msg]) c []).trans ?_
      by_cases hc : c = m.ch
      · rw [if_pos hc, if_pos hc, hc]
      · rw [if_neg hc, if_neg hc, List.append_nil]

end Sys2Proof.Machine

/-! ### A workgroup larger than the keys of its threads (09_control R165)

A thread's key gives its workgroup as the quotient by 2,048. `ThreadEventsStep` does not ask that a workgroup has at most 2,048 threads: in
one that has more, thread 2,048 bears the key of the next workgroup's first thread. When its barrier releases and its loads are back, its
acquire ends at the I-cycle of that workgroup's package, not of its own. -/

namespace Sys2Proof.Machine

/-- The participant of barrier 0, which has arrived there. -/
def overThread : Thread := { join := 1, arrive := 1, wait := .rwait 0 }

/-- A workgroup of 2,049 threads in package 0, whose last one takes part in a barrier, before a workgroup in package 1, whose clock is one
I-cycle ahead. -/
def overState : State :=
  { State.reset with
    pkgs := [(1, { clock := 1 })], gangs := [(0, { st := .running })], wgs := [(0, { size := 2049 }), (1, { pkg := 1 })],
    threads := [(2048, overThread)] }

/-- The threads of workgroup 0 other than the last one are as they start. -/
theorem overState_thr {i : Nat} (h : i < 2048) : overState.thr (thrKey 0 i) = {} := by
  have hkey : 2048 ≠ thrKey 0 i := by
    simp only [thrKey]
    omega
  simp [State.thr, overState, tget, tfind, hkey]

theorem overState_participants :
    ((overState.liveTids 0).filter fun i => (overState.thr (thrKey 0 i)).join.getLsbD 0) = [2048] := by
  have hfirst : (((List.range 2048).filter fun i => (overState.thr (thrKey 0 i)).live).filter fun i =>
      (overState.thr (thrKey 0 i)).join.getLsbD 0) = [] := by
    refine List.filter_eq_nil_iff.mpr fun i hi => ?_
    rw [overState_thr (List.mem_range.mp (List.mem_of_mem_filter hi))]
    decide
  have htids : overState.tidsOf 0 = List.range 2048 ++ [2048] := List.range_succ
  rw [State.liveTids, htids, List.filter_append, List.filter_append, hfirst]
  decide

theorem exec_rbRelease (wk n : Nat) (s : State) : exec (.rbRelease wk n) s = execRbRelease wk n s := rfl

/-- The participant stands since the I-cycle of package 1 afterwards. -/
theorem overState_since : (match exec (.rbRelease 0 0) overState with
    | .next u => (u.thr 2048).since == 1
    | _ => false) = true := by
  rw [exec_rbRelease, execRbRelease, overState_participants]
  decide

/-- Refutes O43: the thread released stands since I-cycle 1 of package 1, and its own package, package 0, is in I-cycle 0. -/
theorem not_threadEventsStep : ¬ Obligations.ThreadEventsStep := by
  unfold Obligations.ThreadEventsStep
  intro h
  obtain ⟨hrelease, -⟩ := h overState
  have hps := overState_participants
  obtain ⟨u, hu, hthr, -⟩ := hrelease 0 0 (by decide) (by rw [hps]; decide) (by rw [hps]; decide) (by rw [hps]; decide)
  rw [hps] at hthr
  have hsince : (u.thr 2048).since = 0 := congrArg Thread.since (hthr (2048, 0) (by decide))
  have hone := overState_since
  rw [hu] at hone
  change ((u.thr 2048).since == 1) = true at hone
  rw [hsince] at hone
  exact absurd hone (by decide)

end Sys2Proof.Machine

/-! ### Words whose guard-active threads all trap (10_trap_state R179 to R181) -/

namespace Sys2Proof.Machine

/-- The word's body changes nothing and gives every guard-active thread its own trap, of a cause that never halts. -/
structure TrapsAll (s : State) (c : Site) (g : Guard) (i : Instr) (info : Env → TrapInfo) : Prop where
  runs : ∃ rd ok body, exec i s = runWord i g rd ok body s ∧ ok s c = true ∧
    body s c (s.frag c g) (s.frag c g) = .done s ((s.frag c g).map fun e => (e.tid, .trap (info e)))
  pc : ∀ e, (info e).pc = c.pc
  cause : ∀ e, (info e).cause ∈ [.badpc, .noinc, .access, .tile]

theorem halts_of_mem {x : Cause} (h : x ∈ [.badpc, .noinc, .access, .tile]) (haltd : Bool) : x.halts haltd = false := by
  simp only [List.mem_cons, List.not_mem_nil, or_false] at h
  obtain rfl | rfl | rfl | rfl := h <;> rfl

theorem ne_bkpt_of_mem {x : Cause} (h : x ∈ [.badpc, .noinc, .access, .tile]) : (x == .bkpt) = false := by
  simp only [List.mem_cons, List.not_mem_nil, or_false] at h
  obtain rfl | rfl | rfl | rfl := h <;> rfl

/-- Such a word puts each of its guard-active threads into its handler and does nothing else. -/
theorem TrapsAll.enters {s : State} {c : Site} {g : Guard} {i : Instr} {info : Env → TrapInfo} (h : TrapsAll s c g i info)
    (hi : s.Issues c i) (hh : ∀ j ∈ c.tids, (s.thr (thrKey c.wg j)).handler = false) :
    ∃ u, exec i s = .next u ∧ OnlyThreads s c g (fun e t => t.enter (info e) (s.launchOf (s.wg c.wg)).vec
      (s.sibMask c.wg ((s.frag c g).map Env.tid)) false) u := by
  obtain ⟨rd, ok, body, hexec, hok, hbody⟩ := h.runs
  obtain ⟨u, hu, hleaves⟩ := trapWord_of hexec hi hok info hbody hh fun e _ => halts_of_mem (h.cause e) _
  refine ⟨u, hu, hleaves.congr fun e _ => ?_⟩
  have hbefore : (info e).ofIssued c = false := by
    simp [TrapInfo.ofIssued, h.pc e, ne_bkpt_of_mem (h.cause e)]
  simp only [hbefore]
  rfl

/-! #### Misaligned jumps (09_control R163) -/

section
variable {s : State} {c : Site} {g : Guard}

/-- A jump none of whose targets is aligned, with or without a link. -/
theorem jumpBody_misaligned (tg : Site → Frag → Env → W64) (link : Option XReg) (fr who : Frag)
    (h : ∀ e ∈ who, (tg c fr e).toNat % 8 ≠ 0) :
    jumpBody tg link s c fr who = .done s (who.map fun e => (e.tid, .trap { cause := .badpc, pc := c.pc, addr := tg c fr e })) := by
  have hfates : (who.map fun e => (e.tid, toTarget c (tg c fr e))) =
      who.map fun e => (e.tid, .trap { cause := .badpc, pc := c.pc, addr := tg c fr e }) :=
    List.map_congr_left fun e he => by rw [toTarget_misaligned c (h e he)]
  cases link with
  | none => simp only [jumpBody, hfates]
  | some d =>
    simp only [jumpBody, hfates]
    congr 1
    refine foldl_fixed _ _ s fun p hp => ?_
    obtain ⟨e, -, rfl⟩ := List.mem_map.mp hp
    rfl

theorem jump_trapsAll {i : Instr} {b : Base} (hi : i = .ret b g ∨ i = .jmpi b g ∨ ∃ d, i = .jmpiLink d b g)
    (h : ∀ e ∈ s.frag c g, (readBase e b).toNat % 8 ≠ 0) :
    TrapsAll s c g i fun e => { cause := .badpc, pc := c.pc, addr := readBase e b } := by
  refine ⟨?_, fun _ => rfl, fun _ => by simp⟩
  have hbody (link : Option XReg) := jumpBody_misaligned (s := s) (c := c) (fun _ _ e => readBase e b) link (s.frag c g) (s.frag c g) h
  obtain rfl | rfl | ⟨d, rfl⟩ := hi
  · exact ⟨_, _, _, exec_ret_eq_runWord s g b, rfl, hbody none⟩
  · exact ⟨_, _, _, exec_jmpi_eq_runWord s g b, rfl, hbody none⟩
  · exact ⟨_, _, _, exec_jmpiLink_eq_runWord s g b d, rfl, hbody (some d)⟩

/-! #### Words of an undeclared incumbent (09_control R168) -/

theorem needInc_of_undeclared {n : Nat} (h : (s.launchOf (s.wg c.wg)).incDecl n = false) (b : Body) (fr who : Frag) :
    needInc n b s c fr who = .done s (who.map fun e => (e.tid, .trap { cause := .noinc, pc := c.pc, addr := BitVec.ofNat 64 n })) :=
  if_neg (Bool.eq_false_iff.mp h)

theorem incumbent_trapsAll {i : Instr} {n : BitVec 4}
    (hi : (∃ a b sm, i = .incofr n a b sm g) ∨ (∃ d p, i = .incrd d p n g) ∨ (∃ b sm, i = .incwait n b sm g) ∨
      ∃ b sm, i = .bound n b sm g)
    (h : (s.launchOf (s.wg c.wg)).incDecl n.toNat = false) :
    TrapsAll s c g i fun _ => { cause := .noinc, pc := c.pc, addr := BitVec.ofNat 64 n.toNat } := by
  refine ⟨?_, fun _ => rfl, fun _ => by simp⟩
  have hbody (b : Body) := needInc_of_undeclared h b (s.frag c g) (s.frag c g)
  obtain ⟨a, b, sm, rfl⟩ | ⟨d, p, rfl⟩ | ⟨b, sm, rfl⟩ | ⟨b, sm, rfl⟩ := hi
  · exact ⟨_, _, _, exec_incofr_eq_runWord n a b sm g s, rfl, hbody _⟩
  · exact ⟨_, _, _, exec_incrd_eq_runWord d p n g s, rfl, hbody _⟩
  · exact ⟨_, _, _, exec_incwait_eq_runWord n b sm g s, rfl, hbody _⟩
  · exact ⟨_, _, _, exec_bound_eq_runWord n b sm g s, rfl, hbody _⟩

/-! #### Misaligned accesses (13_memory_instr R228) -/

/-- A word of one access of `n` bytes in each thread, at an M-form's address. -/
def SingleAccess (m : MAddr) (n : Nat) (plan : Bool → Env → List Elem) : Prop :=
  ∀ b e, ∃ x : Elem, plan b e = [x] ∧ x.addr = mAddr e m n ∧ x.size = n

theorem check_misaligned (wk tid : Nat) (x : Elem) (h : x.addr.toNat % x.size ≠ 0) :
    s.check wk tid [x] = (.refuse 7 x.addr, s) := by
  simp only [State.check, State.findAll, if_pos h]
  rfl

theorem checkAll_refused (c : Site) {l : List (Env × List Elem)} {a : Env → W64}
    (h : ∀ p ∈ l, s.check c.wg p.1.tid p.2 = (.refuse 7 (a p.1), s)) :
    s.checkAll c l = (l.map fun p => (p.1, p.2, .refuse 7 (a p.1)), s) := by
  induction l with
  | nil => rfl
  | cons p r ih =>
    simp only [State.checkAll, h p List.mem_cons_self, ih fun q hq => h q (List.mem_cons_of_mem _ hq), List.map_cons]

theorem fenceFirst_none {tids : List Nat} {o : MO} (h : ∀ t ∈ tids, s.orderOk (thrKey c.wg t) o = true) :
    s.fenceFirst c tids o = none := by
  have hplaced : (o.o == .sc && tids.any fun t => !(s.thr (thrKey c.wg t)).scPlaced) = false := by
    rw [Bool.and_eq_false_imp]
    intro hsc
    rw [List.any_eq_false]
    intro t ht
    have := h t ht
    simp only [State.orderOk, eq_of_beq hsc] at this
    simp [this]
  have hall : (tids.all fun t => s.orderOk (thrKey c.wg t) o) = true := List.all_eq_true.mpr h
  simp only [State.fenceFirst, hplaced, hall, Bool.false_eq_true, if_false, if_true]

/-- One thread of a memory word, after those before it. -/
def Site.memStep (c : Site) (fr : Frag) (o : MO) (acc : State × List (Nat × Fin)) (x : Env × List Elem × Chk) : State × List (Nat × Fin) :=
  let r := acc.1.memThread c fr x.1.tid x.2.1 o x.2.2 false
  (r.1, acc.2 ++ [(x.1.tid, r.2)])

/-- A memory word whose order holds nothing back and whose checks hold nothing back: its threads, one after another. -/
theorem memBody_of_checked {plan : Bool → Env → List Elem} {o : MO} {fr who : Frag} {u : State} {ks : List (Env × List Elem × Chk)}
    (hfence : s.fenceFirst c (who.map fun e => e.tid) o = none)
    (hcheck : s.checkAll c (who.map fun e => (e, plan (e.tid == (fr.headD default).tid) e)) = (ks, u))
    (hheld : u.heldElems c ks = false) :
    memBody plan o s c fr who = .done (ks.foldl (c.memStep fr o) (u, [])).1 (ks.foldl (c.memStep fr o) (u, [])).2 := by
  unfold memBody
  rw [hfence]
  dsimp only
  rw [hcheck]
  dsimp only
  rw [hheld]
  rfl

/-- Refused threads trap at their addresses, and nothing changes. -/
theorem foldl_memStep_refused (fr : Frag) (o : MO) (a : Env → W64) (l : List (Env × List Elem)) (fin : List (Nat × Fin)) :
    (l.map fun p => (p.1, p.2, Chk.refuse 7 (a p.1))).foldl (c.memStep fr o) (s, fin) =
      (s, fin ++ l.map fun p => (p.1.tid, .trap { cause := .access, detail := 7, pc := c.pc, addr := a p.1 })) := by
  induction l generalizing fin with
  | nil => simp
  | cons p r ih => simp [Site.memStep, State.memThread, ih]

theorem memBody_misaligned {plan : Bool → Env → List Elem} {m : MAddr} {n : Nat} (hplan : SingleAccess m n plan) {o : MO} (fr : Frag)
    {who : Frag} (ho : ∀ e ∈ who, s.orderOk (thrKey c.wg e.tid) o = true) (h : ∀ e ∈ who, (mAddr e m n).toNat % n ≠ 0) :
    memBody plan o s c fr who =
      .done s (who.map fun e => (e.tid, .trap { cause := .access, detail := 7, pc := c.pc, addr := mAddr e m n })) := by
  have hfence : s.fenceFirst c (who.map fun e => e.tid) o = none := fenceFirst_none fun t ht => by
    obtain ⟨e, he, rfl⟩ := List.mem_map.mp ht
    exact ho e he
  have hcheck : ∀ p ∈ who.map fun e => (e, plan (e.tid == (fr.headD default).tid) e),
      s.check c.wg p.1.tid p.2 = (.refuse 7 (mAddr p.1 m n), s) := by
    intro p hp
    obtain ⟨e, he, rfl⟩ := List.mem_map.mp hp
    obtain ⟨x, hx, haddr, hsize⟩ := hplan (e.tid == (fr.headD default).tid) e
    rw [hx, ← haddr]
    exact check_misaligned _ _ x (by rw [haddr, hsize]; exact h e he)
  have hheld (l : List (Env × List Elem)) : s.heldElems c (l.map fun p => (p.1, p.2, Chk.refuse 7 (mAddr p.1 m n))) = false := by
    simp [State.heldElems]
  rw [memBody_of_checked hfence (checkAll_refused c (a := fun e => mAddr e m n) hcheck) (hheld _), foldl_memStep_refused (a := fun e => mAddr e m n)]
  simp [Function.comp_def]

theorem access_trapsAll {i : Instr} {o : MO} {m : MAddr} {n : Nat}
    (hi : (∃ d t, i = .ld d m t o ∧ n = t.w.bytes) ∨ (∃ b w, i = .st m b w o ∧ n = w.bytes) ∨
      (∃ op d b w sg, i = .atom op d m b w sg o ∧ n = (w2 w).bytes) ∨ (∃ d b w, i = .acas d m b w o ∧ n = (w2 w).bytes) ∨
      (∃ d, i = .ldfe d m o ∧ n = 8) ∨ (∃ b, i = .stfe m b o ∧ n = 8) ∨ (∃ d, i = .fetagRead d m o ∧ n = 8) ∨
      (i = .fetagFill m o ∧ n = 8) ∨ (i = .fetagEmpty m o ∧ n = 8))
    (ho : ∀ e ∈ s.frag c m.g, s.orderOk (thrKey c.wg e.tid) o = true) (h : ∀ e ∈ s.frag c m.g, (mAddr e m n).toNat % n ≠ 0) :
    TrapsAll s c m.g i fun e => { cause := .access, detail := 7, pc := c.pc, addr := mAddr e m n } := by
  refine ⟨?_, fun _ => rfl, fun _ => by simp⟩
  suffices hword : ∃ plan, exec i s = runWord i m.g (rdPlain i) always (memBody plan o) s ∧ SingleAccess m n plan by
    obtain ⟨plan, hexec, hplan⟩ := hword
    exact ⟨_, _, _, hexec, rfl, memBody_misaligned hplan _ ho h⟩
  obtain ⟨d, t, rfl, rfl⟩ | ⟨b, w, rfl, rfl⟩ | ⟨op, d, b, w, sg, rfl, rfl⟩ | ⟨d, b, w, rfl, rfl⟩ | ⟨d, rfl, rfl⟩ | ⟨b, rfl, rfl⟩ |
    ⟨d, rfl, rfl⟩ | ⟨rfl, rfl⟩ | ⟨rfl, rfl⟩ := hi
  all_goals exact ⟨_, rfl, fun _ _ => ⟨_, rfl, rfl, rfl⟩⟩

/-! #### Misaligned records (14_engines R240) -/

theorem eBody_misaligned (k : CKind) {a : EArgs} {p : Env} (fr rest : Frag)
    (h : (BitVec.ofInt 64 ((p.ky a.a.toNat).toNat + 8 * a.off.toInt)).toNat % 128 ≠ 0) :
    eBody k a s c fr (p :: rest) = .done s ((p :: rest).map fun e => (e.tid, .trap
      { cause := .access, detail := 7, pc := c.pc, addr := BitVec.ofInt 64 ((p.ky a.a.toNat).toNat + 8 * a.off.toInt) })) := by
  have hrec : s.readRec c p.tid (BitVec.ofInt 64 ((p.ky a.a.toNat).toNat + 8 * a.off.toInt)) 128 = .refuse 7 _ s := if_pos h
  simp only [eBody, hrec]
  rfl

theorem record_trapsAll {i : Instr} {a : EArgs} {p : Env} {rest : Frag}
    (hi : i ∈ [.tcopy a, .tgather a, .cavred a, .loopnest a, .send a, .search a, Instr.hspub a]) (hfrag : s.frag c a.g = p :: rest)
    (h : (BitVec.ofInt 64 ((p.ky a.a.toNat).toNat + 8 * a.off.toInt)).toNat % 128 ≠ 0) :
    TrapsAll s c a.g i fun _ => { cause := .access, detail := 7, pc := c.pc, addr := BitVec.ofInt 64 ((p.ky a.a.toNat).toNat + 8 * a.off.toInt) } := by
  refine ⟨?_, fun _ => rfl, fun _ => by simp⟩
  suffices hword : ∃ k, exec i s = runWord i a.g (rdPlain i) always (eBody k a) s by
    obtain ⟨k, hexec⟩ := hword
    exact ⟨_, _, _, hexec, rfl, by rw [hfrag]; exact eBody_misaligned k _ rest h⟩
  simp only [List.mem_cons, List.not_mem_nil, or_false] at hi
  obtain rfl | rfl | rfl | rfl | rfl | rfl | rfl := hi
  all_goals exact ⟨_, rfl⟩

/-! #### Products without a plane tile (08_planes R150, R153) -/

theorem mmaTile_of_not_plane (k : PKind) (acc : AReg) (ta tb : BitVec 4) {a : W64} (b : W64) (h : tdKind a ∉ [1, 2]) :
    mmaTile k acc ta tb a b = .bad 1 ta.toNat := by
  simp only [List.mem_cons, List.not_mem_nil, or_false, not_or] at h
  simp [mmaTile, h.1, h.2]

theorem queueBody_of_bad (pair : Bool) {check : State → Site → Env → Tile} {r n : Nat} (h : ∀ e, check s c e = .bad r n) (fr who : Frag) :
    queueBody pair check s c fr who = .done s (tileTrap c who r n) := by
  cases who with
  | nil => rfl
  | cons e rest => simp only [queueBody, h]

theorem product_trapsAll {i : Instr} {acc : AReg} {ta tb : BitVec 4} {pair : Bool} (hi : i = .mma acc ta tb pair g ∨ i = .mmac acc ta tb pair g)
    (hplane : (s.launchOf (s.wg c.wg)).plane = true) (h : tdKind (s.slot c ta) ∉ [1, 2]) :
    TrapsAll s c g i fun _ => { cause := .tile, pc := c.pc, addr := BitVec.ofNat 64 (256 + ta.toNat) } := by
  refine ⟨?_, fun _ => rfl, fun _ => by simp⟩
  suffices hword : ∃ k, exec i s = runWord i g (rdPlain i) planeOk (queueBody pair (mmaCheck k acc ta tb)) s by
    obtain ⟨k, hexec⟩ := hword
    exact ⟨_, _, _, hexec, hplane, (queueBody_of_bad pair (fun _ => mmaTile_of_not_plane k acc ta tb _ h) _ _).trans rfl⟩
  obtain rfl | rfl := hi
  all_goals exact ⟨_, rfl⟩

end

end Sys2Proof.Machine

/-! ### Words that are not legal in their kernel (03_encoding R68) -/

namespace Sys2Proof.Machine

/-! #### The words' meanings, by their shapes -/

section
variable {i : Instr} {g : Guard} {s : State} {c : Site}

theorem runWord_of_not_wordOk {rd : Frag → Env → Reads} {ok : State → Site → Bool} {body : Body} (hc : s.cur = some c)
    (h : s.wordOk c i = false) : runWord i g rd ok body s = .next (s.illegal c) := runWord_illegal hc (by simp [h])

theorem runLane_of_not_wordOk {sm : Option SMod} {bx : List Nat} {f : Frag → Env → Out} (hc : s.cur = some c)
    (h : s.wordOk c i = false) : runLane i g sm bx f s = .next (s.illegal c) := runWord_of_not_wordOk hc h

theorem runF3_of_not_wordOk {o : F3} {w : Width} {f : Nat → Nat → Out} (hc : s.cur = some c) (h : s.wordOk c i = false) :
    runF3 i o w f s = .next (s.illegal c) := runLane_of_not_wordOk hc h

theorem runF3b_of_not_wordOk {o : F3} {w : Width} {f : Env → Nat → Nat → Out} (hc : s.cur = some c) (h : s.wordOk c i = false) :
    runF3b i o w f s = .next (s.illegal c) := runLane_of_not_wordOk hc h

theorem runF2_of_not_wordOk {o : F2} {w : Width} {f : Nat → Out} (hc : s.cur = some c) (h : s.wordOk c i = false) :
    runF2 i o w f s = .next (s.illegal c) := runLane_of_not_wordOk hc h

theorem runFP_of_not_wordOk {o : FP} {w : Width} {f : Nat → Nat → Bool × W32} (hc : s.cur = some c) (h : s.wordOk c i = false) :
    runFP i o w f s = .next (s.illegal c) := runLane_of_not_wordOk hc h

theorem runDiv_of_not_wordOk {o : F3} {w : Width} {f : Nat → Nat → Out} (hc : s.cur = some c) (h : s.wordOk c i = false) :
    runDiv i o w f s = .next (s.illegal c) := runLane_of_not_wordOk hc h

theorem runFl3_of_not_wordOk {o : F3} {f : NFmt} {k : Env → Nat → Nat → Out} (hc : s.cur = some c) (h : s.wordOk c i = false) :
    runFl3 i o f k s = .next (s.illegal c) := runLane_of_not_wordOk hc h

theorem runFl2_of_not_wordOk {o : F2} {f : NFmt} {k : Env → Nat → Out} (hc : s.cur = some c) (h : s.wordOk c i = false) :
    runFl2 i o f k s = .next (s.illegal c) := runLane_of_not_wordOk hc h

theorem runPair_of_not_wordOk {a b : Half} (hc : s.cur = some c) (h : s.wordOk c i = false) : runPair i a b s = .next (s.illegal c) := by
  simp only [runPair, hc, h, Bool.not_false, if_true]

end

/-! #### The words, group by group (R54) -/

section
variable {i : Instr} {s : State} {c : Site} (hc : s.cur = some c) (h : s.wordOk c i = false)
include hc h

theorem exec_group0_of_not_wordOk (hg : i.group = some 0) : exec i s = .next (s.illegal c) := by
  cases i
  case add | sub | mul | min | max | and | or | xor | andn | addc | mulh =>
    dsimp only [exec]
    exact runF3_of_not_wordOk hc h
  case div | rem =>
    dsimp only [exec]
    exact runDiv_of_not_wordOk hc h
  case shl | shr | sar | rol | bfx | bfi =>
    dsimp only [exec]
    exact runF3b_of_not_wordOk hc h
  case abs | popc | clz | ctz | brev =>
    dsimp only [exec]
    exact runF2_of_not_wordOk hc h
  case cmp =>
    dsimp only [exec]
    exact runFP_of_not_wordOk hc h
  case sel | mad | lea | moviI64 | addi =>
    dsimp only [exec]
    exact runLane_of_not_wordOk hc h
  case mov d b sm g t =>
    dsimp only [exec, execMov]
    cases d with
    | x n => exact runLane_of_not_wordOk hc h
    | k n => exact runWord_of_not_wordOk hc h
  case movi d g v =>
    dsimp only [exec, execMovi]
    cases d with
    | x n => exact runLane_of_not_wordOk hc h
    | k n => exact runWord_of_not_wordOk hc h
  all_goals cases hg

theorem exec_group1_of_not_wordOk (hg : i.group = some 1) : exec i s = .next (s.illegal c) := by
  cases i
  case fadd | fsub | fmin | fmax =>
    dsimp only [exec]
    exact runFl3_of_not_wordOk hc h
  case fclass | frcp | fsqrt | frsq | fexp2 | flog2 | fsint | fcost | frnd | fcvti =>
    dsimp only [exec]
    exact runFl2_of_not_wordOk hc h
  case fmul | ffma | fscaleacc | fcmp | fcvt =>
    dsimp only [exec]
    exact runLane_of_not_wordOk hc h
  case fpack =>
    dsimp only [exec]
    exact runF3b_of_not_wordOk hc h
  case funpk =>
    dsimp only [exec]
    exact runF3_of_not_wordOk hc h
  case icvtf =>
    dsimp only [exec]
    exact runF2_of_not_wordOk hc h
  case fdot2 =>
    dsimp only [exec, execFdot2]
    exact runLane_of_not_wordOk hc h
  case ordkey o t =>
    dsimp only [exec, execOrdkey]
    cases t with
    | int t => exact runF2_of_not_wordOk hc h
    | flt t => exact runFl2_of_not_wordOk hc h
  all_goals cases hg

theorem exec_group2_of_not_wordOk (hg : i.group = some 2) : exec i s = .next (s.illegal c) := by
  cases i
  case perm =>
    dsimp only [exec, execPerm]
    exact runWord_of_not_wordOk hc h
  case shufx =>
    dsimp only [exec, execShufx]
    exact runWord_of_not_wordOk hc h
  case matchL =>
    dsimp only [exec, execMatchL]
    exact runWord_of_not_wordOk hc h
  case lscan | fwds | fwdr | reduce | scan | cavity =>
    dsimp only [exec]
    exact runWord_of_not_wordOk hc h
  case elect | vote =>
    dsimp only [exec]
    exact runLane_of_not_wordOk hc h
  all_goals cases hg

theorem exec_group3_of_not_wordOk (hg : i.group = some 3) : exec i s = .next (s.illegal c) := by
  cases i
  case tdesc | plane | align | cbload | mma | mmac | accz | accrd | accst | mmawait =>
    dsimp only [exec]
    exact runWord_of_not_wordOk hc h
  all_goals cases hg

theorem exec_group4_of_not_wordOk (hg : i.group = some 4) : exec i s = .next (s.illegal c) := by
  cases i
  case bra | brc | call | shield | ret | jmpi | jmpiLink | rjoin | rwait | exit | nop | yield | bound | boundNone | incofr | incrd |
      incwait | cancel =>
    dsimp only [exec]
    exact runWord_of_not_wordOk hc h
  all_goals cases hg

theorem exec_group5_of_not_wordOk (hg : i.group = some 5) : exec i s = .next (s.illegal c) := by
  cases i
  case ld | st | ldv | stv | acas | ldfe | stfe | fetagRead | fetagFill | fetagEmpty | fence | pref | atom =>
    dsimp only [exec]
    exact runWord_of_not_wordOk hc h
  all_goals cases hg

theorem exec_group6_of_not_wordOk (hg : i.group = some 6) : exec i s = .next (s.illegal c) := by
  cases i
  case tcopy | tgather | cavred | loopnest | search | send | hspub | spawn | ringset | recvPoll | recvWait | bar | baro | barw |
      waitptr | waitptrTicket | lpark | lwake | slotset | cntrd | tlbinvPage | tlbinvVf =>
    dsimp only [exec]
    exact runWord_of_not_wordOk hc h
  all_goals cases hg

theorem exec_group7_of_not_wordOk (hg : i.group = some 7) : exec i s = .next (s.illegal c) := by
  cases i
  case srd | swr | rte | event | eventMbx | halt | trap | brk | icflush =>
    dsimp only [exec]
    exact runWord_of_not_wordOk hc h
  all_goals cases hg

end

/-! #### ILLEGAL in every thread of a fragment (10_trap_state R179 to R181) -/

section
variable {i : Instr} {s : State} {c : Site}

/-- A word that is not legal in its kernel, a full form or a pair, takes ILLEGAL. -/
theorem exec_of_not_wordOk (hword : isEvent i = false) (hc : s.cur = some c) (h : s.wordOk c i = false) :
    exec i s = .next (s.illegal c) := by
  cases hp : pairOf i with
  | some p =>
    obtain ⟨a, b⟩ := p
    rw [← mkPair_of_pairOf hp] at h ⊢
    rw [exec_mkPair, runPair_of_not_wordOk hc h]
  | none =>
    obtain ⟨w, he⟩ := Option.isSome_iff_exists.mp (Option.isNone_eq_false_iff.mp hword)
    obtain ⟨k, hg⟩ := Option.isSome_iff_exists.mp (group_isSome hp he)
    match k, hg with
    | 0, hg => exact exec_group0_of_not_wordOk hc h hg
    | 1, hg => exact exec_group1_of_not_wordOk hc h hg
    | 2, hg => exact exec_group2_of_not_wordOk hc h hg
    | 3, hg => exact exec_group3_of_not_wordOk hc h hg
    | 4, hg => exact exec_group4_of_not_wordOk hc h hg
    | 5, hg => exact exec_group5_of_not_wordOk hc h hg
    | 6, hg => exact exec_group6_of_not_wordOk hc h hg
    | 7, hg => exact exec_group7_of_not_wordOk hc h hg

/-- Outside handler mode ILLEGAL puts every thread of the fragment into its handler. -/
theorem illegal_eq (hh : ∀ j ∈ c.tids, (s.thr (thrKey c.wg j)).handler = false) :
    s.illegal c = c.tids.foldl (fun s' j => s'.modThr (thrKey c.wg j) fun t =>
      t.enter { cause := .illegal, pc := c.pc } (s.launchOf (s.wg c.wg)).vec (s.sibMask c.wg c.tids) false) s := by
  have htids : (c.tids.map fun j => (j, ({ cause := .illegal, pc := c.pc } : TrapInfo))).map Prod.fst = c.tids := by
    rw [List.map_map]
    exact List.map_id' _
  rw [State.illegal, State.trapAll, trap_enters, htids, List.foldl_map]
  all_goals
    intro p hp
    obtain ⟨j, hj, rfl⟩ := List.mem_map.mp hp
  · exact hh j hj
  · rfl

theorem illegal_thr (hn : c.tids.Nodup) (hh : ∀ j ∈ c.tids, (s.thr (thrKey c.wg j)).handler = false) {j : Nat} (hj : j ∈ c.tids) :
    (s.illegal c).thr (thrKey c.wg j) =
      (s.thr (thrKey c.wg j)).enter { cause := .illegal, pc := c.pc } (s.launchOf (s.wg c.wg)).vec (s.sibMask c.wg c.tids) false := by
  have hfind : (c.tids.find? fun i => thrKey c.wg (id i) == thrKey c.wg j).isSome = true :=
    List.find?_isSome.mpr ⟨j, hj, beq_self_eq_true _⟩
  obtain ⟨i, hi⟩ := Option.isSome_iff_exists.mp hfind
  rw [illegal_eq hh]
  refine (foldl_modThr c.wg c.tids id _ s (by rwa [List.map_id]) _).trans ?_
  rw [hi]

theorem illegal_thr_of_not_mem (hn : c.tids.Nodup) (hh : ∀ j ∈ c.tids, (s.thr (thrKey c.wg j)).handler = false) {k : Nat}
    (hk : ∀ j ∈ c.tids, k ≠ thrKey c.wg j) : (s.illegal c).thr k = s.thr k := by
  have hfind : (c.tids.find? fun i => thrKey c.wg (id i) == k) = none :=
    List.find?_eq_none.mpr fun i hi h => hk i hi (beq_iff_eq.mp h).symm
  rw [illegal_eq hh]
  refine (foldl_modThr c.wg c.tids id _ s (by rwa [List.map_id]) _).trans ?_
  rw [hfind]

theorem illegal_frame (hh : ∀ j ∈ c.tids, (s.thr (thrKey c.wg j)).handler = false) :
    s.illegal c = { s with threads := (s.illegal c).threads } := by
  rw [illegal_eq hh]
  obtain ⟨ts, hts⟩ := foldl_modThr_threads (fun j => thrKey c.wg j) c.tids (fun _ t =>
    t.enter { cause := .illegal, pc := c.pc } (s.launchOf (s.wg c.wg)).vec (s.sibMask c.wg c.tids) false) s
  rw [hts]

end

/-- Settles O31: the bodies of the first five kinds of word change nothing and give each guard-active thread its trap; a word that is not
legal in its kernel runs no body. -/
theorem refusedWordsTrap : Obligations.RefusedWordsTrap := by
  refine ⟨?refused, ?illegal⟩
  case refused =>
    rintro s c g i info hi hh (⟨b, hword, htarget, rfl⟩ | ⟨n, hword, hdecl, rfl⟩ | ⟨o, m, n, rfl, hword, horder, haddr, rfl⟩ |
      ⟨a, p, rest, hword, rfl, hfrag, haddr, rfl⟩ | ⟨acc, ta, tb, pair, hword, hplane, htile, rfl⟩)
    · exact (jump_trapsAll hword htarget).enters hi hh
    · exact (incumbent_trapsAll hword hdecl).enters hi hh
    · exact (access_trapsAll hword horder haddr).enters hi hh
    · exact (record_trapsAll hword hfrag haddr).enters hi hh
    · exact (product_trapsAll hword hplane htile).enters hi hh
  case illegal =>
    intro s c i hword hc hok hn hh
    exact ⟨_, exec_of_not_wordOk hword hc hok, fun j hj => (illegal_thr hn hh hj).trans rfl,
      fun k hk => illegal_thr_of_not_mem hn hh hk, illegal_frame hh⟩

end Sys2Proof.Machine

/-! ### Software traps and the return from a trap (10_trap_state R179 to R182, R189, R190) -/

namespace Sys2Proof.Machine

/-! #### TRAP and BRK (R189) -/

theorem exec_trap_eq_runWord (n : BitVec 33) (g : Guard) (s : State) : exec (.trap n g) s =
    runWord (.trap n g) g (rdPlain (.trap n g)) always (trapBody fun c => { cause := .trap, pc := c.nextPc, addr := n.setWidth 64 }) s := rfl

theorem exec_brk_eq_runWord (n : BitVec 33) (g : Guard) (s : State) : exec (.brk n g) s =
    runWord (.brk n g) g (rdPlain (.brk n g)) always (trapBody fun c => { cause := .bkpt, pc := c.pc, addr := n.setWidth 64 }) s := rfl

theorem nextPc_ne_pc (c : Site) : c.nextPc ≠ c.pc := by
  unfold Site.nextPc
  bv_omega

/-- The handler of TRAP is at VEC + 0x400. -/
theorem enter_trap (t : Thread) (pc addr vec sib : W64) :
    t.issue.enter { cause := .trap, pc := pc, addr := addr } vec sib false =
      { t.issue with
        trap := { pc := pc, cause := 0x10, addr := addr, parent := t.parentId, sibLo := sib, sibHi := 0 },
        handler := true, pc := vec + 0x400 } := by
  have hcause : trapCause .trap 0 false = 0x10 := by decide
  simp only [Thread.enter, hcause, Cause.code]
  rfl

/-- The handler of BKPT is at VEC + 0x440. -/
theorem enter_bkpt (t : Thread) (pc addr vec sib : W64) :
    t.issue.enter { cause := .bkpt, pc := pc, addr := addr } vec sib false =
      { t.issue with
        trap := { pc := pc, cause := 0x11, addr := addr, parent := t.parentId, sibLo := sib, sibHi := 0 },
        handler := true, pc := vec + 0x440 } := by
  have hcause : trapCause .bkpt 0 false = 0x11 := by decide
  simp only [Thread.enter, hcause, Cause.code]
  rfl

/-- A word whose effect is one trap in every guard-active thread, outside handler mode and without a halt: the word has issued, and each
of them enters its handler. -/
theorem softwareTrap_of {i : Instr} {g : Guard} {rd : Frag → Env → Reads} {s : State} {c : Site} {f : Site → TrapInfo}
    {m : Host.Outcome State Fault Refusal} (hm : m = runWord i g rd always (trapBody f) s) (h : s.Issues c i)
    (hh : ∀ j ∈ c.tids, (s.thr (thrKey c.wg j)).handler = false) (hissued : (f c).ofIssued c = true)
    (hgoes : (f c).cause.halts (s.haltd c.wg) = false) :
    ∃ u, m = .next u ∧ OnlyThreads s c g (fun _ t => t.issue.enter (f c) (s.launchOf (s.wg c.wg)).vec
      (s.sibMask c.wg ((s.frag c g).map Env.tid)) false) u := by
  obtain ⟨u, hu, hleaves⟩ := trapWord_of hm h rfl (fun _ => f c) rfl hh fun _ _ => hgoes
  exact ⟨u, hu, hleaves.congr fun _ _ => by rw [if_pos hissued]⟩

/-- Settles O15: either word gives its trap to every guard-active thread; TRAP's names another word than its own, and BRK's is of a cause
that counts as issued. -/
theorem softwareTraps : Obligations.SoftwareTraps := by
  intro s c hh
  refine ⟨fun n g h => ?trap, fun n g h hhaltd => ?brk⟩
  case trap =>
    have hissued : TrapInfo.ofIssued { cause := .trap, pc := c.nextPc, addr := n.setWidth 64 } c = true := by
      simp [TrapInfo.ofIssued, nextPc_ne_pc c]
    obtain ⟨u, hu, hleaves⟩ := softwareTrap_of (exec_trap_eq_runWord n g s) h hh hissued rfl
    exact ⟨u, hu, hleaves.congr fun _ _ => enter_trap ..⟩
  case brk =>
    have hissued : TrapInfo.ofIssued { cause := .bkpt, pc := c.pc, addr := n.setWidth 64 } c = true := by
      simp [TrapInfo.ofIssued]
    obtain ⟨u, hu, hleaves⟩ := softwareTrap_of (exec_brk_eq_runWord n g s) h hh hissued hhaltd
    exact ⟨u, hu, hleaves.congr fun _ _ => enter_bkpt ..⟩

/-! #### RTE (R190) -/

theorem exec_rte_eq_runWord (skip : Bool) (g : Guard) (s : State) : exec (.rte skip g) s =
    runWord (.rte skip g) g (rdPlain (.rte skip g)) State.inHandler (rteBody skip) s := rfl

theorem badReturn_eq_false {t : Thread} (h : t.trap.pc.toNat % 8 = 0) : t.badReturn = false := by simp [Thread.badReturn, h]

/-- Outside a pre-emption the return leaves handler mode for TRAPPC. -/
theorem ret_of_pre_none {t : Thread} (h : t.pre = .none) (skip : Bool) :
    t.ret skip = { t with handler := false, pc := t.trap.pc, skipBp := t.skipBp || skip } := by simp [Thread.ret, h]

/-- Where every TRAPPC is aligned RTE returns in each of its threads. -/
theorem rteBody_of_aligned {s : State} {c : Site} {fr : Frag} (skip : Bool)
    (ha : ∀ e ∈ fr, (s.thr (thrKey c.wg e.tid)).trap.pc.toNat % 8 = 0) :
    rteBody skip s c fr fr = .done
      (fr.foldl (fun s e => s.modThr (thrKey c.wg e.tid) fun t => { t with aged := false, scPlaced := false, skipBp := false }.ret skip) s)
      (fr.map fun e => (e.tid, .ended)) := by
  have hgood : ∀ e ∈ fr, (s.thr (thrKey c.wg e.tid)).badReturn = false := fun e he => badReturn_eq_false (ha e he)
  refine congrArg₂ Ran.done (List.foldl_ext _ _ _ fun v e he => ?_) (List.map_congr_left fun e he => ?_)
  · exact if_neg (Bool.eq_false_iff.mp (hgood e he))
  · exact congrArg (Prod.mk e.tid) (if_neg (Bool.eq_false_iff.mp (hgood e he)))

/-- Settles O16: in handler mode the body returns in each guard-active thread, outside it the word is not legal. -/
theorem returnFromTrap : Obligations.ReturnFromTrap := by
  intro s c skip g h
  refine ⟨fun hhandler ha hpre => ?_, fun hhandler => ?_⟩
  · refine leaves_of (exec_rte_eq_runWord skip g s) h hhandler _ (fun _ => .ended) (rteBody_of_aligned skip ha) (fun _ _ => rfl) fun e he => ?_
    exact ret_of_pre_none (t := { s.thr (thrKey c.wg e.tid) with aged := false, scPlaced := false, skipBp := false }) (hpre e he) skip
  · rw [exec_rte_eq_runWord, runWord_illegal h.cur (by rw [hhandler, Bool.and_false])]

end Sys2Proof.Machine

/-! ### Signals and halts (10_trap_state R182, R191, R192) -/

namespace Sys2Proof.Machine

/-! #### EVENT and EVENT.MBX (R191) -/

theorem exec_event_eq_runWord (b : Opnd) (w : W2) (g : Guard) (s : State) : exec (.event b w g) s =
    runWord (.event b w g) g (rdPlain (.event b w g)) always (eventBody b w false) s := rfl

theorem exec_eventMbx_eq_runWord (b : Opnd) (w : W2) (g : Guard) (s : State) : exec (.eventMbx b w g) s =
    runWord (.eventMbx b w g) g (rdPlain (.eventMbx b w g)) State.debugLaunch (eventBody b w true) s := rfl

section
variable (b : Opnd) (w : W2) (s : State) (c : Site) (fr : Frag) (e : Env) (rest : Frag)

/-- A re-execution posts nothing; else the lowest guard-active thread posts its operand. -/
theorem eventBody_event_cons : eventBody b w false s c fr (e :: rest) =
    .done (if s.redoing c.wg then s else s.wgEvent c.wg 0x01 e.tid c.pc (BitVec.ofNat 64 (readOp (w2 w) e b)))
      ((e :: rest).map fun e => (e.tid, .next)) := by
  by_cases h : s.redoing c.wg = true
  · simp [eventBody, h]
  · simp [eventBody, h]

/-- EVENT.MBX sends its operand to the mailbox, with free bytes for the lanes. -/
theorem eventBody_eventMbx_cons (h : s.redoing c.wg = false) : eventBody b w true s c fr (e :: rest) =
    .done (({ s with tick := s.tick + 32 }).mbPost c.pkg (s.ctx (s.wg c.wg).ctx).fn
      (natLe 2 3 ++ natLe 4 0 ++ natLe 2 e.tid ++ natLe 4 (s.wg c.wg).launchid.toNat ++ natLe 4 (s.wg c.wg).wgid.toNat ++
        natLe 2 c.core ++ natLe 2 0 ++ natLe 4 (s.thr (thrKey c.wg e.tid)).parentId.toNat ++
        natLe 8 (BitVec.ofNat 64 (readOp (w2 w) e b)).toNat ++ (s.freeBytes 16).1 ++ ((s.freeBytes 16).2.freeBytes 16).1))
      ((e :: rest).map fun e => (e.tid, .next)) := by
  simp only [eventBody, h, Bool.false_eq_true, if_false, if_true]
  rfl

end

@[simp] theorem length_freeBytes (s : State) (n : Nat) : (s.freeBytes n).1.length = n := by simp [State.freeBytes]

/-! #### Mailbox records (R186) -/

theorem foldl_keeps {α : Type} {I : State → Prop} {f : State → α → State} (hf : ∀ s a, I s → I (f s a)) (l : List α) {s : State}
    (h : I s) : I (l.foldl f s) := List.foldlRecOn l f h fun t ht a _ => hf t a ht

theorem keepOld_frame (s : State) (w : Nat) : s.keepOld w = { s with cores := (s.keepOld w).cores } := by
  unfold State.keepOld
  dsimp only
  split <;> split <;> rfl

/-- Outside the scratchpads a word written at its home changes memory, its versions and its notices. -/
def State.SameButWords (s u : State) : Prop := ∃ mem views viewVer homeVer notices nextId,
  u = { s with mem := mem, views := views, viewVer := viewVer, homeVer := homeVer, notices := notices, nextId := nextId }

theorem State.SameButWords.refl (s : State) : s.SameButWords s := ⟨_, _, _, _, _, _, rfl⟩

theorem State.SameButWords.put {s u : State} (h : s.SameButWords u) (mem : List Host.Cell) (ver : Tbl Nat) :
    s.SameButWords { u with mem := mem, homeVer := ver } := by
  obtain ⟨_, _, _, _, _, _, rfl⟩ := h
  exact ⟨_, _, _, _, _, _, rfl⟩

theorem homeWord_of_scratch (s : State) {w : Nat} (v : W64) (m : StoreMode) (h : isScratch (8 * w) = true) :
    s.homeWord w v m = { s.keepOld w with mem := writeWord (s.keepOld w).mem w v } := if_pos h

theorem homeWord_of_not_scratch (s : State) {w : Nat} (v : W64) (m : StoreMode) (h : isScratch (8 * w) = false) :
    s.SameButWords (s.homeWord w v m) := by
  unfold State.homeWord
  rw [if_neg (Bool.eq_false_iff.mp h)]
  refine foldl_keeps ?note _ (State.SameButWords.put ?views _ _)
  case note =>
    rintro t d ⟨_, _, _, _, _, _, rfl⟩
    exact ⟨_, _, _, _, _, _, rfl⟩
  case views =>
    split
    · refine foldl_keeps ?_ _ (.refl s)
      rintro t d ⟨_, _, _, _, _, _, rfl⟩
      dsimp only
      split <;> exact ⟨_, _, _, _, _, _, rfl⟩
    · dsimp only
      split <;> exact ⟨_, _, _, _, _, _, rfl⟩

/-- What every write of a word at its home keeps, and every change of poison and of a function: what records in rings keep. -/
structure KeptByRecords (I : State → Prop) : Prop where
  homeWord : ∀ s w v m, I s → I (s.homeWord w v m)
  poison : ∀ s l, I s → I { s with poison := l }
  modFn : ∀ s k f, I s → I (s.modFn k f)

section
variable {I : State → Prop} (hI : KeptByRecords I) {s : State} (h : I s)
include hI h

theorem KeptByRecords.homeStore (loc n : Nat) (d : W64) (m : StoreMode) : I (s.homeStore loc n d m) := by
  unfold State.homeStore
  dsimp only
  split
  · exact hI.poison _ _ (hI.homeWord _ _ _ _ h)
  · exact hI.homeWord _ _ _ _ h

theorem KeptByRecords.bulkRec (loc : Nat) (r : List Byte) : I (s.bulkRec loc r) :=
  foldl_keeps (I := I) (fun _ _ ht => hI.homeStore ht _ _ _ _) _ h

theorem KeptByRecords.devRec (p pa : Nat) (r : List Byte) : I (s.devRec p pa r) := by
  unfold State.devRec
  split
  · exact hI.bulkRec h _ _
  · exact h

theorem KeptByRecords.devWord (p pa : Nat) (v : W64) : I (s.devWord p pa v) := by
  unfold State.devWord
  split
  · exact hI.homeStore h _ _ _ _
  · exact h

end

theorem KeptByRecords.mbFlushN {I : State → Prop} (hI : KeptByRecords I) (p fn n : Nat) {s : State} (h : I s) :
    I (s.mbFlushN p fn n) := by
  induction n generalizing s with
  | zero => exact h
  | succ n ih =>
    unfold State.mbFlushN
    dsimp only
    split
    · split
      · exact ih (hI.modFn _ _ _ (hI.devWord (hI.devRec h _ _ _) _ _ _))
      · exact h
    · exact h

section
variable {I : State → Prop} (hI : KeptByRecords I) {s : State} (h : I s)
include hI h

theorem KeptByRecords.mbPost (p fn : Nat) (r : List Byte) : I (s.mbPost p fn r) := by
  unfold State.mbPost
  split
  · exact hI.mbFlushN _ _ _ (hI.modFn _ _ _ h)
  · exact h

theorem KeptByRecords.report (wk cause : Nat) (tids : List Nat) : I (s.report wk cause tids) := by
  cases tids with
  | nil => exact h
  | cons i r => exact hI.mbPost h _ _ _

end

theorem homeWord_threads_wgs (s : State) (w : Nat) (v : W64) (m : StoreMode) :
    (s.homeWord w v m).threads = s.threads ∧ (s.homeWord w v m).wgs = s.wgs := by
  cases hs : isScratch (8 * w) with
  | true =>
    rw [homeWord_of_scratch s v m hs, keepOld_frame]
    exact ⟨rfl, rfl⟩
  | false =>
    obtain ⟨_, _, _, _, _, _, hu⟩ := homeWord_of_not_scratch s v m hs
    rw [hu]
    exact ⟨rfl, rfl⟩

/-- Records leave the threads and the workgroups as they are. -/
theorem keptByRecords_threads_wgs (ts : Tbl Thread) (ws : Tbl Wg) : KeptByRecords fun s => s.threads = ts ∧ s.wgs = ws where
  homeWord s w v m h := by rwa [(homeWord_threads_wgs s w v m).1, (homeWord_threads_wgs s w v m).2]
  poison _ _ h := h
  modFn _ _ _ h := h

/-- A ring that is not placed takes no report. -/
theorem report_of_not_placed {s : State} {wk : Nat}
    (h : (s.fn (fnKey (s.wg wk).pkg (s.ctx (s.wg wk).ctx).fn)).mbctl.getLsbD 63 = false) (cause : Nat) (tids : List Nat) :
    s.report wk cause tids = s := by
  cases tids with
  | nil => rfl
  | cons i r => exact if_neg (Bool.eq_false_iff.mp h)

/-! #### The all-stop (R182) -/

/-- A thread halts, unless it has halted already. -/
def Thread.stop (t : Thread) : Thread := if t.halted then t else { t with halted := true, relPc := none }

theorem stop_of_not_halted {t : Thread} (h : t.halted = false) : t.stop = { t with halted := true, relPc := none } :=
  if_neg (Bool.eq_false_iff.mp h)

/-- No live thread of the workgroup owes a WATCH or a cancellation. -/
def State.OwesNothing (s : State) (wk : Nat) : Prop :=
  ∀ i ∈ s.liveTids wk, (s.thr (thrKey wk i)).watch = none ∧ s.dominated wk (s.thr (thrKey wk i)) = false

theorem settleOwed_of_owesNothing {s : State} {wk : Nat} (h : s.OwesNothing wk) : s.settleOwed wk = (s, []) := by
  have hwatch : s.watchers wk ((s.liveTids wk).filter fun i => !(s.thr (thrKey wk i)).halted) = [] := by
    refine List.filterMap_eq_nil_iff.mpr fun i hi => ?_
    simp only [(h i (List.mem_of_mem_filter hi)).1, Option.map_none]
  have hcancel : (s.liveTids wk).filter (s.mayCancel wk) = [] := by
    refine List.filter_eq_nil_iff.mpr fun i hi => ?_
    simp only [State.mayCancel, (h i hi).2, Bool.and_false, Bool.false_eq_true, not_false_eq_true]
  simp only [State.settleOwed, hwatch]
  simp only [List.map_nil, State.fragments, List.foldl_nil, hcancel, State.cancelAll]

/-- Where nothing is owed, every live thread halts where it stands. -/
theorem allStop_of_owesNothing {s : State} {wk : Nat} (h : s.OwesNothing wk) :
    s.allStop wk = (s.modTids wk (s.liveTids wk) Thread.stop).modWg wk fun w => { w with inelig := true } := by
  rw [State.allStop, settleOwed_of_owesNothing h]
  rfl

theorem liveTids_nodup (s : State) (wk : Nat) : (s.liveTids wk).Nodup := List.nodup_range.filter _

section
variable (s : State) {wk : Nat} {l : List Nat} (f : Thread → Thread)

theorem modTids_thr_of_mem (hn : l.Nodup) {i : Nat} (hi : i ∈ l) :
    (s.modTids wk l f).thr (thrKey wk i) = f (s.thr (thrKey wk i)) := by
  have hfind : (l.find? fun j => thrKey wk (id j) == thrKey wk i).isSome = true :=
    List.find?_isSome.mpr ⟨i, hi, beq_self_eq_true _⟩
  obtain ⟨j, hj⟩ := Option.isSome_iff_exists.mp hfind
  refine (foldl_modThr wk l id (fun _ => f) s (by rwa [List.map_id]) _).trans ?_
  rw [hj]

theorem modTids_thr_of_forall_ne (hn : l.Nodup) {k : Nat} (hk : ∀ i ∈ l, k ≠ thrKey wk i) : (s.modTids wk l f).thr k = s.thr k := by
  have hfind : (l.find? fun j => thrKey wk (id j) == k) = none := find_out l id hk
  refine (foldl_modThr wk l id (fun _ => f) s (by rwa [List.map_id]) _).trans ?_
  rw [hfind]

theorem modTids_frame : s.modTids wk l f = { s with threads := (s.modTids wk l f).threads } := by
  obtain ⟨ts, hts⟩ := foldl_modThr_threads (fun i => thrKey wk i) l (fun _ => f) s
  rw [show s.modTids wk l f = _ from hts]

end

/-! #### HALT (R192) -/

/-- The thread stands at `pc`; outside handler mode its TRAPPC says so (R186). -/
def Thread.standAt (t : Thread) (pc : W64) : Thread :=
  { t with pc := pc, trap := if t.handler then t.trap else { t.trap with pc := pc } }

/-- The fragment of a HALT stands at the next word, before the workgroup halts. -/
def State.halting (s : State) (c : Site) (g : Guard) : State :=
  ((s.frag c g).foldl (fun s e => s.modThr (thrKey c.wg e.tid) Thread.issue) s).modTids c.wg c.tids fun t => t.standAt c.nextPc

theorem exec_halt_eq_runWord (g : Guard) (s : State) : exec (.halt g) s =
    runWord (.halt g) g (rdPlain (.halt g)) State.debugLaunch haltBody s := rfl

theorem haltBody_eq {s : State} {c : Site} {g : Guard} (h : s.frag c g ≠ []) :
    haltBody s c (s.frag c g) (s.frag c g) =
      .done (((s.halting c g).allStop c.wg).report c.wg 0x15 c.tids) ((s.frag c g).map fun e => (e.tid, .ended)) :=
  if_neg (by rwa [List.isEmpty_iff])

section
variable {s : State} {c : Site} (g : Guard)

theorem halting_frame : s.halting c g = { s with threads := (s.halting c g).threads } := by
  obtain ⟨ts, hts⟩ := foldl_modThr_threads (fun e : Env => thrKey c.wg e.tid) (s.frag c g) (fun _ => Thread.issue) s
  rw [State.halting, modTids_frame, hts]

theorem halting_thr_of_mem (hn : c.tids.Nodup) {j : Nat} (hj : j ∈ c.tids) : (s.halting c g).thr (thrKey c.wg j) =
    (if (s.env c.wg j).guarded g then (s.thr (thrKey c.wg j)).issue else s.thr (thrKey c.wg j)).standAt c.nextPc := by
  rw [State.halting, modTids_thr_of_mem _ _ hn hj, (frag_foldl s hn fun _ => Thread.issue).1 j hj]

theorem halting_thr_of_forall_ne (hn : c.tids.Nodup) {k : Nat} (hk : ∀ j ∈ c.tids, k ≠ thrKey c.wg j) :
    (s.halting c g).thr k = s.thr k := by
  rw [State.halting, modTids_thr_of_forall_ne _ _ hn hk, (frag_foldl s hn fun _ => Thread.issue).2.1 k hk]

/-- What decides who is live and what is owed is as before. -/
theorem halting_thr_owed (hn : c.tids.Nodup) (k : Nat) : let t := (s.halting c g).thr k
    t.life = (s.thr k).life ∧ t.watch = (s.thr k).watch ∧ t.bnd = (s.thr k).bnd ∧ t.bsel = (s.thr k).bsel := by
  by_cases hk : ∃ j ∈ c.tids, k = thrKey c.wg j
  · obtain ⟨j, hj, rfl⟩ := hk
    rw [halting_thr_of_mem g hn hj]
    split <;> exact ⟨rfl, rfl, rfl, rfl⟩
  · rw [halting_thr_of_forall_ne g hn fun j hj he => hk ⟨j, hj, he⟩]
    exact ⟨rfl, rfl, rfl, rfl⟩

theorem halting_liveTids (hn : c.tids.Nodup) : (s.halting c g).liveTids c.wg = s.liveTids c.wg := by
  have hlive (k : Nat) : ((s.halting c g).thr k).live = (s.thr k).live := by
    rw [Thread.live, (halting_thr_owed g hn k).1, Thread.live]
  have hsize : (s.halting c g).tidsOf c.wg = s.tidsOf c.wg := by rw [halting_frame]; rfl
  simp only [State.liveTids, hsize, hlive]

theorem halting_dominated (hn : c.tids.Nodup) (k : Nat) :
    (s.halting c g).dominated c.wg ((s.halting c g).thr k) = s.dominated c.wg (s.thr k) := by
  obtain ⟨-, -, hbnd, hbsel⟩ := halting_thr_owed (s := s) g hn k
  have hsame (t : Thread) : (s.halting c g).dominated c.wg t = s.dominated c.wg t := by rw [halting_frame]; rfl
  rw [hsame]
  simp only [State.dominated, hbnd, hbsel]

theorem halting_owesNothing (hn : c.tids.Nodup) (h : s.OwesNothing c.wg) : (s.halting c g).OwesNothing c.wg := by
  intro i hi
  rw [halting_liveTids g hn] at hi
  rw [halting_dominated g hn, (halting_thr_owed g hn _).2.1]
  exact h i hi

end

/-- The workgroup of a HALT has halted, before the report. -/
def State.haltStopped (s : State) (c : Site) (g : Guard) : State :=
  ((s.halting c g).modTids c.wg (s.liveTids c.wg) Thread.stop).modWg c.wg fun w => { w with inelig := true }

section
variable {s : State} {c : Site} (g : Guard)

theorem halting_allStop (hn : c.tids.Nodup) (h : s.OwesNothing c.wg) : (s.halting c g).allStop c.wg = s.haltStopped c g := by
  rw [allStop_of_owesNothing (halting_owesNothing g hn h), halting_liveTids g hn, State.haltStopped]

theorem haltStopped_frame : s.haltStopped c g =
    { s with threads := (s.haltStopped c g).threads, wgs := tmod {} s.wgs c.wg fun w => { w with inelig := true } } := by
  rw [State.haltStopped, modTids_frame, halting_frame]
  rfl

theorem haltStopped_wgs : (s.haltStopped c g).wgs = tmod {} s.wgs c.wg fun w => { w with inelig := true } :=
  (congrArg State.wgs (haltStopped_frame g)).trans rfl

theorem haltStopped_wg (k : Nat) : (s.haltStopped c g).wg k = if k = c.wg then { s.wg k with inelig := true } else s.wg k := by
  refine (congrArg (tget ({} : Wg) · k) (haltStopped_wgs g)).trans ((tget_tmod ({} : Wg) s.wgs c.wg k _).trans ?_)
  by_cases hk : k = c.wg
  · rw [if_pos hk, if_pos hk.symm, hk]
    rfl
  · rw [if_neg hk, if_neg (Ne.symm hk)]
    rfl

theorem haltStopped_report (hring : (s.fn (fnKey (s.wg c.wg).pkg (s.ctx (s.wg c.wg).ctx).fn)).mbctl.getLsbD 63 = false)
    (cause : Nat) (tids : List Nat) : (s.haltStopped c g).report c.wg cause tids = s.haltStopped c g := by
  refine report_of_not_placed ?_ cause tids
  rw [haltStopped_wg, if_pos rfl, haltStopped_frame]
  exact hring

theorem haltStopped_thr_of_mem {j : Nat} (hj : j ∈ s.liveTids c.wg) :
    (s.haltStopped c g).thr (thrKey c.wg j) = ((s.halting c g).thr (thrKey c.wg j)).stop :=
  modTids_thr_of_mem _ _ (liveTids_nodup s c.wg) hj

theorem haltStopped_thr_of_forall_ne {k : Nat} (hk : ∀ j ∈ s.liveTids c.wg, k ≠ thrKey c.wg j) :
    (s.haltStopped c g).thr k = (s.halting c g).thr k :=
  modTids_thr_of_forall_ne _ _ (liveTids_nodup s c.wg) hk

end

/-- A thread of the fragment, guard-active or not, comes to stand halted at the next word. -/
theorem halted_at_nextPc {t : Thread} (c : Site) (active : Bool) (h : t.halted = false) :
    let u := ((if active then t.issue else t).standAt c.nextPc).stop
    (if active then u else u.goto c.nextPc) = { (t.goto c.nextPc) with
      halted := true, relPc := none, trap := if t.handler then t.trap else { t.trap with pc := c.nextPc } } := by
  have hrun : ((if active then t.issue else t).standAt c.nextPc).halted = false := by cases active <;> exact h
  intro u
  rw [show u = _ from stop_of_not_halted hrun]
  cases active <;> rfl

/-! #### ICFLUSH (R192) -/

theorem exec_icflush_eq_runWord (sc : IcScope) (g : Guard) (s : State) : exec (.icflush sc g) s =
    runWord (.icflush sc g) g (rdPlain (.icflush sc g)) always
      (fun s c _ who => .done (s.modTids c.wg (who.map fun e => e.tid) fun t => { t with hold := .icflush sc })
        (who.map fun e => (e.tid, .next))) s := rfl

/-! #### The statement -/

/-- Settles O35: an event word posts its record and its threads go on; a HALT's fragment stands at the next word, and the workgroup, which
owes nothing, halts and is reported. -/
theorem signalsAndHalts : Obligations.SignalsAndHalts := by
  refine ⟨fun s c b w g e rest hf => ⟨fun h => ?event, fun h hdebug hredo => ?mailbox, fun h hdebug => ?mailboxIllegal⟩,
    fun s c g => ⟨fun h hdebug hne htids howed => ?halt, fun h hdebug => ?haltIllegal, fun sc h => ?icflush⟩⟩
  case event => exact goesOn_of (exec_event_eq_runWord b w g s) h rfl (by rw [hf]; exact eventBody_event_cons b w s c _ e rest)
  case mailbox =>
    obtain ⟨u, hu, hleaves⟩ := goesOn_of (exec_eventMbx_eq_runWord b w g s) h hdebug
      (by rw [hf]; exact eventBody_eventMbx_cons b w s c _ e rest hredo)
    exact ⟨u, _, _, hu, length_freeBytes .., length_freeBytes .., hleaves⟩
  case mailboxIllegal =>
    rw [exec_eventMbx_eq_runWord, runWord_illegal h.cur (by rw [State.debugLaunch, hdebug, Bool.and_false])]
  case halt =>
    have hstopped := halting_allStop g h.nodup howed
    obtain ⟨hthreads, hwgs⟩ := (keptByRecords_threads_wgs _ _).report (s := s.haltStopped c g) ⟨rfl, rfl⟩ c.wg 0x15 c.tids
    generalize hv : (s.haltStopped c g).report c.wg 0x15 c.tids = v at hthreads hwgs
    have hvthr (k : Nat) : v.thr k = (s.haltStopped c g).thr k := congrArg (tget ({} : Thread) · k) hthreads
    obtain ⟨u, hu, hthr, hkeep, hcores, hall⟩ : ∃ u, exec (.halt g) s = .next u ∧ Leaves s v c g (fun _ t => t) u :=
      ⟨_, by rw [exec_halt_eq_runWord, runWord_eq h hdebug, haltBody_eq hne, hstopped, hv]; rfl,
        finish_leaves v h.nodup (fun _ => .ended) fun _ _ => rfl⟩
    have huwgs : u.wgs = (s.haltStopped c g).wgs := (congrArg State.wgs hall).trans hwgs
    refine ⟨u, hu, fun j hj => ?inside, fun j hj hout hrun => ?beside, fun k hk => ?outside,
      fun k => (congrArg (tget ({} : Wg) · k) huwgs).trans (haltStopped_wg g k), fun hring => ?unplaced⟩
    case inside =>
      obtain ⟨hlive, hrun⟩ := htids j hj
      rw [hthr j hj, hvthr, haltStopped_thr_of_mem g hlive, halting_thr_of_mem g h.nodup hj]
      exact halted_at_nextPc c _ hrun
    case beside =>
      have hne : ∀ i ∈ c.tids, thrKey c.wg j ≠ thrKey c.wg i := fun i hi he => hout (thrKey_inj he ▸ hi)
      rw [hkeep _ hne, hvthr, haltStopped_thr_of_mem g hj, halting_thr_of_forall_ne g h.nodup hne, stop_of_not_halted hrun]
    case outside =>
      have hne : ∀ i ∈ c.tids, k ≠ thrKey c.wg i := fun i hi => hk i (htids i hi).1
      rw [hkeep _ hne, hvthr, haltStopped_thr_of_forall_ne g hk, halting_thr_of_forall_ne g h.nodup hne]
    case unplaced =>
      rw [← hv, haltStopped_report g hring, haltStopped_frame] at hall hcores
      refine ⟨hcores, ?_⟩
      rw [huwgs, haltStopped_wgs]
      exact hall
  case haltIllegal => rw [exec_halt_eq_runWord, runWord_illegal h.cur (by rw [State.debugLaunch, hdebug, Bool.and_false])]
  case icflush =>
    exact leaves_of (exec_icflush_eq_runWord sc g s) h rfl (fun _ t => { t with hold := .icflush sc }) (fun _ => .next)
      (congrArg (Ran.done · _) (List.foldl_map ..)) (fun _ _ => rfl) fun _ _ => rfl

end Sys2Proof.Machine

/-! ### A waiting record that is longer than its slot (17_prog_debug R278, R279)

The records of a mailbox that wait for room stand in their function as lists of bytes of any length, and `DebugRequestsServe` does not ask that
each has the 64 bytes of its slot. One of more than 2^42 bytes, which goes out before the report of a single-step, is written on from HBM4E
into the scratchpad of the step's core, and the operation that stands in that core's plane queue notes the words it overwrites. -/

namespace Sys2Proof.Machine

/-! #### The end of a single-step -/

theorem modThr_congr (s : State) {k : Nat} {f f' : Thread → Thread} (h : f (s.thr k) = f' (s.thr k)) : s.modThr k f = s.modThr k f' :=
  congrArg (fun t : Thread => ({ s with threads := tset s.threads k t } : State)) h

/-- The one thread of a single-step takes STEP, and the step is over. -/
def State.stepEnded (s : State) (ck : Nat) (st : StepSt) : State :=
  (s.modThr (thrKey st.wg st.tid) fun t => t.enter { cause := .step, pc := t.pc } 0 (s.sibMask st.wg [st.tid]) true).modCore ck
    fun c => { c with dbgctl := c.dbgctl &&& ~~~1#32, stepping := none }

section
variable {s : State} {st : StepSt}

theorem stepTrap_singleton {k i : Nat} (hrun : (s.thr (thrKey k i)).halted = false) (hmode : (s.thr (thrKey k i)).handler = false) :
    s.stepTrap k [i] =
      s.modThr (thrKey k i) fun t => t.enter { cause := .step, pc := t.pc } 0 (s.sibMask k [i]) true :=
  modThr_congr s (by simp only [hrun, hmode, Bool.false_eq_true, if_false])

/-- A single-step of one thread, which owes nothing and runs outside a handler: it traps, and one report is posted. -/
theorem stepEnd_of_single (ck : Nat) (htids : st.tids = [st.tid])
    (hlive : (s.thr (thrKey st.wg st.tid)).live = true) (hwatch : (s.thr (thrKey st.wg st.tid)).watch = none)
    (hrun : (s.thr (thrKey st.wg st.tid)).halted = false) (hthr : (s.thr (thrKey st.wg st.tid)).handler = false) :
    s.stepEnd ck st =
      let v := s.stepEnded ck st
      v.report st.wg 0x13 ((v.siblings st.wg (v.thr (thrKey st.wg st.tid))).filter fun i =>
        [st.tid].contains i && (v.thr (thrKey st.wg i)).pc == (v.thr (thrKey st.wg st.tid)).pc &&
          (v.thr (thrKey st.wg i)).handler == (v.thr (thrKey st.wg st.tid)).handler) := by
  have hfilter : (st.tids.filter fun i => (s.thr (thrKey st.wg i)).live) = [st.tid] := by
    rw [htids]
    simp [hlive]
  have hnone : s.watchers st.wg [st.tid] = [] := by simp [State.watchers, hwatch]
  have htook : ([st.tid].filter fun i => !st.handler && (s.thr (thrKey st.wg i)).handler) = [] := by simp [hthr]
  have hhalt : s.stepHalt st.wg [] [st.tid] = s.stepTrap st.wg [st.tid] := rfl
  simp only [State.stepEnd, hfilter, hnone, List.map_nil, List.isEmpty_nil, if_true, State.modTids, List.foldl_nil, hrun, htook, hhalt,
    stepTrap_singleton hrun hthr, Bool.false_eq_true, if_false]
  simp [State.stepEnded]

theorem report_of_ne_nil {wk cause : Nat} {tids : List Nat} (h : tids ≠ []) :
    ∃ r, s.report wk cause tids = s.mbPost (s.wg wk).pkg (s.ctx (s.wg wk).ctx).fn r := by
  obtain ⟨i, l, rfl⟩ := List.exists_cons_of_ne_nil h
  exact ⟨_, rfl⟩

/-- The stepped thread is in the report. -/
theorem stepEnd_posts (ck : Nat) (htids : st.tids = [st.tid])
    (hlive : (s.thr (thrKey st.wg st.tid)).live = true) (hwatch : (s.thr (thrKey st.wg st.tid)).watch = none)
    (hrun : (s.thr (thrKey st.wg st.tid)).halted = false) (hthr : (s.thr (thrKey st.wg st.tid)).handler = false)
    (hsize : st.tid < (s.wg st.wg).size) :
    ∃ r, s.stepEnd ck st = (s.stepEnded ck st).mbPost (s.wg st.wg).pkg (s.ctx (s.wg st.wg).ctx).fn r := by
  have hlive' : ((s.stepEnded ck st).thr (thrKey st.wg st.tid)).live = true := by
    rw [State.stepEnded, State.modCore_thr, State.modThr_self]
    exact hlive
  have hmem : st.tid ∈ (s.stepEnded ck st).liveTids st.wg := List.mem_filter.mpr ⟨List.mem_range.mpr hsize, hlive'⟩
  rw [stepEnd_of_single ck htids hlive hwatch hrun hthr]
  exact report_of_ne_nil (List.ne_nil_of_mem (a := st.tid) (by simp [State.siblings, hmem]))

end

/-! #### Words that a plane queue notes (08_planes R149) -/

/-- A scratchpad word is overwritten under the operations of one core. -/
def State.noteOld (s : State) (w ck : Nat) : State :=
  if (s.core ck).pq.isEmpty then s
  else s.modCore ck fun c =>
    { c with pq := c.pq.map fun o => if s.restoring (s.wg o.wg).gang then o else o.keep w (readWord s.mem w) }

/-- The core whose scratchpad holds a word. -/
def scratchCore (w : Nat) : Nat := coreKey (locPkg (8 * w)) ((8 * w % pkgSpan - 2 ^ 42) / 2 ^ 18)

theorem keepOld_eq (s : State) (w : Nat) : s.keepOld w = (s.noteOld w (scratchCore w)).noteOld w (scratchCore w + 1) := rfl

/-- An operation in the plane queue of core 0 has noted an overwritten word. -/
def State.Marked (s : State) : Prop := ∃ o ∈ (s.core 0).pq, o.old ≠ []

/-- An operation stands in the plane queue of core 0, and no gang is being restored. -/
def State.Queues (s : State) : Prop := s.gangs = [] ∧ (s.core 0).pq ≠ []

section
variable {s : State} (w ck : Nat)

theorem noteOld_gangs : (s.noteOld w ck).gangs = s.gangs := by
  unfold State.noteOld
  split <;> rfl

theorem noteOld_marked (h : s.Marked) : (s.noteOld w ck).Marked := by
  obtain ⟨o, ho, hold⟩ := h
  unfold State.noteOld
  split
  · exact ⟨o, ho, hold⟩
  · by_cases hk : ck = 0
    · subst hk
      refine ⟨_, by rw [State.modCore_self]; exact List.mem_map_of_mem ho, ?_⟩
      split
      · exact hold
      · exact List.cons_ne_nil _ _
    · exact ⟨o, by rw [State.modCore_core, if_neg hk]; exact ho, hold⟩

theorem noteOld_queues (h : s.Queues) : (s.noteOld w ck).Queues := by
  refine ⟨(noteOld_gangs w ck).trans h.1, ?_⟩
  unfold State.noteOld
  split
  · exact h.2
  · by_cases hk : ck = 0
    · subst hk
      rw [State.modCore_self]
      exact fun he => h.2 (List.map_eq_nil_iff.mp he)
    · rw [State.modCore_core, if_neg hk]
      exact h.2

theorem restoring_of_gangs_nil (h : s.gangs = []) (k : Nat) : s.restoring k = false := by
  have hgang : s.gang k = {} := by rw [State.gang, h]; rfl
  rw [State.restoring, hgang]
  rfl

theorem noteOld_marks (h : s.Queues) : (s.noteOld w 0).Marked := by
  obtain ⟨o, r, hq⟩ := List.exists_cons_of_ne_nil h.2
  refine ⟨o.keep w (readWord s.mem w), ?_, List.cons_ne_nil _ _⟩
  simp [State.noteOld, hq, restoring_of_gangs_nil h.1]

end

theorem keptByRecords_marked : KeptByRecords State.Marked where
  homeWord s w v m h := by
    cases hs : isScratch (8 * w) with
    | true =>
      rw [homeWord_of_scratch s v m hs, keepOld_eq]
      exact noteOld_marked w _ (noteOld_marked w _ h)
    | false =>
      obtain ⟨_, _, _, _, _, _, hu⟩ := homeWord_of_not_scratch s v m hs
      rw [hu]
      exact h
  poison _ _ h := h
  modFn _ _ _ h := h

theorem keptByRecords_queues : KeptByRecords State.Queues where
  homeWord s w v m h := by
    cases hs : isScratch (8 * w) with
    | true =>
      rw [homeWord_of_scratch s v m hs, keepOld_eq]
      exact noteOld_queues w _ (noteOld_queues w _ h)
    | false =>
      obtain ⟨_, _, _, _, _, _, hu⟩ := homeWord_of_not_scratch s v m hs
      rw [hu]
      exact h
  poison _ _ h := h
  modFn _ _ _ h := h

/-! #### The record that reaches the scratchpad -/

/-- Over a list one of whose elements turns one invariant into another. -/
theorem foldl_turns {α : Type} {I J : State → Prop} {f : State → α → State} {l : List α} {a : α} (ha : a ∈ l)
    (hI : ∀ s b, I s → I (f s b)) (hJ : ∀ s b, J s → J (f s b)) (hturn : ∀ s, I s → J (f s a)) {s : State} (h : I s) :
    J (l.foldl f s) := by
  obtain ⟨l1, l2, rfl⟩ := List.append_of_mem ha
  rw [List.foldl_append, List.foldl_cons]
  exact foldl_keeps hJ l2 (hturn _ (foldl_keeps hI l1 h))

section
variable {w : Nat} (hs : isScratch (8 * w) = true) (hc : scratchCore w = 0)
include hs hc

/-- A word of core 0's scratchpad is overwritten. -/
theorem bulkWord_marks {s : State} (h : s.Queues) (v : W64) : (s.bulkWord (8 * w) v).Marked := by
  have hword (d : W64) (m : StoreMode) : (s.homeWord w d m).Marked := by
    rw [homeWord_of_scratch s d m hs, keepOld_eq, hc]
    exact noteOld_marked w _ (noteOld_marks w h)
  unfold State.bulkWord State.homeStore
  rw [Nat.mul_div_cancel_left w (by decide)]
  split
  · exact keptByRecords_marked.poison _ _ (hword _ _)
  · exact hword _ _

/-- A record at the start of the package's memory that is long enough reaches it. -/
theorem bulkRec_marks {s : State} (h : s.Queues) {r : List Byte} (hr : w < r.length / 8) : (s.bulkRec 0 r).Marked := by
  refine foldl_turns (I := State.Queues) (J := State.Marked) (List.mem_range.mpr hr) (fun _ _ ht => keptByRecords_queues.homeStore ht _ _ _ _)
    (fun _ _ ht => keptByRecords_marked.homeStore ht _ _ _ _) (fun t ht => ?_) h
  rw [Nat.zero_add]
  exact bulkWord_marks hs hc ht _

end

/-- A record that waits for room goes out when there is some. -/
theorem mbFlushN_succ {s : State} {p fn n base size : Nat} {r : List Byte} {rest : List (List Byte)}
    (hout : (s.fn (fnKey p fn)).mbOut = r :: rest)
    (hring : ringOf (s.fn (fnKey p fn)).mbrbase (s.fn (fnKey p fn)).mbctl 4 3 = some (base, size))
    (hroom : (s.devRead p (base + 64 * size) 8 + 2 ^ 64 - s.devRead p (base + 64 * size + 8) 8) % 2 ^ 64 < size) :
    s.mbFlushN p fn (n + 1) =
      (((s.devRec p (base + 64 * (s.devRead p (base + 64 * size) 8 % size)) r).devWord p (base + 64 * size)
        (BitVec.ofNat 64 (s.devRead p (base + 64 * size) 8 + 1))).modFn (fnKey p fn) fun f => { f with mbOut := rest }).mbFlushN p fn n := by
  rw [State.mbFlushN]
  simp only [hout, hring, hroom, if_true]

/-- A function whose rings stand at the start of the package's memory, with records that wait for room. -/
def overrunFn (l : List (List Byte)) : Fn := { mbctl := 0x8000000000000000, mbOut := l }

theorem ringOf_overrun : ringOf 0 0x8000000000000000 4 3 = some (0, 16) := by decide

theorem devLoc_of_lt {s : State} {pa : Nat} (h : pa < 2 ^ 40) : s.devLoc 0 pa = some pa := by
  rw [State.devLoc, locLocal, if_pos h, locHbm, Nat.zero_mul, Nat.zero_add]

theorem devRead_of_mem_nil {s : State} {pa : Nat} (h : pa < 2 ^ 40) (hmem : s.mem = []) : s.devRead 0 pa 8 = 0 := by
  rw [State.devRead, devLoc_of_lt h, hmem]
  rfl

/-- The long record goes out first, and what follows it takes no mark back. -/
theorem mbPost_marks {s : State} {r : List Byte} (hr : 2 ^ 39 < r.length / 8) (hq : s.Queues) (hmem : s.mem = [])
    (hfn : s.fn (fnKey 0 0) = overrunFn [r]) (next : List Byte) : (s.mbPost 0 0 next).Marked := by
  have hplaced : (overrunFn [r]).mbctl.getLsbD 63 = true := show (0x8000000000000000#64).getLsbD 63 = true by decide
  let t := s.modFn (fnKey 0 0) fun f => { f with mbOut := f.mbOut ++ [next] }
  have hpost : s.mbPost 0 0 next = t.mbFlush 0 0 := if_pos (by rw [hfn]; exact hplaced)
  have ht : t.fn (fnKey 0 0) = overrunFn [r, next] := by
    rw [State.modFn_self, hfn]
    rfl
  have htmem : t.mem = [] := hmem
  have htail : t.devRead 0 (0 + 64 * 16) 8 = 0 := devRead_of_mem_nil (by decide) htmem
  have hhead : t.devRead 0 (0 + 64 * 16 + 8) 8 = 0 := devRead_of_mem_nil (by decide) htmem
  have hring : ringOf (t.fn (fnKey 0 0)).mbrbase (t.fn (fnKey 0 0)).mbctl 4 3 = some (0, 16) := by
    rw [ht]
    exact ringOf_overrun
  have hslot : t.devRec 0 (0 + 64 * (0 % 16)) r = t.bulkRec 0 r := by
    rw [State.devRec, devLoc_of_lt (by decide)]
  have hmark : (t.bulkRec 0 r).Marked := bulkRec_marks (w := 2 ^ 39) (by decide) (by decide) (keptByRecords_queues.modFn _ _ _ hq) hr
  rw [hpost, State.mbFlush, show (t.fn (fnKey 0 0)).mbOut.length = 2 by rw [ht]; rfl,
    mbFlushN_succ (r := r) (rest := [next]) (by rw [ht]; rfl) hring (by rw [htail, hhead]; decide), htail, hslot]
  exact keptByRecords_marked.mbFlushN _ _ _ (keptByRecords_marked.modFn _ _ _ (keptByRecords_marked.devWord hmark _ _ _))

/-! #### The refutation -/

/-- A record of zeros, longer by one word than what lies before core 0's scratchpad. -/
def overrunRecord : List Byte := List.replicate (2 ^ 42 + 8) 0

theorem length_overrunRecord : overrunRecord.length = 2 ^ 42 + 8 := List.length_replicate

/-- An operation that has noted no word. -/
def overrunOp : PlaneOp := { id := 0, kind := .accz }

/-- The single-step of the one thread of workgroup 0, whose word has issued. -/
def overrunStep : StepSt := { wg := 0, tid := 0, tids := [0], pc := 0, handler := false, issued := true }

/-- A single-step on core 0, in whose plane queue an operation stands, while a record waits in the mailbox of function 0. -/
def overrunState (r : List Byte) : State :=
  { State.reset with
    wgs := [(0, { size := 1 })], threads := [(0, {})], fns := [(0, overrunFn [r])],
    cores := [(0, { dbgctl := 1, stepping := some overrunStep, pq := [overrunOp] })] }

theorem exec_stepComplete_of_issued {s : State} {p core : Nat} {st : StepSt} (h : (s.core (coreKey p core)).stepping = some st)
    (hissued : st.issued = true) : exec (.stepComplete p core) s = .next (s.stepEnd (coreKey p core) st) := by
  have hexec : exec (.stepComplete p core) s = execStepComplete p core s := rfl
  simp [hexec, execStepComplete, h, hissued]

/-- Refutes O53: the record that waits is written before the report of the step, and reaches the scratchpad of core 0; the operation in that
core's plane queue has noted the word there. -/
theorem not_debugRequestsServe : ¬ Obligations.DebugRequestsServe := by
  unfold Obligations.DebugRequestsServe
  intro h
  obtain ⟨-, hstep⟩ := h (overrunState overrunRecord) 0
  obtain ⟨u, hu, -, hcores⟩ := hstep 0 overrunStep rfl rfl rfl rfl rfl rfl rfl rfl
  obtain ⟨r, hr⟩ := stepEnd_posts (s := overrunState overrunRecord) (st := overrunStep) 0 rfl rfl rfl rfl rfl (by decide)
  have hexec := exec_stepComplete_of_issued (s := overrunState overrunRecord) (p := 0) (core := 0) (st := overrunStep) rfl rfl
  have hu' : u = (State.stepEnded (overrunState overrunRecord) 0 overrunStep).mbPost 0 0 r :=
    (Host.Outcome.next.inj (hu.symm.trans hexec)).trans hr
  have hqueue : ((State.stepEnded (overrunState overrunRecord) 0 overrunStep).core 0).pq = [overrunOp] := rfl
  have hmarked : u.Marked := by
    rw [hu']
    exact mbPost_marks (by rw [length_overrunRecord]; decide) ⟨rfl, by rw [hqueue]; exact List.cons_ne_nil _ _⟩ rfl rfl r
  obtain ⟨o, ho, hold⟩ := hmarked
  have hpq : (u.core 0).pq = [overrunOp] := by
    rw [hcores 0]
    rfl
  rw [hpq] at ho
  exact hold (by rw [List.mem_singleton.mp ho]; rfl)

end Sys2Proof.Machine

/-! ### Every step answers, and keeps memory's canonical form (11_memories R200, 24_host R366)

Each instruction has its own lemma in Laws/Meanings: a word keeps memory canonical at a site, an event anywhere. What is left is that a turn
runs a word only at a site, and that the parts of an issue opportunity around the word keep memory too. -/

namespace Sys2Proof.Machine

/-! #### Words keep the canonical form of memory -/

section
variable {i : Instr} {s : State} (hc : s.cur.isSome = true) (hm : Memory.wf s.mem = true)
include hc hm

theorem exec_pair_keeps {a b : Half} (hp : pairOf i = some (a, b)) : Keeps (exec i s) := by
  rw [← mkPair_of_pairOf hp, exec_mkPair]
  exact runPair_keeps hc hm

theorem exec_group0_keeps (hg : i.group = some 0) : Keeps (exec i s) := by
  cases i
  case add | sub | mul | min | max | and | or | xor | andn | addc | mulh =>
    dsimp only [exec]
    exact runF3_keeps hc hm
  case shl | shr | sar | rol | bfx | bfi =>
    dsimp only [exec]
    exact runF3b_keeps hc hm
  case abs | popc | clz | ctz | brev =>
    dsimp only [exec]
    exact runF2_keeps hc hm
  case cmp => exact execCmp_keeps _ _ _ s hc hm
  case mad | sel | moviI64 | lea | addi =>
    dsimp only [exec]
    exact runLane_keeps hc hm
  case div => exact execDiv_keeps _ _ _ s hc hm
  case rem => exact execRem_keeps _ _ s hc hm
  case mov => exact execMov_keeps _ _ _ _ _ s hc hm
  case movi => exact execMovi_keeps _ _ _ s hc hm
  all_goals cases hg

theorem exec_group1_keeps (hg : i.group = some 1) : Keeps (exec i s) := by
  cases i
  case fadd | fsub | fmin | fmax =>
    dsimp only [exec]
    exact runFl3_keeps hc hm
  case fclass | frcp | fsqrt | frsq | fexp2 | flog2 | fsint | fcost | frnd | fcvti =>
    dsimp only [exec]
    exact runFl2_keeps hc hm
  case fmul | ffma | fcmp | fcvt | fscaleacc =>
    dsimp only [exec]
    exact runLane_keeps hc hm
  case fpack => exact execFpack_keeps _ _ _ s hc hm
  case funpk => exact execFunpk_keeps _ _ s hc hm
  case icvtf => exact execIcvtf_keeps _ _ _ _ s hc hm
  case fdot2 => exact execFdot2_keeps _ _ _ s hc hm
  case ordkey => exact execOrdkey_keeps _ _ s hc hm
  all_goals cases hg

theorem exec_group2_keeps (hg : i.group = some 2) : Keeps (exec i s) := by
  cases i
  case perm => exact execPerm_keeps _ _ s hc hm
  case shufx => exact execShufx_keeps _ _ _ _ s hc hm
  case matchL => exact execMatchL_keeps _ _ _ s hc hm
  case reduce => exact execReduce_keeps _ _ _ _ s hc hm
  case scan => exact execScan_keeps _ _ _ _ s hc hm
  case lscan => exact execLscan_keeps _ _ _ s hc hm
  case cavity => exact execCavity_keeps _ _ _ _ s hc hm
  case fwds => exact execFwds_keeps _ _ _ _ _ _ s hc hm
  case fwdr => exact execFwdr_keeps _ _ _ _ _ s hc hm
  case vote | elect =>
    dsimp only [exec]
    exact runLane_keeps hc hm
  all_goals cases hg

theorem exec_group3_keeps (hg : i.group = some 3) : Keeps (exec i s) := by
  cases i
  case tdesc => exact execTdesc_keeps _ _ _ s hc hm
  case plane | align | mma | mmac | accz | accst =>
    dsimp only [exec]
    exact runWord_keeps (queueBody_keeps _ _) hc hm
  case cbload => exact execCbload_keeps _ s hc hm
  case accrd => exact execAccrd_keeps _ _ _ _ _ s hc hm
  case mmawait => exact execMmawait_keeps _ _ s hc hm
  all_goals cases hg

theorem exec_group4_keeps (hg : i.group = some 4) : Keeps (exec i s) := by
  cases i
  case bra | brc | call | ret | jmpi | jmpiLink =>
    dsimp only [exec]
    exact runWord_keeps (jumpBody_keeps _ _) hc hm
  case rjoin | nop | shield | boundNone =>
    dsimp only [exec]
    exact runWord_keeps (threadBody_keeps _) hc hm
  case rwait => exact execRwait_keeps _ _ s hc hm
  case yield => exact execYield_keeps _ s hc hm
  case exit => exact execExit_keeps _ s hc hm
  case cancel => exact execCancel_keeps _ s hc hm
  case bound => exact execBound_keeps _ _ _ _ s hc hm
  case incofr => exact execIncofr_keeps _ _ _ _ _ s hc hm
  case incrd => exact execIncrd_keeps _ _ _ _ s hc hm
  case incwait => exact execIncwait_keeps _ _ _ _ s hc hm
  all_goals cases hg

theorem exec_group5_keeps (hg : i.group = some 5) : Keeps (exec i s) := by
  cases i
  case ld | st | ldv | stv | atom | acas | ldfe | stfe | fetagRead | fetagFill | fetagEmpty =>
    dsimp only [exec]
    exact runWord_keeps (memBody_keeps _ _) hc hm
  case fence => exact execFence_keeps _ _ s hc hm
  case pref => exact execPref_keeps _ s hc hm
  all_goals cases hg

theorem exec_group6_keeps (hg : i.group = some 6) : Keeps (exec i s) := by
  cases i
  case tcopy | tgather | cavred | loopnest | search | send | hspub =>
    dsimp only [exec]
    exact runWord_keeps (eBody_keeps _ _) hc hm
  case spawn => exact execSpawn_keeps _ _ _ s hc hm
  case ringset => exact execRingset_keeps _ _ _ _ s hc hm
  case recvPoll | recvWait =>
    dsimp only [exec]
    exact runWord_keeps (recvBody_keeps _ _ _) hc hm
  case bar => exact execBar_keeps _ _ _ _ s hc hm
  case baro => exact execBaro_keeps _ _ _ _ s hc hm
  case barw => exact execBarw_keeps _ _ _ _ s hc hm
  case waitptr => exact execWaitptr_keeps _ _ _ s hc hm
  case waitptrTicket => exact execWaitptrTicket_keeps _ _ s hc hm
  case cntrd => exact execCntrd_keeps _ _ _ _ s hc hm
  case tlbinvPage | tlbinvVf =>
    dsimp only [exec]
    exact runWord_keeps (tlbinvBody_keeps _ _) hc hm
  case lpark => exact execLpark_keeps _ _ _ s hc hm
  case lwake => exact execLwake_keeps _ _ _ s hc hm
  case slotset => exact execSlotset_keeps _ _ s hc hm
  all_goals cases hg

theorem exec_group7_keeps (hg : i.group = some 7) : Keeps (exec i s) := by
  cases i
  case srd => exact execSrd_keeps _ _ _ _ s hc hm
  case swr => exact execSwr_keeps _ _ _ _ s hc hm
  case trap | brk =>
    dsimp only [exec]
    exact runWord_keeps (trapBody_keeps _) hc hm
  case rte => exact execRte_keeps _ _ s hc hm
  case event | eventMbx =>
    dsimp only [exec]
    exact runWord_keeps (eventBody_keeps _ _ _) hc hm
  case halt => exact execHalt_keeps _ s hc hm
  case icflush => exact execIcflush_keeps _ _ s hc hm
  all_goals cases hg

/-- A word issued at a site, in full form or a pair, answers a state with canonical memory. -/
theorem exec_word_keeps (hi : isEvent i = false) : Keeps (exec i s) := by
  cases hp : pairOf i with
  | some p => exact exec_pair_keeps hc hm hp
  | none =>
    obtain ⟨w, he⟩ := Option.isSome_iff_exists.mp (Option.isNone_eq_false_iff.mp hi)
    obtain ⟨k, hg⟩ := Option.isSome_iff_exists.mp (group_isSome hp he)
    match k, hg with
    | 0, hg => exact exec_group0_keeps hc hm hg
    | 1, hg => exact exec_group1_keeps hc hm hg
    | 2, hg => exact exec_group2_keeps hc hm hg
    | 3, hg => exact exec_group3_keeps hc hm hg
    | 4, hg => exact exec_group4_keeps hc hm hg
    | 5, hg => exact exec_group5_keeps hc hm hg
    | 6, hg => exact exec_group6_keeps hc hm hg
    | 7, hg => exact exec_group7_keeps hc hm hg

end

/-! #### Events keep it too, whether or not a fragment issues -/

section
variable {i : Instr} {s : State} (hm : Memory.wf s.mem = true)
include hm

theorem exec_event_keeps (he : isEvent i = true) : Keeps (exec i s) := by
  cases i
  case faultRecordPost => exact execFaultRecordPost_keeps _ _ s hm
  case fbflush => exact execFbflush_keeps _ s hm
  case accessReplay => exact execAccessReplay_keeps _ s hm
  case tlbWalk => exact execTlbWalk_keeps _ _ _ _ s hm
  case storeAtHome => exact execStoreAtHome_keeps _ s hm
  case noticeInstall => exact execNoticeInstall_keeps _ s hm
  case loadReturn => exact execLoadReturn_keeps _ s hm
  case atomReturn => exact execAtomReturn_keeps _ s hm
  case tagWaitAbandon => exact execTagWaitAbandon_keeps _ _ s hm
  case peerAck => exact execPeerAck_keeps _ s hm
  case scFencePlace => exact execScFencePlace_keeps _ s hm
  case peerErrorResponse => exact execPeerErrorResponse_keeps _ s hm
  case hostMemWrite => exact execHostMemWrite_keeps _ _ _ s hm
  case offerArrival => exact execOfferArrival_keeps _ s hm
  case sillageDelivery => exact execSillageDelivery_keeps _ s hm
  case dominanceCancel => exact execDominanceCancel_keeps _ s hm
  case rbRelease => exact execRbRelease_keeps _ _ s hm
  case phaseComplete => exact execPhaseComplete_keeps _ _ _ s hm
  case barrierWake => exact execBarrierWake_keeps _ s hm
  case incwaitWake => exact execIncwaitWake_keeps _ s hm
  case waitptrWake => exact execWaitptrWake_keeps _ s hm
  case recvTake => exact execRecvTake_keeps _ s hm
  case forwardArrival => exact execForwardArrival_keeps _ s hm
  case threadAged => exact execThreadAged_keeps _ s hm
  case yieldExpiry => exact execYieldExpiry_keeps _ s hm
  case planeOpRetire => exact execPlaneOpRetire_keeps _ _ s hm
  case cbloadDataReturn => exact execCbloadDataReturn_keeps _ s hm
  case copyChunkDeliver => exact execCopyChunkDeliver_keeps _ _ _ s hm
  case commandComplete => exact execCommandComplete_keeps _ s hm
  case collectiveForm => exact execCollectiveForm_keeps _ s hm
  case stagingGrant => exact execStagingGrant_keeps _ s hm
  case chunkArrival => exact execChunkArrival_keeps _ _ _ s hm
  case reduceBlockDispatch => exact execReduceBlockDispatch_keeps _ _ s hm
  case reduceBlockEnd => exact execReduceBlockEnd_keeps _ _ s hm
  case deliveryArrival => exact execDeliveryArrival_keeps _ s hm
  case loopIterationStart => exact execLoopIterationStart_keeps _ _ s hm
  case loopPlaneStep => exact execLoopPlaneStep_keeps _ _ s hm
  case loopWakeFill => exact execLoopWakeFill_keeps _ _ s hm
  case loopPermitReturn => exact execLoopPermitReturn_keeps _ _ s hm
  case loopnestAbort => exact execLoopnestAbort_keeps _ _ s hm
  case messageAppend => exact execMessageAppend_keeps _ s hm
  case messageRetry => exact execMessageRetry_keeps _ s hm
  case launchAccept => exact execLaunchAccept_keeps _ s hm
  case podRegisterAnswer => exact execPodRegisterAnswer_keeps _ _ s hm
  case launchComplete => exact execLaunchComplete_keeps _ _ s hm
  case launchEventPost => exact execLaunchEventPost_keeps _ _ s hm
  case gangPlace => exact execGangPlace_keeps _ s hm
  case placementWaitExpiry => exact execPlacementWaitExpiry_keeps _ _ s hm
  case gangRetire => exact execGangRetire_keeps _ s hm
  case engineStopAck => exact execEngineStopAck_keeps _ _ s hm
  case hardwareSave => exact execHardwareSave_keeps _ s hm
  case preemptFree => exact execPreemptFree_keeps _ s hm
  case gangResume => exact execGangResume_keeps _ s hm
  case gather => exact execGather_keeps _ _ s hm
  case workgroupDispatch => exact execWorkgroupDispatch_keeps _ _ s hm
  case stealRequest => exact execStealRequest_keeps _ _ s hm
  case stealArrival => exact execStealArrival_keeps _ _ s hm
  case drydownCheckStart => exact execDrydownCheckStart_keeps _ s hm
  case reexecutionEnd => exact execReexecutionEnd_keeps _ s hm
  case arbitrationEnd => exact execArbitrationEnd_keeps _ s hm
  case haltwg => exact execHaltwg_keeps _ _ s hm
  case release => exact execRelease_keeps _ _ s hm
  case step => exact execStep_keeps _ _ s hm
  case stepComplete => exact execStepComplete_keeps _ _ s hm
  case rdreg => exact execRdreg_keeps _ _ s hm
  case wrreg => exact execWrreg_keeps _ _ s hm
  case wrregf => exact execWrregf_keeps _ _ s hm
  case wrdbg => exact execWrdbg_keeps _ _ s hm
  case queryDistribute => exact execQueryDistribute_keeps _ s hm
  case bucketWalk => exact execBucketWalk_keeps _ _ s hm
  case resultAppend => exact execResultAppend_keeps _ _ s hm
  case hspubPerform => exact execHspubPerform_keeps _ _ s hm
  case dataFlit => exact execDataFlit_keeps _ _ s hm
  case ackFlit => exact execAckFlit_keeps _ _ s hm
  case replayRequest => exact execReplayRequest_keeps _ _ s hm
  case ackTimeout => exact execAckTimeout_keeps _ _ s hm
  case lossDetect => exact execLossDetect_keeps _ _ s hm
  case lossReport => exact execLossReport_keeps _ _ s hm
  case stripeFlit => exact execStripeFlit_keeps _ _ s hm
  case slotStart => exact execSlotStart_keeps _ s hm
  case guardStart => exact execGuardStart_keeps _ s hm
  case slotEnd => exact execSlotEnd_keeps _ s hm
  case slotTableStart => exact execSlotTableStart_keeps _ s hm
  case routerGate => exact execRouterGate_keeps _ _ s hm
  case routerWake => exact execRouterWake_keeps _ _ s hm
  case podtSync => exact execPodtSync_keeps _ s hm
  case coldReset => exact execColdReset_keeps _ s hm
  case reset => exact execReset_keeps _ _ s hm
  case flr => exact execFlr_keeps _ _ s hm
  case d3hotEntry => exact execD3hotEntry_keeps _ _ s hm
  case bootst => exact execBootst_keeps _ _ s hm
  case bootStageDone => exact execBootStageDone_keeps _ _ s hm
  case hostRegWrite => exact execHostRegWrite_keeps _ _ _ _ s hm
  case lqctl => exact execLqctl_keeps _ _ _ s hm
  case eqctl => exact execEqctl_keeps _ _ _ s hm
  case mbctl => exact execMbctl_keeps _ _ _ s hm
  case abort => exact execAbort_keeps _ _ _ s hm
  case tlbinvh => exact execTlbinvh_keeps _ _ s hm
  case dryfrach => exact execDryfrach_keeps _ _ s hm
  case suspw => exact execSuspw_keeps _ _ s hm
  case cntclrDropped => exact execCntclrDropped_keeps _ _ s hm
  case cntclrPerf => exact execCntclrPerf_keeps _ _ s hm
  case cntclrTelemetry => exact execCntclrTelemetry_keeps _ s hm
  case telemetryPost => exact execTelemetryPost_keeps _ s hm
  case iCycle => exact execICycle_keeps _ s hm
  case podtNs => exact execPodtNs_keeps _ s hm
  case flitSent => exact execFlitSent_keeps _ _ s hm
  case preemptionRequest => exact execPreemptionRequest_keeps _ s hm
  case planeArrayPause => exact execPlaneArrayPause_keeps _ _ s hm
  case icflushCompletion => exact execIcflushCompletion_keeps _ s hm
  case lightConfirmation => exact execLightConfirmation_keeps _ _ _ s hm
  all_goals cases he

/-- At a site, every instruction does. -/
theorem exec_keeps (hc : s.cur.isSome = true) : Keeps (exec i s) := by
  cases hi : isEvent i with
  | true => exact exec_event_keeps hm hi
  | false => exact exec_word_keeps hc hm hi

end

/-! #### An issue opportunity -/

/-- What an attempt to issue leaves has canonical memory, and the attempt does not stop the machine. -/
def Tried.Keeps : Tried → Prop
  | .issued t | .took t => Memory.wf t.mem = true
  | .held => True
  | .stop _ => False

theorem runTail_keeps {s : State} (c : Site) (l : List Instr) (handler : Bool) (hm : Memory.wf s.mem = true) : Keeps (runTail l c handler s) := by
  induction l generalizing s c with
  | nil => exact (keeps_next s).mpr hm
  | cons i r ih =>
    rw [runTail]
    dsimp only
    split
    · exact (keeps_next s).mpr hm
    · obtain ⟨t, hx, ht⟩ := exec_keeps (i := i)
        (s := { s with cur := some { c with tids := s.follows c handler, pc := c.nextPc, word := (encode i).getD c.word } }) hm rfl
      rw [hx]
      exact ih _ ht

section
variable {s : State} (c : Site) (hm : Memory.wf s.mem = true)
include hm

/-- A word runs at its site, and the tail that fuses with it behind it. -/
theorem runDecoded_keeps (i : Instr) : (runDecoded i c s).Keeps := by
  obtain ⟨t, hx, ht⟩ := exec_keeps (i := i) (s := { s with cur := some c }) hm rfl
  unfold runDecoded
  dsimp only
  rw [hx]
  dsimp only
  split
  · trivial
  · split
    · exact ht
    · split
      · exact ht
      · obtain ⟨u, hu, hw⟩ := runTail_keeps c (s.fuses c i) (s.inHandler c) (show Memory.wf (t.count (coreKey c.pkg c.core) 2 1).mem = true from ht)
        rw [hu]
        exact hw

theorem issueSite_keeps : (issueSite c s).Keeps := by
  unfold issueSite
  split
  · trivial
  · next i0 _ _ =>
    have hf := State.fetch_mem s c.wg i0 c.pc
    generalize s.fetch c.wg i0 c.pc = r at hf ⊢
    obtain ⟨f, t⟩ := r
    have ht : Memory.wf t.mem = true := (congrArg Memory.wf hf).trans hm
    cases f with
    | refuse d => exact State.trapAll_wf t _ _ _ ht
    | absent va => exact (congrArg Memory.wf (State.parkFetch_mem t c va)).trans ht
    | word w =>
      dsimp only
      split
      · exact State.illegal_wf _ _ ht
      · exact runDecoded_keeps _ ht _

end

theorem issueFirst_keeps {s : State} (ck slot : Nat) (l : List Group) (hm : Memory.wf s.mem = true) : Keeps (issueFirst s ck slot l) := by
  induction l generalizing s with
  | nil => exact (keeps_next s).mpr hm
  | cons g r ih =>
    have hb := State.boundary_wf s g hm
    generalize hs : s.boundary g = b at hb
    obtain ⟨s1, tids, took⟩ := b
    have hsite := issueSite_keeps (g.site s1 slot tids) (s := s1) hb
    unfold issueFirst
    rw [hs]
    dsimp only
    split
    · simpa using hm
    · split
      · simpa using hb
      · split
        · exact ih hb
        · cases ht : issueSite (g.site s1 slot tids) s1 <;> rw [ht] at hsite
          case issued t => simpa [Tried.Keeps] using hsite
          case took t => simpa [Tried.Keeps] using hsite
          case held => exact ih hb
          case stop o => exact hsite.elim

theorem issueTurn_keeps {s : State} (p core slot : Nat) (hm : Memory.wf s.mem = true) : Keeps (issueTurn p core slot s) := by
  unfold issueTurn
  dsimp only
  split
  · exact (keeps_next s).mpr hm
  · exact issueFirst_keeps _ _ _ hm

/-! #### A turn and a step -/

theorem runTurn_keeps (t : Turn) {s : State} (hm : Memory.wf s.mem = true) : Keeps (runTurn t s) := by
  cases t with
  | issue p core slot => exact issueTurn_keeps p core slot hm
  | event i =>
    simp only [runTurn]
    split
    · next hi => exact exec_event_keeps hm hi
    · exact (keeps_next s).mpr hm
  | upsetMem loc fatal => exact (keeps_next _).mpr (State.upsetMem_wf s loc fatal hm)
  | upsetAcc p core acc fatal => exact (keeps_next _).mpr (State.upsetAcc_wf s p core acc fatal hm)
  | circuit p f far =>
    simp only [runTurn]
    split <;> exact (keeps_next _).mpr hm
  | upsetX thr reg fatal => exact (keeps_next _).mpr ((congrArg Memory.wf (State.upsetX_mem s thr reg fatal)).trans hm)
  | upsetK wk reg fatal => exact (keeps_next _).mpr ((congrArg Memory.wf (State.upsetK_mem s wk reg fatal)).trans hm)
  | upsetSys p core => exact (keeps_next _).mpr ((congrArg Memory.wf (State.upsetSys_mem s p core)).trans hm)
  | dark | damage | config => exact (keeps_next _).mpr hm

theorem settle_keeps {o : Host.Outcome State Fault Refusal} (h : Keeps o) : Keeps (settle o) := by
  obtain ⟨t, rfl, ht⟩ := h
  exact (keeps_next _).mpr ht

/-- Settles O59: no turn stops the machine, for a word runs only at a site, and each word and each event keeps memory canonical. -/
theorem stepKeepsMemory : Obligations.StepKeepsMemory := fun s hm =>
  settle_keeps (runTurn_keeps _ ((congrArg Memory.wf (State.nextTurn_mem s)).trans hm))

end Sys2Proof.Machine

/-! ### A fault buffer of 2^64 records (11_memories R207, R208)

FBTAIL and FBHEAD count records modulo 2^64, and a host write of FBSIZE is taken for 12 to 24 alone (24_host R363). `FaultEventsAnswer` asks
only that FBSIZE is not 0: at 69 the buffer holds 2^64 records, the record that takes its last room brings FBTAIL round to FBHEAD, and the
buffer counts as empty. -/

namespace Sys2Proof.Machine

/-- A record of die 0 that is not stale. -/
def lastFault : FaultRec := { gen := 0, launchid := 0, va := 0x30000, core := 0, kind := .read, fn := 0 }

/-- The buffer has room for one record more: FBTAIL is one behind FBHEAD. -/
def vastState : State :=
  { State.reset with dies := [(0, { faults := [lastFault] })], pkgs := [(0, { fbbase := 0x50000, fbsize := 69, fbhead := 1, fbtail := 0 })] }

/-- The flag stands as it stood, down. -/
theorem vastState_fbfull : (match exec (.faultRecordPost 0 0) vastState with
    | .next u => (u.pkg 0).fbfull
    | _ => true) = false := by decide

/-- Refutes O41: the record that takes the last room of the buffer does not set the full flag. -/
theorem not_faultEventsAnswer : ¬ Obligations.FaultEventsAnswer := by
  unfold Obligations.FaultEventsAnswer
  intro h
  obtain ⟨-, -, -, -, -, -, -, hlast, -⟩ := h vastState
  obtain ⟨u, hu, -, -, hfull⟩ := hlast 0 0 lastFault [] (by decide) (by decide) (by decide) (by decide)
  have hdown := vastState_fbfull
  rw [hu] at hdown
  exact Bool.false_ne_true (hdown.symm.trans hfull)

end Sys2Proof.Machine

/-! ### Bytes of memory (12_ordering R212, 18_queues R283)

Canonical memories that read alike are equal, so that what a store leaves is one equation: `writeBytes` of its bytes at its place. -/

namespace Sys2Proof.Machine

/-! #### Runs of bytes -/

theorem readBytes_eq_map (m : List Host.Cell) (a n : Nat) : readBytes m a n = (List.range n).map fun i => readByte m (a + i) := by
  induction n generalizing a with
  | zero => rfl
  | succ n ih =>
    rw [readBytes, ih, List.range_succ_eq_map, List.map_cons, List.map_map]
    congr 2
    exact funext fun i => congrArg (readByte m) (show a + 1 + i = a + (i + 1) by omega)

theorem getD_readBytes (m : List Host.Cell) (a : Nat) {n i : Nat} (h : i < n) (b : Byte) :
    (readBytes m a n).getD i b = readByte m (a + i) := by
  simp [readBytes_eq_map, h]

theorem readBytes_congr {m m' : List Host.Cell} {a n : Nat} (h : ∀ x, a ≤ x → x < a + n → readByte m x = readByte m' x) :
    readBytes m a n = readBytes m' a n := by
  rw [readBytes_eq_map, readBytes_eq_map]
  exact List.map_congr_left fun i hi => h _ (by omega) (by have := List.mem_range.mp hi; omega)

theorem readBytes_append (m : List Host.Cell) (a n k : Nat) : readBytes m a (n + k) = readBytes m a n ++ readBytes m (a + n) k := by
  induction n generalizing a with
  | zero => simp [readBytes]
  | succ n ih =>
    rw [show n + 1 + k = n + k + 1 by omega, readBytes, ih, readBytes, show a + (n + 1) = a + 1 + n by omega]
    rfl

theorem readByte_writeBytes {m : List Host.Cell} (h : Memory.wf m = true) (a : Nat) (l : List Byte) (x : Nat) :
    readByte (writeBytes m a l) x = if a ≤ x ∧ x < a + l.length then l.getD (x - a) 0 else readByte m x := by
  split
  · next hx =>
    have := readByte_writeBytes_in a l (x - a) h (by omega)
    rwa [show a + (x - a) = x by omega] at this
  · exact readByte_writeBytes_out m a l x (by omega)

/-- Bytes written are read back. -/
theorem readBytes_writeBytes {m : List Host.Cell} (h : Memory.wf m = true) (a : Nat) (l : List Byte) :
    readBytes (writeBytes m a l) a l.length = l := by
  rw [readBytes_eq_map]
  refine List.ext_getElem (by simp) fun i hi _ => ?_
  have hi' : i < l.length := by simpa using hi
  simp [readByte_writeBytes h, hi']

/-- Bytes elsewhere are read as before. -/
theorem readBytes_writeBytes_out (m : List Host.Cell) {a b n : Nat} (l : List Byte) (h : b + n ≤ a ∨ a + l.length ≤ b) :
    readBytes (writeBytes m a l) b n = readBytes m b n :=
  readBytes_congr fun x _ _ => readByte_writeBytes_out m a l x (by omega)

theorem writeBytes_append (m : List Host.Cell) (a : Nat) (l r : List Byte) :
    writeBytes m a (l ++ r) = writeBytes (writeBytes m a l) (a + l.length) r := by
  induction l generalizing m a with
  | nil => rfl
  | cons v l ih => simp only [List.cons_append, writeBytes, ih, List.length_cons]; congr 1; omega

/-! #### Canonical memories that read alike -/

theorem tfind_of_mem {α : Type} {m : Tbl α} (h : tsorted m = true) {p : Nat × α} (hp : p ∈ m) : tfind m p.1 = some p.2 := by
  induction m with
  | nil => cases hp
  | cons q r ih =>
    obtain ⟨k, v⟩ := q
    obtain ⟨ha, hr⟩ := (tsorted_cons k v r).mp h
    rcases List.mem_cons.mp hp with rfl | hp
    · simp [tfind]
    · have : k ≠ p.1 := Nat.ne_of_lt (ha p hp)
      simp [tfind, this, ih hr hp]

theorem mem_of_tfind {α : Type} {m : Tbl α} {k : Nat} {v : α} (h : tfind m k = some v) : (k, v) ∈ m := by
  induction m with
  | nil => cases h
  | cons q r ih =>
    obtain ⟨j, w⟩ := q
    simp only [tfind] at h
    split at h
    · next hj => simp_all
    · exact List.mem_cons_of_mem _ (ih h)

theorem readByte_ne_of_mem {m : List Host.Cell} (h : Memory.wf m = true) {p : Host.Cell} (hp : p ∈ m) :
    readByte m p.1 = p.2 ∧ p.2 ≠ unlisted := by
  obtain ⟨hs, hn⟩ := (wf_iff m).mp h
  exact ⟨by simp [readByte, tget, tfind_of_mem hs hp], hn p hp⟩

theorem mem_of_readByte_ne {m : List Host.Cell} {a : Nat} (h : readByte m a ≠ unlisted) : (a, readByte m a) ∈ m := by
  unfold readByte tget at h ⊢
  cases hf : tfind m a with
  | none => simp [hf] at h
  | some v => exact mem_of_tfind hf

theorem memory_ext {m m' : List Host.Cell} (h : Memory.wf m = true) (h' : Memory.wf m' = true) (hr : ∀ x, readByte m x = readByte m' x) :
    m = m' := by
  have hsub {m m' : List Host.Cell} (h : Memory.wf m = true) (hr : ∀ x, readByte m x = readByte m' x) (p : Host.Cell) (hp : p ∈ m) :
      p ∈ m' := by
    obtain ⟨h1, h2⟩ := readByte_ne_of_mem h hp
    have := mem_of_readByte_ne (m := m') (a := p.1) (by rw [← hr, h1]; exact h2)
    rwa [← hr, h1] at this
  have hp := ((wf_pairwise m).mp h).1
  have hp' := ((wf_pairwise m').mp h').1
  have hnd {m : List Host.Cell} (h : m.Pairwise fun a b => a.1 < b.1) : m.Nodup := h.imp fun hab he => by subst he; omega
  refine List.Perm.eq_of_pairwise (le := fun a b : Host.Cell => a.1 < b.1) (fun a b _ _ hab hba => by omega) hp hp' ?_
  exact (List.perm_ext_iff_of_nodup (hnd hp) (hnd hp')).mpr fun p => ⟨hsub h hr p, hsub h' (fun x => (hr x).symm) p⟩

/-! #### Little-endian numbers -/

theorem getD_natLe (n v i : Nat) : (natLe n v).getD i 0 = if i < n then BitVec.ofNat 8 (v / 256 ^ i) else 0 := by
  induction n generalizing v i with
  | zero => simp [natLe]
  | succ n ih =>
    cases i with
    | zero => simp [natLe]
    | succ i =>
      rw [natLe, List.getD_cons_succ, ih, Nat.div_div_eq_div_mul, Nat.pow_succ, Nat.mul_comm 256]
      simp

theorem natLe_mod (n v : Nat) : natLe n (v % 256 ^ n) = natLe n v := by
  refine List.ext_getElem (by simp) fun i hi _ => ?_
  have hi' : i < n := by simpa using hi
  have hl (w : Nat) (h : i < (natLe n w).length) : (natLe n w)[i] = BitVec.ofNat 8 (w / 256 ^ i) := by
    have := getD_natLe n w i
    simpa [hi'] using this
  rw [hl, hl]
  apply BitVec.eq_of_toNat_eq
  obtain ⟨k, rfl⟩ : ∃ k, n = i + 1 + k := ⟨n - (i + 1), by omega⟩
  simp only [BitVec.toNat_ofNat]
  rw [show 256 ^ (i + 1 + k) = 256 ^ i * (256 * 256 ^ k) by ring, Nat.mod_mul_right_div_self,
    show (2 : Nat) ^ 8 = 256 by norm_num, Nat.mod_mul_right_mod]

theorem leNat_lt (l : List Byte) : leNat l < 256 ^ l.length := by
  induction l with
  | nil => simp [leNat]
  | cons b r ih =>
    have := b.isLt
    simp only [leNat, List.length_cons, Nat.pow_succ]
    omega

theorem natLe_leNat (l : List Byte) : natLe l.length (leNat l) = l := by
  induction l with
  | nil => rfl
  | cons b r ih =>
    have hb := b.isLt
    have h1 : (b.toNat + 256 * leNat r) / 256 = leNat r := by omega
    simp only [leNat, List.length_cons, natLe, h1, ih, List.cons.injEq, and_true]
    apply BitVec.eq_of_toNat_eq
    simp only [BitVec.toNat_ofNat]
    omega

theorem leNat_natLe (n v : Nat) : leNat (natLe n v) = v % 256 ^ n := by
  induction n generalizing v with
  | zero => simp [natLe, leNat, Nat.mod_one]
  | succ n ih =>
    rw [natLe, leNat, ih, Nat.pow_succ, Nat.mul_comm (256 ^ n), Nat.mod_mul]
    simp

theorem leNat_append (l r : List Byte) : leNat (l ++ r) = leNat l + 256 ^ l.length * leNat r := by
  induction l with
  | nil => simp [leNat]
  | cons b l ih => simp only [List.cons_append, leNat, ih, List.length_cons, Nat.pow_succ]; ring

/-- A byte of a run's number is the byte of the run. -/
theorem leNat_byte (l : List Byte) (i : Nat) : BitVec.ofNat 8 (leNat l / 256 ^ i) = l.getD i 0 := by
  by_cases hi : i < l.length
  · have := getD_natLe l.length (leNat l) i
    rw [natLe_leNat, if_pos hi] at this
    exact this.symm
  · rw [Nat.div_eq_of_lt (Nat.lt_of_lt_of_le (leNat_lt l) (Nat.pow_le_pow_right (by omega) (by omega)))]
    simp [Nat.le_of_not_lt hi]

/-- The number of part of a run. -/
theorem leNat_take_drop (l : List Byte) (o n : Nat) : leNat ((l.drop o).take n) = leNat l / 256 ^ o % 256 ^ n := by
  have hd : leNat (l.drop o) = leNat l / 256 ^ o := by
    conv_rhs => rw [← List.take_append_drop o l, leNat_append]
    by_cases ho : o ≤ l.length
    · rw [List.length_take_of_le ho, Nat.add_mul_div_left _ _ (by positivity),
        Nat.div_eq_of_lt (by simpa [List.length_take_of_le ho] using leNat_lt (l.take o)), Nat.zero_add]
    · rw [List.drop_of_length_le (by omega), leNat, Nat.mul_zero, Nat.add_zero, Nat.div_eq_of_lt]
      exact Nat.lt_of_lt_of_le (leNat_lt _) (Nat.pow_le_pow_right (by omega) (by simp))
  rw [← hd]
  generalize l.drop o = k
  conv_rhs => rw [← List.take_append_drop n k, leNat_append]
  by_cases hn : n ≤ k.length
  · rw [List.length_take_of_le hn, Nat.add_mul_mod_self_left,
      Nat.mod_eq_of_lt (by simpa [List.length_take_of_le hn] using leNat_lt (k.take n))]
  · rw [List.drop_of_length_le (by omega), leNat, Nat.mul_zero, Nat.add_zero, Nat.mod_eq_of_lt]
    exact Nat.lt_of_lt_of_le (leNat_lt _) (Nat.pow_le_pow_right (by omega) (by simp))

theorem length_take_drop {l : List Byte} {o n : Nat} (h : o + n ≤ l.length) : ((l.drop o).take n).length = n := by
  simp; omega

/-- A field written out again is the record's bytes. -/
theorem natLe_fld {r : List Byte} {o n : Nat} (h : o + n ≤ r.length) : natLe n (fld r o n) = (r.drop o).take n := by
  have := natLe_leNat ((r.drop o).take n)
  rwa [length_take_drop h] at this

end Sys2Proof.Machine

namespace Sys2Proof.Machine

/-! #### Words -/

theorem natLe_readWord (m : List Host.Cell) (w : Nat) : natLe 8 (readWord m w).toNat = readBytes m (8 * w) 8 := by
  have hlt := leNat_lt (readBytes m (8 * w) 8)
  rw [length_readBytes] at hlt
  rw [readWord, BitVec.toNat_ofNat, Nat.mod_eq_of_lt (by simpa using hlt)]
  have := natLe_leNat (readBytes m (8 * w) 8)
  rwa [length_readBytes] at this

theorem toNat_readWord (m : List Host.Cell) (w : Nat) : (readWord m w).toNat = leNat (readBytes m (8 * w) 8) := by
  rw [readWord, BitVec.toNat_ofNat, Nat.mod_eq_of_lt (by simpa using leNat_lt (readBytes m (8 * w) 8))]

/-- A word whose bytes from `off` up are replaced, byte by byte. -/
theorem natLe_wordSet (v : W64) {off n : Nat} (d : W64) (h : off + n ≤ 8) :
    natLe 8 (wordSet v off n d).toNat = (natLe 8 v.toNat).take off ++ natLe n d.toNat ++ (natLe 8 v.toNat).drop (off + n) := by
  have hv : leNat (natLe 8 v.toNat) = v.toNat := by
    rw [leNat_natLe, Nat.mod_eq_of_lt]
    exact v.isLt
  have hlo : leNat ((natLe 8 v.toNat).take off) = v.toNat % 2 ^ (8 * off) := by
    have := leNat_take_drop (natLe 8 v.toNat) 0 off
    simpa [hv, Nat.pow_mul] using this
  have hhi : leNat ((natLe 8 v.toNat).drop (off + n)) = v.toNat / 2 ^ (8 * (off + n)) := by
    have := leNat_take_drop (natLe 8 v.toNat) (off + n) 8
    rw [List.take_of_length_le (by simp), hv, Nat.mod_eq_of_lt] at this
    · rw [this, Nat.pow_mul]
    · exact Nat.lt_of_le_of_lt (Nat.div_le_self _ _) v.isLt
  generalize hl : (natLe 8 v.toNat).take off ++ natLe n d.toNat ++ (natLe 8 v.toNat).drop (off + n) = l
  have hlen : l.length = 8 := by subst hl; simp; omega
  have hnum : leNat l = v.toNat % 2 ^ (8 * off) + d.toNat % 2 ^ (8 * n) * 2 ^ (8 * off) +
      v.toNat / 2 ^ (8 * (off + n)) * 2 ^ (8 * (off + n)) := by
    subst hl
    rw [leNat_append, leNat_append, hlo, hhi, leNat_natLe]
    simp only [List.length_append, List.length_take, length_natLe, Nat.min_eq_left (show off ≤ 8 by omega)]
    rw [show (256 : Nat) = 2 ^ 8 by norm_num, ← Nat.pow_mul, ← Nat.pow_mul, ← Nat.pow_mul]
    ring
  have hlt := leNat_lt l
  rw [hlen] at hlt
  have hset : (wordSet v off n d).toNat = leNat l := by
    rw [wordSet, BitVec.toNat_ofNat, ← hnum, Nat.mod_eq_of_lt (by simpa using hlt)]
  rw [hset, ← hlen]
  exact natLe_leNat l

/-- Bytes of a word, as a number. -/
theorem toNat_wordPart (v : W64) {off n : Nat} (h : off + n ≤ 8) :
    (wordPart v off n).toNat = leNat (((natLe 8 v.toNat).drop off).take n) := by
  have hv : leNat (natLe 8 v.toNat) = v.toNat := by
    rw [leNat_natLe, Nat.mod_eq_of_lt]
    exact v.isLt
  rw [leNat_take_drop, hv, wordPart, BitVec.toNat_ofNat, Nat.mod_eq_of_lt, Nat.pow_mul, Nat.pow_mul]
  refine Nat.lt_of_lt_of_le (Nat.mod_lt _ (by positivity)) (Nat.pow_le_pow_right (by omega) (by omega))

theorem readBytes_take_drop (m : List Host.Cell) (a : Nat) {o n k : Nat} (h : o + n ≤ k) :
    ((readBytes m a k).drop o).take n = readBytes m (a + o) n := by
  rw [show k = o + (n + (k - (o + n))) by omega, readBytes_append, readBytes_append,
    List.drop_left' (length_readBytes _ _ _), List.take_left' (length_readBytes _ _ _)]

/-- Bytes of a word in memory are the bytes that stand there. -/
theorem wordPart_readWord (m : List Host.Cell) {loc n : Nat} (h : loc % 8 + n ≤ 8) :
    wordPart (readWord m (loc / 8)) (loc % 8) n = BitVec.ofNat 64 (leNat (readBytes m loc n)) := by
  apply BitVec.eq_of_toNat_eq
  have hlt := leNat_lt (readBytes m loc n)
  have hle : 256 ^ (readBytes m loc n).length ≤ 256 ^ 8 := Nat.pow_le_pow_right (by omega) (by simp; omega)
  rw [toNat_wordPart _ h, natLe_readWord, readBytes_take_drop m _ h, Nat.div_add_mod, BitVec.toNat_ofNat, Nat.mod_eq_of_lt (by omega)]

/-! #### Stores -/

theorem writeBytes_readBytes {m : List Host.Cell} (hm : Memory.wf m = true) (a n : Nat) : writeBytes m a (readBytes m a n) = m := by
  refine memory_ext (wf_writeBytes _ _ hm) hm fun x => ?_
  rw [readByte_writeBytes hm, length_readBytes]
  split
  · rw [getD_readBytes m a (by omega)]; congr 1; omega
  · rfl

theorem writeWord_wordSet {m : List Host.Cell} (hm : Memory.wf m = true) {loc n : Nat} (d : W64) (h : loc % 8 + n ≤ 8) :
    writeWord m (loc / 8) (wordSet (readWord m (loc / 8)) (loc % 8) n d) = writeBytes m loc (natLe n d.toNat) := by
  have hloc : 8 * (loc / 8) + loc % 8 = loc := Nat.div_add_mod loc 8
  have hlo : (readBytes m (8 * (loc / 8)) 8).take (loc % 8) = readBytes m (8 * (loc / 8)) (loc % 8) := by
    have := readBytes_take_drop m (8 * (loc / 8)) (o := 0) (n := loc % 8) (k := 8) (by omega)
    simpa using this
  have hhi : (readBytes m (8 * (loc / 8)) 8).drop (loc % 8 + n) = readBytes m (loc + n) (8 - (loc % 8 + n)) := by
    have := readBytes_take_drop m (8 * (loc / 8)) (o := loc % 8 + n) (n := 8 - (loc % 8 + n)) (k := 8) (by omega)
    rwa [List.take_of_length_le (by simp), ← Nat.add_assoc, hloc] at this
  rw [writeWord, natLe_wordSet _ _ h, natLe_readWord, hlo, hhi, writeBytes_append, writeBytes_append, writeBytes_readBytes hm,
    length_readBytes, hloc, List.length_append, length_readBytes, length_natLe, ← Nat.add_assoc, hloc,
    ← readBytes_writeBytes_out m (a := loc) (natLe n d.toNat) (.inr (by simp))]
  exact writeBytes_readBytes (wf_writeBytes _ _ hm) _ _

/-- A store at its home writes its bytes and no others. -/
theorem homeStore_mem_eq {s : State} (hm : s.MemOk) {loc n : Nat} (d : W64) (m : StoreMode) (h : loc % 8 + n ≤ 8) :
    (s.homeStore loc n d m).mem = writeBytes s.mem loc (natLe n d.toNat) := by
  rw [State.homeStore_mem, writeWord_wordSet hm d h]

theorem bulkWord_mem {s : State} (hm : s.MemOk) {loc : Nat} (v : W64) (h : loc % 8 = 0) :
    (s.bulkWord loc v).mem = writeBytes s.mem loc (natLe 8 v.toNat) := homeStore_mem_eq hm v _ (by omega)

theorem bulkCount_mem {s : State} (hm : s.MemOk) {loc : Nat} (v : W64) (h : loc % 8 = 0) :
    (s.bulkCount loc v).mem = writeBytes s.mem loc (natLe 8 v.toNat) := homeStore_mem_eq hm v _ (by omega)

theorem take_succ_words (r : List Byte) (n : Nat) : r.take (8 * (n + 1)) = r.take (8 * n) ++ (r.drop (8 * n)).take 8 := by
  rw [Nat.mul_succ, List.take_add]

theorem bulkRec_words_mem {s : State} (hm : s.MemOk) {loc : Nat} (r : List Byte) (h : loc % 8 = 0) (n : Nat) (hn : 8 * n ≤ r.length) :
    ((List.range n).foldl (fun s i => s.bulkWord (loc + 8 * i) (BitVec.ofNat 64 (fld r (8 * i) 8))) s).mem =
      writeBytes s.mem loc (r.take (8 * n)) := by
  induction n with
  | zero => rfl
  | succ n ih =>
    have hok := State.MemOk.foldl (f := fun s i => s.bulkWord (loc + 8 * i) (BitVec.ofNat 64 (fld r (8 * i) 8)))
      (fun _ _ hs => hs.bulkWord _ _) (List.range n) hm
    have hb : natLe 8 (BitVec.ofNat 64 (fld r (8 * n) 8)).toNat = (r.drop (8 * n)).take 8 := by
      rw [BitVec.toNat_ofNat, show (2 : Nat) ^ 64 = 256 ^ 8 by norm_num, natLe_mod, natLe_fld (by omega)]
    rw [List.range_succ, List.foldl_append, List.foldl_cons, List.foldl_nil, bulkWord_mem hok _ (by omega), ih (by omega), hb,
      take_succ_words, writeBytes_append, List.length_take_of_le (by omega)]

/-- An agent's record writes its bytes and no others. -/
theorem bulkRec_mem {s : State} (hm : s.MemOk) {loc : Nat} {r : List Byte} (h : loc % 8 = 0) (hr : r.length % 8 = 0) :
    (s.bulkRec loc r).mem = writeBytes s.mem loc r := by
  have := bulkRec_words_mem hm r h (r.length / 8) (by omega)
  rwa [List.take_of_length_le (by omega)] at this

theorem devRec_mem {s : State} (hm : s.MemOk) {p pa loc : Nat} {r : List Byte} (hl : s.devLoc p pa = some loc) (h : loc % 8 = 0)
    (hr : r.length % 8 = 0) : (s.devRec p pa r).mem = writeBytes s.mem loc r := by
  rw [State.devRec, hl]
  exact bulkRec_mem hm h hr

theorem devWord_mem {s : State} (hm : s.MemOk) {p pa loc : Nat} (v : W64) (hl : s.devLoc p pa = some loc) (h : loc % 8 = 0) :
    (s.devWord p pa v).mem = writeBytes s.mem loc (natLe 8 v.toNat) := by
  rw [State.devWord, hl]
  exact bulkCount_mem hm v h

/-! #### What stores leave -/

/-- Queue entries are noted under a store that overwrites scratchpad words; nothing else of a core. -/
def Core.SameButQueue (k k' : Core) : Prop := k' = { k with pq := k'.pq } ∧ (k.pq = [] → k'.pq = [])

/-- Stores change memory and poison, what the dies have still to install, and what the plane queues note. -/
structure State.Stores (s u : State) : Prop where
  frame : u = { s with
    mem := u.mem, views := u.views, viewVer := u.viewVer, homeVer := u.homeVer, notices := u.notices, nextId := u.nextId,
    cores := u.cores, poison := u.poison }
  cores : ∀ k, (s.core k).SameButQueue (u.core k)

theorem Core.SameButQueue.refl (k : Core) : k.SameButQueue k := ⟨rfl, id⟩

theorem Core.SameButQueue.trans {a b c : Core} (h : a.SameButQueue b) (h' : b.SameButQueue c) : a.SameButQueue c :=
  ⟨by rw [h'.1, h.1], h'.2 ∘ h.2⟩

theorem State.Stores.refl (s : State) : s.Stores s := ⟨rfl, fun _ => .refl _⟩

theorem State.Stores.trans {s t u : State} (h : s.Stores t) (h' : t.Stores u) : s.Stores u where
  frame := by rw [h'.frame, h.frame]
  cores k := (h.cores k).trans (h'.cores k)

theorem State.Stores.poison {s u : State} (h : s.Stores u) (l : List Nat) : s.Stores { u with poison := l } where
  frame := by rw [h.frame]
  cores := h.cores

theorem State.Stores.foldl {α : Type} {f : State → α → State} (hf : ∀ s a, State.Stores s (f s a)) (l : List α) (s : State) :
    s.Stores (l.foldl f s) := foldl_keeps (fun t a ht => ht.trans (hf t a)) l (.refl s)

theorem noteOld_stores (s : State) (w ck : Nat) : s.Stores (s.noteOld w ck) := by
  unfold State.noteOld
  split
  · exact .refl s
  · next hq =>
    refine ⟨rfl, fun k => ?_⟩
    rw [State.modCore_core]
    split
    · next hk => subst hk; exact ⟨rfl, fun h => absurd (by rw [h]; rfl) hq⟩
    · exact .refl _

theorem State.Stores.setMem {s u : State} (h : s.Stores u) (mem : List Host.Cell) : s.Stores { u with mem := mem } where
  frame := by rw [h.frame]
  cores := h.cores

theorem homeWord_stores (s : State) (w : Nat) (v : W64) (m : StoreMode) : s.Stores (s.homeWord w v m) := by
  cases hs : isScratch (8 * w) with
  | true =>
    rw [homeWord_of_scratch s v m hs, keepOld_eq]
    exact ((noteOld_stores _ _ _).trans (noteOld_stores _ _ _)).setMem _
  | false =>
    obtain ⟨_, _, _, _, _, _, hu⟩ := homeWord_of_not_scratch s v m hs
    rw [hu]
    exact ⟨rfl, fun _ => .refl _⟩

theorem homeStore_stores (s : State) (loc n : Nat) (d : W64) (m : StoreMode) : s.Stores (s.homeStore loc n d m) := by
  unfold State.homeStore
  dsimp only
  split
  · exact (homeWord_stores _ _ _ _).poison _
  · exact homeWord_stores _ _ _ _

theorem bulkRec_stores (s : State) (loc : Nat) (r : List Byte) : s.Stores (s.bulkRec loc r) :=
  .foldl (fun s _ => homeStore_stores s _ _ _ _) _ s

theorem devRec_stores (s : State) (p pa : Nat) (r : List Byte) : s.Stores (s.devRec p pa r) := by
  unfold State.devRec
  split
  · exact bulkRec_stores _ _ _
  · exact .refl s

theorem devWord_stores (s : State) (p pa : Nat) (v : W64) : s.Stores (s.devWord p pa v) := by
  unfold State.devWord
  split
  · exact homeStore_stores _ _ _ _ _
  · exact .refl s

section
variable {s u : State} (h : s.Stores u)
include h

theorem State.Stores.threads : u.threads = s.threads := by rw [h.frame]

theorem State.Stores.wgs : u.wgs = s.wgs := by rw [h.frame]

theorem State.Stores.pkgs : u.pkgs = s.pkgs := by rw [h.frame]

theorem State.Stores.fns : u.fns = s.fns := by rw [h.frame]

theorem State.Stores.accs : u.accs = s.accs := by rw [h.frame]

theorem State.Stores.cmds : u.cmds = s.cmds := by rw [h.frame]

theorem State.Stores.empties : u.empties = s.empties := by rw [h.frame]

theorem State.Stores.devLoc (p pa : Nat) : u.devLoc p pa = s.devLoc p pa := by rw [h.frame]; rfl

end

end Sys2Proof.Machine

/-! ### Event records (18_queues R297) -/

namespace Sys2Proof.Machine

@[simp] theorem length_eventBytes (e : Event) : (eventBytes e).length = 32 := by simp [eventBytes]

theorem ringOf_placed {base ctl : W64} (h : ctl.getLsbD 63 = true) (lo hi : Nat) :
    ringOf base ctl lo hi = some (base.toNat, 2 ^ (ctl.toNat % 2 ^ (hi + 1) + lo)) := by
  simp [ringOf, h, bits]

/-- A number of 64 bits and one more, as a count in a ring's control block. -/
theorem natLe_ofNat64 (v : Nat) : natLe 8 (BitVec.ofNat 64 v).toNat = natLe 8 v := by
  rw [BitVec.toNat_ofNat, show (2 : Nat) ^ 64 = 256 ^ 8 by norm_num, natLe_mod]

/-- A record that finds room is written at slot TAIL, TAIL advances, and the function is told. -/
theorem putEvent_of_room {s : State} {p : Nat} {e : Event} {base n : Nat}
    (hring : ringOf (s.fn (fnKey p e.fn)).eqbase (s.fn (fnKey p e.fn)).eqctl 6 4 = some (base, n))
    (hroom : (s.devRead p (base + 32 * n) 8 + 2 ^ 64 - s.devRead p (base + 32 * n + 8) 8) % 2 ^ 64 < n) :
    s.putEvent p e = some (((s.devRec p (base + 32 * (s.devRead p (base + 32 * n) 8 % n)) (eventBytes e)).devWord p (base + 32 * n)
      (BitVec.ofNat 64 (s.devRead p (base + 32 * n) 8 + 1))).modFn (fnKey p e.fn) fun f => { f with msix := true }) := by
  simp only [State.putEvent, hring, hroom, if_true]

theorem post_of_putEvent {s t : State} {p : Nat} {e : Event} (hty : e.ty ≠ 2) (h : s.putEvent p e = some t) : s.post p e = t := by
  simp [State.post, hty, h]

/-- Settles O34: the record and the count are two stores, at places that do not meet. -/
theorem eventRecordsPost : Obligations.EventRecordsPost := by
  intro s p e base n l lt f hm hty hplaced hbase hn tail hroom hl hlt hl8 hlt8 hle
  have hring : ringOf f.eqbase f.eqctl 6 4 = some (base, n) := by rw [ringOf_placed hplaced, hbase, hn]; rfl
  rw [post_of_putEvent hty (putEvent_of_room hring hroom)]
  generalize hr : s.devRec p (base + 32 * (tail % n)) (eventBytes e) = r
  have hstores : s.Stores r := hr ▸ devRec_stores s p _ _
  have hrm : r.mem = writeBytes s.mem l (eventBytes e) := by rw [← hr]; exact devRec_mem hm hl hl8 (by simp)
  have hrok : r.MemOk := by unfold State.MemOk; rw [hrm]; exact wf_writeBytes _ _ hm
  have hwm := devWord_mem hrok (BitVec.ofNat 64 (tail + 1)) ((hstores.devLoc _ _).trans hlt) hlt8
  rw [natLe_ofNat64] at hwm
  intro u
  have hum : u.mem = writeBytes r.mem lt (natLe 8 (tail + 1)) := hwm
  refine ⟨?_, ?_, fun a ha => ?_, ?_, ?_⟩
  · rw [hum, readBytes_writeBytes_out _ _ (.inl hle), hrm]
    have := readBytes_writeBytes hm l (eventBytes e)
    rwa [length_eventBytes] at this
  · rw [hum]
    have := readBytes_writeBytes hrok lt (natLe 8 (tail + 1))
    rwa [length_natLe] at this
  · rw [hum, readByte_writeBytes_out _ _ _ _ (by rw [length_natLe]; omega), hrm,
      readByte_writeBytes_out _ _ _ _ (by rw [length_eventBytes]; omega)]
  · exact congrArg Fn.msix (State.modFn_self _ _ _)
  · exact ((devWord_stores r p _ _).threads).trans hstores.threads

end Sys2Proof.Machine

/-! ### Accesses at their homes (12_ordering R210 to R213, R218, 13_memory_instr R229 to R234) -/

namespace Sys2Proof.Machine

/-! #### Clocks change nothing else of an access (R212) -/

/-- An access but for the clock that it carries. -/
def Access.unclocked (a : Access) : Access := { a with vec := none, deps := [] }

theorem id_of_unclocked {a b : Access} (h : a.unclocked = b.unclocked) : a.id = b.id := by
  have := congrArg Access.id h
  exact this

theorem loc_of_unclocked {a b : Access} (h : a.unclocked = b.unclocked) : a.loc = b.loc := by
  have := congrArg Access.loc h
  exact this

/-- The state is `s` but for clocks: those of the dies, and those that accesses carry. -/
structure State.Clocks (s u : State) : Prop where
  frame : u = { s with dies := u.dies, accs := u.accs }
  accs : u.accs.map Access.unclocked = s.accs.map Access.unclocked

theorem State.Clocks.refl (s : State) : s.Clocks s := ⟨rfl, rfl⟩

theorem State.Clocks.trans {s t u : State} (h : s.Clocks t) (h' : t.Clocks u) : s.Clocks u where
  frame := by rw [h'.frame, h.frame]
  accs := h'.accs.trans h.accs

theorem modAcc_clocks (s : State) (id : Nat) (f : Access → Access) (hf : ∀ a, (f a).unclocked = a.unclocked) : s.Clocks (s.modAcc id f) where
  frame := rfl
  accs := by
    simp only [State.modAcc, List.map_map]
    refine List.map_congr_left fun a _ => ?_
    simp only [Function.comp]
    split
    · exact hf a
    · rfl

theorem stamp_clocks (s : State) (a : Access) : s.Clocks (s.stamp a) := by
  unfold State.stamp
  split
  · exact .refl s
  · exact .trans (t := s.modDie a.dkey fun d => { d with vec := _ }) ⟨rfl, rfl⟩ (modAcc_clocks _ _ _ fun _ => rfl)

theorem stampUpTo_clocks (s : State) (a : Access) : s.Clocks (s.stampUpTo a) := by
  refine foldl_keeps (I := s.Clocks) (fun t b ht => ht.trans ?_) s.accs (.refl s)
  split
  · exact stamp_clocks t b
  · exact .refl t

theorem find?_unclocked (l : List Access) (id : Nat) :
    (l.find? fun a => a.id == id).map Access.unclocked = (l.map Access.unclocked).find? fun a => a.id == id := by
  rw [List.find?_map]
  rfl

theorem State.Clocks.find? {s u : State} (h : s.Clocks u) (id : Nat) :
    (u.accs.find? fun a => a.id == id).map Access.unclocked = (s.accs.find? fun a => a.id == id).map Access.unclocked := by
  rw [find?_unclocked, find?_unclocked, h.accs]

/-- The access of an identifier, in a state that differs from another by clocks. -/
theorem State.Clocks.acc? {s u : State} (h : s.Clocks u) {id : Nat} {a : Access} (ha : s.acc? id = some a) :
    ∃ b, u.acc? id = some b ∧ b.unclocked = a.unclocked := by
  have := h.find? id
  rw [show s.accs.find? (fun a => a.id == id) = some a from ha] at this
  exact Option.map_eq_some_iff.mp this

theorem id_of_acc? {s : State} {id : Nat} {a : Access} (h : s.acc? id = some a) : a.id = id := by
  simpa using List.find?_some h

/-! #### Data steps -/

/-- What a data step at a home leaves of the state: the access still stands there, and the threads and workgroups are as they were. -/
structure State.DataStep (s : State) (id : Nat) (a : Access) (u : State) : Prop where
  acc : ∃ b, u.acc? id = some b ∧ b.unclocked = a.unclocked
  threads : u.threads = s.threads
  wgs : u.wgs = s.wgs

theorem performData_spec {s : State} {id : Nat} {a : Access} (hm : s.MemOk) (ha : s.acc? id = some a) {n : Nat} (d : W64) (past : Vec)
    (hfit : a.loc % 8 + n ≤ 8) :
    (s.performData a n d past).mem = writeBytes s.mem a.loc (natLe n d.toNat) ∧ s.DataStep id a (s.performData a n d past) := by
  have hid := id_of_acc? ha
  have hc := stampUpTo_clocks s a
  obtain ⟨b, hb, hba⟩ := hc.acc? ha
  have hget : ((s.stampUpTo a).accs.find? (·.id == a.id)).getD a = b := by
    rw [hid]; exact congrArg (·.getD a) hb
  have hloc : b.loc = a.loc := loc_of_unclocked hba
  have hbid : b.id = id := (id_of_unclocked hba).trans hid
  simp only [State.performData, hget]
  generalize hv : b.vec.map (b.joined past) = v
  have hc2 := hc.trans (modAcc_clocks (s.stampUpTo a) b.id (fun b => { b with vec := v }) fun _ => rfl)
  generalize (s.stampUpTo a).modAcc b.id (fun b => { b with vec := v }) = t at hc2
  have htm : t.mem = s.mem := by rw [hc2.frame]
  have htok : t.MemOk := by unfold State.MemOk; rw [htm]; exact hm
  have hs := homeStore_stores t b.loc n d (b.mode v)
  have hsm : (t.homeStore b.loc n d (b.mode v)).mem = writeBytes s.mem a.loc (natLe n d.toNat) :=
    (homeStore_mem_eq htok d (b.mode v) (hloc ▸ hfit)).trans (by rw [hloc, htm])
  generalize t.homeStore b.loc n d (b.mode v) = w at hs hsm
  have hacc : ∃ x, w.acc? id = some x ∧ x.unclocked = a.unclocked := by
    unfold State.acc?; rw [hs.accs]; exact hc2.acc? ha
  have hthr : w.threads = s.threads := hs.threads.trans (by rw [hc2.frame])
  have hwg : w.wgs = s.wgs := hs.wgs.trans (by rw [hc2.frame])
  split
  · exact ⟨hsm, hacc, hthr, hwg⟩
  · exact ⟨hsm, hacc, hthr, hwg⟩

theorem acc?_modAcc {s : State} {id : Nat} {a : Access} (h : s.acc? id = some a) (f : Access → Access) (hf : ∀ b, (f b).id = b.id) :
    (s.modAcc id f).acc? id = some (f a) := by
  have hp : ((fun b : Access => b.id == id) ∘ fun b => if b.id == id then f b else b) = fun b => b.id == id := by
    funext b
    simp only [Function.comp]
    split <;> simp [hf]
  simp only [State.acc?, State.modAcc, List.find?_map, hp]
  rw [show s.accs.find? (fun b => b.id == id) = some a from h]
  simp [id_of_acc? h]

theorem homeOfAtom_update (op : AOp) (w : W2) (sg : Bool) {a : Access} (hk : a.kind = .atom op w sg) (old : Nat) :
    a.update old = (true, atomNew op w sg (originPay a.pc a.lane) old a.data.toNat) := by
  simp [Access.update, hk]

/-! #### Returns (R212, R214) -/

theorem settleAcq_frame (s : State) (k : Nat) :
    s.settleAcq k = { s with views := (s.settleAcq k).views, threads := (s.settleAcq k).threads } := by
  unfold State.settleAcq
  dsimp only
  split
  · split
    · split <;> rfl
    · rfl
  · rfl

/-- The end of an acquire frees its thread, and leaves the others. -/
theorem settleAcq_thr (s : State) (k j : Nat) :
    (s.settleAcq k).thr j = if j = k then
        { s.thr k with hold := ((s.settleAcq k).thr k).hold, since := ((s.settleAcq k).thr k).since }
      else s.thr j := by
  have hmod (t : State) (ht : t.threads = s.threads) : ∀ j, (t.endHold (k / 2048) (k % 2048)).thr j =
      if j = k then { s.thr k with hold := .none, since := t.clockOf (t.wg (k / 2048)).pkg } else s.thr j := by
    intro j
    have hthr : t.thr = s.thr := funext fun i => congrArg (tget ({} : Thread) · i) ht
    rw [State.endHold, State.wake, State.modThr_thr, thrKey_div_mod, hthr]
    by_cases hj : k = j
    · subst hj; simp
    · simp [hj, Ne.symm hj]
  unfold State.settleAcq
  dsimp only
  split
  · split
    · rw [hmod _ (by split <;> rfl), hmod _ (by split <;> rfl)]
      by_cases hj : j = k
      · subst hj; simp
      · simp [hj]
    · split
      · next hj => subst hj; rfl
      · rfl
  · split
    · next hj => subst hj; rfl
    · rfl

theorem retireAcc_frame (s : State) (id : Nat) : s.retireAcc id = { s with accs := (s.retireAcc id).accs } := by
  unfold State.retireAcc
  split
  · rfl
  · split <;> rfl

/-- A value that returns into x registers of its thread. -/
theorem finishReturn_x {s : State} {a : Access} {d : Nat} {t : ITy} (v : W64) (hc : a.cancelled = false) (hr : a.ret = .x d t)
    (hlo : a.dropLo = false) (hhi : a.dropHi = false) :
    let u := s.finishReturn a v
    u.thr a.thr = { ((s.thr a.thr).wxs (put (BitVec.ofNat 7 d) t v.toNat)).raise a.flags with
      hold := (u.thr a.thr).hold, since := (u.thr a.thr).since } ∧
    (∀ k, k ≠ a.thr → u.thr k = s.thr k) ∧ u.mem = s.mem ∧ u.wgs = s.wgs := by
  have hwords : a.words v = put (BitVec.ofNat 7 d) t v.toNat := by simp [Access.words, hr, hlo, hhi]
  have hdel : s.deliver a v = s.modThr a.thr fun x => (x.wxs (put (BitVec.ofNat 7 d) t v.toNat)).raise a.flags := by
    simp [State.deliver, hc, hr, hwords]
  simp only [State.finishReturn, hdel]
  generalize hw : ((s.modThr a.thr fun x => (x.wxs (put (BitVec.ofNat 7 d) t v.toNat)).raise a.flags).modAcc a.id
    fun b => { b with done := true }).retireAcc a.id = w
  have hwt : w.thr = (s.modThr a.thr fun x => (x.wxs (put (BitVec.ofNat 7 d) t v.toNat)).raise a.flags).thr := by
    rw [← hw, retireAcc_frame]; rfl
  refine ⟨?_, fun k hk => ?_, ?_, ?_⟩
  · rw [settleAcq_thr, if_pos rfl, hwt, State.modThr_self]
  · rw [settleAcq_thr, if_neg hk, hwt, State.modThr_thr, if_neg hk.symm]
  · rw [State.settleAcq_mem, ← hw, State.retireAcc_mem]; rfl
  · rw [settleAcq_frame, ← hw, retireAcc_frame]; rfl

/-! #### Tags (R233) -/

theorem mem_ninsert (l : List Nat) (k x : Nat) : x ∈ ninsert l k ↔ x = k ∨ x ∈ l := by
  induction l with
  | nil => simp [ninsert]
  | cons j r ih =>
    simp only [ninsert]
    split
    · next h => subst h; simp
    · split
      · simp
      · simp [ih]; tauto

theorem isFull_setTag (s : State) (w : Nat) (full : Bool) (x : Nat) :
    (s.setTag w full).isFull x = if x = w then full else s.isFull x := by
  unfold State.setTag State.isFull
  cases full with
  | true => by_cases hx : x = w <;> simp [hx]
  | false => by_cases hx : x = w <;> simp [hx, mem_ninsert]

theorem serveLdfe_of_none {s : State} {w : Nat} (h : s.waiter w .ldfe = none) : s.serveLdfe w = s := by
  unfold State.serveLdfe
  rw [h]

theorem admitStfe_of_none {s : State} {w : Nat} (h : s.waiter w .stfe = none) : s.admitStfe w = s := by
  unfold State.admitStfe
  rw [h]

theorem setTag_threads (s : State) (w : Nat) (full : Bool) : (s.setTag w full).threads = s.threads := by
  cases full <;> rfl

theorem setTag_wgs (s : State) (w : Nat) (full : Bool) : (s.setTag w full).wgs = s.wgs := by
  cases full <;> rfl

/-- A tag operation for which no other access waits changes its tag. -/
theorem tagStep_spec {s : State} {a : Access} (hk : a.kind = .tagFill ∨ a.kind = .tagEmpty)
    (hl : s.waiter (a.loc / 8) .ldfe = none) (hs : s.waiter (a.loc / 8) .stfe = none) :
    (∀ w, (s.tagStep a).isFull w = if w = a.loc / 8 then a.kind == .tagFill else s.isFull w) ∧ (s.tagStep a).mem = s.mem ∧
      (s.tagStep a).threads = s.threads ∧ (s.tagStep a).wgs = s.wgs := by
  have hsame {b : Bool} (h : s.isFull (a.loc / 8) = b) (w : Nat) : s.isFull w = if w = a.loc / 8 then b else s.isFull w := by
    split
    · next hw => rw [hw, h]
    · rfl
  rcases hk with hk | hk <;> cases hf : s.isFull (a.loc / 8)
  · have hstep : s.tagStep a = (s.setTag (a.loc / 8) true).setFillPast (a.loc / 8)
        (if isScratch a.loc then Vec.zero else (s.die a.dkey).vec) := by
      simp only [State.tagStep, hk, hf]
      exact serveLdfe_of_none hl
    rw [hstep, hk]
    exact ⟨fun w => isFull_setTag s _ true w, rfl, rfl, rfl⟩
  · have hstep : s.tagStep a = s := by simp [State.tagStep, hk, hf]
    rw [hstep, hk]
    exact ⟨hsame hf, rfl, rfl, rfl⟩
  · have hstep : s.tagStep a = s := by simp [State.tagStep, hk, hf]
    rw [hstep, hk]
    exact ⟨hsame hf, rfl, rfl, rfl⟩
  · have hstep : s.tagStep a = s.setTag (a.loc / 8) false := by
      simp only [State.tagStep, hk, hf]
      exact admitStfe_of_none hs
    rw [hstep, hk]
    exact ⟨fun w => isFull_setTag s _ false w, State.setTag_mem _ _ _, setTag_threads _ _ _, setTag_wgs _ _ _⟩

/-! #### The statement -/

/-- What is left once a store or tag operation counts as performed: nothing that a thread or memory shows. -/
theorem retire_performed (s : State) (id : Nat) :
    let u := (s.modAcc id fun b => { b with served := some 0 }).retireAcc id
    u.mem = s.mem ∧ u.threads = s.threads ∧ u.wgs = s.wgs ∧ u.empties = s.empties := by
  intro u
  have hu := retireAcc_frame (s.modAcc id fun b => { b with served := some 0 }) id
  exact ⟨(congrArg State.mem hu).trans rfl, (congrArg State.threads hu).trans rfl, (congrArg State.wgs hu).trans rfl,
    (congrArg State.empties hu).trans rfl⟩

theorem isFull_congr {s u : State} (h : u.empties = s.empties) (w : Nat) : u.isFull w = s.isFull w := by
  unfold State.isFull
  rw [h]

section
variable {s : State} {id : Nat} {a : Access} (hm : s.MemOk) (ha : s.acc? id = some a) (hun : a.unbacked = false)
include ha hun

include hm in
theorem exec_storeAtHome_store (hk : a.kind = .store) (hp : a.performed = false) (hmay : s.mayStore a = true) (hfit : a.loc % 8 + a.size ≤ 8) :
    ∃ u, exec (.storeAtHome id) s = .next u ∧ u.mem = writeBytes s.mem a.loc (natLe a.size a.data.toNat) ∧ u.threads = s.threads ∧
      u.wgs = s.wgs := by
  obtain ⟨hmem, -, hthr, hwg⟩ := performData_spec hm ha a.data Vec.zero hfit
  obtain ⟨h1, h2, h3, -⟩ := retire_performed (s.performData a a.size a.data Vec.zero) id
  refine ⟨_, ?_, h1.trans hmem, h2.trans hthr, h3.trans hwg⟩
  change execStoreAtHome id s = _
  simp only [execStoreAtHome, ha, hun, hp, hmay, hk, Bool.not_true, Bool.or_self, Bool.false_eq_true, if_false]

theorem exec_storeAtHome_tag (hk : a.kind = .tagFill ∨ a.kind = .tagEmpty) (hp : a.performed = false) (hmay : s.mayStore a = true)
    (hl : s.waiter (a.loc / 8) .ldfe = none) (hs : s.waiter (a.loc / 8) .stfe = none) :
    ∃ u, exec (.storeAtHome id) s = .next u ∧ (∀ w, u.isFull w = if w = a.loc / 8 then a.kind == .tagFill else s.isFull w) ∧
      u.mem = s.mem ∧ u.threads = s.threads ∧ u.wgs = s.wgs := by
  obtain ⟨hfull, hmem, hthr, hwg⟩ := tagStep_spec hk hl hs
  obtain ⟨h1, h2, h3, h4⟩ := retire_performed (s.tagStep a) id
  refine ⟨_, ?_, fun w => (isFull_congr h4 w).trans (hfull w), h1.trans hmem, h2.trans hthr, h3.trans hwg⟩
  change execStoreAtHome id s = _
  rcases hk with hk | hk <;>
    simp only [execStoreAtHome, ha, hun, hp, hmay, hk, Bool.not_true, Bool.or_self, Bool.false_eq_true, if_false]

include hm in
theorem exec_atomReturn_atom {op : AOp} {w : W2} {sg : Bool} (hk : a.kind = .atom op w sg) (hsv : a.served = none) (hd : a.done = false)
    (hmay : s.mayStore a = true) (hfit : a.loc % 8 + a.size ≤ 8) :
    ∃ u b, exec (.atomReturn id) s = .next u ∧
      u.mem = writeBytes s.mem a.loc
        (natLe a.size (atomNew op w sg (originPay a.pc a.lane) (leNat (readBytes s.mem a.loc a.size)) a.data.toNat).1) ∧
      u.acc? id = some b ∧ b.served = some (BitVec.ofNat 64 (leNat (readBytes s.mem a.loc a.size))) ∧ u.threads = s.threads ∧
      u.wgs = s.wgs := by
  have hold := wordPart_readWord s.mem hfit
  have holdn : (BitVec.ofNat 64 (leNat (readBytes s.mem a.loc a.size))).toNat = leNat (readBytes s.mem a.loc a.size) := by
    have hlt := leNat_lt (readBytes s.mem a.loc a.size)
    have hle : 256 ^ (readBytes s.mem a.loc a.size).length ≤ 256 ^ 8 := Nat.pow_le_pow_right (by omega) (by simp; omega)
    rw [BitVec.toNat_ofNat, Nat.mod_eq_of_lt (by omega)]
  generalize hn : (atomNew op w sg (originPay a.pc a.lane) (leNat (readBytes s.mem a.loc a.size)) a.data.toNat) = new
  have hx : exec (.atomReturn id) s = .next ((s.performData a a.size (BitVec.ofNat 64 new.1)
      (if a.clocked then s.pastOf (a.loc / 8) else Vec.zero)).modAcc id fun b =>
        { b with
          served := some (BitVec.ofNat 64 (leNat (readBytes s.mem a.loc a.size))), flags := new.2,
          past := (if a.clocked then s.pastOf (a.loc / 8) else Vec.zero),
          after := (s.performData a a.size (BitVec.ofNat 64 new.1)
            (if a.clocked then s.pastOf (a.loc / 8) else Vec.zero)).dueAt a }) := by
    change execAtomReturn id s = _
    simp only [execAtomReturn, ha, hk, hun, hd, hsv, hmay, Bool.or_self, Bool.false_eq_true, if_false, if_true, State.performAtom,
      hold, holdn, homeOfAtom_update op w sg hk, hn, id_of_acc? ha]
  obtain ⟨hmem, ⟨b, hb, -⟩, hthr, hwg⟩ := performData_spec hm ha (n := a.size) (BitVec.ofNat 64 new.1)
    (if a.clocked then s.pastOf (a.loc / 8) else Vec.zero) hfit
  have hbytes : natLe a.size (BitVec.ofNat 64 new.1).toNat = natLe a.size new.1 := by
    rw [← natLe_mod, BitVec.toNat_ofNat, show (2 : Nat) ^ 64 = 256 ^ a.size * 256 ^ (8 - a.size) by
      rw [← Nat.pow_add, show a.size + (8 - a.size) = 8 by omega]; norm_num, Nat.mod_mul_right_mod, natLe_mod]
  rw [hbytes] at hmem
  exact ⟨_, _, hx, hmem, acc?_modAcc hb _ fun _ => rfl, rfl, hthr, hwg⟩

end

/-- Settles O39: what each event makes of the access whose turn it is. -/
theorem accessesPerform : Obligations.AccessesPerform := by
  intro s id a hm ha hun
  have hbytes {u : State} {l : List Byte} (hu : u.mem = writeBytes s.mem a.loc l) {n : Nat} (hn : l.length = n) :
      readBytes u.mem a.loc n = l ∧ ∀ x, x < a.loc ∨ a.loc + n ≤ x → readByte u.mem x = readByte s.mem x := by
    subst hn
    rw [hu]
    exact ⟨readBytes_writeBytes hm _ _, fun x hx => readByte_writeBytes_out _ _ _ _ hx⟩
  refine ⟨fun hk hp hmay hfit => ?store, fun hk hp hmay hl hs => ?tag, fun hk hp hd hpeer hunc hmay => ?load,
    fun v d t hsv hd hc hr hlo hhi hcov => ?back, fun op w sg hk hsv hd hmay hfit => ?atom, fun hpeer hp hk hn => ?ack⟩
  case store =>
    obtain ⟨u, hu, hmem, hthr, hwg⟩ := exec_storeAtHome_store hm ha hun hk hp hmay hfit
    exact ⟨u, hu, (hbytes hmem (length_natLe _ _)).1, (hbytes hmem (length_natLe _ _)).2, hthr, hwg⟩
  case tag =>
    obtain ⟨u, hu, hfull, hmem, hthr, hwg⟩ := exec_storeAtHome_tag ha hun hk hp hmay hl hs
    exact ⟨u, hu, by rw [hfull, if_pos rfl], fun w hw => by rw [hfull, if_neg hw], hmem, hthr, hwg⟩
  case load =>
    have hsv : a.served = none := by simpa [Access.performed] using hp
    change execLoadReturn id s = _
    simp only [execLoadReturn, ha, hun, hd, hsv, hk, hmay, State.serveLoad, hpeer, hunc, Bool.or_self, Bool.false_and, Bool.false_eq_true,
      if_false, if_true, State.modAcc, id_of_acc? ha]
  case back =>
    obtain ⟨hthr, hkeep, hmem, hwg⟩ := finishReturn_x (s := s) v hc hr hlo hhi
    refine ⟨s.finishReturn a v, ?_, hthr, hkeep, hmem, hwg⟩
    change execLoadReturn id s = _
    simp only [execLoadReturn, ha, hun, hd, hsv, hcov, Bool.or_self, Bool.false_eq_true, if_false, if_true]
  case atom =>
    obtain ⟨u, b, hu, hmem, hb, hsb, hthr, hwg⟩ := exec_atomReturn_atom hm ha hun hk hsv hd hmay hfit
    exact ⟨u, b, hu, (hbytes hmem (length_natLe _ _)).1, (hbytes hmem (length_natLe _ _)).2, hb, hsb, hthr, hwg⟩
  case ack =>
    change execPeerAck id s = _
    have hnone : (s.notices.any fun n => n.acc == id) = false := by
      simpa using hn
    simp only [execPeerAck, ha, hpeer, hp, hk, hnone, Bool.not_false, Bool.and_self, if_true]

end Sys2Proof.Machine

/-! ### Notices, host writes and fences (12_ordering R212, R213, R215, R218) -/

namespace Sys2Proof.Machine

/-! #### Installing a notice (R212) -/

theorem install_keeps (s : State) (n : Notice) :
    (∀ m ∈ (s.install n).notices, m.id ≠ n.id) ∧ (s.install n).threads = s.threads ∧ (s.install n).wgs = s.wgs := by
  have hgone : ∀ m ∈ s.notices.filter (·.id != n.id), m.id ≠ n.id := fun m hm => by simpa using (List.mem_filter.mp hm).2
  unfold State.install
  dsimp only
  split <;> split <;> (try split) <;> (try split) <;> exact ⟨hgone, rfl, rfl⟩

/-- A notice of a word without a copy of its own changes no memory; a newer value that is not the home's becomes the die's view. -/
theorem install_view {s : State} {n : Notice} (hd : n.dupl = none) :
    (s.install n).mem = s.mem ∧ (s.heldVer (dieKey n.pkg n.die) n.word < n.ver → n.ver ≠ tget 0 s.homeVer n.word →
      tfind (s.install n).views (viewKey (dieKey n.pkg n.die) n.word) = some n.value) := by
  have hver (t : State) : (if t.notices.any (fun m => m.word == n.word) then t
      else { t with homeVer := tdel t.homeVer n.word, viewVer := [0, 1, 2, 3].foldl (fun x d =>
        tdel x (viewKey (dieKey n.pkg d) n.word)) t.viewVer }).mem = t.mem ∧ (if t.notices.any (fun m => m.word == n.word) then t
      else { t with homeVer := tdel t.homeVer n.word, viewVer := [0, 1, 2, 3].foldl (fun x d =>
        tdel x (viewKey (dieKey n.pkg d) n.word)) t.viewVer }).views = t.views := by split <;> exact ⟨rfl, rfl⟩
  unfold State.install
  rw [hd]
  dsimp only
  rw [(hver _).1, (hver _).2]
  refine ⟨?_, fun hlt hne => ?_⟩
  · split
    · split <;> rfl
    · rfl
  · split
    · split
      · next _ heq => exact absurd heq hne
      · exact (tfind_tset _ _ _ _).trans (if_pos rfl)
    · next hle => exact absurd hlt hle

/-! #### Host writes (R213) -/

theorem devLoc_mod {s : State} {p pa l : Nat} (h : s.devLoc p pa = some l) : l % 8 = pa % 8 := by
  unfold State.devLoc locLocal at h
  split at h
  · obtain rfl := Option.some.inj h
    rw [locHbm, pkgSpan]
    omega
  · split at h
    · obtain rfl := Option.some.inj h
      rw [locHbm, hbmOfLinear, pkgSpan]
      omega
    · split at h
      · next hc =>
        rw [Bool.and_eq_true, decide_eq_true_eq] at hc
        dsimp only at h
        split at h
        · obtain rfl := Option.some.inj h
          rw [locCxl, pkgSpan]
          omega
        · cases h
      · cases h

theorem natLe_ofNat64_of_le (v : Nat) {n : Nat} (h : n ≤ 8) : natLe n (BitVec.ofNat 64 v).toNat = natLe n v := by
  rw [← natLe_mod, BitVec.toNat_ofNat, show (2 : Nat) ^ 64 = 256 ^ n * 256 ^ (8 - n) by
    rw [← Nat.pow_add, show n + (8 - n) = 8 by omega]; norm_num, Nat.mod_mul_right_mod, natLe_mod]

/-- The part of a host write that goes to the `i`-th word from its first. -/
def State.hostWord (s : State) (p pa : Nat) (bytes : List Byte) (i : Nat) : State :=
  let lo := max pa ((pa / 8 + i) * 8)
  let hi := min (pa + bytes.length) ((pa / 8 + i + 1) * 8)
  match s.devLoc p lo with
  | some l => if lo < hi then s.homeStore l (hi - lo) (BitVec.ofNat 64 (fld bytes (lo - pa) (hi - lo))) { posted := .host } else s
  | none => s

theorem hostWrite_eq (s : State) (p pa : Nat) (bytes : List Byte) :
    s.hostWrite p pa bytes = (List.range (bytes.length / 8 + 2)).foldl (fun s i => s.hostWord p pa bytes i) s := rfl

theorem hostWord_stores (s : State) (p pa : Nat) (bytes : List Byte) (i : Nat) : s.Stores (s.hostWord p pa bytes i) := by
  unfold State.hostWord
  dsimp only
  split
  · split
    · exact homeStore_stores _ _ _ _ _
    · exact .refl s
  · exact .refl s

theorem hostWrite_stores (s : State) (p pa : Nat) (bytes : List Byte) : s.Stores (s.hostWrite p pa bytes) :=
  .foldl (fun s i => hostWord_stores s p pa bytes i) _ s

/-- How many bytes of a host write of `n` bytes to `pa` lie before its `i`-th word. -/
def hostCut (pa n i : Nat) : Nat := min (pa + n) (max pa ((pa / 8 + i) * 8)) - pa

section
variable {s : State} (hm : s.MemOk) {p pa l : Nat} {bytes : List Byte}
include hm

theorem hostWord_mem (hl : ∀ i < bytes.length, s.devLoc p (pa + i) = some (l + i)) (i : Nat) :
    (s.hostWord p pa bytes i).mem = writeBytes s.mem (l + hostCut pa bytes.length i)
      ((bytes.drop (hostCut pa bytes.length i)).take (hostCut pa bytes.length (i + 1) - hostCut pa bytes.length i)) := by
  generalize hlo : max pa ((pa / 8 + i) * 8) = lo
  generalize hhi : min (pa + bytes.length) ((pa / 8 + i + 1) * 8) = hi
  by_cases hlt : lo < hi
  · have hcut : hostCut pa bytes.length i = lo - pa := by unfold hostCut; omega
    have hcut' : hostCut pa bytes.length (i + 1) = hi - pa := by unfold hostCut; omega
    have hdev := hl (lo - pa) (by omega)
    rw [show pa + (lo - pa) = lo by omega] at hdev
    have hmod := devLoc_mod hdev
    have hfit : (l + (lo - pa)) % 8 + (hi - lo) ≤ 8 := by rw [hmod]; omega
    have hfld : natLe (hi - lo) (BitVec.ofNat 64 (fld bytes (lo - pa) (hi - lo))).toNat = (bytes.drop (lo - pa)).take (hi - lo) := by
      rw [natLe_ofNat64_of_le _ (by omega), natLe_fld (by omega)]
    simp only [State.hostWord, hlo, hhi, hdev, hlt, if_true]
    rw [homeStore_mem_eq hm _ _ hfit, hfld, hcut, hcut', show hi - pa - (lo - pa) = hi - lo by omega]
  · have hcut : hostCut pa bytes.length (i + 1) = hostCut pa bytes.length i := by unfold hostCut; omega
    have hsame : s.hostWord p pa bytes i = s := by
      simp only [State.hostWord, hlo, hhi, hlt, if_false]
      split <;> rfl
    rw [hsame, hcut, Nat.sub_self, List.take_zero]
    rfl

/-- The host's bytes go to their places and nowhere else. -/
theorem hostWrite_mem (hl : ∀ i < bytes.length, s.devLoc p (pa + i) = some (l + i)) :
    (s.hostWrite p pa bytes).mem = writeBytes s.mem l bytes := by
  have hstep (n : Nat) : ((List.range n).foldl (fun s i => s.hostWord p pa bytes i) s).mem =
      writeBytes s.mem l (bytes.take (hostCut pa bytes.length n)) := by
    induction n with
    | zero =>
      rw [show hostCut pa bytes.length 0 = 0 by unfold hostCut; omega]
      rfl
    | succ n ih =>
      have hstores := State.Stores.foldl (fun s i => hostWord_stores s p pa bytes i) (List.range n) s
      rw [List.range_succ, List.foldl_append, List.foldl_cons, List.foldl_nil]
      generalize (List.range n).foldl (fun s i => s.hostWord p pa bytes i) s = t at ih hstores
      have hok : t.MemOk := by unfold State.MemOk; rw [ih]; exact wf_writeBytes _ _ hm
      have hle : hostCut pa bytes.length n ≤ hostCut pa bytes.length (n + 1) := by unfold hostCut; omega
      have hlen : hostCut pa bytes.length n ≤ bytes.length := by unfold hostCut; omega
      have htake : bytes.take (hostCut pa bytes.length (n + 1)) = bytes.take (hostCut pa bytes.length n) ++
          (bytes.drop (hostCut pa bytes.length n)).take (hostCut pa bytes.length (n + 1) - hostCut pa bytes.length n) := by
        rw [← List.take_add, Nat.add_sub_cancel' hle]
      rw [hostWord_mem hok (fun i hi => (hstores.devLoc _ _).trans (hl i hi)), ih, htake, writeBytes_append,
        List.length_take_of_le hlen]
  rw [hostWrite_eq, hstep, List.take_of_length_le]
  unfold hostCut
  omega

end

/-! #### The statement -/

theorem endHold_thr (s : State) (k j : Nat) :
    (s.endHold (k / 2048) (k % 2048)).thr j =
      if j = k then { s.thr k with hold := .none, since := s.clockOf (s.wg (k / 2048)).pkg } else s.thr j := by
  rw [State.endHold, State.wake, State.modThr_thr, thrKey_div_mod]
  by_cases hj : k = j
  · subst hj; simp
  · simp [hj, Ne.symm hj]

theorem endHold_frame (s : State) (wk tid : Nat) : s.endHold wk tid = { s with threads := (s.endHold wk tid).threads } := rfl

/-- Settles O40: what each event leaves, told by the notice, the bytes or the thread whose turn it is. -/
theorem orderEventsStep : Obligations.OrderEventsStep := by
  intro s
  refine ⟨fun id n hn hc => ?notice, fun p pa l bytes hm hl => ?host, fun k sc hk hr => ?fence, fun k sc hk ho => ?flush⟩
  case notice =>
    obtain rfl : n.id = id := by simpa using List.find?_some hn
    obtain ⟨hgone, hthr, hwg⟩ := install_keeps s n
    have hret := retireAcc_frame (s.install n) n.acc
    refine ⟨(s.install n).retireAcc n.acc, ?_, ?_, fun hd => ?_, ?_, ?_⟩
    · change execNoticeInstall n.id s = _
      simp only [execNoticeInstall, hn, hc, if_true]
    · rw [hret]; exact hgone
    · rw [hret]; exact install_view hd
    · rw [hret]; exact hthr
    · rw [hret]; exact hwg
  case host =>
    have hmem := hostWrite_mem hm hl
    have hs := hostWrite_stores s p pa bytes
    exact ⟨s.hostWrite p pa bytes, rfl, by rw [hmem]; exact readBytes_writeBytes hm _ _,
      fun x hx => by rw [hmem]; exact readByte_writeBytes_out _ _ _ _ hx, hs.threads, hs.wgs⟩
  case fence =>
    refine ⟨(s.modThr k fun t => { t with scPlaced := true }).endHold (k / 2048) (k % 2048), ?_, fun j => ?_, rfl⟩
    · change execScFencePlace k s = _
      simp only [execScFencePlace, hk, hr, if_true]
    · rw [endHold_thr]
      by_cases hj : j = k
      · subst hj
        simp only [if_true, State.modThr_self]
        rfl
      · rw [if_neg hj, if_neg hj, State.modThr_thr, if_neg (Ne.symm hj)]
  case flush =>
    refine ⟨s.endHold (k / 2048) (k % 2048), ?_, fun j => endHold_thr s k j, rfl⟩
    change execIcflushCompletion k s = _
    simp only [execIcflushCompletion, hk, ho, Bool.false_eq_true, if_false]

end Sys2Proof.Machine

/-! ### A store under a number that is in use already (13_memory_instr R229, 12_ordering R212)

`strayState` refutes `PackageAccessesIssue` for the reason for which it refutes `PairAccesses`: the new store's clock is written into every
access that bears its number, and the stray load in flight does. -/

namespace Sys2Proof.Machine

/-- ST.B32 of x0 at the address in x2. -/
def strayAddr : MAddr := ⟨.x 2, 0, ⟨false, 0⟩⟩
def strayWord : Instr := .st strayAddr (.x 0) .w32 ⟨.rlx, .lane⟩

/-- What the word accesses, as `PackageAccessesIssue` puts it. -/
def strayPlan (_ : Bool) (e : Env) : List Elem :=
  [{ kind := .store, addr := mAddr e strayAddr Width.w32.bytes, size := Width.w32.bytes, data := BitVec.ofNat 64 (readOp .w32 e (.x 0)) }]

theorem strayWord_issues : strayState.Issues straySite strayWord where
  cur := rfl
  ok := by decide
  regsOk := by decide
  nodup := by decide

theorem strayWord_mayAccess : strayState.MayAccess straySite [strayState.env 0 0] ⟨.rlx, .lane⟩ (strayPlan true) strayPlace where
  live := by decide
  order := by decide
  reach := by
    simp only [State.Reaches]
    decide
  unheld := by decide
  first := by decide

/-- The stray load has a clock afterwards. -/
theorem strayWord_clocked : (match exec strayWord strayState with
    | .next u => u.accs.head?.any fun a : Access => a.vec.isSome
    | _ => false) = true := by decide

/-- Refutes O17: the store is numbered 2 like the stray load in flight, and the load takes the store's clock, so the accesses afterwards
do not begin with those at issue. -/
theorem not_packageAccessesIssue : ¬ Obligations.PackageAccessesIssue := by
  unfold Obligations.PackageAccessesIssue
  intro h
  obtain ⟨u, l, hu, hl, -⟩ := h strayState straySite ⟨false, 0⟩ ⟨.rlx, .lane⟩ strayWord strayPlan strayPlace
    (.inr (.inl ⟨strayAddr, .x 0, .w32, rfl, rfl, rfl⟩)) strayWord_issues strayWord_mayAccess (by decide)
  have hc := strayWord_clocked
  rw [hu] at hc
  change (u.accs.head?.any fun a : Access => a.vec.isSome) = true at hc
  rw [hl] at hc
  exact Bool.false_ne_true hc

end Sys2Proof.Machine

/-! ### FENCE and PREF (13_memory_instr R235, R236) -/

namespace Sys2Proof.Machine

/-- A word whose body makes `v` of the state, with its own changes of its guard-active threads, all of which go on at the next word. -/
theorem goesOn_from {i : Instr} {g : Guard} {rd : Frag → Env → Reads} {ok : State → Site → Bool} {body : Body} {s v : State}
    {c : Site} {m : Host.Outcome State Fault Refusal} (hm : m = runWord i g rd ok body s) (h : s.Issues c i) (hok : ok s c = true)
    (hb : body s c (s.frag c g) (s.frag c g) = .done v ((s.frag c g).map fun e => (e.tid, .next)))
    (hv : ∀ k, (∀ e ∈ s.frag c g, k ≠ thrKey c.wg e.tid) → v.thr k = s.thr k) :
    ∃ u, m = .next u ∧
      (∀ j ∈ c.tids, if (s.env c.wg j).guarded g then u.thr (thrKey c.wg j) = (v.thr (thrKey c.wg j)).goto c.nextPc
        else u.thr (thrKey c.wg j) = (s.thr (thrKey c.wg j)).goto c.nextPc) ∧
      OthersKeep s c u ∧ CoresKeep v c u ∧ u = { v with threads := u.threads, cores := u.cores } := by
  obtain ⟨u, hu, hdo, hoth, hcores, hall⟩ := goesOn_of hm h hok hb
  refine ⟨u, hu, fun j hj => ?_, fun k hk => ?_, hcores, hall⟩
  · have := hdo j hj
    split at this
    · next hg => rw [if_pos hg]; exact this
    · next hg =>
      rw [if_neg hg, this, hv]
      intro e he hk
      obtain ⟨-, henv, heg⟩ := env_of_frag he
      rw [← thrKey_inj hk] at henv
      exact hg (henv ▸ heg)
  · exact (hoth k hk).trans (hv k fun e he => hk e.tid (env_of_frag he).1)

theorem exec_fence_eq_runWord (o : MO) (g : Guard) (s : State) :
    exec (.fence o g) s = runWord (.fence o g) g (rdPlain (.fence o g)) always (fenceBody o) s := rfl

/-- A passed FENCE's acquire step in one thread. -/
def State.fenceStep (s : State) (o : MO) (k : Nat) : State :=
  if o.o == .rel then s else (s.modThr k fun t => { t with hold := .acq o.sc }).settleAcq k

/-- What the acquire step of a FENCE leaves of thread `t`, with its loads back or not. -/
def FenceHolds (o : MO) (back : Bool) (t t' : Thread) : Prop :=
  t' = { t with hold := t'.hold, since := t'.since } ∧ (o.o = .rel → t'.hold = t.hold ∧ t'.since = t.since) ∧
    (o.o ≠ .rel → back = false → t'.hold = .acq o.sc) ∧ (o.o ≠ .rel → back = true → t'.hold = .none)

theorem settleAcq_views {s : State} {k : Nat} {sc : Scope} (h : (s.thr k).hold = .acq sc) (hsc : sc ≠ .pod) :
    (s.settleAcq k).views = s.views := by
  have hne : (sc == .pod) = false := by simpa using hsc
  unfold State.settleAcq
  dsimp only
  rw [h]
  dsimp only
  rw [hne]
  split <;> rfl

theorem settleAcq_hold {s : State} {k : Nat} {sc : Scope} (h : (s.thr k).hold = .acq sc) :
    ((s.settleAcq k).thr k).hold = if s.loadsBack k then .none else .acq sc := by
  unfold State.settleAcq
  dsimp only
  rw [h]
  dsimp only
  split
  · rw [endHold_thr, if_pos rfl]
  · exact h

theorem fenceStep_frame (s : State) (o : MO) (k : Nat) :
    s.fenceStep o k = { s with threads := (s.fenceStep o k).threads, views := (s.fenceStep o k).views } ∧
      (o.sc ≠ .pod → (s.fenceStep o k).views = s.views) := by
  unfold State.fenceStep
  split
  · exact ⟨rfl, fun _ => rfl⟩
  · exact ⟨by rw [settleAcq_frame]; rfl, fun hsc => settleAcq_views (sc := o.sc) (by rw [State.modThr_self]) hsc⟩

theorem fenceStep_thr_ne (s : State) (o : MO) {k j : Nat} (h : j ≠ k) : (s.fenceStep o k).thr j = s.thr j := by
  unfold State.fenceStep
  split
  · rfl
  · rw [settleAcq_thr, if_neg h, State.modThr_thr, if_neg (Ne.symm h)]

theorem fenceStep_thr (s : State) (o : MO) (k : Nat) : FenceHolds o (s.loadsBack k) (s.thr k) ((s.fenceStep o k).thr k) := by
  unfold State.fenceStep
  by_cases ho : o.o = .rel
  · rw [if_pos (by simpa using ho)]
    exact ⟨rfl, fun _ => ⟨rfl, rfl⟩, fun h => absurd ho h, fun h => absurd ho h⟩
  · have hhold := settleAcq_hold (s := s.modThr k fun t => { t with hold := .acq o.sc }) (k := k) (sc := o.sc) (by rw [State.modThr_self])
    have hback : (s.modThr k fun t => { t with hold := .acq o.sc }).loadsBack k = s.loadsBack k := rfl
    rw [hback] at hhold
    rw [if_neg (by simpa using ho)]
    refine ⟨?_, fun h => absurd h ho, fun _ hb => ?_, fun _ hb => ?_⟩
    · conv_lhs => rw [settleAcq_thr, if_pos rfl, State.modThr_self]
    · rw [hhold, hb]; rfl
    · rw [hhold, hb]; rfl

/-- The acquire steps of the threads of a site, one after another: each of its own thread. -/
theorem foldl_fenceStep (o : MO) (wk : Nat) (l : List Nat) (hn : l.Nodup) (v : State) :
    let u := l.foldl (fun s i => s.fenceStep o (thrKey wk i)) v
    (∀ i ∈ l, FenceHolds o (v.loadsBack (thrKey wk i)) (v.thr (thrKey wk i)) (u.thr (thrKey wk i))) ∧
      (∀ k, (∀ i ∈ l, k ≠ thrKey wk i) → u.thr k = v.thr k) ∧
      u = { v with threads := u.threads, views := u.views } ∧ (o.sc ≠ .pod → u.views = v.views) := by
  induction l generalizing v with
  | nil => exact ⟨by simp, fun _ _ => rfl, rfl, fun _ => rfl⟩
  | cons i r ih =>
    obtain ⟨hi, hr⟩ := List.nodup_cons.mp hn
    obtain ⟨hf, hv⟩ := fenceStep_frame v o (thrKey wk i)
    obtain ⟨h1, h2, h3, h4⟩ := ih hr (v.fenceStep o (thrKey wk i))
    have hback (k : Nat) : (v.fenceStep o (thrKey wk i)).loadsBack k = v.loadsBack k := by rw [hf]; rfl
    have hne {j : Nat} (hj : j ∈ r) : thrKey wk j ≠ thrKey wk i := fun h => hi (thrKey_inj h ▸ hj)
    intro u
    refine ⟨fun j hj => ?_, fun k hk => ?_, ?_, fun hsc => (h4 hsc).trans (hv hsc)⟩
    · rcases List.mem_cons.mp hj with rfl | hj
      · have : u.thr (thrKey wk j) = _ := h2 _ fun m hm => (hne hm).symm
        rw [this]
        exact fenceStep_thr v o _
      · have := h1 j hj
        rwa [hback, fenceStep_thr_ne v o (hne hj)] at this
    · exact (h2 k fun m hm => hk m (List.mem_cons_of_mem _ hm)).trans (fenceStep_thr_ne v o (hk i List.mem_cons_self))
    · rw [show u = _ from h3, hf]

theorem fenceBody_passes {o : MO} {s : State} {c : Site} {fr who : Frag} (h : ∀ e ∈ who, s.orderOk (thrKey c.wg e.tid) o = true) :
    fenceBody o s c fr who = .done ((who.map Env.tid).foldl (fun s i => s.fenceStep o (thrKey c.wg i)) (s.fenceAt c.wg (who.map Env.tid) none))
      (who.map fun e => (e.tid, .next)) := by
  have hfence : s.fenceFirst c (who.map Env.tid) o = none := fenceFirst_none fun t ht => by
    obtain ⟨e, he, rfl⟩ := List.mem_map.mp ht
    exact h e he
  have htids : (who.map fun e => e.tid) = who.map Env.tid := rfl
  unfold fenceBody
  dsimp only
  rw [htids, hfence]
  dsimp only
  rw [List.map_map]
  rfl

/-- Settles O20: FENCE clears what it waited for and takes its acquire step in each thread; PREF changes nothing. -/
theorem fencesPass : Obligations.FencesPass := by
  intro s c
  refine ⟨fun o g h horder => ?_, fun m h => ?_⟩
  · have hn : ((s.frag c g).map Env.tid).Nodup := frag_nodup h.nodup g
    generalize hv : ((s.frag c g).map Env.tid).foldl (fun s i => s.fenceStep o (thrKey c.wg i))
      (s.fenceAt c.wg ((s.frag c g).map Env.tid) none) = v
    obtain ⟨hthr, hkeep, hframe, hviews⟩ := hv ▸ foldl_fenceStep o c.wg _ hn (s.fenceAt c.wg ((s.frag c g).map Env.tid) none)
    have hat : s.fenceAt c.wg ((s.frag c g).map Env.tid) none =
        { s with threads := (s.fenceAt c.wg ((s.frag c g).map Env.tid) none).threads } := modTids_frame s _
    have hmem {i : Nat} (hi : i ∈ c.tids) (hg : (s.env c.wg i).guarded g = true) : i ∈ (s.frag c g).map Env.tid := by
      rw [frag_tids]
      exact List.mem_filter.mpr ⟨hi, hg⟩
    obtain ⟨u, hu, hdo, hoth, hcores, hall⟩ := goesOn_from (exec_fence_eq_runWord o g s) h rfl ((fenceBody_passes horder).trans (by rw [hv]))
      fun k hk => by
        have hk' : ∀ i ∈ (s.frag c g).map Env.tid, k ≠ thrKey c.wg i := by simpa using hk
        exact (hkeep k hk').trans (modTids_thr_of_forall_ne s _ hn hk')
    refine ⟨u, hu, fun j hj => ?_, hoth, fun k => ?_, fun hsc => ?_, ?_⟩
    · have hu' := hdo j hj
      intro t t'
      split at hu'
      · next hg =>
        obtain ⟨h1, h2, h3, h4⟩ := hthr j (hmem hj hg)
        have hstart : (s.fenceAt c.wg ((s.frag c g).map Env.tid) none).thr (thrKey c.wg j) = { t with fence := none } :=
          modTids_thr_of_mem s _ hn (hmem hj hg)
        have hback : (s.fenceAt c.wg ((s.frag c g).map Env.tid) none).loadsBack (thrKey c.wg j) = s.loadsBack (thrKey c.wg j) := by
          rw [hat]; rfl
        rw [hstart] at h1 h2
        rw [hback] at h3 h4
        have ht' : t' = (v.thr (thrKey c.wg j)).goto c.nextPc := hu'
        rw [if_pos hg, ht']
        refine ⟨?_, h2, h3, h4⟩
        rw [h1]
        rfl
      · next hg => rw [if_neg hg]; exact hu'
    · have hvk : v.core k = s.core k := by rw [hframe, hat]; rfl
      rw [← hvk]
      exact hcores k
    · rw [hall]
      exact (hviews hsc).trans (by rw [hat])
    · rw [hall, hframe, hat]
  · exact goesOn_of (body := prefBody) (rd := rdPlain (.pref m)) (ok := always) rfl h rfl rfl

end Sys2Proof.Machine

/-! ### Memory words on scratchpad (13_memory_instr R228 to R230, 12_ordering R211) -/

namespace Sys2Proof.Machine

/-! #### Checks that pass (R228) -/

section
variable {s : State}

theorem findAll_of_reaches {wk tid : Nat} {first : W64} {place : Elem → Place} (l : List Elem)
    (h : ∀ x ∈ l, s.Reaches wk tid first x (place x)) (f : Found) :
    s.findAll wk tid first l f = ({ f with ok := f.ok ++ l.map fun x => (x, place x) }, s) := by
  induction l generalizing f with
  | nil => simp [State.findAll]
  | cons x r ih =>
    obtain ⟨halign, halloc, hres, -, -⟩ := h x List.mem_cons_self
    have hn : ¬ x.addr.toNat % x.size ≠ 0 := by omega
    unfold State.findAll
    rw [if_neg hn, halloc, hres]
    simp only [Bool.not_true, Bool.false_eq_true, if_false]
    rw [ih fun y hy => h y (List.mem_cons_of_mem _ hy)]
    simp

theorem foldl_lowerRef_none {α : Type} (l : List α) (f : α → Option (Nat × W64)) (h : ∀ a ∈ l, f a = none) :
    l.foldl (fun r a => lowerRef r (f a)) none = none := foldl_fixed _ _ _ fun a ha => by rw [h a ha]; rfl

theorem check_of_reaches {wk tid : Nat} {place : Elem → Place} {l : List Elem}
    (h : ∀ x ∈ l, s.Reaches wk tid (l.headD default).addr x (place x)) :
    s.check wk tid l = (.ok (l.map fun x => (x, place x)), s) := by
  have hpoison : (l.map fun x => (x, place x)).foldl
      (fun r a => lowerRef r (s.poisonOf (thrKey wk tid) ((s.wg wk).core / 160) a.1 a.2)) none = none := by
    refine foldl_lowerRef_none _ (fun a : Elem × Place => s.poisonOf (thrKey wk tid) ((s.wg wk).core / 160) a.1 a.2) fun a ha => ?_
    obtain ⟨x, hx, rfl⟩ := List.mem_map.mp ha
    exact (h x hx).2.2.2.2
  simp only [State.check, findAll_of_reaches l h, List.nil_append]
  rw [hpoison]

theorem checkAll_ok (c : Site) {l : List (Env × List Elem)} {f : Env × List Elem → List (Elem × Place)}
    (h : ∀ p ∈ l, s.check c.wg p.1.tid p.2 = (.ok (f p), s)) :
    s.checkAll c l = (l.map fun p => (p.1, p.2, .ok (f p)), s) := by
  induction l with
  | nil => rfl
  | cons p r ih =>
    simp only [State.checkAll, h p List.mem_cons_self, ih fun q hq => h q (List.mem_cons_of_mem _ hq), List.map_cons]

end

/-! #### A word whose threads all access memory -/

/-- One thread issues its elements, and takes what the word's order asks of it. -/
def State.accessing (s : State) (c : Site) (o : MO) (tid : Nat) (l : List (Elem × Place)) : State :=
  (s.issueAll c tid l).afterOrder (thrKey c.wg tid) o

theorem foldl_memStep_ok {c : Site} {fr : Frag} {o : MO} (l : List (Env × List Elem)) {f : Env × List Elem → List (Elem × Place)}
    (h : ∀ p ∈ l, ∀ x ∈ f p, x.2.void = false) (s : State) (fin : List (Nat × Fin)) :
    (l.map fun p => (p.1, p.2, Chk.ok (f p))).foldl (c.memStep fr o) (s, fin) =
      (l.foldl (fun v p => v.accessing c o p.1.tid (f p)) s, fin ++ l.map fun p => (p.1.tid, .next)) := by
  induction l generalizing s fin with
  | nil => simp
  | cons p r ih =>
    have hvoid : ((f p).find? fun x => x.2.void) = none := by
      rw [List.find?_eq_none]
      exact fun x hx => by simp [h p List.mem_cons_self x hx]
    have hstep : c.memStep fr o (s, fin) (p.1, p.2, Chk.ok (f p)) = (s.accessing c o p.1.tid (f p), fin ++ [(p.1.tid, .next)]) := by
      simp only [Site.memStep, State.memThread, hvoid]
      rfl
    rw [List.map_cons, List.foldl_cons, hstep, ih fun q hq => h q (List.mem_cons_of_mem _ hq), List.foldl_cons, List.map_cons,
      List.append_assoc, List.singleton_append]

/-- The places of a thread's elements. -/
def placed (els : Env → List Elem) (place : Env → Elem → Place) (e : Env) : List (Elem × Place) := (els e).map fun x => (x, place e x)

theorem memBody_of_mayAccess {plan : Bool → Env → List Elem} {els : Env → List Elem} {place : Env → Elem → Place} {o : MO} {s : State}
    {c : Site} {fr : Frag} (h : s.MayAccess c fr o els place) (hplan : ∀ e ∈ fr, plan (e.tid == (fr.headD default).tid) e = els e) :
    memBody plan o s c fr fr = .done (fr.foldl (fun v e => v.accessing c o e.tid (placed els place e)) s)
      (fr.map fun e => (e.tid, .next)) := by
  have hfence : s.fenceFirst c (fr.map fun e => e.tid) o = none := fenceFirst_none fun t ht => by
    obtain ⟨e, he, rfl⟩ := List.mem_map.mp ht
    exact h.order e he
  have hlist : (fr.map fun e => (e, plan (e.tid == (fr.headD default).tid) e)) = fr.map fun e => (e, els e) :=
    List.map_congr_left fun e he => by rw [hplan e he]
  have hcheck := checkAll_ok (s := s) c (l := fr.map fun e => (e, els e)) (f := fun p => p.2.map fun x => (x, place p.1 x)) fun p hp => by
    obtain ⟨e, he, rfl⟩ := List.mem_map.mp hp
    exact check_of_reaches (h.reach e he)
  have hheld : s.heldElems c ((fr.map fun e => (e, els e)).map fun p => (p.1, p.2, .ok (p.2.map fun x => (x, place p.1 x)))) = false := by
    simp only [State.heldElems, List.map_map, List.any_map, List.any_eq_false]
    intro e he
    simp only [Function.comp, List.any_map, Bool.not_eq_true, List.any_eq_false]
    intro x hx
    simp [h.unheld e he x hx]
  rw [memBody_of_checked hfence (by rw [hlist]; exact hcheck) hheld, foldl_memStep_ok, List.foldl_map, List.map_map, List.nil_append]
  · rfl
  · intro p hp x hx
    obtain ⟨e, he, rfl⟩ := List.mem_map.mp hp
    obtain ⟨y, hy, rfl⟩ := List.mem_map.mp hx
    exact (h.reach e he y hy).2.2.2.1

/-! #### What issuing scratchpad elements leaves -/

/-- Bytes written one run after another. -/
def writeAll (m : List Host.Cell) (l : List (Nat × List Byte)) : List Host.Cell := l.foldl (fun m p => writeBytes m p.1 p.2) m

theorem writeAll_append (m : List Host.Cell) (l r : List (Nat × List Byte)) : writeAll m (l ++ r) = writeAll (writeAll m l) r :=
  List.foldl_append

/-- The state `s` but for what issuing scratchpad elements of workgroup `wk` changes; `ws` are the bytes written, `bad` says that
the workgroup may not be executed again for them (15_counters R267). -/
structure State.ScratchIssue (s : State) (wk : Nat) (ws : List (Nat × List Byte)) (bad : Bool) (v : State) : Prop where
  frame : v = { s with
    threads := v.threads, wgs := v.wgs, nextId := v.nextId, views := v.views, mem := v.mem, poison := v.poison, cores := v.cores }
  mem : v.mem = writeAll s.mem ws
  still : ws = [] → v.cores = s.cores ∧ v.poison = s.poison
  cores : ∀ k, (s.core k).SameButQueue (v.core k)
  wgs : ∀ k, k ≠ wk → v.wg k = s.wg k
  wg : v.wg wk = { s.wg wk with digest := (v.wg wk).digest, inelig := (s.wg wk).inelig || bad }
  digest : (s.launchOf (s.wg wk)).replayable = false → (v.wg wk).digest = (s.wg wk).digest

namespace State.ScratchIssue

theorem refl (s : State) (wk : Nat) : s.ScratchIssue wk [] false s :=
  ⟨rfl, rfl, fun _ => ⟨rfl, rfl⟩, fun _ => .refl _, fun _ _ => rfl, by rw [Bool.or_false], fun _ => rfl⟩

section
variable {s v : State} {wk : Nat} {ws : List (Nat × List Byte)} {bad : Bool} (h : s.ScratchIssue wk ws bad v)
include h

theorem launchOf : v.launchOf (v.wg wk) = s.launchOf (s.wg wk) := by
  have hctx : (v.wg wk).ctx = (s.wg wk).ctx := by rw [h.wg]
  rw [State.launchOf, hctx, h.frame]
  rfl

theorem redoing : v.redoing wk = s.redoing wk := by
  have hgang : (v.wg wk).gang = (s.wg wk).gang := by rw [h.wg]
  rw [State.redoing, hgang, h.frame]
  rfl

theorem spoils (x : Elem) (p : Place) : v.spoils wk x p = s.spoils wk x p := by
  unfold State.spoils
  rw [h.launchOf]

theorem trans {ws' : List (Nat × List Byte)} {bad' : Bool} {u : State} (h' : v.ScratchIssue wk ws' bad' u) :
    s.ScratchIssue wk (ws ++ ws') (bad || bad') u where
  frame := by rw [h'.frame, h.frame]
  mem := by rw [h'.mem, h.mem, writeAll_append]
  still hn := by
    obtain ⟨rfl, rfl⟩ := List.append_eq_nil_iff.mp hn
    obtain ⟨h1, h2⟩ := h.still rfl
    obtain ⟨h3, h4⟩ := h'.still rfl
    exact ⟨h3.trans h1, h4.trans h2⟩
  cores k := (h.cores k).trans (h'.cores k)
  wgs k hk := (h'.wgs k hk).trans (h.wgs k hk)
  wg := by
    rw [h'.wg]
    conv_lhs => rw [h.wg]
    rw [Bool.or_assoc]
  digest hr := (h'.digest (by rw [h.launchOf, hr])).trans (h.digest hr)

/-- Threads and views may change beside. -/
theorem withThreads (ts : Tbl Thread) (vs : Tbl W64) : s.ScratchIssue wk ws bad { v with threads := ts, views := vs } :=
  ⟨by rw [h.frame], h.mem, h.still, h.cores, h.wgs, h.wg, h.digest⟩

end

end State.ScratchIssue

end Sys2Proof.Machine

namespace Sys2Proof.Machine

/-! #### One element (R211) -/

/-- The bytes that an element writes. -/
def Elem.writes (x : Elem) (p : Place) : List (Nat × List Byte) := if x.kind = .store then [(p.loc, natLe x.size x.data.toNat)] else []

/-- The registers that an element's return takes from memory. -/
def Elem.takes (x : Elem) (p : Place) (m : List Host.Cell) : List (Nat × W32) :=
  match x.ret with
  | .x d t => put (BitVec.ofNat 7 d) t (leNat (readBytes m p.loc x.size))
  | .k _ => []
  | .none => []

/-- A plain load into x registers, or a plain store, of scratchpad bytes within one word. -/
structure Elem.Plain (x : Elem) (p : Place) : Prop where
  kind : x.kind = .load ∧ (∃ d t, x.ret = .x d t) ∨ x.kind = .store ∧ x.ret = .none
  scratch : isScratch p.loc = true
  fits : p.loc % 8 + x.size ≤ 8

/-- Thread `k` as `t` is in `v`, but for what watches its accesses (10_trap_state R185), and the other threads are as in `s`. -/
structure State.Takes (s : State) (wk k : Nat) (t : Thread) (v : State) : Prop where
  self : v.thr k = { t with watch := (v.thr k).watch }
  watch : (s.launchOf (s.wg wk)).debug = false → (v.thr k).watch = t.watch
  others : ∀ j, j ≠ k → v.thr j = s.thr j
  views : v.views = s.views

theorem wx_watch (t : Thread) (w : Option W64) (n : Nat) (x : W32) : ({ t with watch := w } : Thread).wx n x = { t.wx n x with watch := w } := by
  unfold Thread.wx Thread.setPoison
  dsimp only
  split <;> rfl

theorem wxs_watch (t : Thread) (w : Option W64) (l : List (Nat × W32)) :
    ({ t with watch := w } : Thread).wxs l = { t.wxs l with watch := w } := by
  induction l generalizing t with
  | nil => rfl
  | cons p r ih =>
    simp only [Thread.wxs, List.foldl_cons, wx_watch] at ih ⊢
    exact ih _

theorem wxs_append (t : Thread) (l r : List (Nat × W32)) : t.wxs (l ++ r) = (t.wxs l).wxs r := List.foldl_append

theorem raise_zero (t : Thread) : t.raise 0 = t := by simp [Thread.raise]

theorem isScratch_word {l : Nat} (h : isScratch l = true) : isScratch (8 * (l / 8)) = true := by
  unfold isScratch pkgSpan at h ⊢
  rw [Bool.and_eq_true, decide_eq_true_eq, decide_eq_true_eq] at h ⊢
  omega

theorem digest_issue (s : State) (wk : Nat) (a : W64) (b : List Byte) : s.ScratchIssue wk [] false (s.digest wk a b) := by
  unfold State.digest
  split
  · next hr =>
    exact ⟨rfl, rfl, fun _ => ⟨rfl, rfl⟩, fun _ => .refl _, fun k hk => by rw [State.modWg_wg, if_neg hk.symm],
      by rw [State.modWg_self, Bool.or_false], fun h => absurd hr (by rw [h]; exact Bool.false_ne_true)⟩
  · exact .refl s wk

theorem spoil_issue (s : State) (wk : Nat) (b : Bool) : s.ScratchIssue wk [] b (if b then s.spoil wk else s) := by
  cases b with
  | false => exact .refl s wk
  | true =>
    refine ⟨rfl, rfl, fun _ => ⟨rfl, rfl⟩, fun _ => .refl _, fun k hk => ?_, ?_, fun _ => ?_⟩
    · simp only [if_true, State.spoil]; rw [State.modWg_wg, if_neg hk.symm]
    · simp only [if_true, State.spoil, State.modWg_self, Bool.or_true]
    · simp only [if_true, State.spoil, State.modWg_self]

theorem homeStore_scratch (s : State) {loc : Nat} (n : Nat) (d : W64) (md : StoreMode) (hs : isScratch loc = true) :
    s.homeStore loc n d md = { s with
      mem := (s.homeStore loc n d md).mem, poison := (s.homeStore loc n d md).poison, cores := (s.homeStore loc n d md).cores } := by
  unfold State.homeStore
  dsimp only
  rw [homeWord_of_scratch _ _ _ (isScratch_word hs), keepOld_frame]
  split <;> rfl

theorem scratchStore_issue {s : State} (hm : s.MemOk) (wk : Nat) {loc n : Nat} (d : W64) (hs : isScratch loc = true) (h : loc % 8 + n ≤ 8) :
    s.ScratchIssue wk [(loc, natLe n d.toNat)] false (s.homeStore loc n d {}) := by
  have hframe := homeStore_scratch s n d {} hs
  exact ⟨by rw [hframe], homeStore_mem_eq hm d _ h, fun hn => absurd hn (List.cons_ne_nil _ _), (homeStore_stores s loc n d {}).cores,
    fun k _ => by rw [hframe]; rfl, by rw [hframe, Bool.or_false]; rfl, fun _ => by rw [hframe]; rfl⟩

/-- The state with a thread's watch noted. -/
def State.watching (s : State) (wk k : Nat) (x : Elem) : State :=
  match s.watchHit wk x with
  | some a => s.modThr k fun t => { t with watch := match t.watch with | some b => some (if a < b then a else b) | none => some a }
  | none => s

theorem watchHit_of_not_debug {s : State} {wk : Nat} (h : (s.launchOf (s.wg wk)).debug = false) (x : Elem) : s.watchHit wk x = none := by
  simp [State.watchHit, h]

theorem watching_frame (s : State) (wk k : Nat) (x : Elem) : s.watching wk k x = { s with threads := (s.watching wk k x).threads } := by
  unfold State.watching
  split <;> rfl

theorem watching_takes (s : State) (wk k : Nat) (x : Elem) : s.Takes wk k (s.thr k) (s.watching wk k x) := by
  unfold State.watching
  cases hw : s.watchHit wk x with
  | none => exact ⟨rfl, fun _ => rfl, fun _ _ => rfl, rfl⟩
  | some a =>
    refine ⟨by rw [State.modThr_self], fun hd => ?_, fun j hj => by rw [State.modThr_thr, if_neg hj.symm], rfl⟩
    rw [watchHit_of_not_debug hd] at hw
    cases hw

/-- What an element does to its workgroup and to its thread's watch before it goes to memory. -/
def State.noting (s : State) (c : Site) (tid : Nat) (x : Elem) (p : Place) : State :=
  let s1 := if x.kind == .store then s.digest c.wg (ownForm x.addr p) (natLe x.size x.data.toNat) else s
  let s2 := if s1.spoils c.wg x p then s1.spoil c.wg else s1
  s2.watching c.wg (thrKey c.wg tid) x

theorem noting_issue (s : State) (c : Site) (tid : Nat) (x : Elem) (p : Place) :
    s.ScratchIssue c.wg [] (s.spoils c.wg x p) (s.noting c tid x p) ∧
      s.Takes c.wg (thrKey c.wg tid) (s.thr (thrKey c.wg tid)) (s.noting c tid x p) := by
  generalize hs1 : (if x.kind == .store then s.digest c.wg (ownForm x.addr p) (natLe x.size x.data.toNat) else s) = s1
  have h1 : s.ScratchIssue c.wg [] false s1 ∧ s1.threads = s.threads ∧ s1.views = s.views := by
    subst hs1
    split
    · refine ⟨digest_issue _ _ _ _, ?_⟩
      unfold State.digest
      split <;> exact ⟨rfl, rfl⟩
    · exact ⟨.refl _ _, rfl, rfl⟩
  generalize hs2 : (if s1.spoils c.wg x p then s1.spoil c.wg else s1) = s2
  have h2 : s1.ScratchIssue c.wg [] (s1.spoils c.wg x p) s2 ∧ s2.threads = s1.threads ∧ s2.views = s1.views := by
    subst hs2
    exact ⟨spoil_issue _ _ _, by split <;> exact ⟨rfl, rfl⟩⟩
  have h12 := h1.1.trans h2.1
  rw [h1.1.spoils, Bool.false_or, List.nil_append] at h12
  have hthr (k : Nat) : s2.thr k = s.thr k := congrArg (tget ({} : Thread) · k) (h2.2.1.trans h1.2.1)
  have hn : s.noting c tid x p = s2.watching c.wg (thrKey c.wg tid) x := by
    unfold State.noting
    dsimp only
    rw [hs1, hs2]
  obtain ⟨hself, hwatch, hothers, hviews⟩ := watching_takes s2 c.wg (thrKey c.wg tid) x
  rw [hn]
  refine ⟨?_, ?_, fun hd => ?_, fun j hj => (hothers j hj).trans (hthr j), hviews.trans (h2.2.2.trans h1.2.2)⟩
  · rw [watching_frame]
    exact h12.withThreads _ _
  · rw [hself, hthr]
  · rw [hwatch (by rw [h12.launchOf]; exact hd), hthr]

theorem issueElem_eq {s : State} {c : Site} (hr : s.redoing c.wg = false) (tid instr : Nat) (x : Elem) (p : Place) :
    s.issueElem c tid instr x p =
      let a := (s.noting c tid x p).newAccess c tid instr x p
      if isScratch p.loc then a.2.inScratch a.1 else a.2.addAcc a.1 := by
  have honly : (s.noting c tid x p).onlyDigest c.wg x = false := by
    simp [State.onlyDigest, (noting_issue s c tid x p).1.redoing, hr]
  exact if_neg (Bool.eq_false_iff.mp honly)

/-- A plain scratchpad element is performed as it issues. -/
theorem issueElem_plain {s : State} {c : Site} (hr : s.redoing c.wg = false) {tid : Nat} (instr : Nat) {x : Elem} {p : Place}
    (hm : x.kind = .store → s.MemOk) (hx : x.Plain p) (hlive : (s.thr (thrKey c.wg tid)).live = true) :
    s.ScratchIssue c.wg (x.writes p) (s.spoils c.wg x p) (s.issueElem c tid instr x p) ∧
      s.Takes c.wg (thrKey c.wg tid) ((s.thr (thrKey c.wg tid)).wxs (x.takes p s.mem)) (s.issueElem c tid instr x p) := by
  obtain ⟨hi, hself, hwatch, hothers, hviews⟩ := noting_issue s c tid x p
  rw [issueElem_eq hr]
  dsimp only
  rw [if_pos hx.scratch]
  generalize hv : s.noting c tid x p = v at hi hself hwatch hothers hviews
  have hvm : v.mem = s.mem := hi.mem
  have hfresh : v.ScratchIssue c.wg [] false { v with nextId := v.nextId + 1 } :=
    ⟨rfl, rfl, fun _ => ⟨rfl, rfl⟩, fun _ => .refl _, fun _ _ => rfl, by rw [Bool.or_false]; rfl, fun _ => rfl⟩
  rcases hx.kind with ⟨hk, d, t, hret⟩ | ⟨hk, hret⟩
  · have hvlive : (v.thr (thrKey c.wg tid)).live = true := by rw [hself]; exact hlive
    have hval : wordPart (readWord v.mem (p.loc / 8)) (p.loc % 8) x.size = BitVec.ofNat 64 (leNat (readBytes s.mem p.loc x.size)) := by
      rw [hvm]; exact wordPart_readWord _ hx.fits
    have htakes : put (BitVec.ofNat 7 d) t (BitVec.ofNat 64 (leNat (readBytes s.mem p.loc x.size))).toNat = x.takes p s.mem := by
      have hlt := leNat_lt (readBytes s.mem p.loc x.size)
      have hle : 256 ^ (readBytes s.mem p.loc x.size).length ≤ 256 ^ 8 :=
        Nat.pow_le_pow_right (by omega) (by have := hx.fits; simp; omega)
      rw [BitVec.toNat_ofNat, Nat.mod_eq_of_lt (by omega), Elem.takes, hret]
    have hstep : (v.newAccess c tid instr x p).2.inScratch (v.newAccess c tid instr x p).1 =
        ({ v with nextId := v.nextId + 1 } : State).modThr (thrKey c.wg tid) fun u => u.wxs (x.takes p s.mem) := by
      have hthr : ({ v with nextId := v.nextId + 1 } : State).thr (thrKey c.wg tid) = v.thr (thrKey c.wg tid) := rfl
      simp only [State.newAccess, State.fresh, State.inScratch, State.deliver, Access.words, hk, hret, hthr, hvlive, hval, htakes,
        raise_zero, Bool.not_true, Bool.false_and, Bool.not_false, Bool.and_self, List.filter_true, Bool.false_eq_true, if_false]
    have hw : x.writes p = [] := by simp [Elem.writes, hk]
    have hframe := (hi.trans hfresh).withThreads
      (({ v with nextId := v.nextId + 1 } : State).modThr (thrKey c.wg tid) fun u => u.wxs (x.takes p s.mem)).threads v.views
    rw [Bool.or_false] at hframe
    rw [hstep, hw]
    refine ⟨hframe, ?_, fun hd => ?_, fun j hj => ?_, hviews⟩
    · have hthr : ({ v with nextId := v.nextId + 1 } : State).thr (thrKey c.wg tid) = v.thr (thrKey c.wg tid) := rfl
      obtain ⟨w, hw⟩ : ∃ w, v.thr (thrKey c.wg tid) = { s.thr (thrKey c.wg tid) with watch := w } := ⟨_, hself⟩
      rw [State.modThr_self, hthr, hw, wxs_watch]
    · rw [State.modThr_self]
      have hw : v.thr (thrKey c.wg tid) = { s.thr (thrKey c.wg tid) with watch := (s.thr (thrKey c.wg tid)).watch } := by
        rw [← hwatch hd]; exact hself
      exact congrArg (fun t : Thread => (t.wxs (x.takes p s.mem)).watch) hw
    · rw [State.modThr_thr, if_neg hj.symm]
      exact hothers j hj
  · have hstep : (v.newAccess c tid instr x p).2.inScratch (v.newAccess c tid instr x p).1 =
        ({ v with nextId := v.nextId + 1 } : State).homeStore p.loc x.size x.data {} := by
      simp only [State.newAccess, State.inScratch, hk]
      rfl
    have hvok : ({ v with nextId := v.nextId + 1 } : State).MemOk := (congrArg Memory.wf hvm).trans (hm hk)
    have hframe := (hi.trans hfresh).trans (scratchStore_issue hvok c.wg x.data hx.scratch hx.fits)
    have hthr (k : Nat) : (({ v with nextId := v.nextId + 1 } : State).homeStore p.loc x.size x.data {}).thr k = v.thr k :=
      congrArg (tget ({} : Thread) · k) (homeStore_stores ({ v with nextId := v.nextId + 1 } : State) p.loc x.size x.data {}).threads
    have hw : x.writes p = [(p.loc, natLe x.size x.data.toNat)] := by simp [Elem.writes, hk]
    have ht : x.takes p s.mem = [] := by simp [Elem.takes, hret]
    rw [Bool.or_false, Bool.or_false] at hframe
    rw [hstep, hw, ht]
    refine ⟨hframe, ?_, fun hd => ?_, fun j hj => (hthr j).trans (hothers j hj), ?_⟩
    · rw [hthr]; exact hself
    · rw [hthr]; exact hwatch hd
    · rw [homeStore_scratch _ _ _ _ hx.scratch]; exact hviews

end Sys2Proof.Machine

namespace Sys2Proof.Machine

/-! #### One thread (R211, R214) -/

/-- Elements of which none reads what another may have written: they all load, or they all store. -/
def Steady (l : List (Elem × Place)) : Prop := (∀ q ∈ l, q.1.writes q.2 = []) ∨ ∀ q ∈ l, ∀ m, q.1.takes q.2 m = []

theorem Steady.of_cons {q : Elem × Place} {r : List (Elem × Place)} (h : Steady (q :: r)) : Steady r :=
  h.imp (fun h x hx => h x (List.mem_cons_of_mem _ hx)) fun h x hx => h x (List.mem_cons_of_mem _ hx)

/-- What the first element writes changes nothing that a later one takes. -/
theorem Steady.takes {q : Elem × Place} {r : List (Elem × Place)} (h : Steady (q :: r)) (m : List Host.Cell) :
    (r.flatMap fun x => x.1.takes x.2 (writeAll m (q.1.writes q.2))) = r.flatMap fun x => x.1.takes x.2 m := by
  rcases h with h | h
  · rw [h q List.mem_cons_self]; rfl
  · have hnil (m : List Host.Cell) : (r.flatMap fun x => x.1.takes x.2 m) = [] :=
      List.flatMap_eq_nil_iff.mpr fun x hx => h x (List.mem_cons_of_mem _ hx) m
    rw [hnil, hnil]

theorem State.Takes.trans {s v u : State} {wk k : Nat} {a b : List (Nat × W32)} (hl : v.launchOf (v.wg wk) = s.launchOf (s.wg wk))
    (h : s.Takes wk k ((s.thr k).wxs a) v) (h' : v.Takes wk k ((v.thr k).wxs b) u) : s.Takes wk k ((s.thr k).wxs (a ++ b)) u where
  self := by
    obtain ⟨w, hw⟩ : ∃ w, v.thr k = { (s.thr k).wxs a with watch := w } := ⟨_, h.self⟩
    have := h'.self
    rw [hw, wxs_watch, ← wxs_append] at this
    exact this
  watch hd := by
    have h1 : v.thr k = { (s.thr k).wxs a with watch := ((s.thr k).wxs a).watch } := by rw [← h.watch hd]; exact h.self
    rw [h'.watch (by rw [hl]; exact hd), wxs_append]
    exact congrArg (fun t : Thread => (t.wxs b).watch) h1
  others j hj := (h'.others j hj).trans (h.others j hj)
  views := h'.views.trans h.views

theorem wx_life (t : Thread) (n : Nat) (x : W32) : (t.wx n x).life = t.life := by
  unfold Thread.wx Thread.setPoison
  dsimp only
  split <;> rfl

theorem wxs_life (t : Thread) (l : List (Nat × W32)) : (t.wxs l).life = t.life := by
  induction l generalizing t with
  | nil => rfl
  | cons p r ih => exact (ih _).trans (wx_life t _ _)

theorem memOk_of_issue {s v : State} {wk : Nat} {ws : List (Nat × List Byte)} {bad : Bool} (hm : s.MemOk) (h : s.ScratchIssue wk ws bad v) :
    v.MemOk := by
  have hall (m : List Host.Cell) (l : List (Nat × List Byte)) (hm : Memory.wf m = true) : Memory.wf (writeAll m l) = true := by
    induction l generalizing m with
    | nil => exact hm
    | cons p r ih => exact ih _ (wf_writeBytes _ _ hm)
  exact (congrArg Memory.wf h.mem).trans (hall _ _ hm)

theorem foldl_issueElem_plain {c : Site} {tid : Nat} (instr : Nat) (l : List (Elem × Place)) {s : State}
    (hm : (∃ q ∈ l, q.1.kind = .store) → s.MemOk) (hr : s.redoing c.wg = false) (hlive : (s.thr (thrKey c.wg tid)).live = true) (hl : ∀ q ∈ l, q.1.Plain q.2) (hst : Steady l) :
    let u := l.foldl (fun s q => s.issueElem c tid instr q.1 q.2) s
    s.ScratchIssue c.wg (l.flatMap fun q => q.1.writes q.2) (l.any fun q => s.spoils c.wg q.1 q.2) u ∧
      s.Takes c.wg (thrKey c.wg tid) ((s.thr (thrKey c.wg tid)).wxs (l.flatMap fun q => q.1.takes q.2 s.mem)) u := by
  induction l generalizing s with
  | nil => exact ⟨.refl s _, ⟨rfl, fun _ => rfl, fun _ _ => rfl, rfl⟩⟩
  | cons q r ih =>
    obtain ⟨hi, ht⟩ := issueElem_plain hr (tid := tid) instr (fun hk => hm ⟨q, List.mem_cons_self, hk⟩) (hl q List.mem_cons_self) hlive
    have hlive' : ((s.issueElem c tid instr q.1 q.2).thr (thrKey c.wg tid)).live = true := by
      rw [ht.self]
      simpa [Thread.live, wxs_life] using hlive
    obtain ⟨hi', ht'⟩ := ih (fun ⟨x, hx, hk⟩ => memOk_of_issue (hm ⟨x, List.mem_cons_of_mem _ hx, hk⟩) hi) (hi.redoing.trans hr) hlive' (fun x hx => hl x (List.mem_cons_of_mem _ hx)) hst.of_cons
    have hall := hi.trans hi'
    have hthr := State.Takes.trans hi.launchOf ht ht'
    simp only [hi.spoils] at hall
    rw [hi.mem, hst.takes] at hthr
    exact ⟨hall, hthr⟩

/-- What a word's order leaves of a thread. -/
theorem afterOrder_spec (s : State) (k : Nat) (o : MO) :
    s.afterOrder k o = { s with threads := (s.afterOrder k o).threads, views := (s.afterOrder k o).views } ∧
      (o.sc ≠ .pod → (s.afterOrder k o).views = s.views) ∧ (∀ j, j ≠ k → (s.afterOrder k o).thr j = s.thr j) ∧
      (s.afterOrder k o).thr k = { s.thr k with hold := ((s.afterOrder k o).thr k).hold, since := ((s.afterOrder k o).thr k).since } ∧
      OrderHolds o false (s.thr k) ((s.afterOrder k o).thr k) := by
  have hacq : let u := (s.modThr k fun t => { t with hold := .acq o.sc }).settleAcq k
      u = { s with threads := u.threads, views := u.views } ∧ (o.sc ≠ .pod → u.views = s.views) ∧ (∀ j, j ≠ k → u.thr j = s.thr j) ∧
        u.thr k = { s.thr k with hold := (u.thr k).hold, since := (u.thr k).since } := by
    refine ⟨by rw [settleAcq_frame]; rfl, fun hsc => settleAcq_views (sc := o.sc) (by rw [State.modThr_self]) hsc, fun j hj => ?_, ?_⟩
    · rw [settleAcq_thr, if_neg hj, State.modThr_thr, if_neg hj.symm]
    · conv_lhs => rw [settleAcq_thr, if_pos rfl, State.modThr_self]
  unfold State.afterOrder OrderHolds
  cases o.o with
  | rlx => exact ⟨rfl, fun _ => rfl, fun _ _ => rfl, rfl, rfl⟩
  | rel => exact ⟨rfl, fun _ => rfl, fun _ _ => rfl, rfl, rfl⟩
  | acq => exact ⟨hacq.1, hacq.2.1, hacq.2.2.1, hacq.2.2.2, fun h => Bool.noConfusion h⟩
  | ar => exact ⟨hacq.1, hacq.2.1, hacq.2.2.1, hacq.2.2.2, fun h => Bool.noConfusion h⟩
  | sc =>
    refine ⟨rfl, fun _ => rfl, fun j hj => ?_, ?_, ?_⟩
    · dsimp only; rw [State.modThr_thr, if_neg hj.symm]
    · dsimp only; rw [State.modThr_self]
    · dsimp only; rw [State.modThr_self]

/-- A thread of a memory word as its registers are `r` and what its order and its watch leave. -/
structure State.Accessed (s : State) (wk k : Nat) (o : MO) (r : List (Nat × W32)) (v : State) : Prop where
  self : v.thr k = { (s.thr k).wxs r with hold := (v.thr k).hold, since := (v.thr k).since, watch := (v.thr k).watch }
  order : OrderHolds o false (s.thr k) (v.thr k)
  watch : (s.launchOf (s.wg wk)).debug = false → (v.thr k).watch = (s.thr k).watch

theorem wx_same (t : Thread) (n : Nat) (x : W32) : (t.wx n x).hold = t.hold ∧ (t.wx n x).watch = t.watch := by
  unfold Thread.wx Thread.setPoison
  dsimp only
  split <;> exact ⟨rfl, rfl⟩

theorem wxs_same (t : Thread) (l : List (Nat × W32)) : (t.wxs l).hold = t.hold ∧ (t.wxs l).watch = t.watch := by
  induction l generalizing t with
  | nil => exact ⟨rfl, rfl⟩
  | cons p r ih => exact ⟨(ih _).1.trans (wx_same t _ _).1, (ih _).2.trans (wx_same t _ _).2⟩

theorem OrderHolds.of_hold {o : MO} {b : Bool} {t t1 t' : Thread} (h : OrderHolds o b t1 t') (he : t1.hold = t.hold) : OrderHolds o b t t' := by
  unfold OrderHolds at h ⊢
  rw [he] at h
  exact h

/-- The fresh number of a word's accesses changes nothing else. -/
theorem fresh_issue (s : State) (wk : Nat) : s.ScratchIssue wk [] false { s with nextId := s.nextId + 1 } :=
  ⟨rfl, rfl, fun _ => ⟨rfl, rfl⟩, fun _ => .refl _, fun _ _ => rfl, by rw [Bool.or_false]; rfl, fun _ => rfl⟩

theorem accessing_plain {c : Site} {tid : Nat} (o : MO) {l : List (Elem × Place)} {s : State}
    (hm : (∃ q ∈ l, q.1.kind = .store) → s.MemOk)
    (hr : s.redoing c.wg = false) (hlive : (s.thr (thrKey c.wg tid)).live = true) (hl : ∀ q ∈ l, q.1.Plain q.2) (hst : Steady l) :
    let u := s.accessing c o tid l
    s.ScratchIssue c.wg (l.flatMap fun q => q.1.writes q.2) (l.any fun q => s.spoils c.wg q.1 q.2) u ∧
      (o.sc ≠ .pod → u.views = s.views) ∧ (∀ j, j ≠ thrKey c.wg tid → u.thr j = s.thr j) ∧
      s.Accessed c.wg (thrKey c.wg tid) o (l.flatMap fun q => q.1.takes q.2 s.mem) u := by
  obtain ⟨hi, ht⟩ := foldl_issueElem_plain (s := { s with nextId := s.nextId + 1 }) (c := c) (tid := tid) s.nextId l hm hr hlive hl hst
  have hall := (fresh_issue s c.wg).trans hi
  rw [List.nil_append, Bool.false_or] at hall
  have hthr (k : Nat) : ({ s with nextId := s.nextId + 1 } : State).thr k = s.thr k := rfl
  have hspoils (q : Elem × Place) : ({ s with nextId := s.nextId + 1 } : State).spoils c.wg q.1 q.2 = s.spoils c.wg q.1 q.2 := rfl
  have hu : s.accessing c o tid l =
      (l.foldl (fun (v : State) q => v.issueElem c tid s.nextId q.1 q.2) { s with nextId := s.nextId + 1 }).afterOrder (thrKey c.wg tid) o := rfl
  obtain ⟨hself, hwatch, hothers, hviews⟩ := ht
  rw [hu]
  generalize l.foldl (fun (v : State) q => v.issueElem c tid s.nextId q.1 q.2) { s with nextId := s.nextId + 1 } = v at *
  obtain ⟨hf, hov, hoo, hos, hoh⟩ := afterOrder_spec v (thrKey c.wg tid) o
  rw [hthr] at hself hwatch
  refine ⟨?_, fun hsc => (hov hsc).trans hviews, fun j hj => (hoo j hj).trans (hothers j hj), ?_, ?_, fun hd => ?_⟩
  · rw [hf]
    exact hall.withThreads _ _
  · conv_lhs => rw [hos, hself]
    rw [hos]
  · refine hoh.of_hold ?_
    rw [hself]
    exact (wxs_same _ _).1
  · have hw : ((v.afterOrder (thrKey c.wg tid) o).thr (thrKey c.wg tid)).watch = (v.thr (thrKey c.wg tid)).watch := by rw [hos]
    exact hw.trans ((hwatch hd).trans (wxs_same _ _).2)

end Sys2Proof.Machine

namespace Sys2Proof.Machine

/-! #### The threads of a fragment in lane order -/

theorem Steady.of_append {l r : List (Elem × Place)} (h : Steady (l ++ r)) : Steady l ∧ Steady r :=
  ⟨h.imp (fun h x hx => h x (List.mem_append_left _ hx)) fun h x hx => h x (List.mem_append_left _ hx),
    h.imp (fun h x hx => h x (List.mem_append_right _ hx)) fun h x hx => h x (List.mem_append_right _ hx)⟩

/-- What some elements write changes nothing that others of the word take. -/
theorem Steady.takes_append {l r : List (Elem × Place)} (h : Steady (l ++ r)) (m : List Host.Cell) {q : Elem × Place} (hq : q ∈ r) :
    q.1.takes q.2 (writeAll m (l.flatMap fun x => x.1.writes x.2)) = q.1.takes q.2 m := by
  rcases h with h | h
  · rw [List.flatMap_eq_nil_iff.mpr fun x hx => h x (List.mem_append_left _ hx)]
    rfl
  · rw [h q (List.mem_append_right _ hq), h q (List.mem_append_right _ hq)]

theorem flatMap_congr_left {α β : Type} {l : List α} {f g : α → List β} (h : ∀ x ∈ l, f x = g x) : l.flatMap f = l.flatMap g := by
  rw [List.flatMap, List.flatMap, List.map_congr_left h]

theorem foldl_accessing_plain {c : Site} (o : MO) {f : Env → List (Elem × Place)} (fr : Frag) {s : State}
    (hnd : fr.Pairwise fun a b => a.tid ≠ b.tid) (hm : (∃ q ∈ fr.flatMap f, q.1.kind = .store) → s.MemOk)
    (hr : s.redoing c.wg = false) (hlive : ∀ e ∈ fr, (s.thr (thrKey c.wg e.tid)).live = true)
    (hl : ∀ q ∈ fr.flatMap f, q.1.Plain q.2) (hst : Steady (fr.flatMap f)) :
    let u := fr.foldl (fun v e => v.accessing c o e.tid (f e)) s
    s.ScratchIssue c.wg ((fr.flatMap f).flatMap fun q => q.1.writes q.2) ((fr.flatMap f).any fun q => s.spoils c.wg q.1 q.2) u ∧
      (o.sc ≠ .pod → u.views = s.views) ∧ (∀ j, (∀ e ∈ fr, j ≠ thrKey c.wg e.tid) → u.thr j = s.thr j) ∧
      ∀ e ∈ fr, s.Accessed c.wg (thrKey c.wg e.tid) o ((f e).flatMap fun q => q.1.takes q.2 s.mem) u := by
  induction fr generalizing s with
  | nil => exact ⟨.refl s _, fun _ => rfl, fun _ _ => rfl, fun _ he => absurd he List.not_mem_nil⟩
  | cons e r ih =>
    rw [List.flatMap_cons] at hm hl hst
    obtain ⟨hfirst, hrest⟩ := List.pairwise_cons.mp hnd
    obtain ⟨hste, hstr⟩ := hst.of_append
    obtain ⟨hi, hv, hoth, hacc⟩ := accessing_plain o (fun ⟨q, hq, hk⟩ => hm ⟨q, List.mem_append_left _ hq, hk⟩) hr
      (hlive e List.mem_cons_self) (fun q hq => hl q (List.mem_append_left _ hq)) hste
    have hne : ∀ e' ∈ r, thrKey c.wg e'.tid ≠ thrKey c.wg e.tid := fun e' he' h => hfirst e' he' (thrKey_inj h).symm
    rw [List.foldl_cons]
    generalize s.accessing c o e.tid (f e) = v at *
    obtain ⟨hi', hv', hoth', hacc'⟩ := ih (s := v) hrest (fun ⟨q, hq, hk⟩ => memOk_of_issue (hm ⟨q, List.mem_append_right _ hq, hk⟩) hi)
      (hi.redoing.trans hr) (fun e' he' => by rw [hoth _ (hne e' he')]; exact hlive e' (List.mem_cons_of_mem _ he'))
      (fun q hq => hl q (List.mem_append_right _ hq)) hstr
    generalize r.foldl (fun v e => v.accessing c o e.tid (f e)) v = u at *
    have hall := hi.trans hi'
    simp only [hi.spoils] at hall
    rw [List.flatMap_cons, List.flatMap_append, List.any_append]
    refine ⟨hall, fun hsc => (hv' hsc).trans (hv hsc), fun j hj => ?_, fun e' he' => ?_⟩
    · rw [hoth' j fun e' he' => hj e' (List.mem_cons_of_mem _ he'), hoth j (hj e List.mem_cons_self)]
    · rcases List.mem_cons.mp he' with rfl | he'
      · have hthr : u.thr (thrKey c.wg e'.tid) = v.thr (thrKey c.wg e'.tid) := hoth' _ fun e'' he'' => (hne e'' he'').symm
        exact ⟨by rw [hthr]; exact hacc.self, by rw [hthr]; exact hacc.order, by rw [hthr]; exact hacc.watch⟩
      · have hmine := hacc' e' he'
        have hthr := hoth _ (hne e' he')
        have htakes : ((f e').flatMap fun q => q.1.takes q.2 v.mem) = (f e').flatMap fun q => q.1.takes q.2 s.mem := by
          rw [hi.mem]
          exact flatMap_congr_left fun q hq => hst.takes_append s.mem (List.mem_flatMap.mpr ⟨e', he', hq⟩)
        rw [htakes] at hmine
        exact ⟨by rw [← hthr]; exact hmine.self, by rw [← hthr]; exact hmine.order,
          fun hd => by rw [← hthr]; exact hmine.watch (by rw [hi.launchOf]; exact hd)⟩

/-! #### The words -/

theorem OrderHolds.of_goto {o : MO} {b : Bool} {t t' : Thread} {a : W64} (h : OrderHolds o b t t') : OrderHolds o b t (t'.goto a) := by
  unfold OrderHolds at h ⊢
  cases ho : o.o <;> rw [ho] at h <;> exact h

/-- A thread that has accessed and goes on does what a memory word does. -/
theorem State.Accessed.memDoes {s v : State} {c : Site} {k : Nat} {o : MO} {r : List (Nat × W32)} (h : s.Accessed c.wg k o r v) :
    MemDoes s c o false (((s.thr k).wxs r).goto c.nextPc) (s.thr k) ((v.thr k).goto c.nextPc) := by
  refine ⟨?_, h.order.of_goto, h.watch⟩
  conv_lhs => rw [h.self]
  rfl

/-- A memory word on scratchpad issues and goes on, with what its elements do done. -/
theorem scratchWord {i : Instr} {g : Guard} {rd : Frag → Env → Reads} {o : MO} {plan : Bool → Env → List Elem}
    {els : Env → List Elem} {place : Env → Elem → Place} {s : State} {c : Site} {m : Host.Outcome State Fault Refusal}
    (hw : m = runWord i g rd always (memBody plan o) s) (h : s.Issues c i) (hmay : s.MayAccess c (s.frag c g) o els place)
    (hplan : ∀ b e, plan b e = els e) (hm : (∃ q ∈ (s.frag c g).flatMap (placed els place), q.1.kind = .store) → s.MemOk)
    (hl : ∀ q ∈ (s.frag c g).flatMap (placed els place), q.1.Plain q.2) (hst : Steady ((s.frag c g).flatMap (placed els place))) :
    ∃ v u, m = .next u ∧ s.ScratchIssue c.wg (((s.frag c g).flatMap (placed els place)).flatMap fun q => q.1.writes q.2)
        (((s.frag c g).flatMap (placed els place)).any fun q => s.spoils c.wg q.1 q.2) v ∧
      (o.sc ≠ .pod → u.views = s.views) ∧
      (∀ j ∈ c.tids, let t := s.thr (thrKey c.wg j)
        if (s.env c.wg j).guarded g then MemDoes s c o false
          ((t.wxs ((placed els place (s.env c.wg j)).flatMap fun q => q.1.takes q.2 s.mem)).goto c.nextPc) t (u.thr (thrKey c.wg j))
        else u.thr (thrKey c.wg j) = t.goto c.nextPc) ∧
      OthersKeep s c u ∧ CoresKeep v c u ∧ u = { v with threads := u.threads, cores := u.cores } := by
  have hbody := memBody_of_mayAccess hmay (plan := plan) fun e _ => hplan _ e
  have hnd : (s.frag c g).Pairwise fun a b => a.tid ≠ b.tid :=
    List.pairwise_map.mp (frag_nodup (s := s) h.nodup g)
  obtain ⟨hi, hv, hoth, hacc⟩ := foldl_accessing_plain o (s.frag c g) hnd hm hmay.first hmay.live hl hst
  obtain ⟨u, hu, hdo, hothers, hcores, hall⟩ := goesOn_from hw h rfl hbody hoth
  refine ⟨_, u, hu, hi, fun hsc => ?_, fun j hj => ?_, hothers, hcores, hall⟩
  · rw [hall]; exact hv hsc
  · have hj' := hdo j hj
    dsimp only
    split at hj'
    · next hg =>
      rw [if_pos hg]
      rw [hj']
      exact (hacc (s.env c.wg j) (mem_frag hj hg)).memDoes
    · next hg =>
      rw [if_neg hg]; exact hj'

end Sys2Proof.Machine

namespace Sys2Proof.Machine

/-! #### LD and LDV (13_memory_instr R229, R230) -/

theorem fits_of_aligned (w : Width) {l : Nat} (h : l % w.bytes = 0) : l % 8 + w.bytes ≤ 8 := by
  cases w <;> simp only [Width.bytes] at h ⊢ <;> omega

theorem mem_placed {els : Env → List Elem} {place : Env → Elem → Place} {fr : Frag} {q : Elem × Place}
    (hq : q ∈ fr.flatMap (placed els place)) : ∃ e ∈ fr, ∃ x ∈ els e, q = (x, place e x) := by
  obtain ⟨e, he, hq⟩ := List.mem_flatMap.mp hq
  obtain ⟨x, hx, rfl⟩ := List.mem_map.mp hq
  exact ⟨e, he, x, hx, rfl⟩

theorem wgKeeps_of_issue {s v u : State} {c : Site} {fr : Frag} {els : Env → List Elem} {place : Env → Elem → Place}
    {ws : List (Nat × List Byte)}
    (h : s.ScratchIssue c.wg ws ((fr.flatMap (placed els place)).any fun q => s.spoils c.wg q.1 q.2) v) (hu : u.wgs = v.wgs) :
    WgKeeps s c fr els place u := by
  have hwg (k : Nat) : u.wg k = v.wg k := congrArg (tget _ · k) hu
  refine ⟨fun k hk => (hwg k).trans (h.wgs k hk), ?_, fun hr => by rw [hwg]; exact h.digest hr, ?_⟩
  · rw [hwg]
    conv_lhs => rw [h.wg]
    rw [h.wg]
  · rw [hwg, h.wg, List.any_flatMap]
    simp only [placed, List.any_map]
    rfl

/-- LD and LDV load into x registers, elements of the width `t`. -/
theorem loads_plain {els : Env → List Elem} {place : Env → Elem → Place} {fr : Frag} {t : ITy}
    (hels : ∀ e, ∀ x ∈ els e, x.kind = .load ∧ x.size = t.w.bytes ∧ ∃ d, x.ret = .x d t)
    (hs : ∀ e ∈ fr, ∀ x ∈ els e, isScratch (place e x).loc = true ∧ (place e x).loc % x.size = 0) :
    ∀ q ∈ fr.flatMap (placed els place), q.1.Plain q.2 ∧ q.1.kind = .load := by
  intro q hq
  obtain ⟨e, he, x, hx, rfl⟩ := mem_placed hq
  obtain ⟨hk, hsize, d, hd⟩ := hels e x hx
  obtain ⟨hscr, hal⟩ := hs e he x hx
  exact ⟨⟨.inl ⟨hk, d, t, hd⟩, hscr, hsize ▸ fits_of_aligned t.w (hsize ▸ hal)⟩, hk⟩

/-- A memory word that loads from scratchpad. -/
theorem scratchLoad {i : Instr} {g : Guard} {rd : Frag → Env → Reads} {o : MO} {plan : Bool → Env → List Elem}
    {els : Env → List Elem} {place : Env → Elem → Place} {s : State} {c : Site} {m : Host.Outcome State Fault Refusal} {t : ITy}
    {regs : Env → List (Nat × W32)}
    (hw : m = runWord i g rd always (memBody plan o) s) (h : s.Issues c i) (hmay : s.MayAccess c (s.frag c g) o els place)
    (hplan : ∀ b e, plan b e = els e)
    (hels : ∀ e, ∀ x ∈ els e, x.kind = .load ∧ x.size = t.w.bytes ∧ ∃ d, x.ret = .x d t)
    (hregs : ∀ e, ((placed els place e).flatMap fun q => q.1.takes q.2 s.mem) = regs e)
    (hs : ∀ e ∈ s.frag c g, ∀ x ∈ els e, isScratch (place e x).loc = true ∧ (place e x).loc % x.size = 0) :
    ∃ u, m = .next u ∧
      (∀ j ∈ c.tids, let t := s.thr (thrKey c.wg j)
        if (s.env c.wg j).guarded g then
          MemDoes s c o false ((t.wxs (regs (s.env c.wg j))).goto c.nextPc) t (u.thr (thrKey c.wg j))
        else u.thr (thrKey c.wg j) = t.goto c.nextPc) ∧
      OthersKeep s c u ∧ CoresKeep s c u ∧ WgKeeps s c (s.frag c g) els place u ∧ (o.sc ≠ .pod → u.views = s.views) ∧
      u = { s with threads := u.threads, cores := u.cores, wgs := u.wgs, nextId := u.nextId, views := u.views } := by
  have hplain := loads_plain hels hs
  have hnone : ∀ q ∈ (s.frag c g).flatMap (placed els place), q.1.writes q.2 = [] := fun q hq => by
    simp [Elem.writes, (hplain q hq).2]
  obtain ⟨v, u, hu, hi, hviews, hdo, hoth, hcores, hall⟩ := scratchWord hw h hmay hplan
    (fun ⟨q, hq, hk⟩ => by simp [(hplain q hq).2] at hk) (fun q hq => (hplain q hq).1) (.inl hnone)
  have hkeeps := wgKeeps_of_issue hi (show u.wgs = v.wgs by rw [hall])
  rw [List.flatMap_eq_nil_iff.mpr hnone] at hi
  obtain ⟨hvc, hvp⟩ := hi.still rfl
  have hvm : v.mem = s.mem := hi.mem
  refine ⟨u, hu, fun j hj => ?_, hoth, fun k => ?_, hkeeps, hviews, ?_⟩
  · have := hdo j hj
    rw [hregs] at this
    exact this
  · have hk : v.core k = s.core k := congrArg (tget _ · k) hvc
    rw [← hk]
    exact hcores k
  · have hv := hi.frame
    rw [hvm, hvp] at hv
    rw [hall]
    conv_lhs => rw [hv]

theorem exec_ld_eq_runWord (d : Dst) (m : MAddr) (t : ITy) (o : MO) (s : State) : exec (.ld d m t o) s =
    runWord (.ld d m t o) m.g (rdPlain (.ld d m t o)) always (memBody (ldElems d m t) o) s := rfl

theorem exec_ldv_eq_runWord (d : XReg) (m : MAddr) (t : ITy) (n : VCnt) (o : MO) (s : State) : exec (.ldv d m t n o) s =
    runWord (.ldv d m t n o) m.g (rdPlain (.ldv d m t n o)) always (memBody (fun _ => ldvElems d m t n) o) s := rfl

/-- Settles O18: the elements of LD and LDV load and nothing of the word stores, so each takes the bytes that stand there at issue. -/
theorem scratchLoadsRead : Obligations.ScratchLoadsRead := by
  unfold Obligations.ScratchLoadsRead
  rintro s c g o i els place regs (⟨d, m, t, rfl, rfl, rfl, hregs⟩ | ⟨d, m, t, n, rfl, rfl, rfl, hregs⟩) h hmay hs
  · refine scratchLoad (t := t) (regs := regs) (exec_ld_eq_runWord _ m t o s) h hmay (fun _ _ => rfl) (fun e x hx => ?_) (fun e => ?_) hs
    · rw [List.mem_singleton.mp hx]
      exact ⟨rfl, rfl, d.toNat, rfl⟩
    · simp [hregs, placed, Elem.takes]
  · refine scratchLoad (t := t) (regs := regs) (exec_ldv_eq_runWord d m t n o s) h hmay (fun _ _ => rfl) (fun e x hx => ?_) (fun e => ?_) hs
    · obtain ⟨k, -, rfl⟩ := List.mem_map.mp hx
      exact ⟨rfl, rfl, _, rfl⟩
    · simp only [hregs, ldvElems, placed, zipIdx_map_range, List.map_map, List.flatMap_map]
      rfl

end Sys2Proof.Machine

namespace Sys2Proof.Machine

/-! #### ST and STV (13_memory_instr R229, R230) -/

theorem wf_writeAll {m : List Host.Cell} (hm : Memory.wf m = true) (l : List (Nat × List Byte)) : Memory.wf (writeAll m l) = true := by
  induction l generalizing m with
  | nil => exact hm
  | cons p r ih => exact ih (wf_writeBytes _ _ hm)

/-- A byte outside all runs is as before. -/
theorem readByte_writeAll_out (m : List Host.Cell) {l : List (Nat × List Byte)} {a : Nat}
    (h : ∀ p ∈ l, a < p.1 ∨ p.1 + p.2.length ≤ a) : readByte (writeAll m l) a = readByte m a := by
  induction l generalizing m with
  | nil => rfl
  | cons p r ih =>
    exact (ih _ fun q hq => h q (List.mem_cons_of_mem _ hq)).trans (readByte_writeBytes_out m p.1 p.2 a (h p List.mem_cons_self))

/-- A run that no other meets is read back. -/
theorem readBytes_writeAll {m : List Host.Cell} (hm : Memory.wf m = true) {l : List (Nat × List Byte)} {p : Nat × List Byte} (hp : p ∈ l)
    (h : ∀ q ∈ l, q = p ∨ q.1 + q.2.length ≤ p.1 ∨ p.1 + p.2.length ≤ q.1) : readBytes (writeAll m l) p.1 p.2.length = p.2 := by
  induction l using List.reverseRecOn with
  | nil => exact absurd hp List.not_mem_nil
  | append_singleton r q ih =>
    rw [writeAll_append]
    by_cases hq : q = p
    · subst hq
      exact readBytes_writeBytes (wf_writeAll hm r) q.1 q.2
    · have hstep : readBytes (writeAll (writeAll m r) [q]) p.1 p.2.length = readBytes (writeAll m r) p.1 p.2.length :=
        readBytes_writeBytes_out _ _ ((h q (by simp)).resolve_left hq).symm
      have hpr : p ∈ r := (List.mem_append.mp hp).resolve_right fun hp => hq (List.mem_singleton.mp hp).symm
      rw [hstep]
      exact ih hpr fun x hx => h x (List.mem_append_left _ hx)

/-- The run of bytes that a stored element is. -/
def Elem.run (x : Elem) (p : Place) : Nat × List Byte := (p.loc, natLe x.size x.data.toNat)

/-- A memory word that stores to scratchpad. -/
theorem scratchStore {i : Instr} {g : Guard} {rd : Frag → Env → Reads} {o : MO} {plan : Bool → Env → List Elem}
    {els : Env → List Elem} {place : Env → Elem → Place} {s : State} {c : Site} {m : Host.Outcome State Fault Refusal} {w : Width}
    (hw : m = runWord i g rd always (memBody plan o) s) (h : s.Issues c i) (hmay : s.MayAccess c (s.frag c g) o els place)
    (hplan : ∀ b e, plan b e = els e) (hels : ∀ e, ∀ x ∈ els e, x.kind = .store ∧ x.size = w.bytes ∧ x.ret = .none) (hm : s.MemOk)
    (hs : ∀ e ∈ s.frag c g, ∀ x ∈ els e, isScratch (place e x).loc = true ∧ (place e x).loc % x.size = 0) :
    ∃ u, m = .next u ∧
      u.mem = writeAll s.mem (((s.frag c g).flatMap (placed els place)).map fun q => q.1.run q.2) ∧
      (∀ j ∈ c.tids, let t := s.thr (thrKey c.wg j)
        if (s.env c.wg j).guarded g then MemDoes s c o false (t.goto c.nextPc) t (u.thr (thrKey c.wg j))
        else u.thr (thrKey c.wg j) = t.goto c.nextPc) ∧
      OthersKeep s c u ∧ (∀ k, u.core k = { s.core k with perf := (u.core k).perf, pq := (u.core k).pq }) ∧
      (∀ k, (s.core k).pq = [] → (u.core k).pq = []) ∧ WgKeeps s c (s.frag c g) els place u ∧ (o.sc ≠ .pod → u.views = s.views) ∧
      u = { s with threads := u.threads, cores := u.cores, wgs := u.wgs, nextId := u.nextId, views := u.views, mem := u.mem,
                   poison := u.poison } := by
  have hplain : ∀ q ∈ (s.frag c g).flatMap (placed els place), q.1.Plain q.2 ∧ q.1.kind = .store ∧ q.1.ret = .none := by
    intro q hq
    obtain ⟨e, he, x, hx, rfl⟩ := mem_placed hq
    obtain ⟨hk, hsize, hret⟩ := hels e x hx
    obtain ⟨hscr, hal⟩ := hs e he x hx
    exact ⟨⟨.inr ⟨hk, hret⟩, hscr, hsize ▸ fits_of_aligned w (hsize ▸ hal)⟩, hk, hret⟩
  have htakes : ∀ q ∈ (s.frag c g).flatMap (placed els place), ∀ m, q.1.takes q.2 m = [] := fun q hq m => by
    simp [Elem.takes, (hplain q hq).2.2]
  have hruns : (((s.frag c g).flatMap (placed els place)).flatMap fun q => q.1.writes q.2) =
      ((s.frag c g).flatMap (placed els place)).map fun q => q.1.run q.2 := by
    rw [List.map_eq_flatMap]
    exact flatMap_congr_left fun q hq => by simp [Elem.writes, Elem.run, (hplain q hq).2.1]
  obtain ⟨v, u, hu, hi, hviews, hdo, hoth, hcores, hall⟩ := scratchWord hw h hmay hplan (fun _ => hm) (fun q hq => (hplain q hq).1)
    (.inr htakes)
  have hkeeps := wgKeeps_of_issue hi (show u.wgs = v.wgs by rw [hall])
  have humem : u.mem = v.mem := by rw [hall]
  have hcore (k : Nat) : (s.core k).SameButQueue { u.core k with perf := (s.core k).perf } := by
    obtain ⟨hv, hq⟩ := hi.cores k
    have hk := hcores k
    split at hk <;> rw [hk] <;> exact ⟨by conv_lhs => rw [hv], hq⟩
  refine ⟨u, hu, humem.trans (hi.mem.trans (by rw [hruns])), fun j hj => ?_, hoth, fun k => ?_, fun k => (hcore k).2, hkeeps, hviews, ?_⟩
  · have := hdo j hj
    have hnone : ((placed els place (s.env c.wg j)).flatMap fun q => q.1.takes q.2 s.mem) = [] :=
      List.flatMap_eq_nil_iff.mpr fun q hq => by
        obtain ⟨x, hx, rfl⟩ := List.mem_map.mp hq
        simp [Elem.takes, (hels _ x hx).2.2]
    rw [hnone] at this
    exact this
  · exact congrArg (fun k' : Core => { k' with perf := (u.core k).perf }) (hcore k).1
  · have hv := hi.frame
    rw [hall]
    conv_lhs => rw [hv]

/-- What a storing word writes: the bytes outside its elements stay, and an element that no other meets is read back. -/
theorem runs_spec {m : List Host.Cell} (hm : Memory.wf m = true) (els : Env → List Elem) (place : Env → Elem → Place) (fr : Frag) :
    let m' := writeAll m ((fr.flatMap (placed els place)).map fun q => q.1.run q.2)
    (∀ a, (∀ e ∈ fr, ∀ x ∈ els e, a < (place e x).loc ∨ (place e x).loc + x.size ≤ a) → readByte m' a = readByte m a) ∧
    (∀ e ∈ fr, ∀ x ∈ els e,
      (∀ f ∈ fr, ∀ y ∈ els f, f = e ∧ y = x ∨ (place f y).loc + y.size ≤ (place e x).loc ∨
        (place e x).loc + x.size ≤ (place f y).loc) →
      readBytes m' (place e x).loc x.size = natLe x.size x.data.toNat) := by
  have hmem : ∀ p ∈ (fr.flatMap (placed els place)).map (fun q => q.1.run q.2), ∃ e ∈ fr, ∃ x ∈ els e, p = x.run (place e x) := by
    intro p hp
    obtain ⟨q, hq, rfl⟩ := List.mem_map.mp hp
    obtain ⟨e, he, x, hx, rfl⟩ := mem_placed hq
    exact ⟨e, he, x, hx, rfl⟩
  refine ⟨fun a ha => readByte_writeAll_out m fun p hp => ?_, fun e he x hx hout => ?_⟩
  · obtain ⟨e, he, x, hx, rfl⟩ := hmem p hp
    simpa [Elem.run] using ha e he x hx
  · have hp : x.run (place e x) ∈ (fr.flatMap (placed els place)).map fun q => q.1.run q.2 :=
      List.mem_map.mpr ⟨(x, place e x), List.mem_flatMap.mpr ⟨e, he, List.mem_map.mpr ⟨x, hx, rfl⟩⟩, rfl⟩
    have hback := readBytes_writeAll hm hp fun q hq => by
      obtain ⟨f, hf, y, hy, rfl⟩ := hmem q hq
      simp only [Elem.run, length_natLe]
      rcases hout f hf y hy with ⟨rfl, rfl⟩ | hdis
      · exact .inl rfl
      · exact .inr hdis
    simpa only [Elem.run, length_natLe] using hback

theorem exec_st_eq_runWord (m : MAddr) (b : Opnd) (w : Width) (o : MO) (s : State) : exec (.st m b w o) s =
    runWord (.st m b w o) m.g (rdPlain (.st m b w o)) always (memBody (fun _ => stElems m b w) o) s := rfl

theorem exec_stv_eq_runWord (m : MAddr) (b : XReg) (w : Width) (n : VCnt) (o : MO) (s : State) : exec (.stv m b w n o) s =
    runWord (.stv m b w n o) m.g (rdPlain (.stv m b w n o)) always (memBody (fun _ => stvElems m b w n) o) s := rfl

/-- What ST and STV have in common: each issues stores of one width, which return nothing. -/
theorem storeWord_eq {g : Guard} {o : MO} {i : Instr} {els : Env → List Elem} (s : State)
    (h : (∃ m b w, i = .st m b w o ∧ g = m.g ∧ els = fun e =>
        [{ kind := .store, addr := mAddr e m w.bytes, size := w.bytes, data := BitVec.ofNat 64 (readOp w e b) }]) ∨
      (∃ m b w n, i = .stv m b w n o ∧ g = m.g ∧ els = stvElems m b w n)) :
    ∃ w : Width, exec i s = runWord i g (rdPlain i) always (memBody (fun _ => els) o) s ∧
      ∀ e, ∀ x ∈ els e, x.kind = .store ∧ x.size = w.bytes ∧ x.ret = .none := by
  rcases h with ⟨m, b, w, rfl, rfl, rfl⟩ | ⟨m, b, w, n, rfl, rfl, rfl⟩
  · refine ⟨w, exec_st_eq_runWord m b w o s, fun e x hx => ?_⟩
    rw [List.mem_singleton.mp hx]
    exact ⟨rfl, rfl, rfl⟩
  · refine ⟨w, exec_stv_eq_runWord m b w n o s, fun e x hx => ?_⟩
    obtain ⟨k, -, rfl⟩ := List.mem_map.mp hx
    exact ⟨rfl, rfl, rfl⟩

/-- Settles O19: each element of ST and STV is one run of bytes, written in lane order. -/
theorem scratchStoresWrite : Obligations.ScratchStoresWrite := by
  unfold Obligations.ScratchStoresWrite
  intro s c g o i els place hi h hmay hm hs
  obtain ⟨w, hw, hels⟩ := storeWord_eq s hi
  obtain ⟨u, hu, hmem, hrest⟩ := scratchStore hw h hmay (fun _ _ => rfl) hels hm hs
  obtain ⟨hout, hin⟩ := runs_spec hm els place (s.frag c g)
  rw [← hmem] at hout hin
  exact ⟨u, hu, hout, hin, hrest⟩

end Sys2Proof.Machine

/-! ### Barrier objects (15_counters R262) -/

namespace Sys2Proof.Machine

/-- Where the object of a scope stands: with the workgroup, its gang, its context or its pod launch. -/
inductive BarPlace where
  | wg (n : Nat)
  | gang (k : Nat)
  | die (k : Nat)
  | ctx (k : Nat)
  | pod (n : Nat)
  deriving DecidableEq

/-- The place of object `n` of a scope: whether the gang is a re-execution, whether the launch shares its pod objects, and the die. -/
def barPlaceOf (own shares : Bool) (die : Nat) : Scope → Nat → BarPlace
  | .lane, n => .wg n
  | .core, n => .wg n
  | .quad, n => .gang n
  | .die, n => if own then .gang (16 + n) else .die (16 * die + n)
  | .pkg, n => if own then .gang (32 + n) else .ctx n
  | .pod, n => if own then .gang (48 + n) else if shares then .pod n else .ctx (16 + n)

/-- The place of object `n` of a scope, as a workgroup sees it. -/
def State.barPlace (s : State) (wk : Nat) (sc : Scope) (n : Nat) : BarPlace :=
  barPlaceOf (s.gang (s.wg wk).gang).check.isSome (s.ctx (s.wg wk).ctx).launch.sharesPod ((s.wg wk).core / 160) sc n

/-- Different objects below 16 stand at different places. -/
theorem barPlaceOf_inj {own shares : Bool} {die : Nat} {sc sc' : Scope} {n n' : Nat} (hn : n < 16) (hn' : n' < 16)
    (h : barPlaceOf own shares die sc n = barPlaceOf own shares die sc' n') : scIdx sc = scIdx sc' ∧ n = n' := by
  cases own <;> cases shares <;> cases sc <;> cases sc' <;> simp [barPlaceOf, scIdx] at h ⊢ <;> omega

/-- The object at a place. -/
def State.objAt (s : State) (wk : Nat) : BarPlace → Bar
  | .wg n => tget {} (s.wg wk).bars n
  | .gang k => tget {} (s.gang (s.wg wk).gang).bars k
  | .die k => tget {} (s.ctx (s.wg wk).ctx).dieBars k
  | .ctx k => tget {} (s.ctx (s.wg wk).ctx).pkgBars k
  | .pod n => match s.podOf (s.ctx (s.wg wk).ctx).launch.podkey with
    | some p => tget {} p.bars n
    | none => {}

/-- The pod launch `p` with an object of it changed, when it is that of the key. -/
def podWith (key : W64) (n : Nat) (f : Bar → Bar) (p : PodLaunch) : PodLaunch :=
  if p.key == key then { p with bars := tmod {} p.bars n f } else p

/-- Change the object at a place. -/
def State.modObj (s : State) (wk : Nat) (a : BarPlace) (f : Bar → Bar) : State :=
  match a with
  | .wg n => s.modWg wk fun w => { w with bars := tmod {} w.bars n f }
  | .gang k => s.modGang (s.wg wk).gang fun g => { g with bars := tmod {} g.bars k f }
  | .die k => s.modCtx (s.wg wk).ctx fun c => { c with dieBars := tmod {} c.dieBars k f }
  | .ctx k => s.modCtx (s.wg wk).ctx fun c => { c with pkgBars := tmod {} c.pkgBars k f }
  | .pod n => { s with pods := s.pods.map (podWith (s.ctx (s.wg wk).ctx).launch.podkey n f) }

section
variable (s : State) (wk : Nat)

theorem bar_eq_objAt (sc : Scope) (n : Nat) : s.bar wk sc n = s.objAt wk (s.barPlace wk sc n) := by
  unfold State.bar State.barPlace
  cases sc with
  | lane => rfl
  | core => rfl
  | quad => rfl
  | die => dsimp only [barPlaceOf]; split <;> rfl
  | pkg => dsimp only [barPlaceOf]; split <;> rfl
  | pod =>
    dsimp only [barPlaceOf]
    split
    · rfl
    · split <;> rfl

theorem modBar_eq_modObj (sc : Scope) (n : Nat) (f : Bar → Bar) : s.modBar wk sc n f = s.modObj wk (s.barPlace wk sc n) f := by
  unfold State.modBar State.barPlace
  cases sc with
  | lane => rfl
  | core => rfl
  | quad => rfl
  | die => dsimp only [barPlaceOf]; split <;> rfl
  | pkg => dsimp only [barPlaceOf]; split <;> rfl
  | pod =>
    dsimp only [barPlaceOf]
    split
    · rfl
    · split <;> rfl

/-- A change keeps where the objects stand. -/
theorem barPlace_modObj (a : BarPlace) (f : Bar → Bar) (sc : Scope) (n : Nat) :
    (s.modObj wk a f).barPlace wk sc n = s.barPlace wk sc n := by
  have hwg : ∃ b, (s.modObj wk a f).wg wk = { s.wg wk with bars := b } := by
    cases a with
    | wg k => exact ⟨_, State.modWg_self _ _ _⟩
    | gang k => exact ⟨_, rfl⟩
    | die k => exact ⟨_, rfl⟩
    | ctx k => exact ⟨_, rfl⟩
    | pod k => exact ⟨_, rfl⟩
  have hgang : ∃ b, (s.modObj wk a f).gang (s.wg wk).gang = { s.gang (s.wg wk).gang with bars := b } := by
    cases a with
    | wg k => exact ⟨_, rfl⟩
    | gang k => exact ⟨_, State.modGang_self _ _ _⟩
    | die k => exact ⟨_, rfl⟩
    | ctx k => exact ⟨_, rfl⟩
    | pod k => exact ⟨_, rfl⟩
  have hctx : ∃ b c, (s.modObj wk a f).ctx (s.wg wk).ctx = { s.ctx (s.wg wk).ctx with dieBars := b, pkgBars := c } := by
    cases a with
    | wg k => exact ⟨_, _, rfl⟩
    | gang k => exact ⟨_, _, rfl⟩
    | die k => exact ⟨_, _, State.modCtx_self _ _ _⟩
    | ctx k => exact ⟨_, _, State.modCtx_self _ _ _⟩
    | pod k => exact ⟨_, _, rfl⟩
  obtain ⟨b1, hw⟩ := hwg
  obtain ⟨b2, hg⟩ := hgang
  obtain ⟨b3, b4, hc⟩ := hctx
  simp only [State.barPlace, hw, hg, hc]

theorem find?_map_podWith (l : List PodLaunch) (key : W64) (n : Nat) (f : Bar → Bar) :
    (l.map (podWith key n f)).find? (·.key == key) = (l.find? (·.key == key)).map (podWith key n f) := by
  have hkey (p : PodLaunch) : (podWith key n f p).key = p.key := by unfold podWith; split <;> rfl
  rw [List.find?_map]
  simp only [Function.comp_def, hkey]

/-- The changed object of a pod launch is read back, and the others are as they were. -/
theorem objAt_modObj_pod (n m : Nat) (f : Bar → Bar)
    (h : f {} = {} ∨ (s.podOf (s.ctx (s.wg wk).ctx).launch.podkey).isSome = true) :
    (s.modObj wk (.pod n) f).objAt wk (.pod m) = if n = m then f (s.objAt wk (.pod m)) else s.objAt wk (.pod m) := by
  have hlook : (s.modObj wk (.pod n) f).podOf (s.ctx (s.wg wk).ctx).launch.podkey =
      (s.podOf (s.ctx (s.wg wk).ctx).launch.podkey).map (podWith (s.ctx (s.wg wk).ctx).launch.podkey n f) :=
    find?_map_podWith _ _ _ _
  have hobj : (s.modObj wk (.pod n) f).objAt wk (.pod m) =
      match (s.modObj wk (.pod n) f).podOf (s.ctx (s.wg wk).ctx).launch.podkey with
      | some p => tget {} p.bars m
      | none => {} := rfl
  rw [hobj, hlook]
  unfold State.objAt
  dsimp only
  cases hp : s.podOf (s.ctx (s.wg wk).ctx).launch.podkey with
  | none =>
    rw [hp] at h
    have hf : f {} = {} := h.resolve_right (by simp)
    simp only [Option.map_none, hf, ite_self]
  | some p =>
    have hkey : (p.key == (s.ctx (s.wg wk).ctx).launch.podkey) = true :=
      List.find?_some (p := fun q : PodLaunch => q.key == (s.ctx (s.wg wk).ctx).launch.podkey) hp
    simp only [Option.map_some, podWith, hkey, if_true, tget_tmod]
    split
    · next hn => rw [hn]
    · rfl

theorem tget_tmod_at {α : Type} (d : α) (m : Tbl α) (k j : Nat) (f : α → α) :
    tget d (tmod d m k f) j = if k = j then f (tget d m j) else tget d m j := by
  rw [tget_tmod]
  split
  · next h => rw [h]
  · rfl

/-- What is read at a place after a change. -/
theorem objAt_modObj (a b : BarPlace) (f : Bar → Bar)
    (h : ∀ n, a = .pod n → f {} = {} ∨ (s.podOf (s.ctx (s.wg wk).ctx).launch.podkey).isSome = true) :
    (s.modObj wk a f).objAt wk b = if a = b then f (s.objAt wk b) else s.objAt wk b := by
  cases a with
  | wg k =>
    cases b <;> simp [State.modObj, State.objAt, tget_tmod_at]
    rfl
  | gang k =>
    cases b <;> simp [State.modObj, State.objAt, tget_tmod_at]
    rfl
  | die k =>
    cases b <;> simp [State.modObj, State.objAt, tget_tmod_at]
    rfl
  | ctx k =>
    cases b <;> simp [State.modObj, State.objAt, tget_tmod_at]
    rfl
  | pod k =>
    cases b with
    | pod m =>
      rw [objAt_modObj_pod s wk k m f (h k rfl)]
      simp
    | wg m => rfl
    | gang m => rfl
    | die m => rfl
    | ctx m => rfl

end

end Sys2Proof.Machine

namespace Sys2Proof.Machine

/-- `v` is `s` but for barrier objects and the threads that are counted in them. -/
structure State.BarsOnly (s v : State) : Prop where
  frame : v = { s with wgs := v.wgs, gangs := v.gangs, ctxs := v.ctxs, pods := v.pods }
  wg : ∀ k, v.wg k = { s.wg k with bars := (v.wg k).bars, wide := (v.wg k).wide }
  gang : ∀ k, v.gang k = { s.gang k with bars := (v.gang k).bars }
  ctx : ∀ k, v.ctx k = { s.ctx k with dieBars := (v.ctx k).dieBars, pkgBars := (v.ctx k).pkgBars }

theorem State.BarsOnly.refl (s : State) : s.BarsOnly s := ⟨rfl, fun _ => rfl, fun _ => rfl, fun _ => rfl⟩

theorem State.BarsOnly.trans {s v u : State} (h : s.BarsOnly v) (h' : v.BarsOnly u) : s.BarsOnly u where
  frame := by rw [h'.frame, h.frame]
  wg k := by rw [h'.wg, h.wg]
  gang k := by rw [h'.gang, h.gang]
  ctx k := by rw [h'.ctx, h.ctx]

theorem modObj_barsOnly (s : State) (wk : Nat) (a : BarPlace) (f : Bar → Bar) : s.BarsOnly (s.modObj wk a f) := by
  cases a with
  | wg n =>
    refine ⟨rfl, fun k => ?_, fun _ => rfl, fun _ => rfl⟩
    dsimp only [State.modObj]
    rw [State.modWg_wg]
    split
    · next h => rw [← h]
    · rfl
  | gang n =>
    refine ⟨rfl, fun _ => rfl, fun k => ?_, fun _ => rfl⟩
    dsimp only [State.modObj]
    rw [State.modGang_gang]
    split
    · next h => rw [← h]
    · rfl
  | die n =>
    refine ⟨rfl, fun _ => rfl, fun _ => rfl, fun k => ?_⟩
    dsimp only [State.modObj]
    rw [State.modCtx_ctx]
    split
    · next h => rw [← h]
    · rfl
  | ctx n =>
    refine ⟨rfl, fun _ => rfl, fun _ => rfl, fun k => ?_⟩
    dsimp only [State.modObj]
    rw [State.modCtx_ctx]
    split
    · next h => rw [← h]
    · rfl
  | pod n => exact ⟨rfl, fun _ => rfl, fun _ => rfl, fun _ => rfl⟩

theorem modBar_wide (s : State) (wk : Nat) (sc : Scope) (n : Nat) (f : Bar → Bar) (k : Nat) :
    ((s.modBar wk sc n f).wg k).wide = (s.wg k).wide := by
  rw [modBar_eq_modObj]
  cases s.barPlace wk sc n with
  | wg m =>
    dsimp only [State.modObj]
    rw [State.modWg_wg]
    split
    · next h => rw [← h]
    · rfl
  | gang m => rfl
  | die m => rfl
  | ctx m => rfl
  | pod m => rfl

/-- Every object of the workgroup after a change of one. -/
theorem bar_modBar {s : State} {wk : Nat} {sc : Scope} {n : Nat} {f : Bar → Bar} (hn : n < 16) {sc' : Scope} {n' : Nat} (hn' : n' < 16)
    (h : f {} = {} ∨ (sc = .pod → (s.ctx (s.wg wk).ctx).launch.sharesPod = true →
      (s.podOf (s.ctx (s.wg wk).ctx).launch.podkey).isSome = true)) :
    (s.modBar wk sc n f).bar wk sc' n' = if scIdx sc' = scIdx sc ∧ n' = n then f (s.bar wk sc' n') else s.bar wk sc' n' := by
  have hpod : ∀ m, s.barPlace wk sc n = .pod m → f {} = {} ∨ (s.podOf (s.ctx (s.wg wk).ctx).launch.podkey).isSome = true := by
    intro m hm
    refine h.imp id fun h => ?_
    unfold State.barPlace at hm
    generalize (s.gang (s.wg wk).gang).check.isSome = own at hm
    cases hs : (s.ctx (s.wg wk).ctx).launch.sharesPod <;> cases own <;> cases sc <;> simp [barPlaceOf, hs] at hm
    exact h rfl hs
  rw [modBar_eq_modObj, bar_eq_objAt, barPlace_modObj, objAt_modObj s wk _ _ f hpod, bar_eq_objAt s wk sc' n']
  by_cases heq : scIdx sc' = scIdx sc ∧ n' = n
  · have hplace : s.barPlace wk sc n = s.barPlace wk sc' n' := by
      obtain ⟨hsc, rfl⟩ := heq
      revert hsc
      cases sc <;> cases sc' <;> simp [scIdx] <;> rfl
    rw [if_pos heq, if_pos hplace]
  · rw [if_neg heq, if_neg]
    exact fun hp => heq ((barPlaceOf_inj hn hn' hp).imp Eq.symm Eq.symm)

theorem modBar_barsOnly (s : State) (wk : Nat) (sc : Scope) (n : Nat) (f : Bar → Bar) : s.BarsOnly (s.modBar wk sc n f) := by
  rw [modBar_eq_modObj]
  exact modObj_barsOnly _ _ _ _

/-- What a word that changes barrier objects leaves, told from the state at issue. -/
theorem Leaves.of_bars {s v u : State} {c : Site} {g : Guard} {act : Env → Thread → Thread} (hv : s.BarsOnly v) (h : Leaves s v c g act u) :
    ThreadsDo s s c g act u ∧ OthersKeep s c u ∧ CoresKeep s c u ∧ s.BarsOnly { u with threads := s.threads, cores := s.cores } ∧
      u = { v with threads := u.threads, cores := u.cores } := by
  obtain ⟨hthr, hkeep, hcores, hall⟩ := h
  have hthreads : v.threads = s.threads := by rw [hv.frame]
  have hvc : v.cores = s.cores := by rw [hv.frame]
  have ht (k : Nat) : v.thr k = s.thr k := congrArg (tget ({} : Thread) · k) hthreads
  have hc (k : Nat) : v.core k = s.core k := congrArg (tget ({} : Core) · k) hvc
  refine ⟨fun i hi => ?_, fun k hk => (hkeep k hk).trans (ht k), fun k => ?_, ?_, hall⟩
  · rw [← ht]; exact hthr i hi
  · rw [← hc]; exact hcores k
  · rw [hall, ← hthreads, ← hvc]
    exact hv

end Sys2Proof.Machine

/-! ### BARW, WAITPTR and CNTRD (15_counters R272 to R274) -/

namespace Sys2Proof.Machine

/-- Remembering a wait with the launch touches gangs and the launch's `.die` objects alone, and changes no object. -/
theorem touchDie_spec (s : State) (wk n : Nat) :
    let v := s.modBar wk .die n fun b => b
    v = { s with gangs := v.gangs, ctxs := v.ctxs } ∧ ∀ k, v.ctx k = { s.ctx k with dieBars := (v.ctx k).dieBars } := by
  rw [modBar_eq_modObj]
  unfold State.barPlace
  dsimp only [barPlaceOf]
  split
  · exact ⟨rfl, fun _ => rfl⟩
  · refine ⟨rfl, fun k => ?_⟩
    dsimp only [State.modObj]
    rw [State.modCtx_ctx]
    split
    · next h => rw [← h]
    · rfl

/-- The state in which the threads of a BARW begin to wait. -/
def State.barwFrom (s : State) (wk : Nat) (sc : Scope) (n : Nat) (fr : Frag) : State :=
  if fr.isEmpty || sc != .die then s else s.modBar wk sc n fun b => b

theorem barwFrom_spec (s : State) (wk : Nat) (sc : Scope) (n : BitVec 4) (fr : Frag) :
    let v := s.barwFrom wk sc n.toNat fr
    s.BarsOnly v ∧ v = { s with gangs := v.gangs, ctxs := v.ctxs } ∧ (∀ k, v.ctx k = { s.ctx k with dieBars := (v.ctx k).dieBars }) ∧
      ∀ sc' n', v.bar wk sc' (BitVec.toNat (w := 4) n') = s.bar wk sc' n'.toNat := by
  unfold State.barwFrom
  split
  · exact ⟨.refl s, rfl, fun _ => rfl, fun _ _ => rfl⟩
  · next h =>
    have hsc : sc = .die := by
      rw [Bool.or_eq_true, not_or] at h
      simpa using h.2
    subst hsc
    obtain ⟨hv, hctx⟩ := touchDie_spec s wk n.toNat
    refine ⟨modBar_barsOnly _ _ _ _ _, hv, hctx, fun sc' n' => ?_⟩
    rw [bar_modBar n.isLt n'.isLt (.inl rfl), ite_self]

theorem exec_barw_eq_runWord (b : Opnd) (sc : Scope) (n : BitVec 4) (g : Guard) (s : State) : exec (.barw b sc n g) s =
    runWord (.barw b sc n g) g (rdPlain (.barw b sc n g)) (barOk sc) (barwBody b sc n.toNat) s := rfl

/-- The scope of a barrier word is no wider than its workgroup may name (R262). -/
theorem barOk_of {s : State} {c : Site} {sc : Scope} (h : sc ∈ [Scope.die, .pkg, .pod] → (s.wg c.wg).wgid.toNat < 2 ^ 31) :
    barOk sc s c = true := by
  unfold barOk
  rw [Bool.or_eq_true, decide_eq_true_eq, decide_eq_true_eq]
  cases sc with
  | lane => exact .inl (by decide)
  | core => exact .inl (by decide)
  | quad => exact .inl (by decide)
  | die => exact .inr (h (by decide))
  | pkg => exact .inr (h (by decide))
  | pod => exact .inr (h (by decide))

/-- The body of WAITPTR and of WAITPTR.TICKET: each thread waits as `w` says. -/
def awaitBody (w : Env → Wait) : Body := fun s c _ who =>
  .done (who.foldl (fun s e => s.modThr (thrKey c.wg e.tid) fun t => t.await (w e)) s) (who.map fun e => (e.tid, .stay))

theorem exec_waitptr_eq_runWord (ch : BitVec 3) (b : Base) (g : Guard) (s : State) : exec (.waitptr ch b g) s =
    runWord (.waitptr ch b g) g (rdPlain (.waitptr ch b g)) always (awaitBody fun e => .ptr ch.toNat (readBase e b)) s := rfl

theorem exec_waitptrTicket_eq_runWord (b : Opnd) (g : Guard) (s : State) : exec (.waitptrTicket b g) s =
    runWord (.waitptrTicket b g) g (rdPlain (.waitptrTicket b g)) always
      (awaitBody fun e => .ticket (BitVec.ofNat 32 (readOp .w32 e b))) s := rfl

/-- A word whose threads all wait. -/
theorem waits_of {i : Instr} {g : Guard} {rd : Frag → Env → Reads} {ok : State → Site → Bool} {body : Body} {s v : State}
    {c : Site} {m : Host.Outcome State Fault Refusal} {w : Env → Wait} (hm : m = runWord i g rd ok body s) (h : s.Issues c i)
    (hok : ok s c = true) (hb : body s c (s.frag c g) (s.frag c g) =
      .done ((s.frag c g).foldl (fun s e => s.modThr (thrKey c.wg e.tid) fun t => t.await (w e)) v)
        ((s.frag c g).map fun e => (e.tid, .stay))) :
    ∃ u, m = .next u ∧ Leaves s v c g (fun e t => { t.issue with wait := w e, shc := 0 }) u :=
  leaves_of hm h hok (fun e t => t.await (w e)) (fun _ => .stay) hb (fun _ _ => rfl) fun e _ => issue_await _ (w e)

/-! #### CNTRD (R274) -/

/-- The body of CNTRD. -/
def cntrdBody (d : XReg) (sel : Nat) (sc : Option Scope) : Body := fun s c _ who =>
  .done (who.foldl (fun s' e => s'.modThr (thrKey c.wg e.tid) fun t => t.wxs (put64 d (s.counter c.wg sel sc)))
    (if who.isEmpty then s else s.spoil c.wg)) (who.map fun e => (e.tid, .next))

theorem exec_cntrd_eq_runWord (d : XReg) (sel : BitVec 8) (sc : Option Scope) (g : Guard) (s : State) : exec (.cntrd d sel sc g) s =
    runWord (.cntrd d sel sc g) g (rdPlain (.cntrd d sel sc g)) (cntOk sc) (cntrdBody d sel.toNat sc) s := rfl

/-- What the selectors of R274 name. -/
theorem counter_spec (s : State) (wk sel : Nat) (sc : Option Scope) :
    let k := s.core (s.wg wk).ckey
    let v := s.counter wk sel sc
    (sel < 8 → v = (k.wptr.getD sel 0).toNat) ∧ (sel = 8 → v = k.tseq.toNat) ∧
      (sel = 9 → v = match s.cmdsOf (s.wg wk).pkg (s.wg wk).core with
        | [] => (k.tseq + 1).toNat
        | x :: _ => x.ticket.toNat) ∧
      (∀ n x, n < 16 → sel = 0x10 + n → sc = some x → v = (s.bar wk x n).phase.toNat + 2 ^ 16 * min (s.awaited wk x n) 0xFFFF) ∧
      (∀ n < 13, sel = 0x40 + n → v = if n = 12 then (s.pkg (s.wg wk).pkg).drySkip.toNat else (k.perf.getD n 0).toNat) := by
  refine ⟨fun h => ?_, ?_, ?_, ?_, ?_⟩
  · simp [State.counter, h]
  · rintro rfl
    simp [State.counter]
  · rintro rfl
    rfl
  · rintro n x hn rfl rfl
    have h1 : ¬ 0x10 + n < 8 := by omega
    have h2 : ¬ 0x10 + n = 8 := by omega
    have h3 : ¬ 0x10 + n = 9 := by omega
    have h4 : (decide (0x10 ≤ 0x10 + n) && decide (0x10 + n < 0x20)) = true := by
      rw [Bool.and_eq_true, decide_eq_true_eq, decide_eq_true_eq]; omega
    simp only [State.counter, if_neg h1, if_neg h2, if_neg h3, h4, if_true, Nat.add_sub_cancel_left]
  · rintro n hn rfl
    have h1 : ¬ 0x40 + n < 8 := by omega
    have h2 : ¬ 0x40 + n = 8 := by omega
    have h3 : ¬ 0x40 + n = 9 := by omega
    have h4 : (decide (0x10 ≤ 0x40 + n) && decide (0x40 + n < 0x20)) = false := by
      rw [Bool.and_eq_false_iff, decide_eq_false_iff_not, decide_eq_false_iff_not]; omega
    have h5 : (0x40 + n = 0x4C) = (n = 12) := by rw [eq_iff_iff]; omega
    simp only [State.counter, if_neg h1, if_neg h2, if_neg h3, h4, Bool.false_eq_true, if_false, h5, Nat.add_sub_cancel_left]

theorem cntOk_of {s : State} {c : Site} {sc : Option Scope}
    (h : ∀ x, sc = some x → x ∈ [Scope.die, .pkg, .pod] → (s.wg c.wg).wgid.toNat < 2 ^ 31) : cntOk sc s c = true := by
  cases sc with
  | none => rfl
  | some x => exact barOk_of (h x rfl)

/-- Settles O30: the three waits change their threads alone, but for a wait of `.die` scope that the launch remembers, and the value
of CNTRD is `State.counter`. -/
theorem waitsAndCounters : Obligations.WaitsAndCounters := by
  refine ⟨fun s c g => ⟨fun b sc n h hsc => ?barw, fun ch b h => ?waitptr, fun b h => ?ticket⟩, fun s c d sel sc g h hne hsc => ?cntrd⟩
  case barw =>
    obtain ⟨hbars, hframe, hctx, hbar⟩ := barwFrom_spec s c.wg sc n (s.frag c g)
    obtain ⟨u, hu, hl⟩ := waits_of (w := fun e => .barw sc n.toNat (readOp .w32 e b % 2 ^ 16)) (exec_barw_eq_runWord b sc n g s) h
      (barOk_of hsc) (v := s.barwFrom c.wg sc n.toNat (s.frag c g)) rfl
    generalize s.barwFrom c.wg sc n.toNat (s.frag c g) = v at *
    obtain ⟨hthr, hkeep, hcores, hb, hall⟩ := hl.of_bars hbars
    refine ⟨u, hu, hthr, hkeep, hcores, fun sc' n' => ?_, hb.gang, fun k => ?_, ?_⟩
    · rw [hall]; exact hbar sc' n'
    · rw [hall]; exact hctx k
    · rw [hall]
      conv_lhs => rw [hframe]
  case waitptr =>
    exact waits_of (exec_waitptr_eq_runWord ch b g s) h rfl rfl
  case ticket =>
    exact waits_of (exec_waitptrTicket_eq_runWord b g s) h rfl rfl
  case cntrd =>
    have hspoil : (if (s.frag c g).isEmpty then s else s.spoil c.wg) = s.spoil c.wg := by
      rw [if_neg (by simpa using hne)]
    obtain ⟨u, hu, hl⟩ := leaves_of (v := s.spoil c.wg)
      (act := fun _ t => (t.wxs (put64 d (s.counter c.wg sel.toNat sc))).goto c.nextPc) (exec_cntrd_eq_runWord d sel sc g s) h (cntOk_of hsc)
      (fun _ t => t.wxs (put64 d (s.counter c.wg sel.toNat sc))) (fun _ => .next) (by rw [cntrdBody, hspoil]) (fun _ _ => rfl)
      fun _ _ => rfl
    obtain ⟨h0, h8, h9, hbar, hperf⟩ := counter_spec s c.wg sel.toNat sc
    exact ⟨u, _, hu, hl, h0, fun hs => h8 (by rw [hs]; rfl), fun hs => h9 (by rw [hs]; rfl), hbar, hperf⟩

end Sys2Proof.Machine

/-! ### BAR and BARO (15_counters R262, R263, R271) -/

namespace Sys2Proof.Machine

/-- `v` is `s` after arrivals at object `n` of a scope: PHASE stands, the flags of the threads `new` are set beside, and every other
object is as it was. -/
structure State.Arrived (s : State) (wk : Nat) (sc : Scope) (n : Nat) (new : Nat → Bool) (v : State) : Prop where
  bars : s.BarsOnly v
  phase : (v.bar wk sc n).phase = (s.bar wk sc n).phase
  flag : ∀ i, v.hasFlag wk i sc n = (s.hasFlag wk i sc n || new i)
  others : ∀ sc' n', n' < 16 → scIdx sc' ≠ scIdx sc ∨ n' ≠ n → v.bar wk sc' n' = s.bar wk sc' n'

theorem State.Arrived.trans {s v u : State} {wk : Nat} {sc : Scope} {n : Nat} {p q : Nat → Bool} (h : s.Arrived wk sc n p v)
    (h' : v.Arrived wk sc n q u) : s.Arrived wk sc n (fun i => p i || q i) u where
  bars := h.bars.trans h'.bars
  phase := h'.phase.trans h.phase
  flag i := by rw [h'.flag, h.flag, Bool.or_assoc]
  others sc' n' hn hne := (h'.others sc' n' hn hne).trans (h.others sc' n' hn hne)

theorem contains_ninsert (l : List Nat) (k i : Nat) : (ninsert l k).contains i = (l.contains i || k == i) := by
  rw [Bool.eq_iff_iff, Bool.or_eq_true, List.contains_iff_mem, List.contains_iff_mem, beq_iff_eq, mem_ninsert]
  exact or_comm.trans (or_congr_right eq_comm)

theorem not_pod_of_isCore {sc : Scope} (h : isCore sc = true) : sc ≠ .pod := by
  rintro rfl
  exact absurd h (by decide)

/-- Counting threads in a wider object changes no object. -/
theorem setWide_spec (s : State) (wk : Nat) (f : Tbl (List Nat) → Tbl (List Nat)) :
    let v := s.modWg wk fun w => { w with wide := f w.wide }
    s.BarsOnly v ∧ (∀ sc n, v.bar wk sc n = s.bar wk sc n) ∧ (v.wg wk).wide = f (s.wg wk).wide := by
  refine ⟨⟨rfl, fun k => ?_, fun _ => rfl, fun _ => rfl⟩, fun sc n => ?_, by rw [State.modWg_self]⟩
  · rw [State.modWg_wg]
    split
    · next h => rw [← h]
    · rfl
  · simp only [State.bar, State.modWg_self, State.modWg_gang, State.modWg_ctx]
    rfl

/-- One thread arrives. -/
theorem arriveAt_arrived (s : State) (wk tid : Nat) (sc : Scope) {n : Nat} (hn : n < 16) :
    s.Arrived wk sc n (tid == ·) (s.arriveAt wk tid sc n) := by
  unfold State.arriveAt
  split
  · next hcore =>
    have hbar := fun {sc' n'} (hn' : n' < 16) => bar_modBar (s := s) (wk := wk) (sc := sc) (sc' := sc') hn hn'
      (f := fun b => { b with arr := ninsert b.arr tid }) (.inr fun h => absurd h (not_pod_of_isCore hcore))
    have hself := (hbar hn).trans (if_pos ⟨rfl, rfl⟩)
    refine ⟨modBar_barsOnly _ _ _ _ _, by rw [hself], fun i => ?_, fun sc' n' hn' hne => ?_⟩
    · simp only [State.hasFlag, hcore, if_true]
      rw [hself, contains_ninsert]
    · rw [hbar hn', if_neg]
      exact fun h => hne.elim (· h.1) (· h.2)
  · next hcore =>
    have hbar := fun {sc' n'} (hn' : n' < 16) => bar_modBar (s := s) (wk := wk) (sc := sc) (sc' := sc') hn hn' (f := fun b => b) (.inl rfl)
    have hkeep : ∀ sc' n', n' < 16 → (s.modBar wk sc n fun b => b).bar wk sc' n' = s.bar wk sc' n' := fun sc' n' hn' => by
      rw [hbar hn', ite_self]
    obtain ⟨hb, hobj, hwide⟩ := setWide_spec (s.modBar wk sc n fun b => b) wk fun m => tset m (wideKey sc n) (ninsert (tget [] m (wideKey sc n)) tid)
    have hbm := modBar_barsOnly s wk sc n fun b => b
    refine ⟨hbm.trans hb, by rw [hobj, hkeep _ _ hn], fun i => ?_, fun sc' n' hn' _ => by rw [hobj, hkeep _ _ hn']⟩
    simp only [State.hasFlag, Bool.eq_false_iff.mpr hcore, Bool.false_eq_true, if_false, State.wideOf]
    rw [hwide, tget_tset_self, contains_ninsert, modBar_wide]

theorem modBar_modThr (s : State) (k : Nat) (f : Thread → Thread) (wk : Nat) (sc : Scope) (n : Nat) (h : Bar → Bar) :
    (s.modThr k f).modBar wk sc n h = (s.modBar wk sc n h).modThr k f := by
  rw [modBar_eq_modObj, modBar_eq_modObj]
  change (s.modThr k f).modObj wk (s.barPlace wk sc n) h = _
  cases s.barPlace wk sc n <;> rfl

/-- An arrival does not look at the threads. -/
theorem arriveAt_modThr (s : State) (k : Nat) (f : Thread → Thread) (wk tid : Nat) (sc : Scope) (n : Nat) :
    (s.modThr k f).arriveAt wk tid sc n = (s.arriveAt wk tid sc n).modThr k f := by
  unfold State.arriveAt
  split
  · exact modBar_modThr ..
  · rw [modBar_modThr]
    rfl

/-- Steps that do not look at the threads may all be taken first. -/
theorem foldl_modThr_last {α : Type} (A : State → α → State) (key : α → Nat) (f : α → Thread → Thread)
    (hA : ∀ s k g a, A (State.modThr s k g) a = (A s a).modThr k g) (l : List α) (s : State) :
    l.foldl (fun s a => (A s a).modThr (key a) (f a)) s = l.foldl (fun s a => s.modThr (key a) (f a)) (l.foldl A s) := by
  have hall (r : List α) (s : State) (k : Nat) (g : Thread → Thread) : r.foldl A (s.modThr k g) = (r.foldl A s).modThr k g := by
    induction r generalizing s with
    | nil => rfl
    | cons a r ih => rw [List.foldl_cons, hA, ih, List.foldl_cons]
  induction l generalizing s with
  | nil => rfl
  | cons a r ih => rw [List.foldl_cons, ih, hall, List.foldl_cons, List.foldl_cons]

theorem foldl_arriveAt_arrived (wk : Nat) (sc : Scope) {n : Nat} (hn : n < 16) (fr : Frag) (s : State) :
    s.Arrived wk sc n (fun i => fr.any fun e => e.tid == i) (fr.foldl (fun s e => s.arriveAt wk e.tid sc n) s) := by
  induction fr generalizing s with
  | nil => exact ⟨.refl s, rfl, fun _ => (Bool.or_false _).symm, fun _ _ _ _ => rfl⟩
  | cons e r ih => exact (arriveAt_arrived s wk e.tid sc hn).trans (ih _)

theorem exec_bar_eq_runWord (d : XReg) (sc : Scope) (n : BitVec 4) (g : Guard) (s : State) : exec (.bar d sc n g) s =
    runWord (.bar d sc n g) g (rdPlain (.bar d sc n g)) (barOk sc) (barBody d sc n.toNat) s := rfl

theorem exec_baro_eq_runWord (d : XReg) (sc : Scope) (n : BitVec 4) (g : Guard) (s : State) : exec (.baro d sc n g) s =
    runWord (.baro d sc n g) g (rdPlain (.baro d sc n g)) (barOk sc) (baroBody d sc n.toNat) s := rfl

/-- Threads take PHASE. -/
def State.takePhase (s : State) (wk : Nat) (d : XReg) (ph : Nat) (fr : Frag) : State :=
  fr.foldl (fun s e => s.modThr (thrKey wk e.tid) fun t => t.wxs (put32 d ph)) s

theorem barBody_of_free {d : XReg} {sc : Scope} {n : Nat} {s : State} {c : Site} (fr : Frag) {who : Frag}
    (h : ∀ e ∈ who, s.hasFlag c.wg e.tid sc n = false ∧ s.relDone (thrKey c.wg e.tid) sc = true) : barBody d sc n s c fr who =
      .done ((who.foldl (fun s e => s.arriveAt c.wg e.tid sc n) s).takePhase c.wg d (s.bar c.wg sc n).phase.toNat who)
        (who.map fun e => (e.tid, .next)) := by
  have hfree : ¬ (who.any fun e => s.hasFlag c.wg e.tid sc n || !s.relDone (thrKey c.wg e.tid) sc) = true := by
    rw [Bool.not_eq_true, List.any_eq_false]
    intro e he
    simp [h e he]
  rw [barBody, if_neg hfree]
  exact congrArg (Ran.done · _) (foldl_modThr_last (fun s (e : Env) => s.arriveAt c.wg e.tid sc n) (fun e => thrKey c.wg e.tid) _
    (fun s k g e => arriveAt_modThr s k g c.wg e.tid sc n) who s)

theorem baroBody_of_free {d : XReg} {sc : Scope} {n : Nat} {s : State} {c : Site} (fr : Frag) {who : Frag} (hne : who ≠ [])
    (hfree : s.wgArrived c.wg sc n = false) (h : ∀ e ∈ who, s.relDone (thrKey c.wg e.tid) sc = true) : baroBody d sc n s c fr who =
      .done ((s.modBar c.wg sc n fun b => { b with arr := ninsert b.arr c.wg }).takePhase c.wg d (s.bar c.wg sc n).phase.toNat who)
        (who.map fun e => (e.tid, .next)) := by
  cases who with
  | nil => exact absurd rfl hne
  | cons e r =>
    have : ¬ (s.wgArrived c.wg sc n || !s.relDone (thrKey c.wg e.tid) sc) = true := by simp [hfree, h e List.mem_cons_self]
    exact if_neg this

/-- Settles O29: every arrival is one change of the barrier object, or of the threads counted in it, and no other object stands there. -/
theorem barrierArrivals : Obligations.BarrierArrivals := by
  unfold Obligations.BarrierArrivals
  intro s c d sc n g hsc hne
  have take : ∀ {i : Instr} {rd : Frag → Env → Reads} {body : Body} {v : State}, s.Issues c i → body s c (s.frag c g) (s.frag c g) =
      .done (v.takePhase c.wg d (s.bar c.wg sc n.toNat).phase.toNat (s.frag c g)) ((s.frag c g).map fun e => (e.tid, .next)) →
      exec i s = runWord i g rd (barOk sc) body s → ∃ u, exec i s = .next u ∧
        Leaves s v c g (fun _ t => (t.wxs (put32 d (s.bar c.wg sc n.toNat).phase.toNat)).goto c.nextPc) u := fun h hb hm =>
    leaves_of hm h (barOk_of hsc) (fun _ t => t.wxs (put32 d (s.bar c.wg sc n.toNat).phase.toNat)) (fun _ => .next) hb
      (fun _ _ => rfl) fun _ _ => rfl
  refine ⟨fun h hfree => ?bar, fun h harr hfree hpod => ?baro⟩
  case bar =>
    obtain ⟨u, hu, hl⟩ := take h (barBody_of_free _ hfree) (exec_bar_eq_runWord d sc n g s)
    obtain ⟨hb, hphase, hflag, hoth⟩ := foldl_arriveAt_arrived c.wg sc n.isLt (s.frag c g) s
    generalize (s.frag c g).foldl (fun s e => s.arriveAt c.wg e.tid sc n.toNat) s = v at *
    obtain ⟨hthr, hkeep, hcores, hbu, hall⟩ := hl.of_bars hb
    refine ⟨u, hu, hthr, hkeep, hcores, ?_, fun i => ?_, fun sc' n' hne' => ?_, hbu.wg, hbu.gang, hbu.ctx, ?_⟩
    · rw [hall]; exact hphase
    · rw [hall]; exact hflag i
    · rw [hall]; exact hoth sc' n'.toNat n'.isLt (hne'.imp id fun h hn => h (BitVec.eq_of_toNat_eq hn))
    · rw [hall]
      conv_lhs => rw [hb.frame]
  case baro =>
    obtain ⟨u, hu, hl⟩ := take h (baroBody_of_free _ hne harr hfree) (exec_baro_eq_runWord d sc n g s)
    have hb := modBar_barsOnly s c.wg sc n.toNat fun b => { b with arr := ninsert b.arr c.wg }
    have hbar := fun {sc' n'} (hn' : n' < 16) => bar_modBar (s := s) (wk := c.wg) (sc := sc) (sc' := sc') n.isLt hn'
      (f := fun b => { b with arr := ninsert b.arr c.wg }) (.inr fun hs hp => hpod hs (bne_iff_ne.mp hp))
    generalize (s.modBar c.wg sc n.toNat fun b => { b with arr := ninsert b.arr c.wg }) = v at *
    have hself := (hbar n.isLt).trans (if_pos ⟨rfl, rfl⟩)
    obtain ⟨hthr, hkeep, hcores, hbu, hall⟩ := hl.of_bars hb
    have hbarU : u.bar c.wg sc n.toNat = v.bar c.wg sc n.toNat := by rw [hall]; rfl
    refine ⟨u, hu, hthr, hkeep, hcores, ?_, fun w => ?_, fun sc' n' hne' => ?_, hbu.wg, hbu.gang, hbu.ctx, ?_⟩
    · rw [hbarU, hself]
    · rw [hbarU, hself]; exact mem_ninsert _ _ _
    · rw [hall]
      refine (hbar n'.isLt).trans (if_neg fun h => hne'.elim (· h.1) fun hn => hn (BitVec.eq_of_toNat_eq h.2))
    · rw [hall]
      conv_lhs => rw [hb.frame]

end Sys2Proof.Machine

/-! ### Waits that end (15_counters R264, R272, R273, 09_control R172, 19_queue_instr R311) -/

namespace Sys2Proof.Machine

/-- A thread whose wait ends at clock `now`. -/
def Thread.goesOn (now : Nat) (t : Thread) : Thread := { t with wait := .none, pc := t.pc + 8, since := now }

theorem endWait_eq (s : State) (wk tid : Nat) :
    s.endWait wk tid = s.modThr (thrKey wk tid) (Thread.goesOn (s.clockOf (s.wg wk).pkg)) := rfl

/-- The waits of several threads end at one time. -/
theorem foldl_endWait (wk : Nat) (l : List Nat) (s : State) :
    l.foldl (fun s i => s.endWait wk i) s = s.modTids wk l (Thread.goesOn (s.clockOf (s.wg wk).pkg)) := by
  induction l generalizing s with
  | nil => rfl
  | cons i r ih => rw [List.foldl_cons, ih]; rfl

theorem metMates_nodup (s : State) (k : Nat) (met : Nat → Bool) : (s.metMates k met).Nodup := by
  unfold State.metMates State.mates State.siblings
  split
  · exact (((liveTids_nodup s _).filter _).filter _).filter _
  · exact List.nodup_nil

/-- A live thread whose wait is over wakes. -/
theorem mem_metMates {s : State} {k : Nat} {met : Nat → Bool} (hlive : k % 2048 ∈ s.liveTids (k / 2048)) (h : met k = true) :
    k % 2048 ∈ s.metMates k met := by
  have hk := thrKey_div_mod k
  simp only [State.metMates, State.mates, State.siblings, h, if_true, List.mem_filter, hk, beq_self_eq_true, Bool.and_self, and_true]
  exact hlive

/-- What ends the waits of the met mates of a thread. -/
theorem matesGo {s : State} {k : Nat} {met : Nat → Bool} (hlive : k % 2048 ∈ s.liveTids (k / 2048)) (h : met k = true) :
    let u := (s.metMates k met).foldl (fun x i => x.endWait (k / 2048) i) s
    MatesGo s k met u ∧ u = { s with threads := u.threads } := by
  rw [foldl_endWait]
  refine ⟨⟨List.mem_map.mpr ⟨k % 2048, mem_metMates hlive h, thrKey_div_mod k⟩, fun j => ?_⟩, modTids_frame _ _⟩
  split
  · next hj =>
    obtain ⟨i, hi, rfl⟩ := List.mem_map.mp hj
    rw [modTids_thr_of_mem _ _ (metMates_nodup s k met) hi]
    rfl
  · next hj =>
    exact modTids_thr_of_forall_ne _ _ (metMates_nodup s k met) fun i hi hk => hj (List.mem_map.mpr ⟨i, hi, hk.symm⟩)

/-! #### BARW -/

theorem settleAcq_since {s : State} {k : Nat} {sc : Scope} (h : (s.thr k).hold = .acq sc)
    (hnow : (s.thr k).since = s.clockOf (s.wg (k / 2048)).pkg) : ((s.settleAcq k).thr k).since = (s.thr k).since := by
  unfold State.settleAcq
  dsimp only
  rw [h]
  dsimp only
  split
  · rw [endHold_thr, if_pos rfl, hnow]
    split <;> rfl
  · rfl

/-- The wait of a thread at BARW ends, and the acquire of its scope begins. -/
theorem endBarw_spec {s : State} {k : Nat} {sc : Scope} {n tok : Nat} (h : (s.thr k).wait = .barw sc n tok) :
    s.endBarw k = { s with views := (s.endBarw k).views, threads := (s.endBarw k).threads } ∧
      (∀ j, j ≠ k → (s.endBarw k).thr j = s.thr j) ∧
      (s.endBarw k).thr k = { (s.thr k).goesOn (s.clockOf (s.wg (k / 2048)).pkg) with
        hold := if s.loadsBack k then .none else .acq sc } := by
  have hu : s.endBarw k = ((s.endWait (k / 2048) (k % 2048)).modThr k fun t => { t with hold := .acq sc }).settleAcq k := by
    unfold State.endBarw
    rw [h]
  rw [hu, endWait_eq, thrKey_div_mod]
  generalize hv : (s.modThr k (Thread.goesOn (s.clockOf (s.wg (k / 2048)).pkg))).modThr k (fun t => { t with hold := .acq sc }) = v
  have hvk : v.thr k = { (s.thr k).goesOn (s.clockOf (s.wg (k / 2048)).pkg) with hold := .acq sc } := by
    rw [← hv, State.modThr_self, State.modThr_self]
  have hhold : (v.thr k).hold = .acq sc := by rw [hvk]
  have hback : v.loadsBack k = s.loadsBack k := by rw [← hv]; rfl
  refine ⟨?_, fun j hj => ?_, ?_⟩
  · rw [settleAcq_frame, ← hv]
    rfl
  · rw [settleAcq_thr, if_neg hj, ← hv, State.modThr_thr, if_neg hj.symm, State.modThr_thr, if_neg hj.symm]
  · have hsince := settleAcq_since hhold (by rw [hvk, ← hv]; rfl)
    rw [settleAcq_thr, if_pos rfl, settleAcq_hold hhold, hsince, hback, hvk]

/-- The waits of several threads at barriers end. -/
theorem foldl_endBarw {wk : Nat} (l : List Nat) (hn : l.Nodup) (s : State)
    (h : ∀ i ∈ l, ∃ sc n tok, (s.thr (thrKey wk i)).wait = .barw sc n tok) :
    let u := l.foldl (fun x i => x.endBarw (thrKey wk i)) s
    u = { s with views := u.views, threads := u.threads } ∧ (∀ j, (∀ i ∈ l, j ≠ thrKey wk i) → u.thr j = s.thr j) ∧
      ∀ i ∈ l, ∀ sc n tok, (s.thr (thrKey wk i)).wait = .barw sc n tok → u.thr (thrKey wk i) =
        { (s.thr (thrKey wk i)).goesOn (s.clockOf (s.wg (thrKey wk i / 2048)).pkg) with
          hold := if s.loadsBack (thrKey wk i) then .none else .acq sc } := by
  induction l generalizing s with
  | nil => exact ⟨rfl, fun _ _ => rfl, fun _ hi => absurd hi List.not_mem_nil⟩
  | cons i r ih =>
    obtain ⟨hi, hr⟩ := List.nodup_cons.mp hn
    obtain ⟨sc, n, tok, hw⟩ := h i List.mem_cons_self
    obtain ⟨hf, hoth, hself⟩ := endBarw_spec hw
    rw [List.foldl_cons]
    generalize s.endBarw (thrKey wk i) = v at *
    have hne : ∀ j ∈ r, thrKey wk j ≠ thrKey wk i := fun j hj hk => hi (thrKey_inj hk ▸ hj)
    have hclock (k : Nat) : v.clockOf (v.wg (k / 2048)).pkg = s.clockOf (s.wg (k / 2048)).pkg := by rw [hf]; rfl
    have hback (k : Nat) : v.loadsBack k = s.loadsBack k := by rw [hf]; rfl
    obtain ⟨hf', hoth', hself'⟩ := ih hr v fun j hj => by
      rw [hoth _ (hne j hj)]
      exact h j (List.mem_cons_of_mem _ hj)
    generalize r.foldl (fun x i => x.endBarw (thrKey wk i)) v = u at *
    refine ⟨by rw [hf', hf], fun j hj => ?_, fun j hj sc' n' tok' hw' => ?_⟩
    · rw [hoth' j fun i' hi' => hj i' (List.mem_cons_of_mem _ hi'), hoth j (hj i List.mem_cons_self)]
    · rcases List.mem_cons.mp hj with rfl | hj
      · rw [hoth' _ fun i' hi' => (hne i' hi').symm, hself]
        rw [hw] at hw'
        cases hw'
        rfl
      · have := hself' j hj sc' n' tok' (by rw [hoth _ (hne j hj)]; exact hw')
        rw [this, hoth _ (hne j hj), hclock, hback]

theorem barMet_waits {s : State} {k : Nat} (h : s.barMet k = true) : ∃ sc n tok, (s.thr k).wait = .barw sc n tok := by
  unfold State.barMet at h
  rw [Bool.and_eq_true] at h
  obtain ⟨-, h⟩ := h
  split at h
  · next sc n tok hw => exact ⟨sc, n, tok, hw⟩
  · cases h

theorem metMates_met {s : State} {k i : Nat} {met : Nat → Bool} (h : i ∈ s.metMates k met) : met (thrKey (k / 2048) i) = true := by
  unfold State.metMates at h
  split at h
  · exact (List.mem_filter.mp h).2
  · exact absurd h List.not_mem_nil

/-! #### RECV (R311) -/

theorem wxs_claimed (t : Thread) (l : List (Nat × W32)) : (t.wxs l).claimed = t.claimed := by
  induction l generalizing t with
  | nil => rfl
  | cons p r ih =>
    refine (ih _).trans ?_
    unfold Thread.wx Thread.setPoison
    dsimp only
    split <;> rfl

theorem receive_of_unclaimed {t : Thread} (h : t.claimed = []) (l : List (Nat × W32)) : t.receive l = t.wxs l := by
  have hl : (l.filter fun p => !t.claimed.contains p.1) = l := by simp [h]
  have hc := wxs_claimed t l
  rw [h] at hc
  rw [Thread.receive, hl, ← hc]

theorem msgOut_map_range (d : Nat) (f : Nat → W64) :
    msgOut d ((List.range 8).map f) = (List.range 8).flatMap fun i => put64 (BitVec.ofNat 7 (d + 2 * i)) (f i).toNat := by
  rw [msgOut, zipIdx_map_range, List.flatMap_map]

theorem readWord_bulkWord {s : State} (hm : s.MemOk) {loc : Nat} (v : W64) (h : loc % 8 = 0) : readWord (s.bulkWord loc v).mem (loc / 8) = v := by
  have hloc : 8 * (loc / 8) = loc := by omega
  have hlen : (natLe 8 v.toNat).length = 8 := length_natLe 8 _
  have hback := readBytes_writeBytes hm loc (natLe 8 v.toNat)
  rw [hlen] at hback
  refine BitVec.eq_of_toNat_eq ?_
  rw [toNat_readWord, hloc, bulkWord_mem hm v h, hback, leNat_natLe]
  exact Nat.mod_eq_of_lt v.isLt

/-- An agent's write touches no thread and no clock. -/
theorem bulkWord_waits (s : State) (loc : Nat) (v : W64) (k : Nat) :
    (∀ j, (s.bulkWord loc v).thr j = s.thr j) ∧
      (s.bulkWord loc v).clockOf ((s.bulkWord loc v).wg (k / 2048)).pkg = s.clockOf (s.wg (k / 2048)).pkg := by
  have hst := homeStore_stores s loc 8 v { posted := .agent }
  refine ⟨fun j => congrArg (tget ({} : Thread) · j) hst.threads, ?_⟩
  rw [State.bulkWord, hst.frame]
  rfl

theorem exec_recvTake_eq (k : Nat) (s : State) : exec (.recvTake k) s = execRecvTake k s := rfl

/-- A ring that holds 1 to its SLOTS messages gives the oldest one. -/
theorem takeRing_some {s : State} {p core : Nat} {r : Ring} (h : 0 < s.ringCount p core r) (hle : s.ringCount p core r ≤ r.slots) :
    s.takeRing p core r = some ((List.range 8).map fun i => readWord s.mem (r.slotAt p core (s.ringHead p core r) / 8 + i),
      s.bulkWord (r.ctlAt p core + 8) (BitVec.ofNat 64 (s.ringHead p core r + 1))) := by
  have hne : ¬ (decide (s.ringCount p core r = 0) || decide (r.slots < s.ringCount p core r)) = true := by
    rw [Bool.or_eq_true, decide_eq_true_eq, decide_eq_true_eq]
    omega
  unfold State.takeRing
  dsimp only
  rw [if_neg hne]

/-- A thread at the head of a ring's queue takes the message. -/
theorem recvTake_takes {s : State} {k n d since off : Nat} {seen : Option Nat} {r : Ring} (hwakes : s.wakes k = true)
    (hw : (s.thr k).wait = .recv n d since off seen) (hseen : seen ≠ some (s.tailAt (s.wg (k / 2048)) off))
    (hfirst : ∀ p ∈ s.ringWaiters (k / 2048) n, since ≤ p.2)
    (hr : s.ring (s.wg (k / 2048)).ckey (s.wg (k / 2048)).launchid (s.wg (k / 2048)).wgid n = some r)
    (hcount : 0 < s.ringCount (s.wg (k / 2048)).pkg (s.wg (k / 2048)).core r)
    (hslots : s.ringCount (s.wg (k / 2048)).pkg (s.wg (k / 2048)).core r ≤ r.slots) :
    let w := s.wg (k / 2048)
    let h := s.ringHead w.pkg w.core r
    exec (.recvTake k) s = .next (((s.bulkWord (r.ctlAt w.pkg w.core + 8) (BitVec.ofNat 64 (h + 1))).endWait (k / 2048) (k % 2048)).modThr k
      fun t => t.receive (msgOut d ((List.range 8).map fun i => readWord s.mem (r.slotAt w.pkg w.core h / 8 + i)))) := by
  have hgo : ¬ (!s.wakes k || !(s.ringWaiters (k / 2048) n).all (fun p => decide (since ≤ p.2)) ||
      seen == some (s.tailAt (s.wg (k / 2048)) off)) = true := by
    have hall : (s.ringWaiters (k / 2048) n).all (fun p => decide (since ≤ p.2)) = true := by simpa using hfirst
    simp [hwakes, hall, hseen]
  rw [exec_recvTake_eq]
  unfold execRecvTake
  dsimp only
  rw [hw]
  dsimp only
  rw [if_neg hgo, hr]
  unfold State.recvAt
  dsimp only
  rw [takeRing_some hcount hslots]
  rfl

/-- What RECV_TAKE leaves. -/
theorem recvTake_spec {s : State} {k n d since off : Nat} {seen : Option Nat} {r : Ring} (hwakes : s.wakes k = true)
    (hw : (s.thr k).wait = .recv n d since off seen) (hseen : seen ≠ some (s.tailAt (s.wg (k / 2048)) off))
    (hfirst : ∀ p ∈ s.ringWaiters (k / 2048) n, since ≤ p.2)
    (hr : s.ring (s.wg (k / 2048)).ckey (s.wg (k / 2048)).launchid (s.wg (k / 2048)).wgid n = some r) (hcl : (s.thr k).claimed = [])
    (hm : s.MemOk) (hpos : 0 < s.ringCount (s.wg (k / 2048)).pkg (s.wg (k / 2048)).core r)
    (hle : s.ringCount (s.wg (k / 2048)).pkg (s.wg (k / 2048)).core r ≤ r.slots)
    (hal : r.ctlAt (s.wg (k / 2048)).pkg (s.wg (k / 2048)).core % 16 = 0) :
    let w := s.wg (k / 2048)
    let ctl := r.ctlAt w.pkg w.core
    let head := s.ringHead w.pkg w.core r
    ∃ u, exec (.recvTake k) s = .next u ∧
      u.thr k = ((s.thr k).goesOn (s.clockOf w.pkg)).wxs ((List.range 8).flatMap fun i =>
        put64 (BitVec.ofNat 7 (d + 2 * i)) (readWord s.mem (r.slotAt w.pkg w.core head / 8 + i)).toNat) ∧
      (∀ j, j ≠ k → u.thr j = s.thr j) ∧ readWord u.mem (ctl / 8 + 1) = BitVec.ofNat 64 (head + 1) ∧
      (∀ x, x < ctl + 8 ∨ ctl + 16 ≤ x → readByte u.mem x = readByte s.mem x) := by
  have hal8 : (r.ctlAt (s.wg (k / 2048)).pkg (s.wg (k / 2048)).core + 8) % 8 = 0 := by omega
  have hdiv : (r.ctlAt (s.wg (k / 2048)).pkg (s.wg (k / 2048)).core + 8) / 8 =
      r.ctlAt (s.wg (k / 2048)).pkg (s.wg (k / 2048)).core / 8 + 1 := by omega
  have hrec := recvTake_takes hwakes hw hseen hfirst hr hpos hle
  dsimp only at hrec
  rw [msgOut_map_range] at hrec
  generalize hloc : r.ctlAt (s.wg (k / 2048)).pkg (s.wg (k / 2048)).core + 8 = loc at hrec hal8 hdiv
  obtain ⟨hthr, hclock⟩ := bulkWord_waits s loc (BitVec.ofNat 64 (s.ringHead (s.wg (k / 2048)).pkg (s.wg (k / 2048)).core r + 1)) k
  refine ⟨_, hrec, ?_, fun j hj => ?_, ?_, fun x hx => ?_⟩
  · rw [State.modThr_self, endWait_eq, thrKey_div_mod, State.modThr_self, hthr, hclock, receive_of_unclaimed (by exact hcl)]
  · rw [State.modThr_thr, if_neg hj.symm, endWait_eq, thrKey_div_mod, State.modThr_thr, if_neg hj.symm, hthr]
  · have hread := readWord_bulkWord hm (BitVec.ofNat 64 (s.ringHead (s.wg (k / 2048)).pkg (s.wg (k / 2048)).core r + 1)) hal8
    rw [hdiv] at hread
    rw [State.modThr_mem, State.endWait_mem]
    exact hread
  · have hmem := bulkWord_mem hm (BitVec.ofNat 64 (s.ringHead (s.wg (k / 2048)).pkg (s.wg (k / 2048)).core r + 1)) hal8
    rw [State.modThr_mem, State.endWait_mem, hmem, readByte_writeBytes_out _ _ _ _ (by rw [length_natLe]; omega)]

/-- Settles O42: a wait that is over ends, at one time with those of the thread's mates; the acquire of a BARW follows it, and a RECV
takes the ring's oldest message. -/
theorem waitsEnd : Obligations.WaitsEnd := by
  intro s k hwakes hlive
  refine ⟨fun sc n tok hw hp => ?barw, fun n key v hw hv hb => ?incwait, fun c bound hw hb => ?ptr, fun tk hw hno => ?ticket,
    fun n d since off seen r hw hseen hfirst hr hcl hm hpos hle hal hscr => ?recv⟩
  case barw =>
    have hmet : s.barMet k = true := by rw [State.barMet, hw, hwakes]; exact hp
    have hk := thrKey_div_mod k
    obtain ⟨hf, hoth, hself⟩ := foldl_endBarw (wk := k / 2048) (s.metMates k s.barMet) (metMates_nodup s k _) s
      fun i hi => barMet_waits (metMates_met hi)
    have hmine := hself _ (mem_metMates hlive hmet) sc n tok (by rw [hk]; exact hw)
    rw [hk] at hmine
    refine ⟨_, rfl, ?_, fun hb => ?_, fun hb => ?_, fun j => ?_, ?_⟩
    · rw [hmine]; rfl
    · rw [hmine, hb]; rfl
    · rw [hmine, hb]; rfl
    · by_cases hj : ∃ i ∈ s.metMates k s.barMet, thrKey (k / 2048) i = j
      · obtain ⟨i, hi, rfl⟩ := hj
        obtain ⟨sc', n', tok', hw'⟩ := barMet_waits (metMates_met hi)
        refine .inr ⟨List.mem_map.mpr ⟨i, hi, rfl⟩, ?_⟩
        rw [hself i hi sc' n' tok' hw']
        rfl
      · exact .inl (hoth j fun i hi hk => hj ⟨i, hi, hk.symm⟩)
    · conv_lhs => rw [hf]
  case incwait =>
    have hmet : s.incMet k = true := by
      simp only [State.incMet, hw, hv, hwakes, Bool.true_and]
      exact hb
    exact ⟨_, rfl, matesGo hlive hmet⟩
  case ptr =>
    have hmet : s.ptrMet k = true := by
      simp only [State.ptrMet, hw, hwakes, Bool.true_and]
      exact decide_eq_true hb
    exact ⟨_, rfl, matesGo hlive hmet⟩
  case ticket =>
    have hmet : s.ptrMet k = true := by
      simp only [State.ptrMet, hw, hwakes, Bool.true_and, State.cmdsOf, Bool.not_eq_true', List.any_eq_false, List.mem_filter,
        Bool.and_eq_true, beq_iff_eq]
      rintro c ⟨hc, ⟨hp, hco⟩, hq⟩
      exact hno c hc hp hco hq
    exact ⟨_, rfl, matesGo hlive hmet⟩
  case recv =>
    exact recvTake_spec hwakes hw hseen hfirst hr hcl hm hpos hle hal

end Sys2Proof.Machine

/-! ### RINGSET (19_queue_instr R306, R307) -/

namespace Sys2Proof.Machine

theorem exec_ringset_eq_runWord (d : XReg) (m : MAddr) (b : XReg) (n : BitVec 2) (s : State) : exec (.ringset d m b n) s =
    runWord (.ringset d m b n) m.g (rdPlain (.ringset d m b n)) always (ringsetBody d m b n.toNat) s := rfl

/-- A good address and size give a status and a table. -/
theorem ringset_of_fit {s : State} {c : Site} {e : Env} {m : MAddr} {b : XReg} {n : Nat}
    (h1 : (baseOff e m 256).toNat % 256 = 0) (h2 : (baseOff e m 256).toNat / 2 ^ 48 = 0xFFFF)
    (h3 : (baseOff e m 256).toNat % 2 ^ 48 < (s.wg c.wg).scrSize)
    (h4 : ringSize (e.xr b.toNat).toNat = true → (baseOff e m 256).toNat % 2 ^ 48 + (e.xr b.toNat).toNat + 16 ≤ (s.wg c.wg).scrSize) :
    s.ringset c e m b n =
      let w := s.wg c.wg
      let l := (s.core (coreKey c.pkg c.core)).rings
      let z := (e.xr b.toNat).toNat
      .ok (if z = 0 then (0, l.filter fun r => !(r.launchid == w.launchid && r.wgid == w.wgid && r.n == n))
        else if ringSize z = true then ringStatus l w.launchid w.wgid n (w.scrBase + (baseOff e m 256).toNat % 2 ^ 48) z else (2, l)) := by
  have hin : ¬ (decide ((baseOff e m 256).toNat / 2 ^ 48 ≠ 0xFFFF) ||
      decide ((s.wg c.wg).scrSize ≤ (baseOff e m 256).toNat % 2 ^ 48)) = true := by
    rw [Bool.or_eq_true, decide_eq_true_eq, decide_eq_true_eq]
    omega
  unfold State.ringset
  dsimp only
  rw [if_neg (by omega), if_neg hin]
  split
  · rfl
  · next hz =>
    cases hs : ringSize (e.xr b.toNat).toNat with
    | false => rfl
    | true => rw [Bool.not_true, if_neg Bool.false_ne_true, if_neg (by have := h4 hs; omega), if_pos rfl]

/-- The status of a ring and the table, as the three tests decide them. -/
theorem ringStatus_eq (l : List Ring) (lid wgid : W32) (n base size : Nat) :
    let mine := fun r : Ring => r.launchid == lid && r.wgid == wgid
    let other := l.filter fun r => !(mine r && r.n == n)
    let clash := l.any fun r => mine r && r.n != n && decide (base < r.base + 64 * r.slots + 16) && decide (r.base < base + size + 16)
    let full := other.length = l.length ∧ 16 ≤ l.length
    ringStatus l lid wgid n base size = (if clash = true then 2 else if full then 1 else 0,
      if clash = true ∨ full then l else other ++ [{ launchid := lid, wgid := wgid, n := n, base := base, slots := size / 64 }]) := by
  have hclash : (l.any fun r => r.launchid == lid && r.wgid == wgid && r.n != n && ringsMeet base size r.base (64 * r.slots)) =
      l.any fun r => r.launchid == lid && r.wgid == wgid && r.n != n && decide (base < r.base + 64 * r.slots + 16) &&
        decide (r.base < base + size + 16) := by
    simp only [ringsMeet, Bool.and_assoc]
  have hfull : ((!(l.any fun r => r.launchid == lid && r.wgid == wgid && r.n == n) && decide (16 ≤ l.length)) = true) ↔
      ((l.filter fun r => !(r.launchid == lid && r.wgid == wgid && r.n == n)).length = l.length ∧ 16 ≤ l.length) := by
    rw [Bool.and_eq_true, decide_eq_true_eq, List.length_filter_eq_length_iff, Bool.not_eq_true', List.any_eq_false]
    simp only [Bool.not_eq_true', Bool.not_eq_true]
  unfold ringStatus
  dsimp only
  rw [hclash]
  split
  · next h => rw [if_pos (.inl h)]
  · next h =>
    split
    · next h' => rw [if_pos (hfull.mp h'), if_pos (.inr (hfull.mp h'))]
    · next h' => rw [if_neg fun h'' => h' (hfull.mpr h''), if_neg fun h'' => h''.elim h fun h'' => h' (hfull.mpr h'')]

/-- Settles O27: the address fits, so the body answers a status and a table, and these are what the tests of R307 decide. -/
theorem ringsetSets : Obligations.RingsetSets := by
  unfold Obligations.RingsetSets
  intro s c d m b n e rest h hfr a w z off l mine other clash full good h1 h2 h3 h4
  have hgood : ringSize z = true ↔ good := by simp [ringSize, good]
  have hring := ringset_of_fit (s := s) (c := c) (b := b) (n := n.toNat) h1 h2 h3 fun hs => h4 (hgood.mp hs)
  have hst : s.ringset c e m b n.toNat = .ok (if z = 0 then 0 else if ¬good ∨ clash = true then 2 else if full then 1 else 0,
      if z = 0 then other else if ¬good ∨ clash = true ∨ full then l
        else other ++ [{ launchid := w.launchid, wgid := w.wgid, n := n.toNat, base := w.scrBase + off, slots := z / 64 }]) := by
    refine hring.trans (congrArg Except.ok ?_)
    rw [ringStatus_eq]
    by_cases hz : z = 0
    · rw [if_pos hz, if_pos hz, if_pos hz]
    · rw [if_neg hz, if_neg hz, if_neg hz]
      by_cases hg : good
      · have hs : ringSize (e.xr b.toNat).toNat = true := hgood.mpr hg
        rw [if_pos hs]
        simp only [hg, not_true, false_or]
        rfl
      · have hs : ¬ ringSize z = true := fun h => hg (hgood.mp h)
        rw [if_neg hs, if_pos (.inl hg), if_pos (.inl hg)]
  generalize (if z = 0 then 0 else if ¬good ∨ clash = true then 2 else if full then 1 else 0) = st at hst
  generalize (if z = 0 then other else _) = l' at hst
  obtain ⟨u, hu, hthr, hkeep, hcores, hall⟩ := leaves_of (act := fun _ t => (t.wxs (put32 d st)).goto c.nextPc)
    (v := s.modCore (coreKey c.pkg c.core) fun k => { k with rings := l' }) (exec_ringset_eq_runWord d m b n s) h rfl
    (fun _ t => t.wxs (put32 d st)) (fun _ => .next) (by unfold ringsetBody; rw [hfr]; dsimp only; rw [hst]) (fun _ _ => rfl) fun _ _ => rfl
  exact ⟨u, hu, hthr, hkeep, hcores.of_modCore, by rw [hall]; rfl⟩

end Sys2Proof.Machine

/-! ### RECV (19_queue_instr R311) -/

namespace Sys2Proof.Machine

theorem spoil_wg (s : State) (wk j : Nat) : (s.spoil wk).wg j = if j = wk then { s.wg j with inelig := true } else s.wg j := by
  rw [State.spoil, State.modWg_wg]
  by_cases hj : wk = j
  · simp [hj]
  · rw [if_neg hj, if_neg fun h => hj h.symm]

/-- What a word leaves that makes its workgroup ineligible and stores to scratchpad, told from the state at issue. -/
theorem Leaves.of_spoilStores {s v u : State} {c : Site} {g : Guard} {act : Env → Thread → Thread} (hv : (s.spoil c.wg).Stores v)
    (h : Leaves s v c g act u) :
    ThreadsDo s s c g act u ∧ OthersKeep s c u ∧ (∀ j, u.wg j = if j = c.wg then { s.wg j with inelig := true } else s.wg j) ∧
      (∀ j, u.core j = { s.core j with perf := (u.core j).perf, pq := (u.core j).pq }) ∧
      (∀ j, (s.core j).pq = [] → (u.core j).pq = []) ∧ u = { v with threads := u.threads, cores := u.cores } := by
  obtain ⟨hthr, hkeep, hcores, hall⟩ := h
  have ht (k : Nat) : v.thr k = s.thr k := congrArg (tget ({} : Thread) · k) hv.threads
  have hw (k : Nat) : u.wg k = (s.spoil c.wg).wg k := by
    have huw : u.wgs = v.wgs := by rw [hall]
    exact congrArg (tget ({} : Wg) · k) (huw.trans hv.wgs)
  have hcore (k : Nat) : (s.core k).SameButQueue { u.core k with perf := (s.core k).perf } := by
    obtain ⟨hc, hq⟩ := hv.cores k
    have hk := hcores k
    split at hk <;> rw [hk] <;> exact ⟨by (conv_lhs => rw [hc]); rfl, hq⟩
  refine ⟨fun i hi => ?_, fun k hk => (hkeep k hk).trans (ht k), fun j => (hw j).trans (spoil_wg s c.wg j), fun k => ?_,
    fun k => (hcore k).2, hall⟩
  · rw [← ht]; exact hthr i hi
  · exact congrArg (fun k' : Core => { k' with perf := (u.core k).perf }) (hcore k).1

theorem recvBody_one {d n : Nat} {wait : Bool} {s : State} {c : Site} (fr : Frag) {e : Env}
    (h : s.unsettled (thrKey c.wg e.tid) = false) :
    recvBody d n wait s c fr [e] = .done (s.recvThread c d n wait e.tid).1 [(e.tid, (s.recvThread c d n wait e.tid).2)] := by
  have hfree : ¬ ([e].any fun e => s.unsettled (thrKey c.wg e.tid)) = true := by simp [h]
  exact if_neg hfree

theorem exec_recvPoll_eq_runWord (d : XReg) (n : BitVec 2) (g : Guard) (s : State) : exec (.recvPoll d n g) s =
    runWord (.recvPoll d n g) g (rdPlain (.recvPoll d n g)) always (recvBody d.toNat n.toNat false) s := rfl

theorem exec_recvWait_eq_runWord (d : XReg) (n : BitVec 2) (g : Guard) (s : State) : exec (.recvWait d n g) s =
    runWord (.recvWait d n g) g (rdPlain (.recvWait d n g)) always (recvBody d.toNat n.toNat true) s := rfl

theorem spoil_ringWaiters (s : State) (wk n : Nat) : (s.spoil wk).ringWaiters wk n = s.ringWaiters wk n := by
  have hsize : ((s.spoil wk).wg wk).size = (s.wg wk).size := by rw [spoil_wg, if_pos rfl]
  unfold State.ringWaiters State.liveTids State.tidsOf
  rw [hsize]
  rfl

theorem tailAt_congr {s v : State} (h : v.mem = s.mem) (w : Wg) (off : Nat) : v.tailAt w off = s.tailAt w off := by
  unfold State.tailAt
  rw [h]

/-- What the word does for its thread, with no thread before it: the ring as `got` says, or zeros, or a wait. -/
theorem recvThread_eq {s : State} {c : Site} {d n tid : Nat} {wait : Bool} {r : Ring}
    (hr : s.ring (coreKey c.pkg c.core) (s.wg c.wg).launchid (s.wg c.wg).wgid n = some r) (hw : wait = true → s.ringWaiters c.wg n = []) :
    s.recvThread c d n wait tid = match (s.spoil c.wg).takeRing c.pkg c.core r with
      | some (l, v) => (v.modThr (thrKey c.wg tid) fun t => t.wxs (msgOut d l), .next)
      | none => if wait then
          ((({ s.spoil c.wg with nextId := s.nextId + 1 } : State).modThr (thrKey c.wg tid) fun t =>
            t.await (.recv n d s.nextId (r.tailOff (s.wg c.wg)) (some (s.tailAt (s.wg c.wg) (r.tailOff (s.wg c.wg)))))), .stay)
        else ((s.spoil c.wg).modThr (thrKey c.wg tid) fun t => t.wxs (msgOut d (List.replicate 8 0)), .next) := by
  have hahead : (wait && !((s.spoil c.wg).ringWaiters c.wg n).isEmpty) = false := by
    cases wait with
    | false => rfl
    | true =>
      rw [spoil_ringWaiters, hw rfl]
      rfl
  simp only [State.recvThread, hr, hahead, Bool.false_eq_true, if_false]
  cases (s.spoil c.wg).takeRing c.pkg c.core r with
  | none =>
    cases wait with
    | false => rfl
    | true =>
      simp only [if_true, State.fresh]
      rw [tailAt_congr (s := s) rfl]
      rfl
  | some p => rfl

/-- A RECV that is no more than one change of its thread, from a state `v` that differs from `s` by the spoilt workgroup and stores. -/
theorem recvWord {i : Instr} {g : Guard} {rd : Frag → Env → Reads} {d n : Nat} {wait : Bool} {s v : State} {c : Site} {e : Env}
    {m : Host.Outcome State Fault Refusal} {upd act : Thread → Thread} {f : Fin} (hm : m = runWord i g rd always (recvBody d n wait) s)
    (h : s.Issues c i) (hfr : s.frag c g = [e]) (hfree : s.unsettled (thrKey c.wg e.tid) = false)
    (hrec : s.recvThread c d n wait e.tid = (v.modThr (thrKey c.wg e.tid) upd, f)) (hf : f.plain = true)
    (hact : ∀ t, f.apply c (upd t) = act t) : ∃ u, m = .next u ∧ Leaves s v c g (fun _ t => act t) u :=
  leaves_of hm h rfl (fun _ => upd) (fun _ => f) (by rw [hfr, recvBody_one _ hfree, hrec]; rfl) (fun _ _ => hf) fun _ _ => hact _

theorem msgOut_zeros (d : Nat) : msgOut d (List.replicate 8 0) = (List.range 8).flatMap fun k => put64 (BitVec.ofNat 7 (d + 2 * k)) 0 := by
  have h : List.replicate 8 (0 : W64) = (List.range 8).map fun _ => 0 := rfl
  rw [h, msgOut_map_range]
  rfl

theorem takeRing_none {s : State} {p core : Nat} {r : Ring} (h : ¬ (0 < s.ringCount p core r ∧ s.ringCount p core r ≤ r.slots)) :
    s.takeRing p core r = none := by
  have hne : (decide (s.ringCount p core r = 0) || decide (r.slots < s.ringCount p core r)) = true := by
    rw [Bool.or_eq_true, decide_eq_true_eq, decide_eq_true_eq]
    omega
  unfold State.takeRing
  dsimp only
  rw [if_pos hne]

theorem spoil_ringCount (s : State) (wk p core : Nat) (r : Ring) : (s.spoil wk).ringCount p core r = s.ringCount p core r := rfl

/-- RECV, told by the ring's own count, HEAD and places. -/
theorem recv_spec {s : State} {c : Site} {d : XReg} {n : BitVec 2} {g : Guard} {wait : Bool} {i : Instr} {e : Env} {r : Ring}
    (hi : i = .recvPoll d n g ∧ wait = false ∨ i = .recvWait d n g ∧ wait = true) (h : s.Issues c i) (hfr : s.frag c g = [e])
    (hfree : s.unsettled (thrKey c.wg e.tid) = false)
    (hr : s.ring (coreKey c.pkg c.core) (s.wg c.wg).launchid (s.wg c.wg).wgid n.toNat = some r)
    (hw : wait = true → s.ringWaiters c.wg n.toNat = []) :
    let ctl := r.ctlAt c.pkg c.core
    let head := s.ringHead c.pkg c.core r
    let count := s.ringCount c.pkg c.core r
    (0 < count ∧ count ≤ r.slots → ∃ u, exec i s = .next u ∧
      Leaves s ((s.spoil c.wg).bulkWord (ctl + 8) (BitVec.ofNat 64 (head + 1))) c g (fun _ t => (t.wxs ((List.range 8).flatMap fun k =>
        put64 (BitVec.ofNat 7 (d.toNat + 2 * k)) (readWord s.mem (r.slotAt c.pkg c.core head / 8 + k)).toNat)).goto c.nextPc) u) ∧
    (¬ (0 < count ∧ count ≤ r.slots) → wait = false → ∃ u, exec i s = .next u ∧
      Leaves s (s.spoil c.wg) c g (fun _ t =>
        (t.wxs ((List.range 8).flatMap fun k => put64 (BitVec.ofNat 7 (d.toNat + 2 * k)) 0)).goto c.nextPc) u) ∧
    (¬ (0 < count ∧ count ≤ r.slots) → wait = true → ∃ u, exec i s = .next u ∧
      Leaves s { s.spoil c.wg with nextId := s.nextId + 1 } c g (fun _ t => { t.issue with
        wait := .recv n.toNat d.toNat s.nextId (r.tailOff (s.wg c.wg)) (some (s.tailAt (s.wg c.wg) (r.tailOff (s.wg c.wg)))), shc := 0 }) u) := by
  have hm : ∃ rd, exec i s = runWord i g rd always (recvBody d.toNat n.toNat wait) s := by
    rcases hi with ⟨rfl, rfl⟩ | ⟨rfl, rfl⟩
    · exact ⟨_, exec_recvPoll_eq_runWord d n g s⟩
    · exact ⟨_, exec_recvWait_eq_runWord d n g s⟩
  obtain ⟨rd, hm⟩ := hm
  have hrec := recvThread_eq (d := d.toNat) (tid := e.tid) hr hw
  refine ⟨fun hcount => ?_, fun hcount hwait => ?_, fun hcount hwait => ?_⟩
  · rw [takeRing_some (by rw [spoil_ringCount]; exact hcount.1) (by rw [spoil_ringCount]; exact hcount.2)] at hrec
    dsimp only at hrec
    rw [msgOut_map_range] at hrec
    exact recvWord hm h hfr hfree hrec rfl fun _ => rfl
  · rw [takeRing_none (by rw [spoil_ringCount]; exact hcount), hwait] at hrec
    simp only [Bool.false_eq_true, if_false, msgOut_zeros] at hrec
    rw [← hwait] at hrec
    exact recvWord hm h hfr hfree hrec rfl fun _ => rfl
  · rw [takeRing_none (by rw [spoil_ringCount]; exact hcount), hwait] at hrec
    simp only [if_true] at hrec
    rw [← hwait] at hrec
    exact recvWord hm h hfr hfree hrec rfl fun t => issue_await t _

/-- HEAD advances: what the write of it leaves of memory. -/
theorem bulkWord_head {s : State} {wk ctl : Nat} (v : W64) (hm : s.MemOk) (hal : ctl % 16 = 0) :
    let u := (s.spoil wk).bulkWord (ctl + 8) v
    readWord u.mem (ctl / 8 + 1) = v ∧ ∀ x, x < ctl + 8 ∨ ctl + 16 ≤ x → readByte u.mem x = readByte s.mem x := by
  have hmem : (s.spoil wk).MemOk := hm
  have hdiv : ctl / 8 + 1 = (ctl + 8) / 8 := by omega
  refine ⟨?_, fun x hx => ?_⟩
  · rw [hdiv]
    exact readWord_bulkWord hmem v (by omega)
  · rw [bulkWord_mem hmem v (by omega), readByte_writeBytes_out _ _ _ _ (by rw [length_natLe]; omega)]
    rfl

/-- What a RECV that takes leaves. -/
theorem takes_spec {s u : State} {c : Site} {g : Guard} {act : Env → Thread → Thread} {ctl : Nat} {v : W64} (hm : s.MemOk)
    (hal : ctl % 16 = 0) (hscr : isScratch (ctl + 8) = true) (hl : Leaves s ((s.spoil c.wg).bulkWord (ctl + 8) v) c g act u) :
    ThreadsDo s s c g act u ∧ OthersKeep s c u ∧ (∀ j, u.wg j = if j = c.wg then { s.wg j with inelig := true } else s.wg j) ∧
      (∀ j, u.core j = { s.core j with perf := (u.core j).perf, pq := (u.core j).pq }) ∧
      (∀ j, (s.core j).pq = [] → (u.core j).pq = []) ∧ readWord u.mem (ctl / 8 + 1) = v ∧
      (∀ x, x < ctl + 8 ∨ ctl + 16 ≤ x → readByte u.mem x = readByte s.mem x) ∧
      u = { s with threads := u.threads, cores := u.cores, wgs := u.wgs, mem := u.mem, poison := u.poison } := by
  have hst : (s.spoil c.wg).Stores ((s.spoil c.wg).bulkWord (ctl + 8) v) := homeStore_stores _ _ _ _ _
  have hframe : (s.spoil c.wg).bulkWord (ctl + 8) v = _ := homeStore_scratch (s.spoil c.wg) 8 v { posted := .agent } hscr
  obtain ⟨hread, hbytes⟩ := bulkWord_head (wk := c.wg) v hm hal
  generalize hv : (s.spoil c.wg).bulkWord (ctl + 8) v = x at hl hst hread hbytes
  have hx : x = { s.spoil c.wg with mem := x.mem, poison := x.poison, cores := x.cores } := by rw [← hv]; exact hframe
  obtain ⟨hthr, hkeep, hwg, hcore, hpq, hall⟩ := hl.of_spoilStores hst
  have hum : u.mem = x.mem := by rw [hall]
  refine ⟨hthr, hkeep, hwg, hcore, hpq, by rw [hum]; exact hread, fun y hy => by rw [hum]; exact hbytes y hy, ?_⟩
  rw [hall]
  conv_lhs => rw [hx]
  rw [hx]
  rfl

/-- What a RECV that does not take leaves. -/
theorem spoils_spec {s v u : State} {c : Site} {g : Guard} {act : Env → Thread → Thread} (hv : v = { s.spoil c.wg with nextId := v.nextId })
    (hl : Leaves s v c g act u) :
    ThreadsDo s s c g act u ∧ OthersKeep s c u ∧ (∀ j, u.wg j = if j = c.wg then { s.wg j with inelig := true } else s.wg j) ∧
      (∀ j, u.core j = { s.core j with perf := (u.core j).perf, pq := (u.core j).pq }) ∧
      (∀ j, (s.core j).pq = [] → (u.core j).pq = []) ∧ u = { s with threads := u.threads, cores := u.cores, wgs := u.wgs, nextId := v.nextId } := by
  have hst : (s.spoil c.wg).Stores v := ⟨by rw [hv], fun _ => by rw [hv]; exact .refl _⟩
  obtain ⟨hthr, hkeep, hwg, hcore, hpq, hall⟩ := hl.of_spoilStores hst
  refine ⟨hthr, hkeep, hwg, hcore, hpq, ?_⟩
  rw [hall]
  conv_lhs => rw [hv]
  rw [hv]
  rfl

/-- Settles O28: the word takes from a ring that has a message; of any other it delivers zeros or waits. -/
theorem receiveTakes : Obligations.ReceiveTakes := by
  unfold Obligations.ReceiveTakes
  intro s c d n g wait i e r hi h hfr hfree hm hr hw ctl tail head count slot hal hscr
  obtain ⟨htake, hpoll, hwait⟩ := recv_spec hi h hfr hfree hr hw
  by_cases hcount : 0 < count ∧ count ≤ r.slots
  · obtain ⟨u, hu, hl⟩ := htake hcount
    obtain ⟨hthr, hkeep, hwg, hcore, hpq, hread, hbytes, hall⟩ := takes_spec hm hal hscr hl
    exact ⟨u, hu, hkeep, hwg, hcore, hpq, fun _ => ⟨hthr, hread, hbytes, hall⟩, fun h0 => absurd h0.1 (Nat.ne_of_gt hcount.1),
      fun h0 => absurd h0.1 (Nat.ne_of_gt hcount.1)⟩
  · cases hwt : wait with
    | false =>
      obtain ⟨u, hu, hl⟩ := hpoll hcount hwt
      obtain ⟨hthr, hkeep, hwg, hcore, hpq, hall⟩ := spoils_spec rfl hl
      exact ⟨u, hu, hkeep, hwg, hcore, hpq, fun h0 => absurd h0 hcount, fun _ => ⟨hthr, hall⟩, fun h0 => absurd h0.2 Bool.false_ne_true⟩
    | true =>
      obtain ⟨u, hu, hl⟩ := hwait hcount hwt
      obtain ⟨hthr, hkeep, hwg, hcore, hpq, hall⟩ := spoils_spec rfl hl
      refine ⟨u, hu, hkeep, hwg, hcore, hpq, fun h0 => absurd h0 hcount, fun h0 => absurd h0.2.symm Bool.false_ne_true, fun _ => ⟨hthr, ?_⟩⟩
      rw [hall]

end Sys2Proof.Machine

/-! ### SPAWN onto a deque whose entries are longer than 128 bytes (19_queue_instr R312, 18_queues R291)

A deque is a list of entries with any number of arguments, and SPAWN writes the whole deque again. An entry of 29 arguments takes 328
bytes: it reaches beyond the two entries of 128 bytes that the statement leaves to the word. -/

namespace Sys2Proof.Machine

/-- One thread, whose pair x2 holds the first address of STACK; its core's deque holds an entry of 29 arguments, in a region for two. -/
def longState : State :=
  { State.reset with
    gangs := [(0, { stk := 64 })], wgs := [(0, { size := 1, nregs := 4 })], threads := [(0, { x := [7, 0, 0, 0xFFFE0000] })],
    cores := [(0, { dqbase := 0, dqlimit := 256, deque := [
      { entry := 0, bound := 0, wait0 := 0, wait1 := 0, args := List.replicate 29 1, launchid := 0, bsel := 0 }] })],
    cur := some straySite }

/-- SPAWN of the record at the address in x2. -/
def longAddr : MAddr := ⟨.x 2, 0, ⟨false, 0⟩⟩
def longWord : Instr := .spawn 1 longAddr ⟨.rel, .pod⟩

theorem longWord_issues : longState.Issues straySite longWord where
  cur := rfl
  ok := by decide
  regsOk := by decide
  nodup := by decide

/-- The record's place: the start of the gang's stacks in its vault. -/
def longPlace : Place := { loc := locVault 0 0 0, own := true }

theorem longWord_resolves : longState.resolve 0 0 0xFFFE000000000000 64 { r := true } = (.ok longPlace, longState) := by decide

/-- Byte 256 of SCRATCH, behind both entries, is written. -/
theorem longWord_writes : (match exec longWord longState with
    | .next u => readByte u.mem (locScratch 0 0 256) != readByte longState.mem (locScratch 0 0 256)
    | _ => false) = true := by decide +kernel

/-- Refutes O26: the entry that stands in the deque already is written over a byte behind the region of both entries. -/
theorem not_spawnAppends : ¬ Obligations.SpawnAppends := by
  unfold Obligations.SpawnAppends
  intro h
  obtain ⟨u, hu, -, -, -, -, -, -, -, hframe, -⟩ := h longState straySite 1 longAddr ⟨.rel, .pod⟩ (longState.env 0 0) longPlace
    longWord_issues (by decide) (by decide) (by decide) (by decide) (by decide) longWord_resolves (by decide) (by decide)
  have hw := longWord_writes
  rw [show exec longWord longState = .next u from hu] at hw
  have hbyte := hframe (by rfl) (locScratch 0 0 256) (.inr (by decide))
  change (readByte u.mem (locScratch 0 0 256) != readByte longState.mem (locScratch 0 0 256)) = true at hw
  rw [hbyte] at hw
  simp at hw

end Sys2Proof.Machine

/-! ### TLBINV (21_tables R323) -/

namespace Sys2Proof.Machine

/-- Changing several dies by one change that is as good as two. -/
theorem foldl_modDie (key : Nat → Nat) {f : Die → Die} (hf : ∀ x, f (f x) = f x) (l : List Nat) (s : State) :
    let u := l.foldl (fun s a => s.modDie (key a) f) s
    u = { s with dies := u.dies } ∧ ∀ d, u.die d = if ∃ n ∈ l, d = key n then f (s.die d) else s.die d := by
  induction l generalizing s with
  | nil => exact ⟨rfl, fun d => by simp⟩
  | cons a r ih =>
    obtain ⟨hall, hdie⟩ := ih (s.modDie (key a) f)
    rw [List.foldl_cons]
    refine ⟨hall.trans rfl, fun d => ?_⟩
    rw [hdie, State.modDie_die]
    by_cases hr : ∃ n ∈ r, d = key n
    · have hl : ∃ n ∈ a :: r, d = key n := by
        obtain ⟨n, hn, hd⟩ := hr
        exact ⟨n, List.mem_cons_of_mem _ hn, hd⟩
      rw [if_pos hr, if_pos hl]
      split
      · next h => rw [hf, h]
      · rfl
    · rw [if_neg hr]
      by_cases ha : key a = d
      · rw [if_pos ha, if_pos ⟨a, List.mem_cons_self, ha.symm⟩, ha]
      · rw [if_neg ha, if_neg]
        rintro ⟨n, hn, hd⟩
        rcases List.mem_cons.mp hn with rfl | hn
        · exact ha hd.symm
        · exact hr ⟨n, hn, hd⟩

/-- Changing several cores by one change that is as good as two. -/
theorem foldl_modCore_idem {f : Core → Core} (hf : ∀ x, f (f x) = f x) (l : List Nat) (s : State) :
    let u := l.foldl (fun s k => s.modCore k f) s
    u = { s with cores := u.cores } ∧ ∀ k, u.core k = if k ∈ l then f (s.core k) else s.core k := by
  induction l generalizing s with
  | nil => exact ⟨rfl, fun k => by simp⟩
  | cons a r ih =>
    obtain ⟨hall, hcore⟩ := ih (s.modCore a f)
    rw [List.foldl_cons]
    refine ⟨hall.trans rfl, fun k => ?_⟩
    rw [hcore, State.modCore_core]
    by_cases hr : k ∈ r
    · rw [if_pos hr, if_pos (List.mem_cons_of_mem _ hr)]
      split
      · next h => rw [hf, h]
      · rfl
    · rw [if_neg hr]
      by_cases ha : a = k
      · rw [if_pos ha, if_pos (ha ▸ List.mem_cons_self), ha]
      · rw [if_neg ha, if_neg fun hk => (List.mem_cons.mp hk).elim (fun h => ha h.symm) hr]

/-- The entries of a core that holds no state. -/
theorem core_of_unlisted {s : State} {k : Nat} (h : k ∉ s.cores.map Prod.fst) : s.core k = {} := by
  have hnone : tfind s.cores k = none := by
    cases hf : tfind s.cores k with
    | none => rfl
    | some x => exact absurd (List.mem_map.mpr ⟨_, mem_of_tfind hf, rfl⟩) h
  unfold State.core tget
  rw [hnone]
  rfl

theorem tlbRemove_spec (s : State) (p fk : Nat) (dies : List Nat) (va : Option Nat) :
    let u := s.tlbRemove p fk dies va
    u = { s with dies := u.dies, cores := u.cores } ∧
      (∀ d, u.die d = if ∃ n ∈ dies, d = dieKey p n then { s.die d with tlb := (s.die d).tlb.filter fun t => !t.goes fk va } else s.die d) ∧
      ∀ k, u.core k = { s.core k with
        utlb := if k / 640 = p ∧ k % 640 / 160 ∈ dies then (s.core k).utlb.filter fun t => !t.goes fk va else (s.core k).utlb } := by
  have hfilter (l : List TlbEnt) : (l.filter fun t => !t.goes fk va).filter (fun t => !t.goes fk va) = l.filter fun t => !t.goes fk va := by
    rw [List.filter_filter]
    simp only [Bool.and_self]
  obtain ⟨hd, hdie⟩ := foldl_modDie (dieKey p) (f := fun x => { x with tlb := x.tlb.filter fun e => !e.goes fk va })
    (fun x => by simp only [hfilter]) dies s
  unfold State.tlbRemove
  dsimp only
  generalize dies.foldl (fun s d => s.modDie (dieKey p d) fun x => { x with tlb := x.tlb.filter fun e => !e.goes fk va }) s = v at *
  obtain ⟨hc, hcore⟩ := foldl_modCore_idem (f := fun x => { x with utlb := x.utlb.filter fun e => !e.goes fk va })
    (fun x => by simp only [hfilter]) (v.coresIn p dies) v
  have hvc : v.cores = s.cores := by rw [hd]
  have hvcore (k : Nat) : v.core k = s.core k := congrArg (tget ({} : Core) · k) hvc
  refine ⟨by rw [hc, hd], fun d => ?_, fun k => ?_⟩
  · rw [← hdie, hc]
    rfl
  · rw [hcore, hvcore]
    have hin : k ∈ v.coresIn p dies ↔ k ∈ s.cores.map Prod.fst ∧ k / 640 = p ∧ k % 640 / 160 ∈ dies := by
      simp [State.coresIn, hvc, and_assoc]
    by_cases hk : k ∈ v.coresIn p dies
    · rw [if_pos hk, if_pos (hin.mp hk).2]
    · rw [if_neg hk]
      split
      · next h =>
        have hun : k ∉ s.cores.map Prod.fst := fun h' => hk (hin.mpr ⟨h', h⟩)
        rw [core_of_unlisted hun]
        rfl
      · rfl

theorem exec_tlbinvPage_eq_runWord (a : Base) (sc : TiScope) (g : Guard) (s : State) : exec (.tlbinvPage a sc g) s =
    runWord (.tlbinvPage a sc g) g (rdPlain (.tlbinvPage a sc g)) always (tlbinvBody (fun e => some (readBase e a).toNat) sc) s := rfl

theorem exec_tlbinvVf_eq_runWord (sc : TiScope) (g : Guard) (s : State) : exec (.tlbinvVf sc g) s =
    runWord (.tlbinvVf sc g) g (rdPlain (.tlbinvVf sc g)) always (tlbinvBody (fun _ => none) sc) s := rfl

/-- The word in a state whose release step is complete. -/
theorem tlbinvWord {i : Instr} {g : Guard} {rd : Frag → Env → Reads} {va : Env → Option Nat} {sc : TiScope} {s : State} {c : Site}
    {e : Env} {rest : Frag} (hm : exec i s = runWord i g rd always (tlbinvBody va sc) s) (h : s.Issues c i)
    (hfr : s.frag c g = e :: rest) (hrel : s.relDone (thrKey c.wg e.tid) (tiScope sc) = true) :
    let fk := s.fnOf (s.wg c.wg)
    let dies := tiDies sc (c.core / 160)
    let ids := s.tlbOwed c.pkg fk dies (s.tlbGone c.pkg fk dies (va e))
    ∃ u, exec i s = .next u ∧ Leaves s (s.tlbRemove c.pkg fk dies (va e)) c g
      (fun _ t => if ids = [] then t.goto c.nextPc else { (t.goto c.nextPc) with hold := .tlbinv ids }) u := by
  intro fk dies ids
  have hfree : ¬ (!s.relDone (thrKey c.wg e.tid) (tiScope sc)) = true := by simp [hrel]
  have hb : tlbinvBody va sc s c (s.frag c g) (s.frag c g) = .done
      (if ids.isEmpty then s.tlbRemove c.pkg fk dies (va e)
        else (s.tlbRemove c.pkg fk dies (va e)).modTids c.wg ((s.frag c g).map Env.tid) fun t => { t with hold := .tlbinv ids })
      ((s.frag c g).map fun e => (e.tid, .next)) := by
    rw [hfr]
    exact if_neg hfree
  by_cases hids : ids = []
  · obtain ⟨u, hu, hl⟩ := goesOn_of hm h rfl (v := s.tlbRemove c.pkg fk dies (va e)) (by rw [hb, if_pos (by rw [hids]; rfl)])
    refine ⟨u, hu, hl.congr fun _ _ => ?_⟩
    rw [if_pos hids]
  · refine leaves_of hm h rfl (fun _ t => { t with hold := .tlbinv ids }) (fun _ => .next) ?_ (fun _ _ => rfl) fun _ _ => ?_
    · rw [hb, if_neg (by simpa using hids), State.modTids, List.foldl_map]
    · rw [if_neg hids]
      rfl

/-- Settles O36: the removal leaves every TLB of the dies without the entries that go, and each thread waits for what they translated. -/
theorem translationsInvalidate : Obligations.TranslationsInvalidate := by
  unfold Obligations.TranslationsInvalidate
  intro s c sc g i va e rest hfr hi h dies hrel fk goes ids
  have hm : ∃ rd f, exec i s = runWord i g rd always (tlbinvBody f sc) s ∧ f e = va := by
    rcases hi with ⟨a, rfl, rfl⟩ | ⟨rfl, rfl⟩
    · exact ⟨_, _, exec_tlbinvPage_eq_runWord a sc g s, rfl⟩
    · exact ⟨_, _, exec_tlbinvVf_eq_runWord sc g s, rfl⟩
  have hgoes (t : TlbEnt) : t.goes fk va = goes t := by
    cases va with
    | none => exact (Bool.and_true _).symm
    | some v => rfl
  have hdies : tiDies sc (c.core / 160) = dies := by cases sc <;> rfl
  obtain ⟨rd, f, hm, hva⟩ := hm
  obtain ⟨u, hu, hl⟩ := tlbinvWord hm h hfr (by cases sc <;> exact hrel)
  rw [hdies, hva] at hl
  obtain ⟨hv, hdie, hcore⟩ := tlbRemove_spec s c.pkg fk dies va
  change Leaves s (s.tlbRemove c.pkg fk dies va) c g (fun _ t => if ids = [] then t.goto c.nextPc else { (t.goto c.nextPc) with
    hold := .tlbinv ids }) u at hl
  generalize s.tlbRemove c.pkg fk dies va = v at *
  obtain ⟨hthr, hkeep, hcores, hall⟩ := hl
  have ht (k : Nat) : v.thr k = s.thr k := by rw [hv]; rfl
  simp only [hgoes] at hdie hcore
  refine ⟨u, hu, fun j hj => ?_, fun k hk => (hkeep k hk).trans (ht k), fun d => ?_, fun k => ?_, ?_⟩
  · rw [← ht]; exact hthr j hj
  · rw [hall]; exact hdie d
  · have hk := hcores k
    rw [hcore] at hk
    split at hk
    · next h => rw [if_pos h]; exact hk
    · next h => rw [if_neg h]; exact hk
  · rw [hall]
    conv_lhs => rw [hv]

end Sys2Proof.Machine

/-! ### LPARK and LWAKE (22_links R343, R344) -/

namespace Sys2Proof.Machine

/-- A spec is bad when its fibre, its reserved bits or its mask is. -/
theorem linkSpec_eq (x : W32) :
    let v := x.toNat
    linkSpec x = if 47 < v % 64 ∨ v / 64 % 1024 ≠ 0 ∨ BitVec.ofNat 16 (v / 2 ^ 16) = 0 then none
      else some (v % 64, BitVec.ofNat 16 (v / 2 ^ 16)) := by
  intro v
  have hf : bits v 5 0 = v % 64 := by simp [bits]
  have hr : bits v 15 6 = v / 64 % 1024 := rfl
  have hm : bits v 31 16 = v / 2 ^ 16 % 2 ^ 16 := rfl
  have hz : bits v 31 16 = 0 ↔ BitVec.ofNat 16 (v / 2 ^ 16) = 0 := by
    rw [hm, ← BitVec.toNat_inj, BitVec.toNat_ofNat]
    rfl
  have hofs : BitVec.ofNat 16 (bits v 31 16) = BitVec.ofNat 16 (v / 2 ^ 16) := by
    rw [← BitVec.toNat_inj, BitVec.toNat_ofNat, BitVec.toNat_ofNat, hm, Nat.mod_mod]
  unfold linkSpec
  dsimp only
  rw [hofs, hf, hr]
  simp only [Bool.or_eq_true, decide_eq_true_eq, or_assoc]
  exact if_congr (or_congr_right (or_congr_right hz)) rfl rfl

/-- Changes of one fibre that leave what R343 names but for its epoch. -/
structure State.FibreDeals (s : State) (k : Nat) (e : BitVec 4) (u : State) : Prop where
  frame : u = { s with fibres := u.fibres }
  others : ∀ j, j ≠ k → u.fibre j = s.fibre j
  self : u.fibre k = { s.fibre k with
    epoch := e, dc := (u.fibre k).dc, toSend := (u.fibre k).toSend, stalls := (u.fibre k).stalls, progress := (u.fibre k).progress }

theorem modFibre_deals (s : State) (k : Nat) {f : Fibre → Fibre} {e : BitVec 4}
    (h : f (s.fibre k) = { s.fibre k with
      epoch := e, dc := (f (s.fibre k)).dc, toSend := (f (s.fibre k)).toSend, stalls := (f (s.fibre k)).stalls,
      progress := (f (s.fibre k)).progress }) : s.FibreDeals k e (s.modFibre k f) where
  frame := rfl
  others j hj := by rw [State.modFibre_fibre, if_neg hj.symm]
  self := by rw [State.modFibre_self]; exact h

theorem State.FibreDeals.trans {s v u : State} {k : Nat} {e e' : BitVec 4} (h : s.FibreDeals k e v) (h' : v.FibreDeals k e' u) :
    s.FibreDeals k e' u where
  frame := by rw [h'.frame, h.frame]
  others j hj := (h'.others j hj).trans (h.others j hj)
  self := by rw [h'.self, h.self]

theorem replayAll_deals {s : State} {p f : Nat} (h : (s.fibre (fibreKey p f)).buf = [] ∨ (s.fibre (fibreKey p f)).stalls < 8) :
    s.FibreDeals (fibreKey p f) (s.fibre (fibreKey p f)).epoch (s.replayAll p f) := by
  unfold State.replayAll
  dsimp only
  split
  · exact ⟨rfl, fun _ _ => rfl, rfl⟩
  · next hb =>
    split
    · next hs =>
      refine absurd h (not_or.mpr ⟨fun hnil => hb ?_, by omega⟩)
      simp [hnil]
    · exact modFibre_deals _ _ rfl

/-- A restripe of a fibre that keeps some active wavelength and need not go down. -/
theorem restripe_deals {s : State} {p f : Nat} (hact : (s.fibre (fibreKey p f)).active ≠ 0)
    (h : (s.fibre (fibreKey p f)).buf = [] ∨ (s.fibre (fibreKey p f)).stalls < 8) :
    s.FibreDeals (fibreKey p f) ((s.fibre (fibreKey p f)).epoch + 1) (s.restripe p f) := by
  unfold State.restripe
  dsimp only
  generalize hv : (s.modFibre (fibreKey p f) fun x => { x with epoch := x.epoch + 1, dc := 0 }) = v
  have h1 : s.FibreDeals (fibreKey p f) ((s.fibre (fibreKey p f)).epoch + 1) v := hv ▸ modFibre_deals _ _ rfl
  have hself : v.fibre (fibreKey p f) = { s.fibre (fibreKey p f) with epoch := (s.fibre (fibreKey p f)).epoch + 1, dc := 0 } := by
    rw [← hv, State.modFibre_self]
  have hepoch : (v.fibre (fibreKey p f)).epoch = (s.fibre (fibreKey p f)).epoch + 1 := by rw [hself]
  rw [if_neg (by rw [hself]; exact hact)]
  split
  · exact h1
  · have h2 := replayAll_deals (s := v) (p := p) (f := f) (by rw [hself]; exact h)
    rw [hepoch] at h2
    split
    · exact h1.trans h2
    · refine (h1.trans h2).trans (modFibre_deals _ _ ?_)
      have : ((v.replayAll p f).fibre (fibreKey p f)).epoch = (s.fibre (fibreKey p f)).epoch + 1 := by rw [h2.self]
      rw [← this]
      rfl

/-- LPARK of a fibre that keeps enough wavelengths. -/
theorem lpark_parks {s : State} {p f : Nat} {m : BitVec 16} (h4 : f < 16 → 4 ≤ popMask ((s.fibre (fibreKey p f)).active &&& ~~~m))
    (hact : (s.fibre (fibreKey p f)).active &&& ~~~m ≠ 0)
    (h : (s.fibre (fibreKey p f)).buf = [] ∨ (s.fibre (fibreKey p f)).stalls < 8) :
    let k := fibreKey p f
    ∃ u, s.lpark p f m = (0, u) ∧ u = { s with fibres := u.fibres } ∧ (∀ j, j ≠ k → u.fibre j = s.fibre j) ∧
      (u.fibre k).active = (s.fibre k).active &&& ~~~m ∧ (u.fibre k).parked = (s.fibre k).parked ||| m ∧
      (u.fibre k).epoch = (s.fibre k).epoch + 1 ∧ (u.fibre k).failed = (s.fibre k).failed ∧ (u.fibre k).down = (s.fibre k).down := by
  intro k
  have hfit : ¬ (decide (f < 16) && decide (popMask ((s.fibre k).active &&& ~~~m) < 4)) = true := by
    rw [Bool.and_eq_true, decide_eq_true_eq, decide_eq_true_eq]
    exact fun ⟨hf, hp⟩ => absurd (h4 hf) (by exact Nat.not_le_of_lt hp)
  generalize hv : (s.modFibre k fun x => { x with active := x.active &&& ~~~m, parked := x.parked ||| m }) = v
  have hself : v.fibre k = { s.fibre k with active := (s.fibre k).active &&& ~~~m, parked := (s.fibre k).parked ||| m } := by
    rw [← hv, State.modFibre_self]
  have hd : v.FibreDeals k ((v.fibre k).epoch + 1) (v.restripe p f) :=
    restripe_deals (by rw [hself]; exact hact) (by rw [hself]; exact h)
  have hu : s.lpark p f m = (0, v.restripe p f) := by
    rw [← hv]
    exact if_neg hfit
  refine ⟨v.restripe p f, hu, by rw [hd.frame, ← hv]; rfl, fun j hj => ?_, ?_, ?_, ?_, ?_, ?_⟩
  · rw [hd.others j hj, ← hv, State.modFibre_fibre, if_neg hj.symm]
  all_goals rw [hd.self, hself]

theorem exec_lpark_eq_runWord (d b : XReg) (g : Guard) (s : State) : exec (.lpark d b g) s =
    runWord (.lpark d b g) g (rdPlain (.lpark d b g)) linkOk (lparkBody d b) s := rfl

theorem exec_lwake_eq_runWord (d b : XReg) (g : Guard) (s : State) : exec (.lwake d b g) s =
    runWord (.lwake d b g) g (rdPlain (.lwake d b g)) linkOk (lwakeBody d b) s := rfl

/-- A word that gives every guard-active thread a status. -/
theorem givesAll {i : Instr} {g : Guard} {rd : Frag → Env → Reads} {ok : State → Site → Bool} {body : Body} {s v : State}
    {c : Site} {m : Host.Outcome State Fault Refusal} {d : XReg} {st : Nat} (hm : m = runWord i g rd ok body s) (h : s.Issues c i)
    (hok : ok s c = true) (hb : body s c (s.frag c g) (s.frag c g) =
      .done (v.giveAll c (s.frag c g) d st) ((s.frag c g).map fun e => (e.tid, .next))) :
    ∃ u, m = .next u ∧ Leaves s v c g (fun _ t => (t.wxs (put32 d st)).goto c.nextPc) u :=
  leaves_of hm h hok (fun _ t => t.wxs (put32 d st)) (fun _ => .next) hb (fun _ _ => rfl) fun _ _ => rfl

/-- What a word that changes fibres beside its threads leaves, told from the state at issue. -/
theorem Leaves.of_fibres {s v u : State} {c : Site} {g : Guard} {act : Env → Thread → Thread} (hv : v = { s with fibres := v.fibres })
    (h : Leaves s v c g act u) : ThreadsDo s s c g act u ∧ OthersKeep s c u ∧ CoresKeep s c u ∧ (∀ k, u.fibre k = v.fibre k) ∧
      u = { s with threads := u.threads, cores := u.cores, fibres := u.fibres } := by
  obtain ⟨hthr, hkeep, hcores, hall⟩ := h
  have hf (k : Nat) : u.fibre k = v.fibre k := by rw [hall]; rfl
  have hu : u = { s with threads := u.threads, cores := u.cores, fibres := u.fibres } := by
    rw [hall]
    conv_lhs => rw [hv]
  rw [hv] at hthr hkeep hcores
  exact ⟨hthr, hkeep, hcores, hf, hu⟩

section
variable {s : State} {c : Site} {d b : XReg} {g : Guard} {e : Env} {rest : Frag} (hfr : s.frag c g = e :: rest)
include hfr

theorem lparkBody_eq : lparkBody d b s c (s.frag c g) (s.frag c g) = match linkSpec (e.xr b.toNat) with
    | none => .done (s.giveAll c (s.frag c g) d 2) ((s.frag c g).map fun e => (e.tid, .next))
    | some (f, m) => .done ((s.lpark c.pkg f m).2.giveAll c (s.frag c g) d (s.lpark c.pkg f m).1)
        ((s.frag c g).map fun e => (e.tid, .next)) := by
  rw [hfr]
  rfl

theorem lwakeBody_eq : lwakeBody d b s c (s.frag c g) (s.frag c g) = match linkSpec (e.xr b.toNat) with
    | none => .done (s.giveAll c (s.frag c g) d 2) ((s.frag c g).map fun e => (e.tid, .next))
    | some (f, m) =>
      let k := fibreKey c.pkg f
      let w := m &&& ((s.fibre k).parked ||| (s.fibre k).failed)
      if w = 0 then .done (s.giveAll c (s.frag c g) d 0) ((s.frag c g).map fun e => (e.tid, .next))
      else if (s.fibre k).wake.isSome then .held
      else .done ((s.modFibre k fun x => { x with wake := some (w, (s.frag c g).map fun e => thrKey c.wg e.tid, d.toNat) }).modTids c.wg
        ((s.frag c g).map fun e => e.tid) fun t => { t with hold := .link d.toNat }) ((s.frag c g).map fun e => (e.tid, .next)) := by
  rw [hfr]
  rfl

end

/-- Settles O37: the spec, the fibre's masks and the tests on them decide what the body does; a restripe keeps the masks. -/
theorem lightParksAndWakes : Obligations.LightParksAndWakes := by
  unfold Obligations.LightParksAndWakes
  intro s c d b g e rest hfr hpriv hrep v f m k bad
  have hok : linkOk s c = true := by
    unfold linkOk
    dsimp only
    rw [hpriv, hrep]
    rfl
  have hspec : linkSpec (e.xr b.toNat) = if bad then none else some (f, m) := linkSpec_eq _
  refine ⟨fun i hi h hbad => ?bad, fun h hbad hf hpop => ?few, fun h hbad h4 hact hbuf => ?park, fun h hbad hw => ?lit,
    fun h hbad hw hwake => ?wake⟩
  case bad =>
    rw [if_pos hbad] at hspec
    rcases hi with rfl | rfl
    · exact givesAll (exec_lpark_eq_runWord d b g s) h hok ((lparkBody_eq hfr).trans (by rw [hspec]))
    · exact givesAll (exec_lwake_eq_runWord d b g s) h hok ((lwakeBody_eq hfr).trans (by rw [hspec]))
  case few =>
    rw [if_neg hbad] at hspec
    have hst : s.lpark c.pkg f m = (1, s) := by
      have : (decide (f < 16) && decide (popMask ((s.fibre k).active &&& ~~~m) < 4)) = true := by
        rw [Bool.and_eq_true, decide_eq_true_eq, decide_eq_true_eq]
        exact ⟨hf, hpop⟩
      exact if_pos this
    exact givesAll (exec_lpark_eq_runWord d b g s) h hok ((lparkBody_eq hfr).trans (by rw [hspec]; dsimp only; rw [hst]))
  case park =>
    rw [if_neg hbad] at hspec
    obtain ⟨v, hst, hframe, hoth, ha, hp, hep, hfa, hdo⟩ := lpark_parks h4 hact hbuf
    obtain ⟨u, hu, hl⟩ := givesAll (v := v) (exec_lpark_eq_runWord d b g s) h hok
      ((lparkBody_eq hfr).trans (by rw [hspec]; dsimp only; rw [hst]))
    obtain ⟨hthr, hkeep, hcores, hfib, hall⟩ := hl.of_fibres hframe
    rw [← hfib] at ha hp hep hfa hdo
    exact ⟨u, hu, hthr, hkeep, hcores, ha, hp, hep, hfa, hdo, fun j hj => (hfib j).trans (hoth j hj), hall⟩
  case lit =>
    rw [if_neg hbad] at hspec
    exact givesAll (exec_lwake_eq_runWord d b g s) h hok ((lwakeBody_eq hfr).trans (by rw [hspec]; exact if_pos hw))
  case wake =>
    rw [if_neg hbad] at hspec
    have hb := lwakeBody_eq (d := d) (b := b) hfr
    rw [hspec] at hb
    dsimp only at hb
    rw [if_neg hw, if_neg (by rw [hwake]; exact Bool.false_ne_true)] at hb
    obtain ⟨u, hu, hl⟩ := leaves_of (act := fun _ t => { (t.goto c.nextPc) with hold := .link d.toNat })
      (v := s.modFibre k fun x => { x with
        wake := some (m &&& ((s.fibre k).parked ||| (s.fibre k).failed), (s.frag c g).map fun e => thrKey c.wg e.tid, d.toNat) })
      (exec_lwake_eq_runWord d b g s) h hok (fun _ t => { t with hold := .link d.toNat }) (fun _ => .next)
      (by rw [hb, State.modTids, List.foldl_map]) (fun _ _ => rfl) fun _ _ => rfl
    obtain ⟨hthr, hkeep, hcores, hfib, hall⟩ := hl.of_fibres rfl
    refine ⟨u, hu, hthr, hkeep, hcores, fun j => ?_, hall⟩
    rw [hfib, State.modFibre_fibre]
    by_cases hj : k = j
    · subst hj; simp
    · rw [if_neg hj, if_neg fun h => hj h.symm]

end Sys2Proof.Machine

/-! ### SLOTSET (22_links R339, R345) -/

namespace Sys2Proof.Machine

theorem exec_slotset_eq_runWord (d : XReg) (m : MAddr) (s : State) : exec (.slotset d m) s =
    runWord (.slotset d m) m.g (rdPlain (.slotset d m)) linkOk (slotsetBody d m) s := rfl

/-- The tests of R345, in the model's order. -/
theorem stageSlots_eq (g : Pkg) (p : Nat) (hdr ents : List Byte) :
    let n := fld hdr 0 2
    let good := 1 ≤ n ∧ n ≤ 64 ∧ zeros hdr 2 6 = true ∧ zeros hdr 16 48 = true
    let st := if g.staged.isSome then 1 else if ¬good then 2
      else match slotsOf p g.cfg.podSize ents n with
        | none => 2
        | some _ => if fld hdr 8 8 < g.podt.toNat + 1000 then 3 else 0
    g.stageSlots p hdr ents =
      (st, if st = 0 then (slotsOf p g.cfg.podSize ents n).map fun l => ⟨fld hdr 8 8, l⟩ else none) := by
  intro n good
  have hbad : (decide (n = 0) || decide (64 < n) || !zeros hdr 2 6 || !zeros hdr 16 48) = true ↔ ¬good := by
    simp only [Bool.or_eq_true, decide_eq_true_eq, Bool.not_eq_true', good]
    cases zeros hdr 2 6 <;> cases zeros hdr 16 48 <;> simp; omega
  unfold Pkg.stageSlots
  dsimp only
  by_cases hs : g.staged.isSome = true
  · rw [if_pos hs, if_pos hs]
    rfl
  · rw [if_neg hs, if_neg hs]
    by_cases hg : good
    · rw [if_neg fun h => hbad.mp h hg, if_neg (not_not.mpr hg)]
      cases slotsOf p g.cfg.podSize ents n with
      | none => rfl
      | some l =>
        dsimp only
        split <;> rfl
    · rw [if_pos (hbad.mpr hg), if_pos hg]
      rfl

/-- Settles O38: the two reads leave `s2`, and in it the tests of R345 give the status and, at 0, the table. -/
theorem slotTableStages : Obligations.SlotTableStages := by
  unfold Obligations.SlotTableStages
  intro s s1 s2 c d m e rest hdr ents h hfr hpriv hrep a n start h1 h2 p good st
  have hok : linkOk s c = true := by
    unfold linkOk
    dsimp only
    rw [hpriv, hrep]
    rfl
  have hstage : p.stageSlots c.pkg hdr ents =
      (st, if st = 0 then (slotsOf c.pkg p.cfg.podSize ents n).map fun l => ⟨start, l⟩ else none) := stageSlots_eq p c.pkg hdr ents
  generalize htab : (if st = 0 then (slotsOf c.pkg p.cfg.podSize ents n).map fun l => (⟨start, l⟩ : Staged) else none) = tab at hstage
  generalize hv : (match tab with
    | some t => s2.modPkg c.pkg fun g => { g with staged := some t }
    | none => s2) = v
  have hb : slotsetBody d m s c (s.frag c m.g) (s.frag c m.g) =
      .done (v.giveAll c (s.frag c m.g) d st) ((s.frag c m.g).map fun e => (e.tid, .next)) := by
    rw [hfr]
    unfold slotsetBody
    dsimp only
    rw [show baseOff e m 64 = a from rfl, h1]
    dsimp only
    rw [h2]
    dsimp only
    rw [show (s2.pkg c.pkg).stageSlots c.pkg hdr ents = (st, tab) from hstage]
    subst hv
    cases tab <;> rfl
  obtain ⟨u, hu, hthr, hkeep, hcores, hall⟩ := givesAll (exec_slotset_eq_runWord d m s) h hok hb
  have hframe : v = { s2 with pkgs := v.pkgs } := by
    rw [← hv]
    cases tab <;> rfl
  have hpkg (j : Nat) : u.pkg j = v.pkg j := by rw [hall]; rfl
  have hall' : u = { s2 with threads := u.threads, cores := u.cores, pkgs := u.pkgs } := by
    rw [hall]
    conv_lhs => rw [hframe]
  refine ⟨u, hu, fun j hj => ?_, fun k hk => ?_, fun k => ?_, fun j => ?_, hall'⟩
  · rw [hthr j hj, hframe]
    rfl
  · rw [hkeep k hk, hframe]
    rfl
  · have := hcores k
    rw [hframe] at this
    exact this
  · rw [hpkg, ← hv]
    by_cases h0 : st = 0
    · rw [if_pos h0] at htab
      rw [htab]
      cases htb : tab with
      | none =>
        have hnone : slotsOf c.pkg p.cfg.podSize ents n = none := by simpa [htb] using htab
        simp only [st, hnone] at h0
        split at h0
        · cases h0
        · split at h0 <;> cases h0
      | some t =>
        dsimp only
        rw [State.modPkg_pkg]
        by_cases hj : c.pkg = j
        · subst hj; simp [h0]
        · rw [if_neg hj, if_neg fun h => hj h.1.symm]
    · rw [if_neg h0] at htab
      rw [← htab, if_neg fun h => h0 h.2]

end Sys2Proof.Machine

/-! ### E-form words (14_engines R240) -/

namespace Sys2Proof.Machine

/-- A record that can be read, read for a thread with nothing before it. -/
theorem readRec_bytes {s : State} {c : Site} {tid : Nat} {a : W64} {n : Nat} {p : Place} (hal : a.toNat % n = 0)
    (hq : s.quiet (thrKey c.wg tid) = true) (hres : s.resolve c.wg tid a n { r := true } = (.ok p, s)) (hv : p.void = false)
    (hpo : ∀ j < n, s.isPoisoned (p.seen (c.core / 160) + j) 1 = false) :
    s.readRec c tid a n = .bytes (s.seenBytes c.pkg c.core (p.seen (c.core / 160)) p.unc n)
      (if s.spoils c.wg { kind := .load, addr := a, size := n } p then s.spoil c.wg else s) := by
  have hlow : s.lowPoison (p.seen (c.core / 160)) n a = none := by
    unfold State.lowPoison
    rw [List.findSome?_eq_none_iff]
    intro i hi
    rw [hpo i (List.mem_range.mp hi)]
    rfl
  unfold State.readRec
  rw [if_neg (not_not.mpr hal), hq, hres]
  dsimp only
  rw [hv, hlow, if_neg (by decide), if_neg (by decide)]
  dsimp only
  split <;> rfl

theorem bits_low (x n : Nat) : bits x n 0 = x % 2 ^ (n + 1) := by simp [bits]

/-- The command that an E-form word puts into the machine. -/
def State.newCmd (s : State) (k : CKind) (c : Site) (tid : Nat) (a : W64) (raw : List Byte) : Cmd :=
  { id := s.nextId, pkg := c.pkg, core := c.core, thr := thrKey c.wg tid, wg := c.wg, gang := (s.wg c.wg).gang,
    ctx := (s.wg c.wg).ctx, fn := (s.ctx (s.wg c.wg).ctx).fn, launchid := (s.wg c.wg).launchid,
    ticket := (s.core (coreKey c.pkg c.core)).tseq + 1, kind := k, recAddr := a, raw := raw,
    acq := if fld raw 2 1 % 2 = 1 then some (s.die (dieKey c.pkg (c.core / 160))).vec else none }

/-- A core after command `id` has entered its queue. -/
def Core.queued (k : Core) (kind : CKind) (ch id : Nat) : Core :=
  { k with
    chans := if kind.copies then lset k.chans ch (k.chans.getD ch [] ++ [id]) else k.chans
    loops := if kind == .loopnest then k.loops ++ [id] else k.loops }

/-- A state with one core changed, as its cores are seen. -/
theorem modCore_spec (s : State) (ck : Nat) (f : Core → Core) :
    s.modCore ck f = { s with cores := (s.modCore ck f).cores } ∧ ∀ j, (s.modCore ck f).core j = if j = ck then f (s.core j) else s.core j := by
  refine ⟨rfl, fun j => ?_⟩
  rw [State.modCore_core]
  by_cases hj : ck = j
  · subst hj; simp
  · rw [if_neg hj, if_neg fun h => hj h.symm]

theorem addCmd_spec (s : State) (x : Cmd) :
    let u := s.addCmd x
    u = { s with cmds := s.cmds ++ [x], cores := u.cores } ∧
      ∀ j, u.core j = if j = x.ckey then (s.core j).queued x.kind x.chan x.id else s.core j := by
  unfold State.addCmd Core.queued
  dsimp only
  by_cases hc : x.kind.copies = true
  · have hl : (x.kind == .loopnest) = false := by revert hc; cases x.kind <;> decide
    simp only [hc, hl, if_true, Bool.false_eq_true, if_false]
    exact modCore_spec { s with cmds := s.cmds ++ [x] } x.ckey _
  · by_cases hl : (x.kind == .loopnest) = true
    · simp only [hc, hl, if_true, Bool.false_eq_true, if_false]
      exact modCore_spec { s with cmds := s.cmds ++ [x] } x.ckey _
    · simp only [hc, hl, Bool.false_eq_true, if_false, ite_self]
      exact ⟨trivial, fun _ => rfl⟩

/-- The snapshot of an acquire, and what it leaves. -/
theorem snapshot_spec (s : State) (p core : Nat) (x : Cmd) :
    (s.snapshot p core x).1 = (if x.at 2 1 % 2 = 1 then some (s.die (dieKey p (core / 160))).vec else none) ∧
      (s.snapshot p core x).2 = { s with views := (s.snapshot p core x).2.views } ∧
      (x.at 2 1 % 2 = 0 → (s.snapshot p core x).2.views = s.views) := by
  have hacq : x.acquires = true ↔ x.at 2 1 % 2 = 1 := by
    rw [Cmd.acquires, bits_low, beq_iff_eq]
    rfl
  unfold State.snapshot
  dsimp only
  by_cases h : x.acquires = true
  · rw [if_pos h, if_pos (hacq.mp h)]
    refine ⟨rfl, ?_, fun h0 => by have := hacq.mp h; omega⟩
    dsimp only
    split <;> rfl
  · rw [if_neg h, if_neg fun h' => h (hacq.mpr h')]
    exact ⟨rfl, rfl, fun _ => rfl⟩

theorem foldl_modThr_sameThreads {α : Type} (key : α → Nat) (l : List α) (f : α → Thread → Thread) {s v : State}
    (h : v.threads = s.threads) :
    (l.foldl (fun v a => v.modThr (key a) (f a)) v).threads = (l.foldl (fun v a => v.modThr (key a) (f a)) s).threads := by
  induction l generalizing s v with
  | nil => exact h
  | cons a r ih => exact ih (congrArg (fun ts => tmod ({} : Thread) ts (key a) (f a)) h)

/-- What the last steps of issue leave. -/
theorem issueCmd_spec (s : State) (k : CKind) (c : Site) (d : XReg) (who : Frag) (tid : Nat) (a : W64) (raw : List Byte) :
    let u := s.issueCmd k c d who tid a raw
    let ck := coreKey c.pkg c.core
    u = { s with threads := u.threads, cores := u.cores, wgs := u.wgs, cmds := s.cmds ++ [s.newCmd k c tid a raw], nextId := u.nextId,
                 views := u.views } ∧
      u.threads = (who.foldl (fun v e => v.modThr (thrKey c.wg e.tid) fun t =>
        t.wxs (put32 d ((s.core ck).tseq + 1).toNat)) s).threads ∧
      (∀ j, u.core j = if j = ck then
        { (s.core j).queued k (fld raw 4 1 % 8) s.nextId with tseq := (s.core j).tseq + 1 } else s.core j) ∧
      (∀ j, u.wg j = if j = c.wg then { s.wg j with inelig := (u.wg j).inelig } else s.wg j) ∧
      ((s.wg c.wg).inelig = true ∨ k ∈ [CKind.send, .search, .hspub] → (u.wg c.wg).inelig = true) ∧
      (fld raw 2 1 % 2 = 0 → u.views = s.views) := by
  intro u ck
  generalize hv0 : ({ s with nextId := s.nextId + 1 } : State).modCore ck (fun k => { k with tseq := (s.core ck).tseq + 1 }) = v0
  generalize hv1 : who.foldl (fun v e => v.modThr (thrKey c.wg e.tid) fun t => t.wxs (put32 d ((s.core ck).tseq + 1).toNat)) v0 = v1
  generalize hv2 : (if k.remote || isGroup k raw then v1.spoil c.wg else v1) = v2
  obtain ⟨hf0, hcore0⟩ := modCore_spec { s with nextId := s.nextId + 1 } ck (fun k => { k with tseq := (s.core ck).tseq + 1 })
  obtain ⟨ts, hf1⟩ := foldl_modThr_threads (fun e : Env => thrKey c.wg e.tid) who (fun _ t => t.wxs (put32 d ((s.core ck).tseq + 1).toNat)) v0
  rw [hv0] at hf0 hcore0
  rw [hv1] at hf1
  have hthr : v1.threads = (who.foldl (fun v e => v.modThr (thrKey c.wg e.tid) fun t => t.wxs (put32 d ((s.core ck).tseq + 1).toNat)) s).threads := by
    rw [← hv1]
    exact foldl_modThr_sameThreads _ who _ (by rw [hf0])
  have hf2 : v2 = { v1 with wgs := v2.wgs } := by rw [← hv2]; split <;> rfl
  have hwg1 : v1.wgs = s.wgs := by rw [hf1, hf0]
  have hwg (j : Nat) : v1.wg j = s.wg j := congrArg (tget ({} : Wg) · j) hwg1
  have hwg2 : (∀ j, v2.wg j = if j = c.wg then { s.wg j with inelig := (v2.wg j).inelig } else s.wg j) ∧
      ((s.wg c.wg).inelig = true ∨ k ∈ [CKind.send, .search, .hspub] → (v2.wg c.wg).inelig = true) := by
    rw [← hv2]
    split
    · refine ⟨fun j => ?_, fun _ => by rw [spoil_wg, if_pos rfl]⟩
      rw [spoil_wg, hwg]
      split <;> rfl
    · next hr =>
      refine ⟨fun j => ?_, fun h => ?_⟩
      · rw [hwg, ite_self]
      · rw [hwg]
        refine h.resolve_right fun hk => hr ?_
        have : k.remote = true := by revert hk; cases k <;> decide
        rw [this, Bool.true_or]
  have hdie : v2.die (dieKey c.pkg (c.core / 160)) = s.die (dieKey c.pkg (c.core / 160)) := by rw [hf2, hf1, hf0]; rfl
  have hcore2 (j : Nat) : v2.core j = v0.core j := by rw [hf2, hf1]; rfl
  have hctx : v2.ctx (s.wg c.wg).ctx = s.ctx (s.wg c.wg).ctx := by rw [hf2, hf1, hf0]; rfl
  obtain ⟨hsnap, hframe3, hviews⟩ := snapshot_spec v2 c.pkg c.core
    { s.newCmd k c tid a raw with fn := (v2.ctx (s.wg c.wg).ctx).fn, acq := none }
  generalize hv3 : v2.snapshot c.pkg c.core { s.newCmd k c tid a raw with fn := (v2.ctx (s.wg c.wg).ctx).fn, acq := none } = v3 at *
  have hu : u = v3.2.addCmd { s.newCmd k c tid a raw with fn := (v2.ctx (s.wg c.wg).ctx).fn, acq := v3.1 } := by
    rw [← hv3, ← hv2, ← hv1, ← hv0]
    rfl
  have hx : { s.newCmd k c tid a raw with fn := (v2.ctx (s.wg c.wg).ctx).fn, acq := v3.1 } = s.newCmd k c tid a raw := by
    rw [hsnap, hctx, hdie]
    rfl
  rw [hx] at hu
  obtain ⟨hadd, hcoreA⟩ := addCmd_spec v3.2 (s.newCmd k c tid a raw)
  rw [← hu] at hadd hcoreA
  have hcmds : v3.2.cmds = s.cmds := by rw [hframe3, hf2, hf1, hf0]
  refine ⟨?_, ?_, fun j => ?_, ?_, ?_, fun h0 => ?_⟩
  · rw [hadd, hcmds, hframe3, hf2, hf1, hf0]
  · rw [← hthr, hadd, hframe3, hf2]
  · have h3 : v3.2.core j = if j = ck then { s.core j with tseq := (s.core ck).tseq + 1 } else s.core j := by
      rw [hframe3]
      exact (hcore2 j).trans (hcore0 j)
    rw [hcoreA, show (s.newCmd k c tid a raw).ckey = ck from rfl, h3]
    have hch : (s.newCmd k c tid a raw).chan = fld raw 4 1 % 8 := bits_low _ _
    by_cases hj : j = ck
    · rw [if_pos hj, if_pos hj, if_pos hj, hj, hch]
      rfl
    · rw [if_neg hj, if_neg hj, if_neg hj]
  · rw [hadd, hframe3]; exact hwg2.1
  · rw [hadd, hframe3]; exact hwg2.2
  · have hv : v2.views = s.views := by rw [hf2, hf1, hf0]
    rw [hadd]
    exact (hviews h0).trans hv

theorem exec_tcopy_eq_runWord (e : EArgs) (s : State) : exec (.tcopy e) s =
    runWord (.tcopy e) e.g (rdPlain (.tcopy e)) always (eBody .tcopy e) s := rfl

theorem exec_tgather_eq_runWord (e : EArgs) (s : State) : exec (.tgather e) s =
    runWord (.tgather e) e.g (rdPlain (.tgather e)) always (eBody .tgather e) s := rfl

theorem exec_cavred_eq_runWord (e : EArgs) (s : State) : exec (.cavred e) s =
    runWord (.cavred e) e.g (rdPlain (.cavred e)) always (eBody .cavred e) s := rfl

theorem exec_loopnest_eq_runWord (e : EArgs) (s : State) : exec (.loopnest e) s =
    runWord (.loopnest e) e.g (rdPlain (.loopnest e)) always (eBody .loopnest e) s := rfl

theorem exec_send_eq_runWord (e : EArgs) (s : State) : exec (.send e) s =
    runWord (.send e) e.g (rdPlain (.send e)) always (eBody .send e) s := rfl

theorem exec_search_eq_runWord (e : EArgs) (s : State) : exec (.search e) s =
    runWord (.search e) e.g (rdPlain (.search e)) always (eBody .search e) s := rfl

theorem exec_hspub_eq_runWord (e : EArgs) (s : State) : exec (.hspub e) s =
    runWord (.hspub e) e.g (rdPlain (.hspub e)) always (eBody .hspub e) s := rfl

/-- Every E-form word runs one body. -/
theorem exec_eForm_eq_runWord {a : EArgs} {k : CKind} {i : Instr} (h : (i, k) ∈ [(Instr.tcopy a, CKind.tcopy), (.tgather a, .tgather),
    (.cavred a, .cavred), (.loopnest a, .loopnest), (.send a, .send), (.search a, .search), (.hspub a, .hspub)]) (s : State) :
    exec i s = runWord i a.g (rdPlain i) always (eBody k a) s := by
  simp only [List.mem_cons, Prod.mk.injEq, List.not_mem_nil, or_false] at h
  rcases h with ⟨rfl, rfl⟩ | ⟨rfl, rfl⟩ | ⟨rfl, rfl⟩ | ⟨rfl, rfl⟩ | ⟨rfl, rfl⟩ | ⟨rfl, rfl⟩ | ⟨rfl, rfl⟩
  · exact exec_tcopy_eq_runWord a s
  · exact exec_tgather_eq_runWord a s
  · exact exec_cavred_eq_runWord a s
  · exact exec_loopnest_eq_runWord a s
  · exact exec_send_eq_runWord a s
  · exact exec_search_eq_runWord a s
  · exact exec_hspub_eq_runWord a s

theorem chanFreeFor_of {s : State} {ck ch : Nat} {k : CKind}
    (hc : k ∈ [CKind.tcopy, .tgather, .cavred] → ((s.core ck).chans.getD ch []).length < 16)
    (hl : k = .loopnest → (s.core ck).loops.length < 4) : s.chanFreeFor ck k ch = true := by
  unfold State.chanFreeFor
  cases k with
  | tcopy => exact decide_eq_true (hc (by decide))
  | tgather => exact decide_eq_true (hc (by decide))
  | cavred => exact decide_eq_true (hc (by decide))
  | loopnest => exact decide_eq_true (hl rfl)
  | send => rfl
  | search => rfl
  | hspub => rfl

/-- The queues of a core, as the kind decides. -/
theorem queued_eq (k : Core) (kind : CKind) (ch id : Nat) : k.queued kind ch id = { k with
    chans := if kind ∈ [CKind.tcopy, .tgather, .cavred] then k.chans.set ch (k.chans.getD ch [] ++ [id]) else k.chans
    loops := if kind = .loopnest then k.loops ++ [id] else k.loops } := by
  cases kind <;> rfl

/-- Settles O25: the record is read, STATUS can be written and the queue is free, so the word issues its command. -/
theorem engineCommandsIssue : Obligations.EngineCommandsIssue := by
  unfold Obligations.EngineCommandsIssue
  intro s c a k i p rest pl pl' hi h hfr hq r raw ck s1 hal hres hv hpo hst hchan hloop
  have hread : s.readRec c p.tid r 128 = .bytes raw s1 := readRec_bytes hal hq hres hv hpo
  have h1 : s1 = { s with wgs := s1.wgs } := by
    simp only [s1]
    split <;> rfl
  have h1wg : (∀ j, s1.wg j = if j = c.wg then { s.wg j with inelig := (s1.wg j).inelig } else s.wg j) := fun j => by
    simp only [s1]
    split
    · rw [spoil_wg]
      split <;> rfl
    · rw [ite_self]
  have hcore1 : s1.core ck = s.core ck := by rw [h1]; rfl
  have hbits : bits (fld raw 4 1) 2 0 = fld raw 4 1 % 8 := bits_low _ _
  have hfree : s1.chanFreeFor ck k (bits (fld raw 4 1) 2 0) = true :=
    chanFreeFor_of (by rw [hcore1, hbits]; exact hchan) (by rw [hcore1]; exact hloop)
  have hb : eBody k a s c (s.frag c a.g) (s.frag c a.g) =
      .done (s1.issueCmd k c a.d (s.frag c a.g) p.tid r raw) ((s.frag c a.g).map fun e => (e.tid, .next)) := by
    have hb' : ∀ who, who = p :: rest → eBody k a s c who who = .done (s1.issueCmd k c a.d who p.tid r raw) (who.map fun e => (e.tid, .next)) := by
      rintro who rfl
      unfold eBody
      dsimp only
      rw [show s.readRec c p.tid (BitVec.ofInt 64 ((p.ky a.a.toNat).toNat + 8 * a.off.toInt)) 128 = _ from hread]
      dsimp only
      rw [show s1.resolve c.wg p.tid (BitVec.ofInt 64 ((p.ky a.a.toNat).toNat + 8 * a.off.toInt) + 8) 8 { w := true } = _ from hst]
      dsimp only
      rw [show s1.chanFreeFor (coreKey c.pkg c.core) k (bits (fld raw 4 1) 2 0) = true from hfree, if_neg (by decide)]
    exact hb' _ hfr
  obtain ⟨hframe, hthreads, hcore, hwg, hinel, hviews⟩ := issueCmd_spec s1 k c a.d (s.frag c a.g) p.tid r raw
  generalize s1.issueCmd k c a.d (s.frag c a.g) p.tid r raw = v at *
  obtain ⟨hin, hout, -⟩ := frag_foldl (s := s) s1 (g := a.g) h.nodup fun _ t => t.wxs (put32 a.d ((s1.core ck).tseq + 1).toNat)
  have hvthr (j : Nat) : v.thr j = ((s.frag c a.g).foldl (fun v e => v.modThr (thrKey c.wg e.tid) fun t =>
      t.wxs (put32 a.d ((s1.core ck).tseq + 1).toNat)) s1).thr j := congrArg (tget ({} : Thread) · j) hthreads
  have hs1thr (j : Nat) : s1.thr j = s.thr j := by rw [h1]; rfl
  have hs1core (j : Nat) : s1.core j = s.core j := by rw [h1]; rfl
  have hvout : ∀ j, (∀ e ∈ s.frag c a.g, j ≠ thrKey c.wg e.tid) → v.thr j = s.thr j := fun j hj => by
    rw [hvthr, foldl_modThr c.wg _ Env.tid (fun _ t => t.wxs (put32 a.d ((s1.core ck).tseq + 1).toNat)) s1 (frag_nodup h.nodup a.g),
      find_out _ Env.tid hj]
    exact hs1thr j
  obtain ⟨u, hu, hdo, hkeep, hcores, hall⟩ := goesOn_from (exec_eForm_eq_runWord hi s) h rfl hb hvout
  have hcmd : s1.newCmd k c p.tid r raw = s.newCmd k c p.tid r raw := by
    unfold State.newCmd
    rw [hs1core, h1wg c.wg, if_pos rfl, h1]
    rfl
  have huwg (j : Nat) : u.wg j = v.wg j := by rw [hall]; rfl
  refine ⟨u, _, hu, fun j hj => ?_, hkeep, ?_, rfl, fun j => ?_, fun j => ?_, fun hk => ?_, fun h0 => ?_, ?_⟩
  · have hj' := hdo j hj
    have hvj := hvthr (thrKey c.wg j)
    rw [hin j hj] at hvj
    split
    · next hg =>
      rw [if_pos hg] at hj' hvj
      rw [hj', hvj, hs1core, hs1thr]
    · next hg =>
      rw [if_neg hg] at hj'
      exact hj'
  · rw [hall, hframe, hcmd, h1]
    rfl
  · have hj := hcores j
    rw [hcore, hs1core, h1] at hj
    by_cases hck : j = ck
    · rw [if_pos hck, if_pos hck] at hj
      rw [if_pos hck, hj, queued_eq]
    · rw [if_neg hck, if_neg hck] at hj
      rw [if_neg hck, hj]
  · rw [huwg, hwg, h1wg]
    split <;> rfl
  · rw [huwg]
    exact hinel (.inr hk)
  · have : s1.views = s.views := by rw [h1]
    rw [hall]
    exact (hviews h0).trans this
  · rw [hall, hframe, h1]

end Sys2Proof.Machine

/-! ### How an engine finds its place, and the loop sequencer (14_engines R255, R256, R258) -/

namespace Sys2Proof.Machine

variable {s t u : State}

/-! #### Finding a place -/

/-- Finding a place changes translations and the free-value counter alone. -/
def State.Finds (s t : State) : Prop := t = { s with tick := t.tick, cores := t.cores, dies := t.dies }

theorem fillMicro_finds (s : State) (ck : Nat) (e : TlbEnt) : s.Finds (s.fillMicro ck e) := rfl

theorem fillDie_fillMicro_finds (s : State) (dk ck : Nat) (e e' : TlbEnt) : s.Finds ((s.fillDie dk e).fillMicro ck e') := rfl

theorem translate_finds (s : State) (p core fn va : Nat) : s.Finds (s.translate p core fn va).2 := by
  unfold State.translate
  dsimp only
  split
  · rfl
  · split
    · exact fillMicro_finds _ _ _
    · split
      · exact fillDie_fillMicro_finds _ _ _ _ _
      · rfl

theorem resolve_finds (s : State) (wk tid : Nat) (a : W64) (n : Nat) (want : Want) : s.Finds (s.resolve wk tid a n want).2 := by
  unfold State.resolve
  dsimp only
  split
  · have h := translate_finds s (s.wg wk).pkg (s.wg wk).core (s.ctx (s.wg wk).ctx).fn a.toNat
    split <;> next ht => rw [ht] at h; exact h
  · (repeat' split) <;> rfl

/-- An engine access that finds its place. -/
theorem engFind_finds {c : Cmd} {a : W64} {n : Nat} {want : Want} {q : Place} (h : s.engFind c a n want = (.ok q, t)) : s.Finds t := by
  have hr := resolve_finds s c.wg (c.thr % 2048) a n want
  unfold State.engFind at h
  split at h
  · cases h
  · cases h
  · next ht =>
    rw [ht] at hr
    split at h
    · cases h
    · cases h
      exact hr

theorem State.Finds.mem (h : s.Finds t) : t.mem = s.mem := by rw [show t = _ from h]

theorem State.Finds.cmds (h : s.Finds t) : t.cmds = s.cmds := by rw [show t = _ from h]

theorem State.Finds.threads (h : s.Finds t) : t.threads = s.threads := by rw [show t = _ from h]

theorem State.Finds.wgs (h : s.Finds t) : t.wgs = s.wgs := by rw [show t = _ from h]

theorem State.Finds.accs (h : s.Finds t) : t.accs = s.accs := by rw [show t = _ from h]

theorem State.Finds.empties (h : s.Finds t) : t.empties = s.empties := by rw [show t = _ from h]

theorem State.Finds.memOk (h : s.Finds t) (hm : s.MemOk) : t.MemOk := by
  unfold State.MemOk at *
  rwa [h.mem]

/-! #### Commands -/

/-- Two changes of one command are one change, when the first leaves its number. -/
theorem modCmd_modCmd (s : State) (id : Nat) (f g : Cmd → Cmd) (hf : ∀ c, (f c).id = c.id) :
    (s.modCmd id f).modCmd id g = s.modCmd id (g ∘ f) := by
  unfold State.modCmd
  simp only [List.map_map]
  congr 1
  refine List.map_congr_left fun c _ => ?_
  by_cases hc : c.id = id
  · simp [hc, hf]
  · simp [hc]

/-- The command at the head of a sequencer, in the words of `activeLoop`. -/
theorem activeLoop_getD {c : Cmd} {l : LoopSt} (h : c.loop = some l) : c.loop.getD {} = l := by rw [h]; rfl

/-! #### The tag of a wake word -/

theorem waiter_congr (h : t.accs = s.accs) (w : Nat) (k : AKindM) : t.waiter w k = s.waiter w k := by
  unfold State.waiter
  rw [h]

/-- A fill for which no LDFE waits sets the tag and nothing that the sequencer's neighbours see. -/
theorem engFill_spec {w : Nat} (h : s.waiter w .ldfe = none) :
    s.engFill w = { s with empties := s.empties.filter (· != w), wordVec := (s.engFill w).wordVec } := by
  have hnone : ((s.setTag w true).setFillPast w Vec.zero).waiter w .ldfe = none := (waiter_congr rfl w _).trans h
  unfold State.engFill
  rw [serveLdfe_of_none hnone]
  rfl

theorem engFill_isFull {w : Nat} (h : s.waiter w .ldfe = none) (x : Nat) :
    (s.engFill w).isFull x = if x = w then true else s.isFull x := by
  rw [← isFull_setTag s w true x]
  refine isFull_congr ?_ x
  rw [engFill_spec h]
  rfl

/-! #### Starting an iteration -/

/-- An iteration without a copy step. -/
theorem startIteration_noCopy {c : Cmd} {l : LoopSt} (h : c.hasCopy = false) : s.startIteration c l = s.modLoop c.id fun m =>
    { m with
      next := l.next + 1, permits := m.permits - 1,
      its := m.its ++ [{ j := l.next, planeDone := !c.hasPlane, wakeDone := !c.hasWake, copyDone := true }] } := by
  unfold State.startIteration
  simp [h]

/-! #### Patched records -/

section

variable {r : List Byte} {o : Nat} {b : List Byte} (h : o + b.length ≤ r.length)

include h

theorem length_patch : (patch r o b).length = r.length := by
  unfold patch
  simp only [List.length_append, List.length_take, List.length_drop]
  omega

theorem drop_patch {x : Nat} (hx : o + b.length ≤ x) : (patch r o b).drop x = r.drop x := by
  have hl : (r.take o ++ b).length = o + b.length := by simp only [List.length_append, List.length_take]; omega
  unfold patch
  rw [List.drop_append, List.drop_of_length_le (by omega), List.nil_append, hl, List.drop_drop]
  congr 1
  omega

theorem take_patch : (patch r o b).take o = r.take o := by
  unfold patch
  rw [List.append_assoc, List.take_append_of_le_length (by simp only [List.length_take]; omega), List.take_take, Nat.min_self]

theorem fld_patch_after {x n : Nat} (hx : o + b.length ≤ x) : fld (patch r o b) x n = fld r x n := by
  unfold fld
  rw [drop_patch h hx]

theorem fld_patch_before {x n : Nat} (hx : x + n ≤ o) : fld (patch r o b) x n = fld r x n := by
  have hsame : ∀ l : List Byte, (l.drop x).take n = ((l.take o).drop x).take n := fun l => by
    rw [List.drop_take, List.take_take, Nat.min_eq_left (by omega)]
  unfold fld
  rw [hsame, hsame r, take_patch h]

theorem fld_patch_self : fld (patch r o b) o b.length = leNat b := by
  unfold fld patch
  rw [List.append_assoc, List.drop_append_of_le_length (by simp only [List.length_take]; omega),
    List.drop_of_length_le (by simp only [List.length_take]; omega), List.nil_append, List.take_left]

end

/-! #### The copy step -/

theorem leNat_ofInt (v : Int) : leNat (natLe 8 (BitVec.ofInt 64 v).toNat) = umod 64 v := by
  rw [leNat_natLe, BitVec.toNat_ofInt, Nat.mod_eq_of_lt]
  · rfl
  · exact umod_lt (w := 64) v

theorem chan_lt (c : Cmd) : c.chan < 8 := by
  unfold Cmd.chan
  rw [bits_low]
  omega

/-- The record of the copy step: the template with SRC and DST moved, on the nest's channel, and below bit 32 its other header bytes. -/
theorem copyStep_raw (c : Cmd) (id j : Nat) {t : List Byte} (now : Vec) (ht : t.length = 128) :
    (c.copyStep id j t now).chan = c.chan ∧ fld (c.copyStep id j t now).raw 16 8 = umod 64 (fld t 16 8 + c.offsetOf j 4 4) ∧
      fld (c.copyStep id j t now).raw 24 8 = umod 64 (fld t 24 8 + c.offsetOf j 8 4) ∧
      (c.copyStep id j t now).raw.drop 32 = t.drop 32 := by
  unfold Cmd.copyStep Cmd.chan Cmd.at
  dsimp only
  generalize hm1 : natLe 8 (BitVec.ofInt 64 (fld t 16 8 + c.offsetOf j 4 4)).toNat = m1
  generalize hm2 : natLe 8 (BitVec.ofInt 64 (fld t 24 8 + c.offsetOf j 8 4)).toNat = m2
  have l1 : m1.length = 8 := by rw [← hm1, length_natLe]
  have l2 : m2.length = 8 := by rw [← hm2, length_natLe]
  have v1 : leNat m1 = umod 64 (fld t 16 8 + c.offsetOf j 4 4) := by rw [← hm1, leNat_ofInt]
  have v2 : leNat m2 = umod 64 (fld t 24 8 + c.offsetOf j 8 4) := by rw [← hm2, leNat_ofInt]
  have h1 : 16 + m1.length ≤ t.length := by omega
  have n1 := length_patch h1
  have h2 : 24 + m2.length ≤ (patch t 16 m1).length := by omega
  have n2 := length_patch h2
  have h3 : 4 + [BitVec.ofNat 8 (bits (fld c.raw 4 1) 2 0)].length ≤ (patch (patch t 16 m1) 24 m2).length := by
    simp only [List.length_singleton]; omega
  have n3 := length_patch h3
  have hchan : bits (fld c.raw 4 1) 2 0 < 8 := chan_lt c
  have hheld : ∀ r, r = patch (patch (patch t 16 m1) 24 m2) 4 [BitVec.ofNat 8 (bits (fld c.raw 4 1) 2 0)] →
      bits (fld r 4 1) 2 0 = bits (fld c.raw 4 1) 2 0 ∧ fld r 16 8 = umod 64 (fld t 16 8 + c.offsetOf j 4 4) ∧
        fld r 24 8 = umod 64 (fld t 24 8 + c.offsetOf j 8 4) ∧ r.drop 32 = t.drop 32 := by
    rintro r rfl
    refine ⟨?_, ?_, ?_, ?_⟩
    · rw [show fld (patch (patch (patch t 16 m1) 24 m2) 4 [BitVec.ofNat 8 (bits (fld c.raw 4 1) 2 0)]) 4 1 = _ from fld_patch_self h3]
      generalize bits (fld c.raw 4 1) 2 0 = v at hchan
      rw [bits_low]
      simp [leNat]
      omega
    · rw [fld_patch_after h3 (by simp), fld_patch_before h2 (by omega), ← v1, ← fld_patch_self h1, l1]
    · rw [fld_patch_after h3 (by simp), ← v2, ← fld_patch_self h2, l2]
    · rw [drop_patch h3 (by simp), drop_patch h2 (by omega), drop_patch h1 (by omega)]
  generalize patch (patch (patch t 16 m1) 24 m2) 4 [BitVec.ofNat 8 (bits (fld c.raw 4 1) 2 0)] = r at n3 hheld
  obtain ⟨g1, g2, g3, g4⟩ := hheld r rfl
  split
  · have h4 : ∀ x y : Byte, 2 + [x, y].length ≤ r.length := fun _ _ => by simp only [List.length_cons, List.length_nil]; omega
    refine ⟨?_, ?_, ?_, ?_⟩
    · rw [fld_patch_after (h4 _ _) (by simp), g1]
    · rw [fld_patch_after (h4 _ _) (by simp), g2]
    · rw [fld_patch_after (h4 _ _) (by simp), g3]
    · rw [drop_patch (h4 _ _) (by simp), g4]
  · exact ⟨g1, g2, g3, g4⟩

/-- An iteration with a copy step: the copy command stands behind the others and at the end of the nest's channel. -/
theorem startIteration_copy {c : Cmd} {l : LoopSt} (h : c.hasCopy = true) (ht : l.template.length = 128) :
    let x := c.copyStep s.nextId l.next l.template (s.die c.dkey).vec
    let u := s.startIteration c l
    u.cmds = (s.cmds.map fun x => if x.id == c.id then
        { x with loop := x.loop.map fun m =>
          { m with
            next := l.next + 1, permits := m.permits - 1,
            its := m.its ++ [{
              j := l.next, planeDone := !c.hasPlane, wakeDone := !c.hasWake, copyDone := false, copy := some s.nextId }] } }
        else x) ++ [x] ∧
      (∀ k, u.core k = if k = c.ckey then
          { s.core k with chans := (s.core k).chans.set c.chan ((s.core k).chans.getD c.chan [] ++ [s.nextId]) }
        else s.core k) ∧
      u = { s with cmds := u.cmds, cores := u.cores, nextId := s.nextId + 1 } := by
  intro x u
  obtain ⟨hchan, -, -, -⟩ := copyStep_raw c s.nextId l.next (s.die c.dkey).vec ht
  obtain ⟨hframe, hcore⟩ := addCmd_spec { s with nextId := s.nextId + 1 } x
  have hu : u = (({ s with nextId := s.nextId + 1 } : State).addCmd x).modLoop c.id fun m =>
      { m with
        next := l.next + 1, permits := m.permits - 1,
        its := m.its ++ [{ j := l.next, planeDone := !c.hasPlane, wakeDone := !c.hasWake, copyDone := false, copy := some s.nextId }] } := by
    simp only [u, State.startIteration, h, if_true, State.fresh, x]
    rfl
  have hx : ∀ f : LoopSt → LoopSt, (if x.id == c.id then { x with loop := x.loop.map f } else x) = x := fun f => by
    split <;> rfl
  rw [hu]
  refine ⟨?_, fun k => ?_, ?_⟩
  · have hcm : (({ s with nextId := s.nextId + 1 } : State).addCmd x).cmds = s.cmds ++ [x] := by rw [hframe]
    unfold State.modLoop State.modCmd
    dsimp only
    rw [hcm, List.map_append]
    exact congrArg _ (congrArg (· :: []) (hx _))
  · refine (hcore k).trans ?_
    rw [show x.ckey = c.ckey from rfl, show x.chan = c.chan from hchan]
    rfl
  · conv_lhs => rw [hframe]
    rfl

end Sys2Proof.Machine

/-! ### The loop sequencer (14_engines R255, R256, R258) -/

namespace Sys2Proof.Machine

variable {s t u : State}

/-! #### The plane step -/

/-- An operation with the role of its own enters the queue before the paired ones that came in its cycle. -/
theorem enqueue_spec (q : List PlaneOp) {o : PlaneOp} (h : o.role = 0) :
    ∃ before after, q = before ++ after ∧ (∀ x ∈ after, x.role = 2 ∧ x.cyc = o.cyc) ∧ enqueue q o = before ++ o :: after := by
  have hsplit := List.takeWhile_append_dropWhile (p := fun x : PlaneOp => x.role == 2 && x.cyc == o.cyc) (l := q.reverse)
  generalize hta : q.reverse.takeWhile (fun x => x.role == 2 && x.cyc == o.cyc) = ta at hsplit
  generalize q.reverse.dropWhile (fun x => x.role == 2 && x.cyc == o.cyc) = d at hsplit
  have hq : q = d.reverse ++ ta.reverse := by rw [← List.reverse_append, hsplit, List.reverse_reverse]
  refine ⟨d.reverse, ta.reverse, hq, fun x hx => ?_, ?_⟩
  · rw [List.mem_reverse, ← hta] at hx
    have := List.mem_takeWhile_imp hx
    simpa using this
  · have hlen : q.length - ta.length = d.reverse.length := by rw [hq]; simp
    unfold enqueue
    dsimp only
    rw [if_neg (by omega), hta, hlen, hq, List.take_left, List.drop_left, List.append_assoc]
    rfl

/-- The plane step of an iteration that is not paired. -/
theorem pushLoopOp_spec (s : State) (c : Cmd) (j : Nat) (o : PlaneOp) :
    let op := { o with id := s.nextId, thr := c.thr, wg := c.wg, cyc := s.clockOf c.pkg, pc := 0, role := 0, loop := some c.id }
    s.pushLoopOp c j o false = (({ s with nextId := s.nextId + 1 } : State).push c.ckey op).modLoop c.id fun l =>
      l.modIt j fun x => { x with plane := some s.nextId } := rfl

/-! #### The wake step -/

/-- The value that the wake step writes, with its tag, after the store `v`. -/
theorem wakeStore_spec {v : State} {c : Cmd} {j : Nat} {q : Place} {f : LoopSt → LoopSt} (hf : s.Finds t) (hm : s.MemOk)
    (hst : t.Stores v) (hmem : v.mem = writeBytes s.mem q.loc (natLe 8 j)) (hw : s.waiter (q.loc / 8) .ldfe = none) :
    let u := (v.modLoop c.id f).engFill (q.loc / 8)
    readBytes u.mem q.loc 8 = natLe 8 j ∧ (∀ x, x < q.loc ∨ q.loc + 8 ≤ x → readByte u.mem x = readByte s.mem x) ∧
      u.isFull (q.loc / 8) = true ∧ (∀ w, w ≠ q.loc / 8 → u.isFull w = s.isFull w) ∧
      u.cmds = (s.modLoop c.id f).cmds ∧ u.threads = s.threads ∧ u.wgs = s.wgs ∧ u.accs = s.accs := by
  have hnone : (v.modLoop c.id f).waiter (q.loc / 8) .ldfe = none := by
    rw [← hw]
    exact waiter_congr (hst.accs.trans hf.accs) _ _
  have hfull : ∀ x, ((v.modLoop c.id f).engFill (q.loc / 8)).isFull x = if x = q.loc / 8 then true else s.isFull x := fun x => by
    rw [engFill_isFull hnone x]
    congr 1
    exact isFull_congr (hst.empties.trans hf.empties) x
  have hcmds : (v.modLoop c.id f).cmds = (s.modLoop c.id f).cmds := by
    unfold State.modLoop State.modCmd
    dsimp only
    rw [hst.cmds, hf.cmds]
  have hu := engFill_spec hnone
  intro u
  change u = _ at hu
  have hum : u.mem = writeBytes s.mem q.loc (natLe 8 j) := by rw [hu]; exact hmem
  refine ⟨?_, fun x hx => ?_, ?_, fun w hne => ?_, ?_, ?_, ?_, ?_⟩
  · rw [hum]
    have := readBytes_writeBytes hm q.loc (natLe 8 j)
    rwa [length_natLe] at this
  · rw [hum]
    exact readByte_writeBytes_out _ _ _ _ (by rwa [length_natLe])
  · exact (hfull _).trans (if_pos rfl)
  · exact (hfull _).trans (if_neg hne)
  · rw [hu]
    exact hcmds
  · rw [hu]
    exact hst.threads.trans hf.threads
  · rw [hu]
    exact hst.wgs.trans hf.wgs
  · rw [hu]
    exact hst.accs.trans hf.accs

/-- A wake word that is empty, and which no iteration before has filled, is free. -/
theorem wakeFull_of {its : List LoopIt} {w : Nat} (hf : s.Finds t) (he : s.isFull w = false)
    (h : ∀ k ∈ its, k.wake = some w → k.emptied = true) : t.wakeFull its w = false := by
  unfold State.wakeFull
  rw [isFull_congr hf.empties, he, Bool.false_or, List.any_eq_false]
  intro k hk
  simp only [Bool.and_eq_true, beq_iff_eq, Bool.not_eq_true', not_and, Bool.not_eq_false]
  exact h k hk

/-! #### The obligation -/

/-- Settles O46: each clause follows one branch of the sequencer's events; a copy step's record is the template patched twice, a plane step
stands before the paired operations of its cycle, and a wake step writes one word and its tag. -/
theorem loopsIterate : Obligations.LoopsIterate := by
  unfold Obligations.LoopsIterate
  intro s p core c hc upd
  refine ⟨?_, ?_, ?_, ?_, ?_, ?_, ?_⟩
  · intro hfin hpark hstop hidle hloop hok hcopy
    show execLoopIterationStart p core s = _
    simp only [execLoopIterationStart, hc, hfin, hpark, hstop, hidle, hloop, hok, hcopy]
    rfl
  · intro l hfin hpark hstop hidle hloop hgo hnext hperm hcopy
    show execLoopIterationStart p core s = _
    simp only [execLoopIterationStart, hc, hfin, hpark, hstop, hidle, hloop, hgo, hcopy]
    rw [if_neg (by simp), if_neg (by simp; omega), startIteration_noCopy hcopy]
    rfl
  · intro l hfin hpark hstop hidle hloop hgo hnext hperm hcopy ht hroom
    obtain ⟨hcmds, hcore, hframe⟩ := startIteration_copy (s := s) hcopy ht
    obtain ⟨hchan, hsrc, hdst, hrest⟩ := copyStep_raw c s.nextId l.next (s.die c.dkey).vec ht
    have hfree : s.chanFreeFor c.ckey .tcopy c.chan = true := decide_eq_true hroom
    refine ⟨s.startIteration c l, c.copyStep s.nextId l.next l.template (s.die c.dkey).vec, ?_, rfl, rfl, rfl, rfl, rfl, hchan, hsrc, hdst,
      hrest, hcmds, hcore, hframe⟩
    show execLoopIterationStart p core s = _
    simp only [execLoopIterationStart, hc, hfin, hpark, hstop, hidle, hloop, hgo, hcopy, hfree]
    rw [if_neg (by simp), if_neg (by simp; omega)]
  · intro l i o hloop hit hcopied hstop hop hroom op
    obtain ⟨before, after, hq, hafter, henq⟩ := enqueue_spec (s.core c.ckey).pq (o := op) rfl
    obtain ⟨hframe, hcore⟩ := modCore_spec { s with nextId := s.nextId + 1 } c.ckey fun k => { k with pq := enqueue k.pq op }
    have hcore' : ∀ k, (s.pushLoopOp c i.j o false).core k = if k = c.ckey then
        { s.core k with pq := enqueue (s.core k).pq op } else s.core k := hcore
    refine ⟨s.pushLoopOp c i.j o false, before, after, ?_, hq, hafter, ?_, fun k => ?_, rfl, rfl⟩
    · show execLoopPlaneStep p core s = _
      have hfree : s.pqFree c.ckey = true := decide_eq_true hroom
      simp only [execLoopPlaneStep, hc, activeLoop_getD hloop, hit, hcopied, hstop, hop, hfree]
      rfl
    · rw [hcore', if_pos rfl]
      exact henq
    · rw [hcore']
      split <;> rfl
  · intro l i q t hloop hit hcopied hplane hstop hfind hm _ hq hempty hwakes hnone
    have hf := engFind_finds hfind
    let mode : StoreMode := { acc := c.id, launch := c.launchid, repl := q.repl }
    have hmem : (t.homeStore q.loc 8 (BitVec.ofNat 64 i.j) mode).mem = writeBytes s.mem q.loc (natLe 8 i.j) := by
      rw [homeStore_mem_eq (hf.memOk hm) _ _ (by omega), hf.mem, natLe_ofNat64]
    refine ⟨_, ?_, wakeStore_spec (c := c) (f := fun l => l.modIt i.j fun k => { k with wake := some (q.loc / 8), wakeDone := true })
      hf hm (homeStore_stores t q.loc 8 _ mode) hmem hnone⟩
    show execLoopWakeFill p core s = _
    simp only [execLoopWakeFill, hc, activeLoop_getD hloop, hit, hcopied, hplane, hstop, hfind, wakeFull_of hf hempty hwakes]
    rfl
  · intro l i hloop hit
    show execLoopPermitReturn p core s = _
    simp only [execLoopPermitReturn, hc, activeLoop_getD hloop, hit]
    rfl
  · intro l hidle hdone hloop
    have habort : exec (.loopnestAbort p core) s = .next ((s.modLoop c.id fun m =>
        { m with
          stopped := true,
          its := m.its.map fun i => if s.fillWaits c l i then { i with wakeDone := true, emptied := true } else i }).modCmd
        c.id fun x => { x with code := if x.code = 0 then 6 else x.code }) := by
      show execLoopnestAbort p core s = _
      simp only [execLoopnestAbort, hc, hidle, hdone, hloop]
      rfl
    refine ⟨_, habort, ?_, ?_⟩
    · unfold State.modLoop
      rw [modCmd_modCmd]
      · rfl
      · exact fun _ => rfl
    · rfl

end Sys2Proof.Machine

/-! ### Copies within SCRATCH (14_engines R242, R243, R245) -/

namespace Sys2Proof.Machine

variable {s t u : State}

/-! #### Engine accesses to SCRATCH -/

theorem locScratch_add (p c b o : Nat) : locScratch p c (b + o) = locScratch p c b + o := by
  unfold locScratch
  omega

/-- The SCRATCH address of an offset, as a number. -/
theorem scratchAddr_toNat {o : Nat} (h : o < 2 ^ 18) : (BitVec.ofNat 64 (0xFFFF000000000000 + o)).toNat = 0xFFFF000000000000 + o := by
  rw [BitVec.toNat_ofNat]
  omega

theorem scratchAddr_add (o b : Nat) :
    BitVec.ofNat 64 (0xFFFF000000000000 + o) + BitVec.ofNat 64 b = BitVec.ofNat 64 (0xFFFF000000000000 + (o + b)) := by
  rw [← BitVec.ofNat_add, Nat.add_assoc]

/-- The place of an offset in a workgroup's SCRATCH. -/
def State.scratchPlace (s : State) (wk o : Nat) : Place :=
  { loc := locScratch (s.wg wk).pkg (s.wg wk).core ((s.wg wk).scrBase + o), own := true }

/-- An engine finds a place in SCRATCH without a translation. -/
theorem engFind_scratch (s : State) (c : Cmd) {o n : Nat} (want : Want) (hx : want.x = false) (hn : 0 < n) (h : o + n ≤ (s.wg c.wg).scrSize)
    (hsize : (s.wg c.wg).scrSize ≤ 2 ^ 18) :
    s.engFind c (BitVec.ofNat 64 (0xFFFF000000000000 + o)) n want = (.ok (s.scratchPlace c.wg o), s) := by
  have ho : o < 2 ^ 18 := by omega
  unfold State.engFind State.resolve vaultAp stackAp scratchAp
  dsimp only
  rw [scratchAddr_toNat ho, if_neg (by omega), hx, if_neg (by decide), if_neg (by simp; omega), if_neg (by simp; omega),
    if_pos (by simp; omega), Nat.add_sub_cancel_left]
  unfold inAlloc
  rw [if_pos h]
  rfl

/-- A source byte in SCRATCH that is not poisoned is read as it stands. -/
theorem engByte_scratch {c : Cmd} {o : Nat} (h : o < (s.wg c.wg).scrSize) (hsize : (s.wg c.wg).scrSize ≤ 2 ^ 18)
    (hpois : s.isPoisoned (s.scratchPlace c.wg o).loc 1 = false) (haccs : ∀ a ∈ s.accs, a.thr ≠ c.thr) (hacq : c.acq = none)
    (hover : c.overlaps = false) :
    s.engByte c (BitVec.ofNat 64 (0xFFFF000000000000 + o)) = (.ok (readByte s.mem (s.scratchPlace c.wg o).loc), s) := by
  have hready : s.engReady c (s.scratchPlace c.wg o) = true := by
    unfold State.engReady
    simp only [hacq, Bool.and_true, List.all_eq_true]
    intro a ha
    simp [haccs a ha]
  unfold State.engByte
  rw [engFind_scratch s c { r := true } rfl (by decide) h hsize]
  dsimp only
  rw [hpois, hready]
  unfold State.sourceByte
  rw [hover]
  rfl

/-- A run of source bytes, each read as it stands. -/
theorem engRun_reads {src : State → Nat → Except Stop Byte × State} {f : Nat → Byte} (n b : Nat)
    (h : ∀ i, b ≤ i → i < b + n → src s i = (.ok (f i), s)) : engRun src n b s = (((List.range' b n).map f, none), s) := by
  induction n generalizing b with
  | zero => rfl
  | succ n ih =>
    rw [engRun, h b (by omega) (by omega)]
    dsimp only
    rw [ih (b + 1) fun i hi hl => h i (by omega) (by omega)]
    rfl

theorem readBytes_eq_range' (m : List Host.Cell) (l b n : Nat) : readBytes m (l + b) n = (List.range' b n).map fun i => readByte m (l + i) := by
  induction n generalizing b with
  | zero => rfl
  | succ n ih => rw [readBytes, Nat.add_assoc, ih (b + 1)]; rfl

/-! #### Engine writes -/

theorem homeWord_poison (s : State) (w : Nat) (v : W64) (m : StoreMode) : (s.homeWord w v m).poison = s.poison := by
  cases hs : isScratch (8 * w) with
  | true =>
    have hk := keepOld_frame s w
    rw [homeWord_of_scratch s v m hs]
    show (s.keepOld w).poison = _
    rw [hk]
  | false =>
    obtain ⟨_, _, _, _, _, _, hu⟩ := homeWord_of_not_scratch s v m hs
    rw [hu]

/-- A store poisons nothing. -/
theorem homeStore_isPoisoned {loc n : Nat} {d : W64} {m : StoreMode} {x k : Nat} (h : s.isPoisoned x k = false) :
    (s.homeStore loc n d m).isPoisoned x k = false := by
  have hsub : ∀ w ∈ (s.homeStore loc n d m).poison, w ∈ s.poison := by
    unfold State.homeStore
    dsimp only
    split
    · intro w hw
      rw [← homeWord_poison s]
      exact (List.mem_filter.mp hw).1
    · rw [homeWord_poison]
      exact fun _ => id
  unfold State.isPoisoned at *
  rw [List.any_eq_false] at *
  exact fun w hw => h w (hsub w hw)

/-- An engine write of a command that does not fill, within one word. -/
theorem engStore_spec (hm : s.MemOk) (c : Cmd) (p : Place) {b : List Byte} (h : p.loc % 8 + b.length ≤ 8) :
    s.Stores (s.engStore c p b false) ∧ (s.engStore c p b false).mem = writeBytes s.mem p.loc b ∧
      ∀ x k, s.isPoisoned x k = false → (s.engStore c p b false).isPoisoned x k = false := by
  let m : StoreMode := { acc := c.id, launch := c.launchid, repl := p.repl }
  have hst := homeStore_stores s p.loc b.length (BitVec.ofNat 64 (leNat b)) m
  have hlt : leNat b < 2 ^ 64 := by
    have := leNat_lt b
    have h256 : 256 ^ b.length ≤ 256 ^ 8 := Nat.pow_le_pow_right (by decide) (by omega)
    omega
  have hmem : (s.homeStore p.loc b.length (BitVec.ofNat 64 (leNat b)) m).mem = writeBytes s.mem p.loc b := by
    rw [homeStore_mem_eq hm _ _ h, BitVec.toNat_ofNat, Nat.mod_eq_of_lt hlt, natLe_leNat]
  have hpois : ∀ x k, s.isPoisoned x k = false → (s.homeStore p.loc b.length (BitVec.ofNat 64 (leNat b)) m).isPoisoned x k = false :=
    fun _ _ => homeStore_isPoisoned
  unfold State.engStore
  dsimp only
  change s.Stores _ at hst
  rw [if_neg Bool.false_ne_true]
  generalize s.homeStore p.loc b.length (BitVec.ofNat 64 (leNat b)) m = v at *
  split
  · refine ⟨⟨?_, hst.cores⟩, hmem, hpois⟩
    conv_lhs => rw [hst.frame]
    rfl
  · exact ⟨hst, hmem, hpois⟩

/-- A write of a local command that is no re-execution, in a launch that is not replayable. -/
theorem engPut_eq {c : Cmd} {a : W64} {p : Place} {b : List Byte} (hrepl : (s.launchOf (s.wg c.wg)).replayable = false)
    (hredo : s.redoing c.wg = false) (hover : c.overlaps = false) : s.engPut c a p b = s.engStore c p b c.fills := by
  unfold State.engPut State.digest State.keepBytes
  rw [hrepl]
  simp only [Bool.false_eq_true, if_false, hredo, Bool.false_and, hover, Bool.not_false, if_true]

/-! #### Units of a copy -/

/-- `dst` runs through SCRATCH from offset `d` on, over `rb` bytes. -/
def RunsFrom (dst : Nat → W64) (d rb : Nat) : Prop := ∀ b < rb, dst b = BitVec.ofNat 64 (0xFFFF000000000000 + (d + b))

/-- One unit goes to the end of its destination word, or of the run. -/
theorem unitLen_runs {dst : Nat → W64} {d rb b left : Nat} (hdst : RunsFrom dst d rb) (hrb : d + rb ≤ 2 ^ 18) (hleft : 0 < left)
    (hb : b + left ≤ rb) : unitLen dst b left = min (8 - (d + b) % 8) left := by
  have hword : (dst b).toNat % 8 = (d + b) % 8 := by
    rw [hdst b (by omega), scratchAddr_toNat (by omega)]
    omega
  have hall : ∀ i ∈ List.range (min (8 - (dst b).toNat % 8) left), (dst (b + i) == dst b + BitVec.ofNat 64 i) = true := fun i hi => by
    have hi := List.mem_range.mp hi
    rw [beq_iff_eq, hdst b (by omega), hdst (b + i) (by omega), scratchAddr_add, Nat.add_assoc]
  unfold unitLen together
  rw [List.takeWhile_eq_self_iff.mpr hall, List.length_range, hword]
  omega

/-- A copy of `rb` bytes within SCRATCH from offset `so` to offset `d`, by a command that performs alone and plainly. -/
structure Cmd.CopiesIn (s : State) (c : Cmd) (so d rb : Nat) : Prop where
  memOk : s.MemOk
  accs : ∀ a ∈ s.accs, a.thr ≠ c.thr
  acq : c.acq = none
  overlaps : c.overlaps = false
  fills : c.fills = false
  replayable : (s.launchOf (s.wg c.wg)).replayable = false
  redoing : s.redoing c.wg = false
  size : (s.wg c.wg).scrSize ≤ 2 ^ 18
  base : (s.wg c.wg).scrBase % 8 = 0
  src : so + rb ≤ (s.wg c.wg).scrSize
  dst : d + rb ≤ (s.wg c.wg).scrSize
  apart : so + rb ≤ d ∨ d + rb ≤ so
  poison : ∀ x < rb, s.isPoisoned ((s.scratchPlace c.wg so).loc + x) 1 = false

section

variable {c : Cmd} {so d rb : Nat}

theorem scratchPlace_congr (h : t.wgs = s.wgs) (wk o : Nat) : t.scratchPlace wk o = s.scratchPlace wk o := by
  unfold State.scratchPlace State.wg
  rw [h]

theorem scratchPlace_add (s : State) (wk o b : Nat) : (s.scratchPlace wk (o + b)).loc = (s.scratchPlace wk o).loc + b := by
  unfold State.scratchPlace
  dsimp only
  rw [← Nat.add_assoc, locScratch_add]

theorem scratchPlace_word (h : (s.wg c.wg).scrBase % 8 = 0) (o : Nat) : (s.scratchPlace c.wg o).loc % 8 = o % 8 := by
  unfold State.scratchPlace locScratch pkgSpan
  dsimp only
  omega

/-- What stores leave of the conditions of a copy. -/
theorem Cmd.CopiesIn.of_stores (h : c.CopiesIn s so d rb) (hst : s.Stores t) (hm : t.MemOk)
    (hp : ∀ x k, s.isPoisoned x k = false → t.isPoisoned x k = false) : c.CopiesIn t so d rb := by
  have hwg : t.wg c.wg = s.wg c.wg := by unfold State.wg; rw [hst.wgs]
  have hlaunch : t.launchOf (t.wg c.wg) = s.launchOf (s.wg c.wg) := by rw [hwg, hst.frame]; rfl
  have hredo : t.redoing c.wg = s.redoing c.wg := by rw [hst.frame]; rfl
  refine ⟨hm, ?_, h.acq, h.overlaps, h.fills, ?_, ?_, ?_, ?_, ?_, ?_, h.apart, fun x hx => ?_⟩
  · rw [hst.accs]; exact h.accs
  · rw [hlaunch]; exact h.replayable
  · rw [hredo]; exact h.redoing
  · rw [hwg]; exact h.size
  · rw [hwg]; exact h.base
  · rw [hwg]; exact h.src
  · rw [hwg]; exact h.dst
  · rw [scratchPlace_congr hst.wgs]
    exact hp _ _ (h.poison x hx)

variable {src : State → Nat → Except Stop Byte × State} {dst : Nat → W64}

/-- The bytes from `b` on, delivered a destination word at a time, come to stand as the source holds them. -/
theorem copyUnits_spec (hsrc : ∀ v b, b < rb → src v b = v.engByte c (BitVec.ofNat 64 (0xFFFF000000000000 + (so + b))))
    (hdst : RunsFrom dst d rb) (f : Nat) : ∀ (s : State) (b left : Nat), c.CopiesIn s so d rb → left ≤ f → b + left ≤ rb →
    ∃ v, copyUnits c src dst f b left s = ((left, none), v) ∧ s.Stores v ∧
      v.mem = writeBytes s.mem ((s.scratchPlace c.wg d).loc + b) (readBytes s.mem ((s.scratchPlace c.wg so).loc + b) left) := by
  induction f with
  | zero =>
    intro s b left h hf hb
    obtain rfl : left = 0 := by omega
    exact ⟨s, rfl, .refl s, rfl⟩
  | succ f ih =>
    intro s b left h hf hb
    rcases Nat.eq_zero_or_pos left with rfl | hpos
    · exact ⟨s, by rw [copyUnits, if_pos rfl], .refl s, rfl⟩
    · have hsize := h.size
      have hdin := h.dst
      have hsin := h.src
      have hn := unitLen_runs (b := b) hdst (by omega) hpos hb
      generalize hk : unitLen dst b left = n at hn
      have hword := scratchPlace_word h.base (d + b)
      have hread : engRun src n b s = ((readBytes s.mem ((s.scratchPlace c.wg so).loc + b) n, none), s) := by
        rw [readBytes_eq_range']
        refine engRun_reads n b fun i hi hl => ?_
        rw [hsrc s i (by omega), engByte_scratch (by omega) hsize (by rw [scratchPlace_add]; exact h.poison i (by omega)) h.accs h.acq
          h.overlaps, scratchPlace_add]
      generalize hl : readBytes s.mem ((s.scratchPlace c.wg so).loc + b) n = l at hread
      have hlen : l.length = n := by rw [← hl, readBytes_eq_map]; simp
      obtain ⟨hst, hmem, hpois⟩ := engStore_spec h.memOk c (s.scratchPlace c.wg (d + b)) (b := l) (by omega)
      have hput : s.engPut c (dst b) (s.scratchPlace c.wg (d + b)) l = s.engStore c (s.scratchPlace c.wg (d + b)) l false := by
        rw [engPut_eq h.replayable h.redoing h.overlaps, h.fills]
      generalize s.engStore c (s.scratchPlace c.wg (d + b)) l false = w at hst hmem hpois hput
      have hwm : w.MemOk := by
        unfold State.MemOk
        rw [hmem]
        exact wf_writeBytes _ _ h.memOk
      obtain ⟨v, hrest, hvst, hvmem⟩ := ih w (b + n) (left - n) (h.of_stores hst hwm hpois) (by omega) (by omega)
      refine ⟨v, ?_, hst.trans hvst, ?_⟩
      · rw [copyUnits, if_neg (by omega)]
        dsimp only
        rw [hk, hdst b (by omega), engFind_scratch s c _ rfl (by omega) (by omega) hsize]
        dsimp only
        rw [hread]
        dsimp only
        rw [h.fills, hlen, ← hdst b (by omega)]
        simp only [Bool.false_and, Bool.false_eq_true, if_false]
        rw [if_neg (by omega), List.take_of_length_le (by omega), hput, hrest]
        dsimp only
        congr 2
        omega
      · have hap := h.apart
        have hstay : readBytes w.mem ((s.scratchPlace c.wg so).loc + (b + n)) (left - n) =
            readBytes s.mem ((s.scratchPlace c.wg so).loc + (b + n)) (left - n) := by
          rw [hmem]
          refine readBytes_writeBytes_out _ _ ?_
          rw [scratchPlace_add, hlen]
          unfold State.scratchPlace
          dsimp only
          rw [locScratch_add, locScratch_add]
          omega
        rw [hvmem, scratchPlace_congr hst.wgs, scratchPlace_congr hst.wgs, hstay, hmem, scratchPlace_add]
        have hsplit := readBytes_append s.mem ((s.scratchPlace c.wg so).loc + b) n (left - n)
        rw [Nat.add_sub_cancel' (by omega)] at hsplit
        rw [hsplit, hl, writeBytes_append, hlen, Nat.add_assoc, Nat.add_assoc]

end

end Sys2Proof.Machine

/-! ### Pieces of a copy (14_engines R243) -/

namespace Sys2Proof.Machine

variable {s t u : State}

/-- What holds of a piece from byte `b` on that has grown to `n` of `left` bytes: whole destination words, and of a 4 KiB chunk no more than
the word that ends it. -/
structure PieceAt (d b left n : Nat) : Prop where
  le : n ≤ left
  short : n ≤ 256
  whole : n = 0 ∨ (d + b + n) % 8 = 0 ∨ n = left
  chunk : b % 4096 + n < 4096 + 8
  edge : 4096 < b % 4096 + n → (d + (b - b % 4096) + 4095) / 8 = (d + b + n - 1) / 8

theorem scratchAddr_div (x : Nat) : (0xFFFF000000000000 + x) / 8 = 0x1FFFE00000000000 + x / 8 := by omega

section

variable {dst : Nat → W64} {d rb b left n : Nat} (hdst : RunsFrom dst d rb) (hrb : d + rb ≤ 2 ^ 18) (hb : b + left ≤ rb)

include hdst hrb hb

/-- A piece that has reached the end of its chunk stops. -/
theorem chunkEdge_of_end (h : PieceAt d b left n) (hn : 0 < n) (hend : 4096 ≤ b % 4096 + n) : chunkEdge dst 4096 (b + n) = true := by
  have hle := h.le
  have hchunk := h.chunk
  have hm : (b + n) / 4096 * 4096 = b - b % 4096 + 4096 := by omega
  unfold chunkEdge
  dsimp only
  rw [hm]
  rcases Nat.lt_or_ge 4096 (b % 4096 + n) with hpast | hat
  · have hword := h.edge hpast
    have hsame : (dst (b - b % 4096 + 4096 - 1)).toNat / 8 = (dst (b + n - 1)).toNat / 8 := by
      rw [hdst _ (by omega), hdst _ (by omega), scratchAddr_toNat (by omega), scratchAddr_toNat (by omega), scratchAddr_div, scratchAddr_div,
        show (d + (b - b % 4096 + 4096 - 1)) = d + (b - b % 4096) + 4095 by omega, hword, show d + (b + n - 1) = d + b + n - 1 by omega]
    have hruns : dst (b + n - 1) = dst (b - b % 4096 + 4096 - 1) + BitVec.ofNat 64 (b + n - (b - b % 4096 + 4096)) := by
      rw [hdst _ (by omega), hdst _ (by omega), scratchAddr_add,
        show d + (b - b % 4096 + 4096 - 1) + (b + n - (b - b % 4096 + 4096)) = d + (b + n - 1) by omega]
    rw [hsame, ← hruns]
    simp
  · rw [show b - b % 4096 + 4096 = b + n by omega]
    simp

/-- The next unit keeps the piece in bounds. -/
theorem pieceAt_grow (hlt : n < left) (hin : b % 4096 + n < 4096)
    (hfit : n + unitLen dst (b + n) (left - n) ≤ 256) : PieceAt d b left (n + unitLen dst (b + n) (left - n)) := by
  rw [unitLen_runs (b := b + n) hdst hrb (by omega) (by omega)] at hfit ⊢
  exact ⟨by omega, hfit, by omega, by omega, by omega⟩

theorem pieceGo_spec (f n : Nat) (h : PieceAt d b left n) (hf : 0 < f + n) (hleft : 0 < left) :
    PieceAt d b left (pieceGo dst 4096 f b left n) ∧ 0 < pieceGo dst 4096 f b left n := by
  induction f generalizing n with
  | zero => exact ⟨h, by unfold pieceGo; omega⟩
  | succ f ih =>
    have hle := h.le
    have hwhole := h.whole
    rw [pieceGo]
    by_cases hstop : (decide (left ≤ n) || (decide (0 < n) && chunkEdge dst 4096 (b + n))) = true
    · rw [if_pos hstop]
      refine ⟨h, Nat.pos_of_ne_zero fun h0 => ?_⟩
      simp [h0] at hstop
      omega
    · rw [if_neg hstop]
      have hlt : n < left := by
        by_contra hge
        exact hstop (by simp [Nat.not_lt.mp hge])
      have hin : b % 4096 + n < 4096 := by
        by_contra hge
        have hpos : 0 < n := by omega
        exact hstop (by rw [chunkEdge_of_end hdst hrb hb h hpos (by omega)]; simp [hpos])
      have hk := unitLen_runs (b := b + n) hdst hrb (left := left - n) (by omega) (by omega)
      dsimp only
      by_cases hfit : 256 < n + unitLen dst (b + n) (left - n)
      · rw [if_pos hfit]
        exact ⟨h, by omega⟩
      · rw [if_neg hfit]
        exact ih _ (pieceAt_grow hdst hrb hb hlt hin (by omega)) (by omega)

/-- A piece is not empty, and stands within its bounds. -/
theorem pieceLen_spec (hleft : 0 < left) : PieceAt d b left (pieceLen dst 4096 b left) ∧ 0 < pieceLen dst 4096 b left :=
  pieceGo_spec hdst hrb hb 256 0 ⟨by omega, by omega, .inl rfl, by omega, by omega⟩ (by omega) hleft

end

/-- A piece of a copy within SCRATCH. -/
theorem piece_spec {c : Cmd} {so d rb n : Nat} {src : State → Nat → Except Stop Byte × State} {dst : Nat → W64} (h : c.CopiesIn s so d rb)
    (hsrc : ∀ v b, b < rb → src v b = v.engByte c (BitVec.ofNat 64 (0xFFFF000000000000 + (so + b)))) (hdst : RunsFrom dst d rb) {b : Nat}
    (hn : b + n ≤ rb) : ∃ v, s.Stores v ∧ s.piece c src dst b n = v.modCmd c.id (fun x => { x with sent := x.sent + n }) ∧
      v.mem = writeBytes s.mem ((s.scratchPlace c.wg d).loc + b) (readBytes s.mem ((s.scratchPlace c.wg so).loc + b) n) := by
  obtain ⟨v, hunits, hst, hmem⟩ := copyUnits_spec hsrc hdst (n + 1) s b n h (by omega) hn
  refine ⟨v, hst, ?_, hmem⟩
  unfold State.piece
  rw [hunits]

/-! ### Records of one row in SCRATCH (14_engines R245) -/

/-- What `shape` admits is the raw shape. -/
theorem shape_eq_raw {c : Cmd} {h : Shape} (hs : c.shape = some h) : h = c.shapeRaw := by
  unfold Cmd.shape at hs
  dsimp only at hs
  split at hs
  · exact (Option.some.inj hs).symm
  · cases hs

/-- The bytes of one row stand one after the other. -/
theorem row_runs {h : Shape} {so d : Nat} (hsrc : h.src = BitVec.ofNat 64 (0xFFFF000000000000 + so))
    (hdst : h.dst = BitVec.ofNat 64 (0xFFFF000000000000 + d)) :
    (∀ b < h.rb, h.srcAt b = BitVec.ofNat 64 (0xFFFF000000000000 + (so + b))) ∧ RunsFrom h.dstAt d h.rb := by
  have hrow : ∀ b < h.rb, ∀ st, b / h.rb * st + b % h.rb = b := fun b hb st => by
    rw [Nat.div_eq_of_lt hb, Nat.mod_eq_of_lt hb, Nat.zero_mul, Nat.zero_add]
  refine ⟨fun b hb => ?_, fun b hb => ?_⟩
  · rw [Shape.srcAt, hrow b hb, hsrc, scratchAddr_add]
  · rw [Shape.dstAt, hrow b hb, hdst, scratchAddr_add]

theorem fld_lt (r : List Byte) (o n : Nat) : fld r o n < 256 ^ n := by
  unfold fld
  refine Nat.lt_of_lt_of_le (leNat_lt _) (Nat.pow_le_pow_right (by decide) ?_)
  simp

/-- A TCOPY of one row whose source and destination do not overlap. -/
theorem row_apart {c : Cmd} {so d : Nat} (hkind : c.kind = .tcopy) (hrows : c.shapeRaw.rows = 1)
    (hsrc : c.shapeRaw.src = BitVec.ofNat 64 (0xFFFF000000000000 + so)) (hdst : c.shapeRaw.dst = BitVec.ofNat 64 (0xFFFF000000000000 + d))
    (hso : so < 2 ^ 18) (hd : d < 2 ^ 18) (hover : c.overlaps = false) : so + c.shapeRaw.rb ≤ d ∨ d + c.shapeRaw.rb ≤ so := by
  have hfield : ∀ o x, x < 2 ^ 18 → c.addrAt o = BitVec.ofNat 64 (0xFFFF000000000000 + x) → c.at o 8 = 0xFFFF000000000000 + x := by
    intro o x hx h
    have h := congrArg BitVec.toNat h
    rw [scratchAddr_toNat hx, Cmd.addrAt, BitVec.toNat_ofNat, Nat.mod_eq_of_lt (show c.at o 8 < 2 ^ 64 from fld_lt _ _ 8)] at h
    exact h
  have h16 := hfield 16 so hso hsrc
  have h24 := hfield 24 d hd hdst
  have h32 : c.at 32 4 = 1 := hrows
  unfold Cmd.overlaps at hover
  rw [hkind] at hover
  simp only [h16, h24, h32, spansMeet, Bool.and_eq_false_iff, decide_eq_false_iff_not] at hover
  show so + c.at 36 4 ≤ d ∨ d + c.at 36 4 ≤ so
  omega

end Sys2Proof.Machine

/-! ### Copies, completions and messages (14_engines R241 to R245, 19_queue_instr R306, R308, R309) -/

namespace Sys2Proof.Machine

variable {s t u : State}

/-! #### Copy channels -/

/-- The pointer of a copy channel passes bytes that stand visible. -/
theorem countCopy_spec {c : Cmd} (h : s.pendingIn c.id c.pkg c.die = false) :
    let n := min 256 (c.sent - c.pos)
    let u := s.countCopy c
    u.cmds = (s.cmds.map fun x => if x.id == c.id then { x with pos := x.pos + n } else x) ∧
      (∀ k, u.core k = if k = c.ckey then
          { s.core k with
            perf := (u.core k).perf, wptr := (s.core k).wptr.set c.chan ((s.core k).wptr.getD c.chan 0 + BitVec.ofNat 64 n) }
        else s.core k) ∧
      u = { s with cmds := u.cmds, cores := u.cores } := by
  intro n u
  have hu : u = ((s.modCmd c.id fun x => { x with pos := x.pos + n }).modCore c.ckey fun m =>
      { m with wptr := lset m.wptr c.chan (m.wptr.getD c.chan 0 + BitVec.ofNat 64 n) }).count c.ckey 5 n := by
    simp only [u, State.countCopy, h]
    rfl
  rw [hu]
  refine ⟨rfl, fun k => ?_, rfl⟩
  have h1 := (modCore_spec (s.modCmd c.id fun x => { x with pos := x.pos + n }) c.ckey fun m =>
      { m with wptr := lset m.wptr c.chan (m.wptr.getD c.chan 0 + BitVec.ofNat 64 n) }).2 k
  generalize (s.modCmd c.id fun x => { x with pos := x.pos + n }).modCore c.ckey (fun m =>
      { m with wptr := lset m.wptr c.chan (m.wptr.getD c.chan 0 + BitVec.ofNat 64 n) }) = v at h1
  have h2 := (modCore_spec v c.ckey fun x => { x with perf := lset x.perf 5 (x.perf.getD 5 0 + BitVec.ofNat 64 n) }).2 k
  rw [show (v.count c.ckey 5 n).core k = _ from h2, h1]
  by_cases hk : k = c.ckey
  · simp only [hk, if_true]
    rfl
  · simp only [hk, if_false]
    rfl

/-! #### Completions -/

/-- A command that leaves its queue without aborting the ones behind. -/
theorem dropCmd_spec {c : Cmd} (h : c.aborts = true → c.kind.copies = false) :
    let u := s.dropCmd c
    u.cmds = (s.cmds.filter fun x => x.id != c.id) ∧
      (∀ k, u.core k = if k = c.ckey then
          { s.core k with
            chans := (s.core k).chans.map (fun q => q.filter fun x => x != c.id), loops := (s.core k).loops.filter fun x => x != c.id }
        else s.core k) ∧
      u = { s with cmds := u.cmds, cores := u.cores } := by
  intro u
  have hno : (c.aborts && c.kind.copies) = false := by
    cases ha : c.aborts with
    | false => rfl
    | true => rw [h ha]; rfl
  have hu : u = ({ s with cmds := s.cmds.filter (·.id != c.id) } : State).modCore c.ckey fun k =>
      { k with chans := k.chans.map (fun q => q.filter (· != c.id)), loops := k.loops.filter (· != c.id) } := by
    simp only [u, State.dropCmd, hno]
    rfl
  obtain ⟨hframe, hcore⟩ := modCore_spec { s with cmds := s.cmds.filter (·.id != c.id) } c.ckey fun k =>
      { k with chans := k.chans.map (fun q => q.filter (· != c.id)), loops := k.loops.filter (· != c.id) }
  rw [hu]
  exact ⟨rfl, hcore, hframe⟩

/-- The status word of a command that does not fill. -/
theorem writeStatus_spec {c : Cmd} {q : Place} (hfind : s.engFind c (c.recAddr + 8) 8 { w := true } = (.ok q, t)) (hq : q.loc % 8 = 0)
    (hfills : c.fills = false) (hredo : s.redoing c.wg = false) (hm : s.MemOk) :
    let u := s.writeStatus c c.code
    readBytes u.mem q.loc 8 = natLe 8 (statusWord c.code c.flags).toNat ∧
      (∀ x, x < q.loc ∨ q.loc + 8 ≤ x → readByte u.mem x = readByte s.mem x) ∧
      u.cmds = (s.cmds.map fun x => if x.id == c.id then { x with written := true } else x) ∧ u.threads = s.threads ∧ u.wgs = s.wgs := by
  intro u
  have hf := engFind_finds hfind
  have hredo' : t.redoing c.wg = false := by
    rw [← hredo, show t = _ from hf]
    rfl
  generalize hb : natLe 8 (statusWord c.code c.flags).toNat = b
  have hlen : b.length = 8 := by rw [← hb, length_natLe]
  obtain ⟨hst, hmem, -⟩ := engStore_spec (hf.memOk hm) c q (b := b) (by omega)
  have hu : u = (t.engStore c q b false).modCmd c.id fun x => { x with written := true } := by
    simp only [u, State.writeStatus, hfind, hredo', hfills, hb]
    rfl
  generalize t.engStore c q b false = v at hst hmem hu
  rw [hf.mem] at hmem
  have hum : u.mem = writeBytes s.mem q.loc b := by rw [hu]; exact hmem
  refine ⟨?_, fun x hx => ?_, ?_, ?_, ?_⟩
  · rw [hum, ← hlen]
    exact readBytes_writeBytes hm _ _
  · rw [hum]
    exact readByte_writeBytes_out _ _ _ _ (by omega)
  · rw [hu]
    unfold State.modCmd
    dsimp only
    rw [hst.cmds, hf.cmds]
  · rw [hu]
    exact hst.threads.trans hf.threads
  · rw [hu]
    exact hst.wgs.trans hf.wgs

/-! #### Messages -/

/-- What a sender learns of its message changes commands alone. -/
theorem msgOver_frame (s : State) (m : Msg) (dropped : Bool) : s.msgOver m dropped = { s with cmds := (s.msgOver m dropped).cmds } := by
  unfold State.msgOver
  dsimp only
  (repeat' split) <;> rfl

theorem msgDone_frame (s : State) (m : Msg) : s.msgDone m = { s with pkgs := (s.msgDone m).pkgs } := by
  unfold State.msgDone State.releaseCtx
  (repeat' split) <;> rfl

/-- The bytes of a message in its slot. -/
def Msg.bytes (m : Msg) : List Byte := natLe 8 m.header.toNat ++ padTo 56 m.payload

theorem length_msgBytes {m : Msg} (h : m.payload.length ≤ 56) : m.bytes.length = 64 := by
  unfold Msg.bytes padTo
  simp only [List.length_append, length_natLe, List.length_replicate]
  omega

/-- A message that is appended: its slot, and then TAIL. -/
theorem appendMsg_spec {m : Msg} {r : Ring} (hm : s.MemOk) (hb : r.base % 8 = 0) (hp : m.payload.length ≤ 56) (hr : 0 < r.slots) :
    let tail := s.ringTail m.pkg m.core r
    let slot := r.slotAt m.pkg m.core tail
    let ctl := r.ctlAt m.pkg m.core
    let u := s.appendMsg m r
    s.Stores u ∧ readBytes u.mem slot 64 = m.bytes ∧ readBytes u.mem ctl 8 = natLe 8 (tail + 1) ∧
      ∀ x, (x < slot ∨ slot + 64 ≤ x) → (x < ctl ∨ ctl + 8 ≤ x) → readByte u.mem x = readByte s.mem x := by
  intro tail slot ctl u
  have hlen := length_msgBytes hp
  have hslot : slot % 8 = 0 ∧ ctl % 8 = 0 := by
    simp only [slot, ctl, Ring.slotAt, Ring.ctlAt, locScratch, pkgSpan]
    omega
  have hlow : slot + 64 ≤ ctl := by
    have := Nat.mod_lt tail hr
    simp only [slot, ctl, Ring.slotAt, Ring.ctlAt, locScratch]
    omega
  have hu : u = (s.bulkRec slot m.bytes).bulkWord ctl (BitVec.ofNat 64 (tail + 1)) := rfl
  clear_value u ctl slot tail
  have h1 := bulkRec_stores s slot m.bytes
  have h1m := bulkRec_mem hm (r := m.bytes) hslot.1 (by omega)
  generalize s.bulkRec slot m.bytes = v at h1 h1m hu
  have hvm : v.MemOk := by
    unfold State.MemOk
    rw [h1m]
    exact wf_writeBytes _ _ hm
  have h2 := homeStore_stores v ctl 8 (BitVec.ofNat 64 (tail + 1)) { posted := .agent }
  have h2m := bulkWord_mem hvm (BitVec.ofNat 64 (tail + 1)) hslot.2
  rw [← hu, natLe_ofNat64, h1m] at h2m
  refine ⟨hu ▸ h1.trans h2, ?_, ?_, fun x hx hc => ?_⟩
  · rw [h2m, readBytes_writeBytes_out _ _ (by rw [length_natLe]; omega)]
    have := readBytes_writeBytes hm slot m.bytes
    rwa [hlen] at this
  · have := readBytes_writeBytes (wf_writeBytes slot m.bytes hm) ctl (natLe 8 (tail + 1))
    rw [length_natLe] at this
    rw [h2m, this]
  · rw [h2m, readByte_writeBytes_out _ _ _ _ (by rwa [length_natLe]), readByte_writeBytes_out _ _ _ _ (by rwa [hlen])]

/-- The header's bytes. -/
theorem natLe_header (m : Msg) : natLe 8 m.header.toNat =
    natLe 8 (m.seq % 2 ^ 16 * 2 ^ 48 + m.payload.length * 2 ^ 40 + m.kind * 2 ^ 32 + m.srcPkg * 2 ^ 16 + m.srcCore) := natLe_ofNat64 _

/-- A message that finds its ring, and that nothing holds back, arrives. -/
theorem arriveMsg_eq {m0 : Msg} (hrefused : m0.refused = none) (hheld : s.msgHeld m0 = false)
    (hfirst : ∀ x ∈ s.msgs, x.id < m0.id → x.sameStream m0 = false) {r : Ring} (hr : s.msgRing (s.aimed m0) = some r) :
    s.arriveMsg m0 = (if r.slots ≤ s.ringCount (s.aimed m0).pkg (s.aimed m0).core r then
        { s with msgs := s.msgs.map fun (x : Msg) =>
          if x.id == (s.aimed m0).id then { x with refused := some (s.clockOf (s.aimed m0).srcPkg) } else x }
      else ((({ s with msgs := s.msgs.filter fun x => x.id != (s.aimed m0).id } : State).appendMsg (s.aimed m0) r).msgOver (s.aimed m0)
        false).msgDone (s.aimed m0)) := by
  have hany : (s.msgs.any fun x => decide (x.id < m0.id) && x.sameStream m0) = false := by
    rw [List.any_eq_false]
    intro x hx
    simp only [Bool.and_eq_true, decide_eq_true_eq, not_and, Bool.not_eq_true]
    exact hfirst x hx
  unfold State.arriveMsg
  rw [hheld, hrefused, hany]
  rw [if_neg (by decide)]
  dsimp only
  rw [hr]

/-- What a message that arrives with room leaves: its record appended, and itself gone. -/
theorem arrived_spec {v : State} (m : Msg) :
    let u := (v.msgOver m false).msgDone m
    u.mem = v.mem ∧ u.msgs = v.msgs ∧ u.threads = v.threads ∧ u.wgs = v.wgs := by
  have h1 := msgOver_frame v m false
  have h2 := msgDone_frame (v.msgOver m false) m
  generalize v.msgOver m false = x at *
  generalize x.msgDone m = u at *
  refine ⟨?_, ?_, ?_, ?_⟩ <;> rw [h2, h1]

/-- A message's number names it. -/
theorem msg_of_id {id : Nat} {m x : Msg} (hm : s.msgs.find? (fun m => m.id == id) = some m) (hnd : (s.msgs.map Msg.id).Nodup)
    (hx : x ∈ s.msgs) (hid : x.id = id) : x = m := by
  have hmid : m.id = id := by simpa using List.find?_some hm
  exact List.inj_on_of_nodup_map hnd hx (List.mem_of_find?_eq_some hm) (hid.trans hmid.symm)

/-- A refused message is sent again once its wait is over. -/
theorem messageRetry_eq {id : Nat} {m : Msg} {t : Nat} (hm : s.msgs.find? (fun m => m.id == id) = some m) (hrefused : m.refused = some t)
    (hnd : (s.msgs.map Msg.id).Nodup) : execMessageRetry id s = .next { s with
      msgs := s.msgs.map fun x => if x.id == id && decide (t + retryWait ≤ s.clockOf m.srcPkg) then { x with refused := none } else x } := by
  have hmay : s.mayRetry m = decide (t + retryWait ≤ s.clockOf m.srcPkg) := by unfold State.mayRetry; rw [hrefused]
  unfold execMessageRetry
  congr 2
  refine List.map_congr_left fun x hx => ?_
  by_cases hid : x.id = id
  · rw [msg_of_id hm hnd hx hid, hmay]
  · simp [hid]

/-! #### The obligation -/

/-- A piece of a TCOPY of one row within SCRATCH. -/
theorem rowPiece_spec {c : Cmd} {h : Shape} {so d : Nat} (hin : c.CopiesIn s so d h.rb) (hrop : h.rop = 0) (hrows : h.rows = 1)
    (hlt : c.sent < h.rb) (hsrc : h.src = BitVec.ofNat 64 (0xFFFF000000000000 + so))
    (hdst : h.dst = BitVec.ofNat 64 (0xFFFF000000000000 + d)) :
    ∃ v n, s.Stores v ∧ s.localPiece c h = v.modCmd c.id (fun x => { x with sent := x.sent + n }) ∧ 0 < n ∧
      PieceAt d c.sent (h.rb - c.sent) n ∧
      v.mem = writeBytes s.mem ((s.scratchPlace c.wg d).loc + c.sent) (readBytes s.mem ((s.scratchPlace c.wg so).loc + c.sent) n) := by
  obtain ⟨hreads, hruns⟩ := row_runs hsrc hdst
  have htotal : h.total = h.rb := by rw [Shape.total, hrows, Nat.one_mul]
  have hrb : d + h.rb ≤ 2 ^ 18 := Nat.le_trans hin.dst hin.size
  obtain ⟨hpiece, hpos⟩ := pieceLen_spec (b := c.sent) (left := h.rb - c.sent) hruns hrb (by omega) (by omega)
  have hle := hpiece.le
  obtain ⟨v, hst, hv, hmem⟩ := piece_spec (b := c.sent) (n := pieceLen h.dstAt 4096 c.sent (h.rb - c.sent)) hin
    (src := fun s i => s.engByte c (h.srcAt i)) (fun v b hb => by rw [hreads b hb]) hruns (by omega)
  refine ⟨v, _, hst, ?_, hpos, hpiece, hmem⟩
  unfold State.localPiece
  dsimp only
  rw [htotal, if_neg (by omega), if_pos hrop, hv]

/-- Settles O47: a piece is a run of destination words, each stored as its source bytes are read; the other clauses follow one branch each
of a command's completion, of a SEND and of a message's arrival. -/
theorem copiesAndMessages : Obligations.CopiesAndMessages := by
  unfold Obligations.CopiesAndMessages
  intro s
  refine ⟨?_, ?_, ?_, ?_, ?_, ?_⟩
  · intro p core ch id rest c hch hc hlt hpend
    refine ⟨_, ?_, countCopy_spec hpend⟩
    show execCopyChunkDeliver p core ch s = _
    simp only [execCopyChunkDeliver, hch, hc, hlt, if_true]
  · intro p core ch id rest c h so d hch hc hpos hfin hpark hstop hkind hshape hn hrop hrows hlt hfills hacq hover haccs hrepl hredo hm
      w loc hsrc hdst hsin hdin hsize hbase hpois
    obtain rfl := shape_eq_raw hshape
    have hrb : 0 < c.shapeRaw.rb := by omega
    have hsize' : (s.wg c.wg).scrSize ≤ 2 ^ 18 := hsize
    have hsin' : so + c.shapeRaw.rb ≤ (s.wg c.wg).scrSize := hsin
    have hdin' : d + c.shapeRaw.rb ≤ (s.wg c.wg).scrSize := hdin
    have hin : c.CopiesIn s so d c.shapeRaw.rb :=
      ⟨hm, haccs, hacq, hover, hfills, hrepl, hredo, hsize, hbase, hsin, hdin,
        row_apart hkind hrows hsrc hdst (by omega) (by omega) hover, hpois⟩
    obtain ⟨v, n, hst, hv, hpos', hpiece, hmem⟩ := rowPiece_spec hin hrop hrows hlt hsrc hdst
    have hle := hpiece.le
    have hlen : (readBytes s.mem ((s.scratchPlace c.wg so).loc + c.sent) n).length = n := by rw [readBytes_eq_map]; simp
    refine ⟨v.modCmd c.id fun x => { x with sent := x.sent + n }, n, ?_, hpos', hpiece.short, by omega, hpiece.chunk, ?_, ?_, fun x hx => ?_, ?_, hst.threads, hst.wgs, hst.accs⟩
    · show execCopyChunkDeliver p core ch s = _
      simp only [execCopyChunkDeliver, hch, hc, hfin, hpark, hstop]
      rw [if_neg (by omega), if_neg (by decide)]
      simp only [State.copyWork, hkind, hshape, hn]
      rw [if_neg (by decide), if_pos trivial, hv]
    · rcases hpiece.whole with h0 | hw | hw <;> omega
    · show readBytes v.mem _ _ = _
      rw [hmem]
      have := readBytes_writeBytes hm ((s.scratchPlace c.wg d).loc + c.sent) (readBytes s.mem ((s.scratchPlace c.wg so).loc + c.sent) n)
      rwa [hlen] at this
    · show readByte v.mem x = _
      rw [hmem]
      exact readByte_writeBytes_out _ _ _ _ (by rw [hlen]; exact hx)
    · exact congrArg (List.map _) hst.cmds
  · intro id c hc hdone hpark hstop hpos hinst hquiet
    have hgo : (!c.done || c.parked.isSome || s.cmdStopped c || (c.kind.copies && c.pos != c.sent) || !s.engInstalled c) = false := by
      rw [hdone, hpark, hstop, hinst]
      cases hk : c.kind.copies with
      | false => rfl
      | true => rw [hpos hk]; simp
    refine ⟨fun hwritten habort => ⟨_, ?_, dropCmd_spec habort⟩,
      fun q t hwritten hfind hq hfills hredo hm => ⟨_, ?_, writeStatus_spec hfind hq hfills hredo hm⟩⟩
    · show execCommandComplete id s = _
      simp only [execCommandComplete, hc, hgo, hquiet, hwritten]
      rfl
    · show execCommandComplete id s = _
      simp only [execCommandComplete, hc, hgo, hquiet, hwritten]
      rfl
  · intro id c b t hc hkind hfin hpark hbehind hheld hok hsent hdest hbytes m
    show execMessageAppend id s = _
    have hcross : s.crosses c = false := by unfold State.crosses; rw [hdest]; simp
    simp only [execMessageAppend, hc, State.sendStep, hkind, hfin, hpark, hbehind, hheld, hok, hcross]
    rw [if_neg (by decide), if_neg (by decide), if_pos hsent]
    simp only [State.sendNext, hdest, hbytes, if_true]
    rfl
  · intro id m0 r hc hm0 hrefused hheld hfirst m hr ctl tail count slot
    have harr := arriveMsg_eq hrefused hheld hfirst hr
    have hexec : exec (.messageAppend id) s = .next (s.arriveMsg m0) := by
      show execMessageAppend id s = _
      simp only [execMessageAppend, hc, hm0]
    have hcount : s.ringCount (s.aimed m0).pkg (s.aimed m0).core r = count := rfl
    rw [hexec, harr, hcount]
    refine ⟨fun hroom hb hp hm => ?_, fun hfull => ?_⟩
    · rw [if_neg (Nat.not_le.mpr hroom)]
      obtain ⟨hst, hslot, htail, hout⟩ := appendMsg_spec (s := { s with msgs := s.msgs.filter fun x => x.id != m.id }) (m := m) (r := r)
        hm hb hp (Nat.zero_lt_of_lt hroom)
      obtain ⟨hmem, hmsgs, hthr, hwgs⟩ := arrived_spec
        (v := ({ s with msgs := s.msgs.filter fun x => x.id != m.id } : State).appendMsg m r) m
      refine ⟨_, rfl, ?_, ?_, fun x hx hc => ?_, ?_, ?_, ?_⟩
      · rw [hmem]
        refine hslot.trans ?_
        rw [Msg.bytes, natLe_header, padTo, ← List.append_assoc]
      · rw [hmem]
        exact htail
      · rw [hmem]
        exact hout x hx hc
      · refine hmsgs.trans ?_
        rw [hst.frame]
      · exact hthr.trans hst.threads
      · exact hwgs.trans hst.wgs
    · rw [if_pos hfull]
  · intro id m t hm hrefused hnd
    have hexec : exec (.messageRetry id) s = _ := messageRetry_eq hm hrefused hnd
    rw [hexec]
    refine ⟨fun hover => ?_, fun hwait => ?_⟩
    · rw [decide_eq_true hover]
      simp only [Bool.and_true]
    · rw [decide_eq_false (by omega)]
      simp

end Sys2Proof.Machine

/-! ### Collectives (14_engines R246, R250 to R252, 18_queues R299, 21_tables R325) -/

namespace Sys2Proof.Machine

variable {s t u : State}

/-! #### Launch counters -/

/-- A state with one die changed, as its dies are seen. -/
theorem modDie_spec (s : State) (dk : Nat) (f : Die → Die) :
    s.modDie dk f = { s with dies := (s.modDie dk f).dies } ∧ ∀ j, (s.modDie dk f).die j = if j = dk then f (s.die j) else s.die j := by
  refine ⟨rfl, fun j => ?_⟩
  rw [State.modDie_die]
  by_cases hj : dk = j
  · subst hj; simp
  · rw [if_neg hj, if_neg fun h => hj h.symm]

/-- An input that reaches a node counts its launch counter down. -/
theorem arriveNode_spec (s : State) (g : Coll) (k : Nat) (d : RedNode) :
    CountsDown s g k d (s.arriveNode g (s.collShape g) k d) ∧
      s.arriveNode g (s.collShape g) k d = { s with dies := (s.arriveNode g (s.collShape g) k d).dies } := by
  refine ⟨?_, rfl⟩
  unfold CountsDown
  intro dk mine left i
  have hleft : (match (s.die dk).counts.find? mine with | some e => e.left | none => (s.collShape g).inputs d) - 1 = left := by
    simp only [left]
    cases (s.die dk).counts.find? mine <;> rfl
  have hdie := (modDie_spec s dk fun x =>
    if left = 0 then
      { x with
        counts := x.counts.filter fun e => !mine e, redq := x.redq ++ [{ coll := g.collid, chunk := k, node := d }] }
    else { x with counts := (x.counts.filter fun e => !mine e) ++ [{ coll := g.collid, chunk := k, node := d, left := left }] }).2 i
  have hu : s.arriveNode g (s.collShape g) k d = s.modDie dk fun x =>
      if left = 0 then
        { x with
          counts := x.counts.filter fun e => !mine e, redq := x.redq ++ [{ coll := g.collid, chunk := k, node := d }] }
      else { x with counts := (x.counts.filter fun e => !mine e) ++ [{ coll := g.collid, chunk := k, node := d, left := left }] } := by
    rw [← hleft]
    rfl
  rw [hu, hdie]
  by_cases hl : left = 0
  · simp only [hl, if_true, List.append_nil]
  · simp only [hl, if_false, List.append_nil]

/-- Two states with the same commands and dies count alike. -/
theorem CountsDown.congr {s s' u u' : State} {g : Coll} {k : Nat} {d : RedNode} (h : CountsDown s g k d u) (hcmds : s'.cmds = s.cmds)
    (hdies : s'.dies = s.dies) (hu : u'.dies = u.dies) : CountsDown s' g k d u' := by
  have hc : s'.collCmds g = s.collCmds g := by unfold State.collCmds State.cmd?; rw [hcmds]
  have hd : ∀ i, s'.die i = s.die i := fun i => by unfold State.die; rw [hdies]
  have hu' : ∀ i, u'.die i = u.die i := fun i => by unfold State.die; rw [hu]
  unfold CountsDown State.rankDie State.collShape at *
  simp only [hc, hd, hu'] at *
  exact h

/-! #### Staging -/

theorem foldl_modDie_set (cs : List Cmd) (collid : Nat) (l : List Nat) (hnd : l.Nodup) (s : State) (k : Nat) :
    (l.foldl (fun s d => s.modDie d fun x => { x with staging := tset x.staging collid (needOn cs d) }) s).die k =
      if k ∈ l then { s.die k with staging := tset (s.die k).staging collid (needOn cs k) } else s.die k := by
  induction l generalizing s with
  | nil => rfl
  | cons a r ih =>
    obtain ⟨ha, hr⟩ := List.nodup_cons.mp hnd
    rw [List.foldl_cons, ih hr, (modDie_spec s a _).2 k]
    by_cases hk : k = a
    · subst hk
      simp [ha]
    · simp [hk]

theorem mem_distinct (l : List Nat) (x : Nat) : x ∈ distinct l ↔ x ∈ l := by
  induction l with
  | nil => rfl
  | cons a r ih =>
    unfold distinct
    split
    · next ha =>
      have ha : a ∈ r := by simpa using ha
      rw [ih, List.mem_cons]
      exact ⟨.inr, fun h => h.elim (fun h => h ▸ ha) id⟩
    · rw [List.mem_cons, List.mem_cons, ih]

theorem distinct_nodup (l : List Nat) : (distinct l).Nodup := by
  induction l with
  | nil => exact List.nodup_nil
  | cons a r ih =>
    unfold distinct
    split
    · exact ih
    · next ha =>
      refine List.nodup_cons.mpr ⟨fun hm => ha ?_, ih⟩
      simpa using (mem_distinct r a).mp hm

theorem foldl_modDie_frame {α : Type} (key : α → Nat) (f : α → Die → Die) (l : List α) (s : State) :
    l.foldl (fun s a => s.modDie (key a) (f a)) s = { s with dies := (l.foldl (fun s a => s.modDie (key a) (f a)) s).dies } := by
  induction l generalizing s with
  | nil => rfl
  | cons a r ih =>
    rw [List.foldl_cons, ih]
    rfl

/-! #### Results -/

/-- The end of a collective leaves memory, threads and workgroups, and adds no delivery. -/
structure State.Settles (s t : State) : Prop where
  mem : t.mem = s.mem
  threads : t.threads = s.threads
  wgs : t.wgs = s.wgs
  deliveries : ∀ x ∈ t.deliveries, x ∈ s.deliveries

theorem State.Settles.refl (s : State) : s.Settles s := ⟨rfl, rfl, rfl, fun _ => id⟩

theorem State.Settles.trans {v : State} (h : s.Settles t) (h' : t.Settles v) : s.Settles v :=
  ⟨h'.mem.trans h.mem, h'.threads.trans h.threads, h'.wgs.trans h.wgs, fun x hx => h.deliveries x (h'.deliveries x hx)⟩

theorem endColl_settles (s : State) (g : Coll) : s.Settles (s.endColl g) := by
  have hranks : ∀ v : State, v.Settles (g.ranks.foldl (fun s r =>
      (s.modCmd r.cmd fun c => { c with flags := c.flags ||| g.flags ||| r.flags }).endCmd r.cmd g.code false) v) := fun v =>
    foldl_keeps (fun t r ht => ht.trans ⟨rfl, rfl, rfl, fun _ => id⟩) _ (.refl v)
  have hdies : s.Settles ((diesOf (s.collCmds g)).foldl (fun s d => s.modDie d fun x =>
      { x with
        staging := tdel x.staging g.collid, counts := x.counts.filter (fun e => e.coll != g.collid),
        redq := x.redq.filter fun j => j.coll != g.collid }) s) :=
    foldl_keeps (fun t r ht => ht.trans ⟨rfl, rfl, rfl, fun _ => id⟩) _ (.refl s)
  exact (hdies.trans (hranks _)).trans ⟨rfl, rfl, rfl, fun x hx => (List.mem_filter.mp hx).1⟩

theorem settleColl_settles (s : State) (collid : Nat) : s.Settles (s.settleColl collid) := by
  unfold State.settleColl
  split
  · exact .refl s
  · split
    · exact endColl_settles _ _
    · exact .refl s

/-- A delivery that is over is gone. -/
theorem delivered_settles (s : State) (d : Delivery) (code : Nat) :
    let u := s.delivered d code
    u.mem = s.mem ∧ u.threads = s.threads ∧ u.wgs = s.wgs ∧ ∀ x ∈ u.deliveries, x.id ≠ d.id := by
  intro u
  have h : State.Settles { s with deliveries := s.deliveries.filter fun x => x.id != d.id } u := by
    show State.Settles _ (State.settleColl _ _)
    refine State.Settles.trans ?_ (settleColl_settles _ _)
    exact ⟨rfl, rfl, rfl, fun _ => id⟩
  exact ⟨h.mem, h.threads, h.wgs, fun x hx => by simpa using (List.mem_filter.mp (h.deliveries x hx)).2⟩

/-- A chunk's results leave for the ranks that receive, each with a number of its own. -/
theorem foldl_deliveries (g : Coll) (h : Shape) (k : Nat) (out : Nat → List Byte) (l : List Nat) (s : State) :
    let u := l.foldl (fun s q =>
      if h.receives q then
        let (id, s) := s.fresh
        { s with deliveries := s.deliveries ++ [{ id := id, coll := g.collid, rank := q, chunk := k, data := out q }] }
      else s) s
    (u.deliveries.map fun d => (d.coll, d.rank, d.chunk, d.data)) = (s.deliveries.map fun d => (d.coll, d.rank, d.chunk, d.data)) ++
        (l.filter h.receives).map (fun q => (g.collid, q, k, out q)) ∧
      u = { s with deliveries := u.deliveries, nextId := u.nextId } := by
  induction l generalizing s with
  | nil => exact ⟨by simp, rfl⟩
  | cons q r ih =>
    rw [List.foldl_cons]
    by_cases hq : h.receives q = true
    · obtain ⟨h1, h2⟩ := ih { s with
        nextId := s.nextId + 1
        deliveries := s.deliveries ++ [{ id := s.nextId, coll := g.collid, rank := q, chunk := k, data := out q }] }
      rw [if_pos hq]
      refine ⟨?_, h2⟩
      refine h1.trans ?_
      simp [hq]
    · rw [if_neg hq]
      refine ⟨?_, (ih s).2⟩
      rw [List.filter_cons_of_neg hq]
      exact (ih s).1

/-- A collective of which a rank still waits for a chunk is not over. -/
theorem not_over {g : Coll} {h : Shape} {q : Nat} {r : Rank} (hq : g.ranks[q]? = some r) (hrec : h.receives q = true)
    (hwait : r.delivered < h.chunks) : g.over h = false := by
  unfold Coll.over
  rw [Bool.and_eq_false_iff]
  refine .inr ?_
  rw [List.all_eq_false]
  refine ⟨(r, q), ?_, ?_⟩
  · rw [List.mem_zipIdx_iff_getElem?]
    exact hq
  · simp [hrec, Nat.not_le.mpr hwait]

/-- The collective of a number, after a change that leaves the numbers. -/
theorem find_modColl {collid : Nat} {g : Coll} (f : Coll → Coll) (hf : ∀ g, (f g).collid = g.collid)
    (h : s.colls.find? (fun g => g.collid == collid) = some g) :
    (s.modColl collid f).colls.find? (fun g => g.collid == collid) = some (f g) := by
  have hid : (g.collid == collid) = true := List.find?_some (p := fun g : Coll => g.collid == collid) h
  unfold State.modColl
  dsimp only
  rw [List.find?_map]
  have hpred : ((fun g : Coll => g.collid == collid) ∘ fun g => if (g.collid == collid) = true then f g else g) =
      fun g => g.collid == collid := by
    funext x
    by_cases hx : x.collid = collid <;> simp [hx, hf]
  rw [hpred, h, Option.map_some, if_pos hid]

/-- A reduced chunk whose collective goes on. -/
theorem sendChunk_spec {g g' : Coll} {h : Shape} {k : Nat} (out : Nat → List Byte) {q : Nat} {r : Rank} (hid : g'.collid = g.collid)
    (hg : s.colls.find? (fun x => x.collid == g.collid) = some g') (hshape : s.collShape g' = h)
    (hq : g'.ranks[q]? = some r) (hrec : h.receives q = true) (hwait : r.delivered < h.chunks) :
    let u := s.sendChunk g h k out
    (u.deliveries.map fun d => (d.coll, d.rank, d.chunk, d.data)) = (s.deliveries.map fun d => (d.coll, d.rank, d.chunk, d.data)) ++
        ((List.range h.n).filter h.receives).map (fun q => (g.collid, q, k, out q)) ∧
      (∃ x ∈ u.colls, x.collid = g.collid ∧ x.reduced = g'.reduced ++ [k]) ∧
      u = { s with deliveries := u.deliveries, colls := u.colls, nextId := u.nextId } := by
  obtain ⟨hdel, hframe⟩ := foldl_deliveries g h k out (List.range h.n) s
  unfold State.sendChunk
  dsimp only at hdel hframe ⊢
  generalize (List.range h.n).foldl _ s = v at hdel hframe ⊢
  have hvg : v.colls.find? (fun x => x.collid == g.collid) = some g' := by rw [hframe]; exact hg
  have hfind := find_modColl (fun g => { g with reduced := g.reduced ++ [k] }) (fun _ => rfl) hvg
  have hsettle : (v.modColl g.collid fun g => { g with reduced := g.reduced ++ [k] }).settleColl g.collid =
      v.modColl g.collid fun g => { g with reduced := g.reduced ++ [k] } := by
    have hsh : (v.modColl g.collid fun g => { g with reduced := g.reduced ++ [k] }).collShape { g' with reduced := g'.reduced ++ [k] } = h := by
      rw [← hshape, hframe]
      rfl
    unfold State.settleColl
    rw [hfind]
    dsimp only
    rw [hsh, not_over (g := { g' with reduced := g'.reduced ++ [k] }) hq hrec hwait]
    rfl
  rw [hsettle]
  refine ⟨hdel, ⟨_, List.mem_of_find?_eq_some hfind, hid, rfl⟩, ?_⟩
  unfold State.modColl
  dsimp only
  generalize v.colls.map _ = l
  rw [hframe]

end Sys2Proof.Machine

/-! ### Deliveries and collectives (14_engines R246, R250 to R252, 21_tables R325) -/

namespace Sys2Proof.Machine

variable {s t u : State}

/-! #### Deliveries -/

/-- The writes of a delivery: stores, and what a copy remembers of the bytes that it overwrites. -/
def State.Lands (s t : State) : Prop := t = { s with
  mem := t.mem, views := t.views, viewVer := t.viewVer, homeVer := t.homeVer, notices := t.notices, nextId := t.nextId,
  cores := t.cores, poison := t.poison, cmds := t.cmds }

theorem State.Lands.trans {v : State} (h : s.Lands t) (h' : t.Lands v) : s.Lands v := by
  unfold State.Lands at *
  rw [h', h]

theorem State.Stores.lands (h : s.Stores t) : s.Lands t := by
  unfold State.Lands
  rw [h.frame]

theorem keepBytes_frame (s : State) (c : Cmd) (l n : Nat) : s.keepBytes c l n = { s with cmds := (s.keepBytes c l n).cmds } := by
  unfold State.keepBytes
  split <;> rfl

/-- What a delivery asks of its receiver: a run within the SCRATCH of a workgroup that is neither replayable nor re-executed. -/
structure Cmd.Receives (s : State) (c : Cmd) (d rb : Nat) : Prop where
  memOk : s.MemOk
  fills : c.fills = false
  replayable : (s.launchOf (s.wg c.wg)).replayable = false
  redoing : s.redoing c.wg = false
  size : (s.wg c.wg).scrSize ≤ 2 ^ 18
  base : (s.wg c.wg).scrBase % 8 = 0
  dst : d + rb ≤ (s.wg c.wg).scrSize

section

variable {c : Cmd} {d rb : Nat}

theorem Cmd.Receives.of_lands (h : c.Receives s d rb) (hl : s.Lands t) (hm : t.MemOk) : c.Receives t d rb := by
  have hwg : t.wg c.wg = s.wg c.wg := by rw [show t = _ from hl]; rfl
  have hlaunch : t.launchOf (t.wg c.wg) = s.launchOf (s.wg c.wg) := by rw [hwg, show t = _ from hl]; rfl
  have hredo : t.redoing c.wg = s.redoing c.wg := by rw [show t = _ from hl]; rfl
  refine ⟨hm, h.fills, ?_, ?_, ?_, ?_, ?_⟩
  · rw [hlaunch]; exact h.replayable
  · rw [hredo]; exact h.redoing
  · rw [hwg]; exact h.size
  · rw [hwg]; exact h.base
  · rw [hwg]; exact h.dst

/-- A write of a command that does not fill, in SCRATCH. -/
theorem engPut_lands (h : c.Receives s d rb) (a : W64) (p : Place) {b : List Byte} (hb : p.loc % 8 + b.length ≤ 8) :
    s.Lands (s.engPut c a p b) ∧ (s.engPut c a p b).mem = writeBytes s.mem p.loc b := by
  have hput : s.engPut c a p b = (s.keepBytes c p.loc b.length).engStore c p b false := by
    unfold State.engPut State.digest
    rw [h.replayable]
    simp only [Bool.false_eq_true, if_false, h.redoing, Bool.false_and, h.fills]
  have hkeep := keepBytes_frame s c p.loc b.length
  rw [hput]
  generalize s.keepBytes c p.loc b.length = v at hkeep
  have hvm : v.MemOk := by rw [hkeep]; exact h.memOk
  obtain ⟨hst, hmem, -⟩ := engStore_spec hvm c p hb
  refine ⟨State.Lands.trans ?_ hst.lands, ?_⟩
  · rw [hkeep]
    rfl
  · rw [hmem, hkeep]

/-- The bytes of a delivery, written a destination word at a time. -/
theorem deliverUnits_spec {dst : Nat → W64} (hdst : RunsFrom dst d rb) {data : List Byte} {b0 : Nat} (f : Nat) :
    ∀ (s : State) (b left : Nat), c.Receives s d rb → left ≤ f → b + left ≤ rb → b0 ≤ b → b - b0 + left = data.length →
    ∃ v, copyUnits c (fun s i => (.ok (data.getD (i - b0) 0), s)) dst f b left s = ((left, none), v) ∧ s.Lands v ∧
      v.mem = writeBytes s.mem ((s.scratchPlace c.wg d).loc + b) (data.drop (b - b0)) := by
  induction f with
  | zero =>
    intro s b left h hf hb hb0 hlen
    obtain rfl : left = 0 := by omega
    refine ⟨s, rfl, rfl, ?_⟩
    rw [List.drop_of_length_le (by omega)]
    rfl
  | succ f ih =>
    intro s b left h hf hb hb0 hlen
    rcases Nat.eq_zero_or_pos left with rfl | hpos
    · refine ⟨s, by rw [copyUnits, if_pos rfl], rfl, ?_⟩
      rw [List.drop_of_length_le (by omega)]
      rfl
    · have hsize := h.size
      have hdin := h.dst
      have hn := unitLen_runs (b := b) hdst (by omega) hpos hb
      generalize hk : unitLen dst b left = n at hn
      have hword := scratchPlace_word h.base (d + b)
      have hread : engRun (fun s i => (.ok (data.getD (i - b0) 0), s)) n b s = (((data.drop (b - b0)).take n, none), s) := by
        rw [engRun_reads (f := fun i => data.getD (i - b0) 0) n b fun _ _ _ => rfl]
        congr 2
        refine List.ext_getElem (by simp; omega) fun i hi hi' => ?_
        have hi : i < n := by simpa using hi
        simp only [List.getElem_map, List.getElem_range', List.getElem_take, List.getElem_drop, Nat.one_mul]
        rw [List.getD_eq_getElem _ _ (by omega)]
        congr 1
        omega
      generalize hl : (data.drop (b - b0)).take n = l at hread
      have hll : l.length = n := by rw [← hl]; simp; omega
      obtain ⟨hlands, hmem⟩ := engPut_lands h (dst b) (s.scratchPlace c.wg (d + b)) (b := l) (by omega)
      generalize hput : s.engPut c (dst b) (s.scratchPlace c.wg (d + b)) l = w at hlands hmem
      have hwm : w.MemOk := by
        unfold State.MemOk
        rw [hmem]
        exact wf_writeBytes _ _ h.memOk
      obtain ⟨v, hrest, hvst, hvmem⟩ := ih w (b + n) (left - n) (h.of_lands hlands hwm) (by omega) (by omega) (by omega) (by omega)
      refine ⟨v, ?_, hlands.trans hvst, ?_⟩
      · rw [copyUnits, if_neg (by omega)]
        dsimp only
        rw [hk, hdst b (by omega), engFind_scratch s c _ rfl (by omega) (by omega) hsize]
        dsimp only
        rw [hread]
        dsimp only
        rw [h.fills, hll, ← hdst b (by omega)]
        simp only [Bool.false_and, Bool.false_eq_true, if_false]
        rw [if_neg (by omega), List.take_of_length_le (by omega), hput, hrest]
        dsimp only
        congr 2
        omega
      · have hwgs : w.wgs = s.wgs := by rw [show w = _ from hlands]
        have hsplit : data.drop (b - b0) = l ++ data.drop (b + n - b0) := by
          rw [← hl, show b + n - b0 = b - b0 + n by omega, ← List.drop_drop, List.take_append_drop]
        rw [hvmem, scratchPlace_congr hwgs, hmem, scratchPlace_add, hsplit, writeBytes_append, hll, Nat.add_assoc]

end

end Sys2Proof.Machine

/-! ### Collectives form, combine and deliver (14_engines R246, R250 to R252, 18_queues R299, 21_tables R325) -/

namespace Sys2Proof.Machine

variable {s t u : State}

/-! #### Staging -/

/-- The staging of a collective on each of its dies. -/
def State.grantAll (s : State) (cs : List Cmd) (collid : Nat) : State :=
  (diesOf cs).foldl (fun s d => s.modDie d fun x => { x with staging := tset x.staging collid (needOn cs d) }) s

theorem grantAll_spec (s : State) (cs : List Cmd) (collid : Nat) :
    s.grantAll cs collid = { s with dies := (s.grantAll cs collid).dies } ∧ ∀ k, (s.grantAll cs collid).die k =
      if k ∈ diesOf cs then { s.die k with staging := tset (s.die k).staging collid (needOn cs k) } else s.die k :=
  ⟨foldl_modDie_frame id (fun d x => { x with staging := tset x.staging collid (needOn cs d) }) (diesOf cs) s,
    foldl_modDie_set cs collid (diesOf cs) (distinct_nodup _) s⟩

/-! #### Chunks that arrive -/

/-- The nodes that a chunk reaches which its rank has staged, of a collective that is no exact sum. -/
theorem chunkArrival_eq {collid chunk rank : Nat} {g : Coll} {r : Rank} {c : Cmd}
    (hg : s.colls.find? (fun g => g.collid == collid && g.granted) = some g) (hr : g.ranks[rank]? = some r) (hc : s.cmd? r.cmd = some c)
    (hpark : c.parked = none) (hrop : (s.collShape g).rop ≠ 0) (hex : (s.collShape g).exact = false) (hchunk : chunk = r.arrived)
    (hlt : chunk < (s.collShape g).chunks) (hdata : (s.collShape g).chunkEnd chunk ≤ r.data.length) :
    exec (.chunkArrival collid chunk rank) s = .next (((s.collShape g).nodesOf (s.isCav g) rank).foldl
      (fun s' d => s'.arriveNode g (s.collShape g) chunk d) (s.modColl collid fun g => g.modRank rank fun r => { r with arrived := r.arrived + 1 })) := by
  show execChunkArrival collid chunk rank s = _
  have hgives : (s.collShape g).gives rank = true := by unfold Shape.gives; simp [hrop]
  have hphase : (s.collShape g).phases = 1 := by unfold Shape.phases; rw [hex]; rfl
  simp only [execChunkArrival, hg, hr, hc]
  rw [hphase, Nat.div_one, hgives, hpark, hex, if_neg (by simp; omega), if_neg (by omega)]
  rfl

/-- The first node of a contribution. -/
theorem nodesOf_leaf {h : Shape} {rank l q : Nat} (hrop : h.rop ≠ 0) (ht : treeNext h.n 0 rank = some (l, q)) :
    h.nodesOf false rank = [⟨.tree, l, q⟩] := by
  unfold Shape.nodesOf Shape.leaf
  rw [if_neg hrop, if_neg Bool.false_ne_true, ht]

theorem nodesOf_cav {h : Shape} {rank : Nat} (hrop : h.rop ≠ 0) : h.nodesOf true rank = [⟨.pre, 0, rank⟩, ⟨.post, 0, rank⟩] := by
  unfold Shape.nodesOf
  rw [if_neg hrop, if_pos rfl]

/-- A node counts down after a change that leaves commands and dies. -/
theorem arriveNode_countsDown {v : State} (g : Coll) (k : Nat) (d : RedNode) (hcmds : v.cmds = s.cmds) (hdies : v.dies = s.dies) :
    CountsDown s g k d (v.arriveNode g (s.collShape g) k d) := by
  have hshape : s.collShape g = v.collShape g := by unfold State.collShape State.collCmds State.cmd?; rw [hcmds]
  rw [hshape]
  exact (arriveNode_spec v g k d).1.congr hcmds.symm hdies.symm rfl

/-! #### Blocks that end -/

/-- A block that leaves its context. -/
def State.resvFreed (s : State) (ck : Nat) : State := s.modCore ck fun k => { k with resv := none }

theorem resvFreed_spec (s : State) (ck : Nat) :
    s.resvFreed ck = { s with cores := (s.resvFreed ck).cores } ∧
      ∀ k, (s.resvFreed ck).core k = if k = ck then { s.core k with resv := none } else s.core k := modCore_spec s ck _

theorem reduceBlockEnd_eq {p core : Nat} {j : RedJob} {g : Coll} (hj : (s.core (coreKey p core)).resv = some j)
    (hg : s.colls.find? (fun g => g.collid == j.coll) = some g) (hnew : j.chunk ∉ g.reduced) :
    exec (.reduceBlockEnd p core) s = .next ((s.resvFreed (coreKey p core)).nodeDone g j.chunk j.node) := by
  show execReduceBlockEnd p core s = _
  have hg' : (s.modCore (coreKey p core) fun k => { k with resv := none }).colls.find? (fun g => g.collid == j.coll) = some g := hg
  simp only [execReduceBlockEnd, hj, hg']
  rw [if_neg (by simpa using hnew)]
  rfl

/-- A collective after the flags `fl` of a combined chunk: each rank's own for a cavity, else one for all. -/
def Coll.flagged (cav : Bool) (fl : Nat → W32) (g : Coll) : Coll :=
  if cav then { g with ranks := (g.ranks.zipIdx).map fun (r, q) => { r with flags := r.flags ||| fl q } }
  else { g with flags := g.flags ||| fl 0 }

theorem flagged_collid (cav : Bool) (fl : Nat → W32) (g : Coll) : (g.flagged cav fl).collid = g.collid := by cases cav <;> rfl

theorem flagged_reduced (cav : Bool) (fl : Nat → W32) (g : Coll) : (g.flagged cav fl).reduced = g.reduced := by cases cav <;> rfl

theorem flagged_rank {cav : Bool} {fl : Nat → W32} {g : Coll} {q : Nat} {r : Rank} (hq : g.ranks[q]? = some r) :
    ∃ r', (g.flagged cav fl).ranks[q]? = some r' ∧ r'.delivered = r.delivered := by
  cases cav with
  | false => exact ⟨r, hq, rfl⟩
  | true =>
    refine ⟨{ r with flags := r.flags ||| fl q }, ?_, rfl⟩
    simp [Coll.flagged, hq]

theorem flagged_collShape (s : State) (cav : Bool) (fl : Nat → W32) (g : Coll) : s.collShape (g.flagged cav fl) = s.collShape g := by
  unfold State.collShape State.collCmds
  congr 2
  cases cav with
  | false => rfl
  | true =>
    refine List.ext_getElem (by simp [Coll.flagged]) fun i _ _ => ?_
    simp [Coll.flagged]

/-- The end of the tree combines a chunk of a collective that goes on. -/
theorem reduceChunk_spec {g : Coll} {k q : Nat} {r : Rank} (hg : s.colls.find? (fun x => x.collid == g.collid) = some g)
    (hq : g.ranks[q]? = some r) (hrec : (s.collShape g).receives q = true) (hwait : r.delivered < (s.collShape g).chunks) :
    let h := s.collShape g
    let outs := combine (s.isCav g) h.rop h.efmt (g.ranks.map fun r => r.chunkBytes h k)
    let u := s.reduceChunk g k
    (u.deliveries.map fun d => (d.coll, d.rank, d.chunk, d.data)) = (s.deliveries.map fun d => (d.coll, d.rank, d.chunk, d.data)) ++
        ((List.range h.n).filter h.receives).map (fun q => (g.collid, q, k, (outs.getD q ([], 0)).1)) ∧
      (∃ x ∈ u.colls, x.collid = g.collid ∧ x.reduced = g.reduced ++ [k]) ∧
      u = { s with deliveries := u.deliveries, colls := u.colls, nextId := u.nextId } := by
  intro h outs u
  let fl (q : Nat) : W32 := (outs.getD q ([], 0)).2
  let f : Coll → Coll := Coll.flagged (s.isCav g) fl
  have hu : u = (s.modColl g.collid f).sendChunk g h k fun q => (outs.getD q ([], 0)).1 := rfl
  have hfind : (s.modColl g.collid f).colls.find? (fun x => x.collid == g.collid) = some (f g) :=
    find_modColl f (fun _ => flagged_collid _ _ _) hg
  have hshape : (s.modColl g.collid f).collShape (f g) = h := flagged_collShape s _ _ g
  obtain ⟨r', hr', hd⟩ : ∃ r', (f g).ranks[q]? = some r' ∧ r'.delivered = r.delivered := flagged_rank hq
  obtain ⟨hdel, ⟨x, hx, hxid, hxred⟩, hframe⟩ := sendChunk_spec (fun q => (outs.getD q ([], 0)).1) (flagged_collid _ _ _) hfind hshape hr' hrec
    (k := k) (by rw [hd]; exact hwait)
  rw [← hu] at hdel hx hframe
  exact ⟨hdel, ⟨x, hx, hxid, hxred.trans (by rw [show (f g).reduced = g.reduced from flagged_reduced _ _ _])⟩, hframe⟩

/-! #### Deliveries that arrive -/

/-- A delivery that lands in a row of SCRATCH. -/
theorem deliverBytes_spec {d : Delivery} {c : Cmd} {o : Nat} (hin : c.Receives s o c.shapeRaw.rb) (hrows : c.shapeRaw.rows = 1)
    (hlen : d.data.length ≤ c.shapeRaw.chunkEnd d.chunk) (hdst : c.shapeRaw.dst = BitVec.ofNat 64 (0xFFFF000000000000 + o)) :
    let l := (s.scratchPlace c.wg o).loc + (c.shapeRaw.chunkEnd d.chunk - d.data.length)
    let u := s.deliverBytes d c c.shapeRaw
    u.mem = writeBytes s.mem l d.data ∧ (∀ x ∈ u.deliveries, x.id ≠ d.id) ∧ u.threads = s.threads ∧ u.wgs = s.wgs := by
  intro l u
  have hend : c.shapeRaw.chunkEnd d.chunk ≤ c.shapeRaw.rb := by
    unfold Shape.chunkEnd Shape.total
    rw [hrows, Nat.one_mul]
    exact Nat.min_le_left _ _
  have hruns : RunsFrom c.shapeRaw.dstAt o c.shapeRaw.rb := fun b hb => by
    rw [Shape.dstAt, Nat.div_eq_of_lt hb, Nat.mod_eq_of_lt hb, Nat.zero_mul, Nat.zero_add, hdst, scratchAddr_add]
  obtain ⟨v, hunits, hlands, hmem⟩ := deliverUnits_spec hruns (data := d.data) (b0 := c.shapeRaw.chunkEnd d.chunk - d.data.length)
    (d.data.length + 1) s (c.shapeRaw.chunkEnd d.chunk - d.data.length) d.data.length hin (by omega) (by omega) (by omega) (by omega)
  rw [Nat.sub_self, List.drop_zero] at hmem
  have hu : u = (v.modCmd c.id fun x => { x with sent := x.sent + d.data.length }).delivered d 0 := by
    simp only [u, State.deliverBytes, hunits]
  obtain ⟨h1, h2, h3, h4⟩ := delivered_settles (v.modCmd c.id fun x => { x with sent := x.sent + d.data.length }) d 0
  rw [← hu] at h1 h2 h3 h4
  refine ⟨h1.trans hmem, h4, h2.trans ?_, h3.trans ?_⟩
  · show v.threads = _
    rw [show v = _ from hlands]
  · show v.wgs = _
    rw [show v = _ from hlands]

/-! #### The obligation -/

/-- Settles O48: a chunk's way through its nodes is `arriveNode` at each of them, the last of which combines; a delivery is written a
destination word at a time. -/
theorem collectivesCombine : Obligations.CollectivesCombine := by
  unfold Obligations.CollectivesCombine
  intro s
  refine ⟨?_, ?_, ?_, ?_, ?_, ?_, ?_⟩
  · intro collid g hnew hne hagree hneed hfind
    show execCollectiveForm collid s = _
    have hany : (s.colls.any fun g => g.collid == collid) = false := by
      rw [List.any_eq_false]
      exact fun x hx => by simpa using hnew x hx
    have hfits : ((diesOf g).any fun d => decide (2 ^ 22 < needOn g d)) = false := by
      rw [List.any_eq_false]
      exact fun d hd => by have := hneed d hd; simpa using this
    obtain ⟨a, l, rfl⟩ := List.exists_cons_of_ne_nil hne
    dsimp only at hfind
    simp only [execCollectiveForm, hany, hfind]
    rw [if_neg Bool.false_ne_true, hagree, hfits]
    rfl
  · intro collid g hg cs hroom hfirst
    have hok : (diesOf cs).all (fun d => decide ((s.die d).used + needOn cs d ≤ 2 ^ 22) &&
        s.colls.all fun x => !(decide (x.collid < collid) && !x.granted && (diesOf (s.collCmds x)).contains d)) = true := by
      rw [List.all_eq_true]
      intro d hd
      rw [decide_eq_true (hroom d hd), Bool.true_and, List.all_eq_true]
      intro x hx
      by_cases hlt : x.collid < collid <;> cases hgr : x.granted <;> simp [hlt]
      exact hfirst d hd x hx hlt hgr
    obtain ⟨hframe, hdies⟩ := grantAll_spec s cs collid
    have hexec : exec (.stagingGrant collid) s = .next ((s.grantAll cs collid).modColl collid fun x => { x with granted := true }) := by
      show execStagingGrant collid s = _
      simp only [execStagingGrant, hg]
      rw [if_pos hok]
      rfl
    refine ⟨_, hexec, ?_, hdies, ?_⟩
    · unfold State.modColl
      dsimp only
      rw [hframe]
    · unfold State.modColl
      dsimp only
      generalize (s.grantAll cs collid).colls.map _ = l
      rw [hframe]
  · intro collid chunk rank g r c hg hr hc hpark h hrop hex hchunk hlt hdata
    have hexec := chunkArrival_eq hg hr hc hpark hrop hex hchunk hlt hdata
    refine ⟨fun hcav l q ht => ?_, fun hcav => ?_⟩
    · rw [hcav, nodesOf_leaf hrop ht] at hexec
      exact ⟨_, hexec, rfl, arriveNode_countsDown g chunk _ rfl rfl, rfl⟩
    · rw [hcav, nodesOf_cav hrop] at hexec
      exact ⟨_, _, hexec, arriveNode_countsDown g chunk ⟨.pre, 0, rank⟩ rfl rfl,
        arriveNode_countsDown (s := { s with dies := _ }) g chunk ⟨.post, 0, rank⟩ rfl rfl, rfl⟩
  · intro p d j rest i hq hi hresv hquar hlow
    have hfind : (List.range 160).find? (fun i => (s.core (coreKey p (160 * d + i))).resv.isNone && !(s.core (coreKey p (160 * d + i))).quar) =
        some i := by
      rw [List.find?_range_eq_some]
      refine ⟨by rw [hresv, hquar]; rfl, List.mem_range.mpr hi, fun m hm => ?_⟩
      rcases hlow m hm with h | h
      · cases hr : (s.core (coreKey p (160 * d + m))).resv with
        | none => exact absurd hr h
        | some _ => rfl
      · rw [h]
        simp
    obtain ⟨-, hdie⟩ := modDie_spec s (dieKey p d) fun d => { d with redq := rest }
    obtain ⟨-, hcore⟩ := modCore_spec (s.modDie (dieKey p d) fun d => { d with redq := rest }) (coreKey p (160 * d + i)) fun k =>
      { k with resv := some { j with since := s.clockOf p, went := false } }
    have hexec : exec (.reduceBlockDispatch p d) s = .next ((s.modDie (dieKey p d) fun d => { d with redq := rest }).modCore
        (coreKey p (160 * d + i)) fun k => { k with resv := some { j with since := s.clockOf p, went := false } }) := by
      show execReduceBlockDispatch p d s = _
      simp only [execReduceBlockDispatch, hq, hfind]
    exact ⟨_, hexec, hdie, hcore, rfl⟩
  · intro p core j g l q hj hg hnew hpass h hrop ht
    obtain ⟨hframe, hcore⟩ := resvFreed_spec s (coreKey p core)
    have hexec := reduceBlockEnd_eq hj hg hnew
    have ht' : treeNext ((s.resvFreed (coreKey p core)).collShape g).n (j.node.level + 1) j.node.rank = some (l, q) := ht
    simp only [State.nodeDone, hpass, ht'] at hexec
    rw [if_neg (show ((s.resvFreed (coreKey p core)).collShape g).rop ≠ 0 from hrop)] at hexec
    exact ⟨_, hexec, hcore, arriveNode_countsDown g j.chunk _ rfl rfl, rfl⟩
  · intro p core j g q r hj hg hnew hpass hrop ht h cav outs hq hrec hwait
    obtain ⟨hframe, hcore⟩ := resvFreed_spec s (coreKey p core)
    have hexec := reduceBlockEnd_eq hj hg hnew
    have ht' : treeNext ((s.resvFreed (coreKey p core)).collShape g).n (j.node.level + 1) j.node.rank = none := ht
    simp only [State.nodeDone, hpass, ht'] at hexec
    rw [if_neg (show ((s.resvFreed (coreKey p core)).collShape g).rop ≠ 0 from hrop)] at hexec
    have hid : g.collid = j.coll := by simpa using List.find?_some (p := fun g : Coll => g.collid == j.coll) hg
    rw [← hid] at hg
    obtain ⟨hdel, hred, hall⟩ := reduceChunk_spec (s := s.resvFreed (coreKey p core)) (k := j.chunk) hg hq hrec hwait
    refine ⟨_, hexec, ?_, hdel, hred, ?_⟩
    · rw [hall]
      exact hcore
    · conv_lhs => rw [hall]
      rw [hall]
      rfl
  · intro id d g r c o hd hg hr hc hchunk hpark hfills hrepl hredo hm h w b l hrows hlen hdst hin hsize hbase hland
    have hid : d.id = id := by simpa using List.find?_some hd
    obtain ⟨hmem, hgone, hthr, hwgs⟩ := deliverBytes_spec (d := d) (c := c) ⟨hm, hfills, hrepl, hredo, hsize, hbase, hin⟩ hrows hlen hdst
    have hl : l = (s.scratchPlace c.wg o).loc + b := locScratch_add _ _ _ _
    refine ⟨s.deliverBytes d c c.shapeRaw, ?_, ?_, fun x hx => ?_, hid ▸ hgone, hthr, hwgs⟩
    · show execDeliveryArrival id s = _
      simp only [execDeliveryArrival, hd, hg, Option.bind_some, hr, hc]
      rw [if_neg (by simp [hchunk, hpark]), show s.landing c c.shapeRaw r _ _ = _ from hland]
    · rw [hmem, hl]
      exact readBytes_writeBytes hm _ _
    · rw [hmem]
      rw [hl] at hx
      exact readByte_writeBytes_out _ _ _ _ hx

end Sys2Proof.Machine

/-! ### An I-cycle over a table of cores with a key twice (04_registers R80)

The table of cores is a list of keys and values, and `Obligations.HostActs` asks only of the table of packages that its keys rise. An
I-cycle goes through the entries of the table of cores: a core that stands in it twice is served twice, and the latest updates of its
incumbent copies become two I-cycles older. -/

namespace Sys2Proof.Machine

/-- A copy of a launch's incumbents, with an update that dominance heeds in three I-cycles. -/
def youngCopy : Bind := { ctx := 0, young := [{ n := 0, old := none, left := 3 }] }

/-- Core 0 of package 0, which holds that copy, stands twice in the table of cores. -/
def twiceListed : State := { State.reset with cores := [(0, { binds := [youngCopy] }), (0, { binds := [youngCopy] })] }

/-- One I-cycle makes the copy's update two I-cycles older. -/
theorem twiceListed_ages : (match exec (.iCycle 0) twiceListed with
    | .next u => (u.core (coreKey 0 0)).binds == [youngCopy.age.age]
    | _ => false) = true := by decide +kernel

theorem youngCopy_ages_once : [youngCopy].map Bind.age ≠ [youngCopy.age.age] := by decide

/-- Refutes O55: a core whose key stands twice in the table of cores has its incumbent copies aged twice in one I-cycle. -/
theorem not_hostActs : ¬ Obligations.HostActs := by
  unfold Obligations.HostActs
  intro h
  obtain ⟨-, -, -, -, -, -, -, -, -, -, -, -, hcycle, -⟩ := h twiceListed 0
  obtain ⟨u, hu, -, hcore, -⟩ := hcycle (by decide)
  have hages := twiceListed_ages
  rw [hu] at hages
  have hbinds := congrArg Core.binds (hcore (coreKey 0 0))
  rw [if_pos (by decide)] at hbinds
  exact youngCopy_ages_once (hbinds.symm.trans (by simpa using hages))

end Sys2Proof.Machine

/-! ### Events that are posted, and flits that arrive (18_queues R297, 22_links R334 to R337) -/

namespace Sys2Proof.Machine

variable {s t u : State}

/-! #### Events -/

/-- What an event record that is no launch event leaves: it is written to its queue, or counted there. -/
structure State.Posts (s u : State) : Prop where
  frame : u = { s with
    mem := u.mem, views := u.views, viewVer := u.viewVer, homeVer := u.homeVer, notices := u.notices, nextId := u.nextId,
    cores := u.cores, poison := u.poison, fns := u.fns }
  cores : ∀ k, (s.core k).SameButQueue (u.core k)
  fns : ∀ k, u.fn k = { s.fn k with msix := (u.fn k).msix }

theorem State.Posts.refl (s : State) : s.Posts s := ⟨rfl, fun _ => .refl _, fun _ => rfl⟩

theorem State.Stores.posts (h : s.Stores u) : s.Posts u where
  frame := by rw [h.frame]
  cores := h.cores
  fns k := by rw [show u.fn k = s.fn k by unfold State.fn; rw [h.fns]]

theorem putEvent_posts {p : Nat} {e : Event} (h : s.putEvent p e = some t) : s.Posts t := by
  unfold State.putEvent at h
  dsimp only at h
  split at h
  · cases h
  · split at h
    · next base n hring hroom =>
      obtain rfl := Option.some.inj h
      have hst := (devRec_stores s p (base + 32 * (s.devRead p (base + 32 * n) 8 % n)) (eventBytes e)).trans
        (devWord_stores _ p (base + 32 * n) (BitVec.ofNat 64 (s.devRead p (base + 32 * n) 8 + 1)))
      generalize State.devWord _ p _ _ = v at hst
      refine ⟨?_, hst.cores, fun k => ?_⟩
      · have hframe : v = { s with
            mem := v.mem, views := v.views, viewVer := v.viewVer, homeVer := v.homeVer, notices := v.notices, nextId := v.nextId,
            cores := v.cores, poison := v.poison, fns := v.fns } := by
          conv_lhs => rw [hst.frame]
          rw [hst.fns]
        conv_lhs => rw [hframe]
        rfl
      · have hfn : ∀ j, v.fn j = s.fn j := fun j => by unfold State.fn; rw [hst.fns]
        rw [State.modFn_fn]
        split
        · next hk => subst hk; rw [hfn]
        · rw [hfn]
    · cases h

theorem overflow_posts (s : State) (p fn : Nat) : s.Posts (s.overflow p fn) := by
  unfold State.overflow
  dsimp only
  split
  · exact .refl s
  · exact (devWord_stores _ _ _ _).posts

theorem post_posts {p : Nat} {e : Event} (hty : e.ty ≠ 2) : s.Posts (s.post p e) := by
  unfold State.post
  simp only [hty, decide_false, Bool.false_and, Bool.false_eq_true, if_false]
  split
  · next h => exact putEvent_posts h
  · exact overflow_posts _ _ _

theorem linkEvent_posts (s : State) (p : Nat) {ty : Nat} (v : Nat) (hty : ty ≠ 2) : s.Posts (s.linkEvent p ty v) := post_posts hty

theorem State.Posts.threads (h : s.Posts u) : u.threads = s.threads := by rw [h.frame]

theorem State.Posts.fibres (h : s.Posts u) : u.fibres = s.fibres := by rw [h.frame]

theorem State.Posts.pkgs (h : s.Posts u) : u.pkgs = s.pkgs := by rw [h.frame]

/-! #### One fibre, one stream -/

/-- A state with one fibre changed, as its fibres are seen. -/
theorem modFibre_spec (s : State) (k : Nat) (f : Fibre → Fibre) :
    s.modFibre k f = { s with fibres := (s.modFibre k f).fibres } ∧
      ∀ j, (s.modFibre k f).fibre j = if j = k then f (s.fibre j) else s.fibre j := by
  refine ⟨rfl, fun j => ?_⟩
  rw [State.modFibre_fibre]
  by_cases hj : k = j
  · subst hj; simp
  · rw [if_neg hj, if_neg fun h => hj h.symm]

theorem modPkg_spec (s : State) (k : Nat) (f : Pkg → Pkg) :
    s.modPkg k f = { s with pkgs := (s.modPkg k f).pkgs } ∧ ∀ j, (s.modPkg k f).pkg j = if j = k then f (s.pkg j) else s.pkg j := by
  refine ⟨rfl, fun j => ?_⟩
  rw [State.modPkg_pkg]
  by_cases hj : k = j
  · subst hj; simp
  · rw [if_neg hj, if_neg fun h => hj h.symm]

/-- Streams are the package's, whatever the fibres hold. -/
theorem stream_congr (h : t.pkgs = s.pkgs) (p f q : Nat) : t.stream p f q = s.stream p f q := by
  unfold State.stream State.pkg
  rw [h]

theorem modStream_stream (s : State) (p f q : Nat) (u : Stream → Stream) : (s.modStream p f q u).stream p f q = u (s.stream p f q) := by
  unfold State.modStream State.stream
  by_cases hf : f < 16
  · simp only [hf, if_true]
    rw [State.modPkg_pkg, if_pos rfl, tget_tmod_self]
  · simp only [hf, if_false]
    rw [State.modPkg_pkg, if_pos rfl, tget_tmod_self]

/-! #### Flits that arrive -/

/-- A fibre after its oldest flit has been read. -/
def Fibre.rest (x : Fibre) (r : List Beam) : Fibre := { x with wire := r, rxDc := dealt x.rxMask x.rxDc }

theorem taken_fibre {p f : Nat} {b : Beam} {r : List Beam} (h : (s.fibre (fibreKey p f)).wire = b :: r) (j : Nat) :
    (s.taken p f).fibre j = if j = fibreKey p f then (s.fibre (fibreKey p f)).rest r else s.fibre j := by
  unfold State.taken
  rw [(modFibre_spec s _ _).2 j]
  by_cases hj : j = fibreKey p f
  · rw [if_pos hj, if_pos hj, hj, Fibre.rest, h]
    rfl
  · rw [if_neg hj, if_neg hj]

theorem arriving_eq {p f : Nat} {b : Beam} {r : List Beam} {y : Flit} {ty : FlitTy} (h : (s.fibre (fibreKey p f)).wire = b :: r)
    (hy : (s.fibre (fibreKey p f)).reads b = some y) (hty : y.ty = ty) : s.arriving p f ty = some (y, s.taken p f) := by
  unfold State.arriving
  dsimp only
  rw [h]
  dsimp only [List.head?, Option.bind_some]
  rw [hy]
  dsimp only
  rw [hty, if_pos (by simp)]

/-- A flit of the stream to `q` that a cumulative acknowledgement covers. -/
def acksFlit (f q : Nat) (a : BitVec 16) (z : Flit) : Bool := (decide (f < 16) || z.dst == q) && seqBefore z.seq a

/-- A fibre after an acknowledgement that covers some of its flits. -/
def Fibre.acked (x : Fibre) (f q : Nat) (a : BitVec 16) (now : Nat) : Fibre :=
  { x with
    buf := x.buf.filter fun y => !acksFlit f q a y, stalls := 0, progress := now,
    toSend := x.toSend.filter fun y => y.ty != .data || !acksFlit f q a y }

theorem freeTags_fibre (s : State) (p f q : Nat) (done : List Nat) (j : Nat) : (s.freeTags p f q done).fibre j = s.fibre j := rfl

/-- What a cumulative acknowledgement leaves of its fibre, and of the others. -/
structure State.Acks (s : State) (k f q : Nat) (a : BitVec 16) (u : State) : Prop where
  frame : u = { s with fibres := u.fibres, pkgs := u.pkgs }
  others : ∀ j, j ≠ k → u.fibre j = s.fibre j
  self : u.fibre k = { s.fibre k with
    buf := (u.fibre k).buf, stalls := (u.fibre k).stalls, progress := (u.fibre k).progress, toSend := (u.fibre k).toSend }
  buf : (u.fibre k).buf = (s.fibre k).buf.filter fun z => !acksFlit f q a z
  ctl : ((u.fibre k).toSend.filter fun y => y.ty != .data) = (s.fibre k).toSend.filter fun y => y.ty != .data
  stalls : (u.fibre k).stalls ≤ (s.fibre k).stalls

theorem ackUpTo_acks (s : State) (p f q : Nat) (a : BitVec 16) : s.Acks (fibreKey p f) f q a (s.ackUpTo p f q a) := by
  unfold State.ackUpTo
  dsimp only
  split
  · next hempty =>
    refine ⟨rfl, fun _ _ => rfl, rfl, ?_, rfl, Nat.le_refl _⟩
    rw [List.isEmpty_iff, List.filter_eq_nil_iff] at hempty
    refine (List.filter_eq_self.mpr fun z hz => ?_).symm
    rw [Bool.not_eq_true', ← Bool.not_eq_true]
    exact hempty z hz
  · generalize ((s.fibre (fibreKey p f)).buf.filter _).filter _ = done
    have hfib : ∀ j, ((s.modFibre (fibreKey p f) fun x => x.acked f q a (s.pkg p).podt.toNat).freeTags p f q
        (done.map fun y => y.cmd)).fibre j =
        if j = fibreKey p f then (s.fibre j).acked f q a (s.pkg p).podt.toNat else s.fibre j := fun j => by
      rw [freeTags_fibre]
      exact (modFibre_spec s (fibreKey p f) _).2 j
    have hself := (hfib (fibreKey p f)).trans (if_pos rfl)
    show s.Acks (fibreKey p f) f q a
      ((s.modFibre (fibreKey p f) fun x => x.acked f q a (s.pkg p).podt.toNat).freeTags p f q (done.map fun y => y.cmd))
    refine ⟨rfl, fun j hj => (hfib j).trans (if_neg hj), ?_, ?_, ?_, ?_⟩ <;> rw [hself]
    · rfl
    · rfl
    · show List.filter _ (List.filter _ _) = _
      rw [List.filter_filter]
      refine List.filter_congr fun y _ => ?_
      cases y.ty != .data <;> simp
    · exact Nat.zero_le _

end Sys2Proof.Machine

/-! ### Flits: read, acknowledged, asked for again (22_links R334 to R337) -/

namespace Sys2Proof.Machine

variable {s t u v : State}

theorem exec_ackFlit_eq {p f : Nat} {b : Beam} {r : List Beam} {y : Flit} (h : (s.fibre (fibreKey p f)).wire = b :: r)
    (hy : (s.fibre (fibreKey p f)).reads b = some y) (hty : y.ty = .ack) (hdst : y.dst = p) :
    exec (.ackFlit p f) s = .next ((s.taken p f).ackUpTo p f (s.fromPkg p f y) y.ack) := by
  show execAckFlit p f s = _
  unfold execAckFlit
  rw [arriving_eq h hy hty]
  exact if_neg (not_not_intro hdst)

theorem exec_replayRequest_eq {p f : Nat} {b : Beam} {r : List Beam} {y : Flit} (h : (s.fibre (fibreKey p f)).wire = b :: r)
    (hy : (s.fibre (fibreKey p f)).reads b = some y) (hty : y.ty = .replay) (hdst : y.dst = p) :
    exec (.replayRequest p f) s = .next (((s.taken p f).ackUpTo p f (s.fromPkg p f y) y.arg).replayAll p f) := by
  show execReplayRequest p f s = _
  unfold execReplayRequest
  rw [arriving_eq h hy hty]
  exact if_neg (not_not_intro hdst)

theorem taken_self {p f : Nat} {b : Beam} {r : List Beam} (h : (s.fibre (fibreKey p f)).wire = b :: r) :
    (s.taken p f).fibre (fibreKey p f) = (s.fibre (fibreKey p f)).rest r := (taken_fibre h _).trans (if_pos rfl)

theorem taken_other {p f : Nat} {b : Beam} {r : List Beam} (h : (s.fibre (fibreKey p f)).wire = b :: r) {j : Nat}
    (hj : j ≠ fibreKey p f) : (s.taken p f).fibre j = s.fibre j := (taken_fibre h _).trans (if_neg hj)

/-- What an acknowledgement that has been taken from the light leaves. -/
theorem ackFlit_acks {p f : Nat} {b : Beam} {r : List Beam} {y : Flit} (h : (s.fibre (fibreKey p f)).wire = b :: r)
    (hy : (s.fibre (fibreKey p f)).reads b = some y) (hty : y.ty = .ack) (hdst : y.dst = p) :
    ∃ u, exec (.ackFlit p f) s = .next u ∧ (u.fibre (fibreKey p f)).wire = r ∧
      (u.fibre (fibreKey p f)).buf = ((s.fibre (fibreKey p f)).buf.filter fun z => !acksFlit f (s.fromPkg p f y) y.ack z) ∧
      (∀ j, j ≠ fibreKey p f → u.fibre j = s.fibre j) ∧ u = { s with fibres := u.fibres, pkgs := u.pkgs } := by
  have hexec := exec_ackFlit_eq h hy hty hdst
  have hacks := ackUpTo_acks (s.taken p f) p f (s.fromPkg p f y) y.ack
  generalize (s.taken p f).ackUpTo p f (s.fromPkg p f y) y.ack = u at hexec hacks
  refine ⟨u, hexec, ?_, ?_, fun j hj => (hacks.others j hj).trans (taken_other h hj), ?_⟩
  · rw [hacks.self, taken_self h]
    rfl
  · rw [hacks.buf, taken_self h]
    rfl
  · conv_lhs => rw [hacks.frame]
    rfl

/-- A replay of a fibre that has flits to send again and need not go down for it. -/
theorem replayAll_fibre {p f : Nat} (hdown : (s.fibre (fibreKey p f)).down = false)
    (h : (s.fibre (fibreKey p f)).buf = [] ∨ (s.fibre (fibreKey p f)).stalls < 8) (j : Nat) :
    (s.replayAll p f).fibre j =
      if j = fibreKey p f then
        (if (s.fibre j).buf = [] then s.fibre j else (s.fibre j).replay (s.pkg p).podt.toNat)
      else s.fibre j := by
  unfold State.replayAll
  dsimp only
  rw [hdown, Bool.false_or]
  split
  · next hb =>
    rw [List.isEmpty_iff] at hb
    split
    · next hj => rw [hj, if_pos hb]
    · rfl
  · next hb =>
    rw [List.isEmpty_iff] at hb
    rw [if_neg (by have := h.resolve_left hb; omega), (modFibre_spec s _ _).2 j]
    split
    · next hj => rw [hj, if_neg hb]
    · rfl

theorem replayAll_frame {p f : Nat} (h : (s.fibre (fibreKey p f)).buf = [] ∨ (s.fibre (fibreKey p f)).stalls < 8) :
    s.replayAll p f = { s with fibres := (s.replayAll p f).fibres } := (replayAll_deals h).frame

/-- What a replay request that has been taken from the light leaves. -/
theorem replayRequest_replays {p f : Nat} {b : Beam} {r : List Beam} {y : Flit} (h : (s.fibre (fibreKey p f)).wire = b :: r)
    (hy : (s.fibre (fibreKey p f)).reads b = some y) (hty : y.ty = .replay) (hdst : y.dst = p)
    (hdown : (s.fibre (fibreKey p f)).down = false) (hstalls : (s.fibre (fibreKey p f)).stalls < 8) :
    ∃ u, exec (.replayRequest p f) s = .next u ∧ (u.fibre (fibreKey p f)).wire = r ∧
      (u.fibre (fibreKey p f)).buf = ((s.fibre (fibreKey p f)).buf.filter fun z => !acksFlit f (s.fromPkg p f y) y.arg z) ∧
      ((u.fibre (fibreKey p f)).buf ≠ [] → (u.fibre (fibreKey p f)).toSend =
        ((s.fibre (fibreKey p f)).toSend.filter fun y => y.ty != .data) ++ (u.fibre (fibreKey p f)).buf) ∧
      (∀ j, j ≠ fibreKey p f → u.fibre j = s.fibre j) ∧ u = { s with fibres := u.fibres, pkgs := u.pkgs } := by
  have hexec := exec_replayRequest_eq h hy hty hdst
  have hacks := ackUpTo_acks (s.taken p f) p f (s.fromPkg p f y) y.arg
  generalize (s.taken p f).ackUpTo p f (s.fromPkg p f y) y.arg = v at hexec hacks
  have hself := hacks.self
  have hbuf := hacks.buf
  have hctl := hacks.ctl
  have hst := hacks.stalls
  rw [taken_self h] at hself hbuf hctl hst
  have hvst : (v.fibre (fibreKey p f)).stalls < 8 := Nat.lt_of_le_of_lt hst hstalls
  have hfib := replayAll_fibre (s := v) (p := p) (f := f) (by rw [hself]; exact hdown) (.inr hvst)
  have hu := (hfib (fibreKey p f)).trans (if_pos rfl)
  refine ⟨_, hexec, ?_, ?_, fun hne => ?_, fun j hj => ?_, ?_⟩
  · rw [hu]
    split
    · rw [hself]; rfl
    · exact (congrArg Fibre.wire hself).trans rfl
  · rw [hu]
    split <;> exact hbuf
  · rw [hu] at hne ⊢
    split at hne
    · next hnil => exact absurd hnil hne
    · next hnil =>
      rw [if_neg hnil]
      exact congrArg (· ++ (v.fibre (fibreKey p f)).buf) hctl
  · rw [hfib j, if_neg hj, hacks.others j hj, taken_other h hj]
  · rw [replayAll_frame (.inr hvst)]
    conv_lhs => rw [hacks.frame]
    conv_rhs => rw [hacks.frame]
    rfl

/-- ACK_TIMEOUT replays, takes the fibre down after eight replays in a row, and waits for its time. -/
theorem exec_ackTimeout_eq (s : State) (p f : Nat) : exec (.ackTimeout p f) s =
    .next (if (s.fibre (fibreKey p f)).progress + 1000 ≤ (s.pkg p).podt.toNat then s.replayAll p f else s) := rfl

theorem replayAll_of_stalled {p f : Nat} (hbuf : (s.fibre (fibreKey p f)).buf ≠ []) (hdown : (s.fibre (fibreKey p f)).down = false)
    (h8 : 8 ≤ (s.fibre (fibreKey p f)).stalls) :
    s.replayAll p f = s.fibreDown p f 0x13 (f + 2 ^ 16 * (s.fibre (fibreKey p f)).active.toNat) := by
  unfold State.replayAll
  dsimp only
  rw [if_neg (by simp [hbuf, hdown]), if_pos h8]

/-- A fibre that has gone down. -/
def Fibre.fallen (x : Fibre) : Fibre := { x with active := 0, down := true, toSend := [], buf := [] }

theorem fibreDown_eq (s : State) (p f ty n : Nat) : s.fibreDown p f ty n =
    ((s.modFibre (fibreKey p f) Fibre.fallen).modPkg p fun g =>
      g.unsend (decide (16 ≤ f)) (s.fibre (fibreKey p f)).buf).linkEvent p ty n := rfl

/-- What becomes of a fibre that goes down, and of the threads. -/
theorem fibreDown_spec (s : State) (p f : Nat) {ty : Nat} (n : Nat) (hty : ty ≠ 2) :
    (∀ j, (s.fibreDown p f ty n).fibre j = if j = fibreKey p f then (s.fibre j).fallen else s.fibre j) ∧
      (s.fibreDown p f ty n).threads = s.threads := by
  rw [fibreDown_eq]
  generalize hv : ((s.modFibre (fibreKey p f) Fibre.fallen).modPkg p fun g => g.unsend (decide (16 ≤ f)) (s.fibre (fibreKey p f)).buf) = v
  have hp := linkEvent_posts v p n hty
  refine ⟨fun j => ?_, ?_⟩
  · rw [show (v.linkEvent p ty n).fibre j = v.fibre j by unfold State.fibre; rw [hp.fibres], ← hv]
    exact (modFibre_spec s (fibreKey p f) Fibre.fallen).2 j
  · rw [hp.threads, ← hv]
    rfl

/-- Taking the light leaves the packages, so a stream and its far end stay as they are. -/
theorem askReplay_taken {p f z : Nat} {b : Beam} {r : List Beam} (h : (s.fibre (fibreKey p f)).wire = b :: r) (j : Nat) :
    ((s.taken p f).askReplay p f z).fibre j = if j = fibreKey p f then
      ((s.fibre (fibreKey p f)).rest r).queueCtl { ty := .replay, arg := (s.stream p f z).expect, dst := z, src := p }
      else s.fibre j := by
  unfold State.askReplay
  rw [(modFibre_spec _ _ _).2 j]
  split
  · next hj => rw [hj, taken_self h]; rfl
  · next hj => exact taken_other h hj

theorem exec_dataFlit_bad {p f : Nat} {b : Beam} {r : List Beam} (h : (s.fibre (fibreKey p f)).wire = b :: r)
    (hb : (s.fibre (fibreKey p f)).reads b = none) : exec (.dataFlit p f) s = .next (s.takeBad p f) := by
  show execDataFlit p f s = _
  unfold execDataFlit
  dsimp only
  rw [h]
  dsimp only
  rw [hb]

/-- A flit that cannot be read is discarded, and asked for again outside loss recovery. -/
theorem takeBad_spec {p f z g : Nat} {b : Beam} {r : List Beam} (h : (s.fibre (fibreKey p f)).wire = b :: r)
    (hz : s.nearEnd p f = some (z, g)) :
    (∀ j, (s.takeBad p f).fibre j = if j = fibreKey p f then
        (if (s.stream p f z).lost = 0 then
          ((s.fibre (fibreKey p f)).rest r).queueCtl { ty := .replay, arg := (s.stream p f z).expect, dst := z, src := p }
        else (s.fibre (fibreKey p f)).rest r)
      else s.fibre j) ∧ s.takeBad p f = { s with fibres := (s.takeBad p f).fibres } := by
  unfold State.takeBad
  rw [hz]
  dsimp only
  split
  · exact ⟨askReplay_taken h, rfl⟩
  · exact ⟨taken_fibre h, rfl⟩

end Sys2Proof.Machine

/-! ### Data that is accepted, and light that is lost (22_links R335 to R337, R342) -/

namespace Sys2Proof.Machine

variable {s t u v : State}

/-! #### Data -/

theorem ackUpTo_of_empty {p f q : Nat} {a : BitVec 16} (h : (s.fibre (fibreKey p f)).buf = []) : s.ackUpTo p f q a = s := by
  unfold State.ackUpTo
  dsimp only
  rw [h]
  rfl

/-- The message that the context flit of a command brings. -/
def Flit.ctxMsg (y : Flit) (p id : Nat) (c : List Byte) : Msg :=
  { id := id, cmd := y.cmd, pkg := p, core := fld c 12 2, launchid := 0, wgid := BitVec.ofNat 32 (fld c 8 4),
    ring := fld c 14 1, srcPkg := y.src, srcCore := fld c 16 2, seq := 0, kind := 1,
    payload := (y.payload.drop 24).take (ctxBytes c), key := some (BitVec.ofNat 64 (fld c 0 8)) }

theorem flitMsg_ctx {p : Nat} {y : Flit} {c : List Byte} (h1 : ctxMessages c = 1) (hcmd : y.cmd ∉ s.severed) :
    s.flitMsg p y c 0 24 = { s with nextId := s.nextId + 1, msgs := s.msgs ++ [y.ctxMsg p s.nextId c] } := by
  unfold State.flitMsg Flit.ctxMsg
  rw [if_neg (by rw [List.contains_iff_mem]; exact hcmd)]
  dsimp only [State.fresh]
  rw [h1, if_pos (Nat.zero_add 1)]
  rfl

theorem releaseCtx_of_mem {p cmd : Nat} {m : Msg} (hm : m ∈ s.msgs) (hp : m.pkg = p) (hc : m.cmd = cmd) : s.releaseCtx p cmd = s := by
  unfold State.releaseCtx
  refine if_pos (List.any_eq_true.mpr ⟨m, hm, ?_⟩)
  simp [hp, hc]

/-- A context flit of one message is accepted: the message goes to its ring, and the stream keeps the context. -/
theorem acceptFlit_ctx {p f q : Nat} {y : Flit} {c : List Byte} (hctx : y.ctxFlit = true) (h1 : ctxMessages c = 1)
    (hcmd : y.cmd ∉ s.severed) :
    ∃ v, s.acceptFlit p f q y c = v ∧ (v.stream p f q).expect = (s.stream p f q).expect ∧
      v = { s with nextId := s.nextId + 1, msgs := s.msgs ++ [y.ctxMsg p s.nextId c], pkgs := v.pkgs } := by
  unfold State.acceptFlit
  dsimp only
  rw [if_pos hctx, flitMsg_ctx h1 hcmd]
  rw [releaseCtx_of_mem (p := p) (cmd := y.cmd) (m := y.ctxMsg p s.nextId c)
    (List.mem_append_right s.msgs (List.mem_singleton_self _)) rfl rfl]
  refine ⟨_, rfl, ?_, rfl⟩
  rw [modStream_stream]
  rfl

/-- The next SEQ is expected, and the accepted flit acknowledged ahead of the data. -/
theorem advance_spec (s : State) (p f q : Nat) :
    ((s.advance p f q).stream p f q).expect = (s.stream p f q).expect + 1 ∧
      (∃ a ∈ ((s.advance p f q).fibre (fibreKey p f)).toSend, a.ty = .ack ∧ a.ack = (s.stream p f q).expect + 1) ∧
      (s.advance p f q).fibre (fibreKey p f) = { s.fibre (fibreKey p f) with
        toSend := ((s.advance p f q).fibre (fibreKey p f)).toSend } ∧
      s.advance p f q = { s with fibres := (s.advance p f q).fibres, pkgs := (s.advance p f q).pkgs } := by
  unfold State.advance State.ackBack
  generalize hv : s.modStream p f q (fun t => { t with expect := t.expect + 1 }) = v
  have hexp : (v.stream p f q).expect = (s.stream p f q).expect + 1 := by rw [← hv, modStream_stream]
  have hself : v.fibre (fibreKey p f) = s.fibre (fibreKey p f) := by rw [← hv]; rfl
  dsimp only
  refine ⟨hexp, ?_, ?_, ?_⟩ <;> try rw [State.modFibre_self]
  · refine ⟨{ ty := .ack, ack := (v.stream p f q).expect, dst := q, src := p }, ?_, rfl, hexp⟩
    unfold Fibre.queueCtl
    exact List.mem_append_left _ (List.mem_append_right _ (List.mem_singleton_self _))
  · rw [hself]
    rfl
  · rw [← hv]
    rfl

section
variable {p f : Nat} {b : Beam} {r : List Beam} {y : Flit} {c : List Byte} (h : (s.fibre (fibreKey p f)).wire = b :: r)
  (hy : (s.fibre (fibreKey p f)).reads b = some y)
include h hy

/-- A data flit of the current epoch, with the expected SEQ, for this package. -/
theorem exec_dataFlit_good (hty : y.ty = .data) (hbuf : (s.fibre (fibreKey p f)).buf = [])
    (hepoch : y.epoch = (s.fibre (fibreKey p f)).rxEpoch) (hdst : y.dst = p) (hlost : (s.stream p f (s.fromPkg p f y)).lost = 0)
    (hseq : y.seq = (s.stream p f (s.fromPkg p f y)).expect) (hc : (s.stream p f (s.fromPkg p f y)).ctxOf y = some c)
    (hclean : y.clean = true) : exec (.dataFlit p f) s =
      .next (((s.taken p f).acceptFlit p f (s.fromPkg p f y) y c).advance p f (s.fromPkg p f y)) := by
  have hst : (s.taken p f).stream p f (s.fromPkg p f y) = s.stream p f (s.fromPkg p f y) := rfl
  show execDataFlit p f s = _
  unfold execDataFlit
  dsimp only
  rw [h]
  dsimp only
  rw [hy]
  dsimp only
  rw [if_neg (by simp [hty]), if_neg (by simpa using hlost), if_neg (by simp [hdst]),
    ackUpTo_of_empty (by rw [taken_self h]; exact hbuf), if_neg (by simp [hepoch])]
  unfold State.takeData
  dsimp only
  rw [hst, if_neg (by simp [hseq]), if_neg (not_not_intro hdst), hc]
  dsimp only
  rw [if_pos hclean]

theorem exec_lossReport_eq (hty : y.ty = .loss) (hdst : y.dst = p) {lost : BitVec 16}
    (hl : lost = y.arg &&& (s.fibre (fibreKey p f)).active) :
    let v := ((s.taken p f).modFibre (fibreKey p f) fun x =>
      { x with active := x.active &&& ~~~lost, failed := x.failed ||| lost }).restripe p f
    ∃ n, exec (.lossReport p f) s = .next (v.linkEvent p 0x10 n) := by
  intro v
  have hact : ((s.taken p f).fibre (fibreKey p f)).active = (s.fibre (fibreKey p f)).active := by rw [taken_self h]; rfl
  refine ⟨f + 2 ^ 16 * lost.toNat + 2 ^ 32 * (v.fibre (fibreKey p f)).active.toNat + 2 ^ 48 * (v.fibre (fibreKey p f)).epoch.toNat, ?_⟩
  subst hl
  show execLossReport p f s = _
  unfold execLossReport
  rw [arriving_eq h hy hty]
  refine (if_neg (not_not_intro hdst)).trans ?_
  dsimp only
  rw [hact]

theorem exec_stripeFlit_eq (hty : y.ty = .stripe) (hdst : y.dst = p) : exec (.stripeFlit p f) s =
    .next (((s.taken p f).modFibre (fibreKey p f) fun x =>
      { x with rxMask := y.arg, rxEpoch := y.epoch, rxDc := dealt y.arg 0 }).modStream p f (s.fromPkg p f y) fun t =>
        if y.arg &&& t.lost = 0 then { t with lost := 0, report := 0 } else t) := by
  show execStripeFlit p f s = _
  unfold execStripeFlit
  rw [arriving_eq h hy hty]
  exact if_neg (not_not_intro hdst)

end

/-! #### Light -/

/-- A restripe outside a guard of a fibre that keeps some active wavelength and need not go down. -/
theorem restripe_fibre {p f : Nat} (hact : (s.fibre (fibreKey p f)).active ≠ 0) (hguard : f < 16 ∨ (s.pkg p).guard = false)
    (hdown : (s.fibre (fibreKey p f)).down = false)
    (h : (s.fibre (fibreKey p f)).buf = [] ∨ (s.fibre (fibreKey p f)).stalls < 8) (j : Nat) :
    (s.restripe p f).fibre j = if j = fibreKey p f then
        (let x := { s.fibre j with epoch := (s.fibre j).epoch + 1, dc := 0 }
         let y := if x.buf = [] then x else x.replay (s.pkg p).podt.toNat
         y.first (stripeFlit y))
      else s.fibre j := by
  unfold State.restripe
  dsimp only
  generalize hv : (s.modFibre (fibreKey p f) fun x => { x with epoch := x.epoch + 1, dc := 0 }) = v
  have hself : v.fibre (fibreKey p f) = { s.fibre (fibreKey p f) with epoch := (s.fibre (fibreKey p f)).epoch + 1, dc := 0 } := by
    rw [← hv, State.modFibre_self]
  have hpkg : v.pkg p = s.pkg p := by rw [← hv]; rfl
  have hrep := replayAll_fibre (s := v) (p := p) (f := f) (by rw [hself]; exact hdown) (by rw [hself]; exact h)
  have hrepk := (hrep (fibreKey p f)).trans (if_pos rfl)
  have hnodown : ((v.replayAll p f).fibre (fibreKey p f)).down = false := by
    rw [hrepk]
    split <;> (rw [hself]; exact hdown)
  rw [if_neg (by rw [hself]; exact hact), hpkg,
    if_neg (by rw [Bool.and_eq_true, decide_eq_true_eq]; rintro ⟨hf, hg⟩; rcases hguard with hg' | hg' <;> simp_all; omega), hnodown]
  rw [if_neg Bool.false_ne_true, (modFibre_spec _ _ _).2 j]
  split
  · next hj =>
    rw [hj, hrepk, hself, hpkg]
  · next hj =>
    rw [hrep j, if_neg hj, ← hv, State.modFibre_fibre, if_neg (Ne.symm hj)]

theorem exec_lossDetect_eq {p f z g : Nat} (hz : s.nearEnd p f = some (z, g)) (hd : s.detects p f = true)
    (hnew : (s.fibre (fibreKey z g)).dark &&& (s.fibre (fibreKey p f)).rxMask &&& ~~~(s.stream p f z).lost ≠ 0) :
    exec (.lossDetect p f) s = .next (s.modStream p f z fun t =>
      let new := (s.fibre (fibreKey z g)).dark &&& (s.fibre (fibreKey p f)).rxMask &&& ~~~(s.stream p f z).lost
      { t with lost := t.lost ||| new, report := t.report ||| new }) := by
  show execLossDetect p f s = _
  unfold execLossDetect
  rw [hz]
  refine if_neg ?_
  rw [Bool.or_eq_true, decide_eq_true_eq, hd, not_or]
  exact ⟨hnew, by simp⟩

end Sys2Proof.Machine

/-! ### Flits that are sent, and slots (22_links R333, R340, 25_prog_alltoall R369) -/

namespace Sys2Proof.Machine

variable {s t u v : State}

/-! #### Sending -/

/-- A flit as it leaves on a fibre. -/
def State.stamped (s : State) (p f q : Nat) (y : Flit) : Flit :=
  { y with
    ack := (s.stream p f q).expect, epoch := (s.fibre (fibreKey p f)).epoch, src := if y.ty = .data then y.src else p }

/-- What a flit that leaves changes: the deal of its fibre, and the light that reaches the far end. -/
theorem transmit_spec (s : State) (p f q : Nat) (far : Nat × Nat) (y : Flit) :
    let u := s.transmit p f q far y
    let k := fibreKey p f
    (u.fibre k).buf = (s.fibre k).buf ∧ (u.fibre k).dc = dealt (s.fibre k).active (s.fibre k).dc ∧
      (u.fibre (fibreKey far.1 far.2)).wire = (s.fibre (fibreKey far.1 far.2)).wire ++ [(s.fibre k).beam (s.stamped p f q y)] ∧
      u = { s with fibres := u.fibres } := by
  intro u k
  let v := s.modFibre k fun x => { x with dc := dealt x.active x.dc }
  have hu : u = v.modFibre (fibreKey far.1 far.2) fun z => { z with wire := z.wire ++ [(s.fibre k).beam (s.stamped p f q y)] } := by
    show State.transmit s p f q far y = _
    unfold State.transmit State.stamped
    dsimp only
    rw [show (if (y.ty == FlitTy.data) = true then y.src else p) = if y.ty = .data then y.src else p from
      if_congr beq_iff_eq rfl rfl]
  have hv : ∀ j, v.fibre j = if j = k then { s.fibre j with dc := dealt (s.fibre j).active (s.fibre j).dc } else s.fibre j :=
    (modFibre_spec s k _).2
  have hk : (u.fibre k).buf = (v.fibre k).buf ∧ (u.fibre k).dc = (v.fibre k).dc := by
    rw [hu, (modFibre_spec v _ _).2 k]
    split <;> exact ⟨rfl, rfl⟩
  have hvk := (hv k).trans (if_pos rfl)
  refine ⟨hk.1.trans (by rw [hvk]), hk.2.trans (by rw [hvk]), ?_, ?_⟩
  · rw [hu, State.modFibre_self]
    dsimp only
    rw [hv]
    split <;> rfl
  · rw [hu]
    rfl

theorem nextOwn_of_empty {p f q : Nat} {w : Bool} (h : (s.fibre (fibreKey p f)).toSend = [])
    (hr : (s.stream p f q).report = 0) : s.nextOwn p f q w = none := by
  unfold State.nextOwn
  dsimp only
  rw [h, hr]
  rfl

/-- A flit that takes its SEQ. -/
def Flit.kept (y : Flit) (n : BitVec 16) : Flit := { y with seq := n, numbered := true }

/-- The state in which a queued flit has taken its SEQ and its place in the replay buffer. -/
def State.numbers (s : State) (p f q : Nat) (y : Flit) : State :=
  let v := (s.modPkg p fun g => g.dequeue y.dst (decide (16 ≤ f))).modStream p f q fun t =>
    { t with send := if y.seq == t.send then t.send + 1 else t.send }
  v.modFibre (fibreKey p f) fun x =>
    { x with buf := x.buf ++ [y], progress := if x.buf.isEmpty then (v.pkg p).podt.toNat else x.progress }

theorem dequeue_stream (s : State) (p f q d : Nat) (b : Bool) :
    (s.modPkg p fun g => g.dequeue d b).stream p f q = s.stream p f q := by
  unfold State.stream
  rw [State.modPkg_pkg, if_pos rfl]
  cases b <;> rfl

theorem numbers_spec (s : State) (p f q : Nat) (y : Flit) (n : BitVec 16) (hn : n = (s.stream p f q).send) :
    let u := s.numbers p f q (y.kept n)
    let k := fibreKey p f
    (u.stream p f q).send = n + 1 ∧ (u.stream p f q).expect = (s.stream p f q).expect ∧
      (∀ j, u.fibre j = if j = k then { s.fibre j with buf := (s.fibre j).buf ++ [y.kept n], progress := (u.fibre j).progress }
        else s.fibre j) ∧
      u = { s with fibres := u.fibres, pkgs := u.pkgs } := by
  intro u k
  have hst : u.stream p f q = { s.stream p f q with send := if n == (s.stream p f q).send then (s.stream p f q).send + 1
      else (s.stream p f q).send } := by
    show State.stream (State.modStream (s.modPkg p _) p f q _) p f q = _
    rw [modStream_stream, dequeue_stream]
    rfl
  refine ⟨?_, ?_, fun j => ?_, rfl⟩
  rotate_left 2
  · rw [show u.fibre j = _ from (modFibre_spec _ k _).2 j]
    by_cases hj : j = k
    · rw [if_pos hj, if_pos hj]
      rfl
    · rw [if_neg hj, if_neg hj]
      rfl
  · rw [hst, hn]
    simp
  · rw [hst]

theorem exec_flitSent_eq {p f q : Nat} {far : Nat × Nat} {y : Flit} (hq : (s.pkg p).peer f = some q) (hfar : s.farEnd p f = some far)
    (hdown : (s.fibre (fibreKey p f)).down = false) (hact : (s.fibre (fibreKey p f)).active ≠ 0) (hw : s.inWindow p f = true)
    (hempty : (s.fibre (fibreKey p f)).toSend = []) (hbuf : (s.fibre (fibreKey p f)).buf.length < 64)
    (hy : s.nextQueued p f = some y) (hnum : y.numbered = false) (hr : (s.stream p f q).report = 0) :
    exec (.flitSent p f) s = .next ((s.numbers p f q (y.kept (s.stream p f q).send)).transmit p f q far
      (y.kept (s.stream p f q).send)) := by
  show execFlitSent p f s = _
  unfold execFlitSent
  dsimp only
  rw [hq, hfar]
  dsimp only
  rw [if_neg (by simpa [hdown] using hact), nextOwn_of_empty hempty hr]
  dsimp only
  rw [if_neg (by rw [hw]; simp; omega), hy]
  dsimp only
  rw [hnum]
  rfl

/-! #### Slots -/

/-- The key of a rotor fibre. -/
theorem fibreKey_inj {p f g : Nat} (h : fibreKey p f = fibreKey p g) : f = g := by
  unfold fibreKey at h
  omega

/-- A sender that announces its mask anew. -/
def Fibre.announces (x : Fibre) : Fibre := { x with dc := 0, toSend := { ty := .stripe, epoch := x.epoch, arg := x.active } :: x.toSend }

/-- Some fibres of a package, each once, change alike. -/
theorem foldl_modFibre (b : Nat → Bool) (p : Nat) (g : Fibre → Fibre) (l : List Nat) (hnd : l.Nodup) (s : State) :
    let u := l.foldl (fun s r => if b r then s.modFibre (fibreKey p (16 + r)) g else s) s
    (∀ r ∈ l, u.fibre (fibreKey p (16 + r)) = if b r then g (s.fibre (fibreKey p (16 + r))) else s.fibre (fibreKey p (16 + r))) ∧
      (∀ j, (∀ r ∈ l, j ≠ fibreKey p (16 + r)) → u.fibre j = s.fibre j) ∧ u = { s with fibres := u.fibres } := by
  induction l generalizing s with
  | nil => exact ⟨by simp, fun _ _ => rfl, rfl⟩
  | cons a l ih =>
    obtain ⟨hal, hnd⟩ := List.nodup_cons.mp hnd
    intro u
    generalize hv : (if b a then s.modFibre (fibreKey p (16 + a)) g else s) = v
    have hu : u = l.foldl (fun s r => if b r then s.modFibre (fibreKey p (16 + r)) g else s) v := by
      show List.foldl _ (if b a then _ else s) l = _
      rw [hv]
    have hvf : ∀ j, v.fibre j = if j = fibreKey p (16 + a) then (if b a then g (s.fibre j) else s.fibre j) else s.fibre j := fun j => by
      rw [← hv]
      split
      · exact (modFibre_spec s _ g).2 j
      · split <;> rfl
    have hvframe : v = { s with fibres := v.fibres } := by
      rw [← hv]
      split <;> rfl
    have hne : ∀ r ∈ l, fibreKey p (16 + r) ≠ fibreKey p (16 + a) := fun r hr h => by
      have := fibreKey_inj h
      exact hal (by rwa [show a = r by omega])
    obtain ⟨hin, hout, hframe⟩ := ih hnd v
    rw [hu]
    refine ⟨fun r hr => ?_, fun j hj => ?_, ?_⟩
    · rcases List.mem_cons.mp hr with rfl | hr
      · rw [hout _ fun r' hr' => (hne r' hr').symm, hvf, if_pos rfl]
      · rw [hin r hr, hvf, if_neg (hne r hr)]
    · rw [hout j fun r hr => hj r (List.mem_cons_of_mem _ hr), hvf, if_neg (hj a List.mem_cons_self)]
    · generalize List.foldl _ v l = w at hframe ⊢
      conv_lhs => rw [hframe]
      conv_lhs => rw [hvframe]

theorem exec_slotStart_eq {p : Nat} (h : (s.pkg p).opened = false) : exec (.slotStart p) s =
    .next ((List.range 32).foldl (fun v r => if ((s.pkg p).peer (16 + r)).isSome then
      v.modFibre (fibreKey p (16 + r)) Fibre.announces else v) (s.modPkg p fun g => { g with opened := true })) := by
  show execSlotStart p s = _
  unfold execSlotStart
  dsimp only
  rw [h]
  rfl

theorem unsend_rotor (g : Pkg) (b : List Flit) : g.unsend true b = { g with rotq := (g.unsend true b).rotq } := by
  induction b with
  | nil => rfl
  | cons y b ih =>
    show ({ b.foldr _ g with rotq := _ } : Pkg) = _
    unfold Pkg.unsend at ih
    rw [ih]
    rfl

/-- A fibre with nothing unacknowledged and nothing waiting. -/
def Fibre.emptied (x : Fibre) : Fibre := { x with buf := [], toSend := [] }

/-- The unacknowledged flits of one rotor fibre return. -/
def State.returns (s : State) (p r : Nat) : State :=
  (s.modFibre (fibreKey p (16 + r)) Fibre.emptied).modPkg p fun g => g.unsend true (s.fibre (fibreKey p (16 + r))).buf

theorem returns_spec (s : State) (p r : Nat) :
    (∀ j, (s.returns p r).fibre j = if j = fibreKey p (16 + r) then (s.fibre j).emptied else s.fibre j) ∧
      (∀ j, (s.returns p r).pkg j = if j = p then { s.pkg j with rotq := ((s.returns p r).pkg j).rotq } else s.pkg j) ∧
      s.returns p r = { s with fibres := (s.returns p r).fibres, pkgs := (s.returns p r).pkgs } := by
  refine ⟨(modFibre_spec s _ _).2, fun j => ?_, rfl⟩
  have hj := (modPkg_spec (s.modFibre (fibreKey p (16 + r)) Fibre.emptied) p fun g =>
    g.unsend true (s.fibre (fibreKey p (16 + r))).buf).2 j
  rw [show (s.returns p r).pkg j = _ from hj]
  split
  · exact unsend_rotor _ _
  · rfl

theorem foldl_returns (p : Nat) (l : List Nat) (s : State) :
    let u := l.foldl (fun s r => s.returns p r) s
    (∀ r ∈ l, (u.fibre (fibreKey p (16 + r))).buf = [] ∧ (u.fibre (fibreKey p (16 + r))).toSend = []) ∧
      (∀ j, (s.fibre j).buf = [] ∧ (s.fibre j).toSend = [] → (u.fibre j).buf = [] ∧ (u.fibre j).toSend = []) ∧
      (∀ j, u.pkg j = if j = p then { s.pkg j with rotq := (u.pkg j).rotq } else s.pkg j) ∧
      u = { s with fibres := u.fibres, pkgs := u.pkgs } := by
  induction l generalizing s with
  | nil => exact ⟨by simp, fun _ h => h, fun j => by split <;> rfl, rfl⟩
  | cons a l ih =>
    obtain ⟨hf, hp, hframe⟩ := returns_spec s p a
    obtain ⟨ihin, ihkeep, ihp, ihframe⟩ := ih (s.returns p a)
    have hone : ∀ j, ((s.fibre j).buf = [] ∧ (s.fibre j).toSend = []) ∨ j = fibreKey p (16 + a) →
        ((s.returns p a).fibre j).buf = [] ∧ ((s.returns p a).fibre j).toSend = [] := fun j hj => by
      rw [hf j]
      split
      · exact ⟨rfl, rfl⟩
      · next hne => exact hj.resolve_right hne
    refine ⟨fun r hr => ?_, fun j hj => ihkeep j (hone j (.inl hj)), fun j => ?_, ?_⟩
    · rcases List.mem_cons.mp hr with rfl | hr
      · exact ihkeep _ (hone _ (.inr rfl))
      · exact ihin r hr
    · refine (ihp j).trans ?_
      split
      · next hj => rw [hp j, if_pos hj]; rfl
      · next hj => rw [hp j, if_neg hj]
    · refine ihframe.trans ?_
      conv_lhs => rw [hframe]
      rfl

theorem returnFlits_eq (s : State) (p : Nat) : s.returnFlits p = (List.range 32).foldl (fun s r => s.returns p r) s := rfl

end Sys2Proof.Machine

/-! ### Light confirmed, and what the links do (22_links R329 to R346) -/

namespace Sys2Proof.Machine

variable {s t u v : State}

/-- The thread that waits for the light has its status and goes on. -/
def Thread.linkDone (t : Thread) (d now : Nat) : Thread := { t.wxs (put32 (BitVec.ofNat 7 d) 0) with hold := .none, since := now }

theorem linkDone_thr (s : State) (k d j : Nat) :
    (s.linkDone k d 0).thr j = if j = k ∧ (s.thr j).live = true ∧ (s.thr j).hold = .link d then
        (s.thr j).linkDone d (s.clockOf (s.wg (j / 2048)).pkg) else s.thr j := by
  unfold State.linkDone
  split
  · next hw =>
    rw [Bool.and_eq_true, beq_iff_eq] at hw
    rw [endHold_thr]
    by_cases hj : j = k
    · subst hj
      rw [if_pos rfl, if_pos ⟨rfl, hw⟩, State.modThr_self]
      rfl
    · rw [if_neg hj, if_neg fun h => hj h.1, State.modThr_thr, if_neg (Ne.symm hj)]
  · next hw =>
    rw [Bool.and_eq_true, beq_iff_eq] at hw
    rw [if_neg]
    rintro ⟨rfl, h⟩
    exact hw h

theorem linkDone_frame (s : State) (k d n : Nat) : s.linkDone k d n = { s with threads := (s.linkDone k d n).threads } := by
  unfold State.linkDone
  split <;> rfl

/-- A thread that is named twice wakes once. -/
theorem foldl_linkDone (d : Nat) (ks : List Nat) (s : State) :
    let u := ks.foldl (fun s k => s.linkDone k d 0) s
    (∀ j, u.thr j = if j ∈ ks ∧ (s.thr j).live = true ∧ (s.thr j).hold = .link d then
        (s.thr j).linkDone d (s.clockOf (s.wg (j / 2048)).pkg) else s.thr j) ∧
      u = { s with threads := u.threads } := by
  induction ks generalizing s with
  | nil => exact ⟨by simp, rfl⟩
  | cons k ks ih =>
    obtain ⟨hthr, hframe⟩ := ih (s.linkDone k d 0)
    have hk := linkDone_frame s k d 0
    have hone := linkDone_thr s k d
    have hclock : ∀ j, (s.linkDone k d 0).clockOf ((s.linkDone k d 0).wg (j / 2048)).pkg = s.clockOf (s.wg (j / 2048)).pkg := fun j => by
      rw [hk]
      rfl
    refine ⟨fun j => ?_, hframe.trans ?_⟩
    · refine (hthr j).trans ?_
      rw [hclock]
      have hj1 := hone j
      by_cases hw : (s.thr j).live = true ∧ (s.thr j).hold = .link d
      · by_cases hj : j = k
        · rw [if_pos ⟨hj, hw⟩] at hj1
          rw [hj1, if_neg fun h => absurd h.2.2 (by simp [Thread.linkDone]), if_pos ⟨by simp [hj], hw⟩]
        · rw [if_neg fun h => hj h.1] at hj1
          rw [hj1]
          simp [hj]
      · rw [if_neg fun h => hw h.2] at hj1
        rw [hj1, if_neg fun h => hw h.2, if_neg fun h => hw h.2]
    · show _ = { s with threads := (ks.foldl (fun (s : State) k => s.linkDone k d 0) (s.linkDone k d 0)).threads }
      generalize ks.foldl (fun (s : State) k => s.linkDone k d 0) (s.linkDone k d 0) = w
      rw [hk]

/-- The fibre whose parked or failed wavelengths `w` are confirmed. -/
def Fibre.confirmed (x : Fibre) (w : BitVec 16) : Fibre :=
  { x with
    wake := none, active := x.active ||| w, parked := x.parked &&& ~~~w, failed := x.failed &&& ~~~w, down := false, stalls := 0,
    dark := x.dark &&& ~~~w }

section
variable {p f mask d : Nat} {w : BitVec 16} {ks : List Nat} (hwake : (s.fibre (fibreKey p f)).wake = some (w, ks, d)) (hw : w ≠ 0)
  (hmask : w &&& BitVec.ofNat 16 mask = w)
include hwake hw hmask

theorem exec_lightConfirmation_eq : exec (.lightConfirmation p f mask) s =
    .next (ks.foldl (fun s k => s.linkDone k d 0) ((s.modFibre (fibreKey p f) fun x => x.confirmed w).restripe p f)) := by
  have hc : (w == 0) = false := by simpa using hw
  have hmiss : (w &&& ~~~w).toNat = 0 := by simp
  have htwice : (s.modFibre (fibreKey p f) fun x =>
      { x with wake := none, active := x.active ||| w, parked := x.parked &&& ~~~w, failed := x.failed &&& ~~~w,
               down := x.down && w == 0, stalls := if w = 0 then x.stalls else 0 }).modFibre (fibreKey p f)
        (fun x => { x with dark := x.dark &&& ~~~w }) = s.modFibre (fibreKey p f) fun x => x.confirmed w := by
    unfold State.modFibre
    simp only [tmod_tmod, hc, if_neg hw, Bool.and_false]
    rfl
  show execLightConfirmation p f mask s = _
  unfold execLightConfirmation
  dsimp only
  rw [hwake]
  dsimp only
  rw [hmask, htwice, hmiss]
  simp only [if_neg hw, if_true]

theorem lightConfirmation_spec :
    let x := s.fibre (fibreKey p f)
    ∃ u, exec (.lightConfirmation p f mask) s = .next u ∧ (u.fibre (fibreKey p f)).wake = none ∧
      (u.fibre (fibreKey p f)).active = x.active ||| w ∧ (u.fibre (fibreKey p f)).parked = x.parked &&& ~~~w ∧
      (u.fibre (fibreKey p f)).failed = x.failed &&& ~~~w ∧ (u.fibre (fibreKey p f)).epoch = x.epoch + 1 ∧
      (∀ j, u.thr j = if j ∈ ks ∧ (s.thr j).live = true ∧ (s.thr j).hold = .link d then
          (s.thr j).linkDone d (s.clockOf (s.wg (j / 2048)).pkg) else s.thr j) ∧
      u.mem = s.mem := by
  intro x
  have hexec := exec_lightConfirmation_eq hwake hw hmask
  generalize hv : (s.modFibre (fibreKey p f) fun x => x.confirmed w) = v at hexec
  have hself : v.fibre (fibreKey p f) = x.confirmed w := by rw [← hv, State.modFibre_self]
  have hact : x.active ||| w ≠ 0 := fun h => hw (BitVec.or_eq_zero_iff.mp h).2
  have hd : v.FibreDeals (fibreKey p f) ((v.fibre (fibreKey p f)).epoch + 1) (v.restripe p f) :=
    restripe_deals (by rw [hself]; exact hact) (.inr (by rw [hself]; exact Nat.zero_lt_succ _))
  obtain ⟨hthr, hframe⟩ := foldl_linkDone d ks (v.restripe p f)
  generalize ks.foldl (fun s k => s.linkDone k d 0) (v.restripe p f) = u at hexec hthr hframe
  have hk : u.fibre (fibreKey p f) = (v.restripe p f).fibre (fibreKey p f) := by rw [hframe]; rfl
  have hs : v.restripe p f = { s with fibres := (v.restripe p f).fibres } := by
    have hframe := hd.frame
    generalize v.restripe p f = r at hframe
    rw [hframe, ← hv]
    rfl
  refine ⟨u, hexec, ?_, ?_, ?_, ?_, ?_, fun j => ?_, ?_⟩
  iterate 5 rw [hk, hd.self, hself]; rfl
  · rw [hthr j, hs]
    rfl
  · rw [hframe, hs]

end

/-- A router that has carried nothing for 512 I-cycles is gated, whichever it is. -/
theorem exec_routerGate_eq {p d : Nat} (h : (s.die (dieKey p d)).carried + 512 ≤ s.clockOf p) : exec (.routerGate p d) s =
    .next ({ s with tick := s.tick + 1 }.modDie (dieKey p d) fun x => { x with gated := ninsert x.gated (Config.freeChoice s.tick) }) := by
  show execRouterGate p d s = _
  unfold execRouterGate State.routerIdle
  rw [if_pos h]
  rfl

/-- The slot's end leaves the package's queues and the next entry. -/
theorem slotEnds_spec (s : State) (p : Nat) (g : Pkg → Pkg) (hg : ∀ x r, g { x with rotq := r } = { g x with rotq := r }) :
    let u := (s.returnFlits p).modPkg p g
    (∀ j, u.pkg j = if j = p then { g (s.pkg j) with rotq := (u.pkg j).rotq } else s.pkg j) ∧
      (∀ r < 32, (u.fibre (fibreKey p (16 + r))).buf = [] ∧ (u.fibre (fibreKey p (16 + r))).toSend = []) ∧
      u = { s with pkgs := u.pkgs, fibres := u.fibres } := by
  have hret := foldl_returns p (List.range 32) s
  rw [← returnFlits_eq] at hret
  generalize s.returnFlits p = v at hret
  obtain ⟨hf, -, hp, hframe⟩ := hret
  intro u
  have hup := (modPkg_spec v p g).2
  refine ⟨fun j => ?_, fun r hr => hf r (List.mem_range.mpr hr), ?_⟩
  · by_cases hj : j = p
    · have huj : u.pkg j = g (v.pkg j) := (hup j).trans (if_pos hj)
      rw [if_pos hj, huj, hp j, if_pos hj, hg]
    · rw [if_neg hj, show u.pkg j = v.pkg j from (hup j).trans (if_neg hj), hp j, if_neg hj]
  · show v.modPkg p g = _
    conv_lhs => rw [hframe]
    rfl

theorem modStream_fibre (s : State) (p f q : Nat) (g : Stream → Stream) (j : Nat) : (s.modStream p f q g).fibre j = s.fibre j := rfl

/-- Settles O54: a clause for each event, told by the fibre, the package or the die that it changes. -/
theorem linksRun : Obligations.LinksRun := by
  intro s p f k x ctl now
  refine ⟨?data, ?bad, fun b y r hwire hy hty hdst => ackFlit_acks hwire hy hty hdst,
    fun b y r hwire hy hty hdst hdown hst => replayRequest_replays hwire hy hty hdst hdown hst, fun hbuf hdown => ?timeout,
    ?detect, ?loss, ?stripe, ?sent, fun ho => ?start, fun ho hg ht => ?guard, fun ht => ?slotend, fun t ht hstart => ?table,
    fun h => ?gate, ?wake, ?sync, ?ns, fun w ks d mask hwake hw hmask _ => lightConfirmation_spec hwake hw hmask⟩
  case data =>
    intro b y r c hwire hy hty hbuf hepoch hdst q t hlost hseq hc hclean hctx h1 hcmd
    have hexec := exec_dataFlit_good hwire hy hty hbuf hepoch hdst hlost hseq hc hclean
    obtain ⟨v, hv, hexp, hvf⟩ := acceptFlit_ctx (s := s.taken p f) (p := p) (f := f) (q := q) hctx h1 hcmd
    rw [hv] at hexec
    obtain ⟨hnext, ⟨a, ha, hack, haval⟩, hself, hframe⟩ := advance_spec v p f q
    have hvk : v.fibre k = x.rest r := by rw [hvf]; exact taken_self hwire
    have hvexp : (v.stream p f q).expect = t.expect := hexp
    rw [hvexp] at hnext haval
    rw [hvk] at hself
    refine ⟨_, y.ctxMsg p s.nextId c, hexec, ?_, ?_, hnext, ?_, rfl, rfl, rfl, rfl, rfl, rfl, rfl, rfl, rfl, rfl, rfl,
      ⟨a, ha, hack, haval⟩, ?_, ?_⟩
    · rw [hself]; rfl
    · rw [hself]; rfl
    all_goals
      rw [hframe, hvf]
      rfl
  case bad =>
    intro b r z g hwire hb hz t
    obtain ⟨hfib, hframe⟩ := takeBad_spec hwire hz
    exact ⟨_, exec_dataFlit_bad hwire hb, hfib, hframe⟩
  case timeout =>
    refine ⟨fun ht hst => ⟨_, (exec_ackTimeout_eq s p f).trans (by rw [if_pos ht]), fun j => ?_, replayAll_frame (.inr hst)⟩,
      fun ht h8 => ⟨_, (exec_ackTimeout_eq s p f).trans (by rw [if_pos ht, replayAll_of_stalled hbuf hdown h8]), ?_⟩,
      fun ht => (exec_ackTimeout_eq s p f).trans (by rw [if_neg (Nat.not_le.mpr ht)])⟩
    · rw [replayAll_fibre hdown (.inr hst) j]
      by_cases hj : j = fibreKey p f
      · subst hj
        rw [if_pos rfl, if_pos rfl, if_neg hbuf]
        rfl
      · rw [if_neg hj, if_neg hj]
    · obtain ⟨hfib, hthr⟩ := fibreDown_spec s p f (f + 2 ^ 16 * x.active.toNat) (ty := 0x13) (by decide)
      refine ⟨fun j => (hfib j).trans ?_, hthr⟩
      by_cases hj : j = fibreKey p f
      · subst hj
        rw [if_pos rfl, if_pos rfl]
        rfl
      · rw [if_neg hj, if_neg hj]
  case detect =>
    intro z g hz hd t new hnew
    exact ⟨_, exec_lossDetect_eq hz hd hnew, modStream_stream s p f z _, rfl⟩
  case loss =>
    intro b y r hwire hy hty hdst hf hact hdown hst act
    obtain ⟨n, hexec⟩ := exec_lossReport_eq hwire hy hty hdst rfl
    generalize hv : ((s.taken p f).modFibre (fibreKey p f) fun z =>
      { z with active := z.active &&& ~~~(y.arg &&& x.active), failed := z.failed ||| (y.arg &&& x.active) }) = v at hexec
    have hself : v.fibre k = { x.rest r with active := act, failed := x.failed ||| (y.arg &&& x.active) } := by
      rw [← hv, State.modFibre_self, taken_self hwire]
      rfl
    have hpkg : v.pkg p = s.pkg p := by rw [← hv]; rfl
    have hothers : ∀ j, j ≠ k → v.fibre j = s.fibre j := fun j hj => by
      rw [← hv, State.modFibre_fibre, if_neg hj.symm, taken_other hwire hj]
    have hfib := restripe_fibre (s := v) (p := p) (f := f) (by rw [hself]; exact hact) (.inl hf) (by rw [hself]; exact hdown)
      (by rw [hself]; exact hst)
    have hd : v.FibreDeals k ((v.fibre k).epoch + 1) (v.restripe p f) :=
      restripe_deals (by rw [hself]; exact hact) (by rw [hself]; exact hst)
    have hp := linkEvent_posts (v.restripe p f) p n (ty := 0x10) (by decide)
    refine ⟨_, hexec, fun j => ?_, ?_⟩
    · rw [show ((v.restripe p f).linkEvent p 0x10 n).fibre j = (v.restripe p f).fibre j by unfold State.fibre; rw [hp.fibres], hfib j]
      by_cases hj : j = k
      · subst hj
        rw [if_pos rfl, if_pos rfl, hself, hpkg]
        by_cases hb : x.buf = []
        · simp only [if_pos hb, if_pos (show (x.rest r).buf = [] from hb)]
          rfl
        · simp only [if_neg hb, if_neg (show ¬(x.rest r).buf = [] from hb)]
          rfl
      · rw [if_neg hj, if_neg hj, hothers j hj]
    · rw [hp.threads, hd.frame, ← hv]
      rfl
  case stripe =>
    intro b y r hwire hy hty hdst q t
    refine ⟨_, exec_stripeFlit_eq hwire hy hty hdst, fun j => ?_, modStream_stream _ p f q _, rfl⟩
    rw [modStream_fibre, (modFibre_spec _ _ _).2 j]
    by_cases hj : j = k
    · rw [if_pos hj, if_pos hj, hj, taken_self hwire]
      rfl
    · rw [if_neg hj, if_neg hj, taken_other hwire hj]
  case sent =>
    intro q far y hq hfar hdown hact hw hempty hbuf hy hnum t kept hr
    have hexec := exec_flitSent_eq hq hfar hdown hact hw hempty hbuf hy hnum hr
    obtain ⟨hsend, hexp, hfib, hframe⟩ := numbers_spec s p f q y t.send rfl
    change exec _ s = .next ((s.numbers p f q (y.kept t.send)).transmit p f q far kept) at hexec
    generalize s.numbers p f q (y.kept t.send) = v at hexec hsend hexp hfib hframe
    obtain ⟨hubuf, hudc, huwire, huframe⟩ := transmit_spec v p f q far kept
    have hbeam : (v.fibre k).beam (v.stamped p f q kept) =
        x.beam { kept with ack := t.expect, epoch := x.epoch, src := if y.ty = .data then y.src else p } := by
      unfold State.stamped
      rw [hexp, hfib k, if_pos rfl]
      rfl
    have hfar : (v.fibre (fibreKey far.1 far.2)).wire = (s.fibre (fibreKey far.1 far.2)).wire := by
      rw [hfib]
      split <;> rfl
    rw [hbeam, hfar] at huwire
    generalize v.transmit p f q far kept = u at hexec hubuf hudc huwire huframe
    refine ⟨u, hexec, ?_, ?_, ?_, huwire, ?_⟩
    · rw [hubuf, hfib k, if_pos rfl]
      rfl
    · rw [stream_congr (show u.pkgs = v.pkgs by rw [huframe])]
      exact hsend
    · rw [hudc, hfib k, if_pos rfl]
      rfl
    · rw [huframe, hframe]
  case start =>
    have hexec := exec_slotStart_eq ho
    generalize hv : (s.modPkg p fun g => { g with opened := true }) = v at hexec
    have hspec := foldl_modFibre (fun r => ((s.pkg p).peer (16 + r)).isSome) p Fibre.announces (List.range 32) List.nodup_range v
    generalize List.foldl _ v (List.range 32) = u at hexec hspec
    obtain ⟨hin, -, hframe⟩ := hspec
    refine ⟨u, hexec, fun j => ?_, fun r hr => ?_, ?_⟩
    · rw [show u.pkg j = v.pkg j by rw [hframe]; rfl, ← hv]
      exact (modPkg_spec s p _).2 j
    · rw [hin r (List.mem_range.mpr hr), ← hv]
      rfl
    · rw [hframe, ← hv]
      rfl
  case guard =>
    refine ⟨_, ?_, (modPkg_spec s p fun g => { g with guard := true }).2, rfl⟩
    show execGuardStart p s = _
    unfold execGuardStart
    exact if_pos (by simp [ho, hg, ht])
  case slotend =>
    refine ⟨_, ?_, slotEnds_spec s p (fun g => { g with
      slotIdx := (g.slotIdx + 1) % max 1 g.slots.length, slotStart := g.slotStart + g.slot.len, guard := false,
      opened := false }) fun _ _ => rfl⟩
    show execSlotEnd p s = _
    unfold execSlotEnd
    exact if_pos ht
  case table =>
    have hexec : exec (.slotTableStart p) s = .next (((s.returnFlits p).modPkg p fun g =>
        { g with slots := t.ents, slotIdx := 0, slotStart := t.start, guard := false, opened := false, staged := none }).linkEvent
        p 0x14 t.ents.length) := by
      show execSlotTableStart p s = _
      unfold execSlotTableStart
      dsimp only
      rw [ht]
      exact if_pos hstart
    obtain ⟨hpkg, -, hframe⟩ := slotEnds_spec s p
      (fun g => { g with slots := t.ents, slotIdx := 0, slotStart := t.start, guard := false, opened := false, staged := none })
      fun _ _ => rfl
    generalize ((s.returnFlits p).modPkg p fun g =>
      { g with slots := t.ents, slotIdx := 0, slotStart := t.start, guard := false, opened := false, staged := none }) = v at *
    have hp := linkEvent_posts v p t.ents.length (ty := 0x14) (by decide)
    generalize v.linkEvent p 0x14 t.ents.length = u at hexec hp
    refine ⟨u, hexec, fun j => ?_, ?_⟩
    · rw [show u.pkg j = v.pkg j by unfold State.pkg; rw [hp.pkgs]]
      exact hpkg j
    · rw [hp.threads, hframe]
  case gate => exact ⟨_, exec_routerGate_eq h, (modDie_spec _ _ _).2, rfl⟩
  case wake => exact ⟨_, rfl, (modDie_spec _ _ _).2, rfl⟩
  case sync => exact ⟨_, rfl, (modPkg_spec _ _ _).2, rfl⟩
  case ns => exact ⟨_, rfl, (modPkg_spec _ _ _).2, rfl⟩

end Sys2Proof.Machine

/-! ### Gangs that are marked, and gangs that leave (18_queues R300, R306, 21_tables R324, 01_machine R20) -/

namespace Sys2Proof.Machine

variable {s t u v : State}

/-! #### The mark -/

/-- What marks and the loss of landing entries leave: of a gang all but its mark and its slot, and the gangs that do not run; of a core all
but its landing entries and rings. -/
structure State.Marks (s u : State) : Prop where
  frame : u = { s with ctxs := u.ctxs, gangs := u.gangs, cores := u.cores, quads := u.quads }
  gang : ∀ k, u.gang k = { s.gang k with pre := (u.gang k).pre, slot := (u.gang k).slot }
  idle : ∀ k, (s.gang k).st ≠ .running → u.gang k = s.gang k
  core : ∀ k, u.core k = { s.core k with land := (u.core k).land, rings := (u.core k).rings }
  ctx : ∀ k, u.ctx k = { s.ctx k with slots := (u.ctx k).slots }

theorem State.Marks.refl (s : State) : s.Marks s := ⟨rfl, fun _ => rfl, fun _ _ => rfl, fun _ => rfl, fun _ => rfl⟩

theorem State.Marks.trans (h : s.Marks t) (h' : t.Marks u) : s.Marks u where
  frame := by rw [h'.frame, h.frame]
  gang k := by rw [h'.gang k, h.gang k]
  idle k hk := (h'.idle k (by rw [h.gang k]; exact hk)).trans (h.idle k hk)
  core k := by rw [h'.core k, h.core k]
  ctx k := by rw [h'.ctx k, h.ctx k]

theorem State.Marks.foldl {α : Type} {f : State → α → State} (hf : ∀ (s : State) a, s.Marks (f s a)) (l : List α) (s : State) :
    s.Marks (l.foldl f s) := by
  induction l generalizing s with
  | nil => exact .refl s
  | cons a l ih => exact (hf s a).trans (ih _)

theorem State.Marks.threads (h : s.Marks u) : u.threads = s.threads := by rw [h.frame]

theorem State.Marks.wgs (h : s.Marks u) : u.wgs = s.wgs := by rw [h.frame]

theorem State.Marks.pkgs (h : s.Marks u) : u.pkgs = s.pkgs := by rw [h.frame]

theorem State.Marks.mem (h : s.Marks u) : u.mem = s.mem := by rw [h.frame]

theorem modCore_marks (s : State) (k : Nat) {f : Core → Core} (hf : ∀ c, f c = { c with land := (f c).land, rings := (f c).rings }) :
    s.Marks (s.modCore k f) := by
  refine ⟨rfl, fun _ => rfl, fun _ _ => rfl, fun j => ?_, fun _ => rfl⟩
  rw [State.modCore_core]
  split
  · next hj => subst hj; exact hf _
  · rfl

theorem modQuad_marks (s : State) (k : Nat) (f : Quad → Quad) : s.Marks (s.modQuad k f) :=
  ⟨rfl, fun _ => rfl, fun _ _ => rfl, fun _ => rfl, fun _ => rfl⟩

theorem modCtx_slots_marks (s : State) (k : Nat) (f : List Nat → List Nat) :
    s.Marks (s.modCtx k fun c => { c with slots := f c.slots }) := by
  refine ⟨rfl, fun _ => rfl, fun _ _ => rfl, fun _ => rfl, fun j => ?_⟩
  rw [State.modCtx_ctx]
  split
  · next hj => subst hj; rfl
  · rfl

/-- A change of a running gang's mark or slot. -/
theorem modGang_marks (s : State) (k : Nat) {f : Gang → Gang} (hrun : (s.gang k).st = .running)
    (hf : ∀ g, f g = { g with pre := (f g).pre, slot := (f g).slot }) : s.Marks (s.modGang k f) := by
  refine ⟨rfl, fun j => ?_, fun j hj => ?_, fun _ => rfl, fun _ => rfl⟩ <;> rw [State.modGang_gang]
  · split
    · next hk => subst hk; exact hf _
    · rfl
  · exact if_neg fun hk : k = j => hj (hk ▸ hrun)

/-- A core without the landing entries and rings of a workgroup. -/
def Core.without (c : Core) (lid wgid : W32) : Core :=
  { c with
    land := c.land.filter fun e => !(e.launchid == lid && e.wgid == wgid)
    rings := c.rings.filter fun r => !(r.launchid == lid && r.wgid == wgid) }

theorem dropLand_marks (s : State) (gk : Nat) : s.Marks (s.dropLand gk) := by
  unfold State.dropLand
  refine (State.Marks.foldl (fun s k => ?_) _ s).trans (modQuad_marks _ _ _)
  exact modCore_marks s _ (f := fun c => c.without (s.wg k).launchid (s.wg k).wgid) fun _ => rfl

theorem dropLand_gangs (s : State) (gk : Nat) : (s.dropLand gk).gangs = s.gangs := by
  unfold State.dropLand
  dsimp only
  generalize (s.gang gk).members = l
  show (l.foldl _ s).gangs = s.gangs
  induction l generalizing s with
  | nil => rfl
  | cons k l ih => exact ih _

/-- The state in which a gang that has to be saved has its slot. -/
def State.slotted (s : State) (gk : Nat) (discard : Bool) : State :=
  match (s.gang gk).slot, discard, (s.ctx (s.gang gk).ctx).freeSlot with
  | none, false, some i =>
    (s.modCtx (s.gang gk).ctx fun c => { c with slots := c.slots ++ [i] }).modGang gk fun g => { g with slot := some i }
  | _, _, _ => s

theorem slotted_marks {gk : Nat} (discard : Bool) (hrun : (s.gang gk).st = .running) : s.Marks (s.slotted gk discard) := by
  unfold State.slotted
  split
  · next i _ _ =>
    exact (modCtx_slots_marks s _ (· ++ [i])).trans (modGang_marks _ _ (f := fun g => { g with slot := some i }) hrun fun _ => rfl)
  · exact .refl s

/-- The mark of a gang that runs unmarked and can be saved, or is to be discarded. -/
theorem mark_eq {gk : Nat} {discard : Bool} (hrun : (s.gang gk).st = .running) (hpre : (s.gang gk).pre = none)
    (h : discard = true ∨ s.markable gk = true) :
    s.mark gk discard = ((s.slotted gk discard).dropLand gk).modGang gk fun g => { g with pre := some { discard := discard } } := by
  unfold State.mark
  dsimp only
  rw [if_neg (by simp [hrun]), hpre]
  dsimp only
  rw [if_neg (by rcases h with h | h <;> simp [h])]
  rfl

theorem mark_marks (s : State) (gk : Nat) (discard : Bool) : s.Marks (s.mark gk discard) := by
  by_cases hrun : (s.gang gk).st = .running
  · cases hpre : (s.gang gk).pre with
    | some q =>
      unfold State.mark
      dsimp only
      rw [if_neg (by simp [hrun]), hpre]
      dsimp only
      split
      · exact modGang_marks s gk hrun fun _ => rfl
      · exact .refl s
    | none =>
      by_cases h : discard = true ∨ s.markable gk = true
      · rw [mark_eq hrun hpre h]
        have h1 := (slotted_marks (gk := gk) discard hrun).trans (dropLand_marks (s.slotted gk discard) gk)
        exact h1.trans (modGang_marks _ gk (by rw [h1.gang gk]; exact hrun) fun _ => rfl)
      · unfold State.mark
        dsimp only
        rw [if_neg (by simp [hrun]), hpre]
        dsimp only
        rw [if_pos (by
          rw [not_or, Bool.not_eq_true, Bool.not_eq_true] at h
          simp [h.1, h.2])]
        exact .refl s
  · unfold State.mark
    dsimp only
    rw [if_pos (by simpa using hrun)]
    exact .refl s

theorem markQuar_marks (s : State) (p : Nat) : s.Marks (s.markQuar p) := by
  unfold State.markQuar
  refine State.Marks.foldl (fun s a => ?_) _ s
  dsimp only
  split
  · exact mark_marks s _ _
  · exact .refl s

/-! #### Leaving -/

/-- What gangs that leave their cores leave: of a workgroup all but where it is resident, of a core all but what it keeps for gangs. -/
structure State.Frees (s u : State) : Prop where
  frame : u = { s with wgs := u.wgs, cores := u.cores, quads := u.quads, sillage := u.sillage }
  wg : ∀ k, u.wg k = { s.wg k with resident := (u.wg k).resident }
  gone : ∀ k, (s.wg k).resident = false → (u.wg k).resident = false
  core : ∀ k, u.core k = { s.core k with
    land := (u.core k).land, rings := (u.core k).rings, binds := (u.core k).binds, utlb := (u.core k).utlb }

theorem State.Frees.refl (s : State) : s.Frees s := ⟨rfl, fun _ => rfl, fun _ h => h, fun _ => rfl⟩

theorem State.Frees.trans (h : s.Frees t) (h' : t.Frees u) : s.Frees u where
  frame := by rw [h'.frame, h.frame]
  wg k := by rw [h'.wg k, h.wg k]
  gone k hk := h'.gone k (h.gone k hk)
  core k := by rw [h'.core k, h.core k]

theorem dropLand_frees (s : State) (gk : Nat) : s.Frees (s.dropLand gk) := by
  have hm := dropLand_marks s gk
  have hg := dropLand_gangs s gk
  have hc : (s.dropLand gk).ctxs = s.ctxs := by
    unfold State.dropLand
    dsimp only
    generalize (s.gang gk).members = l
    show (l.foldl _ s).ctxs = s.ctxs
    clear hm hg
    induction l generalizing s with
    | nil => rfl
    | cons k l ih => exact ih _
  generalize s.dropLand gk = u at hm hg hc
  have hwg : ∀ k, u.wg k = s.wg k := fun k => by unfold State.wg; rw [hm.wgs]
  refine ⟨?_, fun k => by rw [hwg], fun k hk => by rw [hwg]; exact hk, fun k => ?_⟩
  · conv_lhs => rw [hm.frame]
    rw [hg, hc, hm.frame]
  · rw [hm.core k]

theorem unbindCopies_core (s : State) (key ctx j : Nat) : (s.unbindCopies false key ctx).core j =
    if key = j then (s.core key).unbind ctx (fnKey (ctx / 256) (s.ctx ctx).fn) else s.core j := by
  show State.core (s.modCore key fun c => c.unbind ctx (fnKey (ctx / 256) (s.ctx ctx).fn)) j = _
  exact State.modCore_core ..

theorem leaveCore_frees (s : State) (k : Nat) : s.Frees (s.leaveCore k) ∧ ((s.leaveCore k).wg k).resident = false := by
  unfold State.leaveCore
  dsimp only
  generalize hv : (s.modWg k fun w => { w with resident := false }) = v
  have hwg : ∀ j, v.wg j = if k = j then { s.wg k with resident := false } else s.wg j := fun j => by
    rw [← hv, State.modWg_wg]
  have h1 : s.Frees v := by
    refine ⟨by rw [← hv]; rfl, fun j => ?_, fun j hj => ?_, fun j => by rw [← hv]; rfl⟩ <;> rw [hwg]
    · split
      · next hk => rw [hk]
      · rfl
    · split
      · rfl
      · exact hj
  have hgone : (v.wg k).resident = false := by rw [hwg, if_pos rfl]
  split
  · exact ⟨h1, hgone⟩
  · refine ⟨h1.trans ⟨rfl, fun _ => rfl, fun _ h => h, fun j => ?_⟩, hgone⟩
    rw [unbindCopies_core]
    split
    · next hj => rw [hj]; rfl
    · rfl

theorem foldl_leaveCore (l : List Nat) (s : State) :
    s.Frees (l.foldl State.leaveCore s) ∧ ∀ k ∈ l, ((l.foldl State.leaveCore s).wg k).resident = false := by
  induction l generalizing s with
  | nil => exact ⟨.refl s, by simp⟩
  | cons a l ih =>
    obtain ⟨h1, hgone⟩ := leaveCore_frees s a
    obtain ⟨h2, hall⟩ := ih (s.leaveCore a)
    refine ⟨h1.trans h2, fun k hk => ?_⟩
    rcases List.mem_cons.mp hk with rfl | hk
    · exact h2.gone _ hgone
    · exact hall k hk

theorem freeGang_frees (s : State) (gk : Nat) :
    s.Frees (s.freeGang gk) ∧ ∀ k ∈ (s.gang gk).members, ((s.freeGang gk).wg k).resident = false := by
  obtain ⟨h, hall⟩ := foldl_leaveCore (s.gang gk).members (s.dropLand gk)
  exact ⟨(dropLand_frees s gk).trans h, hall⟩

theorem State.Frees.gang (h : s.Frees u) (k : Nat) : u.gang k = s.gang k := by rw [h.frame]; rfl

/-- What a gang that retires leaves. -/
structure State.Retires (s : State) (gk : Nat) (u : State) : Prop where
  frame : u = { s with ctxs := u.ctxs, gangs := u.gangs, wgs := u.wgs, cores := u.cores, quads := u.quads, sillage := u.sillage }
  self : (u.gang gk).st = .retired ∧ (u.gang gk).pre = none ∧ (u.gang gk).slot = none
  wg : ∀ k, u.wg k = { s.wg k with resident := (u.wg k).resident }
  gone : ∀ k ∈ (s.gang gk).members, (u.wg k).resident = false
  core : ∀ k, u.core k = { s.core k with
    land := (u.core k).land, rings := (u.core k).rings, binds := (u.core k).binds, utlb := (u.core k).utlb }
  ctx : ∀ k, u.ctx k = { s.ctx k with slots := (u.ctx k).slots }

/-- A gang gives its slot back. -/
theorem freeSlot_spec (s : State) (gk : Nat) : ((s.freeSlot gk).gang gk).slot = none ∧
    s.freeSlot gk = { s with ctxs := (s.freeSlot gk).ctxs, gangs := (s.freeSlot gk).gangs } ∧
    ∀ k, (s.freeSlot gk).ctx k = { s.ctx k with slots := ((s.freeSlot gk).ctx k).slots } := by
  unfold State.freeSlot
  dsimp only
  split
  · next h => exact ⟨h, rfl, fun _ => rfl⟩
  · next i h =>
    refine ⟨by rw [State.modGang_self], rfl, fun k => ?_⟩
    rw [State.modGang_ctx, State.modCtx_ctx]
    split
    · next hk => rw [hk]
    · rfl

theorem retireGang_retires (s : State) (gk : Nat) : s.Retires gk (s.retireGang gk) := by
  unfold State.retireGang
  obtain ⟨hf, hgone⟩ := freeGang_frees s gk
  generalize s.freeGang gk = t at hf hgone
  obtain ⟨hslot, hsframe, hsctx⟩ := freeSlot_spec t gk
  generalize t.freeSlot gk = v at hslot hsframe hsctx
  generalize hw : (v.modGang gk fun g => { g with st := .retired, pre := none }) = w
  have hself : w.gang gk = { v.gang gk with st := .retired, pre := none } := by rw [← hw, State.modGang_self]
  have hwf : w = { s with
      ctxs := w.ctxs, gangs := w.gangs, wgs := w.wgs, cores := w.cores, quads := w.quads, sillage := w.sillage } := by
    rw [← hw]
    show State.modGang v gk _ = _
    conv_lhs => rw [hsframe, hf.frame]
    rw [hsframe]
    rfl
  have hwwg : w.wgs = t.wgs := by rw [← hw, hsframe]; rfl
  have hwcore : w.cores = t.cores := by rw [← hw, hsframe]; rfl
  have hwctx : ∀ k, w.ctx k = { s.ctx k with slots := (w.ctx k).slots } := fun k => by
    have hk : w.ctx k = v.ctx k := by rw [← hw]; rfl
    rw [hk, hsctx k, show t.ctx k = s.ctx k by rw [hf.frame]; rfl]
  have hm := markQuar_marks w (s.gang gk).pkg
  generalize w.markQuar (s.gang gk).pkg = u at hm
  have hug : u.gang gk = w.gang gk := hm.idle gk (by rw [hself]; exact fun h => nomatch h)
  have huwg : ∀ k, u.wg k = t.wg k := fun k => by unfold State.wg; rw [hm.wgs, hwwg]
  have hwc : ∀ k, w.core k = t.core k := fun k => by unfold State.core; rw [hwcore]
  refine ⟨?_, ?_, fun k => ?_, fun k hk => ?_, fun k => ?_, fun k => ?_⟩
  · conv_lhs => rw [hm.frame, hwf]
    rw [hm.wgs, show u.sillage = w.sillage by rw [hm.frame]]
  · rw [hug, hself]
    exact ⟨rfl, rfl, hslot⟩
  · rw [huwg]
    exact hf.wg k
  · rw [huwg]
    exact hgone k hk
  · rw [hm.core k, hwc, hf.core k]
  · rw [hm.ctx k, hwctx k]

end Sys2Proof.Machine

/-! ### Scores of cores, and quarantine (15_counters R268, R269) -/

namespace Sys2Proof.Machine

variable {s t u v : State}

/-- What changes of scores leave: threads and workgroups, of a gang all but its mark and its slot, and of the checks those that stand, an
execution that a quarantine ends aside. -/
structure State.Scored (s u : State) : Prop where
  threads : u.threads = s.threads
  wgs : u.wgs = s.wgs
  gang : ∀ k, u.gang k = { s.gang k with pre := (u.gang k).pre, slot := (u.gang k).slot }
  idle : ∀ k, (s.gang k).st ≠ .running → u.gang k = s.gang k
  checks : ∀ p, ∀ y ∈ (u.pkg p).checks, ∃ z ∈ (s.pkg p).checks, y.id = z.id ∧ (z.gang = none → y = z)

theorem State.Scored.refl (s : State) : s.Scored s :=
  ⟨rfl, rfl, fun _ => rfl, fun _ _ => rfl, fun _ y hy => ⟨y, hy, rfl, fun _ => rfl⟩⟩

theorem State.Scored.trans (h : s.Scored t) (h' : t.Scored u) : s.Scored u where
  threads := h'.threads.trans h.threads
  wgs := h'.wgs.trans h.wgs
  gang k := by rw [h'.gang k, h.gang k]
  idle k hk := (h'.idle k (by rw [h.gang k]; exact hk)).trans (h.idle k hk)
  checks p y hy := by
    obtain ⟨z, hz, hid, hnone⟩ := h'.checks p y hy
    obtain ⟨x, hx, hid', hnone'⟩ := h.checks p z hz
    refine ⟨x, hx, hid.trans hid', fun hg => ?_⟩
    have hzx := hnone' hg
    exact (hnone (by rw [hzx]; exact hg)).trans hzx

theorem State.Scored.of_eq (hthr : u.threads = s.threads) (hwg : u.wgs = s.wgs) (hg : u.gangs = s.gangs) (hp : u.pkgs = s.pkgs) :
    s.Scored u where
  threads := hthr
  wgs := hwg
  gang k := by rw [show u.gang k = s.gang k by unfold State.gang; rw [hg]]
  idle k _ := by unfold State.gang; rw [hg]
  checks p y hy := ⟨y, by rwa [show u.pkg p = s.pkg p by unfold State.pkg; rw [hp]] at hy, rfl, fun _ => rfl⟩

theorem modCore_scored (s : State) (k : Nat) (f : Core → Core) : s.Scored (s.modCore k f) := .of_eq rfl rfl rfl rfl

theorem count_scored (s : State) (k i n : Nat) : s.Scored (s.count k i n) := .of_eq rfl rfl rfl rfl

theorem State.Marks.scored (h : s.Marks u) : s.Scored u where
  threads := h.threads
  wgs := h.wgs
  gang := h.gang
  idle := h.idle
  checks p y hy := ⟨y, by rwa [show u.pkg p = s.pkg p by unfold State.pkg; rw [h.pkgs]] at hy, rfl, fun _ => rfl⟩

theorem State.Posts.scored (h : s.Posts u) : s.Scored u := by
  refine .of_eq h.threads ?_ ?_ h.pkgs <;> rw [h.frame]

/-- A check that runs on a quarantined core is abandoned. -/
def Check.struck (x : Check) (gangs : List Nat) : Check :=
  match x.gang with
  | some g => if gangs.contains g then { x with gang := none, phase := x.phase - 1 } else x
  | none => x

theorem struck_spec (x : Check) (gangs : List Nat) : (x.struck gangs).id = x.id ∧ (x.gang = none → x.struck gangs = x) := by
  unfold Check.struck
  split
  · next g hg =>
    refine ⟨by split <;> rfl, fun h => ?_⟩
    rw [hg] at h
    cases h
  · exact ⟨rfl, fun _ => rfl⟩

/-- A core that has been quarantined. -/
def Core.shut (c : Core) : Core := { c with quar := true, fwd := List.replicate 4 [], land := [], rings := [] }

theorem quarantine_eq (s : State) (p core : Nat) : ∃ gangs n, s.quarantine p core =
    State.pfEvent (((s.modCore (coreKey p core) Core.shut).markQuar p).modPkg p fun k =>
      { k with checks := k.checks.map fun x => x.struck gangs }) p 0x07 core n := ⟨_, _, rfl⟩

/-- A quarantine leaves scores and counts of clean completions. -/
theorem quarantine_spec (s : State) (p core : Nat) : s.Scored (s.quarantine p core) ∧
    ∀ j, ((s.quarantine p core).core j).susp = (s.core j).susp ∧ ((s.quarantine p core).core j).clean = (s.core j).clean := by
  obtain ⟨gangs, n, h⟩ := quarantine_eq s p core
  rw [h]
  have hm := markQuar_marks (s.modCore (coreKey p core) Core.shut) p
  generalize (s.modCore (coreKey p core) Core.shut).markQuar p = v at hm
  generalize hw : (v.modPkg p fun k => { k with checks := k.checks.map fun x => x.struck gangs }) = w
  have hwc : ∀ j, w.core j = v.core j := fun j => by rw [← hw]; rfl
  have hvw : v.Scored w := by
    rw [← hw]
    refine ⟨rfl, rfl, fun _ => rfl, fun _ _ => rfl, fun q y hy => ?_⟩
    rw [(modPkg_spec v p _).2 q] at hy
    split at hy
    · obtain ⟨z, hz, rfl⟩ := List.mem_map.mp hy
      exact ⟨z, hz, (struck_spec z gangs).1, (struck_spec z gangs).2⟩
    · exact ⟨y, hy, rfl, fun _ => rfl⟩
  have hp : w.Posts (w.pfEvent p 0x07 core n) := post_posts (show (0x07 : Nat) ≠ 2 by decide)
  refine ⟨(((modCore_scored s _ _).trans hm.scored).trans hvw).trans hp.scored, fun j => ?_⟩
  have hshut : ∀ c : Core, c.shut.susp = c.susp ∧ c.shut.clean = c.clean := fun c => ⟨rfl, rfl⟩
  have hj : ((s.modCore (coreKey p core) Core.shut).core j).susp = (s.core j).susp ∧
      ((s.modCore (coreKey p core) Core.shut).core j).clean = (s.core j).clean := by
    rw [State.modCore_core]
    split
    · next hk => rw [← hk]; exact hshut _
    · exact ⟨rfl, rfl⟩
  have hq := (hp.cores j).1
  rw [hwc, hm.core j] at hq
  rw [hq]
  exact hj

/-- A score within its bounds. -/
def suspAfter (v : BitVec 16) (d : Int) : BitVec 16 := BitVec.ofNat 16 (max 0 (min 65535 ((v.toNat : Int) + d))).toNat

theorem suspect_spec (s : State) (p core : Nat) (d : Int) : s.Scored (s.suspect p core d) ∧
    ∀ j, ((s.suspect p core d).core j).susp = (if j = coreKey p core then suspAfter (s.core j).susp d else (s.core j).susp) ∧
      ((s.suspect p core d).core j).clean = (s.core j).clean := by
  unfold State.suspect
  dsimp only
  generalize hv : (s.modCore (coreKey p core) fun c => { c with susp := BitVec.ofNat 16 _ }) = v
  have hsv : s.Scored v := by rw [← hv]; exact modCore_scored s _ _
  have hcore : ∀ j, (v.core j).susp = (if j = coreKey p core then suspAfter (s.core j).susp d else (s.core j).susp) ∧
      (v.core j).clean = (s.core j).clean := fun j => by
    rw [← hv, State.modCore_core]
    by_cases hj : j = coreKey p core
    · rw [if_pos hj.symm, if_pos hj, hj]
      exact ⟨rfl, rfl⟩
    · rw [if_neg (Ne.symm hj), if_neg hj]
      exact ⟨rfl, rfl⟩
  split
  · obtain ⟨hq, hqc⟩ := quarantine_spec v p core
    exact ⟨hsv.trans hq, fun j => ⟨(hqc j).1.trans (hcore j).1, (hqc j).2.trans (hcore j).2⟩⟩
  · exact ⟨hsv, hcore⟩

theorem cleanDone_spec (s : State) (p core : Nat) : s.Scored (s.cleanDone p core) ∧
    (∀ j, j ≠ coreKey p core → ((s.cleanDone p core).core j).susp = (s.core j).susp ∧
      ((s.cleanDone p core).core j).clean = (s.core j).clean) ∧
    ((s.core (coreKey p core)).clean + 1 ≠ 0 → ((s.cleanDone p core).core (coreKey p core)).susp = (s.core (coreKey p core)).susp) := by
  unfold State.cleanDone
  dsimp only
  generalize hv : (s.modCore (coreKey p core) fun c => { c with clean := c.clean + 1 }) = v
  have hsv : s.Scored v := by rw [← hv]; exact modCore_scored s _ _
  have hself : v.core (coreKey p core) = { s.core (coreKey p core) with clean := (s.core (coreKey p core)).clean + 1 } := by
    rw [← hv, State.modCore_self]
  have hother : ∀ j, j ≠ coreKey p core → v.core j = s.core j := fun j hj => by rw [← hv, State.modCore_core, if_neg hj.symm]
  split
  · next h0 =>
    obtain ⟨hq, hqc⟩ := suspect_spec v p core (-1)
    refine ⟨hsv.trans hq, fun j hj => ?_, fun h => absurd (by rw [hself] at h0; exact h0) h⟩
    rw [(hqc j).1, (hqc j).2, if_neg hj, hother j hj]
    exact ⟨rfl, rfl⟩
  · refine ⟨hsv, fun j hj => ?_, fun _ => by rw [hself]⟩
    rw [hother j hj]
    exact ⟨rfl, rfl⟩

theorem State.Scored.foldl {α : Type} {f : State → α → State} (hf : ∀ (s : State) a, s.Scored (f s a)) (l : List α) (s : State) :
    s.Scored (l.foldl f s) := by
  induction l generalizing s with
  | nil => exact .refl s
  | cons a l ih => exact (hf s a).trans (ih _)

theorem cleanCores_scored (s : State) (p : Nat) (l : List Nat) : s.Scored (s.cleanCores p l) :=
  State.Scored.foldl (f := fun s c => s.cleanDone p c) (fun s c => (cleanDone_spec s p c).1) l s

theorem score_scored (s : State) (p : Nat) (l : List (Nat × Int)) : s.Scored (s.score p l) :=
  State.Scored.foldl (f := fun s (c : Nat × Int) => s.suspect p c.1 c.2) (fun s c => (suspect_spec s p c.1 c.2).1) l s

theorem coreKey_inj {p c d : Nat} (h : coreKey p c = coreKey p d) : c = d :=
  Nat.add_left_cancel (show 640 * p + c = 640 * p + d from h)

/-- A score that rises. -/
theorem suspAfter_add (v : BitVec 16) (n : Nat) : (suspAfter v n).toNat = min 65535 (v.toNat + n) := by
  unfold suspAfter
  rw [BitVec.toNat_ofNat]
  omega

/-- A score that falls. -/
theorem suspAfter_sub (v : BitVec 16) (n : Nat) : (suspAfter v (-(n : Int))).toNat = v.toNat - n := by
  have := v.isLt
  unfold suspAfter
  rw [BitVec.toNat_ofNat]
  omega

end Sys2Proof.Machine

/-! ### Gangs that are made (01_machine R15, R20, 04_registers R75, 15_counters R267) -/

namespace Sys2Proof.Machine

variable {s t u v : State}

/-! #### Cores made ready -/

/-- What cores, quads and memory made ready for members leave. -/
structure State.Readies (s u : State) : Prop where
  frame : u = { s with
    mem := u.mem, empties := u.empties, poison := u.poison, views := u.views, viewVer := u.viewVer, cores := u.cores, quads := u.quads,
    ctxs := u.ctxs, sillage := u.sillage, nextId := u.nextId }
  core : ∀ k, u.core k = { s.core k with
    binds := (u.core k).binds, td := (u.core k).td, acc := (u.core k).acc, aov := (u.core k).aov, apoi := (u.core k).apoi,
    cb := (u.core k).cb, land := (u.core k).land, lgen := (u.core k).lgen }
  ctx : ∀ k, u.ctx k = { s.ctx k with slots := (u.ctx k).slots }

theorem State.Readies.refl (s : State) : s.Readies s := ⟨rfl, fun _ => rfl, fun _ => rfl⟩

theorem State.Readies.trans (h : s.Readies t) (h' : t.Readies u) : s.Readies u where
  frame := by rw [h'.frame, h.frame]
  core k := by rw [h'.core k, h.core k]
  ctx k := by rw [h'.ctx k, h.ctx k]

theorem State.Readies.foldl {α : Type} {f : State → α → State} (hf : ∀ (s : State) a, s.Readies (f s a)) (l : List α) (s : State) :
    s.Readies (l.foldl f s) := by
  induction l generalizing s with
  | nil => exact .refl s
  | cons a l ih => exact (hf s a).trans (ih _)

theorem modCore_readies (s : State) (k : Nat) {f : Core → Core} (hf : ∀ c, f c = { c with
    binds := (f c).binds, td := (f c).td, acc := (f c).acc, aov := (f c).aov, apoi := (f c).apoi, cb := (f c).cb, land := (f c).land,
    lgen := (f c).lgen }) : s.Readies (s.modCore k f) := by
  refine ⟨rfl, fun j => ?_, fun _ => rfl⟩
  rw [State.modCore_core]
  split
  · next hj => subst hj; exact hf _
  · rfl

theorem wipe_readies (s : State) (loc n : Nat) : s.Readies (s.wipe loc n) := ⟨rfl, fun _ => rfl, fun _ => rfl⟩

theorem planeOwner_spec (c : Core) (b : Bool) : c.planeOwner b = { c with
    binds := (c.planeOwner b).binds, td := (c.planeOwner b).td, acc := (c.planeOwner b).acc, aov := (c.planeOwner b).aov,
    apoi := (c.planeOwner b).apoi, cb := (c.planeOwner b).cb, land := (c.planeOwner b).land, lgen := (c.planeOwner b).lgen } := by
  unfold Core.planeOwner
  dsimp only
  split <;> rfl

theorem bindCopies_readies (s : State) (key ctx : Nat) : s.Readies (s.bindCopies false key ctx) := by
  unfold State.bindCopies
  simp only [Bool.false_eq_true, if_false]
  split
  · exact .refl s
  · refine (modCore_readies s key (f := fun c => { c with binds := c.binds ++ [{ ctx := ctx }] }) fun _ => rfl).trans ?_
    refine State.Readies.foldl (fun s n => ?_) _ _
    split
    · exact .refl s
    · exact ⟨rfl, fun _ => rfl, fun _ => rfl⟩

theorem bindCopies_mem (s : State) (key ctx : Nat) : (s.bindCopies false key ctx).mem = s.mem := by
  unfold State.bindCopies
  simp only [Bool.false_eq_true, if_false]
  split
  · rfl
  · refine (foldl_mem (fun s n => ?_) _ _).trans rfl
    split <;> rfl

theorem startMember_readies (s : State) (k : Nat) : s.Readies (s.startMember k) := by
  unfold State.startMember
  dsimp only
  generalize hv : (if (s.launchOf (s.wg k)).plane then
    (s.bindCopies false (s.wg k).ckey (s.wg k).ctx).modCore (s.wg k).ckey fun c => c.planeOwner (s.launchOf (s.wg k)).replayable
    else s.bindCopies false (s.wg k).ckey (s.wg k).ctx) = v
  have h : s.Readies v := by
    rw [← hv]
    split
    · exact (bindCopies_readies s _ _).trans (modCore_readies _ _ fun c => planeOwner_spec c _)
    · exact bindCopies_readies s _ _
  split
  · exact h.trans (wipe_readies v _ _)
  · exact h

theorem startMember_mem {k : Nat} (h : (s.launchOf (s.wg k)).replayable = false) : (s.startMember k).mem = s.mem := by
  unfold State.startMember
  dsimp only
  rw [h]
  simp only [Bool.false_eq_true, if_false]
  split <;> exact bindCopies_mem s _ _

theorem makeLand_readies (s : State) (gk : Nat) : s.Readies (s.makeLand gk) := by
  unfold State.makeLand
  dsimp only
  generalize hv : (s.gang gk).members.foldl _ s = v
  have h : s.Readies v := by
    rw [← hv]
    refine State.Readies.foldl (fun s k => ?_) _ s
    split
    · exact .refl s
    · exact modCore_readies s _ (f := fun c => { c with lgen := c.lgen + 1, land := c.land ++ [_] }) fun _ => rfl
  split
  · exact h
  · exact h.trans ⟨rfl, fun _ => rfl, fun _ => rfl⟩

theorem makeLand_mem (s : State) (gk : Nat) : (s.makeLand gk).mem = s.mem := by
  unfold State.makeLand
  dsimp only
  generalize hv : (s.gang gk).members.foldl _ s = v
  have h : v.mem = s.mem := by
    rw [← hv]
    refine foldl_mem (fun s k => ?_) s _
    split <;> rfl
  split <;> exact h

/-! #### Threads -/

/-- A thread of a fresh workgroup. -/
def Wg.newThread (w : Wg) (entry : W64) (now i : Nat) : Thread :=
  let t : Thread := { x := List.replicate w.nregs 0, pc := entry, lane := i % Config.gwidth, lead := i - i % Config.gwidth, since := now }
  match w.seeds[i]? with
  | none => t
  | some d => { t with
      pc := d.entry, bnd := d.bound, bsel := d.bsel,
      x := (d.args.flatMap fun (a : W64) => [a.setWidth 32, (a >>> 32).setWidth 32]) ++ List.replicate (w.nregs - 8) 0 }

theorem startThreads_eq (s : State) (k : Nat) : s.startThreads k = (List.range (s.wg k).size).foldl (fun v i =>
    { v with
      threads := tset v.threads (thrKey k i) ((s.wg k).newThread (s.launchOf (s.wg k)).entry (s.clockOf (s.wg k).pkg) i) }) s := rfl

theorem foldl_setThread (k : Nat) (g : Nat → Thread) (n : Nat) (s : State) :
    let u := (List.range n).foldl (fun (v : State) i => { v with threads := tset v.threads (thrKey k i) (g i) }) s
    u = { s with threads := u.threads } ∧ (∀ i < n, u.thr (thrKey k i) = g i) ∧ ∀ j, (∀ i < n, j ≠ thrKey k i) → u.thr j = s.thr j := by
  induction n with
  | zero => exact ⟨rfl, by omega, fun _ _ => rfl⟩
  | succ n ih =>
    rw [List.range_succ, List.foldl_append]
    generalize (List.range n).foldl (fun (v : State) i => { v with threads := tset v.threads (thrKey k i) (g i) }) s = v at ih
    obtain ⟨hframe, hin, hout⟩ := ih
    have hset : ∀ j, State.thr { v with threads := tset v.threads (thrKey k n) (g n) } j = if thrKey k n = j then g n else v.thr j :=
      fun j => tget_tset ..
    refine ⟨?_, fun i hi => ?_, fun j hj => ?_⟩
    · show ({ v with threads := _ } : State) = _
      conv_lhs => rw [hframe]
      rfl
    · refine (hset _).trans ?_
      split
      · next h => rw [show n = i by unfold thrKey at h; omega]
      · next h => exact hin i (by
          rcases Nat.lt_succ_iff_lt_or_eq.mp hi with h' | h'
          · exact h'
          · exact absurd (by rw [h']) h)
    · exact (hset j).trans ((if_neg (hj n (Nat.lt_succ_self n)).symm).trans (hout j fun i hi => hj i (Nat.lt_succ_of_lt hi)))

end Sys2Proof.Machine

/-! ### The gang in its place (01_machine R15, R20) -/

namespace Sys2Proof.Machine

variable {s t u v : State}

/-- The record of a new gang. -/
def Birth.gang (b : Birth) (f : Fit) (l : Launch) (first : Nat) : Gang :=
  { pkg := b.pkg, ctx := b.ctx, gangid := b.gangid, quad := f.quad, cidx := f.cidx,
    members := (List.range b.sizes.length).map (first + ·), stkBase := f.voff, stk := 256 * l.stk,
    vaultBase := f.voff + 256 * l.stk * total b.sizes, vaultSize := l.vault, slot := b.slot, gathered := b.gathered, check := b.check }

/-- The record of its member `m`. -/
def Birth.wg (b : Birth) (f : Fit) (c : Ctx) (gk m : Nat) : Wg :=
  { pkg := b.pkg, core := 4 * f.quad + f.cidx + m, ctx := b.ctx, gang := gk, member := m, wgid := b.wgids.getD m 0, gangid := b.gangid,
    launchid := c.launchid, size := b.sizes.getD m 0, nregs := c.launch.regs, k := b.params, scrBase := f.offs.getD m 0,
    scrSize := c.launch.scratch, seeds := b.seeds.getD m [] }

/-- A member joins: its record, its core and its threads. -/
def State.joins (s : State) (k : Nat) (w : Wg) : State := (State.startMember { s with wgs := tset s.wgs k w } k).startThreads k

/-- The state in which a new gang has its record, its slot and a clean vault. -/
def State.cleared (s : State) (b : Birth) (f : Fit) : State :=
  let l := (s.ctx b.ctx).launch
  let first := s.nextId + 1
  let s : State := { s with nextId := first + b.sizes.length, gangs := tset s.gangs s.nextId (b.gang f l first) }
  let s := match b.slot with
    | some i => s.modCtx b.ctx fun c => { c with slots := c.slots ++ [i] }
    | none => s
  if l.replayable then s.wipe (locVault b.pkg f.quad f.voff) (256 * l.stk * total b.sizes + l.vault) else s

theorem makeGang_eq (s : State) (b : Birth) (f : Fit) : s.makeGang b f = (s.nextId, State.makeLand
    ((List.range b.sizes.length).foldl (fun v m => v.joins (s.nextId + 1 + m) (b.wg f (s.ctx b.ctx) s.nextId m)) (s.cleared b f))
    s.nextId) := rfl

theorem cleared_readies (s : State) (b : Birth) (f : Fit) :
    State.Readies { s with gangs := tset s.gangs s.nextId (b.gang f (s.ctx b.ctx).launch (s.nextId + 1)) } (s.cleared b f) := by
  unfold State.cleared
  dsimp only
  generalize hv : (match b.slot with
    | some i => State.modCtx { s with
        nextId := s.nextId + 1 + b.sizes.length,
        gangs := tset s.gangs s.nextId (b.gang f (s.ctx b.ctx).launch (s.nextId + 1)) } b.ctx fun c => { c with slots := c.slots ++ [i] }
    | none => { s with
        nextId := s.nextId + 1 + b.sizes.length,
        gangs := tset s.gangs s.nextId (b.gang f (s.ctx b.ctx).launch (s.nextId + 1)) }) = v
  have h : State.Readies { s with gangs := tset s.gangs s.nextId (b.gang f (s.ctx b.ctx).launch (s.nextId + 1)) } v := by
    rw [← hv]
    split
    · refine ⟨rfl, fun _ => rfl, fun j => ?_⟩
      rw [State.modCtx_ctx]
      split
      · next hj => subst hj; rfl
      · rfl
    · exact ⟨rfl, fun _ => rfl, fun _ => rfl⟩
  split
  · exact h.trans (wipe_readies v _ _)
  · exact h

theorem cleared_mem {b : Birth} {f : Fit} (h : (s.ctx b.ctx).launch.replayable = false) : (s.cleared b f).mem = s.mem := by
  unfold State.cleared
  dsimp only
  rw [h]
  simp only [Bool.false_eq_true, if_false]
  split <;> rfl

/-- What members that have joined leave. -/
structure State.Joined (s : State) (b : Birth) (f : Fit) (c : Ctx) (gk first n : Nat) (u : State) : Prop where
  frame : u = { s with
    mem := u.mem, empties := u.empties, poison := u.poison, views := u.views, viewVer := u.viewVer, cores := u.cores, quads := u.quads,
    ctxs := u.ctxs, sillage := u.sillage, nextId := u.nextId, wgs := u.wgs, threads := u.threads }
  core : ∀ k, u.core k = { s.core k with
    binds := (u.core k).binds, td := (u.core k).td, acc := (u.core k).acc, aov := (u.core k).aov, apoi := (u.core k).apoi,
    cb := (u.core k).cb, land := (u.core k).land, lgen := (u.core k).lgen }
  ctx : ∀ k, u.ctx k = { s.ctx k with slots := (u.ctx k).slots }
  wg : ∀ m < n, u.wg (first + m) = b.wg f c gk m
  wgOld : ∀ k < first, u.wg k = s.wg k
  thr : (∀ x ∈ b.sizes, x ≤ 2048) → ∀ m < n, ∀ i < b.sizes.getD m 0, u.thr (thrKey (first + m) i) = (b.wg f c gk m).newThread c.launch.entry (s.clockOf b.pkg) i
  thrOld : ∀ k, k / 2048 < first → u.thr k = s.thr k
  mem : c.launch.replayable = false → u.mem = s.mem

theorem thrKey_div {k i : Nat} : (thrKey k i) / 2048 ≥ k := by
  unfold thrKey
  omega

theorem thrKey_ne {k l i j : Nat} (hi : i < 2048) (hj : j < 2048) (h : k ≠ l) : thrKey k i ≠ thrKey l j := by
  unfold thrKey
  omega

theorem getD_sizes {l : List Nat} (h : ∀ x ∈ l, x ≤ 2048) (m : Nat) : l.getD m 0 ≤ 2048 := by
  rw [List.getD_eq_getElem?_getD]
  cases hm : l[m]? with
  | none => exact Nat.zero_le _
  | some x => exact h x (List.mem_of_getElem? hm)

theorem joined {b : Birth} {f : Fit} {c : Ctx} {gk first : Nat} (hl : (s.ctx b.ctx).launch = c.launch) (n : Nat) :
    s.Joined b f c gk first n ((List.range n).foldl (fun v m => v.joins (first + m) (b.wg f c gk m)) s) := by
  induction n with
  | zero => exact ⟨rfl, fun _ => rfl, fun _ => rfl, by omega, fun _ _ => rfl, fun _ => by omega, fun _ _ => rfl, fun _ => rfl⟩
  | succ n ih =>
    rw [List.range_succ, List.foldl_append]
    generalize (List.range n).foldl (fun (v : State) m => v.joins (first + m) (b.wg f c gk m)) s = v at ih
    obtain ⟨hframe, hcore, hctx, hwg, hwgOld, hthr, hthrOld, hmem⟩ := ih
    show s.Joined b f c gk first (n + 1) (v.joins (first + n) (b.wg f c gk n))
    unfold State.joins
    generalize hx : ({ v with wgs := tset v.wgs (first + n) (b.wg f c gk n) } : State) = x
    have hxwg : ∀ j, x.wg j = if first + n = j then b.wg f c gk n else v.wg j := fun j => by rw [← hx]; exact tget_tset ..
    have hr := startMember_readies x (first + n)
    have hrm := startMember_mem (s := x) (k := first + n)
    generalize x.startMember (first + n) = y at hr hrm
    have hywg : ∀ j, y.wg j = x.wg j := fun j => by rw [hr.frame]; rfl
    have hyself : y.wg (first + n) = b.wg f c gk n := by rw [hywg, hxwg, if_pos rfl]
    have hxctx : ∀ j, x.ctx j = v.ctx j := fun j => by rw [← hx]; rfl
    have hyctx : ∀ j, y.ctx j = { s.ctx j with slots := (y.ctx j).slots } := fun j => by rw [hr.ctx j, hxctx, hctx j]
    have hyl : y.launchOf (b.wg f c gk n) = c.launch := by
      show (y.ctx b.ctx).launch = c.launch
      rw [hyctx]
      exact hl
    have hyclock : y.clockOf b.pkg = s.clockOf b.pkg := by
      unfold State.clockOf
      rw [hr.frame, ← hx, hframe]
      rfl
    have hythr : ∀ j, y.thr j = v.thr j := fun j => by rw [hr.frame, ← hx]; rfl
    rw [startThreads_eq, hyself, hyl]
    have hset := foldl_setThread (first + n) ((b.wg f c gk n).newThread c.launch.entry (y.clockOf (b.wg f c gk n).pkg))
      (b.wg f c gk n).size y
    generalize List.foldl _ y _ = u at hset ⊢
    obtain ⟨huframe, hin, hout⟩ := hset
    have huwg : ∀ j, u.wg j = if first + n = j then b.wg f c gk n else v.wg j := fun j => by
      rw [show u.wg j = y.wg j by rw [huframe]; rfl, hywg, hxwg]
    refine ⟨?_, fun k => ?_, fun k => ?_, fun m hm => ?_, fun k hk => ?_, fun hsz m hm i hi => ?_, fun k hk => ?_,
      fun h => ?_⟩
    · conv_lhs => rw [huframe, hr.frame, ← hx, hframe]
      rw [huframe, hr.frame, ← hx]
    · rw [show u.core k = y.core k by rw [huframe]; rfl, hr.core k, show x.core k = v.core k by rw [← hx]; rfl, hcore k]
    · rw [show u.ctx k = y.ctx k by rw [huframe]; rfl, hyctx k]
    · rw [huwg]
      split
      · next h => rw [show n = m by omega]
      · next h => exact hwg m (by omega)
    · rw [huwg, if_neg (by omega)]
      exact hwgOld k hk
    · by_cases hmn : m = n
      · subst hmn
        rw [hin i hi]
        exact congrArg (fun z => (b.wg f c gk m).newThread c.launch.entry z i) hyclock
      · have hi' : i < 2048 := Nat.lt_of_lt_of_le hi (getD_sizes hsz m)
        rw [hout _ fun j hj => thrKey_ne hi' (Nat.lt_of_lt_of_le hj (getD_sizes hsz n)) (by omega), hythr]
        exact hthr hsz m (by omega) i hi
    · rw [hout k fun j _ h => by have := thrKey_div (k := first + n) (i := j); rw [← h] at this; omega, hythr]
      exact hthrOld k hk
    · rw [show u.mem = y.mem by rw [huframe], hrm (by
        rw [hxwg, if_pos rfl]
        show (x.ctx b.ctx).launch.replayable = false
        rw [hxctx, hctx, hl]
        exact h), show x.mem = v.mem by rw [← hx]]
      exact hmem h

/-- What a new gang leaves. -/
structure State.Born (s : State) (b : Birth) (f : Fit) (u : State) : Prop where
  frame : u = { s with
    mem := u.mem, empties := u.empties, poison := u.poison, views := u.views, viewVer := u.viewVer, cores := u.cores, quads := u.quads,
    ctxs := u.ctxs, sillage := u.sillage, nextId := u.nextId, gangs := u.gangs, wgs := u.wgs, threads := u.threads }
  core : ∀ k, u.core k = { s.core k with
    binds := (u.core k).binds, td := (u.core k).td, acc := (u.core k).acc, aov := (u.core k).aov, apoi := (u.core k).apoi,
    cb := (u.core k).cb, land := (u.core k).land, lgen := (u.core k).lgen }
  ctx : ∀ k, u.ctx k = { s.ctx k with slots := (u.ctx k).slots }
  gang : ∀ k, u.gang k = if s.nextId = k then b.gang f (s.ctx b.ctx).launch (s.nextId + 1) else s.gang k
  wg : ∀ m < b.sizes.length, u.wg (s.nextId + 1 + m) = b.wg f (s.ctx b.ctx) s.nextId m
  wgOld : ∀ k ≤ s.nextId, u.wg k = s.wg k
  thr : (∀ x ∈ b.sizes, x ≤ 2048) → ∀ m < b.sizes.length, ∀ i < b.sizes.getD m 0, u.thr (thrKey (s.nextId + 1 + m) i) =
    (b.wg f (s.ctx b.ctx) s.nextId m).newThread (s.ctx b.ctx).launch.entry (s.clockOf b.pkg) i
  thrOld : ∀ k, k / 2048 ≤ s.nextId → u.thr k = s.thr k
  mem : (s.ctx b.ctx).launch.replayable = false → u.mem = s.mem

theorem makeGang_born (s : State) (b : Birth) (f : Fit) :
    ∃ u, s.makeGang b f = (s.nextId, u) ∧ s.Born b f u := by
  refine ⟨_, makeGang_eq s b f, ?_⟩
  have hc := cleared_readies s b f
  have hcm := cleared_mem (s := s) (b := b) (f := f)
  generalize s.cleared b f = v at hc hcm
  have hvgang : ∀ k, v.gang k = if s.nextId = k then b.gang f (s.ctx b.ctx).launch (s.nextId + 1) else s.gang k := fun k => by
    rw [hc.frame]
    exact tget_tset ..
  have hvctx : ∀ k, v.ctx k = { s.ctx k with slots := (v.ctx k).slots } := hc.ctx
  have hj := joined (s := v) (b := b) (f := f) (c := s.ctx b.ctx) (gk := s.nextId) (first := s.nextId + 1)
    (by rw [hvctx]) b.sizes.length
  generalize List.foldl _ v _ = x at hj ⊢
  have hl := makeLand_readies x s.nextId
  have hlm := makeLand_mem x s.nextId
  generalize x.makeLand s.nextId = u at hl hlm
  have hvthr : ∀ k, v.thr k = s.thr k := fun k => by rw [hc.frame]; rfl
  have huthr : ∀ k, u.thr k = x.thr k := fun k => by rw [hl.frame]; rfl
  have huwg : ∀ k, u.wg k = x.wg k := fun k => by rw [hl.frame]; rfl
  refine ⟨?_, fun k => ?_, fun k => ?_, fun k => ?_, fun m hm => ?_, fun k hk => ?_, fun hsz m hm i hi => ?_, fun k hk => ?_,
    fun h => ?_⟩
  · conv_lhs => rw [hl.frame, hj.frame, hc.frame]
    rw [hl.frame, hj.frame, hc.frame]
  · rw [hl.core k, hj.core k, hc.core k]
    rfl
  · rw [hl.ctx k, hj.ctx k, hvctx k]
  · rw [← hvgang k, show u.gang k = v.gang k by rw [hl.frame, hj.frame]; rfl]
  · rw [huwg]
    exact hj.wg m hm
  · rw [huwg, hj.wgOld k (by omega), hc.frame]
    rfl
  · rw [huthr, hj.thr hsz m hm i hi, show v.clockOf b.pkg = s.clockOf b.pkg by rw [hc.frame]; rfl]
  · rw [huthr, hj.thrOld k (by omega), hvthr]
  · rw [hlm, hj.mem h, hcm h]

end Sys2Proof.Machine

/-! ### Records that are gathered and stolen (18_queues R293 to R296) -/

namespace Sys2Proof.Machine

variable {s t u v : State} {ck x : Nat} {e : DqEnt}

/-! #### The arbiter's service leaves room and copies -/

theorem served_core (s : State) (k : Nat) (d : DqUse) (j : Nat) :
    (s.served k d).core j = { s.core j with dqUse := ((s.served k d).core j).dqUse } := by
  unfold State.served
  rw [State.modCore_core]
  split
  · next h => rw [h]
  · rfl

theorem served_gathered (s : State) (k : Nat) (d : DqUse) (j : Nat) : ((s.served k d).core j).gathered = (s.core j).gathered := by
  rw [served_core]

theorem served_gatheredOn (s : State) (k : Nat) (d : DqUse) (p q : Nat) : (s.served k d).gatheredOn p q = s.gatheredOn p q := by
  unfold State.gatheredOn
  simp only [served_gathered]

theorem served_vaultFit (s : State) (k : Nat) (d : DqUse) (p q n : Nat) (b : Bool) :
    (s.served k d).vaultFit p q n b = s.vaultFit p q n b := by
  unfold State.vaultFit
  rw [served_gatheredOn]
  rfl

theorem served_tenants (s : State) (k : Nat) (d : DqUse) (j : Nat) : (s.served k d).tenants j = s.tenants j := by
  unfold State.tenants
  rw [served_gathered]
  rfl

theorem served_regsFit (s : State) (k : Nat) (d : DqUse) (j x n : Nat) : (s.served k d).regsFit j x n = s.regsFit j x n := by
  unfold State.regsFit
  rw [served_tenants]
  rfl

theorem served_scratchTaken (s : State) (k : Nat) (d : DqUse) (j : Nat) : (s.served k d).scratchTaken j = s.scratchTaken j := by
  unfold State.scratchTaken State.gatheredSpan
  rw [served_core]
  rfl

theorem served_scratchFit (s : State) (k : Nat) (d : DqUse) (j : Nat) (l : Launch) : (s.served k d).scratchFit j l = s.scratchFit j l := by
  unfold State.scratchFit
  rw [served_scratchTaken, served_core]
  rfl

theorem served_coreFit (s : State) (k : Nat) (d : DqUse) (j x n : Nat) : (s.served k d).coreFit j x n = s.coreFit j x n := by
  unfold State.coreFit
  rw [served_regsFit, served_scratchFit, served_core]
  rfl

theorem served_gatherRoom (s : State) (k : Nat) (d : DqUse) (j x : Nat) : (s.served k d).gatherRoom j x = s.gatherRoom j x := by
  unfold State.gatherRoom
  dsimp only
  rw [served_coreFit, served_vaultFit]
  rfl

theorem served_mayGather (s : State) (k : Nat) (d : DqUse) (j x : Nat) : (s.served k d).mayGather j x = s.mayGather j x := by
  unfold State.mayGather
  rw [served_gatherRoom]
  rfl

theorem served_recDominated (s : State) (k : Nat) (d : DqUse) (j : Nat) (e : DqEnt) :
    (s.served k d).recDominated j e = s.recDominated j e := by
  unfold State.recDominated
  rw [served_core]
  rfl

/-! #### One record -/

theorem waitsFull_of_zero (s : State) (p core d fn : Nat) (lid : W32) : s.waitsFull p core d fn lid [0, 0] = (.yes, s) := rfl

/-- A record that waits for nothing, is wanted and is not dominated is taken. -/
theorem judge_takes {d : Nat} {ok : State → Nat → DqEnt → Bool} (hx : s.ctxOf (ck / 640) e.launchid = some x) (hok : ok s x e = true)
    (h0 : e.wait0 = 0) (h1 : e.wait1 = 0) (hdom : s.recDominated ck e = false) : s.judge ck d ok e = (.take, s) := by
  unfold State.judge
  dsimp only
  rw [hx]
  dsimp only
  rw [hok, h0, h1, waitsFull_of_zero]
  dsimp only
  rw [hdom]
  rfl

theorem scan_nil (s : State) (ck d : Nat) (ok : State → Nat → DqEnt → Bool) (n : Nat) : s.scan ck d ok n [] = (([], []), s) := by
  cases n <;> rfl

/-- A deque of one such record gives it. -/
theorem scan_takes {d : Nat} {ok : State → Nat → DqEnt → Bool} (h : s.judge ck d ok e = (.take, s)) :
    s.scan ck d ok 1 [e] = (([e], []), s) := by
  unfold State.scan
  rw [h]
  dsimp only
  rw [scan_nil]

theorem setDeque_nil (s : State) (k : Nat) : s.setDeque k [] = s.modCore k fun c => { c with deque := [] } := rfl

/-- The counter of the record's launch does not wrap. -/
theorem gatherEnds_of_one (hd : (s.core ck).deque = [e]) (hx : s.ctxOf (ck / 640) e.launchid = some x)
    (hg : (s.ctx x).gather < 2 ^ 32) : s.gatherEnds ck = s := by
  unfold State.gatherEnds
  rw [hd]
  show (match s.ctxOf (ck / 640) e.launchid with | none => s | some x => if 2 ^ 32 ≤ (s.ctx x).gather then s.gatherStop ck x else s) = s
  rw [hx]
  exact if_neg (Nat.not_le.mpr hg)

theorem coreKey_div {p c : Nat} (h : c < 640) : coreKey p c / 640 = p := by
  unfold coreKey
  omega

theorem coreKey_mod {p c : Nat} (h : c < 640) : coreKey p c % 640 = c := by
  unfold coreKey
  omega

/-- A gathered workgroup stands on its core, and its launch has counted it. -/
theorem gatherInto_spec (s : State) (ck x : Nat) (recs : List DqEnt) (room : Nat × Nat) :
    (∀ k, (s.gatherInto ck x recs room).core k = if k = ck then
        { s.core k with
          gathered := some { ctx := x, wgid := BitVec.ofNat 32 (s.ctx x).gather, recs := recs, off := room.1, voff := room.2 } }
      else s.core k) ∧
      (∀ k, (s.gatherInto ck x recs room).ctx k = if k = x then { s.ctx k with gather := (s.ctx k).gather + 1 } else s.ctx k) ∧
      s.gatherInto ck x recs room = { s with
        cores := (s.gatherInto ck x recs room).cores, ctxs := (s.gatherInto ck x recs room).ctxs } := by
  refine ⟨fun k => (modCore_spec _ _ _).2 k, fun k => ?_, rfl⟩
  show State.ctx (s.modCtx x fun c => { c with gather := c.gather + 1 }) k = _
  rw [State.modCtx_ctx]
  by_cases hk : k = x
  · rw [if_pos hk.symm, if_pos hk, hk]
  · rw [if_neg (Ne.symm hk), if_neg hk]

theorem exec_gather_eq {p core : Nat} {room : Nat × Nat} (hcore : core < 640) (hq : (s.core (coreKey p core)).quar = false)
    (hg : (s.core (coreKey p core)).gathered = none) (hd : (s.core (coreKey p core)).deque = [e])
    (hx : s.ctxOf p e.launchid = some x) (hmay : s.mayGather (coreKey p core) x = true) (hcount : (s.ctx x).gather < 2 ^ 32)
    (hroom : s.gatherRoom (coreKey p core) x = some room) (h0 : e.wait0 = 0) (h1 : e.wait1 = 0)
    (hdom : s.recDominated (coreKey p core) e = false) (hserve : (s.core (coreKey p core)).dqUse = .none)
    (hplace : s.placesOn p core = false) : exec (.gather p core) s =
      .next ((((s.served (coreKey p core) .gather).modCore (coreKey p core) fun c => { c with deque := [] }).gatherInto
        (coreKey p core) x [e] room)) := by
  have hdiv := coreKey_div (p := p) hcore
  have hj : (s.served (coreKey p core) .gather).judge (coreKey p core) (core / 160) (fun s x _ => s.mayGather (coreKey p core) x) e =
      (.take, s.served (coreKey p core) .gather) :=
    judge_takes (x := x) (by rw [hdiv]; exact hx) (by rw [served_mayGather]; exact hmay) h0 h1 (by rw [served_recDominated]; exact hdom)
  show execGather p core s = _
  unfold execGather
  dsimp only
  rw [if_neg (by simp [hq, hg, hplace, hcore, State.mayServe, hserve]), gatherEnds_of_one hd (by rw [hdiv]; exact hx) hcount, hd]
  show (match (s.served (coreKey p core) .gather).scan (coreKey p core) (core / 160) _ 1 [e] with
    | (([], l), s) => Host.Outcome.next (s.setDeque (coreKey p core) l.reverse)
    | ((e :: _, l), s) => _) = _
  rw [scan_takes hj]
  dsimp only
  rw [show (s.served (coreKey p core) .gather).ctxOf p e.launchid = some x from hx]
  dsimp only
  rw [served_gatherRoom, hroom, scan_nil]
  rfl

end Sys2Proof.Machine

/-! ### Stealing, and the dispatch of a gathered workgroup (18_queues R294 to R296) -/

namespace Sys2Proof.Machine

variable {s t u v : State} {x : Nat} {e : DqEnt}

theorem stranded_of_notQuar {ck v : Nat} (h : (s.core v).quar = false) : s.stranded ck v = [] := by
  unfold State.stranded
  rw [h]

/-- A victim that holds one usable record gives it. -/
theorem give_one {ck v : Nat} (hq : (s.core v).quar = false) (hd : (s.core v).deque = [e]) (hx : s.ctxOf (v / 640) e.launchid = some x)
    (hmay : s.mayGather ck x = true) (h0 : e.wait0 = 0) (h1 : e.wait1 = 0) (hdom : s.recDominated v e = false) :
    s.give ck v = ([e], (s.served v .steal).modCore v fun c => { c with deque := [] }) := by
  have hj : (s.served v .steal).judge v (ck % 640 / 160) (fun s x _ => s.mayGather ck x) e = (.take, s.served v .steal) :=
    judge_takes (x := x) hx (by rw [served_mayGather]; exact hmay) h0 h1 (by rw [served_recDominated]; exact hdom)
  have hgive : s.giveDeque ck v = ([e], (s.served v .steal).modCore v fun c => { c with deque := [] }) := by
    unfold State.giveDeque
    dsimp only
    rw [hd, scan_takes hj]
    dsimp only [State.readyOf, List.foldl_nil]
    rw [scan_nil]
    rfl
  unfold State.give
  rw [stranded_of_notQuar hq]
  exact hgive

/-- What a thief that finds a record at its first victim leaves. -/
theorem stealRequest_spec {p core v : Nat} {rest : List Nat} (hcore : core < 640) (hmay : s.mayGetWork (coreKey p core) = true)
    (hv : s.victims (coreKey p core) = v :: rest) (hserve : ∀ w ∈ s.victims (coreKey p core), (s.core w).dqUse = .none)
    (hne : v ≠ coreKey p core)
    (hgive : s.give (coreKey p core) v = ([e], (s.served v .steal).modCore v fun c => { c with deque := [] })) :
    ∃ u, exec (.stealRequest p core) s = .next u ∧
      (∀ k, u.core k =
        if k = coreKey p core then { s.core k with transit := some { recs := [e] }, lastVictim := v % 640 }
        else if k = v then { s.core k with deque := [], dqUse := .steal }
        else s.core k) ∧
      u = { s with cores := u.cores } := by
  have hany : ((s.victims (coreKey p core)).any fun v => !s.mayServe v) = false := by
    rw [List.any_eq_false]
    intro w hw
    simp [State.mayServe, hserve w hw]
  have hexec : exec (.stealRequest p core) s = .next (((s.served v .steal).modCore v fun c => { c with deque := [] }).modCore
      (coreKey p core) fun c => { c with transit := some { recs := [e] }, lastVictim := v % 640 }) := by
    show execStealRequest p core s = _
    unfold execStealRequest
    dsimp only
    rw [if_neg (by simp [hcore, hmay, hany]), hv]
    unfold State.askAll
    rw [hgive]
  refine ⟨_, hexec, fun k => ?_, rfl⟩
  rw [(modCore_spec _ _ _).2 k]
  have h2 : ∀ j, ((s.served v .steal).modCore v fun c => { c with deque := [] }).core j =
      if j = v then { s.core j with deque := [], dqUse := .steal } else s.core j := fun j => by
    rw [(modCore_spec _ _ _).2 j]
    unfold State.served
    rw [(modCore_spec _ _ _).2 j]
    by_cases hj : j = v
    · rw [if_pos hj, if_pos hj, if_pos hj]
    · rw [if_neg hj, if_neg hj, if_neg hj]
  by_cases hk : k = coreKey p core
  · rw [if_pos hk, if_pos hk, h2, if_neg (by rw [hk]; exact hne.symm)]
  · rw [if_neg hk, if_neg hk, h2]

/-- What arrives at the thief. -/
theorem exec_stealArrival_eq {p core : Nat} {g : Transit} {rest : List DqEnt} {room : Nat × Nat}
    (ht : (s.core (coreKey p core)).transit = some g) (hq : (s.core (coreKey p core)).quar = false)
    (hr : (g.recs.filter fun e => !s.recDominated (coreKey p core) e) = e :: rest) (hx : s.ctxOf p e.launchid = some x)
    (hroom : s.gatherRoom (coreKey p core) x = some room) (hg : (s.core (coreKey p core)).gathered = none)
    (hcount : (s.ctx x).gather < 2 ^ 32) (hab : (s.ctx x).aborting = false) : ∃ n, exec (.stealArrival p core) s =
      .next ((((s.modCore (coreKey p core) fun c => { c with transit := none }).recDrop (coreKey p core) n).gatherInto
        (coreKey p core) x (e :: rest) room)) := by
  refine ⟨(s.survivors (coreKey p core) g.recs).2, ?_⟩
  have hs : (s.survivors (coreKey p core) g.recs).1 = e :: rest := hr
  show execStealArrival p core s = _
  unfold execStealArrival
  dsimp only
  rw [ht]
  dsimp only
  rw [if_neg (by simp [hq]), hs]
  dsimp only
  rw [hx]
  dsimp only
  rw [hroom]
  dsimp only
  rw [if_neg (by simpa [hg, hab] using hcount)]

/-! #### Dispatch -/

/-- What quarantine makes of a gang that is dispatched. -/
theorem onQuarantined_marks (s : State) (ck gk : Nat) : s.Marks (s.onQuarantined ck gk) := by
  unfold State.onQuarantined
  split
  · exact (dropLand_marks s gk).trans (markQuar_marks _ _)
  · exact .refl s

/-- A record's seed as a thread. -/
theorem newThread_seed {w : Wg} {keep : List DqEnt} (h : w.seeds = keep.map DqEnt.seed) (entry : W64) (now : Nat) {i : Nat}
    (hi : i < keep.length) : w.newThread entry now i =
      { x := ((keep.getD i default).args.flatMap fun (a : W64) => [a.setWidth 32, (a >>> 32).setWidth 32]) ++
          List.replicate (w.nregs - 8) 0,
        pc := (keep.getD i default).entry, bnd := (keep.getD i default).bound, bsel := (keep.getD i default).bsel,
        lane := i % Config.gwidth, lead := i - i % Config.gwidth, since := now } := by
  have hget : w.seeds[i]? = some (keep.getD i default).seed := by
    rw [h, List.getElem?_map, List.getD_eq_getElem?_getD, List.getElem?_eq_getElem hi]
    rfl
  unfold Wg.newThread
  rw [hget]
  rfl

/-- The birth of a gathered workgroup. -/
def Gathered.birth (g : Gathered) (p : Nat) (params : List W32) (keep : List DqEnt) : Birth :=
  { pkg := p, ctx := g.ctx, gangid := g.wgid, wgids := [g.wgid], sizes := [keep.length], params := params,
    seeds := [keep.map DqEnt.seed], gathered := true }

theorem exec_workgroupDispatch_eq {p core : Nat} {g : Gathered} (hg : (s.core (coreKey p core)).gathered = some g)
    (hab : (s.ctx g.ctx).aborting = false) (hne : (g.recs.filter fun e => !s.recDominated (coreKey p core) e) ≠ []) :
    ∃ n, let keep := g.recs.filter fun e => !s.recDominated (coreKey p core) e
      let v := (s.modCore (coreKey p core) fun c => { c with gathered := none }).recDrop (coreKey p core) n
      let r := v.makeGang (g.birth p (v.ctx g.ctx).params keep) { quad := core / 4, cidx := core % 4, offs := [g.off], voff := g.voff }
      exec (.workgroupDispatch p core) s = .next (r.2.onQuarantined (coreKey p core) r.1) := by
  refine ⟨(s.survivors (coreKey p core) g.recs).2, ?_⟩
  have hs : (s.survivors (coreKey p core) g.recs).1 = g.recs.filter fun e => !s.recDominated (coreKey p core) e := rfl
  intro keep v r
  show execWorkgroupDispatch p core s = _
  unfold execWorkgroupDispatch
  dsimp only
  rw [hg]
  dsimp only
  rw [if_neg (by simp [hab]), hs, if_neg (by simpa using hne)]
  rfl

/-- A gathered workgroup stands on its core with a thread for each record. -/
theorem workgroupDispatch_spec {p core : Nat} {g : Gathered} (hg : (s.core (coreKey p core)).gathered = some g)
    (hab : (s.ctx g.ctx).aborting = false) (hne : (g.recs.filter fun e => !s.recDominated (coreKey p core) e) ≠ [])
    (hlen : (g.recs.filter fun e => !s.recDominated (coreKey p core) e).length ≤ 2048) :
    let ck := coreKey p core
    let keep := g.recs.filter fun e => !s.recDominated ck e
    let l := (s.ctx g.ctx).launch
    ∃ u, exec (.workgroupDispatch p core) s = .next u ∧ (u.core ck).gathered = none ∧ (u.gang s.nextId).members = [s.nextId + 1] ∧
      (u.gang s.nextId).gathered = true ∧ (u.wg (s.nextId + 1)).wgid = g.wgid ∧ (u.wg (s.nextId + 1)).core = core ∧
      (u.wg (s.nextId + 1)).size = keep.length ∧
      (∀ i < keep.length, let e := keep.getD i default
        u.thr (thrKey (s.nextId + 1) i) =
          { x := (e.args.flatMap fun (a : W64) => [a.setWidth 32, (a >>> 32).setWidth 32]) ++ List.replicate (l.regs - 8) 0,
            pc := e.entry, bnd := e.bound, bsel := e.bsel, lane := i % Config.gwidth, lead := i - i % Config.gwidth,
            since := s.clockOf p }) ∧
      (∀ k, k / 2048 ≤ s.nextId → u.thr k = s.thr k) := by
  intro ck keep l
  obtain ⟨n, hexec⟩ := exec_workgroupDispatch_eq hg hab hne
  dsimp only at hexec
  generalize hv : (s.modCore ck fun c => { c with gathered := none }).recDrop ck n = v at hexec
  have hvn : v.nextId = s.nextId := by rw [← hv]; rfl
  have hvc : (v.core ck).gathered = none := by
    rw [← hv]
    unfold State.recDrop State.count
    rw [State.modCore_self, State.modCore_self]
  have hvthr : ∀ k, v.thr k = s.thr k := fun k => by rw [← hv]; rfl
  have hvl : (v.ctx g.ctx).launch = l := by rw [← hv]; rfl
  have hvclock : v.clockOf p = s.clockOf p := by rw [← hv]; rfl
  let b := g.birth p (v.ctx g.ctx).params keep
  obtain ⟨w, hw, hborn⟩ := makeGang_born v b { quad := core / 4, cidx := core % 4, offs := [g.off], voff := g.voff }
  rw [hw] at hexec
  have hm := onQuarantined_marks w ck v.nextId
  generalize w.onQuarantined ck v.nextId = u at hexec hm
  have huthr : ∀ k, u.thr k = w.thr k := fun k => by unfold State.thr; rw [hm.threads]
  have hugang : u.gang s.nextId = { w.gang s.nextId with pre := (u.gang s.nextId).pre, slot := (u.gang s.nextId).slot } := hm.gang _
  have hwgang := hborn.gang s.nextId
  rw [hvn, if_pos rfl] at hwgang
  rw [hwgang] at hugang
  have huwg : u.wg (s.nextId + 1) = b.wg { quad := core / 4, cidx := core % 4, offs := [g.off], voff := g.voff } (v.ctx g.ctx) s.nextId 0 := by
    rw [show u.wg (s.nextId + 1) = w.wg (s.nextId + 1) by unfold State.wg; rw [hm.wgs], ← hvn]
    exact hborn.wg 0 Nat.zero_lt_one
  refine ⟨u, hexec, ?_, ?_, ?_, ?_, ?_, ?_, fun i hi => ?_, fun k hk => ?_⟩
  · rw [hm.core, hborn.core]
    exact hvc
  · rw [hugang]
    rfl
  · rw [hugang]
    rfl
  · rw [huwg]
    rfl
  · rw [huwg]
    show 4 * (core / 4) + core % 4 + 0 = core
    omega
  · rw [huwg]
    rfl
  · have hthr := hborn.thr (by intro y hy; rw [List.mem_singleton.mp hy]; exact hlen) 0 Nat.zero_lt_one i hi
    rw [hvn] at hthr
    rw [huthr, show thrKey (s.nextId + 1) i = thrKey (s.nextId + 1 + 0) i from rfl, hthr, newThread_seed (keep := keep) rfl _ _ hi]
    rw [show v.clockOf b.pkg = s.clockOf p from hvclock, show (b.wg _ (v.ctx b.ctx) s.nextId 0).nregs = l.regs from
      congrArg Launch.regs hvl]
  · rw [huthr, hborn.thrOld k (by rw [hvn]; exact hk), hvthr]

end Sys2Proof.Machine

/-! ### Checks (15_counters R266, R268, R269) -/

namespace Sys2Proof.Machine

variable {s t u v : State} {p : Nat}

/-! #### An execution begins -/

/-- The birth of an execution of a check. -/
def Check.birth (x : Check) (p : Nat) (slot : Option Nat) : Birth :=
  { pkg := p, ctx := x.ctx, gangid := x.gangid, wgids := x.wgids, sizes := x.sizes, params := x.params, seeds := x.seeds,
    check := some x.id, gathered := x.seeds.any fun l => !l.isEmpty, slot := slot }

/-- Some cores count an execution. -/
def State.counts (s : State) (i : Nat) (l : List Nat) : State := l.foldl (fun s ck => s.count ck i 1) s

theorem counts_spec (s : State) (i : Nat) (l : List Nat) : s.counts i l = { s with cores := (s.counts i l).cores } ∧
    ∀ k, (s.counts i l).core k = { s.core k with perf := ((s.counts i l).core k).perf } := by
  unfold State.counts
  induction l generalizing s with
  | nil => exact ⟨rfl, fun _ => rfl⟩
  | cons a l ih =>
    obtain ⟨hframe, hcore⟩ := ih (s.count a i 1)
    rw [List.foldl_cons]
    generalize l.foldl (fun (s : State) ck => s.count ck i 1) (s.count a i 1) = u at hframe hcore
    refine ⟨?_, fun k => ?_⟩
    · conv_lhs => rw [hframe]
      rfl
    · rw [hcore k]
      unfold State.count
      rw [State.modCore_core]
      split
      · next hk => rw [hk]
      · rfl

theorem exec_drydownCheckStart_eq {x : Check} {f : Fit} (h : s.nextCheck p = some (x, f)) :
    let v := s.modDie (dieKey p (f.quad / 40)) fun d => { d with placed := true }
    let r := v.makeGang (x.birth p (s.ctx x.ctx).freeSlot) f
    exec (.drydownCheckStart p) s = .next ((r.2.counts 10 (r.2.gangCores r.1)).modCheck p x.id fun x =>
      { x with gang := some r.1, phase := x.phase + 1 }) := by
  intro v r
  show execDrydownCheckStart p s = _
  unfold execDrydownCheckStart
  rw [h]
  rfl

/-- The pending check is executed again, in its place. -/
theorem drydownCheckStart_spec {x : Check} {f : Fit} (h : s.nextCheck p = some (x, f)) :
    ∃ u, exec (.drydownCheckStart p) s = .next u ∧ (u.gang s.nextId).check = some x.id ∧
      (∀ m < x.sizes.length, (u.wg (s.nextId + 1 + m)).wgid = x.wgids.getD m 0 ∧
        (u.wg (s.nextId + 1 + m)).core = 4 * f.quad + f.cidx + m ∧ (u.wg (s.nextId + 1 + m)).k = x.params) ∧
      (∀ k, u.pkg k = if k = p then
          { s.pkg k with checks := (s.pkg k).checks.map fun y =>
              if y.id == x.id then { y with gang := some s.nextId, phase := y.phase + 1 } else y }
        else s.pkg k) := by
  have hexec := exec_drydownCheckStart_eq h
  dsimp only at hexec
  generalize hv : s.modDie (dieKey p (f.quad / 40)) (fun d => { d with placed := true }) = v at hexec
  have hvn : v.nextId = s.nextId := by rw [← hv]; rfl
  have hvp : ∀ k, v.pkg k = s.pkg k := fun k => by rw [← hv]; rfl
  obtain ⟨w, hw, hborn⟩ := makeGang_born v (x.birth p (s.ctx x.ctx).freeSlot) f
  rw [hw, hvn] at hexec
  have hgang := hborn.gang s.nextId
  rw [hvn, if_pos rfl] at hgang
  have hwg := hborn.wg
  rw [hvn] at hwg
  have hc := (counts_spec w 10 (w.gangCores s.nextId)).1
  dsimp only at hexec
  generalize w.counts 10 (w.gangCores s.nextId) = y at hexec hc
  have hyp : ∀ k, y.pkg k = s.pkg k := fun k => by rw [hc, hborn.frame, ← hvp]; rfl
  have hywg : ∀ k, y.wg k = w.wg k := fun k => by rw [hc]; rfl
  refine ⟨_, hexec, ?_, fun m hm => ?_, fun k => ?_⟩
  · show (y.gang s.nextId).check = _
    rw [show y.gang s.nextId = w.gang s.nextId by rw [hc]; rfl, hgang]
    rfl
  · show (y.wg _).wgid = _ ∧ (y.wg _).core = _ ∧ (y.wg _).k = _
    rw [hywg, hwg m hm]
    exact ⟨rfl, rfl, rfl⟩
  · refine ((modPkg_spec y p _).2 k).trans ?_
    rw [hyp]

/-! #### An execution ends -/

theorem differing_one (a b : W64) : differing [a] [b] = if a = b then [] else [0] := by
  unfold differing
  rw [show List.range [a].length = [0] from rfl]
  by_cases h : a = b <;> simp [h]

theorem score_two (s : State) (p a b : Nat) (m n : Int) : s.score p [(a, m), (b, n)] = (s.suspect p a m).suspect p b n := rfl

theorem cleanCores_two (s : State) (p a b : Nat) : s.cleanCores p [a, b] = (s.cleanDone p a).cleanDone p b := rfl

theorem counts_two (s : State) (p i a b : Nat) :
    [a, b].foldl (fun s c => s.count (coreKey p c) i 1) s = s.counts i [coreKey p a, coreKey p b] := rfl

theorem cleanCores_one (s : State) (p c : Nat) : s.cleanCores p [c] = s.cleanDone p c := rfl

/-- The cores and digests of a gang of one member. -/
theorem runOf_one {gk k : Nat} (h : (s.gang gk).members = [k]) : s.runOf gk = ([(s.wg k).core], [(s.wg k).digest]) := by
  unfold State.runOf
  rw [h]
  rfl

section
variable {id gk k c1 c2 : Nat} {x : Check} {d1 d2 : W64} (hf : s.findCheck id 1 = some (p, x, gk)) (hover : s.runOver gk = true)
  (hc1 : x.cores = [c1]) (hd1 : x.digests = [d1]) (hm : (s.gang gk).members = [k]) (hc2 : (s.wg k).core = c2)
  (hd2 : (s.wg k).digest = d2)
include hf hover hc1 hd1 hm hc2 hd2

theorem exec_reexecutionEnd_match (h : d1 = d2) : exec (.reexecutionEnd id) s =
    .next (((((s.retireGang gk).endCheck p id).cleanDone p c1)).cleanDone p c2) := by
  show execReexecutionEnd id s = _
  unfold execReexecutionEnd
  rw [hf]
  dsimp only
  rw [hover, runOf_one hm, hc1, hd1, hc2, hd2, differing_one, if_pos h, if_neg (by simp), if_pos (by rfl), cleanCores_one,
    cleanCores_one]

theorem exec_reexecutionEnd_mismatch (h : d1 ≠ d2) : exec (.reexecutionEnd id) s =
    .next (((((s.retireGang gk).modCheck p id fun x => { x with cores2 := [c2], digests2 := [d2], gang := none, phase := 2 }).counts 11
      [coreKey p c1, coreKey p c2]).suspect p c1 64).suspect p c2 64) := by
  show execReexecutionEnd id s = _
  unfold execReexecutionEnd
  rw [hf]
  dsimp only
  rw [hover, runOf_one hm, hc1, hd1, hc2, hd2, differing_one, if_neg h, if_neg (by simp), if_neg (by simp)]
  simp only [List.flatMap_cons, List.flatMap_nil, List.getD_cons_zero, List.append_nil, List.map_cons, List.map_nil]
  rw [counts_two, score_two]

end

theorem retireGang_pkg (s : State) (gk q : Nat) : (s.retireGang gk).pkg q = s.pkg q := by
  rw [(retireGang_retires s gk).frame]
  rfl

theorem retireGang_core (s : State) (gk j : Nat) :
    ((s.retireGang gk).core j).susp = (s.core j).susp ∧ ((s.retireGang gk).core j).clean = (s.core j).clean := by
  rw [(retireGang_retires s gk).core j]
  exact ⟨rfl, rfl⟩

theorem retireGang_threads (s : State) (gk : Nat) : (s.retireGang gk).threads = s.threads := by
  rw [(retireGang_retires s gk).frame]

/-- A retired gang stays retired, whatever scores change. -/
theorem State.Scored.retired (h : t.Scored u) {gk : Nat} (hst : (t.gang gk).st = .retired) : (u.gang gk).st = .retired := by
  rw [h.idle gk (by rw [hst]; exact fun h => nomatch h)]
  exact hst

/-- The check is forgotten. -/
theorem endCheck_gone (s : State) (p id : Nat) : ∀ y ∈ ((s.endCheck p id).pkg p).checks, y.id ≠ id := by
  intro y hy
  rw [show (s.endCheck p id).pkg p = _ from (modPkg_spec s p _).2 p, if_pos rfl] at hy
  simpa using (List.mem_filter.mp hy).2

theorem State.Scored.gone (h : t.Scored u) {id : Nat} (hid : ∀ y ∈ (t.pkg p).checks, y.id ≠ id) :
    ∀ y ∈ (u.pkg p).checks, y.id ≠ id := fun y hy => by
  obtain ⟨z, hz, hyz, -⟩ := h.checks p y hy
  rw [hyz]
  exact hid z hz

theorem settleMember_first {c1 c2 c3 : Nat} {d1 d2 : W64} (h : d1 ≠ d2) :
    settleMember c1 c2 c3 d1 d2 d1 = ([(c2, 192), (c1, -64)], [c1, c3], false) := by
  unfold settleMember
  rw [if_neg h, if_pos rfl]

theorem exec_arbitrationEnd_eq {id gk k c1 c2 c3 : Nat} {x : Check} {d1 d2 : W64} (hf : s.findCheck id 3 = some (p, x, gk))
    (hover : s.runOver gk = true) (hc1 : x.cores = [c1]) (hc2 : x.cores2 = [c2]) (hd1 : x.digests = [d1]) (hd2 : x.digests2 = [d2])
    (hm : (s.gang gk).members = [k]) (hc3 : (s.wg k).core = c3) (hd3 : (s.wg k).digest = d1) (h : d1 ≠ d2) :
    exec (.arbitrationEnd id) s =
      .next ((((((s.retireGang gk).endCheck p id).cleanDone p c1).cleanDone p c3).suspect p c2 192).suspect p c1 (-64)) := by
  have hout : ((List.range [d1].length).map fun m => settleMember ([c1].getD m 0) ([c2].getD m 0) ([c3].getD m 0) ([d1].getD m 0)
      ([d2].getD m 0) ([d1].getD m 0)) = [([(c2, 192), (c1, -64)], [c1, c3], false)] := by
    show [settleMember c1 c2 c3 d1 d2 d1] = _
    rw [settleMember_first h]
  show execArbitrationEnd id s = _
  unfold execArbitrationEnd
  rw [hf]
  dsimp only
  rw [hover, runOf_one hm, hc1, hc2, hd1, hd2, hc3, hd3, hout, if_neg (by simp), if_neg (by simp)]
  simp only [List.flatMap_cons, List.flatMap_nil, List.append_nil]
  rw [cleanCores_two, score_two]

/-- Settles O52: what each event leaves, told by the records, the gang or the scores that it changes. -/
theorem recordsAndChecks : Obligations.RecordsAndChecks := by
  intro s p core hcore ck
  refine ⟨fun e x room hq hg ht hd hx hcount hroom h0 h1 hdom huse hplace hab => ?gather,
    fun e v rest x hmay hv hp hne hd hq huse hx hg h0 h1 hdom => ?steal,
    fun g e rest x room ht hq hr hx hroom hg hcount hab => ?arrival, ?dispatch, fun x f hx => drydownCheckStart_spec hx,
    fun id x gk k c1 c2 d1 d2 hf hover hc1 hd1 hm hc2 hd2 hne hlt1 hlt2 => ?reexec,
    fun id x gk k c1 c2 c3 d1 d2 hf hover hc1 hc2 hd1 hd2 hm hc3 hd3 hne hnd hlt1 hlt2 hlt3 hclean => ?arb⟩
  case gather =>
    have hmay : s.mayGather ck x = true := by
      unfold State.mayGather
      rw [hroom, hab]
      simpa using hcount
    have hexec := exec_gather_eq hcore hq hg hd hx hmay hcount hroom h0 h1 hdom huse hplace
    generalize hw : (s.served ck .gather).modCore ck (fun c => { c with deque := [] }) = w at hexec
    have hwc : ∀ k, w.core k = if k = ck then { s.core k with deque := [], dqUse := .gather } else s.core k := fun k => by
      rw [← hw, (modCore_spec _ _ _).2 k]
      unfold State.served
      rw [(modCore_spec _ _ _).2 k]
      by_cases hk : k = ck
      · rw [if_pos hk, if_pos hk, if_pos hk]
      · rw [if_neg hk, if_neg hk, if_neg hk]
    have hwx : ∀ k, w.ctx k = s.ctx k := fun k => by rw [← hw]; rfl
    obtain ⟨hcores, hctx, hframe⟩ := gatherInto_spec w ck x [e] room
    generalize w.gatherInto ck x [e] room = u at hexec hcores hctx hframe
    refine ⟨u, hexec, fun k => ?_, fun k => ?_, ?_⟩
    · rw [hcores, hwc, hwx]
      by_cases hk : k = ck
      · rw [if_pos hk, if_pos hk, if_pos hk]
      · rw [if_neg hk, if_neg hk, if_neg hk]
    · rw [hctx, hwx]
    · rw [hframe, ← hw]
      rfl
  case steal =>
    exact stealRequest_spec hcore hmay hv huse hne (give_one hq hd (by rw [hp]; exact hx) hg h0 h1 hdom)
  case arrival =>
    obtain ⟨n, hexec⟩ := exec_stealArrival_eq ht hq hr hx hroom hg hcount hab
    generalize hw : (s.modCore ck fun c => { c with transit := none }).recDrop ck n = w at hexec
    have hwc : ∀ k, w.core k = if k = ck then { s.core k with transit := none, perf := (w.core k).perf } else s.core k := fun k => by
      rw [← hw]
      unfold State.recDrop State.count
      rw [(modCore_spec _ _ _).2 k, (modCore_spec _ _ _).2 k]
      by_cases hk : k = ck
      · rw [if_pos hk, if_pos hk, if_pos hk]
      · rw [if_neg hk, if_neg hk, if_neg hk]
    have hwx : ∀ k, w.ctx k = s.ctx k := fun k => by rw [← hw]; rfl
    obtain ⟨hcores, hctx, hframe⟩ := gatherInto_spec w ck x (e :: rest) room
    generalize w.gatherInto ck x (e :: rest) room = u at hexec hcores hctx hframe
    refine ⟨u, hexec, fun k => ?_, fun k => ?_, ?_⟩
    · rw [hcores, hwx]
      by_cases hk : k = ck
      · rw [if_pos hk, if_pos hk, hwc, if_pos hk]
      · rw [if_neg hk, if_neg hk, hwc, if_neg hk]
    · rw [hctx, hwx]
    · rw [hframe, ← hw]
      rfl
  case dispatch =>
    intro g hg keep l hne hlen hab
    exact workgroupDispatch_spec hg hab hne hlen
  case reexec =>
    have hret := retireGang_retires s gk
    by_cases h : d1 = d2
    · have hexec := exec_reexecutionEnd_match hf hover hc1 hd1 hm hc2 hd2 h
      have hsc := (cleanDone_spec ((s.retireGang gk).endCheck p id) p c1).1.trans (cleanDone_spec _ p c2).1
      refine ⟨_, hexec, hsc.retired hret.self.1, hsc.threads.trans (retireGang_threads s gk),
        fun _ => hsc.gone (endCheck_gone _ p id), fun hn => absurd h hn⟩
    · have hexec := exec_reexecutionEnd_mismatch hf hover hc1 hd1 hm hc2 hd2 h
      have hk : coreKey p c1 ≠ coreKey p c2 := fun h => hne (coreKey_inj h)
      generalize hv : (s.retireGang gk).modCheck p id (fun x => { x with cores2 := [c2], digests2 := [d2], gang := none, phase := 2 }) = v
        at hexec
      obtain ⟨hcf, hcc⟩ := counts_spec v 11 [coreKey p c1, coreKey p c2]
      generalize v.counts 11 [coreKey p c1, coreKey p c2] = w at hexec hcf hcc
      have hvw : v.Scored w := by refine .of_eq ?_ ?_ ?_ ?_ <;> rw [hcf]
      have hsusp : ∀ j, (w.core j).susp = (s.core j).susp := fun j => by
        rw [hcc j, show v.core j = (s.retireGang gk).core j by rw [← hv]; rfl]
        exact (retireGang_core s gk j).1
      obtain ⟨h1, h1c⟩ := suspect_spec w p c1 64
      obtain ⟨h2, h2c⟩ := suspect_spec (w.suspect p c1 64) p c2 64
      have hsc := (hvw.trans h1).trans h2
      generalize (w.suspect p c1 64).suspect p c2 64 = u at hexec h2 h2c hsc
      have hvg : v.gang gk = (s.retireGang gk).gang gk := by rw [← hv]; rfl
      refine ⟨u, hexec, hsc.retired (by rw [hvg]; exact hret.self.1), ?_, fun he => absurd he h, fun _ => ⟨?_, ?_, fun y hy hid => ?_⟩⟩
      · rw [hsc.threads, show v.threads = (s.retireGang gk).threads by rw [← hv]; rfl]
        exact retireGang_threads s gk
      · rw [(h2c _).1, if_neg hk, (h1c _).1, if_pos rfl, hsusp]
        exact suspAfter_add _ 64
      · rw [(h2c _).1, if_pos rfl, (h1c _).1, if_neg hk.symm, hsusp]
        exact suspAfter_add _ 64
      · obtain ⟨z, hz, hyz, hnone⟩ := hsc.checks p y hy
        rw [← hv, show State.pkg (State.modCheck _ p id _) p = _ from (modPkg_spec _ p _).2 p, if_pos rfl] at hz
        obtain ⟨q, -, rfl⟩ := List.mem_map.mp hz
        have hq : q.id = id := by
          rw [hyz] at hid
          by_cases hqi : q.id = id
          · exact hqi
          · rw [if_neg (by simpa using hqi)] at hid
            exact hid
        rw [if_pos (by simpa using hq)] at hnone
        rw [hnone rfl]
        exact ⟨rfl, rfl, rfl⟩
  case arb =>
    have hret := retireGang_retires s gk
    have hexec := exec_arbitrationEnd_eq hf hover hc1 hc2 hd1 hd2 hm hc3 hd3 hne
    have hk12 : coreKey p c1 ≠ coreKey p c2 := fun h => by have := coreKey_inj h; simp_all
    have hk13 : coreKey p c1 ≠ coreKey p c3 := fun h => by have := coreKey_inj h; simp_all
    have hk23 : coreKey p c2 ≠ coreKey p c3 := fun h => by have := coreKey_inj h; simp_all
    generalize hv : (s.retireGang gk).endCheck p id = v at hexec
    have hvc : ∀ j, v.core j = (s.retireGang gk).core j := fun j => by rw [← hv]; rfl
    obtain ⟨ha, hao, has⟩ := cleanDone_spec v p c1
    obtain ⟨hb, hbo, -⟩ := cleanDone_spec (v.cleanDone p c1) p c3
    obtain ⟨hc, hcc⟩ := suspect_spec ((v.cleanDone p c1).cleanDone p c3) p c2 192
    obtain ⟨hd, hdc⟩ := suspect_spec (((v.cleanDone p c1).cleanDone p c3).suspect p c2 192) p c1 (-64)
    have hsc := ((ha.trans hb).trans hc).trans hd
    generalize (((v.cleanDone p c1).cleanDone p c3).suspect p c2 192).suspect p c1 (-64) = u at hexec hd hdc hsc
    have hs1 : (((v.cleanDone p c1).cleanDone p c3).core (coreKey p c1)).susp = (s.core (coreKey p c1)).susp := by
      rw [(hbo _ hk13).1, has (by rw [hvc, (retireGang_core s gk _).2]; exact hclean), hvc, (retireGang_core s gk _).1]
    have hs2 : (((v.cleanDone p c1).cleanDone p c3).core (coreKey p c2)).susp = (s.core (coreKey p c2)).susp := by
      rw [(hbo _ hk23).1, (hao _ hk12.symm).1, hvc, (retireGang_core s gk _).1]
    refine ⟨u, hexec, hsc.retired (by rw [← hv]; exact hret.self.1), hsc.gone (by rw [← hv]; exact endCheck_gone _ p id), ?_, ?_, ?_⟩
    · rw [(hdc _).1, if_neg hk12.symm, (hcc _).1, if_pos rfl, hs2]
      exact suspAfter_add _ 192
    · rw [(hdc _).1, if_pos rfl, (hcc _).1, if_neg hk12, hs1]
      exact suspAfter_sub _ 64
    · rw [hsc.threads, ← hv]
      exact retireGang_threads s gk

end Sys2Proof.Machine

/-! ### Pre-emption: the request, the acknowledgements, and the gang that leaves (18_queues R300, 21_tables R328) -/

namespace Sys2Proof.Machine

variable {s t u v : State} {gk : Nat}

/-! #### The request -/

theorem markable_spec (h : s.markable gk = true) : (s.gang gk).st = .running ∧ (s.gang gk).pre = none ∧
    ((∃ i, (s.gang gk).slot = some i) ∨ ∃ i, (s.ctx (s.gang gk).ctx).freeSlot = some i) := by
  unfold State.markable at h
  simpa [Option.isSome_iff_exists, and_assoc] using h

/-- A gang that is to be saved has a slot. -/
theorem slotted_slot (h : (∃ i, (s.gang gk).slot = some i) ∨ ∃ i, (s.ctx (s.gang gk).ctx).freeSlot = some i) :
    ∃ i, ((s.slotted gk false).gang gk).slot = some i := by
  unfold State.slotted
  cases hslot : (s.gang gk).slot with
  | some i => exact ⟨i, hslot⟩
  | none =>
    obtain ⟨i, hi⟩ := h.resolve_left (by rw [hslot]; rintro ⟨i, hi⟩; cases hi)
    rw [hi]
    exact ⟨i, by rw [State.modGang_self]⟩

/-- The mark of a gang that can be saved. -/
theorem mark_markable (h : s.markable gk = true) : ((s.mark gk false).gang gk).pre = some {} ∧
    ∃ i, ((s.mark gk false).gang gk).slot = some i := by
  obtain ⟨hrun, hpre, hslot⟩ := markable_spec h
  rw [mark_eq hrun hpre (.inr h), State.modGang_self]
  refine ⟨rfl, ?_⟩
  rw [show ((s.slotted gk false).dropLand gk).gang gk = (s.slotted gk false).gang gk by unfold State.gang; rw [dropLand_gangs]]
  exact slotted_slot hslot

theorem exec_preemptionRequest_eq (s : State) (gk : Nat) :
    exec (.preemptionRequest gk) s = .next (if s.markable gk then s.mark gk false else s) := rfl

/-! #### The acknowledgements -/

/-- A class acknowledges: its number joins the gang's. -/
def State.acks (s : State) (gk : Nat) (c : EClass) : State :=
  s.modGang gk fun g => { g with pre := g.pre.map fun p => { p with acks := p.acks ++ [c] } }

theorem exec_engineStopAck_eq {cls : Nat} {c : EClass} {q : PreG} (hc : classOf cls = some c) (hpre : (s.gang gk).pre = some q)
    (hack : c ∉ q.acks) (hrun : (s.gang gk).st = .running) (h : s.stopClass gk c = (true, v)) :
    exec (.engineStopAck gk cls) s = .next (v.acks gk c) := by
  show execEngineStopAck gk cls s = _
  unfold execEngineStopAck
  rw [hc, hpre]
  dsimp only
  rw [if_neg (by simp [hack, hrun]), h]
  rfl

theorem acks_gang {c : EClass} {q : PreG} (hpre : (v.gang gk).pre = some q) (k : Nat) : (v.acks gk c).gang k =
    if k = gk then { v.gang gk with pre := some { q with acks := q.acks ++ [c] } } else v.gang k := by
  unfold State.acks
  rw [State.modGang_gang]
  by_cases hk : k = gk
  · rw [if_pos hk.symm, if_pos hk, hpre]
    rfl
  · rw [if_neg (Ne.symm hk), if_neg hk]

/-- A class whose condition is told by the state acknowledges as it stands. -/
theorem engineStopAck_spec {cls : Nat} {c : EClass} {q : PreG} (hc : classOf cls = some c) (hpre : (s.gang gk).pre = some q)
    (hack : c ∉ q.acks) (hrun : (s.gang gk).st = .running) (h : s.stopClass gk c = (true, s)) :
    ∃ u, exec (.engineStopAck gk cls) s = .next u ∧
      (∀ k, u.gang k = if k = gk then { s.gang gk with pre := some { q with acks := q.acks ++ [c] } } else s.gang k) ∧
      u = { s with gangs := u.gangs } :=
  ⟨_, exec_engineStopAck_eq hc hpre hack hrun h, acks_gang hpre, rfl⟩

/-- Which engine class acknowledges, and when. -/
theorem stopClass_ready {cls : Nat} {c : EClass} {ready : Bool}
    (h : (cls, c, ready) ∈ [(2, EClass.copy, (s.gangCores gk).all (s.copyAt gk) && !s.cmds.any fun c => c.sendReads gk),
      (3, .atomiser, (s.gangCores gk).all (s.copyAt gk) && !(s.gangCores gk).any (s.loopStarts gk) && !s.phaseRuns gk),
      (4, .loop, !(s.gangCores gk).any (s.loopStarts gk)), (5, .accord, (s.toStage gk).isEmpty && !s.phaseRuns gk),
      (6, .headspace, !s.walksFor gk && !s.pubLeft gk)])
    (hr : ready = true) : classOf cls = some c ∧ s.stopClass gk c = (true, s) := by
  simp only [List.mem_cons, Prod.mk.injEq, List.not_mem_nil, or_false] at h
  rcases h with ⟨rfl, rfl, h⟩ | ⟨rfl, rfl, h⟩ | ⟨rfl, rfl, h⟩ | ⟨rfl, rfl, h⟩ | ⟨rfl, rfl, h⟩ <;> rw [hr] at h <;> refine ⟨rfl, ?_⟩
  · exact congrArg (·, s) h.symm
  · exact congrArg (·, s) h.symm
  · exact congrArg (·, s) h.symm
  · have hnil : s.toStage gk = [] := by
      rw [eq_comm, Bool.and_eq_true, List.isEmpty_iff] at h
      exact h.1
    rw [hnil] at h
    show (match s.toStage gk with
      | [] => (!s.phaseRuns gk, s)
      | (g, q, r, c) :: _ => (false, if c.parked.isSome then s else s.stage g.collid q c c.shapeRaw r c.shapeRaw.total)) = _
    rw [hnil]
    exact congrArg (·, s) h.symm
  · exact congrArg (·, s) h.symm

/-- The issue class stops once nothing that its threads have issued is open. -/
theorem stopClass_issue (hw : ∀ k ∈ (s.gang gk).members, s.owesWatch k = []) (hstep : s.gangSteps gk = false)
    (hbusy : ∀ k ∈ s.gangThreads gk, s.issueBusy k = false) (hleft : ∀ k ∈ s.gangAll gk, s.leftBusy k = false)
    (hread : s.readsTable gk = false) : s.stopClass gk .issue = (true, s.withdrawTags (s.gangThreads gk)) := by
  have h1 : ((s.gang gk).members.any fun k => !(s.owesWatch k).isEmpty) = false := by
    rw [List.any_eq_false]
    intro k hk
    simp [hw k hk]
  have h2 : (s.gangThreads gk).any s.issueBusy = false := by
    rw [List.any_eq_false]
    intro k hk
    simp [hbusy k hk]
  have h3 : (s.gangAll gk).any s.leftBusy = false := by
    rw [List.any_eq_false]
    intro k hk
    simp [hleft k hk]
  unfold State.stopClass
  dsimp only
  rw [h1, h2, h3, hstep, hread]
  rfl

/-! #### The gang leaves -/

/-- The plane queues of a gang's cores without its operations. -/
theorem foldl_dropOps (keep : PlaneOp → Bool) (l : List Nat) (s : State) :
    l.foldl (fun s ck => s.modCore ck fun c => { c with pq := c.pq.filter keep }) s = { s with
      cores := (l.foldl (fun s ck => s.modCore ck fun c => { c with pq := c.pq.filter keep }) s).cores } := by
  induction l generalizing s with
  | nil => rfl
  | cons a l ih =>
    rw [List.foldl_cons]
    conv_lhs => rw [ih]
    rfl

theorem leaveGang_spec (s : State) (gk : Nat) :
    let g := s.gang gk
    let u := s.leaveGang gk
    (u.gang gk).st = .preempted ∧ (u.gang gk).pre = none ∧ (∀ k ∈ g.members, (u.wg k).resident = false) ∧
      (u.fn (fnKey g.pkg (s.ctx g.ctx).fn)).place = .back gk :: (s.fn (fnKey g.pkg (s.ctx g.ctx).fn)).place ∧
      u.threads = s.threads ∧ u.mem = s.mem := by
  intro g u
  have hops := foldl_dropOps (fun o => !g.members.contains o.wg) (s.gangCores gk) s
  generalize hv : (s.gangCores gk).foldl (fun s ck => s.modCore ck fun c => { c with pq := c.pq.filter fun o => !g.members.contains o.wg }) s
    = v at hops
  have hu : u = ((v.freeGang gk).modGang gk fun g => { g with st := .preempted, pre := none }).modFn
      (fnKey g.pkg ((v.freeGang gk).ctx g.ctx).fn) fun f =>
        { f with place := .back gk :: f.place, since := if f.emptied.isEmpty then none else f.since } := by
    rw [← hv]
    rfl
  clear_value u
  obtain ⟨hf, hgone⟩ := freeGang_frees v gk
  have hvg : v.gang gk = g := by rw [hops]; rfl
  generalize v.freeGang gk = w at hu hf hgone
  have hwctx : (w.ctx g.ctx).fn = (s.ctx g.ctx).fn := by rw [hf.frame, hops]; rfl
  have hwfn : ∀ k, w.fn k = s.fn k := fun k => by rw [hf.frame, hops]; rfl
  rw [hwctx] at hu
  have hug : u.gang gk = { w.gang gk with st := .preempted, pre := none } := by
    rw [hu, State.modFn_gang, State.modGang_self]
  refine ⟨by rw [hug], by rw [hug], fun k hk => ?_, ?_, ?_, ?_⟩
  · rw [hu]
    exact hgone k (by rw [hvg]; exact hk)
  · rw [hu, State.modFn_self, State.modGang_fn, hwfn]
  · rw [hu]
    show w.threads = s.threads
    rw [hf.frame, hops]
  · rw [hu]
    show w.mem = s.mem
    rw [hf.frame, hops]

theorem exec_preemptFree_eq {q : PreG} (hpre : (s.gang gk).pre = some q) (hsaved : q.hwSaved = true)
    (hrun : (s.gang gk).st = .running) (hdis : q.discard = false) (hout : ∀ k ∈ s.gangThreads gk, s.savedOut k = true) :
    exec (.preemptFree gk) s = .next (s.leaveGang gk) := by
  show execPreemptFree gk s = _
  unfold execPreemptFree
  dsimp only
  rw [hpre]
  dsimp only
  rw [if_neg (by simp [hsaved, hrun]), hdis, if_neg Bool.false_ne_true, if_pos (List.all_eq_true.mpr hout)]

end Sys2Proof.Machine

/-! ### Threads enter their handlers, fragment by fragment (18_queues R300, R302, 10_trap_state R180) -/

namespace Sys2Proof.Machine

variable {s t u v : State} {wk : Nat}

/-! #### Fragments share out the threads -/

/-- What the threads of a fragment have in common. -/
def State.fragKey (s : State) (wk j : Nat) : Nat × Nat × W64 × Bool :=
  let t := s.thr (thrKey wk j)
  (t.seq, t.lead, t.pc, t.handler)

/-- A thread belongs to a fragment. -/
def State.sameFrag (s : State) (wk i : Nat) (f : List Nat) : Bool := f.any fun j => s.fragKey wk j == s.fragKey wk i

theorem fragments_cons (s : State) (wk i : Nat) (r : List Nat) (l : List (List Nat)) : s.fragments wk (i :: r) l =
    if l.any (s.sameFrag wk i) then s.fragments wk r (l.map fun f => if s.sameFrag wk i f then f ++ [i] else f)
    else s.fragments wk r (l ++ [[i]]) := rfl

theorem sameFrag_iff {i : Nat} {f : List Nat} : s.sameFrag wk i f = true ↔ ∃ j ∈ f, s.fragKey wk j = s.fragKey wk i := by
  unfold State.sameFrag
  simp

/-- Fragments: alike within, unlike each other. -/
structure State.Parts (s : State) (wk : Nat) (l : List (List Nat)) : Prop where
  alike : ∀ f ∈ l, ∀ a ∈ f, ∀ b ∈ f, s.fragKey wk a = s.fragKey wk b
  unlike : l.Pairwise fun f g => ∀ a ∈ f, ∀ b ∈ g, s.fragKey wk a ≠ s.fragKey wk b
  nodup : ∀ f ∈ l, f.Nodup

theorem State.Parts.flatten (h : s.Parts wk l) : l.flatten.Nodup := by
  rw [List.nodup_flatten]
  exact ⟨h.nodup, h.unlike.imp fun hfg a ha hb => hfg a ha a hb rfl⟩

/-- A thread joins its fragment. -/
theorem State.Parts.join {l : List (List Nat)} (h : s.Parts wk l) {i : Nat} (hi : i ∉ l.flatten) :
    s.Parts wk (l.map fun f => if s.sameFrag wk i f then f ++ [i] else f) := by
  have hnot : ∀ f ∈ l, i ∉ f := fun f hf hif => hi (List.mem_flatten.mpr ⟨f, hf, hif⟩)
  have hkey : ∀ f ∈ l, s.sameFrag wk i f = true → ∀ a ∈ f, s.fragKey wk a = s.fragKey wk i := fun f hf hs a ha => by
    obtain ⟨j, hj, hji⟩ := sameFrag_iff.mp hs
    exact (h.alike f hf a ha j hj).trans hji
  refine ⟨fun f' hf' => ?_, ?_, fun f' hf' => ?_⟩
  · obtain ⟨f, hf, rfl⟩ := List.mem_map.mp hf'
    split
    · next hs =>
      have hall : ∀ a ∈ f ++ [i], s.fragKey wk a = s.fragKey wk i := fun a ha => by
        rcases List.mem_append.mp ha with ha | ha
        · exact hkey f hf hs a ha
        · rw [List.mem_singleton.mp ha]
      exact fun a ha b hb => (hall a ha).trans (hall b hb).symm
    · exact h.alike f hf
  · rw [List.pairwise_map]
    refine h.unlike.imp_of_mem fun {f g} hf hg hfg => ?_
    by_cases hsf : s.sameFrag wk i f = true <;> by_cases hsg : s.sameFrag wk i g = true
    · obtain ⟨a, ha, hai⟩ := sameFrag_iff.mp hsf
      obtain ⟨b, hb, hbi⟩ := sameFrag_iff.mp hsg
      exact absurd (hai.trans hbi.symm) (hfg a ha b hb)
    · rw [if_pos hsf, if_neg hsg]
      intro a ha b hb
      rcases List.mem_append.mp ha with ha | ha
      · exact hfg a ha b hb
      · rw [List.mem_singleton.mp ha]
        exact fun hib => hsg (sameFrag_iff.mpr ⟨b, hb, hib.symm⟩)
    · rw [if_neg hsf, if_pos hsg]
      intro a ha b hb
      rcases List.mem_append.mp hb with hb | hb
      · exact hfg a ha b hb
      · rw [List.mem_singleton.mp hb]
        exact fun hia => hsf (sameFrag_iff.mpr ⟨a, ha, hia⟩)
    · rw [if_neg hsf, if_neg hsg]
      exact hfg
  · obtain ⟨f, hf, rfl⟩ := List.mem_map.mp hf'
    split
    · rw [List.nodup_append]
      refine ⟨h.nodup f hf, List.nodup_singleton i, fun a ha b hb hab => hnot f hf ?_⟩
      rw [List.mem_singleton.mp hb] at hab
      rwa [← hab]
    · exact h.nodup f hf

/-- A thread begins a fragment of its own. -/
theorem State.Parts.begin {l : List (List Nat)} (h : s.Parts wk l) {i : Nat} (hs : l.any (s.sameFrag wk i) = false) :
    s.Parts wk (l ++ [[i]]) := by
  refine ⟨fun f hf => ?_, ?_, fun f hf => ?_⟩
  · rcases List.mem_append.mp hf with hf | hf
    · exact h.alike f hf
    · rw [List.mem_singleton.mp hf]
      intro a ha b hb
      rw [List.mem_singleton.mp ha, List.mem_singleton.mp hb]
  · rw [List.pairwise_append]
    refine ⟨h.unlike, List.pairwise_singleton _ _, fun f hf g hg a ha b hb => ?_⟩
    rw [List.mem_singleton.mp hg] at hb
    rw [List.mem_singleton.mp hb]
    rw [List.any_eq_false] at hs
    exact fun hai => hs f hf (sameFrag_iff.mpr ⟨a, ha, hai⟩)
  · rcases List.mem_append.mp hf with hf | hf
    · exact h.nodup f hf
    · rw [List.mem_singleton.mp hf]
      exact List.nodup_singleton i

theorem fragments_parts (s : State) (wk : Nat) (r : List Nat) (l : List (List Nat)) (hl : s.Parts wk l) (hr : r.Nodup)
    (hd : ∀ i ∈ r, i ∉ l.flatten) :
    s.Parts wk (s.fragments wk r l) ∧ ∀ i, i ∈ (s.fragments wk r l).flatten ↔ i ∈ r ∨ i ∈ l.flatten := by
  induction r generalizing l with
  | nil => exact ⟨hl, fun i => by simp [State.fragments]⟩
  | cons a r ih =>
    obtain ⟨har, hr⟩ := List.nodup_cons.mp hr
    have hal := hd a List.mem_cons_self
    rw [fragments_cons]
    split
    · next hs =>
      have hmem : ∀ i, i ∈ (l.map fun f => if s.sameFrag wk a f then f ++ [a] else f).flatten ↔ i = a ∨ i ∈ l.flatten := fun i => by
        obtain ⟨g, hg, hga⟩ := List.any_eq_true.mp hs
        rw [List.mem_flatten]
        constructor
        · rintro ⟨f', hf', hi⟩
          obtain ⟨f, hf, rfl⟩ := List.mem_map.mp hf'
          split at hi
          · rcases List.mem_append.mp hi with hi | hi
            · exact .inr (List.mem_flatten.mpr ⟨f, hf, hi⟩)
            · exact .inl (List.mem_singleton.mp hi)
          · exact .inr (List.mem_flatten.mpr ⟨f, hf, hi⟩)
        · rintro (rfl | hi)
          · exact ⟨g ++ [i], List.mem_map.mpr ⟨g, hg, if_pos hga⟩, List.mem_append_right _ (List.mem_singleton_self i)⟩
          · obtain ⟨f, hf, hif⟩ := List.mem_flatten.mp hi
            refine ⟨_, List.mem_map.mpr ⟨f, hf, rfl⟩, ?_⟩
            split
            · exact List.mem_append_left _ hif
            · exact hif
      obtain ⟨hp, hin⟩ := ih _ (hl.join hal) hr fun i hi hil => by
        rcases (hmem i).mp hil with rfl | h
        · exact har hi
        · exact hd i (List.mem_cons_of_mem _ hi) h
      refine ⟨hp, fun i => ?_⟩
      rw [hin, hmem, List.mem_cons]
      tauto
    · next hs =>
      have hmem : ∀ i, i ∈ (l ++ [[a]]).flatten ↔ i = a ∨ i ∈ l.flatten := fun i => by
        simp only [List.flatten_append, List.mem_append, List.flatten_cons, List.flatten_nil, List.append_nil, List.mem_singleton]
        tauto
      obtain ⟨hp, hin⟩ := ih _ (hl.begin (Bool.not_eq_true _ ▸ hs)) hr fun i hi hil => by
        rcases (hmem i).mp hil with rfl | h
        · exact har hi
        · exact hd i (List.mem_cons_of_mem _ hi) h
      refine ⟨hp, fun i => ?_⟩
      rw [hin, hmem, List.mem_cons]
      tauto

/-- Each live thread stands in one fragment. -/
theorem fragments_live (s : State) (wk : Nat) : (s.fragments wk (s.liveTids wk) []).flatten.Nodup ∧
    ∀ i, i ∈ (s.fragments wk (s.liveTids wk) []).flatten ↔ i ∈ s.liveTids wk := by
  obtain ⟨hp, hin⟩ := fragments_parts s wk (s.liveTids wk) [] ⟨by simp, List.Pairwise.nil, by simp⟩ (liveTids_nodup s wk) (by simp)
  refine ⟨hp.flatten, fun i => ?_⟩
  rw [hin]
  simp

/-! #### Entering -/

/-- A thread that takes PREEMPT, with a mask of siblings. -/
def Thread.preempted (t : Thread) (vec : W64) (detail now : Nat) (p : PreT) (sib : W64) : Thread :=
  { t.enter { cause := .preempt, detail := detail, pc := t.pc } vec sib false with pre := p, since := now }

theorem preemptAll_eq (s : State) (k detail : Nat) (p : PreT) : s.preemptAll k detail p =
    (s.fragments k (s.liveTids k) []).foldl (fun v fr => v.modTids k fr fun t =>
      t.preempted (s.launchOf (s.wg k)).vec detail (s.clockOf (s.wg k).pkg) p (v.sibMask k fr)) s := rfl

theorem foldl_fragments (k : Nat) (g : W64 → Thread → Thread) (frs : List (List Nat)) (hnd : frs.flatten.Nodup) (s : State) :
    let u := frs.foldl (fun v fr => v.modTids k fr (g (v.sibMask k fr))) s
    u = { s with threads := u.threads } ∧ (∀ i ∈ frs.flatten, ∃ sib, u.thr (thrKey k i) = g sib (s.thr (thrKey k i))) ∧
      ∀ j, (∀ i ∈ frs.flatten, j ≠ thrKey k i) → u.thr j = s.thr j := by
  induction frs generalizing s with
  | nil => exact ⟨rfl, by simp, fun _ _ => rfl⟩
  | cons fr frs ih =>
    rw [List.flatten_cons, List.nodup_append] at hnd
    obtain ⟨hfr, hrest, hdisj⟩ := hnd
    intro u
    have hframe1 := modTids_frame s (wk := k) (l := fr) (g (s.sibMask k fr))
    have hin1 : ∀ i ∈ fr, (s.modTids k fr (g (s.sibMask k fr))).thr (thrKey k i) = g (s.sibMask k fr) (s.thr (thrKey k i)) :=
      fun i hi => modTids_thr_of_mem s _ hfr hi
    have hout1 : ∀ j, (∀ i ∈ fr, j ≠ thrKey k i) → (s.modTids k fr (g (s.sibMask k fr))).thr j = s.thr j :=
      fun j hj => modTids_thr_of_forall_ne s _ hfr hj
    have hu : u = frs.foldl (fun v fr => v.modTids k fr (g (v.sibMask k fr))) (s.modTids k fr (g (s.sibMask k fr))) := rfl
    clear_value u
    generalize s.modTids k fr (g (s.sibMask k fr)) = v at hu hframe1 hin1 hout1
    obtain ⟨hframe, hin, hout⟩ := ih hrest v
    rw [← hu] at hframe hin hout
    have hinj : ∀ i j, thrKey k i = thrKey k j → i = j := fun i j h => Nat.add_left_cancel (show 2048 * k + i = 2048 * k + j from h)
    refine ⟨?_, fun i hi => ?_, fun j hj => ?_⟩
    · rw [hframe, hframe1]
    · rw [List.flatten_cons, List.mem_append] at hi
      rcases hi with hi | hi
      · refine ⟨s.sibMask k fr, ?_⟩
        rw [hout _ fun j hj h => hdisj i hi j hj (hinj _ _ h)]
        exact hin1 i hi
      · obtain ⟨sib, hsib⟩ := hin i hi
        refine ⟨sib, hsib.trans ?_⟩
        rw [hout1 _ fun j hj h => hdisj j hj i hi (hinj _ _ h).symm]
    · rw [List.flatten_cons] at hj
      rw [hout j fun i hi => hj i (List.mem_append_right _ hi), hout1 j fun i hi => hj i (List.mem_append_left _ hi)]

theorem preemptAll_spec (s : State) (k detail : Nat) (p : PreT) :
    let u := s.preemptAll k detail p
    u = { s with threads := u.threads } ∧
      (∀ i ∈ s.liveTids k, ∃ sib, u.thr (thrKey k i) =
        (s.thr (thrKey k i)).preempted (s.launchOf (s.wg k)).vec detail (s.clockOf (s.wg k).pkg) p sib) ∧
      ∀ j, (∀ i ∈ s.liveTids k, j ≠ thrKey k i) → u.thr j = s.thr j := by
  obtain ⟨hnd, hin⟩ := fragments_live s k
  obtain ⟨hframe, hthr, hout⟩ := foldl_fragments k
    (fun sib t => t.preempted (s.launchOf (s.wg k)).vec detail (s.clockOf (s.wg k).pkg) p sib) _ hnd s
  exact ⟨hframe, fun i hi => hthr i ((hin i).mpr hi), fun j hj => hout j fun i hi => hj i ((hin i).mp hi)⟩

end Sys2Proof.Machine

/-! ### The save of a gang (18_queues R300, R301) -/

namespace Sys2Proof.Machine

variable {s t u v : State}

/-! #### Members, one after another -/

theorem mem_liveTids {s : State} {k i : Nat} (h : i ∈ s.liveTids k) : i < (s.wg k).size := by
  unfold State.liveTids State.tidsOf at h
  exact List.mem_range.mp (List.mem_filter.mp h).1

theorem liveTids_congr {k : Nat} (hsize : (u.wg k).size = (s.wg k).size)
    (hthr : ∀ i < (s.wg k).size, (u.thr (thrKey k i)).live = (s.thr (thrKey k i)).live) : u.liveTids k = s.liveTids k := by
  unfold State.liveTids State.tidsOf
  rw [hsize]
  exact List.filter_congr fun i hi => hthr i (List.mem_range.mp hi)

/-- What a step that changes one member's live threads leaves. -/
structure State.Touches (s : State) (k : Nat) (R : Thread → Thread → Prop) (u : State) : Prop where
  size : ∀ j, (u.wg j).size = (s.wg j).size
  live : ∀ i ∈ s.liveTids k, R (s.thr (thrKey k i)) (u.thr (thrKey k i))
  others : ∀ j, (∀ i ∈ s.liveTids k, j ≠ thrKey k i) → u.thr j = s.thr j

/-- Members that are changed in turn each change once. -/
theorem foldl_touches {f : State → Nat → State} {I : State → Prop} {R : Nat → Thread → Thread → Prop}
    (hf : ∀ s k, I s → I (f s k) ∧ s.Touches k (R k) (f s k)) (ms : List Nat) (hnd : ms.Nodup) (s : State) (hI : I s)
    (hsz : ∀ k ∈ ms, (s.wg k).size ≤ 2048) :
    I (ms.foldl f s) ∧ (∀ j, ((ms.foldl f s).wg j).size = (s.wg j).size) ∧
      (∀ k ∈ ms, ∀ i ∈ s.liveTids k, R k (s.thr (thrKey k i)) ((ms.foldl f s).thr (thrKey k i))) ∧
      ∀ j, (∀ k ∈ ms, ∀ i ∈ s.liveTids k, j ≠ thrKey k i) → (ms.foldl f s).thr j = s.thr j := by
  induction ms generalizing s with
  | nil => exact ⟨hI, fun _ => rfl, by simp, fun _ _ => rfl⟩
  | cons a ms ih =>
    obtain ⟨ham, hnd⟩ := List.nodup_cons.mp hnd
    obtain ⟨hI1, hsize1, hlive1, hothers1⟩ := hf s a hI
    have hlt : ∀ k ∈ a :: ms, ∀ i ∈ s.liveTids k, i < 2048 := fun k hk i hi => Nat.lt_of_lt_of_le (mem_liveTids hi) (hsz k hk)
    have hapart : ∀ k ∈ ms, ∀ i < 2048, (f s a).thr (thrKey k i) = s.thr (thrKey k i) := fun k hk i hi =>
      hothers1 _ fun j hj => thrKey_ne hi (hlt a List.mem_cons_self j hj) fun h => ham (h ▸ hk)
    have hlt' : ∀ k ∈ ms, (f s a).liveTids k = s.liveTids k := fun k hk =>
      liveTids_congr (hsize1 k) fun i hi => by
        rw [hapart k hk i (Nat.lt_of_lt_of_le hi (hsz k (List.mem_cons_of_mem _ hk)))]
    obtain ⟨hI2, hsize2, hlive2, hothers2⟩ := ih hnd (f s a) hI1 fun k hk => by
      rw [hsize1]
      exact hsz k (List.mem_cons_of_mem _ hk)
    rw [List.foldl_cons]
    refine ⟨hI2, fun j => (hsize2 j).trans (hsize1 j), fun k hk i hi => ?_, fun j hj => ?_⟩
    · rcases List.mem_cons.mp hk with rfl | hk'
      · rw [hothers2 _ fun k' hk' i' hi' => ?_]
        · exact hlive1 i hi
        · rw [hlt' k' hk'] at hi'
          exact thrKey_ne (hlt k hk i hi) (hlt k' (List.mem_cons_of_mem _ hk') i' hi') fun h => ham (h ▸ hk')
      · have h2 := hlive2 k hk' i (by rw [hlt' k hk']; exact hi)
        rwa [hapart k hk' i (hlt k hk i hi)] at h2
    · rw [hothers2 j fun k hk i hi => hj k (List.mem_cons_of_mem _ hk) i (by rw [← hlt' k hk]; exact hi)]
      exact hothers1 j fun i hi => hj a List.mem_cons_self i hi

/-! #### The slot is written -/

/-- What the writing of a slot changes: memory, and the counter of free values. -/
def State.Lays (s u : State) : Prop := u = { s with
  mem := u.mem, empties := u.empties, poison := u.poison, views := u.views, viewVer := u.viewVer, tick := u.tick }

theorem State.Lays.refl (s : State) : s.Lays s := rfl

theorem State.Lays.trans (h : s.Lays t) (h' : t.Lays u) : s.Lays u := by
  unfold State.Lays at *
  rw [h', h]

theorem State.Lays.foldl {α : Type} {f : State → α → State} (hf : ∀ (s : State) a, s.Lays (f s a)) (l : List α) (s : State) :
    s.Lays (l.foldl f s) := by
  induction l generalizing s with
  | nil => exact .refl s
  | cons a l ih => exact (hf s a).trans (ih _)

theorem lay_lays (s : State) (loc : Nat) (b : List Byte) : s.Lays (s.lay loc b) := rfl

theorem saveSpan_lays (s : State) (p fn : Nat) (a : W64) (b : List Byte) : s.Lays (s.saveSpan p fn a b) := by
  unfold State.saveSpan
  refine State.Lays.foldl (fun s i => ?_) _ s
  dsimp only
  split
  · split
    · exact .refl s
    · split
      · exact lay_lays s _ _
      · exact State.Lays.foldl (fun s w => lay_lays s _ _) _ s
  · exact .refl s
  · exact .refl s

theorem slotSpan_lays (s : State) (gk slot o : Nat) (b : List Byte) : s.Lays (s.slotSpan gk slot o b) := saveSpan_lays s _ _ _ _

theorem slotFree_lays (s : State) (gk slot o n : Nat) (part : List Byte → List Byte) : s.Lays (s.slotFree gk slot o n part) :=
  State.Lays.trans (t := (s.freeBytes n).2) rfl (slotSpan_lays _ gk slot o _)

theorem poisonSlot_lays (s : State) (gk : Nat) (a : W64) : s.Lays (s.poisonSlot gk a) := by
  unfold State.poisonSlot
  refine State.Lays.foldl (fun s x => ?_) _ s
  dsimp only
  split
  · exact .refl s
  · rfl

theorem writeParts_lays (s : State) (gk slot : Nat) : s.Lays (s.writeParts gk slot) := by
  unfold State.writeParts
  exact State.Lays.foldl (fun s x => slotFree_lays s _ _ _ _ _) _ s

theorem writeVault_lays (s : State) (gk slot : Nat) : s.Lays (s.writeVault gk slot) := by
  unfold State.writeVault
  exact (slotSpan_lays s _ _ _ _).trans (poisonSlot_lays _ _ _)

theorem writeAccs_lays (s : State) (gk slot : Nat) : s.Lays (s.writeAccs gk slot) := by
  unfold State.writeAccs
  split
  · exact State.Lays.foldl (fun s x => slotSpan_lays s _ _ _ _) _ s
  · exact .refl s

theorem writeThreads_lays (s : State) (gk slot : Nat) : s.Lays (s.writeThreads gk slot) := by
  unfold State.writeThreads
  exact State.Lays.foldl (fun s x => State.Lays.foldl (fun s i => slotFree_lays s _ _ _ _ _) _ s) _ s

theorem writeSlot_lays (s : State) (gk slot : Nat) : s.Lays (s.writeSlot gk slot) := by
  unfold State.writeSlot
  exact ((((slotSpan_lays s gk slot 0 _).trans (writeParts_lays _ gk slot)).trans (writeVault_lays _ gk slot)).trans
    (writeAccs_lays _ gk slot)).trans (writeThreads_lays _ gk slot)

/-! #### The threads are stowed and enter PREEMPT -/

/-- A state that differs from another in threads alone. -/
def State.ThreadsOf (s u : State) : Prop := u = { s with threads := u.threads }

theorem State.ThreadsOf.trans (h : s.ThreadsOf t) (h' : t.ThreadsOf u) : s.ThreadsOf u := by
  unfold State.ThreadsOf at *
  rw [h', h]

theorem modTids_touches (s : State) (k : Nat) (f : Thread → Thread) :
    s.Touches k (fun a b => b = f a) (s.modTids k (s.liveTids k) f) where
  size j := by rw [modTids_frame]; rfl
  live i hi := modTids_thr_of_mem s f (liveTids_nodup s k) hi
  others j hj := modTids_thr_of_forall_ne s f (liveTids_nodup s k) hj

theorem preemptAll_touches (s : State) (k detail : Nat) (p : PreT) : s.Touches k
    (fun a b => ∃ sib, b = a.preempted (s.launchOf (s.wg k)).vec detail (s.clockOf (s.wg k).pkg) p sib) (s.preemptAll k detail p) := by
  obtain ⟨hframe, hlive, hothers⟩ := preemptAll_spec s k detail p
  exact ⟨fun j => by rw [hframe]; rfl, hlive, hothers⟩

/-- Every live thread of the members is stowed, and then takes PREEMPT. -/
theorem stow_preempt {ms : List Nat} (hnd : ms.Nodup) (hsz : ∀ k ∈ ms, (s.wg k).size ≤ 2048) (detail : Nat) (p : PreT) :
    let u := ms.foldl (fun s k => s.preemptAll k detail p) (ms.foldl (fun s k => s.modTids k (s.liveTids k) Thread.stow) s)
    s.ThreadsOf u ∧
      (∀ k ∈ ms, ∀ i ∈ s.liveTids k, ∃ sib, u.thr (thrKey k i) =
        (s.thr (thrKey k i)).stow.preempted (s.launchOf (s.wg k)).vec detail (s.clockOf (s.wg k).pkg) p sib) ∧
      ∀ j, (∀ k ∈ ms, ∀ i ∈ s.liveTids k, j ≠ thrKey k i) → u.thr j = s.thr j := by
  obtain ⟨hI1, hsize1, hlive1, hothers1⟩ := foldl_touches (f := fun s k => s.modTids k (s.liveTids k) Thread.stow)
    (I := s.ThreadsOf) (R := fun _ a b => b = a.stow)
    (fun v k hv => ⟨hv.trans (modTids_frame v Thread.stow), modTids_touches v k Thread.stow⟩) ms hnd s rfl hsz
  generalize ms.foldl (fun s k => s.modTids k (s.liveTids k) Thread.stow) s = v at hI1 hsize1 hlive1 hothers1
  have hlt : ∀ k ∈ ms, v.liveTids k = s.liveTids k := fun k hk => liveTids_congr (hsize1 k) fun i hi => by
    by_cases hil : i ∈ s.liveTids k
    · rw [hlive1 k hk i hil]
      rfl
    · rw [hothers1 _ fun k' hk' i' hi' h => ?_]
      have hi2 : i < 2048 := Nat.lt_of_lt_of_le hi (hsz k hk)
      by_cases hkk : k = k'
      · subst hkk
        exact hil (by rwa [Nat.add_left_cancel (show 2048 * k + i = 2048 * k + i' from h)])
      · exact thrKey_ne hi2 (Nat.lt_of_lt_of_le (mem_liveTids hi') (hsz k' hk')) hkk h
  obtain ⟨hI2, -, hlive2, hothers2⟩ := foldl_touches (f := fun s k => s.preemptAll k detail p) (I := s.ThreadsOf)
    (R := fun k a b => ∃ sib, b = a.preempted (s.launchOf (s.wg k)).vec detail (s.clockOf (s.wg k).pkg) p sib)
    (fun w k hw => by
      have hw' : w = { s with threads := w.threads } := hw
      have hvec : (w.launchOf (w.wg k)).vec = (s.launchOf (s.wg k)).vec := by rw [hw']; rfl
      have hclock : w.clockOf (w.wg k).pkg = s.clockOf (s.wg k).pkg := by rw [hw']; rfl
      have htouch := preemptAll_touches w k detail p
      rw [hvec, hclock] at htouch
      exact ⟨hw.trans (preemptAll_spec w k detail p).1, htouch⟩) ms hnd v hI1 fun k hk => by rw [hsize1]; exact hsz k hk
  refine ⟨hI2, fun k hk i hi => ?_, fun j hj => ?_⟩
  · obtain ⟨sib, hsib⟩ := hlive2 k hk i (by rw [hlt k hk]; exact hi)
    exact ⟨sib, by rw [hsib, hlive1 k hk i hi]⟩
  · rw [hothers2 j fun k hk i hi => hj k hk i (by rw [← hlt k hk]; exact hi), hothers1 j hj]

end Sys2Proof.Machine

/-! ### What the hardware save leaves, and the gang stood in a new place (18_queues R301, R302, 04_registers R88) -/

namespace Sys2Proof.Machine

variable {s t u v : State} {gk : Nat}

/-! #### The hardware save -/

/-- What a thread that takes PREEMPT shows. -/
theorem preempted_spec (t : Thread) (vec : W64) (detail now : Nat) (p : PreT) (sib : W64) (hd : detail < 256) :
    let v := t.preempted vec detail now p sib
    v = { t with handler := true, pc := v.pc, trap := v.trap, pre := p, since := now } ∧ v.pc = vec + 64 * 0x18 ∧ v.trap.pc = t.pc ∧
      v.trap.cause = BitVec.ofNat 32 (256 * detail + 0x18) ∧ v.trap.addr = 0 ∧ v.trap.parent = t.parentId := by
  intro v
  have hpc : v.pc = vec + BitVec.ofNat 64 (64 * Cause.preempt.code) := rfl
  have hv : v = { t with handler := true, pc := v.pc, trap := v.trap, pre := p, since := now } := by
    clear hpc
    simp only [v, Thread.preempted, Thread.enter, Bool.false_eq_true, if_false]
  refine ⟨hv, hpc.trans (congrArg (vec + ·) (by decide)), rfl, ?_, rfl, rfl⟩
  show trapCause .preempt detail false = _
  unfold trapCause
  rw [Nat.mod_eq_of_lt hd]
  exact congrArg (BitVec.ofNat 32) (by show 0 + 2 ^ 8 * detail + 0x18 = 256 * detail + 0x18; omega)

/-- The gang with its saved parts, its slot written. -/
def State.saveParts (s : State) (gk slot : Nat) : State :=
  let v := s.saveVault gk
  (v.modGang gk fun g => { g with saved := (s.gang gk).members.map v.coreOf }).writeSlot gk slot

theorem saveGang_eq {slot : Nat} (hstrike : ∀ k ∈ (s.gang gk).members, ∀ i ∈ s.liveTids k, s.strikeAt k i = false) :
    s.saveGang gk slot =
      ((s.gang gk).members.foldl (fun s k => s.preemptAll k (slot % 128) .saving)
        ((s.gang gk).members.foldl (fun s k => s.modTids k (s.liveTids k) Thread.stow) (s.saveParts gk slot))).modGang gk fun g =>
          { g with pre := g.pre.map fun p => { p with hwSaved := true } } := by
  have hnone : (s.gang gk).members.foldl (fun s k => s.cancelAll k ((s.liveTids k).filter (s.strikeAt k))) s = s :=
    foldl_fixed _ _ _ fun k hk => by
      rw [List.filter_eq_nil_iff.mpr fun i hi => by rw [hstrike k hk i hi]; exact Bool.false_ne_true]
      rfl
  unfold State.saveGang
  dsimp only
  rw [hnone]
  rfl

theorem saveParts_spec (s : State) (gk slot : Nat) : ((s.saveParts gk slot).gang gk).pre = (s.gang gk).pre ∧
    s.saveParts gk slot = { s with
      gangs := (s.saveParts gk slot).gangs, mem := (s.saveParts gk slot).mem, empties := (s.saveParts gk slot).empties,
      poison := (s.saveParts gk slot).poison, views := (s.saveParts gk slot).views, viewVer := (s.saveParts gk slot).viewVer,
      tick := (s.saveParts gk slot).tick } := by
  unfold State.saveParts
  dsimp only
  generalize hv : (s.saveVault gk).modGang gk (fun g => { g with saved := (s.gang gk).members.map (s.saveVault gk).coreOf }) = v
  have hl := writeSlot_lays v gk slot
  unfold State.Lays at hl
  generalize v.writeSlot gk slot = u at hl
  refine ⟨?_, ?_⟩
  · rw [show u.gang gk = v.gang gk by rw [hl]; rfl, ← hv, State.modGang_self]
    unfold State.saveVault
    dsimp only
    rw [State.modGang_self]
  · rw [hl, ← hv]
    rfl

theorem exec_hardwareSave_eq {q : PreG} {slot : Nat} (hpre : (s.gang gk).pre = some q) (hsaved : q.hwSaved = false)
    (hacks : 7 ≤ q.acks.length) (hrun : (s.gang gk).st = .running) (hdis : q.discard = false) (hslot : (s.gang gk).slot = some slot) :
    exec (.hardwareSave gk) s = .next (s.saveGang gk slot) := by
  show execHardwareSave gk s = _
  unfold execHardwareSave
  dsimp only
  rw [hpre]
  dsimp only
  rw [if_neg (by simp [hsaved, hrun]; omega), hdis, if_neg Bool.false_ne_true, hslot]

theorem hardwareSave_spec {q : PreG} {slot : Nat} (hpre : (s.gang gk).pre = some q) (hsaved : q.hwSaved = false)
    (hacks : 7 ≤ q.acks.length) (hrun : (s.gang gk).st = .running) (hdis : q.discard = false) (hslot : (s.gang gk).slot = some slot)
    (hnd : (s.gang gk).members.Nodup)
    (hms : ∀ k ∈ (s.gang gk).members, (s.wg k).size ≤ 2048 ∧ ∀ i ∈ s.liveTids k, s.strikeAt k i = false) :
    ∃ u, exec (.hardwareSave gk) s = .next u ∧ (u.gang gk).pre = some { q with hwSaved := true } ∧
      (∀ k ∈ (s.gang gk).members, ∀ i ∈ s.liveTids k, let t := s.thr (thrKey k i)
        let v := u.thr (thrKey k i)
        v = { t.stow with handler := true, pc := v.pc, trap := v.trap, pre := .saving, since := s.clockOf (s.wg k).pkg } ∧
          v.pc = (s.launchOf (s.wg k)).vec + 64 * 0x18 ∧ v.trap.pc = t.pc ∧ v.trap.cause = BitVec.ofNat 32 (256 * (slot % 128) + 0x18) ∧
          v.trap.addr = 0 ∧ v.trap.parent = t.parentId) ∧
      (∀ j, (∀ k ∈ (s.gang gk).members, ∀ i ∈ s.liveTids k, j ≠ thrKey k i) → u.thr j = s.thr j) := by
  have hexec := exec_hardwareSave_eq hpre hsaved hacks hrun hdis hslot
  rw [saveGang_eq fun k hk => (hms k hk).2] at hexec
  obtain ⟨hvpre, hvf⟩ := saveParts_spec s gk slot
  generalize s.saveParts gk slot = v at hexec hvpre hvf
  have hvwg : ∀ k, v.wg k = s.wg k := fun k => by rw [hvf]; rfl
  have hvthr : ∀ j, v.thr j = s.thr j := fun j => by rw [hvf]; rfl
  have hvlive : ∀ k, v.liveTids k = s.liveTids k := fun k => by rw [hvf]; rfl
  have hvvec : ∀ k, (v.launchOf (v.wg k)).vec = (s.launchOf (s.wg k)).vec := fun k => by rw [hvf]; rfl
  have hvclock : ∀ k, v.clockOf (v.wg k).pkg = s.clockOf (s.wg k).pkg := fun k => by rw [hvf]; rfl
  have hsp := stow_preempt (s := v) hnd (fun k hk => by rw [hvwg]; exact (hms k hk).1) (slot % 128) .saving
  generalize (s.gang gk).members.foldl (fun s k => s.preemptAll k (slot % 128) .saving)
    ((s.gang gk).members.foldl (fun s k => s.modTids k (s.liveTids k) Thread.stow) v) = w at hexec hsp
  obtain ⟨hw, hlive, hothers⟩ := hsp
  have hwg : w.gang gk = v.gang gk := by rw [show w = _ from hw]; rfl
  refine ⟨_, hexec, ?_, fun k hk i hi => ?_, fun j hj => ?_⟩
  · rw [State.modGang_self, hwg, hvpre, hpre]
    rfl
  · obtain ⟨sib, hsib⟩ := hlive k hk i (by rw [hvlive]; exact hi)
    rw [hvthr, hvvec, hvclock] at hsib
    have hspec := preempted_spec (s.thr (thrKey k i)).stow (s.launchOf (s.wg k)).vec (slot % 128) (s.clockOf (s.wg k).pkg) .saving sib
      (by omega)
    dsimp only at hspec ⊢
    rw [State.modGang_thr, hsib]
    exact hspec
  · rw [State.modGang_thr, hothers j fun k hk i hi => hj k hk i (by rw [← hvlive]; exact hi), hvthr]

end Sys2Proof.Machine

/-! ### The resumed gang (18_queues R302, 04_registers R88) -/

namespace Sys2Proof.Machine

variable {s t u v w : State} {gk : Nat}

/-! #### What the threads' blocks give back -/

/-- What a read of trap registers from a slot leaves. -/
structure State.Recalls (s u : State) : Prop where
  frame : u = { s with threads := u.threads, tick := u.tick }
  thr : ∀ j, u.thr j = { s.thr j with saved := (u.thr j).saved }

theorem State.Recalls.refl (s : State) : s.Recalls s := ⟨rfl, fun _ => rfl⟩

theorem State.Recalls.trans (h : s.Recalls t) (h' : t.Recalls u) : s.Recalls u where
  frame := by rw [h'.frame, h.frame]
  thr j := by rw [h'.thr j, h.thr j]

theorem State.Recalls.foldl {α : Type} {f : State → α → State} (hf : ∀ (s : State) a, s.Recalls (f s a)) (l : List α) (s : State) :
    s.Recalls (l.foldl f s) := by
  induction l generalizing s with
  | nil => exact .refl s
  | cons a l ih => exact (hf s a).trans (ih _)

theorem recall_recalls (s : State) (n k : Nat) (g : Thread → TrapRegs) :
    s.Recalls ((s.freeBytes n).2.modThr k fun t => { t with saved := g t }) := by
  refine ⟨rfl, fun j => ?_⟩
  rw [State.modThr_thr]
  split
  · next hj => rw [hj]; rfl
  · rfl

theorem slotTraps_recalls (s : State) (gk : Nat) : s.Recalls (s.slotTraps gk) := by
  unfold State.slotTraps
  refine State.Recalls.foldl (fun s x => State.Recalls.foldl (fun s i => ?_) _ s) _ s
  dsimp only [State.freeBytes]
  split
  · exact ⟨rfl, fun _ => rfl⟩
  · exact recall_recalls s 40 _ _

/-! #### The gang's place -/

/-- What the restoring of places, cores and memory leaves. -/
structure State.Stands (s u : State) : Prop where
  frame : u = { s with
    mem := u.mem, empties := u.empties, poison := u.poison, views := u.views, viewVer := u.viewVer, cores := u.cores, quads := u.quads,
    ctxs := u.ctxs, sillage := u.sillage, nextId := u.nextId, tick := u.tick, dies := u.dies, accs := u.accs }
  ctx : ∀ k, u.ctx k = { s.ctx k with slots := (u.ctx k).slots }

theorem State.Stands.refl (s : State) : s.Stands s := ⟨rfl, fun _ => rfl⟩

theorem State.Stands.trans (h : s.Stands t) (h' : t.Stands u) : s.Stands u where
  frame := by rw [h'.frame, h.frame]
  ctx k := by rw [h'.ctx k, h.ctx k]

theorem State.Stands.foldl {α : Type} {f : State → α → State} (hf : ∀ (s : State) a, s.Stands (f s a)) (l : List α) (s : State) :
    s.Stands (l.foldl f s) := by
  induction l generalizing s with
  | nil => exact .refl s
  | cons a l ih => exact (hf s a).trans (ih _)

theorem State.Readies.stands (h : s.Readies u) : s.Stands u where
  frame := by rw [h.frame]
  ctx := h.ctx

theorem State.Lays.stands (h : s.Lays u) : s.Stands u where
  frame := by rw [show u = _ from h]
  ctx k := by rw [show u = _ from h]; rfl

theorem modCore_stands (s : State) (k : Nat) (f : Core → Core) : s.Stands (s.modCore k f) := ⟨rfl, fun _ => rfl⟩

theorem restoreVault_stands (s : State) (gk : Nat) (img : List Byte) (bad : List Nat) : s.Stands (s.restoreVault gk img bad) :=
  State.Lays.stands rfl

theorem dqWrite_stands (s : State) (ck : Nat) (a b : W32) : s.Stands ((s.dqWrite ck a b).getD s) := by
  unfold State.dqWrite
  split
  · exact modCore_stands _ _ _
  · exact .refl _

theorem restoreCore_stands (s : State) (k : Nat) (x : SavedCore) : s.Stands (s.restoreCore k x) := by
  unfold State.restoreCore
  dsimp only
  generalize hv : ((s.modCore (s.wg k).ckey fun c => { c with wptr := x.wptr }).dqWrite (s.wg k).ckey x.dqbase x.dqlimit).getD
    (s.modCore (s.wg k).ckey fun c => { c with wptr := x.wptr }) = v
  have h : s.Stands v := by
    rw [← hv]
    exact (modCore_stands s (s.wg k).ckey fun c => { c with wptr := x.wptr }).trans (dqWrite_stands _ _ _ _)
  split
  · exact h.trans (modCore_stands _ _ _)
  · exact h

theorem rehome_stands (s : State) (a : Access) : s.Stands (s.rehome a) := by
  have hf := resolve_finds s (a.thr / 2048) (a.thr % 2048) a.addr a.size a.kind.want
  unfold State.rehome
  generalize s.resolve (a.thr / 2048) (a.thr % 2048) a.addr a.size a.kind.want = r at hf
  obtain ⟨r, v⟩ := r
  have hf' : v = { s with tick := v.tick, cores := v.cores, dies := v.dies } := hf
  have hv : s.Stands v := by
    rw [hf']
    exact ⟨rfl, fun _ => rfl⟩
  cases r with
  | ok pl => exact hv.trans ⟨rfl, fun _ => rfl⟩
  | refuse _ _ => exact hv
  | absent _ => exact hv

/-- A member's record in its new place. -/
def Wg.seated (w : Wg) (f : Fit) (m : Nat) : Wg :=
  { w with core := 4 * f.quad + f.cidx + m, scrBase := f.offs.getD m 0, resident := true }

/-- A member takes its place, and its copies are bound. -/
def State.seats (s : State) (f : Fit) (ctx : Nat) (x : Nat × Nat) : State :=
  let s := s.modWg x.1 fun w => w.seated f x.2
  s.bindCopies false (s.wg x.1).ckey ctx

theorem foldl_seats (f : Fit) (ctx : Nat) (l : List (Nat × Nat)) (hnd : (l.map Prod.fst).Nodup) (s : State) :
    let u := l.foldl (fun s x => s.seats f ctx x) s
    (∀ x ∈ l, u.wg x.1 = (s.wg x.1).seated f x.2) ∧ (∀ k, k ∉ l.map Prod.fst → u.wg k = s.wg k) ∧
      State.Stands { s with wgs := u.wgs } u := by
  induction l generalizing s with
  | nil => exact ⟨by simp, fun _ _ => rfl, .refl s⟩
  | cons a l ih =>
    rw [List.map_cons, List.nodup_cons] at hnd
    obtain ⟨hal, hnd⟩ := hnd
    have hb := (bindCopies_readies (s.modWg a.1 fun w => w.seated f a.2) ((s.modWg a.1 fun w => w.seated f a.2).wg a.1).ckey ctx).stands
    have hseat : s.seats f ctx a = (s.modWg a.1 fun w => w.seated f a.2).bindCopies false
      ((s.modWg a.1 fun w => w.seated f a.2).wg a.1).ckey ctx := rfl
    rw [← hseat] at hb
    obtain ⟨hin, hout, hst⟩ := ih hnd (s.seats f ctx a)
    rw [List.foldl_cons]
    generalize s.seats f ctx a = v at hb hin hout hst
    have hvwg : ∀ k, v.wg k = if a.1 = k then (s.wg a.1).seated f a.2 else s.wg k := fun k => by
      rw [show v.wg k = (s.modWg a.1 fun w => w.seated f a.2).wg k by rw [hb.frame]; rfl, State.modWg_wg]
    generalize l.foldl (fun s x => s.seats f ctx x) v = u at hin hout hst ⊢
    refine ⟨fun x hx => ?_, fun k hk => ?_, ?_, fun k => ?_⟩
    · rcases List.mem_cons.mp hx with rfl | hx
      · rw [hout _ hal, hvwg, if_pos rfl]
      · rw [hin x hx, hvwg, if_neg fun h : a.1 = x.1 => hal (h ▸ List.mem_map_of_mem hx)]
    · rw [List.map_cons, List.mem_cons, not_or] at hk
      rw [hout k hk.2, hvwg, if_neg fun h => hk.1 h.symm]
    · conv_lhs => rw [hst.frame, hb.frame]
      rw [hst.frame, hb.frame]
      rfl
    · rw [hst.ctx k]
      show ({ v.ctx k with slots := _ } : Ctx) = _
      rw [hb.ctx k]
      rfl

/-! #### Its threads -/

theorem foldl_blank (k n : Nat) (l : List Nat) (hnd : l.Nodup) (s : State) :
    let u := l.foldl (fun (s : State) i => (s.freeBytes 13).2.modThr (thrKey k i) fun t => t.blank n (s.freeBytes 13).1) s
    u = { s with threads := u.threads, tick := u.tick } ∧
      (∀ i ∈ l, ∃ b, u.thr (thrKey k i) = (s.thr (thrKey k i)).blank n b) ∧ ∀ j, (∀ i ∈ l, j ≠ thrKey k i) → u.thr j = s.thr j := by
  induction l generalizing s with
  | nil => exact ⟨rfl, by simp, fun _ _ => rfl⟩
  | cons a l ih =>
    obtain ⟨hal, hnd⟩ := List.nodup_cons.mp hnd
    rw [List.foldl_cons]
    generalize hv : (s.freeBytes 13).2.modThr (thrKey k a) (fun t => t.blank n (s.freeBytes 13).1) = v
    have hvf : v = { s with threads := v.threads, tick := v.tick } := by rw [← hv]; rfl
    have hvt : ∀ j, v.thr j = if thrKey k a = j then (s.thr (thrKey k a)).blank n (s.freeBytes 13).1 else s.thr j := fun j => by
      rw [← hv, State.modThr_thr]
      rfl
    obtain ⟨hframe, hin, hout⟩ := ih hnd v
    have hinj : ∀ i, i ∈ l → thrKey k a ≠ thrKey k i := fun i hi h =>
      hal (by rwa [Nat.add_left_cancel (show 2048 * k + a = 2048 * k + i from h)])
    refine ⟨?_, fun i hi => ?_, fun j hj => ?_⟩
    · generalize List.foldl _ v l = u at hframe
      rw [hframe, hvf]
    · rcases List.mem_cons.mp hi with rfl | hi
      · exact ⟨_, by rw [hout _ hinj, hvt, if_pos rfl]⟩
      · obtain ⟨b, hb⟩ := hin i hi
        exact ⟨b, by rw [hb, hvt, if_neg (hinj i hi)]⟩
    · rw [hout j fun i hi => hj i (List.mem_cons_of_mem _ hi), hvt, if_neg (hj a List.mem_cons_self).symm]

/-- What a resuming thread shows. -/
structure Thread.Resumes (vec : W64) (detail n : Nat) (t v : Thread) : Prop where
  handler : v.handler = true
  pc : v.pc = vec + 64 * 0x18
  trapPc : v.trap.pc = t.pc
  cause : v.trap.cause = BitVec.ofNat 32 (256 * detail + 0x18)
  pre : v.pre = .restoring
  x : v.x = List.replicate n 0
  q : v.q = 1

theorem blank_preempted (t : Thread) (vec : W64) (detail now n : Nat) (b : List Byte) (sib : W64) (hd : detail < 256) :
    t.Resumes vec detail n ((t.blank n b).preempted vec detail now .restoring sib) := by
  obtain ⟨hv, hpc, htpc, hcause, -, -⟩ := preempted_spec (t.blank n b) vec detail now .restoring sib hd
  generalize (t.blank n b).preempted vec detail now .restoring sib = v at hv hpc htpc hcause
  exact ⟨by rw [hv], hpc, htpc, hcause, by rw [hv], by rw [hv]; rfl, by rw [hv]; rfl⟩

theorem restoreThreads_eq (s : State) (k slot : Nat) : s.restoreThreads k slot =
    (((s.modWg k fun w => { w with k := (s.ctx (s.wg k).ctx).params, badK := [], oneK := [] }).liveTids k).foldl
      (fun (s' : State) i => (s'.freeBytes 13).2.modThr (thrKey k i) fun t => t.blank (s.wg k).nregs (s'.freeBytes 13).1)
      (s.modWg k fun w => { w with k := (s.ctx (s.wg k).ctx).params, badK := [], oneK := [] })).preemptAll k (slot % 128 + 128)
        .restoring := rfl

/-- The threads of a resuming workgroup, and its record. -/
theorem restoreThreads_spec (s : State) (k slot : Nat) :
    let u := s.restoreThreads k slot
    u = { s with threads := u.threads, wgs := u.wgs, tick := u.tick } ∧
      (∀ j, u.wg j = if k = j then { s.wg k with k := (s.ctx (s.wg k).ctx).params, badK := [], oneK := [] } else s.wg j) ∧
      s.Touches k (Thread.Resumes (s.launchOf (s.wg k)).vec (slot % 128 + 128) (s.wg k).nregs) u := by
  rw [restoreThreads_eq]
  generalize hv : s.modWg k (fun w => { w with k := (s.ctx (s.wg k).ctx).params, badK := [], oneK := [] }) = v
  have hvwg : ∀ j, v.wg j = if k = j then { s.wg k with k := (s.ctx (s.wg k).ctx).params, badK := [], oneK := [] } else s.wg j :=
    fun j => by rw [← hv, State.modWg_wg]
  have hvf : v = { s with wgs := v.wgs } := by rw [← hv]; rfl
  have hvsize : ∀ j, (v.wg j).size = (s.wg j).size := fun j => by
    rw [hvwg]
    split
    · next h => rw [h]
    · rfl
  have hvlive : v.liveTids k = s.liveTids k := liveTids_congr (hvsize k) fun i _ => by rw [hvf]; rfl
  obtain ⟨hbf, hbin, hbout⟩ := foldl_blank k (s.wg k).nregs (v.liveTids k) (liveTids_nodup v k) v
  generalize (v.liveTids k).foldl (fun (s' : State) i =>
    (s'.freeBytes 13).2.modThr (thrKey k i) fun t => t.blank (s.wg k).nregs (s'.freeBytes 13).1) v = x at hbf hbin hbout
  have hxwg : ∀ j, x.wg j = v.wg j := fun j => by rw [hbf]; rfl
  have hxlive : x.liveTids k = s.liveTids k := by
    rw [← hvlive]
    refine liveTids_congr (by rw [hxwg]) fun i hi => ?_
    by_cases hil : i ∈ v.liveTids k
    · obtain ⟨b, hb⟩ := hbin i hil
      rw [hb]
      rfl
    · rw [hbout _ fun j hj h => hil (by rwa [Nat.add_left_cancel (show 2048 * k + i = 2048 * k + j from h)])]
  have hvec : (x.launchOf (x.wg k)).vec = (s.launchOf (s.wg k)).vec := by
    unfold State.launchOf
    rw [hxwg, hvwg, if_pos rfl, hbf, hvf]
    rfl
  obtain ⟨hpf, hpin, hpout⟩ := preemptAll_spec x k (slot % 128 + 128) .restoring
  rw [hxlive, hvec] at hpin
  rw [hxlive] at hpout
  generalize x.preemptAll k (slot % 128 + 128) .restoring = u at hpf hpin hpout
  have huwg : ∀ j, u.wg j = v.wg j := fun j => by rw [hpf]; exact hxwg j
  have hvthr : ∀ j, v.thr j = s.thr j := fun j => by rw [hvf]; rfl
  refine ⟨?_, fun j => (huwg j).trans (hvwg j), fun j => ?_, fun i hi => ?_, fun j hj => ?_⟩
  · rw [hpf, hbf, hvf]
  · rw [huwg, hvsize]
  · obtain ⟨sib, hsib⟩ := hpin i hi
    obtain ⟨b, hb⟩ := hbin i (by rw [hvlive]; exact hi)
    rw [hsib, hb, hvthr]
    exact blank_preempted _ _ _ _ _ _ _ (by omega)
  · rw [hpout j hj, hbout j fun i hi => hj i (by rw [← hvlive]; exact hi), hvthr]

end Sys2Proof.Machine

/-! ### The resumed gang in its place, and pre-emption as a whole (18_queues R300 to R302, 21_tables R328) -/

namespace Sys2Proof.Machine

variable {s t u v w : State} {gk : Nat}

/-! #### The head that wins -/

/-- A state that differs from another in its functions alone. -/
def State.FnsOf (s u : State) : Prop := u = { s with fns := u.fns }

theorem State.FnsOf.foldl {α : Type} {f : State → α → State} (hf : ∀ (s : State) a, s.FnsOf (f s a)) (l : List α) (s : State) :
    s.FnsOf (l.foldl f s) := by
  induction l generalizing s with
  | nil => rfl
  | cons a l ih =>
    have h1 := hf s a
    have h2 := ih (f s a)
    unfold State.FnsOf at *
    rw [List.foldl_cons]
    generalize f s a = t at h1 h2
    generalize l.foldl f t = u at h2
    rw [h2, h1]

theorem noteWaits_frame (s : State) (p : Nat) : s.noteWaits p = { s with fns := (s.noteWaits p).fns } := by
  unfold State.noteWaits
  dsimp only
  refine State.FnsOf.foldl (fun t q => ?_) _ s
  split <;> rfl

theorem placedAs_frame (s : State) (p : Nat) (w : Nat × Nat) (f : Fit) : s.placedAs p w f =
    { s with pkgs := (s.placedAs p w f).pkgs, dies := (s.placedAs p w f).dies, fns := (s.placedAs p w f).fns } := rfl

theorem placedAs_clock (s : State) (p : Nat) (w : Nat × Nat) (f : Fit) (q : Nat) : (s.placedAs p w f).clockOf q = s.clockOf q := by
  have hpkg : (s.placedAs p w f).pkg q = (s.won p w).pkg q := rfl
  unfold State.clockOf
  rw [hpkg]
  unfold State.won
  rw [(modPkg_spec s p _).2 q]
  split <;> rfl

/-! #### The gang stands again -/

/-- A gang's record in its new place. -/
def Gang.placed (g : Gang) (f : Fit) (stk : Nat) : Gang :=
  { g with quad := f.quad, cidx := f.cidx, stkBase := f.voff, vaultBase := f.voff + stk, st := .running }

/-- The state in which a resuming gang has its place, its cores and its memory, and its threads are still as they were saved. -/
def State.seated (s : State) (gk : Nat) (f : Fit) : State :=
  let g := s.gang gk
  let stk := 256 * (s.ctx g.ctx).launch.stk * total (g.members.map fun k => (s.wg k).size)
  let v := (s.slotTraps gk).modGang gk fun h => h.placed f stk
  let v := g.members.zipIdx.foldl (fun v x => v.seats f g.ctx x) v
  let v := v.restoreVault gk (s.slotVault gk).1 (s.slotVault gk).2
  let v := (g.members.zip g.saved).foldl (fun v x => v.restoreCore x.1 x.2) v
  let v := v.makeLand gk
  (v.accs.filter fun a => g.members.contains (a.thr / 2048) && !a.performed).foldl State.rehome v

theorem restoreGang_eq (s : State) (gk : Nat) (f : Fit) : s.restoreGang gk f =
    ((s.gang gk).members.foldl (fun v k => v.restoreThreads k ((s.gang gk).slot.getD 0)) (s.seated gk f)).modGang gk fun g =>
      { g with saved := [], vaultImage := [], vaultTags := [], vaultBad := [] } := rfl

/-- What stands when a resuming gang has its place. -/
structure State.Seated (s : State) (gk : Nat) (f : Fit) (u : State) : Prop where
  gang : ∃ stk, u.gang gk = (s.gang gk).placed f stk
  member : ∀ m k, (s.gang gk).members[m]? = some k → u.wg k = (s.wg k).seated f m
  ctx : ∀ k, u.ctx k = { s.ctx k with slots := (u.ctx k).slots }
  thr : ∀ j, u.thr j = { s.thr j with saved := (u.thr j).saved }

theorem seated_seated (hnd : (s.gang gk).members.Nodup) (f : Fit) : s.Seated gk f (s.seated gk f) := by
  unfold State.seated
  dsimp only
  have hr := slotTraps_recalls s gk
  generalize s.slotTraps gk = a at hr
  generalize hb : a.modGang gk (fun h => h.placed f (256 * (s.ctx (s.gang gk).ctx).launch.stk *
    total ((s.gang gk).members.map fun k => (s.wg k).size))) = b
  have hbf : b = { a with gangs := b.gangs } := by rw [← hb]; rfl
  have hbg : ∃ stk, b.gang gk = (s.gang gk).placed f stk := ⟨_, by
    rw [← hb, State.modGang_self, show a.gang gk = s.gang gk by rw [hr.frame]; rfl]⟩
  obtain ⟨hin, hout, hst⟩ := foldl_seats f (s.gang gk).ctx (s.gang gk).members.zipIdx (by rw [List.zipIdx_map_fst]; exact hnd) b
  generalize (s.gang gk).members.zipIdx.foldl (fun v x => v.seats f (s.gang gk).ctx x) b = c at hin hout hst
  have hd := restoreVault_stands c gk (s.slotVault gk).1 (s.slotVault gk).2
  generalize c.restoreVault gk (s.slotVault gk).1 (s.slotVault gk).2 = d at hd
  have he := State.Stands.foldl (f := fun v (x : Nat × SavedCore) => v.restoreCore x.1 x.2)
    (fun v x => restoreCore_stands v x.1 x.2) ((s.gang gk).members.zip (s.gang gk).saved) d
  generalize ((s.gang gk).members.zip (s.gang gk).saved).foldl (fun v x => v.restoreCore x.1 x.2) d = e at he
  have hl := (makeLand_readies e gk).stands
  generalize e.makeLand gk = l at hl
  have hh := State.Stands.foldl (f := State.rehome) (fun v a => rehome_stands v a)
    (l.accs.filter fun a => (s.gang gk).members.contains (a.thr / 2048) && !a.performed) l
  generalize (l.accs.filter fun a => (s.gang gk).members.contains (a.thr / 2048) && !a.performed).foldl State.rehome l = u at hh
  have hcu := ((hd.trans he).trans hl).trans hh
  have hbu := hst.trans hcu
  have hbwg : ∀ k, b.wg k = s.wg k := fun k => by rw [hbf, hr.frame]; rfl
  refine ⟨?_, fun m k hm => ?_, fun k => ?_, fun j => ?_⟩
  · obtain ⟨stk, hstk⟩ := hbg
    refine ⟨stk, ?_⟩
    rw [show u.gang gk = b.gang gk by rw [hbu.frame]; rfl, hstk]
  · rw [show u.wg k = c.wg k by rw [hcu.frame]; rfl, hin (k, m) (List.mem_zipIdx_iff_getElem?.mpr hm), hbwg]
  · have hk : b.ctx k = s.ctx k := by rw [hbf, hr.frame]; rfl
    refine (hbu.ctx k).trans ?_
    rw [← hk]
    rfl
  · rw [show u.thr j = a.thr j by rw [hbu.frame, hbf]; rfl]
    exact hr.thr j

/-- A property that each step gives its member and none takes away. -/
theorem foldl_gives {f : State → Nat → State} {P : State → Nat → Prop} (hself : ∀ s k, P (f s k) k)
    (hkeep : ∀ s k j, P s j → P (f s k) j) (ms : List Nat) (s : State) : ∀ k ∈ ms, P (ms.foldl f s) k := by
  have hall : ∀ (l : List Nat) (s : State) j, P s j → P (l.foldl f s) j := fun l => by
    induction l with
    | nil => exact fun s j h => h
    | cons a l ih => exact fun s j h => ih _ _ (hkeep s a j h)
  induction ms generalizing s with
  | nil => simp
  | cons a ms ih =>
    intro k hk
    rcases List.mem_cons.mp hk with rfl | hk
    · exact hall ms _ k (hself s k)
    · exact ih _ k hk

/-- A workgroup's k registers hold its launch's parameters. -/
def State.HoldsParams (s : State) (k : Nat) : Prop := (s.wg k).k = (s.ctx (s.wg k).ctx).params

theorem restoreThreads_holds (s : State) (k slot : Nat) : (s.restoreThreads k slot).HoldsParams k ∧
    ∀ j, s.HoldsParams j → (s.restoreThreads k slot).HoldsParams j := by
  obtain ⟨hframe, hwg, -⟩ := restoreThreads_spec s k slot
  generalize s.restoreThreads k slot = u at hframe hwg
  have hctx : ∀ j, u.ctx j = s.ctx j := fun j => by rw [hframe]; rfl
  have hself : u.HoldsParams k := by
    unfold State.HoldsParams
    rw [hwg, if_pos rfl, hctx]
  refine ⟨hself, fun j hj => ?_⟩
  by_cases hk : k = j
  · exact hk ▸ hself
  · unfold State.HoldsParams at *
    rw [hwg, if_neg hk, hctx]
    exact hj

/-- The threads of all the members, and what else of the gang stands. -/
theorem restoreGang_spec (f : Fit) (hnd : (s.gang gk).members.Nodup) (hsz : ∀ k ∈ (s.gang gk).members, (s.wg k).size ≤ 2048) :
    let g := s.gang gk
    let u := s.restoreGang gk f
    (u.gang gk).st = .running ∧ (u.gang gk).quad = f.quad ∧ (u.gang gk).cidx = f.cidx ∧ (u.gang gk).saved = [] ∧
      (∀ m k, g.members[m]? = some k → (u.wg k).core = 4 * f.quad + f.cidx + m ∧ (u.wg k).resident = true ∧
        (u.wg k).scrBase = f.offs.getD m 0 ∧ (u.wg k).k = (s.ctx (s.wg k).ctx).params) ∧
      (∀ k ∈ g.members, ∀ i ∈ s.liveTids k, (s.thr (thrKey k i)).Resumes (s.launchOf (s.wg k)).vec (g.slot.getD 0 % 128 + 128)
        (s.wg k).nregs (u.thr (thrKey k i))) := by
  intro g u
  have hu : u = _ := restoreGang_eq s gk f
  clear_value u
  obtain ⟨⟨stk, hgang⟩, hmem, hctx, hthr⟩ := seated_seated hnd f
  generalize s.seated gk f = v at hu hgang hmem hctx hthr
  have hidx : ∀ k ∈ g.members, ∃ m, g.members[m]? = some k := fun k hk => List.mem_iff_getElem?.mp hk
  have hseat : ∀ k ∈ g.members, ∃ m, v.wg k = (s.wg k).seated f m := fun k hk => by
    obtain ⟨m, hm⟩ := hidx k hk
    exact ⟨m, hmem m k hm⟩
  have hsize : ∀ k ∈ g.members, (v.wg k).size = (s.wg k).size := fun k hk => by
    obtain ⟨m, hm⟩ := hseat k hk
    rw [hm]
    rfl
  have hlive : ∀ k ∈ g.members, v.liveTids k = s.liveTids k := fun k hk => liveTids_congr (hsize k hk) fun i _ => by rw [hthr]; rfl
  obtain ⟨⟨hwf, hwwg⟩, -, hres, -⟩ := foldl_touches (f := fun v k => v.restoreThreads k (g.slot.getD 0))
    (I := fun w => w = { v with threads := w.threads, wgs := w.wgs, tick := w.tick } ∧
      ∀ j, w.wg j = { v.wg j with k := (w.wg j).k, badK := (w.wg j).badK, oneK := (w.wg j).oneK })
    (R := fun k => Thread.Resumes (v.launchOf (v.wg k)).vec (g.slot.getD 0 % 128 + 128) (v.wg k).nregs)
    (fun w k ⟨hw, hwg⟩ => by
      obtain ⟨hf, hfwg, ht⟩ := restoreThreads_spec w k (g.slot.getD 0)
      have hvec : (w.launchOf (w.wg k)).vec = (v.launchOf (v.wg k)).vec := by
        unfold State.launchOf
        rw [hwg k, hw]
        rfl
      have hn : (w.wg k).nregs = (v.wg k).nregs := by rw [hwg k]
      rw [hvec, hn] at ht
      refine ⟨⟨?_, fun j => ?_⟩, ht⟩
      · generalize w.restoreThreads k (g.slot.getD 0) = x at hf
        rw [hf, hw]
      · rw [hfwg j]
        split
        · next hk => rw [← hk, hwg k]
        · exact hwg j) g.members hnd v ⟨rfl, fun _ => rfl⟩ fun k hk => by rw [hsize k hk]; exact hsz k hk
  have hpar := foldl_gives (f := fun v k => v.restoreThreads k (g.slot.getD 0)) (P := State.HoldsParams)
    (fun v k => (restoreThreads_holds v k _).1) (fun v k j => (restoreThreads_holds v k _).2 j) g.members v
  generalize g.members.foldl (fun v k => v.restoreThreads k (g.slot.getD 0)) v = w at hu hwf hwwg hres hpar
  have hugang : u.gang gk = { g.placed f stk with saved := [], vaultImage := [], vaultTags := [], vaultBad := [] } := by
    rw [hu, State.modGang_self, show w.gang gk = v.gang gk by rw [hwf]; rfl, hgang]
  have huwg : ∀ k, u.wg k = w.wg k := fun k => by rw [hu]; rfl
  refine ⟨by rw [hugang]; rfl, by rw [hugang]; rfl, by rw [hugang]; rfl, by rw [hugang], fun m k hm => ?_, fun k hk i hi => ?_⟩
  · have hk : k ∈ g.members := List.mem_of_getElem? hm
    have hparams := hpar k hk
    unfold State.HoldsParams at hparams
    have hwctx : (w.wg k).ctx = (s.wg k).ctx := by rw [hwwg k, hmem m k hm]; rfl
    have hparams' : (w.wg k).k = (s.ctx (s.wg k).ctx).params := by
      rw [hparams, hwctx, show w.ctx (s.wg k).ctx = v.ctx (s.wg k).ctx by rw [hwf]; rfl, hctx]
    rw [huwg]
    refine ⟨?_, ?_, ?_, hparams'⟩ <;> rw [hwwg k, hmem m k hm] <;> rfl
  · obtain ⟨m, hm⟩ := hseat k hk
    have hr := hres k hk i (by rw [hlive k hk]; exact hi)
    have hvec : (v.launchOf (v.wg k)).vec = (s.launchOf (s.wg k)).vec := by
      unfold State.launchOf
      rw [hm, hctx]
      rfl
    have hn : (v.wg k).nregs = (s.wg k).nregs := by rw [hm]; rfl
    rw [hvec, hn] at hr
    rw [show u.thr (thrKey k i) = w.thr (thrKey k i) by rw [hu]; rfl]
    obtain ⟨h1, h2, h3, h4, h5, h6, h7⟩ := hr
    exact ⟨h1, h2, h3.trans (by rw [hthr]), h4, h5, h6, h7⟩

theorem exec_gangResume_eq {p : Nat} {w : Nat × Nat} {f : Fit} (h : (s.noteWaits p).placeWinner p = some (w, .back gk, f)) :
    exec (.gangResume p) s = .next ((((s.noteWaits p).placedAs p w f).modFn (fnKey p w.2) fun g =>
      { g with place := placeNext (.back gk) none g.place }).restoreGang gk f) := by
  show execGangResume p s = _
  unfold execGangResume
  dsimp only
  rw [h]

/-- Settles O51: what each event leaves of the gang, its members and their threads. -/
theorem gangsPreempt : Obligations.GangsPreempt := by
  intro s gk g
  refine ⟨fun h => ?request, fun h => ?refused, ?ack,
    fun q hpre hack hrun hw hstep hbusy hleft hread => ?issue,
    fun q slot hpre hsaved hacks hrun hdis hslot hnd hms => hardwareSave_spec hpre hsaved hacks hrun hdis hslot hnd hms,
    fun q hpre hsaved hrun hdis hout => ?free, fun p w f h hnd hsz => ?resume⟩
  case request =>
    have hm := mark_marks s gk false
    obtain ⟨hpre, hslot⟩ := mark_markable h
    refine ⟨_, (exec_preemptionRequest_eq s gk).trans (by rw [if_pos h]), hpre, hslot, ?_, hm.threads, hm.wgs, hm.mem⟩
    rw [hm.gang gk]
    exact (markable_spec h).1
  case refused => exact (exec_preemptionRequest_eq s gk).trans (by rw [if_neg (by simp [h])])
  case ack =>
    intro cls c ready q cores chunk starts hmem hr hpre hack hrun
    obtain ⟨hc, hstop⟩ := stopClass_ready hmem hr
    exact engineStopAck_spec hc hpre hack hrun hstop
  case issue =>
    refine ⟨_, exec_engineStopAck_eq (cls := 0) rfl hpre hack hrun (stopClass_issue hw hstep hbusy hleft hread), ?_, rfl, rfl⟩
    exact acks_gang (v := s.withdrawTags (s.gangThreads gk)) hpre
  case free =>
    exact ⟨_, exec_preemptFree_eq hpre hsaved hrun hdis hout, leaveGang_spec s gk⟩
  case resume =>
    have hexec := exec_gangResume_eq h
    have hnote := noteWaits_frame s p
    generalize hv : ((s.noteWaits p).placedAs p w f).modFn (fnKey p w.2) (fun g => { g with place := placeNext (.back gk) none g.place }) = v
      at hexec
    have hvf : v = { s with pkgs := v.pkgs, dies := v.dies, fns := v.fns } := by
      rw [← hv]
      generalize s.noteWaits p = n at hnote
      rw [placedAs_frame, hnote]
      rfl
    have hvg : v.gang gk = g := by rw [hvf]; rfl
    have hvwg : ∀ k, v.wg k = s.wg k := fun k => by rw [hvf]; rfl
    have hvctx : ∀ k, v.ctx k = s.ctx k := fun k => by rw [hvf]; rfl
    have hvlive : ∀ k, v.liveTids k = s.liveTids k := fun k => by rw [hvf]; rfl
    have hvthr : ∀ k, v.thr k = s.thr k := fun k => by rw [hvf]; rfl
    obtain ⟨hst, hquad, hcidx, hsaved, hmem, hthr⟩ := restoreGang_spec (s := v) (gk := gk) f (by rw [hvg]; exact hnd)
      (by rw [hvg]; intro k hk; rw [hvwg]; exact hsz k hk)
    rw [hvg] at hmem hthr
    refine ⟨_, hexec, hst, hquad, hcidx, hsaved, fun m k hm => ?_, fun k hk i hi => ?_⟩
    · have hmk := hmem m k hm
      rwa [hvwg, hvctx] at hmk
    · obtain ⟨h1, h2, h3, h4, h5, h6, h7⟩ := hthr k hk i (by rw [hvlive]; exact hi)
      refine ⟨h1, h2.trans ?_, h3.trans (by rw [hvthr]), h4, h5, h6.trans (by rw [hvwg]), h7⟩
      unfold State.launchOf
      rw [hvwg, hvctx]

end Sys2Proof.Machine

/-! ### Launches that are accepted, and events that are posted (18_queues R285, R286, R297) -/

namespace Sys2Proof.Machine

variable {s t u v : State} {p : Nat}

/-! #### A word written -/

/-- A word of eight bytes written at a place. -/
theorem word_written (hm : s.MemOk) {m : List Host.Cell} {l n : Nat} (h : m = writeBytes s.mem l (natLe 8 n)) :
    readBytes m l 8 = natLe 8 n ∧ ∀ x, x < l ∨ l + 8 ≤ x → readByte m x = readByte s.mem x := by
  have hlen : (natLe 8 n).length = 8 := length_natLe 8 n
  subst h
  refine ⟨?_, fun x hx => ?_⟩
  · have hr := readBytes_writeBytes hm l (natLe 8 n)
    rwa [hlen] at hr
  · rw [readByte_writeBytes hm, hlen, if_neg (by omega)]

/-! #### Acceptance -/

section
variable {fn num : Nat} {h : Nat × Nat × Nat} {params : List W32}

/-- A good record without a completion address becomes a launch at once. -/
theorem takeRec_accepts (hbad : recBad (s.lqRecord p h) ((s.fn (fnKey p fn)).priv.getLsbD 0) = false)
    (hlim : recLimit (recLaunch (s.lqRecord p h)) = false) (hpodn : fld (s.lqRecord p h) 46 2 = 0)
    (hcpl : fld (s.lqRecord p h) 72 8 = 0) (hpar : s.readParams p fn (recLaunch (s.lqRecord p h)).param 32 = .ok params) :
    s.takeRec p fn num h = (true, s.acceptRec p fn num h (recLaunch (s.lqRecord p h)) params .no) := by
  have hc : s.findCpl p fn (recLaunch (s.lqRecord p h)).cpl = .no := by
    have hz : (recLaunch (s.lqRecord p h)).cpl = 0 := by
      show BitVec.ofNat 64 (fld (s.lqRecord p h) 72 8) = 0
      rw [hcpl]
      rfl
    unfold State.findCpl
    rw [hz]
    rfl
  have hn : (recLaunch (s.lqRecord p h)).podn = 0 := hpodn
  unfold State.takeRec
  dsimp only
  rw [hbad, hlim]
  simp only [Bool.false_eq_true, if_false, if_true]
  rw [hc, hpar]
  dsimp only
  rw [if_neg (by decide), if_pos hn]

/-- The launch context of an accepted record. -/
def State.newCtx (s : State) (p fn num : Nat) (l : Launch) (params : List W32) : Ctx :=
  { fn := fn, launchid := BitVec.ofNat 32 (256 * ((s.pkg p).accCount % 2 ^ 24) + num), launch := l, params := params }

/-- The state in which the record has its context, and its queue still holds it. -/
def State.contextOf (s : State) (p num : Nat) (x : Ctx) : State :=
  let s := s.modPkg p fun g => { g with accCount := g.accCount + 1 }
  { s with ctxs := tset s.ctxs (ctxKey p num) x, homes := tdel s.homes (ctxKey p num) }

theorem acceptRec_eq (s : State) (p fn num : Nat) (h : Nat × Nat × Nat) (l : Launch) (params : List W32) :
    s.acceptRec p fn num h l params .no = ((s.contextOf p num (s.newCtx p fn num l params)).lqNext p h).modFn (fnKey p fn)
      fun f => { f with place := f.place ++ [.fresh (ctxKey p num) 0], podReg := .none } := rfl

theorem contextOf_spec (s : State) (p num : Nat) (x : Ctx) :
    s.contextOf p num x = { s with
      pkgs := (s.contextOf p num x).pkgs, ctxs := (s.contextOf p num x).ctxs, homes := (s.contextOf p num x).homes } ∧
    (∀ k, (s.contextOf p num x).pkg k = if k = p then { s.pkg k with accCount := (s.pkg k).accCount + 1 } else s.pkg k) ∧
    ∀ k, (s.contextOf p num x).ctx k = if k = ctxKey p num then x else s.ctx k := by
  refine ⟨rfl, (modPkg_spec s p fun g => { g with accCount := g.accCount + 1 }).2, fun k => ?_⟩
  refine (tget_tset ..).trans ?_
  by_cases hk : k = ctxKey p num
  · rw [if_pos hk.symm, if_pos hk]
  · rw [if_neg (Ne.symm hk), if_neg hk]
    rfl

/-- What an accepted record leaves. -/
theorem acceptRec_spec {l : Nat} {la : Launch} (hl : s.devLoc p (h.1 + 128 * h.2.1 + 8) = some l) (h8 : l % 8 = 0) (hm : s.MemOk) :
    let u := s.acceptRec p fn num h la params .no
    (∀ k, u.ctx k = if k = ctxKey p num then s.newCtx p fn num la params else s.ctx k) ∧
      (∀ k, u.fn k = if k = fnKey p fn then { s.fn k with place := (s.fn k).place ++ [.fresh (ctxKey p num) 0], podReg := .none }
        else s.fn k) ∧
      (∀ k, u.pkg k = if k = p then { s.pkg k with accCount := (s.pkg k).accCount + 1 } else s.pkg k) ∧
      readBytes u.mem l 8 = natLe 8 (h.2.2 + 1) ∧ (∀ x, x < l ∨ l + 8 ≤ x → readByte u.mem x = readByte s.mem x) ∧
      u.threads = s.threads ∧ u.gangs = s.gangs ∧ u.wgs = s.wgs := by
  rw [acceptRec_eq]
  obtain ⟨hcf, hcp, hcx⟩ := contextOf_spec s p num (s.newCtx p fn num la params)
  generalize s.contextOf p num (s.newCtx p fn num la params) = v at hcf hcp hcx
  have hvl : v.devLoc p (h.1 + 128 * h.2.1 + 8) = some l := by
    unfold State.devLoc at hl ⊢
    rw [hcp, if_pos rfl]
    exact hl
  have hvm : v.MemOk := by
    rw [hcf]
    exact hm
  have hst := devWord_stores v p (h.1 + 128 * h.2.1 + 8) (BitVec.ofNat 64 (h.2.2 + 1))
  have hmem := devWord_mem hvm (BitVec.ofNat 64 (h.2.2 + 1)) hvl h8
  rw [natLe_ofNat64] at hmem
  obtain ⟨hread, hout⟩ := word_written hvm hmem
  rw [show v.lqNext p h = v.devWord p (h.1 + 128 * h.2.1 + 8) (BitVec.ofNat 64 (h.2.2 + 1)) from rfl]
  generalize v.devWord p (h.1 + 128 * h.2.1 + 8) (BitVec.ofNat 64 (h.2.2 + 1)) = w at hst hread hout
  have hwf := hst.frame
  intro u
  have hfns : ∀ k, w.fn k = s.fn k := fun k => by rw [hwf, hcf]; rfl
  refine ⟨fun k => ?_, fun k => ?_, fun k => ?_, hread, fun x hx => ?_, ?_, ?_, ?_⟩
  · rw [← hcx k, show u.ctx k = w.ctx k from rfl, hwf]
    rfl
  · show State.fn (w.modFn _ _) k = _
    rw [State.modFn_fn, hfns, hfns]
    by_cases hk : k = fnKey p fn
    · rw [if_pos hk.symm, if_pos hk, hk]
    · rw [if_neg (Ne.symm hk), if_neg hk]
  · rw [← hcp k, show u.pkg k = w.pkg k from rfl, hwf]
    rfl
  · rw [show u.mem = w.mem from rfl, hout x hx, hcf]
  · show w.threads = s.threads
    rw [hwf, hcf]
  · show w.gangs = s.gangs
    rw [hwf, hcf]
  · show w.wgs = s.wgs
    rw [hwf, hcf]

/-- A winner is remembered where several queues offered. -/
def State.noted (t : State) (p : Nat) (w : Nat × Nat) (b : Bool) : State := if b then t.won p w else t

theorem noted_spec (t : State) (p : Nat) (w : Nat × Nat) (b : Bool) : t.noted p w b = { t with pkgs := (t.noted p w b).pkgs } ∧
    ∀ k, (t.noted p w b).pkg k = if k = p then { t.pkg k with lastwin := ((t.noted p w b).pkg k).lastwin } else t.pkg k := by
  unfold State.noted
  split
  · refine ⟨rfl, fun k => ?_⟩
    unfold State.won
    rw [(modPkg_spec t p _).2 k]
    by_cases hk : k = p
    · rw [if_pos hk, if_pos hk]
    · rw [if_neg hk, if_neg hk]
  · exact ⟨rfl, fun k => by split <;> rfl⟩

theorem exec_launchAccept_eq {w : Nat × Nat} (hready : (s.pkg p).ready = true) (hnum : s.freeCtx p = some num)
    (hw : contest (s.pkg p).lastwin (s.lqOffers p) = some w) (hh : s.lqHead p w.2 = some h) (ht : s.takeRec p w.2 num h = (true, t)) :
    exec (.launchAccept p) s = .next (t.noted p w (decide (1 < (s.lqOffers p).length))) := by
  show execLaunchAccept p s = _
  unfold execLaunchAccept
  rw [hready, hnum, hw]
  dsimp only
  rw [if_neg (by simp), hh]
  dsimp only
  rw [ht]
  rfl

end

/-! #### The pod sequencer's answer -/

theorem podOf_none {key : W64} (h : ∀ x ∈ s.pods, x.key ≠ key) : s.podOf key = none := by
  unfold State.podOf
  rw [List.find?_eq_none]
  intro x hx
  simpa using h x hx

/-- The first registration of a key is granted. -/
theorem podRegisterAnswer_spec {fn : Nat} {h : Nat × Nat × Nat} (hreg : (s.fn (fnKey p fn)).podReg = .waiting)
    (hh : s.lqHead p fn = some h) (hnew : ∀ x ∈ s.pods, x.key ≠ (recLaunch (s.lqRecord p h)).podkey) :
    let r := recLaunch (s.lqRecord p h)
    ∃ u, exec (.podRegisterAnswer p fn) s = .next u ∧
      u.pods = s.pods ++ [{ key := r.podkey, podn := r.podn, decl := podDecl r.incdecl, pkgs := [p] }] ∧
      (∀ k, u.fn k = if k = fnKey p fn then { s.fn k with podReg := .granted r.podkey } else s.fn k) ∧
      u = { s with pods := u.pods, fns := u.fns } := by
  intro r
  have hexec : exec (.podRegisterAnswer p fn) s = .next (State.modFn
      { s with pods := s.pods ++ [{ key := r.podkey, podn := r.podn, decl := podDecl r.incdecl, pkgs := [p] }] } (fnKey p fn)
      fun f => { f with podReg := .granted r.podkey }) := by
    show execPodRegisterAnswer p fn s = _
    unfold execPodRegisterAnswer
    dsimp only
    rw [if_neg (by simp [hreg]), hh]
    dsimp only
    unfold State.register
    rw [podOf_none hnew]
  refine ⟨_, hexec, rfl, fun k => ?_, rfl⟩
  rw [State.modFn_fn]
  by_cases hk : k = fnKey p fn
  · rw [if_pos hk.symm, if_pos hk, hk]
    rfl
  · rw [if_neg (Ne.symm hk), if_neg hk]
    rfl

/-! #### A waiting launch event -/

theorem dropEvent_eq (fn : Nat) (l : List Event) : dropEvent fn l = l.eraseIdx (l.findIdx fun e => e.fn == fn) := by
  induction l with
  | nil => rfl
  | cons e l ih =>
    unfold dropEvent
    rw [List.findIdx_cons]
    by_cases h : e.fn = fn
    · rw [if_pos h, show (e.fn == fn) = true by simpa using h]
      rfl
    · rw [if_neg h, show (e.fn == fn) = false by simpa using h, ih]
      rfl

theorem launchEventPost_spec {fn : Nat} {e : Event} (he : (s.pkg p).events.find? (fun e => e.fn == fn) = some e)
    (ht : s.putEvent p e = some t) : ∃ u, exec (.launchEventPost p fn) s = .next u ∧ u.mem = t.mem ∧
      (u.pkg p).events = (s.pkg p).events.eraseIdx ((s.pkg p).events.findIdx fun e => e.fn == fn) ∧ u.threads = s.threads := by
  have hexec : exec (.launchEventPost p fn) s = .next (t.modPkg p fun g => { g with events := dropEvent fn g.events }) := by
    show execLaunchEventPost p fn s = _
    unfold execLaunchEventPost
    rw [he]
    dsimp only
    rw [ht]
  have hp := putEvent_posts ht
  refine ⟨_, hexec, rfl, ?_, hp.threads⟩
  rw [(modPkg_spec t p _).2 p, if_pos rfl, dropEvent_eq, show t.pkg p = s.pkg p by unfold State.pkg; rw [hp.pkgs]]

end Sys2Proof.Machine

/-! ### Launches that are over (18_queues R287, 09_control R169) -/

namespace Sys2Proof.Machine

variable {s t u v : State} {p ck : Nat}

/-! #### The last offers of a launch -/

/-- What a launch's last offers change: its own home values and what is on its way. -/
structure State.Offered (ck : Nat) (s u : State) : Prop where
  frame : u = { s with offers := u.offers, ctxs := u.ctxs, sillage := u.sillage, nextId := u.nextId }
  self : u.ctx ck = { s.ctx ck with incs := (u.ctx ck).incs }
  rest : ∀ k, k ≠ ck → tfind u.ctxs k = tfind s.ctxs k
  sorted : tsorted s.ctxs = true → tsorted u.ctxs = true

theorem State.Offered.refl (ck : Nat) (s : State) : s.Offered ck s := ⟨rfl, rfl, fun _ _ => rfl, id⟩

theorem State.Offered.trans (h : s.Offered ck t) (h' : t.Offered ck u) : s.Offered ck u where
  frame := by
    conv_lhs => rw [h'.frame]
    rw [h.frame]
  self := by
    conv_lhs => rw [h'.self]
    rw [h.self]
  rest k hk := (h'.rest k hk).trans (h.rest k hk)
  sorted hs := h'.sorted (h.sorted hs)

theorem State.Offered.keeps (h : s.Offered ck u) : u.mem = s.mem ∧ (∀ k, u.fn k = s.fn k) ∧ ∀ k, u.pkg k = s.pkg k := by
  refine ⟨?_, fun k => ?_, fun k => ?_⟩ <;> rw [h.frame] <;> rfl

theorem takeOffer_offered {o : Offer} (ho : o.ctx = ck) (hpodn : (s.ctx ck).launch.podn = 0) : s.Offered ck (s.takeOffer o) := by
  subst ho
  unfold State.takeOffer
  extract_lets x h isMax accept
  split
  · have hset : x.setHome o.ctx o.n (tset h o.n o.inc) = x.modCtx o.ctx fun c => { c with incs := tset h o.n o.inc } :=
      if_neg (by rw [show x.ctx o.ctx = s.ctx o.ctx from rfl, hpodn]; simp)
    rw [hset, spread_frame]
    refine ⟨rfl, ?_, fun k hk => ?_, fun hs => tsorted_tset _ _ hs⟩
    · have hself := State.modCtx_self x o.ctx fun c => { c with incs := tset h o.n o.inc }
      exact hself.trans (congrArg (fun i => ({ s.ctx o.ctx with incs := i } : Ctx)) (congrArg Ctx.incs hself).symm)
    · show tfind (tset _ _ _) k = _
      rw [tfind_tset, if_neg (Ne.symm hk)]
  · exact ⟨rfl, rfl, fun _ _ => rfl, id⟩

theorem lastOffers_offered (hpodn : (s.ctx ck).launch.podn = 0) : s.Offered ck (s.lastOffers ck) := by
  unfold State.lastOffers
  have hall : ∀ o ∈ s.offers.filter fun o => o.ctx == ck, o.ctx = ck := fun o ho => by simpa using (List.mem_filter.mp ho).2
  generalize s.offers.filter (fun o => o.ctx == ck) = l at hall
  induction l generalizing s with
  | nil => exact .refl ck s
  | cons o l ih =>
    rw [List.foldl_cons]
    have ho := takeOffer_offered (hall o List.mem_cons_self) hpodn
    exact ho.trans (ih (by rw [ho.self]; exact hpodn) fun x hx => hall x (List.mem_cons_of_mem _ hx))

/-! #### The launch event -/

/-- A launch event of a function without a placed queue waits. -/
theorem post_waits {e : Event} (hty : e.ty = 2) (hring : (s.fn (fnKey p e.fn)).eqctl.getLsbD 63 = false) :
    s.post p e = s.modPkg p fun g => { g with events := g.events ++ [e] } := by
  have hput : s.putEvent p e = none := by
    unfold State.putEvent ringOf
    dsimp only
    rw [hring]
    rfl
  unfold State.post
  dsimp only
  rw [hput, ite_self]
  exact if_pos hty

/-! #### The context is free -/

theorem mem_freeCtxAll (s : State) (p ck : Nat) :
    (∀ g ∈ (s.freeCtxAll p ck).gangs, g.2.ctx ≠ ck) ∧ ∀ w ∈ (s.freeCtxAll p ck).wgs, w.2.ctx ≠ ck :=
  ⟨fun _ hg => by simpa using (List.mem_filter.mp hg).2, fun _ hw => by simpa using (List.mem_filter.mp hw).2⟩

theorem freeCtxAll_keeps (s : State) (p ck : Nat) : (s.freeCtxAll p ck).ctxs = tdel s.ctxs ck ∧
    (s.freeCtxAll p ck).mem = s.mem ∧ (∀ k, (s.freeCtxAll p ck).fn k = s.fn k) ∧ ∀ k, (s.freeCtxAll p ck).pkg k = s.pkg k :=
  ⟨rfl, rfl, fun _ => rfl, fun _ => rfl⟩

theorem podOver_none {l : Launch} (h : l.podn = 0) : s.podOver p l = s := if_pos h

theorem settleFlr_none {fn : Nat} (h : (s.fn (fnKey p fn)).flr = false) : s.settleFlr p fn = s :=
  if_neg (by rw [h]; simp)

/-- The word that tells of a launch that is over. -/
def Ctx.cplEnd (c : Ctx) : W64 := cplWord c.launchid (if c.aborting then 6 else 0)

theorem Ctx.cplEnd_eq (c : Ctx) : c.cplEnd = BitVec.ofNat 64 (c.launchid.toNat + (if c.aborting then 6 else 0) * 2 ^ 32) := rfl

/-- The launch event of a launch that is over. -/
def Ctx.endEvent (c : Ctx) : Event := { fn := c.fn, ty := 0x02, launchid := c.launchid, value := c.cplEnd }

/-- The state in which a word has been written and a launch event waits. -/
def State.told (s : State) (p l : Nat) (v : W64) (m : StoreMode) (e : Event) : State :=
  (s.homeStore l 8 v m).modPkg p fun g => { g with events := g.events ++ [e] }

theorem told_spec (s : State) (p l : Nat) (v : W64) (m : StoreMode) (e : Event) :
    (s.told p l v m e).ctxs = s.ctxs ∧ (∀ k, (s.told p l v m e).fn k = s.fn k) ∧
      (s.told p l v m e).mem = (s.homeStore l 8 v m).mem ∧ ((s.told p l v m e).pkg p).events = (s.pkg p).events ++ [e] := by
  have h := (homeStore_stores s l 8 v m).frame
  unfold State.told
  generalize s.homeStore l 8 v m = u at h
  have hpkg : u.pkg p = s.pkg p := by rw [h]; rfl
  refine ⟨by rw [h]; rfl, fun k => by rw [h]; rfl, rfl, ?_⟩
  rw [(modPkg_spec u p _).2 p, if_pos rfl, hpkg]

/-- The state in which a launch that is over has told of it. -/
def State.toldEnd (s : State) (p ck l : Nat) : State :=
  s.told p l (s.ctx ck).cplEnd { repl := (s.ctx ck).cplRepl } (s.ctx ck).endEvent

theorem exec_launchComplete_eq {n l : Nat} (hn : n < 256) (hctx : (tfind s.ctxs (ctxKey p n)).isSome)
    (hdone : s.launchDone p (ctxKey p n) = true) (hpodn : (s.ctx (ctxKey p n)).launch.podn = 0)
    (hflr : (s.fn (fnKey p (s.ctx (ctxKey p n)).fn)).flr = false)
    (hring : (s.fn (fnKey p (s.ctx (ctxKey p n)).fn)).eqctl.getLsbD 63 = false) (hcpl : (s.ctx (ctxKey p n)).cplAt = some l) :
    exec (.launchComplete p n) s = .next (((s.toldEnd p (ctxKey p n) l).lastOffers (ctxKey p n)).freeCtxAll p (ctxKey p n)) := by
  have hfns (k : Nat) (v : W64) (m : StoreMode) : (s.homeStore l 8 v m).fn k = s.fn k := by
    rw [(homeStore_stores s l 8 v m).frame]
    rfl
  have htold := told_spec s p l (s.ctx (ctxKey p n)).cplEnd { repl := (s.ctx (ctxKey p n)).cplRepl } (s.ctx (ctxKey p n)).endEvent
  have hfn : (((s.toldEnd p (ctxKey p n) l).lastOffers (ctxKey p n)).freeCtxAll p (ctxKey p n)).fn
      (fnKey p (s.ctx (ctxKey p n)).fn) = s.fn (fnKey p (s.ctx (ctxKey p n)).fn) := by
    obtain ⟨hctxs, hfns, -, -⟩ := htold
    unfold State.toldEnd
    generalize s.told p l _ _ _ = t at hctxs hfns ⊢
    have hof := (lastOffers_offered (ck := ctxKey p n) (s := t) (by unfold State.ctx; rw [hctxs]; exact hpodn)).keeps
    rw [(freeCtxAll_keeps _ p (ctxKey p n)).2.2.1, hof.2.1, hfns]
  show execLaunchComplete p n s = _
  unfold execLaunchComplete
  dsimp only
  rw [if_neg (by
    rw [hdone, show (tfind s.ctxs (ctxKey p n)).isNone = false by rw [← Option.not_isSome, hctx]; rfl]
    simpa using hn), hcpl]
  dsimp only
  rw [post_waits rfl (by rw [hfns]; exact hring), podOver_none hpodn]
  exact congrArg Host.Outcome.next (settleFlr_none (by rw [← hflr]; exact congrArg _ hfn))

/-- A launch that is over writes its completion word, posts its event and frees its context. -/
theorem launchComplete_spec {n l : Nat} (hn : n < 256) (hctx : (tfind s.ctxs (ctxKey p n)).isSome) (hsorted : tsorted s.ctxs = true)
    (hdone : s.launchDone p (ctxKey p n) = true) (hpodn : (s.ctx (ctxKey p n)).launch.podn = 0)
    (hflr : (s.fn (fnKey p (s.ctx (ctxKey p n)).fn)).flr = false)
    (hring : (s.fn (fnKey p (s.ctx (ctxKey p n)).fn)).eqctl.getLsbD 63 = false) (hcpl : (s.ctx (ctxKey p n)).cplAt = some l)
    (h8 : l % 8 = 0) (hm : s.MemOk) :
    let ck := ctxKey p n
    let c := s.ctx ck
    ∃ u, exec (.launchComplete p n) s = .next u ∧ tfind u.ctxs ck = none ∧ (∀ k, k ≠ ck → tfind u.ctxs k = tfind s.ctxs k) ∧
      readBytes u.mem l 8 = natLe 8 (c.launchid.toNat + (if c.aborting then 6 else 0) * 2 ^ 32) ∧
      (∀ x, x < l ∨ l + 8 ≤ x → readByte u.mem x = readByte s.mem x) ∧ (∀ g ∈ u.gangs, g.2.ctx ≠ ck) ∧ (∀ w ∈ u.wgs, w.2.ctx ≠ ck) ∧
      ∃ e ∈ (u.pkg p).events, e.ty = 2 ∧ e.fn = c.fn ∧ e.launchid = c.launchid ∧
        e.value = BitVec.ofNat 64 (c.launchid.toNat + (if c.aborting then 6 else 0) * 2 ^ 32) := by
  intro ck c
  have hmem := homeStore_mem_eq hm c.cplEnd { repl := c.cplRepl } (loc := l) (n := 8) (by omega)
  rw [c.cplEnd_eq, natLe_ofNat64] at hmem
  obtain ⟨hread, hout⟩ := word_written hm hmem
  obtain ⟨hctxs, -, hmemt, hevents⟩ := told_spec s p l c.cplEnd { repl := c.cplRepl } c.endEvent
  have hexec := exec_launchComplete_eq hn hctx hdone hpodn hflr hring hcpl
  rw [show s.toldEnd p (ctxKey p n) l = s.told p l c.cplEnd { repl := c.cplRepl } c.endEvent from rfl] at hexec
  generalize s.told p l c.cplEnd { repl := c.cplRepl } c.endEvent = t at hmemt hctxs hevents hexec
  have hof := lastOffers_offered (ck := ck) (s := t) (by unfold State.ctx; rw [hctxs]; exact hpodn)
  generalize t.lastOffers ck = v at hof hexec
  obtain ⟨hmemv, -, hpkgv⟩ := hof.keeps
  obtain ⟨hgangs, hwgs⟩ := mem_freeCtxAll v p ck
  obtain ⟨hctxsu, hmemu, -, hpkgu⟩ := freeCtxAll_keeps v p ck
  generalize v.freeCtxAll p ck = u at hgangs hwgs hctxsu hmemu hpkgu hexec
  refine ⟨u, hexec, ?_, fun k hk => ?_, ?_, fun x hx => ?_, hgangs, hwgs, c.endEvent, ?_, rfl, rfl, rfl, c.cplEnd_eq⟩
  · rw [hctxsu]
    exact tfind_tdel_self ck (hof.sorted (hctxs ▸ hsorted))
  · rw [hctxsu, tfind_tdel_ne _ (Ne.symm hk), hof.rest k hk, hctxs]
  · rw [hmemu, hmemv, hmemt]
    exact hread
  · rw [hmemu, hmemv, hmemt]
    exact hout x hx
  · rw [hpkgu, hpkgv, hevents]
    exact List.mem_append_right _ List.mem_cons_self

end Sys2Proof.Machine

/-! ### New gangs, and gangs marked for a waiting head (01_machine R15, R20, 18_queues R288, R290) -/

namespace Sys2Proof.Machine

variable {s t u v : State} {p gk : Nat}

/-! #### A new gang -/

theorem total_replicate (n x : Nat) : total (List.replicate n x) = n * x := by
  rw [total, ← List.sum_eq_foldl, List.sum_replicate, smul_eq_mul]

/-- What a fresh gang of a launch is made of. -/
def Ctx.birth (c : Ctx) (p x next : Nat) : Birth :=
  { pkg := p, ctx := x, gangid := BitVec.ofNat 32 next,
    wgids := (List.range c.launch.gang).map fun m => BitVec.ofNat 32 (next * c.launch.gang + m),
    sizes := List.replicate c.launch.gang c.launch.wgsize, params := c.params, slot := c.freeSlot }

/-- The state in which a fresh gang has its place and its function's queue holds what is left of its launch. -/
def State.placedFresh (s : State) (p : Nat) (w : Nat × Nat) (x next : Nat) (f : Fit) : State :=
  let more : Option PlaceEnt := if next + 1 < (s.ctx x).launch.ngang then some (.fresh x (next + 1)) else none
  (s.placedAs p w f).modFn (fnKey p w.2) fun g => { g with place := placeNext (.fresh x next) more g.place }

theorem placedFresh_frame (s : State) (p : Nat) (w : Nat × Nat) (x next : Nat) (f : Fit) :
    (∃ a b c, s.placedFresh p w x next f = { s with pkgs := a, dies := b, fns := c }) ∧
      (s.placedFresh p w x next f).clockOf p = s.clockOf p :=
  ⟨⟨_, _, _, rfl⟩, placedAs_clock s p w f p⟩

theorem placeFresh_eq (s : State) (p : Nat) (w : Nat × Nat) (x next : Nat) (f : Fit) :
    s.placeFresh p w x next f = ((s.placedFresh p w x next f).makeGang ((s.ctx x).birth p x next) f).2 := rfl

theorem exec_gangPlace_eq {w : Nat × Nat} {x next : Nat} {f : Fit} (h : (s.noteWaits p).placeWinner p = some (w, .fresh x next, f)) :
    exec (.gangPlace p) s = .next ((s.noteWaits p).placeFresh p w x next f) := by
  show execGangPlace p s = _
  unfold execGangPlace
  dsimp only
  rw [h]

/-- A placed gang stands with fresh threads at ENTRY. -/
theorem gangPlace_spec {w : Nat × Nat} {x next : Nat} {f : Fit} (h : (s.noteWaits p).placeWinner p = some (w, .fresh x next, f))
    (hsize : (s.ctx x).launch.wgsize ≤ 2048) :
    let c := s.ctx x
    let l := c.launch
    let first := s.nextId + 1
    ∃ u, exec (.gangPlace p) s = .next u ∧
      u.gang s.nextId =
        { pkg := p, ctx := x, gangid := BitVec.ofNat 32 next, quad := f.quad, cidx := f.cidx,
          members := (List.range l.gang).map fun m => first + m, stkBase := f.voff, stk := 256 * l.stk,
          vaultBase := f.voff + 256 * l.stk * (l.gang * l.wgsize), vaultSize := l.vault, slot := c.freeSlot } ∧
      (∀ m < l.gang, u.wg (first + m) =
        { pkg := p, core := 4 * f.quad + f.cidx + m, ctx := x, gang := s.nextId, member := m,
          wgid := BitVec.ofNat 32 (next * l.gang + m), gangid := BitVec.ofNat 32 next, launchid := c.launchid, size := l.wgsize,
          nregs := l.regs, k := c.params, scrBase := f.offs.getD m 0, scrSize := l.scratch }) ∧
      (∀ m < l.gang, ∀ i < l.wgsize, u.thr (thrKey (first + m) i) =
        { x := List.replicate l.regs 0, pc := l.entry, lane := i % Config.gwidth, lead := i - i % Config.gwidth,
          since := s.clockOf p }) ∧
      (∀ k, k / 2048 < s.nextId → u.thr k = s.thr k) ∧ (∀ k < s.nextId, u.wg k = s.wg k ∧ u.gang k = s.gang k) ∧
      (l.replayable = false → u.mem = s.mem) ∧ u.accs = s.accs ∧ u.cmds = s.cmds := by
  intro c l first
  have hexec := exec_gangPlace_eq h
  obtain ⟨⟨a, b, d, hframe⟩, hclock⟩ := placedFresh_frame (s.noteWaits p) p w x next f
  have hnote := noteWaits_frame s p
  rw [placeFresh_eq, show (s.noteWaits p).ctx x = c by rw [hnote]; rfl] at hexec
  generalize hv : (s.noteWaits p).placedFresh p w x next f = v at hframe hclock hexec
  have hvf : v = { s with pkgs := a, dies := b, fns := d } := by rw [hframe, hnote]
  have hvclock : v.clockOf p = s.clockOf p := by rw [hclock, hnote]; rfl
  have hvctx : v.ctx x = c := by rw [hvf]; rfl
  have hvid : v.nextId = s.nextId := by rw [hvf]
  obtain ⟨u, hu, hborn⟩ := makeGang_born v (c.birth p x next) f
  rw [hu] at hexec
  obtain ⟨hbf, -, -, hgang, hwg, hwgOld, hthr, hthrOld, hmem⟩ := hborn
  have hlen : (c.birth p x next).sizes.length = l.gang := List.length_replicate
  have hsz : ∀ m < l.gang, (c.birth p x next).sizes.getD m 0 = l.wgsize := fun m hm => by
    rw [List.getD_eq_getElem _ _ (by rw [hlen]; exact hm)]
    exact List.getElem_replicate _
  have hid : ∀ m < l.gang, (c.birth p x next).wgids.getD m 0 = BitVec.ofNat 32 (next * l.gang + m) := fun m hm => by
    rw [List.getD_eq_getElem _ _ (by simpa [Ctx.birth] using hm)]
    simp [Ctx.birth]
    rfl
  have hmembers : (List.range (c.birth p x next).sizes.length).map (first + ·) = (List.range l.gang).map fun m => first + m := by
    rw [hlen]
  have htotal : total (c.birth p x next).sizes = l.gang * l.wgsize := total_replicate l.gang l.wgsize
  have hctx : v.ctx (c.birth p x next).ctx = c := hvctx
  rw [hctx, hvid] at hwg hthr
  rw [hlen] at hwg hthr
  rw [hctx] at hmem
  have hmem' : l.replayable = false → u.mem = s.mem := fun hr => (hmem hr).trans (by rw [hvf])
  refine ⟨u, hexec, ?_, fun m hm => ?_, fun m hm i hi => ?_, fun k hk => ?_, fun k hk => ⟨?_, ?_⟩, hmem', ?_, ?_⟩
  · rw [hgang, hvid, if_pos rfl, hctx]
    unfold Birth.gang
    rw [hmembers, htotal]
    rfl
  · rw [hwg m hm]
    unfold Birth.wg
    rw [hsz m hm, hid m hm]
    rfl
  · rw [hthr (fun y hy => (List.eq_of_mem_replicate hy).symm ▸ hsize) m hm i (by rw [hsz m hm]; exact hi)]
    rw [show v.clockOf (c.birth p x next).pkg = s.clockOf p from hvclock]
    rfl
  · rw [hthrOld k (by omega), hvf]
    rfl
  · rw [hwgOld k (by omega), hvf]
    rfl
  · rw [hgang, if_neg (by omega), hvf]
    rfl
  · rw [hbf, hvf]
  · rw [hbf, hvf]

end Sys2Proof.Machine

/-! ### Gangs marked for a waiting head, gangs that are over, and launches as a whole (18_queues R284 to R297, 01_machine R20) -/

namespace Sys2Proof.Machine

variable {s t u v : State} {p gk : Nat}

/-! #### A head that has waited -/

/-- Gangs are marked to be saved. -/
def State.markAll (s : State) (gs : List Nat) : State := gs.foldl (fun s g => s.mark g false) s

theorem markAll_marks (s : State) (gs : List Nat) : s.Marks (s.markAll gs) :=
  State.Marks.foldl (f := fun s g => s.mark g false) (fun s g => mark_marks s g false) gs s

/-- A quad that may be emptied holds gangs, and the mark reaches each of them. -/
theorem emptiable_spec {e : PlaceEnt} {q : Nat} {gs : List Nat} (h : s.emptiable p e q = some gs) :
    gs ≠ [] ∧ ∀ g ∈ gs, ((s.markAll gs).gang g).pre ≠ none := by
  unfold State.emptiable at h
  extract_lets gs' low marked t fits at h
  split at h
  · cases h
  · next hall =>
    split at h
    · obtain rfl := Option.some.inj h
      simp only [Bool.or_eq_true, not_or, Bool.not_eq_true, Bool.not_eq_false', List.isEmpty_eq_false_iff, List.all_eq_true] at hall
      obtain ⟨⟨hne, -⟩, hpre⟩ := hall
      exact ⟨hne, fun g hg => Option.isSome_iff_ne_none.mp (hpre g hg)⟩
    · cases h

theorem exec_placementWaitExpiry_eq {fn t : Nat} {e : PlaceEnt} {gs : List Nat} (hsince : (s.fn (fnKey p fn)).since = some t)
    (hhead : s.placeHead p fn = some e) (hlong : t + 170000 ≤ s.clockOf p) (hnone : (s.fn (fnKey p fn)).emptied = [])
    (hslot : ∀ x n, e = .fresh x n → (s.ctx x).freeSlot ≠ none) (hfit : s.entryFit p e = none)
    (hquad : (List.range Config.quadsPerPkg).findSome? (s.emptiable p e) = some gs) :
    exec (.placementWaitExpiry p fn) s = .next ((s.markAll gs).modFn (fnKey p fn) fun f =>
      { f with emptied := gs, since := some (s.clockOf p) }) := by
  show execPlacementWaitExpiry p fn s = _
  unfold execPlacementWaitExpiry
  dsimp only
  rw [hsince, hhead]
  dsimp only
  rw [hfit, hnone, if_neg, hquad]
  · rfl
  · have hnow : ¬ s.clockOf p < t + placeWait := Nat.not_lt.mpr hlong
    cases e with
    | fresh x n => simpa [hnow] using hslot x n rfl
    | back g => simp [hnow]

/-- A head that has waited has the gangs of a quad marked. -/
theorem placementWaitExpiry_spec {fn t : Nat} {e : PlaceEnt} {gs : List Nat} (hsince : (s.fn (fnKey p fn)).since = some t)
    (hhead : s.placeHead p fn = some e) (hlong : t + 170000 ≤ s.clockOf p) (hnone : (s.fn (fnKey p fn)).emptied = [])
    (hslot : ∀ x n, e = .fresh x n → (s.ctx x).freeSlot ≠ none) (hfit : s.entryFit p e = none)
    (hquad : (List.range Config.quadsPerPkg).findSome? (s.emptiable p e) = some gs) :
    ∃ u, exec (.placementWaitExpiry p fn) s = .next u ∧ (∀ g ∈ gs, (u.gang g).pre ≠ none) ∧ gs ≠ [] ∧
      (∀ k, u.fn k = if k = fnKey p fn then { s.fn k with emptied := gs, since := some (s.clockOf p) } else s.fn k) ∧
      u.threads = s.threads ∧ u.mem = s.mem := by
  obtain ⟨q, -, hq⟩ := List.exists_of_findSome?_eq_some hquad
  obtain ⟨hne, hpre⟩ := emptiable_spec hq
  have hm := markAll_marks s gs
  have hexec := exec_placementWaitExpiry_eq hsince hhead hlong hnone hslot hfit hquad
  generalize s.markAll gs = v at hm hpre hexec
  refine ⟨_, hexec, hpre, hne, fun k => ?_, hm.threads, hm.mem⟩
  have hfn : ∀ k, v.fn k = s.fn k := fun k => by rw [hm.frame]; rfl
  rw [State.modFn_fn, hfn, hfn]
  by_cases hk : k = fnKey p fn
  · rw [if_pos hk.symm, if_pos hk, hk]
  · rw [if_neg (Ne.symm hk), if_neg hk]

/-! #### A gang that is over -/

/-- A state with the threads and workgroups of another, and its gangs but for marks and slots. -/
structure State.SameFolk (s u : State) : Prop where
  threads : u.threads = s.threads
  wgs : u.wgs = s.wgs
  gang : ∀ k, (u.gang k).members = (s.gang k).members

theorem State.Scored.sameFolk (h : s.Scored u) : s.SameFolk u := ⟨h.threads, h.wgs, fun k => (congrArg Gang.members (h.gang k)).trans rfl⟩

theorem State.SameFolk.trans (h : s.SameFolk t) (h' : t.SameFolk u) : s.SameFolk u :=
  ⟨h'.threads.trans h.threads, h'.wgs.trans h.wgs, fun k => (h'.gang k).trans (h.gang k)⟩

theorem cleanAll_scored (s : State) (gk : Nat) : s.Scored (s.cleanAll gk) :=
  State.Scored.foldl (f := fun s k => s.cleanDone (s.wg k).pkg (s.wg k).core) (fun s _ => (cleanDone_spec s _ _).1) _ s

/-- Drydown's selection leaves the retiring gang's members and all threads. -/
theorem dryRetire_sameFolk (s : State) (gk : Nat) : s.SameFolk (s.dryRetire gk) := by
  unfold State.dryRetire
  dsimp only
  split
  · exact (cleanAll_scored s gk).sameFolk
  · have hcount := (State.Scored.foldl (f := fun s k => s.count (s.wg k).ckey 9 1) (fun s k => count_scored s _ 9 1)
      (s.gang gk).members s).sameFolk
    generalize (s.gang gk).members.foldl (fun s k => State.count s (s.wg k).ckey 9 1) s = v at hcount ⊢
    split
    · have hskip : v.SameFolk (v.modPkg (s.gang gk).pkg fun p => { p with drySkip := p.drySkip + 1 }) := ⟨rfl, rfl, fun _ => rfl⟩
      exact (hcount.trans hskip).trans (cleanAll_scored _ gk).sameFolk
    · exact hcount.trans ⟨rfl, rfl, fun _ => rfl⟩

/-- What the loss of continuation records leaves. -/
def State.KeepsFolk (s u : State) : Prop := u.threads = s.threads ∧ u.wgs = s.wgs ∧ u.gangs = s.gangs

theorem State.KeepsFolk.trans (h : s.KeepsFolk t) (h' : t.KeepsFolk u) : s.KeepsFolk u :=
  ⟨h'.1.trans h.1, h'.2.1.trans h.2.1, h'.2.2.trans h.2.2⟩

theorem State.KeepsFolk.foldl {α : Type} {f : State → α → State} (hf : ∀ (s : State) a, s.KeepsFolk (f s a)) (l : List α) (s : State) :
    s.KeepsFolk (l.foldl f s) := by
  induction l generalizing s with
  | nil => exact ⟨rfl, rfl, rfl⟩
  | cons a l ih => exact (hf s a).trans (ih _)

theorem setDeque_keepsFolk (s : State) (k : Nat) (l : List DqEnt) : s.KeepsFolk (s.setDeque k l) := by
  have hcore : s.KeepsFolk (s.modCore k fun c => { c with deque := l }) := ⟨rfl, rfl, rfl⟩
  unfold State.setDeque
  refine hcore.trans (State.KeepsFolk.foldl (fun v x => ?_) _ _)
  have hst := bulkRec_stores v (locScratch (k / 640) (k % 640) (s.core k).dqbase.toNat + 128 * x.2) (x.1.bytes ++ List.replicate 56 0)
  exact ⟨hst.threads, hst.wgs, (congrArg State.gangs hst.frame :)⟩

theorem dropAborted_keepsFolk (s : State) (ck : Nat) : s.KeepsFolk (s.dropAborted ck) := by
  unfold State.dropAborted
  dsimp only
  split
  · unfold State.dropRecords
    extract_lets keep v
    have hv : s.KeepsFolk v := ⟨rfl, rfl, rfl⟩
    exact hv.trans (State.KeepsFolk.foldl (f := fun s (x : Nat × Core) => s.setDeque x.1 (x.2.deque.filter keep))
      (fun t x => setDeque_keepsFolk t x.1 _) _ v)
  · exact ⟨rfl, rfl, rfl⟩

theorem exec_gangRetire_eq (hmem : (s.gang gk).members ≠ []) (hrun : (s.gang gk).st = .running) (hover : s.gangOver gk = true)
    (hcheck : s.checking gk = false) : exec (.gangRetire gk) s =
      .next (((if (s.gang gk).check.isNone then s.dryRetire gk else s).retireGang gk).dropAborted (s.gang gk).ctx) := by
  show execGangRetire gk s = _
  unfold execGangRetire
  dsimp only
  rw [if_neg (by simp [hmem, hrun, hover, hcheck])]

/-- A gang that is over retires. -/
theorem gangRetire_spec (hmem : (s.gang gk).members ≠ []) (hrun : (s.gang gk).st = .running) (hover : s.gangOver gk = true)
    (hcheck : s.checking gk = false) :
    ∃ u, exec (.gangRetire gk) s = .next u ∧ (u.gang gk).st = .retired ∧ (u.gang gk).pre = none ∧ (u.gang gk).slot = none ∧
      (∀ k ∈ (s.gang gk).members, (u.wg k).resident = false) ∧ u.threads = s.threads := by
  have hdry : s.SameFolk (if (s.gang gk).check.isNone then s.dryRetire gk else s) := by
    split
    · exact dryRetire_sameFolk s gk
    · exact ⟨rfl, rfl, fun _ => rfl⟩
  have hexec := exec_gangRetire_eq hmem hrun hover hcheck
  generalize (if (s.gang gk).check.isNone then s.dryRetire gk else s) = v at hdry hexec
  have hret := retireGang_retires v gk
  generalize v.retireGang gk = w at hret hexec
  obtain ⟨hthr, hwgs, hgangs⟩ := dropAborted_keepsFolk w (s.gang gk).ctx
  generalize w.dropAborted (s.gang gk).ctx = u at hthr hwgs hgangs hexec
  obtain ⟨hst, hpre, hslot⟩ := hret.self
  have hug : u.gang gk = w.gang gk := by unfold State.gang; rw [hgangs]
  refine ⟨u, hexec, hug ▸ hst, hug ▸ hpre, hug ▸ hslot, fun k hk => ?_, ?_⟩
  · rw [show u.wg k = w.wg k by unfold State.wg; rw [hwgs]]
    exact hret.gone k (by rw [hdry.gang]; exact hk)
  · rw [hthr, show w.threads = v.threads by rw [hret.frame], hdry.threads]

/-! #### Launches -/

/-- Settles O50: what each event leaves of the launch, its gangs and its function's queues. -/
theorem launchesRun : Obligations.LaunchesRun := by
  intro s p
  refine ⟨?accept, fun fn h hreg hh => ?register, ?complete, fun fn e t he ht => launchEventPost_spec he ht,
    fun w x next f h => ?place, fun fn t e gs hsince hhead hlong hnone hslot hfit hquad => ?expiry, ?retire⟩
  case accept =>
    intro num w h params l hready hnum hw hh r hbad hlim hpodn hcpl hpar hl h8 hm ck
    have hexec := exec_launchAccept_eq hready hnum hw hh (takeRec_accepts hbad hlim hpodn hcpl hpar)
    obtain ⟨hctx, hfn, hpkg, hread, hout, hthr, hgangs, hwgs⟩ := acceptRec_spec (fn := w.2) (num := num) (params := params)
      (la := recLaunch r) hl h8 hm
    generalize s.acceptRec p w.2 num h (recLaunch r) params .no = t at hexec hctx hfn hpkg hread hout hthr hgangs hwgs
    obtain ⟨hnf, hnp⟩ := noted_spec t p w (decide (1 < (s.lqOffers p).length))
    generalize t.noted p w (decide (1 < (s.lqOffers p).length)) = u at hnf hnp hexec
    refine ⟨u, hexec, fun k => ?_, fun k => ?_, fun k => ?_, ?_, fun x hx => ?_, ?_, ?_, ?_⟩
    · rw [show u.ctx k = t.ctx k by rw [hnf]; rfl]
      exact hctx k
    · rw [show u.fn k = t.fn k by rw [hnf]; rfl]
      exact hfn k
    · rw [hnp k, hpkg k]
      split
      · next hk => rw [hnp k, hpkg k, if_pos hk, if_pos hk]
      · rfl
    · rw [show u.mem = t.mem by rw [hnf]]
      exact hread
    · rw [show u.mem = t.mem by rw [hnf]]
      exact hout x hx
    · rw [show u.threads = t.threads by rw [hnf], hthr]
    · rw [show u.gangs = t.gangs by rw [hnf], hgangs]
    · rw [show u.wgs = t.wgs by rw [hnf], hwgs]
  case register => exact podRegisterAnswer_spec hreg hh
  case complete =>
    intro n l hn ck c hctx hsorted hdone hpodn hflr hring hcpl h8 hm
    exact launchComplete_spec hn hctx hsorted hdone hpodn hflr hring hcpl h8 hm
  case place => exact fun hsize => gangPlace_spec h hsize
  case expiry => exact placementWaitExpiry_spec hsince hhead hlong hnone hslot hfit hquad
  case retire =>
    intro gk g hmem hrun hover hcheck
    exact gangRetire_spec hmem hrun hover hcheck

end Sys2Proof.Machine
